-- ==== Sys2Proof/Word.lean ====
section
/-!
DEFINITION. The word types of the GX-740 and the sparse maps State is made of.

A sparse map is a list of (key, value) pairs with strictly rising keys; a key that is not listed holds a value the
reader names (the reset value of what the map holds).
-/

namespace Sys2Proof

/-- A general register, an address, a program counter: 64 bits (R48). -/
abbrev Word := BitVec 64

abbrev Byte := BitVec 8

/-- A sparse map: (key, value), keys strictly rising. -/
abbrev FMap (α : Type) := List (Nat × α)

/-- What the map holds at `k`, if it lists `k`. -/
def FMap.find {α : Type} : FMap α → Nat → Option α
  | [], _ => none
  | (j, x) :: m, k => if k = j then some x else FMap.find m k

/-- What the map holds at `k`; `d` where `k` is not listed. -/
def FMap.get {α : Type} (m : FMap α) (k : Nat) (d : α) : α := (m.find k).getD d

/-- The map with `x` at `k`. -/
def FMap.put {α : Type} : FMap α → Nat → α → FMap α
  | [], k, x => [(k, x)]
  | (j, y) :: m, k, x =>
    if k = j then (k, x) :: m
    else if k < j then (k, x) :: (j, y) :: m
    else (j, y) :: FMap.put m k x

/-- The map without `k`. -/
def FMap.del {α : Type} (m : FMap α) (k : Nat) : FMap α := m.filter (fun e => !decide (e.1 = k))

/-- The keys of a map, in order. -/
def FMap.keys {α : Type} (m : FMap α) : List Nat := m.map (·.1)

/-- The values of a map, in the order of their keys. -/
def FMap.vals {α : Type} (m : FMap α) : List α := m.map (·.2)

/-- Bits `lo` to `lo + w - 1` of `x`. -/
def bits (x lo w : Nat) : Nat := x / 2 ^ lo % 2 ^ w

/-- Bits `lo` to `lo + w - 1` of a word, as a number. -/
def fld (x : Word) (lo w : Nat) : Nat := bits x.toNat lo w

/-- `x` read as a two's-complement number of `n` bits (R45's integer types, sext of R36). -/
def sextNat (x n : Nat) : Int :=
  if 2 ^ n ≤ 2 * (x % 2 ^ n) then (x % 2 ^ n : Nat) - (2 ^ n : Nat) else ((x % 2 ^ n : Nat) : Int)

/-- An integer modulo 2^64 (w64 of R156). -/
def w64 (x : Int) : Word := BitVec.ofInt 64 x

/-- A signed integer clamped to [lo, hi]. -/
def clampInt (lo hi x : Int) : Int := if x < lo then lo else if hi < x then hi else x

/-- Quotient rounded up. -/
def cdiv (a b : Nat) : Nat := (a + b - 1) / b

/-- The first `n` numbers. -/
def upTo (n : Nat) : List Nat := List.range n

/-- Little-endian value of a list of bytes (R2). -/
def leNat : List Byte → Nat
  | [] => 0
  | b :: bs => b.toNat + 256 * leNat bs

/-- The `n` low bytes of `x`, least significant first (R2). -/
def leBytes : Nat → Nat → List Byte
  | 0, _ => []
  | n + 1, x => BitVec.ofNat 8 x :: leBytes n (x / 256)

/-- mix64 of R79. -/
def mix64 (x : Word) : Word :=
  let x := (x ^^^ (x >>> 30)) * 0xBF58476D1CE4E5B9
  let x := (x ^^^ (x >>> 27)) * 0x94D049BB133111EB
  x ^^^ (x >>> 31)

end Sys2Proof
end

