-- ==== Sys2Proof/Syntax.lean ====
section
/-!
DEFINITION. Every row of the table of operations and events as a constructor of one type.

The first part are the instruction forms (R62 to R65, R157 to R453), with the fields of their tail forms (R41).
The second part are the steps that no head encodes: what an engine, a unit, the host or the outside does, and the parts
of an instruction that the table gives a row of their own. What the outside brings to such a step (which unit, which
data) stands in the state, in its field `inp`.
-/

namespace Sys2Proof


/-- An instruction, or a step of the machine: one constructor for each row of the table. -/
inductive Instr where
  | nop
  | halt
  | brk (code : BitVec 16)
  | trap (code : BitVec 16)
  | eret
  | fence (sc : BitVec 3) (i : Bool)
  | chunkEnd
  | srr (a : BitVec 6) (num : BitVec 16)
  | srw (a : BitVec 6) (num : BitVec 16)
  | liI16 (a : BitVec 6) (imm : BitVec 16)
  | liI32 (a : BitVec 6) (imm : BitVec 32)
  | liI48 (a : BitVec 6) (imm : BitVec 48)
  | liHi (a : BitVec 6) (imm : BitVec 48)
  | leaBase (a : BitVec 6) (b : BitVec 6) (imm : BitVec 16)
  | leaPc (a : BitVec 6) (imm : BitVec 16)
  | leaIndex (a : BitVec 6) (b : BitVec 6) (c : BitVec 6) (sh : BitVec 2) (imm : BitVec 32)
  | leaPcIndex (a : BitVec 6) (c : BitVec 6) (sh : BitVec 2) (imm : BitVec 32)
  | addRr (a : BitVec 6) (b : BitVec 6) (c : BitVec 6)
  | subRr (a : BitVec 6) (b : BitVec 6) (c : BitVec 6)
  | andRr (a : BitVec 6) (b : BitVec 6) (c : BitVec 6)
  | orRr (a : BitVec 6) (b : BitVec 6) (c : BitVec 6)
  | xorRr (a : BitVec 6) (b : BitVec 6) (c : BitVec 6)
  | shlRr (a : BitVec 6) (b : BitVec 6) (c : BitVec 6)
  | shrRr (a : BitVec 6) (b : BitVec 6) (c : BitVec 6)
  | sraRr (a : BitVec 6) (b : BitVec 6) (c : BitVec 6)
  | minRr (a : BitVec 6) (b : BitVec 6) (c : BitVec 6)
  | maxRr (a : BitVec 6) (b : BitVec 6) (c : BitVec 6)
  | minuRr (a : BitVec 6) (b : BitVec 6) (c : BitVec 6)
  | maxuRr (a : BitVec 6) (b : BitVec 6) (c : BitVec 6)
  | addRi16 (a : BitVec 6) (b : BitVec 6) (imm : BitVec 16)
  | andRi16 (a : BitVec 6) (b : BitVec 6) (imm : BitVec 16)
  | orRi16 (a : BitVec 6) (b : BitVec 6) (imm : BitVec 16)
  | xorRi16 (a : BitVec 6) (b : BitVec 6) (imm : BitVec 16)
  | shlRi16 (a : BitVec 6) (b : BitVec 6) (imm : BitVec 16)
  | shrRi16 (a : BitVec 6) (b : BitVec 6) (imm : BitVec 16)
  | sraRi16 (a : BitVec 6) (b : BitVec 6) (imm : BitVec 16)
  | addRri32 (a : BitVec 6) (b : BitVec 6) (imm : BitVec 32)
  | andRri32 (a : BitVec 6) (b : BitVec 6) (imm : BitVec 32)
  | orRri32 (a : BitVec 6) (b : BitVec 6) (imm : BitVec 32)
  | xorRri32 (a : BitVec 6) (b : BitVec 6) (imm : BitVec 32)
  | cmpRr (a : BitVec 6) (b : BitVec 6) (c : BitVec 6) (cc : BitVec 4)
  | cmpRi16 (a : BitVec 6) (b : BitVec 6) (cc : BitVec 4) (imm : BitVec 16)
  | bfx (a : BitVec 6) (b : BitVec 6) (s : Bool) (p : BitVec 6) (w1 : BitVec 6)
  | bfi (a : BitVec 6) (b : BitVec 6) (p : BitVec 6) (w1 : BitVec 6)
  | clz (a : BitVec 6) (b : BitVec 6)
  | popc (a : BitVec 6) (b : BitVec 6)
  | mul (a : BitVec 6) (b : BitVec 6) (c : BitVec 6)
  | mulh (a : BitVec 6) (b : BitVec 6) (c : BitVec 6)
  | mulhu (a : BitVec 6) (b : BitVec 6) (c : BitVec 6)
  | div (a : BitVec 6) (b : BitVec 6) (c : BitVec 6)
  | divu (a : BitVec 6) (b : BitVec 6) (c : BitVec 6)
  | rem (a : BitVec 6) (b : BitVec 6) (c : BitVec 6)
  | remu (a : BitVec 6) (b : BitVec 6) (c : BitVec 6)
  | ldRi16 (a : BitVec 6) (b : BitVec 6) (sz : BitVec 2) (s : Bool) (nt : Bool) (imm : BitVec 16)
  | ldRri32 (a : BitVec 6) (b : BitVec 6) (c : BitVec 6) (sz : BitVec 2) (s : Bool) (nt : Bool) (sh : BitVec 2) (imm : BitVec 32)
  | stRi16 (a : BitVec 6) (b : BitVec 6) (sz : BitVec 2) (nt : Bool) (imm : BitVec 16)
  | stRri32 (a : BitVec 6) (b : BitVec 6) (c : BitVec 6) (sz : BitVec 2) (nt : Bool) (sh : BitVec 2) (imm : BitVec 32)
  | lda (a : BitVec 6) (b : BitVec 6) (sz : BitVec 2) (s : Bool) (sc : BitVec 3) (imm : BitVec 16)
  | stl (a : BitVec 6) (b : BitVec 6) (sz : BitVec 2) (sc : BitVec 3) (imm : BitVec 16)
  | aadd (a : BitVec 6) (b : BitVec 6) (c : BitVec 6) (dw : Bool) (sc : BitVec 3)
  | amin (a : BitVec 6) (b : BitVec 6) (c : BitVec 6) (dw : Bool) (u : Bool) (sc : BitVec 3)
  | amax (a : BitVec 6) (b : BitVec 6) (c : BitVec 6) (dw : Bool) (u : Bool) (sc : BitVec 3)
  | aand (a : BitVec 6) (b : BitVec 6) (c : BitVec 6) (dw : Bool) (sc : BitVec 3)
  | aor (a : BitVec 6) (b : BitVec 6) (c : BitVec 6) (dw : Bool) (sc : BitVec 3)
  | axor (a : BitVec 6) (b : BitVec 6) (c : BitVec 6) (dw : Bool) (sc : BitVec 3)
  | aswap (a : BitVec 6) (b : BitVec 6) (c : BitVec 6) (dw : Bool) (sc : BitVec 3)
  | acas (a : BitVec 6) (b : BitVec 6) (c : BitVec 6) (d : BitVec 6) (dw : Bool) (sc : BitVec 3)
  | bRi16 (a : BitVec 6) (b : BitVec 6) (cc : BitVec 4) (imm : BitVec 16)
  | bRri32 (a : BitVec 6) (b : BitVec 6) (cc : BitVec 4) (imm : BitVec 32)
  | jal (a : BitVec 6) (imm : BitVec 32)
  | jalr (a : BitVec 6) (b : BitVec 6) (imm : BitVec 16)
  | hstart (a : BitVec 6) (b : BitVec 6) (c : BitVec 6) (nw : Bool) (det : Bool) (imm : BitVec 32)
  | hjoin (a : BitVec 6) (b : BitVec 6)
  | hend
  | hyield
  | gang (a : BitVec 6) (size : BitVec 3)
  | split
  | phaseT
  | phaseE
  | tideRd (a : BitVec 6)
  | tideWait (a : BitVec 6) (b : BitVec 6) (strict : Bool) (imm : BitVec 16)
  | waitmem (a : BitVec 6) (b : BitVec 6) (sz : BitVec 2) (imm : BitVec 16)
  | sendmsg (a : BitVec 6) (b : BitVec 6) (c : BitVec 6) (tag : BitVec 16)
  | waitmsg
  | vadd (a : BitVec 6) (b : BitVec 6) (c : BitVec 6) (kp : BitVec 3) (z : Bool) (rm : BitVec 3) (t : BitVec 4)
  | vsub (a : BitVec 6) (b : BitVec 6) (c : BitVec 6) (kp : BitVec 3) (z : Bool) (rm : BitVec 3) (t : BitVec 4)
  | vmul (a : BitVec 6) (b : BitVec 6) (c : BitVec 6) (kp : BitVec 3) (z : Bool) (rm : BitVec 3) (t : BitVec 4)
  | vmin (a : BitVec 6) (b : BitVec 6) (c : BitVec 6) (kp : BitVec 3) (z : Bool) (rm : BitVec 3) (t : BitVec 4)
  | vmax (a : BitVec 6) (b : BitVec 6) (c : BitVec 6) (kp : BitVec 3) (z : Bool) (rm : BitVec 3) (t : BitVec 4)
  | vrcpe (a : BitVec 6) (b : BitVec 6) (kp : BitVec 3) (z : Bool) (rm : BitVec 3) (t : BitVec 4)
  | vrsqe (a : BitVec 6) (b : BitVec 6) (kp : BitVec 3) (z : Bool) (rm : BitVec 3) (t : BitVec 4)
  | vexp2 (a : BitVec 6) (b : BitVec 6) (kp : BitVec 3) (z : Bool) (rm : BitVec 3) (t : BitVec 4)
  | vlog2 (a : BitVec 6) (b : BitVec 6) (kp : BitVec 3) (z : Bool) (rm : BitVec 3) (t : BitVec 4)
  | vfma (a : BitVec 6) (b : BitVec 6) (c : BitVec 6) (d : BitVec 6) (kp : BitVec 3) (z : Bool) (rm : BitVec 3) (t : BitVec 4) (var : BitVec 2) (wide : Bool) (h : Bool)
  | vrefn (a : BitVec 6) (b : BitVec 6) (c : BitVec 6) (kp : BitVec 3) (z : Bool) (rm : BitVec 3) (t : BitVec 4) (var : BitVec 2)
  | viadd (a : BitVec 6) (b : BitVec 6) (c : BitVec 6) (kp : BitVec 3) (z : Bool) (t : BitVec 4)
  | visub (a : BitVec 6) (b : BitVec 6) (c : BitVec 6) (kp : BitVec 3) (z : Bool) (t : BitVec 4)
  | vimul (a : BitVec 6) (b : BitVec 6) (c : BitVec 6) (kp : BitVec 3) (z : Bool) (t : BitVec 4) (part : BitVec 2)
  | vimin (a : BitVec 6) (b : BitVec 6) (c : BitVec 6) (kp : BitVec 3) (z : Bool) (t : BitVec 4) (u : Bool)
  | vimax (a : BitVec 6) (b : BitVec 6) (c : BitVec 6) (kp : BitVec 3) (z : Bool) (t : BitVec 4) (u : Bool)
  | vishl (a : BitVec 6) (b : BitVec 6) (c : BitVec 6) (kp : BitVec 3) (z : Bool) (t : BitVec 4)
  | vishr (a : BitVec 6) (b : BitVec 6) (c : BitVec 6) (kp : BitVec 3) (z : Bool) (t : BitVec 4) (u : Bool)
  | vand (a : BitVec 6) (b : BitVec 6) (c : BitVec 6) (kp : BitVec 3) (z : Bool) (t : BitVec 4)
  | vor (a : BitVec 6) (b : BitVec 6) (c : BitVec 6) (kp : BitVec 3) (z : Bool) (t : BitVec 4)
  | vxor (a : BitVec 6) (b : BitVec 6) (c : BitVec 6) (kp : BitVec 3) (z : Bool) (t : BitVec 4)
  | vcmp (a : BitVec 6) (b : BitVec 6) (c : BitVec 6) (kp : BitVec 3) (z : Bool) (rm : BitVec 3) (cc : BitVec 4) (ft : BitVec 2)
  | vicmp (a : BitVec 6) (b : BitVec 6) (c : BitVec 6) (kp : BitVec 3) (z : Bool) (cc : BitVec 4) (w : BitVec 3)
  | kwhile (a : BitVec 6) (b : BitVec 6) (c : BitVec 6) (w : BitVec 2) (u : Bool)
  | kand (a : BitVec 6) (b : BitVec 6) (c : BitVec 6)
  | kor (a : BitVec 6) (b : BitVec 6) (c : BitVec 6)
  | kxor (a : BitVec 6) (b : BitVec 6) (c : BitVec 6)
  | kandn (a : BitVec 6) (b : BitVec 6) (c : BitVec 6)
  | kmov (a : BitVec 6) (b : BitVec 6)
  | knot (a : BitVec 6) (b : BitVec 6)
  | kcnt (a : BitVec 6) (b : BitVec 6) (w : BitVec 2)
  | vwidth (a : BitVec 6)
  | vld (a : BitVec 6) (b : BitVec 6) (kp : BitVec 3) (z : Bool) (t : BitVec 4) (nt : Bool) (imm : BitVec 32)
  | vst (a : BitVec 6) (b : BitVec 6) (kp : BitVec 3) (t : BitVec 4) (nt : Bool) (imm : BitVec 32)
  | vlds (a : BitVec 6) (b : BitVec 6) (c : BitVec 6) (kp : BitVec 3) (z : Bool) (t : BitVec 4) (nt : Bool) (imm : BitVec 32)
  | vsts (a : BitVec 6) (b : BitVec 6) (c : BitVec 6) (kp : BitVec 3) (t : BitVec 4) (nt : Bool) (imm : BitVec 32)
  | vgath (a : BitVec 6) (b : BitVec 6) (c : BitVec 6) (kp : BitVec 3) (z : Bool) (t : BitVec 4) (nt : Bool) (sh : BitVec 2) (imm : BitVec 32)
  | vscat (a : BitVec 6) (b : BitVec 6) (c : BitVec 6) (kp : BitVec 3) (t : BitVec 4) (nt : Bool) (sh : BitVec 2) (imm : BitVec 32)
  | vcvt (a : BitVec 6) (b : BitVec 6) (kp : BitVec 3) (z : Bool) (rm : BitVec 3) (ts : BitVec 4) (td : BitVec 4) (p : BitVec 3) (u : Bool)
  | vpack (a : BitVec 6) (b : BitVec 6) (d : BitVec 6) (kp : BitVec 3) (z : Bool) (rm : BitVec 3) (ts : BitVec 4) (td : BitVec 4) (p : BitVec 3) (u : Bool)
  | vunpk (a : BitVec 6) (b : BitVec 6) (d : BitVec 6) (kp : BitVec 3) (z : Bool) (rm : BitVec 3) (ts : BitVec 4) (td : BitVec 4) (p : BitVec 3) (u : Bool)
  | vdotf8 (a : BitVec 6) (b : BitVec 6) (c : BitVec 6) (kp : BitVec 3) (rm : BitVec 3) (ta : BitVec 4) (tb : BitVec 4) (j : BitVec 9)
  | vdoti8 (a : BitVec 6) (b : BitVec 6) (c : BitVec 6) (kp : BitVec 3) (ta : BitVec 4) (tb : BitVec 4) (j : BitVec 9)
  | vred (a : BitVec 6) (b : BitVec 6) (kp : BitVec 3) (rm : BitVec 3) (t : BitVec 4) (o : BitVec 2) (j : BitVec 10)
  | vscan (a : BitVec 6) (b : BitVec 6) (kp : BitVec 3) (z : Bool) (rm : BitVec 3) (t : BitVec 4) (o : BitVec 2)
  | vperm (a : BitVec 6) (b : BitVec 6) (c : BitVec 6) (d : BitVec 6) (kp : BitVec 3) (z : Bool) (t : BitVec 4) (two : Bool)
  | vbcast (a : BitVec 6) (b : BitVec 6) (c : BitVec 6) (kp : BitVec 3) (z : Bool) (t : BitVec 4) (el : Bool)
  | vsel (a : BitVec 6) (b : BitVec 6) (c : BitVec 6) (kp : BitVec 3) (t : BitVec 4)
  | vpeer (a : BitVec 6) (b : BitVec 6) (mode : BitVec 2) (imm : BitVec 16)
  | vhist (b : BitVec 6) (kp : BitVec 3) (t : BitVec 4)
  | vseedRd (a : BitVec 6)
  | vseedWr (b : BitVec 6)
  | vseedXchg (a : BitVec 6) (b : BitVec 6)
  | vext (a : BitVec 6) (b : BitVec 6) (t : BitVec 4) (s : Bool) (idx : BitVec 16)
  | vins (a : BitVec 6) (b : BitVec 6) (t : BitVec 4) (idx : BitVec 16)
  | bbGet (a : BitVec 6) (b : BitVec 6) (r : Bool) (s : Bool) (imm : BitVec 16)
  | bbPeek (a : BitVec 6) (b : BitVec 6) (r : Bool) (s : Bool) (imm : BitVec 16)
  | bbSkip (b : BitVec 6) (r : Bool) (imm : BitVec 16)
  | bbFill (a : BitVec 6)
  | bbDec (a : BitVec 6) (imm : BitVec 16)
  | bbSave (b : BitVec 6) (imm : BitVec 16)
  | bbRest (b : BitVec 6) (imm : BitVec 16)
  | xreq (a : BitVec 6) (b : BitVec 6)
  | xstat (a : BitVec 6)
  | launch (a : BitVec 6) (b : BitVec 6) (q : BitVec 16)
  | evwait (a : BitVec 6) (b : BitVec 6) (sc : BitVec 3) (imm : BitVec 16)
  | evsig (a : BitVec 6) (b : BitVec 6) (sc : BitVec 3) (imm : BitVec 16)
  | lqstat (a : BitVec 6) (q : BitVec 16)
  | yieldOp
  | sync (a : BitVec 6) (lv : BitVec 3)
  | dtake (a : BitVec 6) (t : BitVec 16)
  | dplaceStart (a : BitVec 6) (b : BitVec 6) (c : BitVec 6) (l : BitVec 32)
  | dplacePreq (a : BitVec 6) (b : BitVec 6) (c : BitVec 6) (l : BitVec 32)
  | dplaceSave (a : BitVec 6) (b : BitVec 6) (c : BitVec 6) (l : BitVec 32)
  | dplaceRest (a : BitVec 6) (b : BitVec 6) (c : BitVec 6) (l : BitVec 32)
  | dplaceKill (a : BitVec 6) (b : BitVec 6) (c : BitVec 6) (l : BitVec 32)
  | cpyPk (a : BitVec 6) (b : BitVec 6) (c : BitVec 6) (nt : Bool) (tag : BitVec 32)
  | cpyLand (a : BitVec 6) (b : BitVec 6) (c : BitVec 6) (nt : Bool) (tag : BitVec 32)
  | cpyRec (a : BitVec 6) (b : BitVec 6) (c : BitVec 6) (nt : Bool) (tag : BitVec 32)
  | cpyLoop (a : BitVec 6) (b : BitVec 6) (c : BitVec 6) (nt : Bool) (tag : BitVec 32)
  | cpycan (a : BitVec 6) (b : BitVec 6)
  | landAcq (a : BitVec 6) (b : BitVec 6) (r : BitVec 4) (chk : Bool) (nw : Bool)
  | landRel (b : BitVec 6) (r : BitVec 4)
  | landInit (a : BitVec 6) (b : BitVec 6) (c : BitVec 6) (r : BitVec 4)
  | halloc (a : BitVec 6) (b : BitVec 6) (c : BitVec 6) (nt : Bool)
  | hfree (a : BitVec 6) (b : BitVec 6)
  | hbump (a : BitVec 6) (b : BitVec 6) (c : BitVec 6)
  | jpeek (a : BitVec 6) (b : BitVec 6)
  | jdrop
  | bget (a : BitVec 6) (nw : Bool)
  | bstreamMove (a : BitVec 6) (b : BitVec 6) (c : BitVec 6) (d : BitVec 6)
  | bstreamOwner (a : BitVec 6)
  | bstreamFwd (b : BitVec 6)
  | blandWait (a : BitVec 6) (b : BitVec 6)
  | blandFill (b : BitVec 6)
  | blandDone (b : BitVec 6) (c : BitVec 6)
  | pjob (a : BitVec 6) (b : BitVec 6)
  | ppoll (a : BitVec 6) (b : BitVec 6)
  | pwait (a : BitVec 6) (b : BitVec 6)
  | pcan (a : BitVec 6) (b : BitVec 6)
  | pheatSet (a : BitVec 6) (b : BitVec 6)
  | pheatAdd (a : BitVec 6) (b : BitVec 6)
  | pmonRing (a : BitVec 6) (b : BitVec 6)
  | pmonBank (a : BitVec 6) (b : BitVec 6)
  | pmonTemp (a : BitVec 6) (b : BitVec 6)
  | psettle (a : BitVec 6) (b : BitVec 6) (go : Bool) (t : BitVec 16)
  | pcalFull (a : BitVec 6)
  | pcalOfs (a : BitVec 6)
  | pmapRd (a : BitVec 6) (b : BitVec 6)
  | pmapSwap (a : BitVec 6) (b : BitVec 6)
  | pmapIdent (a : BitVec 6) (b : BitVec 6)
  | pstat (a : BitVec 6) (sel : BitVec 16)
  | prowgoDrop
  | prowgoMem
  | prowgoLand (b : BitVec 6)
  | paccRdN (a : BitVec 6) (b : BitVec 6)
  | paccRdP (a : BitVec 6) (b : BitVec 6)
  | towEnter (a : BitVec 6) (b : BitVec 6) (c : BitVec 6)
  | towExit (a : BitVec 6) (b : BitVec 6)
  | towStat (a : BitVec 6) (b : BitVec 6)
  | towWait (a : BitVec 6) (b : BitVec 6)
  | fenrol (a : BitVec 6) (b : BitVec 6) (att : BitVec 4) (nent : BitVec 16)
  | fleave (a : BitVec 6) (att : BitVec 4)
  | frb (a : BitVec 6) (b : BitVec 6) (c : BitVec 6) (rm : BitVec 3) (ent : BitVec 10) (att : BitVec 4)
  | fmax (a : BitVec 6) (b : BitVec 6) (c : BitVec 6) (ent : BitVec 10) (att : BitVec 4)
  | fmin (a : BitVec 6) (b : BitVec 6) (c : BitVec 6) (ent : BitVec 10) (att : BitVec 4)
  | fpop (a : BitVec 6) (att : BitVec 4)
  | falign (a : BitVec 6) (att : BitVec 4) (t : BitVec 16)
  | fstat (a : BitVec 6) (att : BitVec 4) (sel : BitVec 16)
  | femitTake (a : BitVec 6)
  | femitLoad (a : BitVec 6) (b : BitVec 6)
  | femitFrame (a : BitVec 6) (b : BitVec 6)
  | femitDone (a : BitVec 6) (b : BitVec 6)
  | fcountRd (a : BitVec 6) (b : BitVec 6) (c : BitVec 6)
  | fcountEl (a : BitVec 6) (b : BitVec 6)
  | fcountEx (a : BitVec 6) (b : BitVec 6)
  | rtv (a : BitVec 6)
  | lnkst (a : BitVec 6) (b : BitVec 6) (p : BitVec 6) (sel : BitVec 16)
  | ttselSw (a : BitVec 6) (b : BitVec 6) (sw : BitVec 4) (v : BitVec 2)
  | ttselSeg (a : BitVec 6) (att : BitVec 4) (ttv : BitVec 16)
  | pilotst (a : BitVec 6) (p : BitVec 6)
  | trcRdEnt (a : BitVec 6) (i : BitVec 16)
  | trcRdCnt (a : BitVec 6)
  | trcRdClr (a : BitVec 6)
  | imbRd (a : BitVec 6) (dw : BitVec 2) (st : Bool) (i : BitVec 16)
  | dbgsigHalt
  | dbgsigTrig
  | dbgsigMark (v : BitVec 16)
  | dumpst (a : BitVec 6) (sel : BitVec 16)
  | reservedOpcode (op : BitVec 8)
  | lineFetch
  | asyncTrapDelivery
  | tpinWrite
  | hbindWrite
  | timedPhaseEntry
  | waitmemWake
  | waitmemTimeout
  | barrierRelease
  | meshPush
  | meshPop
  | qcPush
  | qcPop
  | jetRead
  | prowRead
  | xqPush
  | xqPop
  | qxPush
  | qxPop
  | localArrival
  | chunkCommit
  | vectorStorePart
  | transformClaimLapse
  | transformDecodeChunk
  | decoderWatchdogCutoff
  | transformTranspose
  | transformConvert
  | transformResponse
  | evwaitWake
  | engineKickAccept
  | engineHartFaultStop
  | engineHartWake
  | doorbell
  | klnidKill
  | launchRecordTake
  | launchPlacement
  | launchRetirement
  | timeSliceExpiry
  | preemptionMark
  | preemptionGraceExpiry
  | launchRestore
  | launchKill
  | killComplete
  | bargeForward
  | bargeCopy
  | loopIteration
  | jobStart
  | tileLoad
  | tileStream
  | rowDispatch
  | jobComplete
  | jobFailure
  | jobPark
  | driftEstimate
  | bankSettled
  | pthrsWrite
  | sequencerRetune
  | towSessionStart
  | towWtile
  | towRun
  | towPromote
  | towDrain
  | towRoute
  | towSync
  | towBranch
  | towCall
  | towRet
  | towExitBlock
  | towReservedBlock
  | towStop
  | towPark
  | towCompletion
  | fordRequestTake
  | fordFrame
  | fordComplete
  | fordTowHandover
  | fordCensus
  | fordReformNotice
  | fordReformApply
  | fordFallbackCollective
  | fordFallbackTimeout
  | fsegctlWrite
  | packetForward
  | remoteAccessTimeout
  | remoteStoreAck
  | remoteStoreLost
  | routeCommit
  | switchHoldDrain
  | switchDark
  | switchRelock
  | switchCommit
  | tideTick
  | tideSample
  | codewordReceive
  | portRetrain
  | portRetrainTimeout
  | lhstClear
  | pkick
  | pilotWatchdogReset
  | pilotRestart
  | pilotShadowUpdate
  | clusterHalt
  | crossTriggerReceive
  | tdgo
  | debugWindowAccess
  | coreDumpWrite
  | hostBar2Access
  | registerWrite
  | fcenEnable
  | fcenDisable
  | translationInvalidate
  | slicePartition
  | alogcWrite
  | ectlGo
  | ectlRst
  | efpop
  | deviceReset
  | getVersion
  | getCapabilities
  | negotiateAlgorithms
  | getDigests
  | getCertificate
  | challenge
  | getMeasurements
  | gofull
  | cfenceCluster
  | cfencePontoon
  | powerCapCheck
  | thermalStateChange
  | pcalComplete
  | falignTrained
  | portUp
  | settleTimeout
  deriving DecidableEq, Repr

end Sys2Proof
end

