-- ==== Sys2Proof/Machine/Reads.lean ====
section
/-!
DEFINITION. The registers a head reads as sources (R139, R156), as keys: general register n is n, vector register n is
64 + n, predicate n is 128 + n; fcsr, jhi and the bit-buffer have one key each. A port number is no register.
-/

namespace Sys2Proof

def keyV (n : Nat) : Nat := 64 + n
def keyK (n : Nat) : Nat := 128 + n
def keyFcsr : Nat := 192
def keyJhi : Nat := 193
def keyBb : Nat := 194

/-- The keys of `n` general registers from `b` on. -/
def groupKeys (b : BitVec 6) (n : Nat) : List Nat := (upTo n).map (b.toNat + ·)

/-- What SRR of a system register reads (R134, R253). -/
def srrKeys (n : Nat) : List Nat :=
  if n = 0 then [keyFcsr] else if n = 15 then [keyJhi]
  else if n = 8 ∨ n = 0x180 ∨ n = 0x181 ∨ n = 0x182 then [keyBb] else []

/-- The source registers of a head, by their keys. -/
def Instr.sources : Instr → List Nat
  | .nop => []
  | .halt => []
  | .brk _ => []
  | .trap _ => []
  | .eret => []
  | .fence _ _ => []
  | .chunkEnd => []
  | .srr _ num => srrKeys num.toNat
  | .srw a _ => [a.toNat]
  | .liI16 _ _ => []
  | .liI32 _ _ => []
  | .liI48 _ _ => []
  | .liHi _ _ => []
  | .leaBase _ b _ => [b.toNat]
  | .leaPc _ _ => []
  | .leaIndex _ b c _ _ => [b.toNat, c.toNat]
  | .leaPcIndex _ c _ _ => [c.toNat]
  | .addRr _ b c => [b.toNat, c.toNat]
  | .subRr _ b c => [b.toNat, c.toNat]
  | .andRr _ b c => [b.toNat, c.toNat]
  | .orRr _ b c => [b.toNat, c.toNat]
  | .xorRr _ b c => [b.toNat, c.toNat]
  | .shlRr _ b c => [b.toNat, c.toNat]
  | .shrRr _ b c => [b.toNat, c.toNat]
  | .sraRr _ b c => [b.toNat, c.toNat]
  | .minRr _ b c => [b.toNat, c.toNat]
  | .maxRr _ b c => [b.toNat, c.toNat]
  | .minuRr _ b c => [b.toNat, c.toNat]
  | .maxuRr _ b c => [b.toNat, c.toNat]
  | .addRi16 _ b _ => [b.toNat]
  | .andRi16 _ b _ => [b.toNat]
  | .orRi16 _ b _ => [b.toNat]
  | .xorRi16 _ b _ => [b.toNat]
  | .shlRi16 _ b _ => [b.toNat]
  | .shrRi16 _ b _ => [b.toNat]
  | .sraRi16 _ b _ => [b.toNat]
  | .addRri32 _ b _ => [b.toNat]
  | .andRri32 _ b _ => [b.toNat]
  | .orRri32 _ b _ => [b.toNat]
  | .xorRri32 _ b _ => [b.toNat]
  | .cmpRr _ b c _ => [b.toNat, c.toNat]
  | .cmpRi16 _ b _ _ => [b.toNat]
  | .bfx _ b _ _ _ => [b.toNat]
  | .bfi a b _ _ => [a.toNat, b.toNat]
  | .clz _ b => [b.toNat]
  | .popc _ b => [b.toNat]
  | .mul _ b c => [b.toNat, c.toNat]
  | .mulh _ b c => [b.toNat, c.toNat]
  | .mulhu _ b c => [b.toNat, c.toNat]
  | .div _ b c => [b.toNat, c.toNat]
  | .divu _ b c => [b.toNat, c.toNat]
  | .rem _ b c => [b.toNat, c.toNat]
  | .remu _ b c => [b.toNat, c.toNat]
  | .ldRi16 _ b _ _ _ _ => [b.toNat]
  | .ldRri32 _ b c _ _ _ _ _ => [b.toNat, c.toNat]
  | .stRi16 a b _ _ _ => [a.toNat, b.toNat]
  | .stRri32 a b c _ _ _ _ => [a.toNat, b.toNat, c.toNat]
  | .lda _ b _ _ _ _ => [b.toNat]
  | .stl a b _ _ _ => [a.toNat, b.toNat]
  | .aadd _ b c _ _ => [b.toNat, c.toNat]
  | .amin _ b c _ _ _ => [b.toNat, c.toNat]
  | .amax _ b c _ _ _ => [b.toNat, c.toNat]
  | .aand _ b c _ _ => [b.toNat, c.toNat]
  | .aor _ b c _ _ => [b.toNat, c.toNat]
  | .axor _ b c _ _ => [b.toNat, c.toNat]
  | .aswap _ b c _ _ => [b.toNat, c.toNat]
  | .acas _ b c d _ _ => [b.toNat, c.toNat, d.toNat]
  | .bRi16 a b _ _ => [a.toNat, b.toNat]
  | .bRri32 a b _ _ => [a.toNat, b.toNat]
  | .jal _ _ => []
  | .jalr _ b _ => [b.toNat]
  | .hstart _ b c _ _ _ => [b.toNat, c.toNat]
  | .hjoin _ b => [b.toNat]
  | .hend => []
  | .hyield => []
  | .gang _ _ => []
  | .split => []
  | .phaseT => []
  | .phaseE => []
  | .tideRd _ => []
  | .tideWait _ b _ _ => [b.toNat]
  | .waitmem a b _ _ => [a.toNat, b.toNat]
  | .sendmsg a b c _ => [a.toNat, b.toNat, c.toNat]
  | .waitmsg => []
  | .vadd _ b c kp _ _ _ => [keyV b.toNat, keyV c.toNat, keyK kp.toNat]
  | .vsub _ b c kp _ _ _ => [keyV b.toNat, keyV c.toNat, keyK kp.toNat]
  | .vmul _ b c kp _ _ _ => [keyV b.toNat, keyV c.toNat, keyK kp.toNat]
  | .vmin _ b c kp _ _ _ => [keyV b.toNat, keyV c.toNat, keyK kp.toNat]
  | .vmax _ b c kp _ _ _ => [keyV b.toNat, keyV c.toNat, keyK kp.toNat]
  | .vrcpe _ b kp _ _ _ => [keyV b.toNat, keyK kp.toNat]
  | .vrsqe _ b kp _ _ _ => [keyV b.toNat, keyK kp.toNat]
  | .vexp2 _ b kp _ _ _ => [keyV b.toNat, keyK kp.toNat]
  | .vlog2 _ b kp _ _ _ => [keyV b.toNat, keyK kp.toNat]
  | .vfma _ b c d kp _ _ _ _ _ _ => [keyV b.toNat, keyV c.toNat, keyV d.toNat, keyK kp.toNat]
  | .vrefn _ b c kp _ _ _ _ => [keyV b.toNat, keyV c.toNat, keyK kp.toNat]
  | .viadd _ b c kp _ _ => [keyV b.toNat, keyV c.toNat, keyK kp.toNat]
  | .visub _ b c kp _ _ => [keyV b.toNat, keyV c.toNat, keyK kp.toNat]
  | .vimul _ b c kp _ _ _ => [keyV b.toNat, keyV c.toNat, keyK kp.toNat]
  | .vimin _ b c kp _ _ _ => [keyV b.toNat, keyV c.toNat, keyK kp.toNat]
  | .vimax _ b c kp _ _ _ => [keyV b.toNat, keyV c.toNat, keyK kp.toNat]
  | .vishl _ b c kp _ _ => [keyV b.toNat, keyV c.toNat, keyK kp.toNat]
  | .vishr _ b c kp _ _ _ => [keyV b.toNat, keyV c.toNat, keyK kp.toNat]
  | .vand _ b c kp _ _ => [keyV b.toNat, keyV c.toNat, keyK kp.toNat]
  | .vor _ b c kp _ _ => [keyV b.toNat, keyV c.toNat, keyK kp.toNat]
  | .vxor _ b c kp _ _ => [keyV b.toNat, keyV c.toNat, keyK kp.toNat]
  | .vcmp _ b c kp _ _ _ _ => [keyV b.toNat, keyV c.toNat, keyK kp.toNat]
  | .vicmp _ b c kp _ _ _ => [keyV b.toNat, keyV c.toNat, keyK kp.toNat]
  | .kwhile _ b c _ _ => [b.toNat, c.toNat]
  | .kand _ b c => [keyK b.toNat, keyK c.toNat]
  | .kor _ b c => [keyK b.toNat, keyK c.toNat]
  | .kxor _ b c => [keyK b.toNat, keyK c.toNat]
  | .kandn _ b c => [keyK b.toNat, keyK c.toNat]
  | .kmov _ b => [keyK b.toNat]
  | .knot _ b => [keyK b.toNat]
  | .kcnt _ b _ => [keyK b.toNat]
  | .vwidth _ => []
  | .vld _ b kp _ _ _ _ => [b.toNat, keyK kp.toNat]
  | .vst a b kp _ _ _ => [keyV a.toNat, b.toNat, keyK kp.toNat]
  | .vlds _ b c kp _ _ _ _ => [b.toNat, c.toNat, keyK kp.toNat]
  | .vsts a b c kp _ _ _ => [keyV a.toNat, b.toNat, c.toNat, keyK kp.toNat]
  | .vgath _ b c kp _ _ _ _ _ => [b.toNat, keyV c.toNat, keyK kp.toNat]
  | .vscat a b c kp _ _ _ _ => [keyV a.toNat, b.toNat, keyV c.toNat, keyK kp.toNat]
  | .vcvt _ b kp _ _ _ _ _ _ => [keyV b.toNat, keyK kp.toNat]
  | .vpack _ b _ kp _ _ _ _ _ _ => [keyV b.toNat, keyK kp.toNat]
  | .vunpk _ b d kp _ _ _ _ _ _ => [keyV b.toNat, keyV d.toNat, keyK kp.toNat]
  | .vdotf8 a b c kp _ _ _ _ => [keyV a.toNat, keyV b.toNat, keyV c.toNat, keyK kp.toNat]
  | .vdoti8 a b c kp _ _ _ => [keyV a.toNat, keyV b.toNat, keyV c.toNat, keyK kp.toNat]
  | .vred _ b kp _ _ _ _ => [keyV b.toNat, keyK kp.toNat]
  | .vscan _ b kp _ _ _ _ => [keyV b.toNat, keyK kp.toNat]
  | .vperm _ b c d kp _ _ _ => [keyV b.toNat, keyV c.toNat, keyV d.toNat, keyK kp.toNat]
  | .vbcast _ b c kp _ _ el => if el then [keyV b.toNat, c.toNat, keyK kp.toNat] else [b.toNat, keyK kp.toNat]
  | .vsel _ b c kp _ => [keyV b.toNat, keyV c.toNat, keyK kp.toNat]
  | .vpeer _ b _ _ => [keyV b.toNat]
  | .vhist b kp _ => [keyV b.toNat, keyK kp.toNat]
  | .vseedRd _ => []
  | .vseedWr b => [b.toNat]
  | .vseedXchg _ b => [b.toNat]
  | .vext _ b _ _ _ => [keyV b.toNat]
  | .vins _ b _ _ => [b.toNat]
  | .bbGet _ b r _ _ => keyBb :: if r then [b.toNat] else []
  | .bbPeek _ b r _ _ => keyBb :: if r then [b.toNat] else []
  | .bbSkip b r _ => keyBb :: if r then [b.toNat] else []
  | .bbFill _ => [keyBb]
  | .bbDec _ _ => [keyBb]
  | .bbSave b _ => [b.toNat, keyBb]
  | .bbRest b _ => [b.toNat]
  | .xreq _ b => [b.toNat]
  | .xstat _ => []
  | .launch _ b _ => [b.toNat]
  | .evwait a b _ _ => [a.toNat, b.toNat]
  | .evsig a b _ _ => [a.toNat, b.toNat]
  | .lqstat _ _ => []
  | .yieldOp => []
  | .sync _ _ => []
  | .dtake _ _ => []
  | .dplaceStart _ b c _ => [b.toNat, c.toNat]
  | .dplacePreq _ _ c _ => [c.toNat]
  | .dplaceSave _ b c _ => [b.toNat, c.toNat]
  | .dplaceRest _ b c _ => [b.toNat, c.toNat]
  | .dplaceKill _ _ c _ => [c.toNat]
  | .cpyPk _ b c _ _ => c.toNat :: groupKeys b 12
  | .cpyLand _ b c _ _ => c.toNat :: groupKeys b 12
  | .cpyRec _ b c _ _ => groupKeys b 12 ++ groupKeys c 12
  | .cpyLoop _ b c _ _ => groupKeys b 12 ++ groupKeys c 3
  | .cpycan _ b => [b.toNat]
  | .landAcq _ b _ _ _ => [b.toNat]
  | .landRel b _ => [b.toNat]
  | .landInit _ b c _ => [b.toNat, c.toNat]
  | .halloc _ b c _ => [b.toNat, c.toNat]
  | .hfree _ b => [b.toNat]
  | .hbump _ b c => [b.toNat, c.toNat]
  | .jpeek _ b => [b.toNat]
  | .jdrop => []
  | .bget _ _ => []
  | .bstreamMove _ b c d => [b.toNat, c.toNat, d.toNat]
  | .bstreamOwner _ => []
  | .bstreamFwd b => [b.toNat]
  | .blandWait _ b => [b.toNat]
  | .blandFill b => [b.toNat]
  | .blandDone b c => [b.toNat, c.toNat]
  | .pjob _ b => [keyV b.toNat]
  | .ppoll _ b => [b.toNat]
  | .pwait _ b => [b.toNat]
  | .pcan _ b => [b.toNat]
  | .pheatSet a b => [a.toNat, b.toNat]
  | .pheatAdd a b => [a.toNat, b.toNat]
  | .pmonRing _ b => [b.toNat]
  | .pmonBank _ b => [b.toNat]
  | .pmonTemp _ b => [b.toNat]
  | .psettle _ b _ _ => [b.toNat]
  | .pcalFull _ => []
  | .pcalOfs _ => []
  | .pmapRd _ b => [b.toNat]
  | .pmapSwap _ b => [b.toNat]
  | .pmapIdent _ b => [b.toNat]
  | .pstat _ _ => []
  | .prowgoDrop => []
  | .prowgoMem => []
  | .prowgoLand b => [b.toNat]
  | .paccRdN _ b => [b.toNat]
  | .paccRdP _ b => [b.toNat]
  | .towEnter _ b c => [keyV b.toNat, c.toNat]
  | .towExit _ b => [b.toNat]
  | .towStat _ b => [b.toNat]
  | .towWait _ b => [b.toNat]
  | .fenrol _ b _ _ => [b.toNat]
  | .fleave _ _ => []
  | .frb _ b c _ _ _ => c.toNat :: groupKeys b 4
  | .fmax _ b c _ _ => c.toNat :: groupKeys b 4
  | .fmin _ b c _ _ => c.toNat :: groupKeys b 4
  | .fpop _ _ => []
  | .falign _ _ _ => []
  | .fstat _ _ _ => []
  | .femitTake _ => []
  | .femitLoad _ b => [b.toNat]
  | .femitFrame _ b => [b.toNat]
  | .femitDone _ b => [b.toNat]
  | .fcountRd _ b c => [b.toNat, c.toNat]
  | .fcountEl _ b => [b.toNat]
  | .fcountEx _ b => [b.toNat]
  | .rtv _ => []
  | .lnkst _ b _ _ => [b.toNat]
  | .ttselSw _ b _ _ => [b.toNat]
  | .ttselSeg _ _ _ => []
  | .pilotst _ _ => []
  | .trcRdEnt _ _ => []
  | .trcRdCnt _ => []
  | .trcRdClr _ => []
  | .imbRd _ _ _ _ => []
  | .dbgsigHalt => []
  | .dbgsigTrig => []
  | .dbgsigMark _ => []
  | .dumpst _ _ => []
  | .reservedOpcode _ => []
  | .lineFetch => []
  | .asyncTrapDelivery => []
  | .tpinWrite => []
  | .hbindWrite => []
  | .timedPhaseEntry => []
  | .waitmemWake => []
  | .waitmemTimeout => []
  | .barrierRelease => []
  | .meshPush => []
  | .meshPop => []
  | .qcPush => []
  | .qcPop => []
  | .jetRead => []
  | .prowRead => []
  | .xqPush => []
  | .xqPop => []
  | .qxPush => []
  | .qxPop => []
  | .localArrival => []
  | .chunkCommit => []
  | .vectorStorePart => []
  | .transformClaimLapse => []
  | .transformDecodeChunk => []
  | .decoderWatchdogCutoff => []
  | .transformTranspose => []
  | .transformConvert => []
  | .transformResponse => []
  | .evwaitWake => []
  | .engineKickAccept => []
  | .engineHartFaultStop => []
  | .engineHartWake => []
  | .doorbell => []
  | .klnidKill => []
  | .launchRecordTake => []
  | .launchPlacement => []
  | .launchRetirement => []
  | .timeSliceExpiry => []
  | .preemptionMark => []
  | .preemptionGraceExpiry => []
  | .launchRestore => []
  | .launchKill => []
  | .killComplete => []
  | .bargeForward => []
  | .bargeCopy => []
  | .loopIteration => []
  | .jobStart => []
  | .tileLoad => []
  | .tileStream => []
  | .rowDispatch => []
  | .jobComplete => []
  | .jobFailure => []
  | .jobPark => []
  | .driftEstimate => []
  | .bankSettled => []
  | .pthrsWrite => []
  | .sequencerRetune => []
  | .towSessionStart => []
  | .towWtile => []
  | .towRun => []
  | .towPromote => []
  | .towDrain => []
  | .towRoute => []
  | .towSync => []
  | .towBranch => []
  | .towCall => []
  | .towRet => []
  | .towExitBlock => []
  | .towReservedBlock => []
  | .towStop => []
  | .towPark => []
  | .towCompletion => []
  | .fordRequestTake => []
  | .fordFrame => []
  | .fordComplete => []
  | .fordTowHandover => []
  | .fordCensus => []
  | .fordReformNotice => []
  | .fordReformApply => []
  | .fordFallbackCollective => []
  | .fordFallbackTimeout => []
  | .fsegctlWrite => []
  | .packetForward => []
  | .remoteAccessTimeout => []
  | .remoteStoreAck => []
  | .remoteStoreLost => []
  | .routeCommit => []
  | .switchHoldDrain => []
  | .switchDark => []
  | .switchRelock => []
  | .switchCommit => []
  | .tideTick => []
  | .tideSample => []
  | .codewordReceive => []
  | .portRetrain => []
  | .portRetrainTimeout => []
  | .lhstClear => []
  | .pkick => []
  | .pilotWatchdogReset => []
  | .pilotRestart => []
  | .pilotShadowUpdate => []
  | .clusterHalt => []
  | .crossTriggerReceive => []
  | .tdgo => []
  | .debugWindowAccess => []
  | .coreDumpWrite => []
  | .hostBar2Access => []
  | .registerWrite => []
  | .fcenEnable => []
  | .fcenDisable => []
  | .translationInvalidate => []
  | .slicePartition => []
  | .alogcWrite => []
  | .ectlGo => []
  | .ectlRst => []
  | .efpop => []
  | .deviceReset => []
  | .getVersion => []
  | .getCapabilities => []
  | .negotiateAlgorithms => []
  | .getDigests => []
  | .getCertificate => []
  | .challenge => []
  | .getMeasurements => []
  | .gofull => []
  | .cfenceCluster => []
  | .cfencePontoon => []
  | .powerCapCheck => []
  | .thermalStateChange => []
  | .pcalComplete => []
  | .falignTrained => []
  | .portUp => []
  | .settleTimeout => []

/-- The registers a head reads: g0 and k0 are constants, and g48 to g63 are ports. -/
def Instr.reads (i : Instr) : List Nat := i.sources.filter fun k => k != 0 && k != 128 && !(decide (48 ≤ k) && decide (k < 64))

end Sys2Proof
end

