-- ==== Sys2Proof/Config.lean ====
section
/-!
DEFINITION. What is fixed for the machine: the counts of its parts, and the free values.

A free value is a constant with no body: nothing can be proved about what it is. It is applied to the counter `freeCtr`
of the state, which the step that takes it advances.

Marks (notes/assumptions): DESIGN CHOICE (safe) 3.
-/

namespace Sys2Proof.Config

/-- Dies of the package (R11). -/
def dies : Nat := 8
/-- Clusters of the package (R11). -/
def clusters : Nat := 12800
/-- Cores of the package (R16). -/
def cores : Nat := 102400
/-- Shared-SRAM slices of the package (R11). -/
def slices : Nat := 640
/-- Engine harts of the package (R22). -/
def harts : Nat := 13521
/-- The first requester identifier of the engine harts (R127). -/
def hartQ : Nat := 1126400
/-- The requester identifier of the host port (R127). -/
def hostQ : Nat := 1139921
/-- The requester identifier of an arrival over the fabric (R127). -/
def fabricQ : Nat := 1139922

/-- A free value: what the spec leaves open, as a number the reader reduces to the width it needs. -/
opaque freeNat : Nat → Nat

/-- The undisclosed doubleword `j` of the replay queue image of these entries (R226). -/
opaque replayWord : List (List Nat) → Nat → Word
/-- The format identifier of a replay queue image (R226). -/
opaque replayFormat : Nat
/-- The 192-bit integrity code over the first 1,512 bytes of a replay queue image (R226). -/
opaque replaySeal : List Word → Nat

/-- Entry `j` of a replay queue image with these doublewords (R226): the slot, the kind, the register, and the mask and
value of the partial result. -/
opaque replayEntry : List Word → Nat → Nat × Nat × Nat × Nat × Nat

/-- Whether a signed image, given by its bytes, verifies under the keys and anti-rollback counts of the fuses (R468). -/
opaque imageVerifies : List Byte → Bool

/-- A free value of 64 bits. -/
opaque freeWord : Nat → Word

end Sys2Proof.Config
end

