-- ==== Sys2Proof/WellFormed.lean ====
section
/-!
DEFINITION. The static checks of an instruction's operands (R42 to R52) and who may execute which opcode (R60 to R65).

Marks (notes/assumptions): DESIGN CHOICE (unsafe) 4; DEDUCED (safe) 11; DEDUCED (unsafe) 12.
-/

namespace Sys2Proof

/-- Who executes a head (R60). -/
inductive Who where
  | control | timed | helper | drain | barge | sequencer | ford | ferryman | pilot
  deriving DecidableEq, Repr

/-- A destination field: a general register or a port that can be written; jet and prow cannot (R49). -/
def dstOk (f : BitVec 6) : Bool := f != 53 && f != 54

/-- A field that rejects port numbers (R50). -/
def plainOk (f : BitVec 6) : Bool := decide (f.toNat < 48)

/-- A vector register field (R52). -/
def vecOk (f : BitVec 6) : Bool := decide (f.toNat < 32)

/-- A predicate register as a source (R52). -/
def predOk (f : BitVec 6) : Bool := decide (f.toNat < 8)

/-- A predicate register as a destination: not k0 (R52). -/
def kdstOk (f : BitVec 6) : Bool := decide (0 < f.toNat) && decide (f.toNat < 8)

/-- A group of `n` registers from `f`, within g1 to g47 (R51). -/
def groupOk (n : Nat) (f : BitVec 6) : Bool := decide (0 < f.toNat) && decide (f.toNat + n ≤ 48)

/-- A scope code (R47). -/
def scopeOk (sc : BitVec 3) : Bool := decide (sc.toNat ≤ 5)

/-- An integer condition code (R46). -/
def condOk (cc : BitVec 4) : Bool := decide (cc.toNat ≤ 9)

/-- A condition code of VCMP: the ordered comparisons and equality (R46). -/
def fcondOk (cc : BitVec 4) : Bool := [0, 1, 2, 3, 6, 7].contains cc.toNat

/-- A bit field of width `w1 + 1` at `p` within 64 bits (R161). -/
def fieldOk (p w1 : BitVec 6) : Bool := decide (p.toNat + w1.toNat + 1 ≤ 64)

/-- A load: no sign extension of a doubleword (R164). -/
def ldOk (sz : BitVec 2) (s : Bool) : Bool := !(s && sz == 3)

/-- A rounding field (R44). -/
def rmOk (rm : BitVec 3) : Bool := rm != 6

/-- The width of an element type's code, in bits (R188). -/
def typeWidth (t : Nat) : Nat :=
  match t with
  | 0 => 32 | 1 => 16 | 2 => 16 | 7 => 16 | 8 => 32 | 9 => 64 | 10 => 4 | _ => 8

/-- A type of the floating-point instructions (R199). -/
def fpTypeOk (t : BitVec 4) : Bool := decide (t.toNat ≤ 2)

/-- VFMA wide takes FP16 or BF16 (R201). -/
def vfmaOk (t : BitVec 4) (wide : Bool) : Bool := !wide || t == 1 || t == 2

/-- A type of the integer instructions (R204). -/
def intTypeOk (t : BitVec 4) : Bool := decide (5 ≤ t.toNat) && decide (t.toNat ≤ 9)

/-- A type of the vector memory instructions (R209). -/
def memTypeOk (t : BitVec 4) : Bool := decide (t.toNat ≤ 12) && t != 10

/-- A type of which only the width counts (R218). -/
def moveTypeOk (t : BitVec 4) : Bool := decide (t.toNat ≤ 12) && t != 10

/-- A type of VCVT (R213). -/
def cvtTypeOk (t : BitVec 4) : Bool := decide (t.toNat ≤ 9)

/-- The part limit of R212. -/
def partOk (ts td : BitVec 4) (p : BitVec 3) : Bool :=
  let ws := typeWidth ts.toNat
  let wd := typeWidth td.toNat
  decide (p.toNat < (if ws < wd then wd / ws else ws / wd))

/-- VCVT's operands (R212, R213). -/
def cvtOk (ts td : BitVec 4) (p : BitVec 3) (u : Bool) : Bool :=
  cvtTypeOk ts && cvtTypeOk td && partOk ts td p && !u

/-- VPACK's combinations (R214); the scale register is named only for MXINT8 (R212). -/
def packOk (d : BitVec 6) (ts td : BitVec 4) (p : BitVec 3) (u : Bool) : Bool :=
  partOk ts td p && (td == 11 || d == 0) &&
  (([5, 6, 7, 8].contains ts.toNat && td == 10) || (!u && ts == 2 && td == 11 && vecOk d) ||
   (!u && decide (ts.toNat ≤ 2) && td == 12))

/-- VUNPK's combinations (R214). -/
def unpkOk (d : BitVec 6) (ts td : BitVec 4) (p : BitVec 3) (u : Bool) : Bool :=
  partOk ts td p && (ts == 11 || d == 0) &&
  ((ts == 10 && [5, 7, 8].contains td.toNat) || (!u && ts == 11 && td == 2 && vecOk d) ||
   (!u && ts == 12 && (td == 0 || td == 2)))

/-- The 8-bit floating-point types of VDOTF8 (R216). -/
def fp8Ok (t : BitVec 4) : Bool := t == 3 || t == 4

/-- The 8-bit integer types of VDOTI8 (R216). -/
def i8Ok (t : BitVec 4) : Bool := t == 5 || t == 6

/-- An integer type code (R45). -/
def isIntCode (t : Nat) : Bool := decide (5 ≤ t) && decide (t ≤ 9)

/-- The rounding field of a reduction, which the integer types reserve (R217). -/
def redRmOk (t : BitVec 4) (rm : BitVec 3) : Bool := if isIntCode t.toNat then rm == 0 else rmOk rm

/-- VPERM's second source, a vector register where m[4] names one (R218). -/
def permOk (d : BitVec 6) (two : Bool) : Bool := if two then vecOk d else d == 0

/-- VBCAST's source: an element of a vector at a general register's index, or a scalar source (R218). -/
def bcastOk (b c : BitVec 6) (el : Bool) : Bool := if el then vecOk b && plainOk c else c == 0

/-- VPEER's edge mode and member offset (R219). -/
def peerOk (mode : BitVec 2) (imm : BitVec 16) : Bool :=
  mode != 3 && decide (-15 ≤ imm.toInt) && decide (imm.toInt ≤ 15)

/-- A type of VHIST (R221). -/
def histTypeOk (t : BitVec 4) : Bool := decide (t.toNat ≤ 4)

/-- The bit count of BB.GET, BB.PEEK and BB.SKIP: a register with a zero immediate, or an immediate in its range
(R255, R256). -/
def bbNOk (b : BitVec 6) (r : Bool) (imm : BitVec 16) (lo hi : Nat) : Bool :=
  if r then imm == 0 else b == 0 && decide (lo ≤ imm.toNat) && decide (imm.toNat ≤ hi)

/-- LNKST's port and selector; selector 1 reads its lane word from a general register (R438). -/
def lnkOk (b p : BitVec 6) (sel : BitVec 16) : Bool :=
  decide (p.toNat ≤ 47) && decide (sel.toNat ≤ 2) && (if sel == 1 then plainOk b else b == 0)

/-- IMB.RD's doubleword, status bit and index (R451). -/
def imbOk (dw : BitVec 2) (st : Bool) (i : BitVec 16) : Bool :=
  if st then dw == 0 && i == 0 else decide (i.toNat ≤ 63)

/-- The static operand checks of an instruction (R42, R50 to R52 and its entry): where this fails the head raises
ILLEGAL_OPERAND. A field that the entry leaves zero for the other operands is checked here too; the decoder has refused such a
word before (R42). A step that no head encodes has no operand to check. -/
def Instr.wf : Instr → Bool
  | .nop => true
  | .halt => true
  | .brk _ => true
  | .trap _ => true
  | .eret => true
  | .fence sc _ => scopeOk sc
  | .chunkEnd => true
  | .srr a _ => plainOk a
  | .srw a _ => plainOk a
  | .liI16 a _ => dstOk a
  | .liI32 a _ => dstOk a
  | .liI48 a _ => dstOk a
  | .liHi a _ => dstOk a
  | .leaBase a b _ => dstOk a && plainOk b
  | .leaPc a _ => dstOk a
  | .leaIndex a b c _ _ => dstOk a && plainOk b && plainOk c
  | .leaPcIndex a c _ _ => dstOk a && plainOk c
  | .addRr a _ _ => dstOk a
  | .subRr a _ _ => dstOk a
  | .andRr a _ _ => dstOk a
  | .orRr a _ _ => dstOk a
  | .xorRr a _ _ => dstOk a
  | .shlRr a _ _ => dstOk a
  | .shrRr a _ _ => dstOk a
  | .sraRr a _ _ => dstOk a
  | .minRr a _ _ => dstOk a
  | .maxRr a _ _ => dstOk a
  | .minuRr a _ _ => dstOk a
  | .maxuRr a _ _ => dstOk a
  | .addRi16 a _ _ => dstOk a
  | .andRi16 a _ _ => dstOk a
  | .orRi16 a _ _ => dstOk a
  | .xorRi16 a _ _ => dstOk a
  | .shlRi16 a _ imm => dstOk a && decide (imm.toNat < 64)
  | .shrRi16 a _ imm => dstOk a && decide (imm.toNat < 64)
  | .sraRi16 a _ imm => dstOk a && decide (imm.toNat < 64)
  | .addRri32 a _ _ => dstOk a
  | .andRri32 a _ _ => dstOk a
  | .orRri32 a _ _ => dstOk a
  | .xorRri32 a _ _ => dstOk a
  | .cmpRr a _ _ cc => dstOk a && condOk cc
  | .cmpRi16 a _ cc _ => dstOk a && condOk cc
  | .bfx a _ _ p w1 => dstOk a && fieldOk p w1
  | .bfi a _ p w1 => plainOk a && fieldOk p w1
  | .clz a _ => dstOk a
  | .popc a _ => dstOk a
  | .mul a _ _ => dstOk a
  | .mulh a _ _ => dstOk a
  | .mulhu a _ _ => dstOk a
  | .div a _ _ => dstOk a
  | .divu a _ _ => dstOk a
  | .rem a _ _ => dstOk a
  | .remu a _ _ => dstOk a
  | .ldRi16 a b sz s _ _ => dstOk a && plainOk b && ldOk sz s
  | .ldRri32 a b c sz s _ _ _ => dstOk a && plainOk b && plainOk c && ldOk sz s
  | .stRi16 _ b _ _ _ => plainOk b
  | .stRri32 _ b c _ _ _ _ => plainOk b && plainOk c
  | .lda a b sz s sc _ => dstOk a && plainOk b && ldOk sz s && scopeOk sc
  | .stl _ b _ sc _ => plainOk b && scopeOk sc
  | .aadd a b _ _ sc => dstOk a && plainOk b && scopeOk sc
  | .amin a b _ _ _ sc => dstOk a && plainOk b && scopeOk sc
  | .amax a b _ _ _ sc => dstOk a && plainOk b && scopeOk sc
  | .aand a b _ _ sc => dstOk a && plainOk b && scopeOk sc
  | .aor a b _ _ sc => dstOk a && plainOk b && scopeOk sc
  | .axor a b _ _ sc => dstOk a && plainOk b && scopeOk sc
  | .aswap a b _ _ sc => dstOk a && plainOk b && scopeOk sc
  | .acas a b _ _ _ sc => dstOk a && plainOk b && scopeOk sc
  | .bRi16 _ _ cc _ => condOk cc
  | .bRri32 _ _ cc _ => condOk cc
  | .jal a _ => dstOk a
  | .jalr a b _ => dstOk a && plainOk b
  | .hstart a _ _ _ _ _ => dstOk a
  | .hjoin a _ => dstOk a
  | .hend => true
  | .hyield => true
  | .gang a size => dstOk a && decide (size.toNat ≤ 4)
  | .split => true
  | .phaseT => true
  | .phaseE => true
  | .tideRd a => dstOk a
  | .tideWait a b _ _ => dstOk a && plainOk b
  | .waitmem _ b sz _ => plainOk b && decide (2 ≤ sz.toNat)
  | .sendmsg _ _ _ _ => true
  | .waitmsg => true
  | .vadd a b c _ _ rm t => vecOk a && vecOk b && vecOk c && fpTypeOk t && rmOk rm
  | .vsub a b c _ _ rm t => vecOk a && vecOk b && vecOk c && fpTypeOk t && rmOk rm
  | .vmul a b c _ _ rm t => vecOk a && vecOk b && vecOk c && fpTypeOk t && rmOk rm
  | .vmin a b c _ _ rm t => vecOk a && vecOk b && vecOk c && fpTypeOk t && rmOk rm
  | .vmax a b c _ _ rm t => vecOk a && vecOk b && vecOk c && fpTypeOk t && rmOk rm
  | .vrcpe a b _ _ rm t => vecOk a && vecOk b && fpTypeOk t && rmOk rm
  | .vrsqe a b _ _ rm t => vecOk a && vecOk b && fpTypeOk t && rmOk rm
  | .vexp2 a b _ _ rm t => vecOk a && vecOk b && fpTypeOk t && rmOk rm
  | .vlog2 a b _ _ rm t => vecOk a && vecOk b && fpTypeOk t && rmOk rm
  | .vfma a b c d _ _ rm t _ wide _ => vecOk a && vecOk b && vecOk c && vecOk d && fpTypeOk t && rmOk rm && vfmaOk t wide
  | .vrefn a b c _ _ rm t var => vecOk a && vecOk b && vecOk c && fpTypeOk t && rmOk rm && decide (var.toNat < 2)
  | .viadd a b c _ _ t => vecOk a && vecOk b && vecOk c && intTypeOk t
  | .visub a b c _ _ t => vecOk a && vecOk b && vecOk c && intTypeOk t
  | .vimul a b c _ _ t part => vecOk a && vecOk b && vecOk c && intTypeOk t && decide (part.toNat < 3)
  | .vimin a b c _ _ t _ => vecOk a && vecOk b && vecOk c && intTypeOk t
  | .vimax a b c _ _ t _ => vecOk a && vecOk b && vecOk c && intTypeOk t
  | .vishl a b c _ _ t => vecOk a && vecOk b && vecOk c && intTypeOk t
  | .vishr a b c _ _ t _ => vecOk a && vecOk b && vecOk c && intTypeOk t
  | .vand a b c _ _ t => vecOk a && vecOk b && vecOk c && intTypeOk t
  | .vor a b c _ _ t => vecOk a && vecOk b && vecOk c && intTypeOk t
  | .vxor a b c _ _ t => vecOk a && vecOk b && vecOk c && intTypeOk t
  | .vcmp a b c _ _ rm cc ft => kdstOk a && vecOk b && vecOk c && fcondOk cc && decide (ft.toNat < 3) && rmOk rm
  | .vicmp a b c _ _ cc w => kdstOk a && vecOk b && vecOk c && condOk cc && decide (w.toNat < 4)
  | .kwhile a _ _ _ _ => kdstOk a
  | .kand a b c => kdstOk a && predOk b && predOk c
  | .kor a b c => kdstOk a && predOk b && predOk c
  | .kxor a b c => kdstOk a && predOk b && predOk c
  | .kandn a b c => kdstOk a && predOk b && predOk c
  | .kmov a b => kdstOk a && predOk b
  | .knot a b => kdstOk a && predOk b
  | .kcnt a b _ => dstOk a && predOk b
  | .vwidth a => dstOk a
  | .vld a b _ _ t _ _ => vecOk a && plainOk b && memTypeOk t
  | .vst a b _ t _ _ => vecOk a && plainOk b && memTypeOk t
  | .vlds a b c _ _ t _ _ => vecOk a && plainOk b && plainOk c && memTypeOk t
  | .vsts a b c _ t _ _ => vecOk a && plainOk b && plainOk c && memTypeOk t
  | .vgath a b c _ _ t _ _ _ => vecOk a && plainOk b && vecOk c && memTypeOk t
  | .vscat a b c _ t _ _ _ => vecOk a && plainOk b && vecOk c && memTypeOk t
  | .vcvt a b _ _ rm ts td p u => vecOk a && vecOk b && cvtOk ts td p u && rmOk rm
  | .vpack a b d _ _ rm ts td p u => vecOk a && vecOk b && packOk d ts td p u && rmOk rm
  | .vunpk a b d _ _ rm ts td p u => vecOk a && vecOk b && unpkOk d ts td p u && rmOk rm
  | .vdotf8 a b c _ rm ta tb _ => vecOk a && vecOk b && vecOk c && fp8Ok ta && fp8Ok tb && rmOk rm
  | .vdoti8 a b c _ ta tb _ => vecOk a && vecOk b && vecOk c && i8Ok ta && i8Ok tb
  | .vred a b _ rm t o _ => vecOk a && vecOk b && cvtTypeOk t && decide (o.toNat < 3) && redRmOk t rm
  | .vscan a b _ _ rm t o => vecOk a && vecOk b && cvtTypeOk t && decide (o.toNat < 3) && redRmOk t rm
  | .vperm a b c d _ _ t two => vecOk a && vecOk b && vecOk c && moveTypeOk t && permOk d two
  | .vbcast a b c _ _ t el => vecOk a && moveTypeOk t && bcastOk b c el
  | .vsel a b c _ t => vecOk a && vecOk b && vecOk c && moveTypeOk t
  | .vpeer a b mode imm => vecOk a && vecOk b && peerOk mode imm
  | .vhist b _ t => vecOk b && histTypeOk t
  | .vseedRd a => dstOk a
  | .vseedWr _ => true
  | .vseedXchg a _ => dstOk a
  | .vext a b t _ _ => dstOk a && vecOk b && moveTypeOk t
  | .vins a _ t _ => vecOk a && moveTypeOk t
  | .bbGet a b r _ imm => dstOk a && bbNOk b r imm 1 64
  | .bbPeek a b r _ imm => dstOk a && bbNOk b r imm 1 64
  | .bbSkip b r imm => bbNOk b r imm 0 128
  | .bbFill a => dstOk a
  | .bbDec a imm => dstOk a && decide (1 ≤ imm.toNat) && decide (imm.toNat ≤ 12)
  | .bbSave b _ => plainOk b
  | .bbRest b _ => plainOk b
  | .xreq a b => dstOk a && plainOk b
  | .xstat a => dstOk a
  | .launch a b q => dstOk a && plainOk b && decide (q.toNat ≤ 15)
  | .evwait _ b sc _ => plainOk b && scopeOk sc
  | .evsig a b sc _ => dstOk a && plainOk b && scopeOk sc
  | .lqstat a q => dstOk a && decide (q.toNat ≤ 15)
  | .yieldOp => true
  | .sync a lv => dstOk a && decide (lv.toNat ≤ 4)
  | .dtake a _ => dstOk a
  | .dplaceStart a b c _ => dstOk a && plainOk b && plainOk c
  | .dplacePreq a b c _ => dstOk a && plainOk b && plainOk c
  | .dplaceSave a b c _ => dstOk a && plainOk b && plainOk c
  | .dplaceRest a b c _ => dstOk a && plainOk b && plainOk c
  | .dplaceKill a b c _ => dstOk a && plainOk b && plainOk c
  | .cpyPk a b c _ _ => dstOk a && groupOk 12 b && plainOk c
  | .cpyLand a b c _ _ => dstOk a && groupOk 12 b && plainOk c
  | .cpyRec a b c _ _ => dstOk a && groupOk 12 b && groupOk 12 c
  | .cpyLoop a b c _ _ => dstOk a && groupOk 12 b && groupOk 3 c
  | .cpycan a b => dstOk a && plainOk b
  | .landAcq a _ _ _ _ => dstOk a
  | .landRel _ _ => true
  | .landInit a _ _ _ => dstOk a
  | .halloc a b c _ => dstOk a && plainOk b && plainOk c
  | .hfree a b => dstOk a && plainOk b
  | .hbump a b c => dstOk a && plainOk b && plainOk c
  | .jpeek a _ => dstOk a
  | .jdrop => true
  | .bget a _ => groupOk 4 a
  | .bstreamMove a b c d => plainOk a && plainOk b && plainOk c && plainOk d
  | .bstreamOwner a => plainOk a
  | .bstreamFwd b => plainOk b
  | .blandWait a b => plainOk a && plainOk b
  | .blandFill b => plainOk b
  | .blandDone b c => plainOk b && plainOk c
  | .pjob a b => dstOk a && vecOk b
  | .ppoll a b => dstOk a && plainOk b
  | .pwait a b => dstOk a && plainOk b
  | .pcan a b => dstOk a && plainOk b
  | .pheatSet a b => plainOk a && plainOk b
  | .pheatAdd a b => plainOk a && plainOk b
  | .pmonRing a b => dstOk a && plainOk b
  | .pmonBank a b => dstOk a && plainOk b
  | .pmonTemp a b => dstOk a && plainOk b
  | .psettle a b _ t => dstOk a && plainOk b && decide (1 ≤ t.toNat)
  | .pcalFull a => dstOk a
  | .pcalOfs a => dstOk a
  | .pmapRd a b => dstOk a && plainOk b
  | .pmapSwap a b => dstOk a && plainOk b
  | .pmapIdent a b => dstOk a && plainOk b
  | .pstat a sel => dstOk a && decide (sel.toNat ≤ 4)
  | .prowgoDrop => true
  | .prowgoMem => true
  | .prowgoLand _ => true
  | .paccRdN a b => dstOk a && plainOk b
  | .paccRdP a b => dstOk a && plainOk b
  | .towEnter a b c => dstOk a && vecOk b && plainOk c
  | .towExit a b => dstOk a && plainOk b
  | .towStat a b => dstOk a && plainOk b
  | .towWait a b => dstOk a && plainOk b
  | .fenrol a b _ nent => dstOk a && plainOk b && decide (1 ≤ nent.toNat) && decide (nent.toNat ≤ 1024)
  | .fleave a _ => dstOk a
  | .frb a b c rm _ _ => dstOk a && groupOk 4 b && plainOk c && rmOk rm
  | .fmax a b c _ _ => dstOk a && groupOk 4 b && plainOk c
  | .fmin a b c _ _ => dstOk a && groupOk 4 b && plainOk c
  | .fpop a _ => dstOk a
  | .falign a _ t => dstOk a && decide (1 ≤ t.toNat)
  | .fstat a _ sel => dstOk a && decide (sel.toNat ≤ 3)
  | .femitTake a => plainOk a
  | .femitLoad a b => plainOk a && plainOk b
  | .femitFrame a b => plainOk a && plainOk b
  | .femitDone a b => plainOk a && plainOk b
  | .fcountRd a b c => plainOk a && plainOk b && plainOk c
  | .fcountEl a b => plainOk a && plainOk b
  | .fcountEx a b => plainOk a && plainOk b
  | .rtv a => dstOk a
  | .lnkst a b p sel => dstOk a && lnkOk b p sel
  | .ttselSw a b _ _ => dstOk a && plainOk b
  | .ttselSeg a _ _ => dstOk a
  | .pilotst a _ => dstOk a
  | .trcRdEnt a i => dstOk a && decide (i.toNat ≤ 255)
  | .trcRdCnt a => dstOk a
  | .trcRdClr a => dstOk a
  | .imbRd a dw st i => dstOk a && imbOk dw st i
  | .dbgsigHalt => true
  | .dbgsigTrig => true
  | .dbgsigMark v => decide (v.toNat ≤ 32767)
  | .dumpst a sel => dstOk a && decide (sel.toNat ≤ 1)
  | .reservedOpcode op => op == 0 || decide (0xC1 ≤ op.toNat)
  | .lineFetch => true
  | .asyncTrapDelivery => true
  | .tpinWrite => true
  | .hbindWrite => true
  | .timedPhaseEntry => true
  | .waitmemWake => true
  | .waitmemTimeout => true
  | .barrierRelease => true
  | .meshPush => true
  | .meshPop => true
  | .qcPush => true
  | .qcPop => true
  | .jetRead => true
  | .prowRead => true
  | .xqPush => true
  | .xqPop => true
  | .qxPush => true
  | .qxPop => true
  | .localArrival => true
  | .chunkCommit => true
  | .vectorStorePart => true
  | .transformClaimLapse => true
  | .transformDecodeChunk => true
  | .decoderWatchdogCutoff => true
  | .transformTranspose => true
  | .transformConvert => true
  | .transformResponse => true
  | .evwaitWake => true
  | .engineKickAccept => true
  | .engineHartFaultStop => true
  | .engineHartWake => true
  | .doorbell => true
  | .klnidKill => true
  | .launchRecordTake => true
  | .launchPlacement => true
  | .launchRetirement => true
  | .timeSliceExpiry => true
  | .preemptionMark => true
  | .preemptionGraceExpiry => true
  | .launchRestore => true
  | .launchKill => true
  | .killComplete => true
  | .bargeForward => true
  | .bargeCopy => true
  | .loopIteration => true
  | .jobStart => true
  | .tileLoad => true
  | .tileStream => true
  | .rowDispatch => true
  | .jobComplete => true
  | .jobFailure => true
  | .jobPark => true
  | .driftEstimate => true
  | .bankSettled => true
  | .pthrsWrite => true
  | .sequencerRetune => true
  | .towSessionStart => true
  | .towWtile => true
  | .towRun => true
  | .towPromote => true
  | .towDrain => true
  | .towRoute => true
  | .towSync => true
  | .towBranch => true
  | .towCall => true
  | .towRet => true
  | .towExitBlock => true
  | .towReservedBlock => true
  | .towStop => true
  | .towPark => true
  | .towCompletion => true
  | .fordRequestTake => true
  | .fordFrame => true
  | .fordComplete => true
  | .fordTowHandover => true
  | .fordCensus => true
  | .fordReformNotice => true
  | .fordReformApply => true
  | .fordFallbackCollective => true
  | .fordFallbackTimeout => true
  | .fsegctlWrite => true
  | .packetForward => true
  | .remoteAccessTimeout => true
  | .remoteStoreAck => true
  | .remoteStoreLost => true
  | .routeCommit => true
  | .switchHoldDrain => true
  | .switchDark => true
  | .switchRelock => true
  | .switchCommit => true
  | .tideTick => true
  | .tideSample => true
  | .codewordReceive => true
  | .portRetrain => true
  | .portRetrainTimeout => true
  | .lhstClear => true
  | .pkick => true
  | .pilotWatchdogReset => true
  | .pilotRestart => true
  | .pilotShadowUpdate => true
  | .clusterHalt => true
  | .crossTriggerReceive => true
  | .tdgo => true
  | .debugWindowAccess => true
  | .coreDumpWrite => true
  | .hostBar2Access => true
  | .registerWrite => true
  | .fcenEnable => true
  | .fcenDisable => true
  | .translationInvalidate => true
  | .slicePartition => true
  | .alogcWrite => true
  | .ectlGo => true
  | .ectlRst => true
  | .efpop => true
  | .deviceReset => true
  | .getVersion => true
  | .getCapabilities => true
  | .negotiateAlgorithms => true
  | .getDigests => true
  | .getCertificate => true
  | .challenge => true
  | .getMeasurements => true
  | .gofull => true
  | .cfenceCluster => true
  | .cfencePontoon => true
  | .powerCapCheck => true
  | .thermalStateChange => true
  | .pcalComplete => true
  | .falignTrained => true
  | .portUp => true
  | .settleTimeout => true

/-- The fields that are data sources or data destinations, in field order: those in which a port number names a port
(R49, R50). -/
def Instr.dataRegs : Instr → List (BitVec 6)
  | .nop => []
  | .halt => []
  | .brk _ => []
  | .trap _ => []
  | .eret => []
  | .fence _ _ => []
  | .chunkEnd => []
  | .srr _ _ => []
  | .srw _ _ => []
  | .liI16 a _ => [a]
  | .liI32 a _ => [a]
  | .liI48 a _ => [a]
  | .liHi a _ => [a]
  | .leaBase a _ _ => [a]
  | .leaPc a _ => [a]
  | .leaIndex a _ _ _ _ => [a]
  | .leaPcIndex a _ _ _ => [a]
  | .addRr a b c => [a, b, c]
  | .subRr a b c => [a, b, c]
  | .andRr a b c => [a, b, c]
  | .orRr a b c => [a, b, c]
  | .xorRr a b c => [a, b, c]
  | .shlRr a b c => [a, b, c]
  | .shrRr a b c => [a, b, c]
  | .sraRr a b c => [a, b, c]
  | .minRr a b c => [a, b, c]
  | .maxRr a b c => [a, b, c]
  | .minuRr a b c => [a, b, c]
  | .maxuRr a b c => [a, b, c]
  | .addRi16 a b _ => [a, b]
  | .andRi16 a b _ => [a, b]
  | .orRi16 a b _ => [a, b]
  | .xorRi16 a b _ => [a, b]
  | .shlRi16 a b _ => [a, b]
  | .shrRi16 a b _ => [a, b]
  | .sraRi16 a b _ => [a, b]
  | .addRri32 a b _ => [a, b]
  | .andRri32 a b _ => [a, b]
  | .orRri32 a b _ => [a, b]
  | .xorRri32 a b _ => [a, b]
  | .cmpRr a b c _ => [a, b, c]
  | .cmpRi16 a b _ _ => [a, b]
  | .bfx a b _ _ _ => [a, b]
  | .bfi _ b _ _ => [b]
  | .clz a b => [a, b]
  | .popc a b => [a, b]
  | .mul a b c => [a, b, c]
  | .mulh a b c => [a, b, c]
  | .mulhu a b c => [a, b, c]
  | .div a b c => [a, b, c]
  | .divu a b c => [a, b, c]
  | .rem a b c => [a, b, c]
  | .remu a b c => [a, b, c]
  | .ldRi16 a _ _ _ _ _ => [a]
  | .ldRri32 a _ _ _ _ _ _ _ => [a]
  | .stRi16 a _ _ _ _ => [a]
  | .stRri32 a _ _ _ _ _ _ => [a]
  | .lda a _ _ _ _ _ => [a]
  | .stl a _ _ _ _ => [a]
  | .aadd a _ c _ _ => [a, c]
  | .amin a _ c _ _ _ => [a, c]
  | .amax a _ c _ _ _ => [a, c]
  | .aand a _ c _ _ => [a, c]
  | .aor a _ c _ _ => [a, c]
  | .axor a _ c _ _ => [a, c]
  | .aswap a _ c _ _ => [a, c]
  | .acas a _ c d _ _ => [a, c, d]
  | .bRi16 a b _ _ => [a, b]
  | .bRri32 a b _ _ => [a, b]
  | .jal a _ => [a]
  | .jalr a _ _ => [a]
  | .hstart a b c _ _ _ => [a, b, c]
  | .hjoin a b => [a, b]
  | .hend => []
  | .hyield => []
  | .gang a _ => [a]
  | .split => []
  | .phaseT => []
  | .phaseE => []
  | .tideRd a => [a]
  | .tideWait a _ _ _ => [a]
  | .waitmem a _ _ _ => [a]
  | .sendmsg a b c _ => [a, b, c]
  | .waitmsg => []
  | .vadd _ _ _ _ _ _ _ => []
  | .vsub _ _ _ _ _ _ _ => []
  | .vmul _ _ _ _ _ _ _ => []
  | .vmin _ _ _ _ _ _ _ => []
  | .vmax _ _ _ _ _ _ _ => []
  | .vrcpe _ _ _ _ _ _ => []
  | .vrsqe _ _ _ _ _ _ => []
  | .vexp2 _ _ _ _ _ _ => []
  | .vlog2 _ _ _ _ _ _ => []
  | .vfma _ _ _ _ _ _ _ _ _ _ _ => []
  | .vrefn _ _ _ _ _ _ _ _ => []
  | .viadd _ _ _ _ _ _ => []
  | .visub _ _ _ _ _ _ => []
  | .vimul _ _ _ _ _ _ _ => []
  | .vimin _ _ _ _ _ _ _ => []
  | .vimax _ _ _ _ _ _ _ => []
  | .vishl _ _ _ _ _ _ => []
  | .vishr _ _ _ _ _ _ _ => []
  | .vand _ _ _ _ _ _ => []
  | .vor _ _ _ _ _ _ => []
  | .vxor _ _ _ _ _ _ => []
  | .vcmp _ _ _ _ _ _ _ _ => []
  | .vicmp _ _ _ _ _ _ _ => []
  | .kwhile _ b c _ _ => [b, c]
  | .kand _ _ _ => []
  | .kor _ _ _ => []
  | .kxor _ _ _ => []
  | .kandn _ _ _ => []
  | .kmov _ _ => []
  | .knot _ _ => []
  | .kcnt a _ _ => [a]
  | .vwidth a => [a]
  | .vld _ _ _ _ _ _ _ => []
  | .vst _ _ _ _ _ _ => []
  | .vlds _ _ _ _ _ _ _ _ => []
  | .vsts _ _ _ _ _ _ _ => []
  | .vgath _ _ _ _ _ _ _ _ _ => []
  | .vscat _ _ _ _ _ _ _ _ => []
  | .vcvt _ _ _ _ _ _ _ _ _ => []
  | .vpack _ _ _ _ _ _ _ _ _ _ => []
  | .vunpk _ _ _ _ _ _ _ _ _ _ => []
  | .vdotf8 _ _ _ _ _ _ _ _ => []
  | .vdoti8 _ _ _ _ _ _ _ => []
  | .vred _ _ _ _ _ _ _ => []
  | .vscan _ _ _ _ _ _ _ => []
  | .vperm _ _ _ _ _ _ _ _ => []
  | .vbcast _ b _ _ _ _ el => if el then [] else [b]
  | .vsel _ _ _ _ _ => []
  | .vpeer _ _ _ _ => []
  | .vhist _ _ _ => []
  | .vseedRd a => [a]
  | .vseedWr b => [b]
  | .vseedXchg a b => [a, b]
  | .vext a _ _ _ _ => [a]
  | .vins _ b _ _ => [b]
  | .bbGet a b _ _ _ => [a, b]
  | .bbPeek a b _ _ _ => [a, b]
  | .bbSkip b _ _ => [b]
  | .bbFill a => [a]
  | .bbDec a _ => [a]
  | .bbSave _ _ => []
  | .bbRest _ _ => []
  | .xreq a _ => [a]
  | .xstat a => [a]
  | .launch a _ _ => [a]
  | .evwait a _ _ _ => [a]
  | .evsig a _ _ _ => [a]
  | .lqstat a _ => [a]
  | .yieldOp => []
  | .sync a _ => [a]
  | .dtake a _ => [a]
  | .dplaceStart a _ _ _ => [a]
  | .dplacePreq a _ _ _ => [a]
  | .dplaceSave a _ _ _ => [a]
  | .dplaceRest a _ _ _ => [a]
  | .dplaceKill a _ _ _ => [a]
  | .cpyPk a _ _ _ _ => [a]
  | .cpyLand a _ _ _ _ => [a]
  | .cpyRec a _ _ _ _ => [a]
  | .cpyLoop a _ _ _ _ => [a]
  | .cpycan a _ => [a]
  | .landAcq a b _ _ _ => [a, b]
  | .landRel b _ => [b]
  | .landInit a b c _ => [a, b, c]
  | .halloc a _ _ _ => [a]
  | .hfree a _ => [a]
  | .hbump a _ _ => [a]
  | .jpeek a b => [a, b]
  | .jdrop => []
  | .bget _ _ => []
  | .bstreamMove _ _ _ _ => []
  | .bstreamOwner _ => []
  | .bstreamFwd _ => []
  | .blandWait _ _ => []
  | .blandFill _ => []
  | .blandDone _ _ => []
  | .pjob a _ => [a]
  | .ppoll a _ => [a]
  | .pwait a _ => [a]
  | .pcan a _ => [a]
  | .pheatSet _ _ => []
  | .pheatAdd _ _ => []
  | .pmonRing a _ => [a]
  | .pmonBank a _ => [a]
  | .pmonTemp a _ => [a]
  | .psettle a _ _ _ => [a]
  | .pcalFull a => [a]
  | .pcalOfs a => [a]
  | .pmapRd a _ => [a]
  | .pmapSwap a _ => [a]
  | .pmapIdent a _ => [a]
  | .pstat a _ => [a]
  | .prowgoDrop => []
  | .prowgoMem => []
  | .prowgoLand b => [b]
  | .paccRdN a _ => [a]
  | .paccRdP a _ => [a]
  | .towEnter a _ _ => [a]
  | .towExit a _ => [a]
  | .towStat a _ => [a]
  | .towWait a _ => [a]
  | .fenrol a _ _ _ => [a]
  | .fleave a _ => [a]
  | .frb a _ _ _ _ _ => [a]
  | .fmax a _ _ _ _ => [a]
  | .fmin a _ _ _ _ => [a]
  | .fpop a _ => [a]
  | .falign a _ _ => [a]
  | .fstat a _ _ => [a]
  | .femitTake _ => []
  | .femitLoad _ _ => []
  | .femitFrame _ _ => []
  | .femitDone _ _ => []
  | .fcountRd _ _ _ => []
  | .fcountEl _ _ => []
  | .fcountEx _ _ => []
  | .rtv a => [a]
  | .lnkst a _ _ _ => [a]
  | .ttselSw a _ _ _ => [a]
  | .ttselSeg a _ _ => [a]
  | .pilotst a _ => [a]
  | .trcRdEnt a _ => [a]
  | .trcRdCnt a => [a]
  | .trcRdClr a => [a]
  | .imbRd a _ _ _ => [a]
  | .dbgsigHalt => []
  | .dbgsigTrig => []
  | .dbgsigMark _ => []
  | .dumpst a _ => [a]
  | .reservedOpcode _ => []
  | .lineFetch => []
  | .asyncTrapDelivery => []
  | .tpinWrite => []
  | .hbindWrite => []
  | .timedPhaseEntry => []
  | .waitmemWake => []
  | .waitmemTimeout => []
  | .barrierRelease => []
  | .meshPush => []
  | .meshPop => []
  | .qcPush => []
  | .qcPop => []
  | .jetRead => []
  | .prowRead => []
  | .xqPush => []
  | .xqPop => []
  | .qxPush => []
  | .qxPop => []
  | .localArrival => []
  | .chunkCommit => []
  | .vectorStorePart => []
  | .transformClaimLapse => []
  | .transformDecodeChunk => []
  | .decoderWatchdogCutoff => []
  | .transformTranspose => []
  | .transformConvert => []
  | .transformResponse => []
  | .evwaitWake => []
  | .engineKickAccept => []
  | .engineHartFaultStop => []
  | .engineHartWake => []
  | .doorbell => []
  | .klnidKill => []
  | .launchRecordTake => []
  | .launchPlacement => []
  | .launchRetirement => []
  | .timeSliceExpiry => []
  | .preemptionMark => []
  | .preemptionGraceExpiry => []
  | .launchRestore => []
  | .launchKill => []
  | .killComplete => []
  | .bargeForward => []
  | .bargeCopy => []
  | .loopIteration => []
  | .jobStart => []
  | .tileLoad => []
  | .tileStream => []
  | .rowDispatch => []
  | .jobComplete => []
  | .jobFailure => []
  | .jobPark => []
  | .driftEstimate => []
  | .bankSettled => []
  | .pthrsWrite => []
  | .sequencerRetune => []
  | .towSessionStart => []
  | .towWtile => []
  | .towRun => []
  | .towPromote => []
  | .towDrain => []
  | .towRoute => []
  | .towSync => []
  | .towBranch => []
  | .towCall => []
  | .towRet => []
  | .towExitBlock => []
  | .towReservedBlock => []
  | .towStop => []
  | .towPark => []
  | .towCompletion => []
  | .fordRequestTake => []
  | .fordFrame => []
  | .fordComplete => []
  | .fordTowHandover => []
  | .fordCensus => []
  | .fordReformNotice => []
  | .fordReformApply => []
  | .fordFallbackCollective => []
  | .fordFallbackTimeout => []
  | .fsegctlWrite => []
  | .packetForward => []
  | .remoteAccessTimeout => []
  | .remoteStoreAck => []
  | .remoteStoreLost => []
  | .routeCommit => []
  | .switchHoldDrain => []
  | .switchDark => []
  | .switchRelock => []
  | .switchCommit => []
  | .tideTick => []
  | .tideSample => []
  | .codewordReceive => []
  | .portRetrain => []
  | .portRetrainTimeout => []
  | .lhstClear => []
  | .pkick => []
  | .pilotWatchdogReset => []
  | .pilotRestart => []
  | .pilotShadowUpdate => []
  | .clusterHalt => []
  | .crossTriggerReceive => []
  | .tdgo => []
  | .debugWindowAccess => []
  | .coreDumpWrite => []
  | .hostBar2Access => []
  | .registerWrite => []
  | .fcenEnable => []
  | .fcenDisable => []
  | .translationInvalidate => []
  | .slicePartition => []
  | .alogcWrite => []
  | .ectlGo => []
  | .ectlRst => []
  | .efpop => []
  | .deviceReset => []
  | .getVersion => []
  | .getCapabilities => []
  | .negotiateAlgorithms => []
  | .getDigests => []
  | .getCertificate => []
  | .challenge => []
  | .getMeasurements => []
  | .gofull => []
  | .cfenceCluster => []
  | .cfencePontoon => []
  | .powerCapCheck => []
  | .thermalStateChange => []
  | .pcalComplete => []
  | .falignTrained => []
  | .portUp => []
  | .settleTimeout => []

/-- The opcode of the head that encodes an instruction; none for a step that no head encodes. -/
def Instr.opcode : Instr → Option Nat
  | .nop => some 0x01
  | .halt => some 0x02
  | .brk _ => some 0x03
  | .trap _ => some 0x04
  | .eret => some 0x05
  | .fence _ _ => some 0x06
  | .chunkEnd => some 0x07
  | .srr _ _ => some 0x08
  | .srw _ _ => some 0x09
  | .liI16 _ _ => some 0x0A
  | .liI32 _ _ => some 0x0B
  | .liI48 _ _ => some 0x0C
  | .liHi _ _ => some 0x0C
  | .leaBase _ _ _ => some 0x0D
  | .leaPc _ _ => some 0x0D
  | .leaIndex _ _ _ _ _ => some 0x0E
  | .leaPcIndex _ _ _ _ => some 0x0E
  | .addRr _ _ _ => some 0x0F
  | .subRr _ _ _ => some 0x10
  | .andRr _ _ _ => some 0x11
  | .orRr _ _ _ => some 0x12
  | .xorRr _ _ _ => some 0x13
  | .shlRr _ _ _ => some 0x14
  | .shrRr _ _ _ => some 0x15
  | .sraRr _ _ _ => some 0x16
  | .minRr _ _ _ => some 0x17
  | .maxRr _ _ _ => some 0x18
  | .minuRr _ _ _ => some 0x19
  | .maxuRr _ _ _ => some 0x1A
  | .addRi16 _ _ _ => some 0x1B
  | .andRi16 _ _ _ => some 0x1C
  | .orRi16 _ _ _ => some 0x1D
  | .xorRi16 _ _ _ => some 0x1E
  | .shlRi16 _ _ _ => some 0x1F
  | .shrRi16 _ _ _ => some 0x20
  | .sraRi16 _ _ _ => some 0x20
  | .addRri32 _ _ _ => some 0x21
  | .andRri32 _ _ _ => some 0x22
  | .orRri32 _ _ _ => some 0x23
  | .xorRri32 _ _ _ => some 0x24
  | .cmpRr _ _ _ _ => some 0x25
  | .cmpRi16 _ _ _ _ => some 0x26
  | .bfx _ _ _ _ _ => some 0x27
  | .bfi _ _ _ _ => some 0x28
  | .clz _ _ => some 0x29
  | .popc _ _ => some 0x2A
  | .mul _ _ _ => some 0x2B
  | .mulh _ _ _ => some 0x2C
  | .mulhu _ _ _ => some 0x2D
  | .div _ _ _ => some 0x2E
  | .divu _ _ _ => some 0x2F
  | .rem _ _ _ => some 0x30
  | .remu _ _ _ => some 0x31
  | .ldRi16 _ _ _ _ _ _ => some 0x32
  | .ldRri32 _ _ _ _ _ _ _ _ => some 0x33
  | .stRi16 _ _ _ _ _ => some 0x34
  | .stRri32 _ _ _ _ _ _ _ => some 0x35
  | .lda _ _ _ _ _ _ => some 0x36
  | .stl _ _ _ _ _ => some 0x37
  | .aadd _ _ _ _ _ => some 0x38
  | .amin _ _ _ _ _ _ => some 0x39
  | .amax _ _ _ _ _ _ => some 0x3A
  | .aand _ _ _ _ _ => some 0x3B
  | .aor _ _ _ _ _ => some 0x3C
  | .axor _ _ _ _ _ => some 0x3D
  | .aswap _ _ _ _ _ => some 0x3E
  | .acas _ _ _ _ _ _ => some 0x3F
  | .bRi16 _ _ _ _ => some 0x40
  | .bRri32 _ _ _ _ => some 0x41
  | .jal _ _ => some 0x42
  | .jalr _ _ _ => some 0x43
  | .hstart _ _ _ _ _ _ => some 0x44
  | .hjoin _ _ => some 0x45
  | .hend => some 0x46
  | .hyield => some 0x47
  | .gang _ _ => some 0x48
  | .split => some 0x49
  | .phaseT => some 0x4A
  | .phaseE => some 0x4B
  | .tideRd _ => some 0x4C
  | .tideWait _ _ _ _ => some 0x4D
  | .waitmem _ _ _ _ => some 0x4E
  | .sendmsg _ _ _ _ => some 0x4F
  | .waitmsg => some 0x50
  | .vadd _ _ _ _ _ _ _ => some 0x51
  | .vsub _ _ _ _ _ _ _ => some 0x52
  | .vmul _ _ _ _ _ _ _ => some 0x53
  | .vmin _ _ _ _ _ _ _ => some 0x55
  | .vmax _ _ _ _ _ _ _ => some 0x56
  | .vrcpe _ _ _ _ _ _ => some 0x57
  | .vrsqe _ _ _ _ _ _ => some 0x58
  | .vexp2 _ _ _ _ _ _ => some 0x5A
  | .vlog2 _ _ _ _ _ _ => some 0x5B
  | .vfma _ _ _ _ _ _ _ _ _ _ _ => some 0x54
  | .vrefn _ _ _ _ _ _ _ _ => some 0x59
  | .viadd _ _ _ _ _ _ => some 0x5C
  | .visub _ _ _ _ _ _ => some 0x5D
  | .vimul _ _ _ _ _ _ _ => some 0x5E
  | .vimin _ _ _ _ _ _ _ => some 0x5F
  | .vimax _ _ _ _ _ _ _ => some 0x60
  | .vishl _ _ _ _ _ _ => some 0x61
  | .vishr _ _ _ _ _ _ _ => some 0x62
  | .vand _ _ _ _ _ _ => some 0x63
  | .vor _ _ _ _ _ _ => some 0x64
  | .vxor _ _ _ _ _ _ => some 0x65
  | .vcmp _ _ _ _ _ _ _ _ => some 0x66
  | .vicmp _ _ _ _ _ _ _ => some 0x67
  | .kwhile _ _ _ _ _ => some 0x68
  | .kand _ _ _ => some 0x69
  | .kor _ _ _ => some 0x69
  | .kxor _ _ _ => some 0x69
  | .kandn _ _ _ => some 0x69
  | .kmov _ _ => some 0x6A
  | .knot _ _ => some 0x6A
  | .kcnt _ _ _ => some 0x6A
  | .vwidth _ => some 0x6B
  | .vld _ _ _ _ _ _ _ => some 0x6C
  | .vst _ _ _ _ _ _ => some 0x6D
  | .vlds _ _ _ _ _ _ _ _ => some 0x6E
  | .vsts _ _ _ _ _ _ _ => some 0x6F
  | .vgath _ _ _ _ _ _ _ _ _ => some 0x70
  | .vscat _ _ _ _ _ _ _ _ => some 0x71
  | .vcvt _ _ _ _ _ _ _ _ _ => some 0x72
  | .vpack _ _ _ _ _ _ _ _ _ _ => some 0x73
  | .vunpk _ _ _ _ _ _ _ _ _ _ => some 0x74
  | .vdotf8 _ _ _ _ _ _ _ _ => some 0x75
  | .vdoti8 _ _ _ _ _ _ _ => some 0x76
  | .vred _ _ _ _ _ _ _ => some 0x77
  | .vscan _ _ _ _ _ _ _ => some 0x78
  | .vperm _ _ _ _ _ _ _ _ => some 0x79
  | .vbcast _ _ _ _ _ _ _ => some 0x7A
  | .vsel _ _ _ _ _ => some 0x7B
  | .vpeer _ _ _ _ => some 0x7C
  | .vhist _ _ _ => some 0x7D
  | .vseedRd _ => some 0x7E
  | .vseedWr _ => some 0x7E
  | .vseedXchg _ _ => some 0x7E
  | .vext _ _ _ _ _ => some 0x7F
  | .vins _ _ _ _ => some 0x80
  | .bbGet _ _ _ _ _ => some 0x81
  | .bbPeek _ _ _ _ _ => some 0x82
  | .bbSkip _ _ _ => some 0x83
  | .bbFill _ => some 0x84
  | .bbDec _ _ => some 0x85
  | .bbSave _ _ => some 0x86
  | .bbRest _ _ => some 0x86
  | .xreq _ _ => some 0x87
  | .xstat _ => some 0x88
  | .launch _ _ _ => some 0x89
  | .evwait _ _ _ _ => some 0x8A
  | .evsig _ _ _ _ => some 0x8B
  | .lqstat _ _ => some 0x8C
  | .yieldOp => some 0x8D
  | .sync _ _ => some 0x8E
  | .dtake _ _ => some 0x8F
  | .dplaceStart _ _ _ _ => some 0x90
  | .dplacePreq _ _ _ _ => some 0x90
  | .dplaceSave _ _ _ _ => some 0x90
  | .dplaceRest _ _ _ _ => some 0x90
  | .dplaceKill _ _ _ _ => some 0x90
  | .cpyPk _ _ _ _ _ => some 0x91
  | .cpyLand _ _ _ _ _ => some 0x91
  | .cpyRec _ _ _ _ _ => some 0x91
  | .cpyLoop _ _ _ _ _ => some 0x92
  | .cpycan _ _ => some 0x93
  | .landAcq _ _ _ _ _ => some 0x94
  | .landRel _ _ => some 0x95
  | .landInit _ _ _ _ => some 0x96
  | .halloc _ _ _ _ => some 0x97
  | .hfree _ _ => some 0x98
  | .hbump _ _ _ => some 0x99
  | .jpeek _ _ => some 0x9A
  | .jdrop => some 0x9B
  | .bget _ _ => some 0x9C
  | .bstreamMove _ _ _ _ => some 0x9D
  | .bstreamOwner _ => some 0x9D
  | .bstreamFwd _ => some 0x9D
  | .blandWait _ _ => some 0x9E
  | .blandFill _ => some 0x9E
  | .blandDone _ _ => some 0x9E
  | .pjob _ _ => some 0x9F
  | .ppoll _ _ => some 0xA0
  | .pwait _ _ => some 0xA1
  | .pcan _ _ => some 0xA2
  | .pheatSet _ _ => some 0xA3
  | .pheatAdd _ _ => some 0xA3
  | .pmonRing _ _ => some 0xA4
  | .pmonBank _ _ => some 0xA4
  | .pmonTemp _ _ => some 0xA4
  | .psettle _ _ _ _ => some 0xA5
  | .pcalFull _ => some 0xA6
  | .pcalOfs _ => some 0xA6
  | .pmapRd _ _ => some 0xA7
  | .pmapSwap _ _ => some 0xA7
  | .pmapIdent _ _ => some 0xA7
  | .pstat _ _ => some 0xA8
  | .prowgoDrop => some 0xA9
  | .prowgoMem => some 0xA9
  | .prowgoLand _ => some 0xA9
  | .paccRdN _ _ => some 0xAA
  | .paccRdP _ _ => some 0xAA
  | .towEnter _ _ _ => some 0xAB
  | .towExit _ _ => some 0xAC
  | .towStat _ _ => some 0xAD
  | .towWait _ _ => some 0xAE
  | .fenrol _ _ _ _ => some 0xAF
  | .fleave _ _ => some 0xB0
  | .frb _ _ _ _ _ _ => some 0xB1
  | .fmax _ _ _ _ _ => some 0xB2
  | .fmin _ _ _ _ _ => some 0xB3
  | .fpop _ _ => some 0xB4
  | .falign _ _ _ => some 0xB5
  | .fstat _ _ _ => some 0xB6
  | .femitTake _ => some 0xB7
  | .femitLoad _ _ => some 0xB7
  | .femitFrame _ _ => some 0xB7
  | .femitDone _ _ => some 0xB7
  | .fcountRd _ _ _ => some 0xB8
  | .fcountEl _ _ => some 0xB8
  | .fcountEx _ _ => some 0xB8
  | .rtv _ => some 0xB9
  | .lnkst _ _ _ _ => some 0xBA
  | .ttselSw _ _ _ _ => some 0xBB
  | .ttselSeg _ _ _ => some 0xBB
  | .pilotst _ _ => some 0xBC
  | .trcRdEnt _ _ => some 0xBD
  | .trcRdCnt _ => some 0xBD
  | .trcRdClr _ => some 0xBD
  | .imbRd _ _ _ _ => some 0xBE
  | .dbgsigHalt => some 0xBF
  | .dbgsigTrig => some 0xBF
  | .dbgsigMark _ => some 0xBF
  | .dumpst _ _ => some 0xC0
  | .reservedOpcode _ => none
  | .lineFetch => none
  | .asyncTrapDelivery => none
  | .tpinWrite => none
  | .hbindWrite => none
  | .timedPhaseEntry => none
  | .waitmemWake => none
  | .waitmemTimeout => none
  | .barrierRelease => none
  | .meshPush => none
  | .meshPop => none
  | .qcPush => none
  | .qcPop => none
  | .jetRead => none
  | .prowRead => none
  | .xqPush => none
  | .xqPop => none
  | .qxPush => none
  | .qxPop => none
  | .localArrival => none
  | .chunkCommit => none
  | .vectorStorePart => none
  | .transformClaimLapse => none
  | .transformDecodeChunk => none
  | .decoderWatchdogCutoff => none
  | .transformTranspose => none
  | .transformConvert => none
  | .transformResponse => none
  | .evwaitWake => none
  | .engineKickAccept => none
  | .engineHartFaultStop => none
  | .engineHartWake => none
  | .doorbell => none
  | .klnidKill => none
  | .launchRecordTake => none
  | .launchPlacement => none
  | .launchRetirement => none
  | .timeSliceExpiry => none
  | .preemptionMark => none
  | .preemptionGraceExpiry => none
  | .launchRestore => none
  | .launchKill => none
  | .killComplete => none
  | .bargeForward => none
  | .bargeCopy => none
  | .loopIteration => none
  | .jobStart => none
  | .tileLoad => none
  | .tileStream => none
  | .rowDispatch => none
  | .jobComplete => none
  | .jobFailure => none
  | .jobPark => none
  | .driftEstimate => none
  | .bankSettled => none
  | .pthrsWrite => none
  | .sequencerRetune => none
  | .towSessionStart => none
  | .towWtile => none
  | .towRun => none
  | .towPromote => none
  | .towDrain => none
  | .towRoute => none
  | .towSync => none
  | .towBranch => none
  | .towCall => none
  | .towRet => none
  | .towExitBlock => none
  | .towReservedBlock => none
  | .towStop => none
  | .towPark => none
  | .towCompletion => none
  | .fordRequestTake => none
  | .fordFrame => none
  | .fordComplete => none
  | .fordTowHandover => none
  | .fordCensus => none
  | .fordReformNotice => none
  | .fordReformApply => none
  | .fordFallbackCollective => none
  | .fordFallbackTimeout => none
  | .fsegctlWrite => none
  | .packetForward => none
  | .remoteAccessTimeout => none
  | .remoteStoreAck => none
  | .remoteStoreLost => none
  | .routeCommit => none
  | .switchHoldDrain => none
  | .switchDark => none
  | .switchRelock => none
  | .switchCommit => none
  | .tideTick => none
  | .tideSample => none
  | .codewordReceive => none
  | .portRetrain => none
  | .portRetrainTimeout => none
  | .lhstClear => none
  | .pkick => none
  | .pilotWatchdogReset => none
  | .pilotRestart => none
  | .pilotShadowUpdate => none
  | .clusterHalt => none
  | .crossTriggerReceive => none
  | .tdgo => none
  | .debugWindowAccess => none
  | .coreDumpWrite => none
  | .hostBar2Access => none
  | .registerWrite => none
  | .fcenEnable => none
  | .fcenDisable => none
  | .translationInvalidate => none
  | .slicePartition => none
  | .alogcWrite => none
  | .ectlGo => none
  | .ectlRst => none
  | .efpop => none
  | .deviceReset => none
  | .getVersion => none
  | .getCapabilities => none
  | .negotiateAlgorithms => none
  | .getDigests => none
  | .getCertificate => none
  | .challenge => none
  | .getMeasurements => none
  | .gofull => none
  | .cfenceCluster => none
  | .cfencePontoon => none
  | .powerCapCheck => none
  | .thermalStateChange => none
  | .pcalComplete => none
  | .falignTrained => none
  | .portUp => none
  | .settleTimeout => none

/-- Whether a step comes from outside the heads: an engine, a unit, the host, the network or physics. Such steps may
stand in the agenda; the parts of an instruction may not. -/
def Instr.isEvent : Instr → Bool
  | .nop => false
  | .halt => false
  | .brk _ => false
  | .trap _ => false
  | .eret => false
  | .fence _ _ => false
  | .chunkEnd => false
  | .srr _ _ => false
  | .srw _ _ => false
  | .liI16 _ _ => false
  | .liI32 _ _ => false
  | .liI48 _ _ => false
  | .liHi _ _ => false
  | .leaBase _ _ _ => false
  | .leaPc _ _ => false
  | .leaIndex _ _ _ _ _ => false
  | .leaPcIndex _ _ _ _ => false
  | .addRr _ _ _ => false
  | .subRr _ _ _ => false
  | .andRr _ _ _ => false
  | .orRr _ _ _ => false
  | .xorRr _ _ _ => false
  | .shlRr _ _ _ => false
  | .shrRr _ _ _ => false
  | .sraRr _ _ _ => false
  | .minRr _ _ _ => false
  | .maxRr _ _ _ => false
  | .minuRr _ _ _ => false
  | .maxuRr _ _ _ => false
  | .addRi16 _ _ _ => false
  | .andRi16 _ _ _ => false
  | .orRi16 _ _ _ => false
  | .xorRi16 _ _ _ => false
  | .shlRi16 _ _ _ => false
  | .shrRi16 _ _ _ => false
  | .sraRi16 _ _ _ => false
  | .addRri32 _ _ _ => false
  | .andRri32 _ _ _ => false
  | .orRri32 _ _ _ => false
  | .xorRri32 _ _ _ => false
  | .cmpRr _ _ _ _ => false
  | .cmpRi16 _ _ _ _ => false
  | .bfx _ _ _ _ _ => false
  | .bfi _ _ _ _ => false
  | .clz _ _ => false
  | .popc _ _ => false
  | .mul _ _ _ => false
  | .mulh _ _ _ => false
  | .mulhu _ _ _ => false
  | .div _ _ _ => false
  | .divu _ _ _ => false
  | .rem _ _ _ => false
  | .remu _ _ _ => false
  | .ldRi16 _ _ _ _ _ _ => false
  | .ldRri32 _ _ _ _ _ _ _ _ => false
  | .stRi16 _ _ _ _ _ => false
  | .stRri32 _ _ _ _ _ _ _ => false
  | .lda _ _ _ _ _ _ => false
  | .stl _ _ _ _ _ => false
  | .aadd _ _ _ _ _ => false
  | .amin _ _ _ _ _ _ => false
  | .amax _ _ _ _ _ _ => false
  | .aand _ _ _ _ _ => false
  | .aor _ _ _ _ _ => false
  | .axor _ _ _ _ _ => false
  | .aswap _ _ _ _ _ => false
  | .acas _ _ _ _ _ _ => false
  | .bRi16 _ _ _ _ => false
  | .bRri32 _ _ _ _ => false
  | .jal _ _ => false
  | .jalr _ _ _ => false
  | .hstart _ _ _ _ _ _ => false
  | .hjoin _ _ => false
  | .hend => false
  | .hyield => false
  | .gang _ _ => false
  | .split => false
  | .phaseT => false
  | .phaseE => false
  | .tideRd _ => false
  | .tideWait _ _ _ _ => false
  | .waitmem _ _ _ _ => false
  | .sendmsg _ _ _ _ => false
  | .waitmsg => false
  | .vadd _ _ _ _ _ _ _ => false
  | .vsub _ _ _ _ _ _ _ => false
  | .vmul _ _ _ _ _ _ _ => false
  | .vmin _ _ _ _ _ _ _ => false
  | .vmax _ _ _ _ _ _ _ => false
  | .vrcpe _ _ _ _ _ _ => false
  | .vrsqe _ _ _ _ _ _ => false
  | .vexp2 _ _ _ _ _ _ => false
  | .vlog2 _ _ _ _ _ _ => false
  | .vfma _ _ _ _ _ _ _ _ _ _ _ => false
  | .vrefn _ _ _ _ _ _ _ _ => false
  | .viadd _ _ _ _ _ _ => false
  | .visub _ _ _ _ _ _ => false
  | .vimul _ _ _ _ _ _ _ => false
  | .vimin _ _ _ _ _ _ _ => false
  | .vimax _ _ _ _ _ _ _ => false
  | .vishl _ _ _ _ _ _ => false
  | .vishr _ _ _ _ _ _ _ => false
  | .vand _ _ _ _ _ _ => false
  | .vor _ _ _ _ _ _ => false
  | .vxor _ _ _ _ _ _ => false
  | .vcmp _ _ _ _ _ _ _ _ => false
  | .vicmp _ _ _ _ _ _ _ => false
  | .kwhile _ _ _ _ _ => false
  | .kand _ _ _ => false
  | .kor _ _ _ => false
  | .kxor _ _ _ => false
  | .kandn _ _ _ => false
  | .kmov _ _ => false
  | .knot _ _ => false
  | .kcnt _ _ _ => false
  | .vwidth _ => false
  | .vld _ _ _ _ _ _ _ => false
  | .vst _ _ _ _ _ _ => false
  | .vlds _ _ _ _ _ _ _ _ => false
  | .vsts _ _ _ _ _ _ _ => false
  | .vgath _ _ _ _ _ _ _ _ _ => false
  | .vscat _ _ _ _ _ _ _ _ => false
  | .vcvt _ _ _ _ _ _ _ _ _ => false
  | .vpack _ _ _ _ _ _ _ _ _ _ => false
  | .vunpk _ _ _ _ _ _ _ _ _ _ => false
  | .vdotf8 _ _ _ _ _ _ _ _ => false
  | .vdoti8 _ _ _ _ _ _ _ => false
  | .vred _ _ _ _ _ _ _ => false
  | .vscan _ _ _ _ _ _ _ => false
  | .vperm _ _ _ _ _ _ _ _ => false
  | .vbcast _ _ _ _ _ _ _ => false
  | .vsel _ _ _ _ _ => false
  | .vpeer _ _ _ _ => false
  | .vhist _ _ _ => false
  | .vseedRd _ => false
  | .vseedWr _ => false
  | .vseedXchg _ _ => false
  | .vext _ _ _ _ _ => false
  | .vins _ _ _ _ => false
  | .bbGet _ _ _ _ _ => false
  | .bbPeek _ _ _ _ _ => false
  | .bbSkip _ _ _ => false
  | .bbFill _ => false
  | .bbDec _ _ => false
  | .bbSave _ _ => false
  | .bbRest _ _ => false
  | .xreq _ _ => false
  | .xstat _ => false
  | .launch _ _ _ => false
  | .evwait _ _ _ _ => false
  | .evsig _ _ _ _ => false
  | .lqstat _ _ => false
  | .yieldOp => false
  | .sync _ _ => false
  | .dtake _ _ => false
  | .dplaceStart _ _ _ _ => false
  | .dplacePreq _ _ _ _ => false
  | .dplaceSave _ _ _ _ => false
  | .dplaceRest _ _ _ _ => false
  | .dplaceKill _ _ _ _ => false
  | .cpyPk _ _ _ _ _ => false
  | .cpyLand _ _ _ _ _ => false
  | .cpyRec _ _ _ _ _ => false
  | .cpyLoop _ _ _ _ _ => false
  | .cpycan _ _ => false
  | .landAcq _ _ _ _ _ => false
  | .landRel _ _ => false
  | .landInit _ _ _ _ => false
  | .halloc _ _ _ _ => false
  | .hfree _ _ => false
  | .hbump _ _ _ => false
  | .jpeek _ _ => false
  | .jdrop => false
  | .bget _ _ => false
  | .bstreamMove _ _ _ _ => false
  | .bstreamOwner _ => false
  | .bstreamFwd _ => false
  | .blandWait _ _ => false
  | .blandFill _ => false
  | .blandDone _ _ => false
  | .pjob _ _ => false
  | .ppoll _ _ => false
  | .pwait _ _ => false
  | .pcan _ _ => false
  | .pheatSet _ _ => false
  | .pheatAdd _ _ => false
  | .pmonRing _ _ => false
  | .pmonBank _ _ => false
  | .pmonTemp _ _ => false
  | .psettle _ _ _ _ => false
  | .pcalFull _ => false
  | .pcalOfs _ => false
  | .pmapRd _ _ => false
  | .pmapSwap _ _ => false
  | .pmapIdent _ _ => false
  | .pstat _ _ => false
  | .prowgoDrop => false
  | .prowgoMem => false
  | .prowgoLand _ => false
  | .paccRdN _ _ => false
  | .paccRdP _ _ => false
  | .towEnter _ _ _ => false
  | .towExit _ _ => false
  | .towStat _ _ => false
  | .towWait _ _ => false
  | .fenrol _ _ _ _ => false
  | .fleave _ _ => false
  | .frb _ _ _ _ _ _ => false
  | .fmax _ _ _ _ _ => false
  | .fmin _ _ _ _ _ => false
  | .fpop _ _ => false
  | .falign _ _ _ => false
  | .fstat _ _ _ => false
  | .femitTake _ => false
  | .femitLoad _ _ => false
  | .femitFrame _ _ => false
  | .femitDone _ _ => false
  | .fcountRd _ _ _ => false
  | .fcountEl _ _ => false
  | .fcountEx _ _ => false
  | .rtv _ => false
  | .lnkst _ _ _ _ => false
  | .ttselSw _ _ _ _ => false
  | .ttselSeg _ _ _ => false
  | .pilotst _ _ => false
  | .trcRdEnt _ _ => false
  | .trcRdCnt _ => false
  | .trcRdClr _ => false
  | .imbRd _ _ _ _ => false
  | .dbgsigHalt => false
  | .dbgsigTrig => false
  | .dbgsigMark _ => false
  | .dumpst _ _ => false
  | .reservedOpcode _ => false
  | .lineFetch => true
  | .asyncTrapDelivery => true
  | .tpinWrite => false
  | .hbindWrite => false
  | .timedPhaseEntry => true
  | .waitmemWake => true
  | .waitmemTimeout => true
  | .barrierRelease => true
  | .meshPush => false
  | .meshPop => false
  | .qcPush => false
  | .qcPop => false
  | .jetRead => false
  | .prowRead => false
  | .xqPush => false
  | .xqPop => false
  | .qxPush => false
  | .qxPop => false
  | .localArrival => true
  | .chunkCommit => true
  | .vectorStorePart => true
  | .transformClaimLapse => true
  | .transformDecodeChunk => true
  | .decoderWatchdogCutoff => true
  | .transformTranspose => true
  | .transformConvert => true
  | .transformResponse => true
  | .evwaitWake => true
  | .engineKickAccept => false
  | .engineHartFaultStop => true
  | .engineHartWake => true
  | .doorbell => true
  | .klnidKill => true
  | .launchRecordTake => true
  | .launchPlacement => true
  | .launchRetirement => true
  | .timeSliceExpiry => true
  | .preemptionMark => true
  | .preemptionGraceExpiry => true
  | .launchRestore => true
  | .launchKill => true
  | .killComplete => true
  | .bargeForward => true
  | .bargeCopy => true
  | .loopIteration => true
  | .jobStart => true
  | .tileLoad => true
  | .tileStream => true
  | .rowDispatch => true
  | .jobComplete => true
  | .jobFailure => true
  | .jobPark => true
  | .driftEstimate => true
  | .bankSettled => true
  | .pthrsWrite => true
  | .sequencerRetune => true
  | .towSessionStart => true
  | .towWtile => true
  | .towRun => true
  | .towPromote => true
  | .towDrain => true
  | .towRoute => true
  | .towSync => true
  | .towBranch => true
  | .towCall => true
  | .towRet => true
  | .towExitBlock => true
  | .towReservedBlock => true
  | .towStop => true
  | .towPark => true
  | .towCompletion => true
  | .fordRequestTake => true
  | .fordFrame => true
  | .fordComplete => true
  | .fordTowHandover => true
  | .fordCensus => true
  | .fordReformNotice => true
  | .fordReformApply => true
  | .fordFallbackCollective => true
  | .fordFallbackTimeout => true
  | .fsegctlWrite => true
  | .packetForward => true
  | .remoteAccessTimeout => true
  | .remoteStoreAck => true
  | .remoteStoreLost => true
  | .routeCommit => true
  | .switchHoldDrain => true
  | .switchDark => true
  | .switchRelock => true
  | .switchCommit => true
  | .tideTick => true
  | .tideSample => true
  | .codewordReceive => true
  | .portRetrain => true
  | .portRetrainTimeout => true
  | .lhstClear => true
  | .pkick => false
  | .pilotWatchdogReset => true
  | .pilotRestart => true
  | .pilotShadowUpdate => true
  | .clusterHalt => true
  | .crossTriggerReceive => true
  | .tdgo => true
  | .debugWindowAccess => true
  | .coreDumpWrite => true
  | .hostBar2Access => true
  | .registerWrite => true
  | .fcenEnable => true
  | .fcenDisable => true
  | .translationInvalidate => true
  | .slicePartition => true
  | .alogcWrite => true
  | .ectlGo => true
  | .ectlRst => true
  | .efpop => true
  | .deviceReset => true
  | .getVersion => true
  | .getCapabilities => true
  | .negotiateAlgorithms => true
  | .getDigests => true
  | .getCertificate => true
  | .challenge => true
  | .getMeasurements => true
  | .gofull => true
  | .cfenceCluster => true
  | .cfencePontoon => true
  | .powerCapCheck => true
  | .thermalStateChange => true
  | .pcalComplete => true
  | .falignTrained => true
  | .portUp => true
  | .settleTimeout => true

/-- Who may execute an opcode (R62 to R65), by the letters of R60. -/
def legal (op : Nat) : List Who :=
  match op with
  | 0x01 => [.control, .timed, .helper, .barge, .sequencer, .ford, .ferryman, .pilot]
  | 0x02 => [.control, .barge, .sequencer, .ford, .ferryman, .pilot]
  | 0x03 => [.control, .timed, .helper, .barge, .sequencer, .ford, .ferryman, .pilot]
  | 0x04 => [.control, .timed, .helper, .barge, .sequencer, .ford, .ferryman, .pilot]
  | 0x05 => [.control, .timed, .helper, .barge, .sequencer, .ford, .ferryman, .pilot]
  | 0x06 => [.control, .timed, .helper, .barge, .sequencer, .ford, .ferryman, .pilot]
  | 0x07 => [.control, .timed, .helper, .barge, .sequencer, .ford, .ferryman, .pilot]
  | 0x08 => [.control, .timed, .helper, .barge, .sequencer, .ford, .ferryman, .pilot]
  | 0x09 => [.control, .timed, .helper, .barge, .sequencer, .ford, .ferryman, .pilot]
  | 0x0A => [.control, .timed, .helper, .barge, .sequencer, .ford, .ferryman, .pilot]
  | 0x0B => [.control, .timed, .helper, .barge, .sequencer, .ford, .ferryman, .pilot]
  | 0x0C => [.control, .timed, .helper, .barge, .sequencer, .ford, .ferryman, .pilot]
  | 0x0D => [.control, .timed, .helper, .barge, .sequencer, .ford, .ferryman, .pilot]
  | 0x0E => [.control, .timed, .helper, .barge, .sequencer, .ford, .ferryman, .pilot]
  | 0x0F => [.control, .timed, .helper, .barge, .sequencer, .ford, .ferryman, .pilot]
  | 0x10 => [.control, .timed, .helper, .barge, .sequencer, .ford, .ferryman, .pilot]
  | 0x11 => [.control, .timed, .helper, .barge, .sequencer, .ford, .ferryman, .pilot]
  | 0x12 => [.control, .timed, .helper, .barge, .sequencer, .ford, .ferryman, .pilot]
  | 0x13 => [.control, .timed, .helper, .barge, .sequencer, .ford, .ferryman, .pilot]
  | 0x14 => [.control, .timed, .helper, .barge, .sequencer, .ford, .ferryman, .pilot]
  | 0x15 => [.control, .timed, .helper, .barge, .sequencer, .ford, .ferryman, .pilot]
  | 0x16 => [.control, .timed, .helper, .barge, .sequencer, .ford, .ferryman, .pilot]
  | 0x17 => [.control, .timed, .helper, .barge, .sequencer, .ford, .ferryman, .pilot]
  | 0x18 => [.control, .timed, .helper, .barge, .sequencer, .ford, .ferryman, .pilot]
  | 0x19 => [.control, .timed, .helper, .barge, .sequencer, .ford, .ferryman, .pilot]
  | 0x1A => [.control, .timed, .helper, .barge, .sequencer, .ford, .ferryman, .pilot]
  | 0x1B => [.control, .timed, .helper, .barge, .sequencer, .ford, .ferryman, .pilot]
  | 0x1C => [.control, .timed, .helper, .barge, .sequencer, .ford, .ferryman, .pilot]
  | 0x1D => [.control, .timed, .helper, .barge, .sequencer, .ford, .ferryman, .pilot]
  | 0x1E => [.control, .timed, .helper, .barge, .sequencer, .ford, .ferryman, .pilot]
  | 0x1F => [.control, .timed, .helper, .barge, .sequencer, .ford, .ferryman, .pilot]
  | 0x20 => [.control, .timed, .helper, .barge, .sequencer, .ford, .ferryman, .pilot]
  | 0x21 => [.control, .timed, .helper, .barge, .sequencer, .ford, .ferryman, .pilot]
  | 0x22 => [.control, .timed, .helper, .barge, .sequencer, .ford, .ferryman, .pilot]
  | 0x23 => [.control, .timed, .helper, .barge, .sequencer, .ford, .ferryman, .pilot]
  | 0x24 => [.control, .timed, .helper, .barge, .sequencer, .ford, .ferryman, .pilot]
  | 0x25 => [.control, .timed, .helper, .barge, .sequencer, .ford, .ferryman, .pilot]
  | 0x26 => [.control, .timed, .helper, .barge, .sequencer, .ford, .ferryman, .pilot]
  | 0x27 => [.control, .timed, .helper, .barge, .sequencer, .ford, .ferryman, .pilot]
  | 0x28 => [.control, .timed, .helper, .barge, .sequencer, .ford, .ferryman, .pilot]
  | 0x29 => [.control, .timed, .helper, .barge, .sequencer, .ford, .ferryman, .pilot]
  | 0x2A => [.control, .timed, .helper, .barge, .sequencer, .ford, .ferryman, .pilot]
  | 0x2B => [.control, .timed, .helper, .barge, .sequencer, .ford, .ferryman, .pilot]
  | 0x2C => [.control, .timed, .helper, .barge, .sequencer, .ford, .ferryman, .pilot]
  | 0x2D => [.control, .timed, .helper, .barge, .sequencer, .ford, .ferryman, .pilot]
  | 0x2E => [.control, .timed, .helper, .barge, .sequencer, .ford, .ferryman, .pilot]
  | 0x2F => [.control, .timed, .helper, .barge, .sequencer, .ford, .ferryman, .pilot]
  | 0x30 => [.control, .timed, .helper, .barge, .sequencer, .ford, .ferryman, .pilot]
  | 0x31 => [.control, .timed, .helper, .barge, .sequencer, .ford, .ferryman, .pilot]
  | 0x32 => [.control, .timed, .helper, .barge, .sequencer, .ford, .ferryman, .pilot]
  | 0x33 => [.control, .timed, .helper, .barge, .sequencer, .ford, .ferryman, .pilot]
  | 0x34 => [.control, .timed, .helper, .barge, .sequencer, .ford, .ferryman, .pilot]
  | 0x35 => [.control, .timed, .helper, .barge, .sequencer, .ford, .ferryman, .pilot]
  | 0x36 => [.control, .timed, .helper, .barge, .sequencer, .ford, .ferryman, .pilot]
  | 0x37 => [.control, .timed, .helper, .barge, .sequencer, .ford, .ferryman, .pilot]
  | 0x38 => [.control, .helper, .barge, .sequencer, .ford, .ferryman, .pilot]
  | 0x39 => [.control, .helper, .barge, .sequencer, .ford, .ferryman, .pilot]
  | 0x3A => [.control, .helper, .barge, .sequencer, .ford, .ferryman, .pilot]
  | 0x3B => [.control, .helper, .barge, .sequencer, .ford, .ferryman, .pilot]
  | 0x3C => [.control, .helper, .barge, .sequencer, .ford, .ferryman, .pilot]
  | 0x3D => [.control, .helper, .barge, .sequencer, .ford, .ferryman, .pilot]
  | 0x3E => [.control, .helper, .barge, .sequencer, .ford, .ferryman, .pilot]
  | 0x3F => [.control, .helper, .barge, .sequencer, .ford, .ferryman, .pilot]
  | 0x40 => [.control, .timed, .helper, .barge, .sequencer, .ford, .ferryman, .pilot]
  | 0x41 => [.control, .timed, .helper, .barge, .sequencer, .ford, .ferryman, .pilot]
  | 0x42 => [.control, .timed, .helper, .barge, .sequencer, .ford, .ferryman, .pilot]
  | 0x43 => [.control, .timed, .helper, .barge, .sequencer, .ford, .ferryman, .pilot]
  | 0x44 => [.control]
  | 0x45 => [.control]
  | 0x46 => [.helper]
  | 0x47 => [.helper]
  | 0x48 => [.control]
  | 0x49 => [.control]
  | 0x4A => [.control]
  | 0x4B => [.timed]
  | 0x4C => [.control, .timed, .helper, .barge, .sequencer, .ford, .ferryman, .pilot]
  | 0x4D => [.control, .timed, .helper, .barge, .sequencer, .ford, .ferryman, .pilot]
  | 0x4E => [.control, .helper, .barge, .sequencer, .ford, .ferryman, .pilot]
  | 0x4F => [.control, .timed, .helper, .barge, .sequencer, .ford, .ferryman, .pilot]
  | 0x50 => [.control, .helper]
  | 0x51 => [.control, .timed, .helper]
  | 0x52 => [.control, .timed, .helper]
  | 0x53 => [.control, .timed, .helper]
  | 0x54 => [.control, .timed, .helper]
  | 0x55 => [.control, .timed, .helper]
  | 0x56 => [.control, .timed, .helper]
  | 0x57 => [.control, .timed, .helper]
  | 0x58 => [.control, .timed, .helper]
  | 0x59 => [.control, .timed, .helper]
  | 0x5A => [.control, .timed, .helper]
  | 0x5B => [.control, .timed, .helper]
  | 0x5C => [.control, .timed, .helper]
  | 0x5D => [.control, .timed, .helper]
  | 0x5E => [.control, .timed, .helper]
  | 0x5F => [.control, .timed, .helper]
  | 0x60 => [.control, .timed, .helper]
  | 0x61 => [.control, .timed, .helper]
  | 0x62 => [.control, .timed, .helper]
  | 0x63 => [.control, .timed, .helper]
  | 0x64 => [.control, .timed, .helper]
  | 0x65 => [.control, .timed, .helper]
  | 0x66 => [.control, .timed, .helper]
  | 0x67 => [.control, .timed, .helper]
  | 0x68 => [.control, .timed, .helper]
  | 0x69 => [.control, .timed, .helper]
  | 0x6A => [.control, .timed, .helper]
  | 0x6B => [.control, .timed, .helper]
  | 0x6C => [.control, .timed, .helper]
  | 0x6D => [.control, .timed, .helper]
  | 0x6E => [.control, .timed, .helper]
  | 0x6F => [.control, .timed, .helper]
  | 0x70 => [.control, .timed, .helper]
  | 0x71 => [.control, .timed, .helper]
  | 0x72 => [.control, .timed, .helper]
  | 0x73 => [.control, .timed, .helper]
  | 0x74 => [.control, .timed, .helper]
  | 0x75 => [.control, .timed, .helper]
  | 0x76 => [.control, .timed, .helper]
  | 0x77 => [.control, .timed, .helper]
  | 0x78 => [.control, .timed, .helper]
  | 0x79 => [.control, .timed, .helper]
  | 0x7A => [.control, .timed, .helper]
  | 0x7B => [.control, .timed, .helper]
  | 0x7C => [.control, .timed, .helper]
  | 0x7D => [.control, .timed, .helper]
  | 0x7E => [.control, .timed, .helper]
  | 0x7F => [.control, .timed, .helper]
  | 0x80 => [.control, .timed, .helper]
  | 0x81 => [.control, .timed, .helper]
  | 0x82 => [.control, .timed, .helper]
  | 0x83 => [.control, .timed, .helper]
  | 0x84 => [.control, .timed, .helper]
  | 0x85 => [.control, .timed, .helper]
  | 0x86 => [.control, .timed, .helper]
  | 0x87 => [.control, .timed, .helper]
  | 0x88 => [.control, .timed, .helper]
  | 0x89 => [.control]
  | 0x8A => [.control]
  | 0x8B => [.control, .helper, .ferryman]
  | 0x8C => [.control, .helper]
  | 0x8D => [.control]
  | 0x8E => [.control, .timed]
  | 0x8F => [.ferryman]
  | 0x90 => [.ferryman]
  | 0x91 => [.control, .timed, .helper]
  | 0x92 => [.control, .timed, .helper]
  | 0x93 => [.control, .helper]
  | 0x94 => [.control, .timed, .helper]
  | 0x95 => [.control, .timed, .helper]
  | 0x96 => [.control]
  | 0x97 => [.control]
  | 0x98 => [.control]
  | 0x99 => [.control, .helper]
  | 0x9A => [.control, .timed, .helper]
  | 0x9B => [.control, .timed, .helper]
  | 0x9C => [.barge]
  | 0x9D => [.barge]
  | 0x9E => [.barge]
  | 0x9F => [.control, .timed, .helper]
  | 0xA0 => [.control, .timed, .helper]
  | 0xA1 => [.control, .helper]
  | 0xA2 => [.control, .helper]
  | 0xA3 => [.control, .sequencer]
  | 0xA4 => [.control, .sequencer]
  | 0xA5 => [.control, .sequencer]
  | 0xA6 => [.control, .sequencer]
  | 0xA7 => [.control, .sequencer]
  | 0xA8 => [.control, .timed, .helper, .sequencer]
  | 0xA9 => [.drain]
  | 0xAA => [.control, .sequencer]
  | 0xAB => [.control]
  | 0xAC => [.control]
  | 0xAD => [.control, .timed, .helper]
  | 0xAE => [.control, .helper]
  | 0xAF => [.control]
  | 0xB0 => [.control]
  | 0xB1 => [.control, .timed]
  | 0xB2 => [.control, .timed]
  | 0xB3 => [.control, .timed]
  | 0xB4 => [.control, .timed, .helper, .ford]
  | 0xB5 => [.control]
  | 0xB6 => [.control, .timed, .helper, .ford]
  | 0xB7 => [.ford]
  | 0xB8 => [.ford]
  | 0xB9 => [.control, .timed, .helper, .pilot]
  | 0xBA => [.control, .helper, .pilot]
  | 0xBB => [.control, .ferryman]
  | 0xBC => [.control, .helper, .pilot]
  | 0xBD => [.control, .helper]
  | 0xBE => [.control, .helper]
  | 0xBF => [.control, .timed, .helper]
  | 0xC0 => [.control, .helper]
  | _ => []

end Sys2Proof
end

