-- ==== Sys2Proof/Decode.lean ====
section
/-!
DEFINITION. The line format of R33 to R37 and the decoder of its heads, total on any bytes, with the encoder after it.

A head that carries a reserved opcode decodes to `reservedOpcode` (R66). What R42 calls a format fault and what it calls
a reserved operand value are two errors, because R43 puts the legality of the opcode between them.

Marks (notes/assumptions): DEDUCED (unsafe) 12; DESIGN CHOICE (safe) 58.
-/

namespace Sys2Proof

/-- Why a head is no instruction (R42). -/
inductive DecErr where
  /-- INSTR_FORMAT: a wrong size code, a res field, an undefined bit of m or an unused register field. -/
  | instrFormat
  /-- ILLEGAL_OPERAND: a reserved value of a defined sub-field, or a nonzero unused immediate. -/
  | reservedOperand
  deriving DecidableEq, Repr

/-- Bit `lo` of a tail. -/
def flag (t lo : Nat) : Bool := decide (bits t lo 1 = 1)

/-- Opcode 0x01: NOP; `a` is field A, `t` the tail. -/
def decOp01 (a _ : Nat) : Except DecErr Instr :=
  if a = 0 then .ok .nop else .error .instrFormat

/-- Opcode 0x02: HALT; `a` is field A, `t` the tail. -/
def decOp02 (a _ : Nat) : Except DecErr Instr :=
  if a = 0 then .ok .halt else .error .instrFormat

/-- Opcode 0x03: BREAK; `a` is field A, `t` the tail. -/
def decOp03 (a t : Nat) : Except DecErr Instr :=
  if a = 0 then .ok (.brk (BitVec.ofNat 16 (bits t 0 16))) else .error .instrFormat

/-- Opcode 0x04: TRAP; `a` is field A, `t` the tail. -/
def decOp04 (a t : Nat) : Except DecErr Instr :=
  if a = 0 then .ok (.trap (BitVec.ofNat 16 (bits t 0 16))) else .error .instrFormat

/-- Opcode 0x05: ERET; `a` is field A, `t` the tail. -/
def decOp05 (a _ : Nat) : Except DecErr Instr :=
  if a = 0 then .ok .eret else .error .instrFormat

/-- Opcode 0x06: FENCE; `a` is field A, `t` the tail. -/
def decOp06 (a t : Nat) : Except DecErr Instr :=
  if a = 0 ∧ bits t 0 6 = 0 ∧ bits t 6 6 = 0 then .ok (.fence (BitVec.ofNat 3 (bits t 12 3)) (flag t 15)) else .error .instrFormat

/-- Opcode 0x07: CHUNK_END; `a` is field A, `t` the tail. -/
def decOp07 (a _ : Nat) : Except DecErr Instr :=
  if a = 0 then .ok .chunkEnd else .error .instrFormat

/-- Opcode 0x08: SRR; `a` is field A, `t` the tail. -/
def decOp08 (a t : Nat) : Except DecErr Instr :=
  .ok (.srr (BitVec.ofNat 6 a) (BitVec.ofNat 16 (bits t 0 16)))

/-- Opcode 0x09: SRW; `a` is field A, `t` the tail. -/
def decOp09 (a t : Nat) : Except DecErr Instr :=
  .ok (.srw (BitVec.ofNat 6 a) (BitVec.ofNat 16 (bits t 0 16)))

/-- Opcode 0x0A: LI_I16; `a` is field A, `t` the tail. -/
def decOp0A (a t : Nat) : Except DecErr Instr :=
  .ok (.liI16 (BitVec.ofNat 6 a) (BitVec.ofNat 16 (bits t 0 16)))

/-- Opcode 0x0B: LI_I32; `a` is field A, `t` the tail. -/
def decOp0B (a t : Nat) : Except DecErr Instr :=
  .ok (.liI32 (BitVec.ofNat 6 a) (BitVec.ofNat 32 (bits t 0 32)))

/-- Opcode 0x0C: LI_I48, LI_HI; `a` is field A, `t` the tail. -/
def decOp0C (a t : Nat) : Except DecErr Instr :=
  if bits t 6 1 = 0 then if bits t 0 6 = 0 ∧ bits t 7 9 = 0 then .ok (.liI48 (BitVec.ofNat 6 a) (BitVec.ofNat 48 (bits t 16 48))) else .error .instrFormat
  else if bits t 6 1 = 1 then if bits t 0 6 = 0 ∧ bits t 7 9 = 0 then .ok (.liHi (BitVec.ofNat 6 a) (BitVec.ofNat 48 (bits t 16 48))) else .error .instrFormat
  else if bits t 0 6 = 0 ∧ bits t 7 9 = 0 then .error .reservedOperand else .error .instrFormat

/-- Opcode 0x0D: LEA_BASE, LEA_PC; `a` is field A, `t` the tail. -/
def decOp0D (a t : Nat) : Except DecErr Instr :=
  if bits t 6 1 = 0 then if bits t 7 9 = 0 then .ok (.leaBase (BitVec.ofNat 6 a) (BitVec.ofNat 6 (bits t 0 6)) (BitVec.ofNat 16 (bits t 16 16))) else .error .instrFormat
  else if bits t 6 1 = 1 then if bits t 0 6 = 0 ∧ bits t 7 9 = 0 then .ok (.leaPc (BitVec.ofNat 6 a) (BitVec.ofNat 16 (bits t 16 16))) else .error .instrFormat
  else if bits t 7 9 = 0 then .error .reservedOperand else .error .instrFormat

/-- Opcode 0x0E: LEA_INDEX, LEA_PC_INDEX; `a` is field A, `t` the tail. -/
def decOp0E (a t : Nat) : Except DecErr Instr :=
  if bits t 14 1 = 0 then if bits t 15 17 = 0 then .ok (.leaIndex (BitVec.ofNat 6 a) (BitVec.ofNat 6 (bits t 0 6)) (BitVec.ofNat 6 (bits t 6 6)) (BitVec.ofNat 2 (bits t 12 2)) (BitVec.ofNat 32 (bits t 32 32))) else .error .instrFormat
  else if bits t 14 1 = 1 then if bits t 0 6 = 0 ∧ bits t 15 17 = 0 then .ok (.leaPcIndex (BitVec.ofNat 6 a) (BitVec.ofNat 6 (bits t 6 6)) (BitVec.ofNat 2 (bits t 12 2)) (BitVec.ofNat 32 (bits t 32 32))) else .error .instrFormat
  else if bits t 15 17 = 0 then .error .reservedOperand else .error .instrFormat

/-- Opcode 0x0F: ADD_RR; `a` is field A, `t` the tail. -/
def decOp0F (a t : Nat) : Except DecErr Instr :=
  if bits t 12 4 = 0 then .ok (.addRr (BitVec.ofNat 6 a) (BitVec.ofNat 6 (bits t 0 6)) (BitVec.ofNat 6 (bits t 6 6))) else .error .instrFormat

/-- Opcode 0x10: SUB_RR; `a` is field A, `t` the tail. -/
def decOp10 (a t : Nat) : Except DecErr Instr :=
  if bits t 12 4 = 0 then .ok (.subRr (BitVec.ofNat 6 a) (BitVec.ofNat 6 (bits t 0 6)) (BitVec.ofNat 6 (bits t 6 6))) else .error .instrFormat

/-- Opcode 0x11: AND_RR; `a` is field A, `t` the tail. -/
def decOp11 (a t : Nat) : Except DecErr Instr :=
  if bits t 12 4 = 0 then .ok (.andRr (BitVec.ofNat 6 a) (BitVec.ofNat 6 (bits t 0 6)) (BitVec.ofNat 6 (bits t 6 6))) else .error .instrFormat

/-- Opcode 0x12: OR_RR; `a` is field A, `t` the tail. -/
def decOp12 (a t : Nat) : Except DecErr Instr :=
  if bits t 12 4 = 0 then .ok (.orRr (BitVec.ofNat 6 a) (BitVec.ofNat 6 (bits t 0 6)) (BitVec.ofNat 6 (bits t 6 6))) else .error .instrFormat

/-- Opcode 0x13: XOR_RR; `a` is field A, `t` the tail. -/
def decOp13 (a t : Nat) : Except DecErr Instr :=
  if bits t 12 4 = 0 then .ok (.xorRr (BitVec.ofNat 6 a) (BitVec.ofNat 6 (bits t 0 6)) (BitVec.ofNat 6 (bits t 6 6))) else .error .instrFormat

/-- Opcode 0x14: SHL_RR; `a` is field A, `t` the tail. -/
def decOp14 (a t : Nat) : Except DecErr Instr :=
  if bits t 12 4 = 0 then .ok (.shlRr (BitVec.ofNat 6 a) (BitVec.ofNat 6 (bits t 0 6)) (BitVec.ofNat 6 (bits t 6 6))) else .error .instrFormat

/-- Opcode 0x15: SHR_RR; `a` is field A, `t` the tail. -/
def decOp15 (a t : Nat) : Except DecErr Instr :=
  if bits t 12 4 = 0 then .ok (.shrRr (BitVec.ofNat 6 a) (BitVec.ofNat 6 (bits t 0 6)) (BitVec.ofNat 6 (bits t 6 6))) else .error .instrFormat

/-- Opcode 0x16: SRA_RR; `a` is field A, `t` the tail. -/
def decOp16 (a t : Nat) : Except DecErr Instr :=
  if bits t 12 4 = 0 then .ok (.sraRr (BitVec.ofNat 6 a) (BitVec.ofNat 6 (bits t 0 6)) (BitVec.ofNat 6 (bits t 6 6))) else .error .instrFormat

/-- Opcode 0x17: MIN_RR; `a` is field A, `t` the tail. -/
def decOp17 (a t : Nat) : Except DecErr Instr :=
  if bits t 12 4 = 0 then .ok (.minRr (BitVec.ofNat 6 a) (BitVec.ofNat 6 (bits t 0 6)) (BitVec.ofNat 6 (bits t 6 6))) else .error .instrFormat

/-- Opcode 0x18: MAX_RR; `a` is field A, `t` the tail. -/
def decOp18 (a t : Nat) : Except DecErr Instr :=
  if bits t 12 4 = 0 then .ok (.maxRr (BitVec.ofNat 6 a) (BitVec.ofNat 6 (bits t 0 6)) (BitVec.ofNat 6 (bits t 6 6))) else .error .instrFormat

/-- Opcode 0x19: MINU_RR; `a` is field A, `t` the tail. -/
def decOp19 (a t : Nat) : Except DecErr Instr :=
  if bits t 12 4 = 0 then .ok (.minuRr (BitVec.ofNat 6 a) (BitVec.ofNat 6 (bits t 0 6)) (BitVec.ofNat 6 (bits t 6 6))) else .error .instrFormat

/-- Opcode 0x1A: MAXU_RR; `a` is field A, `t` the tail. -/
def decOp1A (a t : Nat) : Except DecErr Instr :=
  if bits t 12 4 = 0 then .ok (.maxuRr (BitVec.ofNat 6 a) (BitVec.ofNat 6 (bits t 0 6)) (BitVec.ofNat 6 (bits t 6 6))) else .error .instrFormat

/-- Opcode 0x1B: ADD_RI16; `a` is field A, `t` the tail. -/
def decOp1B (a t : Nat) : Except DecErr Instr :=
  if bits t 6 10 = 0 then .ok (.addRi16 (BitVec.ofNat 6 a) (BitVec.ofNat 6 (bits t 0 6)) (BitVec.ofNat 16 (bits t 16 16))) else .error .instrFormat

/-- Opcode 0x1C: AND_RI16; `a` is field A, `t` the tail. -/
def decOp1C (a t : Nat) : Except DecErr Instr :=
  if bits t 6 10 = 0 then .ok (.andRi16 (BitVec.ofNat 6 a) (BitVec.ofNat 6 (bits t 0 6)) (BitVec.ofNat 16 (bits t 16 16))) else .error .instrFormat

/-- Opcode 0x1D: OR_RI16; `a` is field A, `t` the tail. -/
def decOp1D (a t : Nat) : Except DecErr Instr :=
  if bits t 6 10 = 0 then .ok (.orRi16 (BitVec.ofNat 6 a) (BitVec.ofNat 6 (bits t 0 6)) (BitVec.ofNat 16 (bits t 16 16))) else .error .instrFormat

/-- Opcode 0x1E: XOR_RI16; `a` is field A, `t` the tail. -/
def decOp1E (a t : Nat) : Except DecErr Instr :=
  if bits t 6 10 = 0 then .ok (.xorRi16 (BitVec.ofNat 6 a) (BitVec.ofNat 6 (bits t 0 6)) (BitVec.ofNat 16 (bits t 16 16))) else .error .instrFormat

/-- Opcode 0x1F: SHL_RI16; `a` is field A, `t` the tail. -/
def decOp1F (a t : Nat) : Except DecErr Instr :=
  if bits t 6 10 = 0 then .ok (.shlRi16 (BitVec.ofNat 6 a) (BitVec.ofNat 6 (bits t 0 6)) (BitVec.ofNat 16 (bits t 16 16))) else .error .instrFormat

/-- Opcode 0x20: SHR_RI16, SRA_RI16; `a` is field A, `t` the tail. -/
def decOp20 (a t : Nat) : Except DecErr Instr :=
  if bits t 7 1 = 0 then if bits t 6 1 = 0 ∧ bits t 8 8 = 0 then .ok (.shrRi16 (BitVec.ofNat 6 a) (BitVec.ofNat 6 (bits t 0 6)) (BitVec.ofNat 16 (bits t 16 16))) else .error .instrFormat
  else if bits t 7 1 = 1 then if bits t 6 1 = 0 ∧ bits t 8 8 = 0 then .ok (.sraRi16 (BitVec.ofNat 6 a) (BitVec.ofNat 6 (bits t 0 6)) (BitVec.ofNat 16 (bits t 16 16))) else .error .instrFormat
  else if bits t 6 1 = 0 ∧ bits t 8 8 = 0 then .error .reservedOperand else .error .instrFormat

/-- Opcode 0x21: ADD_RRI32; `a` is field A, `t` the tail. -/
def decOp21 (a t : Nat) : Except DecErr Instr :=
  if bits t 6 6 = 0 ∧ bits t 12 20 = 0 then .ok (.addRri32 (BitVec.ofNat 6 a) (BitVec.ofNat 6 (bits t 0 6)) (BitVec.ofNat 32 (bits t 32 32))) else .error .instrFormat

/-- Opcode 0x22: AND_RRI32; `a` is field A, `t` the tail. -/
def decOp22 (a t : Nat) : Except DecErr Instr :=
  if bits t 6 6 = 0 ∧ bits t 12 20 = 0 then .ok (.andRri32 (BitVec.ofNat 6 a) (BitVec.ofNat 6 (bits t 0 6)) (BitVec.ofNat 32 (bits t 32 32))) else .error .instrFormat

/-- Opcode 0x23: OR_RRI32; `a` is field A, `t` the tail. -/
def decOp23 (a t : Nat) : Except DecErr Instr :=
  if bits t 6 6 = 0 ∧ bits t 12 20 = 0 then .ok (.orRri32 (BitVec.ofNat 6 a) (BitVec.ofNat 6 (bits t 0 6)) (BitVec.ofNat 32 (bits t 32 32))) else .error .instrFormat

/-- Opcode 0x24: XOR_RRI32; `a` is field A, `t` the tail. -/
def decOp24 (a t : Nat) : Except DecErr Instr :=
  if bits t 6 6 = 0 ∧ bits t 12 20 = 0 then .ok (.xorRri32 (BitVec.ofNat 6 a) (BitVec.ofNat 6 (bits t 0 6)) (BitVec.ofNat 32 (bits t 32 32))) else .error .instrFormat

/-- Opcode 0x25: CMP_RR; `a` is field A, `t` the tail. -/
def decOp25 (a t : Nat) : Except DecErr Instr :=
  .ok (.cmpRr (BitVec.ofNat 6 a) (BitVec.ofNat 6 (bits t 0 6)) (BitVec.ofNat 6 (bits t 6 6)) (BitVec.ofNat 4 (bits t 12 4)))

/-- Opcode 0x26: CMP_RI16; `a` is field A, `t` the tail. -/
def decOp26 (a t : Nat) : Except DecErr Instr :=
  if bits t 10 6 = 0 then .ok (.cmpRi16 (BitVec.ofNat 6 a) (BitVec.ofNat 6 (bits t 0 6)) (BitVec.ofNat 4 (bits t 6 4)) (BitVec.ofNat 16 (bits t 16 16))) else .error .instrFormat

/-- Opcode 0x27: BFX; `a` is field A, `t` the tail. -/
def decOp27 (a t : Nat) : Except DecErr Instr :=
  if bits t 7 9 = 0 then (if bits t 28 4 = 0 then .ok (.bfx (BitVec.ofNat 6 a) (BitVec.ofNat 6 (bits t 0 6)) (flag t 6) (BitVec.ofNat 6 (bits t 16 6)) (BitVec.ofNat 6 (bits t 22 6))) else .error .reservedOperand) else .error .instrFormat

/-- Opcode 0x28: BFI; `a` is field A, `t` the tail. -/
def decOp28 (a t : Nat) : Except DecErr Instr :=
  if bits t 6 10 = 0 then (if bits t 28 4 = 0 then .ok (.bfi (BitVec.ofNat 6 a) (BitVec.ofNat 6 (bits t 0 6)) (BitVec.ofNat 6 (bits t 16 6)) (BitVec.ofNat 6 (bits t 22 6))) else .error .reservedOperand) else .error .instrFormat

/-- Opcode 0x29: CLZ; `a` is field A, `t` the tail. -/
def decOp29 (a t : Nat) : Except DecErr Instr :=
  if bits t 6 6 = 0 ∧ bits t 12 4 = 0 then .ok (.clz (BitVec.ofNat 6 a) (BitVec.ofNat 6 (bits t 0 6))) else .error .instrFormat

/-- Opcode 0x2A: POPC; `a` is field A, `t` the tail. -/
def decOp2A (a t : Nat) : Except DecErr Instr :=
  if bits t 6 6 = 0 ∧ bits t 12 4 = 0 then .ok (.popc (BitVec.ofNat 6 a) (BitVec.ofNat 6 (bits t 0 6))) else .error .instrFormat

/-- Opcode 0x2B: MUL; `a` is field A, `t` the tail. -/
def decOp2B (a t : Nat) : Except DecErr Instr :=
  if bits t 12 4 = 0 then .ok (.mul (BitVec.ofNat 6 a) (BitVec.ofNat 6 (bits t 0 6)) (BitVec.ofNat 6 (bits t 6 6))) else .error .instrFormat

/-- Opcode 0x2C: MULH; `a` is field A, `t` the tail. -/
def decOp2C (a t : Nat) : Except DecErr Instr :=
  if bits t 12 4 = 0 then .ok (.mulh (BitVec.ofNat 6 a) (BitVec.ofNat 6 (bits t 0 6)) (BitVec.ofNat 6 (bits t 6 6))) else .error .instrFormat

/-- Opcode 0x2D: MULHU; `a` is field A, `t` the tail. -/
def decOp2D (a t : Nat) : Except DecErr Instr :=
  if bits t 12 4 = 0 then .ok (.mulhu (BitVec.ofNat 6 a) (BitVec.ofNat 6 (bits t 0 6)) (BitVec.ofNat 6 (bits t 6 6))) else .error .instrFormat

/-- Opcode 0x2E: DIV; `a` is field A, `t` the tail. -/
def decOp2E (a t : Nat) : Except DecErr Instr :=
  if bits t 12 4 = 0 then .ok (.div (BitVec.ofNat 6 a) (BitVec.ofNat 6 (bits t 0 6)) (BitVec.ofNat 6 (bits t 6 6))) else .error .instrFormat

/-- Opcode 0x2F: DIVU; `a` is field A, `t` the tail. -/
def decOp2F (a t : Nat) : Except DecErr Instr :=
  if bits t 12 4 = 0 then .ok (.divu (BitVec.ofNat 6 a) (BitVec.ofNat 6 (bits t 0 6)) (BitVec.ofNat 6 (bits t 6 6))) else .error .instrFormat

/-- Opcode 0x30: REM; `a` is field A, `t` the tail. -/
def decOp30 (a t : Nat) : Except DecErr Instr :=
  if bits t 12 4 = 0 then .ok (.rem (BitVec.ofNat 6 a) (BitVec.ofNat 6 (bits t 0 6)) (BitVec.ofNat 6 (bits t 6 6))) else .error .instrFormat

/-- Opcode 0x31: REMU; `a` is field A, `t` the tail. -/
def decOp31 (a t : Nat) : Except DecErr Instr :=
  if bits t 12 4 = 0 then .ok (.remu (BitVec.ofNat 6 a) (BitVec.ofNat 6 (bits t 0 6)) (BitVec.ofNat 6 (bits t 6 6))) else .error .instrFormat

/-- Opcode 0x32: LD_RI16; `a` is field A, `t` the tail. -/
def decOp32 (a t : Nat) : Except DecErr Instr :=
  if bits t 10 6 = 0 then .ok (.ldRi16 (BitVec.ofNat 6 a) (BitVec.ofNat 6 (bits t 0 6)) (BitVec.ofNat 2 (bits t 6 2)) (flag t 8) (flag t 9) (BitVec.ofNat 16 (bits t 16 16))) else .error .instrFormat

/-- Opcode 0x33: LD_RRI32; `a` is field A, `t` the tail. -/
def decOp33 (a t : Nat) : Except DecErr Instr :=
  if bits t 18 14 = 0 then .ok (.ldRri32 (BitVec.ofNat 6 a) (BitVec.ofNat 6 (bits t 0 6)) (BitVec.ofNat 6 (bits t 6 6)) (BitVec.ofNat 2 (bits t 12 2)) (flag t 14) (flag t 15) (BitVec.ofNat 2 (bits t 16 2)) (BitVec.ofNat 32 (bits t 32 32))) else .error .instrFormat

/-- Opcode 0x34: ST_RI16; `a` is field A, `t` the tail. -/
def decOp34 (a t : Nat) : Except DecErr Instr :=
  if bits t 8 1 = 0 ∧ bits t 10 6 = 0 then .ok (.stRi16 (BitVec.ofNat 6 a) (BitVec.ofNat 6 (bits t 0 6)) (BitVec.ofNat 2 (bits t 6 2)) (flag t 9) (BitVec.ofNat 16 (bits t 16 16))) else .error .instrFormat

/-- Opcode 0x35: ST_RRI32; `a` is field A, `t` the tail. -/
def decOp35 (a t : Nat) : Except DecErr Instr :=
  if bits t 14 1 = 0 ∧ bits t 18 14 = 0 then .ok (.stRri32 (BitVec.ofNat 6 a) (BitVec.ofNat 6 (bits t 0 6)) (BitVec.ofNat 6 (bits t 6 6)) (BitVec.ofNat 2 (bits t 12 2)) (flag t 15) (BitVec.ofNat 2 (bits t 16 2)) (BitVec.ofNat 32 (bits t 32 32))) else .error .instrFormat

/-- Opcode 0x36: LDA; `a` is field A, `t` the tail. -/
def decOp36 (a t : Nat) : Except DecErr Instr :=
  if bits t 12 4 = 0 then .ok (.lda (BitVec.ofNat 6 a) (BitVec.ofNat 6 (bits t 0 6)) (BitVec.ofNat 2 (bits t 6 2)) (flag t 8) (BitVec.ofNat 3 (bits t 9 3)) (BitVec.ofNat 16 (bits t 16 16))) else .error .instrFormat

/-- Opcode 0x37: STL; `a` is field A, `t` the tail. -/
def decOp37 (a t : Nat) : Except DecErr Instr :=
  if bits t 8 1 = 0 ∧ bits t 12 4 = 0 then .ok (.stl (BitVec.ofNat 6 a) (BitVec.ofNat 6 (bits t 0 6)) (BitVec.ofNat 2 (bits t 6 2)) (BitVec.ofNat 3 (bits t 9 3)) (BitVec.ofNat 16 (bits t 16 16))) else .error .instrFormat

/-- Opcode 0x38: AADD; `a` is field A, `t` the tail. -/
def decOp38 (a t : Nat) : Except DecErr Instr :=
  if bits t 12 6 = 0 ∧ bits t 18 3 = 0 ∧ bits t 21 1 = 0 ∧ bits t 22 3 = 0 ∧ bits t 30 2 = 0 then (if bits t 26 1 = 0 then .ok (.aadd (BitVec.ofNat 6 a) (BitVec.ofNat 6 (bits t 0 6)) (BitVec.ofNat 6 (bits t 6 6)) (flag t 25) (BitVec.ofNat 3 (bits t 27 3))) else .error .reservedOperand) else .error .instrFormat

/-- Opcode 0x39: AMIN; `a` is field A, `t` the tail. -/
def decOp39 (a t : Nat) : Except DecErr Instr :=
  if bits t 12 6 = 0 ∧ bits t 18 3 = 0 ∧ bits t 21 1 = 0 ∧ bits t 22 3 = 0 ∧ bits t 30 2 = 0 then .ok (.amin (BitVec.ofNat 6 a) (BitVec.ofNat 6 (bits t 0 6)) (BitVec.ofNat 6 (bits t 6 6)) (flag t 25) (flag t 26) (BitVec.ofNat 3 (bits t 27 3))) else .error .instrFormat

/-- Opcode 0x3A: AMAX; `a` is field A, `t` the tail. -/
def decOp3A (a t : Nat) : Except DecErr Instr :=
  if bits t 12 6 = 0 ∧ bits t 18 3 = 0 ∧ bits t 21 1 = 0 ∧ bits t 22 3 = 0 ∧ bits t 30 2 = 0 then .ok (.amax (BitVec.ofNat 6 a) (BitVec.ofNat 6 (bits t 0 6)) (BitVec.ofNat 6 (bits t 6 6)) (flag t 25) (flag t 26) (BitVec.ofNat 3 (bits t 27 3))) else .error .instrFormat

/-- Opcode 0x3B: AAND; `a` is field A, `t` the tail. -/
def decOp3B (a t : Nat) : Except DecErr Instr :=
  if bits t 12 6 = 0 ∧ bits t 18 3 = 0 ∧ bits t 21 1 = 0 ∧ bits t 22 3 = 0 ∧ bits t 30 2 = 0 then (if bits t 26 1 = 0 then .ok (.aand (BitVec.ofNat 6 a) (BitVec.ofNat 6 (bits t 0 6)) (BitVec.ofNat 6 (bits t 6 6)) (flag t 25) (BitVec.ofNat 3 (bits t 27 3))) else .error .reservedOperand) else .error .instrFormat

/-- Opcode 0x3C: AOR; `a` is field A, `t` the tail. -/
def decOp3C (a t : Nat) : Except DecErr Instr :=
  if bits t 12 6 = 0 ∧ bits t 18 3 = 0 ∧ bits t 21 1 = 0 ∧ bits t 22 3 = 0 ∧ bits t 30 2 = 0 then (if bits t 26 1 = 0 then .ok (.aor (BitVec.ofNat 6 a) (BitVec.ofNat 6 (bits t 0 6)) (BitVec.ofNat 6 (bits t 6 6)) (flag t 25) (BitVec.ofNat 3 (bits t 27 3))) else .error .reservedOperand) else .error .instrFormat

/-- Opcode 0x3D: AXOR; `a` is field A, `t` the tail. -/
def decOp3D (a t : Nat) : Except DecErr Instr :=
  if bits t 12 6 = 0 ∧ bits t 18 3 = 0 ∧ bits t 21 1 = 0 ∧ bits t 22 3 = 0 ∧ bits t 30 2 = 0 then (if bits t 26 1 = 0 then .ok (.axor (BitVec.ofNat 6 a) (BitVec.ofNat 6 (bits t 0 6)) (BitVec.ofNat 6 (bits t 6 6)) (flag t 25) (BitVec.ofNat 3 (bits t 27 3))) else .error .reservedOperand) else .error .instrFormat

/-- Opcode 0x3E: ASWAP; `a` is field A, `t` the tail. -/
def decOp3E (a t : Nat) : Except DecErr Instr :=
  if bits t 12 6 = 0 ∧ bits t 18 3 = 0 ∧ bits t 21 1 = 0 ∧ bits t 22 3 = 0 ∧ bits t 30 2 = 0 then (if bits t 26 1 = 0 then .ok (.aswap (BitVec.ofNat 6 a) (BitVec.ofNat 6 (bits t 0 6)) (BitVec.ofNat 6 (bits t 6 6)) (flag t 25) (BitVec.ofNat 3 (bits t 27 3))) else .error .reservedOperand) else .error .instrFormat

/-- Opcode 0x3F: ACAS; `a` is field A, `t` the tail. -/
def decOp3F (a t : Nat) : Except DecErr Instr :=
  if bits t 18 3 = 0 ∧ bits t 21 1 = 0 ∧ bits t 22 3 = 0 ∧ bits t 30 2 = 0 then (if bits t 26 1 = 0 then .ok (.acas (BitVec.ofNat 6 a) (BitVec.ofNat 6 (bits t 0 6)) (BitVec.ofNat 6 (bits t 6 6)) (BitVec.ofNat 6 (bits t 12 6)) (flag t 25) (BitVec.ofNat 3 (bits t 27 3))) else .error .reservedOperand) else .error .instrFormat

/-- Opcode 0x40: B_RI16; `a` is field A, `t` the tail. -/
def decOp40 (a t : Nat) : Except DecErr Instr :=
  if bits t 10 6 = 0 then .ok (.bRi16 (BitVec.ofNat 6 a) (BitVec.ofNat 6 (bits t 0 6)) (BitVec.ofNat 4 (bits t 6 4)) (BitVec.ofNat 16 (bits t 16 16))) else .error .instrFormat

/-- Opcode 0x41: B_RRI32; `a` is field A, `t` the tail. -/
def decOp41 (a t : Nat) : Except DecErr Instr :=
  if bits t 6 6 = 0 ∧ bits t 16 16 = 0 then .ok (.bRri32 (BitVec.ofNat 6 a) (BitVec.ofNat 6 (bits t 0 6)) (BitVec.ofNat 4 (bits t 12 4)) (BitVec.ofNat 32 (bits t 32 32))) else .error .instrFormat

/-- Opcode 0x42: JAL; `a` is field A, `t` the tail. -/
def decOp42 (a t : Nat) : Except DecErr Instr :=
  .ok (.jal (BitVec.ofNat 6 a) (BitVec.ofNat 32 (bits t 0 32)))

/-- Opcode 0x43: JALR; `a` is field A, `t` the tail. -/
def decOp43 (a t : Nat) : Except DecErr Instr :=
  if bits t 6 10 = 0 then .ok (.jalr (BitVec.ofNat 6 a) (BitVec.ofNat 6 (bits t 0 6)) (BitVec.ofNat 16 (bits t 16 16))) else .error .instrFormat

/-- Opcode 0x44: HSTART; `a` is field A, `t` the tail. -/
def decOp44 (a t : Nat) : Except DecErr Instr :=
  if bits t 14 18 = 0 then .ok (.hstart (BitVec.ofNat 6 a) (BitVec.ofNat 6 (bits t 0 6)) (BitVec.ofNat 6 (bits t 6 6)) (flag t 12) (flag t 13) (BitVec.ofNat 32 (bits t 32 32))) else .error .instrFormat

/-- Opcode 0x45: HJOIN; `a` is field A, `t` the tail. -/
def decOp45 (a t : Nat) : Except DecErr Instr :=
  if bits t 6 6 = 0 ∧ bits t 12 4 = 0 then .ok (.hjoin (BitVec.ofNat 6 a) (BitVec.ofNat 6 (bits t 0 6))) else .error .instrFormat

/-- Opcode 0x46: HEND; `a` is field A, `t` the tail. -/
def decOp46 (a _ : Nat) : Except DecErr Instr :=
  if a = 0 then .ok .hend else .error .instrFormat

/-- Opcode 0x47: HYIELD; `a` is field A, `t` the tail. -/
def decOp47 (a _ : Nat) : Except DecErr Instr :=
  if a = 0 then .ok .hyield else .error .instrFormat

/-- Opcode 0x48: GANG; `a` is field A, `t` the tail. -/
def decOp48 (a t : Nat) : Except DecErr Instr :=
  if bits t 0 6 = 0 ∧ bits t 6 6 = 0 ∧ bits t 15 1 = 0 then .ok (.gang (BitVec.ofNat 6 a) (BitVec.ofNat 3 (bits t 12 3))) else .error .instrFormat

/-- Opcode 0x49: SPLIT; `a` is field A, `t` the tail. -/
def decOp49 (a _ : Nat) : Except DecErr Instr :=
  if a = 0 then .ok .split else .error .instrFormat

/-- Opcode 0x4A: PHASE_T; `a` is field A, `t` the tail. -/
def decOp4A (a _ : Nat) : Except DecErr Instr :=
  if a = 0 then .ok .phaseT else .error .instrFormat

/-- Opcode 0x4B: PHASE_E; `a` is field A, `t` the tail. -/
def decOp4B (a _ : Nat) : Except DecErr Instr :=
  if a = 0 then .ok .phaseE else .error .instrFormat

/-- Opcode 0x4C: TIDE_RD; `a` is field A, `t` the tail. -/
def decOp4C (a _ : Nat) : Except DecErr Instr :=
  .ok (.tideRd (BitVec.ofNat 6 a))

/-- Opcode 0x4D: TIDE_WAIT; `a` is field A, `t` the tail. -/
def decOp4D (a t : Nat) : Except DecErr Instr :=
  if bits t 7 9 = 0 then .ok (.tideWait (BitVec.ofNat 6 a) (BitVec.ofNat 6 (bits t 0 6)) (flag t 6) (BitVec.ofNat 16 (bits t 16 16))) else .error .instrFormat

/-- Opcode 0x4E: WAITMEM; `a` is field A, `t` the tail. -/
def decOp4E (a t : Nat) : Except DecErr Instr :=
  if bits t 8 8 = 0 then .ok (.waitmem (BitVec.ofNat 6 a) (BitVec.ofNat 6 (bits t 0 6)) (BitVec.ofNat 2 (bits t 6 2)) (BitVec.ofNat 16 (bits t 16 16))) else .error .instrFormat

/-- Opcode 0x4F: SENDMSG; `a` is field A, `t` the tail. -/
def decOp4F (a t : Nat) : Except DecErr Instr :=
  if bits t 12 20 = 0 then (if bits t 48 16 = 0 then .ok (.sendmsg (BitVec.ofNat 6 a) (BitVec.ofNat 6 (bits t 0 6)) (BitVec.ofNat 6 (bits t 6 6)) (BitVec.ofNat 16 (bits t 32 16))) else .error .reservedOperand) else .error .instrFormat

/-- Opcode 0x50: WAITMSG; `a` is field A, `t` the tail. -/
def decOp50 (a _ : Nat) : Except DecErr Instr :=
  if a = 0 then .ok .waitmsg else .error .instrFormat

/-- Opcode 0x51: VADD; `a` is field A, `t` the tail. -/
def decOp51 (a t : Nat) : Except DecErr Instr :=
  if bits t 12 6 = 0 ∧ bits t 18 6 = 0 ∧ bits t 48 16 = 0 ∧ bits t 37 11 = 0 then (if bits t 35 2 = 0 then .ok (.vadd (BitVec.ofNat 6 a) (BitVec.ofNat 6 (bits t 0 6)) (BitVec.ofNat 6 (bits t 6 6)) (BitVec.ofNat 3 (bits t 24 3)) (flag t 27) (BitVec.ofNat 3 (bits t 28 3)) (BitVec.ofNat 4 (bits t 31 4))) else .error .reservedOperand) else .error .instrFormat

/-- Opcode 0x52: VSUB; `a` is field A, `t` the tail. -/
def decOp52 (a t : Nat) : Except DecErr Instr :=
  if bits t 12 6 = 0 ∧ bits t 18 6 = 0 ∧ bits t 48 16 = 0 ∧ bits t 37 11 = 0 then (if bits t 35 2 = 0 then .ok (.vsub (BitVec.ofNat 6 a) (BitVec.ofNat 6 (bits t 0 6)) (BitVec.ofNat 6 (bits t 6 6)) (BitVec.ofNat 3 (bits t 24 3)) (flag t 27) (BitVec.ofNat 3 (bits t 28 3)) (BitVec.ofNat 4 (bits t 31 4))) else .error .reservedOperand) else .error .instrFormat

/-- Opcode 0x53: VMUL; `a` is field A, `t` the tail. -/
def decOp53 (a t : Nat) : Except DecErr Instr :=
  if bits t 12 6 = 0 ∧ bits t 18 6 = 0 ∧ bits t 48 16 = 0 ∧ bits t 37 11 = 0 then (if bits t 35 2 = 0 then .ok (.vmul (BitVec.ofNat 6 a) (BitVec.ofNat 6 (bits t 0 6)) (BitVec.ofNat 6 (bits t 6 6)) (BitVec.ofNat 3 (bits t 24 3)) (flag t 27) (BitVec.ofNat 3 (bits t 28 3)) (BitVec.ofNat 4 (bits t 31 4))) else .error .reservedOperand) else .error .instrFormat

/-- Opcode 0x54: VFMA; `a` is field A, `t` the tail. -/
def decOp54 (a t : Nat) : Except DecErr Instr :=
  if bits t 18 6 = 0 ∧ bits t 48 16 = 0 ∧ bits t 39 9 = 0 then .ok (.vfma (BitVec.ofNat 6 a) (BitVec.ofNat 6 (bits t 0 6)) (BitVec.ofNat 6 (bits t 6 6)) (BitVec.ofNat 6 (bits t 12 6)) (BitVec.ofNat 3 (bits t 24 3)) (flag t 27) (BitVec.ofNat 3 (bits t 28 3)) (BitVec.ofNat 4 (bits t 31 4)) (BitVec.ofNat 2 (bits t 35 2)) (flag t 37) (flag t 38)) else .error .instrFormat

/-- Opcode 0x55: VMIN; `a` is field A, `t` the tail. -/
def decOp55 (a t : Nat) : Except DecErr Instr :=
  if bits t 12 6 = 0 ∧ bits t 18 6 = 0 ∧ bits t 48 16 = 0 ∧ bits t 37 11 = 0 then (if bits t 35 2 = 0 then .ok (.vmin (BitVec.ofNat 6 a) (BitVec.ofNat 6 (bits t 0 6)) (BitVec.ofNat 6 (bits t 6 6)) (BitVec.ofNat 3 (bits t 24 3)) (flag t 27) (BitVec.ofNat 3 (bits t 28 3)) (BitVec.ofNat 4 (bits t 31 4))) else .error .reservedOperand) else .error .instrFormat

/-- Opcode 0x56: VMAX; `a` is field A, `t` the tail. -/
def decOp56 (a t : Nat) : Except DecErr Instr :=
  if bits t 12 6 = 0 ∧ bits t 18 6 = 0 ∧ bits t 48 16 = 0 ∧ bits t 37 11 = 0 then (if bits t 35 2 = 0 then .ok (.vmax (BitVec.ofNat 6 a) (BitVec.ofNat 6 (bits t 0 6)) (BitVec.ofNat 6 (bits t 6 6)) (BitVec.ofNat 3 (bits t 24 3)) (flag t 27) (BitVec.ofNat 3 (bits t 28 3)) (BitVec.ofNat 4 (bits t 31 4))) else .error .reservedOperand) else .error .instrFormat

/-- Opcode 0x57: VRCPE; `a` is field A, `t` the tail. -/
def decOp57 (a t : Nat) : Except DecErr Instr :=
  if bits t 6 6 = 0 ∧ bits t 12 6 = 0 ∧ bits t 18 6 = 0 ∧ bits t 48 16 = 0 ∧ bits t 37 11 = 0 then (if bits t 35 2 = 0 then .ok (.vrcpe (BitVec.ofNat 6 a) (BitVec.ofNat 6 (bits t 0 6)) (BitVec.ofNat 3 (bits t 24 3)) (flag t 27) (BitVec.ofNat 3 (bits t 28 3)) (BitVec.ofNat 4 (bits t 31 4))) else .error .reservedOperand) else .error .instrFormat

/-- Opcode 0x58: VRSQE; `a` is field A, `t` the tail. -/
def decOp58 (a t : Nat) : Except DecErr Instr :=
  if bits t 6 6 = 0 ∧ bits t 12 6 = 0 ∧ bits t 18 6 = 0 ∧ bits t 48 16 = 0 ∧ bits t 37 11 = 0 then (if bits t 35 2 = 0 then .ok (.vrsqe (BitVec.ofNat 6 a) (BitVec.ofNat 6 (bits t 0 6)) (BitVec.ofNat 3 (bits t 24 3)) (flag t 27) (BitVec.ofNat 3 (bits t 28 3)) (BitVec.ofNat 4 (bits t 31 4))) else .error .reservedOperand) else .error .instrFormat

/-- Opcode 0x59: VREFN; `a` is field A, `t` the tail. -/
def decOp59 (a t : Nat) : Except DecErr Instr :=
  if bits t 12 6 = 0 ∧ bits t 18 6 = 0 ∧ bits t 48 16 = 0 ∧ bits t 37 11 = 0 then .ok (.vrefn (BitVec.ofNat 6 a) (BitVec.ofNat 6 (bits t 0 6)) (BitVec.ofNat 6 (bits t 6 6)) (BitVec.ofNat 3 (bits t 24 3)) (flag t 27) (BitVec.ofNat 3 (bits t 28 3)) (BitVec.ofNat 4 (bits t 31 4)) (BitVec.ofNat 2 (bits t 35 2))) else .error .instrFormat

/-- Opcode 0x5A: VEXP2; `a` is field A, `t` the tail. -/
def decOp5A (a t : Nat) : Except DecErr Instr :=
  if bits t 6 6 = 0 ∧ bits t 12 6 = 0 ∧ bits t 18 6 = 0 ∧ bits t 48 16 = 0 ∧ bits t 37 11 = 0 then (if bits t 35 2 = 0 then .ok (.vexp2 (BitVec.ofNat 6 a) (BitVec.ofNat 6 (bits t 0 6)) (BitVec.ofNat 3 (bits t 24 3)) (flag t 27) (BitVec.ofNat 3 (bits t 28 3)) (BitVec.ofNat 4 (bits t 31 4))) else .error .reservedOperand) else .error .instrFormat

/-- Opcode 0x5B: VLOG2; `a` is field A, `t` the tail. -/
def decOp5B (a t : Nat) : Except DecErr Instr :=
  if bits t 6 6 = 0 ∧ bits t 12 6 = 0 ∧ bits t 18 6 = 0 ∧ bits t 48 16 = 0 ∧ bits t 37 11 = 0 then (if bits t 35 2 = 0 then .ok (.vlog2 (BitVec.ofNat 6 a) (BitVec.ofNat 6 (bits t 0 6)) (BitVec.ofNat 3 (bits t 24 3)) (flag t 27) (BitVec.ofNat 3 (bits t 28 3)) (BitVec.ofNat 4 (bits t 31 4))) else .error .reservedOperand) else .error .instrFormat

/-- Opcode 0x5C: VIADD; `a` is field A, `t` the tail. -/
def decOp5C (a t : Nat) : Except DecErr Instr :=
  if bits t 12 6 = 0 ∧ bits t 22 3 = 0 then (if bits t 29 1 = 0 ∧ bits t 30 2 = 0 then .ok (.viadd (BitVec.ofNat 6 a) (BitVec.ofNat 6 (bits t 0 6)) (BitVec.ofNat 6 (bits t 6 6)) (BitVec.ofNat 3 (bits t 18 3)) (flag t 21) (BitVec.ofNat 4 (bits t 25 4))) else .error .reservedOperand) else .error .instrFormat

/-- Opcode 0x5D: VISUB; `a` is field A, `t` the tail. -/
def decOp5D (a t : Nat) : Except DecErr Instr :=
  if bits t 12 6 = 0 ∧ bits t 22 3 = 0 then (if bits t 29 1 = 0 ∧ bits t 30 2 = 0 then .ok (.visub (BitVec.ofNat 6 a) (BitVec.ofNat 6 (bits t 0 6)) (BitVec.ofNat 6 (bits t 6 6)) (BitVec.ofNat 3 (bits t 18 3)) (flag t 21) (BitVec.ofNat 4 (bits t 25 4))) else .error .reservedOperand) else .error .instrFormat

/-- Opcode 0x5E: VIMUL; `a` is field A, `t` the tail. -/
def decOp5E (a t : Nat) : Except DecErr Instr :=
  if bits t 12 6 = 0 ∧ bits t 22 3 = 0 then (if bits t 29 1 = 0 then .ok (.vimul (BitVec.ofNat 6 a) (BitVec.ofNat 6 (bits t 0 6)) (BitVec.ofNat 6 (bits t 6 6)) (BitVec.ofNat 3 (bits t 18 3)) (flag t 21) (BitVec.ofNat 4 (bits t 25 4)) (BitVec.ofNat 2 (bits t 30 2))) else .error .reservedOperand) else .error .instrFormat

/-- Opcode 0x5F: VIMIN; `a` is field A, `t` the tail. -/
def decOp5F (a t : Nat) : Except DecErr Instr :=
  if bits t 12 6 = 0 ∧ bits t 22 3 = 0 then (if bits t 30 2 = 0 then .ok (.vimin (BitVec.ofNat 6 a) (BitVec.ofNat 6 (bits t 0 6)) (BitVec.ofNat 6 (bits t 6 6)) (BitVec.ofNat 3 (bits t 18 3)) (flag t 21) (BitVec.ofNat 4 (bits t 25 4)) (flag t 29)) else .error .reservedOperand) else .error .instrFormat

/-- Opcode 0x60: VIMAX; `a` is field A, `t` the tail. -/
def decOp60 (a t : Nat) : Except DecErr Instr :=
  if bits t 12 6 = 0 ∧ bits t 22 3 = 0 then (if bits t 30 2 = 0 then .ok (.vimax (BitVec.ofNat 6 a) (BitVec.ofNat 6 (bits t 0 6)) (BitVec.ofNat 6 (bits t 6 6)) (BitVec.ofNat 3 (bits t 18 3)) (flag t 21) (BitVec.ofNat 4 (bits t 25 4)) (flag t 29)) else .error .reservedOperand) else .error .instrFormat

/-- Opcode 0x61: VISHL; `a` is field A, `t` the tail. -/
def decOp61 (a t : Nat) : Except DecErr Instr :=
  if bits t 12 6 = 0 ∧ bits t 22 3 = 0 then (if bits t 29 1 = 0 ∧ bits t 30 2 = 0 then .ok (.vishl (BitVec.ofNat 6 a) (BitVec.ofNat 6 (bits t 0 6)) (BitVec.ofNat 6 (bits t 6 6)) (BitVec.ofNat 3 (bits t 18 3)) (flag t 21) (BitVec.ofNat 4 (bits t 25 4))) else .error .reservedOperand) else .error .instrFormat

/-- Opcode 0x62: VISHR; `a` is field A, `t` the tail. -/
def decOp62 (a t : Nat) : Except DecErr Instr :=
  if bits t 12 6 = 0 ∧ bits t 22 3 = 0 then (if bits t 30 2 = 0 then .ok (.vishr (BitVec.ofNat 6 a) (BitVec.ofNat 6 (bits t 0 6)) (BitVec.ofNat 6 (bits t 6 6)) (BitVec.ofNat 3 (bits t 18 3)) (flag t 21) (BitVec.ofNat 4 (bits t 25 4)) (flag t 29)) else .error .reservedOperand) else .error .instrFormat

/-- Opcode 0x63: VAND; `a` is field A, `t` the tail. -/
def decOp63 (a t : Nat) : Except DecErr Instr :=
  if bits t 12 6 = 0 ∧ bits t 22 3 = 0 then (if bits t 29 1 = 0 ∧ bits t 30 2 = 0 then .ok (.vand (BitVec.ofNat 6 a) (BitVec.ofNat 6 (bits t 0 6)) (BitVec.ofNat 6 (bits t 6 6)) (BitVec.ofNat 3 (bits t 18 3)) (flag t 21) (BitVec.ofNat 4 (bits t 25 4))) else .error .reservedOperand) else .error .instrFormat

/-- Opcode 0x64: VOR; `a` is field A, `t` the tail. -/
def decOp64 (a t : Nat) : Except DecErr Instr :=
  if bits t 12 6 = 0 ∧ bits t 22 3 = 0 then (if bits t 29 1 = 0 ∧ bits t 30 2 = 0 then .ok (.vor (BitVec.ofNat 6 a) (BitVec.ofNat 6 (bits t 0 6)) (BitVec.ofNat 6 (bits t 6 6)) (BitVec.ofNat 3 (bits t 18 3)) (flag t 21) (BitVec.ofNat 4 (bits t 25 4))) else .error .reservedOperand) else .error .instrFormat

/-- Opcode 0x65: VXOR; `a` is field A, `t` the tail. -/
def decOp65 (a t : Nat) : Except DecErr Instr :=
  if bits t 12 6 = 0 ∧ bits t 22 3 = 0 then (if bits t 29 1 = 0 ∧ bits t 30 2 = 0 then .ok (.vxor (BitVec.ofNat 6 a) (BitVec.ofNat 6 (bits t 0 6)) (BitVec.ofNat 6 (bits t 6 6)) (BitVec.ofNat 3 (bits t 18 3)) (flag t 21) (BitVec.ofNat 4 (bits t 25 4))) else .error .reservedOperand) else .error .instrFormat

/-- Opcode 0x66: VCMP; `a` is field A, `t` the tail. -/
def decOp66 (a t : Nat) : Except DecErr Instr :=
  if bits t 12 6 = 0 ∧ bits t 31 1 = 0 then .ok (.vcmp (BitVec.ofNat 6 a) (BitVec.ofNat 6 (bits t 0 6)) (BitVec.ofNat 6 (bits t 6 6)) (BitVec.ofNat 3 (bits t 18 3)) (flag t 21) (BitVec.ofNat 3 (bits t 22 3)) (BitVec.ofNat 4 (bits t 25 4)) (BitVec.ofNat 2 (bits t 29 2))) else .error .instrFormat

/-- Opcode 0x67: VICMP; `a` is field A, `t` the tail. -/
def decOp67 (a t : Nat) : Except DecErr Instr :=
  if bits t 12 6 = 0 ∧ bits t 22 3 = 0 then .ok (.vicmp (BitVec.ofNat 6 a) (BitVec.ofNat 6 (bits t 0 6)) (BitVec.ofNat 6 (bits t 6 6)) (BitVec.ofNat 3 (bits t 18 3)) (flag t 21) (BitVec.ofNat 4 (bits t 25 4)) (BitVec.ofNat 3 (bits t 29 3))) else .error .instrFormat

/-- Opcode 0x68: KWHILE; `a` is field A, `t` the tail. -/
def decOp68 (a t : Nat) : Except DecErr Instr :=
  if bits t 12 6 = 0 ∧ bits t 18 3 = 0 ∧ bits t 21 1 = 0 ∧ bits t 22 3 = 0 ∧ bits t 28 4 = 0 then .ok (.kwhile (BitVec.ofNat 6 a) (BitVec.ofNat 6 (bits t 0 6)) (BitVec.ofNat 6 (bits t 6 6)) (BitVec.ofNat 2 (bits t 25 2)) (flag t 27)) else .error .instrFormat

/-- Opcode 0x69: KAND, KOR, KXOR, KANDN; `a` is field A, `t` the tail. -/
def decOp69 (a t : Nat) : Except DecErr Instr :=
  if bits t 12 2 = 0 then if bits t 14 2 = 0 then .ok (.kand (BitVec.ofNat 6 a) (BitVec.ofNat 6 (bits t 0 6)) (BitVec.ofNat 6 (bits t 6 6))) else .error .instrFormat
  else if bits t 12 2 = 1 then if bits t 14 2 = 0 then .ok (.kor (BitVec.ofNat 6 a) (BitVec.ofNat 6 (bits t 0 6)) (BitVec.ofNat 6 (bits t 6 6))) else .error .instrFormat
  else if bits t 12 2 = 2 then if bits t 14 2 = 0 then .ok (.kxor (BitVec.ofNat 6 a) (BitVec.ofNat 6 (bits t 0 6)) (BitVec.ofNat 6 (bits t 6 6))) else .error .instrFormat
  else if bits t 12 2 = 3 then if bits t 14 2 = 0 then .ok (.kandn (BitVec.ofNat 6 a) (BitVec.ofNat 6 (bits t 0 6)) (BitVec.ofNat 6 (bits t 6 6))) else .error .instrFormat
  else if bits t 14 2 = 0 then .error .reservedOperand else .error .instrFormat

/-- Opcode 0x6A: KMOV, KNOT, KCNT; `a` is field A, `t` the tail. -/
def decOp6A (a t : Nat) : Except DecErr Instr :=
  if bits t 12 2 = 0 then if bits t 6 6 = 0 ∧ bits t 14 2 = 0 then .ok (.kmov (BitVec.ofNat 6 a) (BitVec.ofNat 6 (bits t 0 6))) else .error .instrFormat
  else if bits t 12 2 = 1 then if bits t 6 6 = 0 ∧ bits t 14 2 = 0 then .ok (.knot (BitVec.ofNat 6 a) (BitVec.ofNat 6 (bits t 0 6))) else .error .instrFormat
  else if bits t 12 2 = 2 then if bits t 6 6 = 0 then .ok (.kcnt (BitVec.ofNat 6 a) (BitVec.ofNat 6 (bits t 0 6)) (BitVec.ofNat 2 (bits t 14 2))) else .error .instrFormat
  else if bits t 6 6 = 0 then .error .reservedOperand else .error .instrFormat

/-- Opcode 0x6B: VWIDTH; `a` is field A, `t` the tail. -/
def decOp6B (a _ : Nat) : Except DecErr Instr :=
  .ok (.vwidth (BitVec.ofNat 6 a))

/-- Opcode 0x6C: VLD; `a` is field A, `t` the tail. -/
def decOp6C (a t : Nat) : Except DecErr Instr :=
  if bits t 6 6 = 0 ∧ bits t 21 11 = 0 then .ok (.vld (BitVec.ofNat 6 a) (BitVec.ofNat 6 (bits t 0 6)) (BitVec.ofNat 3 (bits t 12 3)) (flag t 15) (BitVec.ofNat 4 (bits t 16 4)) (flag t 20) (BitVec.ofNat 32 (bits t 32 32))) else .error .instrFormat

/-- Opcode 0x6D: VST; `a` is field A, `t` the tail. -/
def decOp6D (a t : Nat) : Except DecErr Instr :=
  if bits t 6 6 = 0 ∧ bits t 21 11 = 0 then (if bits t 15 1 = 0 then .ok (.vst (BitVec.ofNat 6 a) (BitVec.ofNat 6 (bits t 0 6)) (BitVec.ofNat 3 (bits t 12 3)) (BitVec.ofNat 4 (bits t 16 4)) (flag t 20) (BitVec.ofNat 32 (bits t 32 32))) else .error .reservedOperand) else .error .instrFormat

/-- Opcode 0x6E: VLDS; `a` is field A, `t` the tail. -/
def decOp6E (a t : Nat) : Except DecErr Instr :=
  if bits t 21 11 = 0 then .ok (.vlds (BitVec.ofNat 6 a) (BitVec.ofNat 6 (bits t 0 6)) (BitVec.ofNat 6 (bits t 6 6)) (BitVec.ofNat 3 (bits t 12 3)) (flag t 15) (BitVec.ofNat 4 (bits t 16 4)) (flag t 20) (BitVec.ofNat 32 (bits t 32 32))) else .error .instrFormat

/-- Opcode 0x6F: VSTS; `a` is field A, `t` the tail. -/
def decOp6F (a t : Nat) : Except DecErr Instr :=
  if bits t 21 11 = 0 then (if bits t 15 1 = 0 then .ok (.vsts (BitVec.ofNat 6 a) (BitVec.ofNat 6 (bits t 0 6)) (BitVec.ofNat 6 (bits t 6 6)) (BitVec.ofNat 3 (bits t 12 3)) (BitVec.ofNat 4 (bits t 16 4)) (flag t 20) (BitVec.ofNat 32 (bits t 32 32))) else .error .reservedOperand) else .error .instrFormat

/-- Opcode 0x70: VGATH; `a` is field A, `t` the tail. -/
def decOp70 (a t : Nat) : Except DecErr Instr :=
  if bits t 23 9 = 0 then .ok (.vgath (BitVec.ofNat 6 a) (BitVec.ofNat 6 (bits t 0 6)) (BitVec.ofNat 6 (bits t 6 6)) (BitVec.ofNat 3 (bits t 12 3)) (flag t 15) (BitVec.ofNat 4 (bits t 16 4)) (flag t 20) (BitVec.ofNat 2 (bits t 21 2)) (BitVec.ofNat 32 (bits t 32 32))) else .error .instrFormat

/-- Opcode 0x71: VSCAT; `a` is field A, `t` the tail. -/
def decOp71 (a t : Nat) : Except DecErr Instr :=
  if bits t 23 9 = 0 then (if bits t 15 1 = 0 then .ok (.vscat (BitVec.ofNat 6 a) (BitVec.ofNat 6 (bits t 0 6)) (BitVec.ofNat 6 (bits t 6 6)) (BitVec.ofNat 3 (bits t 12 3)) (BitVec.ofNat 4 (bits t 16 4)) (flag t 20) (BitVec.ofNat 2 (bits t 21 2)) (BitVec.ofNat 32 (bits t 32 32))) else .error .reservedOperand) else .error .instrFormat

/-- Opcode 0x72: VCVT; `a` is field A, `t` the tail. -/
def decOp72 (a t : Nat) : Except DecErr Instr :=
  if bits t 6 6 = 0 ∧ bits t 12 6 = 0 ∧ bits t 18 6 = 0 ∧ bits t 48 16 = 0 ∧ bits t 43 5 = 0 then .ok (.vcvt (BitVec.ofNat 6 a) (BitVec.ofNat 6 (bits t 0 6)) (BitVec.ofNat 3 (bits t 24 3)) (flag t 27) (BitVec.ofNat 3 (bits t 28 3)) (BitVec.ofNat 4 (bits t 31 4)) (BitVec.ofNat 4 (bits t 35 4)) (BitVec.ofNat 3 (bits t 39 3)) (flag t 42)) else .error .instrFormat

/-- Opcode 0x73: VPACK; `a` is field A, `t` the tail. -/
def decOp73 (a t : Nat) : Except DecErr Instr :=
  if bits t 6 6 = 0 ∧ bits t 18 6 = 0 ∧ bits t 48 16 = 0 ∧ bits t 43 5 = 0 then (if (decide (bits t 35 4 ≠ 0xB) && decide (bits t 12 6 ≠ 0)) then .error .instrFormat else .ok (.vpack (BitVec.ofNat 6 a) (BitVec.ofNat 6 (bits t 0 6)) (BitVec.ofNat 6 (bits t 12 6)) (BitVec.ofNat 3 (bits t 24 3)) (flag t 27) (BitVec.ofNat 3 (bits t 28 3)) (BitVec.ofNat 4 (bits t 31 4)) (BitVec.ofNat 4 (bits t 35 4)) (BitVec.ofNat 3 (bits t 39 3)) (flag t 42))) else .error .instrFormat

/-- Opcode 0x74: VUNPK; `a` is field A, `t` the tail. -/
def decOp74 (a t : Nat) : Except DecErr Instr :=
  if bits t 6 6 = 0 ∧ bits t 18 6 = 0 ∧ bits t 48 16 = 0 ∧ bits t 43 5 = 0 then (if (decide (bits t 31 4 ≠ 0xB) && decide (bits t 12 6 ≠ 0)) then .error .instrFormat else .ok (.vunpk (BitVec.ofNat 6 a) (BitVec.ofNat 6 (bits t 0 6)) (BitVec.ofNat 6 (bits t 12 6)) (BitVec.ofNat 3 (bits t 24 3)) (flag t 27) (BitVec.ofNat 3 (bits t 28 3)) (BitVec.ofNat 4 (bits t 31 4)) (BitVec.ofNat 4 (bits t 35 4)) (BitVec.ofNat 3 (bits t 39 3)) (flag t 42))) else .error .instrFormat

/-- Opcode 0x75: VDOTF8; `a` is field A, `t` the tail. -/
def decOp75 (a t : Nat) : Except DecErr Instr :=
  if bits t 12 6 = 0 ∧ bits t 18 6 = 0 ∧ bits t 48 16 = 0 then (if bits t 27 1 = 0 then .ok (.vdotf8 (BitVec.ofNat 6 a) (BitVec.ofNat 6 (bits t 0 6)) (BitVec.ofNat 6 (bits t 6 6)) (BitVec.ofNat 3 (bits t 24 3)) (BitVec.ofNat 3 (bits t 28 3)) (BitVec.ofNat 4 (bits t 31 4)) (BitVec.ofNat 4 (bits t 35 4)) (BitVec.ofNat 9 (bits t 39 9))) else .error .reservedOperand) else .error .instrFormat

/-- Opcode 0x76: VDOTI8; `a` is field A, `t` the tail. -/
def decOp76 (a t : Nat) : Except DecErr Instr :=
  if bits t 12 6 = 0 ∧ bits t 18 6 = 0 ∧ bits t 28 3 = 0 ∧ bits t 48 16 = 0 then (if bits t 27 1 = 0 then .ok (.vdoti8 (BitVec.ofNat 6 a) (BitVec.ofNat 6 (bits t 0 6)) (BitVec.ofNat 6 (bits t 6 6)) (BitVec.ofNat 3 (bits t 24 3)) (BitVec.ofNat 4 (bits t 31 4)) (BitVec.ofNat 4 (bits t 35 4)) (BitVec.ofNat 9 (bits t 39 9))) else .error .reservedOperand) else .error .instrFormat

/-- Opcode 0x77: VRED; `a` is field A, `t` the tail. -/
def decOp77 (a t : Nat) : Except DecErr Instr :=
  if bits t 6 6 = 0 ∧ bits t 12 6 = 0 ∧ bits t 18 6 = 0 ∧ bits t 48 16 = 0 ∧ bits t 47 1 = 0 then (if (isIntCode (bits t 31 4) && decide (bits t 28 3 ≠ 0)) then .error .instrFormat else if bits t 27 1 = 0 then .ok (.vred (BitVec.ofNat 6 a) (BitVec.ofNat 6 (bits t 0 6)) (BitVec.ofNat 3 (bits t 24 3)) (BitVec.ofNat 3 (bits t 28 3)) (BitVec.ofNat 4 (bits t 31 4)) (BitVec.ofNat 2 (bits t 35 2)) (BitVec.ofNat 10 (bits t 37 10))) else .error .reservedOperand) else .error .instrFormat

/-- Opcode 0x78: VSCAN; `a` is field A, `t` the tail. -/
def decOp78 (a t : Nat) : Except DecErr Instr :=
  if bits t 6 6 = 0 ∧ bits t 12 6 = 0 ∧ bits t 18 6 = 0 ∧ bits t 48 16 = 0 ∧ bits t 37 11 = 0 then (if (isIntCode (bits t 31 4) && decide (bits t 28 3 ≠ 0)) then .error .instrFormat else .ok (.vscan (BitVec.ofNat 6 a) (BitVec.ofNat 6 (bits t 0 6)) (BitVec.ofNat 3 (bits t 24 3)) (flag t 27) (BitVec.ofNat 3 (bits t 28 3)) (BitVec.ofNat 4 (bits t 31 4)) (BitVec.ofNat 2 (bits t 35 2)))) else .error .instrFormat

/-- Opcode 0x79: VPERM; `a` is field A, `t` the tail. -/
def decOp79 (a t : Nat) : Except DecErr Instr :=
  if bits t 22 3 = 0 ∧ bits t 30 2 = 0 then (if (decide (bits t 29 1 = 0) && decide (bits t 12 6 ≠ 0)) then .error .instrFormat else .ok (.vperm (BitVec.ofNat 6 a) (BitVec.ofNat 6 (bits t 0 6)) (BitVec.ofNat 6 (bits t 6 6)) (BitVec.ofNat 6 (bits t 12 6)) (BitVec.ofNat 3 (bits t 18 3)) (flag t 21) (BitVec.ofNat 4 (bits t 25 4)) (flag t 29))) else .error .instrFormat

/-- Opcode 0x7A: VBCAST; `a` is field A, `t` the tail. -/
def decOp7A (a t : Nat) : Except DecErr Instr :=
  if bits t 12 6 = 0 ∧ bits t 22 3 = 0 ∧ bits t 30 2 = 0 then (if (decide (bits t 29 1 = 0) && decide (bits t 6 6 ≠ 0)) then .error .instrFormat else .ok (.vbcast (BitVec.ofNat 6 a) (BitVec.ofNat 6 (bits t 0 6)) (BitVec.ofNat 6 (bits t 6 6)) (BitVec.ofNat 3 (bits t 18 3)) (flag t 21) (BitVec.ofNat 4 (bits t 25 4)) (flag t 29))) else .error .instrFormat

/-- Opcode 0x7B: VSEL; `a` is field A, `t` the tail. -/
def decOp7B (a t : Nat) : Except DecErr Instr :=
  if bits t 12 6 = 0 ∧ bits t 22 3 = 0 ∧ bits t 29 3 = 0 then (if bits t 21 1 = 0 then .ok (.vsel (BitVec.ofNat 6 a) (BitVec.ofNat 6 (bits t 0 6)) (BitVec.ofNat 6 (bits t 6 6)) (BitVec.ofNat 3 (bits t 18 3)) (BitVec.ofNat 4 (bits t 25 4))) else .error .reservedOperand) else .error .instrFormat

/-- Opcode 0x7C: VPEER; `a` is field A, `t` the tail. -/
def decOp7C (a t : Nat) : Except DecErr Instr :=
  if bits t 8 8 = 0 then .ok (.vpeer (BitVec.ofNat 6 a) (BitVec.ofNat 6 (bits t 0 6)) (BitVec.ofNat 2 (bits t 6 2)) (BitVec.ofNat 16 (bits t 16 16))) else .error .instrFormat

/-- Opcode 0x7D: VHIST; `a` is field A, `t` the tail. -/
def decOp7D (a t : Nat) : Except DecErr Instr :=
  if a = 0 ∧ bits t 6 6 = 0 ∧ bits t 12 6 = 0 ∧ bits t 21 1 = 0 ∧ bits t 22 3 = 0 ∧ bits t 29 3 = 0 then .ok (.vhist (BitVec.ofNat 6 (bits t 0 6)) (BitVec.ofNat 3 (bits t 18 3)) (BitVec.ofNat 4 (bits t 25 4))) else .error .instrFormat

/-- Opcode 0x7E: VSEED_RD, VSEED_WR, VSEED_XCHG; `a` is field A, `t` the tail. -/
def decOp7E (a t : Nat) : Except DecErr Instr :=
  if bits t 12 2 = 0 then if bits t 0 6 = 0 ∧ bits t 6 6 = 0 ∧ bits t 14 2 = 0 then .ok (.vseedRd (BitVec.ofNat 6 a)) else .error .instrFormat
  else if bits t 12 2 = 1 then if a = 0 ∧ bits t 6 6 = 0 ∧ bits t 14 2 = 0 then .ok (.vseedWr (BitVec.ofNat 6 (bits t 0 6))) else .error .instrFormat
  else if bits t 12 2 = 2 then if bits t 6 6 = 0 ∧ bits t 14 2 = 0 then .ok (.vseedXchg (BitVec.ofNat 6 a) (BitVec.ofNat 6 (bits t 0 6))) else .error .instrFormat
  else if bits t 6 6 = 0 ∧ bits t 14 2 = 0 then .error .reservedOperand else .error .instrFormat

/-- Opcode 0x7F: VEXT; `a` is field A, `t` the tail. -/
def decOp7F (a t : Nat) : Except DecErr Instr :=
  if bits t 11 5 = 0 then .ok (.vext (BitVec.ofNat 6 a) (BitVec.ofNat 6 (bits t 0 6)) (BitVec.ofNat 4 (bits t 6 4)) (flag t 10) (BitVec.ofNat 16 (bits t 16 16))) else .error .instrFormat

/-- Opcode 0x80: VINS; `a` is field A, `t` the tail. -/
def decOp80 (a t : Nat) : Except DecErr Instr :=
  if bits t 10 6 = 0 then .ok (.vins (BitVec.ofNat 6 a) (BitVec.ofNat 6 (bits t 0 6)) (BitVec.ofNat 4 (bits t 6 4)) (BitVec.ofNat 16 (bits t 16 16))) else .error .instrFormat

/-- Opcode 0x81: BB_GET; `a` is field A, `t` the tail. -/
def decOp81 (a t : Nat) : Except DecErr Instr :=
  if bits t 8 8 = 0 then (if (decide (bits t 6 1 = 0) && decide (bits t 0 6 ≠ 0)) then .error .instrFormat else .ok (.bbGet (BitVec.ofNat 6 a) (BitVec.ofNat 6 (bits t 0 6)) (flag t 6) (flag t 7) (BitVec.ofNat 16 (bits t 16 16)))) else .error .instrFormat

/-- Opcode 0x82: BB_PEEK; `a` is field A, `t` the tail. -/
def decOp82 (a t : Nat) : Except DecErr Instr :=
  if bits t 8 8 = 0 then (if (decide (bits t 6 1 = 0) && decide (bits t 0 6 ≠ 0)) then .error .instrFormat else .ok (.bbPeek (BitVec.ofNat 6 a) (BitVec.ofNat 6 (bits t 0 6)) (flag t 6) (flag t 7) (BitVec.ofNat 16 (bits t 16 16)))) else .error .instrFormat

/-- Opcode 0x83: BB_SKIP; `a` is field A, `t` the tail. -/
def decOp83 (a t : Nat) : Except DecErr Instr :=
  if a = 0 ∧ bits t 7 9 = 0 then (if (decide (bits t 6 1 = 0) && decide (bits t 0 6 ≠ 0)) then .error .instrFormat else .ok (.bbSkip (BitVec.ofNat 6 (bits t 0 6)) (flag t 6) (BitVec.ofNat 16 (bits t 16 16)))) else .error .instrFormat

/-- Opcode 0x84: BB_FILL; `a` is field A, `t` the tail. -/
def decOp84 (a t : Nat) : Except DecErr Instr :=
  if bits t 0 6 = 0 ∧ bits t 6 10 = 0 then (if bits t 16 16 = 0 then .ok (.bbFill (BitVec.ofNat 6 a)) else .error .reservedOperand) else .error .instrFormat

/-- Opcode 0x85: BB_DEC; `a` is field A, `t` the tail. -/
def decOp85 (a t : Nat) : Except DecErr Instr :=
  if bits t 0 6 = 0 ∧ bits t 6 10 = 0 then .ok (.bbDec (BitVec.ofNat 6 a) (BitVec.ofNat 16 (bits t 16 16))) else .error .instrFormat

/-- Opcode 0x86: BB_SAVE, BB_REST; `a` is field A, `t` the tail. -/
def decOp86 (a t : Nat) : Except DecErr Instr :=
  if bits t 6 1 = 0 then if a = 0 ∧ bits t 7 9 = 0 then .ok (.bbSave (BitVec.ofNat 6 (bits t 0 6)) (BitVec.ofNat 16 (bits t 16 16))) else .error .instrFormat
  else if bits t 6 1 = 1 then if a = 0 ∧ bits t 7 9 = 0 then .ok (.bbRest (BitVec.ofNat 6 (bits t 0 6)) (BitVec.ofNat 16 (bits t 16 16))) else .error .instrFormat
  else if a = 0 ∧ bits t 7 9 = 0 then .error .reservedOperand else .error .instrFormat

/-- Opcode 0x87: XREQ; `a` is field A, `t` the tail. -/
def decOp87 (a t : Nat) : Except DecErr Instr :=
  if bits t 6 6 = 0 ∧ bits t 12 4 = 0 then .ok (.xreq (BitVec.ofNat 6 a) (BitVec.ofNat 6 (bits t 0 6))) else .error .instrFormat

/-- Opcode 0x88: XSTAT; `a` is field A, `t` the tail. -/
def decOp88 (a _ : Nat) : Except DecErr Instr :=
  .ok (.xstat (BitVec.ofNat 6 a))

/-- Opcode 0x89: LAUNCH; `a` is field A, `t` the tail. -/
def decOp89 (a t : Nat) : Except DecErr Instr :=
  if bits t 6 10 = 0 then .ok (.launch (BitVec.ofNat 6 a) (BitVec.ofNat 6 (bits t 0 6)) (BitVec.ofNat 16 (bits t 16 16))) else .error .instrFormat

/-- Opcode 0x8A: EVWAIT; `a` is field A, `t` the tail. -/
def decOp8A (a t : Nat) : Except DecErr Instr :=
  if bits t 9 7 = 0 then .ok (.evwait (BitVec.ofNat 6 a) (BitVec.ofNat 6 (bits t 0 6)) (BitVec.ofNat 3 (bits t 6 3)) (BitVec.ofNat 16 (bits t 16 16))) else .error .instrFormat

/-- Opcode 0x8B: EVSIG; `a` is field A, `t` the tail. -/
def decOp8B (a t : Nat) : Except DecErr Instr :=
  if bits t 9 7 = 0 then .ok (.evsig (BitVec.ofNat 6 a) (BitVec.ofNat 6 (bits t 0 6)) (BitVec.ofNat 3 (bits t 6 3)) (BitVec.ofNat 16 (bits t 16 16))) else .error .instrFormat

/-- Opcode 0x8C: LQSTAT; `a` is field A, `t` the tail. -/
def decOp8C (a t : Nat) : Except DecErr Instr :=
  if bits t 0 6 = 0 ∧ bits t 6 10 = 0 then .ok (.lqstat (BitVec.ofNat 6 a) (BitVec.ofNat 16 (bits t 16 16))) else .error .reservedOperand

/-- Opcode 0x8D: YIELD; `a` is field A, `t` the tail. -/
def decOp8D (a _ : Nat) : Except DecErr Instr :=
  if a = 0 then .ok .yieldOp else .error .instrFormat

/-- Opcode 0x8E: SYNC; `a` is field A, `t` the tail. -/
def decOp8E (a t : Nat) : Except DecErr Instr :=
  if bits t 3 13 = 0 then .ok (.sync (BitVec.ofNat 6 a) (BitVec.ofNat 3 (bits t 0 3))) else .error .reservedOperand

/-- Opcode 0x8F: DTAKE; `a` is field A, `t` the tail. -/
def decOp8F (a t : Nat) : Except DecErr Instr :=
  if bits t 0 6 = 0 ∧ bits t 6 10 = 0 then .ok (.dtake (BitVec.ofNat 6 a) (BitVec.ofNat 16 (bits t 16 16))) else .error .instrFormat

/-- Opcode 0x90: DPLACE_START, DPLACE_PREQ, DPLACE_SAVE, DPLACE_REST, DPLACE_KILL; `a` is field A, `t` the tail. -/
def decOp90 (a t : Nat) : Except DecErr Instr :=
  if bits t 12 3 = 0 then if bits t 15 17 = 0 then .ok (.dplaceStart (BitVec.ofNat 6 a) (BitVec.ofNat 6 (bits t 0 6)) (BitVec.ofNat 6 (bits t 6 6)) (BitVec.ofNat 32 (bits t 32 32))) else .error .instrFormat
  else if bits t 12 3 = 1 then if bits t 15 17 = 0 then .ok (.dplacePreq (BitVec.ofNat 6 a) (BitVec.ofNat 6 (bits t 0 6)) (BitVec.ofNat 6 (bits t 6 6)) (BitVec.ofNat 32 (bits t 32 32))) else .error .instrFormat
  else if bits t 12 3 = 2 then if bits t 15 17 = 0 then .ok (.dplaceSave (BitVec.ofNat 6 a) (BitVec.ofNat 6 (bits t 0 6)) (BitVec.ofNat 6 (bits t 6 6)) (BitVec.ofNat 32 (bits t 32 32))) else .error .instrFormat
  else if bits t 12 3 = 3 then if bits t 15 17 = 0 then .ok (.dplaceRest (BitVec.ofNat 6 a) (BitVec.ofNat 6 (bits t 0 6)) (BitVec.ofNat 6 (bits t 6 6)) (BitVec.ofNat 32 (bits t 32 32))) else .error .instrFormat
  else if bits t 12 3 = 4 then if bits t 15 17 = 0 then .ok (.dplaceKill (BitVec.ofNat 6 a) (BitVec.ofNat 6 (bits t 0 6)) (BitVec.ofNat 6 (bits t 6 6)) (BitVec.ofNat 32 (bits t 32 32))) else .error .instrFormat
  else if bits t 15 17 = 0 then .error .reservedOperand else .error .instrFormat

/-- Opcode 0x91: CPY_PK, CPY_LAND, CPY_REC; `a` is field A, `t` the tail. -/
def decOp91 (a t : Nat) : Except DecErr Instr :=
  if bits t 12 2 = 0 then if bits t 15 17 = 0 then .ok (.cpyPk (BitVec.ofNat 6 a) (BitVec.ofNat 6 (bits t 0 6)) (BitVec.ofNat 6 (bits t 6 6)) (flag t 14) (BitVec.ofNat 32 (bits t 32 32))) else .error .instrFormat
  else if bits t 12 2 = 1 then if bits t 15 17 = 0 then .ok (.cpyLand (BitVec.ofNat 6 a) (BitVec.ofNat 6 (bits t 0 6)) (BitVec.ofNat 6 (bits t 6 6)) (flag t 14) (BitVec.ofNat 32 (bits t 32 32))) else .error .instrFormat
  else if bits t 12 2 = 2 then if bits t 15 17 = 0 then .ok (.cpyRec (BitVec.ofNat 6 a) (BitVec.ofNat 6 (bits t 0 6)) (BitVec.ofNat 6 (bits t 6 6)) (flag t 14) (BitVec.ofNat 32 (bits t 32 32))) else .error .instrFormat
  else if bits t 15 17 = 0 then .error .reservedOperand else .error .instrFormat

/-- Opcode 0x92: CPY_LOOP; `a` is field A, `t` the tail. -/
def decOp92 (a t : Nat) : Except DecErr Instr :=
  if bits t 15 17 = 0 then .ok (.cpyLoop (BitVec.ofNat 6 a) (BitVec.ofNat 6 (bits t 0 6)) (BitVec.ofNat 6 (bits t 6 6)) (flag t 14) (BitVec.ofNat 32 (bits t 32 32))) else .error .instrFormat

/-- Opcode 0x93: CPYCAN; `a` is field A, `t` the tail. -/
def decOp93 (a t : Nat) : Except DecErr Instr :=
  if bits t 6 6 = 0 ∧ bits t 12 4 = 0 then .ok (.cpycan (BitVec.ofNat 6 a) (BitVec.ofNat 6 (bits t 0 6))) else .error .instrFormat

/-- Opcode 0x94: LAND_ACQ; `a` is field A, `t` the tail. -/
def decOp94 (a t : Nat) : Except DecErr Instr :=
  if bits t 12 4 = 0 then (if bits t 16 16 = 0 then .ok (.landAcq (BitVec.ofNat 6 a) (BitVec.ofNat 6 (bits t 0 6)) (BitVec.ofNat 4 (bits t 6 4)) (flag t 10) (flag t 11)) else .error .reservedOperand) else .error .instrFormat

/-- Opcode 0x95: LAND_REL; `a` is field A, `t` the tail. -/
def decOp95 (a t : Nat) : Except DecErr Instr :=
  if a = 0 ∧ bits t 10 6 = 0 then (if bits t 16 16 = 0 then .ok (.landRel (BitVec.ofNat 6 (bits t 0 6)) (BitVec.ofNat 4 (bits t 6 4))) else .error .reservedOperand) else .error .instrFormat

/-- Opcode 0x96: LAND_INIT; `a` is field A, `t` the tail. -/
def decOp96 (a t : Nat) : Except DecErr Instr :=
  if bits t 16 16 = 0 then (if bits t 32 32 = 0 then .ok (.landInit (BitVec.ofNat 6 a) (BitVec.ofNat 6 (bits t 0 6)) (BitVec.ofNat 6 (bits t 6 6)) (BitVec.ofNat 4 (bits t 12 4))) else .error .reservedOperand) else .error .instrFormat

/-- Opcode 0x97: HALLOC; `a` is field A, `t` the tail. -/
def decOp97 (a t : Nat) : Except DecErr Instr :=
  if bits t 13 3 = 0 then .ok (.halloc (BitVec.ofNat 6 a) (BitVec.ofNat 6 (bits t 0 6)) (BitVec.ofNat 6 (bits t 6 6)) (flag t 12)) else .error .instrFormat

/-- Opcode 0x98: HFREE; `a` is field A, `t` the tail. -/
def decOp98 (a t : Nat) : Except DecErr Instr :=
  if bits t 6 6 = 0 ∧ bits t 12 4 = 0 then .ok (.hfree (BitVec.ofNat 6 a) (BitVec.ofNat 6 (bits t 0 6))) else .error .instrFormat

/-- Opcode 0x99: HBUMP; `a` is field A, `t` the tail. -/
def decOp99 (a t : Nat) : Except DecErr Instr :=
  if bits t 12 4 = 0 then .ok (.hbump (BitVec.ofNat 6 a) (BitVec.ofNat 6 (bits t 0 6)) (BitVec.ofNat 6 (bits t 6 6))) else .error .instrFormat

/-- Opcode 0x9A: JPEEK; `a` is field A, `t` the tail. -/
def decOp9A (a t : Nat) : Except DecErr Instr :=
  if bits t 6 6 = 0 ∧ bits t 12 4 = 0 then .ok (.jpeek (BitVec.ofNat 6 a) (BitVec.ofNat 6 (bits t 0 6))) else .error .instrFormat

/-- Opcode 0x9B: JDROP; `a` is field A, `t` the tail. -/
def decOp9B (a _ : Nat) : Except DecErr Instr :=
  if a = 0 then .ok .jdrop else .error .instrFormat

/-- Opcode 0x9C: BGET; `a` is field A, `t` the tail. -/
def decOp9C (a t : Nat) : Except DecErr Instr :=
  if bits t 0 6 = 0 ∧ bits t 6 6 = 0 ∧ bits t 13 3 = 0 then .ok (.bget (BitVec.ofNat 6 a) (flag t 12)) else .error .instrFormat

/-- Opcode 0x9D: BSTREAM_MOVE, BSTREAM_OWNER, BSTREAM_FWD; `a` is field A, `t` the tail. -/
def decOp9D (a t : Nat) : Except DecErr Instr :=
  if bits t 31 2 = 0 then if bits t 18 6 = 0 ∧ bits t 24 3 = 0 ∧ bits t 27 1 = 0 ∧ bits t 28 3 = 0 ∧ bits t 48 16 = 0 ∧ bits t 33 15 = 0 then .ok (.bstreamMove (BitVec.ofNat 6 a) (BitVec.ofNat 6 (bits t 0 6)) (BitVec.ofNat 6 (bits t 6 6)) (BitVec.ofNat 6 (bits t 12 6))) else .error .instrFormat
  else if bits t 31 2 = 1 then if bits t 0 6 = 0 ∧ bits t 6 6 = 0 ∧ bits t 12 6 = 0 ∧ bits t 18 6 = 0 ∧ bits t 24 3 = 0 ∧ bits t 27 1 = 0 ∧ bits t 28 3 = 0 ∧ bits t 48 16 = 0 ∧ bits t 33 15 = 0 then .ok (.bstreamOwner (BitVec.ofNat 6 a)) else .error .instrFormat
  else if bits t 31 2 = 2 then if a = 0 ∧ bits t 6 6 = 0 ∧ bits t 12 6 = 0 ∧ bits t 18 6 = 0 ∧ bits t 24 3 = 0 ∧ bits t 27 1 = 0 ∧ bits t 28 3 = 0 ∧ bits t 48 16 = 0 ∧ bits t 33 15 = 0 then .ok (.bstreamFwd (BitVec.ofNat 6 (bits t 0 6))) else .error .instrFormat
  else if bits t 18 13 = 0 ∧ bits t 33 31 = 0 then .error .reservedOperand else .error .instrFormat

/-- Opcode 0x9E: BLAND_WAIT, BLAND_FILL, BLAND_DONE; `a` is field A, `t` the tail. -/
def decOp9E (a t : Nat) : Except DecErr Instr :=
  if bits t 12 2 = 0 then if bits t 6 6 = 0 ∧ bits t 14 2 = 0 then .ok (.blandWait (BitVec.ofNat 6 a) (BitVec.ofNat 6 (bits t 0 6))) else .error .instrFormat
  else if bits t 12 2 = 1 then if a = 0 ∧ bits t 6 6 = 0 ∧ bits t 14 2 = 0 then .ok (.blandFill (BitVec.ofNat 6 (bits t 0 6))) else .error .instrFormat
  else if bits t 12 2 = 2 then if a = 0 ∧ bits t 14 2 = 0 then .ok (.blandDone (BitVec.ofNat 6 (bits t 0 6)) (BitVec.ofNat 6 (bits t 6 6))) else .error .instrFormat
  else if bits t 14 2 = 0 then .error .reservedOperand else .error .instrFormat

/-- Opcode 0x9F: PJOB; `a` is field A, `t` the tail. -/
def decOp9F (a t : Nat) : Except DecErr Instr :=
  if bits t 6 6 = 0 ∧ bits t 12 4 = 0 then .ok (.pjob (BitVec.ofNat 6 a) (BitVec.ofNat 6 (bits t 0 6))) else .error .instrFormat

/-- Opcode 0xA0: PPOLL; `a` is field A, `t` the tail. -/
def decOpA0 (a t : Nat) : Except DecErr Instr :=
  if bits t 6 6 = 0 ∧ bits t 12 4 = 0 then .ok (.ppoll (BitVec.ofNat 6 a) (BitVec.ofNat 6 (bits t 0 6))) else .error .instrFormat

/-- Opcode 0xA1: PWAIT; `a` is field A, `t` the tail. -/
def decOpA1 (a t : Nat) : Except DecErr Instr :=
  if bits t 6 6 = 0 ∧ bits t 12 4 = 0 then .ok (.pwait (BitVec.ofNat 6 a) (BitVec.ofNat 6 (bits t 0 6))) else .error .instrFormat

/-- Opcode 0xA2: PCAN; `a` is field A, `t` the tail. -/
def decOpA2 (a t : Nat) : Except DecErr Instr :=
  if bits t 6 6 = 0 ∧ bits t 12 4 = 0 then .ok (.pcan (BitVec.ofNat 6 a) (BitVec.ofNat 6 (bits t 0 6))) else .error .instrFormat

/-- Opcode 0xA3: PHEAT_SET, PHEAT_ADD; `a` is field A, `t` the tail. -/
def decOpA3 (a t : Nat) : Except DecErr Instr :=
  if bits t 6 1 = 0 then if bits t 7 9 = 0 then (if bits t 16 16 = 0 then .ok (.pheatSet (BitVec.ofNat 6 a) (BitVec.ofNat 6 (bits t 0 6))) else .error .reservedOperand) else .error .instrFormat
  else if bits t 6 1 = 1 then if bits t 7 9 = 0 then (if bits t 16 16 = 0 then .ok (.pheatAdd (BitVec.ofNat 6 a) (BitVec.ofNat 6 (bits t 0 6))) else .error .reservedOperand) else .error .instrFormat
  else if bits t 7 9 = 0 then .error .reservedOperand else .error .instrFormat

/-- Opcode 0xA4: PMON_RING, PMON_BANK, PMON_TEMP; `a` is field A, `t` the tail. -/
def decOpA4 (a t : Nat) : Except DecErr Instr :=
  if bits t 6 2 = 0 then if bits t 8 8 = 0 then (if bits t 16 16 = 0 then .ok (.pmonRing (BitVec.ofNat 6 a) (BitVec.ofNat 6 (bits t 0 6))) else .error .reservedOperand) else .error .instrFormat
  else if bits t 6 2 = 1 then if bits t 8 8 = 0 then (if bits t 16 16 = 0 then .ok (.pmonBank (BitVec.ofNat 6 a) (BitVec.ofNat 6 (bits t 0 6))) else .error .reservedOperand) else .error .instrFormat
  else if bits t 6 2 = 2 then if bits t 8 8 = 0 then (if bits t 16 16 = 0 then .ok (.pmonTemp (BitVec.ofNat 6 a) (BitVec.ofNat 6 (bits t 0 6))) else .error .reservedOperand) else .error .instrFormat
  else if bits t 8 8 = 0 then .error .reservedOperand else .error .instrFormat

/-- Opcode 0xA5: PSETTLE; `a` is field A, `t` the tail. -/
def decOpA5 (a t : Nat) : Except DecErr Instr :=
  if bits t 7 9 = 0 then .ok (.psettle (BitVec.ofNat 6 a) (BitVec.ofNat 6 (bits t 0 6)) (flag t 6) (BitVec.ofNat 16 (bits t 16 16))) else .error .instrFormat

/-- Opcode 0xA6: PCAL_FULL, PCAL_OFS; `a` is field A, `t` the tail. -/
def decOpA6 (a t : Nat) : Except DecErr Instr :=
  if bits t 6 2 = 0 then if bits t 0 6 = 0 ∧ bits t 8 8 = 0 then (if bits t 16 16 = 0 then .ok (.pcalFull (BitVec.ofNat 6 a)) else .error .reservedOperand) else .error .instrFormat
  else if bits t 6 2 = 1 then if bits t 0 6 = 0 ∧ bits t 8 8 = 0 then (if bits t 16 16 = 0 then .ok (.pcalOfs (BitVec.ofNat 6 a)) else .error .reservedOperand) else .error .instrFormat
  else if bits t 0 6 = 0 ∧ bits t 8 8 = 0 then .error .reservedOperand else .error .instrFormat

/-- Opcode 0xA7: PMAP_RD, PMAP_SWAP, PMAP_IDENT; `a` is field A, `t` the tail. -/
def decOpA7 (a t : Nat) : Except DecErr Instr :=
  if bits t 6 2 = 0 then if bits t 8 8 = 0 then (if bits t 16 16 = 0 then .ok (.pmapRd (BitVec.ofNat 6 a) (BitVec.ofNat 6 (bits t 0 6))) else .error .reservedOperand) else .error .instrFormat
  else if bits t 6 2 = 1 then if bits t 8 8 = 0 then (if bits t 16 16 = 0 then .ok (.pmapSwap (BitVec.ofNat 6 a) (BitVec.ofNat 6 (bits t 0 6))) else .error .reservedOperand) else .error .instrFormat
  else if bits t 6 2 = 2 then if bits t 8 8 = 0 then (if bits t 16 16 = 0 then .ok (.pmapIdent (BitVec.ofNat 6 a) (BitVec.ofNat 6 (bits t 0 6))) else .error .reservedOperand) else .error .instrFormat
  else if bits t 8 8 = 0 then .error .reservedOperand else .error .instrFormat

/-- Opcode 0xA8: PSTAT; `a` is field A, `t` the tail. -/
def decOpA8 (a t : Nat) : Except DecErr Instr :=
  if bits t 0 6 = 0 ∧ bits t 6 10 = 0 then .ok (.pstat (BitVec.ofNat 6 a) (BitVec.ofNat 16 (bits t 16 16))) else .error .instrFormat

/-- Opcode 0xA9: PROWGO_DROP, PROWGO_MEM, PROWGO_LAND; `a` is field A, `t` the tail. -/
def decOpA9 (a t : Nat) : Except DecErr Instr :=
  if bits t 6 2 = 0 then if a = 0 ∧ bits t 0 6 = 0 ∧ bits t 8 8 = 0 then (if bits t 16 16 = 0 then .ok .prowgoDrop else .error .reservedOperand) else .error .instrFormat
  else if bits t 6 2 = 1 then if a = 0 ∧ bits t 0 6 = 0 ∧ bits t 8 8 = 0 then (if bits t 16 16 = 0 then .ok .prowgoMem else .error .reservedOperand) else .error .instrFormat
  else if bits t 6 2 = 2 then if a = 0 ∧ bits t 8 8 = 0 then (if bits t 16 16 = 0 then .ok (.prowgoLand (BitVec.ofNat 6 (bits t 0 6))) else .error .reservedOperand) else .error .instrFormat
  else if a = 0 ∧ bits t 8 8 = 0 then .error .reservedOperand else .error .instrFormat

/-- Opcode 0xAA: PACC_RD_N, PACC_RD_P; `a` is field A, `t` the tail. -/
def decOpAA (a t : Nat) : Except DecErr Instr :=
  if bits t 6 1 = 0 then if bits t 7 9 = 0 then (if bits t 16 16 = 0 then .ok (.paccRdN (BitVec.ofNat 6 a) (BitVec.ofNat 6 (bits t 0 6))) else .error .reservedOperand) else .error .instrFormat
  else if bits t 6 1 = 1 then if bits t 7 9 = 0 then (if bits t 16 16 = 0 then .ok (.paccRdP (BitVec.ofNat 6 a) (BitVec.ofNat 6 (bits t 0 6))) else .error .reservedOperand) else .error .instrFormat
  else if bits t 7 9 = 0 then .error .reservedOperand else .error .instrFormat

/-- Opcode 0xAB: TOW_ENTER; `a` is field A, `t` the tail. -/
def decOpAB (a t : Nat) : Except DecErr Instr :=
  if bits t 12 4 = 0 then .ok (.towEnter (BitVec.ofNat 6 a) (BitVec.ofNat 6 (bits t 0 6)) (BitVec.ofNat 6 (bits t 6 6))) else .error .instrFormat

/-- Opcode 0xAC: TOW_EXIT; `a` is field A, `t` the tail. -/
def decOpAC (a t : Nat) : Except DecErr Instr :=
  if bits t 6 6 = 0 ∧ bits t 12 4 = 0 then .ok (.towExit (BitVec.ofNat 6 a) (BitVec.ofNat 6 (bits t 0 6))) else .error .instrFormat

/-- Opcode 0xAD: TOW_STAT; `a` is field A, `t` the tail. -/
def decOpAD (a t : Nat) : Except DecErr Instr :=
  if bits t 6 6 = 0 ∧ bits t 12 4 = 0 then .ok (.towStat (BitVec.ofNat 6 a) (BitVec.ofNat 6 (bits t 0 6))) else .error .instrFormat

/-- Opcode 0xAE: TOW_WAIT; `a` is field A, `t` the tail. -/
def decOpAE (a t : Nat) : Except DecErr Instr :=
  if bits t 6 6 = 0 ∧ bits t 12 4 = 0 then .ok (.towWait (BitVec.ofNat 6 a) (BitVec.ofNat 6 (bits t 0 6))) else .error .instrFormat

/-- Opcode 0xAF: FENROL; `a` is field A, `t` the tail. -/
def decOpAF (a t : Nat) : Except DecErr Instr :=
  if bits t 10 6 = 0 then .ok (.fenrol (BitVec.ofNat 6 a) (BitVec.ofNat 6 (bits t 0 6)) (BitVec.ofNat 4 (bits t 6 4)) (BitVec.ofNat 16 (bits t 16 16))) else .error .instrFormat

/-- Opcode 0xB0: FLEAVE; `a` is field A, `t` the tail. -/
def decOpB0 (a t : Nat) : Except DecErr Instr :=
  if bits t 0 6 = 0 ∧ bits t 10 6 = 0 then (if bits t 16 16 = 0 then .ok (.fleave (BitVec.ofNat 6 a) (BitVec.ofNat 4 (bits t 6 4))) else .error .reservedOperand) else .error .instrFormat

/-- Opcode 0xB1: FRB; `a` is field A, `t` the tail. -/
def decOpB1 (a t : Nat) : Except DecErr Instr :=
  if bits t 15 17 = 0 then (if bits t 46 18 = 0 then .ok (.frb (BitVec.ofNat 6 a) (BitVec.ofNat 6 (bits t 0 6)) (BitVec.ofNat 6 (bits t 6 6)) (BitVec.ofNat 3 (bits t 12 3)) (BitVec.ofNat 10 (bits t 32 10)) (BitVec.ofNat 4 (bits t 42 4))) else .error .reservedOperand) else .error .instrFormat

/-- Opcode 0xB2: FMAX; `a` is field A, `t` the tail. -/
def decOpB2 (a t : Nat) : Except DecErr Instr :=
  if bits t 12 20 = 0 then (if bits t 46 18 = 0 then .ok (.fmax (BitVec.ofNat 6 a) (BitVec.ofNat 6 (bits t 0 6)) (BitVec.ofNat 6 (bits t 6 6)) (BitVec.ofNat 10 (bits t 32 10)) (BitVec.ofNat 4 (bits t 42 4))) else .error .reservedOperand) else .error .instrFormat

/-- Opcode 0xB3: FMIN; `a` is field A, `t` the tail. -/
def decOpB3 (a t : Nat) : Except DecErr Instr :=
  if bits t 12 20 = 0 then (if bits t 46 18 = 0 then .ok (.fmin (BitVec.ofNat 6 a) (BitVec.ofNat 6 (bits t 0 6)) (BitVec.ofNat 6 (bits t 6 6)) (BitVec.ofNat 10 (bits t 32 10)) (BitVec.ofNat 4 (bits t 42 4))) else .error .reservedOperand) else .error .instrFormat

/-- Opcode 0xB4: FPOP; `a` is field A, `t` the tail. -/
def decOpB4 (a t : Nat) : Except DecErr Instr :=
  if bits t 0 6 = 0 ∧ bits t 10 6 = 0 then (if bits t 16 16 = 0 then .ok (.fpop (BitVec.ofNat 6 a) (BitVec.ofNat 4 (bits t 6 4))) else .error .reservedOperand) else .error .instrFormat

/-- Opcode 0xB5: FALIGN; `a` is field A, `t` the tail. -/
def decOpB5 (a t : Nat) : Except DecErr Instr :=
  if bits t 0 6 = 0 ∧ bits t 10 6 = 0 then .ok (.falign (BitVec.ofNat 6 a) (BitVec.ofNat 4 (bits t 6 4)) (BitVec.ofNat 16 (bits t 16 16))) else .error .instrFormat

/-- Opcode 0xB6: FSTAT; `a` is field A, `t` the tail. -/
def decOpB6 (a t : Nat) : Except DecErr Instr :=
  if bits t 0 6 = 0 ∧ bits t 10 6 = 0 then .ok (.fstat (BitVec.ofNat 6 a) (BitVec.ofNat 4 (bits t 6 4)) (BitVec.ofNat 16 (bits t 16 16))) else .error .instrFormat

/-- Opcode 0xB7: FEMIT_TAKE, FEMIT_LOAD, FEMIT_FRAME, FEMIT_DONE; `a` is field A, `t` the tail. -/
def decOpB7 (a t : Nat) : Except DecErr Instr :=
  if bits t 31 2 = 0 then if bits t 0 6 = 0 ∧ bits t 6 6 = 0 ∧ bits t 12 6 = 0 ∧ bits t 18 6 = 0 ∧ bits t 24 3 = 0 ∧ bits t 27 1 = 0 ∧ bits t 28 3 = 0 ∧ bits t 48 16 = 0 ∧ bits t 33 15 = 0 then .ok (.femitTake (BitVec.ofNat 6 a)) else .error .instrFormat
  else if bits t 31 2 = 1 then if bits t 6 6 = 0 ∧ bits t 12 6 = 0 ∧ bits t 18 6 = 0 ∧ bits t 24 3 = 0 ∧ bits t 27 1 = 0 ∧ bits t 28 3 = 0 ∧ bits t 48 16 = 0 ∧ bits t 33 15 = 0 then .ok (.femitLoad (BitVec.ofNat 6 a) (BitVec.ofNat 6 (bits t 0 6))) else .error .instrFormat
  else if bits t 31 2 = 2 then if bits t 6 6 = 0 ∧ bits t 12 6 = 0 ∧ bits t 18 6 = 0 ∧ bits t 24 3 = 0 ∧ bits t 27 1 = 0 ∧ bits t 28 3 = 0 ∧ bits t 48 16 = 0 ∧ bits t 33 15 = 0 then .ok (.femitFrame (BitVec.ofNat 6 a) (BitVec.ofNat 6 (bits t 0 6))) else .error .instrFormat
  else if bits t 31 2 = 3 then if bits t 6 6 = 0 ∧ bits t 12 6 = 0 ∧ bits t 18 6 = 0 ∧ bits t 24 3 = 0 ∧ bits t 27 1 = 0 ∧ bits t 28 3 = 0 ∧ bits t 48 16 = 0 ∧ bits t 33 15 = 0 then .ok (.femitDone (BitVec.ofNat 6 a) (BitVec.ofNat 6 (bits t 0 6))) else .error .instrFormat
  else if bits t 6 25 = 0 ∧ bits t 33 31 = 0 then .error .reservedOperand else .error .instrFormat

/-- Opcode 0xB8: FCOUNT_RD, FCOUNT_EL, FCOUNT_EX; `a` is field A, `t` the tail. -/
def decOpB8 (a t : Nat) : Except DecErr Instr :=
  if bits t 25 2 = 0 then if bits t 12 6 = 0 ∧ bits t 18 3 = 0 ∧ bits t 21 1 = 0 ∧ bits t 22 3 = 0 ∧ bits t 27 5 = 0 then .ok (.fcountRd (BitVec.ofNat 6 a) (BitVec.ofNat 6 (bits t 0 6)) (BitVec.ofNat 6 (bits t 6 6))) else .error .instrFormat
  else if bits t 25 2 = 1 then if bits t 6 6 = 0 ∧ bits t 12 6 = 0 ∧ bits t 18 3 = 0 ∧ bits t 21 1 = 0 ∧ bits t 22 3 = 0 ∧ bits t 27 5 = 0 then .ok (.fcountEl (BitVec.ofNat 6 a) (BitVec.ofNat 6 (bits t 0 6))) else .error .instrFormat
  else if bits t 25 2 = 2 then if bits t 6 6 = 0 ∧ bits t 12 6 = 0 ∧ bits t 18 3 = 0 ∧ bits t 21 1 = 0 ∧ bits t 22 3 = 0 ∧ bits t 27 5 = 0 then .ok (.fcountEx (BitVec.ofNat 6 a) (BitVec.ofNat 6 (bits t 0 6))) else .error .instrFormat
  else if bits t 12 13 = 0 ∧ bits t 27 5 = 0 then .error .reservedOperand else .error .instrFormat

/-- Opcode 0xB9: RTV; `a` is field A, `t` the tail. -/
def decOpB9 (a _ : Nat) : Except DecErr Instr :=
  .ok (.rtv (BitVec.ofNat 6 a))

/-- Opcode 0xBA: LNKST; `a` is field A, `t` the tail. -/
def decOpBA (a t : Nat) : Except DecErr Instr :=
  if bits t 12 4 = 0 then (if ((decide (bits t 16 16 = 0) || decide (bits t 16 16 = 2)) && decide (bits t 0 6 ≠ 0)) then .error .instrFormat else .ok (.lnkst (BitVec.ofNat 6 a) (BitVec.ofNat 6 (bits t 0 6)) (BitVec.ofNat 6 (bits t 6 6)) (BitVec.ofNat 16 (bits t 16 16)))) else .error .instrFormat

/-- Opcode 0xBB: TTSEL_SW, TTSEL_SEG; `a` is field A, `t` the tail. -/
def decOpBB (a t : Nat) : Except DecErr Instr :=
  if bits t 6 1 = 0 then if bits t 13 3 = 0 then (if bits t 16 16 = 0 then .ok (.ttselSw (BitVec.ofNat 6 a) (BitVec.ofNat 6 (bits t 0 6)) (BitVec.ofNat 4 (bits t 7 4)) (BitVec.ofNat 2 (bits t 11 2))) else .error .reservedOperand) else .error .instrFormat
  else if bits t 6 1 = 1 then if bits t 0 6 = 0 ∧ bits t 11 5 = 0 then .ok (.ttselSeg (BitVec.ofNat 6 a) (BitVec.ofNat 4 (bits t 7 4)) (BitVec.ofNat 16 (bits t 16 16))) else .error .instrFormat
  else if bits t 13 3 = 0 then .error .reservedOperand else .error .instrFormat

/-- Opcode 0xBC: PILOTST; `a` is field A, `t` the tail. -/
def decOpBC (a t : Nat) : Except DecErr Instr :=
  if bits t 0 6 = 0 ∧ bits t 12 4 = 0 then (if bits t 16 16 = 0 then .ok (.pilotst (BitVec.ofNat 6 a) (BitVec.ofNat 6 (bits t 6 6))) else .error .reservedOperand) else .error .instrFormat

/-- Opcode 0xBD: TRC_RD_ENT, TRC_RD_CNT, TRC_RD_CLR; `a` is field A, `t` the tail. -/
def decOpBD (a t : Nat) : Except DecErr Instr :=
  if bits t 6 2 = 0 then if bits t 0 6 = 0 ∧ bits t 8 8 = 0 then .ok (.trcRdEnt (BitVec.ofNat 6 a) (BitVec.ofNat 16 (bits t 16 16))) else .error .instrFormat
  else if bits t 6 2 = 1 then if bits t 0 6 = 0 ∧ bits t 8 8 = 0 then (if bits t 16 16 = 0 then .ok (.trcRdCnt (BitVec.ofNat 6 a)) else .error .reservedOperand) else .error .instrFormat
  else if bits t 6 2 = 2 then if bits t 0 6 = 0 ∧ bits t 8 8 = 0 then (if bits t 16 16 = 0 then .ok (.trcRdClr (BitVec.ofNat 6 a)) else .error .reservedOperand) else .error .instrFormat
  else if bits t 0 6 = 0 ∧ bits t 8 8 = 0 then .error .reservedOperand else .error .instrFormat

/-- Opcode 0xBE: IMB_RD; `a` is field A, `t` the tail. -/
def decOpBE (a t : Nat) : Except DecErr Instr :=
  if bits t 0 6 = 0 ∧ bits t 9 7 = 0 then .ok (.imbRd (BitVec.ofNat 6 a) (BitVec.ofNat 2 (bits t 6 2)) (flag t 8) (BitVec.ofNat 16 (bits t 16 16))) else .error .instrFormat

/-- Opcode 0xBF: DBGSIG_HALT, DBGSIG_TRIG, DBGSIG_MARK; `a` is field A, `t` the tail. -/
def decOpBF (a t : Nat) : Except DecErr Instr :=
  if bits t 6 2 = 0 then if a = 0 ∧ bits t 0 6 = 0 ∧ bits t 8 8 = 0 then (if bits t 16 16 = 0 then .ok .dbgsigHalt else .error .reservedOperand) else .error .instrFormat
  else if bits t 6 2 = 1 then if a = 0 ∧ bits t 0 6 = 0 ∧ bits t 8 8 = 0 then (if bits t 16 16 = 0 then .ok .dbgsigTrig else .error .reservedOperand) else .error .instrFormat
  else if bits t 6 2 = 2 then if a = 0 ∧ bits t 0 6 = 0 ∧ bits t 8 8 = 0 then .ok (.dbgsigMark (BitVec.ofNat 16 (bits t 16 16))) else .error .instrFormat
  else if a = 0 ∧ bits t 0 6 = 0 ∧ bits t 8 8 = 0 then .error .reservedOperand else .error .instrFormat

/-- Opcode 0xC0: DUMPST; `a` is field A, `t` the tail. -/
def decOpC0 (a t : Nat) : Except DecErr Instr :=
  if bits t 0 6 = 0 ∧ bits t 6 10 = 0 then .ok (.dumpst (BitVec.ofNat 6 a) (BitVec.ofNat 16 (bits t 16 16))) else .error .instrFormat

/-- The heads of opcodes 0x01 to 0x50. -/
def decodeScalar (op a t : Nat) : Except DecErr Instr :=
  match op with
  | 0x01 => decOp01 a t
  | 0x02 => decOp02 a t
  | 0x03 => decOp03 a t
  | 0x04 => decOp04 a t
  | 0x05 => decOp05 a t
  | 0x06 => decOp06 a t
  | 0x07 => decOp07 a t
  | 0x08 => decOp08 a t
  | 0x09 => decOp09 a t
  | 0x0A => decOp0A a t
  | 0x0B => decOp0B a t
  | 0x0C => decOp0C a t
  | 0x0D => decOp0D a t
  | 0x0E => decOp0E a t
  | 0x0F => decOp0F a t
  | 0x10 => decOp10 a t
  | 0x11 => decOp11 a t
  | 0x12 => decOp12 a t
  | 0x13 => decOp13 a t
  | 0x14 => decOp14 a t
  | 0x15 => decOp15 a t
  | 0x16 => decOp16 a t
  | 0x17 => decOp17 a t
  | 0x18 => decOp18 a t
  | 0x19 => decOp19 a t
  | 0x1A => decOp1A a t
  | 0x1B => decOp1B a t
  | 0x1C => decOp1C a t
  | 0x1D => decOp1D a t
  | 0x1E => decOp1E a t
  | 0x1F => decOp1F a t
  | 0x20 => decOp20 a t
  | 0x21 => decOp21 a t
  | 0x22 => decOp22 a t
  | 0x23 => decOp23 a t
  | 0x24 => decOp24 a t
  | 0x25 => decOp25 a t
  | 0x26 => decOp26 a t
  | 0x27 => decOp27 a t
  | 0x28 => decOp28 a t
  | 0x29 => decOp29 a t
  | 0x2A => decOp2A a t
  | 0x2B => decOp2B a t
  | 0x2C => decOp2C a t
  | 0x2D => decOp2D a t
  | 0x2E => decOp2E a t
  | 0x2F => decOp2F a t
  | 0x30 => decOp30 a t
  | 0x31 => decOp31 a t
  | 0x32 => decOp32 a t
  | 0x33 => decOp33 a t
  | 0x34 => decOp34 a t
  | 0x35 => decOp35 a t
  | 0x36 => decOp36 a t
  | 0x37 => decOp37 a t
  | 0x38 => decOp38 a t
  | 0x39 => decOp39 a t
  | 0x3A => decOp3A a t
  | 0x3B => decOp3B a t
  | 0x3C => decOp3C a t
  | 0x3D => decOp3D a t
  | 0x3E => decOp3E a t
  | 0x3F => decOp3F a t
  | 0x40 => decOp40 a t
  | 0x41 => decOp41 a t
  | 0x42 => decOp42 a t
  | 0x43 => decOp43 a t
  | 0x44 => decOp44 a t
  | 0x45 => decOp45 a t
  | 0x46 => decOp46 a t
  | 0x47 => decOp47 a t
  | 0x48 => decOp48 a t
  | 0x49 => decOp49 a t
  | 0x4A => decOp4A a t
  | 0x4B => decOp4B a t
  | 0x4C => decOp4C a t
  | 0x4D => decOp4D a t
  | 0x4E => decOp4E a t
  | 0x4F => decOp4F a t
  | 0x50 => decOp50 a t
  | _ => .error .instrFormat

/-- The heads of opcodes 0x51 to 0x80. -/
def decodeVector (op a t : Nat) : Except DecErr Instr :=
  match op with
  | 0x51 => decOp51 a t
  | 0x52 => decOp52 a t
  | 0x53 => decOp53 a t
  | 0x54 => decOp54 a t
  | 0x55 => decOp55 a t
  | 0x56 => decOp56 a t
  | 0x57 => decOp57 a t
  | 0x58 => decOp58 a t
  | 0x59 => decOp59 a t
  | 0x5A => decOp5A a t
  | 0x5B => decOp5B a t
  | 0x5C => decOp5C a t
  | 0x5D => decOp5D a t
  | 0x5E => decOp5E a t
  | 0x5F => decOp5F a t
  | 0x60 => decOp60 a t
  | 0x61 => decOp61 a t
  | 0x62 => decOp62 a t
  | 0x63 => decOp63 a t
  | 0x64 => decOp64 a t
  | 0x65 => decOp65 a t
  | 0x66 => decOp66 a t
  | 0x67 => decOp67 a t
  | 0x68 => decOp68 a t
  | 0x69 => decOp69 a t
  | 0x6A => decOp6A a t
  | 0x6B => decOp6B a t
  | 0x6C => decOp6C a t
  | 0x6D => decOp6D a t
  | 0x6E => decOp6E a t
  | 0x6F => decOp6F a t
  | 0x70 => decOp70 a t
  | 0x71 => decOp71 a t
  | 0x72 => decOp72 a t
  | 0x73 => decOp73 a t
  | 0x74 => decOp74 a t
  | 0x75 => decOp75 a t
  | 0x76 => decOp76 a t
  | 0x77 => decOp77 a t
  | 0x78 => decOp78 a t
  | 0x79 => decOp79 a t
  | 0x7A => decOp7A a t
  | 0x7B => decOp7B a t
  | 0x7C => decOp7C a t
  | 0x7D => decOp7D a t
  | 0x7E => decOp7E a t
  | 0x7F => decOp7F a t
  | 0x80 => decOp80 a t
  | _ => .error .instrFormat

/-- The heads of opcodes 0x81 to 0x9E. -/
def decodeStream (op a t : Nat) : Except DecErr Instr :=
  match op with
  | 0x81 => decOp81 a t
  | 0x82 => decOp82 a t
  | 0x83 => decOp83 a t
  | 0x84 => decOp84 a t
  | 0x85 => decOp85 a t
  | 0x86 => decOp86 a t
  | 0x87 => decOp87 a t
  | 0x88 => decOp88 a t
  | 0x89 => decOp89 a t
  | 0x8A => decOp8A a t
  | 0x8B => decOp8B a t
  | 0x8C => decOp8C a t
  | 0x8D => decOp8D a t
  | 0x8E => decOp8E a t
  | 0x8F => decOp8F a t
  | 0x90 => decOp90 a t
  | 0x91 => decOp91 a t
  | 0x92 => decOp92 a t
  | 0x93 => decOp93 a t
  | 0x94 => decOp94 a t
  | 0x95 => decOp95 a t
  | 0x96 => decOp96 a t
  | 0x97 => decOp97 a t
  | 0x98 => decOp98 a t
  | 0x99 => decOp99 a t
  | 0x9A => decOp9A a t
  | 0x9B => decOp9B a t
  | 0x9C => decOp9C a t
  | 0x9D => decOp9D a t
  | 0x9E => decOp9E a t
  | _ => .error .instrFormat

/-- The heads of opcodes 0x9F to 0xC0. -/
def decodeEngine (op a t : Nat) : Except DecErr Instr :=
  match op with
  | 0x9F => decOp9F a t
  | 0xA0 => decOpA0 a t
  | 0xA1 => decOpA1 a t
  | 0xA2 => decOpA2 a t
  | 0xA3 => decOpA3 a t
  | 0xA4 => decOpA4 a t
  | 0xA5 => decOpA5 a t
  | 0xA6 => decOpA6 a t
  | 0xA7 => decOpA7 a t
  | 0xA8 => decOpA8 a t
  | 0xA9 => decOpA9 a t
  | 0xAA => decOpAA a t
  | 0xAB => decOpAB a t
  | 0xAC => decOpAC a t
  | 0xAD => decOpAD a t
  | 0xAE => decOpAE a t
  | 0xAF => decOpAF a t
  | 0xB0 => decOpB0 a t
  | 0xB1 => decOpB1 a t
  | 0xB2 => decOpB2 a t
  | 0xB3 => decOpB3 a t
  | 0xB4 => decOpB4 a t
  | 0xB5 => decOpB5 a t
  | 0xB6 => decOpB6 a t
  | 0xB7 => decOpB7 a t
  | 0xB8 => decOpB8 a t
  | 0xB9 => decOpB9 a t
  | 0xBA => decOpBA a t
  | 0xBB => decOpBB a t
  | 0xBC => decOpBC a t
  | 0xBD => decOpBD a t
  | 0xBE => decOpBE a t
  | 0xBF => decOpBF a t
  | 0xC0 => decOpC0 a t
  | _ => .error .instrFormat

/-- The tail size code that an opcode's form fixes (R41, R42). -/
def formSz (op : Nat) : Nat :=
  match op with
  | 0x01 => 0
  | 0x02 => 0
  | 0x03 => 1
  | 0x04 => 1
  | 0x05 => 0
  | 0x06 => 1
  | 0x07 => 0
  | 0x08 => 1
  | 0x09 => 1
  | 0x0A => 1
  | 0x0B => 2
  | 0x0C => 3
  | 0x0D => 2
  | 0x0E => 3
  | 0x0F => 1
  | 0x10 => 1
  | 0x11 => 1
  | 0x12 => 1
  | 0x13 => 1
  | 0x14 => 1
  | 0x15 => 1
  | 0x16 => 1
  | 0x17 => 1
  | 0x18 => 1
  | 0x19 => 1
  | 0x1A => 1
  | 0x1B => 2
  | 0x1C => 2
  | 0x1D => 2
  | 0x1E => 2
  | 0x1F => 2
  | 0x20 => 2
  | 0x21 => 3
  | 0x22 => 3
  | 0x23 => 3
  | 0x24 => 3
  | 0x25 => 1
  | 0x26 => 2
  | 0x27 => 2
  | 0x28 => 2
  | 0x29 => 1
  | 0x2A => 1
  | 0x2B => 1
  | 0x2C => 1
  | 0x2D => 1
  | 0x2E => 1
  | 0x2F => 1
  | 0x30 => 1
  | 0x31 => 1
  | 0x32 => 2
  | 0x33 => 3
  | 0x34 => 2
  | 0x35 => 3
  | 0x36 => 2
  | 0x37 => 2
  | 0x38 => 2
  | 0x39 => 2
  | 0x3A => 2
  | 0x3B => 2
  | 0x3C => 2
  | 0x3D => 2
  | 0x3E => 2
  | 0x3F => 2
  | 0x40 => 2
  | 0x41 => 3
  | 0x42 => 2
  | 0x43 => 2
  | 0x44 => 3
  | 0x45 => 1
  | 0x46 => 0
  | 0x47 => 0
  | 0x48 => 1
  | 0x49 => 0
  | 0x4A => 0
  | 0x4B => 0
  | 0x4C => 0
  | 0x4D => 2
  | 0x4E => 2
  | 0x4F => 3
  | 0x50 => 0
  | 0x51 => 3
  | 0x52 => 3
  | 0x53 => 3
  | 0x54 => 3
  | 0x55 => 3
  | 0x56 => 3
  | 0x57 => 3
  | 0x58 => 3
  | 0x59 => 3
  | 0x5A => 3
  | 0x5B => 3
  | 0x5C => 2
  | 0x5D => 2
  | 0x5E => 2
  | 0x5F => 2
  | 0x60 => 2
  | 0x61 => 2
  | 0x62 => 2
  | 0x63 => 2
  | 0x64 => 2
  | 0x65 => 2
  | 0x66 => 2
  | 0x67 => 2
  | 0x68 => 2
  | 0x69 => 1
  | 0x6A => 1
  | 0x6B => 0
  | 0x6C => 3
  | 0x6D => 3
  | 0x6E => 3
  | 0x6F => 3
  | 0x70 => 3
  | 0x71 => 3
  | 0x72 => 3
  | 0x73 => 3
  | 0x74 => 3
  | 0x75 => 3
  | 0x76 => 3
  | 0x77 => 3
  | 0x78 => 3
  | 0x79 => 2
  | 0x7A => 2
  | 0x7B => 2
  | 0x7C => 2
  | 0x7D => 2
  | 0x7E => 1
  | 0x7F => 2
  | 0x80 => 2
  | 0x81 => 2
  | 0x82 => 2
  | 0x83 => 2
  | 0x84 => 2
  | 0x85 => 2
  | 0x86 => 2
  | 0x87 => 1
  | 0x88 => 0
  | 0x89 => 2
  | 0x8A => 2
  | 0x8B => 2
  | 0x8C => 2
  | 0x8D => 0
  | 0x8E => 1
  | 0x8F => 2
  | 0x90 => 3
  | 0x91 => 3
  | 0x92 => 3
  | 0x93 => 1
  | 0x94 => 2
  | 0x95 => 2
  | 0x96 => 3
  | 0x97 => 1
  | 0x98 => 1
  | 0x99 => 1
  | 0x9A => 1
  | 0x9B => 0
  | 0x9C => 1
  | 0x9D => 3
  | 0x9E => 1
  | 0x9F => 1
  | 0xA0 => 1
  | 0xA1 => 1
  | 0xA2 => 1
  | 0xA3 => 2
  | 0xA4 => 2
  | 0xA5 => 2
  | 0xA6 => 2
  | 0xA7 => 2
  | 0xA8 => 2
  | 0xA9 => 2
  | 0xAA => 2
  | 0xAB => 1
  | 0xAC => 1
  | 0xAD => 1
  | 0xAE => 1
  | 0xAF => 2
  | 0xB0 => 2
  | 0xB1 => 3
  | 0xB2 => 3
  | 0xB3 => 3
  | 0xB4 => 2
  | 0xB5 => 2
  | 0xB6 => 2
  | 0xB7 => 3
  | 0xB8 => 2
  | 0xB9 => 0
  | 0xBA => 2
  | 0xBB => 2
  | 0xBC => 2
  | 0xBD => 2
  | 0xBE => 2
  | 0xBF => 2
  | 0xC0 => 2
  | _ => 0

/-- size_hw of R36. -/
def sizeHw (code : Nat) : Nat :=
  match code with
  | 0 => 0 | 1 => 1 | 2 => 2 | _ => 4

/-- A head with its opcode, size code, field A and tail (R34, R41), in the order of R43: a reserved opcode, then the
format, then the operand values. -/
def decodeHead (op sz a t : Nat) : Except DecErr Instr :=
  if op = 0 ∨ 0xC1 ≤ op then .ok (.reservedOpcode (BitVec.ofNat 8 op))
  else if sz ≠ formSz op then .error .instrFormat
  else if op ≤ 0x50 then decodeScalar op a t
  else if op ≤ 0x80 then decodeVector op a t
  else if op ≤ 0x9E then decodeStream op a t
  else decodeEngine op a t

/-- A line: 512 bits, halfword 0 the lowest (R33). -/
abbrev Line := BitVec 512

/-- Halfword `j` of a line. -/
def Line.half (l : Line) (j : Nat) : Nat := bits l.toNat (16 * j) 16

/-- The size code of head `i` (R34). -/
def Line.headSz (l : Line) (i : Nat) : Nat := bits (l.half i) 6 2

/-- t(i) of R35: where the tail of head `i` starts; for i = 0 the end of the line. `none` where the tails do not fit. -/
def Line.tailStart (l : Line) : Nat → Option Nat
  | 0 => some 32
  | i + 1 =>
    match l.tailStart i with
    | none => none
    | some t => if sizeHw (l.headSz (i + 1)) ≤ t then some (t - sizeHw (l.headSz (i + 1))) else none

/-- check_line of R36: the number of heads, or none where the line is malformed. -/
def Line.check (l : Line) : Option Nat :=
  let n := l.half 0 % 32
  if n = 0 ∨ l.half 0 / 32 ≠ 0 then none
  else match l.tailStart n with
    | none => none
    | some top =>
      if top < n + 1 then none
      else if (List.range (top - (n + 1))).all (fun j => decide (l.half (n + 1 + j) = 0)) then some n
      else none

/-- The tail of head `i` as one number (R35). -/
def Line.tail (l : Line) (i : Nat) : Nat :=
  match l.tailStart i with
  | none => 0
  | some t => bits l.toNat (16 * t) (16 * sizeHw (l.headSz i))

/-- Head `i` of a line, decoded. -/
def Line.decode (l : Line) (i : Nat) : Except DecErr Instr :=
  decodeHead (bits (l.half i) 8 8) (l.headSz i) (bits (l.half i) 0 6) (l.tail i)

/-- Fields, each a value and the bit it starts at, put together. -/
def joinFields : List (Nat × Nat) → Nat
  | [] => 0
  | (x, lo) :: fs => x * 2 ^ lo + joinFields fs

/-- Opcode, field A and the tail put together from its fields. -/
def enc (op a : Nat) (fs : List (Nat × Nat)) : Option (Nat × Nat × Nat) := some (op, a, joinFields fs)

/-- The head and the tail of an instruction, by R34 and R41: opcode, field A and the tail as one number. -/
def encodeParts : Instr → Option (Nat × Nat × Nat)
  | .nop => enc 0x01 0 []
  | .halt => enc 0x02 0 []
  | .brk code => enc 0x03 0 [(code.toNat, 0)]
  | .trap code => enc 0x04 0 [(code.toNat, 0)]
  | .eret => enc 0x05 0 []
  | .fence sc i => enc 0x06 0 [(sc.toNat, 12), (i.toNat, 15)]
  | .chunkEnd => enc 0x07 0 []
  | .srr a num => enc 0x08 a.toNat [(num.toNat, 0)]
  | .srw a num => enc 0x09 a.toNat [(num.toNat, 0)]
  | .liI16 a imm => enc 0x0A a.toNat [(imm.toNat, 0)]
  | .liI32 a imm => enc 0x0B a.toNat [(imm.toNat, 0)]
  | .liI48 a imm => enc 0x0C a.toNat [(imm.toNat, 16)]
  | .liHi a imm => enc 0x0C a.toNat [(imm.toNat, 16), (1, 6)]
  | .leaBase a b imm => enc 0x0D a.toNat [(b.toNat, 0), (imm.toNat, 16)]
  | .leaPc a imm => enc 0x0D a.toNat [(imm.toNat, 16), (1, 6)]
  | .leaIndex a b c sh imm => enc 0x0E a.toNat [(b.toNat, 0), (c.toNat, 6), (sh.toNat, 12), (imm.toNat, 32)]
  | .leaPcIndex a c sh imm => enc 0x0E a.toNat [(c.toNat, 6), (sh.toNat, 12), (imm.toNat, 32), (1, 14)]
  | .addRr a b c => enc 0x0F a.toNat [(b.toNat, 0), (c.toNat, 6)]
  | .subRr a b c => enc 0x10 a.toNat [(b.toNat, 0), (c.toNat, 6)]
  | .andRr a b c => enc 0x11 a.toNat [(b.toNat, 0), (c.toNat, 6)]
  | .orRr a b c => enc 0x12 a.toNat [(b.toNat, 0), (c.toNat, 6)]
  | .xorRr a b c => enc 0x13 a.toNat [(b.toNat, 0), (c.toNat, 6)]
  | .shlRr a b c => enc 0x14 a.toNat [(b.toNat, 0), (c.toNat, 6)]
  | .shrRr a b c => enc 0x15 a.toNat [(b.toNat, 0), (c.toNat, 6)]
  | .sraRr a b c => enc 0x16 a.toNat [(b.toNat, 0), (c.toNat, 6)]
  | .minRr a b c => enc 0x17 a.toNat [(b.toNat, 0), (c.toNat, 6)]
  | .maxRr a b c => enc 0x18 a.toNat [(b.toNat, 0), (c.toNat, 6)]
  | .minuRr a b c => enc 0x19 a.toNat [(b.toNat, 0), (c.toNat, 6)]
  | .maxuRr a b c => enc 0x1A a.toNat [(b.toNat, 0), (c.toNat, 6)]
  | .addRi16 a b imm => enc 0x1B a.toNat [(b.toNat, 0), (imm.toNat, 16)]
  | .andRi16 a b imm => enc 0x1C a.toNat [(b.toNat, 0), (imm.toNat, 16)]
  | .orRi16 a b imm => enc 0x1D a.toNat [(b.toNat, 0), (imm.toNat, 16)]
  | .xorRi16 a b imm => enc 0x1E a.toNat [(b.toNat, 0), (imm.toNat, 16)]
  | .shlRi16 a b imm => enc 0x1F a.toNat [(b.toNat, 0), (imm.toNat, 16)]
  | .shrRi16 a b imm => enc 0x20 a.toNat [(b.toNat, 0), (imm.toNat, 16)]
  | .sraRi16 a b imm => enc 0x20 a.toNat [(b.toNat, 0), (imm.toNat, 16), (1, 7)]
  | .addRri32 a b imm => enc 0x21 a.toNat [(b.toNat, 0), (imm.toNat, 32)]
  | .andRri32 a b imm => enc 0x22 a.toNat [(b.toNat, 0), (imm.toNat, 32)]
  | .orRri32 a b imm => enc 0x23 a.toNat [(b.toNat, 0), (imm.toNat, 32)]
  | .xorRri32 a b imm => enc 0x24 a.toNat [(b.toNat, 0), (imm.toNat, 32)]
  | .cmpRr a b c cc => enc 0x25 a.toNat [(b.toNat, 0), (c.toNat, 6), (cc.toNat, 12)]
  | .cmpRi16 a b cc imm => enc 0x26 a.toNat [(b.toNat, 0), (cc.toNat, 6), (imm.toNat, 16)]
  | .bfx a b s p w1 => enc 0x27 a.toNat [(b.toNat, 0), (s.toNat, 6), (p.toNat, 16), (w1.toNat, 22)]
  | .bfi a b p w1 => enc 0x28 a.toNat [(b.toNat, 0), (p.toNat, 16), (w1.toNat, 22)]
  | .clz a b => enc 0x29 a.toNat [(b.toNat, 0)]
  | .popc a b => enc 0x2A a.toNat [(b.toNat, 0)]
  | .mul a b c => enc 0x2B a.toNat [(b.toNat, 0), (c.toNat, 6)]
  | .mulh a b c => enc 0x2C a.toNat [(b.toNat, 0), (c.toNat, 6)]
  | .mulhu a b c => enc 0x2D a.toNat [(b.toNat, 0), (c.toNat, 6)]
  | .div a b c => enc 0x2E a.toNat [(b.toNat, 0), (c.toNat, 6)]
  | .divu a b c => enc 0x2F a.toNat [(b.toNat, 0), (c.toNat, 6)]
  | .rem a b c => enc 0x30 a.toNat [(b.toNat, 0), (c.toNat, 6)]
  | .remu a b c => enc 0x31 a.toNat [(b.toNat, 0), (c.toNat, 6)]
  | .ldRi16 a b sz s nt imm => enc 0x32 a.toNat [(b.toNat, 0), (sz.toNat, 6), (s.toNat, 8), (nt.toNat, 9), (imm.toNat, 16)]
  | .ldRri32 a b c sz s nt sh imm => enc 0x33 a.toNat [(b.toNat, 0), (c.toNat, 6), (sz.toNat, 12), (s.toNat, 14), (nt.toNat, 15), (sh.toNat, 16), (imm.toNat, 32)]
  | .stRi16 a b sz nt imm => enc 0x34 a.toNat [(b.toNat, 0), (sz.toNat, 6), (nt.toNat, 9), (imm.toNat, 16)]
  | .stRri32 a b c sz nt sh imm => enc 0x35 a.toNat [(b.toNat, 0), (c.toNat, 6), (sz.toNat, 12), (nt.toNat, 15), (sh.toNat, 16), (imm.toNat, 32)]
  | .lda a b sz s sc imm => enc 0x36 a.toNat [(b.toNat, 0), (sz.toNat, 6), (s.toNat, 8), (sc.toNat, 9), (imm.toNat, 16)]
  | .stl a b sz sc imm => enc 0x37 a.toNat [(b.toNat, 0), (sz.toNat, 6), (sc.toNat, 9), (imm.toNat, 16)]
  | .aadd a b c dw sc => enc 0x38 a.toNat [(b.toNat, 0), (c.toNat, 6), (dw.toNat, 25), (sc.toNat, 27)]
  | .amin a b c dw u sc => enc 0x39 a.toNat [(b.toNat, 0), (c.toNat, 6), (dw.toNat, 25), (u.toNat, 26), (sc.toNat, 27)]
  | .amax a b c dw u sc => enc 0x3A a.toNat [(b.toNat, 0), (c.toNat, 6), (dw.toNat, 25), (u.toNat, 26), (sc.toNat, 27)]
  | .aand a b c dw sc => enc 0x3B a.toNat [(b.toNat, 0), (c.toNat, 6), (dw.toNat, 25), (sc.toNat, 27)]
  | .aor a b c dw sc => enc 0x3C a.toNat [(b.toNat, 0), (c.toNat, 6), (dw.toNat, 25), (sc.toNat, 27)]
  | .axor a b c dw sc => enc 0x3D a.toNat [(b.toNat, 0), (c.toNat, 6), (dw.toNat, 25), (sc.toNat, 27)]
  | .aswap a b c dw sc => enc 0x3E a.toNat [(b.toNat, 0), (c.toNat, 6), (dw.toNat, 25), (sc.toNat, 27)]
  | .acas a b c d dw sc => enc 0x3F a.toNat [(b.toNat, 0), (c.toNat, 6), (d.toNat, 12), (dw.toNat, 25), (sc.toNat, 27)]
  | .bRi16 a b cc imm => enc 0x40 a.toNat [(b.toNat, 0), (cc.toNat, 6), (imm.toNat, 16)]
  | .bRri32 a b cc imm => enc 0x41 a.toNat [(b.toNat, 0), (cc.toNat, 12), (imm.toNat, 32)]
  | .jal a imm => enc 0x42 a.toNat [(imm.toNat, 0)]
  | .jalr a b imm => enc 0x43 a.toNat [(b.toNat, 0), (imm.toNat, 16)]
  | .hstart a b c nw det imm => enc 0x44 a.toNat [(b.toNat, 0), (c.toNat, 6), (nw.toNat, 12), (det.toNat, 13), (imm.toNat, 32)]
  | .hjoin a b => enc 0x45 a.toNat [(b.toNat, 0)]
  | .hend => enc 0x46 0 []
  | .hyield => enc 0x47 0 []
  | .gang a size => enc 0x48 a.toNat [(size.toNat, 12)]
  | .split => enc 0x49 0 []
  | .phaseT => enc 0x4A 0 []
  | .phaseE => enc 0x4B 0 []
  | .tideRd a => enc 0x4C a.toNat []
  | .tideWait a b strict imm => enc 0x4D a.toNat [(b.toNat, 0), (strict.toNat, 6), (imm.toNat, 16)]
  | .waitmem a b sz imm => enc 0x4E a.toNat [(b.toNat, 0), (sz.toNat, 6), (imm.toNat, 16)]
  | .sendmsg a b c tag => enc 0x4F a.toNat [(b.toNat, 0), (c.toNat, 6), (tag.toNat, 32)]
  | .waitmsg => enc 0x50 0 []
  | .vadd a b c kp z rm t => enc 0x51 a.toNat [(b.toNat, 0), (c.toNat, 6), (kp.toNat, 24), (z.toNat, 27), (rm.toNat, 28), (t.toNat, 31)]
  | .vsub a b c kp z rm t => enc 0x52 a.toNat [(b.toNat, 0), (c.toNat, 6), (kp.toNat, 24), (z.toNat, 27), (rm.toNat, 28), (t.toNat, 31)]
  | .vmul a b c kp z rm t => enc 0x53 a.toNat [(b.toNat, 0), (c.toNat, 6), (kp.toNat, 24), (z.toNat, 27), (rm.toNat, 28), (t.toNat, 31)]
  | .vmin a b c kp z rm t => enc 0x55 a.toNat [(b.toNat, 0), (c.toNat, 6), (kp.toNat, 24), (z.toNat, 27), (rm.toNat, 28), (t.toNat, 31)]
  | .vmax a b c kp z rm t => enc 0x56 a.toNat [(b.toNat, 0), (c.toNat, 6), (kp.toNat, 24), (z.toNat, 27), (rm.toNat, 28), (t.toNat, 31)]
  | .vrcpe a b kp z rm t => enc 0x57 a.toNat [(b.toNat, 0), (kp.toNat, 24), (z.toNat, 27), (rm.toNat, 28), (t.toNat, 31)]
  | .vrsqe a b kp z rm t => enc 0x58 a.toNat [(b.toNat, 0), (kp.toNat, 24), (z.toNat, 27), (rm.toNat, 28), (t.toNat, 31)]
  | .vexp2 a b kp z rm t => enc 0x5A a.toNat [(b.toNat, 0), (kp.toNat, 24), (z.toNat, 27), (rm.toNat, 28), (t.toNat, 31)]
  | .vlog2 a b kp z rm t => enc 0x5B a.toNat [(b.toNat, 0), (kp.toNat, 24), (z.toNat, 27), (rm.toNat, 28), (t.toNat, 31)]
  | .vfma a b c d kp z rm t var wide h => enc 0x54 a.toNat [(b.toNat, 0), (c.toNat, 6), (d.toNat, 12), (kp.toNat, 24), (z.toNat, 27), (rm.toNat, 28), (t.toNat, 31), (var.toNat, 35), (wide.toNat, 37), (h.toNat, 38)]
  | .vrefn a b c kp z rm t var => enc 0x59 a.toNat [(b.toNat, 0), (c.toNat, 6), (kp.toNat, 24), (z.toNat, 27), (rm.toNat, 28), (t.toNat, 31), (var.toNat, 35)]
  | .viadd a b c kp z t => enc 0x5C a.toNat [(b.toNat, 0), (c.toNat, 6), (kp.toNat, 18), (z.toNat, 21), (t.toNat, 25)]
  | .visub a b c kp z t => enc 0x5D a.toNat [(b.toNat, 0), (c.toNat, 6), (kp.toNat, 18), (z.toNat, 21), (t.toNat, 25)]
  | .vimul a b c kp z t part => enc 0x5E a.toNat [(b.toNat, 0), (c.toNat, 6), (kp.toNat, 18), (z.toNat, 21), (t.toNat, 25), (part.toNat, 30)]
  | .vimin a b c kp z t u => enc 0x5F a.toNat [(b.toNat, 0), (c.toNat, 6), (kp.toNat, 18), (z.toNat, 21), (t.toNat, 25), (u.toNat, 29)]
  | .vimax a b c kp z t u => enc 0x60 a.toNat [(b.toNat, 0), (c.toNat, 6), (kp.toNat, 18), (z.toNat, 21), (t.toNat, 25), (u.toNat, 29)]
  | .vishl a b c kp z t => enc 0x61 a.toNat [(b.toNat, 0), (c.toNat, 6), (kp.toNat, 18), (z.toNat, 21), (t.toNat, 25)]
  | .vishr a b c kp z t u => enc 0x62 a.toNat [(b.toNat, 0), (c.toNat, 6), (kp.toNat, 18), (z.toNat, 21), (t.toNat, 25), (u.toNat, 29)]
  | .vand a b c kp z t => enc 0x63 a.toNat [(b.toNat, 0), (c.toNat, 6), (kp.toNat, 18), (z.toNat, 21), (t.toNat, 25)]
  | .vor a b c kp z t => enc 0x64 a.toNat [(b.toNat, 0), (c.toNat, 6), (kp.toNat, 18), (z.toNat, 21), (t.toNat, 25)]
  | .vxor a b c kp z t => enc 0x65 a.toNat [(b.toNat, 0), (c.toNat, 6), (kp.toNat, 18), (z.toNat, 21), (t.toNat, 25)]
  | .vcmp a b c kp z rm cc ft => enc 0x66 a.toNat [(b.toNat, 0), (c.toNat, 6), (kp.toNat, 18), (z.toNat, 21), (rm.toNat, 22), (cc.toNat, 25), (ft.toNat, 29)]
  | .vicmp a b c kp z cc w => enc 0x67 a.toNat [(b.toNat, 0), (c.toNat, 6), (kp.toNat, 18), (z.toNat, 21), (cc.toNat, 25), (w.toNat, 29)]
  | .kwhile a b c w u => enc 0x68 a.toNat [(b.toNat, 0), (c.toNat, 6), (w.toNat, 25), (u.toNat, 27)]
  | .kand a b c => enc 0x69 a.toNat [(b.toNat, 0), (c.toNat, 6)]
  | .kor a b c => enc 0x69 a.toNat [(b.toNat, 0), (c.toNat, 6), (1, 12)]
  | .kxor a b c => enc 0x69 a.toNat [(b.toNat, 0), (c.toNat, 6), (2, 12)]
  | .kandn a b c => enc 0x69 a.toNat [(b.toNat, 0), (c.toNat, 6), (3, 12)]
  | .kmov a b => enc 0x6A a.toNat [(b.toNat, 0)]
  | .knot a b => enc 0x6A a.toNat [(b.toNat, 0), (1, 12)]
  | .kcnt a b w => enc 0x6A a.toNat [(b.toNat, 0), (w.toNat, 14), (2, 12)]
  | .vwidth a => enc 0x6B a.toNat []
  | .vld a b kp z t nt imm => enc 0x6C a.toNat [(b.toNat, 0), (kp.toNat, 12), (z.toNat, 15), (t.toNat, 16), (nt.toNat, 20), (imm.toNat, 32)]
  | .vst a b kp t nt imm => enc 0x6D a.toNat [(b.toNat, 0), (kp.toNat, 12), (t.toNat, 16), (nt.toNat, 20), (imm.toNat, 32)]
  | .vlds a b c kp z t nt imm => enc 0x6E a.toNat [(b.toNat, 0), (c.toNat, 6), (kp.toNat, 12), (z.toNat, 15), (t.toNat, 16), (nt.toNat, 20), (imm.toNat, 32)]
  | .vsts a b c kp t nt imm => enc 0x6F a.toNat [(b.toNat, 0), (c.toNat, 6), (kp.toNat, 12), (t.toNat, 16), (nt.toNat, 20), (imm.toNat, 32)]
  | .vgath a b c kp z t nt sh imm => enc 0x70 a.toNat [(b.toNat, 0), (c.toNat, 6), (kp.toNat, 12), (z.toNat, 15), (t.toNat, 16), (nt.toNat, 20), (sh.toNat, 21), (imm.toNat, 32)]
  | .vscat a b c kp t nt sh imm => enc 0x71 a.toNat [(b.toNat, 0), (c.toNat, 6), (kp.toNat, 12), (t.toNat, 16), (nt.toNat, 20), (sh.toNat, 21), (imm.toNat, 32)]
  | .vcvt a b kp z rm ts td p u => enc 0x72 a.toNat [(b.toNat, 0), (kp.toNat, 24), (z.toNat, 27), (rm.toNat, 28), (ts.toNat, 31), (td.toNat, 35), (p.toNat, 39), (u.toNat, 42)]
  | .vpack a b d kp z rm ts td p u => enc 0x73 a.toNat [(b.toNat, 0), (d.toNat, 12), (kp.toNat, 24), (z.toNat, 27), (rm.toNat, 28), (ts.toNat, 31), (td.toNat, 35), (p.toNat, 39), (u.toNat, 42)]
  | .vunpk a b d kp z rm ts td p u => enc 0x74 a.toNat [(b.toNat, 0), (d.toNat, 12), (kp.toNat, 24), (z.toNat, 27), (rm.toNat, 28), (ts.toNat, 31), (td.toNat, 35), (p.toNat, 39), (u.toNat, 42)]
  | .vdotf8 a b c kp rm ta tb j => enc 0x75 a.toNat [(b.toNat, 0), (c.toNat, 6), (kp.toNat, 24), (rm.toNat, 28), (ta.toNat, 31), (tb.toNat, 35), (j.toNat, 39)]
  | .vdoti8 a b c kp ta tb j => enc 0x76 a.toNat [(b.toNat, 0), (c.toNat, 6), (kp.toNat, 24), (ta.toNat, 31), (tb.toNat, 35), (j.toNat, 39)]
  | .vred a b kp rm t o j => enc 0x77 a.toNat [(b.toNat, 0), (kp.toNat, 24), (rm.toNat, 28), (t.toNat, 31), (o.toNat, 35), (j.toNat, 37)]
  | .vscan a b kp z rm t o => enc 0x78 a.toNat [(b.toNat, 0), (kp.toNat, 24), (z.toNat, 27), (rm.toNat, 28), (t.toNat, 31), (o.toNat, 35)]
  | .vperm a b c d kp z t two => enc 0x79 a.toNat [(b.toNat, 0), (c.toNat, 6), (d.toNat, 12), (kp.toNat, 18), (z.toNat, 21), (t.toNat, 25), (two.toNat, 29)]
  | .vbcast a b c kp z t el => enc 0x7A a.toNat [(b.toNat, 0), (c.toNat, 6), (kp.toNat, 18), (z.toNat, 21), (t.toNat, 25), (el.toNat, 29)]
  | .vsel a b c kp t => enc 0x7B a.toNat [(b.toNat, 0), (c.toNat, 6), (kp.toNat, 18), (t.toNat, 25)]
  | .vpeer a b mode imm => enc 0x7C a.toNat [(b.toNat, 0), (mode.toNat, 6), (imm.toNat, 16)]
  | .vhist b kp t => enc 0x7D 0 [(b.toNat, 0), (kp.toNat, 18), (t.toNat, 25)]
  | .vseedRd a => enc 0x7E a.toNat []
  | .vseedWr b => enc 0x7E 0 [(b.toNat, 0), (1, 12)]
  | .vseedXchg a b => enc 0x7E a.toNat [(b.toNat, 0), (2, 12)]
  | .vext a b t s idx => enc 0x7F a.toNat [(b.toNat, 0), (t.toNat, 6), (s.toNat, 10), (idx.toNat, 16)]
  | .vins a b t idx => enc 0x80 a.toNat [(b.toNat, 0), (t.toNat, 6), (idx.toNat, 16)]
  | .bbGet a b r s imm => enc 0x81 a.toNat [(b.toNat, 0), (r.toNat, 6), (s.toNat, 7), (imm.toNat, 16)]
  | .bbPeek a b r s imm => enc 0x82 a.toNat [(b.toNat, 0), (r.toNat, 6), (s.toNat, 7), (imm.toNat, 16)]
  | .bbSkip b r imm => enc 0x83 0 [(b.toNat, 0), (r.toNat, 6), (imm.toNat, 16)]
  | .bbFill a => enc 0x84 a.toNat []
  | .bbDec a imm => enc 0x85 a.toNat [(imm.toNat, 16)]
  | .bbSave b imm => enc 0x86 0 [(b.toNat, 0), (imm.toNat, 16)]
  | .bbRest b imm => enc 0x86 0 [(b.toNat, 0), (imm.toNat, 16), (1, 6)]
  | .xreq a b => enc 0x87 a.toNat [(b.toNat, 0)]
  | .xstat a => enc 0x88 a.toNat []
  | .launch a b q => enc 0x89 a.toNat [(b.toNat, 0), (q.toNat, 16)]
  | .evwait a b sc imm => enc 0x8A a.toNat [(b.toNat, 0), (sc.toNat, 6), (imm.toNat, 16)]
  | .evsig a b sc imm => enc 0x8B a.toNat [(b.toNat, 0), (sc.toNat, 6), (imm.toNat, 16)]
  | .lqstat a q => enc 0x8C a.toNat [(q.toNat, 16)]
  | .yieldOp => enc 0x8D 0 []
  | .sync a lv => enc 0x8E a.toNat [(lv.toNat, 0)]
  | .dtake a t => enc 0x8F a.toNat [(t.toNat, 16)]
  | .dplaceStart a b c l => enc 0x90 a.toNat [(b.toNat, 0), (c.toNat, 6), (l.toNat, 32)]
  | .dplacePreq a b c l => enc 0x90 a.toNat [(b.toNat, 0), (c.toNat, 6), (l.toNat, 32), (1, 12)]
  | .dplaceSave a b c l => enc 0x90 a.toNat [(b.toNat, 0), (c.toNat, 6), (l.toNat, 32), (2, 12)]
  | .dplaceRest a b c l => enc 0x90 a.toNat [(b.toNat, 0), (c.toNat, 6), (l.toNat, 32), (3, 12)]
  | .dplaceKill a b c l => enc 0x90 a.toNat [(b.toNat, 0), (c.toNat, 6), (l.toNat, 32), (4, 12)]
  | .cpyPk a b c nt tag => enc 0x91 a.toNat [(b.toNat, 0), (c.toNat, 6), (nt.toNat, 14), (tag.toNat, 32)]
  | .cpyLand a b c nt tag => enc 0x91 a.toNat [(b.toNat, 0), (c.toNat, 6), (nt.toNat, 14), (tag.toNat, 32), (1, 12)]
  | .cpyRec a b c nt tag => enc 0x91 a.toNat [(b.toNat, 0), (c.toNat, 6), (nt.toNat, 14), (tag.toNat, 32), (2, 12)]
  | .cpyLoop a b c nt tag => enc 0x92 a.toNat [(b.toNat, 0), (c.toNat, 6), (nt.toNat, 14), (tag.toNat, 32)]
  | .cpycan a b => enc 0x93 a.toNat [(b.toNat, 0)]
  | .landAcq a b r chk nw => enc 0x94 a.toNat [(b.toNat, 0), (r.toNat, 6), (chk.toNat, 10), (nw.toNat, 11)]
  | .landRel b r => enc 0x95 0 [(b.toNat, 0), (r.toNat, 6)]
  | .landInit a b c r => enc 0x96 a.toNat [(b.toNat, 0), (c.toNat, 6), (r.toNat, 12)]
  | .halloc a b c nt => enc 0x97 a.toNat [(b.toNat, 0), (c.toNat, 6), (nt.toNat, 12)]
  | .hfree a b => enc 0x98 a.toNat [(b.toNat, 0)]
  | .hbump a b c => enc 0x99 a.toNat [(b.toNat, 0), (c.toNat, 6)]
  | .jpeek a b => enc 0x9A a.toNat [(b.toNat, 0)]
  | .jdrop => enc 0x9B 0 []
  | .bget a nw => enc 0x9C a.toNat [(nw.toNat, 12)]
  | .bstreamMove a b c d => enc 0x9D a.toNat [(b.toNat, 0), (c.toNat, 6), (d.toNat, 12)]
  | .bstreamOwner a => enc 0x9D a.toNat [(1, 31)]
  | .bstreamFwd b => enc 0x9D 0 [(b.toNat, 0), (2, 31)]
  | .blandWait a b => enc 0x9E a.toNat [(b.toNat, 0)]
  | .blandFill b => enc 0x9E 0 [(b.toNat, 0), (1, 12)]
  | .blandDone b c => enc 0x9E 0 [(b.toNat, 0), (c.toNat, 6), (2, 12)]
  | .pjob a b => enc 0x9F a.toNat [(b.toNat, 0)]
  | .ppoll a b => enc 0xA0 a.toNat [(b.toNat, 0)]
  | .pwait a b => enc 0xA1 a.toNat [(b.toNat, 0)]
  | .pcan a b => enc 0xA2 a.toNat [(b.toNat, 0)]
  | .pheatSet a b => enc 0xA3 a.toNat [(b.toNat, 0)]
  | .pheatAdd a b => enc 0xA3 a.toNat [(b.toNat, 0), (1, 6)]
  | .pmonRing a b => enc 0xA4 a.toNat [(b.toNat, 0)]
  | .pmonBank a b => enc 0xA4 a.toNat [(b.toNat, 0), (1, 6)]
  | .pmonTemp a b => enc 0xA4 a.toNat [(b.toNat, 0), (2, 6)]
  | .psettle a b go t => enc 0xA5 a.toNat [(b.toNat, 0), (go.toNat, 6), (t.toNat, 16)]
  | .pcalFull a => enc 0xA6 a.toNat []
  | .pcalOfs a => enc 0xA6 a.toNat [(1, 6)]
  | .pmapRd a b => enc 0xA7 a.toNat [(b.toNat, 0)]
  | .pmapSwap a b => enc 0xA7 a.toNat [(b.toNat, 0), (1, 6)]
  | .pmapIdent a b => enc 0xA7 a.toNat [(b.toNat, 0), (2, 6)]
  | .pstat a sel => enc 0xA8 a.toNat [(sel.toNat, 16)]
  | .prowgoDrop => enc 0xA9 0 []
  | .prowgoMem => enc 0xA9 0 [(1, 6)]
  | .prowgoLand b => enc 0xA9 0 [(b.toNat, 0), (2, 6)]
  | .paccRdN a b => enc 0xAA a.toNat [(b.toNat, 0)]
  | .paccRdP a b => enc 0xAA a.toNat [(b.toNat, 0), (1, 6)]
  | .towEnter a b c => enc 0xAB a.toNat [(b.toNat, 0), (c.toNat, 6)]
  | .towExit a b => enc 0xAC a.toNat [(b.toNat, 0)]
  | .towStat a b => enc 0xAD a.toNat [(b.toNat, 0)]
  | .towWait a b => enc 0xAE a.toNat [(b.toNat, 0)]
  | .fenrol a b att nent => enc 0xAF a.toNat [(b.toNat, 0), (att.toNat, 6), (nent.toNat, 16)]
  | .fleave a att => enc 0xB0 a.toNat [(att.toNat, 6)]
  | .frb a b c rm ent att => enc 0xB1 a.toNat [(b.toNat, 0), (c.toNat, 6), (rm.toNat, 12), (ent.toNat, 32), (att.toNat, 42)]
  | .fmax a b c ent att => enc 0xB2 a.toNat [(b.toNat, 0), (c.toNat, 6), (ent.toNat, 32), (att.toNat, 42)]
  | .fmin a b c ent att => enc 0xB3 a.toNat [(b.toNat, 0), (c.toNat, 6), (ent.toNat, 32), (att.toNat, 42)]
  | .fpop a att => enc 0xB4 a.toNat [(att.toNat, 6)]
  | .falign a att t => enc 0xB5 a.toNat [(att.toNat, 6), (t.toNat, 16)]
  | .fstat a att sel => enc 0xB6 a.toNat [(att.toNat, 6), (sel.toNat, 16)]
  | .femitTake a => enc 0xB7 a.toNat []
  | .femitLoad a b => enc 0xB7 a.toNat [(b.toNat, 0), (1, 31)]
  | .femitFrame a b => enc 0xB7 a.toNat [(b.toNat, 0), (2, 31)]
  | .femitDone a b => enc 0xB7 a.toNat [(b.toNat, 0), (3, 31)]
  | .fcountRd a b c => enc 0xB8 a.toNat [(b.toNat, 0), (c.toNat, 6)]
  | .fcountEl a b => enc 0xB8 a.toNat [(b.toNat, 0), (1, 25)]
  | .fcountEx a b => enc 0xB8 a.toNat [(b.toNat, 0), (2, 25)]
  | .rtv a => enc 0xB9 a.toNat []
  | .lnkst a b p sel => enc 0xBA a.toNat [(b.toNat, 0), (p.toNat, 6), (sel.toNat, 16)]
  | .ttselSw a b sw v => enc 0xBB a.toNat [(b.toNat, 0), (sw.toNat, 7), (v.toNat, 11)]
  | .ttselSeg a att ttv => enc 0xBB a.toNat [(att.toNat, 7), (ttv.toNat, 16), (1, 6)]
  | .pilotst a p => enc 0xBC a.toNat [(p.toNat, 6)]
  | .trcRdEnt a i => enc 0xBD a.toNat [(i.toNat, 16)]
  | .trcRdCnt a => enc 0xBD a.toNat [(1, 6)]
  | .trcRdClr a => enc 0xBD a.toNat [(2, 6)]
  | .imbRd a dw st i => enc 0xBE a.toNat [(dw.toNat, 6), (st.toNat, 8), (i.toNat, 16)]
  | .dbgsigHalt => enc 0xBF 0 []
  | .dbgsigTrig => enc 0xBF 0 [(1, 6)]
  | .dbgsigMark v => enc 0xBF 0 [(v.toNat, 16), (2, 6)]
  | .dumpst a sel => enc 0xC0 a.toNat [(sel.toNat, 16)]
  | .reservedOpcode _ => none
  | .lineFetch => none
  | .asyncTrapDelivery => none
  | .tpinWrite => none
  | .hbindWrite => none
  | .timedPhaseEntry => none
  | .waitmemWake => none
  | .waitmemTimeout => none
  | .barrierRelease => none
  | .meshPush => none
  | .meshPop => none
  | .qcPush => none
  | .qcPop => none
  | .jetRead => none
  | .prowRead => none
  | .xqPush => none
  | .xqPop => none
  | .qxPush => none
  | .qxPop => none
  | .localArrival => none
  | .chunkCommit => none
  | .vectorStorePart => none
  | .transformClaimLapse => none
  | .transformDecodeChunk => none
  | .decoderWatchdogCutoff => none
  | .transformTranspose => none
  | .transformConvert => none
  | .transformResponse => none
  | .evwaitWake => none
  | .engineKickAccept => none
  | .engineHartFaultStop => none
  | .engineHartWake => none
  | .doorbell => none
  | .klnidKill => none
  | .launchRecordTake => none
  | .launchPlacement => none
  | .launchRetirement => none
  | .timeSliceExpiry => none
  | .preemptionMark => none
  | .preemptionGraceExpiry => none
  | .launchRestore => none
  | .launchKill => none
  | .killComplete => none
  | .bargeForward => none
  | .bargeCopy => none
  | .loopIteration => none
  | .jobStart => none
  | .tileLoad => none
  | .tileStream => none
  | .rowDispatch => none
  | .jobComplete => none
  | .jobFailure => none
  | .jobPark => none
  | .driftEstimate => none
  | .bankSettled => none
  | .pthrsWrite => none
  | .sequencerRetune => none
  | .towSessionStart => none
  | .towWtile => none
  | .towRun => none
  | .towPromote => none
  | .towDrain => none
  | .towRoute => none
  | .towSync => none
  | .towBranch => none
  | .towCall => none
  | .towRet => none
  | .towExitBlock => none
  | .towReservedBlock => none
  | .towStop => none
  | .towPark => none
  | .towCompletion => none
  | .fordRequestTake => none
  | .fordFrame => none
  | .fordComplete => none
  | .fordTowHandover => none
  | .fordCensus => none
  | .fordReformNotice => none
  | .fordReformApply => none
  | .fordFallbackCollective => none
  | .fordFallbackTimeout => none
  | .fsegctlWrite => none
  | .packetForward => none
  | .remoteAccessTimeout => none
  | .remoteStoreAck => none
  | .remoteStoreLost => none
  | .routeCommit => none
  | .switchHoldDrain => none
  | .switchDark => none
  | .switchRelock => none
  | .switchCommit => none
  | .tideTick => none
  | .tideSample => none
  | .codewordReceive => none
  | .portRetrain => none
  | .portRetrainTimeout => none
  | .lhstClear => none
  | .pkick => none
  | .pilotWatchdogReset => none
  | .pilotRestart => none
  | .pilotShadowUpdate => none
  | .clusterHalt => none
  | .crossTriggerReceive => none
  | .tdgo => none
  | .debugWindowAccess => none
  | .coreDumpWrite => none
  | .hostBar2Access => none
  | .registerWrite => none
  | .fcenEnable => none
  | .fcenDisable => none
  | .translationInvalidate => none
  | .slicePartition => none
  | .alogcWrite => none
  | .ectlGo => none
  | .ectlRst => none
  | .efpop => none
  | .deviceReset => none
  | .getVersion => none
  | .getCapabilities => none
  | .negotiateAlgorithms => none
  | .getDigests => none
  | .getCertificate => none
  | .challenge => none
  | .getMeasurements => none
  | .gofull => none
  | .cfenceCluster => none
  | .cfencePontoon => none
  | .powerCapCheck => none
  | .thermalStateChange => none
  | .pcalComplete => none
  | .falignTrained => none
  | .portUp => none
  | .settleTimeout => none

/-- The first `n` halfwords of `x`, lowest first. -/
def halves : Nat → Nat → List (BitVec 16)
  | 0, _ => []
  | n + 1, x => BitVec.ofNat 16 x :: halves n (x / 2 ^ 16)

/-- The number whose halfwords, lowest first, these are. -/
def joinHalves : List (BitVec 16) → Nat
  | [] => 0
  | h :: hs => h.toNat + 2 ^ 16 * joinHalves hs

/-- The halfwords of an instruction: its head, then its tail (R34, R41). A step that no head encodes has none. -/
def encode (i : Instr) : List (BitVec 16) :=
  match encodeParts i with
  | none => []
  | some (op, a, t) =>
    BitVec.ofNat 16 (op * 2 ^ 8 + formSz op * 2 ^ 6 + a) :: halves (sizeHw (formSz op)) t

/-- The instruction of a head and its tail, given as halfwords; the tail is as long as the head's size code says. -/
def decodeHalves (hs : List (BitVec 16)) : Except DecErr Instr :=
  match hs with
  | [] => .error .instrFormat
  | h :: t =>
    if t.length = sizeHw (bits h.toNat 6 2) then
      decodeHead (bits h.toNat 8 8) (bits h.toNat 6 2) (bits h.toNat 0 6) (joinHalves t)
    else .error .instrFormat

/-- A line of these heads: the descriptor, the heads in order, zeros, and the tails, the first at the end (R34, R35). None where they
do not fit in the 32 halfwords (R36), or one of them has no encoding. -/
def packLine (is : List Instr) : Option Line :=
  let hs := is.map encode
  let tails := (hs.map List.tail).reverse.flatten
  let used := 1 + is.length + tails.length
  if is.length = 0 ∨ 31 < is.length ∨ 32 < used ∨ hs.any (·.isEmpty) = true then none
  else some (BitVec.ofNat 512 (joinHalves
    (BitVec.ofNat 16 is.length :: (hs.map fun h => h.headD 0) ++ List.replicate (32 - used) 0 ++ tails)))

/-- The lines that instructions in source order are packed into: a line is closed where it holds 31 heads or the next head with its
tail would exceed 32 halfwords (R58). `held` are the heads of the open line, last first. -/
def packLines (held : List Instr) : List Instr → List Line
  | [] => if held.isEmpty then [] else (packLine held.reverse).toList
  | i :: is =>
    let tails := (held.map fun j => (encode j).length - 1).foldl (· + ·) 0
    if held.length = 31 ∨ 32 < 1 + (held.length + 1) + tails + ((encode i).length - 1) then
      (packLine held.reverse).toList ++ packLines [i] is
    else packLines (i :: held) is

/-- A line of one head: the descriptor with N = 1, the head at halfword 1 and its tail ending at halfword 31. The bits
of `w` are the head and then the tail, as the table of operations numbers them. -/
def lineOfWord (w : Nat) : Line :=
  let hw := sizeHw (bits w 6 2)
  BitVec.ofNat 512 (1 + bits w 0 16 * 2 ^ 16 + bits w 16 (16 * hw) * 2 ^ (16 * (32 - hw)))

/-- The instruction the decoder reads from the word `w`, whose bits above `nbits` are zero. -/
def decodeTableWord (nbits w : Nat) : Option Instr :=
  let l := lineOfWord (w % 2 ^ nbits)
  match l.check with
  | none => none
  | some _ =>
    match l.decode 1 with
    | .ok i => some i
    | .error _ => none

end Sys2Proof
end

