-- ==== Sys2Proof/Machine/State.lean ====
section
/-!
DEFINITION. The state of one GX-740 package, as plain data: everything the spec gives the machine, and the model's
own fields, which log entry 2 names.

Contexts and engine harts stand in one map, keyed by the requester identifier of R127: context slot k of global core g
is 11 * g + k, and the hart with hart index h (R22) is 1,126,400 + h.

Marks (notes/assumptions): DESIGN CHOICE (unsafe) 1, 32; DESIGN CHOICE (safe) 5, 6, 7; DEDUCED (safe) 14.
-/

namespace Sys2Proof.Machine

/-- Why a step is no step of the machine (model's own; safe). -/
inductive Fault where
  /-- Raised by `step`: the first turn of the agenda is not a step that comes from outside the heads. Safe: the
  hardware has no such step. -/
  | badTurn
  /-- Raised by `step`: a turn names an agent the package does not have. Safe: the hardware has no such agent. -/
  | noSuchAgent
  deriving DecidableEq, Repr

/-- Why an instruction has no meaning. -/
inductive Refusal where
  /-- Raised by `exec`'s arms for a row that has no meaning yet. Safe: the run stops. -/
  | notModelled (mnemonic : String)
  deriving DecidableEq, Repr

/-- The state of a context slot (R132). -/
inductive SlotState where
  | free | live | ended
  deriving DecidableEq, Repr, Inhabited

/-- The bit-buffer of a context (R252, R253). -/
structure BitBuf where
  buf : BitVec 128 := 0
  cnt : Nat := 0
  reg : Bool := false
  und : Bool := false
  ptr : BitVec 18 := 0
  lim : BitVec 18 := 0
  tabBase : BitVec 18 := 0
  tabReg : Bool := false
  deriving DecidableEq, Repr, Inhabited

/-- What a chunk's checkpoint covers (R120). -/
structure Regs where
  pc : Word := 0
  g : Vector Word 48 := Vector.replicate 48 0
  v : Vector (BitVec 512) 32 := Vector.replicate 32 0
  k : Vector (BitVec 64) 8 := Vector.replicate 8 0
  vres : Word := 0
  fcsr : Word := 0
  srseed : Word := 0
  srctr : Word := 0
  bb : BitBuf := {}
  deriving DecidableEq, Repr, Inhabited

/-- An open chunk (R120 to R124). -/
structure Chunk where
  /-- The checkpoint: the registers of the context, and of every member of a gang. -/
  ckpt : List (Nat × Regs)
  /-- Heads executed in the chunk. -/
  heads : Nat := 0
  /-- The Tide value at the chunk's first head (R123). -/
  age : Word := 0
  /-- Physical 32-byte lines read. -/
  reads : List Nat := []
  /-- 32-byte lines written, own-TCM lines included (R121). -/
  writes : List Nat := []
  /-- Stores held back until commit. -/
  held : FMap Byte := []
  /-- The virtual line of each physical line of a held store to global memory (R459). -/
  vas : FMap Nat := []
  /-- Histogram counts held until commit: (core, bin) and the count (R222). -/
  hist : List (Nat × Nat) := []
  deriving DecidableEq, Repr, Inhabited

/-- What a timed phase's instruction writes when its latency has passed (R141). -/
inductive RegWrite where
  | g (n : Nat) (x : Word)
  /-- A general register, written by a vector instruction (R225). -/
  | vg (n : Nat) (x : Word)
  | v (n : Nat) (mask x : BitVec 512)
  | k (n : Nat) (mask x : BitVec 64)
  | flags (f : Word)
  | jhi (x : Word)
  | bbSet (b : BitBuf)
  | bbAppend (bytes : Nat) (n : Nat)
  | bbTake (k : Nat) (und : Bool)
  | hist (core : Nat) (bins : List Nat)
  /-- In a replay queue: the parts of a split store that have not committed (R224, R225). -/
  | parts
  deriving DecidableEq, Repr

/-- A write as numbers, for the images that hold it (R226). -/
def RegWrite.nums : RegWrite → List Nat
  | .g n x => [0, n, x.toNat]
  | .vg n x => [1, n, x.toNat]
  | .v n m x => [2, n, m.toNat, x.toNat]
  | .k n m x => [3, n, m.toNat, x.toNat]
  | .flags f => [4, f.toNat]
  | .jhi x => [5, x.toNat]
  | .bbSet b => [6, b.buf.toNat, b.cnt]
  | .bbAppend x n => [7, x, n]
  | .bbTake n u => [8, n, u.toNat]
  | .hist c bins => 9 :: c :: bins
  | .parts => [10]

/-- A result in flight in a timed phase (R141): when it is written, when its instruction issued, and the write. -/
structure Flying where
  due : Nat
  issued : Nat
  w : RegWrite
  deriving DecidableEq, Repr

/-- A remote store that is not acknowledged: its address, the Tide value of its sending, and whether it is lost (R425). -/
structure RemoteStore where
  va : Word := 0
  sent : Word := 0
  lost : Bool := false
  /-- Of an engine's hart: the slot of the request whose store it is. -/
  key : Nat := 0
  /-- The function whose translation it went by (R113). -/
  vf : Nat := 0
  deriving DecidableEq, Repr, Inhabited

/-- What a context or a hart waits for, between the head's issue and its completion. -/
inductive Wait where
  | idle
  /-- TIDE.WAIT, issued at this Tide value (R177). -/
  | tide (since : Word)
  /-- WAITMEM: the watched line, the deadline, and whether a later chunk has written the line (R179). -/
  | mem (line : Nat) (deadline : Word) (hit : Bool)
  /-- WAITMSG (R181). -/
  | msg
  /-- SYNC: arrived at a level and domain at a Tide value (R178). -/
  | sync (lv dom : Nat) (arrival : Word)
  /-- SYNC: released at this Tide value. -/
  | released (cycle : Word)
  /-- After HYIELD: until this Tide value, or until every other ready context has issued; the slots that have (R171). -/
  | yield (deadline : Word) (slots : List Nat)
  /-- GANG with this size code and destination field (R173). -/
  | gang (size : Nat) (dst : BitVec 6)
  /-- PHASE.T: its conditions do not hold yet (R175). -/
  | phase
  /-- A vector store between two of its parts (R125, R224). -/
  | parts
  /-- A gang's push to qc: this member's item has been accepted, another member's has not (R145). -/
  | pushed
  /-- EVWAIT on a line; whether a commit has written it (R247). -/
  | ev (line : Nat) (hit : Bool)
  /-- A head with remote accesses: its issue cycle, whether a packet waits for its answer, the answers so far, the
  address of the access in hand (R149, R424). -/
  | remote (since : Word) (sent : Bool) (answers : List Nat) (va : Word)
  /-- Parked at a YIELD for pre-emption (R241, R249). -/
  | parked
  /-- An engine hart idle in HALT (R62). -/
  | hartIdle
  /-- An instruction that waits for an engine: since this Tide value. -/
  | engine (since : Word)
  /-- An instruction that no asynchronous trap interrupts (R348, R415): since this Tide value. -/
  | busy (since : Word)
  deriving DecidableEq, Repr, Inhabited

/-- A row of a Pontoon job or tow session held by a row-drain helper (R148, R334). -/
structure RowRef where
  cluster : Nat := 0
  row : Nat := 0
  reads : Nat := 0
  values : List (BitVec 32) := []
  released : Bool := false
  /-- The landing stage bound to the row: ring and stage (R333). -/
  land : Option (Nat × Nat) := none
  /-- The job or session: the requester and the identifier. -/
  owner : Nat := 0
  rid : Word := 0
  tow : Bool := false
  deriving DecidableEq, Repr, Inhabited

/-- A request record as it stands in a request buffer or a queue entry of an engine (R21, R22, R32): the instruction
(its opcode and the selector of its row), who issued it, its sequence number, the register operands, the record of a
vector register, and what is captured at the kick. -/
structure Request where
  op : Nat := 0
  sel : Nat := 0
  q : Nat := 0
  vf : Nat := 0
  ln : Nat := 0
  seq : Nat := 0
  args : List Word := []
  vrec : BitVec 512 := 0
  /-- The rounding mode captured, as a code of R44 (R328). -/
  mode : Nat := 0
  /-- Window control of the kicking core (R93). -/
  win : FMap Word := []
  fcsr : Word := 0
  srseed : Word := 0
  srctr : Word := 0
  /-- The completion goes to memory at this address, not to a Jetty (R406). -/
  toMem : Option Word := none
  /-- The request identifier returned (R299, R328, R357, R413). -/
  rid : Word := 0
  tag : Nat := 0
  nt : Bool := false
  /-- base′ of the source record and of the destination record, and the handle slots counted (R286, R294). -/
  base : Word := 0
  base2 : Word := 0
  handles : List Nat := []
  /-- Forwarded by the home Barge; restored; cancelled; killed; pre-emption pending (R281, R303, R304, R319). -/
  fwd : Bool := false
  restored : Bool := false
  canc : Bool := false
  killed : Bool := false
  park : Bool := false
  /-- The next iteration of a looping copy, and the stage a copy is writing (R300, R301). -/
  iter : Nat := 0
  bound : Option Nat := none
  /-- The iteration from which the n of a restored copy's loop word counts (R304). -/
  first : Nat := 0
  /-- The ring checked at issue (R308). -/
  ring : Option Nat := none
  /-- Window elements done of the iteration in hand (R125), and the status and count of a copy whose remote stores are not all
  acknowledged (R26, R425). -/
  next : Nat := 0
  fin : Option (Nat × Nat) := none
  deriving DecidableEq, Repr, Inhabited

/-- What an engine hart holds: its request queue and its forward queue, the requests in hand by slot, and the slot that
its microcode acts on (R282, R283, R317). -/
structure Engine where
  queue : List Request := []
  fwd : List Request := []
  slots : FMap Request := []
  sel : Nat := 0
  /-- The last request was taken from the forward queue. -/
  lastFwd : Bool := false
  deriving DecidableEq, Repr, Inhabited

/-- A context or an engine hart. -/
structure Proc where
  st : SlotState := .free
  /-- Started detached (R132, R170). -/
  det : Bool := false
  /-- A row-drain helper (R132). -/
  drain : Bool := false
  /-- The context that started the helper. -/
  starter : Nat := 0
  exitVal : Word := 0
  r : Regs := {}
  cause : Word := 0
  epc : Word := 0
  tval : Word := 0
  tvec : Word := 0
  tscr : Word := 0
  jhi : Word := 0
  icount : Word := 0
  intrap : Bool := false
  ptim : Bool := false
  aen : Bool := false
  gmem : Nat := 0
  timed : Bool := false
  /-- The lines the context has fetched since its last FENCE with I, as it fetched them (R38). -/
  lines : List (Nat × Line) := []
  /-- The fetched copy the agent executes from until control leaves its line, with the line's address (R38). -/
  copy : Option (Nat × Line) := none
  wait : Wait := .idle
  /-- The next head issues no earlier than this Tide value (R142, R177). -/
  resumeAt : Word := 0
  /-- Cycles in which the context was ready and did not issue (R136). -/
  waited : Nat := 0
  /-- Results in flight in a timed phase, in program order (R141). -/
  flight : List Flying := []
  /-- In free mode, the registers whose producer has not completed, by the keys of `Instr.reads`, each with the Tide value
  from which a head may read it (R139, R142). -/
  due : FMap Nat := []
  /-- The Tide value from which the helpers of a control context that has left a timed phase go on (R141). -/
  phaseOver : Word := 0
  chunk : Option Chunk := none
  /-- Histogram counts, (core, bin), of the parts of a vector store that is not complete (R222, R224). -/
  partCounts : List (Nat × Nat) := []
  /-- Consecutive discards of the same chunk, and single-access chunking after four (R124). -/
  discards : Nat := 0
  single : Bool := false
  /-- Sequence numbers last used (R299, R328, R357, R413). -/
  seqCpy : Nat := 0
  seqJob : Nat := 0
  seqTow : Nat := 0
  seqFord : Nat := 0
  /-- Asynchronous traps waiting: code and tval (R152). -/
  pend : List (Nat × Word) := []
  /-- How many remote accesses the head in hand has made. -/
  remIx : Nat := 0
  /-- A kind-0 breakpoint does not match the next head (R443). -/
  skipBp : Bool := false
  /-- Remote stores sent and not acknowledged, oldest first (R425). -/
  remoteOut : List RemoteStore := []
  /-- The job whose cancellation by PCAN a trap has interrupted, and the request of a TOW.EXIT alike (R330, R381). -/
  pcan : Option Word := none
  /-- The row a row-drain helper holds. -/
  row : Option RowRef := none
  /-- Stopped by fatal_stop (R151). -/
  stopped : Bool := false
  /-- The requester's request buffer (R22). -/
  reqBuf : Option Request := none
  /-- Virtual function the agent runs under. -/
  vf : Nat := 0
  /-- An engine hart: the code length, dispatch vector and version of its image (R29, R468). -/
  codeLen : Nat := 0
  dispVec : Nat := 0
  version : Nat := 0
  /-- Its store holds a loaded image in place of Kilior's default microcode (R27). -/
  loaded : Bool := false
  deriving DecidableEq, Repr, Inhabited

/-- An inbound queue of items (R144, R145): each item with the Tide value from which it may be popped, and the Tide
values of the pops that still count as outstanding. -/
structure Queue where
  items : List (Word × Word) := []
  popped : List Word := []
  deriving DecidableEq, Repr, Inhabited

/-- What a core holds beside its contexts. -/
structure Core where
  sdm : Word := 0
  lnid : Nat := 0
  /-- Gang size code and member index (gng, R134). -/
  gsize : Nat := 0
  gmemb : Nat := 0
  tpin : Word := 0
  /-- Pinned lines: address and content (R135). -/
  pins : List (Nat × Line) := []
  /-- The lines resident in the L1 instruction cache beside the pinned ones, oldest first; 256 lines with them (R1, R140). -/
  l1i : List (Nat × Line) := []
  qxmap : Vector Word 8 := Vector.replicate 8 0
  /-- Inbound qn, qe, qs, qw and qc, by port number less 48. -/
  mesh : FMap Queue := []
  /-- Inbound qx0 to qx7. -/
  qx : FMap Queue := []
  /-- Transform responses, each with the slot it frees (R266, R277). -/
  xq : List (Word × Nat) := []
  /-- Jetty messages held and entries reserved (R25, R311). -/
  jetty : List (BitVec 128) := []
  reserved : Nat := 0
  /-- Alias window control, register k of window w at 8 w + k (R92). -/
  win : FMap Word := []
  hbind : Word := 0
  hen : Bool := false
  hsat : Bool := false
  /-- The 64 exponent histogram bins that are not zero (R191). -/
  bins : FMap Nat := []
  /-- The trace ring, oldest first, and the entries ever logged (R452, R453). -/
  trace : List Word := []
  traceEver : Nat := 0
  /-- The virtual function and launch the core works for. -/
  owner : Option (Nat × Nat) := none
  /-- Virtual cluster number (ctxid.vcl). -/
  vcl : Nat := 0
  /-- Pre-emption pending and parked (R241, R249). -/
  preempt : Bool := false
  parked : Bool := false
  /-- The last helper of each class to issue (R137). -/
  rrDrain : Nat := 0
  rrHelper : Nat := 0
  /-- The Tide value in which the core last issued a head (R137). -/
  lastIssue : Option Word := none
  /-- The replay queue: results of vector instructions saved by pre-emption, each with its context's slot, in issue order
  (R226). -/
  replay : List (Nat × Flying) := []
  deriving DecidableEq, Repr, Inhabited

/-- A cached translation (R113): the function it belongs to, the first virtual address and the size of the page, and
the leaf entry. -/
structure TlbEntry where
  vf : Nat
  base : Nat
  size : Nat
  pte : Word
  deriving DecidableEq, Repr

/-- The state of a landing stage (R306). -/
structure Stage where
  full : Bool := false
  own : Nat := 0
  bnd : Bool := false
  tag : Nat := 0
  deriving DecidableEq, Repr, Inhabited

/-- A landing ring: its config and party words, its stages, the copies bound to it or in flight into it (R305 to R308). -/
structure Ring where
  cfg : Word := 0
  party : Word := 0
  stages : FMap Stage := []
  looping : Bool := false
  inflight : Nat := 0
  deriving DecidableEq, Repr, Inhabited

/-- An accepted request of a transform unit (R266 to R276). -/
structure XSlot where
  core : Nat := 0
  q : Nat := 0
  vf : Nat := 0
  /-- The eight doublewords of the record. -/
  rec8 : List Word := []
  /-- fcsr, srseed and sr_ctr of the issuing context at acceptance, with the core number its stochastic bits take (R79, R267);
  xwd (R253). -/
  fcsr : Word := 0
  srseed : Word := 0
  srctr : Word := 0
  srcore : Nat := 0
  wdc : Nat := 0
  /-- Order of acceptance (R272). -/
  order : Nat := 0
  /-- Chunks or elements done, source bytes consumed, destination bytes written. -/
  count : Nat := 0
  srcOff : Nat := 0
  dstOff : Nat := 0
  flags : Nat := 0
  /-- Finished: status, bound, fault address, bytes emitted, cycles and source bytes of the failing chunk. -/
  ended : Option Nat := none
  bound : Nat := 0
  faultVa : Word := 0
  emitted : Nat := 0
  cycles : Nat := 0
  consumed : Nat := 0
  /-- Source bytes of the chunk in hand read so far, and bytes of a checked chunk not written yet (R274, R277). -/
  got : List Byte := []
  staged : List Nat := []
  /-- The response has been pushed; the slot waits for its pop. -/
  answered : Bool := false
  deriving DecidableEq, Repr, Inhabited

/-- A Pontoon job in hand (R323, R338 to R340). -/
structure PJob where
  req : Request := {}
  /-- k-steps and promotions completed. -/
  ksteps : Nat := 0
  promos : Nat := 0
  /-- Narrow accumulators and promotion registers, entry 64 i + b; row sums since the last promotion. -/
  n : FMap Int := []
  a : FMap Nat := []
  cs : FMap Int := []
  /-- Tiles loaded and not yet streamed, oldest first: 1,024 weight codes each (R324). -/
  tiles : List (List Int) := []
  /-- Bytes read so far of the next tile and of the activations of the next k-step (R125, R331). -/
  got : List Byte := []
  acts : List Byte := []
  /-- The next row to dispatch; rows dispatched and rows released. -/
  next : Nat := 0
  out : List Nat := []
  rel : List Nat := []
  flags : Nat := 0
  worst : Nat := 0
  /-- Not parked 0, parked for pre-emption 1, for retune 2, by a halt of the cluster 3. -/
  parked : Nat := 0
  parkedOnce : Bool := false
  /-- The status of a job that has failed or been cancelled. -/
  fail : Option Nat := none
  deriving DecidableEq, Repr, Inhabited

/-- A tow session (R354, R374). -/
structure Tow where
  /-- The latest TOW.ENTER, and what the fresh one captured (R357). -/
  req : Request := {}
  cap : Request := {}
  /-- Running 0, parked for retune 1, stopped 2, ended and its completion to come 3. -/
  st : Nat := 0
  cb : Word := 0
  ph : Nat := 0
  sub : Nat := 0
  stack : List Word := []
  lwt : Option Word := none
  n : FMap Int := []
  a : FMap Nat := []
  /-- Weight codes in the banks and in the shadow codes. -/
  bank : List Int := []
  shadow : Option (List Int) := none
  u : Nat := 0
  /-- The current route: kind, sel and value (R366). -/
  rk : Nat := 2
  rs : Nat := 0
  rv : Nat := 0
  /-- Rows dispatched to handlers and not released. -/
  out : List Nat := []
  /-- The header of the block in progress, as it was read (R367, R376): a DRAIN, a RUN, or a WTILE in the transform unit's lane; and
  what has been read for it, the vectors of the RUN or the payload of the WTILE. -/
  hdr : List Word := []
  pay : List Byte := []
  /-- A WTILE's payload in the transform unit's lane: source bytes consumed and the bytes decoded (R272, R363). -/
  dec : Option (Nat × List Nat) := none
  /-- The session waits on data, rows, a stage, a flag or Tide (R383). -/
  waits : Bool := false
  /-- RUNs since entry, blocks completed, flags, worst drift state and park since the latest TOW.ENTER. -/
  runs : Nat := 0
  blocks : Nat := 0
  flags : Nat := 0
  worst : Nat := 0
  parkedOnce : Bool := false
  /-- seq of the block at cb as its header was read. -/
  seq : Nat := 0
  /-- A stop that has not written its restart record yet, and the status of the completion to come. -/
  fail : Option Nat := none
  done : Option Nat := none
  status : Nat := 0
  /-- The restart record last written. -/
  rr : List Word := []
  /-- Ford-routed DRAINs (R406), and the timetable entry read for the current route and for the DRAIN in progress. -/
  fords : Nat := 0
  fordAt : List Word := []
  drainFord : List Word := []
  /-- TOW.EXIT has reached the session. -/
  leaving : Bool := false
  /-- Completions of earlier requests of the session that wait for its handlers, oldest first (R358, R373). -/
  owed : List (Request × BitVec 128) := []
  /-- Rows delivered to the scratchpad since entry: the byte they begin at, the row, and the free value that a stop has put there
  (R380). -/
  dest : List (Nat × List Byte × List Byte) := []
  deriving DecidableEq, Repr, Inhabited

/-- The Pontoon engine of a cluster beside its request queue (R320, R329, R342 to R353). -/
structure Pontoon where
  job : Option PJob := none
  /-- A job whose rows are all dispatched while the next one is in hand (R335). -/
  tail : Option PJob := none
  tow : Option Tow := none
  /-- The core that received the last dispatch (R332). -/
  rowCore : Nat := 7
  /-- Heater codes, the permutations σ, detunings: ring r of bank i at 32 i + r. -/
  heat : FMap Nat := []
  sigma : FMap Nat := []
  det : FMap Int := []
  /-- Per bank: the last heater change, and whether it is settled. -/
  lastHeat : FMap Word := []
  settled : List Nat := []
  /-- Calibrated 0, warning 1, retune pending 2, parked for retune 3 (R343). -/
  drift : Nat := 0
  retunes : Nat := 0
  pevRt : Bool := false
  pevWn : Bool := false
  /-- PCAL runs: full or not, and its requester; the result of one that has ended. -/
  pcal : Option (Bool × Nat) := none
  pcalDone : Option (Nat × Nat) := none
  /-- Rounds done of the sequencer's own retune (R353). -/
  round : Nat := 0
  preempt : Bool := false
  deriving DecidableEq, Repr, Inhabited

/-- The bank accesses of one timed-phase instruction to a scratchpad (R143): its issue cycle, the core that issued it, the
cores whose results it gives, the clusters it touches, its banks in element order, and the cycle that serves each. -/
structure BankUse where
  issued : Nat
  core : Nat
  cores : List Nat
  gcs : List Nat
  banks : List Nat
  served : List Nat := []
  deriving DecidableEq, Repr

/-- What a cluster holds beside its cores. -/
structure Cluster where
  tlb : List TlbEntry := []
  xwd : Nat := 16384
  /-- The Tide value in which the cluster last accepted a qc push (R145). -/
  qcLast : Option Word := none
  /-- Scratchpad bank accesses of timed phases (R143). -/
  banks : List BankUse := []
  /-- Tollhouse registers (R442): tdctl, tdst, tbp0 to tbp3, tbpc, tdsel. -/
  tdctl : Word := 8
  tdst : Word := 0
  /-- The Tide value of the halt (R446). -/
  haltAt : Word := 0
  tbp : Vector Word 4 := Vector.replicate 4 0
  tbpc : Word := 0
  tdsel : Word := 0
  /-- Writes of the debug window that wait for the resume, newest first: core, doubleword, value (R447). -/
  dbg : List (Nat × Nat × Word) := []
  /-- cfence.cl and cfence.pn (R473). -/
  fenced : Bool := false
  pfenced : Bool := false
  /-- A fence that waits for the kill-complete of the launch that holds the cluster (R473). -/
  fencing : Bool := false
  /-- pthrs (R342). -/
  warn : Nat := 8
  retn : Nat := 16
  /-- The Pontoon is available: its first calibration has ended (R350, R472). -/
  pontoonUp : Bool := false
  /-- The transform unit (R266 to R271): slots in use, slots held for a claim (slot, core, until), claims oldest first,
  acceptances so far. -/
  xslots : FMap XSlot := []
  xheld : List (Nat × Nat × Word) := []
  xclaims : List Nat := []
  xorder : Nat := 0
  /-- Of the tow lane and a core slot that both wait, the core slot is served next (R272). -/
  xturn : Bool := false
  /-- Landing rings 0 to 15 (R305). -/
  rings : FMap Ring := []
  /-- Imbalance records, newest first, at most 64, and the overwritten count (R450). -/
  imb : List (List Word) := []
  imbLost : Nat := 0
  /-- Looping copies parked by pre-emption, by ring (R304). -/
  parkedLoops : FMap Request := []
  pontoon : Pontoon := {}
  deriving DecidableEq, Repr, Inhabited

/-- Stores to one 256-byte block of a write-combining page that have not reached host memory (R115): the block, whether
it has left the combining buffer, and the bytes. -/
structure Combine where
  base : Nat
  sent : Bool := false
  data : FMap Byte := []
  deriving DecidableEq, Repr

/-- A shared-SRAM slice. -/
structure Slice where
  /-- slpart (R108): near, err, and while busy the size to come. -/
  near : Nat := 0
  parErr : Bool := false
  parTo : Option Nat := none
  /-- Stores to write-combining pages on their way to host memory, oldest first (R115). -/
  wc : List Combine := []
  tlb : List TlbEntry := []
  /-- The atomic-order log (R454): alogb, and alogc's en, wrap, ovf and len; the records written, of which head is the place of the
  next. -/
  logBase : Nat := 0
  logEn : Bool := false
  logWrap : Bool := false
  logOvf : Bool := false
  logLen : Nat := 0
  logHead : Nat := 0
  /-- The current run: requester, source node, count. -/
  logRun : Option (Nat × Nat × Nat) := none
  deriving DecidableEq, Repr, Inhabited

/-- The control registers of a virtual function (R464). -/
structure Vf where
  /-- The numbered grant list: virtual cluster number to global cluster (R465). -/
  grant : List Nat := []
  ptroot : Word := 0
  /-- fcen (R464). -/
  en : Bool := false
  busy : Bool := false
  err : Bool := false
  htab : Word := 0
  glist : Word := 0
  /-- tinv.ib and tinv.gcnt. -/
  ib : Bool := false
  gcnt : Nat := 0
  winb : Word := 0
  fgnt : Nat := 0
  /-- vfsch0 to vfsch3 (R229). -/
  sch0 : Word := 0
  grace : Nat := 120000
  tslice : Nat := 2344
  qtab : Word := 0
  kbusy : Bool := false
  /-- vfdump0 and vfdump1 (R456). -/
  dump0 : Word := 0
  nslot : Nat := 0
  nextSlot : Nat := 0
  /-- Dumps written; stops dropped from a full queue, and for want of a slot (R461). -/
  dumps : Nat := 0
  dropFull : Nat := 0
  dropSlot : Nat := 0
  /-- The launch identifier given last (R235). -/
  lastLn : Nat := 0
  /-- Queues whose memory has faulted since their last doorbell (R230). -/
  badq : List Nat := []
  /-- DRR deficits by queue, and the queue last served (R237). -/
  drr : FMap Nat := []
  lastq : Nat := 0
  /-- Cluster-cycles accumulated, and the Tide value they are counted from (R239). -/
  accum : Nat := 0
  accFrom : Option Word := none
  /-- The launch that klnid is killing (R229). -/
  kln : Nat := 0
  deriving DecidableEq, Repr, Inhabited

/-- How far a launch has come. -/
inductive LaunchSt where
  /-- Taken from its queue, not placed. -/
  | taken
  | running
  /-- Pre-emption pending on its cores (R241). -/
  | marked
  /-- Its contexts are stopped; its requests come to rest (R241). -/
  | resting
  /-- Saved; its clusters are free (R242). -/
  | saved
  /-- Killed; its requests end (R244). -/
  | killed
  deriving DecidableEq, Repr, Inhabited

/-- A launch that the Ferryman has taken and that has not ended (R231 to R244). -/
structure Launch where
  vf : Nat := 0
  queue : Nat := 0
  /-- Queue position t. -/
  pos : Nat := 0
  /-- The sixteen doublewords of the record. -/
  rec16 : List Word := []
  /-- Launch identifier, zero until placed (R235). -/
  ln : Nat := 0
  st : LaunchSt := .taken
  /-- Virtual cluster of each launch-relative cluster, and its global cluster. -/
  vcls : List Nat := []
  cls : List Nat := []
  /-- Held for want of clusters (R240); waiting for a shared cluster since (R239). -/
  held : Bool := false
  waiting : Option Word := none
  /-- Tide value of the mark (R241). -/
  since : Word := 0
  /-- Cycles run before the last save, and the Tide value of the last start (R243). -/
  ran : Word := 0
  started : Word := 0
  /-- The cause of a kill (R238). -/
  cause : Nat := 0
  /-- The virtual address of its save image (R243). -/
  image : Word := 0
  /-- Its first core dump has been written or dropped (R457). -/
  dumped : Bool := false
  deriving DecidableEq, Repr, Inhabited

/-- A request that a Ford port engine has taken (R403): its entry, limit and source, and how its frames went. -/
structure FordJob where
  req : Request := {}
  /-- The entry's eight doublewords, as read. -/
  ent : List Word := []
  /-- The writer limit it started with; whether the point-link fallback serves it (R386, R409). -/
  lim : Nat := 0
  fbk : Bool := false
  /-- The status of a request that has failed. -/
  fail : Option Nat := none
  /-- Source read; elements realigned. -/
  loaded : Bool := false
  aligned : Bool := false
  /-- Elements and scales as read or formed, agreed exponents, values sent, agreed results before conversion. -/
  raw : List Nat := []
  exps : List Nat := []
  agreed : List Nat := []
  sent : List Int := []
  res : List Int := []
  frames : Nat := 0
  replays : Nat := 0
  flags : Nat := 0
  late : Bool := false
  pop : Bool := false
  failWin : Nat := 0
  failFrame : Nat := 0
  /-- The last frame: its readings, the used attempt of each window, and the wavelengths lit here in each slot. -/
  last : List Nat := []
  used : List Nat := []
  light : List Nat := []
  /-- The frame that microcode waits for (R418). -/
  want : Option Nat := none
  /-- The destination is written and stores to other packages are not all acknowledged (R26, R425). -/
  written : Bool := false
  deriving DecidableEq, Repr, Inhabited

/-- The port engine of a Ford attachment (R388, R389, R403, R411, R415, R416). -/
structure FordPort where
  /-- The launch that enrolled the attachment: virtual function and launch; its entries and base. -/
  enr : Option (Nat × Nat) := none
  nent : Nat := 0
  base : Word := 0
  /-- The latest census: the positions lit, and whether one has completed. -/
  census : Word := 0
  censusOk : Bool := false
  replays : Nat := 0
  failed : Nat := 0
  reforms : Nat := 0
  hand : Option FordJob := none
  /-- The slot in which the last frame of the previous request ended (R391). -/
  lastEnd : Nat := 0
  /-- The lead's Tide less the local Tide, as FALIGN measured it. -/
  skew : Int := 0
  /-- The effective tick of a re-form notice (R435). -/
  reform : Option Nat := none
  /-- FALIGN: the requesters while it trains, of a gang every member, and the results that await theirs, by requester (R415). -/
  training : List Nat := []
  trained : FMap Nat := []
  deriving DecidableEq, Repr, Inhabited

/-- A Pilot's tuning state and watchdog (R439, R440). -/
structure Pilot where
  /-- 0 running, 1 restarting, 2 stopped under R28, 3 loading an image. -/
  st : Nat := 0
  resets : Nat := 0
  retrains : Nat := 0
  /-- The Tide value of the last pkick or restart, and of the watchdog reset. -/
  kicked : Word := 0
  since : Word := 0
  /-- The tuning state and its shadow copy: lasers, biases and heaters, as the Pilot holds them. -/
  tune : List Nat := []
  shadow : List Nat := []
  /-- The switch and configuration index last sent (R432). -/
  ocfg : Option (Nat × Nat) := none
  deriving DecidableEq, Repr, Inhabited

/-- fsegctl of a Ford attachment (R386). -/
structure FordSeg where
  lim : Nat := 0
  /-- A new limit that takes effect once no request is in hand (R386). -/
  limNext : Option Nat := none
  pos : Nat := 0
  sgid : Nat := 0
  fbk : Bool := false
  fen : Bool := false
  algn : Bool := false
  deriving DecidableEq, Repr, Inhabited

/-- What a fabric packet asks for (R422, R424). -/
inductive PacketKind where
  | load (n : Nat)
  | store (data : List Byte)
  | atomic (op n y new : Nat)
  | push (vcl core port xid : Nat) (item : Word)
  | answer (v : Nat)
  | ack
  /-- A negative acknowledgement, of a store or of another access (R425). -/
  | nack (store : Bool)
  | refused
  deriving DecidableEq, Repr, Inhabited

/-- A packet on the Darpex fabric (R422): destination and source node, requester, address, hop count. -/
structure Packet where
  dest : Nat := 0
  src : Nat := 0
  requester : Nat := 0
  addr : Nat := 0
  va : Word := 0
  /-- The agent that waits for the answer, of a gang the member (R173, R424), the issue cycle of its access, and its function:
  a reply brings the first two back. -/
  agent : Nat := 0
  since : Word := 0
  vf : Nat := 0
  hops : Nat := 0
  kind : PacketKind := .ack
  deriving DecidableEq, Repr, Inhabited

/-- A point-link port (R420, R429, R437, R438). -/
structure LinkPort where
  /-- The state code of R420. -/
  st : Nat := 0
  /-- The port has sent its drain marker (R433); it has received its peer's, and its own has been acknowledged (R432). -/
  drained : Bool := false
  peerDrained : Bool := false
  drainAcked : Bool := false
  peerNode : Nat := 0
  peerPort : Nat := 0
  retrains : Nat := 0
  uncorr : Nat := 0
  lost : Nat := 0
  nacks : Nat := 0
  /-- When the present training or relocking began. -/
  since : Word := 0
  /-- Codeword counts: bin k of lane l at 17 l + k (R437). -/
  bins : FMap Nat := []
  tbin : Nat := 16
  ien : Bool := false
  tcnt : Nat := 1
  hit : Bool := false
  hitLane : Nat := 0
  /-- swport (R429). -/
  sw : Nat := 0
  swEn : Bool := false
  /-- The replays of each packet that is not through, by packet (R436). -/
  replays : FMap Nat := []
  deriving DecidableEq, Repr, Inhabited

/-- A switch (R429 to R432). -/
structure Switch where
  gvf : Nat := 0
  gen : Bool := false
  st : Nat := 0
  slot : Nat := 0
  step : Nat := 0
  verr : Bool := false
  rfail : Bool := false
  /-- Doubleword j of ttslot n at 136 n + j. -/
  tt : FMap Word := []
  /-- The armed tick T (R431). -/
  armed : Word := 0
  /-- How far the step in hand has come: 0 before the hold, 1 held, 2 dark, 3 relocking. -/
  phase : Nat := 0
  deriving DecidableEq, Repr, Inhabited

/-- The fabric registers and the packets that have left (R421 to R428). -/
structure Fabric where
  node : Nat := 0
  rnode : Nat := 0
  trefEn : Bool := false
  ver : Nat := 0
  bank : Bool := false
  err : Bool := false
  sver : Nat := 0
  tmo : Nat := 240000
  rtb0 : FMap Nat := []
  rtb1 : FMap Nat := []
  /-- The last sample showed an offset of at most one tick, the ports from which a path of up links then led to the reference,
  and svst.full of the reference (R428). -/
  near : Bool := false
  syncPorts : List Nat := []
  refFull : Bool := false
  /-- Packets sent, with the port they left by; newest last. -/
  outbox : List (Nat × Packet) := []
  /-- Packets held by a switch step (R433). -/
  held : List Packet := []
  /-- The Tide offset to the reference, as the last sample showed it (R427). -/
  offset : Int := 0
  deriving DecidableEq, Repr, Inhabited

/-- What the environment brings to a step of the agenda: which unit, and which data. -/
structure Input where
  a : Nat := 0
  b : Nat := 0
  c : Nat := 0
  w : Word := 0
  bytes : List Byte := []
  ints : List Int := []
  deriving DecidableEq, Repr, Inhabited

/-- One turn of the agenda: a core issues by R137, an engine hart issues, or a step that no head encodes happens. -/
inductive Turn where
  | core (g : Nat)
  | hart (h : Nat)
  | event (i : Instr) (inp : Input)
  deriving DecidableEq, Repr

/-- An entry of the pending-stores section of a dump (R459): the line's virtual and physical address, the byte mask, the
kind, the slot and the data. -/
structure PendingStore where
  va : Nat := 0
  pa : Nat := 0
  mask : Nat := 0
  kind : Nat := 0
  slot : Nat := 0
  data : List Byte := []
  deriving DecidableEq, Repr

/-- A fatal stop that waits for its core dump (R151, R457): who stopped, why, for which launch, and what was pending. -/
structure DumpStop where
  q : Nat
  code : Nat
  pc : Word
  val : Word
  tide : Word
  vf : Nat := 0
  ln : Nat := 0
  pend : List PendingStore := []
  deriving DecidableEq, Repr

/-- An event for the Ferryman (R250). -/
structure DEvent where
  kind : Nat
  vf : Nat := 0
  queue : Nat := 0
  ln : Nat := 0
  deriving DecidableEq, Repr

/-- What a cluster section holds that the layout of R243 has no field for: the agents, the cores and the cluster as they
were saved. -/
structure Kept where
  procs : List Proc := []
  cores : List Core := []
  cluster : Cluster := {}
  queued : List Request := []
  deriving DecidableEq, Repr

/-- The state of the package. -/
structure State where
  /-- The model's own: what happens next, as plain data. -/
  agenda : List Turn := []
  /-- The model's own: the input of the step in hand. -/
  inp : Input := {}
  /-- The model's own: the requester identifier of the agent that moves. -/
  cur : Nat := 0
  /-- The model's own: whether the head of the turn issued. -/
  issued : Bool := false
  /-- The model's own: the index of the next free value. -/
  freeCtr : Nat := 0
  tide : Word := 0
  mem : List Host.Cell := []
  /-- 32-byte lines of memory that hold a soft error their code cannot correct (R155, MEM_UNCORRECTABLE). -/
  poison : List Nat := []
  /-- Since when a remote access of an engine stands still: the access of agent q at va at key 2^64 q + va (R424). -/
  stalls : FMap Word := []
  /-- What the host sees of the bytes of host memory that it sees otherwise than the device (R115, R129). -/
  hostStale : FMap Byte := []
  /-- What the host's last read has returned (R463). -/
  hostRead : List Byte := []
  procs : FMap Proc := []
  cores : FMap Core := []
  clusters : FMap Cluster := []
  slices : FMap Slice := []
  vfs : FMap Vf := []
  /-- Fatal stops queued at the dump engine, oldest first, at most four; the one whose dump is being written; dumps begun
  (R457, R458, R460). -/
  dumpQ : List DumpStop := []
  dumping : Option DumpStop := none
  dumpSeq : Nat := 0
  /-- Events that DTAKE has not taken, oldest first (R250). -/
  devents : List DEvent := []
  /-- gofull has been written and the clock not yet switched (R472). -/
  goingFull : Bool := false
  /-- What save images hold beyond their layout, at virtual address va of function f: key 2^64 f + va; and every replay queue
  that one has held, by which a valid image tells its entries (R226). -/
  kept : FMap Kept := []
  sealed : List (List (Nat × Flying)) := []
  ports : FMap LinkPort := []
  switches : FMap Switch := []
  fab : Fabric := {}
  /-- svst: boot, full, rrq (R471). -/
  boot : Bool := false
  full : Bool := false
  rrq : Bool := false
  /-- pwctl and thst (R474, R475). -/
  plim : Nat := 3000
  cap : Bool := false
  tmax : Nat := 0
  thermal : Nat := 0
  /-- bstat (R469). -/
  bstat : Word := 0
  /-- ectl's cls and idx, err, and emaddr (R466). -/
  ecls : Nat := 0
  eidx : Nat := 0
  ectlErr : Bool := false
  emaddr : Word := 0
  /-- efault records, oldest first, and its ovf bit (R467). -/
  efaults : List Word := []
  efOvf : Bool := false
  /-- MSI-X vectors raised: (0, vector) for PF0, (1 + vf, 0) for a function (R463). -/
  msix : List (Nat × Nat) := []
  /-- pwd of each Pilot, in units of 1,024 cycles (R439). -/
  pwd : FMap Nat := []
  /-- fsegctl of each Ford attachment (R386). -/
  fseg : FMap FordSeg := []
  /-- Launches taken and not ended, in the order taken. -/
  launches : List Launch := []
  /-- Barrier counts, by function, launch, level and domain (R450). -/
  barriers : List ((Nat × Nat × Nat × Nat) × Nat) := []
  /-- Engines, by hart index (R22). -/
  engines : FMap Engine := []
  /-- Ford port engines, by attachment, and the timetable version last selected, by segment identity (R391, R431). -/
  fords : FMap FordPort := []
  ttvs : FMap Nat := []
  /-- Pilots 0 to 63 (R439). -/
  pilots : FMap Pilot := []
  deriving DecidableEq, Repr, Inhabited

/-- The machine right after reset: every register at the value the spec states, or at zero where it states none. -/
def State.reset : State := {}

end Sys2Proof.Machine
end

