-- ==== Sys2Proof/Machine/Ops.lean ====
section
/-!
DEFINITION. The named operations over registers, memory, chunks and traps, and the frame every head runs in.

A meaning of a head is written in `Eff`: a state monad that can stop. `trap` leaves no effect of the head, takes the
trap and goes on at the handler; `stall` leaves no effect and the head runs again later; `wait` records what the head
waits for and the head runs again when the wait is over.

Marks (notes/assumptions): DESIGN CHOICE (safe) 3, 7, 9, 60; DESIGN CHOICE (unsafe) 4, 20, 62; DEDUCED (unsafe) 8, 12,
17, 18, 40, 59; DEDUCED (safe) 11, 14, 15, 24, 55.
-/

namespace Sys2Proof.Machine

abbrev Out := Host.Outcome State Fault Refusal

/-- Why a head does not complete. -/
inductive Stop where
  /-- A synchronous trap: cause code and tval; epc is the head's own PC (R150). -/
  | trap (code : Nat) (val : Word)
  /-- A synchronous trap whose entry names another epc (TRAP, R183). -/
  | trapAt (code : Nat) (val epc : Word)
  /-- A synchronous trap of a fetch of lines to pin, which leaves nothing pinned (R135, R166). -/
  | trapUnpin (code : Nat) (val : Word)
  /-- NODE_UNREACHABLE for a lost remote store, which clears the context's record of lost stores (R425). -/
  | trapLost (val : Word)
  /-- The head cannot issue now (R136). -/
  | stall
  /-- The head has issued and waits (R136, R177 to R181); it completes later. -/
  | wait (w : Wait)
  /-- A halt event precise at the head, with the cluster's debug enabled (R443, R444): the reason code of tdst. -/
  | halt (why : Nat)
  deriving DecidableEq, Repr

/-- What a head does to the state, or why it stops. -/
abbrev Eff := EStateM Stop State

/-! ### Trap causes and completion statuses (R155) -/

def DONE : Nat := 0x00
def INSTR_FORMAT : Nat := 0x01
def ILLEGAL_OPCODE : Nat := 0x02
def ILLEGAL_CONTEXT : Nat := 0x03
def ILLEGAL_OPERAND : Nat := 0x04
def RESERVED_FIELD : Nat := 0x05
def TRAP_INSN : Nat := 0x06
def BREAKPOINT : Nat := 0x07
def KICK_FORM : Nat := 0x08
def ADDR_INVALID : Nat := 0x20
def MISALIGNED : Nat := 0x21
def PAGE_ABSENT : Nat := 0x22
def PTE_FORMAT : Nat := 0x23
def PAGE_PERM : Nat := 0x24
def PHYS_RANGE : Nat := 0x25
def WINDOW_ALIGN : Nat := 0x26
def WINDOW_READONLY : Nat := 0x27
def WINDOW_RANGE : Nat := 0x28
def ATOMIC_TARGET : Nat := 0x29
def WAIT_TARGET : Nat := 0x2A
def MEM_UNCORRECTABLE : Nat := 0x2B
def NODE_UNREACHABLE : Nat := 0x2C
def TIMED_ACCESS : Nat := 0x40
def SCHED_EMPTY : Nat := 0x41
def SCHED_FULL : Nat := 0x42
def SCHED_TAG : Nat := 0x43
def SCHED_IMISS : Nat := 0x44
def TIDE_LATE : Nat := 0x45
def PORT_EDGE : Nat := 0x46
def PORT_UNMAPPED : Nat := 0x47
def PORT_OVERRUN : Nat := 0x48
def HELPER_TAG : Nat := 0x50
def GANG_STATE : Nat := 0x51
def SYNC_LEVEL : Nat := 0x52
def MSG_DEST : Nat := 0x53
def HANDLE_STALE : Nat := 0x60
def LAND_STATE : Nat := 0x61
def LENGTH_VIOLATION : Nat := 0x62
def CODEC_CHECK : Nat := 0x63
def CANCELLED : Nat := 0x64
def ENGINE_UNAVAILABLE : Nat := 0x70
def ENGINE_FAULT : Nat := 0x71
def WEIGHT_CODE : Nat := 0x72
def SETTLE_TIMEOUT : Nat := 0x73
def DRIFT_RETUNE : Nat := 0x74
def DRIFT_WARN : Nat := 0x75
def TOW_PERM : Nat := 0x76
def TOW_CHECK : Nat := 0x77
def TOW_BLOCK_OPCODE : Nat := 0x78
def TOW_STACK : Nat := 0x79
def FORD_GUARD : Nat := 0x80
def FORD_REFORM : Nat := 0x81
def FORD_ENROL : Nat := 0x82
def FORD_TIMETABLE : Nat := 0x83
def QUEUE_FULL : Nat := 0x90
def KILLED : Nat := 0x91
def DEBUG_HALT : Nat := 0x92
/-- The model's own: an access that cannot be performed yet, because its owning slice changes its near memory (R108) or its
packet cannot leave (R424). No trap and no completion carries it: the head, or the engine's step, waits. -/
def WAITS : Nat := 0x100

/-! ### Agents (R13 to R15, R20, R22, R127) -/

/-- An engine hart. -/
def isHart (q : Nat) : Bool := decide (Config.hartQ ≤ q)
/-- The hart index of an engine hart (R22). -/
def hartIx (q : Nat) : Nat := q - Config.hartQ
/-- The requester identifier of a hart index. -/
def hartQOf (h : Nat) : Nat := Config.hartQ + h
/-- The global core of a context. -/
def coreOf (q : Nat) : Nat := q / 11
/-- The slot of a context. -/
def slotOf (q : Nat) : Nat := q % 11
/-- The control context of a core. -/
def ctl (g : Nat) : Nat := 11 * g
/-- Whether a hart index is a Pontoon sequencer's. -/
def isSequencer (h : Nat) : Bool := decide (640 ≤ h) && decide (h < 13440)
/-- The global cluster an agent sits in: a core's, or a sequencer's. -/
def clusterOf (q : Nat) : Nat := if isHart q then hartIx q - 640 else coreOf q / 8
/-- The die of a global cluster. -/
def dieOfCluster (gc : Nat) : Nat := gc / 1600
/-- The home slice of a cluster (R14). -/
def homeSlice (gc : Nat) : Nat := 80 * dieOfCluster gc + gc % 1600 / 20
/-- The die of a hart of the photonic die, of a Barge or of the Ferryman. -/
def dieOfHart (h : Nat) : Nat :=
  if h < 640 then h / 80
  else if h < 13440 then dieOfCluster (h - 640)
  else if h < 13456 then (h - 13440) / 2
  else if h = 13456 then 0
  else if h - 13457 < 48 then (h - 13457) / 6
  else (h - 13457 - 48) / 2
/-- The slice whose translation cache serves an engine hart (R20). -/
def sliceOfHart (h : Nat) : Nat := if h < 640 then h else 80 * dieOfHart h

/-- owner_slice of R107, for LPDDR-5X and host addresses; near memory by its address (R106). -/
def ownerSlice (pa : Nat) : Nat :=
  if 0x10000000000 ≤ pa ∧ pa < 0x10000000000 + 0x2000000 * 640 then (pa - 0x10000000000) / 0x2000000
  else
    let d := if pa < 2 ^ 40 then pa / 2 ^ 37 else 0
    let b := pa / 256
    80 * d + (b ^^^ (b / 2 ^ 13) ^^^ (b / 2 ^ 26)) % 80

/-! ### State access -/

namespace State

def proc (s : State) (q : Nat) : Proc := s.procs.get q {}
def core (s : State) (g : Nat) : Core := s.cores.get g {}
def cluster (s : State) (gc : Nat) : Cluster := s.clusters.get gc {}
def slice (s : State) (gs : Nat) : Slice := s.slices.get gs {}
def vfOf (s : State) (f : Nat) : Vf := s.vfs.get f {}

def setProc (s : State) (q : Nat) (p : Proc) : State := { s with procs := s.procs.put q p }
def setCore (s : State) (g : Nat) (c : Core) : State := { s with cores := s.cores.put g c }
def setCluster (s : State) (gc : Nat) (c : Cluster) : State := { s with clusters := s.clusters.put gc c }
def setSlice (s : State) (gs : Nat) (c : Slice) : State := { s with slices := s.slices.put gs c }
def setVf (s : State) (f : Nat) (c : Vf) : State := { s with vfs := s.vfs.put f c }

def modProc (s : State) (q : Nat) (f : Proc → Proc) : State := s.setProc q (f (s.proc q))
def modCore (s : State) (g : Nat) (f : Core → Core) : State := s.setCore g (f (s.core g))
def modCluster (s : State) (gc : Nat) (f : Cluster → Cluster) : State := s.setCluster gc (f (s.cluster gc))
def modSlice (s : State) (gs : Nat) (f : Slice → Slice) : State := s.setSlice gs (f (s.slice gs))
def modVf (s : State) (n : Nat) (f : Vf → Vf) : State := s.setVf n (f (s.vfOf n))

/-- A halted cluster (R445), one whose engine traffic is frozen, and one whose copies are: from 32 cycles after the halt
(R446). -/
def halted (s : State) (gc : Nat) : Bool := (s.cluster gc).tdst.getLsbD 0
def frozen (s : State) (gc : Nat) : Bool := s.halted gc && (s.cluster gc).tdctl.getLsbD 3
def copiesFrozen (s : State) (gc : Nat) : Bool :=
  s.frozen gc && decide ((s.cluster gc).haltAt.toNat + 32 ≤ s.tide.toNat)

/-- The agent that moves. -/
def me (s : State) : Proc := s.proc s.cur

end State

/-- Changes the agent that moves. -/
def modMe (f : Proc → Proc) : Eff Unit := modify fun s => s.modProc s.cur f

def trap (code : Nat) (val : Word) : Eff Unit := throw (.trap code val)

/-- The next free value. -/
def takeFree : Eff Nat := modifyGet fun s => (Config.freeNat s.freeCtr, { s with freeCtr := s.freeCtr + 1 })

/-! ### Registers (R48) -/

/-- A general register; g0 reads as zero. -/
def Regs.readG (r : Regs) (n : Nat) : Word := if n = 0 then 0 else r.g[n]?.getD 0
/-- A write of a general register; g0 discards it. -/
def Regs.writeG (r : Regs) (n : Nat) (x : Word) : Regs := if n = 0 then r else { r with g := r.g.setIfInBounds n x }
/-- A vector register's own slice (R186). -/
def Regs.readV (r : Regs) (n : Nat) : BitVec 512 := r.v[n]?.getD 0
def Regs.writeV (r : Regs) (n : Nat) (x : BitVec 512) : Regs := { r with v := r.v.setIfInBounds n x }
/-- A predicate register's own slice; k0 reads as all true (R52). -/
def Regs.readK (r : Regs) (n : Nat) : BitVec 64 := if n = 0 then BitVec.allOnes 64 else r.k[n]?.getD 0
def Regs.writeK (r : Regs) (n : Nat) (x : BitVec 64) : Regs := if n = 0 then r else { r with k := r.k.setIfInBounds n x }

/-- The general register `n` of an agent. -/
def State.reg (s : State) (q n : Nat) : Word := (s.proc q).r.readG n

/-- An agent with its registers changed. -/
def Proc.withR (p : Proc) (f : Regs → Regs) : Proc := { p with r := f p.r }

/-! ### Gangs (R15, R138, R192) -/

/-- The size of the gang a core is in. -/
def gangSize (s : State) (g : Nat) : Nat := 2 ^ (s.core g).gsize
/-- The control contexts that issue with context `q`: the members of its gang, the leader first; `q` alone where it is
a helper, a hart or not ganged. -/
def members (s : State) (q : Nat) : List Nat :=
  if isHart q || slotOf q != 0 || (s.core (coreOf q)).gsize == 0 then [q]
  else (upTo (gangSize s (coreOf q))).map fun m => ctl (coreOf q - (s.core (coreOf q)).gmemb + m)
/-- The agent whose chunk and identity an agent uses: its gang's leader, or itself (R127, R138). -/
def leader (s : State) (q : Nat) : Nat := (members s q).headD q

/-! ### Memory (R102, R106)

One list of bytes. Its keys: a physical address below 2^52; TCM byte o of core g at 2^52 + 0x8000 g + o; scratchpad byte
o of cluster gc at 2^53 + 0x40000 gc + o; microcode byte o of hart h at 2^54 + 0x10000 h + o. -/

/-- What an unlisted byte reads as. -/
def Memory.default : Byte := 0

/-- The byte at a key. -/
def Memory.read (m : List Host.Cell) (a : Nat) : Byte := FMap.get m a Memory.default
/-- The memory with a byte stored; a byte equal to what an unlisted key reads as is not listed. -/
def Memory.write (m : List Host.Cell) (a : Nat) (b : Byte) : List Host.Cell :=
  if b = Memory.default then FMap.del m a else FMap.put m a b

/-- The canonical form: keys strictly rising, no entry equal to what an unlisted key reads as. -/
def Memory.wf : List Host.Cell → Bool
  | [] => true
  | [(_, b)] => b != Memory.default
  | (a, b) :: (a', b') :: m => decide (a < a') && b != Memory.default && Memory.wf ((a', b') :: m)

def Memory.writeList (m : List Host.Cell) : Nat → List Byte → List Host.Cell
  | _, [] => m
  | a, b :: bs => Memory.writeList (Memory.write m a b) (a + 1) bs

def tcmKey (g o : Nat) : Nat := 2 ^ 52 + 0x8000 * g + o
def spKey (gc o : Nat) : Nat := 2 ^ 53 + 0x40000 * gc + o
def ucKey (h o : Nat) : Nat := 2 ^ 54 + 0x10000 * h + o

/-- The performed value of a byte. -/
def State.byteAt (s : State) (a : Nat) : Byte := Memory.read s.mem a
/-- The performed little-endian value of `n` bytes. -/
def State.natAt (s : State) (a n : Nat) : Nat := leNat ((upTo n).map fun j => s.byteAt (a + j))

/-- Near memory populated at a physical address (R106, R108). -/
def nearOk (s : State) (pa : Nat) : Bool :=
  decide (0x10000000000 ≤ pa) && decide (pa < 0x10000000000 + 0x2000000 * 640) &&
  decide ((pa - 0x10000000000) % 0x2000000 < (s.slice (ownerSlice pa)).near * 2 ^ 20)
def isLpddr (pa : Nat) : Bool := decide (pa < 2 ^ 40)
def isDev (pa : Nat) : Bool := decide (0x20000000000 ≤ pa) && decide (pa < 0x30000000000)
def isHostPa (pa : Nat) : Bool := decide (2 ^ 51 ≤ pa) && decide (pa < 2 ^ 52)
/-- Memory of this package: LPDDR-5X or populated near memory. -/
def isOwnMem (s : State) (pa : Nat) : Bool := isLpddr pa || nearOk s pa

/-! ### Chunks (R120 to R124) -/

/-- The 2,048-bit signature of a set of lines; only global lines are entered (R123). -/
def signature (lines : List Nat) : Nat :=
  (lines.filter fun l => decide (l < 2 ^ 47)).foldl (fun acc l =>
    let h := (mix64 (BitVec.ofNat 64 l)).toNat
    acc ||| 2 ^ bits h 0 11 ||| 2 ^ bits h 11 11 ||| 2 ^ bits h 22 11 ||| 2 ^ bits h 33 11) 0

/-- Two signatures meet when they share a bit (R123). -/
def sigMeet (a b : Nat) : Bool := a &&& b != 0

def addLine (l : Nat) (ls : List Nat) : List Nat := if ls.contains l then ls else ls ++ [l]

/-- Discards the open chunk of an agent: the checkpoint comes back, and nothing of the chunk is awaited (R120, R124). -/
def discardChunk (s : State) (q : Nat) : State :=
  match (s.proc q).chunk with
  | none => s
  | some c =>
    let s1 := c.ckpt.foldl (fun s e => s.modProc e.1 fun p => { p with r := e.2, due := [] }) s
    s1.modProc q fun p =>
      { p with chunk := none, discards := p.discards + 1, single := p.single || decide (4 ≤ p.discards + 1), wait := .idle }

/-- Contexts that watch one of the written lines are told of the write (R179, R247). -/
def notifyLines (s : State) (lines : List Nat) : State :=
  { s with procs := s.procs.map fun e =>
      match e.2.wait with
      | .mem l d _ => if lines.contains l then (e.1, { e.2 with wait := .mem l d true }) else e
      | .ev l _ => if lines.contains l then (e.1, { e.2 with wait := .ev l true }) else e
      | _ => e }

/-- The agent that owns a chunk's record at the slices: a core, or the hart itself. -/
def chunkSite (q : Nat) : Nat := if isHart q then q else coreOf q

/-- A commit's write signature reaches every core recorded as a reader of a written line; each discards its open chunks
whose signatures meet it (R123). A chunk that commits is open no more; what an engine's datapath writes reaches its own
hart's chunk too (R125). -/
def sendSignature (s : State) (lines : List Nat) : State :=
  let glob := lines.filter fun l => decide (l < 2 ^ 47)
  if glob.isEmpty then s else
  let sig := signature glob
  let open_ := s.procs.filter fun e => e.2.chunk.isSome
  let readers := (open_.filter fun e => match e.2.chunk with
    | none => false
    | some c => c.reads.any fun l => glob.contains l).map fun e => chunkSite e.1
  let hit := open_.filter fun e => readers.contains (chunkSite e.1) && match e.2.chunk with
    | none => false
    | some c => sigMeet sig (signature c.reads) || sigMeet sig (signature c.writes)
  hit.foldl (fun s e => discardChunk s e.1) s

/-- The lines of a list that stores leave with their soft error: all but those they write whole (R155). -/
def stillPoisoned (ls : List Nat) (cells : FMap Byte) : List Nat :=
  ls.filter fun l => !(upTo 32).all fun i => (FMap.find cells (32 * l + i)).isSome

/-- Stores performed at once, as one place in the total order: the bytes, the signature, the watchers (R125). -/
def performBytes (s : State) (cells : FMap Byte) : State :=
  let lines := cells.foldl (fun ls e => addLine (e.1 / 32) ls) []
  let s1 := { s with mem := cells.foldl (fun m e => Memory.write m e.1 e.2) s.mem, poison := stillPoisoned s.poison cells }
  notifyLines (sendSignature s1 lines) lines

/-- `bs` at key `a` and up, as cells. -/
def cellsAt (a : Nat) (bs : List Byte) : FMap Byte := (upTo bs.length).zip bs |>.map fun e => (a + e.1, e.2)

/-- Stores `bs` at key `a`, performed at once. -/
def performAt (s : State) (a : Nat) (bs : List Byte) : State := performBytes s (cellsAt a bs)

/-- A read of `n` bytes at key `a` meets a soft error that the memory's code cannot correct (R155). -/
def poisoned (s : State) (a n : Nat) : Bool := s.poison.any fun l => decide (a / 32 ≤ l) && decide (l ≤ (a + n - 1) / 32)

/-- Adds to a histogram bin, which stops at 2^32 - 1 (R222). -/
def addBin (s : State) (g bin n : Nat) : State :=
  s.modCore g fun c =>
    let x := c.bins.get bin 0 + n
    if 2 ^ 32 - 1 ≤ x then { c with bins := c.bins.put bin (2 ^ 32 - 1), hsat := true }
    else { c with bins := c.bins.put bin x }

/-- The counts of the parts of a vector store that a trap or a stop ends are added: its elements that are stored are not stored
again (R222, R224). -/
def addParts (s : State) (q : Nat) : State :=
  if (s.proc q).partCounts.isEmpty then s
  else ((s.proc q).partCounts.foldl (fun s e => addBin s e.1 e.2 1) s).modProc q fun p => { p with partCounts := [] }

/-- Commits the open chunk of an agent (R123): its stores are performed together, its counts added, its heads counted. -/
def commitChunk (s : State) (q : Nat) : State :=
  match (s.proc q).chunk with
  | none => s
  | some c =>
    let s1 := s.modProc q fun p => { p with chunk := none, discards := 0 }
    let s2 := performBytes s1 c.held
    let s3 := c.hist.foldl (fun s e => addBin s (e.1 / 64) (e.1 % 64) e.2) s2
    c.ckpt.foldl (fun s e => s.modProc e.1 fun p => { p with icount := p.icount + BitVec.ofNat 64 c.heads }) s3

/-- Opens a chunk at the next head where none is open and the agent is in free mode (R120, R140). -/
def openChunk (s : State) (q : Nat) : State :=
  if (s.proc q).timed || (s.proc q).chunk.isSome then s
  else
    let ck := (members s q).map fun m => (m, (s.proc m).r)
    s.modProc q fun p => { p with chunk := some { ckpt := ck, age := s.tide } }

/-- What an agent reads at a key: its own held store, or the performed byte (R120). -/
def viewByte (s : State) (q a : Nat) : Byte :=
  match (s.proc (leader s q)).chunk with
  | none => s.byteAt a
  | some c => (FMap.find c.held a).getD (s.byteAt a)

def viewNat (s : State) (q a n : Nat) : Nat := leNat ((upTo n).map fun j => viewByte s q (a + j))

/-- Notes that the open chunk has read a line. -/
def noteRead (s : State) (q a n : Nat) : State :=
  match (s.proc (leader s q)).chunk with
  | none => s
  | some c =>
    let c' := { c with reads := addLine ((a + n - 1) / 32) (addLine (a / 32) c.reads) }
    s.modProc (leader s q) fun p => { p with chunk := some c' }

/-- A store of an agent that a chunk holds back; with no open chunk it is performed at once. -/
def holdStore (s : State) (q a : Nat) (bs : List Byte) : State :=
  let u := leader s q
  match (s.proc u).chunk with
  | none => performAt s a bs
  | some c =>
    let held := (cellsAt a bs).foldl (fun h e => FMap.put h e.1 e.2) c.held
    let ws := (cellsAt a bs).foldl (fun ls e => addLine (e.1 / 32) ls) c.writes
    s.modProc u fun p => { p with chunk := some { c with held := held, writes := ws } }

/-- A chunk ends under R122: it commits, and normal chunking resumes (R124). -/
def endChunk (s : State) (u : Nat) : State := (commitChunk s u).modProc u fun p => { p with single := false }

/-- Ends the chunk before an access or instruction that belongs to none (R122). -/
def leaveChunk : Eff Unit := modify fun s => endChunk s (leader s s.cur)

/-! ### The bit-buffer (R252) -/

/-- The buffer with the bits at or above cnt cleared. -/
def BitBuf.clip (b : BitBuf) : BitBuf := { b with buf := BitVec.ofNat 128 (b.buf.toNat % 2 ^ b.cnt) }
/-- The buffer with `n` bytes appended above its valid bits. -/
def BitBuf.append (b : BitBuf) (x n : Nat) : BitBuf :=
  { b with buf := BitVec.ofNat 128 (b.buf.toNat + x * 2 ^ b.cnt), cnt := min 128 (b.cnt + 8 * n) }
/-- take of R255 of at most `k` bits, noting an under-run. -/
def BitBuf.consume (b : BitBuf) (k : Nat) (und : Bool) : BitBuf :=
  { b with buf := BitVec.ofNat 128 (b.buf.toNat / 2 ^ min k b.cnt), cnt := b.cnt - k, und := b.und || und }

/-! ### Results in flight (R141) -/

def applyWrite (s : State) (q : Nat) (w : RegWrite) : State :=
  match w with
  | .g n x | .vg n x => s.modProc q fun p => p.withR fun r => r.writeG n x
  | .v n mask x => s.modProc q fun p => p.withR fun r => r.writeV n ((r.readV n &&& ~~~mask) ||| (x &&& mask))
  | .k n mask x => s.modProc q fun p => p.withR fun r => r.writeK n ((r.readK n &&& ~~~mask) ||| (x &&& mask))
  | .flags f => s.modProc q fun p => p.withR fun r => { r with fcsr := r.fcsr ||| f }
  | .jhi x => s.modProc q fun p => { p with jhi := x }
  | .bbSet b => s.modProc q fun p => p.withR fun r => { r with bb := b }
  | .bbAppend x n => s.modProc q fun p => p.withR fun r => { r with bb := r.bb.append x n }
  | .bbTake k und => s.modProc q fun p => p.withR fun r => { r with bb := r.bb.consume k und }
  | .hist g bins => bins.foldl (fun s b => addBin s g b 1) s
  | .parts => s

/-- Puts a result after those due no later. -/
def insertFlight : List Flying → Flying → List Flying
  | [], e => [e]
  | x :: xs, e => if e.due < x.due then e :: x :: xs else x :: insertFlight xs e

/-- Results in flight by due Tide value; those of one value in program order (R141). -/
def byDue (l : List Flying) : List Flying := l.foldl insertFlight []

/-- Writes the results whose latency has passed at Tide value `t`. -/
def landFlight (s : State) (q t : Nat) : State :=
  let p := s.proc q
  let due := byDue (p.flight.filter fun e => decide (e.due ≤ t))
  let s1 := due.foldl (fun s e => applyWrite s q e.w) s
  if p.flight.isEmpty then s else s1.modProc q fun p => { p with flight := p.flight.filter fun e => !decide (e.due ≤ t) }

/-- Writes every result in flight. What comes after them takes effect when the last has been written (R141): the agent's next
head, and its core's helpers, issue no earlier. -/
def flushFlight (s : State) (q : Nat) : State :=
  let p := s.proc q
  if p.flight.isEmpty then s
  else
    let last := p.flight.foldl (fun m e => max m e.due) s.tide.toNat
    ((byDue p.flight).foldl (fun s e => applyWrite s q e.w) s).modProc q fun p =>
      { p with
        flight := [], phaseOver := BitVec.ofNat 64 last
        resumeAt := if p.resumeAt.toNat < last then BitVec.ofNat 64 last else p.resumeAt }

/-- The register that a write produces, by the keys of `Instr.reads`. -/
def RegWrite.key : RegWrite → Option Nat
  | .g n _ => some n
  | .vg n _ => some n
  | .v n _ _ => some (keyV n)
  | .k n _ _ => some (keyK n)
  | .flags _ => some keyFcsr
  | .jhi _ => some keyJhi
  | .bbSet _ => some keyBb
  | .bbAppend _ _ => some keyBb
  | .bbTake _ _ => some keyBb
  | .hist _ _ | .parts => none

/-- A free-mode result of latency `lat` is awaited until then (R139, R142); a later write of the same register completes after
an earlier one. One of latency 1 is there for the next head. -/
def noteDue (s : State) (q lat : Nat) (w : RegWrite) : State :=
  match w.key with
  | none => s
  | some k =>
    if lat ≤ 1 then s
    else s.modProc q fun p =>
      { p with due := FMap.put (p.due.filter fun (e : Nat × Nat) => decide (s.tide.toNat < e.2)) k (max (s.tide.toNat + lat) (p.due.get k 0)) }

/-- A head of an agent in free mode that reads a register whose producer has not completed (R136, R139). Of a gang's vector
head the general registers are the leader's (R194). -/
def awaits (s : State) (q : Nat) (i : Instr) : Bool :=
  let op := i.opcode.getD 0
  let shared := decide (0x51 ≤ op) && decide (op ≤ 0x80) && leader s q != q
  !(s.proc q).timed && (s.proc q).due.any fun e =>
    decide (s.tide.toNat < e.2) && i.reads.contains e.1 && (!shared || decide (64 ≤ e.1))

/-- A head that some member of its gang cannot issue for want of a source register. -/
def heldBack (s : State) (q : Nat) (i : Instr) : Bool := (members s q).any fun m => awaits s m i

/-- A result of the agent that moves, with its published latency: in free mode in program order, and awaited by the heads that
read it (R139); in a timed phase when the latency has passed (R141). -/
def result (lat : Nat) (w : RegWrite) : Eff Unit := modify fun s =>
  if s.me.timed then s.modProc s.cur fun p => { p with flight := p.flight ++ [⟨s.tide.toNat + lat, s.tide.toNat, w⟩] }
  else applyWrite (noteDue s s.cur lat w) s.cur w

/-! ### Translation (R109 to R113) -/

/-- What an access needs of the leaf (R111). -/
inductive Perm where
  | load | store | atomic | fetch | tow | engRead | engWrite
  deriving DecidableEq, Repr

def Perm.granted (a : Perm) (pte : Word) : Bool :=
  match a with
  | .load | .engRead => pte.getLsbD 2
  | .store | .engWrite => pte.getLsbD 3
  | .atomic => pte.getLsbD 2 && pte.getLsbD 3
  | .fetch => pte.getLsbD 4
  | .tow => pte.getLsbD 5

/-- Shift of the virtual address for the index of a level, and the bytes a leaf there maps. -/
def levelShift (l : Nat) : Nat :=
  match l with
  | 0 => 16 | 1 => 21 | 2 => 30 | _ => 39

/-- The leaf checks of R111: res bits, alignment of the page, cache and window kinds, node. -/
def leafOk (pte : Word) (level : Nat) : Bool :=
  decide (level < 3) && decide (fld pte 11 5 = 0) &&
  decide (fld pte 16 36 * 2 ^ 16 % 2 ^ levelShift level = 0) &&
  decide (fld pte 6 2 ≠ 3) && decide (fld pte 8 2 < 2) &&
  (pte.getLsbD 10 || decide (fld pte 52 12 = 0)) &&
  (decide (fld pte 8 2 = 0) || isDev (fld pte 16 36 * 2 ^ 16))

/-- An address whose owning slice changes its near memory: accesses to it wait (R108). -/
def resizing (s : State) (pa : Nat) : Bool := (s.slice (ownerSlice pa)).parTo.isSome

/-- The valid entry of the table at `tab` that serves `va` at a level (R109 to R111), or the fault. -/
def readPte (s : State) (va tab level : Nat) : Except Nat Word :=
  if !(isOwnMem s tab) then .error PTE_FORMAT else
  if resizing s tab then .error WAITS else
  let ix := if level = 0 then bits va 16 5 else bits va (levelShift level) 9
  let pte := BitVec.ofNat 64 (s.natAt (tab + 8 * ix) 8)
  if !pte.getLsbD 0 then .error PAGE_ABSENT
  else if pte.getLsbD 1 then (if leafOk pte level then .ok pte else .error PTE_FORMAT)
  else if fld pte 2 10 ≠ 0 ∨ fld pte 52 12 ≠ 0 ∨ level = 0 then .error PTE_FORMAT
  else .ok pte

/-- The walk of R109 from the table at `tab` of a level down: the leaf and its level, or the fault. -/
def walkFrom (s : State) (va : Nat) : Nat → Nat → Except Nat (Word × Nat)
  | tab, 0 =>
    match readPte s va tab 0 with
    | .error c => .error c
    | .ok pte => .ok (pte, 0)
  | tab, l + 1 =>
    match readPte s va tab (l + 1) with
    | .error c => .error c
    | .ok pte => if pte.getLsbD 1 then .ok (pte, l + 1) else walkFrom s va (fld pte 12 40 * 2 ^ 12) l

/-- The table walk of a virtual function (R109 to R111). -/
def walk (s : State) (vf va : Nat) : Except Nat (Word × Nat) :=
  walkFrom s va (fld (s.vfOf vf).ptroot 12 40 * 2 ^ 12) 3

def findTlb (l : List TlbEntry) (vf va : Nat) : Option TlbEntry :=
  l.find? fun e => decide (e.vf = vf) && decide (e.base ≤ va) && decide (va < e.base + e.size)

/-- A cache of `n` translations with one more; the oldest leaves when it is full. -/
def pushTlb (l : List TlbEntry) (n : Nat) (e : TlbEntry) : List TlbEntry :=
  if l.length < n then l ++ [e] else l.drop 1 ++ [e]

/-- The leaf that serves `va` for agent `q`: from the cluster's TLB, from the slice's translation cache, or by a walk,
which fills both (R20, R113). -/
def leafFor (s : State) (q vf va : Nat) : Except Nat (State × TlbEntry) :=
  let inCluster := !isHart q || isSequencer (hartIx q)
  let gc := clusterOf q
  let sl := if inCluster then homeSlice gc else sliceOfHart (hartIx q)
  let fillC := fun (s : State) e =>
    if inCluster then s.modCluster gc fun c => { c with tlb := pushTlb c.tlb 512 e } else s
  match (if inCluster then findTlb (s.cluster gc).tlb vf va else none) with
  | some e => .ok (s, e)
  | none =>
    match findTlb (s.slice sl).tlb vf va with
    | some e => .ok (fillC s e, e)
    | none =>
      match walk s vf va with
      | .error c => .error c
      | .ok (pte, level) =>
        let size := 2 ^ levelShift level
        let e : TlbEntry := { vf := vf, base := va / size * size, size := size, pte := pte }
        .ok (fillC (s.modSlice sl fun c => { c with tlb := pushTlb c.tlb 1024 e }) e, e)

/-- Where an access goes. -/
inductive Loc where
  | tcm (g o : Nat)
  | scratch (gc w o : Nat)
  | own (pa : Nat)
  | host (pa : Nat) (wc : Bool)
  | dev (off : Nat)
  | remote (node pa : Nat) (own : Bool)
  deriving DecidableEq, Repr, Inhabited

/-- A global virtual address translated and checked (R111, R112): the place, or the fault. A page with wk = 0 that maps device
register space raises PHYS_RANGE, as an address outside what a memory page may map: the spec names no fault for it (log entry
62). -/
def translate (s : State) (q vf va : Nat) (perm : Perm) : Except Nat (State × Loc) :=
  match leafFor s q vf va with
  | .error c => .error c
  | .ok (s', e) =>
    if !perm.granted e.pte then .error PAGE_PERM else
    let pa := fld e.pte 16 36 * 2 ^ 16 + (va - e.base)
    if e.pte.getLsbD 10 then .ok (s', .remote (fld e.pte 52 12) pa true)
    else if isOwnMem s' pa then (if resizing s' pa then .error WAITS else .ok (s', .own pa))
    else if isDev pa then (if fld e.pte 8 2 = 1 then .ok (s', .dev (pa - 0x20000000000)) else .error PHYS_RANGE)
    else if isHostPa pa then .ok (s', .host pa (decide (fld e.pte 6 2 = 2)))
    else .error PHYS_RANGE

/-! ### Lines and fetch (R33 to R40, R135) -/

def lineBase (pc : Word) : Nat := pc.toNat / 64 * 64
def headIndex (pc : Word) : Nat := fld pc 1 5

/-- The line of an engine hart's microcode store (R29). -/
def storeLine (s : State) (h la : Nat) : Line := BitVec.ofNat 512 (s.natAt (ucKey h la) 64)

/-- The line an agent can execute without a fetch from memory: the fetched copy of its current line, a line that its core's L1
instruction cache holds (pinned or not), or its microcode store. A line that the context has fetched before stands for it as it
fetched it then, until its FENCE with I (R38). -/
def residentLine (s : State) (q la : Nat) : Option Line :=
  if isHart q then (if la + 64 ≤ (s.proc q).codeLen then some (storeLine s (hartIx q) la) else none)
  else match (s.proc q).copy.filter fun (e : Nat × Line) => e.1 == la with
    | some e => some e.2
    | none => match FMap.find (s.core (coreOf q)).pins la with
      | some l => some l
      | none => match (s.core (coreOf q)).l1i.find? fun e => e.1 == la with
        | some e => some ((FMap.find (s.proc q).lines la).getD e.2)
        | none => none

/-- The code of the line at `la` for a context: through translation with fetch permission (R38, R111). The spec does not say
whether code may stand in a local range, on a remote page or in device register space: the model raises ADDR_INVALID for the
first and PHYS_RANGE for the others (log entry 62). -/
def readCode (s : State) (q la : Nat) : Except Nat (State × Line) :=
  if la < 2 ^ 48 then
    match translate s q (s.proc q).vf la .fetch with
    | .error c => .error c
    | .ok (s', .own pa) => if poisoned s' pa 64 then .error MEM_UNCORRECTABLE else .ok (s', BitVec.ofNat 512 (s'.natAt pa 64))
    | .ok (s', .host pa _) => .ok (s', BitVec.ofNat 512 (s'.natAt pa 64))
    | .ok (_, _) => .error PHYS_RANGE
  else .error ADDR_INVALID

/-- The L1 instruction cache of a core, 256 lines with the pinned ones (R1, R135), with line `la` in it. The spec names no
replacement rule: the line fetched longest ago that is not pinned leaves (log entry 62). -/
def cacheLine (s : State) (g la : Nat) (l : Line) : State :=
  s.modCore g fun c =>
    let kept := c.l1i.filter fun e => e.1 != la
    { c with l1i := (if kept.length + c.pins.length < 256 then kept else kept.drop 1) ++ [(la, l)] }

/-- A context keeps a line that its core's cache gave it, as its own fetch (R38); of its current line it holds the copy. -/
def keepLine (s : State) (q la : Nat) (l : Line) : State :=
  if isHart q || ((s.proc q).copy.map (·.1)) == some la then s
  else s.modProc q fun p => { p with lines := FMap.put p.lines la l }

/-- Fetches a line whole and checks it (R38): it enters the core's L1 instruction cache, and the context keeps it as it
fetched it. The fault otherwise. -/
def fetchLine (s : State) (q la : Nat) : Except Nat (State × Line) :=
  match residentLine s q la with
  | some l => if l.check.isSome then .ok (keepLine s q la l, l) else .error INSTR_FORMAT
  | none =>
    if isHart q then .error INSTR_FORMAT
    else if (s.proc q).timed then .error SCHED_IMISS
    else match readCode s q la with
      | .error c => .error c
      | .ok (s', x) =>
        let l := (FMap.find (s.proc q).lines la).getD x
        if l.check.isSome then .ok (cacheLine (s'.modProc q fun p => { p with lines := FMap.put p.lines la l }) (coreOf q) la l, l)
        else .error INSTR_FORMAT

/-- The head count of the line a PC lies in, as the agent has fetched it. -/
def headCount (s : State) (q : Nat) (pc : Word) : Nat := ((residentLine s q (lineBase pc)).bind Line.check).getD 0

/-- next_pc of R36. -/
def nextPc (s : State) (q : Nat) (pc : Word) : Word :=
  if headIndex pc < headCount s q pc then pc + 2 else BitVec.ofNat 64 (lineBase pc + 66)

/-- branch_target of R36: `d` halfwords from `pc`. -/
def branchTarget (pc : Word) (d : Int) : Word := w64 (pc.toNat + 2 * d)

/-- The check of a transfer target (R39): the PC of a head of a well-formed line. Bit 0 and head index 0 are judged first, then
the fetch, then the head index against N: R39 does not order them (log entry 62). In a timed phase the line is not fetched
here: a line that is not resident faults at its first head (R140). -/
def checkTarget (s : State) (q : Nat) (t : Word) : Except Nat State :=
  if t.getLsbD 0 ∨ headIndex t = 0 then .error INSTR_FORMAT
  else match fetchLine s q (lineBase t) with
    | .error c => if c = SCHED_IMISS then .ok s else .error c
    | .ok (s', l) =>
      if 1 ≤ headIndex t ∧ headIndex t ≤ l.check.getD 0 then .ok s' else .error INSTR_FORMAT

/-! ### Taking a trap and returning from one (R150 to R154) -/

/-- Puts a turn at the front of the agenda: a step that follows from what has just happened. -/
def State.pushTurn (s : State) (i : Instr) (inp : Input) : State := { s with agenda := .event i inp :: s.agenda }

/-- The bytes of a list of cells that lie in line `l`, as the mask and data of a dump entry (R459). -/
def lineData (cells : FMap Byte) (l : Nat) : Nat × List Byte :=
  ((upTo 32).foldl (fun m i => if (FMap.find cells (32 * l + i)).isSome then m + 2 ^ i else m) 0,
   (upTo 32).map fun i => FMap.get cells (32 * l + i) 0)

/-- The stores that the open chunk of context slot `k` of core `g` holds back (R459). -/
def chunkPending (s : State) (g k : Nat) : List PendingStore :=
  match (s.proc (ctl g + k)).chunk with
  | none => []
  | some c => c.writes.map fun l =>
      let (m, d) := lineData c.held l
      if 2 ^ 47 ≤ l then { va := 0xFFFF000000000000 + (32 * l - tcmKey g 0), mask := m, kind := 1, slot := k, data := d }
      else { va := c.vas.get l 0, pa := 32 * l, mask := m, slot := k, data := d }

/-- The remote stores of context slot `k` of core `g` that are sent and not answered (R459). -/
def remotePending (s : State) (g k : Nat) : List PendingStore :=
  ((s.proc (ctl g + k)).remoteOut.filter (!·.lost)).filterMap fun e =>
    (s.fab.outbox.reverse.find? fun p => p.2.requester == ctl g + k && p.2.va == e.va && match p.2.kind with
      | .store _ => true
      | _ => false).map fun p =>
        let bs := match p.2.kind with
          | .store d => d
          | _ => []
        let o := e.va.toNat % 32
        { va := e.va.toNat / 32 * 32, pa := p.2.addr / 32 * 32, mask := (2 ^ bs.length - 1) * 2 ^ o, kind := 2, slot := k
          data := List.replicate o 0 ++ bs ++ List.replicate (32 - o - bs.length) 0 }

/-- The pending stores of a stopped core (R459). -/
def pendingStores (s : State) (g : Nat) : List PendingStore :=
  (upTo 11).flatMap fun k => chunkPending s g k ++ remotePending s g k

/-- The kill of a launch by a fatal stop whose dump has been written or dropped (R244, R457). -/
def killFor (s : State) (d : DumpStop) : State :=
  s.pushTurn .launchKill { a := d.vf, b := d.ln, c := 1, w := BitVec.ofNat 64 d.code }

/-- A stop is queued at the dump engine; a fifth drops the oldest without a dump (R457, R460). -/
def queueDump (s : State) (d : DumpStop) : State :=
  match s.dumpQ with
  | o :: rest =>
    if rest.length < 3 then { s with dumpQ := s.dumpQ ++ [d] }
    else killFor ({ s with dumpQ := rest ++ [d] }.modVf o.vf fun f => { f with dropFull := min (f.dropFull + 1) (2 ^ 32 - 1) }) o
  | [] => { s with dumpQ := [d] }

/-- An event for the Ferryman is pending (R250). -/
def raiseEvent (s : State) (e : DEvent) : State := { s with devents := s.devents ++ [e] }

/-- fatal_stop (R151): the context stops, its dump is queued and the cluster's halt event follows; the kill of the launch
begins when the dump has been written or dropped (R457). In an engine hart it is an unhandled fault (R28, R29). -/
def fatalStop (s : State) (q code : Nat) (pc val : Word) : State :=
  let s1 := s.modProc q fun p => { p with stopped := true }
  if isHart q then s1.pushTurn .engineHartFaultStop { a := hartIx q, b := code, w := pc }
  else
    let (vf, ln) := (s.core (coreOf q)).owner.getD ((s.proc q).vf, 0)
    let s2 := queueDump s1 { q := q, code := code, pc := pc, val := val, tide := s.tide, vf := vf, ln := ln
                             pend := pendingStores s (coreOf q) }
    (raiseEvent s2 { kind := 3, vf := vf, ln := ln }).pushTurn .clusterHalt { a := coreOf q / 8, b := 6, c := q }

/-- take_trap of R150: the one operation that enters a handler. -/
def takeTrap (s : State) (q code : Nat) (pcAt val : Word) (async : Bool) : State :=
  let s0 := addParts (flushFlight s q) q
  let p := s0.proc q
  if p.intrap || p.tvec == 0 then fatalStop s0 q code pcAt val
  else
    let s1 := s0.modProc q fun p => { p with
      cause := BitVec.ofNat 64 (code + if async then 256 else 0)
      epc := pcAt, tval := val, ptim := p.timed && !isHart q, intrap := true, timed := false
      wait := .idle, waited := 0, resumeAt := if p.resumeAt.toNat ≤ s.tide.toNat then s.tide + 1 else p.resumeAt }
    match checkTarget s1 q p.tvec with
    | .error c =>
      if c = WAITS then s1.modProc q fun p => p.withR fun r => { r with pc := p.tvec } else fatalStop s1 q code pcAt val
    | .ok s2 => s2.modProc q fun p => p.withR fun r => { r with pc := p.tvec }

/-- The trap of a gang (R153): taken by every member at the leader's tvec; a member that did not fault receives the
cause of the lowest that did. `faults` lists the members that faulted, in order. -/
def takeTrapGang (s : State) (ms : List Nat) (faults : List (Nat × Nat × Word)) (pcAt : Word) (async : Bool) : State :=
  match faults, ms with
  | [], _ => s
  | _, [] => s
  | (m0, c0, v0) :: _, l :: _ =>
    let lead := s.proc l
    let s0 := addParts (ms.foldl flushFlight s) l
    if lead.intrap || lead.tvec == 0 then fatalStop s0 l c0 pcAt v0
    else
      let out := ms.foldl (fun s m => s.modProc m fun p => { p with timed := false }) s0
      match (match checkTarget out l lead.tvec with
        | .error c => if c = WAITS then .ok out else .error c
        | .ok s1 => .ok s1 : Except Nat State) with
      | .error _ => fatalStop s0 l c0 pcAt v0
      | .ok s1 =>
        ms.foldl (fun s2 m =>
          let (c, v) := match faults.find? (fun f => f.1 == m) with
            | some (_, c, v) => (c, v)
            | none => (c0, v0)
          s2.modProc m fun p => { p with
            cause := BitVec.ofNat 64 (c + if async then 256 else 0), epc := pcAt, tval := v, ptim := lead.timed, intrap := true, timed := false
            gmem := (coreOf m0) - (coreOf l), wait := .idle, waited := 0
            resumeAt := if p.resumeAt.toNat ≤ s.tide.toNat then s.tide + 1 else p.resumeAt
            r := { p.r with pc := lead.tvec } }) s1

/-! ### The frame of a head -/

/-- How a head leaves control: the next head in order, or a target; the cycles until the context's next head; what the
context waits for afterwards; whether it skips a kind-0 breakpoint at its next head; and whether the context is gone. -/
structure Next where
  target : Option Word := none
  delay : Nat := 1
  after : Wait := .idle
  skipBp : Bool := false
  gone : Bool := false
  deriving DecidableEq, Repr

def seqNext : Next := {}

/-- Who executes (R60). -/
def whoOf (s : State) (q : Nat) : Who :=
  if isHart q then
    let h := hartIx q
    if h < 640 then .barge else if h < 13440 then .sequencer else if h < 13456 then .ford
    else if h = 13456 then .ferryman else .pilot
  else if slotOf q = 0 then (if (s.proc q).timed then .timed else .control)
  else if (s.proc q).drain then .drain else .helper

/-- The legality of an opcode for an agent (R60, R61): a row-drain helper is a helper too. -/
def mayRun (w : Who) (op : Nat) : Bool := (legal op).contains w || (w == .drain && (legal op).contains .helper)

/-- The engine range of a hart's own engine (R61). -/
def ownRange (w : Who) (op : Nat) : Bool :=
  match w with
  | .barge => decide (0x91 ≤ op) && decide (op ≤ 0x9E)
  | .sequencer => decide (0x9F ≤ op) && decide (op ≤ 0xAE)
  | .ford => decide (0xAF ≤ op) && decide (op ≤ 0xB8)
  | .ferryman => decide (0x89 ≤ op) && decide (op ≤ 0x90)
  | .pilot => decide (0xB9 ≤ op) && decide (op ≤ 0xBC)
  | _ => false

/-- The fault of an opcode that the agent may not run (R61). -/
def legality (s : State) (q op : Nat) : Option Nat :=
  let w := whoOf s q
  if mayRun w op then none
  else if isHart q then (if ownRange w op then some ILLEGAL_CONTEXT else some ILLEGAL_OPCODE)
  else some ILLEGAL_CONTEXT

/-- A head whose opcode ends the chunk, whatever its operands (R122). -/
def endsChunkOp (op : Nat) : Bool :=
  decide (0x87 ≤ op) || [2, 3, 4, 5, 6, 7, 9].contains op || (decide (0x36 ≤ op) && decide (op ≤ 0x3F)) ||
  (decide (0x44 ≤ op) && decide (op ≤ 0x4B)) || (decide (0x4E ≤ op) && decide (op ≤ 0x50))

/-- A head that ends the chunk (R122): by its opcode, or because it reads or writes a port. -/
def endsChunk (i : Instr) : Bool :=
  endsChunkOp (i.opcode.getD 0) || i.dataRegs.any fun f => decide (48 ≤ f.toNat)

/-- The operand checks before a head runs: the static ones, no port in an engine hart (R50), no port in a vector
instruction of a gang (R194), prow only where the agent drains a row (R49, R148). -/
def operandsOk (s : State) (i : Instr) : Bool :=
  i.wf &&
  (!(i.dataRegs.any fun f => decide (48 ≤ f.toNat)) ||
   !(isHart s.cur || (decide (0x51 ≤ i.opcode.getD 0) && decide (i.opcode.getD 0 ≤ 0x80) &&
      decide (1 < (members s s.cur).length)))) &&
  (!(i.dataRegs.any fun f => f == 54) || (s.me.drain && s.me.row.isSome))

/-- A kind-0 breakpoint that matches the head at `pc` for an agent (R443): its number and whether it is a halt event. -/
def bpHead (s : State) (q : Nat) (pc : Word) : Option (Nat × Bool) :=
  if isHart q || (s.proc q).skipBp then none
  else
    let c := s.cluster (clusterOf q)
    ((upTo 4).find? fun n => c.tbpc.getLsbD (4 * n) && !c.tbpc.getLsbD (4 * n + 1) && c.tbp[n]?.getD 0 == pc).map
      fun n => (n, c.tbpc.getLsbD (4 * n + 2))

/-- What a matched breakpoint does: a halt event where it says so and debug is enabled, else BREAKPOINT (R443, R444). -/
def bpStop (s : State) (q : Nat) (n : Nat) (act : Bool) : Stop :=
  if act && (s.cluster (clusterOf q)).tdctl.getLsbD 0 then .halt 2 else .trap BREAKPOINT (BitVec.ofNat 64 (0x10000 + n))

/-- The first member of a gang at which a kind-0 breakpoint matches. -/
def bpMember (s : State) (ms : List Nat) (pc : Word) : Option (Nat × Stop) :=
  ms.findSome? fun m => (bpHead s m pc).map fun (n, act) => (m, bpStop s m n act)

/-- The state in which a head's meaning runs: the results due have landed, the chunk before an ending head has
committed, a chunk is open for any other (R121, R122, R141). -/
def beginHead (s : State) (i : Instr) : State :=
  let s1 := (members s s.cur).foldl (fun s m => (landFlight s m s.tide.toNat).modProc m fun p => { p with remIx := 0 }) s
  let u := leader s s.cur
  if endsChunk i then endChunk s1 u
  else
    let full := match (s1.proc u).chunk with
      | none => false
      | some c => decide (512 ≤ c.heads)
    openChunk (if full then commitChunk s1 u else s1) u

/-- The end of a head that completed: the PC of every member, the head counted, the chunk of a single-access chunking
closed (R37, R121, R124). -/
def endHead (s : State) (i : Instr) (nx : Next) : State :=
  if nx.gone then { s with issued := true } else
  let u := leader s s.cur
  let ms := members s s.cur
  let pc := (s.proc u).r.pc
  let t := nx.target.getD (nextPc s u pc)
  let inChunk := (s.proc u).chunk.isSome && !endsChunk i
  let s1 := ms.foldl (fun s m => s.modProc m fun p => { p with
      r := { p.r with pc := t }
      icount := if inChunk then p.icount else p.icount + 1
      waited := 0, skipBp := nx.skipBp, wait := nx.after
      resumeAt := if p.resumeAt.toNat < s.tide.toNat + nx.delay then s.tide + BitVec.ofNat 64 nx.delay else p.resumeAt }) s
  let s2 := if inChunk then s1.modProc u fun p => { p with chunk := p.chunk.map fun c => { c with heads := c.heads + 1 } } else s1
  let s3 := if (s2.proc u).single then commitChunk s2 u else s2
  { s3 with issued := true }

/-- What a trap at a head does: the heads before it commit, then the trap is taken (R122, R150, R153). -/
def trapHead (s : State) (faults : List (Nat × Nat × Word)) (epc : Word) : State :=
  let u := leader s s.cur
  let ms := members s s.cur
  let s1 := endChunk s u
  let s2 := match ms, faults with
    | [q], (_, c, v) :: _ => takeTrap s1 q c epc v false
    | _, _ => takeTrapGang s1 ms faults epc false
  { s2 with issued := true }

/-- The transform slots whose responses core `g` has popped between `s` and `t` stay its own (R266, R270). -/
def keepSlots (s t : State) (g : Nat) : State :=
  let popped := ((s.core g).xq.take ((s.core g).xq.length - (t.core g).xq.length)).map (·.2)
  popped.foldl (fun t k => t.modCluster (g / 8) fun c => { c with
    xslots := match FMap.find (s.cluster (g / 8)).xslots k with
      | some x => c.xslots.put k x
      | none => c.xslots
    xheld := c.xheld.filter fun h => h.1 != k }) t

/-- What a waiting head has not done yet is undone for one member: its registers, its sequence numbers and the core's port
queues come back. What it has sent, claimed or performed stays. -/
def undoLocal (s t : State) (m : Nat) : State :=
  let p := s.proc m
  let t1 := t.modProc m fun x => { x with
    r := p.r, flight := p.flight, due := p.due, jhi := p.jhi, row := p.row, reqBuf := p.reqBuf
    seqCpy := p.seqCpy, seqJob := p.seqJob, seqTow := p.seqTow, seqFord := p.seqFord }
  if isHart m then t1
  else
    let c := s.core (coreOf m)
    (keepSlots s t1 (coreOf m)).modCore (coreOf m) fun x => { x with mesh := c.mesh, qx := c.qx, jetty := c.jetty, xq := c.xq }

/-- What is kept of a member's run that ended in a wait. A wait between the parts of a store, and of a gang's push to qc, keeps
the run; a WAITMEM that sleeps has popped its comparand (R179); a head that waits for another package keeps its packets and what
they did here, and has kicked no engine yet. -/
def keepWait (body : Eff Next) (keep : State) (m : Nat) : State :=
  match body { keep with cur := m } with
  | .error (.wait .parts) t => t.modProc m fun p => { p with wait := .parts }
  | .error (.wait .pushed) t => t.modProc m fun p => { p with wait := .pushed }
  | .error (.wait (.mem l d h)) t => t.modProc m fun p => { p with wait := .mem l d h }
  | .error (.wait (.remote since sent ans va)) t =>
    { (undoLocal keep t m).modProc m fun p => { p with wait := .remote since sent ans va } with
      engines := keep.engines, clusters := keep.clusters }
  | .error (.wait w) t => (undoLocal keep t m).modProc m fun p => { p with wait := w }
  | _ => keep

/-- A meaning run for each member in turn, on its own registers; control follows the first (R168, R173). `acc` is the
state in which every member has completed; `keep` is what stays when a member has to wait. -/
def runMembersFrom (body : Eff Next) (nx : Option Next) (pend : Option Stop) (keep : State) :
    List Nat → State → EStateM.Result Stop State Next
  | [], acc =>
    match pend with
    | some w => .error w keep
    | none => .ok (nx.getD seqNext) acc
  | m :: ms, acc =>
    match body { acc with cur := m } with
    | .ok n t => runMembersFrom body (some (nx.getD n)) pend keep ms t
    | .error (.wait w) _ => runMembersFrom body nx (some (.wait w)) (keepWait body keep m) ms acc
    | .error .stall _ => runMembersFrom body nx (some (pend.getD .stall)) keep ms acc
    | .error e t => .error e t

/-- A meaning run for the members in turn. -/
def runMembers (ms : List Nat) (body : Eff Next) : Eff Next := fun s => runMembersFrom body none none s ms s

/-- The traps that the members raise, each member's meaning run on its own (R153). -/
def memberTraps (ms : List Nat) (body : Eff Next) (s : State) : List (Nat × Nat × Word) :=
  ms.filterMap fun m => match body { s with cur := m } with
    | .error (.trap c v) t => some (t.cur, c, v)
    | .error (.trapAt c v _) t => some (t.cur, c, v)
    | .error (.trapUnpin c v) t => some (t.cur, c, v)
    | .error (.trapLost v) t => some (t.cur, NODE_UNREACHABLE, v)
    | _ => none

/-- A halt event at a head: the heads before it commit and the cluster halts (R445). -/
def haltHead (s : State) (why : Nat) : State :=
  { (commitChunk s (leader s s.cur)).pushTurn .clusterHalt { a := clusterOf s.cur, b := why, c := s.cur } with issued := true }

/-- The lines written by the open chunk of an agent. -/
def chunkLines (s : State) (u : Nat) : Nat :=
  match (s.proc u).chunk with
  | none => 0
  | some c => c.writes.length

/-- The trap that member `m` of `ms` raises at a head; in a gang every member's fault counts (R153). `clean` is the state
`s` as the trap leaves it. -/
def trapMembers (ms : List Nat) (body : Eff Next) (s clean : State) (m c : Nat) (v : Word) : State :=
  match ms with
  | [_] => trapHead clean [(m, c, v)] (s.proc s.cur).r.pc
  | ms =>
    let fs := memberTraps ms body s
    trapHead clean (if fs.isEmpty then [(s.cur, c, v)] else fs) (s.proc s.cur).r.pc

/-- Nothing stays pinned on the cores of `ms` (R135). -/
def unpin (s : State) (ms : List Nat) : State := ms.foldl (fun s m => s.modCore (coreOf m) fun k => { k with pins := [] }) s

/-- The lost remote stores are cleared from the record of each of `ms` (R425). -/
def clearLost (s : State) (ms : List Nat) : State := ms.foldl (fun s m => s.modProc m fun p => { p with remoteOut := p.remoteOut.filter (!·.lost) }) s

/-- Ends a head by what its meaning answered; `s` is the state the meaning began in. -/
def settle (i : Instr) (ms : List Nat) (body : Eff Next) (s : State) (r : EStateM.Result Stop State Next) : State :=
  match r with
  | .ok nx t => endHead { t with cur := s.cur } i nx
  | .error .stall _ => { s with issued := false }
  | .error (.wait _) t =>
    { (members s s.cur).foldl (fun t m => t.modProc m fun p => { p with waited := 0 }) t with cur := s.cur, issued := true }
  | .error (.trapAt c v e) _ => trapHead s [(s.cur, c, v)] e
  | .error (.halt why) _ => haltHead s why
  | .error (.trapUnpin c v) t => trapMembers ms body s (unpin s ms) t.cur c v
  | .error (.trapLost v) t => trapMembers ms body s (clearLost s ms) t.cur NODE_UNREACHABLE v
  | .error (.trap c v) t => trapMembers ms body s s t.cur c v

/-- The checks before a head's meaning, in the order of R43; the meaning runs when they pass. A head that reads a register whose
producer has not completed does not issue (R136, R139). A member whose push to qc has been accepted is done with the head
(R145). A chunk that the head would take past 64 written lines closes before
it (R121). -/
def frame (i : Instr) (each : Bool) (body : Eff Next) (s0 : State) : State :=
  let s := { s0 with cur := leader s0 s0.cur }
  let pc := (s.proc s.cur).r.pc
  if heldBack s s.cur i then { s with issued := false } else
  match legality s s.cur (i.opcode.getD 0) with
  | some c => trapHead s [(s.cur, c, pc)] pc
  | none =>
    if !operandsOk s i then trapHead s [(s.cur, ILLEGAL_OPERAND, pc)] pc
    else match bpMember s (members s s.cur) pc with
      | some (_, .halt why) => haltHead s why
      | some (m, .trap c v) => trapHead s [(m, c, v)] pc
      | some _ => s
      | none =>
        let b := beginHead s i
        let ms := (if each then members s s.cur else [s.cur]).filter fun m => (s.proc m).wait != .pushed
        let r := runMembers ms body b
        match r with
        | .ok _ t =>
          if 64 < chunkLines t s.cur then
            let b' := openChunk (commitChunk b s.cur) s.cur
            settle i ms body b' (runMembers ms body b')
          else settle i ms body b r
        | _ => settle i ms body b r

/-- The meaning of a head that every member of a gang executes on its own state (R173). -/
def runHead (i : Instr) (body : Eff Next) (s : State) : Out := .next (frame i true body s)

/-- The meaning of a head that a gang executes once, for its leader (R194). -/
def runOnce (i : Instr) (body : Eff Next) (s : State) : Out := .next (frame i false body s)

/-- A check that finds an access that has to wait: the head cannot issue (R108, R424); any other code is its trap. -/
def accessStop (c : Nat) (val : Word) : Stop := if c = WAITS then .stall else .trap c val

/-- A general register or zero; for a field that rejects ports (g[B] of R156). -/
def gr (f : BitVec 6) : Eff Word := do return (← get).me.r.readG f.toNat

end Sys2Proof.Machine
end

