-- ==== Sys2Proof/Machine/Flags.lean ====
section
/-!
DEFINITION. Rounding modes and the sticky flags of fcsr (R44, R73 to R81).
-/

namespace Sys2Proof.Machine

/-- A rounding mode (R44); DYN is resolved before it gets here. -/
inductive Mode where
  | rne | rtz | rup | rdn | rna | sr
  deriving DecidableEq, Repr

/-- The mode of a code; the codes 6 and 7 name none and do not reach this. -/
def Mode.ofCode (c : Nat) : Mode :=
  match c with
  | 1 => .rtz | 2 => .rup | 3 => .rdn | 4 => .rna | 5 => .sr | _ => .rne

/-- The sticky flags as bits of fcsr (R73). -/
def NV : Nat := 128
def DZ : Nat := 256
def OF : Nat := 512
def UF : Nat := 1024
def NX : Nat := 2048

/-- The rounding controls an instruction captures at issue (R75) and its stochastic source (R79). -/
structure RCtl where
  mode : Mode := .rne
  fin : Bool := false
  fout : Bool := false
  sat8 : Bool := false
  seed : Word := 0
  core : Nat := 0
  ctr : Word := 0
  deriving DecidableEq, Repr

/-- sr_bits of R79. -/
def srBits (seed : Word) (core : Nat) (ctr : Word) (lane step : Nat) : Nat :=
  let a := mix64 (seed + (ctr + 1) * 0x9E3779B97F4A7C15)
  let b := mix64 (a ^^^ BitVec.ofNat 64 (core * 2 ^ 21) ^^^ BitVec.ofNat 64 (step * 2 ^ 16) ^^^ BitVec.ofNat 64 lane)
  b.toNat % 2 ^ 32

/-- The stochastic bits of a lane and step under the captured controls; used by mode SR only. -/
def RCtl.r (c : RCtl) (lane step : Nat) : Nat := if c.mode = .sr then srBits c.seed c.core c.ctr lane step else 0

def fcsrRmd (f : Word) : Nat := fld f 0 3
def fcsrFin (f : Word) : Bool := f.getLsbD 3
def fcsrFout (f : Word) : Bool := f.getLsbD 4
def fcsrSren (f : Word) : Bool := f.getLsbD 5
def fcsrSat8 (f : Word) : Bool := f.getLsbD 6

/-- The effective mode of a rounding field: DYN takes rmd (R44, R75); SR without sren is RNE (R81). -/
def effMode (f : Word) (rm : Nat) : Mode :=
  let m := Mode.ofCode (if rm = 7 then fcsrRmd f else rm)
  if m = .sr && !fcsrSren f then .rne else m

/-- The controls that a context captures for a rounding field; `core` is the global core number of the leader (R79). -/
def captureCtl (r : Regs) (core rm : Nat) : RCtl :=
  { mode := effMode r.fcsr rm, fin := fcsrFin r.fcsr, fout := fcsrFout r.fcsr, sat8 := fcsrSat8 r.fcsr,
    seed := r.srseed, core := core, ctr := r.srctr }

/-- ORs flags into the fcsr of the leader when its instruction's latency has passed (R74, R75). -/
def raiseFlags (lat : Nat) (fl : Nat) : Eff Unit :=
  if fl = 0 then pure () else result lat (.flags (BitVec.ofNat 64 fl))

/-- Advances sr_ctr after an instruction that drew stochastic bits (R80). -/
def advanceCtr (drew : Bool) : Eff Unit :=
  if drew then modMe fun p => p.withR fun r => { r with srctr := r.srctr + 1 } else pure ()

end Sys2Proof.Machine
end

