-- ==== Sys2Proof/Machine/Float.lean ====
section
/-!
DEFINITION. The arithmetic of R68 to R87 and R202, R203: exact values, one rounding function, the two summation orders.

A finite value is held exactly as (-1)^neg * m * 2^e.
-/

namespace Sys2Proof.Machine

/-- An exact extended real with a signed zero. -/
inductive Ext where
  | nan
  | inf (neg : Bool)
  | fin (neg : Bool) (m : Nat) (e : Int)
  deriving DecidableEq, Repr, Inhabited

/-- A floating-point format: widths of exponent and fraction (R68). -/
structure Fmt where
  code : Nat
  eb : Nat
  fb : Nat
  deriving DecidableEq, Repr

/-- The format of a type code 0 to 4 (R45, R68). -/
def fmtOf (t : Nat) : Fmt :=
  match t with
  | 0 => ⟨0, 8, 23⟩ | 1 => ⟨1, 5, 10⟩ | 2 => ⟨2, 8, 7⟩ | 3 => ⟨3, 4, 3⟩ | _ => ⟨4, 5, 2⟩

def FP32 : Fmt := fmtOf 0
def FP16 : Fmt := fmtOf 1
def BF16 : Fmt := fmtOf 2
def E4M3 : Fmt := fmtOf 3
def E5M2 : Fmt := fmtOf 4

def Fmt.width (f : Fmt) : Nat := 1 + f.eb + f.fb
def Fmt.bias (f : Fmt) : Int := (2 ^ (f.eb - 1) : Nat) - 1
def Fmt.emin (f : Fmt) : Int := 1 - f.bias
/-- The exponent of the largest finite value; E4M3 uses its all-ones exponent for normal values (R68). -/
def Fmt.emax (f : Fmt) : Int := if f.code = 3 then 8 else f.bias
/-- The largest finite significand. -/
def Fmt.maxSig (f : Fmt) : Nat := if f.code = 3 then 14 else 2 ^ (f.fb + 1) - 1
def Fmt.signBit (f : Fmt) (neg : Bool) : Nat := if neg then 2 ^ (f.eb + f.fb) else 0
/-- The canonical NaN (R68). -/
def Fmt.canonicalNan (f : Fmt) : Nat :=
  match f.code with
  | 0 => 0x7FC00000 | 1 => 0x7E00 | 2 => 0x7FC0 | 3 => 0x7F | _ => 0x7E
/-- The encoding of the largest finite value. -/
def Fmt.maxFinite (f : Fmt) : Nat :=
  if f.code = 3 then 0x7E else (2 ^ f.eb - 1) * 2 ^ f.fb - 1
def Fmt.infinity (f : Fmt) : Nat := (2 ^ f.eb - 1) * 2 ^ f.fb
/-- FP32, FP16 and BF16: the formats that fin and fout flush (R73). -/
def Fmt.flushes (f : Fmt) : Bool := decide (f.code ≤ 2)

/-- The value of an encoding (R68). -/
def Fmt.decode (f : Fmt) (x : Nat) : Ext :=
  let fr := bits x 0 f.fb
  let ex := bits x f.fb f.eb
  let neg := decide (bits x (f.eb + f.fb) 1 = 1)
  if ex = 2 ^ f.eb - 1 ∧ f.code ≠ 3 then (if fr = 0 then .inf neg else .nan)
  else if f.code = 3 ∧ ex = 15 ∧ fr = 7 then .nan
  else if ex = 0 then .fin neg fr (f.emin - f.fb)
  else .fin neg (2 ^ f.fb + fr) (ex - f.bias - f.fb)

def Ext.isNan : Ext → Bool
  | .nan => true
  | _ => false
def Ext.isInf : Ext → Bool
  | .inf _ => true
  | _ => false
def Ext.isZero : Ext → Bool
  | .fin _ 0 _ => true
  | _ => false
def Ext.neg : Ext → Bool
  | .nan => false
  | .inf n => n
  | .fin n _ _ => n
def Ext.negate : Ext → Ext
  | .nan => .nan
  | .inf n => .inf !n
  | .fin n m e => .fin (!n) m e
/-- The exact integer `x`. -/
def Ext.ofInt (x : Int) : Ext := .fin (decide (x < 0)) x.natAbs 0
/-- floor(log2(abs(x))) of a nonzero finite value. -/
def Ext.exponent : Ext → Int
  | .fin _ m e => (Nat.log2 m : Int) + e
  | _ => 0
/-- A subnormal of a format, given as an encoding. -/
def Fmt.isSubnormal (f : Fmt) (x : Nat) : Bool := decide (bits x f.fb f.eb = 0) && decide (bits x 0 f.fb ≠ 0)

/-- overflow_value of R77; a finite source also sets of and nx. -/
def overflowValue (f : Fmt) (neg : Bool) (mode : Mode) (sat8 exactInf : Bool) : Nat × Nat :=
  let fl := if exactInf then 0 else OF + NX
  let mx := f.signBit neg + f.maxFinite
  let toMax := f.code = 3 || (f.code = 4 && sat8) ||
    match mode with
    | .rtz => true
    | .rup => neg
    | .rdn => !neg
    | _ => false
  (if toMax then mx else f.signBit neg + f.infinity, fl)

/-- Whether the discarded part `rem / 2^sh` of a significand `n` rounds it up (R76). -/
def roundUp (mode : Mode) (neg : Bool) (n rem sh r : Nat) : Bool :=
  match mode with
  | .rne => decide (2 ^ sh < 2 * rem) || (decide (2 * rem = 2 ^ sh) && decide (n % 2 = 1))
  | .rna => decide (2 ^ sh ≤ 2 * rem)
  | .rtz => false
  | .rup => decide (0 < rem) && !neg
  | .rdn => decide (0 < rem) && neg
  | .sr => decide (2 ^ 32 ≤ rem * 2 ^ 32 / 2 ^ sh + r)

/-- A magnitude `m * 2^e` split at the unit 2^u: floor, remainder and the remainder's width. A part far below the unit
is represented by a remainder of 2^-40, which rounds as it does. -/
def splitAt (m : Nat) (e u : Int) : Nat × Nat × Nat :=
  if u ≤ e then (m * 2 ^ (e - u).toNat, 0, 0)
  else
    let sh := (u - e).toNat
    if Nat.log2 m + 40 < sh then (0, 1, 40) else (m / 2 ^ sh, m % 2 ^ sh, sh)

/-- round_to_format of R76: the encoding and the flags. -/
def roundTo (f : Fmt) (mode : Mode) (fout sat8 : Bool) (r : Nat) (x : Ext) : Nat × Nat :=
  match x with
  | .nan => (f.canonicalNan, 0)
  | .inf neg => overflowValue f neg mode sat8 true
  | .fin neg 0 _ => (f.signBit neg, 0)
  | .fin neg m e =>
    let ex := max ((Nat.log2 m : Int) + e) f.emin
    let u := ex - f.fb
    let (n, rem, sh) := splitAt m e u
    let n' := if roundUp mode neg n rem sh r then n + 1 else n
    let nx := if rem = 0 then 0 else NX
    if f.emax < ex ∨ (ex = f.emax ∧ f.maxSig < n') then
      let (y, fl) := overflowValue f neg mode sat8 false
      (y, fl ||| nx)
    else if n' = 0 then (f.signBit neg, UF ||| nx)
    else if n' < 2 ^ f.fb then
      if fout && f.flushes then (f.signBit neg, UF ||| NX)
      else (f.signBit neg + n', if rem = 0 then 0 else UF ||| nx)
    else (f.signBit neg + ((ex + f.bias).toNat - 1) * 2 ^ f.fb + n', nx)

/-- round_to_format under captured controls, for a lane and step (R75, R79). -/
def RCtl.round (c : RCtl) (f : Fmt) (lane step : Nat) (x : Ext) : Nat × Nat :=
  roundTo f c.mode c.fout c.sat8 (c.r lane step) x

/-! ### Exact operations with the special cases of R84; the second component is flags -/

/-- A finite sum: exact; an exact zero sum of unlike signs is +0, or -0 under RDN. -/
def addFin (mode : Mode) (n1 : Bool) (m1 : Nat) (e1 : Int) (n2 : Bool) (m2 : Nat) (e2 : Int) : Ext :=
  if m1 = 0 ∧ m2 = 0 then .fin (if n1 = n2 then n1 else decide (mode = .rdn)) 0 0
  else if m1 = 0 then .fin n2 m2 e2
  else if m2 = 0 then .fin n1 m1 e1
  else
    let e := min e1 e2
    let a : Int := (m1 * 2 ^ (e1 - e).toNat : Nat)
    let b : Int := (m2 * 2 ^ (e2 - e).toNat : Nat)
    let t := (if n1 then -a else a) + (if n2 then -b else b)
    if t = 0 then .fin (decide (mode = .rdn)) 0 0 else .fin (decide (t < 0)) t.natAbs e

def addExt (mode : Mode) (x y : Ext) : Ext × Nat :=
  match x, y with
  | .nan, _ => (.nan, 0)
  | _, .nan => (.nan, 0)
  | .inf a, .inf b => if a = b then (.inf a, 0) else (.nan, NV)
  | .inf a, _ => (.inf a, 0)
  | _, .inf b => (.inf b, 0)
  | .fin n1 m1 e1, .fin n2 m2 e2 => (addFin mode n1 m1 e1 n2 m2 e2, 0)

def mulExt (x y : Ext) : Ext × Nat :=
  match x, y with
  | .nan, _ => (.nan, 0)
  | _, .nan => (.nan, 0)
  | .inf a, .inf b => (.inf (a != b), 0)
  | .inf a, .fin b m _ => if m = 0 then (.nan, NV) else (.inf (a != b), 0)
  | .fin b m _, .inf a => if m = 0 then (.nan, NV) else (.inf (a != b), 0)
  | .fin n1 m1 e1, .fin n2 m2 e2 => (.fin (n1 != n2) (m1 * m2) (e1 + e2), 0)

/-- a * b + c, to be rounded once. -/
def fmaExt (mode : Mode) (a b c : Ext) : Ext × Nat :=
  let (p, f1) := mulExt a b
  let (r, f2) := addExt mode p c
  (r, f1 ||| f2)

/-- Two finite values compared: negative, zero or positive as x is less, equal or greater. -/
def cmpFin (n1 : Bool) (m1 : Nat) (e1 : Int) (n2 : Bool) (m2 : Nat) (e2 : Int) : Int :=
  let e := min e1 e2
  let a : Int := (m1 * 2 ^ (e1 - e).toNat : Nat)
  let b : Int := (m2 * 2 ^ (e2 - e).toNat : Nat)
  (if n1 then -a else a) - (if n2 then -b else b)

/-- x < y, of values that are not NaN. -/
def ltExt (x y : Ext) : Bool :=
  match x, y with
  | .inf a, .inf b => a && !b
  | .inf a, _ => a
  | _, .inf b => !b
  | .fin n1 m1 e1, .fin n2 m2 e2 => decide (cmpFin n1 m1 e1 n2 m2 e2 < 0)
  | _, _ => false

/-- x = y, of values that are not NaN; the two zeros are equal. -/
def eqExt (x y : Ext) : Bool := !ltExt x y && !ltExt y x && !x.isNan && !y.isNan

/-- Minimum or maximum of R84. -/
def minmaxExt (isMax : Bool) (x y : Ext) : Ext :=
  if x.isNan then y
  else if y.isNan then x
  else if x.isZero && y.isZero then .fin (if isMax then x.neg && y.neg else x.neg || y.neg) 0 0
  else if (if isMax then ltExt x y else ltExt y x) then y else x

/-- A comparison by a condition code of R46 on floating-point values (R84): the result and the flags. -/
def fcond (cc : Nat) (x y : Ext) : Bool × Nat :=
  if x.isNan || y.isNan then (decide (cc = 1), if 2 ≤ cc then NV else 0)
  else match cc with
    | 0 => (eqExt x y, 0)
    | 1 => (!eqExt x y, 0)
    | 2 => (ltExt x y, 0)
    | 3 => (!ltExt x y, 0)
    | 6 => (ltExt y x, 0)
    | _ => (!ltExt y x, 0)

/-- A conversion to an integer in [lo, hi] (R85): the integer and the flags. -/
def toInt (lo hi : Int) (mode : Mode) (r : Nat) (x : Ext) : Int × Nat :=
  match x with
  | .nan => (0, NV)
  | .inf neg => (if neg then lo else hi, NV)
  | .fin _ 0 _ => (0, 0)
  | .fin neg m e =>
    let (n, rem, sh) := splitAt m e 0
    let n' : Int := (if roundUp mode neg n rem sh r then n + 1 else n : Nat)
    let v := if neg then -n' else n'
    if v < lo then (lo, NV) else if hi < v then (hi, NV) else (v, if rem = 0 then 0 else NX)

/-! ### Estimates and approximations (R202, R203) -/

/-- a / b rounded to the nearest integer, ties to even. -/
def divHalfEven (a b : Nat) : Nat :=
  let q := a / b
  let r := a % b
  if 2 * r < b then q else if b < 2 * r then q + 1 else q + q % 2

/-- The integer square root of `x` below 2^32. -/
def isqrt (x : Nat) : Nat :=
  (List.range 16).foldl (fun r k => if (r + 2 ^ (15 - k)) * (r + 2 ^ (15 - k)) ≤ x then r + 2 ^ (15 - k) else r) 0

def rcpEst (x : Ext) : Ext × Nat :=
  match x with
  | .nan => (.nan, 0)
  | .inf n => (.fin n 0 0, 0)
  | .fin n 0 _ => (.inf n, DZ)
  | .fin n m e =>
    let l := Nat.log2 m
    let j := (m - 2 ^ l) * 256 / 2 ^ l
    (.fin n (divHalfEven (2 ^ 22) (513 + 2 * j)) (-(l + e) - 13), 0)

/-- The half of 2^13 / sqrt((j + 64.5) / 64), which is never a tie: half of the rounded double. -/
def rsqEst (x : Ext) : Ext × Nat :=
  match x with
  | .nan => (.nan, 0)
  | .inf n => if n then (.nan, NV) else (.fin false 0 0, 0)
  | .fin n 0 _ => (.inf n, DZ)
  | .fin true _ _ => (.nan, NV)
  | .fin false m e =>
    let l := Nat.log2 m
    let ex := (l : Int) + e
    let odd := ex % 2 = 1
    let j := m * 64 * (if odd then 2 else 1) / 2 ^ l - 64
    let ee := if odd then ex - 1 else ex
    let y := isqrt (2 ^ 35 / (2 * j + 129))
    (.fin false ((y + 1) / 2) (-(ee / 2) - 13), 0)

def exp2Apx (x : Ext) : Ext × Nat :=
  match x with
  | .nan => (.nan, 0)
  | .inf n => (if n then .fin false 0 0 else .inf false, 0)
  | .fin n m e =>
    if 0 ≤ e then
      let a : Int := (m * 2 ^ e.toNat : Nat)
      (.fin false 1 (if n then -a else a), 0)
    else
      let d := (-e).toNat
      let a : Int := if n then -(m : Int) else m
      let k := a / (2 ^ d : Nat)
      let f := (a % (2 ^ d : Nat)).toNat
      (.fin false (2 ^ (3 * d + 14) + f * (11403 * 2 ^ (2 * d) + f * (3676 * 2 ^ d + f * 1305))) (k - (3 * d + 14 : Nat)), 0)

def log2Apx (x : Ext) : Ext × Nat :=
  match x with
  | .nan => (.nan, 0)
  | .inf n => if n then (.nan, NV) else (.inf false, 0)
  | .fin _ 0 _ => (.inf true, DZ)
  | .fin true _ _ => (.nan, NV)
  | .fin false m e =>
    let l := Nat.log2 m
    let u : Int := (m - 2 ^ l : Nat)
    let one : Int := (2 ^ l : Nat)
    let t := ((l : Int) + e) * (2 ^ (3 * l + 14) : Nat) + u * (23386 * (one * one) + u * (-9870 * one + u * 2868))
    (.fin (decide (t < 0)) t.natAbs (-(3 * l + 14 : Nat)), 0)

/-! ### Summation order (R86, R87) -/

/-- One level of tree_sum: neighbours added and rounded; `lane` counts the nodes. -/
def treeLevel (c : RCtl) (f : Fmt) (level : Nat) : Nat → List Nat → List Nat × Nat
  | lane, a :: b :: xs =>
    let (x, f1) := addExt c.mode (f.decode a) (f.decode b)
    let (y, f2) := c.round f lane level x
    let (ys, f3) := treeLevel c f level (lane + 1) xs
    (y :: ys, f1 ||| f2 ||| f3)
  | _, _ => ([], 0)

/-- The levels of tree_sum from `level` on; `fuel` bounds the number of levels. -/
def treeLevels (c : RCtl) (f : Fmt) : Nat → Nat → List Nat → Nat → Nat × Nat
  | _, _, [x], fl => (x, fl)
  | 0, _, xs, fl => (xs.headD 0, fl)
  | k + 1, level, xs, fl =>
    let (ys, g) := treeLevel c f level 0 xs
    treeLevels c f k (level + 1) ys (fl ||| g)

/-- tree_sum of R86 over encodings of `f`. -/
def treeSum (c : RCtl) (f : Fmt) (xs : List Nat) : Nat × Nat := treeLevels c f 14 1 xs 0

/-- The exact leaves of a dot product: the first level of its tree adds exact products (R86). -/
def treeLeaves (c : RCtl) (f : Fmt) : Nat → List Ext → List Nat × Nat
  | lane, a :: b :: xs =>
    let (x, f1) := addExt c.mode a b
    let (y, f2) := c.round f lane 1 x
    let (ys, f3) := treeLeaves c f (lane + 1) xs
    (y :: ys, f1 ||| f2 ||| f3)
  | _, _ => ([], 0)

/-- One round of tree_scan at distance `d`. -/
def scanRound (c : RCtl) (f : Fmt) (level d : Nat) (xs : List Nat) : List Nat × Nat :=
  let r := (upTo xs.length).map fun i =>
    if i < d then (xs.getD i 0, 0)
    else
      let (x, f1) := addExt c.mode (f.decode (xs.getD (i - d) 0)) (f.decode (xs.getD i 0))
      let (y, f2) := c.round f i level x
      (y, f1 ||| f2)
  (r.map (·.1), r.foldl (fun a e => a ||| e.2) 0)

def scanRounds (c : RCtl) (f : Fmt) : Nat → Nat → Nat → List Nat → Nat → List Nat × Nat
  | 0, _, _, xs, fl => (xs, fl)
  | k + 1, level, d, xs, fl =>
    if xs.length ≤ d then (xs, fl)
    else
      let (ys, g) := scanRound c f level d xs
      scanRounds c f k (level + 1) (2 * d) ys (fl ||| g)

/-- tree_scan of R87. -/
def treeScan (c : RCtl) (f : Fmt) (xs : List Nat) : List Nat × Nat := scanRounds c f 14 1 1 xs 0

/-! ### Element types (R45, R85, R188) -/

/-- A floating-point type code. -/
def isFloatCode (t : Nat) : Bool := decide (t ≤ 4)

/-- The range of an integer type (R85, R204). -/
def intRange (t : Nat) : Int × Int :=
  match t with
  | 5 => (-128, 127) | 6 => (0, 255) | 7 => (-32768, 32767) | 8 => (-2147483648, 2147483647)
  | 10 => (-8, 7) | _ => (-9223372036854775808, 9223372036854775807)

/-- An integer element read by its type: unsigned 8-bit unsigned, every other signed. -/
def intOf (t x : Nat) : Int := if t = 6 then (x % 256 : Nat) else sextNat x (typeWidth t)

/-- An integer as the bits of a width. -/
def wrapTo (w : Nat) (x : Int) : Nat := (x % (2 ^ w : Nat)).toNat

/-- One element converted between the types of R213: the bits and the flags. -/
def convertElem (c : RCtl) (ts td lane x : Nat) : Nat × Nat :=
  if isFloatCode td then
    c.round (fmtOf td) lane 0 (if isFloatCode ts then (fmtOf ts).decode x else Ext.ofInt (intOf ts x))
  else
    let (lo, hi) := intRange td
    if isFloatCode ts then
      let (v, fl) := toInt lo hi c.mode (c.r lane 0) ((fmtOf ts).decode x)
      (wrapTo (typeWidth td) v, fl)
    else
      let v := intOf ts x
      if typeWidth ts < typeWidth td then (wrapTo (typeWidth td) v, 0)
      else (wrapTo (typeWidth td) (clampInt lo hi v), if v < lo ∨ hi < v then NV else 0)

/-- The histogram bin of a value (R94). -/
def histBin (x : Ext) : Nat :=
  match x with
  | .nan => 63
  | .inf _ => 63
  | .fin _ 0 _ => 0
  | y => (clampInt 1 62 (y.exponent + 31)).toNat

end Sys2Proof.Machine
end

