-- ==== Sys2Proof/Machine/CoreSection.lean ====
section
/-!
DEFINITION. The core section of a save image (R185, R228, R243, R312), as 8,240 doublewords: what each one holds, and what
writing it does. The debug window shows the same section (R447).

Marks (notes/assumptions): DEDUCED (unsafe) 13, 36, 49; DESIGN CHOICE (unsafe) 32, 62.
-/

namespace Sys2Proof.Machine

def b2n (b : Bool) : Nat := if b then 1 else 0

/-- The bits of a word under a mask. -/
def masked (v : Word) (m : Nat) : Word := v &&& BitVec.ofNat 64 m

/-! ### Registers that gather several fields -/

def BitBuf.lo (b : BitBuf) : Word := b.buf.extractLsb' 0 64
def BitBuf.hi (b : BitBuf) : Word := b.buf.extractLsb' 64 64
/-- bbst (R253). -/
def BitBuf.stat (b : BitBuf) : Word :=
  BitVec.ofNat 64 (b.cnt + 2 ^ 8 * b2n b.reg + 2 ^ 9 * b2n b.und + 2 ^ 10 * b2n (decide (b.lim.toNat ≤ b.ptr.toNat)) +
    2 ^ 12 * b.ptr.toNat + 2 ^ 32 * b.lim.toNat)
/-- bbtab (R253). -/
def BitBuf.tab (b : BitBuf) : Word := BitVec.ofNat 64 (b.tabBase.toNat + 2 ^ 18 * b2n b.tabReg)

/-- The bit-buffer with the fields of a bbst value; `und` is given apart. -/
def BitBuf.withStat (b : BitBuf) (v : Word) (und : Bool) : BitBuf :=
  { b with cnt := fld v 0 8, reg := v.getLsbD 8, und := und, ptr := BitVec.ofNat 18 (fld v 12 18)
           lim := BitVec.ofNat 18 (fld v 32 18) }
/-- The bit-buffer with the fields of a bbtab value. -/
def BitBuf.withTab (b : BitBuf) (v : Word) : BitBuf :=
  { b with tabBase := BitVec.ofNat 18 (fld v 0 18), tabReg := v.getLsbD 18 }

/-- gng (R134). -/
def gngOf (c : Core) : Word := BitVec.ofNat 64 (c.gsize + 2 ^ 3 * b2n (c.gmemb == 0) + 2 ^ 4 * c.gmemb)

/-- The helper slots of core `g` with a property, as bits 1 to 10. -/
def slotMask (s : State) (g : Nat) (f : Proc → Bool) : Nat :=
  ((upTo 10).map fun k => 2 ^ (k + 1) * b2n (f (s.proc (ctl g + 1 + k)))).foldl (· + ·) 0

/-- hlive (R134). -/
def hliveOf (s : State) (g : Nat) : Word :=
  BitVec.ofNat 64 (slotMask s g (·.st == .live) + 2 ^ 10 * slotMask s g (·.st == .ended) +
    2 ^ 20 * slotMask s g fun p => p.st == .live && p.drain)

/-- hstat and hbinj (R191). -/
def hstatOf (c : Core) : Word := BitVec.ofNat 64 (b2n c.hen + 2 * b2n c.hsat)
def hbinOf (c : Core) (j : Nat) : Word := BitVec.ofNat 64 (c.bins.get (2 * j) 0 + 2 ^ 32 * c.bins.get (2 * j + 1) 0)
/-- A core with hbinj written. -/
def Core.setHbin (c : Core) (j : Nat) (v : Word) : Core :=
  { c with bins := (c.bins.put (2 * j) (fld v 0 32)).put (2 * j + 1) (fld v 32 32) }

/-! ### A context slot: 336 doublewords -/

/-- The slot state, and of a live context whether it resumes in a timed phase and the ptim it came with (R185): tstat.ptim shows
both. -/
def slotWord (p : Proc) : Nat :=
  (match p.st with
   | .free => 0
   | .live => 1
   | .ended => 2) + 4 * b2n p.det + 8 * b2n p.drain + 16 * slotOf p.starter + 256 * b2n p.timed + 512 * b2n p.ptim
def savedTstat (p : Proc) : Nat :=
  b2n p.intrap + 2 * b2n (p.timed || p.ptim) + 4 * b2n p.aen + 8 * b2n (!p.pend.isEmpty) + 16 * p.gmem

/-- Doubleword `i` of the image of a context. -/
def ctxWord (p : Proc) (i : Nat) : Word :=
  if p.st == .free then 0
  else match i with
    | 0 => BitVec.ofNat 64 (slotWord p)
    | 1 => p.exitVal
    | 49 => p.r.pc
    | 50 => p.r.fcsr
    | 51 => p.r.srseed
    | 52 => p.r.srctr
    | 53 => p.tvec
    | 54 => BitVec.ofNat 64 (savedTstat p)
    | 55 => p.tscr
    | 56 => p.cause
    | 57 => p.epc
    | 58 => p.tval
    | 59 => p.jhi
    | 60 => p.icount
    | 61 => p.r.bb.lo
    | 62 => p.r.bb.hi
    | 63 => p.r.bb.stat
    | 64 => p.r.bb.tab
    | 328 => p.r.vres
    | i =>
      if i < 49 then p.r.readG (i - 1)
      else if 65 ≤ i ∧ i < 321 then (p.r.readV ((i - 65) / 8)).extractLsb' (64 * ((i - 65) % 8)) 64
      else if 321 ≤ i ∧ i < 328 then p.r.readK (i - 320)
      else 0

/-- A 512-bit value with doubleword `k` replaced. -/
def setLane64 (x : BitVec 512) (k : Nat) (w : Word) : BitVec 512 :=
  BitVec.ofNat 512 (x.toNat % 2 ^ (64 * k) + 2 ^ (64 * k) * w.toNat + x.toNat / 2 ^ (64 * (k + 1)) * 2 ^ (64 * (k + 1)))

/-- The context of slot `k` of core `g` with doubleword `i` of its image written. -/
def setCtxWord (g : Nat) (p : Proc) (i : Nat) (w : Word) : Proc :=
  match i with
  | 0 => { p with
      st := if fld w 0 2 = 0 then .free else if fld w 0 2 = 1 then .live else .ended
      det := w.getLsbD 2, drain := w.getLsbD 3, starter := ctl g + fld w 4 4, timed := w.getLsbD 8, ptim := w.getLsbD 9 }
  | 1 => { p with exitVal := w }
  | 49 => p.withR fun r => { r with pc := w }
  | 50 => p.withR fun r => { r with fcsr := masked w 0xFFF }
  | 51 => p.withR fun r => { r with srseed := w }
  | 52 => p.withR fun r => { r with srctr := w }
  | 53 => { p with tvec := w }
  | 54 => { p with
      intrap := w.getLsbD 0, ptim := if p.timed then p.ptim else w.getLsbD 1, aen := w.getLsbD 2, gmem := fld w 4 4 }
  | 55 => { p with tscr := w }
  | 56 => { p with cause := masked w 0x1FF }
  | 57 => { p with epc := w }
  | 58 => { p with tval := w }
  | 59 => { p with jhi := w }
  | 60 => { p with icount := w }
  | 61 => p.withR fun r => { r with bb := { r.bb with buf := r.bb.hi ++ w } }
  | 62 => p.withR fun r => { r with bb := { r.bb with buf := w ++ r.bb.lo } }
  | 63 => p.withR fun r => { r with bb := (r.bb.withStat w (w.getLsbD 9)).clip }
  | 64 => p.withR fun r => { r with bb := r.bb.withTab w }
  | 328 => p.withR fun r => { r with vres := masked w 0xFFFF }
  | i =>
    if 2 ≤ i ∧ i < 49 then p.withR fun r => r.writeG (i - 1) w
    else if 65 ≤ i ∧ i < 321 then p.withR fun r => r.writeV ((i - 65) / 8) (setLane64 (r.readV ((i - 65) / 8)) ((i - 65) % 8) w)
    else if 321 ≤ i ∧ i < 328 then p.withR fun r => r.writeK (i - 320) w
    else p

/-! ### The items of a core: doublewords 7,792 to 8,239 -/

/-- The inbound queue `k`: qn, qe, qs, qw, qc, then the eight of qx. -/
def inQueue (c : Core) (k : Nat) : Queue := if k < 5 then c.mesh.get k {} else c.qx.get (k - 5) {}
def setInQueue (c : Core) (k : Nat) (x : Queue) : Core :=
  if k < 5 then { c with mesh := c.mesh.put k x } else { c with qx := c.qx.put (k - 5) x }

/-- A replay queue as numbers. -/
def replayNums (es : List (Nat × Flying)) : List (List Nat) := es.map fun e => e.1 :: e.2.issued :: e.2.w.nums

/-- The first 189 doublewords of the replay queue image of `es` (R226): entries whose layout is not disclosed, then the format
identifier in bits 31:0 and the number of instructions in bits 63:32, which is the model's division of that doubleword (log
entry 62). -/
def replayBody (es : List (Nat × Flying)) : List Word :=
  (upTo 188).map (Config.replayWord (replayNums es)) ++
    [BitVec.ofNat 64 (Config.replayFormat % 2 ^ 32 + 2 ^ 32 * (es.map fun e => (e.1, e.2.issued)).eraseDups.length)]
/-- The image: the body, and the integrity code over all of it. -/
def replayImage (es : List (Nat × Flying)) : List Word :=
  let b := replayBody es
  b ++ (upTo 3).map fun i => BitVec.ofNat 64 (bits (Config.replaySeal b) (64 * i) 64)

/-- Doubleword `i` of the items of core `g`. -/
def itemWord (s : State) (g i : Nat) : Word :=
  let c := s.core g
  match i with
  | 0 => c.sdm
  | 1 => BitVec.ofNat 64 c.lnid
  | 2 => gngOf c
  | 3 => hliveOf s g
  | 4 => c.tpin
  | 117 => BitVec.ofNat 64 (((upTo 13).map fun k => 2 ^ (4 * k) * min 8 (inQueue c k).items.length).foldl (· + ·) 0)
  | 182 => BitVec.ofNat 64 (c.jetty.length + 2 ^ 8 * c.reserved)
  | 218 => c.hbind
  | 219 => hstatOf c
  | i =>
    if i < 13 then c.qxmap[i - 5]?.getD 0
    else if i < 117 then ((((inQueue c ((i - 13) / 8)).items)[(i - 13) % 8]?).map (·.1)).getD 0
    else if i < 182 then ((c.jetty[(i - 118) / 2]?).map fun m => m.extractLsb' (64 * ((i - 118) % 2)) 64).getD 0
    else if i < 218 then c.win.get (8 * ((i - 183) / 5 + 1) + (i - 183) % 5) 0
    else if i < 252 then hbinOf c (i - 220)
    else if i < 444 then (replayImage c.replay).getD (i - 252) 0
    else 0

/-- A list of a length, by taking its first elements or adding `d`. -/
def resize {α : Type} (n : Nat) (d : α) (l : List α) : List α := l.take n ++ List.replicate (n - l.length) d

/-- Core `g` with doubleword `i` of its items written. hlive follows the slots, and the replay queue is reloaded apart
(R227). -/
def setItemWord (c : Core) (now : Word) (i : Nat) (w : Word) : Core :=
  match i with
  | 0 => { c with sdm := masked w 0xFFFFFFFFFFFFFF }
  | 1 => { c with lnid := fld w 0 32 }
  | 2 => { c with gsize := min 4 (fld w 0 3), gmemb := fld w 4 4 }
  | 3 => c
  | 4 => { c with tpin := w }
  | 117 => (upTo 13).foldl (fun c k =>
      setInQueue c k { (inQueue c k) with items := resize (min 8 (fld w (4 * k) 4)) (0, now) (inQueue c k).items }) c
  | 182 => { c with jetty := resize (min 32 (fld w 0 6)) 0 c.jetty, reserved := min (32 - min 32 (fld w 0 6)) (fld w 8 6) }
  | 218 => { c with hbind := masked w 0xFFFFFFFF }
  | 219 => { c with hen := w.getLsbD 0, hsat := w.getLsbD 1 }
  | i =>
    if i < 13 then { c with qxmap := c.qxmap.setIfInBounds (i - 5) (masked w 0x3FFFFFFFF) }
    else if i < 117 then
      let k := (i - 13) / 8
      let j := (i - 13) % 8
      let q := inQueue c k
      setInQueue c k { q with items := q.items.set j (w, ((q.items[j]?).map (·.2)).getD now) }
    else if i < 182 then
      let j := (i - 118) / 2
      let m := c.jetty.getD j 0
      { c with jetty := c.jetty.set j (if (i - 118) % 2 = 0 then m.extractLsb' 64 64 ++ w else w ++ m.extractLsb' 0 64) }
    else if i < 218 then { c with win := c.win.put (8 * ((i - 183) / 5 + 1) + (i - 183) % 5) w }
    else if i < 252 then c.setHbin (i - 220) w
    else c

/-! ### The section of a core -/

/-- Doublewords of a core section (R243). -/
def coreDws : Nat := 8240

/-- Doubleword `i` of the section of core `g`. -/
def coreWord (s : State) (g i : Nat) : Word :=
  if i < 4096 then BitVec.ofNat 64 (s.natAt (tcmKey g (8 * i)) 8)
  else if i < 7792 then ctxWord (s.proc (ctl g + (i - 4096) / 336)) ((i - 4096) % 336)
  else itemWord s g (i - 7792)

/-- The state with doubleword `i` of the section of core `g` written. -/
def setCoreWord (s : State) (g i : Nat) (w : Word) : State :=
  if i < 4096 then { s with mem := Memory.writeList s.mem (tcmKey g (8 * i)) (leBytes 8 w.toNat) }
  else if i < 7792 then s.modProc (ctl g + (i - 4096) / 336) fun p => setCtxWord g p ((i - 4096) % 336) w
  else s.modCore g fun c => setItemWord c s.tide (i - 7792) w

/-- The state as the debug window of cluster `gc` shows it (R447): its writes stand, though they take effect at the resume. -/
def debugView (s : State) (gc : Nat) : State := (s.cluster gc).dbg.foldr (fun e t => setCoreWord t (8 * gc + e.1) e.2.1 e.2.2) s

end Sys2Proof.Machine
end

