-- ==== Sys2Proof/Machine/DevRegs.lean ====
section
/-!
DEFINITION. Device register space (R462, R464, R476): what a read returns and what a write does.

A write that the table of operations gives a row of its own (a doorbell, a kill, an enable) puts that step at the front
of the agenda; every other write takes effect here.

Marks (notes/assumptions): DEDUCED (unsafe) 26, 47, 49, 51; DEDUCED (safe) 56.
-/

namespace Sys2Proof.Machine

namespace State
def port (s : State) (p : Nat) : LinkPort := s.ports.get p {}
def modPort (s : State) (p : Nat) (f : LinkPort → LinkPort) : State := { s with ports := s.ports.put p (f (s.port p)) }
def switch (s : State) (n : Nat) : Switch := s.switches.get n {}
def modSwitch (s : State) (n : Nat) (f : Switch → Switch) : State := { s with switches := s.switches.put n (f (s.switch n)) }
def seg (s : State) (a : Nat) : FordSeg := s.fseg.get a {}
def modSeg (s : State) (a : Nat) (f : FordSeg → FordSeg) : State := { s with fseg := s.fseg.put a (f (s.seg a)) }
end State

/-- Raises an MSI-X vector of PF0, or the one vector of a function (R463). -/
def raiseMsix (s : State) (fn vec : Nat) : State := { s with msix := s.msix ++ [(fn, vec)] }

/-- The entry of a route bank for a node (R421, R422). -/
def activeBank (s : State) : FMap Nat := if s.fab.bank then s.fab.rtb1 else s.fab.rtb0
def shadowBank (s : State) : FMap Nat := if s.fab.bank then s.fab.rtb0 else s.fab.rtb1

/-- A commit of the route table (R423): the banks and the versions swap in one step. -/
def routeSwap (s : State) : State :=
  { s with fab := { s.fab with ver := s.fab.sver, sver := s.fab.ver, bank := !s.fab.bank } }

/-- The near memory of a slice has a new size (R108): new bytes read as zero, removed ones are lost. -/
def setNear (s : State) (gs near : Nat) : State :=
  let base := 0x10000000000 + 0x2000000 * gs
  let keep := min near (s.slice gs).near * 2 ^ 20
  let s1 := s.modSlice gs fun c => { c with near := near, parTo := none }
  { s1 with mem := s1.mem.filter fun e => !(decide (base + keep ≤ e.1) && decide (e.1 < base + 0x2000000)) }

/-- A write of a size to slpart.near (R108): a size above 24, or a change still in progress, refuses it; else the change is in
progress until SLICE_PARTITION ends it. -/
def writeNear (s : State) (gs near : Nat) : State :=
  let c := s.slice gs
  if 24 < near ∨ c.parTo.isSome then s.modSlice gs fun c => { c with parErr := true }
  else if near = c.near then s
  else s.modSlice gs fun c => { c with parTo := some near }

/-- A write of pthrs (R342): ignored where warn is 0, retn is not above warn, or retn exceeds 4,095. -/
def setPthrs (s : State) (gc : Nat) (v : Word) : State :=
  let w := fld v 0 16
  let r := fld v 16 16
  if w = 0 ∨ r ≤ w ∨ 4095 < r then s else s.modCluster gc fun c => { c with warn := w, retn := r }

/-- The write that clears every bin of a port (R437). -/
def clearBins (s : State) (p : Nat) : State := s.modPort p fun c => { c with bins := [] }

/-- Removes the shown engine-fault record (R467). -/
def popEfault (s : State) : State := { s with efaults := s.efaults.drop 1 }

/-- Every fence requests a replacement and says so (R473). -/
def noteFence (s : State) : State := raiseMsix { s with rrq := true } 0 3

/-- A Pontoon that serves: calibrated, not fenced, no trip (R338, R473, R475). -/
def pontoonServes (s : State) (c : Cluster) : Bool := c.pontoonUp && !c.fenced && !c.pfenced && decide (s.thermal ≠ 2)

/-- svst (R471). -/
def svst (s : State) : Word :=
  let cl := s.clusters.vals
  let pfn := (s.ports.vals.filter fun p => p.st == 6).length
  let pup := (s.ports.vals.filter fun p => p.st == 2).length
  let fav := (s.fseg.vals.filter fun f => f.lim != 0 && !f.fen).length
  BitVec.ofNat 64 (b2n s.boot + 2 * b2n s.full + 4 * b2n s.rrq + 2 ^ 3 * (cl.filter (pontoonServes s)).length +
    2 ^ 17 * (cl.filter fun c => c.fenced).length + 2 ^ 31 * fav + 2 ^ 36 * pup + 2 ^ 42 * pfn)

/-- efault (R467). -/
def efault (s : State) : Word := (s.efaults.headD 0) ||| (if s.efOvf then BitVec.ofNat 64 (2 ^ 26) else 0)

/-- Doubleword `i` of the debug window of a cluster (R447). -/
def windowWord (s : State) (gc i : Nat) : Word :=
  if s.halted gc ∧ i < coreDws then coreWord (debugView s gc) (8 * gc + fld (s.cluster gc).tdsel 0 3) i else 0

/-- alogc.head (R454): where the next of the records goes. -/
def logPlace (c : Slice) : Nat := if c.logWrap then (if c.logLen = 0 then 0 else c.logHead % c.logLen) else c.logHead

/-- An offset between the blocks of the 64 functions, the 640 slices, the 16 attachments and the 48 ports: no register (R462). -/
def noBlock (off : Nat) : Bool :=
  (decide (0x1400000 ≤ off) && decide (off < 0x2000000)) || (decide (0x2280000 ≤ off) && decide (off < 0x3000000)) ||
  (decide (0x3010000 ≤ off) && decide (off < 0x3100000)) || (decide (0x3130000 ≤ off) && decide (off < 0x3200000))

/-- The doubleword at an offset of device register space; zero where it holds no register. -/
def regRead (s : State) (off : Nat) : Word :=
  if noBlock off then 0
  else if off < 0x1000000 then
    match off / 8 with
    | 0 => svst s
    | 2 => BitVec.ofNat 64 (s.plim + 2 ^ 16 * b2n s.cap)
    | 3 => BitVec.ofNat 64 (s.tmax + 2 ^ 8 * s.thermal)
    | 4 => s.bstat
    | 5 => BitVec.ofNat 64 (s.ecls + 2 ^ 3 * s.eidx + 2 ^ 19 * b2n (s.pilots.any fun e => e.2.st == 3) + 2 ^ 20 * b2n s.ectlErr)
    | 6 => s.emaddr
    | 7 => efault s
    | _ => 0
  else if off < 0x2000000 then
    let f := s.vfOf ((off - 0x1000000) / 0x10000)
    match (off - 0x1000000) % 0x10000 / 8 with
    | 0 => BitVec.ofNat 64 (b2n f.en + 2 * b2n f.busy + 4 * b2n f.err)
    | 1 => f.ptroot
    | 2 => f.htab
    | 3 => f.glist
    | 4 => BitVec.ofNat 64 (2 * b2n f.ib + 4 * f.gcnt)
    | 5 => f.winb
    | 6 => f.sch0
    | 7 => BitVec.ofNat 64 (f.grace + 2 ^ 32 * f.tslice)
    | 8 => f.qtab
    | 9 => BitVec.ofNat 64 (2 ^ 16 * b2n f.kbusy)
    | 10 => f.dump0
    | 11 => BitVec.ofNat 64 (f.nslot + 2 ^ 16 * f.nextSlot)
    | 12 => BitVec.ofNat 64 f.fgnt
    | _ => 0
  else if off < 0x3000000 then
    let c := s.slice ((off - 0x2000000) / 0x1000)
    match (off - 0x2000000) % 0x1000 / 8 with
    | 0 => BitVec.ofNat 64 (c.near + 2 ^ 5 * b2n c.parTo.isSome + 2 ^ 6 * b2n c.parErr)
    | 1 => BitVec.ofNat 64 c.logBase
    | 2 => BitVec.ofNat 64 (b2n c.logEn + 2 * b2n c.logWrap + 4 * b2n c.logOvf + 8 * c.logLen + 2 ^ 24 * logPlace c)
    | _ => 0
  else if off < 0x3100000 then
    let a := (off - 0x3000000) / 0x1000
    let f := s.seg a
    match (off - 0x3000000) % 0x1000 / 8 with
    | 0 => BitVec.ofNat 64 (f.lim + 8 * f.pos + 2 ^ 9 * f.sgid + 2 ^ 25 * b2n f.fbk + 2 ^ 26 * b2n f.fen + 2 ^ 27 * b2n (f.algn && s.full))
    | 1 => BitVec.ofNat 64 (s.pwd.get (48 + a) 1024)
    | _ => 0
  else if off < 0x3200000 then
    let p := (off - 0x3100000) / 0x1000
    let c := s.port p
    match (off - 0x3100000) % 0x1000 / 8 with
    | 0 => BitVec.ofNat 64 (c.tbin + 2 ^ 5 * b2n c.ien + 2 ^ 6 * c.tcnt)
    | 1 => BitVec.ofNat 64 (b2n c.hit + 2 * c.hitLane)
    | 2 => BitVec.ofNat 64 (c.sw + 2 ^ 4 * b2n c.swEn)
    | 3 => BitVec.ofNat 64 (s.pwd.get p 1024)
    | _ => 0
  else if off < 0x3400000 then
    let c := s.switch ((off - 0x3200000) / 0x20000)
    match (off - 0x3200000) % 0x20000 / 8 with
    | 0 => BitVec.ofNat 64 (c.gvf + 2 ^ 6 * b2n c.gen)
    | 1 => BitVec.ofNat 64 (c.st + 4 * c.slot + 2 ^ 4 * c.step + 2 ^ 8 * b2n c.verr + 2 ^ 9 * b2n c.rfail)
    | j + 2 => if j < 544 then c.tt.get j 0 else 0
  else if off < 0x4000000 then
    let f := s.fab
    match (off - 0x3400000) / 8 with
    | 0 => BitVec.ofNat 64 f.node
    | 1 => BitVec.ofNat 64 (f.rnode + 2 ^ 12 * b2n f.trefEn)
    | 2 => BitVec.ofNat 64 (f.ver + 2 ^ 16 * b2n f.bank + 2 ^ 17 * b2n f.err + 2 ^ 32 * f.sver)
    | 3 => BitVec.ofNat 64 f.tmo
    | j + 4 =>
      let bank := if j < 1024 then f.rtb0 else if j < 2048 then f.rtb1 else []
      let n := 4 * (j % 1024)
      BitVec.ofNat 64 (bank.get n 0 + 2 ^ 16 * bank.get (n + 1) 0 + 2 ^ 32 * bank.get (n + 2) 0 + 2 ^ 48 * bank.get (n + 3) 0)
  else if 0x10000000 ≤ off ∧ off < 0x10000000 + 0x1000 * 12800 then
    let c := s.cluster ((off - 0x10000000) / 0x1000)
    match (off - 0x10000000) % 0x1000 / 8 with
    | 0 => BitVec.ofNat 64 (4 * b2n c.fenced + 8 * b2n c.pfenced)
    | 2 => c.tdsel
    | 3 => BitVec.ofNat 64 (c.warn + 2 ^ 16 * c.retn)
    | 4 => c.tdctl
    | 5 => c.tdst
    | 6 => c.tbp[0]
    | 7 => c.tbp[1]
    | 8 => c.tbp[2]
    | 9 => c.tbp[3]
    | 10 => c.tbpc
    | _ => 0
  else if 0x100000000 ≤ off ∧ off < 0x100000000 + 0x20000 * 12800 then
    let gc := (off - 0x100000000) / 0x20000
    windowWord s gc ((off - 0x100000000) % 0x20000 / 8)
  else 0

/-- A write of the doubleword at an offset (R476): `v` is the value after the merge, `w` the data with zero in the bytes
the access does not cover, which is what the W1C and WO bits see. -/
def regWrite (s : State) (off : Nat) (v w : Word) : State :=
  if noBlock off then s
  else if off < 0x1000000 then
    match off / 8 with
    | 1 => if w.getLsbD 0 then s.pushTurn .gofull {} else s
    | 2 => if 1200 ≤ fld v 0 16 ∧ fld v 0 16 ≤ 3000 then { s with plim := fld v 0 16 } else s
    | 5 =>
      let s1 := { s with ecls := fld v 0 3, eidx := fld v 3 14, ectlErr := s.ectlErr && !w.getLsbD 20 }
      if w.getLsbD 17 then s1.pushTurn .ectlGo { w := v }
      else if w.getLsbD 18 then s1.pushTurn .ectlRst { w := v } else s1
    | 6 => { s with emaddr := masked v 0xFFFFFFFFFFFC0 }
    | 7 => { s with efOvf := s.efOvf && !w.getLsbD 26 }
    | 8 => if w.getLsbD 0 then popEfault s else s
    | _ => s
  else if off < 0x2000000 then
    let n := (off - 0x1000000) / 0x10000
    let f := s.vfOf n
    let locked := f.en || f.busy
    let guard := fun (t : State) => if locked then s.modVf n fun c => { c with err := true } else t
    match (off - 0x1000000) % 0x10000 / 8 with
    | 0 =>
      let s1 := s.modVf n fun c => { c with err := c.err && !w.getLsbD 2 }
      if v.getLsbD 0 && !f.en then s1.pushTurn .fcenEnable { a := n }
      else if !v.getLsbD 0 && f.en then s1.pushTurn .fcenDisable { a := n } else s1
    | 1 => guard (s.modVf n fun c => { c with ptroot := masked v 0xFFFFFFFFFF000 })
    | 2 => guard (s.modVf n fun c => { c with htab := masked v 0xFFFFFFFFFE000 })
    | 3 => guard (s.modVf n fun c => { c with glist := masked v 0xFFFFFFFFFFFF0 })
    | 4 =>
      let s1 := if fld v 2 14 = f.gcnt then s else guard (s.modVf n fun c => { c with gcnt := fld v 2 14 })
      if w.getLsbD 0 && !f.ib then (s1.modVf n fun c => { c with ib := true }).pushTurn .translationInvalidate { a := n } else s1
    | 5 => s.modVf n fun c => { c with winb := masked v 0xFFFFFFFFFFFF0000 }
    | 6 => s.modVf n fun c => { c with sch0 := masked v 0x1FF }
    | 7 => s.modVf n fun c => { c with grace := fld v 0 32, tslice := fld v 32 32 }
    | 8 => s.modVf n fun c => { c with qtab := v }
    | 9 =>
      let s1 := if fld w 0 16 ≠ 0 then s.pushTurn .doorbell { a := n, b := fld w 0 16 } else s
      if fld w 32 32 ≠ 0 ∧ f.kbusy = false then
        (s1.modVf n fun c => { c with kbusy := true }).pushTurn .klnidKill { a := n, b := fld w 32 32 }
      else s1
    | 10 => s.modVf n fun c => { c with dump0 := v }
    | 11 => s.modVf n fun c => { c with nslot := fld v 0 16, nextSlot := fld v 16 16 }
    | 12 => guard (s.modVf n fun c => { c with fgnt := fld v 0 16 })
    | _ => s
  else if off < 0x3000000 then
    let gs := (off - 0x2000000) / 0x1000
    match (off - 0x2000000) % 0x1000 / 8 with
    | 0 =>
      let s1 := s.modSlice gs fun c => { c with parErr := c.parErr && !w.getLsbD 6 }
      writeNear s1 gs (fld v 0 5)
    | 1 => s.modSlice gs fun c => { c with logBase := fld v 0 24 / 256 * 256 }
    | 2 => (s.modSlice gs fun c => { c with logOvf := c.logOvf && !w.getLsbD 2 }).pushTurn .alogcWrite { a := gs, w := v }
    | _ => s
  else if off < 0x3100000 then
    let a := (off - 0x3000000) / 0x1000
    match (off - 0x3000000) % 0x1000 / 8 with
    | 0 => s.pushTurn .fsegctlWrite { a := a, w := v }
    | 1 => { s with pwd := s.pwd.put (48 + a) (fld v 0 16) }
    | _ => s
  else if off < 0x3200000 then
    let p := (off - 0x3100000) / 0x1000
    match (off - 0x3100000) % 0x1000 / 8 with
    | 0 =>
      if 1 ≤ fld v 0 5 ∧ fld v 0 5 ≤ 16 then
        s.modPort p fun c => { c with tbin := fld v 0 5, ien := v.getLsbD 5, tcnt := fld v 6 32 } else s
    | 1 =>
      let s1 := s.modPort p fun c => { c with hit := c.hit && !w.getLsbD 0 }
      if w.getLsbD 7 then s1.pushTurn .lhstClear { a := p } else s1
    | 2 => s.modPort p fun c => { c with sw := fld v 0 4, swEn := v.getLsbD 4 }
    | 3 => { s with pwd := s.pwd.put p (fld v 0 16) }
    | _ => s
  else if off < 0x3400000 then
    let n := (off - 0x3200000) / 0x20000
    let c := s.switch n
    match (off - 0x3200000) % 0x20000 / 8 with
    | 0 => s.modSwitch n fun c => { c with gvf := fld v 0 6, gen := v.getLsbD 6 }
    | 1 => s.modSwitch n fun c => { c with verr := c.verr && !w.getLsbD 8, rfail := c.rfail && !w.getLsbD 9 }
    | j + 2 =>
      if 544 ≤ j ∨ (c.st ≠ 0 ∧ j / 136 = c.slot) then s
      else s.modSwitch n fun c => { c with tt := c.tt.put j v }
  else if off < 0x4000000 then
    let f := s.fab
    match (off - 0x3400000) / 8 with
    | 0 => { s with fab := { f with node := fld v 0 12 } }
    | 1 => { s with fab := { f with rnode := fld v 0 12, trefEn := v.getLsbD 12, near := f.near && v.getLsbD 12 && fld v 0 12 == f.rnode } }
    | 2 =>
      let s1 := { s with fab := { f with sver := fld v 32 16, err := f.err && !w.getLsbD 17 } }
      if w.getLsbD 48 then s1.pushTurn .routeCommit {} else s1
    | 3 => { s with fab := { f with tmo := max 1024 (fld v 0 32) } }
    | j + 4 =>
      if 2048 ≤ j then s
      else if (1024 ≤ j) = (f.bank = true) then { s with fab := { f with err := true } }
      else
        let n := 4 * (j % 1024)
        let set := fun (m : FMap Nat) =>
          (((m.put n (fld v 0 16)).put (n + 1) (fld v 16 16)).put (n + 2) (fld v 32 16)).put (n + 3) (fld v 48 16)
        if j < 1024 then { s with fab := { f with rtb0 := set f.rtb0 } } else { s with fab := { f with rtb1 := set f.rtb1 } }
  else if 0x10000000 ≤ off ∧ off < 0x10000000 + 0x1000 * 12800 then
    let gc := (off - 0x10000000) / 0x1000
    match (off - 0x10000000) % 0x1000 / 8 with
    | 0 =>
      let s1 := if w.getLsbD 1 then s.pushTurn .cfencePontoon { a := gc } else s
      if w.getLsbD 0 then s1.pushTurn .cfenceCluster { a := gc } else s1
    | 1 => if w.getLsbD 0 then s.pushTurn .tdgo { a := gc, w := w } else s
    | 2 => s.modCluster gc fun c => { c with tdsel := masked v 7 }
    | 3 => setPthrs s gc v
    | 4 => s.modCluster gc fun c => { c with tdctl := masked v 0xFFF }
    | 6 => s.modCluster gc fun c => { c with tbp := c.tbp.setIfInBounds 0 v }
    | 7 => s.modCluster gc fun c => { c with tbp := c.tbp.setIfInBounds 1 v }
    | 8 => s.modCluster gc fun c => { c with tbp := c.tbp.setIfInBounds 2 v }
    | 9 => s.modCluster gc fun c => { c with tbp := c.tbp.setIfInBounds 3 v }
    | 10 => s.modCluster gc fun c => { c with tbpc := masked v 0x7777 }
    | _ => s
  else if 0x100000000 ≤ off ∧ off < 0x100000000 + 0x20000 * 12800 then
    s.pushTurn .debugWindowAccess { a := (off - 0x100000000) / 0x20000, b := (off - 0x100000000) % 0x20000, c := 1, w := v }
  else s

/-- The kick block and the request-buffer block (R22): neither a program nor microcode reaches them. -/
def isKickBlock (off : Nat) : Bool :=
  (decide (0x4000000 ≤ off) && decide (off < 0x4000000 + 8 * Config.harts)) ||
  (decide (0x200000000 ≤ off) && decide (off < 0x200000000 + 256 * 1139923))

/-- A load of `n` bytes from device register space (R476). -/
def devRead (s : State) (off n : Nat) : Nat := bits (regRead s (off / 8 * 8)).toNat (8 * (off % 8)) (8 * n)

/-- A store of bytes to device register space (R476): merged into the doubleword they lie in. -/
def devWrite (s : State) (off : Nat) (data : List Byte) : State :=
  let sh := 8 * (off % 8)
  let w := BitVec.ofNat 64 (leNat data * 2 ^ sh)
  let m := BitVec.ofNat 64 ((2 ^ (8 * data.length) - 1) * 2 ^ sh)
  regWrite s (off / 8 * 8) ((regRead s (off / 8 * 8) &&& ~~~m) ||| w) w

end Sys2Proof.Machine
end

