-- ==== Sys2Proof/Machine/Remote.lean ====
section
/-!
DEFINITION. Accesses to other packages (R422 to R425, R433) and the logs an arrival writes (R119, R452, R454).

Marks (notes/assumptions): DEDUCED (unsafe) 23, 51; DEDUCED (safe) 24.
-/

namespace Sys2Proof.Machine

/-! ### Logs -/

/-- Puts an entry into a trace ring of 256, which overwrites the oldest (R452). -/
def traceEntry (s : State) (g : Nat) (e : Word) : State :=
  s.modCore g fun c => { c with
    trace := (if c.trace.length < 256 then c.trace else c.trace.drop 1) ++ [e]
    traceEver := if c.traceEver < 2 ^ 32 - 1 then c.traceEver + 1 else c.traceEver }

/-- Whether the trace ring of a core is enabled (R442). -/
def traceOn (s : State) (g : Nat) : Bool := (s.cluster (g / 8)).tdctl.getLsbD (4 + g % 8)

/-- Logs an arrival at core `g` of requester `q`, of node `node` for a fabric arrival and 0 otherwise (R452): `what` is the TCM
offset or the queue number. -/
def logArrival (s : State) (g q node what : Nat) (push : Bool) (size : Nat) : State :=
  if traceOn s g then
    traceEntry s g (BitVec.ofNat 64 (what % 2 ^ 15 + 2 ^ 15 * b2n push + 2 ^ 17 * (if push then 0 else Nat.log2 size) +
      2 ^ 19 * q + 2 ^ 40 * node + 2 ^ 52 * (s.tide.toNat % 2 ^ 12)))
  else s

/-- Logs an arrival from a context's own access: the core's own contexts are no other source (R118, R452). -/
def traceArrival (s : State) (g q node what : Nat) (push : Bool) (size : Nat) : State :=
  if coreOf q = g then s else logArrival s g q node what push size

/-- Writes the current run of a slice as a record of its atomic-order log (R454): not at the end of a buffer that does not wrap,
nor outside the near memory. -/
def flushRun (s : State) (gs : Nat) : State :=
  let c := s.slice gs
  match c.logRun with
  | none => s
  | some (q, node, n) =>
    let pa := 0x10000000000 + 0x2000000 * gs + c.logBase + 8 * logPlace c
    if c.logLen = 0 ∨ (c.logLen ≤ c.logHead ∧ c.logWrap = false) ∨ nearOk s pa = false then
      s.modSlice gs fun c => { c with logRun := none, logOvf := true }
    else (performAt s pa (leBytes 8 (q + 2 ^ 21 * node + 2 ^ 33 * (n - 1)))).modSlice gs fun x => { x with
      logRun := none, logHead := c.logHead + 1, logOvf := c.logOvf || decide (c.logLen ≤ c.logHead) }

/-- Logs one atomic of requester `q` from `node` at a slice (R127, R454). -/
def logAtomic (s : State) (gs q node : Nat) : State :=
  if !(s.slice gs).logEn then s
  else
    let s1 := match (s.slice gs).logRun with
      | some (q', n', _) => if q' = q ∧ n' = node then s else flushRun s gs
      | none => s
    let n := match (s1.slice gs).logRun with
      | some (_, _, n) => n + 1
      | none => 1
    let s2 := s1.modSlice gs fun c => { c with logRun := some (q, node, n) }
    if n = 32768 then flushRun s2 gs else s2

/-- The new value of an atomic (R167): `op` is 0 add, 1 min, 2 max, 3 and, 4 or, 5 xor, 6 swap, 7 compare and swap; `n`
bytes; `u` unsigned. -/
def atomicNew (op n : Nat) (u : Bool) (o y new : Nat) : Nat :=
  let w := 8 * n
  let lt := fun (a b : Nat) => if u then decide (a < b) else decide (sextNat a w < sextNat b w)
  match op with
  | 0 => (o + y) % 2 ^ w
  | 1 => if lt y o then y else o
  | 2 => if lt o y then y else o
  | 3 => o &&& y
  | 4 => o ||| y
  | 5 => o ^^^ y
  | 6 => y
  | _ => if o = y then new else o

/-- An atomic performed at the slice that owns `pa`, as a chunk of one access: the old value (R126). -/
def atomicAt (s : State) (q node pa op n : Nat) (u : Bool) (y new : Nat) : Nat × State :=
  let o := s.natAt pa n
  let s1 := performAt s pa (leBytes n (atomicNew op n u o y new))
  (o, logAtomic s1 (ownerSlice pa) q node)

/-! ### Routes -/

/-- The egress port for a node by the active bank: none where the node is unreachable (R422). -/
def routeOf (bank : FMap Nat) (node : Nat) : Option Nat :=
  let e := bank.get node 0
  if bits e 6 1 = 1 ∧ bits e 7 9 = 0 ∧ (e % 64 < 48 ∨ e % 64 = 63) then some (e % 64) else none

/-- A switch step that holds packets (R433): between its hold and its commit. -/
def holding (s : State) : Bool := s.switches.any fun e => decide (1 ≤ e.2.phase)

/-- A packet to a node that a switch step holds at its lookup (R433). -/
def heldFor (s : State) (node : Nat) : Bool :=
  holding s && (decide ((activeBank s).get node 0 ≠ (shadowBank s).get node 0) ||
    match routeOf (activeBank s) node with
    | none => false
    | some p => (s.port p).drained)

/-- A port that a packet can leave by now: up, or draining what is queued (R420). -/
def portSends (s : State) (p : Nat) : Bool := (s.port p).st == 2

/-- A packet from this package that can leave now: by a port, or to this package itself (port 63). -/
def sendable (s : State) (node : Nat) : Option Nat :=
  if heldFor s node then none
  else match routeOf (activeBank s) node with
    | none => none
    | some p => if p = 63 ∨ portSends s p then some p else none

def sendPacket (s : State) (port : Nat) (p : Packet) : State :=
  { s with fab := { s.fab with outbox := s.fab.outbox ++ [(port, p)] } }

/-- A fabric arrival at this package that reads or writes its memory (R130, R422): the value answered, if any. -/
def serveMem (s : State) (src pa : Nat) (k : PacketKind) : Option Nat × State :=
  if !isOwnMem s pa then (none, s)
  else match k with
    | .load n => (some (s.natAt pa n), s)
    | .store d => (some 0, performAt s pa d)
    | .atomic op n y new =>
      let (o, s') := atomicAt s Config.fabricQ src pa (op % 8) n (decide (8 ≤ op)) y new
      (some o, s')
    | _ => (none, s)

/-- The record of a remote access that is under way in the head in hand, at the agent that waits for it. -/
def remoteState (s : State) (who : Nat) : Word × Bool × List Nat :=
  match (s.proc who).wait with
  | .remote since sent ans _ => (since, sent, ans)
  | _ => (s.tide, false, [])

/-- A remote access of agent `who` is done with answer `v`: the next one of its head issues now. -/
def remoteDone (s : State) (who : Nat) (ans : List Nat) (v : Nat) (va : Word) : State :=
  s.modProc who fun p => { p with wait := .remote s.tide false (ans ++ [v]) va }

/-- A remote store of the agent that moves has left; `lost` where it has met no memory (R425). -/
def noteStore (s : State) (va : Word) (lost : Bool) : State :=
  s.modProc s.cur fun p => { p with remoteOut := p.remoteOut ++ [{ va := va, sent := s.tide, lost := lost, vf := p.vf }] }

/-- A head that waits on with nothing new to keep does not issue again. -/
def remoteWait (s : State) (who : Nat) (w : Wait) : Stop := if (s.proc who).wait = w then .stall else .wait w

/-- One remote access of the head in hand, which agent `who` waits for (R424, R425): its answer, or a wait, or NODE_UNREACHABLE
at the time limit. `own` performs it where the node is this package itself; there a push to a full queue waits (R149). Each
access of a head issues when the one before it is done. -/
def remoteAccess (who node pa : Nat) (va : Word) (kind : PacketKind) (own : State → Option Nat × State) : Eff Nat := do
  let s ← get
  let (since, sent, ans) := remoteState s who
  let k := (s.proc who).remIx
  modify fun s => s.modProc who fun p => { p with remIx := k + 1 }
  let late := decide (s.fab.tmo ≤ s.tide.toNat - since.toNat)
  match ans[k]? with
  | some v => pure v
  | none =>
    if sent then
      if late then throw (.trap NODE_UNREACHABLE va) else throw .stall
    else match sendable s node with
      | none => if late then throw (.trap NODE_UNREACHABLE va) else throw (remoteWait s who (.remote since false ans va))
      | some 63 =>
        match own s, kind with
        | (some v, s'), _ => do
          set (remoteDone (s'.modProc who fun p => { p with remIx := k + 1 }) who ans v va)
          pure v
        | (none, _), .push _ _ _ _ _ => throw (remoteWait s who (.remote since false ans va))
        | (none, _), .store _ => do
          modify fun s => remoteDone (noteStore s va true) who ans 0 va
          pure 0
        | (none, _), _ => throw (.wait (.remote since true ans va))
      | some port => do
        let agent := match kind with
          | .store _ => s.cur
          | _ => who
        modify fun s => sendPacket s port {
          dest := node, src := s.fab.node, requester := leader s s.cur, addr := pa, va := va, agent := agent, since := since
          vf := (s.proc s.cur).vf, kind := kind }
        match kind with
        | .store _ =>
          modify fun s => remoteDone (noteStore s va false) who ans 0 va
          pure 0
        | _ => throw (.wait (.remote since true ans va))

/-- An engine's stores to other packages go out as the hart's: one more, at `va` (R125, R424, R425). -/
def noteEngStore (s : State) (q vf : Nat) (va : Word) : State :=
  s.modProc q fun p => { p with remoteOut := p.remoteOut ++ [{ va := va, sent := s.tide, vf := vf }] }

/-- The stores that agent `q` has sent between `s` and `t` are those of its request `key`. -/
def ownStores (s t : State) (q key : Nat) : State :=
  let n := (s.proc q).remoteOut.length
  if (t.proc q).remoteOut.length ≤ n then t
  else t.modProc q fun p => { p with remoteOut := p.remoteOut.take n ++ (p.remoteOut.drop n).map fun e => { e with key := key } }

/-- A store that is not acknowledged counts as lost tmo cycles after its sending (R425). -/
def isLost (s : State) (e : RemoteStore) : Bool := e.lost || decide (s.fab.tmo ≤ s.tide.toNat - e.sent.toNat)

/-- The stores of request `key` of agent `q` are all acknowledged or lost. -/
def storesDone (s : State) (q key : Nat) : Bool := (s.proc q).remoteOut.all fun e => e.key != key || isLost s e
/-- One of them is lost. -/
def storesLost (s : State) (q key : Nat) : Bool := (s.proc q).remoteOut.any fun e => e.key == key && isLost s e
/-- The request ends: its stores are forgotten. -/
def dropStores (s : State) (q key : Nat) : State :=
  if (s.proc q).remoteOut.isEmpty then s else s.modProc q fun p => { p with remoteOut := p.remoteOut.filter fun e => e.key != key }

/-- What waits until every earlier remote store of the context is acknowledged or lost (R425). -/
def drainRemote : Eff Unit := do
  let out := (← get).me.remoteOut
  if out.any (!·.lost) then throw .stall
  match out with
  | [] => pure ()
  | e :: _ => throw (.trapLost e.va)

end Sys2Proof.Machine
end

