-- ==== Sys2Proof/Machine/Access.lean ====
section
/-!
DEFINITION. Loads and stores (R102 to R112, R156): the address map, the alias windows (R88 to R93), the fault order of
R112, and the regimes of R117.

Marks (notes/assumptions): DESIGN CHOICE (safe) 3; DEDUCED (unsafe) 8, 18, 19, 23, 26, 61; DEDUCED (safe) 55; DESIGN
CHOICE (unsafe) 62.
-/

namespace Sys2Proof.Machine

/-! ### The address map (R102 to R104) -/

/-- Where a virtual address points, before translation. -/
inductive Place where
  | global
  | tcm (g o : Nat)
  | scratch (gc w o : Nat)
  deriving DecidableEq, Repr

/-- The span of alias window `w` (R88). -/
def windowSpan (w : Nat) : Nat := if w = 0 then 0x40000 else if w = 6 then 0x100000 else 0x80000

/-- The cluster that virtual cluster `vc` of function `vf` names: one of its grant, not beyond it, that no other function's
launch holds. Where two grants name one cluster (R239) the spec gives no fault for the other function's access; R7 keeps it
out, and the model does so as for a cluster beyond the grant (log entry 62). -/
def grantedCluster (s : State) (vf vc : Nat) : Option Nat :=
  ((s.vfOf vf).grant[vc]?).filter fun gc => match (s.core (8 * gc)).owner with
    | some (f, _) => f == vf
    | none => true

/-- The map of R102 for agent `q` in virtual function `vf`; none is ADDR_INVALID. -/
def decodeVa (s : State) (q vf va : Nat) : Option Place :=
  if va < 2 ^ 48 then some .global
  else if va < 0xFFFF000000000000 then none
  else if va < 0xFFFF100000000000 then
    let o := va - 0xFFFF000000000000
    if o < 0x8000 ∧ isHart q = false then some (.tcm (coreOf q) o) else none
  else if va < 0xFFFF200000000000 then
    let o := va - 0xFFFF100000000000
    match grantedCluster s vf (o / 0x40000) with
    | some gc => some (.tcm (8 * gc + o / 0x8000 % 8) (o % 0x8000))
    | none => none
  else if va < 0xFFFF300000000000 then
    let o := va - 0xFFFF200000000000
    let w := o / 0x100000
    if w < 8 ∧ o % 0x100000 < windowSpan w ∧ (isHart q = false ∨ isSequencer (hartIx q) = true) then
      some (.scratch (clusterOf q) w (o % 0x100000))
    else none
  else
    let o := va - 0xFFFF300000000000
    let w := o / 0x100000 % 8
    match grantedCluster s vf (o / 0x800000) with
    | some gc => if o % 0x100000 < windowSpan w then some (.scratch gc w (o % 0x100000)) else none
    | none => none

/-! ### Alias windows (R88 to R93) -/

/-- The size of a view element of window `w`. -/
def viewSize (w : Nat) : Nat := if w = 0 then 1 else if w ≤ 2 then 4 else 2

/-- A window's fields, from the control registers (R92). -/
def winField (win : FMap Word) (w k lo n : Nat) : Nat := fld (win.get (8 * w + k) 0) lo n

def winGroup (win : FMap Word) (w : Nat) : Nat := 32 * 2 ^ winField win w 0 3 2

/-- The window faults of R91 for `n` bytes at view offset `o`. -/
def windowFault (win : FMap Word) (w o n : Nat) (store : Bool) : Option Nat :=
  if w = 0 then none
  else if o % viewSize w ≠ 0 ∨ n % viewSize w ≠ 0 then some WINDOW_ALIGN
  else if w ≤ 4 then none
  else if store then some WINDOW_READONLY
  else
    let eorg := winField win w 1 0 20
    let ngrp := winField win w 1 20 16
    let grp := if w = 7 then 32 else winGroup win w
    if (upTo (n / viewSize w)).any (fun i =>
        let j := o / 2 + i
        decide (j < eorg) || decide (ngrp ≤ (j - eorg) / grp) ||
        (if w = 7 then decide (262144 ≤ winField win w 2 0 18 + (j - eorg) / 32)
         else decide (262144 ≤ winField win w 2 0 18 + 2 * ((j - eorg) / grp) + 1) ||
              decide (262144 ≤ winField win w 3 0 18 + (j - eorg) / grp)))
    then some WINDOW_RANGE else none

/-- A stored byte of a scratchpad. -/
def spByte (s : State) (gc o : Nat) : Nat := (s.byteAt (spKey gc o)).toNat

/-- scale * (q - zp) of R69 as BF16 (R89). -/
def decodeGrouped (scale zp q : Nat) (bad : Bool) : Nat :=
  if bad then BF16.canonicalNan
  else (roundTo BF16 .rne false false 0 (mulExt (FP16.decode scale) (Ext.ofInt ((q : Int) - zp))).1).1

/-- 2^(X - 127) * q * 2^-6 of R71, exact. -/
def mxValue (x q : Nat) : Ext :=
  if x = 255 then .nan
  else
    let v := sextNat q 8
    .fin (decide (v < 0)) v.natAbs ((x : Int) - 133)

/-- The view element `j` of window `w` (R88, R89). -/
def windowElem (s : State) (win : FMap Word) (gc w j : Nat) : Nat :=
  let half := fun o => spByte s gc o + 256 * spByte s gc (o + 1)
  let eorg := winField win w 1 0 20
  match w with
  | 0 => spByte s gc j
  | 1 => half (2 * j) * 2 ^ 16
  | 2 => (roundTo FP32 .rne false false 0 (FP16.decode (half (2 * j)))).1
  | 3 => (roundTo BF16 .rne false false 0 (E4M3.decode (spByte s gc j))).1
  | 4 => (roundTo BF16 .rne false false 0 (E5M2.decode (spByte s gc j))).1
  | 5 =>
    let g := (j - eorg) / winGroup win w
    decodeGrouped (half (winField win w 2 0 18 + 2 * g)) (spByte s gc (winField win w 3 0 18 + g)) (spByte s gc j) false
  | 6 =>
    let g := (j - eorg) / winGroup win w
    let zp := spByte s gc (winField win w 3 0 18 + g)
    decodeGrouped (half (winField win w 2 0 18 + 2 * g)) zp (bits (spByte s gc (j / 2)) (4 * (j % 2)) 4) (decide (15 < zp))
  | _ => (roundTo BF16 .rne false false 0 (mxValue (spByte s gc (winField win w 2 0 18 + (j - eorg) / 32)) (spByte s gc j))).1

/-- `n` bytes read through a window at view offset `o`, as a little-endian number. -/
def windowRead (s : State) (win : FMap Word) (gc w o n : Nat) : Nat :=
  let vs := viewSize w
  ((upTo (n / vs)).map fun i => windowElem s win gc w (o / vs + i) * 2 ^ (8 * vs * i)).foldl (· + ·) 0

/-- The format that a window stores and the format of its view (R88). -/
def storedFmt (w : Nat) : Fmt :=
  match w with
  | 1 => BF16 | 2 => FP16 | 3 => E4M3 | _ => E5M2
def viewFmt (w : Nat) : Fmt := if w ≤ 2 then FP32 else BF16

/-- The rounding mode of a window's writes: wrm, DYN taking the storing context's rmd; SR without sren is RNE (R81,
R90). -/
def windowMode (win : FMap Word) (fcsr : Word) (w : Nat) : Mode := effMode fcsr (winField win w 0 0 3)

/-- The bytes a window stores for `n` bytes of view data at view offset `o` (R90); `c` gives the stochastic source and
`lane` the index of the first element in the storing instruction. -/
def windowBytes (win : FMap Word) (c : RCtl) (w o n v lane : Nat) : Nat × List Byte :=
  if w = 0 then (o, leBytes n v)
  else
    let vs := viewSize w
    let f := storedFmt w
    let st := f.width / 8
    (o / vs * st, ((upTo (n / vs)).map fun i =>
      leBytes st (roundTo f c.mode false (winField win w 0 6 1 = 1) (c.r (lane + i) 0)
        ((viewFmt w).decode (bits v (8 * vs * i) (8 * vs)))).1).flatten)

/-! ### The fault order and the access (R112) -/

/-- Whether an access of the kind writes. -/
def Perm.writes : Perm → Bool
  | .store | .engWrite | .atomic => true
  | _ => false

/-- Whether an access of the kind reads. -/
def Perm.reads : Perm → Bool
  | .load | .engRead | .atomic | .fetch | .tow => true
  | _ => false

/-- The stored bytes that an access of `n` bytes at view offset `o` of window `w` touches, the scale and zero-point bytes of W5
to W7 among them. -/
def windowBytesAt (win : FMap Word) (w o n : Nat) : List Nat :=
  let eorg := winField win w 1 0 20
  let els := (upTo (n / viewSize w)).map (o / viewSize w + ·)
  match w with
  | 0 => (upTo n).map (o + ·)
  | 1 | 2 => els.flatMap fun j => [2 * j, 2 * j + 1]
  | 3 | 4 => els
  | 7 => els.flatMap fun j => [j, winField win 7 2 0 18 + (j - eorg) / 32]
  | _ => els.flatMap fun j =>
    let g := (j - eorg) / winGroup win w
    let sc := winField win w 2 0 18 + 2 * g
    [if w = 5 then j else j / 2, sc, sc + 1, winField win w 3 0 18 + g]

/-- A read of `n` bytes at a place meets a soft error that its memory's code cannot correct (R155). -/
def softError (s : State) (win : FMap Word) (l : Loc) (n : Nat) : Bool :=
  !s.poison.isEmpty && match l with
    | .tcm g o => poisoned s (tcmKey g o) n
    | .scratch gc w o => (windowBytesAt win w o n).any fun b => poisoned s (spKey gc b) 1
    | .own pa => poisoned s pa n
    | _ => false

/-- The checks of R112 for an access of `n` bytes aligned to `al`: the place it reaches, or the fault. `win` is the window
control in force and `timed` whether the agent is in a timed phase (R140). -/
def checkAccess (s : State) (q vf : Nat) (win : FMap Word) (va : Word) (n al : Nat) (perm : Perm) (timed : Bool) :
    Except Nat (State × Loc) :=
  match decodeVa s q vf va.toNat with
  | none => .error ADDR_INVALID
  | some p =>
    if va.toNat % al ≠ 0 then .error MISALIGNED
    else match p with
      | .global =>
        if timed then .error TIMED_ACCESS
        else match translate s q vf va.toNat perm with
          | .error c => .error c
          | .ok (s', l) => if perm.reads && softError s' win l n then .error MEM_UNCORRECTABLE else .ok (s', l)
      | .tcm g o =>
        if timed ∧ perm = .load ∧ g ≠ coreOf q then .error TIMED_ACCESS
        else if perm.reads && softError s win (.tcm g o) n then .error MEM_UNCORRECTABLE
        else .ok (s, .tcm g o)
      | .scratch gc w o =>
        if timed ∧ perm = .load ∧ gc ≠ clusterOf q then .error TIMED_ACCESS
        else match windowFault win w o n perm.writes with
          | some c => .error c
          | none =>
            if perm.reads && softError s win (.scratch gc w o) n then .error MEM_UNCORRECTABLE
            else .ok (s, .scratch gc w o)

/-- The window control of the core whose kick carried the request that engine hart `h` has in hand (R93): a Barge's is the one in its
selected slot, a sequencer's its job or its session. -/
def handWin (s : State) (h : Nat) : FMap Word :=
  if h < 640 then
    let e := s.engines.get h {}
    (e.slots.get e.sel {}).win
  else if isSequencer h then
    let po := (s.cluster (h - 640)).pontoon
    match po.job, po.tail, po.tow with
    | some j, _, _ | none, some j, _ => j.req.win
    | none, none, some w => w.cap.win
    | none, none, none => []
  else match (s.fords.get (h - 13440) {}).hand with
    | some j => j.req.win
    | none => []

/-- The window control that an agent's accesses use (R92, R93): its core's, or of an engine hart that of its request. -/
def winOf (s : State) (q : Nat) : FMap Word := if isHart q then handWin s (hartIx q) else (s.core (coreOf q)).win

/-- A kind-1 breakpoint that a store of `n` bytes at `va` matches (R443). -/
def bpStore (s : State) (q : Nat) (va n : Nat) : Option (Nat × Bool) :=
  if isHart q then none
  else
    let c := s.cluster (clusterOf q)
    ((upTo 4).find? fun k => c.tbpc.getLsbD (4 * k) && c.tbpc.getLsbD (4 * k + 1) &&
      decide (va / 8 ≤ (c.tbp[k]?.getD 0).toNat / 8) && decide ((c.tbp[k]?.getD 0).toNat / 8 ≤ (va + n - 1) / 8)).map
      fun k => (k, c.tbpc.getLsbD (4 * k + 2))

/-- The check of an access of the agent that moves; a fault is precise and its tval is the address. -/
def check (va : Word) (n al : Nat) (perm : Perm) : Eff Loc := do
  let s ← get
  if perm.writes then
    match bpStore s s.cur va.toNat n with
    | some (k, act) => throw (bpStop s s.cur k act)
    | none => pure ()
  match checkAccess s s.cur s.me.vf (winOf s s.cur) va n al perm s.me.timed with
  | .error c => throw (accessStop c va)
  | .ok (s', l) => set s'; pure l

/-- Whether a global address lies on a write-combining page (R110). -/
def isWcPageOf (s : State) (q vf va : Nat) : Bool :=
  match leafFor s q vf va with
  | .ok (_, e) => decide (fld e.pte 6 2 = 2)
  | .error _ => false
/-- The same for the agent that moves. -/
def isWcPage (s : State) (va : Nat) : Bool := isWcPageOf s s.cur s.me.vf va

/-- Reads `n` bytes at a checked place, by its regime (R117, R122). `who` is the agent whose wait a remote access is: the one
that moves, or in a vector head of a gang the leader (R195, R424). -/
def readLoc (va : Word) (l : Loc) (n who : Nat) : Eff Nat := do
  match l with
  | .tcm g o => let s ← get; pure (viewNat s s.cur (tcmKey g o) n)
  | .scratch gc w o => let s ← get; pure (windowRead s (winOf s s.cur) gc w o n)
  | .own pa => do
    modify fun s => noteRead s s.cur pa n
    let s ← get
    pure (viewNat s s.cur pa n)
  | .host pa _ => do leaveChunk; let s ← get; pure (s.natAt pa n)
  | .dev off => do leaveChunk; let s ← get; pure (devRead s off n)
  | .remote node pa _ => do
    leaveChunk
    remoteAccess who node pa va (.load n) fun s => serveMem s s.fab.node pa (.load n)

/-- The rounding of a window store of the agent that moves (R90), with the fcsr, srseed and sr_ctr of agent `who`: its
own, or in a vector store of a gang the leader's (R194). -/
def windowCtl (s : State) (who w : Nat) : RCtl :=
  let r := (s.proc who).r
  { mode := windowMode (winOf s s.cur) r.fcsr w, seed := r.srseed, ctr := r.srctr
    core := if isHart s.cur then 0 else coreOf (leader s s.cur) }

/-- The bins that agent `q` counts for `n` bytes of view data `v` stored at a place: those of its view elements, where the place
is a window that counts, tied to the handle the bins are tied to (R95, R222). -/
def windowBins (s : State) (q : Nat) (l : Loc) (n v : Nat) : List Nat :=
  match l with
  | .scratch _ w _ =>
    let c := s.core (coreOf q)
    if !isHart q && decide (1 ≤ w) && decide (w ≤ 4) && c.hen && decide (winField c.win w 0 5 1 = 1) &&
        decide (winField c.win w 4 0 32 = fld c.hbind 0 32) then
      (upTo (n / viewSize w)).map fun i =>
        histBin ((viewFmt w).decode (bits v (8 * viewSize w * i) (8 * viewSize w)))
    else []
  | _ => []

/-- The counts of one instruction are added together when it completes (R222): bins of cores, as (core, bin). -/
def addCounts (cs : List (Nat × Nat)) : Eff Unit := modify fun s => cs.foldl (fun s e => addBin s e.1 e.2 1) s

/-- Notes the virtual line of a held store, for a dump (R459). -/
def noteVa (s : State) (q pa va : Nat) : State :=
  s.modProc (leader s q) fun p => { p with chunk := p.chunk.map fun c => { c with vas := c.vas.put (pa / 32) (va / 32 * 32) } }

/-- A store to host memory, placed in the total order at once (R125). On a write-combining page it gathers in the combining
buffer of its slice, one block of 256 bytes: a store to another block sends the block that is there, and the host goes on
seeing what it saw until the block arrives (R115). -/
def hostStore (s : State) (pa : Nat) (wc : Bool) (bs : List Byte) : State :=
  let cells := cellsAt pa bs
  if wc then
    let seen := cells.foldl (fun m e => if (FMap.find m e.1).isSome then m else m.put e.1 (s.byteAt e.1)) s.hostStale
    let base := pa / 256 * 256
    let put := fun (d : FMap Byte) => cells.foldl (fun d e => FMap.put d e.1 e.2) d
    let gather := fun (ls : List Combine) => match ls.getLast? with
      | some x => if x.base = base ∧ x.sent = false then ls.dropLast ++ [{ x with data := put x.data }]
                  else ls.map (fun y => { y with sent := true }) ++ [{ base := base, data := put [] }]
      | none => [{ base := base, data := put [] }]
    ({ performBytes s cells with hostStale := seen }).modSlice (ownerSlice pa) fun c => { c with wc := gather c.wc }
  else { performBytes s cells with hostStale := s.hostStale.filter fun e => !(cells.any fun c => c.1 == e.1) }

/-- What the host sees of a byte of its memory (R115, R129). -/
def hostSees (s : State) (pa : Nat) : Byte := FMap.get s.hostStale pa (s.byteAt pa)

/-- A block of write-combining stores reaches host memory. -/
def landBlock (s : State) (x : Combine) : State :=
  x.data.foldl (fun s e =>
    { s with hostStale := if s.byteAt e.1 = e.2 then FMap.del s.hostStale e.1 else FMap.put s.hostStale e.1 e.2 }) s

/-- Block `i` of the write-combining stores of slice `gs` reaches host memory: they arrive in any order (R115). -/
def landCombined (s : State) (gs i : Nat) : State :=
  match (s.slice gs).wc[i]? with
  | none => s
  | some x => landBlock (s.modSlice gs fun c => { c with wc := c.wc.eraseIdx i }) x

/-- Every write-combining store has been sent from the host port, before what a fence at system scope lets go after it (R129). -/
def sendCombined (s : State) : State :=
  s.slices.foldl (fun s e => e.2.wc.foldl landBlock (s.modSlice e.1 fun c => { c with wc := [] })) s

/-- Stores `n` bytes at a checked place, by its regime (R117, R122): held in the chunk, or performed at once. `lane` is
the index of the first view element (R79), and `who` the agent whose rounding controls apply. -/
def writeLoc (va : Word) (l : Loc) (n v lane who : Nat) : Eff Unit := do
  let s ← get
  match l with
  | .tcm g o =>
    if isHart s.cur = false ∧ g = coreOf s.cur then
      modify fun s => holdStore s s.cur (tcmKey g o) (leBytes n v)
    else do
      leaveChunk
      modify fun s => traceArrival (performAt s (tcmKey g o) (leBytes n v)) g (leader s s.cur) 0 o false n
  | .scratch gc w o => do
    leaveChunk
    modify fun s =>
      let (b, bs) := windowBytes (winOf s s.cur) (windowCtl s who w) w o n v lane
      performAt s (spKey gc b) bs
  | .own pa => modify fun s => noteVa (holdStore s s.cur pa (leBytes n v)) s.cur pa va.toNat
  | .host pa wc => do leaveChunk; modify fun s => hostStore s pa wc (leBytes n v)
  | .dev off => do
    if isKickBlock off then throw (.trap KICK_FORM va)
    leaveChunk
    modify fun s => devWrite s off (leBytes n v)
  | .remote node pa _ => do
    leaveChunk
    let _ ← remoteAccess who node pa va (.store (leBytes n v)) fun s => serveMem s s.fab.node pa (.store (leBytes n v))
    pure ()

/-- Whether a store through a window drew stochastic bits (R80). -/
def drewAt (s : State) (who : Nat) (l : Loc) : Bool :=
  match l with
  | .scratch _ w _ => decide (1 ≤ w) && decide (w ≤ 4) && (windowCtl s who w).mode == .sr
  | _ => false

/-! ### Scratchpad banks in a timed phase (R143) -/

/-- The stored 4-byte words that an access of `n` bytes at view offset `o` of window `w` touches, the scale and zero-point
words of W5 to W7 among them. -/
def windowWords (win : FMap Word) (w o n : Nat) : List Nat :=
  ((windowBytesAt win w o n).map (· / 4)).eraseDups

/-- The first cycle from `c` on, within `fuel` cycles, in which bank `b` serves nobody. -/
def bankServe (taken : List (Nat × Nat)) (b : Nat) : Nat → Nat → Nat
  | 0, c => c
  | fuel + 1, c => if taken.contains (b, c) then bankServe taken b fuel (c + 1) else c

/-- The accesses of one instruction served in element order after those that have taken their cycles. -/
def BankUse.serve (u : BankUse) (taken : List (Nat × Nat)) : BankUse :=
  { u with served := (u.banks.foldl (fun (acc : List (Nat × Nat)) b =>
      let t := taken ++ acc
      acc ++ [(b, bankServe t b (t.length + 1) u.issued)]) []).map (·.2) }

/-- The cycles that the last access of an instruction waits. -/
def BankUse.wait (u : BankUse) : Nat := u.served.foldl max u.issued - u.issued

/-- The cycles that accesses have taken of their banks. -/
def takenBy (us : List BankUse) : List (Nat × Nat) := us.flatMap fun u => u.banks.zip u.served

/-- An instruction's accesses put among those of a cluster (R143): instructions that issued earlier come first, of those that
issued in one cycle the lower core, whatever order their turns come in. Accesses that are over are dropped. -/
def serveBanks (us : List BankUse) (u : BankUse) : List BankUse :=
  let live := us.filter fun x => x.served.any fun c => decide (u.issued ≤ c)
  let before := live.filter fun x => decide (x.issued < u.issued ∨ (x.issued = u.issued ∧ x.core ≤ u.core))
  let after := live.filter fun x => !decide (x.issued < u.issued ∨ (x.issued = u.issued ∧ x.core ≤ u.core))
  (u :: after).foldl (fun done x => done ++ [x.serve (takenBy done)]) before

/-- The cycles that the last bank access of the instruction issued by core `g` in cycle `now` waits, over clusters `gcs`. -/
def bankWait (s : State) (gcs : List Nat) (g now : Nat) : Nat :=
  gcs.foldl (fun m gc => (s.cluster gc).banks.foldl (fun m u => if u.core = g ∧ u.issued = now then max m u.wait else m) m) 0

/-- The results of an instruction issued in cycle `now` by the cores `gs` arrive `d1` instead of `d0` cycles late. -/
def delayFlight (s : State) (gs : List Nat) (now d0 d1 : Nat) : State :=
  gs.foldl (fun s g => s.modProc (ctl g) fun p =>
    { p with flight := p.flight.map fun f => if f.issued = now then { f with due := f.due + d1 - d0 } else f }) s

/-- The bank accesses of an instruction of the agent that moves, in element order, of 32 banks interleaved by words; `whose`
gives the core that performs each. The cycles that the last of them waited; where they take a bank before an instruction of a
higher core that issued in the same cycle, its results arrive later too. Nothing outside a timed phase. -/
def bankAccess (ls : List (Loc × Nat × Nat)) : Eff Nat := do
  let s ← get
  if !s.me.timed then return 0
  let now := s.tide.toNat
  let me := coreOf s.cur
  let words := (ls.flatMap fun e => match e.1 with
    | .scratch gc w o => (windowWords (winOf s e.2.2) w o e.2.1).map fun x => (gc, x)
    | _ => []).eraseDups
  let gcs := (words.map (·.1)).eraseDups
  let t := gcs.foldl (fun t gc =>
    let u : BankUse := {
      issued := now, core := me, cores := (members s s.cur).map coreOf, gcs := gcs
      banks := (words.filter fun e => e.1 == gc).map fun e => e.2 % 32 }
    t.modCluster gc fun c => { c with banks := serveBanks c.banks u }) s
  let others := (gcs.flatMap fun gc => (s.cluster gc).banks).filter fun u => decide (u.issued = now ∧ me < u.core)
  set (others.foldl (fun t u => delayFlight t u.cores now (bankWait s u.gcs u.core now) (bankWait t u.gcs u.core now)) t)
  return bankWait t gcs me now

/-- load of R156: `n` bytes, aligned to `n`. -/
def load (va : Word) (n : Nat) : Eff Nat := do
  let l ← check va n n .load
  readLoc va l n (← get).cur

/-- store of R156: `n` bytes, aligned to `n`; a store that rounds stochastically advances sr_ctr. -/
def store (va : Word) (n v : Nat) : Eff Unit := do
  let l ← check va n n .store
  let s ← get
  let d := drewAt s s.cur l
  writeLoc va l n v 0 s.cur
  addCounts ((windowBins s s.cur l n v).map fun b => (coreOf s.cur, b))
  let _ ← bankAccess [(l, n, s.cur)]
  advanceCtr d

/-- The published latency of a load, by its place (R142); a place without one completes before the next head in free
mode, the only mode it occurs in. -/
def loadLatency (l : Loc) : Nat :=
  match l with
  | .tcm _ _ => 2
  | .scratch _ 0 _ => 4
  | .scratch _ _ _ => 5
  | _ => 1

/-! ### Accesses of an engine's datapath (R20, R125): performed at once, line by line, with a status for a fault -/

/-- The code of an engine's access at `va` that stands still: WAITS, with the address above it. -/
def waitAt (va : Word) : Nat := WAITS + 2 ^ 16 * va.toNat
/-- A code that says that the access stands still: the engine's step does nothing. -/
def isWait (c : Nat) : Bool := c % 2 ^ 16 == WAITS

/-- The access of agent `q` that code `c` names stands still, since now if it did not before (R424). -/
def noteStall (s : State) (q c : Nat) : State :=
  let k := 2 ^ 64 * q + c / 2 ^ 16
  if (FMap.find s.stalls k).isSome then s else { s with stalls := s.stalls.put k s.tide }

/-- The access of agent `q` at `va` has stood still for tmo cycles (R424). -/
def stallLate (s : State) (q : Nat) (va : Word) : Bool :=
  match FMap.find s.stalls (2 ^ 64 * q + va.toNat) with
  | none => false
  | some t => decide (s.fab.tmo ≤ s.tide.toNat - t.toNat)

/-- A request of agent `q` ends with status `c`: one that an access which stood still has ended leaves none of it. -/
def forgetStalls (s : State) (q c : Nat) : State :=
  if c = NODE_UNREACHABLE then { s with stalls := s.stalls.filter fun e => e.1 / 2 ^ 64 != q } else s

/-- The access of agent `q` at `va` has gone through. -/
def clearStall (s : State) (q : Nat) (va : Word) : State := { s with stalls := FMap.del s.stalls (2 ^ 64 * q + va.toNat) }

/-- What an access of an engine to another package comes to before it is performed (R424): the port its packet leaves by, a wait
until it can leave, or NODE_UNREACHABLE after tmo cycles. -/
def engRoute (s : State) (q node : Nat) (va : Word) : Except Nat Nat :=
  match sendable s node with
  | some port => .ok port
  | none => .error (if stallLate s q va then NODE_UNREACHABLE else waitAt va)

/-- Reads `n` bytes for an engine `q` under function `vf` and window control `win`. What another package answers, and whether it
answers within tmo cycles, is a free value (log entry 23). -/
def engRead (s : State) (q vf : Nat) (win : FMap Word) (va : Word) (n al : Nat) : Except Nat (State × Nat) :=
  match checkAccess s q vf win va n al .engRead false with
  | .error c => .error (if c = WAITS then waitAt va else c)
  | .ok (s', l) =>
    match l with
    | .tcm g o => .ok (s', s'.natAt (tcmKey g o) n)
    | .scratch gc w o => .ok (s', windowRead s' win gc w o n)
    | .own pa => .ok (s', s'.natAt pa n)
    | .host pa _ => .ok (s', s'.natAt pa n)
    | .dev off => .ok (s', devRead s' off n)
    | .remote node pa _ =>
      match engRoute s' q node va with
      | .error c => .error c
      | .ok 63 =>
        match serveMem s' s'.fab.node pa (.load n) with
        | (some v, t) => .ok (clearStall t q va, v)
        | (none, _) => .error NODE_UNREACHABLE
      | .ok port =>
        let x := Config.freeNat s'.freeCtr
        let t := sendPacket (clearStall s' q va) port
          { dest := node, src := s'.fab.node, requester := q, addr := pa, va := va, agent := q, since := s'.tide, vf := vf, kind := .load n }
        if x % 2 = 1 then .error NODE_UNREACHABLE else .ok ({ t with freeCtr := s'.freeCtr + 1 }, x / 2 % 2 ^ (8 * n))

/-- Writes bytes for an engine `q` under function `vf`, with the identity of requester `who` (R32); `c` rounds window writes. Where
wrm names DYN or SR there is no storing context, and no fcsr is read (R288): the model rounds to nearest even (log entry 62). -/
def engWriteAs (s : State) (q who vf : Nat) (win : FMap Word) (c : RCtl) (va : Word) (n al v lane : Nat) : Except Nat State :=
  match checkAccess s q vf win va n al .engWrite false with
  | .error e => .error (if e = WAITS then waitAt va else e)
  | .ok (s', l) =>
    match l with
    | .tcm g o => .ok (logArrival (performAt s' (tcmKey g o) (leBytes n v)) g who 0 o false n)
    | .scratch gc w o =>
      let (b, bs) := windowBytes win { c with mode := windowMode win 0 w } w o n v lane
      .ok (performAt s' (spKey gc b) bs)
    | .own pa => .ok (performAt s' pa (leBytes n v))
    | .host pa wc => .ok (hostStore s' pa wc (leBytes n v))
    | .dev off => if isKickBlock off then .error KICK_FORM else .ok (devWrite s' off (leBytes n v))
    | .remote node pa _ =>
      match engRoute s' q node va with
      | .error c => .error c
      | .ok 63 => .ok (serveMem (clearStall s' q va) s'.fab.node pa (.store (leBytes n v))).2
      | .ok port => .ok (noteEngStore (sendPacket (clearStall s' q va) port {
          dest := node, src := s'.fab.node, requester := who, addr := pa, va := va, agent := q, since := s'.tide, vf := vf
          kind := .store (leBytes n v) }) q vf va)

/-- Writes bytes for an engine `q` as itself. -/
def engWrite (s : State) (q vf : Nat) (win : FMap Word) (c : RCtl) (va : Word) (n al v lane : Nat) : Except Nat State :=
  engWriteAs s q q vf win c va n al v lane

/-- The `n` bytes at a checked place hold `x`: what a request that failed leaves of its destination (R8). Nothing arrives, so
no trace ring logs it; a device register, and memory of another package, stay. -/
def leaveAt (s : State) (win : FMap Word) (l : Loc) (n x : Nat) : State :=
  match l with
  | .tcm g o => performAt s (tcmKey g o) (leBytes n x)
  | .scratch gc w o =>
    let (b, bs) := windowBytes win { mode := windowMode win 0 w } w o n 0 0
    performAt s (spKey gc b) (leBytes bs.length x)
  | .own pa => performAt s pa (leBytes n x)
  | .host pa wc => hostStore s pa wc (leBytes n x)
  | .dev _ => s
  | .remote node pa _ => if sendable s node = some 63 then performAt s pa (leBytes n x) else s

/-- `n` bytes at `va` hold a free value, where engine `q` may write them. -/
def leaveBytes (s : State) (q vf : Nat) (win : FMap Word) (va : Word) (n : Nat) : State :=
  match checkAccess s q vf win va n 1 .engWrite false with
  | .error _ => s
  | .ok (t, l) => leaveAt { t with freeCtr := t.freeCtr + 1 } win l n (Config.freeNat t.freeCtr)

/-- `n` bytes at any alignment, byte by byte. -/
def engReadBytes (s : State) (q vf : Nat) (win : FMap Word) (va : Word) : Nat → Except Nat (State × List Byte)
  | 0 => .ok (s, [])
  | n + 1 =>
    match engRead s q vf win va 1 1 with
    | .error c => .error c
    | .ok (s', b) =>
      match engReadBytes s' q vf win (va + 1) n with
      | .error c => .error c
      | .ok (t, bs) => .ok (t, BitVec.ofNat 8 b :: bs)

def engWriteBytes (s : State) (q vf : Nat) (win : FMap Word) (va : Word) : List Byte → Except Nat State
  | [] => .ok s
  | b :: bs =>
    match engWrite s q vf win {} va 1 1 b.toNat 0 with
    | .error c => .error c
    | .ok s' => engWriteBytes s' q vf win (va + 1) bs

/-- The unit in which an engine moves elements of `w` bytes that stand at `va`: whole elements where they are aligned (R91), else
bytes. -/
def unitAt (va : Word) (w : Nat) : Nat := if va.toNat % w = 0 then w else 1

/-- `n` units of `w` bytes from `va` on, each read as one access. -/
def engReadUnits (s : State) (q vf : Nat) (win : FMap Word) (va : Word) (w : Nat) : Nat → Except Nat (State × List Byte)
  | 0 => .ok (s, [])
  | n + 1 =>
    match engRead s q vf win va w w with
    | .error c => .error c
    | .ok (s', v) =>
      match engReadUnits s' q vf win (va + BitVec.ofNat 64 w) w n with
      | .error c => .error c
      | .ok (t, bs) => .ok (t, leBytes w v ++ bs)

/-- `n` elements of `w` bytes from `va` on. -/
def engReadElems (s : State) (q vf : Nat) (win : FMap Word) (va : Word) (w n : Nat) : Except Nat (State × List Byte) :=
  engReadUnits s q vf win va (unitAt va w) (n * w / unitAt va w)

/-- Units of `w` bytes written from `va` on, each as one access of requester `who`, the first with lane `lane`. -/
def engWriteUnits (s : State) (q who vf : Nat) (win : FMap Word) (c : RCtl) (va : Word) (w lane : Nat) : List Nat → Except Nat State
  | [] => .ok s
  | v :: vs =>
    match engWriteAs s q who vf win c va w w v lane with
    | .error e => .error e
    | .ok s' => engWriteUnits s' q who vf win c (va + BitVec.ofNat 64 w) w (lane + 1) vs

/-- Elements of `w` bytes written from `va` on. -/
def engWriteElems (s : State) (q who vf : Nat) (win : FMap Word) (va : Word) (w : Nat) (xs : List Nat) : Except Nat State :=
  if unitAt va w = w then engWriteUnits s q who vf win {} va w 0 xs
  else engWriteUnits s q who vf win {} va 1 0 ((xs.flatMap (leBytes w)).map BitVec.toNat)

end Sys2Proof.Machine
end

