-- ==== Sys2Proof/Machine/Offer.lean ====
section
/-!
DEFINITION. Offering a request to a cluster's transform unit (R266 to R271), which XREQ and a push to xq share.

Marks (notes/assumptions): DEDUCED (unsafe) 40.
-/

namespace Sys2Proof.Machine

/-- The oldest claim that has no slot held for it yet (R271). -/
def nextClaim (c : Cluster) : Option Nat := c.xclaims.find? fun k => !(c.xheld.any fun h => h.2.1 == k)

/-- Slot `slot` is free from Tide value `t` on: held for the oldest claim that has no held slot, if there is one (R271). -/
def passSlot (c : Cluster) (slot : Nat) (t : Word) : Cluster :=
  match nextClaim c with
  | none => c
  | some k => { c with xheld := c.xheld ++ [(slot, k, t)] }

/-- The held slot whose 128 cycles end first. -/
def firstHeld (l : List (Nat × Nat × Word)) : Option (Nat × Nat × Word) :=
  l.foldl (fun m h =>
    match m with
    | none => some h
    | some x => if h.2.2.toNat < x.2.2.toNat then some h else some x) none

/-- The held slot whose 128 cycles end first, where they have passed at Tide value `now`: its claim lapses, and the slot passes on
at that moment (R271). -/
def lapseOne (c : Cluster) (now : Nat) : Cluster :=
  match firstHeld c.xheld with
  | none => c
  | some (slot, core, t) =>
    if t.toNat + 128 ≤ now then
      passSlot { c with xclaims := c.xclaims.filter (· != core), xheld := c.xheld.filter fun h => h.1 != slot } slot (t + 128)
    else c

/-- A cluster as its claims stand at Tide value `now`: every hold whose 128 cycles have passed has lapsed (R271). -/
def lapsed (c : Cluster) (now : Nat) : Cluster := (upTo (c.xclaims.length + c.xheld.length)).foldl (fun c _ => lapseOne c now) c

/-- The claims of a cluster brought up to now. -/
def lapseHeld (s : State) (gc : Nat) : State := s.modCluster gc fun c => lapsed c s.tide.toNat

/-- A slot is freed (R270, R271). -/
def freeSlot (s : State) (gc slot : Nat) : State :=
  s.modCluster gc fun c => let c1 := lapsed c s.tide.toNat; passSlot { c1 with xslots := c1.xslots.del slot } slot s.tide

/-- Slots held by a core (R266). -/
def slotsOf (c : Cluster) (core : Nat) : Nat := (c.xslots.filter fun e => e.2.core == core).length

/-- The slot a core's request can take: the one held for it, or one free and not held (R271). -/
def slotFor (c : Cluster) (core : Nat) : Option Nat :=
  match c.xheld.find? fun h => h.2.1 == core with
  | some h => some h.1
  | none => (upTo 8).find? fun k => (c.xslots.find k).isNone && !(c.xheld.any fun h => h.1 == k)

/-- The record checks of R267. -/
def xrecOk (r : List Word) : Bool :=
  let d := fun (i : Nat) => r.getD i 0
  let op := fld (d 0) 0 4
  let prm := d 3
  decide (op ≤ 2) && decide (fld (d 0) 12 52 = 0) && decide (fld (d 4) 0 5 = 0) && d 6 == 0 && d 7 == 0 &&
  (decide (op = 1) || d 5 == 0) &&
  (match op with
   | 0 => decide (fld prm 6 26 = 0) && decide (1 ≤ fld prm 32 32) && decide (fld prm 32 32 ≤ 262144)
   | 1 => decide (fld prm 26 38 = 0) &&
       decide ((fld prm 2 12 + 1) * (fld prm 14 12 + 1) * 2 ^ fld prm 0 2 ≤ 65536)
   | _ => decide (fld prm 28 36 = 0) && decide (fld prm 0 4 ≤ 9) && decide (fld prm 4 4 ≤ 9) &&
       decide (fld prm 8 3 ≠ 5) && decide (fld prm 8 3 ≠ 6))

/-- The answer to an offer. -/
inductive Offer where
  | accepted (slot tag : Nat)
  | full
  | busy (ahead : Nat)
  deriving DecidableEq, Repr

/-- Claims ahead of a core's (R269). -/
def claimsAhead (c : Cluster) (core : Nat) : Nat := (c.xclaims.takeWhile (· != core)).length

/-- Offers the request whose record stands at `ea` (R269, R270). -/
def offer (ea : Word) : Eff Offer := do
  let l ← check ea 64 64 .load
  modify fun s => lapseHeld s (clusterOf s.cur)
  let s ← get
  let gc := clusterOf s.cur
  let core := coreOf s.cur
  let c := s.cluster gc
  if 4 ≤ slotsOf c core then pure .full
  else match slotFor c core with
    | none => do
      if !c.xclaims.contains core then
        modify fun s => s.modCluster gc fun c => { c with xclaims := c.xclaims ++ [core] }
      pure (.busy (claimsAhead c core))
    | some k => do
      let v ← readLoc ea l 64 s.cur
      let r := (upTo 8).map fun i => BitVec.ofNat 64 (bits v (64 * i) 64)
      if !xrecOk r then throw (.trap RESERVED_FIELD ea)
      leaveChunk
      let p := s.me
      let x : XSlot := {
        core := core, q := s.cur, vf := p.vf, rec8 := r, fcsr := p.r.fcsr, srseed := p.r.srseed, srctr := p.r.srctr
        srcore := coreOf (leader s s.cur), wdc := c.xwd, order := c.xorder }
      modify fun s => s.modCluster gc fun c => { c with
        xslots := c.xslots.put k x, xorder := c.xorder + 1
        xclaims := c.xclaims.filter (· != core), xheld := c.xheld.filter fun h => h.1 != k }
      pure (.accepted k (fld (r.getD 0 0) 4 8))

end Sys2Proof.Machine
end

