-- ==== Sys2Proof/Machine/Operands.lean ====
section
/-!
DEFINITION. The operand forms: general registers and ports as sources and destinations (R48 to R50, R144 to R149, R156),
and the elements of vector registers and predicates (R188, R189, R192).

Marks (notes/assumptions): DEDUCED (safe) 15; DESIGN CHOICE (unsafe) 62.
-/

namespace Sys2Proof.Machine

/-! ### Port queues -/

/-- A core at a mesh position of a die (R13). -/
def coreAt (die col row : Nat) : Nat :=
  die * 12800 + (row / 2 * 40 + col / 4) * 8 + row % 2 * 4 + col % 4
def meshCol (g : Nat) : Nat := 4 * (g % 12800 / 8 % 40) + g % 4
def meshRow (g : Nat) : Nat := 2 * (g % 12800 / 8 / 40) + g % 8 / 4

/-- The neighbour of a core: 0 north, 1 east, 2 south, 3 west (R13). -/
def neighbour (g dir : Nat) : Option Nat :=
  let d := g / 12800
  let c := meshCol g
  let r := meshRow g
  match dir with
  | 0 => if r = 0 then none else some (coreAt d c (r - 1))
  | 1 => if c = 159 then none else some (coreAt d (c + 1) r)
  | 2 => if r = 79 then none else some (coreAt d c (r + 1))
  | _ => if c = 0 then none else some (coreAt d (c - 1) r)

/-- Two cores of one launch. -/
def sameLaunch (s : State) (g h : Nat) : Bool := (s.core g).owner.isSome && (s.core g).owner == (s.core h).owner

/-- Items of a queue that count as outstanding at a Tide value, where a pop counts for `k` cycles more (R145). -/
def Queue.outstanding (q : Queue) (now k : Nat) : Nat :=
  q.items.length + (q.popped.filter fun t => decide (now < t.toNat + k)).length

/-- The queue with an item that may be popped from `ready` on. -/
def Queue.push (q : Queue) (x : Word) (ready : Word) : Queue := { q with items := q.items ++ [(x, ready)] }

/-- The oldest item, if it may be popped now. -/
def Queue.front (q : Queue) (now : Word) : Option Word :=
  match q.items with
  | (x, r) :: _ => if r.toNat ≤ now.toNat then some x else none
  | [] => none

/-- The queue without its oldest item, whose pop is remembered while it counts as outstanding. -/
def Queue.pop (q : Queue) (now : Word) : Queue :=
  { items := q.items.drop 1, popped := (q.popped.filter fun t => decide (now.toNat < t.toNat + 4)) ++ [now] }

/-- An empty port: the head waits in free mode and raises SCHED_EMPTY in a timed phase (R136, R140). -/
def emptyPort (port : Nat) : Eff Word := do
  if (← get).me.timed then throw (.trap SCHED_EMPTY (BitVec.ofNat 64 port)) else throw .stall

/-- A port with no space: the head waits in free mode and raises SCHED_FULL in a timed phase. -/
def fullPort (port : Nat) : Eff Unit := do
  if (← get).me.timed then throw (.trap SCHED_FULL (BitVec.ofNat 64 port)) else throw .stall

/-- The own inbound queue of a mesh or broadcast port, 0 to 4. -/
def meshQueue (s : State) (g d : Nat) : Queue := (s.core g).mesh.get d {}
def setMesh (s : State) (g d : Nat) (q : Queue) : State := s.modCore g fun c => { c with mesh := c.mesh.put d q }

/-- A pop of qn, qe, qs or qw (R144, R146). -/
def popMesh (d : Nat) : Eff Word := do
  let s ← get
  let g := coreOf s.cur
  match neighbour g d with
  | none => throw (.trap PORT_EDGE (BitVec.ofNat 64 (48 + d)))
  | some h =>
    if !sameLaunch s g h then throw (.trap PORT_EDGE (BitVec.ofNat 64 (48 + d)))
    else match (meshQueue s g d).front s.tide with
      | none => emptyPort (48 + d)
      | some x => do
        modify fun s => setMesh s g d ((meshQueue s g d).pop s.tide)
        pure x

/-- A push to qn, qe, qs or qw: the neighbour's queue from the opposite side (R13, R145, R146). -/
def pushMesh (d : Nat) (x : Word) : Eff Unit := do
  let s ← get
  let g := coreOf s.cur
  match neighbour g d with
  | none => throw (.trap PORT_EDGE (BitVec.ofNat 64 (48 + d)))
  | some h =>
    if !sameLaunch s g h then throw (.trap PORT_EDGE (BitVec.ofNat 64 (48 + d)))
    else
      let q := meshQueue s h ((d + 2) % 4)
      if q.outstanding s.tide.toNat 3 < 8 then
        modify fun s => setMesh s h ((d + 2) % 4) (q.push x (s.tide + 3))
      else fullPort (48 + d)

/-- A pop of qc. -/
def popQc : Eff Word := do
  let s ← get
  let g := coreOf s.cur
  match (meshQueue s g 4).front s.tide with
  | none => emptyPort 52
  | some x => do
    modify fun s => setMesh s g 4 ((meshQueue s g 4).pop s.tide)
    pure x

/-- The eight cores of a cluster. -/
def coresOf (gc : Nat) : List Nat := (upTo 8).map fun c => 8 * gc + c

/-- The cycle in which a cluster can next accept a push to qc. -/
def qcNext (s : State) (gc : Nat) : Word :=
  match (s.cluster gc).qcLast with
  | some t => if s.tide.toNat ≤ t.toNat then t + 1 else s.tide
  | none => s.tide

/-- A push to qc: to every core of the cluster, one push per cluster and cycle (R145). Of the members of a gang in one cluster each
pushes in a cycle of its own: one whose item has been accepted waits until the others' have been. Where the gang's instruction
runs once (`once`), its members' items are accepted in cycles that follow one another, and it completes with the last. -/
def pushQc (once : Bool) (x : Word) : Eff Unit := do
  let s ← get
  let gc := clusterOf s.cur
  let space := (coresOf gc).all fun h => decide ((meshQueue s h 4).outstanding s.tide.toNat 4 < 8)
  let t := qcNext s gc
  if space && (t == s.tide || (once && !s.me.timed)) then do
    modify fun s =>
      let s1 := (coresOf gc).foldl (fun s h => setMesh s h 4 ((meshQueue s h 4).push x (t + 4))) s
      s1.modCluster gc fun c => { c with qcLast := some t }
    if t != s.tide then modMe fun p => { p with resumeAt := t + 1 }
    if !once && !s.me.timed && (members s s.cur).any fun m => m != s.cur && clusterOf m == gc && (s.proc m).wait != .pushed then
      throw (.wait .pushed)
  else fullPort 52

/-- A read of jet: pops the oldest message whole; its upper half goes to jhi (R147). -/
def popJet : Eff Word := do
  let s ← get
  let g := coreOf s.cur
  match (s.core g).jetty with
  | [] => emptyPort 53
  | m :: ms => do
    modify fun s => s.modCore g fun c => { c with jetty := ms }
    modMe fun p => { p with jhi := m.extractLsb' 64 64 }
    pure (m.extractLsb' 0 64)

/-- A read of prow: two elements of the row that a row-drain helper holds (R148). -/
def popProw : Eff Word := do
  let s ← get
  match s.me.drain, s.me.row with
  | true, some r =>
    if 16 ≤ r.reads then throw (.trap PORT_OVERRUN 54)
    else do
      modMe fun p => { p with row := some { r with reads := r.reads + 1 } }
      pure (r.values.getD (2 * r.reads + 1) 0 ++ r.values.getD (2 * r.reads) 0)
  | _, _ => throw (.trap ILLEGAL_OPERAND s.me.r.pc)

/-- A read of xq: the core's oldest transform response, whose slot is freed (R266, R270). -/
def popXq : Eff Word := do
  let s ← get
  let g := coreOf s.cur
  match (s.core g).xq with
  | [] => emptyPort 55
  | (x, slot) :: rest => do
    modify fun s => freeSlot (s.modCore g fun c => { c with xq := rest }) (g / 8) slot
    pure x

/-- A push to xq offers the request at the pushed address (R270). In free mode it waits until it is accepted; a claim that a
retry makes is kept. -/
def pushXq (x : Word) : Eff Unit := do
  let s ← get
  let claims := fun (s : State) => (s.cluster (clusterOf s.cur)).xclaims
  let a ← offer x
  let t ← get
  match a, s.me.wait with
  | .accepted _ _, _ => pure ()
  | _, .engine since => if claims t = (lapsed (s.cluster (clusterOf s.cur)) s.tide.toNat).xclaims then throw .stall else throw (.wait (.engine since))
  | _, _ => if s.me.timed then throw (.trap SCHED_FULL 55) else throw (.wait (.engine s.tide))

def qxQueue (s : State) (g n : Nat) : Queue := (s.core g).qx.get n {}
def setQx (s : State) (g n : Nat) (q : Queue) : State := s.modCore g fun c => { c with qx := c.qx.put n q }

/-- A pop of qxN: the core's own inbound queue N (R149). -/
def popQx (n : Nat) : Eff Word := do
  let s ← get
  let g := coreOf s.cur
  match (qxQueue s g n).front s.tide with
  | none => emptyPort (56 + n)
  | some x => do
    modify fun s => setQx s g n ((qxQueue s g n).pop s.tide)
    pure x

/-- An item arrives at an inbound qx queue, with its trace entry (R119, R149, R452). -/
def arriveQx (s : State) (g n q node : Nat) (x : Word) : State :=
  traceArrival (setQx s g n ((qxQueue s g n).push x s.tide)) g q node n true 0

/-- A push from the fabric at this package (R149): refused unless the target is a core of a launch with mdom = 1 and the
sender's xid; none while the queue is full. -/
def serveQx (s : State) (node g n xid : Nat) (x : Word) : Option (Bool × State) :=
  let c := s.core g
  if c.owner.isNone || fld c.sdm 3 1 != 1 || fld c.sdm 44 12 != xid then some (false, s)
  else if 8 ≤ (qxQueue s g n).items.length then none
  else some (true, arriveQx s g n Config.fabricQ node x)

/-- The global core of a virtual cluster and core of function `vf`. -/
def vcore (s : State) (vf vcl c : Nat) : Option Nat := ((s.vfOf vf).grant[vcl]?).map fun gc => 8 * gc + c

/-- A push to qxN: the queue that qxmapN names, on this package or another (R149). -/
def pushQx (once : Bool) (n : Nat) (x : Word) : Eff Unit := do
  let s ← get
  let g := coreOf s.cur
  let m := (s.core g).qxmap[n]?.getD 0
  let unmapped : Eff Unit := throw (.trap PORT_UNMAPPED (BitVec.ofNat 64 (56 + n)))
  if s.me.timed then throw (.trap TIMED_ACCESS s.me.r.pc)
  else if !m.getLsbD 0 then unmapped
  else
    let tgt := vcore s s.me.vf (fld m 7 14) (fld m 4 3)
    let tport := fld m 1 3
    if m.getLsbD 21 then do
      let xid := fld (s.core g).sdm 44 12
      let node := fld m 22 12
      let kind := PacketKind.push (fld m 7 14) (fld m 4 3) tport xid x
      -- R424 puts the accessing address into tval and a push has none: the port number stands for it (log entry 62)
      let v ← remoteAccess (if once then leader s s.cur else s.cur) node 0 (BitVec.ofNat 64 (56 + n)) kind fun s =>
        match tgt with
        | none => (some 1, s)
        | some h =>
          match serveQx s s.fab.node h tport xid x with
          | none => (none, s)
          | some (ok, s') => (some (if ok then 0 else 1), s')
      if v = 0 then pure () else unmapped
    else match tgt with
      | none => unmapped
      | some h =>
        if !sameLaunch s g h then unmapped
        else if 8 ≤ (qxQueue s h tport).items.length then throw .stall
        else modify fun s => arriveQx s h tport (if h = g then s.cur else leader s s.cur) 0 x

/-- pop_port of R156. -/
def popPort (f : Nat) : Eff Word :=
  match f with
  | 48 => popMesh 0 | 49 => popMesh 1 | 50 => popMesh 2 | 51 => popMesh 3
  | 52 => popQc | 53 => popJet | 54 => popProw | 55 => popXq
  | n => popQx (n - 56)

/-- push_port of R156; jet and prow take no push (R49). `once` says that the instruction runs once for its gang. -/
def pushPort (once : Bool) (f : Nat) (x : Word) : Eff Unit :=
  match f with
  | 48 => pushMesh 0 x | 49 => pushMesh 1 x | 50 => pushMesh 2 x | 51 => pushMesh 3 x
  | 52 => pushQc once x
  | 53 => do throw (.trap ILLEGAL_OPERAND (← get).me.r.pc)
  | 54 => do throw (.trap ILLEGAL_OPERAND (← get).me.r.pc)
  | 55 => pushXq x
  | n => pushQx once (n - 56) x

/-! ### Sources and destinations (R156) -/

/-- src of R156. -/
def src (f : BitVec 6) : Eff Word := if f.toNat < 48 then gr f else popPort f.toNat

/-- dst of R156, for a result with a published latency. -/
def dst (lat : Nat) (f : BitVec 6) (x : Word) : Eff Unit :=
  if f.toNat = 0 then pure ()
  else if f.toNat < 48 then result lat (.g f.toNat x)
  else pushPort false f.toNat x

/-- dst on every member of the gang of the agent that moves (R194). -/
def dstAll (lat : Nat) (f : BitVec 6) (x : Word) : Eff Unit := do
  let s ← get
  let q := s.cur
  (members s q).forM fun m => do
    modify fun s => { s with cur := m }
    if f.toNat < 48 then dst lat f x else pushPort true f.toNat x
  modify fun s => { s with cur := q }

/-! ### Vectors of a gang (R187, R188, R192) -/

/-- VL in bits (R187). -/
def vl (s : State) : Nat := 512 * (members s s.cur).length

/-- Elements of a vector of a width (R188). -/
def elems (s : State) (w : Nat) : Nat := vl s / w

/-- A gang vector register as one number: member m's slice at bits 512 m (R192). -/
def readVec (s : State) (n : Nat) : Nat :=
  ((members s s.cur).zip (upTo 16)).foldl (fun acc e => acc + ((s.proc e.1).r.readV n).toNat * 2 ^ (512 * e.2)) 0

/-- A gang predicate register as one number: member m's bits at 64 m; k0 is all true. -/
def readPred (s : State) (n : Nat) : Nat :=
  ((members s s.cur).zip (upTo 16)).foldl (fun acc e => acc + ((s.proc e.1).r.readK n).toNat * 2 ^ (64 * e.2)) 0

/-- Writes the bits under `mask` of a gang vector register (R189), each member its own slice. -/
def writeVec (lat n mask x : Nat) : Eff Unit := do
  let s ← get
  let q := s.cur
  ((members s q).zip (upTo 16)).forM fun e => do
    modify fun s => { s with cur := e.1 }
    result lat (.v n (BitVec.ofNat 512 (bits mask (512 * e.2) 512)) (BitVec.ofNat 512 (bits x (512 * e.2) 512)))
  modify fun s => { s with cur := q }

/-- Writes the bits under `mask` of a gang predicate register. -/
def writePred (lat n mask x : Nat) : Eff Unit := do
  let s ← get
  let q := s.cur
  ((members s q).zip (upTo 16)).forM fun e => do
    modify fun s => { s with cur := e.1 }
    result lat (.k n (BitVec.ofNat 64 (bits mask (64 * e.2) 64)) (BitVec.ofNat 64 (bits x (64 * e.2) 64)))
  modify fun s => { s with cur := q }

/-- Element `i` of a vector number at width `w` (R190). -/
def el (x w i : Nat) : Nat := bits x (w * i) w

/-- Whether element `i` of width `w` (at least 8) is active under a predicate number (R189). -/
def active (k w i : Nat) : Bool := Nat.testBit k (i * w / 8)

/-- Whether element `i` of a 4-bit type is active: by the predicate bit of its byte (R189). -/
def activeIn (kp : Nat) (k w i : Nat) : Bool := kp == 0 || active k w i

/-- Elements put together, element i at bits w i. -/
def joinElems (w : Nat) (xs : List Nat) : Nat :=
  xs.foldr (fun x acc => x % 2 ^ w + 2 ^ w * acc) 0

/-- The mask of the elements that are written: the active ones, and with z the others too (R189). -/
def elemMask (w : Nat) (acts : List Bool) (z : Bool) : Nat :=
  joinElems w (acts.map fun a => if a || z then 2 ^ w - 1 else 0)

end Sys2Proof.Machine
end

