-- ==== Sys2Proof/Machine/Landing.lean ====
section
/-!
DEFINITION. Landing rings (R305 to R310) and the release of a drained row (R334).

Marks (notes/assumptions): DEDUCED (unsafe) 10.
-/

namespace Sys2Proof.Machine

def ringOf (s : State) (gc r : Nat) : Ring := (s.cluster gc).rings.get r {}
def modRing (s : State) (gc r : Nat) (f : Ring → Ring) : State :=
  s.modCluster gc fun c => { c with rings := c.rings.put r (f (c.rings.get r {})) }

namespace Ring
def nst (x : Ring) : Nat := fld x.cfg 22 4 + 1
def np (x : Ring) : Nat := fld x.cfg 26 2
def ssz (x : Ring) : Nat := fld x.cfg 11 11
def enabled (x : Ring) : Bool := x.cfg != 0
/-- The party code of party `p`. -/
def code (x : Ring) (p : Nat) : Nat := fld x.party (16 * p) 16
def kind (x : Ring) (p : Nat) : Nat := bits (x.code p) 14 2
def stage (x : Ring) (k : Nat) : Stage := x.stages.get k {}
def setStage (x : Ring) (k : Nat) (st : Stage) : Ring := { x with stages := x.stages.put k st }
/-- stage_base of R305, as a scratchpad byte. -/
def base (x : Ring) (k : Nat) : Nat := 128 * (fld x.cfg 0 11 + k * x.ssz)
/-- A stage a writer may take: empty, owned by party 0 and not bound (R307). -/
def writable (x : Ring) (k : Nat) : Bool := !(x.stage k).full && (x.stage k).own == 0 && !(x.stage k).bnd
/-- The fill of a stage (R307). -/
def fill (x : Ring) (k tag : Nat) : Ring := x.setStage k { full := true, own := 1, bnd := false, tag := tag % 2 ^ 16 }
/-- The release of a stage by its owner `p` ≥ 1 (R307). -/
def release (x : Ring) (k : Nat) : Ring :=
  let st := x.stage k
  if st.own = x.np then x.setStage k { st with full := false, own := 0 } else x.setStage k { st with own := st.own + 1 }
/-- A bound stage returned empty, owned by party 0 (R302, R334). -/
def giveBack (x : Ring) (k : Nat) : Ring := x.setStage k { full := false, own := 0, bnd := false, tag := (x.stage k).tag }
def bind (x : Ring) (k : Nat) : Ring := x.setStage k { x.stage k with bnd := true }
/-- Whether a context (core index, slot) matches party `p` (R305). -/
def matchesParty (x : Ring) (p core slot : Nat) : Bool :=
  match x.kind p with
  | 0 => bits (x.code p) 11 3 == core && bits (x.code p) 7 4 == slot
  | 3 => true
  | _ => false
/-- Whether a context matches some party. -/
def anyParty (x : Ring) (core slot : Nat) : Bool := (upTo (x.np + 1)).any fun p => x.matchesParty p core slot
end Ring

/-- The own-cluster W0 address of a scratchpad byte (R102). -/
def w0Addr (o : Nat) : Word := BitVec.ofNat 64 (0xFFFF200000000000 + o)

/-- The config and party words LAND.INIT takes (R309). -/
def ringWordsOk (cfg party : Word) : Bool :=
  if cfg = 0 then party == 0
  else
    let x : Ring := { cfg := cfg, party := party }
    decide (fld cfg 28 36 = 0) && decide (1 ≤ x.ssz) && decide (1 ≤ x.np) &&
    decide (x.base (x.nst - 1) + 128 * x.ssz ≤ 262144) &&
    (upTo 4).all fun p =>
      let c := x.code p
      if x.np < p then decide (c = 0)
      else decide (bits c 0 7 = 0) && (decide (x.kind p = 0) || decide (bits c 7 7 = 0)) &&
        (decide (x.kind p ≠ 1) || decide (p = 0)) && (decide (x.kind p ≠ 0) || decide (bits c 7 4 ≤ 10))

/-- LAND.INIT (R309). -/
def execLandInit (a b c : BitVec 6) (r : BitVec 4) (s : State) : Out :=
  runOnce (.landInit a b c r) (do
    let cfg ← src b
    let party ← src c
    let s ← get
    let gc := clusterOf s.cur
    let x := ringOf s gc r.toNat
    if !ringWordsOk cfg party then throw (.trap ILLEGAL_OPERAND s.me.r.pc)
    if x.looping || 0 < x.inflight || x.stages.vals.any (fun st => st.full || st.own != 0 || st.bnd) then
      throw (.trap LAND_STATE (BitVec.ofNat 64 (16 * r.toNat)))
    modify fun s => modRing s gc r.toNat fun _ => { cfg := cfg, party := party }
    dstAll 1 a x.cfg
    pure seqNext) s

/-- LAND.ACQ (R310). -/
def execLandAcq (a b : BitVec 6) (r : BitVec 4) (chk nw : Bool) (s : State) : Out :=
  runOnce (.landAcq a b r chk nw) (do
    let k ← src b
    let s ← get
    let gc := clusterOf s.cur
    let x := ringOf s gc r.toNat
    let core := coreOf s.cur % 8
    let slot := slotOf s.cur
    let st := k.toNat % x.nst
    let stg := x.stage st
    if !x.enabled || !x.anyParty core slot then throw (.trap LAND_STATE (BitVec.ofNat 64 (16 * r.toNat + st)))
    if x.matchesParty stg.own core slot && (decide (0 < stg.own) || (!stg.full && !stg.bnd)) then do
      if chk && decide (0 < stg.own) && decide (stg.tag ≠ k.toNat % 2 ^ 16) then throw (.trap SCHED_TAG (BitVec.ofNat 64 stg.tag))
      dstAll 3 a (w0Addr (x.base st))
      pure seqNext
    else if nw then do dstAll 3 a 0; pure seqNext
    else if s.me.timed then throw (.trap SCHED_EMPTY (BitVec.ofNat 64 (64 + 16 * r.toNat + st)))
    else throw .stall) s

/-- LAND.REL (R310). -/
def execLandRel (b : BitVec 6) (r : BitVec 4) (s : State) : Out :=
  runOnce (.landRel b r) (do
    let k ← src b
    let s ← get
    let gc := clusterOf s.cur
    let x := ringOf s gc r.toNat
    let st := k.toNat % x.nst
    let stg := x.stage st
    if !x.enabled || !x.matchesParty stg.own (coreOf s.cur % 8) (slotOf s.cur) || (stg.own == 0 && (stg.full || stg.bnd)) then
      throw (.trap LAND_STATE (BitVec.ofNat 64 (16 * r.toNat + st)))
    modify fun s => modRing s gc r.toNat fun x => if stg.own = 0 then x.fill st k.toNat else x.release st
    pure seqNext) s

/-- The release of a row by its handler (R334): `tag` fills the bound stage, none returns it. -/
def releaseRow (s : State) (q : Nat) (tag : Option Nat) : State :=
  match (s.proc q).row with
  | none => s
  | some r =>
    let s1 := s.modProc q fun p => { p with row := some { r with released := true } }
    let mark := fun (j : PJob) =>
      if !r.tow && j.req.q == r.owner && j.req.rid == r.rid then { j with rel := j.rel ++ [r.row] } else j
    let markT := fun (w : Tow) =>
      if r.tow then { w with out := w.out.erase r.row, a := w.a.filter fun e => !decide (e.1 % 64 = r.row) } else w
    let s2 := s1.modCluster r.cluster fun c => { c with pontoon := { c.pontoon with
      job := c.pontoon.job.map mark, tail := c.pontoon.tail.map mark, tow := c.pontoon.tow.map markT } }
    match r.land with
    | none => s2
    | some (ring, k) =>
      modRing s2 r.cluster ring fun x =>
        match tag with
        | some t => x.fill k t
        | none => x.giveBack k

end Sys2Proof.Machine
end

