-- ==== Sys2Proof/Machine/Scalar.lean ====
section
/-!
DEFINITION. Constants, addresses and integer arithmetic (R157 to R163).
-/

namespace Sys2Proof.Machine

/-! ### The functions of R159 to R163, on words -/

def shlW (x y : Word) : Word := x <<< (y.toNat % 64)
def shrW (x y : Word) : Word := x >>> (y.toNat % 64)
def sraW (x y : Word) : Word := BitVec.sshiftRight x (y.toNat % 64)
def minS (x y : Word) : Word := if x.toInt ≤ y.toInt then x else y
def maxS (x y : Word) : Word := if x.toInt ≤ y.toInt then y else x
def minU (x y : Word) : Word := if x.toNat ≤ y.toNat then x else y
def maxU (x y : Word) : Word := if x.toNat ≤ y.toNat then y else x
def mulhS (x y : Word) : Word := BitVec.ofInt 64 (x.toInt * y.toInt / (2 ^ 64 : Nat))
def mulhU (x y : Word) : Word := BitVec.ofNat 64 (x.toNat * y.toNat / 2 ^ 64)
/-- div of R163: truncated; by zero all ones; the one overflow wraps. -/
def divS (x y : Word) : Word := if y = 0 then -1 else BitVec.ofInt 64 (Int.tdiv x.toInt y.toInt)
def divU (x y : Word) : Word := if y = 0 then -1 else BitVec.ofNat 64 (x.toNat / y.toNat)
def remS (x y : Word) : Word := if y = 0 then x else BitVec.ofInt 64 (Int.tmod x.toInt y.toInt)
def remU (x y : Word) : Word := if y = 0 then x else BitVec.ofNat 64 (x.toNat % y.toNat)
/-- The number of leading zero bits; 64 for zero. -/
def clzW (x : Word) : Word := if x = 0 then 64 else BitVec.ofNat 64 (63 - Nat.log2 x.toNat)
def popcW (x : Word) : Word := BitVec.ofNat 64 ((upTo 64).filter fun i => x.getLsbD i).length
/-- A condition code of R46 on words. -/
def condW (cc : Nat) (x y : Word) : Bool :=
  match cc with
  | 0 => x == y
  | 1 => x != y
  | 2 => decide (x.toInt < y.toInt)
  | 3 => decide (y.toInt ≤ x.toInt)
  | 4 => decide (x.toNat < y.toNat)
  | 5 => decide (y.toNat ≤ x.toNat)
  | 6 => decide (y.toInt < x.toInt)
  | 7 => decide (x.toInt ≤ y.toInt)
  | 8 => decide (y.toNat < x.toNat)
  | _ => decide (x.toNat ≤ y.toNat)
/-- bfx of R161. -/
def bfxW (x : Word) (p w : Nat) (s : Bool) : Word :=
  let f := x.toNat / 2 ^ p % 2 ^ w
  if s then BitVec.ofInt 64 (sextNat f w) else BitVec.ofNat 64 f
/-- bfi of R161. -/
def bfiW (old x : Word) (p w : Nat) : Word :=
  let mask := BitVec.ofNat 64 ((2 ^ w - 1) * 2 ^ p)
  (old &&& ~~~mask) ||| BitVec.ofNat 64 (x.toNat % 2 ^ w * 2 ^ p)

/-- dst(A, x) and the next head. -/
def writeNext (lat : Nat) (a : BitVec 6) (x : Word) : Eff Next := do dst lat a x; pure seqNext

/-- dst(A, f(src B, src C)) (R159, R163). -/
def alu2 (lat : Nat) (f : Word → Word → Word) (a b c : BitVec 6) : Eff Next := do
  let x ← src b
  let y ← src c
  writeNext lat a (f x y)

/-- dst(A, f(src B)). -/
def alu1 (f : Word → Word) (a b : BitVec 6) : Eff Next := do
  let x ← src b
  writeNext 1 a (f x)

/-- The PC of the head in hand. -/
def pcOf : Eff Word := do return (← get).me.r.pc

/-- NOP (R184). -/
def execNop (s : State) : Out :=
  runHead .nop (pure seqNext) s

/-- LI (R157). -/
def execLiI16 (a : BitVec 6) (imm : BitVec 16) (s : State) : Out :=
  runHead (.liI16 a imm) (writeNext 1 a (imm.signExtend 64)) s

/-- LI (R157). -/
def execLiI32 (a : BitVec 6) (imm : BitVec 32) (s : State) : Out :=
  runHead (.liI32 a imm) (writeNext 1 a (imm.signExtend 64)) s

/-- LI (R157). -/
def execLiI48 (a : BitVec 6) (imm : BitVec 48) (s : State) : Out :=
  runHead (.liI48 a imm) (writeNext 1 a (imm.signExtend 64)) s

/-- LI.HI (R157). -/
def execLiHi (a : BitVec 6) (imm : BitVec 48) (s : State) : Out :=
  runHead (.liHi a imm) (writeNext 1 a (imm.signExtend 64 <<< 16)) s

/-- LEA [gB + off] (R158). -/
def execLeaBase (a b : BitVec 6) (imm : BitVec 16) (s : State) : Out :=
  runHead (.leaBase a b imm) (do writeNext 1 a ((← gr b) + imm.signExtend 64)) s

/-- LEA [pc + off] (R158). -/
def execLeaPc (a : BitVec 6) (imm : BitVec 16) (s : State) : Out :=
  runHead (.leaPc a imm) (do writeNext 1 a ((← pcOf) + imm.signExtend 64)) s

/-- LEA [gB + gC * s + off] (R158). -/
def execLeaIndex (a b c : BitVec 6) (sh : BitVec 2) (imm : BitVec 32) (s : State) : Out :=
  runHead (.leaIndex a b c sh imm) (do writeNext 1 a ((← gr b) + ((← gr c) <<< sh.toNat) + imm.signExtend 64)) s

/-- LEA [pc + gC * s + off] (R158). -/
def execLeaPcIndex (a c : BitVec 6) (sh : BitVec 2) (imm : BitVec 32) (s : State) : Out :=
  runHead (.leaPcIndex a c sh imm) (do writeNext 1 a ((← pcOf) + ((← gr c) <<< sh.toNat) + imm.signExtend 64)) s

/-- ADD, form RR (R159). -/
def execAddRr (a b c : BitVec 6) (s : State) : Out :=
  runHead (.addRr a b c) (alu2 1 (· + ·) a b c) s

/-- SUB, form RR (R159). -/
def execSubRr (a b c : BitVec 6) (s : State) : Out :=
  runHead (.subRr a b c) (alu2 1 (· - ·) a b c) s

/-- AND, form RR (R159). -/
def execAndRr (a b c : BitVec 6) (s : State) : Out :=
  runHead (.andRr a b c) (alu2 1 (· &&& ·) a b c) s

/-- OR, form RR (R159). -/
def execOrRr (a b c : BitVec 6) (s : State) : Out :=
  runHead (.orRr a b c) (alu2 1 (· ||| ·) a b c) s

/-- XOR, form RR (R159). -/
def execXorRr (a b c : BitVec 6) (s : State) : Out :=
  runHead (.xorRr a b c) (alu2 1 (· ^^^ ·) a b c) s

/-- SHL, form RR (R159). -/
def execShlRr (a b c : BitVec 6) (s : State) : Out :=
  runHead (.shlRr a b c) (alu2 1 shlW a b c) s

/-- SHR, form RR (R159). -/
def execShrRr (a b c : BitVec 6) (s : State) : Out :=
  runHead (.shrRr a b c) (alu2 1 shrW a b c) s

/-- SRA, form RR (R159). -/
def execSraRr (a b c : BitVec 6) (s : State) : Out :=
  runHead (.sraRr a b c) (alu2 1 sraW a b c) s

/-- MIN, form RR (R159). -/
def execMinRr (a b c : BitVec 6) (s : State) : Out :=
  runHead (.minRr a b c) (alu2 1 minS a b c) s

/-- MAX, form RR (R159). -/
def execMaxRr (a b c : BitVec 6) (s : State) : Out :=
  runHead (.maxRr a b c) (alu2 1 maxS a b c) s

/-- MINU, form RR (R159). -/
def execMinuRr (a b c : BitVec 6) (s : State) : Out :=
  runHead (.minuRr a b c) (alu2 1 minU a b c) s

/-- MAXU, form RR (R159). -/
def execMaxuRr (a b c : BitVec 6) (s : State) : Out :=
  runHead (.maxuRr a b c) (alu2 1 maxU a b c) s

/-- ADD with an immediate of 16 bits (R159). -/
def execAddRi16 (a b : BitVec 6) (imm : BitVec 16) (s : State) : Out :=
  runHead (.addRi16 a b imm) (alu1 (fun x => x + imm.signExtend 64) a b) s

/-- ADD with an immediate of 32 bits (R159). -/
def execAddRri32 (a b : BitVec 6) (imm : BitVec 32) (s : State) : Out :=
  runHead (.addRri32 a b imm) (alu1 (fun x => x + imm.signExtend 64) a b) s

/-- AND with an immediate of 16 bits (R159). -/
def execAndRi16 (a b : BitVec 6) (imm : BitVec 16) (s : State) : Out :=
  runHead (.andRi16 a b imm) (alu1 (fun x => x &&& imm.signExtend 64) a b) s

/-- AND with an immediate of 32 bits (R159). -/
def execAndRri32 (a b : BitVec 6) (imm : BitVec 32) (s : State) : Out :=
  runHead (.andRri32 a b imm) (alu1 (fun x => x &&& imm.signExtend 64) a b) s

/-- OR with an immediate of 16 bits (R159). -/
def execOrRi16 (a b : BitVec 6) (imm : BitVec 16) (s : State) : Out :=
  runHead (.orRi16 a b imm) (alu1 (fun x => x ||| imm.zeroExtend 64) a b) s

/-- OR with an immediate of 32 bits (R159). -/
def execOrRri32 (a b : BitVec 6) (imm : BitVec 32) (s : State) : Out :=
  runHead (.orRri32 a b imm) (alu1 (fun x => x ||| imm.zeroExtend 64) a b) s

/-- XOR with an immediate of 16 bits (R159). -/
def execXorRi16 (a b : BitVec 6) (imm : BitVec 16) (s : State) : Out :=
  runHead (.xorRi16 a b imm) (alu1 (fun x => x ^^^ imm.zeroExtend 64) a b) s

/-- XOR with an immediate of 32 bits (R159). -/
def execXorRri32 (a b : BitVec 6) (imm : BitVec 32) (s : State) : Out :=
  runHead (.xorRri32 a b imm) (alu1 (fun x => x ^^^ imm.zeroExtend 64) a b) s

/-- SHL with an immediate (R159). -/
def execShlRi16 (a b : BitVec 6) (imm : BitVec 16) (s : State) : Out :=
  runHead (.shlRi16 a b imm) (alu1 (fun x => shlW x (imm.zeroExtend 64)) a b) s

/-- SHR with an immediate (R159). -/
def execShrRi16 (a b : BitVec 6) (imm : BitVec 16) (s : State) : Out :=
  runHead (.shrRi16 a b imm) (alu1 (fun x => shrW x (imm.zeroExtend 64)) a b) s

/-- SRA with an immediate (R159). -/
def execSraRi16 (a b : BitVec 6) (imm : BitVec 16) (s : State) : Out :=
  runHead (.sraRi16 a b imm) (alu1 (fun x => sraW x (imm.zeroExtend 64)) a b) s

/-- CMP (R160). -/
def execCmpRr (a b c : BitVec 6) (cc : BitVec 4) (s : State) : Out :=
  runHead (.cmpRr a b c cc) (alu2 1 (fun x y => if condW cc.toNat x y then 1 else 0) a b c) s

/-- CMP with an immediate (R160). -/
def execCmpRi16 (a b : BitVec 6) (cc : BitVec 4) (imm : BitVec 16) (s : State) : Out :=
  runHead (.cmpRi16 a b cc imm) (alu1 (fun x => if condW cc.toNat x (imm.signExtend 64) then 1 else 0) a b) s

/-- BFX (R161). -/
def execBfx (a b : BitVec 6) (sx : Bool) (p w1 : BitVec 6) (s : State) : Out :=
  runHead (.bfx a b sx p w1) (alu1 (fun x => bfxW x p.toNat (w1.toNat + 1) sx) a b) s

/-- BFI (R161). -/
def execBfi (a b p w1 : BitVec 6) (s : State) : Out :=
  runHead (.bfi a b p w1) (do let x ← src b; writeNext 1 a (bfiW (← gr a) x p.toNat (w1.toNat + 1))) s

/-- CLZ (R162). -/
def execClz (a b : BitVec 6) (s : State) : Out :=
  runHead (.clz a b) (alu1 clzW a b) s

/-- POPC (R162). -/
def execPopc (a b : BitVec 6) (s : State) : Out :=
  runHead (.popc a b) (alu1 popcW a b) s

/-- MUL (R163). -/
def execMul (a b c : BitVec 6) (s : State) : Out :=
  runHead (.mul a b c) (alu2 3 (· * ·) a b c) s

/-- MULH (R163). -/
def execMulh (a b c : BitVec 6) (s : State) : Out :=
  runHead (.mulh a b c) (alu2 3 mulhS a b c) s

/-- MULHU (R163). -/
def execMulhu (a b c : BitVec 6) (s : State) : Out :=
  runHead (.mulhu a b c) (alu2 3 mulhU a b c) s

/-- DIV (R163). -/
def execDiv (a b c : BitVec 6) (s : State) : Out :=
  runHead (.div a b c) (alu2 36 divS a b c) s

/-- DIVU (R163). -/
def execDivu (a b c : BitVec 6) (s : State) : Out :=
  runHead (.divu a b c) (alu2 36 divU a b c) s

/-- REM (R163). -/
def execRem (a b c : BitVec 6) (s : State) : Out :=
  runHead (.rem a b c) (alu2 36 remS a b c) s

/-- REMU (R163). -/
def execRemu (a b c : BitVec 6) (s : State) : Out :=
  runHead (.remu a b c) (alu2 36 remU a b c) s

end Sys2Proof.Machine
end

