-- ==== Sys2Proof/Machine/LoadStore.lean ====
section
/-!
DEFINITION. Loads, stores, fences, chunk ends and atomics (R164 to R167).

Marks (notes/assumptions): DEDUCED (unsafe) 21.
-/

namespace Sys2Proof.Machine

/-- size_bytes of R156. -/
def sizeBytes (sz : BitVec 2) : Nat := 2 ^ sz.toNat

/-- A loaded value extended as LD says (R164). -/
def extend (v n : Nat) (sx : Bool) : Word := if sx then BitVec.ofInt 64 (sextNat v (8 * n)) else BitVec.ofNat 64 v

/-- LD at an address (R164). -/
def loadTo (a : BitVec 6) (ea : Word) (sz : BitVec 2) (sx : Bool) : Eff Next := do
  let l ← check ea (sizeBytes sz) (sizeBytes sz) .load
  let q := (← get).cur
  let v ← readLoc ea l (sizeBytes sz) q
  let wait ← bankAccess [(l, sizeBytes sz, q)]
  writeNext (loadLatency l + wait) a (extend v (sizeBytes sz) sx)

/-- ST at an address (R164); a store from a port pops before the access. -/
def storeFrom (a : BitVec 6) (ea : Word) (sz : BitVec 2) : Eff Next := do
  let v ← src a
  store ea (sizeBytes sz) (v.toNat % 2 ^ (8 * sizeBytes sz))
  pure seqNext

/-- LD, form RI16 (R164). -/
def execLdRi16 (a b : BitVec 6) (sz : BitVec 2) (sx nt : Bool) (imm : BitVec 16) (s : State) : Out :=
  runHead (.ldRi16 a b sz sx nt imm) (do loadTo a ((← gr b) + imm.signExtend 64) sz sx) s

/-- LD, form RRI32 (R164). -/
def execLdRri32 (a b c : BitVec 6) (sz : BitVec 2) (sx nt : Bool) (sh : BitVec 2) (imm : BitVec 32) (s : State) : Out :=
  runHead (.ldRri32 a b c sz sx nt sh imm) (do loadTo a ((← gr b) + ((← gr c) <<< sh.toNat) + imm.signExtend 64) sz sx) s

/-- ST, form RI16 (R164). -/
def execStRi16 (a b : BitVec 6) (sz : BitVec 2) (nt : Bool) (imm : BitVec 16) (s : State) : Out :=
  runHead (.stRi16 a b sz nt imm) (do storeFrom a ((← gr b) + imm.signExtend 64) sz) s

/-- ST, form RRI32 (R164). -/
def execStRri32 (a b c : BitVec 6) (sz : BitVec 2) (nt : Bool) (sh : BitVec 2) (imm : BitVec 32) (s : State) : Out :=
  runHead (.stRri32 a b c sz nt sh imm) (do storeFrom a ((← gr b) + ((← gr c) <<< sh.toNat) + imm.signExtend 64) sz) s

/-- The scope rules of an ordering instruction: in a timed phase only core scope (R140); at domain and system scope the
earlier remote stores are waited for (R129, R425), and at system scope the write-combining stores have been sent (R115). The chunk
before it has committed (R122). -/
def orderAt (sc : BitVec 3) (release : Bool) : Eff Unit := do
  let s ← get
  if s.me.timed && sc != 0 then throw (.trap TIMED_ACCESS s.me.r.pc)
  if release && decide (4 ≤ sc.toNat) then drainRemote
  if release && sc == 5 then modify sendCombined

/-- LDA (R165). -/
def execLda (a b : BitVec 6) (sz : BitVec 2) (sx : Bool) (sc : BitVec 3) (imm : BitVec 16) (s : State) : Out :=
  runHead (.lda a b sz sx sc imm) (do
    orderAt sc false
    loadTo a ((← gr b) + imm.signExtend 64) sz sx) s

/-- STL (R165). -/
def execStl (a b : BitVec 6) (sz : BitVec 2) (sc : BitVec 3) (imm : BitVec 16) (s : State) : Out :=
  runHead (.stl a b sz sc imm) (do
    orderAt sc true
    storeFrom a ((← gr b) + imm.signExtend 64) sz) s

/-- Fetches lines to pin, in order; the first fault with its line's address (R135). -/
def fetchPins (s : State) (q : Nat) : List Nat → Except (Nat × Nat) (State × List (Nat × Line))
  | [] => .ok (s, [])
  | la :: rest =>
    match readCode s q la with
    | .error c => .error (c, la)
    | .ok (s', l) =>
      if l.check.isSome then
        match fetchPins s' q rest with
        | .error e => .error e
        | .ok (t, ps) => .ok (t, FMap.put ps la l)
      else .error (INSTR_FORMAT, la)

/-- The line addresses a tpin value names (R134). -/
def pinLines (v : Word) : List Nat :=
  if fld v 6 58 = 0 then [] else (upTo (fld v 0 6 + 1)).map fun i => 64 * (fld v 6 58 + i) % 2 ^ 64

/-- Pins the lines that `v` names: all of them, or on a fault none (R135). -/
def pinTo (v : Word) : Eff Unit := do
  let s ← get
  let g := coreOf s.cur
  match fetchPins s s.cur (pinLines v) with
  | .error (c, la) => do
    throw (.trapUnpin c (BitVec.ofNat 64 la))
  | .ok (s', ps) => set (s'.modCore g fun c => { c with tpin := v, pins := ps })

/-- FENCE (R166): the chunk before it has committed; with I the context fetches anew and pinned lines are refetched. -/
def execFence (sc : BitVec 3) (i : Bool) (s : State) : Out :=
  runHead (.fence sc i) (do
    orderAt sc true
    if i then do
      modMe fun p => { p with lines := [] }
      let s ← get
      if !isHart s.cur then
        modify fun s => s.modCore (coreOf s.cur) fun c => { c with l1i := [] }
        if !(s.core (coreOf s.cur)).pins.isEmpty then pinTo (s.core (coreOf s.cur)).tpin
    pure seqNext) s

/-- CHUNK.END (R166). -/
def execChunkEnd (s : State) : Out := runHead .chunkEnd (pure seqNext) s

/-- The atomic access of R167 at `va`: the old value. `op` as in `atomicNew`, `n` bytes, `y` the operand and `nv` the new
value of ACAS. -/
def atomicOp (op n : Nat) (va y nv : Word) (u : Bool) : Eff Nat := do
  let s ← get
  match decodeVa s s.cur s.me.vf va.toNat with
  | none => throw (.trap ADDR_INVALID va)
  | some .global => pure ()
  | some _ => if va.toNat % n ≠ 0 then throw (.trap MISALIGNED va) else throw (.trap ATOMIC_TARGET va)
  let l ← check va n n .atomic
  match l with
    | .own pa => do
      if isWcPage (← get) va.toNat then throw (.trap ATOMIC_TARGET va)
      let s ← get
      let (o, s') := atomicAt s (leader s s.cur) 0 pa op n u (y.toNat % 2 ^ (8 * n)) (nv.toNat % 2 ^ (8 * n))
      set s'
      pure o
    | .remote node pa _ => do
      if isDev pa || isHostPa pa || isWcPage (← get) va.toNat then throw (.trap ATOMIC_TARGET va)
      let k := PacketKind.atomic (op + if u then 8 else 0) n (y.toNat % 2 ^ (8 * n)) (nv.toNat % 2 ^ (8 * n))
      remoteAccess (← get).cur node pa va k fun s => serveMem s s.fab.node pa k
    | _ => throw (.trap ATOMIC_TARGET va)

/-- An atomic of R167. -/
def atomic (op : Nat) (a b c : BitVec 6) (new : Eff Word) (dw u : Bool) (sc : BitVec 3) : Eff Next := do
  orderAt sc true
  let va ← gr b
  let y ← src c
  let nv ← new
  writeNext 1 a (BitVec.ofNat 64 (← atomicOp op (if dw then 8 else 4) va y nv u))

/-- AADD (R167). -/
def execAadd (a b c : BitVec 6) (dw : Bool) (sc : BitVec 3) (s : State) : Out :=
  runHead (.aadd a b c dw sc) (atomic 0 a b c (pure 0) dw false sc) s

/-- AMIN (R167). -/
def execAmin (a b c : BitVec 6) (dw u : Bool) (sc : BitVec 3) (s : State) : Out :=
  runHead (.amin a b c dw u sc) (atomic 1 a b c (pure 0) dw u sc) s

/-- AMAX (R167). -/
def execAmax (a b c : BitVec 6) (dw u : Bool) (sc : BitVec 3) (s : State) : Out :=
  runHead (.amax a b c dw u sc) (atomic 2 a b c (pure 0) dw u sc) s

/-- AAND (R167). -/
def execAand (a b c : BitVec 6) (dw : Bool) (sc : BitVec 3) (s : State) : Out :=
  runHead (.aand a b c dw sc) (atomic 3 a b c (pure 0) dw false sc) s

/-- AOR (R167). -/
def execAor (a b c : BitVec 6) (dw : Bool) (sc : BitVec 3) (s : State) : Out :=
  runHead (.aor a b c dw sc) (atomic 4 a b c (pure 0) dw false sc) s

/-- AXOR (R167). -/
def execAxor (a b c : BitVec 6) (dw : Bool) (sc : BitVec 3) (s : State) : Out :=
  runHead (.axor a b c dw sc) (atomic 5 a b c (pure 0) dw false sc) s

/-- ASWAP (R167). -/
def execAswap (a b c : BitVec 6) (dw : Bool) (sc : BitVec 3) (s : State) : Out :=
  runHead (.aswap a b c dw sc) (atomic 6 a b c (pure 0) dw false sc) s

/-- ACAS (R167). -/
def execAcas (a b c d : BitVec 6) (dw : Bool) (sc : BitVec 3) (s : State) : Out :=
  runHead (.acas a b c d dw sc) (atomic 7 a b c (src d) dw false sc) s

end Sys2Proof.Machine
end

