-- ==== Sys2Proof/Machine/Control.lean ====
section
/-!
DEFINITION. Branches, helpers, gangs, phases, the Tide counter, barriers, waits and messages (R168 to R181), and the
steps that end a wait (R152, R175, R178, R179).

Marks (notes/assumptions): DEDUCED (unsafe) 10, 17, 23, 26, 49, 52; DEDUCED (safe) 15, 57; DESIGN CHOICE (safe) 16.
-/

namespace Sys2Proof.Machine

/-! ### Branches and jumps (R168, R169) -/

/-- A transfer to `t` by the agent that moves: the target is checked (R39), and the next head issues at c + 3 (R142). -/
def jumpTo (t : Word) : Eff Next := do
  let s ← get
  match checkTarget s s.cur t with
  | .error c => throw (accessStop c t)
  | .ok s' => set s'; return { target := some t, delay := 3 }

/-- next_pc of the head in hand: in a gang the leader's line gives it (R138). -/
def linkPc : Eff Word := do let s ← get; return nextPc s (leader s s.cur) s.me.r.pc

/-- Whether the agent that moves decides where control goes: a gang's leader, or an agent of its own (R168). -/
def decides : Eff Bool := do let s ← get; return leader s s.cur == s.cur

/-- B (R168): both operands are popped; the leader's decide. -/
def branch (a b : BitVec 6) (cc : BitVec 4) (d : Int) : Eff Next := do
  let x ← src a
  let y ← src b
  let pc ← pcOf
  if (← decides) && condW cc.toNat x y then jumpTo (branchTarget pc d) else pure seqNext

/-- B, form RI16 (R168). -/
def execBRi16 (a b : BitVec 6) (cc : BitVec 4) (imm : BitVec 16) (s : State) : Out :=
  runHead (.bRi16 a b cc imm) (branch a b cc imm.toInt) s

/-- B, form RRI32 (R168). -/
def execBRri32 (a b : BitVec 6) (cc : BitVec 4) (imm : BitVec 32) (s : State) : Out :=
  runHead (.bRri32 a b cc imm) (branch a b cc imm.toInt) s

/-- A jump to `t` with the link register `a` (R169). -/
def jumpLink (a : BitVec 6) (t : Word) : Eff Next := do
  let nx ← if (← decides) then jumpTo t else pure seqNext
  dst 1 a (← linkPc)
  pure nx

/-- JAL (R169). -/
def execJal (a : BitVec 6) (imm : BitVec 32) (s : State) : Out :=
  runHead (.jal a imm) (do jumpLink a (branchTarget (← pcOf) imm.toInt)) s

/-- JALR (R169). -/
def execJalr (a b : BitVec 6) (imm : BitVec 16) (s : State) : Out :=
  runHead (.jalr a b imm) (do jumpLink a ((← gr b) + imm.signExtend 64)) s

/-! ### Helpers (R132, R133, R170 to R172) -/

/-- The helper slots of core `g`. -/
def helperQs (g : Nat) : List Nat := (upTo 10).map fun k => ctl g + 1 + k

/-- The lowest free helper slot of core `g`. -/
def freeHelper (s : State) (g : Nat) : Option Nat := (helperQs g).find? fun q => (s.proc q).st == .free

/-- A live helper that context `q` started by HSTART without the detached option. -/
def awaitedHelper (s : State) (q : Nat) : Bool :=
  (helperQs (coreOf q)).any fun h =>
    let p := s.proc h
    p.st == .live && p.starter == q && !p.det && !p.drain

/-- A live helper that context `q` started by HSTART, detached or not (R184). -/
def startedHelper (s : State) (q : Nat) : Bool :=
  (helperQs (coreOf q)).any fun h =>
    let p := s.proc h
    p.st == .live && p.starter == q && !p.drain

/-- fcsr with its flags clear (R74). -/
def noFlags (f : Word) : Word := f &&& 0x7F

/-- The state of a helper that HSTART starts (R74, R133). -/
def helperState (p : Proc) (q k : Nat) (t x y now : Word) (det : Bool) : Proc :=
  { st := .live, det := det, starter := q, tvec := p.tvec, vf := p.vf, resumeAt := now + 1
    r := { pc := t, g := ((Vector.replicate 48 0).setIfInBounds 3 x).setIfInBounds 4 y,
           fcsr := noFlags p.r.fcsr, srseed := p.r.srseed, srctr := BitVec.ofNat 64 (k * 2 ^ 56) } }

/-- HEND (R171): a detached helper's slot becomes free, any other becomes ended; a row not yet released is released as
its chapter says (R334). -/
def execHend (s : State) : Out :=
  runHead .hend (do
    let s ← get
    let p := s.me
    let s1 := if p.drain then
        match p.row with
        | some r => if r.released then s else releaseRow s s.cur none
        | none => s
      else s
    set (if p.det || p.drain then s1.setProc s.cur {}
         else s1.modProc s.cur fun p => { p with st := .ended, exitVal := p.r.readG 3 })
    return { gone := true }) s

/-- HYIELD (R171): the helper is not ready again until the other ready contexts have issued, or 16 cycles have passed. -/
def execHyield (s : State) : Out :=
  runHead .hyield (do return { after := .yield ((← get).tide + 16) [] }) s

/-- HJOIN (R172). -/
def execHjoin (a b : BitVec 6) (s : State) : Out :=
  runHead (.hjoin a b) (do
    let k ← src b
    let s ← get
    let h := s.cur + k.toNat
    let p := s.proc h
    if !(decide (1 ≤ k.toNat) && decide (k.toNat ≤ 10)) || p.starter != s.cur || p.drain then throw (.trap HELPER_TAG k)
    match p.st with
    | .live => if p.det then throw (.trap HELPER_TAG k) else throw .stall
    | .ended => do
      modify fun s => s.setProc h {}
      writeNext 1 a p.exitVal
    | .free => throw (.trap HELPER_TAG k)) s

/-! ### Gangs (R15, R173, R174) -/

/-- The aligned group of `2 ^ size` cores that core `g` belongs to (R15). -/
def gangGroup (g size : Nat) : List Nat := (upTo (2 ^ size)).map fun m => g / 2 ^ size * 2 ^ size + m

/-- The gang of core `g` forms (R173, R192): every member writes its index, and issues with the leader from there. -/
def formGang (s : State) (g size : Nat) : State :=
  ((gangGroup g size).zip (upTo 16)).foldl (fun s e => s.modCore e.1 fun c => { c with gsize := size, gmemb := e.2 }) s

/-- What another core of the group waits for in GANG. -/
def gangWait (s : State) (h : Nat) : Option (Nat × BitVec 6) :=
  match (s.proc (ctl h)).wait with
  | .gang k d => some (k, d)
  | _ => none

/-- Every core of the group of core `g`, whose GANG completes it, writes its member index (R173): `a` is the destination of core
`g`, the other cores' waits name theirs. -/
def writeIndexes (g n : Nat) (a : BitVec 6) : Eff Unit := do
  let s ← get
  ((gangGroup g n).zip (upTo 16)).forM fun e => do
    modify fun s => { s with cur := ctl e.1 }
    dst 1 (if e.1 = g then a else ((gangWait s e.1).map (·.2)).getD 0) (BitVec.ofNat 64 e.2)
  modify fun s => { s with cur := ctl g }

/-- The gang of core `g` is complete (R173). Where another member's push faults, that member takes the trap at its own GANG, and
this core waits on. -/
def completeGang (g n : Nat) (a : BitVec 6) : Eff Unit := fun s =>
  match writeIndexes g n a s with
  | .error (.trap c v) t =>
    if t.cur = ctl g then .error (.trap c v) t
    else .error (.wait (.gang n a)) { takeTrap s t.cur c (s.proc t.cur).r.pc v false with cur := ctl g }
  | .error e t => .error e t
  | .ok _ t => .ok () (formGang t g n)

/-- GANG (R173): the last core of the group to arrive completes it for all. -/
def execGang (a : BitVec 6) (size : BitVec 3) (s : State) : Out :=
  runOnce (.gang a size) (do
    let s ← get
    let g := coreOf s.cur
    let n := size.toNat
    let bad : Eff Next := throw (.trap GANG_STATE (BitVec.ofNat 64 n))
    let others := (gangGroup g n).filter (· != g)
    if (s.core g).gsize != 0 then bad
    else if n = 0 then writeNext 1 a 0
    else if others.any fun h => !sameLaunch s g h then bad
    else if others.any fun h => match gangWait s h with
        | some (k, _) => k != n
        | none => false
      then (if s.me.wait == .gang n a then throw .stall else bad)
    else if others.all fun h => (gangWait s h).isSome then do
      let lead := (gangGroup g n).headD g
      let pc := nextPc s (ctl lead) (s.proc (ctl lead)).r.pc
      completeGang g n a
      return { target := some pc }
    else if s.me.wait == .gang n a then throw .stall
    else throw (.wait (.gang n a))) s

/-- SPLIT (R174): every member goes on alone at the next head. -/
def execSplit (s : State) : Out :=
  runOnce .split (do
    let s ← get
    if (s.core (coreOf s.cur)).gsize = 0 then throw (.trap GANG_STATE 0)
    let pc ← linkPc
    let rest := (members s s.cur).filter (· != s.cur)
    modify fun s =>
      let s1 := rest.foldl (fun s m => s.modProc m fun p => { p with
        r := { p.r with pc := pc }, icount := p.icount + 1, resumeAt := s.tide + 1, wait := .idle }) s
      (s.cur :: rest).foldl (fun s m => s.modCore (coreOf m) fun c => { c with gsize := 0, gmemb := 0 }) s1
    return { target := some pc }) s

/-! ### Phases and the Tide counter (R175 to R177) -/

/-- A head that has issued and not completed. -/
def Wait.midHead : Wait → Bool
  | .idle | .yield _ _ | .phase | .parked | .hartIdle => false
  | _ => true

/-- Every helper of core `g` stands at a head boundary, and every earlier instruction of its contexts has completed. -/
def coreQuiet (s : State) (g : Nat) : Bool :=
  (upTo 11).all fun k =>
    let p := s.proc (ctl g + k)
    !(p.wait.midHead) && p.due.all fun e => decide (e.2 ≤ s.tide.toNat)

/-- The chunks of every context of core `g` close (R140, R175). -/
def closeChunks (s : State) (g : Nat) : State := (upTo 11).foldl (fun s k => endChunk s (ctl g + k)) s

/-- The timed phase begins for one member: the next head issues 4 cycles later (R142, R175). -/
def enterTimed : Eff Next := do
  modify fun s => closeChunks s (coreOf s.cur)
  modMe fun p => { p with timed := true }
  return { delay := 4 }

/-- PHASE.T (R175). -/
def execPhaseT (s : State) : Out :=
  runHead .phaseT (do
    let s ← get
    if (members s s.cur).all fun m => coreQuiet s (coreOf m) then enterTimed
    else if s.me.wait == .phase then throw .stall
    else throw (.wait .phase)) s

/-- TIMED_PHASE_ENTRY (R175): a control context that waits in PHASE.T enters the phase once its conditions hold. -/
def execTimedPhaseEntry (s : State) : Out :=
  let q := ctl s.inp.a
  if (s.proc q).wait == .phase then execPhaseT { s with cur := q } else .next s

/-- PHASE.E (R141, R175): it takes effect when every result in flight has been written. -/
def execPhaseE (s : State) : Out :=
  runHead .phaseE (do
    let s ← get
    if (members s s.cur).any fun m => !(s.proc m).flight.isEmpty then throw .stall
    modMe fun p => { p with timed := false }
    pure seqNext) s

/-- TIDE.RD (R176). -/
def execTideRd (a : BitVec 6) (s : State) : Out :=
  runHead (.tideRd a) (do writeNext 1 a (← get).tide) s

/-- The cycle in which the head in hand issued: now, or when it began to wait. -/
def issueCycle (s : State) : Word :=
  match s.me.wait with
  | .tide t => t
  | _ => s.tide

/-- TIDE.WAIT (R177): the head completes so that the next one issues at max(c + 1, target). -/
def execTideWait (a b : BitVec 6) (strict : Bool) (imm : BitVec 16) (s : State) : Out :=
  runHead (.tideWait a b strict imm) (do
    let s ← get
    let target := fun (m : Nat) => s.reg m b.toNat + imm.signExtend 64
    let c := issueCycle s
    let mine := target s.cur
    let late := if mine.toNat ≤ (c + 1).toNat then c + 1 - mine else 0
    if strict && late != 0 then throw (.trap TIDE_LATE late)
    if (members s s.cur).any fun m => decide ((s.tide + 1).toNat < (target m).toNat) then
      match s.me.wait with
      | .tide _ => throw .stall
      | _ => throw (.wait (.tide s.tide))
    writeNext 1 a late) s

/-! ### Barriers (R178, R449, R450) -/

/-- The index of the domain of core `g` at a level (sdm of R134). -/
def syncDomain (s : State) (g lv : Nat) : Nat :=
  let d := (s.core g).sdm
  match lv with
  | 1 => fld d 4 14
  | 2 => fld d 18 14
  | 3 => fld d 32 12
  | _ => fld d 44 12

/-- Whether core `g` is a member at a level. -/
def syncMember (s : State) (g lv : Nat) : Bool := (s.core g).sdm.getLsbD (lv - 1)

/-- The level constant of R178. -/
def syncConst (lv : Nat) : Nat :=
  match lv with
  | 0 => 1 | 1 => 16 | 2 => 64 | 3 => 256 | _ => 4096

/-- The launch that core `g` works for. -/
def launchOf (s : State) (g : Nat) : Option Launch :=
  match (s.core g).owner with
  | none => none
  | some (vf, ln) => s.launches.find? fun l => l.vf == vf && l.ln == ln && l.ln != 0

/-- The cores of a launch that a domain names, in launch order. -/
def domainCores (s : State) (l : Launch) (lv dom : Nat) : List Nat :=
  (l.cls.flatMap coresOf).filter fun g => syncMember s g lv && syncDomain s g lv == dom

/-- When core `g` arrived at the barrier: none while it has not; a halted core counts as arrived without a time. -/
def arrivalOf (s : State) (lv dom g : Nat) : Option (Option Word) :=
  let p := s.proc (ctl g)
  match p.st, p.wait with
  | .ended, _ => some none
  | _, .sync lv' dom' t => if lv' = lv ∧ dom' = dom then some (some t) else none
  | _, _ => none

/-- Whether every core of the domain on this package has arrived. -/
def barrierReady (s : State) (l : Launch) (lv dom : Nat) : Bool :=
  (domainCores s l lv dom).all fun g => (arrivalOf s lv dom g).isSome

/-- Members of other packages, as the environment tells them: arrival, node and core, three numbers each. -/
def remoteArrivals : List Int → List (Nat × Nat × Nat)
  | t :: n :: g :: rest => (t.toNat, n.toNat, g.toNat) :: remoteArrivals rest
  | _ => []

/-- Of two members, the one that is named last: the later; of two in one cycle the lower node, then the lower core. -/
def laterMember (x y : Nat × Nat × Nat) : Nat × Nat × Nat :=
  if x.1 < y.1 then y
  else if y.1 < x.1 then x
  else if y.2.1 < x.2.1 ∨ (y.2.1 = x.2.1 ∧ y.2.2 < x.2.2) then y else x

/-- The imbalance record of R450 for the arrivals of a barrier. -/
def imbRecord (lv count : Nat) (ts : List (Nat × Nat × Nat)) : List Word :=
  match ts with
  | [] => []
  | t :: _ =>
    let first := ts.foldl (fun m e => min m e.1) t.1
    let last := ts.foldl laterMember t
    let sum := ts.foldl (fun m e => m + (e.1 - first)) 0
    [BitVec.ofNat 64 first, BitVec.ofNat 64 last.1, BitVec.ofNat 64 (min sum (2 ^ 64 - 1)),
     BitVec.ofNat 64 (last.2.1 + 2 ^ 12 * last.2.2 + 2 ^ 29 * lv + 2 ^ 32 * (count % 2 ^ 16))]

/-- A record joins the Tollhouse of a cluster, which holds 64 (R450). -/
def pushImb (s : State) (gc : Nat) (e : List Word) : State :=
  s.modCluster gc fun c => { c with
    imb := (e :: c.imb).take 64
    imbLost := if 64 ≤ c.imb.length then min (c.imbLost + 1) (2 ^ 32 - 1) else c.imbLost }

/-- The barriers counted so far at a domain. -/
def barrierCount (s : State) (k : Nat × Nat × Nat × Nat) : Nat := ((s.barriers.find? fun e => e.1 == k).map (·.2)).getD 0

/-- The barrier of a domain releases (R178): its record is written (R449), and every waiting member learns the release
cycle. `remote` holds the members of other packages. -/
def releaseBarrier (s : State) (l : Launch) (lv dom : Nat) (remote : List (Nat × Nat × Nat)) : State :=
  let gs := domainCores s l lv dom
  let mine := gs.filterMap fun g => match arrivalOf s lv dom g with
    | some (some t) => some (t.toNat, s.fab.node, coreOf (leader s (ctl g)))
    | _ => none
  let ts := mine ++ remote
  let key := (l.vf, l.ln, lv, dom)
  let n := barrierCount s key
  let s1 := match gs with
    | g :: _ => if ts.isEmpty then s else pushImb s (g / 8) (imbRecord lv n ts)
    | [] => s
  let due := BitVec.ofNat 64 (ts.foldl (fun m e => max m e.1) 0 + syncConst lv)
  let s2 := gs.foldl (fun s g => s.modProc (ctl g) fun p =>
    match p.wait with
    | .sync _ _ _ => { p with wait := .released due }
    | _ => p) s1
  { s2 with barriers := (key, n + 1) :: s2.barriers.filter fun e => e.1 != key }

/-- How many other packages a launch meets at a level: npkg at domain level (R235). -/
def otherPackages (l : Launch) (lv : Nat) : Nat := if lv = 4 then fld (l.rec16.getD 2 0) 44 12 else 0
/-- Whether a launch meets other packages at a level (R235). -/
def meetsOthers (l : Launch) (lv : Nat) : Bool := otherPackages l lv != 0

/-- The barrier counts npkg + 1 packages (R235): every other package has arrived. `remote` names the members that arrived with a
time, and `halted` packages have arrived without one. -/
def othersArrived (s : State) (l : Launch) (lv : Nat) (remote : List (Nat × Nat × Nat)) (halted : Nat) : Bool :=
  decide (((remote.map fun e => e.2.1).filter (· != s.fab.node)).eraseDups.length + halted = otherPackages l lv)

/-- SYNC at core level (R178). -/
def syncCore (a : BitVec 6) : Eff Next := do
  let s ← get
  if !s.me.flight.isEmpty || s.me.due.any (fun e => decide (s.tide.toNat < e.2)) then throw .stall
  if awaitedHelper s s.cur then
    if s.me.timed then throw (.trap SYNC_LEVEL 0) else throw .stall
  writeNext 1 a (s.tide + 1)

/-- SYNC at a level from cluster to domain (R178). -/
def syncWide (a : BitVec 6) (lv : Nat) : Eff Next := do
  let s ← get
  let g := coreOf s.cur
  let dom := syncDomain s g lv
  match s.me.wait with
  | .released due =>
    if (s.tide + 1).toNat < due.toNat then throw .stall else writeNext 1 a due
  | .sync _ _ _ =>
    match launchOf s g with
    | none => throw .stall
    | some l =>
      if barrierReady s l lv dom && !meetsOthers l lv then do
        set (releaseBarrier s l lv dom [])
        throw (.wait (← get).me.wait)
      else throw .stall
  | _ => do
    if !syncMember s g lv then throw (.trap SYNC_LEVEL (BitVec.ofNat 64 lv))
    if lv = 4 then drainRemote
    throw (.wait (.sync lv dom s.tide))

/-- SYNC (R178). -/
def execSync (a : BitVec 6) (lv : BitVec 3) (s : State) : Out :=
  runHead (.sync a lv) (if lv = 0 then syncCore a else syncWide a lv.toNat) s

/-- BARRIER_RELEASE (R178): level `a`, domain `b`, of the launch of core `c`; `ints` names the members of other packages, and `w`
counts the other packages whose members have all executed HALT. -/
def execBarrierRelease (s : State) : Out :=
  match launchOf s s.inp.c with
  | none => .next s
  | some l =>
    let remote := if s.inp.a = 4 then remoteArrivals s.inp.ints else []
    if 1 ≤ s.inp.a ∧ s.inp.a ≤ 4 ∧ barrierReady s l s.inp.a s.inp.b ∧ othersArrived s l s.inp.a remote s.inp.w.toNat then
      .next (releaseBarrier s l s.inp.a s.inp.b remote)
    else .next s

/-! ### Waiting for memory and messages (R179 to R181) -/

/-- The physical address of a word that WAITMEM or EVWAIT can watch; WAIT_TARGET for any other (R179). -/
def watchTarget (ea : Word) (n : Nat) : Eff Nat := do
  let s ← get
  match decodeVa s s.cur s.me.vf ea.toNat with
  | none => throw (.trap ADDR_INVALID ea)
  | some .global =>
    match ← check ea n n .load with
    | .own pa => if isWcPage (← get) ea.toNat then throw (.trap WAIT_TARGET ea) else pure pa
    | _ => throw (.trap WAIT_TARGET ea)
  | some _ => if ea.toNat % n ≠ 0 then throw (.trap MISALIGNED ea) else throw (.trap WAIT_TARGET ea)

/-- WAITMEM (R179): the comparand is taken when it goes to sleep. -/
def execWaitmem (a b : BitVec 6) (sz : BitVec 2) (imm : BitVec 16) (s : State) : Out :=
  runHead (.waitmem a b sz imm) (do
    let s ← get
    match s.me.wait with
    | .mem _ due hit => if hit || decide (due.toNat ≤ s.tide.toNat) then pure seqNext else throw .stall
    | _ => do
      let x ← src a
      let n := sizeBytes sz
      let ea := (← gr b) + imm.signExtend 64
      let pa ← watchTarget ea n
      let s ← get
      if s.natAt pa n ≠ x.toNat % 2 ^ (8 * n) then pure seqNext
      else throw (.wait (.mem (pa / 32) (s.tide + 65536) false))) s

/-- The head that context `q` waits in completes. -/
def completeWait (s : State) (q : Nat) : State := endHead { s with cur := q } .waitmsg seqNext

/-- WAITMEM_WAKE (R179): the watched line has been written. -/
def execWaitmemWake (s : State) : Out :=
  match (s.proc s.inp.a).wait with
  | .mem _ _ true => .next (completeWait s s.inp.a)
  | _ => .next s

/-- WAITMEM_TIMEOUT (R179): 65,536 cycles have passed. -/
def execWaitmemTimeout (s : State) : Out :=
  match (s.proc s.inp.a).wait with
  | .mem _ due _ => if due.toNat ≤ s.tide.toNat then .next (completeWait s s.inp.a) else .next s
  | _ => .next s

/-- The message of SENDMSG (R180). -/
def message (x y : Word) (tag vcore : Nat) : BitVec 128 :=
  BitVec.ofNat 128 (x.toNat + 2 ^ 64 * (y.toNat % 2 ^ 29) + 2 ^ 93 * tag + 2 ^ 109 * vcore + 2 ^ 126)

/-- A Jetty with no entry that is neither occupied nor reserved (R25, R180). -/
def jettyFull (s : State) (g : Nat) : Bool := decide (32 ≤ (s.core g).jetty.length + (s.core g).reserved)

/-- The virtual core number of a core (R180). -/
def vcoreNumber (s : State) (g : Nat) : Nat := 8 * (s.core g).vcl + g % 8

/-- SENDMSG (R180). -/
def execSendmsg (a b c : BitVec 6) (tag : BitVec 16) (s : State) : Out :=
  runHead (.sendmsg a b c tag) (do
    let d ← src a
    let x ← src b
    let y ← src c
    let s ← get
    let g := coreOf s.cur
    match (if fld d 17 47 = 0 then vcore s s.me.vf (fld d 3 14) (fld d 0 3) else none) with
    | none => throw (.trap MSG_DEST d)
    | some h =>
      if isHart s.cur || !sameLaunch s g h then throw (.trap MSG_DEST d)
      else if jettyFull s h then
        if s.me.timed then throw (.trap SCHED_FULL 53) else throw .stall
      else do
        modify fun s => s.modCore h fun k => { k with jetty := k.jetty ++ [message x y tag.toNat (vcoreNumber s g)] }
        pure seqNext) s

/-- WAITMSG (R181). -/
def execWaitmsg (s : State) : Out :=
  runHead .waitmsg (do
    let s ← get
    if !(s.core (coreOf s.cur)).jetty.isEmpty then pure seqNext
    else if s.me.wait == .msg then throw .stall
    else throw (.wait .msg)) s

/-! ### Asynchronous traps (R152) -/

/-- The pending asynchronous trap with the lowest code. -/
def lowestPend (p : Proc) : Option (Nat × Word) :=
  p.pend.foldl (fun m e => match m with
    | none => some e
    | some x => if e.1 < x.1 then some e else m) none

/-- Whether a control context may take an asynchronous trap now. A head that waits for another package takes it, sent or not, and
runs again with a fresh timeout (R424). -/
def takesAsync (p : Proc) : Bool :=
  p.st == .live && !p.stopped && p.aen && !p.intrap && match p.wait with
    | .sync _ _ _ => false
    | .released _ => false
    | .busy _ => false
    | .parked => false
    | .pushed => false
    | _ => true

/-- A wait that ends when an asynchronous trap arrives: WAITMEM and WAITMSG. -/
def endsByTrap (w : Wait) : Bool :=
  match w with
  | .mem _ _ _ | .msg => true
  | _ => false

/-- A context that waits in WAITMEM or WAITMSG ends the wait before the trap; any other wait is dropped and its head runs
again after ERET. -/
def endWaitForTrap (s : State) (ms : List Nat) : State :=
  if ms.any fun m => endsByTrap (s.proc m).wait then completeWait s (ms.headD 0)
  else ms.foldl (fun s m => s.modProc m fun p => { p with wait := .idle }) s

/-- A pending asynchronous trap is taken by its control context, if it may be (R152) and its cluster is not halted (R445). In a gang the member takes it with
the gang (R153). -/
def deliverAsync (s : State) (q : Nat) : State :=
  let p := s.proc q
  match lowestPend p with
  | none => s
  | some (code, val) =>
    if slotOf q != 0 || isHart q || s.halted (clusterOf q) || !takesAsync p then s
    else
      let s1 := s.modProc q fun p => { p with pend := p.pend.erase (code, val) }
      let s2 := endWaitForTrap s1 (members s1 q)
      let u := leader s2 q
      let s3 := commitChunk s2 u
      match members s3 q with
      | [_] => takeTrap s3 q code (s3.proc q).r.pc val true
      | ms => takeTrapGang s3 ms [(q, code, val)] (s3.proc u).r.pc true

/-- ASYNC_TRAP_DELIVERY (R152). -/
def execAsyncTrapDelivery (s : State) : Out := .next (deliverAsync s s.inp.a)

/-- An asynchronous trap is raised for control context `q`. -/
def raiseAsync (s : State) (q code : Nat) (val : Word) : State :=
  s.modProc q fun p => if p.pend.contains (code, val) then p else { p with pend := p.pend ++ [(code, val)] }

end Sys2Proof.Machine
end

