-- ==== Sys2Proof/Machine/Ports.lean ====
section
/-!
DEFINITION. The steps a port access of a head is made of (R144 to R149, R270), arrivals at an owner (R118), and the commit
of a chunk (R123). A step acts for the agent that moves, with the data of `inp`: `a` the direction or queue, `b` the
destination register of a pop, `w` the item of a push.

Marks (notes/assumptions): DEDUCED (unsafe) 8; DESIGN CHOICE (safe) 9.
-/

namespace Sys2Proof.Machine

/-- A step of a head done by itself: its trap is the head's; a step that has to wait changes nothing. -/
def runPart (e : Eff Unit) (s : State) : Out :=
  match e s with
  | .ok _ t => .next t
  | .error (.trap c v) _ => .next (trapHead s [(s.cur, c, v)] s.me.r.pc)
  | .error (.trapUnpin c v) _ => .next (trapHead (unpin s [s.cur]) [(s.cur, c, v)] s.me.r.pc)
  | .error (.trapLost v) _ => .next (trapHead (clearLost s [s.cur]) [(s.cur, NODE_UNREACHABLE, v)] s.me.r.pc)
  | .error (.trapAt c v pc) _ => .next (trapHead s [(s.cur, c, v)] pc)
  | .error (.wait w) t => .next ((undoLocal s t s.cur).modProc s.cur fun p => { p with wait := w })
  | .error (.halt why) _ => .next (haltHead s why)
  | .error .stall _ => .next s

/-- A pop into the register that `inp.b` names. -/
def popInto (e : Eff Word) : Eff Unit := do
  let x ← e
  let s ← get
  if s.inp.b = 0 then pure () else result 1 (.g s.inp.b x)

/-- A port step of an engine hart is none: harts have no ports (R50). -/
def partOf (e : Eff Unit) (s : State) : Out := if isHart s.cur then .next s else runPart e s

/-- MESH_PUSH (R145). -/
def execMeshPush (s : State) : Out := partOf (pushMesh (s.inp.a % 4) s.inp.w) s
/-- MESH_POP (R144). -/
def execMeshPop (s : State) : Out := partOf (popInto (popMesh (s.inp.a % 4))) s
/-- QC_PUSH (R145). -/
def execQcPush (s : State) : Out := partOf (pushQc false s.inp.w) s
/-- QC_POP (R144). -/
def execQcPop (s : State) : Out := partOf (popInto popQc) s
/-- JET_READ (R147). -/
def execJetRead (s : State) : Out := partOf (popInto popJet) s
/-- PROW_READ (R148). -/
def execProwRead (s : State) : Out := partOf (popInto popProw) s
/-- XQ_PUSH (R270). -/
def execXqPush (s : State) : Out := partOf (pushXq s.inp.w) s
/-- XQ_POP (R270). -/
def execXqPop (s : State) : Out := partOf (popInto popXq) s
/-- QX_PUSH (R149). -/
def execQxPush (s : State) : Out := partOf (pushQx false (s.inp.a % 8) s.inp.w) s
/-- QX_POP (R149). -/
def execQxPop (s : State) : Out := partOf (popInto (popQx (s.inp.a % 8))) s

/-- LOCAL_ARRIVAL (R118): an access from requester `c` arrives at its owner. With `ints` empty it is a store of `bytes` at
byte `b` of the TCM of core `a`; with one element, of the scratchpad of cluster `a`; with two, a push of `w` to queue `b`
of core `a`; with three, block `b` of the write-combining stores of slice `a` at host memory (R115). -/
def execLocalArrival (s : State) : Out :=
  let i := s.inp
  match i.ints with
  | [] =>
    if i.a < Config.cores ∧ i.b + i.bytes.length ≤ 0x8000 then
      .next (traceArrival (performAt s (tcmKey i.a i.b) i.bytes) i.a i.c 0 i.b false i.bytes.length)
    else .next s
  | [_] =>
    if i.a < Config.clusters ∧ i.b + i.bytes.length ≤ 0x40000 then .next (performAt s (spKey i.a i.b) i.bytes) else .next s
  | [_, _, _] => .next (landCombined s i.a i.b)
  | _ =>
    if i.a < Config.cores ∧ i.b < 8 ∧ (qxQueue s i.a i.b).items.length < 8 then
      .next (arriveQx s i.a i.b i.c 0 i.w)
    else .next s

/-- The age of an agent's open chunk. -/
def chunkAge (s : State) (q : Nat) : Nat :=
  match (s.proc q).chunk with
  | some c => c.age.toNat
  | none => 0

/-- Puts an agent into a list in the order in which the arbiters grant commits: the older chunk first, of chunks of one age the
lower requester (R123). -/
def insertByAge (s : State) (q : Nat) : List Nat → List Nat
  | [] => [q]
  | x :: xs => if chunkAge s q < chunkAge s x ∨ (chunkAge s q = chunkAge s x ∧ q ≤ x) then q :: x :: xs else x :: insertByAge s q xs

/-- Chunks that ask to commit in one cycle, granted by age: one that an earlier commit discards does not commit (R123). -/
def commitAll (s : State) (qs : List Nat) : State := (qs.foldr (insertByAge s) []).foldl commitChunk s

/-- CHUNK_COMMIT (R123): the chunks of agent `a` and of those that `ints` names ask to commit in one cycle. -/
def execChunkCommit (s : State) : Out := .next (commitAll s ((s.inp.a :: s.inp.ints.map Int.toNat).map (leader s)))

end Sys2Proof.Machine
end

