-- ==== Sys2Proof/Machine/VectorArith.lean ====
section
/-!
DEFINITION. Vector arithmetic, comparisons and predicates (R186 to R208), and the frame of a vector instruction.
-/

namespace Sys2Proof.Machine

/-- What a vector instruction leaves of a member beside its results: vres is zero (R224), and a general register it has in flight
is known as a vector instruction's result (R225). -/
def Proc.afterVec (now : Nat) (p : Proc) : Proc :=
  { p.withR fun r => { r with vres := 0 } with
    flight := p.flight.map fun e => match e.w with
      | .g n x => if e.issued = now then { e with w := .vg n x } else e
      | _ => e }

/-- The meaning of a vector instruction (R194): a gang executes it once, and completing it sets vres to zero (R224). -/
def runVec (i : Instr) (body : Eff Next) (s : State) : Out :=
  runOnce i (do
    let nx ← body
    modify fun s => (members s s.cur).foldl (fun t m => t.modProc m (Proc.afterVec s.tide.toNat)) s
    pure nx) s

/-- The rounding controls that a vector instruction captures (R75, R194). -/
def vctl (rm : Nat) : Eff RCtl := do let s ← get; return captureCtl s.me.r (coreOf s.cur) rm

/-- The log2 of a count that is a power of two, and the gang's term g of R197. -/
def gangTerm (s : State) : Nat :=
  match (members s s.cur).length with
  | 1 => 0
  | 16 => 3
  | _ => 2

/-- Element `i` of width `w` of a gang vector register. -/
def vecEl (s : State) (n : BitVec 6) (w i : Nat) : Nat := el (readVec s n.toNat) w i

/-- fl of R190: a subnormal operand flushed under fin. -/
def flush (c : RCtl) (f : Fmt) (x : Nat) : Nat :=
  if c.fin && f.flushes && f.isSubnormal x then f.signBit (decide (bits x (f.eb + f.fb) 1 = 1)) else x

/-- The value of an operand of arithmetic. -/
def operand (c : RCtl) (f : Fmt) (x : Nat) : Ext := f.decode (flush c f x)

/-- An exact value written as it is. -/
def exactBits (f : Fmt) (x : Ext) : Nat := (roundTo f .rne false false 0 x).1

/-- Writes a vector of `n` elements of width `w` by put of R190: `f` gives the bits and flags of an active element.
Answers whether an element was active. -/
def putVec (lat : Nat) (a : BitVec 6) (kp : BitVec 3) (z : Bool) (w n : Nat) (f : Nat → Nat × Nat) : Eff Bool := do
  let s ← get
  let k := readPred s kp.toNat
  let acts := (upTo n).map (active k w)
  let rs := ((upTo n).zip acts).map fun e => if e.2 then f e.1 else (0, 0)
  writeVec lat a.toNat (elemMask w acts z) (joinElems w (rs.map (·.1)))
  raiseFlags lat (rs.foldl (fun m e => m ||| e.2) 0)
  return acts.any id

/-! ### Floating-point arithmetic (R199 to R203) -/

/-- A rounded floating-point instruction: `op` gives the exact result and flags of the operands' values. -/
def fpVec (lat : Nat) (a b c d : BitVec 6) (kp : BitVec 3) (z : Bool) (rm : BitVec 3) (t : BitVec 4)
    (op : Mode → Ext → Ext → Ext → Ext × Nat) : Eff Next := do
  let ctl ← vctl rm.toNat
  let s ← get
  let f := fmtOf t.toNat
  let vb := readVec s b.toNat
  let vc := readVec s c.toNat
  let vd := readVec s d.toNat
  let x := fun v i => operand ctl f (el v f.width i)
  let any ← putVec lat a kp z f.width (elems s f.width) fun i =>
    let (y, f1) := op ctl.mode (x vb i) (x vc i) (x vd i)
    let (r, f2) := ctl.round f i 0 y
    (r, f1 ||| f2)
  advanceCtr (any && ctl.mode == .sr)
  pure seqNext

/-- VADD (R199). -/
def execVadd (a b c : BitVec 6) (kp : BitVec 3) (z : Bool) (rm : BitVec 3) (t : BitVec 4) (s : State) : Out :=
  runVec (.vadd a b c kp z rm t) (fpVec 4 a b c 0 kp z rm t fun m x y _ => addExt m x y) s

/-- VSUB (R199). -/
def execVsub (a b c : BitVec 6) (kp : BitVec 3) (z : Bool) (rm : BitVec 3) (t : BitVec 4) (s : State) : Out :=
  runVec (.vsub a b c kp z rm t) (fpVec 4 a b c 0 kp z rm t fun m x y _ => addExt m x y.negate) s

/-- VMUL (R199). -/
def execVmul (a b c : BitVec 6) (kp : BitVec 3) (z : Bool) (rm : BitVec 3) (t : BitVec 4) (s : State) : Out :=
  runVec (.vmul a b c kp z rm t) (fpVec 4 a b c 0 kp z rm t fun _ x y _ => mulExt x y) s

/-- A minimum or maximum, written as it is (R199, R84). -/
def minmaxVec (isMax : Bool) (a b c : BitVec 6) (kp : BitVec 3) (z : Bool) (t : BitVec 4) : Eff Next := do
  let ctl ← vctl 0
  let s ← get
  let f := fmtOf t.toNat
  let vb := readVec s b.toNat
  let vc := readVec s c.toNat
  let _ ← putVec 4 a kp z f.width (elems s f.width) fun i =>
    (exactBits f (minmaxExt isMax (operand ctl f (el vb f.width i)) (operand ctl f (el vc f.width i))), 0)
  pure seqNext

/-- VMIN (R199). -/
def execVmin (a b c : BitVec 6) (kp : BitVec 3) (z : Bool) (rm : BitVec 3) (t : BitVec 4) (s : State) : Out :=
  runVec (.vmin a b c kp z rm t) (minmaxVec false a b c kp z t) s

/-- VMAX (R199). -/
def execVmax (a b c : BitVec 6) (kp : BitVec 3) (z : Bool) (rm : BitVec 3) (t : BitVec 4) (s : State) : Out :=
  runVec (.vmax a b c kp z rm t) (minmaxVec true a b c kp z t) s

/-- VRCPE (R202). -/
def execVrcpe (a b : BitVec 6) (kp : BitVec 3) (z : Bool) (rm : BitVec 3) (t : BitVec 4) (s : State) : Out :=
  runVec (.vrcpe a b kp z rm t) (fpVec 6 a b 0 0 kp z rm t fun _ x _ _ => rcpEst x) s

/-- VRSQE (R202). -/
def execVrsqe (a b : BitVec 6) (kp : BitVec 3) (z : Bool) (rm : BitVec 3) (t : BitVec 4) (s : State) : Out :=
  runVec (.vrsqe a b kp z rm t) (fpVec 6 a b 0 0 kp z rm t fun _ x _ _ => rsqEst x) s

/-- VEXP2 (R203). -/
def execVexp2 (a b : BitVec 6) (kp : BitVec 3) (z : Bool) (rm : BitVec 3) (t : BitVec 4) (s : State) : Out :=
  runVec (.vexp2 a b kp z rm t) (fpVec 8 a b 0 0 kp z rm t fun _ x _ _ => exp2Apx x) s

/-- VLOG2 (R203). -/
def execVlog2 (a b : BitVec 6) (kp : BitVec 3) (z : Bool) (rm : BitVec 3) (t : BitVec 4) (s : State) : Out :=
  runVec (.vlog2 a b kp z rm t) (fpVec 8 a b 0 0 kp z rm t fun _ x _ _ => log2Apx x) s

/-- The exact value of VFMA by its variant (R199). -/
def fmaVariant (var : Nat) (m : Mode) (x y w : Ext) : Ext × Nat :=
  match var with
  | 0 => fmaExt m x y w
  | 1 => fmaExt m x y w.negate
  | 2 => fmaExt m x.negate y w
  | _ => fmaExt m x.negate y w.negate

/-- VFMA with FP32 accumulator and 16-bit multiplicands (R201). -/
def wideFma (a b c d : BitVec 6) (kp : BitVec 3) (z : Bool) (rm : BitVec 3) (t : BitVec 4) (var : Nat) (h : Bool) : Eff Next := do
  let ctl ← vctl rm.toNat
  let s ← get
  let f := fmtOf t.toNat
  let n := elems s 32
  let vb := readVec s b.toNat
  let vc := readVec s c.toNat
  let vd := readVec s d.toNat
  let any ← putVec 4 a kp z 32 n fun i =>
    let j := if h then i + n else i
    let (y, f1) := fmaVariant var ctl.mode (operand ctl f (el vb 16 j)) (operand ctl f (el vc 16 j)) (operand ctl FP32 (el vd 32 i))
    let (r, f2) := ctl.round FP32 i 0 y
    (r, f1 ||| f2)
  advanceCtr (any && ctl.mode == .sr)
  pure seqNext

/-- VFMA (R199, R201). -/
def execVfma (a b c d : BitVec 6) (kp : BitVec 3) (z : Bool) (rm : BitVec 3) (t : BitVec 4) (var : BitVec 2) (wide h : Bool)
    (s : State) : Out :=
  runVec (.vfma a b c d kp z rm t var wide h)
    (if wide then wideFma a b c d kp z rm t var.toNat h else fpVec 4 a b c d kp z rm t fun m x y w => fmaVariant var.toNat m x y w) s

/-- The exact value of VREFN (R200): 2 - a * b, or (3 - a * b) / 2. -/
def refine (rsq : Bool) (m : Mode) (x y : Ext) : Ext × Nat :=
  let k := Ext.fin false (if rsq then 3 else 2) 0
  let halve := fun (v : Ext) => match v with
    | .fin n mm e => .fin n mm (if rsq then e - 1 else e)
    | v => v
  if (x.isZero && y.isInf) || (x.isInf && y.isZero) then (halve k, 0)
  else
    let (v, fl) := fmaExt m x.negate y k
    (halve v, fl)

/-- VREFN (R200). -/
def execVrefn (a b c : BitVec 6) (kp : BitVec 3) (z : Bool) (rm : BitVec 3) (t : BitVec 4) (var : BitVec 2) (s : State) : Out :=
  runVec (.vrefn a b c kp z rm t var) (fpVec 4 a b c 0 kp z rm t fun m x y _ => refine (var == 1) m x y) s

/-! ### Integer arithmetic (R204) -/

/-- An element-wise operation on the bits of two vectors, at a width. -/
def intVec (lat : Nat) (a b c : BitVec 6) (kp : BitVec 3) (z : Bool) (w : Nat) (f : Nat → Nat → Nat) : Eff Next := do
  let s ← get
  let vb := readVec s b.toNat
  let vc := readVec s c.toNat
  let _ ← putVec lat a kp z w (elems s w) fun i => (f (el vb w i) (el vc w i), 0)
  pure seqNext

/-- VIADD (R204). -/
def execViadd (a b c : BitVec 6) (kp : BitVec 3) (z : Bool) (t : BitVec 4) (s : State) : Out :=
  runVec (.viadd a b c kp z t) (intVec 2 a b c kp z (typeWidth t.toNat) fun x y => x + y) s

/-- VISUB (R204). -/
def execVisub (a b c : BitVec 6) (kp : BitVec 3) (z : Bool) (t : BitVec 4) (s : State) : Out :=
  runVec (.visub a b c kp z t)
    (intVec 2 a b c kp z (typeWidth t.toNat) fun x y => x + (2 ^ typeWidth t.toNat - y)) s

/-- VIMUL (R204). -/
def execVimul (a b c : BitVec 6) (kp : BitVec 3) (z : Bool) (t : BitVec 4) (part : BitVec 2) (s : State) : Out :=
  let w := typeWidth t.toNat
  runVec (.vimul a b c kp z t part)
    (intVec 4 a b c kp z w fun x y =>
      match part.toNat with
      | 0 => x * y
      | 1 => wrapTo w (sextNat x w * sextNat y w / (2 ^ w : Nat))
      | _ => x * y / 2 ^ w) s

/-- x < y at a width, unsigned or signed. -/
def ltAt (u : Bool) (w x y : Nat) : Bool := if u then decide (x < y) else decide (sextNat x w < sextNat y w)

/-- VIMIN (R204). -/
def execVimin (a b c : BitVec 6) (kp : BitVec 3) (z : Bool) (t : BitVec 4) (u : Bool) (s : State) : Out :=
  let w := typeWidth t.toNat
  runVec (.vimin a b c kp z t u) (intVec 2 a b c kp z w fun x y => if ltAt (u || t == 6) w y x then y else x) s

/-- VIMAX (R204). -/
def execVimax (a b c : BitVec 6) (kp : BitVec 3) (z : Bool) (t : BitVec 4) (u : Bool) (s : State) : Out :=
  let w := typeWidth t.toNat
  runVec (.vimax a b c kp z t u) (intVec 2 a b c kp z w fun x y => if ltAt (u || t == 6) w x y then y else x) s

/-- VISHL (R204). -/
def execVishl (a b c : BitVec 6) (kp : BitVec 3) (z : Bool) (t : BitVec 4) (s : State) : Out :=
  let w := typeWidth t.toNat
  runVec (.vishl a b c kp z t) (intVec 2 a b c kp z w fun x y => x * 2 ^ (y % w)) s

/-- VISHR (R204). -/
def execVishr (a b c : BitVec 6) (kp : BitVec 3) (z : Bool) (t : BitVec 4) (u : Bool) (s : State) : Out :=
  let w := typeWidth t.toNat
  runVec (.vishr a b c kp z t u)
    (intVec 2 a b c kp z w fun x y => if u then wrapTo w (sextNat x w / (2 ^ (y % w) : Nat)) else x / 2 ^ (y % w)) s

/-- VAND (R204). -/
def execVand (a b c : BitVec 6) (kp : BitVec 3) (z : Bool) (t : BitVec 4) (s : State) : Out :=
  runVec (.vand a b c kp z t) (intVec 2 a b c kp z (typeWidth t.toNat) fun x y => x &&& y) s

/-- VOR (R204). -/
def execVor (a b c : BitVec 6) (kp : BitVec 3) (z : Bool) (t : BitVec 4) (s : State) : Out :=
  runVec (.vor a b c kp z t) (intVec 2 a b c kp z (typeWidth t.toNat) fun x y => x ||| y) s

/-- VXOR (R204). -/
def execVxor (a b c : BitVec 6) (kp : BitVec 3) (z : Bool) (t : BitVec 4) (s : State) : Out :=
  runVec (.vxor a b c kp z t) (intVec 2 a b c kp z (typeWidth t.toNat) fun x y => x ^^^ y) s

/-! ### Comparisons and predicates (R205 to R208) -/

/-- Writes per-element results into a predicate (R189, R205): `w` is the element width. -/
def putPred (lat : Nat) (a : BitVec 6) (kp : BitVec 3) (z : Bool) (w : Nat) (f : Nat → Bool × Nat) : Eff Next := do
  let s ← get
  let k := readPred s kp.toNat
  let acts := (upTo (elems s w)).map (active k w)
  let rs := ((upTo (elems s w)).zip acts).map fun e => if e.2 then f e.1 else (false, 0)
  let wide := fun (b : Bool) => if b then 2 ^ (w / 8) - 1 else 0
  writePred lat a.toNat (elemMask (w / 8) acts z) (joinElems (w / 8) (rs.map fun e => wide e.1))
  raiseFlags lat (rs.foldl (fun m e => m ||| e.2) 0)
  pure seqNext

/-- VCMP (R205). -/
def execVcmp (a b c : BitVec 6) (kp : BitVec 3) (z : Bool) (rm : BitVec 3) (cc : BitVec 4) (ft : BitVec 2) (s : State) : Out :=
  runVec (.vcmp a b c kp z rm cc ft) (do
    let ctl ← vctl 0
    let s ← get
    let f := fmtOf ft.toNat
    let vb := readVec s b.toNat
    let vc := readVec s c.toNat
    putPred 2 a kp z f.width fun i =>
      fcond cc.toNat (operand ctl f (el vb f.width i)) (operand ctl f (el vc f.width i))) s

/-- A condition code of R46 on two elements of a width. -/
def condAt (cc w x y : Nat) : Bool := condW cc (BitVec.ofInt 64 (if 4 ≤ cc ∧ cc ≠ 6 ∧ cc ≠ 7 then (x : Int) else sextNat x w))
  (BitVec.ofInt 64 (if 4 ≤ cc ∧ cc ≠ 6 ∧ cc ≠ 7 then (y : Int) else sextNat y w))

/-- VICMP (R205). -/
def execVicmp (a b c : BitVec 6) (kp : BitVec 3) (z : Bool) (cc : BitVec 4) (w : BitVec 3) (s : State) : Out :=
  runVec (.vicmp a b c kp z cc w) (do
    let s ← get
    let n := 8 * 2 ^ w.toNat
    let vb := readVec s b.toNat
    let vc := readVec s c.toNat
    putPred 2 a kp z n fun i => (condAt cc.toNat n (el vb n i) (el vc n i), 0)) s

/-- KWHILE (R206). -/
def execKwhile (a b c : BitVec 6) (w : BitVec 2) (u : Bool) (s : State) : Out :=
  runVec (.kwhile a b c w u) (do
    let x ← src b
    let y ← src c
    let v := fun (g : Word) => if u then (g.toNat : Int) else g.toInt
    putPred 2 a 0 false (8 * 2 ^ w.toNat) fun i => (decide (v x + i < v y), 0)) s

/-- A predicate written whole. -/
def setPred (a : BitVec 6) (f : State → Nat) : Eff Next := do
  let s ← get
  writePred 2 a.toNat (2 ^ (vl s / 8) - 1) (f s)
  pure seqNext

/-- The complement of a predicate number. -/
def notPred (s : State) (k : Nat) : Nat := 2 ^ (vl s / 8) - 1 - k % 2 ^ (vl s / 8)

/-- KAND (R207). -/
def execKand (a b c : BitVec 6) (s : State) : Out :=
  runVec (.kand a b c) (setPred a fun s => readPred s b.toNat &&& readPred s c.toNat) s

/-- KOR (R207). -/
def execKor (a b c : BitVec 6) (s : State) : Out :=
  runVec (.kor a b c) (setPred a fun s => readPred s b.toNat ||| readPred s c.toNat) s

/-- KXOR (R207). -/
def execKxor (a b c : BitVec 6) (s : State) : Out :=
  runVec (.kxor a b c) (setPred a fun s => readPred s b.toNat ^^^ readPred s c.toNat) s

/-- KANDN (R207). -/
def execKandn (a b c : BitVec 6) (s : State) : Out :=
  runVec (.kandn a b c) (setPred a fun s => readPred s b.toNat &&& notPred s (readPred s c.toNat)) s

/-- KMOV (R207). -/
def execKmov (a b : BitVec 6) (s : State) : Out :=
  runVec (.kmov a b) (setPred a fun s => readPred s b.toNat) s

/-- KNOT (R207). -/
def execKnot (a b : BitVec 6) (s : State) : Out :=
  runVec (.knot a b) (setPred a fun s => notPred s (readPred s b.toNat)) s

/-- KCNT (R207). -/
def execKcnt (a b : BitVec 6) (w : BitVec 2) (s : State) : Out :=
  runVec (.kcnt a b w) (do
    let s ← get
    let n := 8 * 2 ^ w.toNat
    let k := readPred s b.toNat
    dstAll 2 a (BitVec.ofNat 64 ((upTo (elems s n)).filter (active k n)).length)
    pure seqNext) s

/-- VWIDTH (R208). -/
def execVwidth (a : BitVec 6) (s : State) : Out :=
  runVec (.vwidth a) (do
    dstAll 1 a (BitVec.ofNat 64 (vl (← get)))
    pure seqNext) s

end Sys2Proof.Machine
end

