-- ==== Sys2Proof/Machine/VectorMem.lean ====
section
/-!
DEFINITION. Vector memory instructions (R195, R196, R209 to R211, R224): the member that holds an element performs its
access; every active element is checked before any has an effect.

Marks (notes/assumptions): DEDUCED (unsafe) 19, 23, 59.
-/

namespace Sys2Proof.Machine

/-- The member that holds element `i` of width `w` (R192). -/
def memberOf (ms : List Nat) (w i : Nat) : Nat := ms.getD (w * i / 512) 0

/-- An effect performed by member `m`. -/
def byMember {α : Type} (m : Nat) (e : Eff α) : Eff α := do
  let q := (← get).cur
  modify fun s => { s with cur := m }
  let x ← e
  modify fun s => { s with cur := q }
  return x

/-- The check of one element's access by the agent that moves (R210): through W1 to W7 the element is one view element. -/
def checkElem (va : Word) (n : Nat) (perm : Perm) : Eff Loc := do
  let s ← get
  let off := match decodeVa s s.cur s.me.vf va.toNat with
    | some (.scratch _ w _) => decide (1 ≤ w) && decide (viewSize w ≠ n)
    | _ => false
  if !off then check va n n perm
  else if va.toNat % n ≠ 0 then throw (.trap MISALIGNED va)
  else match checkAccess s s.cur s.me.vf (winOf s s.cur) va n n perm s.me.timed with
    | .error c => if c = TIMED_ACCESS then throw (.trap c va) else throw (.trap WINDOW_ALIGN va)
    | .ok _ => throw (.trap WINDOW_ALIGN va)

/-- Checks the elements in order: their places. -/
def checkElems (w : Nat) (perm : Perm) (ea : Nat → Word) : List Nat → Eff (List (Nat × Loc))
  | [] => pure []
  | i :: is => do
    let s ← get
    let l ← byMember (memberOf (members s s.cur) w i) (checkElem (ea i) (w / 8) perm)
    let ls ← checkElems w perm ea is
    return (i, l) :: ls

/-- Performs the loads of checked elements in order: the value of each. -/
def readElems (w : Nat) (ea : Nat → Word) : List (Nat × Loc) → Eff (List (Nat × Nat))
  | [] => pure []
  | (i, l) :: ls => do
    let s ← get
    let v ← byMember (memberOf (members s s.cur) w i) (readLoc (ea i) l (w / 8) s.cur)
    let vs ← readElems w ea ls
    return (i, v) :: vs

/-- The active elements of a vector at a width. -/
def activeElems (s : State) (kp : BitVec 3) (w : Nat) : List Nat :=
  let k := readPred s kp.toNat
  (upTo (elems s w)).filter (active k w)

/-- Whether an address is served by a scratchpad window 1 to 7. -/
def throughWindow (l : Loc) : Bool :=
  match l with
  | .scratch _ w _ => decide (1 ≤ w)
  | _ => false

/-- The published latency of a vector load (R197). -/
def vloadLatency (unit : Bool) (n : Nat) (ls : List (Nat × Loc)) : Nat :=
  if !unit then 5 + n
  else if ls.any fun e => throughWindow e.2 then 6
  else if ls.any fun e => match e.2 with
      | .scratch _ _ _ => true
      | _ => false
    then 5 else 3

/-- A vector load with element addresses `ea` (R209). -/
def vload (a : BitVec 6) (kp : BitVec 3) (z : Bool) (t : BitVec 4) (unit : Bool) (ea : Nat → Word) : Eff Next := do
  let s ← get
  let w := typeWidth t.toNat
  let ls ← checkElems w .load ea (activeElems s kp w)
  let vs ← readElems w ea ls
  let ms := members s s.cur
  let wait ← bankAccess (ls.map fun e => (e.2, w / 8, memberOf ms w e.1))
  let s ← get
  let _ ← putVec (vloadLatency unit (elems s w) ls + wait) a kp z w (elems s w) fun i =>
    (((vs.find? fun e => e.1 == i).map (·.2)).getD 0, 0)
  return { delay := if unit then 1 else elems s w }

/-- The 32-byte lines that a store of member `m` to a checked place writes in the chunk: global lines and own-TCM lines
(R121). -/
def chunkLinesOf (m : Nat) (l : Loc) (n : Nat) : List Nat :=
  match l with
  | .own pa => (upTo n).map fun j => (pa + j) / 32
  | .tcm g o => if g = coreOf m then (upTo n).map fun j => (tcmKey g o + j) / 32 else []
  | _ => []

/-- Element address `va` of member `m` opens a line of a chunk, should its check find memory there. -/
def mayOpen (s : State) (m : Nat) (va : Word) : Bool :=
  match decodeVa s m s.me.vf va.toNat with
  | some .global => true
  | some (.tcm g _) => g == coreOf m
  | _ => false

/-- An element whose check would fault, and that would open another part: the part before it ends first (R224). -/
def faultsNext (s : State) (m n : Nat) (va : Word) (seen : List Nat) : Bool :=
  mayOpen s m va && !seen.contains (va.toNat / 32) &&
  match checkAccess s m s.me.vf (winOf s m) va n n .store s.me.timed with
  | .ok _ => false
  | .error _ => true

/-- A store of a vector waits, before any element has its effect, until each can be sent (R112, R210, R424): NODE_UNREACHABLE
after tmo cycles. -/
def reachable (va : Word) (l : Loc) : Eff Unit := do
  match l with
  | .remote node _ _ => do
    let s ← get
    if (sendable s node).isNone then
      let since := (remoteState s s.cur).1
      if s.fab.tmo ≤ s.tide.toNat - since.toNat then throw (.trap NODE_UNREACHABLE va)
      else throw (remoteWait s s.cur (.remote since false [] va))
  | _ => pure ()

/-- Checks elements in order up to the first that would take the part past 64 lines (R125): the part, and the elements
after it. `lines` are the chunk lines of the part so far, and `seen` the virtual lines. -/
def takePart (w : Nat) (ea : Nat → Word) (lines seen : List Nat) : List Nat → Eff (List (Nat × Loc) × List Nat)
  | [] => pure ([], [])
  | i :: is => do
    let s ← get
    let m := memberOf (members s s.cur) w i
    if lines.length = 64 ∧ faultsNext s m (w / 8) (ea i) seen = true then return ([], i :: is)
    let l ← byMember m (checkElem (ea i) (w / 8) .store)
    reachable (ea i) l
    let lines' := (chunkLinesOf m l (w / 8)).foldl (fun acc x => addLine x acc) lines
    if 64 < lines'.length then return ([], i :: is)
    let (p, r) ← takePart w ea lines' ((ea i).toNat / 32 :: seen) is
    return ((i, l) :: p, r)

/-- Performs the stores of checked elements in order. -/
def writeElems (who w v : Nat) (ea : Nat → Word) : List (Nat × Loc) → Eff Unit
  | [] => pure ()
  | (i, l) :: ls => do
    let s ← get
    byMember (memberOf (members s s.cur) w i) (writeLoc (ea i) l (w / 8) (el v w i) i who)
    writeElems who w v ea ls

/-- vres of the agent that moves. -/
def setVres (n : Nat) : Eff Unit := modMe fun p => p.withR fun r => { r with vres := BitVec.ofNat 64 n }

/-- Whether an active element of a vector store draws stochastic bits (R80, R223). -/
def storeDraws (s : State) (w : Nat) (ea : Nat → Word) (is : List Nat) : Bool :=
  is.any fun i =>
    let m := memberOf (members s s.cur) w i
    match decodeVa s m s.me.vf (ea i).toNat with
    | some (.scratch gc k o) => drewAt { s with cur := m } s.cur (.scratch gc k o)
    | _ => false

/-- The counts of the elements of a part, each in the bins of the core that stores it (R222). -/
def partBins (s : State) (w v : Nat) (part : List (Nat × Loc)) : List (Nat × Nat) :=
  part.flatMap fun e =>
    let m := memberOf (members s s.cur) w e.1
    (windowBins s m e.2 (w / 8) (el v w e.1)).map fun b => (coreOf m, b)

/-- A vector store with element addresses `ea` (R209, R224): it starts at element vres. A store of more than 64 lines is
performed part by part, each part checked first and a chunk of its own (R125); its counts are added when it completes (R222). -/
def vstore (a : BitVec 6) (kp : BitVec 3) (t : BitVec 4) (unit : Bool) (ea : Nat → Word) : Eff Next := do
  let s ← get
  let w := typeWidth t.toNat
  let v := readVec s a.toNat
  let acts := activeElems s kp w
  let todo := acts.filter fun i => decide (fld s.me.r.vres 0 16 ≤ i)
  let (part, rest) ← takePart w ea [] [] todo
  match rest with
  | [] => do
    if fld s.me.r.vres 0 16 ≠ 0 then leaveChunk
    writeElems s.cur w v ea part
    addCounts (s.me.partCounts ++ partBins s w v part)
    modMe fun p => { p with partCounts := [] }
    let ms := members s s.cur
    let _ ← bankAccess (part.map fun e => (e.2, w / 8, memberOf ms w e.1))
    advanceCtr (storeDraws s w ea acts)
    return { delay := if unit then 1 else elems s w }
  | i :: _ => do
    leaveChunk
    writeElems s.cur w v ea part
    leaveChunk
    setVres i
    modMe fun p => { p with partCounts := p.partCounts ++ partBins s w v part }
    throw (.wait .parts)

/-- The base of a vector memory instruction. -/
def vbase (b : BitVec 6) (imm : BitVec 32) : Eff Word := do return (← gr b) + imm.signExtend 64

/-- Element `i` of an index vector, extended as R209 says. -/
def indexEl (s : State) (c : BitVec 6) (w i : Nat) : Word :=
  let x := vecEl s c w i
  if w ≤ 16 then BitVec.ofNat 64 x else BitVec.ofInt 64 (sextNat x w)

/-- Element addresses one element apart. -/
def unitEa (base : Word) (t : BitVec 4) (i : Nat) : Word := base + BitVec.ofNat 64 (i * (typeWidth t.toNat / 8))
/-- Element addresses a byte stride apart. -/
def strideEa (base st : Word) (i : Nat) : Word := base + BitVec.ofNat 64 i * st
/-- Element addresses by an index vector. -/
def indexEa (s : State) (base : Word) (c : BitVec 6) (t : BitVec 4) (sh : Nat) (i : Nat) : Word :=
  base + (indexEl s c (typeWidth t.toNat) i <<< sh)

/-- VLD (R209). -/
def execVld (a b : BitVec 6) (kp : BitVec 3) (z : Bool) (t : BitVec 4) (nt : Bool) (imm : BitVec 32) (s : State) : Out :=
  runVec (.vld a b kp z t nt imm) (do vload a kp z t true (unitEa (← vbase b imm) t)) s

/-- VST (R209). -/
def execVst (a b : BitVec 6) (kp : BitVec 3) (t : BitVec 4) (nt : Bool) (imm : BitVec 32) (s : State) : Out :=
  runVec (.vst a b kp t nt imm) (do vstore a kp t true (unitEa (← vbase b imm) t)) s

/-- VLDS (R209). -/
def execVlds (a b c : BitVec 6) (kp : BitVec 3) (z : Bool) (t : BitVec 4) (nt : Bool) (imm : BitVec 32) (s : State) : Out :=
  runVec (.vlds a b c kp z t nt imm) (do vload a kp z t false (strideEa (← vbase b imm) (← gr c))) s

/-- VSTS (R209). -/
def execVsts (a b c : BitVec 6) (kp : BitVec 3) (t : BitVec 4) (nt : Bool) (imm : BitVec 32) (s : State) : Out :=
  runVec (.vsts a b c kp t nt imm) (do vstore a kp t false (strideEa (← vbase b imm) (← gr c))) s

/-- VGATH (R209). -/
def execVgath (a b c : BitVec 6) (kp : BitVec 3) (z : Bool) (t : BitVec 4) (nt : Bool) (sh : BitVec 2) (imm : BitVec 32)
    (s : State) : Out :=
  runVec (.vgath a b c kp z t nt sh imm) (do vload a kp z t false (indexEa (← get) (← vbase b imm) c t sh.toNat)) s

/-- VSCAT (R209). -/
def execVscat (a b c : BitVec 6) (kp : BitVec 3) (t : BitVec 4) (nt : Bool) (sh : BitVec 2) (imm : BitVec 32) (s : State) : Out :=
  runVec (.vscat a b c kp t nt sh imm) (do vstore a kp t false (indexEa (← get) (← vbase b imm) c t sh.toNat)) s

/-- The instruction at an agent's PC, fetched like its head. -/
def currentInstr (s : State) (q : Nat) : Option (State × Instr) :=
  let pc := (s.proc q).r.pc
  match fetchLine s (leader s q) (lineBase pc) with
  | .error _ => none
  | .ok (t, l) => match l.decode (headIndex pc) with
    | .ok i => some (t, i)
    | .error _ => none

/-- VECTOR_STORE_PART (R224): a vector store that is between two parts performs the next one; one that a replay queue completes
(R227, `b` = 1) all that are left, one step each. -/
def execVectorStorePart (s : State) : Out :=
  let q := leader s s.inp.a
  if (s.proc q).wait == .parts then
    match currentInstr s q with
    | none => .next s
    | some (t, i) =>
      let o := match i with
        | .vst a b kp ty nt imm => execVst a b kp ty nt imm { t with cur := q }
        | .vsts a b c kp ty nt imm => execVsts a b c kp ty nt imm { t with cur := q }
        | .vscat a b c kp ty nt sh imm => execVscat a b c kp ty nt sh imm { t with cur := q }
        | _ => .next s
      match o with
      | .next u =>
        if s.inp.b = 1 ∧ (u.proc q).wait = .parts then .next (u.pushTurn .vectorStorePart s.inp) else .next u
      | o => o
  else .next s

end Sys2Proof.Machine
end

