-- ==== Sys2Proof/Machine/VectorMove.lean ====
section
/-!
DEFINITION. Conversion and packing, dot products, reductions and scans, element moves, the exponent histogram and the
stochastic counter (R212 to R223).
-/

namespace Sys2Proof.Machine

/-! ### Conversion in parts (R212) -/

/-- Elements of width `w` written at given indices: (index, governing element active, bits). With z an inactive one is
written as zero (R189). -/
def putAt (lat : Nat) (a : BitVec 6) (w : Nat) (z : Bool) (rs : List (Nat × Bool × Nat)) : Eff Unit :=
  writeVec lat a.toNat
    (rs.foldl (fun m e => if e.2.1 || z then m + (2 ^ w - 1) * 2 ^ (w * e.1) else m) 0)
    (rs.foldl (fun m e => if e.2.1 then m + e.2.2 % 2 ^ w * 2 ^ (w * e.1) else m) 0)

/-- A conversion of width `ws` to width `wd`, part `p` (R212): for each converted pair the source index, the result index
and whether its governing element is active. -/
def convPairs (s : State) (kp : BitVec 3) (ws wd p : Nat) : List (Nat × Nat × Bool) :=
  let k := readPred s kp.toNat
  if ws ≤ wd then
    (upTo (elems s wd)).map fun i => (if ws = wd then i else i + p * elems s wd, i, activeIn kp.toNat k wd i)
  else (upTo (elems s ws)).map fun i => (i, i + p * elems s ws, active k ws i)

/-- A conversion element by element: `f` gives the bits and flags from the result index and the source bits. Answers
whether an element was active. -/
def convVec (a b : BitVec 6) (kp : BitVec 3) (z : Bool) (ws wd p : Nat) (f : Nat → Nat → Nat × Nat) : Eff Bool := do
  let s ← get
  let vb := readVec s b.toNat
  let rs := (convPairs s kp ws wd p).map fun e =>
    (e.2.1, e.2.2, if e.2.2 then f e.2.1 (el vb ws e.1) else (0, 0))
  putAt 4 a wd z (rs.map fun e => (e.1, e.2.1, e.2.2.1))
  raiseFlags 4 (rs.foldl (fun m e => m ||| e.2.2.2) 0)
  return rs.any fun e => e.2.1

/-- VCVT (R213): it draws stochastic bits where a float takes part. -/
def execVcvt (a b : BitVec 6) (kp : BitVec 3) (z : Bool) (rm : BitVec 3) (ts td : BitVec 4) (p : BitVec 3) (u : Bool)
    (s : State) : Out :=
  runVec (.vcvt a b kp z rm ts td p u) (do
    let ctl ← vctl rm.toNat
    let any ← convVec a b kp z (typeWidth ts.toNat) (typeWidth td.toNat) p.toNat fun i x =>
      convertElem ctl ts.toNat td.toNat i x
    advanceCtr (any && ctl.mode == .sr && (isFloatCode ts.toNat || isFloatCode td.toNat))
    pure seqNext) s

/-- An integer saturated to INT4's or the unsigned range of R214. -/
def toInt4 (u : Bool) (v : Int) : Nat × Nat :=
  let lo : Int := if u then 0 else -8
  let hi : Int := if u then 15 else 7
  (wrapTo 4 (clampInt lo hi v), if v < lo ∨ hi < v then NV else 0)

/-- E8M0 of a value (R214). -/
def toE8m0 (x : Ext) : Nat × Nat :=
  if x.isNan || x.isInf then (0xFF, NV)
  else if x.isZero then (0, 0)
  else ((clampInt (-127) 127 x.exponent + 127).toNat, 0)

/-- The block exponent X of R215 for the active values of a block; flags. -/
def blockScale (xs : List Ext) : Nat × Nat :=
  if xs.any fun x => x.isNan || x.isInf then (0xFF, NV)
  else
    let es := (xs.filter fun x => !x.isZero).map Ext.exponent
    match es with
    | [] => (0, 0)
    | e :: es => ((clampInt (-127) 127 (es.foldl max e) + 127).toNat, 0)

/-- a * 2^k. -/
def scaleExt (x : Ext) (k : Int) : Ext :=
  match x with
  | .fin n m e => .fin n m (e + k)
  | x => x

/-- An MXINT8 element under block exponent X (R215); `r` holds its stochastic bits. -/
def mxElem (c : RCtl) (x : Nat) (r : Nat) (v : Ext) : Nat × Nat :=
  if x = 0xFF then (0, 0)
  else
    let (q, fl) := toInt (-127) 127 c.mode r (scaleExt v (6 - ((x : Int) - 127)))
    (wrapTo 8 q, fl)

/-- One block of MXINT8 (R215): its scale, whether an element is active, its elements as `putAt` takes them, the flags. -/
structure MxBlock where
  scale : Nat
  any : Bool
  elems : List (Nat × Bool × Nat)
  flags : Nat
  deriving DecidableEq, Repr

/-- Forms block `bk` of the BF16 vector `v` under the predicate `k`; result indices begin at `off` (R215). -/
def mxBlock (ctl : RCtl) (k v off bk : Nat) : MxBlock :=
  let is := (upTo 32).map fun j => 32 * bk + j
  let act := is.filter (active k 16)
  let (x, f1) := blockScale (act.map fun i => BF16.decode (el v 16 i))
  let qs : List (Nat × Nat × Nat) := act.map fun i => (i, mxElem ctl x (ctl.r i 0) (BF16.decode (el v 16 i)))
  { scale := x, any := !act.isEmpty, flags := qs.foldl (fun m e => m ||| e.2.2) f1
    elems := is.map fun i => (i + off, active k 16 i, ((qs.find? fun e => e.1 == i).map fun e => e.2.1).getD 0) }

/-- VPACK of BF16 to MXINT8 (R215). -/
def packMx (a b d : BitVec 6) (kp : BitVec 3) (z : Bool) (rm p : Nat) : Eff Next := do
  let ctl ← vctl rm
  let s ← get
  let nb := vl s / 512
  let bs := (upTo nb).map (mxBlock ctl (readPred s kp.toNat) (readVec s b.toNat) (p * elems s 16))
  putAt 4 a 8 z (bs.flatMap MxBlock.elems)
  putAt 4 d 8 z ((bs.zip (upTo nb)).map fun e => (e.2 + p * nb, e.1.any, e.1.scale))
  raiseFlags 4 (bs.foldl (fun m e => m ||| e.flags) 0)
  advanceCtr (bs.any MxBlock.any && ctl.mode == .sr)
  pure seqNext

/-- VPACK (R214, R215). -/
def execVpack (a b d : BitVec 6) (kp : BitVec 3) (z : Bool) (rm : BitVec 3) (ts td : BitVec 4) (p : BitVec 3) (u : Bool)
    (s : State) : Out :=
  runVec (.vpack a b d kp z rm ts td p u)
    (if td = 11 then packMx a b d kp z rm.toNat p.toNat
     else do
      let _ ← convVec a b kp z (typeWidth ts.toNat) (typeWidth td.toNat) p.toNat fun _ x =>
        if td = 12 then toE8m0 ((fmtOf ts.toNat).decode x) else toInt4 u (intOf ts.toNat x)
      pure seqNext) s

/-- VUNPK of MXINT8 to BF16 (R214, R215). -/
def unpackMx (a b d : BitVec 6) (kp : BitVec 3) (z : Bool) (rm p : Nat) : Eff Next := do
  let ctl ← vctl rm
  let s ← get
  let vd := readVec s d.toNat
  let any ← convVec a b kp z 8 16 p fun i q =>
    ctl.round BF16 i 0 (mxValue (el vd 8 (i / 32 + p * (vl s / 512))) q)
  advanceCtr (any && ctl.mode == .sr)
  pure seqNext

/-- VUNPK (R214). -/
def execVunpk (a b d : BitVec 6) (kp : BitVec 3) (z : Bool) (rm : BitVec 3) (ts td : BitVec 4) (p : BitVec 3) (u : Bool)
    (s : State) : Out :=
  runVec (.vunpk a b d kp z rm ts td p u)
    (if ts = 11 then unpackMx a b d kp z rm.toNat p.toNat
     else do
      let _ ← convVec a b kp z (typeWidth ts.toNat) (typeWidth td.toNat) p.toNat fun _ x =>
        if ts = 12 then
          (exactBits (fmtOf td.toNat) (if x = 0xFF then .nan else .fin false 1 ((x : Int) - 127)), 0)
        else (wrapTo (typeWidth td.toNat) (if u then (x : Int) else sextNat x 4), 0)
      pure seqNext) s

/-! ### Dot products, reductions and scans (R216, R217) -/

/-- Writes element `j` of width `w` alone. -/
def putOne (lat : Nat) (a : BitVec 6) (w j x : Nat) : Eff Unit := putAt lat a w false [(j, true, x)]

/-- -0 as the encoding of a format. -/
def minusZero (f : Fmt) : Nat := f.signBit true

/-- log2 of an element count. -/
def log2Elems (s : State) (w : Nat) : Nat := Nat.log2 (elems s w)

/-- ILLEGAL_OPERAND at the head in hand. -/
def illegalOperand {α : Type} : Eff α := do throw (.trap ILLEGAL_OPERAND (← get).me.r.pc)

/-- VDOTF8 (R216). -/
def execVdotf8 (a b c : BitVec 6) (kp : BitVec 3) (rm : BitVec 3) (ta tb : BitVec 4) (j : BitVec 9) (s : State) : Out :=
  runVec (.vdotf8 a b c kp rm ta tb j) (do
    let ctl ← vctl rm.toNat
    let s ← get
    if elems s 32 ≤ j.toNat then illegalOperand
    let k := readPred s kp.toNat
    let vb := readVec s b.toNat
    let vc := readVec s c.toNat
    let ps := (upTo (elems s 8)).map fun i =>
      if active k 8 i then mulExt ((fmtOf ta.toNat).decode (el vb 8 i)) ((fmtOf tb.toNat).decode (el vc 8 i))
      else (.fin true 0 0, 0)
    let (ls, f1) := treeLeaves ctl FP32 0 (ps.map (·.1))
    let (t, f2) := treeLevels ctl FP32 14 2 ls 0
    let (y, f3) := addExt ctl.mode (operand ctl FP32 (vecEl s a 32 j.toNat)) (FP32.decode t)
    let (r, f4) := ctl.round FP32 j.toNat 31 y
    let lat := 6 + log2Elems s 8 + gangTerm s
    putOne lat a 32 j.toNat r
    raiseFlags lat ((ps.foldl (fun m e => m ||| e.2) 0) ||| f1 ||| f2 ||| f3 ||| f4)
    advanceCtr (ctl.mode == .sr && !(activeElems s kp 8).isEmpty)
    pure seqNext) s

/-- VDOTI8 (R216). -/
def execVdoti8 (a b c : BitVec 6) (kp : BitVec 3) (ta tb : BitVec 4) (j : BitVec 9) (s : State) : Out :=
  runVec (.vdoti8 a b c kp ta tb j) (do
    let s ← get
    if elems s 32 ≤ j.toNat then illegalOperand
    let vb := readVec s b.toNat
    let vc := readVec s c.toNat
    let sum := (activeElems s kp 8).foldl (fun (m : Int) i => m + intOf ta.toNat (el vb 8 i) * intOf tb.toNat (el vc 8 i)) 0
    putOne (6 + log2Elems s 8 + gangTerm s) a 32 j.toNat (wrapTo 32 ((vecEl s a 32 j.toNat : Int) + sum))
    pure seqNext) s

/-- The identity of a float minimum or maximum (R217). -/
def fpIdentity (f : Fmt) (isMax : Bool) : Nat :=
  if f.code = 3 then (if isMax then 0xFE else 0x7E) else f.signBit isMax + f.infinity

/-- The identity of an integer minimum or maximum (R217). -/
def intIdentity (t : Nat) (isMax : Bool) : Int := if isMax then (intRange t).1 else (intRange t).2

/-- Minimum or maximum of integers. -/
def intMinmax (isMax : Bool) (x y : Int) : Int := if isMax then max x y else min x y

/-- VRED (R217): bits and flags of the result. -/
def reduce (c : RCtl) (t o : Nat) (v : Nat) (is : List Nat) (n : Nat) : Nat × Nat :=
  let w := typeWidth t
  if isFloatCode t then
    let f := fmtOf t
    let x := fun i => flush c f (el v w i)
    if o = 0 then treeSum c f ((upTo n).map fun i => if is.contains i then x i else minusZero f)
    else
      match is with
      | [] => (fpIdentity f (o == 2), 0)
      | i :: is => (exactBits f (is.foldl (fun m j => minmaxExt (o == 2) m (f.decode (x j))) (f.decode (x i))), 0)
  else
    let x := fun i => intOf t (el v w i)
    if o = 0 then (wrapTo w (is.foldl (fun m i => m + x i) 0), 0)
    else (wrapTo w (is.foldl (fun m i => intMinmax (o == 2) m (x i)) (intIdentity t (o == 2))), 0)

/-- VRED (R217). -/
def execVred (a b : BitVec 6) (kp : BitVec 3) (rm : BitVec 3) (t : BitVec 4) (o : BitVec 2) (j : BitVec 10) (s : State) : Out :=
  runVec (.vred a b kp rm t o j) (do
    let ctl ← vctl rm.toNat
    let s ← get
    let w := typeWidth t.toNat
    if elems s w ≤ j.toNat then illegalOperand
    let is := activeElems s kp w
    let (r, fl) := reduce ctl t.toNat o.toNat (readVec s b.toNat) is (elems s w)
    let lat := 4 + log2Elems s w + gangTerm s
    putOne lat a w j.toNat r
    raiseFlags lat fl
    advanceCtr (isFloatCode t.toNat && o == 0 && ctl.mode == .sr && !is.isEmpty)
    pure seqNext) s

/-- An inclusive prefix fold. -/
def scanList {α : Type} (f : α → α → α) : List α → List α
  | [] => []
  | x :: xs => go x xs
where
  go (acc : α) : List α → List α
    | [] => [acc]
    | y :: ys => acc :: go (f acc y) ys

/-- VSCAN (R217): the bits of every element, and the flags. -/
def scanVec (c : RCtl) (t o : Nat) (v : Nat) (act : Nat → Bool) (n : Nat) : List Nat × Nat :=
  let w := typeWidth t
  if isFloatCode t then
    let f := fmtOf t
    let x := fun i => flush c f (el v w i)
    if o = 0 then treeScan c f ((upTo n).map fun i => if act i then x i else minusZero f)
    else
      let xs := (upTo n).map fun i => f.decode (if act i then x i else fpIdentity f (o == 2))
      ((scanList (minmaxExt (o == 2)) xs).map (exactBits f), 0)
  else
    let x := fun i => intOf t (el v w i)
    if o = 0 then ((scanList (· + ·) ((upTo n).map fun i => if act i then x i else 0)).map (wrapTo w), 0)
    else ((scanList (intMinmax (o == 2)) ((upTo n).map fun i => if act i then x i else intIdentity t (o == 2))).map (wrapTo w), 0)

/-- VSCAN (R217). -/
def execVscan (a b : BitVec 6) (kp : BitVec 3) (z : Bool) (rm : BitVec 3) (t : BitVec 4) (o : BitVec 2) (s : State) : Out :=
  runVec (.vscan a b kp z rm t o) (do
    let ctl ← vctl rm.toNat
    let s ← get
    let w := typeWidth t.toNat
    let k := readPred s kp.toNat
    let (rs, fl) := scanVec ctl t.toNat o.toNat (readVec s b.toNat) (active k w) (elems s w)
    let lat := 4 + log2Elems s w + gangTerm s
    let any ← putVec lat a kp z w (elems s w) fun i => (rs.getD i 0, 0)
    raiseFlags lat fl
    advanceCtr (isFloatCode t.toNat && o == 0 && ctl.mode == .sr && any)
    pure seqNext) s

/-! ### Moving elements (R218 to R220) -/

/-- VPERM (R218). -/
def execVperm (a b c d : BitVec 6) (kp : BitVec 3) (z : Bool) (t : BitVec 4) (two : Bool) (s : State) : Out :=
  runVec (.vperm a b c d kp z t two) (do
    let s ← get
    let w := typeWidth t.toNat
    let n := elems s w
    let vb := readVec s b.toNat
    let vd := readVec s d.toNat
    let vc := readVec s c.toNat
    let _ ← putVec (3 + gangTerm s) a kp z w n fun i =>
      let x := el vc w i
      (if x < n then el vb w x else if two && decide (x < 2 * n) then el vd w (x - n) else 0, 0)
    pure seqNext) s

/-- VBCAST (R218): with `elm` an element of a vector, else a scalar source. -/
def execVbcast (a b c : BitVec 6) (kp : BitVec 3) (z : Bool) (t : BitVec 4) (elm : Bool) (s : State) : Out :=
  runVec (.vbcast a b c kp z t elm) (do
    let w := typeWidth t.toNat
    if elm then
      let s ← get
      let i := (← gr c).toNat % elems s w
      let _ ← putVec (3 + gangTerm s) a kp z w (elems s w) fun _ => (vecEl s b w i, 0)
    else
      let x ← src b
      let _ ← putVec 2 a kp z w (elems (← get) w) fun _ => (x.toNat % 2 ^ w, 0)
    pure seqNext) s

/-- VSEL (R218): kp selects. -/
def execVsel (a b c : BitVec 6) (kp : BitVec 3) (t : BitVec 4) (s : State) : Out :=
  runVec (.vsel a b c kp t) (do
    let s ← get
    let w := typeWidth t.toNat
    let k := readPred s kp.toNat
    let _ ← putVec 2 a 0 false w (elems s w) fun i => (if active k w i then vecEl s b w i else vecEl s c w i, 0)
    pure seqNext) s

/-- What member `m` of a gang of `n` receives from VPEER (R219): a member's slice of vB, zeros, or nothing. -/
def peerSource (mode n m : Nat) (d : Int) : Option (Option Nat) :=
  let x := (m : Int) + d
  if mode = 2 then some (some (x % (n : Int)).toNat)
  else if 0 ≤ x ∧ x < n then some (some x.toNat)
  else if mode = 0 then some none
  else none

/-- VPEER (R219). -/
def execVpeer (a b : BitVec 6) (mode : BitVec 2) (imm : BitVec 16) (s : State) : Out :=
  runVec (.vpeer a b mode imm) (do
    let s ← get
    let n := (members s s.cur).length
    let v := readVec s b.toNat
    putAt (if n = 16 then 3 else 2) a 512 false ((upTo n).map fun m =>
      match peerSource mode.toNat n m imm.toInt with
      | some (some j) => (m, true, el v 512 j)
      | some none => (m, true, 0)
      | none => (m, false, 0))
    pure seqNext) s

/-- VEXT (R220). -/
def execVext (a b : BitVec 6) (t : BitVec 4) (sx : Bool) (idx : BitVec 16) (s : State) : Out :=
  runVec (.vext a b t sx idx) (do
    let s ← get
    let w := typeWidth t.toNat
    if elems s w ≤ idx.toNat then illegalOperand
    let x := vecEl s b w idx.toNat
    dstAll (3 + gangTerm s) a (if sx then BitVec.ofInt 64 (sextNat x w) else BitVec.ofNat 64 x)
    pure seqNext) s

/-- VINS (R220). -/
def execVins (a b : BitVec 6) (t : BitVec 4) (idx : BitVec 16) (s : State) : Out :=
  runVec (.vins a b t idx) (do
    let x ← src b
    let s ← get
    let w := typeWidth t.toNat
    if elems s w ≤ idx.toNat then illegalOperand
    putOne 2 a w idx.toNat (x.toNat % 2 ^ w)
    pure seqNext) s

/-! ### The histogram and the stochastic counter (R221 to R223) -/

/-- Counts bins of a core for the agent that moves: in flight in a timed phase, held with the chunk, or at once (R222). -/
def countBins (g : Nat) (bins : List Nat) : Eff Unit := do
  let s ← get
  if s.me.timed then result 2 (.hist g bins)
  else match s.me.chunk with
    | some _ => modMe fun p => { p with chunk := p.chunk.map fun c => { c with hist := c.hist ++ bins.map fun b => (64 * g + b, 1) } }
    | none => modify fun s => bins.foldl (fun s b => addBin s g b 1) s

/-- VHIST (R221): each member counts its own slice into its own core's bins. -/
def execVhist (b : BitVec 6) (kp : BitVec 3) (t : BitVec 4) (s : State) : Out :=
  runVec (.vhist b kp t) (do
    let s ← get
    let f := fmtOf t.toNat
    let v := readVec s b.toNat
    let is := activeElems s kp f.width
    let ms := members s s.cur
    ms.forM fun m => do
      if (s.core (coreOf m)).hen then
        countBins (coreOf m) ((is.filter fun i => memberOf ms f.width i == m).map fun i => histBin (f.decode (el v f.width i)))
    pure seqNext) s

/-- Writes sr_ctr of the leader. -/
def setCtr (x : Word) : Eff Unit := modMe fun p => p.withR fun r => { r with srctr := x }

/-- VSEED, read (R223). -/
def execVseedRd (a : BitVec 6) (s : State) : Out :=
  runVec (.vseedRd a) (do
    dstAll 1 a (← get).me.r.srctr
    pure seqNext) s

/-- VSEED, write (R223). -/
def execVseedWr (b : BitVec 6) (s : State) : Out :=
  runVec (.vseedWr b) (do
    setCtr (← src b)
    pure seqNext) s

/-- VSEED, exchange (R223). -/
def execVseedXchg (a b : BitVec 6) (s : State) : Out :=
  runVec (.vseedXchg a b) (do
    let x ← src b
    let old := (← get).me.r.srctr
    setCtr x
    dstAll 1 a old
    pure seqNext) s

end Sys2Proof.Machine
end

