-- ==== Sys2Proof/Machine/BitStream.lean ====
section
/-!
DEFINITION. The bit-stream instructions (R252 to R260).

Marks (notes/assumptions): DEDUCED (unsafe) 18.
-/

namespace Sys2Proof.Machine

/-- The bit-buffer of the agent that moves. -/
def myBuf : Eff BitBuf := do return (← get).me.r.bb
/-- Writes it now. -/
def setBuf (b : BitBuf) : Eff Unit := modMe fun p => p.withR fun r => { r with bb := b }

/-- A result in flight after which the bit-buffer may not be used (R260). -/
def bufferBusy (s : State) : Bool := s.me.flight.any fun e => match e.w with
  | .bbSet _ => true
  | .bbTake _ _ => true
  | _ => false

/-- A bit-stream head within the latency of an earlier BB.DEC or BB.REST raises TIMED_ACCESS (R260). -/
def bufferReady : Eff Unit := do
  let s ← get
  if bufferBusy s then throw (.trap TIMED_ACCESS s.me.r.pc)

/-- The count n of BB.GET, BB.PEEK and BB.SKIP. -/
def bitCount (b : BitVec 6) (r : Bool) (imm : BitVec 16) (m : Nat) : Eff Nat := do
  if r then do return (← src b).toNat % m else return imm.toNat

/-- BB.GET and BB.PEEK (R255). -/
def getBits (a b : BitVec 6) (r sx : Bool) (imm : BitVec 16) (use : Bool) : Eff Next := do
  bufferReady
  let n ← bitCount b r imm 128
  if n < 1 ∨ 64 < n then illegalOperand
  let u ← myBuf
  let k := min n u.cnt
  let v := u.buf.toNat % 2 ^ k
  let und := decide (k < n)
  setBuf (if use then u.consume k und else { u with und := u.und || und })
  writeNext 1 a (if sx then BitVec.ofInt 64 (sextNat v n) else BitVec.ofNat 64 v)

/-- BB.GET (R255). -/
def execBbGet (a b : BitVec 6) (r sx : Bool) (imm : BitVec 16) (s : State) : Out :=
  runHead (.bbGet a b r sx imm) (getBits a b r sx imm true) s

/-- BB.PEEK (R255). -/
def execBbPeek (a b : BitVec 6) (r sx : Bool) (imm : BitVec 16) (s : State) : Out :=
  runHead (.bbPeek a b r sx imm) (getBits a b r sx imm false) s

/-- BB.SKIP (R256). -/
def execBbSkip (b : BitVec 6) (r : Bool) (imm : BitVec 16) (s : State) : Out :=
  runHead (.bbSkip b r imm) (do
    bufferReady
    let n ← bitCount b r imm 256
    if 128 < n then illegalOperand
    let u ← myBuf
    setBuf (u.consume n (decide (u.cnt < n)))
    pure seqNext) s

/-- The address of a byte of the own TCM or of the own scratchpad through W0. -/
def bufAddr (reg : Bool) (o : Nat) : Word := BitVec.ofNat 64 ((if reg then 0xFFFF200000000000 else 0xFFFF000000000000) + o)

/-- The bytes of the own TCM, or of the own scratchpad. -/
def bufLimit (reg : Bool) : Nat := if reg then 262144 else 32768

/-- Reads `n` bytes at offset `o` of the own TCM or scratchpad, and the cycles its banks waited; a byte beyond the region
is ADDR_INVALID (R143, R257). -/
def bufRead (reg : Bool) (o n : Nat) : Eff (Nat × Nat) := do
  match (upTo n).find? fun j => decide (bufLimit reg ≤ o + j) with
  | some j => throw (.trap ADDR_INVALID (bufAddr reg (o + j)))
  | none => do
    let bs ← (upTo n).mapM fun j => do
      let l ← check (bufAddr reg (o + j)) 1 1 .load
      return (l, ← readLoc (bufAddr reg (o + j)) l 1 (← get).cur)
    let q := (← get).cur
    let wait ← bankAccess (bs.map fun e => (e.1, 1, q))
    return (leNat (bs.map fun e => BitVec.ofNat 8 e.2), wait)

/-- BB.FILL (R257): in a timed phase ptr moves at issue and the bytes join at c + L (R260). -/
def execBbFill (a : BitVec 6) (s : State) : Out :=
  runHead (.bbFill a) (do
    bufferReady
    let u ← myBuf
    let nb := if u.ptr.toNat < u.lim.toNat then min ((128 - u.cnt) / 8) (u.lim.toNat - u.ptr.toNat) else 0
    let (x, wait) ← bufRead u.reg u.ptr.toNat nb
    setBuf { u with ptr := BitVec.ofNat 18 (u.ptr.toNat + nb) }
    let lat := (if u.reg then 4 else 2) + wait
    result lat (.bbAppend x nb)
    writeNext lat a (BitVec.ofNat 64 (u.cnt + 8 * nb))) s

/-- BB.DEC (R258). -/
def execBbDec (a : BitVec 6) (imm : BitVec 16) (s : State) : Out :=
  runHead (.bbDec a imm) (do
    bufferReady
    let u ← myBuf
    let o := u.tabBase.toNat + 2 * (u.buf.toNat % 2 ^ imm.toNat)
    let (e, wait) ← bufRead u.tabReg o 2
    let lat := (if u.tabReg then 5 else 3) + wait
    let len := bits e 12 4
    if len = 0 then do
      result lat (.bbTake 0 false)
      writeNext lat a (BitVec.ofNat 64 (2 ^ 63 + bits e 0 12))
    else do
      result lat (.bbTake (min len u.cnt) (decide (u.cnt < len)))
      writeNext lat a (BitVec.ofNat 64 (bits e 0 12))) s

/-- The address of BB.SAVE and BB.REST, aligned to 32 bytes (R259). -/
def saveAddr (b : BitVec 6) (imm : BitVec 16) (perm : Perm) : Eff Word := do
  let ea := (← gr b) + imm.signExtend 64
  let s ← get
  if ea.toNat % 32 ≠ 0 then
    match decodeVa s s.cur s.me.vf ea.toNat with
    | none => throw (.trap ADDR_INVALID ea)
    | some _ => throw (.trap MISALIGNED ea)
  (upTo 4).forM fun j => do let _ ← check (ea + BitVec.ofNat 64 (8 * j)) 8 8 perm
  return ea

/-- BB.SAVE (R259). -/
def execBbSave (b : BitVec 6) (imm : BitVec 16) (s : State) : Out :=
  runHead (.bbSave b imm) (do
    bufferReady
    let ea ← saveAddr b imm .store
    let u ← myBuf
    store ea 8 u.lo.toNat
    store (ea + 8) 8 u.hi.toNat
    store (ea + 16) 8 u.stat.toNat
    store (ea + 24) 8 u.tab.toNat
    pure seqNext) s

/-- Whether a loaded bbst and bbtab are legal (R259). -/
def restOk (st tab : Word) : Bool :=
  decide (fld st 0 8 ≤ 128) && !st.getLsbD 11 && decide (fld st 30 2 = 0) && decide (fld st 50 14 = 0) &&
  decide (fld tab 19 45 = 0) && !tab.getLsbD 0

/-- BB.REST (R259). -/
def execBbRest (b : BitVec 6) (imm : BitVec 16) (s : State) : Out :=
  runHead (.bbRest b imm) (do
    bufferReady
    let ea ← saveAddr b imm .load
    let lo ← load ea 8
    let hi ← load (ea + 8) 8
    let st ← load (ea + 16) 8
    let tab ← load (ea + 24) 8
    let stW := BitVec.ofNat 64 st
    let tabW := BitVec.ofNat 64 tab
    if !restOk stW tabW then illegalOperand
    let l ← check ea 8 8 .load
    let q := (← get).cur
    let wait ← bankAccess ((upTo 4).map fun j => match l with
      | .scratch gc w o => (.scratch gc w (o + 8 * j), 8, q)
      | l => (l, 8, q))
    let lat := (match l with
      | .tcm _ _ => 2
      | _ => 4) + wait
    let u : BitBuf := { buf := BitVec.ofNat 128 (lo + 2 ^ 64 * hi) }
    result lat (.bbSet ((u.withStat stW (stW.getLsbD 9)).withTab tabW).clip)
    pure seqNext) s

end Sys2Proof.Machine
end

