-- ==== Sys2Proof/Machine/Transform.lean ====
section
/-!
DEFINITION. The weight codec (R261 to R265) and the cluster's transform unit (R266 to R280).

Marks (notes/assumptions): DESIGN CHOICE (safe) 7; DEDUCED (unsafe) 18, 40.
-/

namespace Sys2Proof.Machine

/-! ### The weight codec -/

/-- Why a chunk fails (R265): status and bound (0 none, 1 bytes, 2 cycles, 3 input), or a memory fault on a source byte. -/
structure DecFail where
  status : Nat
  bound : Nat := 0
  /-- Index of the source byte that could not be read. -/
  byte : Option Nat := none
  deriving DecidableEq, Repr

/-- What the decoder has in hand: the chunk's source bytes as far as they could be read, the fault after them, clen, the
next bit, the elements decoded (newest first), the working cycles. -/
structure DecState where
  src : List Byte := []
  fault : Nat := 0
  clen : Nat := 0
  bit : Nat := 0
  out : List Nat := []
  nout : Nat := 0
  cycles : Nat := 0
  deriving DecidableEq, Repr

/-- A step of the decoder. -/
abbrev Dec := EStateM DecFail DecState

/-- The next stream bit; a read at or beyond byte clen is LENGTH_VIOLATION (R265). -/
def decBit : Dec Nat := do
  let d ← get
  let i := d.bit / 8
  if d.clen ≤ i then throw { status := LENGTH_VIOLATION, bound := 3 }
  match d.src[i]? with
  | none => throw { status := d.fault, byte := some i }
  | some b => do
    set { d with bit := d.bit + 1 }
    return bits b.toNat (d.bit % 8) 1

/-- The next `n` stream bits as a number (R255's rule). -/
def decNum : Nat → Dec Nat
  | 0 => pure 0
  | n + 1 => do
    let b ← decBit
    let r ← decNum n
    return b + 2 * r

def codecFail {α : Type} : Dec α := throw { status := CODEC_CHECK }

/-- The symbols of a code-length table in canonical order, with length and code (R262). -/
def canonicalCodes (lens : List Nat) : List (Nat × Nat × Nat) :=
  let ix := (upTo lens.length).zip lens
  let sorted := (upTo 15).flatMap fun l => ix.filter fun e => e.2 == l + 1
  (sorted.foldl (fun (acc : List (Nat × Nat × Nat)) e =>
    match acc with
    | [] => [(e.1, e.2, 0)]
    | (_, l, c) :: _ => (e.1, e.2, (c + 1) * 2 ^ (e.2 - l)) :: acc) []).reverse

/-- A table whose codes overflow (R262): the sum of 2^-length exceeds 1. -/
def tableBad (lens : List Nat) : Bool :=
  decide (2 ^ 15 < (lens.filter (0 < ·)).foldl (fun m l => m + 2 ^ (15 - l)) 0)

/-- One code, first bit first (R262); a bit after which no code is left is CODEC_CHECK (R265). -/
def decCode (codes : List (Nat × Nat × Nat)) : Nat → Nat → Nat → Dec Nat
  | 0, _, _ => codecFail
  | fuel + 1, len, c => do
    let b ← decBit
    let len := len + 1
    let c := 2 * c + b
    match codes.find? fun e => e.2.1 == len && e.2.2 == c with
    | some e => pure e.1
    | none =>
      if codes.any fun e => decide (len < e.2.1) && decide (e.2.2 / 2 ^ (e.2.1 - len) = c) then decCode codes fuel len c
      else codecFail

def emit (x : Nat) : Dec Unit := modify fun d => { d with out := x :: d.out, nout := d.nout + 1 }
def work (n : Nat) : Dec Unit := modify fun d => { d with cycles := d.cycles + n }

/-- The elements of one group (R263), with the working cycles of R272. -/
def decGroup (w : Nat) (codes : List (Nat × Nat × Nat)) (n : Nat) : Dec Unit := do
  let m ← decNum 2
  work 1
  match m with
  | 0 => do
    if codes.isEmpty then codecFail
    (upTo n).forM fun _ => do
      emit (← decCode codes 15 0 0)
      work 1
  | 1 => do
    (upTo n).forM fun _ => do emit (← decNum w)
    work (cdiv n 8)
  | 2 => do
    let x ← decNum w
    (upTo n).forM fun _ => emit x
    work (cdiv n 8)
  | _ => codecFail

/-- Adler-32 (R264). -/
def adler32 (bs : List Nat) : Nat :=
  let (a, b) := bs.foldl (fun (s : Nat × Nat) x => ((s.1 + x) % 65521, (s.2 + s.1 + x) % 65521)) (1, 0)
  b * 65536 + a

/-- The bytes of elements of width 4 or 8 (R69). -/
def packElems (w : Nat) : List Nat → List Nat
  | x :: y :: xs => if w = 4 then (x + 16 * y) :: packElems w xs else x :: packElems w (y :: xs)
  | [x] => [x]
  | [] => []

/-- One chunk (R261 to R265): its decoded bytes. `space` is what remains of the destination. -/
def decChunk (space : Nat) : Dec (List Nat) := do
  let h0 ← decNum 16
  if bits h0 0 4 ≠ 1 ∨ bits h0 5 2 = 3 ∨ bits h0 7 9 ≠ 0 then codecFail
  let w := if bits h0 4 1 = 1 then 8 else 4
  let g := 32 * 2 ^ bits h0 5 2
  let tab := if w = 4 then 8 else 128
  let clen ← decNum 16
  modify fun d => { d with clen := clen }
  if 4352 < clen ∨ clen < 12 + tab then throw { status := LENGTH_VIOLATION, bound := 3 }
  let h4 ← decNum 16
  let olen := bits h4 0 13
  if 4096 < olen ∨ space < olen then throw { status := LENGTH_VIOLATION, bound := 1 }
  if olen = 0 ∨ bits h4 13 3 ≠ 0 then codecFail
  let h6 ← decNum 16
  if h6 ≠ 0 then codecFail
  let chk ← decNum 32
  let lens ← (upTo (2 ^ w)).mapM fun _ => decNum 4
  work 64
  if tableBad lens then codecFail
  let codes := canonicalCodes lens
  let n := olen * 8 / w
  (upTo (cdiv n g)).forM fun k => decGroup w codes (min g (n - k * g))
  let d ← get
  let pad ← decNum ((8 - d.bit % 8) % 8)
  if pad ≠ 0 then codecFail
  let d ← get
  if d.bit ≠ 8 * clen then codecFail
  let out := packElems w d.out.reverse
  if adler32 out ≠ chk then codecFail
  return out

/-- What decoding a chunk gives: its bytes and length, or how it failed; with the decoder's last state. -/
structure DecOut where
  bytes : List Nat := []
  clen : Nat := 0
  fail : Option DecFail := none
  emitted : Nat := 0
  cycles : Nat := 0
  consumed : Nat := 0
  deriving DecidableEq, Repr

/-- Bytes emitted by a decoder state: whole bytes of its elements. -/
def emittedBytes (d : DecState) : Nat :=
  let h := d.src.headD 0
  if bits h.toNat 4 1 = 1 then d.nout else d.nout / 2

/-- Decodes one chunk from source bytes under the watchdog `wdc` (R273): `fault` is the code met after `src`. -/
def decode (src : List Byte) (fault space wdc : Nat) : DecOut :=
  match decChunk space { src := src, fault := fault, clen := 4352 } with
  | .ok bs d =>
    if wdc < d.cycles then
      { fail := some { status := LENGTH_VIOLATION, bound := 2 }, emitted := emittedBytes d, cycles := wdc, consumed := d.bit / 8 }
    else { bytes := bs, clen := d.clen, emitted := bs.length, cycles := d.cycles, consumed := d.clen }
  | .error e d =>
    let e' := if wdc < d.cycles then { status := LENGTH_VIOLATION, bound := 2 } else e
    { fail := some e', clen := d.clen, emitted := emittedBytes d, cycles := min wdc d.cycles, consumed := cdiv d.bit 8 }

/-! ### The transform unit -/

/-- Scratchpad reached through another window than W0 (R268). -/
def badWindow (s : State) (q vf : Nat) (va : Word) : Bool :=
  match decodeVa s q vf va.toNat with
  | some (.scratch _ w _) => decide (w ≠ 0)
  | _ => false

/-- A read of the unit for the request of context `q` (R268). -/
def xRead (s : State) (q vf : Nat) (va : Word) (n : Nat) : Except Nat (State × Nat) :=
  if badWindow s q vf va then .error ADDR_INVALID else engRead s q vf [] va n n

def xWrite (s : State) (q vf : Nat) (va : Word) (n v : Nat) : Except Nat State :=
  if badWindow s q vf va then .error ADDR_INVALID else engWrite s q vf [] {} va n n v 0

/-- Source bytes from `va` as far as they can be read, and the fault that ends them. -/
def xReadRun (s : State) (q vf : Nat) (va : Word) : Nat → State × List Byte × Nat
  | 0 => (s, [], 0)
  | n + 1 =>
    match xRead s q vf va 1 with
    | .error c => (s, [], c)
    | .ok (s', b) =>
      let (t, bs, c) := xReadRun s' q vf (va + 1) n
      (t, BitVec.ofNat 8 b :: bs, c)

/-- Bytes written one by one; on a fault the state before them, with the code and the address. -/
def xWriteRun (s : State) (q vf : Nat) (va : Word) : List Nat → Except (Nat × Word) State
  | [] => .ok s
  | b :: bs =>
    match xWrite s q vf va 1 b with
    | .error c => .error (c, va)
    | .ok s' => xWriteRun s' q vf (va + 1) bs

def xslot (s : State) (gc k : Nat) : Option XSlot := (s.cluster gc).xslots.find k
def setXslot (s : State) (gc k : Nat) (x : XSlot) : State := s.modCluster gc fun c => { c with xslots := c.xslots.put k x }
/-- A request whose access failed with code `c` has ended. -/
def failXslot (s : State) (gc k c : Nat) (x : XSlot) : State := setXslot (forgetStalls s x.q c) gc k x

/-- Doubleword `i` of the record. -/
def XSlot.dw (x : XSlot) (i : Nat) : Word := x.rec8.getD i 0
def XSlot.op (x : XSlot) : Nat := fld (x.dw 0) 0 4

/-- A core slot waits to be served. -/
def coreWaits (s : State) (gc : Nat) : Bool := (s.cluster gc).xslots.any fun e => e.2.ended.isNone
/-- A tow payload is in the unit's tow lane. -/
def towWaits (s : State) (gc : Nat) : Bool :=
  match (s.cluster gc).pontoon.tow with
  | some w => w.dec.isSome
  | none => false

/-- The request that the unit serves: the oldest accepted one that has not ended; while a tow payload waits too, the two
alternate (R272). -/
def serving (s : State) (gc k : Nat) : Bool :=
  match xslot s gc k with
  | none => false
  | some x => x.ended.isNone && (s.cluster gc).xslots.all (fun e => e.1 == k || e.2.ended.isSome || decide (x.order ≤ e.2.order)) &&
      (!towWaits s gc || (s.cluster gc).xturn)

/-- A core slot has been served: the tow lane is next, if it waits (R272). -/
def served (s : State) (gc : Nat) : State :=
  if (s.cluster gc).xturn then s.modCluster gc fun c => { c with xturn := false } else s

/-- The request ends with a status. -/
def XSlot.endWith (x : XSlot) (status bound : Nat) (va : Word) : XSlot :=
  { x with ended := some status, bound := bound, faultVa := va }

/-- The agent number under which the stores of a cluster's transform unit wait for their acknowledgements: the unit is no agent
of R127, and its packets carry the issuing context as their requester. -/
def xUnit (gc : Nat) : Nat := 2 ^ 21 + gc

/-- What the unit of cluster `gc` has sent for slot `k` of context `q` between `s` and `t` is the unit's, not the context's own
(R277). -/
def asUnit (s t : State) (gc k q : Nat) : State :=
  let n := (s.proc q).remoteOut.length
  if (t.proc q).remoteOut.length ≤ n then t
  else
    let new := ((t.proc q).remoteOut.drop n).map fun e => { e with key := k }
    let sent := s.fab.outbox.length
    let t1 := (t.modProc q fun p => { p with remoteOut := p.remoteOut.take n }).modProc (xUnit gc) fun p =>
      { p with remoteOut := p.remoteOut ++ new }
    { t1 with fab := { t1.fab with
        outbox := t1.fab.outbox.take sent ++ (t1.fab.outbox.drop sent).map fun e => (e.1, { e.2 with agent := xUnit gc }) } }

/-- `n` bytes of a checked chunk are written, in order: the request is done with the chunk when all are (R274). -/
def releaseChunk (s : State) (gc k : Nat) (x : XSlot) (n : Nat) : State :=
  match xWriteRun s x.q x.vf (x.dw 2 + BitVec.ofNat 64 x.dstOff) (x.staged.take n) with
  | .error (c, va) => if isWait c then noteStall s x.q c else failXslot s gc k c { x.endWith c 0 va with staged := [] }
  | .ok s2 =>
    let y := { x with dstOff := x.dstOff + (x.staged.take n).length, staged := x.staged.drop n }
    let z := if y.staged.isEmpty then { y with count := y.count + 1 } else y
    setXslot (asUnit s s2 gc k x.q) gc k (if y.staged.isEmpty ∧ z.count = fld (x.dw 3) 0 6 + 1 then z.endWith DONE 0 0 else z)

/-- One chunk of a decode request (R272 to R274): staged, and released when it checks. Its source comes in pieces (R277): `n` bytes
now, or with 0 the rest, and then the chunk is decoded; with `hold` its bytes are written in later steps. -/
def decodeStep (s : State) (gc k : Nat) (x : XSlot) (n : Nat) (hold : Bool) : State :=
  let sva := x.dw 1 + BitVec.ofNat 64 x.srcOff
  let at_ := sva + BitVec.ofNat 64 x.got.length
  if !x.staged.isEmpty then releaseChunk s gc k x (if n = 0 then x.staged.length else n)
  else
    let rest := 4352 - x.got.length
    let (s1, bs, fault) := xReadRun s x.q x.vf at_ (if n = 0 then rest else min n rest)
    if n ≠ 0 ∧ fault = 0 then setXslot s1 gc k { x with got := x.got ++ bs }
    else
      let o := decode (x.got ++ bs) fault (fld (x.dw 3) 32 32 - x.dstOff) x.wdc
      match o.fail with
      | some f =>
        if isWait f.status then noteStall s x.q f.status
        else
          let va := match f.byte with
            | some i => sva + BitVec.ofNat 64 i
            | none => sva
          failXslot s1 gc k f.status { x.endWith f.status f.bound va with
            emitted := o.emitted, cycles := o.cycles, consumed := o.consumed, got := [] }
      | none =>
        let y := { x with srcOff := x.srcOff + o.clen, staged := o.bytes, got := [], emitted := 0, cycles := 0, consumed := 0 }
        if hold then setXslot s1 gc k y
        else match xWriteRun s1 x.q x.vf (x.dw 2 + BitVec.ofNat 64 x.dstOff) o.bytes with
          | .error (c, va) =>
            if isWait c then noteStall s x.q c
            else failXslot s1 gc k c { x.endWith c 0 va with emitted := o.emitted, cycles := o.cycles, consumed := o.consumed, got := [] }
          | .ok _ => releaseChunk s1 gc k y o.bytes.length

/-- TRANSFORM_DECODE_CHUNK (R272): slot `b` of cluster `a`; `c` bytes of it, or with 0 the rest; with `w` not 0 a chunk that checks
is written by later steps. -/
def execTransformDecodeChunk (s : State) : Out :=
  match xslot s s.inp.a s.inp.b with
  | none => .next s
  | some x =>
    if serving s s.inp.a s.inp.b && x.op == 0 then
      .next (served (decodeStep s s.inp.a s.inp.b x s.inp.c (s.inp.w != 0)) s.inp.a)
    else .next s

/-- DECODER_WATCHDOG_CUTOFF (R273): the chunk in hand passes wdc. -/
def execDecoderWatchdogCutoff (s : State) : Out :=
  match xslot s s.inp.a s.inp.b with
  | none => .next s
  | some x =>
    let (_, bs, fault) := xReadRun s x.q x.vf (x.dw 1 + BitVec.ofNat 64 x.srcOff + BitVec.ofNat 64 x.got.length) (4352 - x.got.length)
    let o := decode (x.got ++ bs) fault (fld (x.dw 3) 32 32 - x.dstOff) x.wdc
    let cut := x.staged.isEmpty && match o.fail with
      | some f => decide (f.bound = 2)
      | none => false
    if serving s s.inp.a s.inp.b && x.op == 0 && cut then .next (served (decodeStep s s.inp.a s.inp.b x 0 false) s.inp.a) else .next s

/-- The elements of a transposition or conversion, done one by one: `f` gives the source address, the source size, the
destination address, the destination size and the result bits with flags. On a fault those before it are written (R274). `last`
says that they are the request's last. -/
def xElements (s : State) (gc k : Nat) (x : XSlot) (f : Nat → Word × Nat × Word × Nat) (g : Nat → Nat → Nat × Nat) (last : Bool) :
    List Nat → State
  | [] => setXslot s gc k (if last then x.endWith DONE 0 0 else x)
  | i :: is =>
    let (sva, sn, dva, dn) := f i
    match xRead s x.q x.vf sva sn with
    | .error c => if isWait c then noteStall (setXslot s gc k x) x.q c else failXslot s gc k c (x.endWith c 0 sva)
    | .ok (s1, v) =>
      let (y, fl) := g i v
      match xWrite s1 x.q x.vf dva dn y with
      | .error c => if isWait c then noteStall (setXslot s gc k x) x.q c else failXslot s1 gc k c (x.endWith c 0 dva)
      | .ok s2 => xElements (asUnit s1 s2 gc k x.q) gc k { x with count := x.count + 1, flags := x.flags ||| fl } f g last is

/-- The next `m` elements of a request of `n`, or with 0 all that are left (R277). -/
def xNext (s : State) (gc k : Nat) (x : XSlot) (f : Nat → Word × Nat × Word × Nat) (g : Nat → Nat → Nat × Nat) (n m : Nat) : State :=
  let left := (upTo n).drop x.count
  xElements s gc k x f g (m == 0 || decide (left.length ≤ m)) (if m = 0 then left else left.take m)

/-- A transposition (R267), `m` elements of it. -/
def transposeStep (s : State) (gc k : Nat) (x : XSlot) (m : Nat) : State :=
  let prm := x.dw 3
  let esz := 2 ^ fld prm 0 2
  let cols := fld prm 14 12 + 1
  let n := (fld prm 2 12 + 1) * cols
  let strd := x.dw 5
  xNext s gc k x (fun e =>
    let i := e / cols
    let j := e % cols
    (x.dw 1 + BitVec.ofNat 64 (i * fld strd 0 32 + j * esz), esz, x.dw 2 + BitVec.ofNat 64 (j * fld strd 32 32 + i * esz), esz))
    (fun _ v => (v, 0)) n m

/-- The tow lane, if it waits, is next once a request that is not a decode has ended (R272). -/
def servedWhole (s : State) (gc k : Nat) : State :=
  match xslot s gc k with
  | some x => if x.ended.isSome then served s gc else s
  | none => s

/-- TRANSFORM_TRANSPOSE (R267): slot `b` of cluster `a`; `c` elements of it, or with 0 the rest. -/
def execTransformTranspose (s : State) : Out :=
  match xslot s s.inp.a s.inp.b with
  | none => .next s
  | some x =>
    if serving s s.inp.a s.inp.b && x.op == 1 then
      .next (servedWhole (transposeStep s s.inp.a s.inp.b x s.inp.c) s.inp.a s.inp.b)
    else .next s

/-- The controls of a conversion (R79, R267): the mode is that of the record, DYN that of the issuing context at acceptance, whose
fout and stochastic source apply. -/
def XSlot.ctl (x : XSlot) : RCtl :=
  { mode := effMode x.fcsr (fld (x.dw 3) 8 3), fout := fcsrFout x.fcsr, sat8 := (x.dw 3).getLsbD 11
    seed := x.srseed, ctr := x.srctr, core := x.srcore }

/-- A conversion (R213, R267), `m` elements of it. -/
def convertStep (s : State) (gc k : Nat) (x : XSlot) (m : Nat) : State :=
  let prm := x.dw 3
  let ts := fld prm 0 4
  let td := fld prm 4 4
  xNext s gc k x (fun i =>
    (x.dw 1 + BitVec.ofNat 64 (i * (typeWidth ts / 8)), typeWidth ts / 8,
     x.dw 2 + BitVec.ofNat 64 (i * (typeWidth td / 8)), typeWidth td / 8)) (convertElem x.ctl ts td) (fld prm 12 16 + 1) m

/-- TRANSFORM_CONVERT (R267): slot `b` of cluster `a`; `c` elements of it, or with 0 the rest. -/
def execTransformConvert (s : State) : Out :=
  match xslot s s.inp.a s.inp.b with
  | none => .next s
  | some x =>
    if serving s s.inp.a s.inp.b && x.op == 2 then
      .next (servedWhole (convertStep s s.inp.a s.inp.b x s.inp.c) s.inp.a s.inp.b)
    else .next s

/-- The response item of R276. -/
def XSlot.response (x : XSlot) (status : Nat) : Word :=
  let ok := decide (status = DONE)
  BitVec.ofNat 64 (status + 2 ^ 8 * fld (x.dw 0) 4 8 + 2 ^ 16 * x.bound + 2 ^ 18 * (x.flags / 128) +
    2 ^ 24 * (if ok || x.op != 0 then 0 else x.count % 64) + 2 ^ 32 * x.count)

/-- The fault record of R275. -/
def XSlot.faultRecord (x : XSlot) (status : Nat) : List Word :=
  [x.faultVa, BitVec.ofNat 64 (status + 2 ^ 8 * x.bound + 2 ^ 10 * (if x.op = 0 then x.count % 64 else 0) + 2 ^ 32 * x.emitted),
   BitVec.ofNat 64 (x.cycles + 2 ^ 32 * x.consumed), x.dw 0]

/-- The doublewords of a record written for an engine; a fault leaves the state as it was. -/
def putWords (s : State) (q vf : Nat) (va : Word) (ws : List Word) : State :=
  match xWriteRun s q vf va (ws.flatMap fun w => (leBytes 8 w.toNat).map BitVec.toNat) with
  | .ok t => t
  | .error _ => s

/-- TRANSFORM_RESPONSE (R277): when every store of the request has been performed at its owner, and after the fault record, the
response joins the core's xq queue; responses of one core in order of acceptance (R272). A store to another package that is lost
makes the status NODE_UNREACHABLE (R424). -/
def execTransformResponse (s : State) : Out :=
  let gc := s.inp.a
  let k := s.inp.b
  match xslot s gc k with
  | none => .next s
  | some x =>
    match x.ended with
    | none => .next s
    | some st0 =>
      let first := (s.cluster gc).xslots.all fun e =>
        e.1 == k || e.2.core != x.core || e.2.answered || decide (x.order ≤ e.2.order)
      if x.answered || !first || !storesDone s (xUnit gc) k then .next s
      else
        let st := if st0 = DONE ∧ storesLost s (xUnit gc) k = true then NODE_UNREACHABLE else st0
        let s1 := if st ≠ DONE ∧ x.dw 4 ≠ 0 then putWords s x.q x.vf (x.dw 4) (x.faultRecord st) else s
        let s2 := setXslot (dropStores s1 (xUnit gc) k) gc k { x with answered := true }
        .next (s2.modCore x.core fun c => { c with xq := c.xq ++ [(x.response st, k)] })

/-- TRANSFORM_CLAIM_LAPSE (R271). -/
def execTransformClaimLapse (s : State) : Out := .next (lapseHeld s s.inp.a)

/-- XREQ (R269). -/
def execXreq (a b : BitVec 6) (s : State) : Out :=
  runHead (.xreq a b) (do
    match ← offer (← gr b) with
    | .accepted k tag => writeNext 2 a (BitVec.ofNat 64 (1 + 2 * k + 256 * tag))
    | .full => writeNext 2 a 0
    | .busy n => writeNext 2 a (BitVec.ofNat 64 (2 + 4 * n))) s

/-- XSTAT (R280). -/
def execXstat (a : BitVec 6) (s : State) : Out :=
  runHead (.xstat a) (do
    let s ← get
    let g := coreOf s.cur
    let c := lapsed (s.cluster (g / 8)) s.tide.toNat
    let claim := c.xclaims.contains g
    writeNext 1 a (BitVec.ofNat 64 (slotsOf c g + 2 ^ 3 * b2n claim + 2 ^ 4 * b2n (c.xheld.any fun h => h.2.1 == g) +
      2 ^ 5 * (if claim then claimsAhead c g else 0) + 2 ^ 8 * (s.core g).xq.length))) s

end Sys2Proof.Machine
end

