-- ==== Sys2Proof/Machine/Engine.lean ====
section
/-!
DEFINITION. Requests to engines (R21 to R28): the kick, its acceptance, the completion in a Jetty; and the Jetty's own
instructions (R311 to R315).

Marks (notes/assumptions): DESIGN CHOICE (safe) 3; DEDUCED (unsafe) 27, 30; DEDUCED (safe) 28.
-/

namespace Sys2Proof.Machine

namespace State
def engine (s : State) (h : Nat) : Engine := s.engines.get h {}
def modEngine (s : State) (h : Nat) (f : Engine → Engine) : State := { s with engines := s.engines.put h (f (s.engine h)) }
end State

/-- The hart index of the Ferryman (R22). -/
def ferryman : Nat := 13456
/-- The hart index of the Ford port engine of an attachment. -/
def fordHart (a : Nat) : Nat := 13440 + a
/-- The hart index of the sequencer of a cluster. -/
def seqHart (gc : Nat) : Nat := 640 + gc

/-- The hart of engine `h` runs Kilior's default microcode, whose acts are the steps of the model that no head encodes (R27): it
is not stopped, and no image has replaced its store. -/
def runsDefault (s : State) (h : Nat) : Bool := !(s.proc (hartQOf h)).stopped && !(s.proc (hartQOf h)).loaded

/-- The depth of an engine's request queue (R282, R329, R403); the spec gives the Ferryman none. -/
def queueDepth (h : Nat) : Option Nat :=
  if h < 640 then some 64 else if h < 13440 then some 24 else if h < 13456 then some 16 else none

/-- The source engine of a completion (R313). -/
def engineNo (op : Nat) : Nat :=
  if op = 0x91 ∨ op = 0x92 then 0 else if op = 0x9F then 1 else if op = 0xAB then 2 else if op = 0x89 then 4 else 3

/-- The frame of R313: `lo` is bits 63:48 and `hi` bits 125:64. -/
def frameOf (status eng rid lo hi : Nat) : BitVec 128 :=
  BitVec.ofNat 128 (status + 2 ^ 8 * eng + 2 ^ 16 * (rid % 2 ^ 32) + 2 ^ 48 * (lo % 2 ^ 16) + 2 ^ 64 * (hi % 2 ^ 62))

/-! ### What a request holds until its completion -/

/-- The physical address of entry `k` of a function's handle table (R292). -/
def handleEntry (s : State) (vf k : Nat) : Nat := fld (s.vfOf vf).htab 13 39 * 2 ^ 13 + 8192 + 32 * k

/-- Doubleword `d` of a handle entry. -/
def handleDw (s : State) (vf k d : Nat) : Nat := s.natAt (handleEntry s vf k + 8 * d) 8

/-- Adds to the in-flight count of a handle's slot (R294), indivisibly at its slice (R293). -/
def addInflight (s : State) (vf k : Nat) (d : Int) : State :=
  let a := handleEntry s vf k + 16
  performAt s a (leBytes 4 (((s.natAt a 4 : Int) + d) % (2 ^ 32 : Nat)).toNat)

/-- What a copy or job gives up when it ends: the counts of its handles, and its hold on a landing ring (R294, R302). -/
def releaseHolds (s : State) (r : Request) : State :=
  let s1 := r.handles.foldl (fun s k => addInflight s r.vf k (-1)) s
  match r.ring with
  | none => s1
  | some n =>
    modRing s1 (clusterOf r.q) n fun x =>
      let x1 := match r.bound with
        | some st => x.giveBack st
        | none => x
      if r.op = 0x92 then { x1 with looping := false } else { x1 with inflight := x1.inflight - 1 }

/-- A completion message reaches its destination (R26, R311): an entry of the requester's Jetty, or memory (R406); a
killed request has none (R244). -/
def post (s : State) (h : Nat) (r : Request) (m : BitVec 128) : State :=
  if r.killed then s
  else match r.toMem with
    | some a =>
      match engWriteBytes s (hartQOf h) r.vf [] a (leBytes 16 m.toNat) with
      | .ok t => t
      | .error _ => s
    | none => s.modCore (coreOf r.q) fun c => { c with jetty := c.jetty ++ [m], reserved := c.reserved - 1 }

/-- The completion of a request that an engine fault ends (R28). A copy's count is a free value: the spec gives none. -/
def failRequest (s : State) (h : Nat) (r : Request) : State :=
  let s1 := releaseHolds s r
  let cnt := if r.op = 0x92 then r.iter else Config.freeNat s1.freeCtr
  let eng := engineNo r.op
  if eng = 0 then
    post { s1 with freeCtr := s1.freeCtr + 1 } h r (frameOf ENGINE_FAULT 0 r.rid.toNat h (r.tag + 2 ^ 32 * (cnt % 2 ^ 30)))
  else if eng = 4 then post s1 h r (frameOf ENGINE_FAULT 4 r.rid.toNat r.sel r.tag)
  else post s1 h r (frameOf ENGINE_FAULT eng r.rid.toNat 0 0)

/-! ### The kick -/

/-- An engine that cannot take the request now (R24). A cancelled job has left the queue (R330). -/
def queueFull (s : State) (h : Nat) : Bool :=
  match queueDepth h with
  | none => false
  | some d => !(s.proc (hartQOf h)).stopped && decide (d ≤ ((s.engine h).queue.filter fun r => !r.canc || decide (h < 640)).length)

/-- An engine accepts a kick: it copies the record into its queue entry, and a stopped hart completes it at once with
ENGINE_FAULT (R22, R28). -/
def acceptKick (s : State) (h : Nat) (r : Request) : State :=
  if (s.proc (hartQOf h)).stopped then failRequest s h r
  else s.modEngine h fun e => { e with queue := e.queue ++ [r] }

/-- A kick waits while the engine's queue is full; in a timed phase that is a schedule fault (R24). -/
def checkQueue (h : Nat) : Eff Unit := do
  let s ← get
  if queueFull s h then
    if s.me.timed then throw (.trap SCHED_FULL (BitVec.ofNat 64 (2 ^ 16 + h))) else throw .stall

/-- The kick of a cancellation (R21, R303, R330, R414): its record names a request and takes no place in the queue, since the
engine marks that request as it copies the record; it reserves no entry of the Jetty (R25). -/
def kickCancel (h : Nat) (mark : State → State) : Eff Unit := do
  checkQueue h
  modify mark

/-- A kick of the agent that moves (R21 to R25): an entry of the Jetty is reserved, then the engine's queue takes the
request, which carries the identity of its issuer (R32). The engine has copied the record when the kick is over, so the
request buffer is free again (R22). -/
def kick (h : Nat) (r : Request) : Eff Unit := do
  let s ← get
  let g := coreOf s.cur
  if jettyFull s g then
    if s.me.timed then throw (.trap SCHED_FULL 53) else throw .stall
  checkQueue h
  let p := s.me
  let r' := { r with
    q := s.cur, vf := p.vf, ln := ((s.core g).owner.map (·.2)).getD 0, win := (s.core g).win }
  modify fun s => s.modCore g fun c => { c with reserved := c.reserved + 1 }
  modMe fun p => { p with reqBuf := some r' }
  modify fun s => acceptKick s h r'
  modMe fun p => { p with reqBuf := none }

/-- ENGINE_KICK_ACCEPT (R22, R24): the engine `a` takes the record in the request buffer of the agent that moves. -/
def execEngineKickAccept (s : State) : Out :=
  match s.me.reqBuf with
  | none => .next s
  | some r =>
    if s.inp.a < Config.harts ∧ queueFull s s.inp.a = false then
      .next ((acceptKick s s.inp.a r).modProc s.cur fun p => { p with reqBuf := none })
    else .next s

/-- An instruction of a hart that waits for what stands still: the access that code `c` names stands still from now on. -/
def stallOn (c : Nat) : Eff Next := do
  modify fun s => noteStall s s.cur c
  let s ← get
  throw (remoteWait s s.cur (.engine s.tide))

/-- The next sequence number after `n`: 1 to 65,535 (R299). -/
def nextSeq (n : Nat) : Nat := if 65535 ≤ n then 1 else n + 1

/-- The identifier of a request: the context's slot and a sequence number. -/
def ridOf (q seq : Nat) : Word := BitVec.ofNat 64 (slotOf q + 16 * seq)

/-! ### The Jetty (R314, R315) -/

/-- JPEEK (R314). -/
def execJpeek (a b : BitVec 6) (s : State) : Out :=
  runHead (.jpeek a b) (do
    let i ← src b
    let s ← get
    if 31 < i.toNat then illegalOperand
    match (s.core (coreOf s.cur)).jetty[i.toNat]? with
    | none => if s.me.timed then throw (.trap SCHED_EMPTY 53) else throw .stall
    | some m => do
      result 2 (.jhi (m.extractLsb' 64 64))
      writeNext 2 a (m.extractLsb' 0 64)) s

/-- JDROP (R315). -/
def execJdrop (s : State) : Out :=
  runHead .jdrop (do
    let s ← get
    match (s.core (coreOf s.cur)).jetty with
    | [] => if s.me.timed then throw (.trap SCHED_EMPTY 53) else throw .stall
    | _ :: ms => do
      modify fun s => s.modCore (coreOf s.cur) fun c => { c with jetty := ms }
      pure seqNext) s

end Sys2Proof.Machine
end

