-- ==== Sys2Proof/Machine/Barge.lean ====
section
/-!
DEFINITION. Handles (R291 to R297), tensor layout records (R284 to R289), copies (R298 to R303) and the Barge's
microcode instructions (R317 to R319), with the steps of Kilior's default microcode.

Marks (notes/assumptions): DESIGN CHOICE (safe) 3; DEDUCED (unsafe) 29, 30, 61; DESIGN CHOICE (unsafe) 62.
-/

namespace Sys2Proof.Machine

/-! ### Handles (R291 to R297) -/

/-- The fields of a handle entry's doubleword 1. -/
def hLen (d : Nat) : Nat := bits d 0 48
def hGen (d : Nat) : Nat := bits d 48 12
def hLive (d : Nat) : Bool := Nat.testBit d 60
def hCls (d : Nat) : Bool := Nat.testBit d 61
/-- Doubleword 1 from its fields. -/
def hDw1 (len gen : Nat) (live cls : Bool) : Nat := len + 2 ^ 48 * (gen % 4096) + 2 ^ 60 * b2n live + 2 ^ 61 * b2n cls

/-- A handle that names no live, open slot of its generation (R294). -/
def handleStale (s : State) (vf h : Nat) : Bool :=
  let d := handleDw s vf (h % 65536) 1
  !hLive d || hCls d || decide (hGen d ≠ bits h 16 12)

/-- Stores doubleword `d` of a handle entry. -/
def putHandle (s : State) (vf k d x : Nat) : State := performAt s (handleEntry s vf k + 8 * d) (leBytes 8 x)

/-- The byte of a function's free map that holds slot `k`, and its value (R292). -/
def freeByte (s : State) (vf k : Nat) : Nat := fld (s.vfOf vf).htab 13 39 * 2 ^ 13 + k / 8
def slotFree (s : State) (vf k : Nat) : Bool := (s.byteAt (freeByte s vf k)).toNat.testBit (k % 8)
def setSlotFree (s : State) (vf k : Nat) (free : Bool) : State :=
  let a := freeByte s vf k
  let m : Byte := BitVec.ofNat 8 (2 ^ (k % 8))
  performAt s a [if free then s.byteAt a ||| m else s.byteAt a &&& ~~~m]

/-- HALLOC (R295). -/
def execHalloc (a b c : BitVec 6) (nt : Bool) (s : State) : Out :=
  runHead (.halloc a b c nt) (do
    let base ← gr b
    let len ← gr c
    let s ← get
    let vf := s.me.vf
    if len = 0 ∨ 2 ^ 48 ≤ len.toNat ∨ 2 ^ 48 < base.toNat + len.toNat then illegalOperand
    match (upTo 65536).find? fun k => decide (1 ≤ k) && slotFree s vf k with
    | none => writeNext 1 a 0
    | some k => do
      let gen := hGen (handleDw s vf k 1)
      modify fun s =>
        let s1 := putHandle (setSlotFree s vf k false) vf k 0 base.toNat
        performAt (putHandle s1 vf k 1 (hDw1 len.toNat gen true false)) (handleEntry s vf k + 16) (leBytes 4 0)
      writeNext 1 a (BitVec.ofNat 64 (k + 65536 * gen + 2 ^ 28 * b2n nt))) s

/-- HFREE (R296): marks the slot closing, waits until nothing is in flight, frees it. -/
def execHfree (a b : BitVec 6) (s : State) : Out :=
  runHead (.hfree a b) (do
    let h ← gr b
    let s ← get
    let vf := s.me.vf
    let k := h.toNat % 65536
    let d := handleDw s vf k 1
    let waiting := match s.me.wait with
      | .engine _ => true
      | _ => false
    if fld h 29 35 ≠ 0 then illegalOperand
    if !waiting then do
      if handleStale s vf h.toNat then throw (.trap HANDLE_STALE h)
      modify fun s => putHandle s vf k 1 (hDw1 (hLen d) (hGen d) true true)
    let s ← get
    if s.natAt (handleEntry s vf k + 16) 4 ≠ 0 then
      if waiting then throw .stall else throw (.wait (.engine s.tide))
    modify fun s => setSlotFree (putHandle s vf k 1 (hDw1 (hLen d) (hGen d + 1) false false)) vf k true
    writeNext 1 a 0) s

/-- HBUMP (R297). -/
def execHbump (a b c : BitVec 6) (s : State) : Out :=
  runHead (.hbump a b c) (do
    let h ← gr b
    let base ← gr c
    let s ← get
    let vf := s.me.vf
    let k := h.toNat % 65536
    let d := handleDw s vf k 1
    if handleStale s vf h.toNat || decide (fld h 29 35 ≠ 0) then throw (.trap HANDLE_STALE h)
    if 2 ^ 48 < base.toNat + hLen d then illegalOperand
    modify fun s => putHandle (putHandle s vf k 0 base.toNat) vf k 1 (hDw1 (hLen d) (hGen d + 1) true false)
    writeNext 1 a (BitVec.ofNat 64 (k + 65536 * ((hGen d + 1) % 4096) + 2 ^ 28 * bits h.toNat 28 1))) s

/-! ### Tensor layout records (R284 to R287) -/

/-- `n` doublewords from `i` of a record as one number. -/
def span (r : List Word) (i n : Nat) : Nat := ((upTo n).map fun j => (r.getD (i + j) 0).toNat * 2 ^ (64 * j)).foldl (· + ·) 0

def rBase (r : List Word) : Word := r.getD 0 0
def rFmt (r : List Word) : Nat := fld (r.getD 1 0) 0 8
def rRk (r : List Word) : Nat := fld (r.getD 1 0) 8 3
def rBic (r : List Word) : Nat := fld (r.getD 1 0) 11 5
def rFm (r : List Word) : Nat := fld (r.getD 1 0) 16 8
def rFv (r : List Word) : Nat := fld (r.getD 1 0) 32 32
def rExt (r : List Word) (i : Nat) : Nat := bits (span r 2 2) (24 * i) 24
/-- Stride of dimension `i` ≥ 1; dimension 0 is contiguous. -/
def rStr (r : List Word) (i : Nat) : Int := if i = 0 then 1 else sextNat (bits (span r 4 3) (48 * (i - 1)) 48) 48
def rOrg (r : List Word) (i : Nat) : Int := sextNat (bits (span r 7 2) (24 * i) 24) 24
def rWex (r : List Word) (i : Nat) : Nat := fld (r.getD 9 0) (12 * i) 12
def rHdl (r : List Word) : Nat := fld (r.getD 10 0) 0 32
/-- The window extent of dimension `i`. -/
def rW (r : List Word) (i : Nat) : Nat := rWex r i + 1
/-- Elements of the window. -/
def rCount (r : List Word) : Nat := (upTo 5).foldl (fun m i => m * rW r i) 1
/-- The element size in nibbles (R286). -/
def rNib (r : List Word) : Nat := typeWidth (rFmt r) / 4
/-- The element size in bytes, rounded up to 1. -/
def rBytes (r : List Word) : Nat := max 1 (rNib r / 2)

/-- The doublewords of a record that hold an offending bit (R285). -/
def recBad (r : List Word) (d : Nat) : Bool :=
  let w := r.getD d 0
  let hi := (upTo 5).filter fun i => decide (rRk r < i)
  -- bits of the span from doubleword `first` that a field of a dimension above rk covers
  let spans := fun (first width lo : Nat) =>
    hi.any fun i => decide (1 ≤ i + 1 - lo) && (upTo width).any fun b =>
      decide ((width * (i - lo) + b) / 64 + first = d) && w.getLsbD ((width * (i - lo) + b) % 64)
  match d with
  | 1 => decide (12 < rFmt r) || decide (4 < rRk r) || decide (1 < rFm r) || decide (fld w 24 8 ≠ 0) ||
      decide (2 ^ min 32 (typeWidth (rFmt r)) ≤ rFv r) || (decide (rFm r = 1) && decide (rFv r ≠ 0))
  | 2 => spans 2 24 0
  | 3 => spans 2 24 0 || decide (fld w 56 8 ≠ 0)
  | 4 => spans 4 48 1 || (decide (rFmt r = 10) && (w.getLsbD 0 || w.getLsbD 48))
  | 5 => spans 4 48 1 || (decide (rFmt r = 10) && w.getLsbD 32)
  | 6 => spans 4 48 1 || (decide (rFmt r = 10) && w.getLsbD 16)
  | 7 => spans 7 24 0 || (decide (rFmt r = 10) && w.getLsbD 0)
  | 8 => spans 7 24 0 || decide (fld w 56 8 ≠ 0)
  | 9 => spans 9 12 0 || decide (fld w 60 4 ≠ 0) || decide (2 ^ 24 < rCount r) || (decide (rFmt r = 10) && !w.getLsbD 0)
  | 10 => decide (fld w 29 35 ≠ 0)
  | 11 => w != 0
  | _ => false

/-- The lowest offending doubleword of a record (R285). -/
def recFault (r : List Word) : Option Nat := (upTo 12).find? (recBad r)

/-- The linear element index of tensor coordinates (R286). -/
def linear (r : List Word) (t : List Int) : Int := ((upTo 5).map fun i => t.getD i 0 * rStr r i).foldl (· + ·) 0

/-- elem_addr in nibbles from base′ (R286). -/
def elemAddr (r : List Word) (base : Word) (t : List Int) : Int := 2 * (base.toNat : Int) + rNib r * linear r t

/-- The least and greatest linear index of a tensor (R294). -/
def linRange (r : List Word) : Int × Int :=
  (upTo 5).foldl (fun (m : Int × Int) i =>
    let e := (rExt r i : Int) * rStr r i
    if e < 0 then (m.1 + e, m.2) else (m.1, m.2 + e)) (0, 0)

/-- Window coordinates of window index `j` (R287). -/
def coords (r : List Word) (j : Nat) : List Nat :=
  let w := fun i => rW r i
  [j % w 0, j / w 0 % w 1, j / (w 0 * w 1) % w 2, j / (w 0 * w 1 * w 2) % w 3, j / (w 0 * w 1 * w 2 * w 3) % w 4]

/-- pack_addr in nibbles (R287). -/
def packAddr (r : List Word) (a j : Nat) : Nat :=
  2 * a + rNib r * (j % rW r 0) + j / rW r 0 * (rNib r * rW r 0 + 8 * rBic r)

/-! ### Elements (R288, R289) -/

/-- The performed byte at a checked place. -/
def placeByte (s : State) (l : Loc) : Nat :=
  match l with
  | .tcm g o => (s.byteAt (tcmKey g o)).toNat
  | .scratch gc _ o => spByte s gc o
  | .own pa => (s.byteAt pa).toNat
  | .host pa _ => (s.byteAt pa).toNat
  | _ => 0

/-- A place on a device-register page (R281). -/
def isDevLoc (l : Loc) : Bool :=
  match l with
  | .dev _ => true
  | _ => false

/-- One element read by a Barge `h` for a request: `at4` is its address in nibbles. -/
def readElem (s : State) (h : Nat) (r : Request) (nib : Nat) (at4 : Int) : Except Nat (State × Nat) :=
  let va := w64 (at4 / 2)
  let n := max 1 (nib / 2)
  match checkAccess s (hartQOf h) r.vf r.win va n n .engRead false with
  | .error c => .error (if c = WAITS then waitAt va else c)
  | .ok (_, l) =>
    if isDevLoc l then .error ADDR_INVALID
    else match engRead s (hartQOf h) r.vf r.win va n n with
      | .error c => .error c
      | .ok (s', v) => .ok (s', if nib = 1 then bits v (4 * (at4 % 2).toNat) 4 else v)

/-- A byte with the nibble at an address in nibbles replaced (R69). -/
def setNibble (old : Nat) (at4 : Int) (v : Nat) : Nat :=
  if at4 % 2 = 0 then old / 16 * 16 + v % 16 else old % 16 + 16 * (v % 16)

/-- The byte around an INT4 element that is to be written, read at another package as well. -/
def oldByte (s : State) (h : Nat) (r : Request) (va : Word) (l : Loc) : Except Nat (State × Nat) :=
  match l with
  | .remote _ _ _ => engRead s (hartQOf h) r.vf r.win va 1 1
  | _ => .ok (s, placeByte s l)

/-- One element written, with the identity of the context that issued the request (R32). -/
def writeElem (s : State) (h : Nat) (r : Request) (nib : Nat) (at4 : Int) (v : Nat) : Except Nat State :=
  let va := w64 (at4 / 2)
  let n := max 1 (nib / 2)
  match checkAccess s (hartQOf h) r.vf r.win va n n .engWrite false with
  | .error c => .error (if c = WAITS then waitAt va else c)
  | .ok (_, l) =>
    if isDevLoc l then .error ADDR_INVALID
    else if nib ≠ 1 then engWriteAs s (hartQOf h) r.q r.vf r.win {} va n n v 0
    else match oldByte s h r va l with
      | .error c => .error c
      | .ok (s', old) => engWriteAs s' (hartQOf h) r.q r.vf r.win {} va n n (setNibble old at4 v) 0

/-- One element written to a packed destination. The padding of R287 puts 8-byte elements at odd multiples of 4 bytes: such a
one goes as two words. -/
def writePacked (s : State) (h : Nat) (r : Request) (nib : Nat) (at4 : Int) (v : Nat) : Except Nat State :=
  if nib = 16 ∧ at4 % 16 = 8 then
    match writeElem s h r 8 at4 (v % 2 ^ 32) with
    | .error c => .error c
    | .ok s1 => writeElem s1 h r 8 (at4 + 8) (v / 2 ^ 32)
  else writeElem s h r nib at4 v

/-- One element of a destination that a failed copy leaves undefined (R8, R302): a free value, where the Barge may write. -/
def leaveElem (s : State) (h : Nat) (r : Request) (nib : Nat) (at4 : Int) : State :=
  let va := w64 (at4 / 2)
  let n := max 1 (nib / 2)
  match checkAccess s (hartQOf h) r.vf r.win va n n .engWrite false with
  | .error _ => s
  | .ok (t, l) =>
    let v := Config.freeNat t.freeCtr
    let old := placeByte t l
    leaveAt { t with freeCtr := t.freeCtr + 1 } r.win l n (if nib ≠ 1 then v else setNibble old at4 v)

/-- One element of a packed destination left undefined. -/
def leavePacked (s : State) (h : Nat) (r : Request) (nib : Nat) (at4 : Int) : State :=
  if nib = 16 ∧ at4 % 16 = 8 then leaveElem (leaveElem s h r 8 at4) h r 8 (at4 + 8) else leaveElem s h r nib at4

/-- The source record, and the words after it. -/
def Request.source (r : Request) : List Word := r.args.take 12
def Request.rest (r : Request) : List Word := r.args.drop 12
/-- Step of dimension `i` of a looping copy (R301). -/
def Request.stepOf (r : Request) (i : Nat) : Int := if r.op = 0x92 then sextNat (bits (span r.args 13 2) (24 * i) 24) 24 else 0
/-- The loop word's iteration count. -/
def Request.iters (r : Request) : Nat := r.first + fld (r.args.getD 12 0) 0 32

/-- Clamps a coordinate to a dimension. -/
def clampTo (e : Nat) (x : Int) : Int := clampInt 0 e x

/-- Element `j` of copy_window in iteration `k` (R288). -/
def copyElem (s : State) (h : Nat) (r : Request) (k j : Nat) : Except Nat State :=
  let src := r.source
  let w := coords src j
  let t := (upTo 5).map fun i => rOrg src i + k * r.stepOf i + (w.getD i 0 : Int)
  let inside := (upTo 5).all fun i => decide (0 ≤ t.getD i 0) && decide (t.getD i 0 ≤ (rExt src i : Int))
  let nib := rNib src
  let value : Except Nat (State × Nat) :=
    if !inside && rFm src == 0 then .ok (s, rFv src)
    else readElem s h r nib (elemAddr src r.base ((upTo 5).map fun i => clampTo (rExt src i) (t.getD i 0)))
  match value with
  | .error c => .error c
  | .ok (s1, v) =>
    if r.op = 0x92 ∨ r.sel = 1 then
      match r.ring with
      | none => .ok s1
      | some n =>
        let gc := clusterOf r.q
        let x := ringOf s1 gc n
        let at4 := packAddr src (x.base (k % x.nst)) j
        let key := spKey gc (at4 / 2)
        let old := (s1.byteAt key).toNat
        .ok (performAt s1 key (if nib = 1 then [BitVec.ofNat 8 (setNibble old at4 v)] else leBytes (nib / 2) v))
    else if r.sel = 0 then writePacked s1 h r nib (packAddr src r.base2.toNat j) v
    else
      let d := r.rest
      let u := (upTo 5).map fun i => rOrg d i + (w.getD i 0 : Int)
      if (upTo 5).all fun i => decide (0 ≤ u.getD i 0) && decide (u.getD i 0 ≤ (rExt d i : Int)) then
        writeElem s1 h r nib (elemAddr d r.base2 u) v
      else .ok s1

/-- Window indices `j` to `j + n − 1` of iteration `k`: the first that fails, with its code. -/
def copyRun (s : State) (h : Nat) (r : Request) (k j : Nat) : Nat → State × Option (Nat × Nat)
  | 0 => (s, none)
  | n + 1 =>
    match copyElem s h r k j with
    | .error c => (s, some (c, j))
    | .ok t => copyRun t h r k (j + 1) n

/-- Window element `j` lies in the destination record's tensor, so it is written (R288). -/
def inDest (r : Request) (j : Nat) : Bool :=
  let d := r.rest
  let w := coords r.source j
  (upTo 5).all fun i => decide (0 ≤ rOrg d i + (w.getD i 0 : Int)) && decide (rOrg d i + (w.getD i 0 : Int) ≤ (rExt d i : Int))

/-- The window elements that a whole CPY writes, fill included (R313). -/
def writtenCount (r : Request) : Nat :=
  if r.op = 0x91 ∧ r.sel = 2 then ((upTo (rCount r.source)).filter (inDest r)).length else rCount r.source

/-- Where window element `j` of a copy goes holds a free value (R8, R302): in the stage that the copy has bound, at the packed
address, or in the destination record. -/
def leaveDest (s : State) (h : Nat) (r : Request) (j : Nat) : State :=
  let src := r.source
  let nib := rNib src
  if r.op = 0x92 ∨ r.sel = 1 then
    match r.ring, r.bound with
    | some n, some k =>
      let gc := clusterOf r.q
      let at4 := packAddr src ((ringOf s gc n).base k) j
      let key := spKey gc (at4 / 2)
      let old := (s.byteAt key).toNat
      let v := Config.freeNat s.freeCtr
      performAt { s with freeCtr := s.freeCtr + 1 } key
        (leBytes (max 1 (nib / 2)) (if nib ≠ 1 then v else setNibble old at4 v))
    | _, _ => s
  else if r.sel = 0 then leavePacked s h r nib (packAddr src r.base2.toNat j)
  else if inDest r j then
    let d := r.rest
    leaveElem s h r nib (elemAddr d r.base2 ((upTo 5).map fun i => rOrg d i + ((coords src j).getD i 0 : Int)))
  else s

/-- The first `n` window elements of a copy that ends other than DONE leave their destinations undefined (R302, R303). -/
def leaveCopy (s : State) (h : Nat) (r : Request) (n : Nat) : State := (upTo n).foldl (fun t j => leaveDest t h r j) s

/-- The working Barge of a request (R281): none where the translation of the source base faults. -/
def workingBarge (s : State) (home : Nat) (r : Request) : Except Nat Nat :=
  match decodeVa s (hartQOf home) r.vf r.base.toNat with
  | none => .error ADDR_INVALID
  | some (.tcm g _) => .ok (homeSlice (g / 8))
  | some (.scratch gc _ _) => .ok (homeSlice gc)
  | some .global =>
    match translate s (hartQOf home) r.vf r.base.toNat .engRead with
    | .error c => .error c
    | .ok (_, .own pa) => .ok (ownerSlice pa)
    | .ok (_, .host pa _) => .ok (ownerSlice pa)
    | .ok (_, .remote _ _ _) => .ok home
    | .ok _ => .error ADDR_INVALID

/-- The completion of a copy (R302, R313): what it held is given back, then the message is stored. -/
def finishCopy (s : State) (h : Nat) (r : Request) (status count : Nat) : State :=
  post (releaseHolds s r) h r (frameOf status 0 r.rid.toNat h (r.tag + 2 ^ 32 * (count % 2 ^ 30)))

/-! ### CPY, CPY.LOOP and CPYCAN (R298 to R303) -/

/-- An own-TCM or own-cluster scratchpad address in its peer-window form (R281). -/
def peerForm (s : State) (q : Nat) (va : Word) : Word :=
  let g := coreOf q
  let vcl := (s.core g).vcl
  match decodeVa s q (s.proc q).vf va.toNat with
  | some (.tcm _ o) =>
    if va.toNat < 0xFFFF100000000000 then BitVec.ofNat 64 (0xFFFF100000000000 + vcl * 0x40000 + g % 8 * 0x8000 + o) else va
  | some (.scratch _ w o) =>
    if va.toNat < 0xFFFF300000000000 then BitVec.ofNat 64 (0xFFFF300000000000 + vcl * 0x800000 + w * 0x100000 + o) else va
  | _ => va

/-- `n` registers from `b`; a group outside g1 to g47 is ILLEGAL_OPERAND (R51). -/
def group (b : BitVec 6) (n : Nat) : Eff (List Word) := do
  if b.toNat < 1 ∨ 48 < b.toNat + n then illegalOperand
  let s ← get
  return (upTo n).map fun i => s.me.r.readG (b.toNat + i)

/-- base′ of a record (R286). -/
def basePrime (s : State) (r : List Word) : Word :=
  if rHdl r = 0 then peerForm s s.cur (rBase r)
  else BitVec.ofNat 64 (handleDw s s.me.vf (rHdl r % 65536) 0) + rBase r

/-- The alignment of base′ (R286). The request carries an own-TCM or own-scratchpad base in its peer-window form (R281). -/
def checkBase (r : List Word) : Eff Word := do
  let b := basePrime (← get) r
  if b.toNat % rBytes r ≠ 0 then throw (.trap MISALIGNED (if rHdl r = 0 then rBase r else b))
  return b

/-- The check of a handle over bytes `lo` to `hi` of its buffer, as one operation at its slot (R294): the count is taken,
and the slot joins those the request holds. -/
def takeHandle (h : Nat) (lo hi : Int) : Eff (List Nat) := do
  if h = 0 then return []
  let s ← get
  let vf := s.me.vf
  if s.me.timed then throw (.trap TIMED_ACCESS s.me.r.pc)
  if handleStale s vf h then throw (.trap HANDLE_STALE (BitVec.ofNat 64 h))
  let len := hLen (handleDw s vf (h % 65536) 1)
  if lo < 0 ∨ (len : Int) < hi then
    let first := if lo < 0 then lo else max lo len
    throw (.trap ADDR_INVALID (BitVec.ofNat 64 (handleDw s vf (h % 65536) 0) + w64 first))
  modify fun s => addInflight s vf (h % 65536) 1
  return [h % 65536]

/-- The handle of a record (R294). -/
def recHandle (r : List Word) : Eff (List Nat) := do
  let (lo, hi) := linRange r
  let nib : Int := rNib r
  takeHandle (rHdl r) ((rBase r).toNat + nib * lo / 2) ((rBase r).toNat + (nib * (hi + 1) + 1) / 2)

/-- A valid record in registers from `b` (R285). -/
def checkRec (b : BitVec 6) (r : List Word) : Eff Unit :=
  match recFault r with
  | some d => throw (.trap RESERVED_FIELD (BitVec.ofNat 64 (b.toNat + d)))
  | none => pure ()

/-- The ring checks of R308. -/
def checkCopyRing (r : Nat) (rec' : List Word) : Eff Unit := do
  let s ← get
  let x := ringOf s (clusterOf s.cur) r
  if !x.enabled || x.kind 0 != 1 || x.looping || decide (256 * x.ssz < packAddr rec' 0 (rCount rec' - 1) + rNib rec') then
    throw (.trap LAND_STATE (BitVec.ofNat 64 (16 * r)))

/-- A copy into a landing ring is bound to it from its issue on (R301, R308). -/
def holdRing (s : State) (r : Request) : State :=
  match r.ring with
  | none => s
  | some n => modRing s (clusterOf s.cur) n fun x =>
      if r.op = 0x92 then { x with looping := true } else { x with inflight := x.inflight + 1 }

/-- A request that reaches a stopped Barge ends at once, so its destination is undefined (R28, R302). -/
def leaveIfStopped (s : State) (h : Nat) (r : Request) : State :=
  if (s.proc (hartQOf h)).stopped then
    leaveCopy s h { r with q := s.cur, vf := s.me.vf, win := (s.core (coreOf s.cur)).win } (rCount r.source)
  else s

/-- The kick of a copy: the identifier is given, the home Barge takes the request (R281, R299). -/
def kickCopy (a : BitVec 6) (r : Request) : Eff Next := do
  let s ← get
  let seq := nextSeq s.me.seqCpy
  let rid := ridOf s.cur seq
  let h := homeSlice (clusterOf s.cur)
  modify fun s => leaveIfStopped (holdRing s r) h r
  kick h { r with rid := rid, seq := seq }
  modMe fun p => { p with seqCpy := seq }
  dstAll 2 a rid
  pure seqNext

/-- Whether a record's handle asks for non-temporal transfers (R291). -/
def handleNt (r : List Word) : Bool := (rHdl r).testBit 28

/-- CPY to a packed destination (R298). -/
def execCpyPk (a b c : BitVec 6) (nt : Bool) (tag : BitVec 32) (s : State) : Out :=
  runOnce (.cpyPk a b c nt tag) (do
    let r ← group b 12
    let d ← gr c
    checkRec b r
    let base ← checkBase r
    let d' := peerForm (← get) (← get).cur d
    if d'.toNat % rBytes r ≠ 0 then throw (.trap MISALIGNED d)
    let hs ← recHandle r
    kickCopy a { op := 0x91, sel := 0, args := r ++ [d], tag := tag.toNat, nt := nt || handleNt r,
                 base := base, base2 := d', handles := hs }) s

/-- CPY to a landing stage (R298, R300). -/
def execCpyLand (a b c : BitVec 6) (nt : Bool) (tag : BitVec 32) (s : State) : Out :=
  runOnce (.cpyLand a b c nt tag) (do
    let r ← group b 12
    let d ← gr c
    checkRec b r
    let base ← checkBase r
    checkCopyRing (fld d 0 4) r
    let hs ← recHandle r
    kickCopy a { op := 0x91, sel := 1, args := r ++ [d], tag := tag.toNat, nt := nt || handleNt r,
                 base := base, handles := hs, ring := some (fld d 0 4), iter := fld d 4 60 }) s

/-- CPY to a record (R298, R299). -/
def execCpyRec (a b c : BitVec 6) (nt : Bool) (tag : BitVec 32) (s : State) : Out :=
  runOnce (.cpyRec a b c nt tag) (do
    let r ← group b 12
    let d ← group c 12
    checkRec b r
    checkRec c d
    if rFm d ≠ 0 ∨ rFv d ≠ 0 ∨ rBic d ≠ 0 ∨ d.getD 9 0 ≠ r.getD 9 0 ∨ rNib d ≠ rNib r then illegalOperand
    let base ← checkBase r
    let base2 ← checkBase d
    let hs ← recHandle r
    let hd ← recHandle d
    kickCopy a { op := 0x91, sel := 2, args := r ++ d, tag := tag.toNat, nt := nt || handleNt r || handleNt d,
                 base := base, base2 := base2, handles := hs ++ hd }) s

/-- The loop registers of R301. -/
def loopOk (r l : List Word) : Bool :=
  let w := l.getD 0 0
  decide (1 ≤ fld w 0 32) && decide (fld w 36 28 = 0) && decide (fld (l.getD 2 0) 56 8 = 0) &&
  ((upTo 5).all fun i => decide (i ≤ rRk r) || decide (bits (span l 1 2) (24 * i) 24 = 0)) &&
  (decide (rFmt r ≠ 10) || !Nat.testBit (span l 1 2) 0)

/-- CPY.LOOP (R298, R301). -/
def execCpyLoop (a b c : BitVec 6) (nt : Bool) (tag : BitVec 32) (s : State) : Out :=
  runOnce (.cpyLoop a b c nt tag) (do
    let r ← group b 12
    let l ← group c 3
    checkRec b r
    if !loopOk r l then illegalOperand
    let base ← checkBase r
    let n := fld (l.getD 0 0) 32 4
    checkCopyRing n r
    let hs ← recHandle r
    kickCopy a { op := 0x92, args := r ++ l, tag := tag.toNat, nt := nt || handleNt r, base := base, handles := hs,
                 ring := some n }) s

/-- The requests an engine holds, in every place. -/
def Engine.all (e : Engine) : List Request := e.queue ++ e.fwd ++ e.slots.vals
/-- An engine with a change made to each request that `p` picks. -/
def Engine.mapReq (e : Engine) (p : Request → Bool) (f : Request → Request) : Engine :=
  let g := fun r => if p r then f r else r
  { e with queue := e.queue.map g, fwd := e.fwd.map g, slots := e.slots.map fun x => (x.1, g x.2) }

/-- A copy with identifier `rid` issued by a context of core `g`. -/
def isCopyOf (g : Nat) (rid : Word) (r : Request) : Bool := (r.op == 0x91 || r.op == 0x92) && coreOf r.q == g && r.rid == rid

/-- The copy is outstanding at some Barge. -/
def copyOutstanding (s : State) (g : Nat) (rid : Word) : Bool := s.engines.any fun e => decide (e.1 < 640) && e.2.all.any (isCopyOf g rid)

/-- CPYCAN (R303). -/
def execCpycan (a b : BitVec 6) (s : State) : Out :=
  runOnce (.cpycan a b) (do
    let rid ← gr b
    let s ← get
    let g := coreOf s.cur
    if fld rid 20 44 ≠ 0 then illegalOperand
    match s.me.wait with
    | .engine _ =>
      if copyOutstanding s g rid then throw .stall else do dstAll 1 a 0; pure seqNext
    | _ =>
      if !copyOutstanding s g rid then do dstAll 1 a 1; pure seqNext
      else do
        kickCancel (homeSlice (clusterOf s.cur)) fun s => { s with engines := s.engines.map fun e =>
          if e.1 < 640 then (e.1, e.2.mapReq (isCopyOf g rid) fun r => { r with canc := true }) else e }
        throw (.wait (.engine s.tide))) s

/-! ### The default microcode (R281, R288, R300 to R302) -/

/-- A copy that a fault ends before any element, which leaves its destination undefined (R302): its count is the stages filled,
or the index of an element, which the spec does not say. -/
def failCopy (s : State) (h : Nat) (r : Request) (c : Nat) : State :=
  let t := leaveCopy s h r (rCount r.source)
  finishCopy { t with freeCtr := t.freeCtr + 1 } h r c
    (if r.op = 0x92 then r.iter else Config.freeNat t.freeCtr % rCount r.source)

/-- The lowest free slot of a Barge. -/
def freeSlotOf (e : Engine) : Option Nat := (upTo 16).find? fun k => (e.slots.find k).isNone

/-- BARGE_FORWARD (R281, R282): the Barge `a` takes the oldest request of its queue and forwards it to its working Barge.
A fault on the base ends the copy; one that works here stays. -/
def execBargeForward (s : State) : Out :=
  let h := s.inp.a
  if 640 ≤ h ∨ runsDefault s h = false then .next s
  else match (s.engine h).queue with
    | [] => .next s
    | r :: rest =>
      let s1 := s.modEngine h fun e => { e with queue := rest }
      if r.canc then .next (finishCopy s1 h r CANCELLED (if r.op = 0x92 then r.iter else 0))
      else match workingBarge s h r with
        | .error c => .next (if isWait c then s else failCopy s1 h r c)
        | .ok w =>
          if w = h then .next s
          else if (s.proc (hartQOf w)).stopped then .next (failRequest (leaveCopy s1 w r (rCount r.source)) w r)
          else if 64 ≤ (s.engine w).fwd.length then .next s
          else .next (s1.modEngine w fun e => { e with fwd := e.fwd ++ [{ r with fwd := true }] })

/-- A request taken in hand by Barge `h` for slot `k`: the one there, or the oldest of the queue that `c` names (0 request
queue, 1 forward queue), if this Barge serves it. -/
def takeInHand (s : State) (h k c : Nat) : Option (Nat × Request × State) :=
  let e := s.engine h
  match e.slots.find k with
  | some r => some (k, r, s)
  | none =>
    match freeSlotOf e, (if c = 0 then e.queue else e.fwd) with
    | some j, r :: _ =>
      let mine := r.fwd || r.canc || match workingBarge s h r with
        | .ok w => w == h
        | .error _ => false
      if !mine then none
      else some (j, r, s.modEngine h fun e =>
        { e with slots := e.slots.put j r, queue := if c = 0 then e.queue.drop 1 else e.queue
                 fwd := if c = 0 then e.fwd else e.fwd.drop 1 })
    | _, _ => none

/-- Frees slot `k` of Barge `h` and completes its request. -/
def endSlot (s : State) (h k : Nat) (r : Request) (status count : Nat) : State :=
  finishCopy (s.modEngine h fun e => { e with slots := e.slots.del k }) h r status count

/-- The stage of iteration `i` of a request's ring can be taken (R300, R307). -/
def stageFree (s : State) (r : Request) (i : Nat) : Bool :=
  match r.ring with
  | none => true
  | some n =>
    let x := ringOf s (clusterOf r.q) n
    x.writable (i % x.nst)

/-- Binds the stage of iteration `i` to the copy. -/
def bindStage (s : State) (r : Request) (i : Nat) : State × Request :=
  match r.ring with
  | none => (s, r)
  | some n =>
    let x := ringOf s (clusterOf r.q) n
    (modRing s (clusterOf r.q) n fun x => x.bind (i % x.nst), { r with bound := some (i % x.nst) })

/-- Fills the stage of iteration `i` (R307). -/
def fillStage (s : State) (r : Request) (i : Nat) : State × Request :=
  match r.ring with
  | none => (s, r)
  | some n => (modRing s (clusterOf r.q) n fun x => x.fill (i % x.nst) i, { r with bound := none })

/-- The copy of slot `k` has come to its end with status `c`. The completion waits until the stores it has sent to other packages
are acknowledged or lost (R26, R425); a lost one makes a copy that was done end NODE_UNREACHABLE. -/
def settleCopy (s : State) (h k : Nat) (r : Request) (c count : Nat) : State :=
  let q := hartQOf h
  if storesDone s q k = false then s.modEngine h fun e => { e with slots := e.slots.put k { r with fin := some (c, count) } }
  else if storesLost s q k && c == DONE then failCopy ((dropStores s q k).modEngine h fun e => { e with slots := e.slots.del k }) h r NODE_UNREACHABLE
  else endSlot (dropStores s q k) h k r c count

/-- The window elements that a copy which does not reach its end leaves undefined: a stage it has bound is left whole, else the
elements begun (R302, R303). -/
def begun (r : Request) : Nat := if r.bound.isSome then rCount r.source else r.next

/-- The next elements of copy `r` of slot `k`, its stage bound: `n` of them, or with `n` 0 all that are left. They take their
places in T one by one, so that other agents' accesses may fall between two steps (R125). -/
def moveSome (s : State) (h k : Nat) (r : Request) (n : Nat) : State × Option (Nat × Nat) :=
  let m := rCount r.source - r.next
  let x := copyRun s h r r.iter r.next (if n = 0 then m else min n m)
  (ownStores s x.1 (hartQOf h) k, x.2)

/-- The window elements done once `n` more have been moved. -/
def nextAfter (r : Request) (n : Nat) : Nat := if n = 0 then rCount r.source else min (rCount r.source) (r.next + n)

/-- How the copy of slot `k` goes on after some of its elements: an access that stands still is waited for, a fault ends the
copy; when all are moved its stage is filled and it is done. `r1` is the request with its stage bound. -/
def afterCopy (h k n : Nat) (r1 : Request) (x : State × Option (Nat × Nat)) : State :=
  let keep := fun (s : State) (j : Nat) => s.modEngine h fun e => { e with slots := e.slots.put k { r1 with next := j } }
  match x.2 with
  | some (c, j) =>
    if isWait c then keep (noteStall x.1 (hartQOf h) c) j
    else settleCopy (forgetStalls (leaveCopy x.1 h r1 (rCount r1.source)) (hartQOf h) c) h k r1 c j
  | none =>
    if nextAfter r1 n < rCount r1.source then keep x.1 (nextAfter r1 n)
    else settleCopy (fillStage x.1 r1 r1.iter).1 h k (fillStage x.1 r1 r1.iter).2 DONE (writtenCount r1)

/-- The stage of a copy's iteration, bound now if it is not yet. -/
def holdStage (s : State) (r : Request) : State × Request := if r.bound.isSome then (s, r) else bindStage s r r.iter

/-- One CPY in slot `k` (R300): a landing stage is waited for, written and filled. -/
def runCopy (s : State) (h k : Nat) (r : Request) : State :=
  match r.fin with
  | some (c, count) => settleCopy s h k r c count
  | none =>
    if r.killed then settleCopy (if r.bound.isSome then leaveCopy s h r (begun r) else s) h k r KILLED r.next
    else if r.canc then settleCopy (leaveCopy s h r (begun r)) h k r CANCELLED r.next
    else if r.bound.isNone && !stageFree s r r.iter then s
    else afterCopy h k s.inp.w.toNat (holdStage s r).2 (moveSome (holdStage s r).1 h k (holdStage s r).2 s.inp.w.toNat)

/-- BARGE_COPY (R288): Barge `a`, slot `b` or the oldest request of the queue that `c` names, moves `w` elements, or all that
are left where `w` is 0. -/
def execBargeCopy (s : State) : Out :=
  let h := s.inp.a
  if 640 ≤ h ∨ runsDefault s h = false then .next s
  else match takeInHand s h s.inp.b s.inp.c with
    | none => .next s
    | some (k, r, t) => if r.op = 0x91 ∧ s.copiesFrozen (clusterOf r.q) = false then .next (runCopy t h k r) else .next s

/-- How a looping copy goes on after some elements of an iteration. -/
def afterIteration (h k n : Nat) (r1 : Request) (x : State × Option (Nat × Nat)) : State :=
  let keep := fun (s : State) (j : Nat) => s.modEngine h fun e => { e with slots := e.slots.put k { r1 with next := j } }
  match x.2 with
  | some (c, j) =>
    if isWait c then keep (noteStall x.1 (hartQOf h) c) j
    else endSlot (forgetStalls (leaveCopy x.1 h r1 (rCount r1.source)) (hartQOf h) c) h k r1 c r1.iter
  | none =>
    if nextAfter r1 n < rCount r1.source then keep x.1 (nextAfter r1 n)
    else
      let s3 := (fillStage x.1 r1 r1.iter).1
      let r4 : Request := { (fillStage x.1 r1 r1.iter).2 with iter := r1.iter + 1, next := 0 }
      if r4.iter = r4.iters then endSlot s3 h k r4 DONE r4.iter
      else s3.modEngine h fun e => { e with slots := e.slots.put k r4 }

/-- One iteration of a looping copy in slot `k`, or `w` elements of it (R301). -/
def runIteration (s : State) (h k : Nat) (r : Request) : State :=
  if r.killed then endSlot (leaveCopy s h r (begun r)) h k r KILLED r.iter
  else if r.canc then endSlot (leaveCopy s h r (begun r)) h k r CANCELLED r.iter
  else if r.bound.isNone && !stageFree s r r.iter then s
  else afterIteration h k s.inp.w.toNat (holdStage s r).2 (moveSome (holdStage s r).1 h k (holdStage s r).2 s.inp.w.toNat)

/-- LOOP_ITERATION (R301): Barge `a`, slot `b` or the oldest request of the queue that `c` names. -/
def execLoopIteration (s : State) : Out :=
  let h := s.inp.a
  if 640 ≤ h ∨ runsDefault s h = false then .next s
  else match takeInHand s h s.inp.b s.inp.c with
    | none => .next s
    | some (k, r, t) => if r.op = 0x92 ∧ s.copiesFrozen (clusterOf r.q) = false then .next (runIteration t h k r) else .next s

/-! ### Microcode instructions (R317 to R319) -/

/-- The engine of the hart that moves, and the request in its selected slot. -/
def myEngine (s : State) : Engine := s.engine (hartIx s.cur)
def mySlot (s : State) : Option Request := (myEngine s).slots.find (myEngine s).sel
def modMyEngine (f : Engine → Engine) : Eff Unit := modify fun s => s.modEngine (hartIx s.cur) f

/-- Writes `n` registers from `a`. -/
def putGroup (a : BitVec 6) (xs : List Word) : Eff Unit :=
  ((upTo xs.length).zip xs).forM fun e => result 1 (.g (a.toNat + e.1) e.2)

/-- The kind of R317. -/
def bgetKind (r : Request) : Nat := if r.restored then 3 else if r.op = 0x92 then 2 else 1

/-- BGET (R317). -/
def execBget (a : BitVec 6) (nw : Bool) (s : State) : Out :=
  runHead (.bget a nw) (do
    let _ ← group a 4
    let e := myEngine (← get)
    let none' : Eff Next := if nw then do putGroup a [0, 0, 0, 0]; pure seqNext else throw .stall
    let fromFwd := !e.fwd.isEmpty && (e.queue.isEmpty || !e.lastFwd)
    match freeSlotOf e, (if fromFwd then e.fwd else e.queue) with
    | some k, r :: rest => do
      modMyEngine fun e => { e with
        slots := e.slots.put k r, sel := k, lastFwd := fromFwd
        queue := if fromFwd then e.queue else rest, fwd := if fromFwd then rest else e.fwd }
      modMe fun p => { p with vf := r.vf }
      let d : Word := if r.op = 0x92 then 0 else if r.sel = 2 then 0 else if r.sel = 0 then r.base2 else r.args.getD 12 0
      putGroup a [BitVec.ofNat 64 (bgetKind r + 2 ^ 4 * r.sel + 2 ^ 6 * b2n r.nt + 2 ^ 7 * b2n r.fwd + 2 ^ 16 * (r.rid.toNat % 2 ^ 32)),
        d, if r.op = 0x92 then r.args.getD 12 0 else 0, BitVec.ofNat 64 r.tag]
      pure seqNext
    | _, _ => none') s

/-- A microcode act on an empty slot is an unhandled fault of the hart (R319, R28). -/
def hartFault : Eff Next := do
  modify fun s => (s.modProc s.cur fun p => { p with stopped := true }).pushTurn .engineHartFaultStop
    { a := hartIx s.cur, b := ILLEGAL_OPERAND, w := s.me.r.pc }
  return { gone := true }

/-- bstream.move (R318). A slot that holds no request gives it nothing to act on: ILLEGAL_OPERAND. -/
def execBstreamMove (a b c d : BitVec 6) (s : State) : Out :=
  runHead (.bstreamMove a b c d) (do
    let j ← gr b
    let n ← gr c
    let k ← gr d
    let s ← get
    match mySlot s with
    | none => illegalOperand
    | some r =>
      if r.killed then writeNext 1 a (BitVec.ofNat 64 (KILLED + 2 ^ 8 * (j.toNat % 2 ^ 32)))
      else if r.canc then writeNext 1 a (BitVec.ofNat 64 (CANCELLED + 2 ^ 8 * (j.toNat % 2 ^ 32)))
      else if s.copiesFrozen (clusterOf r.q) then throw .stall
      else do
        let (t, f) := copyRun s (hartIx s.cur) r k.toNat j.toNat (min n.toNat (rCount r.source - j.toNat))
        match f with
        | some (code, i) =>
          if isWait code then stallOn code
          else do
            set (forgetStalls (ownStores s t s.cur (myEngine s).sel) s.cur code)
            writeNext 1 a (BitVec.ofNat 64 (code + 2 ^ 8 * i))
        | none => do
          set (ownStores s t s.cur (myEngine s).sel)
          writeNext 1 a 0) s

/-- bstream.owner (R318). -/
def execBstreamOwner (a : BitVec 6) (s : State) : Out :=
  runHead (.bstreamOwner a) (do
    let s ← get
    match mySlot s with
    | none => illegalOperand
    | some r =>
      match workingBarge s (hartIx s.cur) r with
      | .ok w => writeNext 1 a (BitVec.ofNat 64 w)
      | .error c => if isWait c then throw .stall else writeNext 1 a (BitVec.ofNat 64 (2 ^ 63 + c))) s

/-- bstream.fwd (R318): a full forward queue is waited for (R282). A forwarded request is never forwarded again (R282), and the spec
names no fault for microcode that tries: the model raises ILLEGAL_OPERAND (log entry 62). -/
def execBstreamFwd (b : BitVec 6) (s : State) : Out :=
  runHead (.bstreamFwd b) (do
    let w ← gr b
    let s ← get
    match mySlot s with
    | none => illegalOperand
    | some r =>
      if 640 ≤ w.toNat || r.fwd then illegalOperand
      else if (s.proc (hartQOf w.toNat)).stopped then do
        modMyEngine fun e => { e with slots := e.slots.del e.sel }
        modify fun s => failRequest (leaveCopy s (hartIx s.cur) r (rCount r.source)) w.toNat r
        pure seqNext
      else if 64 ≤ (s.engine w.toNat).fwd.length then throw .stall
      else do
        modMyEngine fun e => { e with slots := e.slots.del e.sel }
        modify fun s => s.modEngine w.toNat fun e => { e with fwd := e.fwd ++ [{ r with fwd := true }] }
        pure seqNext) s

/-- Changes the request in the selected slot. -/
def setMySlot (r : Request) : Eff Unit := modMyEngine fun e => { e with slots := e.slots.put e.sel r }

/-- bland.wait (R319). -/
def execBlandWait (a b : BitVec 6) (s : State) : Out :=
  runHead (.blandWait a b) (do
    let k ← gr b
    let s ← get
    match mySlot s with
    | none => hartFault
    | some r =>
      if r.killed then writeNext 1 a (BitVec.ofNat 64 KILLED)
      else if r.canc then writeNext 1 a (BitVec.ofNat 64 CANCELLED)
      else match r.ring with
        | none => hartFault
        | some n =>
          if r.park && r.op == 0x92 then do
            modify fun s => s.modCluster (clusterOf r.q) fun c => { c with parkedLoops := c.parkedLoops.put n { r with iter := k.toNat } }
            modMyEngine fun e => { e with slots := e.slots.del e.sel }
            writeNext 1 a (BitVec.ofNat 64 512)
          else if stageFree s r k.toNat then do
            let (t, r') := bindStage s r k.toNat
            set t
            setMySlot { r' with iter := k.toNat }
            writeNext 1 a 0
          else writeNext 1 a (BitVec.ofNat 64 256)) s

/-- bland.fill (R319): of a stage that is not bound, an unhandled fault. -/
def execBlandFill (b : BitVec 6) (s : State) : Out :=
  runHead (.blandFill b) (do
    let k ← gr b
    let s ← get
    match mySlot s with
    | none => hartFault
    | some r =>
      match r.ring with
      | none => hartFault
      | some n =>
        let x := ringOf s (clusterOf r.q) n
        if !(x.stage (k.toNat % x.nst)).bnd then hartFault
        else do
          let (t, r') := fillStage s r k.toNat
          set t
          setMySlot { r' with iter := k.toNat + 1 }
          pure seqNext) s

/-- How many window elements bland.done leaves undefined: none with DONE, those below the count of a cancelled CPY that writes
no stage, else all (R302, R303, R313). -/
def leftBy (r : Request) (status count : Nat) : Nat :=
  if status = DONE then 0
  else if status = CANCELLED ∧ r.ring.isNone then min count (rCount r.source) else rCount r.source

/-- bland.done (R319): the request's stores to other packages are acknowledged or lost before (R26). -/
def execBlandDone (b c : BitVec 6) (s : State) : Out :=
  runHead (.blandDone b c) (do
    let st ← gr b
    let cnt ← gr c
    let s ← get
    match mySlot s with
    | none => hartFault
    | some r => do
      let h := hartIx s.cur
      let k := (myEngine s).sel
      if storesDone s s.cur k = false then throw .stall
      set (endSlot (leaveCopy (dropStores s s.cur k) h r (leftBy r (fld st 0 8) (fld cnt 0 30))) h k r (fld st 0 8) (fld cnt 0 30))
      pure seqNext) s

end Sys2Proof.Machine
end

