-- ==== Sys2Proof/Machine/Pontoon.lean ====
section
/-!
DEFINITION. The Pontoon engine: jobs, row drain and tuning (R96 to R100, R320 to R353).

Marks (notes/assumptions): DESIGN CHOICE (safe) 3, 7; DEDUCED (unsafe) 40, 42, 43, 61; DEDUCED (safe) 41, 57.
-/

namespace Sys2Proof.Machine

namespace State
def pontoon (s : State) (gc : Nat) : Pontoon := (s.cluster gc).pontoon
def modPontoon (s : State) (gc : Nat) (f : Pontoon → Pontoon) : State := s.modCluster gc fun c => { c with pontoon := f c.pontoon }
end State

/-! ### The converter and promotion (R96, R97, R100) -/

/-- round_half_even of num / den. -/
def roundHalfEven (num : Int) (den : Nat) : Int :=
  let q := num / den
  let r := (num % den).toNat
  if den < 2 * r ∨ (2 * r = den ∧ q % 2 = 1) then q + 1 else q

/-- The deviation of one converter code: a free value within the bound of R97. -/
def deviation (bound k : Nat) : Int := (Config.freeNat k % (2 * bound + 1) : Nat) - (bound : Int)

/-- The converter's code for the sum `x` (R96); `k` names the free value of its deviation. -/
def converter (g sh bound k : Nat) (x : Int) : Int :=
  clampInt (-1024) 1023 (clampInt (-1024) 1023 (roundHalfEven (2 ^ g * x) (2 ^ sh)) + deviation bound k)

/-- promote of R100: the new register and the promotion flags. -/
def promote (a : Nat) (n c : Int) (scale : Ext) (g sh : Nat) (ctl : RCtl) (r : Nat) : Nat × Nat :=
  let d := n * 2 ^ sh - c * 2 ^ g
  let (p, f1) := mulExt scale (.fin (decide (d < 0)) d.natAbs (-(g : Int)))
  let (x, f2) := addExt ctl.mode (FP32.decode a) p
  let (y, f3) := roundTo FP32 ctl.mode ctl.fout false r x
  (y, f1 ||| f2 ||| f3)

/-- A promotion scale as an exact value; with fin a subnormal is a zero of its sign (R325). -/
def scaleExt' (fin : Bool) (x : Nat) : Ext :=
  if fin && FP32.isSubnormal x then FP32.decode (FP32.signBit (x.testBit 31)) else FP32.decode x

/-- The rounding controls a request captured (R328). -/
def Request.ctl (r : Request) : RCtl :=
  { mode := Mode.ofCode r.mode, fin := fcsrFin r.fcsr, fout := fcsrFout r.fcsr, seed := r.srseed, core := coreOf r.q, ctr := r.srctr }

/-- The bound on a code's deviation in a drift state (R97). -/
def codeBound (drift : Nat) : Nat := if drift = 0 then 1 else 3

/-- The passes of a split rule (R322): for a weight row sum, how an activation byte is sent and with which sign the code
counts. -/
def passes (split : Nat) : List ((Nat → Nat) × Int) :=
  match split with
  | 0 => [(fun x => (max (sextNat x 8) 0).toNat, 1), (fun x => (max (-(sextNat x 8)) 0).toNat, -1)]
  | 1 => [(fun x => (sextNat x 8 + 128).toNat, 1)]
  | _ => [(fun x => x % 256, 1)]

/-- The sum of one row and one vector (R96). -/
def rowSum (w : List Int) (i : Nat) (xs : List Nat) : Int :=
  ((upTo 32).map fun j => w.getD (32 * i + j) 0 * (xs.getD j 0 : Int)).foldl (· + ·) 0

/-- The slots of one k-step (R323). -/
def slotCount (split bnd : Nat) : Nat := (passes split).length * bnd

/-- Slots `skip` to `upto` − 1 of one k-step (R323, R376): the codes of every pass added into the narrow accumulators of 24 bits,
with free values from `k` on. `xs b` is activation vector b. -/
def streamSlots (w : List Int) (split g sh bnd bound k : Nat) (xs : Nat → List Nat) (skip upto : Nat) (n : FMap Int) : FMap Int :=
  ((upTo (passes split).length).zip (passes split)).foldl (fun n p =>
    (upTo bnd).foldl (fun n b =>
      if p.1 * bnd + b < skip ∨ upto ≤ p.1 * bnd + b then n else
      let v := (xs b).map p.2.1
      (upTo 32).foldl (fun n i =>
        let code := converter g sh bound (k + (p.1 * bnd + b) * 32 + i) (rowSum w i v)
        n.put (64 * i + b) (sextNat (((n.get (64 * i + b) 0 + p.2.2 * code) % (2 ^ 24 : Nat)).toNat) 24)) n) n) n

/-- All slots of one k-step but the first `skip`. -/
def streamTile (w : List Int) (split g sh bnd bound k : Nat) (xs : Nat → List Nat) (skip : Nat) (n : FMap Int) : FMap Int :=
  streamSlots w split g sh bnd bound k xs skip (slotCount split bnd) n

/-- Free values that one k-step takes. -/
def streamFree (split bnd : Nat) : Nat := (passes split).length * bnd * 32

/-- Promotion of every register with scale `sc i` and correction `c i` (R323): registers and flags. -/
def promoteAll (n : FMap Int) (a : FMap Nat) (bnd g sh u : Nat) (ctl : RCtl) (sc : Nat → Nat) (c : Nat → Int) : FMap Nat × Nat :=
  (upTo 32).foldl (fun acc i => (upTo bnd).foldl (fun (acc : FMap Nat × Nat) b =>
    let k := 64 * i + b
    let r := ctl.r (2048 * (u % 32) + 32 * b + i) (u / 32 % 32)
    let (y, f) := promote (a.get k 0) (n.get k 0) (c i) (scaleExt' ctl.fin (sc i)) g sh ctl r
    (acc.1.put k y, acc.2 ||| f)) acc) (a, 0)

/-! ### The job record (R326, R327) -/

namespace Request
def dw (r : Request) (i : Nat) : Word := r.vrec.extractLsb' (64 * i) 64
def split (r : Request) : Nat := fld (r.dw 0) 4 2
def depth (r : Request) : Nat := fld (r.dw 0) 6 6 + 1
def kst (r : Request) : Nat := fld (r.dw 0) 12 10 + 1
def interval (r : Request) : Nat := 2 ^ fld (r.dw 0) 22 3
def gain (r : Request) : Nat := fld (r.dw 0) 25 2
def shift (r : Request) : Nat := fld (r.dw 0) 27 5
def scm (r : Request) : Bool := (r.dw 0).getLsbD 35
def zp (r : Request) : Nat := fld (r.dw 0) 36 8
def orng (r : Request) : Nat := fld (r.dw 0) 44 4
def oen (r : Request) : Bool := (r.dw 0).getLsbD 48
def wk (r : Request) : Bool := (r.dw 3).getLsbD 4
def ik (r : Request) : Bool := (r.dw 3).getLsbD 12
end Request

/-- The reserved values of R327. -/
def jobRecBad (r : Request) : Bool :=
  let d0 := r.dw 0
  let d3 := r.dw 3
  decide (fld d0 0 4 ≠ 0) || decide (r.split = 3) || decide (4 < fld d0 22 3) || decide (20 < r.shift) ||
  decide (fld d0 32 3 = 6) || decide (fld d0 49 15 ≠ 0) || decide (r.kst % r.interval ≠ 0) ||
  (decide (r.zp ≠ 0) && decide (r.split ≠ 2)) || (r.wk && r.dw 1 != 0) || (r.ik && r.dw 2 != 0) ||
  decide (fld d3 5 3 ≠ 0) || decide (fld d3 13 3 ≠ 0) || decide (fld d3 48 16 ≠ 0) ||
  (!r.wk && decide (fld d3 16 16 ≠ 0)) || (!r.ik && decide (fld d3 32 16 ≠ 0)) ||
  (!r.oen && decide (r.orng ≠ 0)) || r.dw 5 == 0 ||
  (!r.scm && decide (fld (r.dw 4) 32 32 ≠ 0)) || decide (fld (r.dw 7) 32 32 ≠ 0)

/-- Global space, or the own-cluster scratchpad through W0 (R331). -/
def inEngineSpace (s : State) (va : Word) : Bool :=
  match decodeVa s s.cur s.me.vf va.toNat with
  | some .global => true
  | some (.scratch _ w _) => w == 0 && decide (va.toNat < 0xFFFF300000000000)
  | _ => false

/-- The check of a record's address (R331). -/
def checkEngineVa (va : Word) (al : Nat) : Eff Unit := do
  if !inEngineSpace (← get) va then throw (.trap ADDR_INVALID va)
  if va.toNat % al ≠ 0 then throw (.trap MISALIGNED va)

/-- A ring with a party of kind 2 and stages of at least `n` bytes (R331). -/
def kind2Ring (x : Ring) (n : Nat) : Bool :=
  x.enabled && ((upTo (x.np + 1)).any fun p => x.kind p == 2) && decide (n ≤ 128 * x.ssz)

/-- The output ring of R333. -/
def handlerRing (x : Ring) : Bool := x.enabled && x.kind 0 == 3

def checkRing (r : Nat) (ok : Ring → Bool) : Eff Unit := do
  let s ← get
  if !ok (ringOf s (clusterOf s.cur) r) then throw (.trap LAND_STATE (BitVec.ofNat 64 (16 * r)))

/-- What PJOB captures for rounding field `rm` (R328): the code of the mode, which is RNE for SR without sren. -/
def captureMode (f : Word) (rm : Nat) : Nat :=
  let m := if rm = 7 then fcsrRmd f else rm
  if m = 5 && !fcsrSren f then 0 else m

/-- PJOB (R328). -/
def execPjob (a b : BitVec 6) (s : State) : Out :=
  runOnce (.pjob a b) (do
    let s ← get
    let p := s.me
    let r0 : Request := { op := 0x9F, vrec := p.r.readV b.toNat }
    if jobRecBad r0 then throw (.trap RESERVED_FIELD (BitVec.ofNat 64 b.toNat))
    if !r0.wk then checkEngineVa (r0.dw 1) 32
    if !r0.ik then checkEngineVa (r0.dw 2) 32
    if r0.scm && (r0.dw 4).toNat % 4 != 0 then throw (.trap MISALIGNED (r0.dw 4))
    let hdl := fld (r0.dw 7) 0 32
    let hs ← if hdl = 0 then pure []
      else if bits hdl 29 3 ≠ 0 then throw (.trap RESERVED_FIELD (BitVec.ofNat 64 b.toNat))
      else takeHandle hdl (r0.dw 1).toNat ((r0.dw 1).toNat + 1024 * r0.kst)
    if r0.wk then checkRing (fld (r0.dw 3) 0 4) fun x => kind2Ring x 1024
    if r0.ik then checkRing (fld (r0.dw 3) 8 4) fun x => kind2Ring x (32 * r0.depth)
    if r0.oen then checkRing r0.orng handlerRing
    let rm := captureMode p.r.fcsr (fld (r0.dw 0) 32 3)
    let seq := nextSeq p.seqJob
    let rid := ridOf s.cur seq
    let hb := if hdl = 0 then 0 else BitVec.ofNat 64 (handleDw s p.vf (hdl % 65536) 0)
    kick (seqHart (clusterOf s.cur)) { r0 with
      mode := rm, fcsr := p.r.fcsr, srseed := p.r.srseed, srctr := p.r.srctr, seq := seq, rid := rid
      base := hb + r0.dw 1, handles := hs }
    modMe fun p => { p with seqJob := seq }
    advanceCtr (rm == 5)
    dstAll 2 a rid
    pure seqNext) s

/-! ### Following jobs (R330) -/

def isJobOf (g : Nat) (rid : Word) (r : Request) : Bool := r.op == 0x9F && coreOf r.q == g && r.rid == rid
def jobIs (g : Nat) (rid : Word) (j : Option PJob) : Bool :=
  match j with
  | none => false
  | some j => isJobOf g rid j.req

/-- The job is outstanding: queued, in hand, or draining behind the one in hand. -/
def jobOutstanding (s : State) (g : Nat) (rid : Word) : Bool :=
  let po := s.pontoon (g / 8)
  (s.engine (seqHart (g / 8))).queue.any (isJobOf g rid) || jobIs g rid po.job || jobIs g rid po.tail

/-- A job's k-steps are all streamed: its rows drain. -/
def PJob.draining (j : PJob) : Bool := decide (j.ksteps = j.req.kst)
/-- Rows dispatched and not released. -/
def PJob.outstanding (j : PJob) : Nat := j.out.length - j.rel.length

/-- PPOLL (R330). -/
def execPpoll (a b : BitVec 6) (s : State) : Out :=
  runHead (.ppoll a b) (do
    let rid ← gr b
    let s ← get
    let g := coreOf s.cur
    let po := s.pontoon (g / 8)
    if fld rid 20 44 ≠ 0 then illegalOperand
    let v := if (s.engine (seqHart (g / 8))).queue.any (isJobOf g rid) then 0
      else if jobIs g rid po.tail then 3
      else match po.job with
        | none => 4
        | some j => if !isJobOf g rid j.req then 4 else if j.draining then 3 else if j.parked ≠ 0 then 2 else 1
    writeNext 2 a (BitVec.ofNat 64 v)) s

/-- Waits until `out` no longer holds: 1 where it does not hold at first, 0 when it has ended; `first` acts when the wait
begins. A cancellation of `again` that a trap has interrupted stands: the instruction executed again waits, and gives 1 (R330). -/
def waitGone (a : BitVec 6) (out : State → Bool) (first : Eff Unit) (again : Option Word) : Eff Next := do
  let s ← get
  match s.me.wait with
  | .engine _ =>
    if out s then throw .stall
    else do
      modMe fun p => { p with pcan := none }
      writeNext 1 a 0
  | _ =>
    if !out s then do
      modMe fun p => { p with pcan := none }
      writeNext 1 a 1
    else if again.isSome && s.me.pcan == again then throw .stall
    else do
      first
      modMe fun p => { p with pcan := again }
      let t ← get
      if !out t then do
        modMe fun p => { p with pcan := none }
        writeNext 1 a 0
      else throw (.wait (.engine s.tide))

/-- PWAIT (R330). -/
def execPwait (a b : BitVec 6) (s : State) : Out :=
  runHead (.pwait a b) (do
    let rid ← gr b
    if fld rid 20 44 ≠ 0 then illegalOperand
    let g := coreOf (← get).cur
    waitGone a (fun s => jobOutstanding s g rid) (pure ()) none) s

/-- A cancellation reaches a job in hand (R330): it ends CANCELLED unless every row has been released. -/
def PJob.cancel (j : PJob) : PJob :=
  if j.fail.isSome || decide (j.rel.length = j.req.depth) then j else { j with fail := some CANCELLED }

/-! ### The course of a job (R323, R329, R331, R338, R339) -/

/-- The engine cannot serve: calibrating in bring-up, or fenced (R338). -/
def engineDown (s : State) (gc : Nat) : Bool :=
  !pontoonServes s (s.cluster gc)

/-- A live handler of a job or session in cluster `gc`. -/
def handlerLive (s : State) (gc : Nat) (p : RowRef → Bool) : Bool :=
  (coresOf gc).any fun g => (helperQs g).any fun q =>
    let x := s.proc q
    x.st == .live && x.drain && (x.row.map p).getD false
def ofJob (j : PJob) (r : RowRef) : Bool := !r.tow && r.owner == j.req.q && r.rid == j.req.rid

/-- The completion frame of R336. -/
def jobFrame (j : PJob) (status : Nat) : BitVec 128 :=
  frameOf status 1 j.req.rid.toNat j.rel.length
    (j.flags / 128 + 2 ^ 5 * j.worst + 2 ^ 7 * b2n j.parkedOnce + 2 ^ 32 * j.ksteps)

/-- A block of 128 `n` scratchpad bytes holds a free value. -/
def leaveBlock (s : State) (gc o n : Nat) : State :=
  performAt { s with freeCtr := s.freeCtr + 1 } (spKey gc o) (leBytes (128 * n) (Config.freeNat s.freeCtr))

/-- What a job that ends other than DONE has left in the stages of its output ring that are still full: its destination, undefined as
its status says (R8, R338). What its handlers have stored elsewhere they have stored as contexts. -/
def leaveRows (s : State) (gc : Nat) (j : PJob) : State :=
  if !j.req.oen then s
  else
    let x := ringOf s gc j.req.orng
    j.rel.foldl (fun t b => if (x.stage (b % x.nst)).full then leaveBlock t gc (x.base (b % x.nst)) x.ssz else t) s

/-- A job ends: its holds are released and its completion is stored (R337, R338). -/
def endJob (s : State) (gc : Nat) (j : PJob) (status : Nat) : State :=
  post (releaseHolds (if status = DONE then s else leaveRows s gc j) j.req) (seqHart gc) j.req (jobFrame j status)

/-- Cancelled jobs, and every job of an engine that is unavailable (R473), leave the queue: each ends once no job accepted before it
is outstanding (R329, R330), whatever TOW.ENTER stands before it. `fuel` is the length of the queue. -/
def flushCancelled (gc : Nat) : Nat → State → State
  | 0, s => s
  | fuel + 1, s =>
    let po := s.pontoon gc
    if po.job.isSome || po.tail.isSome then s
    else match (s.engine (seqHart gc)).queue.find? fun r => r.op == 0x9F with
      | none => s
      | some r =>
        if r.canc || engineDown s gc then
          flushCancelled gc fuel (endJob (s.modEngine (seqHart gc) fun e => { e with queue := e.queue.erase r }) gc { req := r }
            (if r.canc then CANCELLED else ENGINE_UNAVAILABLE))
        else s

/-- A job has ended: the cancelled ones behind it end too. -/
def afterJob (gc : Nat) (s : State) : State := flushCancelled gc (s.engine (seqHart gc)).queue.length s

/-- The cancellation of a job (R330). -/
def cancelJob (g : Nat) (rid : Word) (s : State) : State :=
  let f := fun (j : PJob) => if isJobOf g rid j.req then j.cancel else j
  afterJob (g / 8) ((s.modEngine (seqHart (g / 8)) fun e => e.mapReq (isJobOf g rid) fun r => { r with canc := true }).modPontoon (g / 8)
    fun po => { po with job := po.job.map f, tail := po.tail.map f })

/-- PCAN (R330). -/
def execPcan (a b : BitVec 6) (s : State) : Out :=
  runHead (.pcan a b) (do
    let rid ← gr b
    if fld rid 20 44 ≠ 0 then illegalOperand
    let g := coreOf (← get).cur
    waitGone a (fun s => jobOutstanding s g rid) (kickCancel (seqHart (g / 8)) (cancelJob g rid)) (some rid)) s

/-- JOB_START (R329): cluster `a` takes the oldest record of its queue, when no job is in hand or the one in hand has
dispatched every row. The sequencer hart runs under its function (R20, R104). -/
def execJobStart (s : State) : Out :=
  let gc := s.inp.a
  let po := s.pontoon gc
  if Config.clusters ≤ gc ∨ (s.proc (hartQOf (seqHart gc))).stopped ∨ po.tow.isSome then .next s
  else match (s.engine (seqHart gc)).queue with
    | [] => .next s
    | r :: rest =>
      let moves := match po.job with
        | none => true
        | some j => j.draining && decide (j.next = j.req.depth) && j.fail.isNone && po.tail.isNone
      if r.op ≠ 0x9F ∨ moves = false then .next s
      else
        let j : PJob := { req := r, fail := if r.canc then some CANCELLED else if engineDown s gc then some ENGINE_UNAVAILABLE else none }
        let tail := match po.job with
          | none => po.tail
          | some j => some j
        .next (((s.modEngine (seqHart gc) fun e => { e with queue := rest }).modProc (hartQOf (seqHart gc)) fun p => { p with vf := r.vf }).modPontoon
          gc fun po => { po with job := some j, tail := tail })

/-- Reads `n` bytes for the engine of cluster `gc`, in lines of 32 bytes (R125, R331). -/
def pontoonRead (s : State) (gc : Nat) (r : Request) (va : Word) (n : Nat) : Except Nat (State × List Byte) :=
  engReadElems s (hartQOf (seqHart gc)) r.vf r.win va 32 (n / 32)

/-- The outcome of reading a source. -/
inductive Fetched where
  | data (s : State) (bs : List Byte)
  /-- Some of the bytes: the rest is read later (R125). -/
  | some (s : State) (bs : List Byte)
  | wait
  | fault (code : Nat)
  /-- A stage's tag differs: an unhandled fault of the sequencer hart (R331). -/
  | tag
  deriving DecidableEq

/-- `len` bytes at `va` for a job or session `r`, of which `have` have been read: `k` lines of 32 bytes more, or with `k` 0 all of
them. Other agents' accesses may fall between two lines (R125). -/
def fetchSome (s : State) (gc : Nat) (r : Request) (va : Word) (len k : Nat) (before : List Byte) : Fetched :=
  let left := len - before.length
  let n := if k = 0 then left else min left (32 * k)
  match pontoonRead s gc r (va + BitVec.ofNat 64 before.length) n with
  | .error c => .fault c
  | .ok (s', bs) => if n < left then .some s' (before ++ bs) else .data s' (before ++ bs)

/-- Stage `t` of ring `n` acquired by the engine (R331): its first `len` bytes; the caller releases it. -/
def acquireStage (s : State) (gc n t len : Nat) : Fetched :=
  let x := ringOf s gc n
  let k := t % x.nst
  let st := x.stage k
  if x.np < st.own ∨ x.kind st.own ≠ 2 then .wait
  else if st.tag ≠ t % 2 ^ 16 then .tag
  else .data s ((upTo len).map fun i => s.byteAt (spKey gc (x.base k + i)))

/-- The engine's release of stage `t` (R307). -/
def engineRelease (s : State) (gc n t : Nat) : State :=
  modRing s gc n fun x =>
    let k := t % x.nst
    if (x.stage k).own = 0 then x.fill k t else x.release k

/-- An unhandled fault of the sequencer hart (R28). -/
def sequencerFault (s : State) (gc code : Nat) : State :=
  (s.modProc (hartQOf (seqHart gc)) fun p => { p with stopped := true }).pushTurn .engineHartFaultStop
    { a := seqHart gc, b := code, w := (s.proc (hartQOf (seqHart gc))).r.pc }

def setJob (s : State) (gc : Nat) (j : PJob) : State := s.modPontoon gc fun po => { po with job := some j }
def failJob (s : State) (gc : Nat) (j : PJob) (code : Nat) : State := setJob s gc { j with fail := some code }
/-- A read of the job ends with code `c`: it stands still, or the job fails (R338, R424). -/
def readFault (s : State) (gc : Nat) (j : PJob) (c : Nat) : State :=
  let q := hartQOf (seqHart gc)
  if isWait c then noteStall s q c else failJob (forgetStalls s q c) gc j c

/-- The job in hand of a cluster, if it may go on with its tiles. -/
def runningJob (s : State) (gc : Nat) : Option PJob :=
  let po := s.pontoon gc
  match po.job with
  | none => none
  | some j => if s.frozen gc || j.fail.isSome || j.parked != 0 || j.draining || (s.proc (hartQOf (seqHart gc))).stopped then none else some j

/-- TILE_LOAD (R320, R321, R324, R331): the next tile of the job of cluster `a` goes into the shadow codes; with `w` not 0, only
`w` more of its lines are read. -/
def execTileLoad (s : State) : Out :=
  let gc := s.inp.a
  match runningJob s gc with
  | none => .next s
  | some j =>
    let q := j.ksteps + j.tiles.length
    let r := j.req
    let n := fld (r.dw 3) 0 4
    let t := fld (r.dw 3) 16 16 + q
    if 2 ≤ j.tiles.length ∨ r.kst ≤ q then .next s
    else
      let got : Fetched := if r.wk then acquireStage s gc n t 1024
        else fetchSome s gc r (r.base + BitVec.ofNat 64 (1024 * q)) 1024 s.inp.w.toNat j.got
      match got with
      | .wait => .next s
      | .tag => .next (sequencerFault s gc SCHED_TAG)
      | .fault c => .next (readFault s gc j c)
      | .some s' bs => .next (setJob s' gc { j with got := bs })
      | .data s' bs =>
        let s1 := if r.wk then engineRelease s' gc n t else s'
        if bs.contains 0x80 then .next (failJob s1 gc j WEIGHT_CODE)
        else .next (setJob s1 gc { j with tiles := j.tiles ++ [bs.map fun b => b.toInt], got := [] })

/-- The scales of promotion `u` (R325). -/
def jobScales (s : State) (gc : Nat) (r : Request) (u : Nat) : Except Nat (State × List Nat) :=
  if !r.scm then .ok (s, List.replicate 32 (fld (r.dw 4) 0 32))
  else match engReadElems s (hartQOf (seqHart gc)) r.vf r.win (r.dw 4 + BitVec.ofNat 64 (128 * u)) 4 32 with
    | .error c => .error c
    | .ok (s', bs) => .ok (s', (upTo 32).map fun i => leNat ((bs.drop (4 * i)).take 4))

/-- The correction of a promotion (R322). -/
def jobCorrection (j : PJob) (i : Nat) : Int :=
  match j.req.split with
  | 1 => 128 * j.cs.get i 0
  | 2 => j.req.zp * j.cs.get i 0
  | _ => 0

/-- The end of a k-step: a promotion where the interval ends (R323); `old` is the state before the k-step, which stays while a scale
is waited for. -/
def promoteJob (old s : State) (gc : Nat) (j : PJob) : State :=
  if j.ksteps % j.req.interval ≠ 0 then setJob s gc j
  else
    let u := j.ksteps / j.req.interval - 1
    match jobScales s gc j.req u with
    | .error c => if isWait c then noteStall old (hartQOf (seqHart gc)) c else readFault s gc j c
    | .ok (s', sc) =>
      let (a, f) := promoteAll j.n j.a j.req.depth j.req.gain j.req.shift u j.req.ctl (fun i => sc.getD i 0) (jobCorrection j)
      setJob s' gc { j with a := a, n := [], cs := [], flags := j.flags ||| f, promos := j.promos + 1 }

/-- TILE_STREAM (R323): the first loaded tile of the job of cluster `a` streams, once its activations are there; with `w` not 0,
only `w` more of their lines are read. Its first promotion waits for the rows of the job before (R335); while a park is pending
the job waits at the boundary (R339, R343). -/
def execTileStream (s : State) : Out :=
  let gc := s.inp.a
  let po := s.pontoon gc
  match runningJob s gc with
  | none => .next s
  | some j =>
    match j.tiles with
    | [] => .next s
    | w :: ws =>
      let r := j.req
      let promotes := decide ((j.ksteps + 1) % r.interval = 0)
      let rowsOpen := match po.tail with
        | none => false
        | some t => decide (0 < t.outstanding)
      if po.preempt ∨ 2 ≤ po.drift ∨ (promotes && rowsOpen) = true then .next s
      else
        let n := fld (r.dw 3) 8 4
        let t := fld (r.dw 3) 32 16 + j.ksteps
        let len := 32 * r.depth
        let got : Fetched := if r.ik then acquireStage s gc n t len
          else fetchSome s gc r (r.dw 2 + BitVec.ofNat 64 (len * j.ksteps)) len s.inp.w.toNat j.acts
        match got with
        | .wait => .next s
        | .tag => .next (sequencerFault s gc SCHED_TAG)
        | .fault c => .next (readFault s gc j c)
        | .some s1 bs => .next (setJob s1 gc { j with acts := bs })
        | .data s1 bs =>
          let xs := fun b => ((bs.drop (32 * b)).take 32).map BitVec.toNat
          let n' := streamTile w r.split r.gain r.shift r.depth (codeBound po.drift) s1.freeCtr xs 0 j.n
          let s2 := { s1 with freeCtr := s1.freeCtr + streamFree r.split r.depth }
          let s3 := if r.ik then engineRelease s2 gc n t else s2
          let cs := (upTo 32).foldl (fun m i => m.put i (m.get i 0 + rowSum w i (List.replicate 32 1))) j.cs
          .next (promoteJob s s3 gc { j with
            n := n', cs := cs, tiles := ws, acts := [], ksteps := j.ksteps + 1, worst := max j.worst (min po.drift 1) })

/-! ### Row drain (R332 to R335) -/

/-- A core of the cluster that a row may be handed to (R332). -/
def rowEligible (s : State) (r : Request) (g : Nat) : Bool :=
  (s.core g).owner == some (r.vf, r.ln) && (freeHelper s g).isSome && !(s.proc (ctl g)).timed && !s.halted (g / 8) &&
  !(s.core g).parked

/-- The next core round-robin (R332). -/
def rowTarget (s : State) (gc : Nat) (r : Request) : Option Nat :=
  ((upTo 8).map fun i => 8 * gc + ((s.pontoon gc).rowCore + 1 + i) % 8).find? (rowEligible s r)

/-- A helper starts for row `b` (R74, R132, R133, R333): `a` holds the registers, `id` the identifier, `hent` and `harg`
the entry and argument, `land` the bound stage. A bad entry is a trap of the helper at its entry. -/
def startHandler (s : State) (g gc b : Nat) (r : Request) (a : FMap Nat) (id hent harg : Word) (land : Option (Nat × Nat)) (tow : Bool) :
    State :=
  match freeHelper s g with
  | none => s
  | some h =>
    let cp := s.proc (ctl g)
    let addr : Word := match land with
      | none => 0
      | some (n, k) => w0Addr ((ringOf s gc n).base k)
    let gs := ((((Vector.replicate 48 (0 : Word)).setIfInBounds 3 id).setIfInBounds 4 (BitVec.ofNat 64 b)).setIfInBounds 5 harg).setIfInBounds 6 addr
    let row : RowRef := { cluster := gc, row := b, values := (upTo 32).map fun i => BitVec.ofNat 32 (a.get (64 * i + b) 0)
                          land := land, owner := r.q, rid := r.rid, tow := tow }
    let p : Proc := { st := .live, det := true, drain := true, tvec := cp.tvec, vf := r.vf, resumeAt := s.tide + 1, row := some row
                      r := { pc := hent, g := gs, fcsr := noFlags r.fcsr, srseed := r.srseed, srctr := BitVec.ofNat 64 (slotOf h * 2 ^ 56) } }
    let s1 := (s.setProc h p).modPontoon gc fun po => { po with rowCore := g % 8 }
    match checkTarget s1 h hent with
    | .ok s2 => s2
    | .error c => takeTrap s1 h c hent hent false

/-- The stage for row `b` of an output ring, bound; none while it is not empty (R333). -/
def bindRow (s : State) (gc : Nat) (oen : Bool) (n b : Nat) : Option (State × Option (Nat × Nat)) :=
  if !oen then some (s, none)
  else
    let x := ringOf s gc n
    let k := b % x.nst
    if x.writable k then some (modRing s gc n fun x => x.bind k, some (n, k)) else none

/-- Rows dispatched and not released by the engine of a cluster (R332). -/
def rowsOutstanding (po : Pontoon) : Nat :=
  let f := fun (j : Option PJob) => (j.map PJob.outstanding).getD 0
  f po.job + f po.tail + (po.tow.map fun w => w.out.length).getD 0

/-- The next row of the job in hand goes to a handler (R332, R333). -/
def dispatchJobRow (s : State) (gc : Nat) (j : PJob) : State :=
  let r := j.req
  if s.frozen gc || !j.draining || decide (r.depth ≤ j.next) || j.fail.isSome || (s.pontoon gc).preempt || decide (8 ≤ rowsOutstanding (s.pontoon gc)) then s
  else match rowTarget s gc r with
    | none => s
    | some g =>
      match bindRow s gc r.oen r.orng j.next with
      | none => s
      | some (s1, land) =>
        setJob (startHandler s1 g gc j.next r j.a r.rid (r.dw 5) (r.dw 6) land false) gc
          { j with next := j.next + 1, out := j.out ++ [j.next] }

/-- PROWGO in one of its modes (R334): a second one for the same row is ILLEGAL_CONTEXT. -/
def prowgo (tag : Eff (Option Nat)) (needLand : Bool) : Eff Next := do
  let s ← get
  match s.me.row with
  | none => throw (.trap ILLEGAL_CONTEXT s.me.r.pc)
  | some r => do
    if r.released then throw (.trap ILLEGAL_CONTEXT s.me.r.pc)
    if needLand && r.land.isNone then illegalOperand
    let t ← tag
    modify fun s => releaseRow s s.cur t
    pure seqNext

/-- prowgo.drop (R334). -/
def execProwgoDrop (s : State) : Out := runHead .prowgoDrop (prowgo (pure none) false) s
/-- prowgo.mem (R334). -/
def execProwgoMem (s : State) : Out := runHead .prowgoMem (prowgo (pure none) false) s
/-- prowgo.land (R334). -/
def execProwgoLand (b : BitVec 6) (s : State) : Out :=
  runHead (.prowgoLand b) (prowgo (do return some (← src b).toNat) true) s

/-! ### The end of a job (R337, R338) -/

/-- A job is complete: every row released and every handler ended. -/
def jobDone (s : State) (gc : Nat) (j : PJob) : Bool :=
  j.draining && decide (j.rel.length = j.req.depth) && !handlerLive s gc (ofJob j)

/-- JOB_COMPLETE (R329, R337): the oldest job of cluster `a` that has dispatched every row. -/
def execJobComplete (s : State) : Out :=
  let gc := s.inp.a
  let po := s.pontoon gc
  match po.tail, po.job with
  | some j, _ =>
    if jobDone s gc j then .next (endJob (s.modPontoon gc fun po => { po with tail := none }) gc j (j.fail.getD DONE)) else .next s
  | none, some j =>
    if jobDone s gc j && j.fail.isNone then .next (afterJob gc (endJob (s.modPontoon gc fun po => { po with job := none }) gc j DONE)) else .next s
  | none, none => .next s

/-- JOB_FAILURE (R330, R338): the failed or cancelled job of cluster `a` ends once the handlers dispatched have ended. -/
def execJobFailure (s : State) : Out :=
  let gc := s.inp.a
  let po := s.pontoon gc
  match po.tail, po.job with
  | none, some j =>
    match j.fail with
    | none => .next s
    | some c =>
      if handlerLive s gc (ofJob j) then .next s
      else .next (afterJob gc (endJob (s.modPontoon gc fun po => { po with job := none }) gc j c))
  | _, _ => .next s

/-! ### Drift (R342 to R344) -/

/-- The estimate of a bank (R342). -/
def estimate (po : Pontoon) (i : Nat) : Nat := ((upTo 32).map fun r => (po.det.get (32 * i + r) 0).natAbs).foldl max 0
def banksAtOrAbove (po : Pontoon) (x : Nat) : List Nat := (upTo 32).filter fun i => decide (x ≤ estimate po i)

/-- The target of a drift trap (R344, R377): the control context of the issuing core, or the live one of the lowest core. -/
def driftTarget (s : State) (gc : Nat) : Option Nat :=
  let po := s.pontoon gc
  let issuer := match po.tow, po.job with
    | some w, _ => some w.req.q
    | none, some j => some j.req.q
    | none, none => none
  let live := fun g => (s.proc (ctl g)).st == .live
  match issuer with
  | some q => if live (coreOf q) then some (ctl (coreOf q)) else ((coresOf gc).find? live).map ctl
  | none => ((coresOf gc).find? live).map ctl

/-- A drift trap is raised; its tval is a free value, for the cause table names none. Without a target the sequencer is
told through pev (R353). -/
def raiseDrift (s : State) (gc code : Nat) : State :=
  match driftTarget s gc with
  | some q => raiseAsync { s with freeCtr := s.freeCtr + 1 } (leader s q) code (Config.freeWord s.freeCtr)
  | none =>
    s.modPontoon gc fun po => if code = DRIFT_RETUNE then { po with pevRt := true } else { po with pevWn := true }

/-- A job or session is in hand. -/
def workInHand (po : Pontoon) : Bool := po.job.isSome || po.tow.isSome

/-- The transitions of R343 at an estimate. -/
def driftMove (s : State) (gc : Nat) : State :=
  let c := s.cluster gc
  let po := c.pontoon
  if 2 ≤ po.drift then s
  else if !(banksAtOrAbove po c.retn).isEmpty then s.modPontoon gc fun po => { po with drift := 2, pevWn := false }
  else if po.drift = 0 ∧ !(banksAtOrAbove po c.warn).isEmpty then
    let s1 := s.modPontoon gc fun po => { po with drift := 1 }
    if workInHand po then raiseDrift s1 gc DRIFT_WARN else s1
  else s

/-- 8,192 cycles have passed since the last heater change of bank `i`, if there has been one (R342). -/
def heatOld (s : State) (po : Pontoon) (i : Nat) : Bool :=
  match po.lastHeat.find i with
  | none => true
  | some t => decide (t.toNat + 8192 ≤ s.tide.toNat)

/-- DRIFT_ESTIMATE (R342): readings `ints` of the rings of bank `b` of cluster `a`, which count once 8,192 cycles have
passed since the bank's last heater change. With `c` not 0 the die temperature has moved: no bank is settled. -/
def execDriftEstimate (s : State) : Out :=
  let gc := s.inp.a
  let i := s.inp.b
  if Config.clusters ≤ gc ∨ 32 ≤ i then .next s
  else
    let s0 := if s.inp.c = 0 then s else s.modPontoon gc fun po => { po with settled := [] }
    if !heatOld s0 (s0.pontoon gc) i then .next s0
    else
      let det := (upTo 32).foldl (fun m r => m.put (32 * i + r) (s.inp.ints.getD r 0)) (s0.pontoon gc).det
      .next (driftMove (s0.modPontoon gc fun po => { po with det := det }) gc)

/-- BANK_SETTLED (R342): 8,192 cycles after the last heater change, the temperature being stable. -/
def execBankSettled (s : State) : Out :=
  let po := s.pontoon s.inp.a
  if s.inp.a < Config.clusters ∧ s.inp.b < 32 ∧ heatOld s po s.inp.b = true ∧ !po.settled.contains s.inp.b then
    .next (s.modPontoon s.inp.a fun po => { po with settled := po.settled ++ [s.inp.b] })
  else .next s

/-- PTHRS_WRITE (R342). -/
def execPthrsWrite (s : State) : Out := .next (if s.inp.a < Config.clusters then setPthrs s s.inp.a s.inp.w else s)

/-- JOB_PARK (R339, R343, R446): the job of cluster `a` parks at its tile boundary, for pre-emption, for a halt that
freezes engine traffic, or for a retune. -/
def execJobPark (s : State) : Out :=
  let gc := s.inp.a
  let po := s.pontoon gc
  match (if s.frozen gc then po.job.filter fun j => j.fail.isNone && j.parked == 0 && !j.draining else runningJob s gc) with
  | none => .next s
  | some j =>
    if po.preempt then .next (setJob s gc { j with parked := 1, parkedOnce := true })
    else if s.frozen gc then .next (setJob s gc { j with parked := 3, parkedOnce := true })
    else if 2 ≤ po.drift then
      let s1 := setJob s gc { j with parked := 2, parkedOnce := true }
      .next (raiseDrift (s1.modPontoon gc fun po => { po with drift := 3, round := 0 }) gc DRIFT_RETUNE)
    else .next s

/-! ### Tuning instructions (R345 to R351) -/

/-- What refuses PHEAT and PMAP (R345). -/
def tuneRefused (s : State) (gc : Nat) : Bool :=
  let po := s.pontoon gc
  let jobBusy := match po.job with
    | none => false
    | some j => j.parked == 0
  let towBusy := match po.tow with
    | none => false
    | some w => w.st == 0 || w.st == 3
  jobBusy || towBusy || po.pcal.isSome || engineDown s gc

/-- A heater code is written (R342, R345): the detuning follows, and the bank is unsettled. -/
def setHeater (po : Pontoon) (tide : Word) (x h : Nat) : Pontoon :=
  let old := po.heat.get x 0
  { po with heat := po.heat.put x h, det := po.det.put x (po.det.get x 0 - ((h : Int) - old))
            lastHeat := po.lastHeat.put (x / 32) tide, settled := po.settled.filter (· != x / 32) }

/-- The ring address of R345. -/
def ringAddr (b : BitVec 6) : Eff Nat := do
  let x ← gr b
  if fld x 10 54 ≠ 0 then illegalOperand
  return x.toNat

/-- A heater change to the exact value `v`, clamped (R345). -/
def heatTo (a : BitVec 6) (gc x : Nat) (v : Int) : Eff Next := do
  let h := (clampInt 0 4095 v).toNat
  modify fun s => s.modPontoon gc fun po => setHeater po s.tide x h
  writeNext 1 a (BitVec.ofNat 64 (h + 2 ^ 12 * b2n (decide ((h : Int) ≠ v))))

/-- pheat.set (R345). -/
def execPheatSet (a b : BitVec 6) (s : State) : Out :=
  runHead (.pheatSet a b) (do
    let x ← ringAddr b
    let v ← gr a
    let s ← get
    let gc := clusterOf s.cur
    if tuneRefused s gc then writeNext 1 a (BitVec.ofNat 64 (2 ^ 13))
    else if 4096 ≤ v.toNat then illegalOperand
    else heatTo a gc x v.toNat) s

/-- pheat.add (R345). -/
def execPheatAdd (a b : BitVec 6) (s : State) : Out :=
  runHead (.pheatAdd a b) (do
    let x ← ringAddr b
    let v ← gr a
    let s ← get
    let gc := clusterOf s.cur
    if tuneRefused s gc then writeNext 1 a (BitVec.ofNat 64 (2 ^ 13))
    else heatTo a gc x (((s.pontoon gc).heat.get x 0 : Int) + v.toInt)) s

/-- pmon.ring (R346). -/
def execPmonRing (a b : BitVec 6) (s : State) : Out :=
  runHead (.pmonRing a b) (do
    let x ← ringAddr b
    let s ← get
    writeNext 1 a (w64 ((s.pontoon (clusterOf s.cur)).det.get x 0))) s

/-- pmon.bank (R346). -/
def execPmonBank (a b : BitVec 6) (s : State) : Out :=
  runHead (.pmonBank a b) (do
    let x ← ringAddr b
    let s ← get
    writeNext 1 a (BitVec.ofNat 64 (estimate (s.pontoon (clusterOf s.cur)) (x / 32)))) s

/-- pmon.temp (R346): the die temperature is a free value. -/
def execPmonTemp (a b : BitVec 6) (s : State) : Out :=
  runHead (.pmonTemp a b) (do
    let _ ← ringAddr b
    let t ← takeFree
    writeNext 1 a (BitVec.ofNat 64 (t % 2 ^ 16))) s

/-- The engine leaves the parked-for-retune state (R343, R350, R353). -/
def leaveRetune (s : State) (gc drift : Nat) : State :=
  s.modPontoon gc fun po => { po with
    drift := drift, retunes := min (po.retunes + 1) (2 ^ 32 - 1), pevRt := false
    job := po.job.map fun j => if j.parked = 2 then { j with parked := 0 } else j
    tow := po.tow.map fun w => if w.st = 1 then { w with st := 0 } else w }

/-- Whether a job or session is parked for retune. -/
def retuneParked (po : Pontoon) : Bool :=
  (match po.job with
   | none => false
   | some j => j.parked == 2) ||
  match po.tow with
  | none => false
  | some w => w.st == 1

/-- The end of PSETTLE: the drift state and the result (R343, R347). -/
def settleEnd (s : State) (gc : Nat) (go : Bool) : State × Nat :=
  let c := s.cluster gc
  let below := (banksAtOrAbove c.pontoon c.warn).isEmpty
  let s1 := if below && c.pontoon.drift != 3 then s.modPontoon gc fun po => { po with drift := 0, pevWn := false } else s
  if !go then (s1, 0)
  else if !retuneParked c.pontoon then (s1, 2)
  else if !(banksAtOrAbove c.pontoon c.retn).isEmpty then (s1, 1)
  else (leaveRetune s1 gc (if below then 0 else 1), 0)

/-- PSETTLE (R347). -/
def execPsettle (a b : BitVec 6) (go : Bool) (t : BitVec 16) (s : State) : Out :=
  runHead (.psettle a b go t) (do
    let mask ← gr b
    let s ← get
    if t = 0 then illegalOperand
    let gc := clusterOf s.cur
    let open_ := (upTo 32).filter fun i => mask.getLsbD i && !(s.pontoon gc).settled.contains i
    match open_ with
    | [] => do
      let (s1, v) := settleEnd s gc go
      set s1
      writeNext 1 a (BitVec.ofNat 64 v)
    | i :: _ =>
      match s.me.wait with
      | .engine since =>
        if since.toNat + 1024 * t.toNat ≤ s.tide.toNat then throw (.trap SETTLE_TIMEOUT (BitVec.ofNat 64 i)) else throw .stall
      | _ => throw (.wait (.engine s.tide))) s

/-- SETTLE_TIMEOUT (R347): the PSETTLE in which agent `a` waits meets its timeout. -/
def execSettleTimeout (s : State) : Out :=
  let q := s.inp.a
  match currentInstr s q, (s.proc q).wait with
  | some (s1, .psettle a b go t), .engine since =>
    if since.toNat + 1024 * t.toNat ≤ s.tide.toNat then execPsettle a b go t { s1 with cur := q } else .next s
  | _, _ => .next s

/-- A job is in hand and not parked, or a session runs: PCAL is refused (R348). -/
def calRefused (po : Pontoon) : Bool :=
  (match po.job with
   | none => false
   | some j => j.parked == 0) ||
  match po.tow with
  | none => false
  | some w => w.st == 0 || w.st == 3

/-- Every heater recentred on its line (R348): the state and the rings saturated. -/
def recentre (po : Pontoon) (tide : Word) : Pontoon × Nat :=
  (upTo 1024).foldl (fun (acc : Pontoon × Nat) x =>
    let v := (acc.1.heat.get x 0 : Int) + acc.1.det.get x 0
    let h := (clampInt 0 4095 v).toNat
    if (h : Int) = acc.1.heat.get x 0 then (acc.1, if (h : Int) = v then acc.2 else acc.2 + 1)
    else (setHeater acc.1 tide x h, if (h : Int) = v then acc.2 else acc.2 + 1)) (po, 0)

/-- A calibration of cluster `gc` ends (R343, R348): its result waits for its requester. In bring-up the engine becomes
available (R472). -/
def endCal (s : State) (gc : Nat) : State :=
  match (s.pontoon gc).pcal with
  | none => s.modCluster gc fun c => { c with pontoonUp := true }
  | some (full, q) =>
    let (po, sat) := if full then recentre (s.pontoon gc) s.tide else (s.pontoon gc, 0)
    let s1 := s.modPontoon gc fun _ => { po with
      pcal := none, pcalDone := some (q, (if sat = 0 then 0 else 3) + 2 ^ 8 * (sat % 1024))
      drift := if full ∧ po.drift ≠ 3 then 0 else po.drift, pevWn := if full then false else po.pevWn }
    if full then s1.modCluster gc fun c => { c with pontoonUp := true } else s1

/-- PCAL_COMPLETE (R348): the calibration of cluster `a` ends; with none running, the one of bring-up. -/
def execPcalComplete (s : State) : Out :=
  if s.inp.a < Config.clusters ∧ ((s.pontoon s.inp.a).pcal.isSome ∨ (s.cluster s.inp.a).pontoonUp = false) then
    .next (endCal s s.inp.a)
  else .next s

/-- PCAL (R348): it runs to its end, at the latest at its bound. -/
def pcal (a : BitVec 6) (full : Bool) : Eff Next := do
  let s ← get
  let gc := clusterOf s.cur
  let finish : Eff Next := do
    let s ← get
    match (s.pontoon gc).pcalDone with
    | some (q, v) =>
      if q = s.cur then do
        modify fun s => s.modPontoon gc fun po => { po with pcalDone := none }
        writeNext 1 a (BitVec.ofNat 64 v)
      else throw .stall
    | none => throw .stall
  match s.me.wait with
  | .busy since => do
    if (s.pontoon gc).pcal == some (full, s.cur) && decide (since.toNat + (if full then 2400000 else 60000) ≤ s.tide.toNat) then
      modify fun s => endCal s gc
    finish
  | _ =>
    if calRefused (s.pontoon gc) || (s.pontoon gc).pcal.isSome then writeNext 1 a 1
    else do
      modify fun s => s.modPontoon gc fun po => { po with pcal := some (full, s.cur) }
      throw (.wait (.busy s.tide))

/-- pcal.full (R348). -/
def execPcalFull (a : BitVec 6) (s : State) : Out := runHead (.pcalFull a) (pcal a true) s
/-- pcal.ofs (R348). -/
def execPcalOfs (a : BitVec 6) (s : State) : Out := runHead (.pcalOfs a) (pcal a false) s

/-- σ_i(r) (R320); the identity where nothing changed it. -/
def sigmaOf (po : Pontoon) (x : Nat) : Nat := po.sigma.get x (x % 32)

/-- Gives ring `x` the line `new` (R349): its heater follows by 1,024 codes a line. -/
def setLine (po : Pontoon) (tide : Word) (x new : Nat) : Pontoon × Bool :=
  let d : Int := 1024 * ((new : Int) - sigmaOf po x)
  let v := (po.heat.get x 0 : Int) + d
  let h := (clampInt 0 4095 v).toNat
  let po1 := { po with sigma := if new = x % 32 then po.sigma.del x else po.sigma.put x new, det := po.det.put x (po.det.get x 0 + d) }
  (setHeater po1 tide x h, decide ((h : Int) ≠ v))

/-- The exchange of σ_i(r) and σ_i(r + 1) (R349). -/
def swapLines (po : Pontoon) (tide : Word) (x : Nat) : Pontoon × Bool :=
  let u := sigmaOf po x
  let v := sigmaOf po (x + 1)
  let (p1, f1) := setLine po tide x v
  let (p2, f2) := setLine p1 tide (x + 1) u
  (p2, f1 || f2)

/-- pmap.rd (R349). -/
def execPmapRd (a b : BitVec 6) (s : State) : Out :=
  runHead (.pmapRd a b) (do
    let x ← ringAddr b
    let s ← get
    writeNext 1 a (BitVec.ofNat 64 (sigmaOf (s.pontoon (clusterOf s.cur)) x))) s

/-- pmap.swap (R349). -/
def execPmapSwap (a b : BitVec 6) (s : State) : Out :=
  runHead (.pmapSwap a b) (do
    let x ← ringAddr b
    let s ← get
    let gc := clusterOf s.cur
    if x % 32 = 31 then illegalOperand
    if tuneRefused s gc then writeNext 1 a (BitVec.ofNat 64 (2 ^ 13))
    else do
      let (po, sat) := swapLines (s.pontoon gc) s.tide x
      modify fun s => s.modPontoon gc fun _ => po
      writeNext 1 a (BitVec.ofNat 64 (sigmaOf po x + 2 ^ 12 * b2n sat))) s

/-- pmap.ident (R349). -/
def execPmapIdent (a b : BitVec 6) (s : State) : Out :=
  runHead (.pmapIdent a b) (do
    let x ← ringAddr b
    let s ← get
    let gc := clusterOf s.cur
    if x % 32 ≠ 0 then illegalOperand
    if tuneRefused s gc then writeNext 1 a (BitVec.ofNat 64 (2 ^ 13))
    else do
      let (po, sat) := (upTo 32).foldl (fun (acc : Pontoon × Bool) r =>
        if sigmaOf acc.1 (x + r) = r then acc
        else
          let (p, f) := setLine acc.1 s.tide (x + r) r
          (p, acc.2 || f)) (s.pontoon gc, false)
      modify fun s => s.modPontoon gc fun _ => po
      writeNext 1 a (BitVec.ofNat 64 (2 ^ 12 * b2n sat))) s

/-- The bank mask of PSTAT selector 1. -/
def bankMask (is : List Nat) : Nat := (is.map fun i => 2 ^ i).foldl (· + ·) 0

/-- The status word of a selector (R350). -/
def pstatWord (s : State) (gc sel : Nat) : Nat :=
  let c := s.cluster gc
  let po := c.pontoon
  match sel with
  | 0 =>
    let st := if c.fenced || c.pfenced then 5 else if engineDown s gc then 0
      else match po.tow, po.job with
        | some w, _ => if w.st = 1 then 3 else if w.st = 2 then 1 else 2
        | none, some j => if j.parked ≠ 0 then 3 else if j.draining then 4 else 2
        | none, none => if po.tail.isSome then 4 else 1
    let id := match po.tow, po.job with
      | some w, _ => w.req.rid.toNat
      | none, some j => j.req.rid.toNat
      | none, none => (po.tail.map fun j => j.req.rid.toNat).getD 0
    let queued := ((s.engine (seqHart gc)).queue.filter fun r => r.op == 0x9F && !r.canc).length
    st + 2 ^ 3 * po.drift + 2 ^ 5 * queued + 2 ^ 10 * rowsOutstanding po + 2 ^ 14 * b2n po.tow.isSome +
      2 ^ 15 * b2n po.pcal.isSome + 2 ^ 16 * (id % 2 ^ 20)
  | 1 => bankMask (banksAtOrAbove po c.retn) + 2 ^ 32 * bankMask (banksAtOrAbove po c.warn)
  | 2 =>
    match po.job with
    | none => 0
    | some j => j.ksteps + 2 ^ 16 * j.promos + 2 ^ 32 * (j.next % 64)
  | 3 =>
    let moved := ((upTo 1024).filter fun x => decide (sigmaOf po x ≠ x % 32)).length
    let limit := ((upTo 1024).filter fun x => decide (po.heat.get x 0 = 0) || decide (po.heat.get x 0 = 4095)).length
    po.retunes + 2 ^ 32 * moved + 2 ^ 48 * limit
  | _ => c.warn + 2 ^ 16 * c.retn

/-- PSTAT (R350). -/
def execPstat (a : BitVec 6) (sel : BitVec 16) (s : State) : Out :=
  runHead (.pstat a sel) (do
    let s ← get
    if 4 < sel.toNat then illegalOperand
    writeNext 2 a (BitVec.ofNat 64 (pstatWord s (clusterOf s.cur) sel.toNat))) s

/-- The accumulators of a parked job or session: depth, narrow and promoted values. -/
def parkedAcc (po : Pontoon) : Option (Nat × FMap Int × FMap Nat) :=
  match po.job, po.tow with
  | some j, _ => if j.parked ≠ 0 then some (j.req.depth, j.n, j.a) else none
  | none, some w => if w.st = 1 then some (fld (w.cap.dw 1) 0 6 + 1, w.n, w.a) else none
  | none, none => none

/-- PACC.RD (R351): `f` picks the value of entry 64 i + b. -/
def paccRd (a b : BitVec 6) (f : FMap Int → FMap Nat → Nat → Word) : Eff Next := do
  let x ← gr b
  let s ← get
  if fld x 11 53 ≠ 0 then illegalOperand
  match parkedAcc (s.pontoon (clusterOf s.cur)) with
  | some (d, n, p) =>
    if fld x 0 6 < d then writeNext 1 a (f n p (64 * fld x 6 5 + fld x 0 6)) else writeNext 1 a (BitVec.ofNat 64 (2 ^ 63))
  | none => writeNext 1 a (BitVec.ofNat 64 (2 ^ 63))

/-- pacc.rd.n (R351). -/
def execPaccRdN (a b : BitVec 6) (s : State) : Out :=
  runHead (.paccRdN a b) (paccRd a b fun n _ k => w64 (n.get k 0)) s
/-- pacc.rd.p (R351). -/
def execPaccRdP (a b : BitVec 6) (s : State) : Out :=
  runHead (.paccRdP a b) (paccRd a b fun _ p k => BitVec.ofNat 64 (p.get k 0)) s

/-! ### The sequencer's own retune (R353) -/

/-- An engine-fault interrupt and record (R467). -/
def pushEfault (s : State) (cls idx cause : Nat) (epc : Word) : State :=
  let rec' := BitVec.ofNat 64 (1 + 2 * cls + 2 ^ 4 * idx + 2 ^ 18 * cause + 2 ^ 32 * (epc.toNat % 2 ^ 32))
  let s1 := if s.efaults.length < 16 then { s with efaults := s.efaults ++ [rec'] } else { s with efOvf := true }
  raiseMsix s1 0 1

/-- One round of the default microcode on the banks at or past the threshold (R353): every ring is recentred; then each ring that
saturated is swapped with its neighbour, in the first round. -/
def retuneRound (po : Pontoon) (tide : Word) (banks : List Nat) (swap : Bool) : Pontoon :=
  let rings := banks.flatMap fun i => (upTo 32).map fun r => 32 * i + r
  let added := rings.foldl (fun (acc : Pontoon × List Nat) x =>
    let v := (acc.1.heat.get x 0 : Int) + acc.1.det.get x 0
    let h := (clampInt 0 4095 v).toNat
    (setHeater acc.1 tide x h, if (h : Int) ≠ v then acc.2 ++ [x] else acc.2)) (po, [])
  if swap then added.2.foldl (fun po x => (swapLines po tide (if x % 32 = 31 then x - 1 else x)).1) added.1 else added.1

/-- SEQUENCER_RETUNE (R353): one stage of the default microcode for cluster `a`: two rounds, each once the banks have
settled, then psettle.go; a job that would still be past the threshold stays parked and system software is told. -/
def execSequencerRetune (s : State) : Out :=
  let gc := s.inp.a
  let c := s.cluster gc
  let po := c.pontoon
  let banks := banksAtOrAbove po c.retn
  if !po.pevRt || Config.clusters ≤ gc || !runsDefault s (seqHart gc) || !(banks.all fun i => po.settled.contains i) then .next s
  else if po.round < 2 ∧ !banks.isEmpty then
    .next (s.modPontoon gc fun po => { retuneRound po s.tide banks (po.round == 0) with round := po.round + 1 })
  else if banks.isEmpty then .next (settleEnd s gc true).1
  else if po.round = 2 then .next (pushEfault (s.modPontoon gc fun po => { po with round := 3 }) 1 gc DRIFT_RETUNE 0)
  else .next s

end Sys2Proof.Machine
end

