-- ==== Sys2Proof/Machine/Ford.lean ====
section
/-!
DEFINITION. Ford: segments, timetables, frames and collectives (R385 to R419), with re-forms (R408, R435).

Marks (notes/assumptions): DESIGN CHOICE (safe) 3, 7; DEDUCED (safe) 14, 56; DEDUCED (unsafe) 40, 45, 46, 61; DESIGN
CHOICE (unsafe) 62.
-/

namespace Sys2Proof.Machine

namespace State
def ford (s : State) (a : Nat) : FordPort := s.fords.get a {}
def modFord (s : State) (a : Nat) (f : FordPort → FordPort) : State := { s with fords := s.fords.put a (f (s.ford a)) }
end State

/-- A count that saturates at `m`. -/
def satAdd (m x n : Nat) : Nat := min m (x + n)

/-- The lead's tick, as FALIGN measured the difference (R388). -/
def leadTick (s : State) (a : Nat) : Nat := ((s.tide.toNat : Int) + (s.ford a).skew).toNat

/-- algn as it reads: 0 while the package runs at the reduced clock (R388). -/
def aligned (s : State) (a : Nat) : Bool := (s.seg a).algn && s.full

/-- A segment that cannot serve on the bus: lim = 0, or the reduced clock (R386, R388). -/
def busOff (s : State) (a : Nat) : Bool := (s.seg a).lim == 0 || !s.full

/-- The requests queued at an attachment. -/
def fordQueue (s : State) (a : Nat) : List Request := (s.engine (fordHart a)).queue

/-- A request is queued or in hand at an attachment. -/
def fordBusy (s : State) (a : Nat) : Bool := !(fordQueue s a).isEmpty || (s.ford a).hand.isSome

/-! ### Timetable entries (R390 to R393) -/

namespace FordJob
def dw (j : FordJob) (i : Nat) : Word := j.ent.getD i 0
def kind (j : FordJob) : Nat := fld (j.dw 0) 8 2
def etype (j : FordJob) : Nat := fld (j.dw 0) 10 4
def ng (j : FordJob) : Nat := fld (j.dw 0) 14 5 + 1
def gsz (j : FordJob) : Nat := fld (j.dw 0) 19 3
def epf (j : FordJob) : Nat := fld (j.dw 0) 22 6 + 1
def tow (j : FordJob) : Bool := (j.dw 0).getLsbD 28
def nel (j : FordJob) : Nat := fld (j.dw 0) 32 10 + 1
def t0 (j : FordJob) : Nat := fld (j.dw 3) 0 32
def per (j : FordJob) : Nat := fld (j.dw 3) 32 16
def xgap (j : FordJob) : Nat := fld (j.dw 3) 48 16
/-- The positions of the writers, in order. -/
def writers (j : FordJob) : List Nat := (upTo 64).filter fun p => (j.dw 1).getLsbD p
/-- A type whose values are block-scaled: MXINT8 and FP32 (R393). -/
def block (j : FordJob) : Bool := j.etype == 11 || j.etype == 0
/-- Writers of group `g`: n_g. -/
def groupSize (j : FordJob) (g : Nat) : Nat := min j.gsz (j.writers.length - g * j.gsz)
/-- The planes of the data frames: b of R393; for a block type, of the mantissa frames. -/
def planes (j : FordJob) : Nat := if j.etype = 0 then 26 else typeWidth j.etype
/-- The sent type is signed (R393). -/
def signed (j : FordJob) : Bool := !(j.etype == 6 || j.etype == 12)
/-- nx and nf of R392. -/
def nx (j : FordJob) : Nat := if j.block then cdiv (j.nel / 32) j.epf else 0
def nf (j : FordJob) : Nat := cdiv j.nel j.epf
def total (j : FordJob) : Nat := j.nx + j.nf
/-- Whether frame `k` finds a maximum: an exponent frame, or any frame of FMAX and FMIN (R394). -/
def maxFrame (j : FordJob) (k : Nat) : Bool := j.kind != 0 || decide (k < j.nx)
/-- The planes of frame `k`. -/
def framePlanes (j : FordJob) (k : Nat) : Nat := if k < j.nx then 8 else j.planes
/-- The windows of frame `k` (R394). -/
def windows (j : FordJob) (k : Nat) : Nat := 1 + j.framePlanes k + if j.maxFrame k then 0 else 3
/-- F of frame `k`. -/
def slots (j : FordJob) (k : Nat) : Nat := 9 * j.windows k + 8
/-- start(k) of R392. -/
def start (j : FordJob) (k : Nat) : Nat :=
  3 * cdiv (j.req.args.getD 4 0).toNat 3 + j.t0 + j.per * k + if j.nx ≤ k then j.xgap else 0
/-- The slot, counted from tick 0, in which frame `k` has ended: three ticks are 80 slots (R388). -/
def frameEnd (j : FordJob) (k : Nat) : Nat := j.start k / 3 * 80 + j.slots k
/-- The first element or block that frame `k` carries, and how many. -/
def first (j : FordJob) (k : Nat) : Nat := j.epf * if k < j.nx then k else k - j.nx
def count (j : FordJob) (k : Nat) : Nat := min j.epf ((if k < j.nx then j.nel / 32 else j.nel) - j.first k)
/-- The size of a source element and of a result (R393). -/
def srcBytes (j : FordJob) : Nat := typeWidth j.etype / 8
def dstBytes (j : FordJob) : Nat := if j.kind ≠ 0 then j.srcBytes else if j.etype = 8 then 8 else 4
/-- The rounding of the request (R401, R402, R413): lanes begin at `iter`. -/
def lane (j : FordJob) (i : Nat) : Nat := j.req.iter + i
/-- The request came from a tow session (R406). -/
def fromTow (j : FordJob) : Bool := j.req.toMem.isSome
end FordJob

/-- A type that the kind allows (R393). -/
def fordTypeOk (kind t : Nat) : Bool := if kind = 0 then [5, 6, 7, 8, 11, 0].contains t else [5, 6, 7, 8, 12].contains t

/-- The check of an entry at attachment `a` in the order of R391: whether all eight points hold. -/
def entryOk (s : State) (a : Nat) (j : FordJob) : Bool :=
  let d0 := j.dw 0
  let nw := j.writers.length
  let seg := s.seg a
  let longest := (upTo j.total).foldl (fun m k => max m (j.slots k)) 0
  decide (fld d0 0 8 = 1) && decide (fld d0 29 3 = 0) && decide (fld d0 42 22 = 0) && decide (fld (j.dw 4) 32 32 = 0) &&
  decide (fld (j.dw 7) 32 32 = 0) && decide (j.kind ≠ 3) &&
  decide (j.kind = j.req.op - 0xB1) && j.tow == j.fromTow &&
  fordTypeOk j.kind j.etype &&
  decide (nw ≠ 0) && (j.dw 1 &&& j.dw 2) == 0 && decide (1 ≤ j.gsz) && decide (j.gsz ≤ (if j.fbk then 7 else j.lim)) &&
  decide (j.ng = cdiv nw j.gsz) && decide (j.ng * j.epf ≤ 32) &&
  (!j.block || decide (j.nel % 32 = 0)) &&
  (if j.tow then decide (j.kind = 0) && decide (j.etype = 0) && decide (j.nel = 32)
   else j.dw 5 == 0 && j.dw 6 == 0 && decide (fld (j.dw 7) 0 32 = 0)) &&
  decide (j.t0 % 3 = 0) && decide (j.per % 3 = 0) && decide (j.xgap % 3 = 0) && decide (3 * cdiv longest 80 ≤ j.per) &&
  (if j.block then decide (24 ≤ j.xgap) else decide (j.xgap = 0)) &&
  decide (fld (j.dw 4) 0 16 = seg.sgid) && decide (fld (j.dw 4) 16 16 = s.ttvs.get seg.sgid 0) &&
  (j.dw 1 ||| j.dw 2).getLsbD seg.pos &&
  ((upTo j.total).all fun k => (upTo (cdiv (j.slots k) 80)).all fun i => decide ((j.start k / 3 + i) % 1024 ≠ 0)) &&
  decide ((s.ford a).lastEnd ≤ j.start 0 / 3 * 80)

/-- Two byte ranges overlap. -/
def overlap (x n y m : Nat) : Bool := decide (x < y + m) && decide (y < x + n)

/-- This attachment writes in the collective (R390). -/
def isWriter (s : State) (a : Nat) (j : FordJob) : Bool := (j.dw 1).getLsbD (s.seg a).pos

/-- The check of the operands (R403): a status, or none. A row of a tow session has a checked destination. -/
def operandFault (s : State) (a : Nat) (j : FordJob) : Option Nat :=
  if j.fromTow then none
  else
    let arg := fun i => (j.req.args.getD i 0).toNat
    let w := isWriter s a j
    let scaled := j.etype == 11
    let blocks := j.nel / 32
    let srcs := if w then (arg 0, j.nel * j.srcBytes) :: (if scaled then [(arg 2, blocks)] else []) else []
    let dsts := (arg 1, j.nel * j.dstBytes) :: (if scaled then [(arg 3, blocks)] else [])
    if (!scaled && ((w && arg 2 != 0) || arg 3 != 0)) || srcs.any (fun x => dsts.any fun y => overlap x.1 x.2 y.1 y.2) then
      some RESERVED_FIELD
    else if (w && arg 0 % j.srcBytes != 0) || arg 1 % j.dstBytes != 0 then some MISALIGNED
    else none

/-! ### Values sent (R395, R396, R401, R402) -/

/-- The rounding controls that a request captured. -/
def FordJob.ctl (j : FordJob) : RCtl := j.req.ctl

/-- t(x) of R396 for an element of `b` bits. -/
def maxMap (kind b : Nat) (sg : Bool) (x : Nat) : Nat :=
  if kind = 1 then (if sg then x ^^^ 2 ^ (b - 1) else x)
  else if sg then x ^^^ (2 ^ (b - 1) - 1) else 2 ^ b - 1 - x
/-- The result of the agreed maximum `m` (R396): t is its own inverse. -/
def maxResult (kind b : Nat) (sg : Bool) (m : Nat) : Nat := maxMap kind b sg m

/-- An FP32 element, a subnormal read as zero of its sign under fin (R402). -/
def fordElem (fin : Bool) (x : Nat) : Ext := scaleExt' fin x

/-- What a request's source gives (R401, R402): the scales of its blocks and, for a type that is not block-scaled, the
values sent. -/
def formSent (j : FordJob) : FordJob :=
  let blk := fun (c : Nat) => (j.raw.drop (32 * c)).take 32
  if j.etype = 0 then
    { j with exps := (upTo (j.nel / 32)).map fun c => (blockScale ((blk c).map (fordElem j.ctl.fin))).1 }
  else if j.etype = 11 then j
  else if j.kind = 0 then { j with sent := j.raw.map (intOf j.etype) }
  else { j with sent := j.raw.map fun x => (maxMap j.kind j.planes j.signed x : Int) }

/-- The realignment from the agreed exponents (R401, R402); inexact roundings set nx. -/
def realign (j : FordJob) : FordJob :=
  let r := ((upTo j.raw.length).zip j.raw).map fun e =>
    let c := e.1 / 32
    let x := j.agreed.getD c 0
    if x = 0xFF then ((0 : Int), 0)
    else
      let v := if j.etype = 0 then scaleExt (fordElem j.ctl.fin e.2) (150 - x)
        else scaleExt (Ext.ofInt (sextNat e.2 8)) ((j.exps.getD c 0 : Int) - x)
      toInt (-(2 ^ 31 : Nat)) (2 ^ 31 : Nat) j.ctl.mode (j.ctl.r (j.lane e.1) 0) v
  { j with sent := r.map (·.1), flags := r.foldl (fun f e => f ||| e.2) j.flags, aligned := true }

/-- The values this participant sends in frame `k`, by position; empty for a reader. -/
def frameSent (s : State) (a : Nat) (j : FordJob) (k : Nat) : List Int :=
  if isWriter s a j then ((if k < j.nx then j.exps.map Int.ofNat else j.sent).drop (j.first k)).take (j.count k) else []

/-! ### Frames (R394 to R398) -/

/-- Bit `k` of the sent bits of a value: two's complement. -/
def sentBit (x : Int) (k : Nat) : Bool := decide (x / (2 ^ k : Nat) % 2 = 1)

/-- A frame as it runs: the readings the detectors report, by window, attempt, slot and wavelength. -/
structure Frame where
  job : FordJob
  k : Nat
  /-- Readings: 96 for each attempt of each window, then 32 of the verdict slot. -/
  read : List Nat
  /-- This attachment's group and values, where it writes. -/
  mine : Option (Nat × List Int)
  deriving DecidableEq

namespace Frame
def rd (f : Frame) (w al slot wl : Nat) : Nat := f.read.getD ((3 * w + al) * 96 + 32 * slot + wl) 0
def planesOf (f : Frame) : Nat := f.job.framePlanes f.k
def isMax (f : Frame) : Bool := f.job.maxFrame f.k
/-- The wavelengths that carry the frame's elements. -/
def carried (f : Frame) : Nat := f.job.count f.k * f.job.ng
/-- The plane of window `w` ≥ 1. -/
def plane (f : Frame) (w : Nat) : Nat := f.planesOf - w
/-- The residue bit of a window past the planes. -/
def resBit (f : Frame) (w : Nat) : Nat := f.planesOf + 3 - w

/-- The check of one attempt (R397). -/
def attemptOk (f : Frame) (w al : Nat) : Bool :=
  let ng := f.job.ng
  let d := f.rd w al 0
  let c := f.rd w al 1
  if w = 0 then (upTo 32).all fun x => decide (d x = if x < ng then f.job.groupSize x else 0)
  else if f.isMax then (upTo 32).all fun x => decide (d x = c x) && (decide (x < f.carried) || decide (d x = 0))
  else if w ≤ f.planesOf then
    ((upTo ng).all fun g =>
      let rs := (upTo (f.job.count f.k)).map fun i => d (i * ng + g)
      decide (rs.foldl (· + ·) 0 % 2 = c g % 2) && rs.all fun x => decide (x ≤ f.job.groupSize g)) &&
    (upTo 32).all fun x => (decide (x < f.carried) || decide (d x = 0)) && (decide (x < ng) || decide (c x = 0))
  else (upTo 32).all fun x => if x < ng then decide (d x = c x) else decide (d x = 0) && decide (c x = 0)

/-- An attempt is objected (R398): by this participant, which lights every wavelength, or by the reading of at least 16. -/
def objected (f : Frame) (w al : Nat) : Bool :=
  !f.attemptOk w al || decide (16 ≤ ((upTo 32).filter fun x => decide (f.rd w al 2 x ≠ 0)).length)

/-- The used attempt of a window; none where attempt 2 is objected. -/
def usedAt (f : Frame) (w : Nat) : Option Nat := (upTo 3).find? fun al => !f.objected w al

/-- The sum of the readings of element position `i` over the groups in a plane window. -/
def planeCount (f : Frame) (w al i : Nat) : Nat := ((upTo f.job.ng).map fun g => f.rd w al 0 (i * f.job.ng + g)).foldl (· + ·) 0

/-- The result of position `i` from the used attempts (R395, R396). -/
def element (f : Frame) (used : List Nat) (i : Nat) : Int :=
  let b := f.planesOf
  ((upTo b).map fun k =>
    let w := b - k
    let c : Int := f.planeCount w (used.getD w 0) i
    let p : Int := (2 ^ k : Nat)
    if f.isMax then (if c = 0 then 0 else p) else if k = b - 1 ∧ f.job.signed = true then -(c * p) else c * p).foldl
      (fun (x y : Int) => x + y) 0

/-- The residue check of a reduce frame (R397). -/
def residueOk (f : Frame) (used : List Nat) : Bool :=
  let els : Int := ((upTo (f.job.count f.k)).map (f.element used)).foldl (· + ·) 0
  let res : Nat := ((upTo 3).map fun j =>
    let w := f.planesOf + 3 - j
    ((upTo f.job.ng).map fun g => 2 ^ j * f.rd w (used.getD w 0) 0 g).foldl (· + ·) 0).foldl (· + ·) 0
  decide ((els - (res : Int)) % 7 = 0)

/-- The verdict is objected (R398). -/
def verdict (f : Frame) (used : List Nat) : Bool :=
  (!f.isMax && !f.residueOk used) ||
  decide (16 ≤ ((upTo 32).filter fun x => decide (f.read.getD (f.job.windows f.k * 288 + x) 0 ≠ 0)).length)

/-- Whether the value at position `i` is still a candidate before window `w` of a maximum (R396). -/
def candidate (f : Frame) (used : List Nat) (xs : List Int) (w i : Nat) : Bool :=
  (upTo (w - 1)).all fun v =>
    decide (f.planeCount (v + 1) (used.getD (v + 1) 0) i = 0) || sentBit (xs.getD i 0) (f.plane (v + 1))

/-- The residue of the values a writer sends in a frame: ρ of R394. -/
def residue (xs : List Int) : Nat := (xs.foldl (· + ·) 0 % 7).toNat

/-- The wavelengths that this attachment lights in the data slot and in the check slot of a window (R394). -/
def lightOf (f : Frame) (used : List Nat) (w : Nat) : Nat × Nat :=
  match f.mine with
  | none => (0, 0)
  | some (g, xs) =>
    let ng := f.job.ng
    let pick := fun (p : Nat → Bool) => ((upTo xs.length).filter p).foldl (fun m i => m + 2 ^ (i * ng + g)) 0
    if w = 0 then (2 ^ g, 0)
    else if f.isMax then
      let m := pick fun i => f.candidate used xs w i && sentBit (xs.getD i 0) (f.plane w)
      (m, m)
    else if w ≤ f.planesOf then
      let on := (upTo xs.length).filter fun i => sentBit (xs.getD i 0) (f.plane w)
      (pick fun i => sentBit (xs.getD i 0) (f.plane w), if on.length % 2 = 1 then 2 ^ g else 0)
    else
      let m := if (residue xs).testBit (f.resBit w) then 2 ^ g else 0
      (m, m)

/-- All wavelengths. -/
def allLit : Nat := 2 ^ 32 - 1

/-- Windows `w` to the last (R398): the used attempts, the wavelengths lit by slot, and the failing window if one fails. -/
def runFrom (f : Frame) : Nat → Nat → List Nat → List Nat → List Nat × List Nat × Option Nat
  | 0, _, used, light => (used, light, none)
  | n + 1, w, used, light =>
    let (d, c) := f.lightOf used w
    let upto := (f.usedAt w).getD 2
    let slots := (upTo 3).flatMap fun al =>
      if al ≤ upto then [d, c, if f.attemptOk w al then 0 else allLit] else [0, 0, 0]
    match f.usedAt w with
    | none => (used ++ [2], light ++ slots, some w)
    | some al => runFrom f n (w + 1) (used ++ [al]) (light ++ slots)

end Frame

/-- What a frame leaves of the request (R398, R400): the results of its elements, or its failure. -/
def runFrame (f : Frame) : FordJob :=
  let j := f.job
  let n := j.windows f.k
  let (used, light, bad) := f.runFrom n 0 [] []
  let reps := used.foldl (· + ·) 0
  let j1 := { j with last := f.read, used := used, replays := satAdd 255 j.replays reps }
  match bad with
  | some w => { j1 with light := light, fail := some FORD_GUARD, failWin := w, failFrame := f.k, pop := decide (w = 0) }
  | none =>
    let light' := light ++ [if !f.isMax && !f.residueOk used then Frame.allLit else 0]
    if f.verdict used then { j1 with light := light', fail := some FORD_GUARD, failWin := n, failFrame := f.k }
    else
      let els := (upTo (j.count f.k)).map (f.element used)
      let j2 := { j1 with light := light', frames := j.frames + 1 }
      if f.k < j.nx then { j2 with agreed := j.agreed ++ els.map Int.toNat } else { j2 with res := j.res ++ els }

/-- The group of this attachment and its values in frame `k`. -/
def mineOf (s : State) (a : Nat) (j : FordJob) (k : Nat) : Option (Nat × List Int) :=
  if isWriter s a j then some ((j.writers.takeWhile (· != (s.seg a).pos)).length / j.gsz, frameSent s a j k) else none

/-! ### The course of a request (R403, R404) -/

/-- What ends a request when it is taken: ENGINE_UNAVAILABLE, then FORD_REFORM, then the entry and the operands (R387,
R388, R391, R403, R408). -/
def takeFault (s : State) (a : Nat) (j : FordJob) : Option Nat :=
  let seg := s.seg a
  if seg.fen || decide (s.thermal = 2) || (busOff s a && !seg.fbk) then some ENGINE_UNAVAILABLE
  else if !j.fbk && !aligned s a then some FORD_REFORM
  else if !entryOk s a j then some FORD_TIMETABLE
  else operandFault s a j

/-- Words of 8 bytes from bytes. -/
def wordsOf (bs : List Byte) (n : Nat) : List Word := (upTo n).map fun i => BitVec.ofNat 64 (leNat ((bs.drop (8 * i)).take 8))

/-- A read for the request stands still (R424): the step that made it has no other effect. -/
def FordJob.waits (j : FordJob) : Option Nat := j.fail.filter isWait

/-- Step 1 and 2 of R403 for the request `r` at attachment `a`. -/
def takeFord (s : State) (a : Nat) (r : Request) : State × FordJob :=
  let j0 : FordJob := { req := r, lim := (s.seg a).lim, fbk := busOff s a && (s.seg a).fbk }
  match engReadElems s (hartQOf (fordHart a)) r.vf r.win (r.base + BitVec.ofNat 64 (64 * r.sel)) 32 2 with
  | .error c =>
    let early := (s.seg a).fen || (busOff s a && !(s.seg a).fbk)
    (s, { j0 with fail := some (if early then ENGINE_UNAVAILABLE else if !j0.fbk && !aligned s a then FORD_REFORM else c) })
  | .ok (s1, bs) =>
    let j := { j0 with ent := wordsOf bs 8 }
    (s1, { j with fail := takeFault s1 a j })

/-- Elements of `n` bytes from bytes. -/
def elemsOf (n : Nat) (bs : List Byte) : List Nat := (upTo (bs.length / n)).map fun i => leNat ((bs.drop (n * i)).take n)

/-- Step 3 of R403: a writer's source is read; a request that is in hand too late lights nothing (R404). -/
def loadFord (s : State) (a : Nat) (j : FordJob) : State × FordJob :=
  let q := hartQOf (fordHart a)
  let done := fun (s : State) (j : FordJob) =>
    let late := decide (j.start 0 < leadTick s a + 8)
    let j' := { formSent j with loaded := true, late := late }
    (s, if late then { j' with fail := some FORD_GUARD } else j')
  if !isWriter s a j then done s j
  else if j.fromTow then done s { j with raw := j.req.args.drop 5 |>.map BitVec.toNat }
  else match engReadElems s q j.req.vf j.req.win (j.req.args.getD 0 0) j.srcBytes j.nel with
    | .error c => (s, { j with fail := some c })
    | .ok (s1, bs) =>
      let j1 := { j with raw := elemsOf j.srcBytes bs }
      if j.etype ≠ 11 then done s1 j1
      else match engReadElems s1 q j.req.vf j.req.win (j.req.args.getD 2 0) 1 (j.nel / 32) with
        | .error c => (s1, { j1 with fail := some c })
        | .ok (s2, xs) => done s2 { j1 with exps := xs.map BitVec.toNat }

def setHand (s : State) (a : Nat) (j : FordJob) : State := s.modFord a fun p => { p with hand := some j }

/-- The oldest request of an attachment, taken from its queue. -/
def popFord (s : State) (a : Nat) : Option (Request × State) :=
  match (s.ford a).hand, fordQueue s a with
  | none, r :: rest => some (r, s.modEngine (fordHart a) fun e => { e with queue := rest })
  | _, _ => none

/-- A request that is taken: what its checks leave, and unless they have ended it, what the reading of its source leaves. -/
def takeAndLoad (s : State) (a : Nat) (r : Request) : State × FordJob :=
  let x := takeFord s a r
  if x.2.fail.isSome then x else loadFord x.1 a x.2

/-- FORD_REQUEST_TAKE (R403): attachment `a` takes the oldest request, checks it and reads its source. -/
def execFordRequestTake (s : State) : Out :=
  let a := s.inp.a
  if 16 ≤ a ∨ runsDefault s (fordHart a) = false then .next s
  else match popFord s a with
    | none => .next s
    | some (r, s1) =>
      let x := takeAndLoad s1 a r
      match x.2.waits with
      | some c => .next (noteStall s (hartQOf (fordHart a)) c)
      | none => .next (setHand x.1 a x.2)

/-- The readings that the environment brings: each detector reports 0 to the writer limit (R385). -/
def readings (lim : Nat) (xs : List Int) : List Nat := xs.map fun x => (x % ((lim : Int) + 1)).toNat

/-- A list with `ys` at position `i`; positions that nothing has filled hold `pad`. -/
def placeAt (pad : Nat → Int) (xs : List Int) (i : Nat) (ys : List Int) : List Int :=
  xs.take i ++ (upTo (i - xs.length)).map pad ++ ys ++ xs.drop (i + ys.length)

/-- Elements of frames that microcode has passed over have no agreed value: free values (R418). -/
def padFrames (s : State) (j : FordJob) (k : Nat) : State × FordJob :=
  let pad := fun i => (Config.freeNat (s.freeCtr + i) : Int)
  if (if k < j.nx then j.agreed.length else j.res.length) = j.first k then (s, j)
  else if k < j.nx then
    if j.agreed.length < j.first k then
      ({ s with freeCtr := s.freeCtr + j.first k }, { j with agreed := (placeAt pad (j.agreed.map Int.ofNat) (j.first k) []).map fun x => x.toNat % 256 })
    else (s, { j with agreed := j.agreed.take (j.first k) })
  else if j.res.length < j.first k then ({ s with freeCtr := s.freeCtr + j.first k }, { j with res := placeAt pad j.res (j.first k) [] })
  else (s, { j with res := j.res.take (j.first k) })

/-- Frame `k` at attachment `a`: lit and read at its start tick (R394, R398). A failed frame is counted (R416). -/
def doFrame (s : State) (a k : Nat) (j : FordJob) (read : List Nat) : State :=
  let j0 := if k = j.nx ∧ j.block = true ∧ j.aligned = false then realign j else j
  let f : Frame := { job := j0, k := k, read := read, mine := mineOf s a j0 k }
  let j1 := { runFrame f with want := none }
  let failed := j1.fail.isSome
  (setHand s a j1).modFord a fun p => { p with
    lastEnd := j0.frameEnd k
    replays := satAdd (2 ^ 32 - 1) p.replays (j1.used.foldl (· + ·) 0)
    failed := if failed then satAdd 65535 p.failed 1 else p.failed }

/-- A re-form takes effect before frame `k` begins, so the frame is not lit (R435). -/
def reformBefore (s : State) (a : Nat) (j : FordJob) (k : Nat) : Bool :=
  match (s.ford a).reform with
  | none => false
  | some e => decide (e ≤ j.start k)

/-- The request in hand lights frame `k` now: with Kilior's microcode the next one of a request whose source is read, else the one
that the microcode of the port engine waits for (R418). -/
def lights (s : State) (a : Nat) (j : FordJob) (k : Nat) : Bool :=
  let p := s.proc (hartQOf (fordHart a))
  (if p.loaded then j.want == some k else j.loaded && k == j.frames) && !p.stopped && j.fail.isNone && !j.fbk &&
  decide (k < j.total) && decide (j.start k ≤ leadTick s a) && !reformBefore s a j k

/-- The frame that a request is to light next. -/
def nextFrame (j : FordJob) : Nat := j.want.getD j.frames

/-- FORD_FRAME (R394): the next frame of the request in hand at attachment `a`, or the one its microcode waits for, with
the readings of the segment's detectors in `ints`. A fenced attachment lights nothing (R387): there its request ends
ENGINE_UNAVAILABLE (log entry 62). -/
def execFordFrame (s : State) : Out :=
  let a := s.inp.a
  match (s.ford a).hand with
  | none => .next s
  | some j =>
    if lights s a j (nextFrame j) = false then .next s
    else if (s.seg a).fen then .next (setHand s a { j with fail := some ENGINE_UNAVAILABLE, want := none })
    else .next (doFrame (padFrames s j (nextFrame j)).1 a (nextFrame j) (padFrames s j (nextFrame j)).2 (readings j.lim s.inp.ints))

/-! ### Results and completion (R401, R402, R405) -/

/-- The elements of the result, with the flags of the final rounding. -/
def resultElems (j : FordJob) : List Nat × Nat :=
  let els := (upTo j.res.length).zip j.res
  if j.kind ≠ 0 then (els.map fun e => maxResult j.kind j.planes j.signed e.2.toNat, 0)
  else if j.etype ≠ 0 then (els.map fun e => wrapTo (8 * j.dstBytes) e.2, 0)
  else
    let rs := els.map fun e =>
      let x := j.agreed.getD (e.1 / 32) 0
      if x = 0xFF then (FP32.canonicalNan, 0)
      else roundTo FP32 j.ctl.mode j.ctl.fout false (j.ctl.r (j.lane e.1) 31) (scaleExt (Ext.ofInt e.2) ((x : Int) - 150))
    (rs.map fun r => r.1, rs.foldl (fun f r => f ||| r.2) 0)

/-- Step 5 of R403: every destination element is written. -/
def writeFord (s : State) (a : Nat) (j : FordJob) : Except Nat (State × FordJob) :=
  let q := hartQOf (fordHart a)
  let (xs, f) := resultElems j
  match engWriteElems s q j.req.q j.req.vf j.req.win (j.req.args.getD 1 0) j.dstBytes xs with
  | .error c => .error c
  | .ok s1 =>
    let j1 := { j with flags := j.flags ||| f }
    if j.etype ≠ 11 then .ok (s1, j1)
    else match engWriteElems s1 q j.req.q j.req.vf j.req.win (j.req.args.getD 3 0) 1 j.agreed with
      | .error c => .error c
      | .ok s2 => .ok (s2, j1)

/-- `n` elements of `w` bytes from `va` on hold free values, but for the bytes that `keep` names. -/
def leaveElems (s : State) (q : Nat) (r : Request) (va w n : Nat) (keep : Nat → Bool) : State :=
  (upTo n).foldl (fun t i =>
    let bytes := (upTo w).map (va + w * i + ·)
    if bytes.any keep then (bytes.filter fun x => !keep x).foldl (fun t x => leaveBytes t q r.vf r.win (BitVec.ofNat 64 x) 1) t
    else leaveBytes t q r.vf r.win (BitVec.ofNat 64 (va + w * i)) w) s

/-- What a request that ends other than DONE leaves (R8, R405): free values in its destination, the source as it was. A request
whose entry has not been read names no extent. -/
def leaveFord (s : State) (a : Nat) (j : FordJob) : State :=
  if j.ent.isEmpty then s
  else
    let q := hartQOf (fordHart a)
    let arg := fun i => (j.req.args.getD i 0).toNat
    let scaled := j.etype == 11
    let blocks := j.nel / 32
    let source := fun (x : Nat) => isWriter s a j && !j.fromTow &&
      (decide (arg 0 ≤ x ∧ x < arg 0 + j.nel * j.srcBytes) || (scaled && decide (arg 2 ≤ x ∧ x < arg 2 + blocks)))
    let s1 := leaveElems s q j.req (arg 1) j.dstBytes j.nel source
    if scaled then leaveElems s1 q j.req (arg 3) 1 blocks source else s1

/-- The completion frame of R405. -/
def fordMsg (j : FordJob) (status : Nat) : BitVec 128 :=
  frameOf status 3 j.req.rid.toNat j.frames
    (j.replays + 2 ^ 8 * (j.flags / 128) + 2 ^ 13 * b2n j.late + 2 ^ 14 * b2n j.fbk +
      (if status = FORD_GUARD then 2 ^ 15 * b2n j.pop + 2 ^ 16 * j.failWin else 0) +
      2 ^ 32 * (if status = FORD_GUARD ∨ status = FORD_REFORM then j.failFrame else 0))

/-- A limit written while a request was in hand takes effect (R386). -/
def FordSeg.settle (c : FordSeg) : FordSeg :=
  match c.limNext with
  | none => c
  | some l => { c with lim := l, limNext := none }

/-- The request in hand ends: the completion is stored and the port engine is free. -/
def endFord (s : State) (a : Nat) (j : FordJob) (status : Nat) : State :=
  post ((s.modFord a fun p => { p with hand := none }).modSeg a FordSeg.settle) (fordHart a) j.req (fordMsg j status)

/-- The end of a request whose destination is written: once its stores to other packages are acknowledged (R26); a lost one makes
it end NODE_UNREACHABLE (R425). -/
def settleFord (s : State) (a : Nat) (j : FordJob) : State × Option Nat :=
  let q := hartQOf (fordHart a)
  if storesDone s q 1 = false then (setHand s a { j with written := true }, none)
  else if storesLost s q 1 then (endFord (leaveFord (dropStores s q 1) a j) a j NODE_UNREACHABLE, some NODE_UNREACHABLE)
  else (endFord (dropStores s q 1) a j DONE, some DONE)

/-- The end of a request (R403): the destination, then the completion with its status or a write fault's code; and that status,
or none while it waits for other packages. A killed request writes no memory (R410); one that a re-form has struck or whose frame has
failed is never DONE (R398, R408). -/
def finishFord (s : State) (a : Nat) (j : FordJob) (status : Nat) : State × Option Nat :=
  let q := hartQOf (fordHart a)
  let st := if status = DONE then j.fail.getD DONE else status
  if j.req.killed then (endFord s a j st, some st)
  else if st ≠ DONE then (endFord (leaveFord s a j) a j st, some st)
  else if j.written then settleFord s a j
  else match writeFord s a j with
    | .error c =>
      if isWait c then (noteStall s q c, none)
      else (endFord (leaveFord (forgetStalls s q c) a j) a j c, some c)
    | .ok (s1, j1) => settleFord (ownStores s s1 q 1) a j1

/-- FORD_COMPLETE (R405): the request in hand at attachment `a` has failed, or its last frame has ended. -/
def execFordComplete (s : State) : Out :=
  let a := s.inp.a
  match (s.ford a).hand with
  | none => .next s
  | some j =>
    if runsDefault s (fordHart a) = false then .next s
    else match j.fail with
      | some c => .next (finishFord s a j c).1
      | none => if j.loaded && decide (j.frames = j.total) then .next (finishFord s a j DONE).1 else .next s

/-! ### Census, re-form, fallback (R389, R408, R409, R435) -/

/-- This attachment lights its position in a census: it is enrolled, and neither fenced nor off the bus (R386 to R389). -/
def censusLit (s : State) (a : Nat) : Bool := (s.ford a).enr.isSome && !(s.seg a).fen && !busOff s a

/-- The positions lit in a census (R389): `others` by other attachments, and this attachment's own where it is enrolled. -/
def censusLight (s : State) (a : Nat) (others : Word) : Word :=
  let own : Word := BitVec.ofNat 64 (2 ^ (s.seg a).pos)
  if censusLit s a then others ||| own else others &&& ~~~own

/-- FORD_CENSUS (R389): the census of tick 3,072 m at attachment `a`: other attachments light the positions `w`; the census is not
guarded, and the positions in the first of `ints` are miscounted. -/
def execFordCensus (s : State) : Out :=
  if s.inp.a < 16 ∧ leadTick s s.inp.a % 3072 = 0 then
    .next (s.modFord s.inp.a fun p => { p with
      census := censusLight s s.inp.a s.inp.w ^^^ BitVec.ofInt 64 (s.inp.ints.headD 0), censusOk := true })
  else .next s

/-- The effective tick of a notice posted now (R435). -/
def reformTick (s : State) (a : Nat) : Nat := 3 * cdiv (leadTick s a + 768) 3

/-- A re-form notice is posted for the segments `ids`: this package's attachments of them receive it (R435). -/
def postReform (s : State) (ids : List Nat) (tick : Nat) : State :=
  (upTo 16).foldl (fun s b => if ids.contains (s.seg b).sgid then s.modFord b fun p => { p with reform := some tick } else s) s

/-- The package's clock changes, which is a re-form of the segment of every attachment (R388, R408). -/
def reformAll (s : State) : State := (upTo 16).foldl (fun t a => postReform t [(t.seg a).sgid] (reformTick t a)) s

/-- FORD_REFORM_NOTICE (R435): attachment `a` receives a notice with effective tick `b`. -/
def execFordReformNotice (s : State) : Out :=
  if s.inp.a < 16 then .next (s.modFord s.inp.a fun p => { p with reform := some s.inp.b }) else .next s

/-- A request not yet taken ends with FORD_REFORM. -/
def reformQueued (s : State) (a : Nat) (r : Request) : State := post s (fordHart a) r (fordMsg { req := r } FORD_REFORM)

/-- The re-form meets attachment `a` (R408): its requests end, algn is cleared, no census counts. -/
def applyReform (s : State) (a : Nat) : State :=
  let s1 := match (s.ford a).hand with
    | none => s
    | some j => if j.req.killed then s else setHand s a { j with fail := some FORD_REFORM, failFrame := j.frames, want := none }
  let s2 := (fordQueue s1 a).foldl (fun s r => reformQueued s a r) s1
  let s3 := s2.modEngine (fordHart a) fun e => { e with queue := [] }
  (s3.modSeg a fun c => { c with algn := false }).modFord a fun p => { p with
    reform := none, censusOk := false, reforms := satAdd 65535 p.reforms 1 }

/-- FORD_REFORM_APPLY (R408, R435): at the effective tick, or at the end of the frame then lit. -/
def execFordReformApply (s : State) : Out :=
  let a := s.inp.a
  match (s.ford a).reform with
  | none => .next s
  | some e =>
    let lit := match (s.ford a).hand with
      | none => false
      | some _ => decide (leadTick s a / 3 * 80 < (s.ford a).lastEnd)
    if leadTick s a < e ∨ lit = true then .next s else .next (applyReform s a)

/-- The numbers of one other writer in a fallback: its exponents, then its values. -/
def otherValues (j : FordJob) (xs : List Int) (i : Nat) : List Int × List Int :=
  let nb := if j.block then j.nel / 32 else 0
  let ys := xs.drop (i * (nb + j.nel))
  (ys.take nb, (ys.drop nb).take j.nel)

/-- The fallback's result (R409): the integers of R395 and R396 over the values of every writer; `others` holds those of
the writers of other attachments, in position order. -/
def fallback (s : State) (a : Nat) (j : FordJob) (others : List Int) : FordJob :=
  let me := isWriter s a j
  let n := j.writers.length - if me then 1 else 0
  let xs := (upTo n).map (otherValues j others)
  let exps := (upTo (if j.block then j.nel / 32 else 0)).map fun c =>
    ((if me then [j.exps.getD c 0] else []) ++ xs.map fun (x : List Int × List Int) => (x.1.getD c 0).toNat % 256).foldl max 0
  let j1 := { j with agreed := exps }
  let j2 := if j.block && me then realign j1 else j1
  let res := (upTo j.nel).map fun i =>
    let vs := (if me then [j2.sent.getD i 0] else []) ++ xs.map fun (x : List Int × List Int) => x.2.getD i 0
    if j.kind = 0 then vs.foldl (· + ·) 0 else vs.foldl max 0
  { j2 with res := res, frames := j.total, want := none }

/-- FORD_FALLBACK_COLLECTIVE (R409): the values of the other writers reach attachment `a`; the result is formed. -/
def execFordFallbackCollective (s : State) : Out :=
  let a := s.inp.a
  match (s.ford a).hand with
  | none => .next s
  | some j =>
    if j.fail.isSome ∨ j.loaded = false ∨ j.fbk = false ∨ j.frames = j.total ∨ leadTick s a < j.start 0 ∨
        (s.proc (hartQOf (fordHart a))).stopped then .next s
    else .next (setHand s a (fallback s a j s.inp.ints))

/-- The bound of R409 in ticks after start(0): 1 µs and 0.25 µs for each participant, at the clock the package runs. -/
def fallbackBound (s : State) (j : FordJob) : Nat :=
  let n := ((upTo 64).filter fun p => (j.dw 1 ||| j.dw 2).getLsbD p).length
  if s.full then 1200 + 300 * n else 600 + 150 * n

/-- FORD_FALLBACK_TIMEOUT (R409): the values of some writer have not come within the bound; `b` is 1 where the node of a
writer is unreachable. -/
def execFordFallbackTimeout (s : State) : Out :=
  let a := s.inp.a
  match (s.ford a).hand with
  | none => .next s
  | some j =>
    if j.fail.isSome ∨ j.loaded = false ∨ j.fbk = false ∨ j.frames = j.total ∨ leadTick s a < j.start 0 + fallbackBound s j then .next s
    else if s.inp.b = 1 then .next (setHand s a { j with fail := some NODE_UNREACHABLE, want := none })
    else .next (setHand s a { j with fail := some FORD_GUARD, pop := true, want := none })

/-- FSEGCTL_WRITE (R386): a change of pos or sgid is a re-form of the segment (R408, R435), told to the segment that the attachment
leaves and to the one it joins. A write of lim alone takes effect when no request is in hand. A fence is reported (R473). -/
def execFsegctlWrite (s : State) : Out :=
  let a := s.inp.a
  if 16 ≤ a then .next s
  else
    let v := s.inp.w
    let old := s.seg a
    let alone := fld v 3 6 == old.pos && fld v 9 16 == old.sgid && v.getLsbD 25 == old.fbk && v.getLsbD 26 == old.fen
    let later := alone && (s.ford a).hand.isSome
    let s1 := s.modSeg a fun c => { c with
      lim := if later then c.lim else fld v 0 3, limNext := if later then some (fld v 0 3) else none
      pos := fld v 3 6, sgid := fld v 9 16, fbk := v.getLsbD 25, fen := v.getLsbD 26 }
    let s1 := if v.getLsbD 26 && !old.fen then noteFence s1 else s1
    if fld v 3 6 = old.pos ∧ fld v 9 16 = old.sgid then .next s1
    else
      let s2 := s1.modSeg a fun c => { c with algn := false }
      .next (postReform s2 [old.sgid, fld v 9 16] (reformTick s a))

/-! ### Instructions (R411 to R416) -/

/-- An attachment that the issuing function has not been granted raises ILLEGAL_OPERAND (R410 ff., R464); a port engine
may name only its own. -/
def grantedAtt (a : Nat) : Eff Unit := do
  let s ← get
  if isHart s.cur then
    if hartIx s.cur != fordHart a then throw (.trap ILLEGAL_OPERAND s.me.r.pc)
  else if !(s.vfOf s.me.vf).fgnt.testBit a then throw (.trap ILLEGAL_OPERAND (BitVec.ofNat 64 a))

/-- The launch that the agent that moves works for. -/
def myLaunch (s : State) : Option (Nat × Nat) := (s.core (coreOf s.cur)).owner

/-- A request of a launch. -/
def ofLaunch (l : Nat × Nat) (r : Request) : Bool := r.vf == l.1 && r.ln == l.2

/-- A request of the launch is queued or in hand at an attachment. -/
def fordBusyFor (s : State) (a : Nat) (l : Nat × Nat) : Bool :=
  (fordQueue s a).any (ofLaunch l) || match (s.ford a).hand with
    | none => false
    | some j => ofLaunch l j.req

/-- FENROL (R411). -/
def execFenrol (a b : BitVec 6) (att : BitVec 4) (nent : BitVec 16) (s : State) : Out :=
  runHead (.fenrol a b att nent) (do
    let base ← gr b
    let n := att.toNat
    if nent.toNat < 1 ∨ 1024 < nent.toNat then illegalOperand
    grantedAtt n
    if 2 ^ 48 ≤ base.toNat then throw (.trap ADDR_INVALID base)
    if base.toNat % 65536 ≠ 0 then throw (.trap MISALIGNED base)
    let s ← get
    let seg := s.seg n
    let p := s.ford n
    if p.enr.isSome && p.enr != myLaunch s then writeNext 1 a 1
    else if seg.fen || (seg.lim == 0 && !seg.fbk) then writeNext 1 a 2
    else if !aligned s n && !seg.fbk then writeNext 1 a 3
    else if p.enr.isSome && fordBusy s n then writeNext 1 a 4
    else do
      let l := myLaunch s
      modify fun s => s.modFord n fun p => { p with
        enr := some (l.getD (0, 0)), nent := nent.toNat, base := base
        censusOk := p.censusOk && p.enr.isSome }
      writeNext 1 a 0) s

/-- FLEAVE (R412). -/
def execFleave (a : BitVec 6) (att : BitVec 4) (s : State) : Out :=
  runHead (.fleave a att) (do
    let n := att.toNat
    grantedAtt n
    let s ← get
    let l := (myLaunch s).getD (0, 0)
    if (s.ford n).enr != some l then writeNext 1 a 1
    else if fordBusyFor s n l then
      match s.me.wait with
      | .engine _ => throw .stall
      | _ => throw (.wait (.engine s.tide))
    else do
      modify fun s => s.modFord n fun p => { p with enr := none, nent := 0, base := 0 }
      writeNext 1 a 0) s

/-- FRB, FMAX and FMIN (R413). -/
def kickFord (op : Nat) (a b c : BitVec 6) (rm : Nat) (ent att : Nat) : Eff Next := do
  let r ← group b 4
  let t ← gr c
  grantedAtt att
  let s ← get
  let p := s.me
  let port := s.ford att
  if port.enr != some ((myLaunch s).getD (0, 0)) then throw (.trap FORD_ENROL (BitVec.ofNat 64 att))
  if port.nent ≤ ent then throw (.trap FORD_TIMETABLE (BitVec.ofNat 64 ent))
  let seq := nextSeq p.seqFord
  let rid := ridOf s.cur seq
  let m := captureMode p.r.fcsr rm
  kick (fordHart att) { op := op, sel := ent, seq := seq, rid := rid, base := port.base
                        args := (r.map (peerForm s s.cur)) ++ [t], mode := m, fcsr := p.r.fcsr, srseed := p.r.srseed, srctr := p.r.srctr }
  modMe fun p => { p with seqFord := seq }
  advanceCtr (op == 0xB1 && m == 5)
  dstAll 2 a rid
  pure seqNext

/-- FRB (R413). -/
def execFrb (a b c : BitVec 6) (rm : BitVec 3) (ent : BitVec 10) (att : BitVec 4) (s : State) : Out :=
  runOnce (.frb a b c rm ent att) (kickFord 0xB1 a b c rm.toNat ent.toNat att.toNat) s
/-- FMAX (R413). -/
def execFmax (a b c : BitVec 6) (ent : BitVec 10) (att : BitVec 4) (s : State) : Out :=
  runOnce (.fmax a b c ent att) (kickFord 0xB2 a b c 0 ent.toNat att.toNat) s
/-- FMIN (R413). -/
def execFmin (a b c : BitVec 6) (ent : BitVec 10) (att : BitVec 4) (s : State) : Out :=
  runOnce (.fmin a b c ent att) (kickFord 0xB3 a b c 0 ent.toNat att.toNat) s

/-- The number of positions in a mask. -/
def popCount (w : Word) : Nat := ((upTo 64).filter fun p => w.getLsbD p).length

/-- FPOP (R414). -/
def execFpop (a : BitVec 6) (att : BitVec 4) (s : State) : Out :=
  runHead (.fpop a att) (do
    grantedAtt att.toNat
    let s ← get
    let p := s.ford att.toNat
    writeNext 2 a (BitVec.ofNat 64 (popCount p.census + 2 ^ 63 * b2n (!p.censusOk)))) s

/-- What refuses training at once (R415): another launch's enrolment or a request, then an attachment that cannot train. -/
def alignRefused (s : State) (a : Nat) : Option Nat :=
  let p := s.ford a
  if (p.enr.isSome && p.enr != myLaunch s) || fordBusy s a then some 4
  else if (s.seg a).lim == 0 || (s.seg a).fen || !s.full then some 1
  else none

/-- FALIGN (R415): it trains until FALIGN_TRAINED, or until its timeout. -/
def execFalign (a : BitVec 6) (att : BitVec 4) (t : BitVec 16) (s : State) : Out :=
  runHead (.falign a att t) (do
    let n := att.toNat
    if t = 0 then illegalOperand
    grantedAtt n
    let s ← get
    match s.me.wait with
    | .busy since =>
      match (s.ford n).trained.find s.cur with
      | some v => do
        modify fun s => s.modFord n fun p => { p with trained := p.trained.del s.cur }
        writeNext 1 a (BitVec.ofNat 64 v)
      | none =>
        if since.toNat + 1024 * t.toNat ≤ s.tide.toNat then do
          modify fun s => s.modFord n fun p => { p with training := p.training.erase s.cur }
          writeNext 1 a 2
        else throw .stall
    | _ =>
      match alignRefused s n with
      | some v => writeNext 1 a (BitVec.ofNat 64 v)
      | none => do
        modify fun s => s.modFord n fun p => { p with training := p.training.erase s.cur ++ [s.cur], trained := p.trained.del s.cur }
        throw (.wait (.busy s.tide))) s

/-- FALIGN_TRAINED (R415): the training of attachment `a` ends; the lead's Tide is ahead by the first of `ints`. With `b`
1 the lead has not answered. -/
def execFalignTrained (s : State) : Out :=
  let a := s.inp.a
  let qs := (s.ford a).training
  let tell := fun (v : Nat) (p : FordPort) => { p with training := [], trained := qs.foldl (fun m q => FMap.put m q v) p.trained }
  if qs.isEmpty then .next s
  else if s.inp.b = 1 then .next (s.modFord a (tell 1))
  else .next ((s.modSeg a fun c => { c with algn := true }).modFord a fun p => { tell 0 p with skew := s.inp.ints.headD 0 })

/-- The status word of a selector (R416). -/
def fstatWord (s : State) (a sel : Nat) : Nat :=
  let p := s.ford a
  let seg := s.seg a
  let mine := p.enr.isSome && (isHart s.cur || p.enr == some ((myLaunch s).getD (0, 0)))
  match sel with
  | 0 =>
    seg.lim + 2 ^ 3 * seg.pos + 2 ^ 9 * seg.sgid + 2 ^ 25 * b2n seg.fbk + 2 ^ 26 * b2n seg.fen + 2 ^ 27 * b2n (aligned s a) +
      2 ^ 28 * b2n mine + 2 ^ 29 * b2n (p.enr.isSome && !mine) + 2 ^ 30 * (fordQueue s a).length + 2 ^ 35 * b2n p.hand.isSome
  | 1 => p.replays + 2 ^ 32 * p.failed + 2 ^ 48 * p.reforms
  | 2 => if mine then p.nent + p.base.toNat / 65536 * 65536 else 0
  | _ => p.census.toNat

/-- FSTAT (R416). -/
def execFstat (a : BitVec 6) (att : BitVec 4) (sel : BitVec 16) (s : State) : Out :=
  runHead (.fstat a att sel) (do
    if 3 < sel.toNat then illegalOperand
    grantedAtt att.toNat
    let s ← get
    writeNext 2 a (BitVec.ofNat 64 (fstatWord s att.toNat sel.toNat))) s

/-! ### The port engine's microcode (R418, R419) -/

/-- The attachment of the port engine hart that moves. -/
def myAtt (s : State) : Nat := hartIx s.cur - 13440

/-- The request in hand; without one the hart stops (R418, R28). -/
def withHand (f : FordJob → Eff Next) : Eff Next := do
  let s ← get
  match (s.ford (myAtt s)).hand with
  | none => hartFault
  | some j => f j

/-- femit.take (R418). -/
def execFemitTake (a : BitVec 6) (s : State) : Out :=
  runHead (.femitTake a) (do
    let s ← get
    let n := myAtt s
    match popFord s n with
    | none => throw .stall
    | some (r, s1) => do
      let (s2, j) := takeFord s1 n r
      match j.waits with
      | some c => stallOn c
      | none => do
      set (setHand s2 n j)
      modMe fun p => { p with vf := r.vf }
      writeNext 1 a (BitVec.ofNat 64 ((r.op - 0xB0) + 2 ^ 2 * b2n j.fromTow + 2 ^ 16 * (r.rid.toNat % 2 ^ 32) + 2 ^ 56 * j.fail.getD DONE))) s

/-- femit.load (R418). -/
def execFemitLoad (a b : BitVec 6) (s : State) : Out :=
  runHead (.femitLoad a b) (withHand fun j => do
    let x ← gr b
    let s ← get
    let n := myAtt s
    if x = 0 then do
      let (s1, j1) := loadFord s n j
      match j1.waits with
      | some c => stallOn c
      | none => do
      set (setHand s1 n j1)
      writeNext 1 a (BitVec.ofNat 64 (j1.fail.getD DONE))
    else if x = 1 then do
      set (setHand s n (realign j))
      writeNext 1 a 0
    else illegalOperand) s

/-- The status word of femit.frame, once the frame has ended. -/
def frameWord (j : FordJob) : Nat :=
  let guard := j.fail == some FORD_GUARD
  j.fail.getD DONE + (if guard then 2 ^ 8 * j.failWin + 2 ^ 24 * b2n j.pop else 0) + 2 ^ 16 * (j.used.foldl (· + ·) 0) +
    2 ^ 25 * b2n j.late

/-- femit.frame (R418): it waits until frame g[B] has ended; a request that has failed or been struck lights nothing. Microcode
orders the frames: one whose start tick is over when it is asked for is too late, and lights nothing (R404, log entry 62). The fallback
has no frames of its own to light: there it waits until the values are agreed (R409). -/
def execFemitFrame (a b : BitVec 6) (s : State) : Out :=
  runHead (.femitFrame a b) (withHand fun j => do
    let k ← gr b
    let s ← get
    let n := myAtt s
    match s.me.wait with
    | .engine _ => if j.want.isSome && j.fail.isNone then throw .stall else writeNext 1 a (BitVec.ofNat 64 (frameWord j))
    | _ =>
      if j.total ≤ k.toNat then illegalOperand
      else if j.fail.isSome then writeNext 1 a (BitVec.ofNat 64 (j.fail.getD DONE + 2 ^ 25 * b2n j.late))
      else if j.fbk && decide (j.frames = j.total) then writeNext 1 a 0
      else if !j.fbk && decide (j.start k.toNat < leadTick s n) then do
        modify fun s => setHand s n { j with fail := some FORD_GUARD, late := true, failFrame := k.toNat }
        writeNext 1 a (BitVec.ofNat 64 (FORD_GUARD + 2 ^ 25))
      else do
        modify fun s => setHand s n { j with want := some k.toNat }
        throw (.wait (.engine s.tide))) s

/-- femit.done (R418): it waits for other packages where the destination lies there. -/
def execFemitDone (a b : BitVec 6) (s : State) : Out :=
  runHead (.femitDone a b) (withHand fun j => do
    let x ← gr b
    let s ← get
    match finishFord s (myAtt s) j (fld x 0 8) with
    | (s1, some v) => do
      set s1
      writeNext 1 a (BitVec.ofNat 64 v)
    | (s1, none) => do
      set s1
      throw (remoteWait s1 s1.cur (.engine s1.tide))) s

/-- FCOUNT's index out of range gives 2^63 (R419). -/
def outOfRange : Word := BitVec.ofNat 64 (2 ^ 63)

/-- fcount.rd (R419). An attempt after the used one is dark: its readings are 0 (R385). -/
def execFcountRd (a b c : BitVec 6) (s : State) : Out :=
  runHead (.fcountRd a b c) (withHand fun j => do
    let w ← gr b
    let x ← gr c
    let v := if w.toNat < j.used.length ∧ fld x 0 2 ≤ 2 ∧ fld x 7 2 ≤ 2 ∧ fld x 9 55 = 0 then
        if j.used.getD w.toNat 0 < fld x 7 2 then 0 else BitVec.ofNat 64 (j.last.getD ((3 * w.toNat + fld x 7 2) * 96 + 32 * fld x 0 2 + fld x 2 5) 0)
      else outOfRange
    writeNext 1 a v) s

/-- An agreed element as an integer, before the conversion of R402: of a maximum or minimum the result of R396. -/
def agreedElem (j : FordJob) (x : Int) : Int :=
  if j.kind = 0 then x
  else
    let y := maxResult j.kind j.planes j.signed x.toNat
    if j.signed then sextNat y j.planes else (y : Int)

/-- fcount.el (R419). -/
def execFcountEl (a b : BitVec 6) (s : State) : Out :=
  runHead (.fcountEl a b) (withHand fun j => do
    let i ← gr b
    writeNext 1 a (match j.res[i.toNat]? with
      | some x => w64 (agreedElem j x)
      | none => outOfRange)) s

/-- fcount.ex (R419). -/
def execFcountEx (a b : BitVec 6) (s : State) : Out :=
  runHead (.fcountEx a b) (withHand fun j => do
    let i ← gr b
    writeNext 1 a (match j.agreed[i.toNat]? with
      | some x => BitVec.ofNat 64 x
      | none => outOfRange)) s

end Sys2Proof.Machine
end

