-- ==== Sys2Proof/Machine/Tow.lean ====
section
/-!
DEFINITION. The tow reader (R354 to R383), and the dispatch of rows to handlers (R332, R366).

Marks (notes/assumptions): DESIGN CHOICE (safe) 3; DEDUCED (unsafe) 37, 42, 44, 61.
-/

namespace Sys2Proof.Machine

/-! ### The entry record (R355, R356) -/

namespace Tow
/-- B. -/
def depth (w : Tow) : Nat := fld (w.cap.dw 1) 0 6 + 1
def split (w : Tow) : Nat := fld (w.cap.dw 1) 6 2
def gain (w : Tow) : Nat := fld (w.cap.dw 1) 8 2
def shift (w : Tow) : Nat := fld (w.cap.dw 1) 10 5
def rva (w : Tow) : Word := w.cap.dw 5
/-- Row `b` as 128 bytes. -/
def rowBytes (w : Tow) (b : Nat) : List Byte := (upTo 32).flatMap fun i => leBytes 4 (w.a.get (64 * i + b) 0)
/-- Row `b` released: its registers are +0 (R366). -/
def clearRow (w : Tow) (b : Nat) : Tow := { w with a := w.a.filter fun e => !decide (e.1 % 64 = b) }
end Tow

/-- The reserved values of R356. -/
def towRecBad (r : Request) : Bool :=
  let d1 := r.dw 1
  let d4 := r.dw 4
  decide (fld d1 18 46 ≠ 0) || decide (fld d4 5 59 ≠ 0) || r.dw 6 != 0 || r.dw 7 != 0 ||
  decide (fld d1 6 2 % 2 = 1) || decide (fld d1 15 3 = 6) || decide (20 < fld d1 10 5) ||
  decide ((r.dw 0).toNat % 64 ≠ 0) || decide ((r.dw 5).toNat % 64 ≠ 0) || r.dw 5 == 0 || r.dw 2 == 0 ||
  (decide (fld d4 0 4 ≠ 0) && !d4.getLsbD 4)

/-- A tow block fetch of a line of 32 bytes by the sequencer of cluster `gc` (R362, R373): a leaf without tx is TOW_PERM. What another
package answers is a free value, as for any read of an engine (log entry 23). -/
def towLine (s : State) (gc vf va : Nat) : Except Nat (State × List Byte) :=
  let q := hartQOf (seqHart gc)
  let w := BitVec.ofNat 64 va
  if 2 ^ 48 ≤ va then .error ADDR_INVALID
  else match translate s q vf va .tow with
    | .error c => .error (if c = PAGE_PERM then TOW_PERM else if c = WAITS then waitAt w else c)
    | .ok (s1, l) =>
      if softError s1 [] l 32 then .error MEM_UNCORRECTABLE
      else match l with
        | .own pa | .host pa _ => .ok (s1, leBytes 32 (s1.natAt pa 32))
        | .remote node pa _ =>
          match engRoute s1 q node w with
          | .error c => .error c
          | .ok 63 =>
            match serveMem s1 s1.fab.node pa (.load 32) with
            | (some v, t) => .ok (clearStall t q w, leBytes 32 v)
            | (none, _) => .error NODE_UNREACHABLE
          | .ok port =>
            let x := Config.freeNat s1.freeCtr
            let t := sendPacket (clearStall s1 q w) port
              { dest := node, src := s1.fab.node, requester := q, addr := pa, va := w, agent := q, since := s1.tide, vf := vf, kind := .load 32 }
            if x % 2 = 1 then .error NODE_UNREACHABLE else .ok ({ t with freeCtr := s1.freeCtr + 1 }, leBytes 32 (x / 2))
        | _ => .error PHYS_RANGE

/-- `n` lines from `va`. -/
def towLines (s : State) (gc vf va : Nat) : Nat → Except Nat (State × List Byte)
  | 0 => .ok (s, [])
  | n + 1 =>
    match towLine s gc vf va with
    | .error c => .error c
    | .ok (s1, bs) =>
      match towLines s1 gc vf (va + 32) n with
      | .error c => .error c
      | .ok (s2, cs) => .ok (s2, bs ++ cs)

/-- TOW.ENTER (R357). -/
def execTowEnter (a b c : BitVec 6) (s : State) : Out :=
  runOnce (.towEnter a b c) (do
    let x ← gr c
    let s ← get
    let p := s.me
    let r0 : Request := { op := 0xAB, vrec := p.r.readV b.toNat }
    if towRecBad r0 then throw (.trap RESERVED_FIELD (BitVec.ofNat 64 b.toNat))
    if 2 ^ 48 ≤ (r0.dw 0).toNat then throw (.trap ADDR_INVALID (r0.dw 0))
    if !inEngineSpace s (r0.dw 5) then throw (.trap ADDR_INVALID (r0.dw 5))
    let rr ← if x = 0 then pure []
      else do
        let l ← check x 64 64 .load
        let v ← readLoc x l 64 s.cur
        pure ((upTo 8).map fun i => BitVec.ofNat 64 (bits v (64 * i) 64))
    let first := if x = 0 then r0.dw 0 else BitVec.ofNat 64 (fld (rr.getD 0 0) 6 42 * 64)
    let s ← get
    let gc := clusterOf s.cur
    match translate s (hartQOf (seqHart gc)) p.vf first.toNat .tow with
    | .error e => throw (accessStop (if e = PAGE_PERM then TOW_PERM else e) first)
    | .ok (s1, _) => set s1
    if (r0.dw 4).getLsbD 4 then checkRing (fld (r0.dw 4) 0 4) handlerRing
    let m := captureMode p.r.fcsr (fld (r0.dw 1) 15 3)
    let seq := nextSeq p.seqTow
    let rid := ridOf s.cur seq
    kick (seqHart gc) { r0 with
      args := x :: rr, mode := m, fcsr := p.r.fcsr, srseed := p.r.srseed, srctr := p.r.srctr, seq := seq, rid := rid }
    modMe fun p => { p with seqTow := seq }
    advanceCtr (x == 0 && m == 5)
    dstAll 2 a rid
    pure seqNext) s

/-! ### Sessions (R354, R358, R374 to R380) -/

def setTow (s : State) (gc : Nat) (w : Tow) : State := s.modPontoon gc fun po => { po with tow := some w }
def dropTow (s : State) (gc : Nat) : State := s.modPontoon gc fun po => { po with tow := none }

/-- The restart record of R375 as one number. -/
def restartNat (w : Tow) (status : Nat) : Nat :=
  w.ph + 2 ^ 2 * w.stack.length + 2 ^ 6 * fld w.cb 6 42 + 2 ^ 48 * w.seq +
  2 ^ 64 * (2 ^ 6 * fld (w.lwt.getD 0) 6 42 + 2 ^ 48 * w.sub + 2 ^ 56 * status) +
  2 ^ 128 * (w.rk + 2 ^ 3 * w.rs + 2 ^ 7 * w.rv + 2 ^ 23 * (w.u % 2 ^ 16)) +
  ((upTo w.stack.length).zip w.stack).foldl (fun m e => m + 2 ^ (168 + 42 * e.1) * fld e.2 6 42) 0

/-- The restart record as doublewords. -/
def restartRec (w : Tow) (status : Nat) : List Word := (upTo 8).map fun i => BitVec.ofNat 64 (bits (restartNat w status) (64 * i) 64)

/-- Writes the restart record at rva, in two lines: the session with it as last written, or the write's fault (R374). -/
def writeRestart (s : State) (gc : Nat) (w : Tow) (status : Nat) : Except Nat (State × Tow) :=
  let q := hartQOf (seqHart gc)
  let n := restartNat w status
  match engWriteElems s q w.req.q w.cap.vf w.cap.win w.rva 32 [n % 2 ^ 256, n / 2 ^ 256] with
  | .error c => .error c
  | .ok s1 => .ok (ownStores s s1 q 2, { w with rr := restartRec w status })

/-- The completion frame of R380. -/
def towFrame (w : Tow) (status : Nat) : BitVec 128 :=
  frameOf status 2 w.req.rid.toNat w.seq (w.flags / 128 + 2 ^ 5 * w.worst + 2 ^ 7 * b2n w.parkedOnce + 2 ^ 32 * w.blocks)

/-- A request that ends without a session of its own (R358, R381). -/
def refuseTow (s : State) (gc : Nat) (r : Request) (status : Nat) : State := post s (seqHart gc) r (frameOf status 2 r.rid.toNat 0 0)

def isTow (r : Request) : Bool := r.op == 0xAB
/-- A resume request. -/
def isResume (r : Request) : Bool := isTow r && r.args.headD 0 != 0

/-- The rows that a stop has left undefined are data of the session again when it goes on, where nothing has written over them
(R376, R380). -/
def regainRows (s : State) (gc : Nat) (w : Tow) : State :=
  w.dest.foldl (fun t d =>
    if d.2.2 ≠ [] ∧ (upTo 128).map (fun i => t.byteAt (spKey gc (d.1 + i))) = d.2.2 then performAt t (spKey gc d.1) d.2.1 else t) s

/-- A block in progress is given up at a sub-tile boundary: it is fetched again (R373, R376). -/
def Tow.atBoundary (w : Tow) : Tow := { w with hdr := [], pay := [], dec := none, waits := false }

/-- A resume request that the engine takes (R358): the session continues under the new identifier, or the request is
refused. A completion of the stop that has not been stored yet is still owed. -/
def takeResume (s : State) (gc : Nat) (r : Request) : State :=
  match (s.pontoon gc).tow with
  | some w =>
    if w.st = 2 ∧ w.leaving = false ∧ r.vrec = w.cap.vrec ∧ r.args.drop 1 = w.rr then
      let owed := match w.done with
        | some c => [(w.req, towFrame w c)]
        | none => []
      setTow (regainRows s gc w) gc { w.atBoundary with
        req := r, st := 0, status := 0, flags := 0, worst := 0, parkedOnce := false, blocks := 0, seq := 0, done := none
        owed := w.owed ++ owed, dest := w.dest.map fun d => (d.1, d.2.1, []) }
    else refuseTow s gc r TOW_CHECK
  | none => refuseTow s gc r TOW_CHECK

/-- A fresh session (R354). -/
def startTow (s : State) (gc : Nat) (r : Request) : State :=
  setTow s gc { req := r, cap := r, cb := r.dw 0 }

/-- TOW_SESSION_START (R358): cluster `a` takes a TOW.ENTER from its queue: a fresh one when no session exists and no job
is in hand, a resume as the oldest resume of the queue. The sequencer hart runs under its function (R20, R104). -/
def execTowSessionStart (s : State) : Out :=
  let gc := s.inp.a
  let po := s.pontoon gc
  if Config.clusters ≤ gc ∨ (s.proc (hartQOf (seqHart gc))).stopped then .next s
  else
    let qs := (s.engine (seqHart gc)).queue
    let pick := if po.tow.isSome then qs.find? isResume
      else match qs with
        | r :: _ => if isTow r ∧ po.job.isNone ∧ po.tail.isNone then some r else none
        | [] => none
    match pick with
    | none => .next s
    | some r =>
      let s1 := (s.modEngine (seqHart gc) fun e => { e with queue := e.queue.erase r }).modProc (hartQOf (seqHart gc)) fun p => { p with vf := r.vf }
      if engineDown s gc then .next (refuseTow s1 gc r ENGINE_UNAVAILABLE)
      else if isResume r then .next (takeResume s1 gc r)
      else .next (startTow s1 gc r)

/-- A session that may go on with a block: it runs, nothing stops it, and no park is pending at this boundary (R374,
R377, R378). -/
def towMoves (s : State) (gc : Nat) (w : Tow) : Bool :=
  let po := s.pontoon gc
  decide (w.st = 0) && !s.frozen gc && w.fail.isNone && w.done.isNone && !w.leaving && !po.preempt &&
  (decide (w.ph ≠ 0) || decide (po.drift < 2)) && !(s.proc (hartQOf (seqHart gc))).stopped

/-! ### Blocks (R359 to R362) -/

/-- Fields of a block header. -/
def hBop (h : List Word) : Nat := fld (h.getD 0 0) 0 8
def hFmt (h : List Word) : Nat := fld (h.getD 0 0) 8 4
def hCodec (h : List Word) : Nat := fld (h.getD 0 0) 12 4
def hRows (h : List Word) : Nat := fld (h.getD 0 0) 16 5 + 1
def hCols (h : List Word) : Nat := fld (h.getD 0 0) 21 5 + 1
def hSeq (h : List Word) : Nat := fld (h.getD 0 0) 32 16
def hRout (h : List Word) : Nat := fld (h.getD 0 0) 48 16
def hRk (h : List Word) : Nat := fld (h.getD 0 0) 48 3
def hRs (h : List Word) : Nat := fld (h.getD 0 0) 51 4
def hLink (h : List Word) : Word := h.getD 1 0
def hPlen (h : List Word) : Nat := fld (h.getD 2 0) 0 15
def hA (h : List Word) (i : Nat) : Word := h.getD (3 + i) 0

/-- A link of the block at `p` decoded (R360); none where it is reserved. -/
def linkTarget (p : Word) (plen : Nat) (l : Word) : Option Word :=
  let off : Word := BitVec.ofNat 64 (l.toNat / 64 * 64)
  if fld l 2 4 ≠ 0 then none
  else match fld l 0 2 with
    | 0 => some (p + off)
    | 1 => some off
    | 2 => if l = 2 then some (p + BitVec.ofNat 64 (64 + 64 * cdiv plen 64)) else none
    | _ => none

/-- The successor by a header's own link. -/
def succOf (w : Tow) (h : List Word) : Word := (linkTarget w.cb (hPlen h) (hLink h)).getD 0

/-- The stage operand of RUN and SYNC: the ring and the iteration. -/
def opRing (x : Word) : Nat := fld x 0 4
def opIter (x : Word) : Nat := fld x 16 16
def opStageBad (x : Word) : Bool := decide (fld x 4 12 ≠ 0) || decide (fld x 32 32 ≠ 0)

/-- The engine's view of the addresses a session may name: global space or the own-cluster scratchpad through W0. -/
def towSpace (s : State) (gc vf : Nat) (va : Word) : Bool :=
  match decodeVa s (hartQOf (seqHart gc)) vf va.toNat with
  | some .global => true
  | some (.scratch _ w _) => w == 0 && decide (va.toNat < 0xFFFF300000000000)
  | _ => false

/-- The ring check of R364 and R369. -/
def towRingOk (s : State) (gc : Nat) (w : Tow) (x : Word) : Bool := kind2Ring (ringOf s gc (opRing x)) (32 * w.depth)
/-- The output ring check of R366. -/
def outRingOk (s : State) (gc r : Nat) : Bool :=
  let x := ringOf s gc r
  x.enabled && x.kind 0 == 2 && decide (1 ≤ x.ssz)

/-- What a named route must satisfy beside its kind (R366): its sel, its value, its ring or offset. -/
def routeOk (s : State) (gc : Nat) (w : Tow) (k sel : Nat) (a0 : Word) : Bool :=
  match k with
  | 2 => sel == 0 && a0 == 0
  | 3 => decide (fld a0 16 48 = 0) && outRingOk s gc sel
  | 4 => decide (fld a0 16 48 = 0)
  | 5 => sel == 0 && decide (a0.toNat ≤ 2047) && decide (128 * (a0.toNat + w.depth) ≤ 262144)
  | _ => false

/-- Decoded bytes of a WTILE (R363). -/
def tileBytes (h : List Word) : Nat := if hFmt h = 5 then hRows h * hCols h else cdiv (hRows h * hCols h) 2

/-- The checks of point 4 of R362. -/
def blockReservedOk (s : State) (gc : Nat) (w : Tow) (h : List Word) : Bool :=
  let op := hBop h
  let a0 := hA h 0
  let a1 := hA h 1
  let lk := fun (x : Word) => (linkTarget w.cb (hPlen h) x).isSome
  decide (fld (h.getD 0 0) 26 6 = 0) && decide (hRout h / 2 ^ 7 = 0) && decide (fld (h.getD 2 0) 15 49 = 0) &&
  decide (hPlen h ≤ 16384) && h.getD 6 0 == 0 && decide (fld (h.getD 7 0) 0 32 = 0) && hA h 2 == 0 &&
  (op == 1 || (decide (fld (h.getD 0 0) 8 18 = 0) && decide (hPlen h = 0))) &&
  (if op = 9 ∨ op = 10 then hLink h == 0 else lk (hLink h)) &&
  (if op = 2 then decide (hRout h = 1) else if op = 4 ∨ op = 5 then true else decide (hRout h = 0)) &&
  match op with
  | 1 => (hFmt h == 5 || hFmt h == 10) && decide (hCodec h ≤ 1) && a0 == 0 && a1 == 0 &&
      (hCodec h == 1 || decide (hPlen h = tileBytes h))
  | 2 => if a0 = 0 then !opStageBad a1 && towRingOk s gc w a1 else a1 == 0 && decide (a0.toNat % 32 = 0) && towSpace s gc w.cap.vf a0
  | 3 => decide (a1.toNat ≤ 1) && (a1 == 1 || decide (fld a0 32 32 = 0))
  | 4 => a1 == 0 && (if hRk h = 0 then hRs h == 0 && a0 == 0 && (w.rk != 3 || outRingOk s gc w.rs) else routeOk s gc w (hRk h) (hRs h) a0)
  | 5 => a1 == 0 && routeOk s gc w (hRk h) (hRs h) a0
  | 6 => decide (a0.toNat ≤ 1) && (a0 == 1 || (!opStageBad a1 && towRingOk s gc w a1))
  | 7 => decide (a0.toNat % 8 = 0) && decide (a0.toNat < 262144) && lk a1
  | 8 => lk a0 && a1 == 0
  | _ => a0 == 0 && a1 == 0

/-- The block at cb read and checked by points 1 to 4 of R362: the header as far as it was read, and the payload or the
failure. -/
def readBlock (s : State) (gc : Nat) (w : Tow) : State × List Word × Except Nat (List Byte) :=
  match towLines s gc w.cap.vf w.cb.toNat 2 with
  | .error c => (s, [], .error c)
  | .ok (s1, hb) =>
    let h := wordsOf hb 8
    match towLines s1 gc w.cap.vf (w.cb.toNat + 64) (cdiv (hPlen h) 32) with
    | .error c => (s1, h, .error c)
    | .ok (s2, pb) =>
      let body := pb.take (hPlen h)
      if adler32 ((hb.take 60 ++ body).map BitVec.toNat) ≠ fld (h.getD 7 0) 32 32 then (s2, h, .error TOW_CHECK)
      else if hBop h = 0 ∨ 10 < hBop h then (s2, h, .error TOW_BLOCK_OPCODE)
      else if !blockReservedOk s2 gc w h then (s2, h, .error RESERVED_FIELD)
      else (s2, h, .ok body)

/-- The block has been completed (R373): the session goes on at `t`. -/
def Tow.advance (w : Tow) (t : Word) : Tow :=
  { w.atBoundary with cb := t, ph := 0, sub := 0, seq := 0, blocks := w.blocks + 1 }

/-- The acts of the block steps: what a checked block with header `h` and payload does to the session. -/
inductive Act where
  /-- The session after it. -/
  | done (s : State) (w : Tow)
  /-- It waits on data, rows, a stage, a flag or Tide. -/
  | wait
  /-- The session stops with this status. -/
  | stop (c : Nat)
  /-- A stage's tag differs: the sequencer hart stops (R364, R28). -/
  | hart
  deriving DecidableEq

/-- What an act makes of the state and of the session `w` that it acted on: a read or write that stands still is waited for. -/
def finishAct (s : State) (gc : Nat) (w : Tow) : Act → Out
  | .done t w2 => .next (setTow t gc w2)
  | .wait => .next (setTow s gc { w with waits := true })
  | .stop c =>
    let q := hartQOf (seqHart gc)
    if isWait c then .next (setTow (noteStall s q c) gc { w with waits := true })
    else .next (setTow (forgetStalls s q c) gc { w with fail := some c })
  | .hart => .next (sequencerFault s gc SCHED_TAG)

/-- One block step at cluster `a`: the block at cb is read and checked, and acts where its opcode is `op` (R362, R373). -/
def towStep (op : Nat) (act : State → Nat → Tow → List Word → List Byte → Act) (s : State) : Out :=
  let gc := s.inp.a
  match (s.pontoon gc).tow with
  | none => .next s
  | some w =>
    if towMoves s gc w = false ∨ w.hdr ≠ [] then .next s
    else
      let (s1, h, r) := readBlock s gc w
      let w1 := { w with seq := hSeq h }
      match r with
      | .error c =>
        if isWait c then finishAct s gc w (.stop c)
        else if h = [] ∨ c = TOW_CHECK ∨ (c ≠ RESERVED_FIELD ∧ c ≠ TOW_BLOCK_OPCODE) ∨ hBop h = op ∨ (op = 0 ∧ c = TOW_BLOCK_OPCODE) then
          .next (setTow s1 gc { w1 with fail := some c })
        else .next s
      | .ok body =>
        if hBop h ≠ op then .next s
        else finishAct s1 gc w1 (act s1 gc w1 h body)

/-- TOW_RESERVED_BLOCK (R67, R362): a block whose opcode is reserved. -/
def execTowReservedBlock (s : State) : Out := towStep 0 (fun _ _ _ _ _ => .wait) s

/-! ### WTILE (R363) -/

/-- One chunk of a payload of codec 1 (R279, R363): the source after it, and the bytes decoded so far. -/
def tileChunk (b d wdc : Nat) (src : List Byte) (out : List Nat) : Except Nat (List Byte × List Nat) :=
  if bits (src.headD 0).toNat 4 1 ≠ b then .error CODEC_CHECK
  else
    let o := decode src LENGTH_VIOLATION (d - out.length) wdc
    match o.fail with
    | some f => .error f.status
    | none => .ok (src.drop o.clen, out ++ o.bytes)

/-- The decoded bytes of a payload of codec 1: chunks back to back (R279, R363). -/
def decodeTile (b d wdc : Nat) (src : List Byte) (out : List Nat) : Nat → Except Nat (List Nat)
  | 0 => .error LENGTH_VIOLATION
  | fuel + 1 =>
    if src = [] then (if out.length = d then .ok out else .error LENGTH_VIOLATION)
    else match tileChunk b d wdc src out with
      | .error c => .error c
      | .ok (rest, out') => decodeTile b d wdc rest out' fuel

/-- The tile W from decoded bytes (R69, R363): zero outside its rows and columns. -/
def tileOf (h : List Word) (bs : List Nat) : List Int :=
  (upTo 1024).map fun k =>
    let i := k / 32
    let j := k % 32
    if hRows h ≤ i ∨ hCols h ≤ j then 0
    else
      let e := i * hCols h + j
      if hFmt h = 5 then sextNat (bs.getD e 0) 8 else sextNat (bits (bs.getD (e / 2) 0) (4 * (e % 2)) 4) 4

/-- The tile of a WTILE block of which `out` has been decoded and `src` is left, or its failure. -/
def wtileFrom (s : State) (gc : Nat) (h : List Word) (src : List Byte) (out : List Nat) : Except Nat (List Int) :=
  let raw : Except Nat (List Nat) := if hCodec h = 0 then .ok (src.map BitVec.toNat)
    else decodeTile (if hFmt h = 5 then 1 else 0) (tileBytes h) (s.cluster gc).xwd src out (src.length + 1)
  match raw with
  | .error c => .error c
  | .ok bs => if hFmt h = 5 ∧ bs.contains 0x80 = true then .error WEIGHT_CODE else .ok (tileOf h bs)

/-- The tile of a WTILE block, or its failure. -/
def wtile (s : State) (gc : Nat) (h : List Word) (body : List Byte) : Except Nat (List Int) := wtileFrom s gc h body []

/-- What has been decoded of a WTILE in progress: the payload left, and the bytes. -/
def Tow.decoded (w : Tow) (body : List Byte) : List Byte × List Nat :=
  match w.dec with
  | none => (body, [])
  | some (n, out) => (body.drop n, out)

/-- A WTILE that the transform unit decodes (R272, R363): while a core slot waits too, chunk by chunk in turns with it; else all that
is left. -/
def wtileAct (s : State) (gc : Nat) (w : Tow) (h : List Word) (body : List Byte) : Act :=
  let x := w.decoded body
  let keep := fun (rest : List Byte) (out : List Nat) =>
    { w with hdr := h, pay := body, dec := some (body.length - rest.length, out), waits := false }
  if hCodec h = 1 ∧ coreWaits s gc = true ∧ x.1 ≠ [] then
    if (s.cluster gc).xturn then .done s (keep x.1 x.2)
    else match tileChunk (if hFmt h = 5 then 1 else 0) (tileBytes h) (s.cluster gc).xwd x.1 x.2 with
      | .error c => .stop c
      | .ok (rest, out) => .done (s.modCluster gc fun c => { c with xturn := true }) (keep rest out)
  else match wtileFrom s gc h x.1 x.2 with
    | .error c => .stop c
    | .ok t => .done s ({ w with shadow := some t, lwt := some w.cb }.advance (succOf w h))

/-- A block step that may leave its block in progress: what it has read of it stands in the session (R373). -/
def blockStep (op : Nat) (act : State → Nat → Tow → List Word → List Byte → Act) (s : State) : Out :=
  match (s.pontoon s.inp.a).tow with
  | none => .next s
  | some w =>
    if w.hdr ≠ [] ∧ hBop w.hdr = op then
      if towMoves s s.inp.a w then finishAct s s.inp.a w (act s s.inp.a w w.hdr w.pay) else .next s
    else towStep op act s

/-- TOW_WTILE (R363). -/
def execTowWtile (s : State) : Out := blockStep 1 wtileAct s

/-! ### RUN, PROMOTE, SYNC (R364, R365, R369) -/

/-- The vectors of a RUN: what has been read of them, and `c` lines more, or with `c` 0 all that are left; or a landing stage. -/
def runSource (s : State) (gc : Nat) (w : Tow) (h : List Word) (have_ : List Byte) : Fetched :=
  let len := 32 * w.depth
  if hA h 0 = 0 then acquireStage s gc (opRing (hA h 1)) (opIter (hA h 1)) len
  else if have_.length = len then .data s have_
  else fetchSome s gc w.cap (hA h 0) len s.inp.c have_

/-- TOW_RUN (R364): once its vectors are there, `w` slots of the block stream, or with `w` 0 all that are left; the session may stop
between two slots (R374). -/
def runAct (s : State) (gc : Nat) (w : Tow) (h : List Word) (_ : List Byte) : Act :=
  match runSource s gc w h w.pay with
  | .wait => .wait
  | .tag => .hart
  | .fault c => .stop c
  | .some s1 bs => .done s1 { w with hdr := h, pay := bs, waits := false }
  | .data s1 bs =>
    let bank := w.shadow.getD w.bank
    let drift := (s.pontoon gc).drift
    let xs := fun b => ((bs.drop (32 * b)).take 32).map BitVec.toNat
    let total := slotCount w.split w.depth
    let done := if w.ph = 1 then w.sub else 0
    let upto := if s.inp.w = 0 then total else min total (done + s.inp.w.toNat)
    let n := streamSlots bank w.split w.gain w.shift w.depth (codeBound drift) s1.freeCtr xs done upto w.n
    let s2 := { s1 with freeCtr := s1.freeCtr + streamFree w.split w.depth }
    let w2 := { w with bank := bank, shadow := none, n := n, worst := max w.worst (min drift 1) }
    if upto < total then .done s2 { w2 with hdr := h, pay := bs, ph := 1, sub := upto, waits := false }
    else
      let s3 := if hA h 0 = 0 then engineRelease s2 gc (opRing (hA h 1)) (opIter (hA h 1)) else s2
      .done s3 ({ w2 with runs := w.runs + 1 }.advance (succOf w h))

/-- TOW_RUN (R364). -/
def execTowRun (s : State) : Out := blockStep 2 runAct s

/-- The scales of a PROMOTE (R325, R365): one for every row, or a table of words aligned to 4. -/
def towScales (s : State) (gc : Nat) (w : Tow) (h : List Word) : Except Nat (State × List Nat) :=
  if hA h 1 = 0 then .ok (s, List.replicate 32 (fld (hA h 0) 0 32))
  else
    (upTo 32).foldl (fun acc i => match acc with
      | .error c => .error c
      | .ok (s1, xs) =>
        match engRead s1 (hartQOf (seqHart gc)) w.cap.vf w.cap.win (hA h 0 + BitVec.ofNat 64 (4 * i)) 4 4 with
        | .error c => .error c
        | .ok (s2, x) => .ok (s2, xs ++ [x])) (.ok (s, []))

/-- TOW_PROMOTE (R365). -/
def execTowPromote (s : State) : Out :=
  towStep 3 (fun s gc w h _ =>
    if w.out ≠ [] then .wait
    else match towScales s gc w h with
      | .error c => .stop c
      | .ok (s1, sc) =>
        let (a, f) := promoteAll w.n w.a w.depth w.gain w.shift w.u w.cap.ctl (fun i => sc.getD i 0) fun _ => 0
        .done s1 ({ w with a := a, n := [], u := w.u + 1, flags := w.flags ||| f }.advance (succOf w h))) s

/-- TOW_SYNC (R369): the drain barrier, then a stage or the Tide counter. -/
def execTowSync (s : State) : Out :=
  towStep 6 (fun s gc w h _ =>
    let a1 := hA h 1
    if w.out ≠ [] then .wait
    else if hA h 0 = 1 then (if a1.toNat ≤ s.tide.toNat then .done s (w.advance (succOf w h)) else .wait)
    else match acquireStage s gc (opRing a1) (opIter a1) 0 with
      | .data s1 _ | .some s1 _ => .done (engineRelease s1 gc (opRing a1) (opIter a1)) (w.advance (succOf w h))
      | .wait => .wait
      | .tag => .hart
      | .fault c => .stop c) s

/-! ### Routes and DRAIN (R366 to R368) -/

/-- The timetable entry of a Ford route, read and checked by the tow reader (R366). -/
def fordRoute (s : State) (gc : Nat) (w : Tow) (att v : Nat) : Except Nat (State × List Word) :=
  let p := s.ford att
  if p.enr ≠ some (w.cap.vf, w.cap.ln) then .error FORD_ENROL
  else if p.nent ≤ v then .error FORD_TIMETABLE
  else match pontoonRead s gc w.cap (p.base + BitVec.ofNat 64 (64 * v)) 64 with
    | .error c => .error c
    | .ok (s1, bs) =>
      let e := wordsOf bs 8
      let j : FordJob := { ent := e }
      if fld (e.getD 0 0) 0 8 = 1 ∧ j.tow = true ∧ j.kind = 0 ∧ j.etype = 0 ∧ j.nel = 32 ∧ (e.getD 5 0).toNat % 16 = 0 ∧
          (e.getD 5 0).toNat < 2 ^ 48 then .ok (s1, e)
      else .error FORD_TIMETABLE

/-- The route a DRAIN uses (R367): its own, or the current one; the value counts the rows already landed in its own. -/
def drainRoute (w : Tow) (h : List Word) : Nat × Nat × Nat :=
  if hRk h = 0 then (w.rk, w.rs, w.rv)
  else (hRk h, hRs h, if hRk h = 3 then (fld (hA h 0) 0 16 + w.sub) % 2 ^ 16 else fld (hA h 0) 0 16)

/-- A row has left: the next one, or the block's end (R367). -/
def rowGone (w : Tow) : Tow :=
  let w1 := { w with sub := w.sub + 1, waits := false }
  if w1.sub < w.depth then w1
  else { w1.advance (succOf w w.hdr) with fords := if (drainRoute w w.hdr).1 = 4 then w.fords + 1 else w.fords }

/-- Row `w.sub` is written at scratchpad byte `o`, which the session notes (R380). -/
def Tow.delivered (w : Tow) (o : Nat) : Tow :=
  { w.clearRow w.sub with dest := w.dest.filter (fun d => d.1 != o) ++ [(o, w.rowBytes w.sub, [])] }

/-- The next row of a DRAIN in progress to a landing stage or to the scratchpad (R366). -/
def deliverRow (s : State) (gc : Nat) (w : Tow) : Option (State × Tow) :=
  let (k, sel, v) := drainRoute w w.hdr
  if k = 3 then
    let x := ringOf s gc sel
    let st := v % x.nst
    if !x.writable st then none
    else
      let s1 := modRing (performAt s (spKey gc (x.base st)) (w.rowBytes w.sub)) gc sel fun x => x.fill st v
      some (s1, rowGone { w.delivered (x.base st) with rv := if hRk w.hdr = 0 then (w.rv + 1) % 2 ^ 16 else w.rv })
  else some (performAt s (spKey gc (128 * (v + w.sub))) (w.rowBytes w.sub), rowGone (w.delivered (128 * (v + w.sub))))

/-- The start of a DRAIN: its header is kept, and a Ford route is checked (R366, R367). -/
def beginDrain (s : State) (gc : Nat) (w : Tow) (h : List Word) : Except Nat (State × Tow) :=
  let w1 := { w with hdr := h, ph := 2, sub := if w.ph = 2 then w.sub else 0 }
  let (k, sel, v) := drainRoute w1 h
  if k ≠ 4 then .ok (s, w1)
  else if hRk h = 0 ∧ w.fordAt ≠ [] then .ok (s, { w1 with drainFord := w.fordAt })
  else match fordRoute s gc w sel v with
    | .error c => .error c
    | .ok (s1, e) => .ok (s1, { w1 with drainFord := e })

/-- One row to a stage or to the scratchpad, if the route is one of those; a row that cannot leave waits. -/
def drainOne (s : State) (gc : Nat) (w : Tow) : State × Tow :=
  let k := (drainRoute w w.hdr).1
  if k = 3 ∨ k = 5 then (deliverRow s gc w).getD (s, { w with waits := true }) else (s, w)

/-- TOW_DRAIN (R367): the block begins, or its next row is delivered. Rows to handlers leave by ROW_DISPATCH, rows to a
Ford port by FORD_TOW_HANDOVER. -/
def execTowDrain (s : State) : Out :=
  let gc := s.inp.a
  match (s.pontoon gc).tow with
  | none => .next s
  | some w =>
    if w.hdr ≠ [] then
      if towMoves s gc w ∧ w.ph = 2 then
        let (s1, w1) := drainOne s gc w
        .next (setTow s1 gc w1)
      else .next s
    else towStep 4 (fun s gc w h _ =>
      match beginDrain s gc w h with
      | .error c => .stop c
      | .ok (s1, w1) =>
        let (s2, w2) := drainOne s1 gc w1
        .done s2 w2) s

/-- The next row of a session's DRAIN goes to a handler (R332, R333, R366). -/
def dispatchTowRow (s : State) (gc : Nat) (w : Tow) : State :=
  if w.hdr = [] ∨ w.ph ≠ 2 ∨ towMoves s gc w = false ∨ (drainRoute w w.hdr).1 ≠ 2 then s
  else if 8 ≤ rowsOutstanding (s.pontoon gc) then setTow s gc { w with waits := true }
  else
    let r := { w.cap with rid := w.req.rid }
    match rowTarget s gc r with
    | none => setTow s gc { w with waits := true }
    | some g =>
      match bindRow s gc ((w.cap.dw 4).getLsbD 4) (fld (w.cap.dw 4) 0 4) w.sub with
      | none => setTow s gc { w with waits := true }
      | some (s1, land) =>
        setTow (startHandler s1 g gc w.sub r w.a r.rid (w.cap.dw 2) (w.cap.dw 3) land true) gc
          (rowGone { w with out := w.out ++ [w.sub] })

/-- The next row of the job or session of cluster `gc` goes to a handler, if one is due and can (R332, R366). -/
def dispatchRow (s : State) (gc : Nat) : State :=
  let po := s.pontoon gc
  if (s.proc (hartQOf (seqHart gc))).stopped then s
  else match po.tow, po.job with
    | some w, _ => dispatchTowRow s gc w
    | none, some j => dispatchJobRow s gc j
    | none, none => s

/-- ROW_DISPATCH (R332, R366): the next row of the job or session of cluster `a`. -/
def execRowDispatch (s : State) : Out := .next (dispatchRow s s.inp.a)

/-- The collective of row `b` of a session (R406). -/
def towCollective (s : State) (w : Tow) (att b v : Nat) : Request :=
  let e := w.drainFord
  let tdst := e.getD 5 0 + BitVec.ofNat 64 (144 * b)
  { op := 0xB1, sel := v, q := w.cap.q, vf := w.cap.vf, ln := w.cap.ln, rid := w.req.rid, mode := w.cap.mode, fcsr := w.cap.fcsr
    srseed := w.cap.srseed, srctr := w.cap.srctr ^^^ BitVec.ofNat 64 (2 ^ 63), base := (s.ford att).base
    toMem := some (tdst + 128), iter := 32 * b + 2048 * (w.fords % 32)
    args := [0, tdst, 0, 0, e.getD 6 0 + BitVec.ofNat 64 (fld (e.getD 7 0) 0 32 * b)] ++
      (upTo 32).map fun i => BitVec.ofNat 64 (w.a.get (64 * i + b) 0) }

/-- FORD_TOW_HANDOVER (R406): the next row of a Ford-routed DRAIN of cluster `a` is taken by the port engine. -/
def execFordTowHandover (s : State) : Out :=
  let gc := s.inp.a
  match (s.pontoon gc).tow with
  | none => .next s
  | some w =>
    let (k, sel, v) := drainRoute w w.hdr
    if w.hdr = [] ∨ w.ph ≠ 2 ∨ towMoves s gc w = false ∨ k ≠ 4 then .next s
    else if queueFull s (fordHart sel) then .next (setTow s gc { w with waits := true })
    else .next (setTow (acceptKick s (fordHart sel) (towCollective s w sel w.sub v)) gc (rowGone (w.clearRow w.sub)))

/-- TOW_ROUTE (R368). -/
def execTowRoute (s : State) : Out :=
  towStep 5 (fun s gc w h _ =>
    let w1 := { w with rk := hRk h, rs := hRs h, rv := fld (hA h 0) 0 16, fordAt := [] }
    if hRk h ≠ 4 then .done s (w1.advance (succOf w h))
    else match fordRoute s gc w (hRs h) (fld (hA h 0) 0 16) with
      | .error c => .stop c
      | .ok (s1, e) => .done s1 ({ w1 with fordAt := e }.advance (succOf w h))) s

/-! ### BRANCH, CALL, RET, EXIT (R370 to R372) -/

/-- TOW_BRANCH (R370). -/
def execTowBranch (s : State) : Out :=
  towStep 7 (fun s gc w h _ =>
    if w.out ≠ [] then .wait
    else
      let flag := s.natAt (spKey gc (hA h 0).toNat) 8
      .done s (w.advance (if flag ≠ 0 then (linkTarget w.cb (hPlen h) (hA h 1)).getD 0 else succOf w h))) s

/-- TOW_CALL (R371). -/
def execTowCall (s : State) : Out :=
  towStep 8 (fun s _ w h _ =>
    if 8 ≤ w.stack.length then .stop TOW_STACK
    else .done s ({ w with stack := w.stack ++ [succOf w h] }.advance ((linkTarget w.cb (hPlen h) (hA h 0)).getD 0))) s

/-- TOW_RET (R371). -/
def execTowRet (s : State) : Out :=
  towStep 9 (fun s _ w _ _ =>
    match w.stack.getLast? with
    | none => .stop TOW_STACK
    | some t => .done s ({ w with stack := w.stack.dropLast }.advance t)) s

/-- TOW_EXIT_BLOCK (R372): the drain barrier, then the session ends with DONE. -/
def execTowExitBlock (s : State) : Out :=
  towStep 10 (fun s _ w _ _ =>
    if w.out ≠ [] then .wait else .done s { w with st := 3, done := some DONE, blocks := w.blocks + 1, waits := false }) s

/-! ### Stops, parks, completion (R374, R377, R380) -/

/-- A stop for a fault (R374): the restart record is written and the session is stopped; where it cannot be written the
session ends with that write's code. -/
def stopTow (s : State) (gc : Nat) (w : Tow) (c : Nat) : State :=
  match writeRestart s gc w c with
  | .error e =>
    if isWait e then noteStall s (hartQOf (seqHart gc)) e else setTow s gc { w.atBoundary with st := 3, done := some e, fail := none }
  | .ok (s1, w1) => setTow s1 gc { w1.atBoundary with st := 2, status := c, done := some c, fail := none }

/-- TOW_STOP (R374, R381): a session that has failed stops; one that TOW.EXIT has reached ends CANCELLED. -/
def execTowStop (s : State) : Out :=
  let gc := s.inp.a
  match (s.pontoon gc).tow with
  | none => .next s
  | some w =>
    match w.fail, w.done with
    | some c, none => if w.st = 0 then .next (stopTow s gc w c) else .next s
    | none, none => if w.leaving ∧ w.st ≤ 1 then .next (setTow s gc { w.atBoundary with st := 3, done := some CANCELLED }) else .next s
    | _, some _ => .next s

/-- The session writes its restart record with status 0; where it cannot, it ends with the write's code (R374, R377,
R378). -/
def parkTow (s : State) (gc : Nat) (w : Tow) : State × Bool :=
  match writeRestart s gc w 0 with
  | .error e =>
    if isWait e then (noteStall s (hartQOf (seqHart gc)) e, false)
    else (setTow s gc { w.atBoundary with st := 3, done := some e }, false)
  | .ok (s1, w1) => (setTow s1 gc w1.atBoundary, true)

/-- TOW_PARK (R377, R378): at a block boundary for a retune, which raises DRIFT_RETUNE; at any sub-tile boundary for a
pre-emption. -/
def execTowPark (s : State) : Out :=
  let gc := s.inp.a
  let po := s.pontoon gc
  match po.tow with
  | none => .next s
  | some w =>
    if w.st ≠ 0 ∨ w.fail.isSome ∨ w.done.isSome ∨ w.leaving = true ∨ (s.proc (hartQOf (seqHart gc))).stopped then .next s
    else if po.preempt then .next (parkTow s gc w).1
    else if 2 ≤ po.drift ∧ w.ph = 0 then
      match parkTow s gc w with
      | (t, false) => .next t
      | (t, true) =>
        .next (raiseDrift (t.modPontoon gc fun po => { po with
          drift := 3, round := 0, tow := po.tow.map fun w => { w with st := 1, parkedOnce := true } }) gc DRIFT_RETUNE)
    else .next s

/-- A session that stops or ends other than DONE leaves the rows it has delivered undefined (R8, R380): free values. -/
def leaveSession (s : State) (gc : Nat) (w : Tow) : State × Tow :=
  w.dest.foldl (fun x d =>
    let bs := leBytes 128 (Config.freeNat x.1.freeCtr)
    (performAt { x.1 with freeCtr := x.1.freeCtr + 1 } (spKey gc d.1) bs, { x.2 with dest := x.2.dest ++ [(d.1, d.2.1, bs)] }))
    (s, { w with dest := [] })

/-- The completions that a session owes are stored (R358, R373). -/
def payOwed (s : State) (gc : Nat) (w : Tow) : State := w.owed.foldl (fun s e => post s (seqHart gc) e.1 e.2) s

/-- The completion of a session whose handlers have ended: one that has ended is gone, a stopped one stays unless TOW.EXIT has
reached it. -/
def completeTow (s : State) (gc : Nat) (w : Tow) (c : Nat) : State :=
  let x := if c = DONE then (s, w) else leaveSession s gc w
  let s1 := post (payOwed x.1 gc w) (seqHart gc) w.req (towFrame w c)
  if w.st = 2 ∧ w.leaving = false then setTow s1 gc { x.2 with done := none, owed := [] } else dropTow s1 gc

/-- TOW_COMPLETION (R373, R380): once every handler has ended, and every write to another package is acknowledged (R425), the
completion is stored; a restart record that is lost ends the session with that fault (R374). -/
def execTowCompletion (s : State) : Out :=
  let gc := s.inp.a
  let q := hartQOf (seqHart gc)
  match (s.pontoon gc).tow with
  | none => .next s
  | some w =>
    if handlerLive s gc (·.tow) || !storesDone s q 2 then .next s
    else match w.done with
      | none => .next (if w.owed = [] then s else setTow (payOwed s gc w) gc { w with owed := [] })
      | some c =>
        if storesLost s q 2 then .next (completeTow (dropStores s q 2) gc { w with st := 3 } NODE_UNREACHABLE)
        else .next (completeTow (dropStores s q 2) gc w c)

/-! ### TOW.EXIT, TOW.WAIT, TOW.STAT (R381 to R383) -/

/-- A TOW.ENTER of a context of core `g` with an identifier. -/
def isTowOf (g : Nat) (rid : Word) (r : Request) : Bool := isTow r && coreOf r.q == g && r.rid == rid

/-- It is queued, or names the session of the cluster. -/
def towQueued (s : State) (g : Nat) (rid : Word) : Bool := (s.engine (seqHart (g / 8))).queue.any (isTowOf g rid)
def towNamed (s : State) (g : Nat) (rid : Word) : Option Tow :=
  match (s.pontoon (g / 8)).tow with
  | some w => if isTowOf g rid w.req then some w else none
  | none => none

/-- TOW.EXIT's effect on what the identifier names (R381). -/
def exitTow (g : Nat) (rid : Word) (s : State) : State :=
  let gc := g / 8
  match (s.engine (seqHart gc)).queue.find? (isTowOf g rid) with
  | some r => refuseTow (s.modEngine (seqHart gc) fun e => { e with queue := e.queue.erase r }) gc r CANCELLED
  | none =>
    match towNamed s g rid with
    | none => s
    | some w => if w.st = 2 ∧ w.done.isNone then dropTow s gc else setTow s gc { w with leaving := true }

/-- TOW.EXIT (R381). -/
def execTowExit (a b : BitVec 6) (s : State) : Out :=
  runHead (.towExit a b) (do
    let rid ← gr b
    if fld rid 20 44 ≠ 0 then illegalOperand
    let g := coreOf (← get).cur
    waitGone a (fun s => towQueued s g rid || (towNamed s g rid).isSome) (kickCancel (seqHart (g / 8)) (exitTow g rid))
      (some (rid + BitVec.ofNat 64 (2 ^ 32)))) s

/-- The request is outstanding: its completion has not been stored (R382). -/
def towOutstanding (s : State) (g : Nat) (rid : Word) : Bool :=
  towQueued s g rid || (match towNamed s g rid with
    | none => false
    | some w => decide (w.st ≠ 2) || w.done.isSome) ||
  match (s.pontoon (g / 8)).tow with
  | none => false
  | some w => w.owed.any fun e => isTowOf g rid e.1

/-- TOW.WAIT (R382). -/
def execTowWait (a b : BitVec 6) (s : State) : Out :=
  runHead (.towWait a b) (do
    let rid ← gr b
    if fld rid 20 44 ≠ 0 then illegalOperand
    let g := coreOf (← get).cur
    waitGone a (fun s => towOutstanding s g rid) (pure ()) none) s

/-- The state word of TOW.STAT (R383). -/
def towStat (s : State) (g : Nat) (rid : Word) : Nat :=
  if towQueued s g rid then 1
  else match towNamed s g rid with
    | none => 0
    | some w =>
      let st := match w.st with
        | 0 => if w.waits then 3 else 2
        | 1 => 4
        | 2 => 5
        | _ => 3
      st + 2 ^ 4 * w.stack.length + 2 ^ 8 * w.sub + 2 ^ 16 * w.seq + 2 ^ 32 * (if w.st = 2 then w.status else 0) + 2 ^ 40 * (w.u % 2 ^ 16)

/-- TOW.STAT (R383). -/
def execTowStat (a b : BitVec 6) (s : State) : Out :=
  runHead (.towStat a b) (do
    let rid ← gr b
    if fld rid 20 44 ≠ 0 then illegalOperand
    let s ← get
    writeNext 2 a (BitVec.ofNat 64 (towStat s (coreOf s.cur) rid))) s

end Sys2Proof.Machine
end

