-- ==== Sys2Proof/Machine/Links.lean ====
section
/-!
DEFINITION. Links, routes and remote accesses under way (R420 to R426), Tide alignment (R427, R428), switch timetables and
re-forming (R429 to R434), link health (R436 to R438) and the Pilots (R439, R440).

Marks (notes/assumptions): DEDUCED (unsafe) 23, 25, 47, 54; DEDUCED (safe) 24, 55, 56; DESIGN CHOICE (safe) 48; DESIGN
CHOICE (unsafe) 62.
-/

namespace Sys2Proof.Machine

namespace State
def pilot (s : State) (p : Nat) : Pilot := s.pilots.get p {}
def modPilot (s : State) (p : Nat) (f : Pilot → Pilot) : State := { s with pilots := s.pilots.put p (f (s.pilot p)) }
end State

/-- The hart index of a Pilot (R22). -/
def pilotHart (p : Nat) : Nat := 13457 + p
/-- Point-link ports and Pilots of the package (R12, R17). -/
def portCount : Nat := 48
def pilotCount : Nat := 64

/-! ### Packets (R422, R424, R425) -/

/-- Removes the first entry of a list that `p` picks. -/
def removeFirst {α : Type} (p : α → Bool) : List α → List α
  | [] => []
  | x :: xs => if p x then xs else x :: removeFirst p xs

/-- A remote store of agent `q` at `va` is acknowledged (R425). -/
def ackStore (s : State) (q : Nat) (va : Word) : State :=
  s.modProc q fun p => { p with remoteOut := removeFirst (fun e => e.va == va && !e.lost) p.remoteOut }

/-- Marks the oldest store at `va` that is neither acknowledged nor lost. -/
def markLost (va : Word) : List RemoteStore → List RemoteStore
  | [] => []
  | e :: es => if e.va == va && !e.lost then { e with lost := true } :: es else e :: markLost va es

/-- A remote store of agent `q` at `va` is lost (R425). -/
def loseStore (s : State) (q : Nat) (va : Word) : State :=
  s.modProc q fun p => { p with remoteOut := markLost va p.remoteOut }

/-- An answer reaches the head of agent `q` that waits for it since `since` (R424). -/
def answerTo (s : State) (q : Nat) (va since : Word) (v : Nat) : State :=
  match (s.proc q).wait with
  | .remote t true ans a =>
    if a = va ∧ t = since then s.modProc q fun p => { p with wait := .remote s.tide false (ans ++ [v]) a } else s
  | _ => s

/-- A reply reaches its agent (R424, R425); the negative acknowledgement of an access that waits for an answer does not
shorten its wait. -/
def deliverReply (s : State) (p : Packet) : State :=
  match p.kind with
  | .answer v => answerTo s p.agent p.va p.since v
  | .refused => answerTo s p.agent p.va p.since 1
  | .ack => ackStore s p.agent p.va
  | .nack true => loseStore s p.agent p.va
  | _ => s

/-- A packet of this package leaves by the active bank, is held, or is dropped where its node is unreachable; a reply to this
package itself is delivered by entry port 63. -/
def route (s : State) (p : Packet) : State :=
  if heldFor s p.dest then { s with fab := { s.fab with held := s.fab.held ++ [p] } }
  else match routeOf (activeBank s) p.dest with
    | none => s
    | some 63 => deliverReply s p
    | some port =>
      if portSends s port then sendPacket s port { p with hops := p.hops + 1 }
      else { s with fab := { s.fab with held := s.fab.held ++ [p] } }

/-- The reply to a packet, along the routes now active. -/
def reply (s : State) (p : Packet) (k : PacketKind) : State :=
  route s { p with dest := p.src, src := s.fab.node, hops := 0, kind := k }

/-- A packet is dropped: a negative acknowledgement goes back to its source, and is counted at the port it leaves by
(R422, R438). Replies are dropped without one. -/
def dropPacket (s : State) (p : Packet) : State :=
  match p.kind with
  | .answer _ | .ack | .nack _ | .refused => s
  | k =>
    let s1 := match routeOf (activeBank s) p.src with
      | some port => s.modPort port fun c => { c with nacks := satAdd (2 ^ 32 - 1) c.nacks 1 }
      | none => s
    reply s1 p (.nack (match k with
      | .store _ => true
      | _ => false))

/-- A packet for this package (R422): a request is performed at its owning slice and answered; a reply reaches its agent.
None while a qx queue has no space. -/
def deliver (s : State) (p : Packet) : Option State :=
  match p.kind with
  | .answer _ | .ack | .nack _ | .refused => some (deliverReply s p)
  | .store _ =>
    match serveMem s p.src p.addr p.kind with
    | (some _, t) => some (reply t p .ack)
    | (none, _) => some (dropPacket s p)
  | .push vcl core port xid item =>
    match vcore s p.vf vcl core with
    | none => some (reply s p .refused)
    | some g =>
      match serveQx s p.src g port xid item with
      | none => none
      | some (true, t) => some (reply t p (.answer 0))
      | some (false, _) => some (reply s p .refused)
  | _ =>
    match serveMem s p.src p.addr p.kind with
    | (some v, t) => some (reply t p (.answer v))
    | (none, _) => some (dropPacket s p)

/-- A packet at this package: held, dropped, delivered or sent on (R422, R433). None while it cannot be delivered. -/
def forward (s : State) (p : Packet) : Option State :=
  if heldFor s p.dest then some { s with fab := { s.fab with held := s.fab.held ++ [p] } }
  else if 16 ≤ p.hops then some (dropPacket s p)
  else match routeOf (activeBank s) p.dest with
    | none => some (dropPacket s p)
    | some 63 => deliver s p
    | some _ => some (route s p)

/-- Held packets are looked up again, oldest first (R433, R424). -/
def flushHeld (s : State) : State :=
  s.fab.held.foldl (fun t p => match forward t p with
    | some u => u
    | none => { t with fab := { t.fab with held := t.fab.held ++ [p] } }) { s with fab := { s.fab with held := [] } }

/-- What a packet from outside asks for: a code and its arguments. -/
def kindOf (c : Nat) (xs : List Nat) (bs : List Byte) : PacketKind :=
  let x := fun i => xs.getD i 0
  match c with
  | 0 => .load (x 0)
  | 1 => .store bs
  | 2 => .atomic (x 0) (x 1) (x 2) (x 3)
  | 3 => .push (x 0) (x 1) (x 2) (x 3) (BitVec.ofNat 64 (x 4))
  | 4 => .answer (x 0)
  | 5 => .ack
  | 6 => .nack (decide (x 0 ≠ 0))
  | _ => .refused

/-- A port that takes what its peer sends: up or draining (R420). -/
def portTakes (s : State) (p : Nat) : Bool := decide (p < portCount) && ((s.port p).st == 2 || (s.port p).st == 3)

/-- PACKET_FORWARD (R422): a packet arrives by port `a` for node `b` from node `c`; `w` is its address; `ints` holds the kind, the
requester, the hop count, the virtual address, the agent, the issue cycle and the function that a reply or a push names, and the
arguments. Kinds 8 and 9 are the peer's drain marker and its acknowledgement of this port's (R432). -/
def execPacketForward (s : State) : Out :=
  let xs := s.inp.ints.map Int.toNat
  let p : Packet := { dest := s.inp.b, src := s.inp.c, requester := xs.getD 1 0, addr := s.inp.w.toNat, hops := xs.getD 2 0
                      va := BitVec.ofNat 64 (xs.getD 3 0), agent := xs.getD 4 0, since := BitVec.ofNat 64 (xs.getD 5 0)
                      vf := xs.getD 6 0, kind := kindOf (xs.getD 0 0) (xs.drop 7) s.inp.bytes }
  if portTakes s s.inp.a then
    if xs.getD 0 0 = 8 then .next (s.modPort s.inp.a fun x => { x with peerDrained := true })
    else if xs.getD 0 0 = 9 then .next (s.modPort s.inp.a fun x => { x with drainAcked := true })
    else match forward s p with
      | some t => .next t
      | none => .next s
  else .next s

/-- REMOTE_ACCESS_TIMEOUT (R424): the remote access of agent `a` has waited tmo cycles. -/
def execRemoteAccessTimeout (s : State) : Out :=
  let q := s.inp.a
  match (s.proc q).wait with
  | .remote since _ _ va =>
    if s.fab.tmo ≤ s.tide.toNat - since.toNat then
      .next (trapHead { s with cur := q } [(q, NODE_UNREACHABLE, va)] (s.proc q).r.pc)
    else .next s
  | _ => .next s

/-- REMOTE_STORE_ACK (R425): the store of agent `a` at `w` is acknowledged. -/
def execRemoteStoreAck (s : State) : Out := .next (ackStore s s.inp.a s.inp.w)

/-- REMOTE_STORE_LOST (R425): the store of agent `a` at `w` is lost: by a negative acknowledgement (`b` is 1), or because
tmo cycles have passed since it was sent. -/
def execRemoteStoreLost (s : State) : Out :=
  let old := (s.proc s.inp.a).remoteOut.any fun e => e.va == s.inp.w && !e.lost &&
    decide (s.fab.tmo ≤ s.tide.toNat - e.sent.toNat)
  if s.inp.b = 1 ∨ old = true then .next (loseStore s s.inp.a s.inp.w) else .next s

/-- ROUTE_COMMIT (R423): the banks swap, and packets held for want of a route are looked up again. -/
def execRouteCommit (s : State) : Out := .next (flushHeld (routeSwap s))

/-! ### RTV and the Tide (R134, R426 to R428) -/

/-- tsync of R428: on the reference node itself, or near the reference by a path of up links, at the same clock. -/
def tsyncOf (s : State) : Bool :=
  let f := s.fab
  f.trefEn && (f.node == f.rnode || (f.near && f.refFull == s.full && f.syncPorts.any fun p => (s.port p).st == 2))

/-- RTV (R426). -/
def execRtv (a : BitVec 6) (s : State) : Out :=
  runHead (.rtv a) (do
    let s ← get
    let armed := s.switches.any fun e => e.2.st != 0
    writeNext 2 a (BitVec.ofNat 64 (s.fab.ver + 2 ^ 16 * s.fab.node + 2 ^ 28 * b2n armed + 2 ^ 29 * b2n (tsyncOf s)))) s

/-- TIDE_TICK (R134): a cycle passes; `ints` are the 32-byte lines of memory in which it leaves a soft error that their code cannot
correct, which a read will meet (R155, MEM_UNCORRECTABLE). -/
def execTideTick (s : State) : Out :=
  .next { s with tide := s.tide + 1, poison := s.inp.ints.foldl (fun ls l => addLine l.toNat ls) s.poison }

/-- TIDE_SAMPLE (R427, R428): the reference's Tide `w`, sent `a` ticks ago, and its svst.full `c`; `ints` are the ports from
which a path of up links leads to the reference. -/
def execTideSample (s : State) : Out :=
  let d : Int := (s.tide.toNat : Int) - ((s.inp.w.toNat : Int) + s.inp.a)
  .next { s with fab := { s.fab with
    offset := d, near := s.fab.trefEn && decide (d.natAbs ≤ 1), refFull := s.inp.c == 1, syncPorts := s.inp.ints.map Int.toNat } }

/-! ### Switch timetables (R429 to R432) -/

/-- A step record's fields. -/
structure StepRec where
  dt : Nat
  rver : Nat
  ocfg : Nat
  pmask : Nat
  amask : Nat
  dl : Nat
  dk : Nat
  rq : Nat
  deriving DecidableEq, Repr

/-- Doubleword `d` of step `k` of slot `v`. -/
def stepDw (c : Switch) (v k d : Nat) : Word := c.tt.get (136 * v + 8 + 8 * k + d) 0

/-- Step `k` of slot `v` of a switch (R430). -/
def stepOf (c : Switch) (v k : Nat) : StepRec :=
  let d0 := stepDw c v k 0
  let d1 := stepDw c v k 1
  let d2 := stepDw c v k 2
  { dt := fld d0 0 32, rver := fld d0 32 16, ocfg := fld d0 48 16, pmask := fld d1 0 48, amask := fld d1 48 16
    dl := fld d2 0 32, dk := fld d2 32 32, rq := fld (stepDw c v k 3) 0 32 }

/-- The steps of slot `v`. -/
def stepCount (c : Switch) (v : Nat) : Nat := fld (c.tt.get (136 * v) 0) 8 5

/-- The ports of a mask. -/
def portsOf (m : Nat) : List Nat := (upTo portCount).filter fun p => m.testBit p

/-- A well-formed version (R430). -/
def versionOk (s : State) (sw v : Nat) : Bool :=
  let c := s.switch sw
  let h := c.tt.get (136 * v) 0
  let n := stepCount c v
  decide (fld h 0 8 = 1) && decide (1 ≤ n) && decide (n ≤ 16) && decide (fld h 13 51 = 0) &&
  ((upTo 7).all fun d => c.tt.get (136 * v + 1 + d) 0 == 0) && decide ((stepOf c v 0).dt = 0) &&
  (upTo n).all fun k =>
    let r := stepOf c v k
    let nx := stepOf c v (k + 1)
    decide (fld (stepDw c v k 3) 32 32 = 0) && ((upTo 4).all fun d => stepDw c v k (4 + d) == 0) &&
    decide (1024 ≤ r.dl) && decide (1200 ≤ r.dk) && decide (12000 ≤ r.rq) &&
    (decide (k + 1 = n) || decide (r.dt + r.dk + r.rq + nx.dl ≤ nx.dt)) &&
    (portsOf r.pmask).all fun p => (s.port p).swEn && (s.port p).sw == sw

/-- Whether the agent that moves is the Ferryman, which may name any switch or attachment (R431). -/
def isFerryman (s : State) : Bool := isHart s.cur && hartIx s.cur == ferryman

/-- ttsel.sw (R431). -/
def execTtselSw (a b : BitVec 6) (sw : BitVec 4) (v : BitVec 2) (s : State) : Out :=
  runHead (.ttselSw a b sw v) (do
    let t ← gr b
    let s ← get
    let n := sw.toNat
    let c := s.switch n
    if !isFerryman s && !(c.gen && c.gvf == s.me.vf) then throw (.trap ILLEGAL_OPERAND (BitVec.ofNat 64 n))
    let r := stepOf c v.toNat 0
    if c.st ≠ 0 then writeNext 1 a 3
    else if !versionOk s n v.toNat then writeNext 1 a 1
    else if t.toNat < s.tide.toNat + r.dl + 64 then writeNext 1 a 2
    else if s.fab.sver ≠ r.rver then writeNext 1 a 4
    else do
      modify fun s => s.modSwitch n fun c => { c with st := 1, slot := v.toNat, step := 0, armed := t, phase := 0 }
      writeNext 1 a 0) s

/-- ttsel.seg (R431): the version belongs to the segment. -/
def execTtselSeg (a : BitVec 6) (att : BitVec 4) (ttv : BitVec 16) (s : State) : Out :=
  runHead (.ttselSeg a att ttv) (do
    let s ← get
    let n := att.toNat
    if !isFerryman s && !(s.vfOf s.me.vf).fgnt.testBit n then throw (.trap ILLEGAL_OPERAND (BitVec.ofNat 64 n))
    if fordBusy s n then writeNext 1 a 3
    else do
      modify fun s => { s with ttvs := s.ttvs.put (s.seg n).sgid ttv.toNat }
      writeNext 1 a 0) s

/-! ### Re-forming (R432 to R434) -/

/-- The step in hand of a switch and its fire tick F. -/
def stepInHand (s : State) (sw : Nat) : StepRec × Nat :=
  let c := s.switch sw
  let r := stepOf c c.slot c.step
  (r, c.armed.toNat + r.dt)

/-- Changes every port of a mask; a fenced port stays as it is until system software clears it (R420). -/
def modPorts (s : State) (m : Nat) (f : LinkPort → LinkPort) : State :=
  (portsOf m).foldl (fun s p => s.modPort p fun x => if x.st = 6 then x else f x) s

/-- SWITCH_HOLD_DRAIN (R432): at F − D the hold of switch `a`'s step begins. A port queues nothing beyond what it has sent, so its
drain marker goes out at once. The segments of amask are told (R435). -/
def execSwitchHoldDrain (s : State) : Out :=
  let sw := s.inp.a
  let (r, f) := stepInHand s sw
  let c := s.switch sw
  if c.st = 1 ∧ c.phase = 0 ∧ f ≤ s.tide.toNat + r.dl then
    let s1 := modPorts s r.pmask fun p =>
      { p with st := if p.st = 2 then 3 else p.st, drained := true, drainAcked := false }
    let s2 := (upTo 16).foldl (fun s a => if r.amask.testBit a then postReform s [(s.seg a).sgid] (reformTick s a) else s) s1
    .next (s2.modSwitch sw fun c => { c with st := 2, phase := 1 })
  else .next s

/-- A port that has received its peer's drain marker and had its own acknowledged (R432). -/
def quiesced (x : LinkPort) : Bool := x.drained && x.peerDrained && x.drainAcked

/-- SWITCH_DARK (R432): at F the ports of switch `a`'s step go dark and their Pilots send ocfg; `ints` counts the packets not yet
acknowledged across each port, in order, which are dropped; a quiesced port has none. -/
def execSwitchDark (s : State) : Out :=
  let sw := s.inp.a
  let (r, f) := stepInHand s sw
  let c := s.switch sw
  if c.phase = 1 ∧ f ≤ s.tide.toNat then
    let s1 := ((portsOf r.pmask).zip (s.inp.ints ++ List.replicate portCount 0)).foldl (fun s e =>
      (modPorts s (2 ^ e.1) fun p => { p with
        st := 4, lost := if quiesced p then p.lost else satAdd (2 ^ 32 - 1) p.lost e.2.toNat }).modPilot e.1 fun x =>
          { x with ocfg := some (sw, r.ocfg) }) s
    .next (s1.modSwitch sw fun c => { c with phase := 2 })
  else .next s

/-- SWITCH_RELOCK (R432): at F + K the ports of switch `a`'s step train. -/
def execSwitchRelock (s : State) : Out :=
  let sw := s.inp.a
  let (r, f) := stepInHand s sw
  if (s.switch sw).phase = 2 ∧ f + r.dk ≤ s.tide.toNat then
    .next ((modPorts s r.pmask fun p => { p with st := 5, since := s.tide }).modSwitch sw fun c => { c with phase := 3 })
  else .next s

/-- SWITCH_COMMIT (R432): at C, when every port of switch `a`'s step is up, or at F + K + Q. -/
def execSwitchCommit (s : State) : Out :=
  let sw := s.inp.a
  let (r, f) := stepInHand s sw
  let c := s.switch sw
  let up := r.pmask != 0 && (portsOf r.pmask).all fun p => (s.port p).st == 2
  if c.phase = 3 ∧ (up = true ∨ f + r.dk + r.rq ≤ s.tide.toNat) then
    let bad := (portsOf r.pmask).any fun p => (s.port p).st != 2
    let s1 := modPorts s r.pmask fun p => { p with
      st := if p.st = 2 then 2 else 0, drained := false, peerDrained := false, drainAcked := false }
    let ok := s.fab.sver == r.rver
    let s2 := if ok then routeSwap s1 else s1
    let last := decide (c.step + 1 = stepCount c c.slot)
    let s3 := s2.modSwitch sw fun c => { c with
      phase := 0, st := if last then 0 else 1, step := if last then 0 else c.step + 1
      verr := c.verr || !ok, rfail := c.rfail || bad }
    .next (flushHeld s3)
  else .next s

/-! ### Ports and lanes (R436 to R438) -/

/-- PORT_UP (R434, R436): port `a` has trained or relocked and finds port `c` of node `b` as its peer. -/
def execPortUp (s : State) : Out :=
  let p := s.inp.a
  if p < portCount ∧ ((s.port p).st = 1 ∨ (s.port p).st = 5) ∧ s.thermal ≠ 2 then
    let s1 := s.modPort p fun x => { x with st := 2, replays := [], peerNode := s.inp.b % 4096, peerPort := s.inp.c % 64 }
    .next (flushHeld s1)
  else .next s

/-- A retrain is counted at a port's or an attachment's Pilot too (R439, R440). -/
def countRetrain (s : State) (p : Nat) : State := s.modPilot p fun x => { x with retrains := satAdd 65535 x.retrains 1 }

/-- A port retrains (R436): its traffic is held, and the retrain is counted. -/
def retrain (s : State) (p : Nat) : State :=
  countRetrain (s.modPort p fun x => { x with
    st := 1, since := s.tide, retrains := satAdd 65535 x.retrains 1, replays := [] }) p

/-- A packet of the port needs a ninth replay (R436). -/
def ninthReplay (x : LinkPort) : Bool := x.replays.vals.any fun n => decide (9 ≤ n)

/-- What system software does about the fence of a port: 1 sets it, which every fence reports (R473), 2 clears it (R420). The spec
names no register for either (log entry 62). -/
def fencePort (s : State) (p k : Nat) : State :=
  if k = 1 then noteFence (s.modPort p fun x => { x with st := 6 })
  else s.modPort p fun x => { x with st := if x.st = 6 then 0 else x.st }

/-- PORT_RETRAIN (R436, R439): port `a`, at a packet's ninth replay, or with its margin below the threshold while its Pilot
restarts (there `a` from 48 is an attachment); a port that is down begins to train. With `b` 1 or 2 system software fences port
`a` or clears its fence. -/
def execPortRetrain (s : State) : Out :=
  let p := s.inp.a
  let x := s.port p
  if portCount ≤ p then .next (if p < pilotCount ∧ (s.pilot p).st = 1 then countRetrain s p else s)
  else if s.inp.b = 1 ∨ s.inp.b = 2 then .next (fencePort s p s.inp.b)
  else if x.st = 0 ∧ s.thermal ≠ 2 then .next (s.modPort p fun x => { x with st := 1, since := s.tide })
  else if portTakes s p = true ∧ (ninthReplay x = true ∨ (s.pilot p).st = 1) then .next (retrain s p)
  else .next s

/-- PORT_RETRAIN_TIMEOUT (R436): port `a` has not returned to up within 48,000 cycles. -/
def execPortRetrainTimeout (s : State) : Out :=
  let x := s.port s.inp.a
  if x.st = 1 ∧ x.since.toNat + 48000 ≤ s.tide.toNat then .next (s.modPort s.inp.a fun x => { x with st := 0 }) else .next s

/-- The codewords of a lane in bins tbin to 16 since the last clear (R437). -/
def laneHits (x : LinkPort) (lane : Nat) : Nat :=
  ((upTo 17).map fun k => if x.tbin ≤ k then x.bins.get (17 * lane + k) 0 else 0).foldl (· + ·) 0

/-- The bins of a port after one more codeword, and a hit where the count is reached (R437). -/
def countWord (s : State) (p lane k : Nat) : State :=
  let s1 := s.modPort p fun x => { x with bins := x.bins.put (17 * lane + k) (satAdd (2 ^ 32 - 1) (x.bins.get (17 * lane + k) 0) 1) }
  let x := s1.port p
  if !x.hit && decide (x.tcnt ≤ laneHits x lane) then
    let s2 := s1.modPort p fun x => { x with hit := true, hitLane := lane }
    if x.ien then raiseMsix s2 0 2 else s2
  else s1

/-- CODEWORD_RECEIVE (R436, R437): port `a`, lane `b`, with `c` symbol errors; `ints` names the packets it carries a part of. More
than 15 are uncorrectable: those packets are replayed, and one's ninth replay retrains the port. -/
def execCodewordReceive (s : State) : Out :=
  let p := s.inp.a
  let lane := s.inp.b
  let ks := s.inp.ints.map Int.toNat
  if portTakes s p = false ∨ 64 ≤ lane then .next s
  else if s.inp.c ≤ 15 then
    .next ((countWord s p lane s.inp.c).modPort p fun x => { x with replays := ks.foldl FMap.del x.replays })
  else
    let s1 := (countWord s p lane 16).modPort p fun x => { x with
      uncorr := satAdd 65535 x.uncorr 1, replays := ks.foldl (fun m k => m.put k (m.get k 0 + 1)) x.replays }
    .next (if ninthReplay (s1.port p) then retrain s1 p else s1)

/-- LHST_CLEAR (R437). -/
def execLhstClear (s : State) : Out := .next (if s.inp.a < portCount then clearBins s s.inp.a else s)

/-- A port whose traffic is held: training, relocking, or drained by a switch step (R420, R433). -/
def portHeld (s : State) (p : Nat) : Bool :=
  let x := s.port p
  x.st == 1 || x.st == 5 || (holding s && x.drained)

/-- LNKST (R438). -/
def execLnkst (a b p : BitVec 6) (sel : BitVec 16) (s : State) : Out :=
  runHead (.lnkst a b p sel) (do
    let s ← get
    let x := s.port p.toNat
    if portCount ≤ p.toNat ∨ 2 < sel.toNat then illegalOperand
    match sel.toNat with
    | 0 =>
      writeNext 1 a (BitVec.ofNat 64 (x.st + 2 ^ 3 * b2n (portHeld s p.toNat) + 2 ^ 4 * x.peerNode + 2 ^ 16 * x.peerPort +
        2 ^ 22 * x.retrains + 2 ^ 38 * x.uncorr))
    | 1 => do
      let w ← gr b
      if 16 < fld w 6 5 ∨ fld w 11 53 ≠ 0 then illegalOperand
      writeNext 1 a (BitVec.ofNat 64 (x.bins.get (17 * fld w 0 6 + fld w 6 5) 0))
    | _ => writeNext 1 a (BitVec.ofNat 64 (x.lost + 2 ^ 32 * x.nacks))) s

/-! ### Pilots (R439, R440), and the start of a hart (R29) -/

/-- A hart starts at its dispatch vector with its registers zero (R29); a vector that fails R39 stops it. A hart whose store was
never replaced goes on with Kilior's default microcode, whose acts are steps of the model (R27). -/
def startHart (s : State) (h : Nat) : State :=
  let q := hartQOf h
  let p := s.proc q
  let keep : Proc := { codeLen := p.codeLen, dispVec := p.dispVec, version := p.version, loaded := p.loaded, vf := p.vf
                       remoteOut := p.remoteOut }
  if p.loaded = false then s.setProc q keep
  else
    let v := BitVec.ofNat 64 p.dispVec
    let s1 := s.setProc q { keep with st := .live, resumeAt := s.tide + 1, r := { pc := v } }
    match checkTarget s1 q v with
    | .ok _ => s1
    | .error c => (s1.modProc q fun p => { p with stopped := true, epc := v, tval := v }).pushTurn .engineHartFaultStop { a := h, b := c, w := v }

def refuseEctl (s : State) : State := { s with ectlErr := true }

/-- A hart starts; a dispatch vector that fails sets ectl.err beside stopping the hart (R29). -/
def startEctl (s : State) (h : Nat) : State :=
  let s1 := startHart s h
  let s2 := if 13457 ≤ h then s1.modPilot (h - 13457) fun x => { x with st := 0, kicked := s.tide } else s1
  if (s2.proc (hartQOf h)).stopped then refuseEctl s2 else s2

/-- PKICK (R439): the firmware of Pilot `a` feeds its watchdog. -/
def execPkick (s : State) : Out :=
  if s.inp.a < pilotCount then .next (s.modPilot s.inp.a fun x => { x with kicked := s.tide }) else .next s

/-- PILOT_WATCHDOG_RESET (R439): a window of pwd has passed without pkick at Pilot `a`: its hart alone resets, and the link
keeps its values. -/
def execPilotWatchdogReset (s : State) : Out :=
  let p := s.inp.a
  let x := s.pilot p
  if p < pilotCount ∧ x.st = 0 ∧ x.kicked.toNat + 1024 * s.pwd.get p 1024 ≤ s.tide.toNat then
    let s1 := s.modPilot p fun x => { x with st := 1, since := s.tide, resets := satAdd 65535 x.resets 1 }
    .next (s1.modProc (hartQOf (pilotHart p)) fun p =>
      { codeLen := p.codeLen, dispVec := p.dispVec, version := p.version, loaded := p.loaded, vf := p.vf })
  else .next s

/-- PILOT_RESTART (R439, R466): Pilot `a` restarts from its shadow state, or starts with the image it has loaded. -/
def execPilotRestart (s : State) : Out :=
  let p := s.inp.a
  if (s.pilot p).st = 1 then
    .next (startHart (s.modPilot p fun x => { x with st := 0, kicked := s.tide, tune := x.shadow }) (pilotHart p))
  else if (s.pilot p).st = 3 then .next (startEctl s (pilotHart p))
  else .next s

/-- PILOT_SHADOW_UPDATE (R439): Pilot `a` copies its tuning state, which its loop has brought to `ints`. -/
def execPilotShadowUpdate (s : State) : Out :=
  let p := s.inp.a
  if p < pilotCount ∧ (s.pilot p).st = 0 then
    let t := if s.inp.ints = [] then (s.pilot p).tune else s.inp.ints.map Int.toNat
    .next (s.modPilot p fun x => { x with tune := t, shadow := t })
  else .next s

/-- The state code of a Pilot (R440). -/
def pilotState (s : State) (p : Nat) : Nat := if (s.proc (hartQOf (pilotHart p))).stopped then 2 else (s.pilot p).st

/-- PILOTST (R440). -/
def execPilotst (a p : BitVec 6) (s : State) : Out :=
  runHead (.pilotst a p) (do
    let s ← get
    let x := s.pilot p.toNat
    writeNext 1 a (BitVec.ofNat 64 (pilotState s p.toNat + 2 ^ 2 * x.resets + 2 ^ 18 * x.retrains +
      2 ^ 34 * ((s.proc (hartQOf (pilotHart p.toNat))).version % 2 ^ 16)))) s

end Sys2Proof.Machine
end

