-- ==== Sys2Proof/Machine/SysRegs.lean ====
section
/-!
DEFINITION. System registers (R53): those of a context (R134, R73, R191, R92, R253), of an engine hart (R29, R283, R353,
R417, R439) and of the Tollhouse (R442), as doublewords; SRR and SRW (R182).

Marks (notes/assumptions): DEDUCED (unsafe) 10, 21, 26; DEDUCED (safe) 22.
-/

namespace Sys2Proof.Machine

/-! ### The values -/

/-- ctxid. -/
def ctxidOf (s : State) (q : Nat) : Word :=
  BitVec.ofNat 64 (slotOf q + 2 ^ 4 * b2n (s.proc q).drain + 2 ^ 8 * (coreOf q % 8) + 2 ^ 11 * (s.core (coreOf q)).vcl)

/-- tstat; in an engine hart it holds only intrap (R29). -/
def tstatOf (q : Nat) (p : Proc) : Word :=
  if isHart q then BitVec.ofNat 64 (b2n p.intrap)
  else BitVec.ofNat 64 (b2n p.intrap + 2 * b2n p.ptim + 4 * b2n p.aen + 8 * b2n (!p.pend.isEmpty) + 16 * p.gmem)

/-- pstat: the items that can be popped now (R134, R144). -/
def portStat (s : State) (g : Nat) : Word :=
  let n := fun (m : FMap Queue) (k : Nat) => min ((m.get k {}).items.filter fun e => decide (e.2.toNat ≤ s.tide.toNat)).length 15
  let c := s.core g
  BitVec.ofNat 64 (((upTo 5).map fun k => 2 ^ (4 * k) * n c.mesh k).foldl (· + ·) 0 +
    ((upTo 8).map fun k => 2 ^ (20 + 4 * k) * n c.qx k).foldl (· + ·) 0 + 2 ^ 52 * c.jetty.length)

/-- bslots of a Barge (R283). -/
def bslotsOf (e : Engine) : Word :=
  let m := fun (f : Request → Bool) => ((upTo 16).map fun k => match e.slots.find k with
    | some r => 2 ^ k * b2n (f r)
    | none => 0).foldl (· + ·) 0
  BitVec.ofNat 64 (m (fun _ => true) + 2 ^ 16 * m (fun r => r.canc || r.killed || r.park) + 2 ^ 32 * e.queue.length +
    2 ^ 39 * e.fwd.length)

/-- pev and pthr of a sequencer (R353). -/
def pevOf (po : Pontoon) : Word := BitVec.ofNat 64 (b2n po.pevRt + 2 * b2n po.pevWn)
def pthrOf (c : Cluster) : Word := BitVec.ofNat 64 (c.warn + 2 ^ 16 * c.retn)

/-- A private register of an engine hart (R53). -/
def hartReg (s : State) (h k : Nat) : Option Word :=
  if h < 640 then
    match k with
    | 0 => some (BitVec.ofNat 64 (s.engine h).sel)
    | 1 => some (bslotsOf (s.engine h))
    | 2 => some (BitVec.ofNat 64 h)
    | _ => none
  else if h < 13440 then
    match k with
    | 0 => some (pevOf (s.pontoon (h - 640)))
    | 1 => some (pthrOf (s.cluster (h - 640)))
    | _ => none
  else if h < 13456 then
    match k with
    | 0 => some (BitVec.ofNat 64 (h - 13440))
    | 1 => some (BitVec.ofNat 64 ((s.engine h).queue.length + 2 ^ 5 * b2n (s.ford (h - 13440)).hand.isSome))
    | _ => none
  else if h = ferryman then none
  else match k with
    | 0 => some 0
    | 1 => some (BitVec.ofNat 64 (h - 13457))
    | _ => none

/-- A Tollhouse register (R442). -/
def tollReg (c : Cluster) (k : Nat) : Option Word :=
  match k with
  | 0 => some c.tdctl
  | 1 => some c.tdst
  | 2 => some c.tbp[0]
  | 3 => some c.tbp[1]
  | 4 => some c.tbp[2]
  | 5 => some c.tbp[3]
  | 6 => some c.tbpc
  | _ => none

/-- System register `n` of agent `q`; none where the number is not defined for it (R53). -/
def sysReg (s : State) (q n : Nat) : Option Word :=
  let p := s.proc q
  let hart := isHart q
  let c := s.core (coreOf q)
  match n with
  | 0x0002 => some s.tide
  | 0x0005 => some p.cause
  | 0x0006 => some p.epc
  | 0x0007 => some p.tval
  | 0x000C => some p.tvec
  | 0x000D => some (tstatOf q p)
  | 0x000E => some p.tscr
  | n =>
    if 0x0200 ≤ n ∧ n < 0x0300 then (if hart then hartReg s (hartIx q) (n - 0x0200) else none)
    else if hart then none
    else match n with
      | 0x0000 => some p.r.fcsr
      | 0x0001 => some p.r.srseed
      | 0x0003 => some c.sdm
      | 0x0004 => some (ctxidOf s q)
      | 0x0008 => some p.r.bb.stat
      | 0x0009 => some (BitVec.ofNat 64 c.lnid)
      | 0x000A => some (BitVec.ofNat 64 (coreOf q))
      | 0x000B => some (gngOf c)
      | 0x000F => some p.jhi
      | 0x0010 => some (hliveOf s (coreOf q))
      | 0x0011 => some c.tpin
      | 0x0012 => some (portStat s (coreOf q))
      | 0x0013 => some p.icount
      | 0x0100 => some (BitVec.ofNat 64 (512 * (members s q).length))
      | 0x0101 => some p.r.vres
      | 0x0102 => some c.hbind
      | 0x0103 => some (hstatOf c)
      | 0x0180 => some p.r.bb.lo
      | 0x0181 => some p.r.bb.hi
      | 0x0182 => some p.r.bb.tab
      | 0x0190 => some (BitVec.ofNat 64 (s.cluster (clusterOf q)).xwd)
      | n =>
        if 0x0018 ≤ n ∧ n < 0x0020 then some (c.qxmap[n - 0x0018]?.getD 0)
        else if 0x0110 ≤ n ∧ n < 0x0130 then some (hbinOf c (n - 0x0110))
        else if 0x0140 ≤ n ∧ n < 0x0180 then
          if n % 8 < 5 then some (if n < 0x0148 then 0 else c.win.get (n - 0x0140) 0) else none
        else if 0x0300 ≤ n ∧ n < 0x0400 then tollReg (s.cluster (clusterOf q)) (n - 0x0300)
        else none

/-! ### SRR -/

/-- Whether the open chunk of the agent that moves holds histogram counts. -/
def holdsCounts (s : State) : Bool :=
  match (s.proc (leader s s.cur)).chunk with
  | some c => !c.hist.isEmpty
  | none => false

/-- SRR (R182): an SRR of a bin, or of hstat, comes after the counts that the chunk holds (R222). -/
def execSrr (a : BitVec 6) (imm : BitVec 16) (s : State) : Out :=
  runHead (.srr a imm) (do
    let n := imm.toNat
    if holdsCounts (← get) && (n == 0x0103 || (decide (0x0110 ≤ n) && decide (n < 0x0130))) then leaveChunk
    let s ← get
    match sysReg s s.cur n with
    | none => illegalOperand
    | some v => writeNext 2 a v) s

/-! ### SRW -/

/-- A write that only a control context in free mode may make (R135, R253, R441). -/
def controlOnly : Eff Unit := do
  let s ← get
  if isHart s.cur || slotOf s.cur != 0 || s.me.timed then illegalOperand

/-- Changes the core, or the cluster, of the agent that moves. -/
def modMyCore (f : Core → Core) : Eff Unit := modify fun s => s.modCore (coreOf s.cur) f
def modMyCluster (f : Cluster → Cluster) : Eff Unit := modify fun s => s.modCluster (clusterOf s.cur) f

/-- An SRW to hbind clears every bin and hstat.sat (R222). -/
def writeHbind (v : Word) : Eff Unit := modMyCore fun c => { c with hbind := masked v 0xFFFFFFFF, bins := [], hsat := false }

/-- The fields of window register `k` (R92). -/
def windowMask (k : Nat) : Nat :=
  match k with
  | 0 => 0x7F | 1 => 0xFFFFFFFFF | 2 => 0x3FFFF | 3 => 0x3FFFF | _ => 0xFFFFFFFF

/-- A write of register `k` of window `w` (R92): the reserved values raise ILLEGAL_OPERAND; W0's registers ignore it. -/
def writeWindow (w k : Nat) (v : Word) : Eff Unit := do
  if w ≠ 0 then do
    if k = 0 ∧ (fld v 0 3 = 6 ∨ fld v 3 2 = 3) then illegalOperand
    if k = 2 ∧ (w = 5 ∨ w = 6) ∧ v.getLsbD 0 then illegalOperand
    modMyCore fun c => { c with win := c.win.put (8 * w + k) (masked v (windowMask k)) }

/-- A private register of an engine hart is written: bcur, which also gives the hart the identity of the request in that
slot (R27, R283), and pkick (R439). -/
def writeHartReg (h k : Nat) (v : Word) : Eff Unit := do
  if h < 640 ∧ k = 0 then do
    modMyEngine fun e => { e with sel := fld v 0 4 }
    let s ← get
    match mySlot s with
    | some r => modMe fun p => { p with vf := r.vf }
    | none => pure ()
  else if 13457 ≤ h ∧ k = 0 then modify fun s => s.modPilot (h - 13457) fun x => { x with kicked := s.tide }
  else pure ()

/-- A Tollhouse register is written (R441, R442). -/
def writeToll (k : Nat) (v : Word) : Eff Unit := do
  controlOnly
  match k with
  | 0 => modMyCluster fun c => { c with tdctl := masked v 0xFFF }
  | 1 => pure ()
  | 6 => modMyCluster fun c => { c with tbpc := masked v 0x7777 }
  | k => modMyCluster fun c => { c with tbp := c.tbp.setIfInBounds (k - 2) v }

/-- A write of system register `n`, which is defined for the agent that moves. -/
def sysWrite (n : Nat) (v : Word) : Eff Unit := do
  let s ← get
  let setBb := fun (f : BitBuf → BitBuf) => modMe fun p => p.withR fun r => { r with bb := f r.bb }
  match n with
  | 0x0000 => do
    if 6 ≤ fld v 0 3 then illegalOperand
    modMe fun p => p.withR fun r => { r with fcsr := masked v 0xFFF }
  | 0x0001 => modMe fun p => p.withR fun r => { r with srseed := v }
  | 0x0005 => modMe fun p => { p with cause := masked v 0x1FF }
  | 0x0006 => modMe fun p => { p with epc := v }
  | 0x0007 => modMe fun p => { p with tval := v }
  | 0x0008 => do
    if 128 < fld v 0 8 then illegalOperand
    setBb fun b => (b.withStat v (b.und && !v.getLsbD 9)).clip
  | 0x000C => modMe fun p => { p with tvec := v }
  | 0x000D =>
    if !isHart s.cur && slotOf s.cur == 0 && !s.me.timed then modMe fun p => { p with aen := v.getLsbD 2 } else pure ()
  | 0x000E => modMe fun p => { p with tscr := v }
  | 0x0011 => do controlOnly; pinTo v
  | 0x0101 => modMe fun p => p.withR fun r => { r with vres := masked v 0xFFFF }
  | 0x0102 => writeHbind v
  | 0x0103 => modMyCore fun c => { c with hen := v.getLsbD 0, hsat := c.hsat && !v.getLsbD 1 }
  | 0x0180 => setBb fun b => { b with buf := b.hi ++ v }.clip
  | 0x0181 => setBb fun b => { b with buf := v ++ b.lo }.clip
  | 0x0182 => do
    if v.getLsbD 0 then illegalOperand
    setBb fun b => b.withTab v
  | 0x0190 => do
    controlOnly
    if fld v 0 24 < 8512 then illegalOperand
    modMyCluster fun c => { c with xwd := fld v 0 24 }
  | n =>
    if 0x0018 ≤ n ∧ n < 0x0020 then do
      controlOnly
      modMyCore fun c => { c with qxmap := c.qxmap.setIfInBounds (n - 0x0018) (masked v 0x3FFFFFFFF) }
    else if 0x0110 ≤ n ∧ n < 0x0130 then
      modMyCore fun c => c.setHbin (n - 0x0110) v
    else if 0x0140 ≤ n ∧ n < 0x0180 then writeWindow ((n - 0x0140) / 8) (n % 8) v
    else if 0x0200 ≤ n ∧ n < 0x0300 then writeHartReg (hartIx s.cur) (n - 0x0200) v
    else if 0x0300 ≤ n ∧ n < 0x0400 then writeToll (n - 0x0300) v
    else pure ()

/-- SRW (R182): a number that is not defined raises ILLEGAL_OPERAND; a write of a read-only register is ignored. -/
def execSrw (a : BitVec 6) (imm : BitVec 16) (s : State) : Out :=
  runHead (.srw a imm) (do
    let v ← gr a
    let s ← get
    if (sysReg s s.cur imm.toNat).isNone then illegalOperand
    sysWrite imm.toNat v
    pure seqNext) s

/-- TPIN_WRITE (R135): the control context of core `a` writes `w` into tpin. -/
def execTpinWrite (s : State) : Out :=
  runPart (pinTo s.inp.w) { s with cur := ctl s.inp.a }

/-- HBIND_WRITE (R222): a context of core `a` writes `w` into hbind. -/
def execHbindWrite (s : State) : Out :=
  runPart (writeHbind s.inp.w) { s with cur := ctl s.inp.a }

end Sys2Proof.Machine
end

