-- ==== Sys2Proof/Machine/SaveImage.lean ====
section
/-!
DEFINITION. Save images (R185, R226 to R228, R243, R278, R304, R306, R340, R378): the section of a cluster as 101,888
doublewords, written at pre-emption and read back at restore.

An image holds what its layout has a field for. What it has none for (sequence numbers of requests, what a kick captured,
the row a handler holds) stays with the function's save area, as `Kept`, and comes back beside the image.

Marks (notes/assumptions): DESIGN CHOICE (safe) 3; DEDUCED (unsafe) 31, 36, 37, 38; DESIGN CHOICE (unsafe) 32, 33, 39,
62.
-/

namespace Sys2Proof.Machine

/-! ### Writing -/

/-- The position record of R340: `st` its state, `a` and `b` the first two fields, rows released, dispatched and
outstanding; `mine` picks the job's or the session's own handlers. -/
def positionRec (s : State) (gc a b st next flags : Nat) (rel disp out : List Nat) (r : Request) (mine : RowRef → Bool) : List Word :=
  let map := fun (l : List Nat) => BitVec.ofNat 64 ((l.map fun i => 2 ^ i).foldl (· ||| ·) 0)
  let reads := fun (row : Nat) => ((coresOf gc).flatMap helperQs).findSome? fun q =>
    match (s.proc q).row with
    | some x => if (s.proc q).drain ∧ mine x = true ∧ x.row = row then some x.reads else none
    | none => none
  let o8 := out.take 8
  [BitVec.ofNat 64 (a % 2 ^ 16 + 2 ^ 16 * (b % 2 ^ 16) + 2 ^ 32 * st + 2 ^ 40 * next + 2 ^ 56 * flags), map rel, map disp,
   BitVec.ofNat 64 (((upTo 8).map fun i => 2 ^ (8 * i) * ((o8[i]?).bind reads).getD 0).foldl (· + ·) 0),
   BitVec.ofNat 64 (((upTo 8).map fun i => 2 ^ (8 * i) * o8.getD i 255).foldl (· + ·) 0),
   r.srseed, r.srctr,
   BitVec.ofNat 64 (r.mode + 2 ^ 3 * b2n (fcsrFin r.fcsr) + 2 ^ 4 * b2n (fcsrFout r.fcsr) + 2 ^ 8 * (r.rid.toNat % 2 ^ 20) +
     2 ^ 32 * (coreOf r.q % 8 + 8 * slotOf r.q))]

/-- The record of a request's vector register. -/
def recordOf (r : Request) : List Word := (upTo 8).map r.dw

/-- Narrow accumulators as 768 doublewords, promotion registers as 1,024 (R340). -/
def narrowWords (n : FMap Int) : List Word :=
  wordsOf ((upTo 2048).flatMap fun e => leBytes 3 ((n.get e 0) % (2 ^ 24 : Nat)).toNat) 768
def promoWords (a : FMap Nat) : List Word := (upTo 1024).map fun i => BitVec.ofNat 64 (a.get (2 * i) 0 % 2 ^ 32 + 2 ^ 32 * (a.get (2 * i + 1) 0 % 2 ^ 32))

def zeros (n : Nat) : List Word := List.replicate n 0
/-- A list of doublewords brought to a length. -/
def padTo (n : Nat) (l : List Word) : List Word := resize n 0 l

/-- Flags of a job or session as byte 7 of the position record holds them. -/
def posFlags (flags worst : Nat) (parked : Bool) : Nat := flags / 128 % 32 + 2 ^ 5 * (worst % 4) + 2 ^ 7 * b2n parked

/-- The job or session in hand: record, position, accumulators, promotion registers (R340, R378). -/
def inHandWords (s : State) (gc : Nat) : List Word :=
  let po := s.pontoon gc
  match po.tow, po.job with
  | some w, _ =>
    let sent := if w.ph = 2 then upTo w.sub else []
    recordOf w.cap ++ positionRec s gc w.runs w.u 3 w.sub (posFlags w.flags w.worst w.parkedOnce)
      (sent.filter fun b => !w.out.contains b) (sent ++ w.out) w.out { w.cap with q := w.req.q, rid := w.req.rid } (·.tow) ++
      narrowWords w.n ++ promoWords w.a
  | none, some j =>
    recordOf j.req ++ positionRec s gc j.ksteps j.promos (if j.ksteps = 0 then 0 else if j.draining then 2 else 1) j.next
      (posFlags j.flags j.worst j.parkedOnce) j.rel j.out (j.out.filter fun b => !j.rel.contains b) j.req (ofJob j) ++
      narrowWords j.n ++ promoWords j.a
  | none, none => zeros 1808

/-- The requests that wait in the cluster's sequencer queue. -/
def seqQueue (s : State) (gc : Nat) : List Request := (s.engine (seqHart gc)).queue

/-- A queued record (R243); of a TOW.ENTER that resumes, the address of its restart record in dw6, marked in dw7. -/
def queuedWords (r : Request) : List Word :=
  if isTow r then (recordOf r).take 6 ++ [r.args.headD 0, BitVec.ofNat 64 (2 ^ 63)] else recordOf r

/-- The Pontoon part: 2,048 doublewords (R243). -/
def pontoonWords (s : State) (gc : Nat) : List Word :=
  padTo 2048 (inHandWords s gc ++ padTo 192 ((seqQueue s gc).flatMap queuedWords) ++
    match (s.pontoon gc).tow with
    | some w => w.rr
    | none => [])

/-- The state of a stage (R306). -/
def stageWord (x : Stage) : Word := BitVec.ofNat 64 (b2n x.full + 2 * x.own + 8 * b2n x.bnd + 2 ^ 8 * x.tag)

/-- The looping copy parked at a ring (R304): its record, the loop word with the iterations not yet begun, the steps, the next
iteration and the identifier. The tag stands in the zero bits above the identifier and the ring number, which is the model's choice of
the reserved field (log entry 62). -/
def loopWords (r : Option Request) : List Word :=
  match r with
  | none => zeros 16
  | some r =>
    r.args.take 12 ++ [BitVec.ofNat 64 (r.iters - r.iter + 2 ^ 32 * fld (r.args.getD 12 0) 32 4 + 2 ^ 36 * (r.tag / 2 ^ 12 % 2 ^ 20)),
      r.args.getD 13 0, r.args.getD 14 0,
      BitVec.ofNat 64 (r.iter % 2 ^ 32 + 2 ^ 32 * (r.rid.toNat % 2 ^ 20) + 2 ^ 52 * (r.tag % 2 ^ 12))]

/-- The 512 doublewords at the head of a section: the virtual cluster number, state flags (a job, a session, parked loops,
responses, records queued, xwd), the transform state (R278), the ring words (R306). -/
def headWords (s : State) (gc vcl : Nat) : List Word :=
  let c := s.cluster gc
  let po := c.pontoon
  let flags := b2n po.job.isSome + 2 * b2n po.tow.isSome + 4 * b2n (!c.parkedLoops.isEmpty) +
    8 * b2n ((coresOf gc).any fun g => !(s.core g).xq.isEmpty) + 2 ^ 8 * (seqQueue s gc).length + 2 ^ 16 * c.xwd
  padTo 512 ([BitVec.ofNat 64 vcl, BitVec.ofNat 64 flags] ++ zeros 6 ++
    ((coresOf gc).flatMap fun g =>
      padTo 4 ((s.core g).xq.map (·.1)) ++ [BitVec.ofNat 64 (min 4 (s.core g).xq.length)] ++ zeros 3) ++
    ((upTo 16).flatMap fun r => [(ringOf s gc r).cfg, (ringOf s gc r).party]))

/-- Doublewords of a cluster section (R243). -/
def sectionDws : Nat := 101888

/-- The section of cluster `gc`. -/
def sectionWords (s : State) (gc vcl : Nat) : List Word :=
  headWords s gc vcl ++ ((upTo 32768).map fun i => BitVec.ofNat 64 (s.natAt (spKey gc (8 * i)) 8)) ++
  ((coresOf gc).flatMap fun g => (upTo coreDws).map fun i => coreWord s g i) ++
  pontoonWords s gc ++ ((upTo 16).flatMap fun r => (upTo 16).map fun k => stageWord ((ringOf s gc r).stage k)) ++
  ((upTo 16).flatMap fun r => loopWords ((s.cluster gc).parkedLoops.find r)) ++ zeros 128

/-- What is kept of cluster `gc` beside its section. -/
def keptOf (s : State) (gc : Nat) : Kept :=
  { procs := (coresOf gc).flatMap fun g => (upTo 11).map fun k => s.proc (ctl g + k)
    cores := (coresOf gc).map s.core, cluster := s.cluster gc, queued := seqQueue s gc }

def keptKey (vf : Nat) (va : Word) : Nat := 2 ^ 64 * vf + va.toNat

/-- Writes doublewords for an engine under a function, at the function's virtual address; the first fault otherwise. -/
def putImage (s : State) (q vf : Nat) (va : Word) (ws : List Word) : Except Nat State :=
  engWriteElems s q q vf [] va 8 (ws.map BitVec.toNat)
def getImage (s : State) (q vf : Nat) (va : Word) (n : Nat) : Except Nat (State × List Word) :=
  match engReadElems s q vf [] va 8 n with
  | .error c => .error c
  | .ok (t, bs) => .ok (t, wordsOf bs n)

/-- Saves cluster `gc` at `va` (R241): its section is written, and what the section does not hold is kept. -/
def saveCluster (s : State) (gc vcl vf : Nat) (va : Word) : Except Nat State :=
  let s1 := { s with
    kept := s.kept.put (keptKey vf va) (keptOf s gc)
    sealed := ((coresOf gc).map fun g => (s.core g).replay).filter (fun es => es != []) ++ s.sealed }
  putImage s1 (hartQOf ferryman) vf va (sectionWords s gc vcl)

/-! ### Freeing a cluster -/

/-- The cluster as no launch holds it: its contexts, queues, rings, requests and pins are gone; the engine's heaters, its
registers and its Tollhouse stay. -/
def clearCore (s : State) (g : Nat) : State :=
  ((upTo 11).foldl (fun s k => s.setProc (ctl g + k) {}) s).modCore g fun c =>
    { trace := c.trace, traceEver := c.traceEver, bins := c.bins, hbind := c.hbind, hen := c.hen, hsat := c.hsat }
def clearCluster (s : State) (gc : Nat) : State :=
  ((coresOf gc).foldl clearCore s).modCluster gc fun c =>
    { c with xslots := [], xheld := [], xclaims := [], xturn := false, rings := [], parkedLoops := [], qcLast := none, banks := []
             pontoon := { c.pontoon with job := none, tail := none, tow := none, preempt := false } }

/-! ### Reading back -/

/-- The slot of cluster `gc` that stands where requester `q` stood in its own cluster. -/
def movedQ (gc q : Nat) : Nat := 88 * gc + q % 88

/-- The fields of a request that an image holds, put over what was kept of it. -/
def Request.overlay (base : Request) (gc vf ln op : Nat) (ws pos : List Word) : Request :=
  let d7 := pos.getD 7 0
  { base with
    op := op, q := 88 * gc + 11 * fld d7 32 3 + fld d7 35 4, vf := vf, ln := ln, park := false
    vrec := BitVec.ofNat 512 (span ws 0 8), srseed := pos.getD 5 0, srctr := pos.getD 6 0, mode := fld d7 0 3
    fcsr := masked base.fcsr 0xFE7 ||| BitVec.ofNat 64 (8 * fld d7 3 2), rid := BitVec.ofNat 64 (fld d7 8 20) }

/-- The rows a bitmap names. -/
def rowsOf (w : Word) : List Nat := (upTo 64).filter fun i => w.getLsbD i

/-- Narrow accumulators and promotion registers from their doublewords. -/
def narrowOf (ws : List Word) : FMap Int :=
  let bs := ws.flatMap fun w => leBytes 8 w.toNat
  ((upTo 2048).map fun e => (e, sextNat (leNat ((bs.drop (3 * e)).take 3)) 24)).filter fun e => e.2 != 0
def promoOf (ws : List Word) : FMap Nat :=
  ((upTo 2048).map fun e => (e, fld (ws.getD (e / 2) 0) (32 * (e % 2)) 32)).filter fun e => e.2 != 0

/-- The job of a section's Pontoon part (R340). Tiles whose stages were released as they were loaded come back beside the image. -/
def jobOf (base : PJob) (gc vf ln : Nat) (ws : List Word) : PJob :=
  let pos := ws.drop 8
  let d0 := pos.getD 0 0
  { base with
    req := base.req.overlay gc vf ln 0x9F ws pos
    ksteps := fld d0 0 16, promos := fld d0 16 16, next := fld d0 40 8, flags := 128 * fld d0 56 5, worst := fld d0 61 2
    parkedOnce := d0.getLsbD 63, parked := 0, rel := rowsOf (pos.getD 1 0), out := rowsOf (pos.getD 2 0)
    n := narrowOf ((ws.drop 16).take 768), a := promoOf ((ws.drop 784).take 1024) }

/-- The return stack and the fields of a restart record (R375). -/
def restartStack (rr : List Word) : List Word :=
  let x := span rr 0 8
  (upTo (min 8 (bits x 2 4))).map fun e => BitVec.ofNat 64 (64 * bits x (168 + 42 * e) 42)

/-- The session of a section's Pontoon part (R378): the block at cb is fetched afresh (R376). -/
def towOf (base : Tow) (gc vf ln : Nat) (ws rr : List Word) : Tow :=
  let pos := ws.drop 8
  let d0 := pos.getD 0 0
  let d1 := rr.getD 1 0
  let cap := base.cap.overlay gc vf ln 0xAB ws pos
  let at64 := fun (w : Word) => BitVec.ofNat 64 (64 * fld w 6 42)
  Tow.atBoundary { base with
    cap := { cap with rid := base.cap.rid }
    req := { base.req with q := cap.q, rid := cap.rid, vf := vf, ln := ln, op := 0xAB, vrec := cap.vrec }
    cb := at64 (rr.getD 0 0), ph := fld (rr.getD 0 0) 0 2, seq := fld (rr.getD 0 0) 48 16, stack := restartStack rr
    lwt := if fld d1 6 42 = 0 then none else some (at64 d1)
    sub := fld d1 48 8, rk := fld (rr.getD 2 0) 0 3, rs := fld (rr.getD 2 0) 3 4, rv := fld (rr.getD 2 0) 7 16
    u := fld d0 16 16, flags := 128 * fld d0 56 5, worst := fld d0 61 2, parkedOnce := d0.getLsbD 63, out := (rowsOf (pos.getD 2 0)).filter fun b => !(rowsOf (pos.getD 1 0)).contains b
    n := narrowOf ((ws.drop 16).take 768), a := promoOf ((ws.drop 784).take 1024), rr := rr, shadow := none }

/-- A looping copy of a ring's record, kicked again to the home Barge with this state (R304). -/
def loopOf (base : Request) (gc vf ln ring : Nat) (ws : List Word) : Request :=
  let lw := ws.getD 12 0
  let d := ws.getD 15 0
  { base with
    op := 0x92, q := movedQ gc base.q, vf := vf, ln := ln, ring := some ring, iter := fld d 0 32, first := fld d 0 32
    rid := BitVec.ofNat 64 (fld d 32 20), tag := fld d 52 12 + 2 ^ 12 * fld lw 36 20
    args := ws.take 12 ++ [BitVec.ofNat 64 (fld lw 0 36), ws.getD 13 0, ws.getD 14 0]
    bound := none, next := 0, fin := none, park := false, fwd := false, restored := true }

/-- A stage from its state (R306); no copy writes it any more. -/
def stageOf (w : Word) : Stage := { full := w.getLsbD 0, own := fld w 1 2, bnd := w.getLsbD 3, tag := fld w 8 16 }

/-- The entries a replay queue image holds (R226): those of the queue it was made of, else, for one that another package made, what
its entries say. -/
def replayEntries (s : State) (ws : List Word) : List (Nat × Flying) :=
  match ([] :: s.sealed).find? fun es => replayBody es == ws.take 189 with
  | some es => es
  | none => (upTo (fld (ws.getD 188 0) 32 32)).map fun j =>
    let (slot, kind, n, m, x) := Config.replayEntry ws j
    (slot % 11, ⟨0, j, match kind % 6 with
      | 0 => .v (n % 32) (BitVec.ofNat 512 m) (BitVec.ofNat 512 x)
      | 1 => .k (n % 8) (BitVec.ofNat 64 m) (BitVec.ofNat 64 x)
      | 2 => .flags (BitVec.ofNat 64 (x % 32 * 128))
      | 3 => .hist 0 [x % 64]
      | 4 => .vg (n % 48) (BitVec.ofNat 64 x)
      | _ => .parts⟩)

/-- The check of a replay queue image: its format identifier and its integrity code (R226). -/
def replayOk (ws : List Word) : Bool :=
  decide (fld (ws.getD 188 0) 0 32 = Config.replayFormat % 2 ^ 32) &&
  decide (span ws 189 3 = Config.replaySeal (ws.take 189) % 2 ^ 192)

/-- One replayed instruction of core `g` completes (R227). Counts go to the bins of the core whose queue holds them; a split store
goes on with the parts it has left, before any head of the package. -/
def replayOne (g : Nat) (s : State) (e : Nat × Flying) : State :=
  let q := ctl g + e.1
  match e.2.w with
  | .hist _ bins => applyWrite s q (.hist g bins)
  | .parts => (s.modProc q fun p => { p with wait := .parts, skipBp := true }).pushTurn .vectorStorePart { a := q, b := 1 }
  | w => applyWrite s q w

/-- The replayed instructions of core `g` complete in their issue order (R227). -/
def replayCore (s : State) (g : Nat) (es : List (Nat × Flying)) : State := es.foldl (replayOne g) s

/-- A core of a cluster at restore, before its section is written over it. -/
def restoredCore (base now : Core) (vf ln vcl : Nat) : Core :=
  { base with
    owner := some (vf, ln), vcl := vcl, preempt := false, parked := false, pins := [], l1i := [], xq := [], replay := [], lastIssue := none
    trace := now.trace, traceEver := now.traceEver }
def restoredProc (base : Proc) (gc vf : Nat) (now : Word) : Proc :=
  { base with
    vf := vf, lines := [], copy := none, wait := .idle, chunk := none, flight := [], due := [], phaseOver := 0, discards := 0, single := false
    waited := 0, remIx := 0, resumeAt := now + 1, pend := base.pend, starter := movedQ gc base.starter
    row := base.row.map fun r => { r with cluster := gc, owner := movedQ gc r.owner } }

/-- Core `c` of cluster `gc` from its section (R242): every item, then the replay queue, whose check must hold. -/
def restoreCore (s : State) (gc c vf ln vcl : Nat) (kept : Kept) (ws : List Word) : Except Nat State :=
  let g := 8 * gc + c
  let s1 := s.setCore g (restoredCore (kept.cores.getD c {}) (s.core g) vf ln vcl)
  let s2 := (upTo 11).foldl (fun s k =>
    s.setProc (ctl g + k) (restoredProc (kept.procs.getD (11 * c + k) {}) gc vf s.tide)) s1
  let order := [7909, 7974] ++ (upTo coreDws).filter fun i => i != 7909 && i != 7974
  let s3 := order.foldl (fun s i => setCoreWord s g i (ws.getD i 0)) s2
  let s4 := (upTo 11).foldl (fun s k => if (s.proc (ctl g + k)).st == .free then s.setProc (ctl g + k) {} else s) s3
  let rq := (ws.drop 8044).take 192
  if !replayOk rq then .error KILLED
  else
    let s5 := replayCore s4 g (replayEntries s4 rq)
    match fetchPins s5 (ctl g) (pinLines (s5.core g).tpin) with
    | .error e => .error e.1
    | .ok (s6, ps) => .ok (s6.modCore g fun c => { c with pins := ps })

/-- The cores of a cluster, in order. -/
def restoreCores (s : State) (gc vf ln vcl : Nat) (kept : Kept) (ws : List Word) : List Nat → Except Nat State
  | [] => .ok s
  | c :: cs =>
    match restoreCore s gc c vf ln vcl kept ((ws.drop (33280 + coreDws * c)).take coreDws) with
    | .error e => .error e
    | .ok t => restoreCores t gc vf ln vcl kept ws cs

/-- The transform responses of a section are queued again, each holding a slot (R278). -/
def restoreResponses (s : State) (gc : Nat) (ws : List Word) : State :=
  (upTo 8).foldl (fun s c =>
    let g := 8 * gc + c
    (upTo (min 4 (fld (ws.getD (8 + 8 * c + 4) 0) 0 3))).foldl (fun s i =>
      match (upTo 8).find? fun k => ((s.cluster gc).xslots.find k).isNone with
      | none => s
      | some k =>
        let cl := s.cluster gc
        let x : XSlot := { core := g, q := ctl g, vf := (s.proc (ctl g)).vf, order := cl.xorder, ended := some 0, answered := true }
        (setXslot s gc k x |>.modCluster gc fun c => { c with xorder := c.xorder + 1 }).modCore g fun c =>
          { c with xq := c.xq ++ [(ws.getD (8 + 8 * (g % 8) + i) 0, k)] }) s) s

/-- Rows outstanding of a restored job or session, whose handlers `mine` picks: they go on with the reads that the image counts. -/
def restoreReads (s : State) (gc : Nat) (pos : List Word) (mine : RowRef → Bool) : State :=
  (upTo 8).foldl (fun s i =>
    let row := fld (pos.getD 4 0) (8 * i) 8
    ((coresOf gc).flatMap helperQs).foldl (fun s q => s.modProc q fun p =>
      { p with row := p.row.map fun x => if p.drain ∧ mine x = true ∧ x.row = row then { x with reads := fld (pos.getD 3 0) (8 * i) 8 } else x }) s) s

/-- The tile that a restored session had loaded comes back from its block, which is checked again (R378). A failure stops a running
session with that status, and is the status of one that was stopped already. A read that stands still makes the restore wait. -/
def reloadTile (s : State) (gc : Nat) (w : Tow) : Except Nat State :=
  let fail := fun (c : Nat) => if w.st = 2 then setTow s gc { w with status := c } else stopTow s gc w c
  match w.lwt with
  | none => .ok (setTow s gc w)
  | some va =>
    let (s1, h, r) := readBlock s gc { w with cb := va }
    match r with
    | .error c => if isWait c then .error c else .ok (fail c)
    | .ok body =>
      match wtile s1 gc h body with
      | .error c => .ok (fail c)
      | .ok t => .ok (setTow s1 gc { w with bank := t })

/-- A queued request of a section: its record, over what was kept of it. -/
def queuedOf (base : Request) (gc vf ln : Nat) (d : List Word) : Request :=
  let op := if base.op ≠ 0 then base.op else if (d.getD 7 0).getLsbD 63 then 0xAB else 0x9F
  { base with op := op, q := movedQ gc base.q, vf := vf, ln := ln, park := false
              vrec := BitVec.ofNat 512 (if op = 0xAB then span d 0 6 + base.vrec.toNat / 2 ^ 384 * 2 ^ 384 else span d 0 8) }

/-- The Pontoon part of a section (R340, R378). -/
def restorePontoon (s : State) (gc vf ln : Nat) (kept : Kept) (flags : Word) (ws : List Word) : Except Nat State :=
  let queued := (upTo (min 24 (fld flags 8 8))).map fun i =>
    queuedOf (kept.queued.getD i {}) gc vf ln ((ws.drop (1808 + 8 * i)).take 8)
  let s2 := s.modEngine (seqHart gc) fun e => { e with queue := queued }
  if flags.getLsbD 1 then
    let w := towOf (kept.cluster.pontoon.tow.getD {}) gc vf ln ws ((ws.drop 2000).take 8)
    reloadTile (restoreReads s2 gc (ws.drop 8) (·.tow)) gc { w with st := if w.st = 1 then 0 else w.st }
  else
    let s3 := if flags.getLsbD 0 then
        let j := jobOf (kept.cluster.pontoon.job.getD {}) gc vf ln ws
        setJob (restoreReads s2 gc (ws.drop 8) (ofJob j)) gc j
      else s2
    .ok (s3.modPontoon gc fun po => { po with
      tail := kept.cluster.pontoon.tail.map fun j => { j with req := { j.req with q := movedQ gc j.req.q, vf := vf, ln := ln } } })

/-- The looping copies `rs` are kicked to the home Barge of cluster `gc`; none while its queue has no space for them (R24, R282). -/
def kickLoops (s : State) (gc : Nat) (rs : List Request) : Option State :=
  if rs = [] then some s
  else if 64 < (s.engine (homeSlice gc)).queue.length + rs.length then none
  else some (s.modEngine (homeSlice gc) fun e => { e with queue := e.queue ++ rs })

/-- The landing rings and the looping copies of a section (R304, R306); none while the copies cannot be kicked. -/
def restoreRings (s : State) (gc vf ln : Nat) (kept : Kept) (flags : Word) (ws : List Word) : Option State :=
  let loops := if flags.getLsbD 2 then (upTo 16).filter fun r => fld (ws.getD (101504 + 16 * r + 12) 0) 0 32 ≠ 0 else []
  let rings := (upTo 16).map fun r =>
    let base := kept.cluster.rings.get r {}
    (r, ({ base with
      cfg := ws.getD (72 + 2 * r) 0, party := ws.getD (73 + 2 * r) 0, looping := loops.contains r
      stages := (upTo 16).map fun k => (k, stageOf (ws.getD (101248 + 16 * r + k) 0)) } : Ring))
  kickLoops (s.modCluster gc fun c => { c with rings := rings.filter fun e => e.2.cfg != 0 }) gc
    (loops.map fun r => loopOf (kept.cluster.parkedLoops.get r {}) gc vf ln r ((ws.drop (101504 + 16 * r)).take 16))

/-- An enabled trace ring is cleared and given a marker (R452), whose requester is a free value: the spec names none. -/
def restoreTrace (s : State) (gc : Nat) : State :=
  (coresOf gc).foldl (fun s g =>
    if traceOn s g then
      traceEntry ({ s with freeCtr := s.freeCtr + 1 }.modCore g fun c => { c with trace := [] }) g
        (BitVec.ofNat 64 (0x7FFF + 2 ^ 16 + 2 ^ 19 * (Config.freeNat s.freeCtr % 2 ^ 21) + 2 ^ 52 * (s.tide.toNat % 2 ^ 12)))
    else s) s

/-- Restores the section at `va` onto cluster `gc` (R242); KILLED where a replay queue fails its check, a wait where a read stands
still or the home Barge has no space, else the code of the fault that failed the restore. -/
def restoreCluster (s : State) (gc vf ln : Nat) (va : Word) : Except Nat State :=
  match getImage s (hartQOf ferryman) vf va sectionDws with
  | .error c => .error c
  | .ok (s1, ws) =>
    let kept := s1.kept.get (keptKey vf va) {}
    let flags := ws.getD 1 0
    let s2 := clearCluster s1 gc
    let s3 := s2.modCluster gc fun c => { c with xwd := if 8512 ≤ fld flags 16 24 then fld flags 16 24 else 16384 }
    let s4 := (upTo 32768).foldl (fun s i =>
      { s with mem := Memory.writeList s.mem (spKey gc (8 * i)) (leBytes 8 (ws.getD (512 + i) 0).toNat) }) s3
    match restoreRings s4 gc vf ln kept flags ws with
    | none => .error WAITS
    | some s5 =>
      match restoreCores s5 gc vf ln (fld (ws.getD 0 0) 0 14) kept ws (upTo 8) with
      | .error c => .error c
      | .ok s6 =>
        match restorePontoon (restoreResponses s6 gc ws) gc vf ln kept flags ((ws.drop 99200).take 2048) with
        | .error c => .error c
        | .ok s7 => .ok (restoreTrace s7 gc)

end Sys2Proof.Machine
end

