-- ==== Sys2Proof/Machine/Ferryman.lean ====
section
/-!
DEFINITION. Launches (R229 to R251): queues and records, placement and start, retirement, pre-emption and restore, kill;
LAUNCH, EVSIG, EVWAIT, LQSTAT, YIELD and the Ferryman's own DTAKE and DPLACE.

Marks (notes/assumptions): DEDUCED (safe) 28; DEDUCED (unsafe) 31, 35, 36, 37, 38; DESIGN CHOICE (unsafe) 33, 34, 39,
62; DESIGN CHOICE (safe) 60.
-/

namespace Sys2Proof.Machine

/-! ### Queues (R229 to R231) -/

/-- The requester identifier of the Ferryman. -/
def ferryQ : Nat := hartQOf ferryman

/-- Function `vf` runs and has a queue `q`. -/
def hasQueue (s : State) (vf q : Nat) : Bool := (s.vfOf vf).en && (s.vfOf vf).qtab != 0 && decide (q < 16)

/-- The virtual address of a queue's descriptor. -/
def queueVa (s : State) (vf q : Nat) : Word := (s.vfOf vf).qtab + BitVec.ofNat 64 (64 * q)

/-- `n` doublewords read for agent `who` under a function. -/
def readDws (s : State) (who vf : Nat) (va : Word) (n : Nat) : Except Nat (State × List Word) :=
  match engReadBytes s who vf [] va (8 * n) with
  | .error c => .error c
  | .ok (t, bs) => .ok (t, wordsOf bs n)

/-- What a step of the Ferryman does where an access of it ends with code `c`: nothing while the access stands still (R424), else
`o`. -/
def ferryStop (s : State) (c : Nat) (o : State) : State := if isWait c then noteStall s ferryQ c else o

/-- A descriptor of eight doublewords. -/
structure QDesc where
  dws : List Word
  deriving DecidableEq, Repr

namespace QDesc
def dw (d : QDesc) (i : Nat) : Word := d.dws.getD i 0
def base (d : QDesc) : Word := d.dw 0
def lcap (d : QDesc) : Nat := fld (d.dw 1) 0 4
def pri (d : QDesc) : Nat := fld (d.dw 1) 4 2
def en (d : QDesc) : Bool := (d.dw 1).getLsbD 6
def hostq (d : QDesc) : Bool := (d.dw 1).getLsbD 7
def qw (d : QDesc) : Nat := fld (d.dw 1) 8 4
def tail (d : QDesc) : Word := d.dw 2
def head (d : QDesc) : Word := d.dw 3
def save (d : QDesc) : Word := d.dw 4
def savelen (d : QDesc) : Nat := (d.dw 5).toNat
/-- Not treated as disabled for its values (R230). -/
def ok (d : QDesc) : Bool :=
  decide (1 ≤ d.lcap) && decide (d.lcap ≤ 12) && decide (1 ≤ d.qw) && decide (fld (d.dw 1) 12 52 = 0) &&
  (d.dw 6) == 0 && (d.dw 7) == 0
/-- The slot at position `t`. -/
def slot (d : QDesc) (t : Word) : Word := d.base + BitVec.ofNat 64 (128 * (t.toNat % 2 ^ d.lcap))
end QDesc

/-- The descriptor of a queue, as the Ferryman reads it; none where its memory faults. -/
def readQueue (s : State) (vf q : Nat) : Option QDesc :=
  match readDws s ferryQ vf (queueVa s vf q) 8 with
  | .error _ => none
  | .ok (_, d) => some ⟨d⟩

/-- A queue whose memory has faulted is bad until its next doorbell (R230). -/
def markBad (s : State) (vf q : Nat) : State :=
  s.modVf vf fun f => { f with badq := if f.badq.contains q then f.badq else f.badq ++ [q] }

/-! ### Launches -/

/-- Two entries of the list of launches that stand for the same launch. -/
def sameSlot (a b : Launch) : Bool := a.vf == b.vf && a.queue == b.queue && a.pos == b.pos
def setLaunch (s : State) (l : Launch) : State := { s with launches := s.launches.map fun x => if sameSlot x l then l else x }
def dropLaunch (s : State) (l : Launch) : State := { s with launches := s.launches.filter fun x => !sameSlot x l }
def launchAt (s : State) (vf ln : Nat) : Option Launch := s.launches.find? fun l => l.vf == vf && l.ln == ln && (l.ln != 0 || l.st == .killed)

namespace Launch
def dw (l : Launch) (i : Nat) : Word := l.rec16.getD i 0
def ncl (l : Launch) : Nat := fld (l.dw 1) 0 14
def shp (l : Launch) : Nat := fld (l.dw 1) 14 2
def rw (l : Launch) : Nat := fld (l.dw 1) 16 6
def rh (l : Launch) : Nat := fld (l.dw 1) 22 6
def pair (l : Launch) : Bool := (l.dw 1).getLsbD 28
def ovl (l : Launch) : Bool := (l.dw 1).getLsbD 29
def cgs (l : Launch) : Nat := fld (l.dw 2) 0 14
def dgs (l : Launch) : Nat := fld (l.dw 2) 14 14
/-- It holds clusters. -/
def holds (l : Launch) : Bool :=
  match l.st with
  | .running | .marked | .resting | .killed => true
  | .taken | .saved => false
end Launch

/-- The launch that holds a cluster. -/
def holderOf (s : State) (gc : Nat) : Option Launch := s.launches.find? fun l => l.holds && l.cls.contains gc

/-- R233: whether a record can start, with `granted` clusters that are not fenced. -/
def recordOk (l : Launch) (granted : Nat) : Bool :=
  let d := l.dw
  decide (fld (d 1) 30 34 = 0) && decide (l.shp ≠ 3) && decide (1 ≤ l.ncl) && decide (l.ncl ≤ 12800) && decide (l.ncl ≤ granted) &&
  (decide (l.shp ≠ 1) || (decide (l.rw * l.rh = l.ncl) && decide (1 ≤ l.rw) && decide (l.rw ≤ 40) && decide (1 ≤ l.rh) && decide (l.rh ≤ 40))) &&
  (decide (l.shp ≠ 2) || decide (l.ncl % 1600 = 0)) && (!l.pair || decide (l.ncl % 2 = 0)) &&
  decide (fld (d 2) 30 2 = 0) && decide (fld (d 2) 56 8 = 0) &&
  (decide (l.cgs = 0) || decide (l.ncl % l.cgs = 0)) && (decide (l.dgs = 0) || decide (l.ncl % l.dgs = 0)) &&
  (decide (l.cgs = 0) || decide (l.dgs % l.cgs = 0)) && decide (l.cgs ≤ 1600) &&
  decide (fld (d 4) 7 57 = 0) && decide (fld (d 4) 0 3 < 6) &&
  decide (fld (d 7) 32 32 = 0) && decide (fld (d 7) 0 32 % 16 = 0) &&
  decide ((d 8).toNat % 8 = 0) && decide ((d 10).toNat % 8 = 0) && decide ((d 11).toNat % 16 = 0)

/-! ### The completion record (R238) -/

/-- The descriptors of the queues of function `vf` whose launches the Ferryman looks at are read: one whose memory faults is bad from
now on (R230). -/
def checkQueues (s : State) (vf : Nat) : State :=
  (upTo 16).foldl (fun s q =>
    if s.launches.any fun l => l.vf == vf && l.queue == q then
      match readDws s ferryQ vf (queueVa s vf q) 8 with
      | .error c => if isWait c then s else markBad s vf q
      | .ok _ => s
    else s) s

/-- Launches of function `vf` whose wev is the word at `va` are examined again (R246, R250). -/
def eventChanged (s : State) (vf : Nat) (va : Word) : State :=
  (s.launches.filter fun l => l.vf == vf && l.st == .taken && l.dw 8 == va).foldl
    (fun s l => raiseEvent s { kind := 6, vf := vf, queue := l.queue }) s

/-- The increment of an event word for the Ferryman, as EVSIG at system scope does it. -/
def signalWord (s : State) (vf : Nat) (va : Word) : Except Nat State :=
  match decodeVa s ferryQ vf va.toNat with
  | none => .error ADDR_INVALID
  | some .global =>
    if va.toNat % 8 ≠ 0 then .error MISALIGNED
    else match translate s ferryQ vf va.toNat .atomic with
      | .error c => .error (if c = WAITS then waitAt va else c)
      | .ok (s1, l) =>
        if isWcPageOf s1 ferryQ vf va.toNat then .error ATOMIC_TARGET
        else match l with
          | .own pa => .ok (eventChanged (atomicAt s1 ferryQ 0 pa 0 8 false 1 0).2 vf va)
          | .remote node pa _ =>
            let k := PacketKind.atomic 0 8 1 0
            match engRoute s1 ferryQ node va with
            | .error c => .error c
            | .ok 63 => .ok (eventChanged (serveMem s1 s1.fab.node pa k).2 vf va)
            | .ok port => .ok (sendPacket s1 port {
                dest := node, src := s1.fab.node, requester := ferryQ, addr := pa, va := va, agent := ferryQ, since := s1.tide, vf := vf
                kind := k })
          | _ => .error ATOMIC_TARGET
  | some _ => .error ATOMIC_TARGET

/-- The sixteen bytes of a completion record. -/
def completionWords (s : State) (l : Launch) (status cause : Nat) : List Word :=
  [BitVec.ofNat 64 (status + 2 ^ 8 * cause + 2 ^ 16 * l.ln), s.tide]

/-- Stores the record at cmpl and raises the function's vector (R238, R463); the fault where it cannot. -/
def storeCompletion (s : State) (l : Launch) (status cause : Nat) : Except Nat State :=
  if l.dw 11 = 0 then .ok s
  else match putImage s ferryQ l.vf (l.dw 11) (completionWords s l status cause) with
    | .error c => .error c
    | .ok t => .ok (raiseMsix t (1 + l.vf) 0)

/-- The end of a launch is reported: the record, then dev (R238); an access that stands still is the only failure. A fault of cmpl
leaves no record; a fault of dev is the status of the record, but for a record that fails R233, whose status stays, and the cause of a
kill stays in bits 15:8 beside it: that this is so is the model's choice (log entry 62). -/
def reportEnd (s : State) (l : Launch) (status cause : Nat) : Except Nat State :=
  let first : Nat → Except Nat State := fun st => match storeCompletion s l st cause with
    | .error c => if isWait c then .error c else .ok s
    | .ok t => .ok t
  match first status with
  | .error c => .error c
  | .ok t =>
    if l.dw 10 = 0 then .ok t
    else match signalWord t l.vf (l.dw 10) with
      | .ok u => .ok u
      | .error c => if isWait c then .error c else first (if status = RESERVED_FIELD then status else c)

/-- A step that ends a launch: it does nothing while the report stands still. -/
def reportTo (s s1 : State) (l : Launch) (status cause : Nat) (after : State → State) : State :=
  match reportEnd s1 l status cause with
  | .error c => noteStall s ferryQ c
  | .ok t => after t

/-! ### Clusters and time (R239) -/

/-- Cluster-cycles of a launch since it last started, counted from when its function began to wait. -/
def clusterCycles (s : State) (l : Launch) : Nat :=
  match (s.vfOf l.vf).accFrom with
  | none => 0
  | some t => if l.holds then l.cls.length * (s.tide.toNat - max t.toNat l.started.toNat) else 0

/-- Cluster-cycles of a function. -/
def accOf (s : State) (vf : Nat) : Nat :=
  (s.launches.filter (·.vf == vf)).foldl (fun m l => m + clusterCycles s l) (s.vfOf vf).accum

/-- The time-share weight. -/
def weightOf (s : State) (vf : Nat) : Nat := fld (s.vfOf vf).sch0 0 8

/-- No other function that waits for cluster `gc` has had less of the shared clusters, by weight. -/
def fairTo (s : State) (vf gc : Nat) : Bool :=
  s.vfs.all fun e => e.1 == vf || !e.2.en || !e.2.grant.contains gc || weightOf s e.1 == 0 ||
    !(s.launches.any fun l => l.vf == e.1 && l.waiting.isSome) ||
    decide (accOf s vf * weightOf s e.1 ≤ accOf s e.1 * weightOf s vf)

/-- A cluster that function `vf` may take now (R234, R239, R473). -/
def freeFor (s : State) (vf gc : Nat) : Bool :=
  let c := s.cluster gc
  (holderOf s gc).isNone && !c.fenced && !c.fencing && fairTo s vf gc

/-- The launch gives up its clusters: they are empty, and its time is counted. -/
def freeClusters (s : State) (l : Launch) : State :=
  let s1 := s.modVf l.vf fun f => { f with accum := f.accum + clusterCycles s l }
  l.cls.foldl clearCluster s1

/-! ### Placement (R234) -/

/-- The cluster at a column and a row of a die (R13). -/
def gridCluster (die col row : Nat) : Nat := 1600 * die + 40 * row + col

/-- Clusters 2i and 2i + 1 of a list are a cluster pair of one die (R15). -/
def pairsOk : List Nat → Bool
  | a :: b :: rest => decide (a % 2 = 0) && decide (b = a + 1) && pairsOk rest
  | [] => true
  | [_] => false

/-- Each run of `n` clusters lies on one die. -/
def runsOk (n : Nat) (cs : List Nat) : Bool :=
  n == 0 || (upTo cs.length).all fun i => dieOfCluster (cs.getD i 0) == dieOfCluster (cs.getD (i / n * n) 0)

/-- The clusters fill a rectangle of one die. -/
def rectOk (w h : Nat) (cs : List Nat) : Bool :=
  match cs with
  | [] => false
  | c :: _ =>
    let col := fun (x : Nat) => x % 1600 % 40
    let row := fun (x : Nat) => x % 1600 / 40
    let c0 := cs.foldl (fun m x => min m (col x)) (col c)
    let r0 := cs.foldl (fun m x => min m (row x)) (row c)
    cs.all fun x => dieOfCluster x == dieOfCluster c && decide (col x < c0 + w) && decide (row x < r0 + h)

/-- The global clusters `cs`, in launch order, satisfy the launch's shape and domains (R234). -/
def placesOk (l : Launch) (ok : Nat → Bool) (cs : List Nat) : Bool :=
  decide (cs.length = l.ncl) && decide (cs.eraseDups.length = cs.length) && cs.all ok &&
  (!l.pair || pairsOk cs) && runsOk l.cgs cs &&
  (match l.shp with
   | 1 => rectOk l.rw l.rh cs
   | 2 => (upTo 8).all fun d => [0, 1600].contains (cs.filter fun c => dieOfCluster c == d).length
   | _ => true)

/-- A placement by first fit in cluster order: rectangles row by row, whole dies in order, any clusters die by die in whole
runs. -/
def firstFit (l : Launch) (ok : Nat → Bool) (grant : List Nat) : Option (List Nat) :=
  let can := fun (c : Nat) => grant.contains c && ok c
  let dies := upTo Config.dies
  match l.shp with
  | 1 =>
    (dies.flatMap fun d => (upTo (41 - l.rh)).flatMap fun r => (upTo (41 - l.rw)).map fun c =>
      (upTo (l.rw * l.rh)).map fun i => gridCluster d (c + i % l.rw) (r + i / l.rw)).find? (placesOk l can)
  | 2 =>
    let whole := dies.filter fun d => (upTo 1600).all fun i => can (1600 * d + i)
    let cs := (whole.flatMap fun d => (upTo 1600).map fun i => 1600 * d + i).take l.ncl
    if placesOk l can cs then some cs else none
  | _ =>
    let unit := Nat.lcm (max 1 l.cgs) (if l.pair then 2 else 1)
    let cs := (dies.flatMap fun d =>
      let av := (upTo 1600).map (1600 * d + ·) |>.filter fun c => can c && (!l.pair || can (c / 2 * 2) && can (c / 2 * 2 + 1))
      av.take (av.length / unit * unit)).take l.ncl
    if placesOk l can cs then some cs else none

/-- The clusters for a launch: those the environment proposes, as virtual cluster numbers, where they are a placement, else
the first fit. -/
def placesFor (s : State) (l : Launch) (ok : Nat → Bool) (proposal : List Int) : Option (List Nat) :=
  let grant := (s.vfOf l.vf).grant
  let cs := proposal.map fun v => grant.getD v.toNat Config.clusters
  if placesOk l (fun c => grant.contains c && ok c) cs then some cs else firstFit l ok grant

/-- The virtual cluster number of a cluster (R229). -/
def vclOf (s : State) (vf gc : Nat) : Nat := ((s.vfOf vf).grant.takeWhile (· != gc)).length

/-! ### The start of a launch (R74, R133, R235) -/

/-- sdm of launch-relative cluster `lc` (R235). -/
def sdmOf (l : Launch) (lc : Nat) : Word :=
  let d := l.dw 2
  BitVec.ofNat 64 (b2n (l.cgs != 0) + 2 * b2n (l.dgs != 0) + 4 * b2n (d.getLsbD 28) + 8 * b2n (d.getLsbD 29) +
    2 ^ 4 * (lc / l.cgs) + 2 ^ 18 * (lc / l.dgs) + 2 ^ 44 * fld d 32 12)

/-- g1 to g10 of the control context of core `c` of cluster `lc` (R235). -/
def startRegs (l : Launch) (lc c : Nat) : Vector Word 48 :=
  let stack := l.dw 6
  let g2 := if stack = 0 then 0 else stack + BitVec.ofNat 64 (fld (l.dw 7) 0 32 * (8 * lc + c + 1))
  let vs := [(2, g2), (3, BitVec.ofNat 64 lc), (4, BitVec.ofNat 64 c), (5, l.dw 3), (6, BitVec.ofNat 64 l.ncl), (7, BitVec.ofNat 64 l.ln),
    (8, l.dw 12), (9, l.dw 13), (10, l.dw 14)]
  vs.foldl (fun r e => r.setIfInBounds e.1 e.2) (Vector.replicate 48 0)

/-- The control context of core `c` of cluster `lc` as it starts. -/
def startProc (l : Launch) (lc c : Nat) (now : Word) : Proc :=
  { st := .live, aen := true, vf := l.vf, resumeAt := now + 1
    r := { pc := l.dw 0, g := startRegs l lc c, fcsr := masked (l.dw 4) 0x7F, srseed := l.dw 5 } }

/-- Cluster `gc` as a launch finds it: local memories read zero, the core and Tollhouse registers hold their reset values
(R7, R441). -/
def freshCluster (s : State) (gc : Nat) : State :=
  let s1 := clearCluster s gc
  let s2 := { s1 with mem := s1.mem.filter fun e =>
    !((decide (tcmKey (8 * gc) 0 ≤ e.1) && decide (e.1 < tcmKey (8 * gc + 8) 0)) ||
      (decide (spKey gc 0 ≤ e.1) && decide (e.1 < spKey (gc + 1) 0))) }
  s2.modCluster gc fun c => { c with
    xwd := 16384, tdctl := 8, tdst := 0, dbg := [], tbp := Vector.replicate 4 0, tbpc := 0, imb := [], imbLost := 0 }

/-- Core `c` of cluster `gc`, launch-relative cluster `lc`, starts (R235). -/
def startCore (s : State) (l : Launch) (gc lc c : Nat) : State :=
  let g := 8 * gc + c
  (s.setCore g { sdm := sdmOf l lc, lnid := l.ln, owner := some (l.vf, l.ln), vcl := vclOf s l.vf gc }).setProc (ctl g)
    (startProc l lc c s.tide)

/-- Cluster `gc` starts as launch-relative cluster `lc`. -/
def startCluster (s : State) (l : Launch) (gc lc : Nat) : State :=
  (upTo 8).foldl (fun s c => startCore s l gc lc c) (freshCluster s gc)

/-- The next launch identifier after `n` (R235). -/
def nextLn (n : Nat) : Nat := if 2 ^ 32 - 1 ≤ n then 1 else n + 1

/-- A launch is placed on clusters and starts (R235); a bad entry kills it (R236). -/
def placeLaunch (s : State) (l : Launch) (cs : List Nat) : State :=
  let ln := nextLn (s.vfOf l.vf).lastLn
  let l1 := { l with
    ln := ln, st := .running, cls := cs, vcls := cs.map (vclOf s l.vf), held := false, waiting := none, started := s.tide }
  let s1 := setLaunch (s.modVf l.vf fun f => { f with lastLn := ln }) l1
  let s2 := ((upTo cs.length).zip cs).foldl (fun s e => startCluster s l1 e.2 e.1) s1
  match checkTarget s2 (ctl (8 * cs.headD 0)) (l.dw 0) with
  | .ok s3 => s3
  | .error c => s2.pushTurn .launchKill { a := l.vf, b := ln, c := 2, w := BitVec.ofNat 64 c }

/-! ### Eligibility and service (R237, R240, R242) -/

/-- The word at wev has reached wtgt: none where reading it faults. -/
def eventReached (s : State) (l : Launch) : Except Nat Bool :=
  if l.dw 8 = 0 then .ok true
  else match readDws s ferryQ l.vf (l.dw 8) 1 with
    | .error c => .error c
    | .ok (_, d) => .ok (decide ((l.dw 9).toNat ≤ (d.getD 0 0).toNat))

/-- The launch before `l` in its queue, if it has not ended. -/
def prevLaunch (s : State) (l : Launch) : Option Launch :=
  s.launches.find? fun x => x.vf == l.vf && x.queue == l.queue && decide ((x.pos + 1) % 2 ^ 64 = l.pos)

/-- A launch is eligible (R237, R242): a pre-empted one at once; a taken one when its event word has come, the launch before
it in its queue allows it, and no pre-empted launch of its queue stands before it. -/
def eligible (s : State) (l : Launch) : Bool :=
  match l.st with
  | .saved => true
  | .taken =>
    (match eventReached s l with
     | .ok b => b
     | .error _ => false) &&
    (match prevLaunch s l with
     | none => true
     | some p => l.ovl && p.st != .taken) &&
    !(s.launches.any fun x => x.vf == l.vf && x.queue == l.queue && x.st == .saved)
  | _ => false

/-- The launch that queue `q` offers: its oldest pre-empted one, or its head. -/
def headOf (s : State) (vf q : Nat) : Option Launch :=
  let ls := s.launches.filter fun l => l.vf == vf && l.queue == q
  match ls.find? (·.st == .saved) with
  | some l => some l
  | none => ls.find? fun l => eligible s l

/-- Priority and DRR weight of a queue, as its descriptor gives them. -/
def queueRank (s : State) (vf q : Nat) : Nat × Nat :=
  match readQueue s vf q with
  | none => (0, 1)
  | some d => (d.pri, d.qw)

/-- The queues of a function with an eligible head at a priority. -/
def offering (s : State) (vf p : Nat) : List Nat := (upTo 16).filter fun q => (headOf s vf q).isSome && (queueRank s vf q).1 == p

/-- Deficit round-robin (R237) from queue `q`: the queue whose head is served, and the deficits. `add` tells that `q` gets
its share on this visit. Before any queue has been served the model takes queue 0 as the last served, with no share on that visit: the
spec names no start (log entry 62). -/
def drrServe (s : State) (vf : Nat) (qs : List Nat) : Nat → FMap Nat → Nat → Bool → Option (Nat × FMap Nat)
  | 0, _, _, _ => none
  | fuel + 1, d, q, add =>
    let next := match qs.find? fun x => decide (q < x) with
      | some x => x
      | none => qs.headD 0
    if !qs.contains q then drrServe s vf qs fuel d next true
    else
      let have' := d.get q 0 + if add then 64 * (queueRank s vf q).2 else 0
      let need := ((headOf s vf q).map Launch.ncl).getD 0
      if need ≤ have' then some (q, d.put q (have' - need))
      else drrServe s vf qs fuel (d.put q have') next true

/-- The held launch of function `vf` of the highest priority (R240). -/
def heldTop (s : State) (vf : Nat) : Option Launch :=
  (s.launches.filter fun l => l.vf == vf && l.held).foldl (fun m l =>
    match m with
    | none => some l
    | some x => if (queueRank s vf x.queue).1 < (queueRank s vf l.queue).1 then some l else some x) none

/-- The launch of function `vf` to place or restore now, and the state with the deficits it leaves (R237, R240): a held
launch is served first unless a launch of higher priority is eligible. -/
def chosen (s : State) (vf : Nat) : Option (Launch × State) :=
  let pris := [3, 2, 1, 0]
  let top := pris.find? fun p => !(offering s vf p).isEmpty
  let serve := fun (p : Nat) =>
    let qs := offering s vf p
    let f := s.vfOf vf
    let d := f.drr.filter fun e => (headOf s vf e.1).isSome
    match drrServe s vf qs 20000 d f.lastq false with
    | none => none
    | some (q, d') => (headOf s vf q).map fun l => (l, s.modVf vf fun f => { f with drr := d', lastq := q })
  match heldTop s vf, top with
  | some h, some p => if (queueRank s vf h.queue).1 < p then serve p else some (h, s)
  | some h, none => some (h, s)
  | none, some p => serve p
  | none, none => none

/-- The launch is held for want of clusters (R240); where it waits for a cluster that another function is granted too, its function
waits, and its time counts from then (R239). -/
def holdLaunch (s : State) (l : Launch) : State :=
  let shared := (s.vfOf l.vf).grant.any fun gc =>
    (holderOf s gc).isSome && s.vfs.any fun e => e.1 != l.vf && e.2.en && e.2.grant.contains gc
  let s1 := if shared then s.modVf l.vf fun f => { f with accFrom := some (f.accFrom.getD s.tide) } else s
  setLaunch s1 { l with held := true, waiting := if shared then some (l.waiting.getD s.tide) else l.waiting }

/-- The Ferryman's default microcode may place or restore launches of a function (R27): it runs, the function runs with a weight, no change of clock is
under way (R229, R472). -/
def mayPlace (s : State) (vf : Nat) : Bool :=
  runsDefault s ferryman && (s.vfOf vf).en && decide (1 ≤ weightOf s vf) && !s.goingFull && decide (s.thermal ≠ 2)

/-- A launch whose event word cannot be read ends with that fault's code (R233); a read that begins to stand still is noted. -/
def failEvent (s : State) (vf : Nat) : Option State :=
  (s.launches.filter fun l => l.vf == vf && l.st == .taken).findSome? fun l =>
    match eventReached s l with
    | .error c =>
      if isWait c then (if noteStall s ferryQ c = s then none else some (noteStall s ferryQ c))
      else some (reportTo s (dropLaunch s l) l c 0 id)
    | .ok _ => none

/-- LAUNCH_PLACEMENT (R234 to R237, R240): the launch of function `a` to be served now is placed, on the virtual clusters
`ints` where they are a placement, or held. -/
def execLaunchPlacement (s : State) : Out :=
  let vf := s.inp.a
  let s0 := checkQueues s vf
  if !mayPlace s vf then .next s
  else match failEvent s0 vf with
    | some t => .next t
    | none =>
      match chosen s0 vf with
      | none => .next s0
      | some (l, s1) =>
        if l.st ≠ .taken then .next s0
        else match placesFor s1 l (freeFor s1 vf) s.inp.ints with
          | some cs => .next (placeLaunch s1 l cs)
          | none => .next (holdLaunch s1 l)

/-! ### Taking a record (R231, R233) -/

/-- The kick of LAUNCH for position `t` of a queue (R245). -/
def isLaunchReq (vf q : Nat) (t : Word) (r : Request) : Bool :=
  r.op == 0x89 && r.vf == vf && r.sel == q && r.rid == BitVec.ofNat 64 (fld t 0 32) && r.tag == fld t 32 32

/-- The completion of LAUNCH (R245). -/
def launchFrame (r : Request) (status : Nat) : BitVec 128 := frameOf status 4 r.rid.toNat r.sel r.tag

/-- The kicks of a taken record complete with a status; one whose issuer is pre-empted completes after its restore. -/
def answerLaunch (s : State) (vf q : Nat) (t : Word) (status : Nat) : State :=
  let mine := (s.engine ferryman).queue.filter (isLaunchReq vf q t)
  let keep := fun (r : Request) =>
    if isLaunchReq vf q t r then (if r.park then some { r with bound := some status } else none) else some r
  let s1 := s.modEngine ferryman fun e => { e with queue := e.queue.filterMap keep }
  (mine.filter fun r => !r.park).foldl (fun s r => post s ferryman r (launchFrame r status)) s1

/-- LAUNCH_RECORD_TAKE (R231, R233): the Ferryman takes the record at head of queue `b` of function `a`. -/
def execLaunchRecordTake (s : State) : Out :=
  let vf := s.inp.a
  let q := s.inp.b
  let bad : Nat → Out := fun c => .next (ferryStop s c (markBad s vf q))
  if runsDefault s ferryman = false ∨ hasQueue s vf q = false ∨ (s.vfOf vf).badq.contains q = true ∨
      s.launches.any (fun l => l.vf == vf && l.queue == q && l.st == .taken) = true then .next s
  else match readDws s ferryQ vf (queueVa s vf q) 8 with
    | .error c => bad c
    | .ok (s1, ws) =>
      let d : QDesc := ⟨ws⟩
      if !d.ok || !d.en then .next s
      else match readDws s1 ferryQ vf (d.slot d.head) 16 with
        | .error c => bad c
        | .ok (s2, r) =>
          if r.getD 15 0 ≠ d.head + 1 then .next s
          else match putImage s2 ferryQ vf (queueVa s vf q + 24) [d.head + 1] with
            | .error c => bad c
            | .ok s3 =>
              let l : Launch := { vf := vf, queue := q, pos := d.head.toNat, rec16 := r }
              let granted := ((s.vfOf vf).grant.filter fun gc => !(s.cluster gc).fenced).length
              if recordOk l granted then .next (answerLaunch { s3 with launches := s3.launches ++ [l] } vf q d.head DONE)
              else .next (reportTo s (answerLaunch s3 vf q d.head RESERVED_FIELD) l RESERVED_FIELD 0 id)

/-- DOORBELL (R229, R230): queues `b` of function `a` have new records; the Ferryman tries their memory again. -/
def execDoorbell (s : State) : Out :=
  let qs := (upTo 16).filter fun q => s.inp.b.testBit q
  let s1 := s.modVf s.inp.a fun f => { f with badq := f.badq.filter fun q => !qs.contains q }
  .next (qs.foldl (fun s q => raiseEvent s { kind := 1, vf := s.inp.a, queue := q }) s1)

/-! ### Retirement (R31) -/

/-- A request of a launch. -/
def isReqOf (vf ln : Nat) (r : Request) : Bool := r.vf == vf && r.ln == ln

/-- Every control context of the launch has executed HALT. -/
def allHalted (s : State) (l : Launch) : Bool := (l.cls.flatMap coresOf).all fun g => (s.proc (ctl g)).st == .ended

/-- Requests of a launch that are outstanding at engines of a kind; a stopped session has no request outstanding. -/
def bargeBusy (s : State) (p : Request → Bool) : Bool := s.engines.any fun e => decide (e.1 < 640) && e.2.all.any p
def fordBusyWith (s : State) (p : Request → Bool) : Bool :=
  s.engines.any (fun e => decide (13440 ≤ e.1) && decide (e.1 < 13456) && e.2.queue.any p) ||
  s.fords.any fun e => (e.2.hand.map fun j => p j.req).getD false
def pontoonBusy (s : State) (gc : Nat) : Bool :=
  let po := s.pontoon gc
  !(seqQueue s gc).isEmpty || po.job.isSome || po.tail.isSome || (po.tow.map fun w => w.st != 2 || w.done.isSome).getD false
def xformBusy (s : State) (gc : Nat) : Bool := (s.cluster gc).xslots.any fun e => !e.2.answered

/-- Every engine request that the launch issued has completed. -/
def allComplete (s : State) (l : Launch) : Bool :=
  let p := isReqOf l.vf l.ln
  !bargeBusy s p && !fordBusyWith s p && !(s.engine ferryman).queue.any p && !(l.cls.any fun gc => pontoonBusy s gc || xformBusy s gc)

/-- What ends with a launch: its Ford enrolments (R410) and its barrier counts. -/
def endLaunch (s : State) (l : Launch) : State :=
  let s1 := dropLaunch (freeClusters s l) l
  { s1 with
    fords := s1.fords.map fun e => if e.2.enr == some (l.vf, l.ln) then (e.1, { e.2 with enr := none, nent := 0, base := 0 }) else e
    barriers := s1.barriers.filter fun e => !(e.1.1 == l.vf && e.1.2.1 == l.ln) }

/-- LAUNCH_RETIREMENT (R31, R238): launch `b` of function `a` retires. -/
def execLaunchRetirement (s : State) : Out :=
  match launchAt s s.inp.a s.inp.b with
  | none => .next s
  | some l =>
    if (l.st = .running ∨ l.st = .marked) ∧ allHalted s l = true ∧ allComplete s l = true then
      .next (reportTo s (endLaunch s l) l DONE 0 fun t => raiseEvent t { kind := 2, vf := l.vf, queue := l.queue, ln := l.ln })
    else .next s

/-! ### Pre-emption (R241) -/

/-- Bytes of a save image (R243). -/
def imageBytes (l : Launch) : Nat := 4096 + 815104 * l.ncl

/-- Where the image of a launch goes in its queue's save area: after those of the queue's other pre-empted launches. -/
def imageAt (s : State) (l : Launch) (d : QDesc) : Word :=
  (s.launches.filter fun x => x.vf == l.vf && x.queue == l.queue && x.st == .saved).foldl
    (fun m x => if m.toNat < x.image.toNat + imageBytes x then x.image + BitVec.ofNat 64 (imageBytes x) else m) d.save

/-- A launch is pre-emptible (R239): its queue has a save area that its image fits in. -/
def preemptible (s : State) (l : Launch) : Bool :=
  l.st == .running && match readQueue s l.vf l.queue with
    | none => false
    | some d => d.save != 0 && decide ((imageAt s l d).toNat + imageBytes l ≤ d.save.toNat + d.savelen)

/-- Marks pre-emption pending on the cores of a cluster. -/
def markCluster (s : State) (gc : Nat) : State := (coresOf gc).foldl (fun s g => s.modCore g fun c => { c with preempt := true }) s

/-- Marks a launch (R241). -/
def markLaunch (s : State) (l : Launch) : State := l.cls.foldl markCluster (setLaunch s { l with st := .marked, since := s.tide })

/-- Clusters that will be free once the launches already marked are saved count as free for a held launch (R240). -/
def freeSoon (s : State) (vf gc : Nat) : Bool :=
  freeFor s vf gc || match holderOf s gc with
    | some h => (h.st == .marked || h.st == .resting) && !(s.cluster gc).fenced
    | none => false

/-- The held launch `h` still lacks clusters when those of the launches already marked count as free: any placement, or of a
pre-empted launch its own clusters (R240, R242). -/
def lacksClusters (s : State) (h : Launch) : Bool :=
  if h.st == .saved then !(h.vcls.all fun v => freeSoon s h.vf ((s.vfOf h.vf).grant.getD v Config.clusters))
  else (placesFor s h (freeSoon s h.vf) []).isNone

/-- Why the Ferryman pre-empts launch `l` now (R240, R472): a held launch of its function at a higher priority still lacks
clusters, and `l` is the lowest there is; or the clock is to change. -/
def preemptWanted (s : State) (l : Launch) : Bool :=
  let pri := fun (x : Launch) => (queueRank s x.vf x.queue).1
  s.goingFull ||
  match heldTop s l.vf with
  | none => false
  | some h =>
    decide (pri l < pri h) && lacksClusters s h && s.launches.all fun x => x.vf != l.vf || !preemptible s x || decide (pri l ≤ pri x)

/-- PREEMPTION_MARK (R241): launch `b` of function `a`. -/
def execPreemptionMark (s : State) : Out :=
  match launchAt s s.inp.a s.inp.b with
  | none => .next s
  | some l =>
    let s0 := checkQueues s l.vf
    if runsDefault s ferryman && preemptible s l && preemptWanted s l then .next (markLaunch s0 l) else .next s0

/-- TIME_SLICE_EXPIRY (R239): a launch of function `a` has waited tslice × 1,024 cycles for a shared cluster that launch `c`
of function `b` holds; the holder is pre-empted. -/
def execTimeSliceExpiry (s : State) : Out :=
  match launchAt s s.inp.b s.inp.c with
  | none => .next s
  | some l =>
    let s0 := checkQueues s l.vf
    let due := 1024 * (s.vfOf l.vf).tslice
    let waits := s.launches.any fun w => w.vf == s.inp.a && match w.waiting with
      | some t => decide (t.toNat + due ≤ s.tide.toNat)
      | none => false
    if s.inp.a ≠ l.vf ∧ waits = true ∧ l.cls.any (fun gc => (s.vfOf s.inp.a).grant.contains gc) = true ∧ preemptible s l = true ∧
        runsDefault s ferryman = true then .next (markLaunch s0 l)
    else .next s0

/-- A context that still has to end what it has begun before it can stop: a barrier that has released, an instruction that
nothing interrupts. An access to another package runs again after the restore, with a fresh timeout (R424). -/
def mustFinish (p : Proc) : Bool :=
  match p.wait with
  | .released _ | .busy _ => true
  | _ => false

/-- A result that the replay queue keeps: of a vector instruction (R225). -/
def isVectorWrite (w : RegWrite) : Bool :=
  match w with
  | .v _ _ _ | .k _ _ _ | .flags _ | .hist _ _ | .vg _ _ => true
  | _ => false

/-- An entry joins the replay queue of its core; counts join that of the core whose bins they are for (R222, R227). -/
def keepReplay (q : Nat) (s : State) (e : Flying) : State :=
  let (g, k) := match e.w with
    | .hist g _ => if g = coreOf q then (g, slotOf q) else (g, 0)
    | _ => (coreOf q, slotOf q)
  s.modCore g fun c => { c with replay := c.replay ++ [(k, e)] }

/-- Context `q` stops at a head boundary (R225, R241): its chunk is discarded; of its results in flight those that are due are
written, and of the others those of scalar instructions, while those of vector instructions join the replay queue, and with them the
parts that a split store has left. -/
def stopContext (s : State) (q : Nat) : State :=
  let s1 := landFlight (discardChunk s q) q s.tide.toNat
  let fl := (s1.proc q).flight
  let s2 := (byDue (fl.filter fun e => !isVectorWrite e.w)).foldl (fun s e => applyWrite s q e.w) s1
  let left : List Flying := if (s.proc q).wait = .parts then [⟨s.tide.toNat, s.tide.toNat, .parts⟩] else []
  ((fl.filter fun e => isVectorWrite e.w) ++ left).foldl (keepReplay q) s2 |>.modProc q fun p =>
    { p with flight := [], due := [], wait := .idle, discards := 0, single := false }

/-- Every context of a cluster stops, and its cores issue no more. -/
def stopCluster (s : State) (gc : Nat) : State :=
  (coresOf gc).foldl (fun s g =>
    ((upTo 11).foldl (fun s k => if (s.proc (ctl g + k)).st == .live then stopContext s (ctl g + k) else s) s).modCore g fun c =>
      { c with parked := true, preempt := false }) s

/-- A looping copy of cluster `gc` that can leave its Barge now: it writes no stage, and no microcode has it in hand. -/
def loopLeaves (s : State) (gc : Nat) (h : Nat) (inSlot : Bool) (r : Request) : Bool :=
  r.op == 0x92 && clusterOf r.q == gc && !isHart r.q && r.bound.isNone && decide (r.next = 0) && r.fin.isNone && !r.killed && !r.canc &&
  (!inSlot || !(s.proc (hartQOf h)).loaded)

/-- The looping copies of cluster `gc` that can leave their Barges are parked with their rings; the others are marked (R304,
R319). -/
def parkLoops (s : State) (gc : Nat) : State :=
  let out := s.engines.flatMap fun (e : Nat × Engine) => if 640 ≤ e.1 then [] else
    (e.2.queue ++ e.2.fwd).filter (loopLeaves s gc e.1 false) ++ e.2.slots.vals.filter (loopLeaves s gc e.1 true)
  let mark := fun (x : Nat × Request) => (x.1, if x.2.op == 0x92 && clusterOf x.2.q == gc then { x.2 with park := true } else x.2)
  let leave := fun (e : Nat × Engine) =>
    if 640 ≤ e.1 then e
    else (e.1, { e.2 with
      queue := e.2.queue.filter fun r => !loopLeaves s gc e.1 false r
      fwd := e.2.fwd.filter fun r => !loopLeaves s gc e.1 false r
      slots := (e.2.slots.filter fun x => !loopLeaves s gc e.1 true x.2).map mark })
  let s1 := { s with engines := s.engines.map leave }
  s1.modCluster gc fun c => { c with parkedLoops := out.foldl (fun m r => m.put (r.ring.getD 0) r) c.parkedLoops }

/-- The job of a cluster, in one of its two places, that has failed or been cancelled and has no live handler: it ends. -/
def endFailed (s : State) (gc : Nat) (j : Option PJob) (without : Pontoon → Pontoon) : State :=
  match j with
  | none => s
  | some j => match j.fail with
    | none => s
    | some c => if handlerLive s gc (ofJob j) then s else endJob (s.modPontoon gc without) gc j c

/-- Jobs and sessions of cluster `gc` come to rest (R339, R378): the engine stands at a boundary between any two of its
steps. With pmode 1 jobs are cancelled, each ending once those accepted before it have ended (R329). -/
def restPontoon (s : State) (gc : Nat) (cancel : Bool) : State :=
  let h := seqHart gc
  let stop := fun (j : PJob) => if cancel then j.cancel else j
  let s1 := s.modPontoon gc fun po => { po with
    preempt := true
    tail := po.tail.map stop
    job := po.job.map fun j =>
      let j1 := stop j
      if j1.fail.isSome || j1.parked != 0 then { j1 with parked := if j1.fail.isSome then j1.parked else 1 }
      else { j1 with parked := 1, parkedOnce := j1.parkedOnce || !j1.draining } }
  let s2 := if cancel then s1.modEngine h fun e => e.mapReq (fun r => !isTow r) fun r => { r with canc := true } else s1
  let s3 := endFailed s2 gc (s2.pontoon gc).tail fun po => { po with tail := none }
  let s4 := afterJob gc (if (s3.pontoon gc).tail.isSome then s3 else endFailed s3 gc (s3.pontoon gc).job fun po => { po with job := none })
  match (s4.pontoon gc).tow with
  | none => s4
  | some w =>
    if w.done.isSome || w.st == 2 || w.leaving then s4
    else match w.fail with
      | some c => stopTow s4 gc w c
      | none => (parkTow s4 gc w).1

/-- Requests of a cluster come to rest, as far as they can now (R241). -/
def restCluster (s : State) (gc : Nat) (cancel : Bool) : State :=
  let s1 := restPontoon (parkLoops s gc) gc cancel
  let s2 := s1.modCluster gc fun c => { c with xclaims := [], xheld := [] }
  s2.modEngine ferryman fun e => e.mapReq (fun r => clusterOf r.q == gc && !isHart r.q) fun r => { r with park := true }

/-- No store to another package that the transform unit or the sequencer of cluster `gc` has sent is outstanding (R244, R278). -/
def unitsSent (s : State) (gc : Nat) : Bool :=
  (s.proc (xUnit gc)).remoteOut.all (isLost s) && (s.proc (hartQOf (seqHart gc))).remoteOut.all (isLost s)

/-- Every request of cluster `gc` is at rest, and nothing is in flight to or from its cores (R185, R241). -/
def atRest (s : State) (gc : Nat) : Bool :=
  let mine := fun (r : Request) => !isHart r.q && clusterOf r.q == gc
  !bargeBusy s mine && !fordBusyWith s mine && !xformBusy s gc && unitsSent s gc &&
  (coresOf gc).all fun g => (upTo 11).all fun k => (s.proc (ctl g + k)).remoteOut.all (isLost s)

/-- The header of a save image (R243): the record, then lnid in doubleword 16 and the cycles already run in doubleword 17, as one
count, which is the model's choice (log entry 62). -/
def imageHeader (s : State) (l : Launch) : List Word :=
  padTo 512 (padTo 16 l.rec16 ++ [BitVec.ofNat 64 l.ln, l.ran + (s.tide - l.started)])

/-- The address of the section of launch-relative cluster `i`. -/
def sectionVa (image : Word) (i : Nat) : Word := image + BitVec.ofNat 64 (4096 + 815104 * i)

/-- The sections of a launch are written in order; the first fault otherwise. -/
def saveSections (s : State) (l : Launch) (image : Word) : Nat → List (Nat × Nat) → Except Nat State
  | _, [] => .ok s
  | i, (gc, vcl) :: rest =>
    match saveCluster s gc vcl l.vf (sectionVa image i) with
    | .error c => .error c
    | .ok t => saveSections t l image (i + 1) rest

/-- The records queued at a cluster's sequencer leave with its image. -/
def emptyQueue (s : State) (gc : Nat) : State := s.modEngine (seqHart gc) fun e => { e with queue := [] }

/-- A pre-emption that cannot be completed is given up: the launch runs on; none while its looping copies cannot be kicked again. -/
def resumeCluster (s : State) (gc : Nat) : Option State :=
  let s1 := (coresOf gc).foldl (fun s g =>
    let s1 := replayCore s g (s.core g).replay
    ((upTo 11).foldl (fun s k => s.modProc (ctl g + k) fun p => { p with wait := if p.wait == .parked then .idle else p.wait }) s1).modCore g
      fun c => { c with parked := false, preempt := false, replay := [] }) s
  let loops := (s1.cluster gc).parkedLoops.vals.map fun r => { r with fwd := false, park := false, restored := true }
  (kickLoops s1 gc loops).map fun s2 => (s2.modCluster gc fun c => { c with parkedLoops := [] }).modPontoon gc fun po => { po with
    preempt := false, job := po.job.map fun j => { j with parked := if j.parked = 1 then 0 else j.parked } }

/-- A launch goes on where its image could not be written. -/
def abandonSave (s : State) (l : Launch) : State :=
  match l.cls.foldlM resumeCluster s with
  | none => s
  | some s1 =>
    setLaunch (s1.modEngine ferryman fun e => e.mapReq (isReqOf l.vf l.ln) fun r => { r with park := false }) { l with st := .running }

/-- The image of a launch at rest is written and its clusters are freed (R241). -/
def saveLaunch (s : State) (l : Launch) : State :=
  match readDws s ferryQ l.vf (queueVa s l.vf l.queue) 8 with
  | .error c => ferryStop s c (abandonSave (markBad s l.vf l.queue) l)
  | .ok (_, ws) =>
    let image := imageAt s l ⟨ws⟩
    match putImage s ferryQ l.vf image (imageHeader s l) with
    | .error c => ferryStop s c (abandonSave s l)
    | .ok s1 =>
      match saveSections s1 l image 0 (l.cls.zip l.vcls) with
      | .error c => ferryStop s c (abandonSave s l)
      | .ok s2 =>
        let s3 := freeClusters (l.cls.foldl emptyQueue s2) l
        setLaunch s3 { l with st := .saved, image := image, ran := l.ran + (s.tide - l.started), waiting := none }

/-- The launch may stop now (R241): every control context has parked or halted, or the grace time has passed; what has to
finish has. -/
def mayStop (s : State) (l : Launch) : Bool :=
  let gs := l.cls.flatMap coresOf
  let parked := gs.all fun g => (s.proc (ctl g)).st == .ended || (s.proc (ctl g)).wait == .parked
  (parked || decide (l.since.toNat + (s.vfOf l.vf).grace ≤ s.tide.toNat)) &&
  gs.all fun g => (upTo 11).all fun k => !mustFinish (s.proc (ctl g + k))

/-- No fatal stop of the launch waits for its dump. -/
def noDump (s : State) (vf ln : Nat) : Bool :=
  !(s.dumpQ.any fun d => d.vf == vf && d.ln == ln) && !((s.dumping.map fun d => d.vf == vf && d.ln == ln).getD false)

/-- PREEMPTION_GRACE_EXPIRY (R241): the contexts of marked launch `b` of function `a` stop; of a stopped one, the requests
come to rest, and once they have, its image is written. -/
def execPreemptionGraceExpiry (s : State) : Out :=
  match launchAt s s.inp.a s.inp.b with
  | none => .next s
  | some l =>
    let cancel := (s.vfOf l.vf).sch0.getLsbD 8
    let rest := fun (s : State) => l.cls.foldl (fun s gc => restCluster s gc cancel) s
    match l.st with
    | .marked =>
      if runsDefault s ferryman && mayStop s l && noDump s l.vf l.ln then
        .next (rest (setLaunch (l.cls.foldl stopCluster s) { l with st := .resting }))
      else .next s
    | .resting =>
      let s1 := if runsDefault s ferryman then rest s else s
      if runsDefault s ferryman && l.cls.all (atRest s1) then .next (saveLaunch s1 l) else .next s1
    | _ => .next s

/-! ### Restore (R242) -/

/-- The sections of a launch are restored in order. -/
def restoreSections (s : State) (l : Launch) : Nat → List Nat → Except Nat State
  | _, [] => .ok s
  | i, gc :: rest =>
    match restoreCluster s gc l.vf l.ln (sectionVa l.image i) with
    | .error c => .error c
    | .ok t => restoreSections t l (i + 1) rest

/-- The kicks of LAUNCH that waited for the restore complete (R245). -/
def answerParked (s : State) (l : Launch) : State :=
  let mine := (s.engine ferryman).queue.filter (isReqOf l.vf l.ln)
  let keep := fun (r : Request) =>
    if isReqOf l.vf l.ln r then (if r.bound.isSome then none else some { r with park := false }) else some r
  let s1 := s.modEngine ferryman fun e => { e with queue := e.queue.filterMap keep }
  mine.foldl (fun s r => match r.bound with
    | some st => post s ferryman { r with bound := none } (launchFrame r st)
    | none => s) s1

/-- LAUNCH_RESTORE (R242): the pre-empted launch of function `a` to be served now comes back on its virtual clusters, or is
held for them. A failed restore kills it with cause 0. -/
def execLaunchRestore (s : State) : Out :=
  let vf := s.inp.a
  let s0 := checkQueues s vf
  if !mayPlace s vf then .next s
  else match chosen s0 vf with
    | none => .next s0
    | some (l, s1) =>
      if l.st ≠ .saved then .next s0
      else
        let cs := l.vcls.map fun v => (s.vfOf vf).grant.getD v Config.clusters
        if !(cs.all (freeFor s1 vf)) then .next (holdLaunch s1 l)
        else
          let l1 := { l with st := .running, cls := cs, held := false, waiting := none, started := s.tide }
          match restoreSections (setLaunch s1 l1) l1 0 cs with
          | .error c => .next (ferryStop s0 c ((setLaunch s1 l1).pushTurn .launchKill { a := vf, b := l.ln }))
          | .ok s2 => .next (answerParked s2 l1)

/-! ### Kill (R244) -/

/-- Every context of a cluster stops at once. -/
def killContexts (s : State) (gc : Nat) : State :=
  ((coresOf gc).flatMap fun g => (upTo 11).map fun k => ctl g + k).foldl (fun s q =>
    if (s.proc q).st == .live then
      (discardChunk s q).modProc q fun p => { p with stopped := true, flight := [], pend := [], wait := .idle }
    else s) s

/-- A request that the kill of cluster `gc` reaches. -/
def killHits (gc : Nat) (r : Request) : Bool := !isHart r.q && clusterOf r.q == gc

/-- The copies of cluster `gc` that a Barge has not begun are gone; those in a slot are marked (R244, R302). -/
def killCopies (s : State) (gc : Nat) : State :=
  let gone := s.engines.flatMap fun (e : Nat × Engine) => if e.1 < 640 then (e.2.queue ++ e.2.fwd).filter (killHits gc) else []
  let mark := fun (x : Nat × Request) => (x.1, if killHits gc x.2 then { x.2 with killed := true } else x.2)
  let cut := fun (e : Nat × Engine) =>
    if 640 ≤ e.1 then e
    else (e.1, { e.2 with
      queue := e.2.queue.filter fun r => !killHits gc r
      fwd := e.2.fwd.filter fun r => !killHits gc r
      slots := e.2.slots.map mark })
  let s1 := { s with engines := s.engines.map cut }
  (gone ++ (s.cluster gc).parkedLoops.vals).foldl releaseHolds (s1.modCluster gc fun c => { c with parkedLoops := [] })

/-- Jobs and sessions of cluster `gc` stop at once (R341, R379). -/
def killPontoon (s : State) (gc : Nat) : State :=
  let po := s.pontoon gc
  let reqs := seqQueue s gc ++ (po.job.map (·.req)).toList ++ (po.tail.map (·.req)).toList
  let s1 := reqs.foldl releaseHolds s
  let rows := ((coresOf gc).flatMap helperQs).filterMap fun q => (s.proc q).row.bind fun r => if r.released then none else r.land
  let s2 := rows.foldl (fun s e => modRing s gc e.1 fun x => x.giveBack e.2) s1
  (s2.modEngine (seqHart gc) fun e => { e with queue := [] }).modPontoon gc fun po => { po with job := none, tail := none, tow := none }

/-- Ford requests of cluster `gc` (R410): those queued are cancelled; the one in hand lights and writes nothing more. -/
def killFord (s : State) (gc : Nat) : State :=
  let cut := fun (e : Nat × Engine) =>
    if 13440 ≤ e.1 ∧ e.1 < 13456 then (e.1, { e.2 with queue := e.2.queue.filter fun r => !killHits gc r }) else e
  let stop := fun (j : FordJob) => if killHits gc j.req then { j with fail := some KILLED, req := { j.req with killed := true } } else j
  { s with engines := s.engines.map cut, fords := s.fords.map fun e => (e.1, { e.2 with hand := e.2.hand.map stop }) }

/-- The contexts of cluster `gc` stop and its requests end (R244). The records it has queued by LAUNCH stay queued. -/
def killCluster (s : State) (gc : Nat) : State :=
  let s1 := killFord (killPontoon (killCopies (killContexts s gc) gc) gc) gc
  let s2 := s1.modCluster gc fun c => { c with xslots := c.xslots.filter fun e => e.2.answered, xclaims := [], xheld := [] }
  s2.modEngine ferryman fun e => { e with queue := e.queue.filter fun r => !(r.op == 0x89 && killHits gc r) }

/-- Every request of cluster `gc` has ended and its writes have stopped (R244). -/
def killDone (s : State) (gc : Nat) : Bool :=
  !bargeBusy s (killHits gc) && !fordBusyWith s (killHits gc) && unitsSent s gc &&
  (coresOf gc).all fun g => (upTo 11).all fun k => (s.proc (ctl g + k)).remoteOut.all (isLost s)

/-- A launch is killed (R244): its contexts stop, its requests end, its replay queues are gone; one that has not been placed
completes at once and never starts, or at its kill-complete where its report stands still. -/
def killLaunch (s : State) (l : Launch) (cause : Nat) : State :=
  match l.st with
  | .taken =>
    match reportEnd (dropLaunch s l) l KILLED cause with
    | .ok t => t
    | .error c => noteStall (setLaunch s { l with st := .killed, cause := cause, cls := [], held := false, waiting := none }) ferryQ c
  | .killed => s
  | .saved =>
    let s1 := s.modEngine ferryman fun e => { e with queue := e.queue.filter fun r => !isReqOf l.vf l.ln r }
    setLaunch s1 { l with st := .killed, cause := cause, cls := [], held := false, waiting := none }
  | _ =>
    let s1 := setLaunch (l.cls.foldl killCluster s) { l with st := .killed, cause := cause, held := false, waiting := none }
    s1.modEngine ferryman fun e => { e with queue := e.queue.filter fun r => !isReqOf l.vf l.ln r }

/-- LAUNCH_KILL (R244): launch `b` of function `a`, for the reason `c`: 0 system software or a failed restore; 1 a fatal stop
with code `w`; 2 an entry that faults with `w`; 3 a fence or a thermal trip. -/
def execLaunchKill (s : State) : Out :=
  match launchAt s s.inp.a s.inp.b with
  | none => .next s
  | some l => .next (killLaunch s l (match s.inp.c with
    | 0 => 0
    | 3 => ENGINE_FAULT
    | _ => fld s.inp.w 0 8))

/-- What a kill-complete settles beside its launch: klnid, the function's busy bit, fences that waited (R229, R464, R473). -/
def settleKill (s : State) (l : Launch) : State :=
  let s1 := s.modVf l.vf fun f => { f with
    kbusy := f.kbusy && decide (f.kln ≠ l.ln)
    busy := f.busy && (f.en || s.launches.any fun x => x.vf == l.vf) }
  l.cls.foldl (fun s gc => s.modCluster gc fun c => { c with fenced := c.fenced || c.fencing, fencing := false }) s1

/-- KILL_COMPLETE (R244): every request of killed launch `b` of function `a` has ended, and every dump of it is done. -/
def execKillComplete (s : State) : Out :=
  match launchAt s s.inp.a s.inp.b with
  | none => .next s
  | some l =>
    if l.st = .killed ∧ l.cls.all (killDone s) = true ∧ noDump s l.vf l.ln = true then
      .next (reportTo s (endLaunch s l) l KILLED l.cause fun t => settleKill t l)
    else .next s

/-- KLNID_KILL (R229, R244): launch `b` of function `a` is killed; a value that names none completes at once. -/
def execKlnidKill (s : State) : Out :=
  let vf := s.inp.a
  let s1 := s.modVf vf fun f => { f with kbusy := true, kln := s.inp.b }
  match launchAt s vf s.inp.b with
  | none => .next (s1.modVf vf fun f => { f with kbusy := false })
  | some l => .next (killLaunch (raiseEvent s1 { kind := 4, vf := vf, queue := l.queue, ln := l.ln }) l 0)

/-! ### LAUNCH, EVSIG, EVWAIT, LQSTAT, YIELD (R245 to R249) -/

/-- The physical place of a queue's tail: an atomic needs it in this package's memory (R126). -/
def tailPlace (va : Word) : Eff Nat := do
  match ← check va 8 8 .atomic with
  | .own pa => if isWcPage (← get) va.toNat then throw (.trap ATOMIC_TARGET va) else pure pa
  | _ => throw (.trap ATOMIC_TARGET va)

/-- Doublewords `0` to `n − 1` at `va`, each loaded by the context that moves. -/
def loadDws (va : Word) : Nat → Eff (List Word)
  | 0 => pure []
  | n + 1 => do
    let x ← load va 8
    let rest ← loadDws (va + 8) n
    pure (BitVec.ofNat 64 x :: rest)

/-- LAUNCH (R245). -/
def execLaunch (a b : BitVec 6) (imm : BitVec 16) (s : State) : Out :=
  runOnce (.launch a b imm) (do
    let rva ← gr b
    let s ← get
    let q := imm.toNat
    let vf := s.me.vf
    if 15 < q ∨ (s.vfOf vf).qtab = 0 then illegalOperand
    let d : QDesc := ⟨← loadDws (queueVa s vf q) 8⟩
    if !d.ok || !d.en || d.hostq then illegalOperand
    let r ← loadDws rva 15
    if jettyFull (← get) (coreOf s.cur) then throw .stall
    let pa ← tailPlace (queueVa s vf q + 16)
    let t := d.tail
    if 2 ^ d.lcap ≤ (t - d.head).toNat then throw (.trap QUEUE_FULL (BitVec.ofNat 64 q))
    let slot := d.slot t
    let s1 ← get
    match putImage s1 s.cur vf slot (r.take 15 ++ [t + 1]) with
    | .error c => throw (if isWait c then .stall else .trap c slot)
    | .ok s2 => do
      set (atomicAt s2 (leader s s.cur) 0 pa 0 8 false 1 0).2
      kick ferryman { op := 0x89, sel := q, rid := BitVec.ofNat 64 (fld t 0 32), tag := fld t 32 32 }
      modify fun s => raiseEvent s { kind := 1, vf := vf, queue := q }
      dstAll 2 a t
      pure seqNext) s

/-- EVSIG (R246). -/
def execEvsig (a b : BitVec 6) (sc : BitVec 3) (imm : BitVec 16) (s : State) : Out :=
  runHead (.evsig a b sc imm) (do
    orderAt sc true
    let ea := (← gr b) + imm.signExtend 64
    let o ← atomicOp 0 8 ea 1 0 false
    modify fun s => eventChanged s s.me.vf ea
    writeNext 1 a (BitVec.ofNat 64 o)) s

/-- EVWAIT (R247). -/
def execEvwait (a b : BitVec 6) (sc : BitVec 3) (imm : BitVec 16) (s : State) : Out :=
  runHead (.evwait a b sc imm) (do
    orderAt sc false
    let t ← src a
    let ea := (← gr b) + imm.signExtend 64
    match (← get).me.wait with
    | .ev _ false => throw .stall
    | _ => do
      let pa ← watchTarget ea 8
      let s ← get
      if t.toNat ≤ s.natAt pa 8 then pure seqNext
      else throw (.wait (.ev (pa / 32) false))) s

/-- EVWAIT_WAKE (R247): a commit has written the line that context `a` watches; it reads the word again. -/
def execEvwaitWake (s : State) : Out :=
  match (s.proc s.inp.a).wait with
  | .ev _ true => .next (s.modProc s.inp.a fun p => { p with wait := .idle })
  | _ => .next s

/-- The value of LQSTAT (R248). -/
def lqstat (s : State) (vf q : Nat) : Nat :=
  let mine := s.launches.filter fun l => l.vf == vf && l.queue == q
  let known := 2 ^ 18 * b2n (mine.any fun l => l.st == .taken && !eligible s l) + 2 ^ 19 * b2n (mine.any (·.held)) +
    2 ^ 20 * min 4095 (mine.filter fun l => l.st != .taken && l.st != .killed).length
  if (s.vfOf vf).qtab = 0 then 2 ^ 17 + known
  else match readDws s s.cur vf (queueVa s vf q) 8 with
    | .error _ => 2 ^ 17 + known
    | .ok (_, ws) =>
      let d : QDesc := ⟨ws⟩
      (d.tail - d.head).toNat % 2 ^ 13 + 2 ^ 13 * b2n d.en + 2 ^ 14 * b2n d.hostq + 2 ^ 15 * d.pri +
        2 ^ 17 * b2n (!d.ok || (s.vfOf vf).badq.contains q) + known

/-- LQSTAT (R248). -/
def execLqstat (a : BitVec 6) (imm : BitVec 16) (s : State) : Out :=
  runHead (.lqstat a imm) (do
    if 15 < imm.toNat then illegalOperand
    let s ← get
    writeNext 1 a (BitVec.ofNat 64 (lqstat s s.me.vf imm.toNat))) s

/-- YIELD (R241, R249): with pre-emption pending the context parks behind it. -/
def execYieldOp (s : State) : Out :=
  runOnce .yieldOp (do
    let s ← get
    return { after := if (s.core (coreOf s.cur)).preempt then .parked else .idle }) s

/-! ### DTAKE and DPLACE (R250, R251) -/

/-- The word DTAKE writes for an event. -/
def eventWord (e : DEvent) : Word := BitVec.ofNat 64 (e.kind + 2 ^ 8 * (e.vf % 64) + 2 ^ 14 * (e.queue % 16) + 2 ^ 32 * (e.ln % 2 ^ 32))

/-- DTAKE (R250): the hart goes on under the function of the event (R27). -/
def execDtake (a : BitVec 6) (imm : BitVec 16) (s : State) : Out :=
  runHead (.dtake a imm) (do
    let s ← get
    match s.devents with
    | e :: rest => do
      modify fun s => { s with devents := rest }
      modMe fun p => { p with vf := e.vf }
      writeNext 1 a (eventWord e)
    | [] =>
      match s.me.wait with
      | .engine since =>
        if imm ≠ 0 ∧ since.toNat + 1024 * imm.toNat ≤ s.tide.toNat then writeNext 1 a 0 else throw .stall
      | _ => throw (.wait (.engine s.tide))) s

/-- The cluster that a DPLACE names, which must be granted to the function in hand. -/
def placeCluster (c : BitVec 6) : Eff Nat := do
  let gc := (← gr c).toNat
  let s ← get
  if !(s.vfOf s.me.vf).grant.contains gc then illegalOperand
  return gc

/-- Whether the head in hand has begun to wait for an engine. -/
def waitsEngine (s : State) : Bool :=
  match s.me.wait with
  | .engine _ => true
  | _ => false

/-- The head waits for an engine. -/
def waitEngine : Eff Next := do
  let s ← get
  if waitsEngine s then throw .stall else throw (.wait (.engine s.tide))

/-- The launch that holds a cluster, with cluster `gc` as its launch-relative cluster `lc`. -/
def joinLaunch (s : State) (l : Launch) (gc lc : Nat) : State :=
  match launchAt s l.vf l.ln with
  | some x =>
    let put := fun (ys : List Nat) (y : Nat) => (resize (max ys.length (lc + 1)) y ys).set lc y
    setLaunch s { x with st := .running, cls := put x.cls gc, vcls := put x.vcls (vclOf s l.vf gc) }
  | none => { s with launches := s.launches ++ [{ l with st := .running, cls := [gc], vcls := [vclOf s l.vf gc], started := s.tide }] }

/-- The status of a DPLACE whose accesses end with code `c`; one that stands still is waited for (R424). -/
def writeStatus (a : BitVec 6) (c : Nat) : Eff Next := do
  if isWait c then do
    let s ← get
    if waitsEngine s then throw .stall
    modify fun s => noteStall s s.cur c
    throw (.wait (.engine s.tide))
  else writeNext 1 a (BitVec.ofNat 64 c)

/-- dplace.start (R251): the launch state at g[B] is the record and lnid behind it. -/
def execDplaceStart (a b c : BitVec 6) (imm : BitVec 32) (s : State) : Out :=
  runHead (.dplaceStart a b c imm) (do
    let gc ← placeCluster c
    let va ← gr b
    let s ← get
    match readDws s s.cur s.me.vf va 17 with
    | .error e => writeStatus a e
    | .ok (s1, r) => do
      let l : Launch := { vf := s.me.vf, queue := 16, pos := fld (r.getD 16 0) 0 32, rec16 := r.take 16, ln := fld (r.getD 16 0) 0 32 }
      let s2 := startCluster (joinLaunch s1 l gc imm.toNat) l gc imm.toNat
      match checkTarget s2 (ctl (8 * gc)) (l.dw 0) with
      | .error e => do set s2; writeNext 1 a (BitVec.ofNat 64 e)
      | .ok s3 => do set s3; writeNext 1 a (BitVec.ofNat 64 DONE)) s

/-- dplace.preq (R251). -/
def execDplacePreq (a b c : BitVec 6) (imm : BitVec 32) (s : State) : Out :=
  runHead (.dplacePreq a b c imm) (do
    let gc ← placeCluster c
    modify fun s => markCluster s gc
    writeNext 1 a (BitVec.ofNat 64 DONE)) s

/-- dplace.save (R251): it waits until the cluster's contexts have stopped and its requests are at rest. -/
def execDplaceSave (a b c : BitVec 6) (imm : BitVec 32) (s : State) : Out :=
  runHead (.dplaceSave a b c imm) (do
    let gc ← placeCluster c
    let va ← gr b
    let s ← get
    let cancel := (s.vfOf s.me.vf).sch0.getLsbD 8
    let ready := (coresOf gc).all fun g => (upTo 11).all fun k => !mustFinish (s.proc (ctl g + k))
    if !ready then waitEngine
    else
      let stopped := (coresOf gc).all fun g => (s.core g).parked
      let s1 := restCluster (if stopped then s else stopCluster s gc) gc cancel
      if !(stopped && atRest s1 gc) then do
        if waitsEngine s && stopped then throw .stall
        set s1
        throw (.wait (.engine s.tide))
      else match saveCluster s1 gc (vclOf s s.me.vf gc) s.me.vf va with
        | .error e => writeStatus a e
        | .ok s2 => do
          set (clearCluster (emptyQueue s2 gc) gc)
          writeNext 1 a (BitVec.ofNat 64 DONE)) s

/-- dplace.rest (R251): lnid is the one of the image. -/
def execDplaceRest (a b c : BitVec 6) (imm : BitVec 32) (s : State) : Out :=
  runHead (.dplaceRest a b c imm) (do
    let gc ← placeCluster c
    let va ← gr b
    let s ← get
    match readDws s s.cur s.me.vf (va + BitVec.ofNat 64 (266240 + 8 * 7793)) 1 with
    | .error e => writeStatus a e
    | .ok (_, d) =>
      match restoreCluster s gc s.me.vf (fld (d.getD 0 0) 0 32) va with
      | .error e => writeStatus a e
      | .ok s1 => do set s1; writeNext 1 a (BitVec.ofNat 64 DONE)) s

/-- dplace.kill (R251): it completes at the cluster's kill-complete. -/
def execDplaceKill (a b c : BitVec 6) (imm : BitVec 32) (s : State) : Out :=
  runHead (.dplaceKill a b c imm) (do
    let gc ← placeCluster c
    let s ← get
    if !waitsEngine s then do
      set (killCluster s gc)
      throw (.wait (.engine s.tide))
    else if killDone s gc then do
      set (clearCluster s gc)
      writeNext 1 a (BitVec.ofNat 64 DONE)
    else throw .stall) s

end Sys2Proof.Machine
end

