-- ==== Sys2Proof/Machine/Tollhouse.lean ====
section
/-!
DEFINITION. The Tollhouse (R441 to R461): halts, the cross-trigger, the debug window, marks, imbalance records, trace rings
and core dumps.

Marks (notes/assumptions): DEDUCED (unsafe) 49, 50, 51.
-/

namespace Sys2Proof.Machine

/-! ### Halts (R444 to R447) -/

/-- tdst of a halt (R442). -/
def haltWord (why q : Nat) : Word := BitVec.ofNat 64 (1 + 2 * why + 2 ^ 4 * (coreOf q % 8) + 2 ^ 7 * slotOf q)

/-- The contexts of a cluster. -/
def contextsOf (gc : Nat) : List Nat := (coresOf gc).flatMap fun g => (upTo 11).map fun k => ctl g + k

/-- The other cluster of a gang of 16 that cluster `gc` is part of (R445). -/
def pairCluster (s : State) (gc : Nat) : Option Nat :=
  if (coresOf gc).any fun g => (s.core g).gsize == 4 then some (if gc % 2 = 0 then gc + 1 else gc - 1) else none

/-- One cluster stops (R445): every open chunk is discarded. -/
def stopCores (s : State) (gc why q : Nat) : State :=
  ((contextsOf gc).foldl discardChunk s).modCluster gc fun c => { c with tdst := haltWord why q, haltAt := s.tide }

/-- The clusters that the cross-trigger of cluster `gc` reaches: of its launch, on its die, with xin = 1 (R445). -/
def triggered (s : State) (gc : Nat) : List Nat :=
  match launchOf s (8 * gc) with
  | none => []
  | some l => l.cls.filter fun c => c != gc && dieOfCluster c == dieOfCluster gc && (s.cluster c).tdctl.getLsbD 1

/-- The cross-trigger leaves cluster `gc` for event context `q`, where xout = 1. -/
def sendTrigger (s : State) (gc q : Nat) : State :=
  if (s.cluster gc).tdctl.getLsbD 2 then
    (triggered s gc).foldr (fun c t => t.pushTurn .crossTriggerReceive { a := c, b := gc, c := q }) s
  else s

/-- A cluster halts with its pair (R445). A halted cluster stays as it is. -/
def haltCluster (s : State) (gc why q : Nat) : State :=
  if s.halted gc then s
  else
    let s1 := stopCores s gc why q
    let s2 := match pairCluster s gc with
      | some h => if s.halted h then s1 else sendTrigger (stopCores s1 h why q) h q
      | none => s1
    sendTrigger s2 gc q

/-- Whether a halt event halts cluster `gc` (R444): a fatal stop does whatever den holds. -/
def haltEvent (s : State) (gc why q : Nat) : Bool :=
  let t := (s.cluster gc).tdctl
  match why with
  | 1 | 2 | 3 | 5 => t.getLsbD 0
  | 4 => t.getLsbD 0 && t.getLsbD 1
  | 6 => (s.proc q).stopped
  | _ => false

/-- CLUSTER_HALT (R445): cluster `a` halts for the reason `b` of tdst; `c` is the context of the event. -/
def execClusterHalt (s : State) : Out :=
  if s.inp.a < Config.clusters ∧ haltEvent s s.inp.a s.inp.b s.inp.c = true then .next (haltCluster s s.inp.a s.inp.b s.inp.c) else .next s

/-- DEBUG_HALT is raised in every control context of cluster `gc`, with the virtual cluster number of the source (R444). -/
def raiseDebugHalt (s : State) (gc source : Nat) : State :=
  (coresOf gc).foldl (fun s g =>
    if (s.proc (ctl g)).st == .live then raiseAsync s (ctl g) DEBUG_HALT (BitVec.ofNat 64 (s.core (8 * source)).vcl) else s) s

/-- CROSS_TRIGGER_RECEIVE (R444, R445): cluster `a` receives the cross-trigger of cluster `b`, for the event of context
`c`. -/
def execCrossTriggerReceive (s : State) : Out :=
  let gc := s.inp.a
  if (s.cluster s.inp.b).tdctl.getLsbD 2 = true ∧ (triggered s s.inp.b).contains gc = true then
    if (s.cluster gc).tdctl.getLsbD 0 then .next (haltCluster s gc 4 s.inp.c) else .next (raiseDebugHalt s gc s.inp.b)
  else .next s

/-- TDGO (R447): cluster `a` resumes; the writes of its debug window take effect, and no kind-0 breakpoint matches the
first head of a context (R443). -/
def execTdgo (s : State) : Out :=
  let gc := s.inp.a
  if !s.halted gc then .next s
  else
    let s1 := (debugView s gc).modCluster gc fun c => { c with tdst := 0, dbg := [] }
    let s2 := (contextsOf gc).foldl (fun s q => if (s.proc q).st == .live then s.modProc q fun p => { p with skipBp := true } else s) s1
    .next (s2.modPontoon gc fun po => { po with job := po.job.map fun j => { j with parked := if j.parked = 3 then 0 else j.parked } })

/-- DEBUG_WINDOW_ACCESS (R447): an access to byte offset `b` of the debug window of cluster `a`; with `c` = 1 it writes the
doubleword `w`, which takes effect at the resume, else it reads the doubleword there, zero beyond the section and while the
cluster is not halted. -/
def execDebugWindowAccess (s : State) : Out :=
  let gc := s.inp.a
  let i := s.inp.b / 8
  if s.inp.c = 1 then
    if s.halted gc = true ∧ i < coreDws then
      .next (s.modCluster gc fun c => { c with dbg := (fld c.tdsel 0 3, i, s.inp.w) :: c.dbg })
    else .next s
  else .next { s with hostRead := leBytes 8 (windowWord s gc i).toNat }

/-! ### BREAK and DBGSIG (R183, R444, R448) -/

/-- Whether the cluster of the agent that moves has debug enabled; an engine hart has no Tollhouse. -/
def debugOn (s : State) : Bool := !isHart s.cur && (s.cluster (clusterOf s.cur)).tdctl.getLsbD 0

/-- BREAK (R183): a halt event with debug enabled, else BREAKPOINT. -/
def execBrk (code : BitVec 16) (s : State) : Out :=
  runHead (.brk code) (do
    if debugOn (← get) then throw (.halt 1)
    throw (.trap BREAKPOINT (code.setWidth 64))) s

/-- dbgsig.halt (R448). -/
def execDbgsigHalt (s : State) : Out :=
  runHead .dbgsigHalt (do
    if debugOn (← get) then throw (.halt 3)
    modify fun s => raiseDebugHalt s (clusterOf s.cur) (clusterOf s.cur)
    pure seqNext) s

/-- dbgsig.trig (R448). -/
def execDbgsigTrig (s : State) : Out :=
  runHead .dbgsigTrig (do
    modify fun s => sendTrigger s (clusterOf s.cur) s.cur
    pure seqNext) s

/-- dbgsig.mark (R448, R452). -/
def execDbgsigMark (v : BitVec 16) (s : State) : Out :=
  runHead (.dbgsigMark v) (do
    modify fun s =>
      if traceOn s (coreOf s.cur) then
        traceEntry s (coreOf s.cur) (BitVec.ofNat 64 (v.toNat % 2 ^ 15 + 2 ^ 16 + 2 ^ 19 * leader s s.cur + 2 ^ 52 * (s.tide.toNat % 2 ^ 12)))
      else s
    pure seqNext) s

/-! ### Records and rings (R451, R453) -/

/-- What stands for an entry that is not held. -/
def notHeld : Word := BitVec.ofNat 64 (2 ^ 63)

/-- IMB.RD (R451). -/
def execImbRd (a : BitVec 6) (dw : BitVec 2) (st : Bool) (i : BitVec 16) (s : State) : Out :=
  runHead (.imbRd a dw st i) (do
    let s ← get
    let c := s.cluster (clusterOf s.cur)
    writeNext 1 a (
      if st then BitVec.ofNat 64 (c.imb.length + 2 ^ 32 * c.imbLost)
      else match c.imb[i.toNat]? with
        | none => notHeld
        | some e => e.getD dw.toNat 0)) s

/-- trc.rd.ent (R453). -/
def execTrcRdEnt (a : BitVec 6) (i : BitVec 16) (s : State) : Out :=
  runHead (.trcRdEnt a i) (do
    let s ← get
    writeNext 1 a ((s.core (coreOf s.cur)).trace.getD i.toNat notHeld)) s

/-- trc.rd.cnt (R453). -/
def execTrcRdCnt (a : BitVec 6) (s : State) : Out :=
  runHead (.trcRdCnt a) (do
    let s ← get
    let c := s.core (coreOf s.cur)
    writeNext 1 a (BitVec.ofNat 64 (c.trace.length + 2 ^ 9 * c.traceEver))) s

/-- trc.rd.clr (R453). -/
def execTrcRdClr (a : BitVec 6) (s : State) : Out :=
  runHead (.trcRdClr a) (do
    modMyCore fun c => { c with trace := [] }
    writeNext 1 a 0) s

/-! ### Core dumps (R456 to R461) -/

/-- Bytes of a dump slot, and where its sections begin (R456, R458). -/
def dumpBytes : Nat := 401792
def dumpOffset (k : Nat) : Nat :=
  match k with
  | 0 => 0 | 1 => 4096 | 2 => 70016 | 3 => 332160 | _ => 397696

/-- The eight doublewords of an entry of the pending section (R459). -/
def pendingWords (e : PendingStore) : List Word :=
  [BitVec.ofNat 64 e.va, BitVec.ofNat 64 e.pa, BitVec.ofNat 64 (e.mask % 2 ^ 32 + 2 ^ 32 * e.kind + 2 ^ 36 * e.slot), 0] ++ wordsOf e.data 4

/-- Section `k` of the dump of a stop (R458): 1 the core, 2 the scratchpad, 3 the pending stores. -/
def dumpSection (s : State) (d : DumpStop) (k : Nat) : List Word :=
  let g := coreOf d.q
  match k with
  | 1 => (upTo coreDws).map (coreWord s g)
  | 2 => (upTo 32768).map fun i => BitVec.ofNat 64 (s.natAt (spKey (g / 8) (8 * i)) 8)
  | _ => padTo 8192 ((d.pend.take 1024).flatMap pendingWords)

/-- The header and the trailer; `flags` has bit k for section k written, `cut` the code, address and section of the fault
that truncated it. -/
def dumpHeader (s : State) (d : DumpStop) (flags : Nat) : List Word :=
  padTo 512 [BitVec.ofNat 64 (1 + 2 ^ 32 * (s.dumpSeq % 2 ^ 32)), BitVec.ofNat 64 d.code, d.pc, d.val,
    BitVec.ofNat 64 (coreOf d.q + 2 ^ 32 * slotOf d.q), BitVec.ofNat 64 d.ln, d.tide, BitVec.ofNat 64 flags]
def dumpTrailer (d : DumpStop) (cut : Option (Nat × Word × Nat)) : List Word :=
  let n := min 1024 d.pend.length
  padTo 512 ([BitVec.ofNat 64 (n + 2 ^ 32 * (d.pend.length - n))] ++ match cut with
    | none => []
    | some (c, va, k) => [BitVec.ofNat 64 c, va, BitVec.ofNat 64 k])

/-- Sections in order, until one cannot be written (R460) or a read of the dumped state fails (`bad`: section and address):
the sections written, as bits, and the fault. -/
def dumpSections (s : State) (d : DumpStop) (base : Word) (bad : Nat × Word) : Nat → List Nat → State × Nat × Option (Nat × Word × Nat)
  | flags, [] => (s, flags, none)
  | flags, k :: ks =>
    let va := base + BitVec.ofNat 64 (dumpOffset k)
    if bad.1 = k then (s, flags, some (MEM_UNCORRECTABLE, bad.2, k))
    else match putImage s ferryQ d.vf va (dumpSection s d k) with
      | .error c => (s, flags, some (c, va, k))
      | .ok t => dumpSections t d base bad (flags + 2 ^ k) ks

/-- The dump of a stop is written into the slot at `base`; header and trailer where the area takes them. -/
def writeDump (s : State) (d : DumpStop) (base : Word) (bad : Nat × Word) : State :=
  let (s1, flags, cut) := dumpSections s d base bad 0 [1, 2, 3]
  let put := fun (s : State) (k : Nat) (ws : List Word) =>
    match putImage s ferryQ d.vf (base + BitVec.ofNat 64 (dumpOffset k)) ws with
    | .ok t => t
    | .error _ => s
  put (put s1 4 (dumpTrailer d cut)) 0 (dumpHeader s d (flags + 17))

/-- A stop has been written or dropped: the kill of its launch begins (R457). -/
def dumpDone (s : State) (d : DumpStop) : State :=
  let s1 := match launchAt s d.vf d.ln with
    | some l => setLaunch s { l with dumped := true }
    | none => s
  killFor s1 d

/-- CORE_DUMP_WRITE (R457 to R460): the dump engine takes the oldest stop queued, which it drops for want of a slot, or
ends the dump it is writing. `b` and `w` tell of an uncorrectable read: the section and the address. -/
def execCoreDumpWrite (s : State) : Out :=
  match s.dumping, s.dumpQ with
  | some d, _ =>
    let f := s.vfOf d.vf
    let base := f.dump0 + BitVec.ofNat 64 (dumpBytes * f.nextSlot)
    let s1 := writeDump { s with dumping := none } d base (s.inp.b, s.inp.w)
    let s2 := { s1 with dumpSeq := s.dumpSeq + 1 }.modVf d.vf fun f => { f with
      nextSlot := (f.nextSlot + 1) % 2 ^ 16, dumps := min (f.dumps + 1) (2 ^ 32 - 1) }
    .next (dumpDone (raiseMsix s2 0 5) d)
  | none, d :: rest =>
    let f := s.vfOf d.vf
    let s1 := { s with dumpQ := rest }
    if f.dump0 = 0 ∨ f.nextSlot = f.nslot then
      .next (dumpDone (s1.modVf d.vf fun f => { f with dropSlot := min (f.dropSlot + 1) (2 ^ 32 - 1) }) d)
    else .next { s1 with dumping := some d }
  | none, [] => .next s

/-- DUMPST (R461). -/
def execDumpst (a : BitVec 6) (sel : BitVec 16) (s : State) : Out :=
  runHead (.dumpst a sel) (do
    let s ← get
    let vf := s.me.vf
    let f := s.vfOf vf
    writeNext 1 a (BitVec.ofNat 64 (
      if sel = 0 then
        b2n ((s.dumping.map fun d => d.vf == vf).getD false) + 2 * (s.dumpQ.filter fun d => d.vf == vf).length + 2 ^ 4 * f.dumps
      else f.dropFull + 2 ^ 32 * f.dropSlot))) s

end Sys2Proof.Machine
end

