-- ==== Sys2Proof/Machine/System.lean ====
section
/-!
DEFINITION. Ending and returning: HSTART, HALT, TRAP, ERET, reserved opcodes, fetches, and the stop, wake and start of
engine harts (R28, R29, R62, R66, R154, R170, R183, R184).

Marks (notes/assumptions): DEDUCED (unsafe) 17, 27, 61; DEDUCED (safe) 22; DESIGN CHOICE (unsafe) 62.
-/

namespace Sys2Proof.Machine

/-! ### HSTART and HALT -/

/-- The slot that HSTART takes on core `g`: the lowest free one, but a row that waits for the only free slot has it first
(R132, R332). -/
def helperFor (s : State) (g : Nat) : Option Nat :=
  match freeHelper s g with
  | none => none
  | some h => if (freeHelper (dispatchRow s (g / 8)) g).isNone then none else some h

/-- HSTART (R170). -/
def execHstart (a b c : BitVec 6) (nw det : Bool) (imm : BitVec 32) (s : State) : Out :=
  runHead (.hstart a b c nw det imm) (do
    let t := branchTarget (← pcOf) imm.toInt
    if (← decides) then do let _ ← jumpTo t
    let s ← get
    match helperFor s (coreOf s.cur) with
    | none => if nw then writeNext 1 a 0 else throw .stall
    | some h => do
      let k := slotOf h
      let x ← src b
      let y ← src c
      modify fun s => s.setProc h (helperState s.me s.cur k t x y s.tide det)
      writeNext 1 a (BitVec.ofNat 64 k)) s

/-- What ends the HALT of an engine hart: a request in its queue, an event for the Ferryman, pev of a sequencer (R62,
R353). -/
def wakes (s : State) (h : Nat) : Bool :=
  let e := s.engine h
  if isSequencer h then pevOf (s.pontoon (h - 640)) != 0
  else !e.queue.isEmpty || !e.fwd.isEmpty || (h == ferryman && !s.devents.isEmpty)

/-- HALT of a control context (R184): its helpers have ended, its remote stores are acknowledged (R425); the ended slots
become free and the context ends. -/
def haltControl : Eff Next := do
  let s ← get
  let g := coreOf s.cur
  if (s.core g).gsize ≠ 0 then throw (.trap GANG_STATE (BitVec.ofNat 64 (s.core g).gsize))
  if startedHelper s s.cur then throw .stall
  drainRemote
  modify fun s => (helperQs g).foldl (fun s q => if (s.proc q).st == .ended then s.setProc q {} else s) s
  modMe fun p => { p with st := .ended, icount := p.icount + 1, waited := 0 }
  return { gone := true }

/-- HALT of an engine hart (R29, R62). -/
def haltHart : Eff Next := do
  let s ← get
  if wakes s (hartIx s.cur) then pure seqNext
  else if s.me.wait == .hartIdle then throw .stall
  else throw (.wait .hartIdle)

/-- HALT (R29, R62, R184). -/
def execHalt (s : State) : Out := runHead .halt (do if isHart (← get).cur then haltHart else haltControl) s

/-- ENGINE_HART_WAKE (R29): hart `a` goes on after its HALT. -/
def execEngineHartWake (s : State) : Out :=
  let q := hartQOf s.inp.a
  if s.inp.a < Config.harts ∧ (s.proc q).wait = .hartIdle ∧ wakes s s.inp.a = true then .next (completeWait s q) else .next s

/-! ### TRAP, ERET, reserved opcodes, fetches -/

/-- TRAP (R183): epc is the PC of the next head. -/
def execTrap (code : BitVec 16) (s : State) : Out :=
  runHead (.trap code) (do throw (.trapAt TRAP_INSN (code.setWidth 64) (← linkPc))) s

/-- ERET (R154): back into a timed phase under the conditions of PHASE.T, every chunk of the core closed. R142 lists no delay for
ERET: the next head issues at c + 3, as after a taken branch (log entry 62). -/
def execEret (s : State) : Out :=
  runHead .eret (do
    let s ← get
    let p := s.me
    if !p.intrap then throw (.trap ILLEGAL_CONTEXT p.r.pc)
    if p.ptim && !((members s s.cur).all fun m => coreQuiet s (coreOf m)) then throw .stall
    let nx ← if (← decides) then jumpTo p.epc else pure seqNext
    if p.ptim then modify fun s => closeChunks s (coreOf s.cur)
    modMe fun p => { p with intrap := false, timed := p.ptim }
    return { nx with skipBp := true }) s

/-- A reserved opcode (R66): ILLEGAL_OPCODE, precise at the head, for every agent. -/
def execReservedOpcode (_op : BitVec 8) (s : State) : Out :=
  let t := { s with cur := leader s s.cur }
  .next (trapHead t [(t.cur, ILLEGAL_OPCODE, t.me.r.pc)] t.me.r.pc)

/-- LINE_FETCH (R38): agent `a` fetches the line of its PC; a line that cannot be fetched faults at its first head. -/
def execLineFetch (s : State) : Out :=
  match fetchLine s s.inp.a (lineBase (s.proc s.inp.a).r.pc) with
  | .ok (t, _) => .next t
  | .error _ => .next s

/-! ### Engine harts that stop (R28) -/

/-- ectl's class and index of a hart (R466). -/
def hartClass (h : Nat) : Nat × Nat :=
  if h < 640 then (0, h) else if h < 13440 then (1, h - 640) else if h < 13456 then (2, h - 13440)
  else if h = ferryman then (3, 0) else (4, h - 13457)

/-- The requests of a sequencer end with `status`: the jobs, the session unless it has completed, and the queue. -/
def endSequencer (s : State) (gc status : Nat) : State :=
  let po := s.pontoon gc
  let s1 := (po.tail.toList ++ po.job.toList).foldl (fun s j => endJob s gc j status)
    (s.modPontoon gc fun po => { po with tail := none, job := none })
  let s2 := match po.tow with
    | some w =>
      if w.st = 2 ∧ w.done.isNone then s1
      else dropTow (post (payOwed (leaveSession s1 gc w).1 gc w) (seqHart gc) w.req (towFrame w status)) gc
    | none => s1
  (seqQueue s gc).foldl (fun s r => if isTow r then refuseTow s gc r status else endJob s gc { req := r } status)
    (s2.modEngine (seqHart gc) fun e => { e with queue := [] })

/-- Every request in hand or queued at hart `h` ends with ENGINE_FAULT (R28). -/
def failHart (s : State) (h : Nat) : State :=
  if isSequencer h then endSequencer s (h - 640) ENGINE_FAULT
  else
    let s1 := match (if 13440 ≤ h ∧ h < 13456 then (s.ford (h - 13440)).hand else none) with
      | some j => endFord (leaveFord s (h - 13440) j) (h - 13440) j ENGINE_FAULT
      | none => if h < 640 then (s.engine h).slots.vals.foldl (fun s r => leaveCopy s h r (rCount r.source)) s else s
    (s.engine h).all.foldl (fun s r => failRequest s h r) (s1.modEngine h fun e => { e with queue := [], fwd := [], slots := [] })

/-- ENGINE_HART_FAULT_STOP (R28, R467): hart `a` has stopped at `w` for the cause `b`: its requests end, the hart is named in
efault, the interrupt is raised, and the Ferryman is told (R250). -/
def execEngineHartFaultStop (s : State) : Out :=
  let h := s.inp.a
  let q := hartQOf h
  if h < Config.harts ∧ (s.proc q).stopped = true ∧ (s.proc q).st ≠ .ended then
    let s1 := failHart (s.modProc q fun p => { p with st := .ended, wait := .idle, chunk := none }) h
    let (cls, ix) := hartClass h
    .next (raiseEvent (pushEfault s1 cls ix (s.inp.b % 256) s.inp.w) { kind := 5, vf := (s.proc q).vf })
  else .next s

end Sys2Proof.Machine
end

