-- ==== Sys2Proof/Machine/Host.lean ====
section
/-!
DEFINITION. The host port, function control, engine microcode, boot, attestation and service states (R108, R113, R454,
R462 to R476).

Marks (notes/assumptions): DESIGN CHOICE (safe) 3; DESIGN CHOICE (unsafe) 20; DEDUCED (unsafe) 47, 51, 53, 54; DEDUCED
(safe) 55, 56.
-/

namespace Sys2Proof.Machine

/-! ### Host accesses (R463, R476) -/

/-- The loader's image or the Ferryman's has failed: the device exposes PF0 only (R468, R469). -/
def pf0Only (s : State) : Bool := [8, 9, 16, 17, 24, 25].any s.bstat.getLsbD

/-- HOST_BAR2_ACCESS (R463): the host reads (`c` = 0) as many bytes as `bytes` has, or writes `bytes`, at byte `b` of the BAR2 window of
function `a`: one chunk of one line, translated by that function's tables. A translation fault, or memory the port cannot reach,
changes nothing. -/
def execHostBar2Access (s : State) : Out :=
  let vf := s.inp.a
  let va := (s.vfOf vf).winb + BitVec.ofNat 64 s.inp.b
  let n := s.inp.bytes.length
  if 64 ≤ vf ∨ pf0Only s = true ∨ 2 ^ 34 ≤ s.inp.b ∨ n = 0 ∨ 32 < va.toNat % 32 + n then .next s
  else match translate s ferryQ vf va.toNat (if s.inp.c = 0 then .load else .store) with
    | .error _ => .next s
    | .ok (t, l) =>
      if s.inp.c = 0 then
        match l with
        | .own pa => .next { t with hostRead := (upTo n).map fun i => t.byteAt (pa + i) }
        | .host pa _ => .next { t with hostRead := (upTo n).map fun i => hostSees t (pa + i) }
        | .dev off => .next { t with hostRead := leBytes n (devRead t off n) }
        | _ => .next t
      else match l with
        | .own pa => .next (performAt t pa s.inp.bytes)
        | .host pa wc => .next (hostStore t pa wc s.inp.bytes)
        | .dev off =>
          if [1, 2, 4, 8].contains n && off % n == 0 && !isKickBlock off then .next (devWrite t off s.inp.bytes) else .next t
        | _ => .next t

/-- REGISTER_WRITE (R463, R476): the host writes `bytes` at offset `a` of a BAR0: of PF0 where `b` is 0, of VF `b` else; with
`c` = 1 it reads as many bytes there. -/
def execRegisterWrite (s : State) : Out :=
  let n := s.inp.bytes.length
  let off := if s.inp.b = 0 then s.inp.a else 0x1000000 + 0x10000 * (s.inp.b - 1) + s.inp.a
  let span := if s.inp.b = 0 then 2 ^ 34 else 2 ^ 16
  if s.inp.b ≤ 64 ∧ (s.inp.b = 0 ∨ pf0Only s = false) ∧ s.inp.a + n ≤ span ∧ [1, 2, 4, 8].contains n ∧ off % n = 0 ∧
      isKickBlock off = false then
    if s.inp.c = 1 then .next { s with hostRead := leBytes n (devRead s off n) } else .next (devWrite s off s.inp.bytes)
  else .next s

/-! ### Function control (R108, R113, R465) -/

/-- FCEN_ENABLE (R465): the grant list of function `a` is read and its clusters are numbered; a fenced cluster is not
(R473). -/
def execFcenEnable (s : State) : Out :=
  let f := s.vfOf s.inp.a
  if 64 ≤ s.inp.a ∨ f.en then .next s
  else
    let cs := (upTo (min f.gcnt Config.clusters)).map fun i => s.natAt (f.glist.toNat + 2 * i) 2
    .next (s.modVf s.inp.a fun f => { f with
      en := true, grant := cs.filter fun c => decide (c < Config.clusters) && !(s.cluster c).fenced })

/-- FCEN_DISABLE (R465): every launch of function `a` is killed with cause 0. -/
def execFcenDisable (s : State) : Out :=
  let vf := s.inp.a
  if (s.vfOf vf).en then
    let s1 := s.modVf vf fun f => { f with en := false }
    let s2 := (s.launches.filter fun l => l.vf == vf).foldl (fun s l => killLaunch s l 0) s1
    .next (s2.modVf vf fun f => { f with busy := s2.launches.any fun l => l.vf == vf })
  else .next s

/-- An access that still uses a translation of function `vf`: of a chunk that has not committed, or a store or an access that waits for
its answer on its way to another package (R113). -/
def usesTranslation (s : State) (vf : Nat) : Bool :=
  s.procs.any fun e =>
    e.2.remoteOut.any (fun x => x.vf == vf && !isLost s x) ||
    (e.2.vf == vf && ((match e.2.wait with
      | .remote _ sent _ _ => sent
      | _ => false) || match e.2.chunk with
      | none => false
      | some c => (c.reads ++ c.writes).any fun l => decide (l < 2 ^ 47)))

/-- TRANSLATION_INVALIDATE (R113): the cached translations of function `a` are dropped; the command completes once every
access that used one has been performed. -/
def execTranslationInvalidate (s : State) : Out :=
  let vf := s.inp.a
  let keep := fun (e : TlbEntry) => e.vf != vf
  let s1 := { s with
    clusters := s.clusters.map fun (e : Nat × Cluster) => (e.1, { e.2 with tlb := e.2.tlb.filter keep })
    slices := s.slices.map fun (e : Nat × Slice) => (e.1, { e.2 with tlb := e.2.tlb.filter keep }) }
  .next (s1.modVf vf fun f => { f with ib := usesTranslation s vf })

/-- SLICE_PARTITION (R108): slpart.near of slice `a` is written with `b`; with `c` 1 the change in progress there has come to its
end. -/
def execSlicePartition (s : State) : Out :=
  if Config.slices ≤ s.inp.a then .next s
  else if s.inp.c = 0 then .next (writeNear s s.inp.a s.inp.b)
  else match (s.slice s.inp.a).parTo with
    | none => .next s
    | some n => .next (setNear s s.inp.a n)

/-- ALOGC_WRITE (R454): alogc of slice `a` is written: the run is recorded, then en, wrap and len change. -/
def execAlogcWrite (s : State) : Out :=
  if Config.slices ≤ s.inp.a then .next s
  else .next ((flushRun s s.inp.a).modSlice s.inp.a fun c => { c with
    logEn := s.inp.w.getLsbD 0, logWrap := s.inp.w.getLsbD 1, logLen := fld s.inp.w 3 21
    logHead := if s.inp.w.getLsbD 1 = c.logWrap ∧ fld s.inp.w 3 21 = c.logLen then c.logHead else logPlace c })

/-! ### Engine microcode (R27, R29, R466 to R468) -/

/-- The hart that ectl names, if it names one. -/
def namedHart (cls ix : Nat) : Option Nat :=
  match cls with
  | 0 => if ix < 640 then some ix else none
  | 1 => if ix < Config.clusters then some (640 + ix) else none
  | 2 => if ix < 16 then some (13440 + ix) else none
  | 3 => if ix = 0 then some ferryman else none
  | 4 => if ix < 64 then some (13457 + ix) else none
  | _ => none

/-- A hart with a request queued or in hand. -/
def hartBusy (s : State) (h : Nat) : Bool :=
  !(s.engine h).all.isEmpty ||
  (isSequencer h && workInHand (s.pontoon (h - 640))) ||
  (decide (13440 ≤ h) && decide (h < 13456) && (s.ford (h - 13440)).hand.isSome)

/-- The header of R29 at a physical address: class, version, code length, dispatch vector, if it is one of class `cls`. -/
def imageHeaderAt (s : State) (pa cls : Nat) : Option (Nat × Nat × Nat) :=
  let len := s.natAt (pa + 8) 4
  if s.natAt pa 4 = cls ∧ len % 64 = 0 ∧ len ≤ 65536 ∧ s.natAt (pa + 14) 50 = 0 then
    some (s.natAt (pa + 4) 4, len, s.natAt (pa + 12) 2)
  else none

/-- The bytes of the image at a physical address: its header and its payload, with the two signatures behind them where it is a
Pilot's (R468): ECDSA P-384 in 96 bytes and LMS of H15 and W4 in 2,668, as RFC 8554 codes it. -/
def microcodeAt (s : State) (pa len : Nat) (signed : Bool) : List Byte :=
  (upTo (64 + len + if signed then 2764 else 0)).map fun i => s.byteAt (pa + i)

/-- ECTL_GO (R466): the image at emaddr is loaded into the hart that `w` names, which starts at its dispatch vector; a Pilot shows
that it is loading until it starts (R440). A Pilot image must verify under the enrolled keys (R468), which the spec leaves to the
fuses. -/
def execEctlGo (s : State) : Out :=
  let cls := fld s.inp.w 0 3
  match namedHart cls (fld s.inp.w 3 14) with
  | none => .next (refuseEctl s)
  | some h =>
    let pa := s.emaddr.toNat
    if hartBusy s h then .next (refuseEctl s)
    else match imageHeaderAt s pa cls with
      | none => .next (refuseEctl s)
      | some (ver, len, vec) =>
        if cls = 4 ∧ Config.imageVerifies (microcodeAt s pa len true) = false then .next (refuseEctl s)
        else
          let s1 := { s with mem := Memory.writeList s.mem (ucKey h 0) ((microcodeAt s pa len false).drop 64) }
          let s2 := s1.modProc (hartQOf h) fun p => { p with codeLen := len, dispVec := vec, version := ver, loaded := true }
          if cls = 4 then .next ((s2.modPilot (h - 13457) fun x => { x with st := 3 }).pushTurn .pilotRestart { a := h - 13457 })
          else .next (startEctl s2 h)

/-- ECTL_RST (R466): a hart stopped under R28 restarts with its image. -/
def execEctlRst (s : State) : Out :=
  match namedHart (fld s.inp.w 0 3) (fld s.inp.w 3 14) with
  | none => .next (refuseEctl s)
  | some h => if (s.proc (hartQOf h)).stopped then .next (startEctl s h) else .next (refuseEctl s)

/-- EFPOP (R467). -/
def execEfpop (s : State) : Out := .next (popEfault s)

/-! ### Boot and attestation (R468 to R470) -/

/-- The harts whose image is number `k` of the boot order (R469). -/
def imageHarts (k : Nat) : List Nat :=
  match k with
  | 2 => [ferryman]
  | 3 => upTo 640
  | 4 => (upTo 12800).map (640 + ·)
  | 5 => (upTo 16).map (13440 + ·)
  | 6 => (upTo 48).map (13457 + ·)
  | 7 => (upTo 16).map (13505 + ·)
  | _ => []

/-- bstat of the failures fec, flm and frb, in place in `w` (R469). -/
def bootStatus (w : Word) : Word :=
  let bad := fun (k : Nat) => w.getLsbD (7 + k) || w.getLsbD (15 + k) || w.getLsbD (23 + k)
  let ks := (upTo 8).map (· + 1)
  BitVec.ofNat 64 ((ks.map fun k => 2 ^ (k - 1) * b2n (!bad k)).foldl (· + ·) 0 + 2 ^ 8 * fld w 8 24 + 2 ^ 32 * (ks.find? bad).getD 0)

/-- An image that failed (R468). -/
def imageFailed (bstat : Word) (k : Nat) : Bool := !bstat.getLsbD (k - 1)

/-- DEVICE_RESET (R468, R469): the package comes out of reset, LPDDR-5X as it was and host memory as the host has it; the boot ROM verifies
the images, with the failures that `w` tells in bstat's fields. The harts of an image that failed stay stopped. -/
def execDeviceReset (s : State) : Out :=
  let st := bootStatus s.inp.w
  let off := ((upTo 8).map (· + 1)).flatMap fun k => if imageFailed st k then imageHarts k else []
  .next { State.reset with
    agenda := s.agenda, inp := s.inp, freeCtr := s.freeCtr
    mem := (s.hostStale.foldl (fun m e => Memory.write m e.1 e.2) s.mem).filter fun e => isLpddr e.1 || isHostPa e.1
    poison := s.poison.filter fun l => isLpddr (32 * l), kept := s.kept, sealed := s.sealed, hostRead := s.hostRead
    procs := off.foldl (fun m h => m.put (hartQOf h) { stopped := true, st := .ended }) []
    bstat := st, boot := decide (fld st 0 8 = 255), msix := [(0, 0)] }

/-- The SPDM requests of R470: PF0 answers from the identity key, the certificates and the measurements, and no register or
memory of the device changes. -/
def execGetVersion (s : State) : Out := .next s
def execGetCapabilities (s : State) : Out := .next s
def execNegotiateAlgorithms (s : State) : Out := .next s
def execGetDigests (s : State) : Out := .next s
def execGetCertificate (s : State) : Out := .next s
def execChallenge (s : State) : Out := .next s
def execGetMeasurements (s : State) : Out := .next s

/-! ### Service states (R471 to R475) -/

/-- GOFULL (R472): placement stops; once no launch holds a cluster the clock is nominal and placement goes on. The change of clock
re-forms the segment of every attachment (R388). -/
def execGofull (s : State) : Out :=
  if s.full then .next s
  else if s.launches.any (·.holds) then .next { s with goingFull := true }
  else .next (reformAll { s with full := true, goingFull := false })

/-- A launch in need of cluster `gc`: one that holds it, or a pre-empted one that comes back on it. -/
def needsCluster (s : State) (gc : Nat) (l : Launch) : Bool :=
  (l.holds && l.cls.contains gc) || (l.st == .saved && l.vcls.any fun v => (s.vfOf l.vf).grant[v]? == some gc)

/-- CFENCE_CLUSTER (R473): cluster `a` is fenced at the kill-complete of the launch that holds it, at once where none does. -/
def execCfenceCluster (s : State) : Out :=
  let gc := s.inp.a
  if Config.clusters ≤ gc then .next s
  else
    let held := (holderOf s gc).isSome
    let s1 := (noteFence s).modCluster gc fun c => { c with fenced := c.fenced || !held, fencing := c.fencing || held }
    .next ((s.launches.filter (needsCluster s gc)).foldl (fun s l => killLaunch s l ENGINE_FAULT) s1)

/-- The jobs and the session of a Pontoon that becomes unavailable end ENGINE_UNAVAILABLE, those in hand when their handlers
have ended, and the queued jobs behind them (R329, R337, R473). -/
def endPontoon (s : State) (gc : Nat) : State :=
  let fail := fun (j : PJob) => { j with fail := some (j.fail.getD ENGINE_UNAVAILABLE) }
  let s1 := s.modPontoon gc fun po => { po with
    job := po.job.map fail, tail := po.tail.map fail
    tow := po.tow.bind fun w =>
      if w.st = 2 ∧ w.done.isNone ∧ w.owed = [] then none
      else some { w.atBoundary with st := 3, fail := none, done := some (w.done.getD ENGINE_UNAVAILABLE) } }
  afterJob gc (((seqQueue s gc).filter isTow).foldl (fun s r => refuseTow s gc r ENGINE_UNAVAILABLE)
    (s1.modEngine (seqHart gc) fun e => { e with queue := e.queue.filter fun r => !isTow r }))

/-- CFENCE_PONTOON (R473): the Pontoon of cluster `a` is fenced. -/
def execCfencePontoon (s : State) : Out :=
  let gc := s.inp.a
  if Config.clusters ≤ gc then .next s
  else .next (endPontoon ((noteFence s).modCluster gc fun c => { c with pfenced := true }) gc)

/-- plim as it acts (R475). -/
def actingLimit (s : State) : Nat := if 1 ≤ s.thermal then 1200 else s.plim

/-- POWER_CAP_CHECK (R474): the module's power, averaged over 10 ms, is `a` watts. -/
def execPowerCapCheck (s : State) : Out := .next { s with cap := decide (actingLimit s < s.inp.a) }

/-- thst.st of a temperature (R475). -/
def thermalOf (t : Nat) : Nat := if 110 ≤ t then 2 else if 100 ≤ t then 1 else 0

/-- A trip (R475): every launch is killed, every port is down, every engine is unavailable. -/
def trip (s : State) : State :=
  let s1 := s.launches.foldl (fun s l => killLaunch s l ENGINE_FAULT) s
  { s1 with ports := (upTo portCount).map fun p => (p, { s1.port p with st := if (s1.port p).st = 6 then 6 else 0 }) }

/-- THERMAL_STATE_CHANGE (R475): the hottest sensor reads `a` °C. A trip lasts until reset. -/
def execThermalStateChange (s : State) : Out :=
  let t := max (thermalOf s.inp.a) (if s.thermal = 2 then 2 else 0)
  let s1 := { s with tmax := min 255 s.inp.a }
  if t = s.thermal then .next s1
  else
    let s2 := raiseMsix { s1 with thermal := t } 0 4
    .next (if t = 2 then trip s2 else s2)

end Sys2Proof.Machine
end

