-- ==== Sys2Proof/Machine/Dispatch.lean ====
section
/-!
DEFINITION. The meaning of every row of the table of operations: one arm per constructor of Instr.
-/

namespace Sys2Proof.Machine

def exec (i : Instr) (s : State) : Host.Outcome State Fault Refusal :=
  match i with
  | .nop => Sys2Proof.Machine.execNop s
  | .halt => Sys2Proof.Machine.execHalt s
  | .brk code => Sys2Proof.Machine.execBrk code s
  | .trap code => Sys2Proof.Machine.execTrap code s
  | .eret => Sys2Proof.Machine.execEret s
  | .fence sc ix => Sys2Proof.Machine.execFence sc ix s
  | .chunkEnd => Sys2Proof.Machine.execChunkEnd s
  | .srr a num => Sys2Proof.Machine.execSrr a num s
  | .srw a num => Sys2Proof.Machine.execSrw a num s
  | .liI16 a imm => Sys2Proof.Machine.execLiI16 a imm s
  | .liI32 a imm => Sys2Proof.Machine.execLiI32 a imm s
  | .liI48 a imm => Sys2Proof.Machine.execLiI48 a imm s
  | .liHi a imm => Sys2Proof.Machine.execLiHi a imm s
  | .leaBase a b imm => Sys2Proof.Machine.execLeaBase a b imm s
  | .leaPc a imm => Sys2Proof.Machine.execLeaPc a imm s
  | .leaIndex a b c sh imm => Sys2Proof.Machine.execLeaIndex a b c sh imm s
  | .leaPcIndex a c sh imm => Sys2Proof.Machine.execLeaPcIndex a c sh imm s
  | .addRr a b c => Sys2Proof.Machine.execAddRr a b c s
  | .subRr a b c => Sys2Proof.Machine.execSubRr a b c s
  | .andRr a b c => Sys2Proof.Machine.execAndRr a b c s
  | .orRr a b c => Sys2Proof.Machine.execOrRr a b c s
  | .xorRr a b c => Sys2Proof.Machine.execXorRr a b c s
  | .shlRr a b c => Sys2Proof.Machine.execShlRr a b c s
  | .shrRr a b c => Sys2Proof.Machine.execShrRr a b c s
  | .sraRr a b c => Sys2Proof.Machine.execSraRr a b c s
  | .minRr a b c => Sys2Proof.Machine.execMinRr a b c s
  | .maxRr a b c => Sys2Proof.Machine.execMaxRr a b c s
  | .minuRr a b c => Sys2Proof.Machine.execMinuRr a b c s
  | .maxuRr a b c => Sys2Proof.Machine.execMaxuRr a b c s
  | .addRi16 a b imm => Sys2Proof.Machine.execAddRi16 a b imm s
  | .andRi16 a b imm => Sys2Proof.Machine.execAndRi16 a b imm s
  | .orRi16 a b imm => Sys2Proof.Machine.execOrRi16 a b imm s
  | .xorRi16 a b imm => Sys2Proof.Machine.execXorRi16 a b imm s
  | .shlRi16 a b imm => Sys2Proof.Machine.execShlRi16 a b imm s
  | .shrRi16 a b imm => Sys2Proof.Machine.execShrRi16 a b imm s
  | .sraRi16 a b imm => Sys2Proof.Machine.execSraRi16 a b imm s
  | .addRri32 a b imm => Sys2Proof.Machine.execAddRri32 a b imm s
  | .andRri32 a b imm => Sys2Proof.Machine.execAndRri32 a b imm s
  | .orRri32 a b imm => Sys2Proof.Machine.execOrRri32 a b imm s
  | .xorRri32 a b imm => Sys2Proof.Machine.execXorRri32 a b imm s
  | .cmpRr a b c cc => Sys2Proof.Machine.execCmpRr a b c cc s
  | .cmpRi16 a b cc imm => Sys2Proof.Machine.execCmpRi16 a b cc imm s
  | .bfx a b sx p w1 => Sys2Proof.Machine.execBfx a b sx p w1 s
  | .bfi a b p w1 => Sys2Proof.Machine.execBfi a b p w1 s
  | .clz a b => Sys2Proof.Machine.execClz a b s
  | .popc a b => Sys2Proof.Machine.execPopc a b s
  | .mul a b c => Sys2Proof.Machine.execMul a b c s
  | .mulh a b c => Sys2Proof.Machine.execMulh a b c s
  | .mulhu a b c => Sys2Proof.Machine.execMulhu a b c s
  | .div a b c => Sys2Proof.Machine.execDiv a b c s
  | .divu a b c => Sys2Proof.Machine.execDivu a b c s
  | .rem a b c => Sys2Proof.Machine.execRem a b c s
  | .remu a b c => Sys2Proof.Machine.execRemu a b c s
  | .ldRi16 a b sz sx nt imm => Sys2Proof.Machine.execLdRi16 a b sz sx nt imm s
  | .ldRri32 a b c sz sx nt sh imm => Sys2Proof.Machine.execLdRri32 a b c sz sx nt sh imm s
  | .stRi16 a b sz nt imm => Sys2Proof.Machine.execStRi16 a b sz nt imm s
  | .stRri32 a b c sz nt sh imm => Sys2Proof.Machine.execStRri32 a b c sz nt sh imm s
  | .lda a b sz sx sc imm => Sys2Proof.Machine.execLda a b sz sx sc imm s
  | .stl a b sz sc imm => Sys2Proof.Machine.execStl a b sz sc imm s
  | .aadd a b c dw sc => Sys2Proof.Machine.execAadd a b c dw sc s
  | .amin a b c dw u sc => Sys2Proof.Machine.execAmin a b c dw u sc s
  | .amax a b c dw u sc => Sys2Proof.Machine.execAmax a b c dw u sc s
  | .aand a b c dw sc => Sys2Proof.Machine.execAand a b c dw sc s
  | .aor a b c dw sc => Sys2Proof.Machine.execAor a b c dw sc s
  | .axor a b c dw sc => Sys2Proof.Machine.execAxor a b c dw sc s
  | .aswap a b c dw sc => Sys2Proof.Machine.execAswap a b c dw sc s
  | .acas a b c d dw sc => Sys2Proof.Machine.execAcas a b c d dw sc s
  | .bRi16 a b cc imm => Sys2Proof.Machine.execBRi16 a b cc imm s
  | .bRri32 a b cc imm => Sys2Proof.Machine.execBRri32 a b cc imm s
  | .jal a imm => Sys2Proof.Machine.execJal a imm s
  | .jalr a b imm => Sys2Proof.Machine.execJalr a b imm s
  | .hstart a b c nw det imm => Sys2Proof.Machine.execHstart a b c nw det imm s
  | .hjoin a b => Sys2Proof.Machine.execHjoin a b s
  | .hend => Sys2Proof.Machine.execHend s
  | .hyield => Sys2Proof.Machine.execHyield s
  | .gang a size => Sys2Proof.Machine.execGang a size s
  | .split => Sys2Proof.Machine.execSplit s
  | .phaseT => Sys2Proof.Machine.execPhaseT s
  | .phaseE => Sys2Proof.Machine.execPhaseE s
  | .tideRd a => Sys2Proof.Machine.execTideRd a s
  | .tideWait a b strict imm => Sys2Proof.Machine.execTideWait a b strict imm s
  | .waitmem a b sz imm => Sys2Proof.Machine.execWaitmem a b sz imm s
  | .sendmsg a b c tag => Sys2Proof.Machine.execSendmsg a b c tag s
  | .waitmsg => Sys2Proof.Machine.execWaitmsg s
  | .vadd a b c kp z rm t => Sys2Proof.Machine.execVadd a b c kp z rm t s
  | .vsub a b c kp z rm t => Sys2Proof.Machine.execVsub a b c kp z rm t s
  | .vmul a b c kp z rm t => Sys2Proof.Machine.execVmul a b c kp z rm t s
  | .vmin a b c kp z rm t => Sys2Proof.Machine.execVmin a b c kp z rm t s
  | .vmax a b c kp z rm t => Sys2Proof.Machine.execVmax a b c kp z rm t s
  | .vrcpe a b kp z rm t => Sys2Proof.Machine.execVrcpe a b kp z rm t s
  | .vrsqe a b kp z rm t => Sys2Proof.Machine.execVrsqe a b kp z rm t s
  | .vexp2 a b kp z rm t => Sys2Proof.Machine.execVexp2 a b kp z rm t s
  | .vlog2 a b kp z rm t => Sys2Proof.Machine.execVlog2 a b kp z rm t s
  | .vfma a b c d kp z rm t var wide h => Sys2Proof.Machine.execVfma a b c d kp z rm t var wide h s
  | .vrefn a b c kp z rm t var => Sys2Proof.Machine.execVrefn a b c kp z rm t var s
  | .viadd a b c kp z t => Sys2Proof.Machine.execViadd a b c kp z t s
  | .visub a b c kp z t => Sys2Proof.Machine.execVisub a b c kp z t s
  | .vimul a b c kp z t part => Sys2Proof.Machine.execVimul a b c kp z t part s
  | .vimin a b c kp z t u => Sys2Proof.Machine.execVimin a b c kp z t u s
  | .vimax a b c kp z t u => Sys2Proof.Machine.execVimax a b c kp z t u s
  | .vishl a b c kp z t => Sys2Proof.Machine.execVishl a b c kp z t s
  | .vishr a b c kp z t u => Sys2Proof.Machine.execVishr a b c kp z t u s
  | .vand a b c kp z t => Sys2Proof.Machine.execVand a b c kp z t s
  | .vor a b c kp z t => Sys2Proof.Machine.execVor a b c kp z t s
  | .vxor a b c kp z t => Sys2Proof.Machine.execVxor a b c kp z t s
  | .vcmp a b c kp z rm cc ft => Sys2Proof.Machine.execVcmp a b c kp z rm cc ft s
  | .vicmp a b c kp z cc w => Sys2Proof.Machine.execVicmp a b c kp z cc w s
  | .kwhile a b c w u => Sys2Proof.Machine.execKwhile a b c w u s
  | .kand a b c => Sys2Proof.Machine.execKand a b c s
  | .kor a b c => Sys2Proof.Machine.execKor a b c s
  | .kxor a b c => Sys2Proof.Machine.execKxor a b c s
  | .kandn a b c => Sys2Proof.Machine.execKandn a b c s
  | .kmov a b => Sys2Proof.Machine.execKmov a b s
  | .knot a b => Sys2Proof.Machine.execKnot a b s
  | .kcnt a b w => Sys2Proof.Machine.execKcnt a b w s
  | .vwidth a => Sys2Proof.Machine.execVwidth a s
  | .vld a b kp z t nt imm => Sys2Proof.Machine.execVld a b kp z t nt imm s
  | .vst a b kp t nt imm => Sys2Proof.Machine.execVst a b kp t nt imm s
  | .vlds a b c kp z t nt imm => Sys2Proof.Machine.execVlds a b c kp z t nt imm s
  | .vsts a b c kp t nt imm => Sys2Proof.Machine.execVsts a b c kp t nt imm s
  | .vgath a b c kp z t nt sh imm => Sys2Proof.Machine.execVgath a b c kp z t nt sh imm s
  | .vscat a b c kp t nt sh imm => Sys2Proof.Machine.execVscat a b c kp t nt sh imm s
  | .vcvt a b kp z rm ts td p u => Sys2Proof.Machine.execVcvt a b kp z rm ts td p u s
  | .vpack a b d kp z rm ts td p u => Sys2Proof.Machine.execVpack a b d kp z rm ts td p u s
  | .vunpk a b d kp z rm ts td p u => Sys2Proof.Machine.execVunpk a b d kp z rm ts td p u s
  | .vdotf8 a b c kp rm ta tb j => Sys2Proof.Machine.execVdotf8 a b c kp rm ta tb j s
  | .vdoti8 a b c kp ta tb j => Sys2Proof.Machine.execVdoti8 a b c kp ta tb j s
  | .vred a b kp rm t o j => Sys2Proof.Machine.execVred a b kp rm t o j s
  | .vscan a b kp z rm t o => Sys2Proof.Machine.execVscan a b kp z rm t o s
  | .vperm a b c d kp z t two => Sys2Proof.Machine.execVperm a b c d kp z t two s
  | .vbcast a b c kp z t el => Sys2Proof.Machine.execVbcast a b c kp z t el s
  | .vsel a b c kp t => Sys2Proof.Machine.execVsel a b c kp t s
  | .vpeer a b mode imm => Sys2Proof.Machine.execVpeer a b mode imm s
  | .vhist b kp t => Sys2Proof.Machine.execVhist b kp t s
  | .vseedRd a => Sys2Proof.Machine.execVseedRd a s
  | .vseedWr b => Sys2Proof.Machine.execVseedWr b s
  | .vseedXchg a b => Sys2Proof.Machine.execVseedXchg a b s
  | .vext a b t sx idx => Sys2Proof.Machine.execVext a b t sx idx s
  | .vins a b t idx => Sys2Proof.Machine.execVins a b t idx s
  | .bbGet a b r sx imm => Sys2Proof.Machine.execBbGet a b r sx imm s
  | .bbPeek a b r sx imm => Sys2Proof.Machine.execBbPeek a b r sx imm s
  | .bbSkip b r imm => Sys2Proof.Machine.execBbSkip b r imm s
  | .bbFill a => Sys2Proof.Machine.execBbFill a s
  | .bbDec a imm => Sys2Proof.Machine.execBbDec a imm s
  | .bbSave b imm => Sys2Proof.Machine.execBbSave b imm s
  | .bbRest b imm => Sys2Proof.Machine.execBbRest b imm s
  | .xreq a b => Sys2Proof.Machine.execXreq a b s
  | .xstat a => Sys2Proof.Machine.execXstat a s
  | .launch a b q => Sys2Proof.Machine.execLaunch a b q s
  | .evwait a b sc imm => Sys2Proof.Machine.execEvwait a b sc imm s
  | .evsig a b sc imm => Sys2Proof.Machine.execEvsig a b sc imm s
  | .lqstat a q => Sys2Proof.Machine.execLqstat a q s
  | .yieldOp => Sys2Proof.Machine.execYieldOp s
  | .sync a lv => Sys2Proof.Machine.execSync a lv s
  | .dtake a t => Sys2Proof.Machine.execDtake a t s
  | .dplaceStart a b c l => Sys2Proof.Machine.execDplaceStart a b c l s
  | .dplacePreq a b c l => Sys2Proof.Machine.execDplacePreq a b c l s
  | .dplaceSave a b c l => Sys2Proof.Machine.execDplaceSave a b c l s
  | .dplaceRest a b c l => Sys2Proof.Machine.execDplaceRest a b c l s
  | .dplaceKill a b c l => Sys2Proof.Machine.execDplaceKill a b c l s
  | .cpyPk a b c nt tag => Sys2Proof.Machine.execCpyPk a b c nt tag s
  | .cpyLand a b c nt tag => Sys2Proof.Machine.execCpyLand a b c nt tag s
  | .cpyRec a b c nt tag => Sys2Proof.Machine.execCpyRec a b c nt tag s
  | .cpyLoop a b c nt tag => Sys2Proof.Machine.execCpyLoop a b c nt tag s
  | .cpycan a b => Sys2Proof.Machine.execCpycan a b s
  | .landAcq a b r chk nw => Sys2Proof.Machine.execLandAcq a b r chk nw s
  | .landRel b r => Sys2Proof.Machine.execLandRel b r s
  | .landInit a b c r => Sys2Proof.Machine.execLandInit a b c r s
  | .halloc a b c nt => Sys2Proof.Machine.execHalloc a b c nt s
  | .hfree a b => Sys2Proof.Machine.execHfree a b s
  | .hbump a b c => Sys2Proof.Machine.execHbump a b c s
  | .jpeek a b => Sys2Proof.Machine.execJpeek a b s
  | .jdrop => Sys2Proof.Machine.execJdrop s
  | .bget a nw => Sys2Proof.Machine.execBget a nw s
  | .bstreamMove a b c d => Sys2Proof.Machine.execBstreamMove a b c d s
  | .bstreamOwner a => Sys2Proof.Machine.execBstreamOwner a s
  | .bstreamFwd b => Sys2Proof.Machine.execBstreamFwd b s
  | .blandWait a b => Sys2Proof.Machine.execBlandWait a b s
  | .blandFill b => Sys2Proof.Machine.execBlandFill b s
  | .blandDone b c => Sys2Proof.Machine.execBlandDone b c s
  | .pjob a b => Sys2Proof.Machine.execPjob a b s
  | .ppoll a b => Sys2Proof.Machine.execPpoll a b s
  | .pwait a b => Sys2Proof.Machine.execPwait a b s
  | .pcan a b => Sys2Proof.Machine.execPcan a b s
  | .pheatSet a b => Sys2Proof.Machine.execPheatSet a b s
  | .pheatAdd a b => Sys2Proof.Machine.execPheatAdd a b s
  | .pmonRing a b => Sys2Proof.Machine.execPmonRing a b s
  | .pmonBank a b => Sys2Proof.Machine.execPmonBank a b s
  | .pmonTemp a b => Sys2Proof.Machine.execPmonTemp a b s
  | .psettle a b go t => Sys2Proof.Machine.execPsettle a b go t s
  | .pcalFull a => Sys2Proof.Machine.execPcalFull a s
  | .pcalOfs a => Sys2Proof.Machine.execPcalOfs a s
  | .pmapRd a b => Sys2Proof.Machine.execPmapRd a b s
  | .pmapSwap a b => Sys2Proof.Machine.execPmapSwap a b s
  | .pmapIdent a b => Sys2Proof.Machine.execPmapIdent a b s
  | .pstat a sel => Sys2Proof.Machine.execPstat a sel s
  | .prowgoDrop => Sys2Proof.Machine.execProwgoDrop s
  | .prowgoMem => Sys2Proof.Machine.execProwgoMem s
  | .prowgoLand b => Sys2Proof.Machine.execProwgoLand b s
  | .paccRdN a b => Sys2Proof.Machine.execPaccRdN a b s
  | .paccRdP a b => Sys2Proof.Machine.execPaccRdP a b s
  | .towEnter a b c => Sys2Proof.Machine.execTowEnter a b c s
  | .towExit a b => Sys2Proof.Machine.execTowExit a b s
  | .towStat a b => Sys2Proof.Machine.execTowStat a b s
  | .towWait a b => Sys2Proof.Machine.execTowWait a b s
  | .fenrol a b att nent => Sys2Proof.Machine.execFenrol a b att nent s
  | .fleave a att => Sys2Proof.Machine.execFleave a att s
  | .frb a b c rm ent att => Sys2Proof.Machine.execFrb a b c rm ent att s
  | .fmax a b c ent att => Sys2Proof.Machine.execFmax a b c ent att s
  | .fmin a b c ent att => Sys2Proof.Machine.execFmin a b c ent att s
  | .fpop a att => Sys2Proof.Machine.execFpop a att s
  | .falign a att t => Sys2Proof.Machine.execFalign a att t s
  | .fstat a att sel => Sys2Proof.Machine.execFstat a att sel s
  | .femitTake a => Sys2Proof.Machine.execFemitTake a s
  | .femitLoad a b => Sys2Proof.Machine.execFemitLoad a b s
  | .femitFrame a b => Sys2Proof.Machine.execFemitFrame a b s
  | .femitDone a b => Sys2Proof.Machine.execFemitDone a b s
  | .fcountRd a b c => Sys2Proof.Machine.execFcountRd a b c s
  | .fcountEl a b => Sys2Proof.Machine.execFcountEl a b s
  | .fcountEx a b => Sys2Proof.Machine.execFcountEx a b s
  | .rtv a => Sys2Proof.Machine.execRtv a s
  | .lnkst a b p sel => Sys2Proof.Machine.execLnkst a b p sel s
  | .ttselSw a b sw v => Sys2Proof.Machine.execTtselSw a b sw v s
  | .ttselSeg a att ttv => Sys2Proof.Machine.execTtselSeg a att ttv s
  | .pilotst a p => Sys2Proof.Machine.execPilotst a p s
  | .trcRdEnt a ix => Sys2Proof.Machine.execTrcRdEnt a ix s
  | .trcRdCnt a => Sys2Proof.Machine.execTrcRdCnt a s
  | .trcRdClr a => Sys2Proof.Machine.execTrcRdClr a s
  | .imbRd a dw st ix => Sys2Proof.Machine.execImbRd a dw st ix s
  | .dbgsigHalt => Sys2Proof.Machine.execDbgsigHalt s
  | .dbgsigTrig => Sys2Proof.Machine.execDbgsigTrig s
  | .dbgsigMark v => Sys2Proof.Machine.execDbgsigMark v s
  | .dumpst a sel => Sys2Proof.Machine.execDumpst a sel s
  | .reservedOpcode op => Sys2Proof.Machine.execReservedOpcode op s
  | .lineFetch => Sys2Proof.Machine.execLineFetch s
  | .asyncTrapDelivery => Sys2Proof.Machine.execAsyncTrapDelivery s
  | .tpinWrite => Sys2Proof.Machine.execTpinWrite s
  | .hbindWrite => Sys2Proof.Machine.execHbindWrite s
  | .timedPhaseEntry => Sys2Proof.Machine.execTimedPhaseEntry s
  | .waitmemWake => Sys2Proof.Machine.execWaitmemWake s
  | .waitmemTimeout => Sys2Proof.Machine.execWaitmemTimeout s
  | .barrierRelease => Sys2Proof.Machine.execBarrierRelease s
  | .meshPush => Sys2Proof.Machine.execMeshPush s
  | .meshPop => Sys2Proof.Machine.execMeshPop s
  | .qcPush => Sys2Proof.Machine.execQcPush s
  | .qcPop => Sys2Proof.Machine.execQcPop s
  | .jetRead => Sys2Proof.Machine.execJetRead s
  | .prowRead => Sys2Proof.Machine.execProwRead s
  | .xqPush => Sys2Proof.Machine.execXqPush s
  | .xqPop => Sys2Proof.Machine.execXqPop s
  | .qxPush => Sys2Proof.Machine.execQxPush s
  | .qxPop => Sys2Proof.Machine.execQxPop s
  | .localArrival => Sys2Proof.Machine.execLocalArrival s
  | .chunkCommit => Sys2Proof.Machine.execChunkCommit s
  | .vectorStorePart => Sys2Proof.Machine.execVectorStorePart s
  | .transformClaimLapse => Sys2Proof.Machine.execTransformClaimLapse s
  | .transformDecodeChunk => Sys2Proof.Machine.execTransformDecodeChunk s
  | .decoderWatchdogCutoff => Sys2Proof.Machine.execDecoderWatchdogCutoff s
  | .transformTranspose => Sys2Proof.Machine.execTransformTranspose s
  | .transformConvert => Sys2Proof.Machine.execTransformConvert s
  | .transformResponse => Sys2Proof.Machine.execTransformResponse s
  | .evwaitWake => Sys2Proof.Machine.execEvwaitWake s
  | .engineKickAccept => Sys2Proof.Machine.execEngineKickAccept s
  | .engineHartFaultStop => Sys2Proof.Machine.execEngineHartFaultStop s
  | .engineHartWake => Sys2Proof.Machine.execEngineHartWake s
  | .doorbell => Sys2Proof.Machine.execDoorbell s
  | .klnidKill => Sys2Proof.Machine.execKlnidKill s
  | .launchRecordTake => Sys2Proof.Machine.execLaunchRecordTake s
  | .launchPlacement => Sys2Proof.Machine.execLaunchPlacement s
  | .launchRetirement => Sys2Proof.Machine.execLaunchRetirement s
  | .timeSliceExpiry => Sys2Proof.Machine.execTimeSliceExpiry s
  | .preemptionMark => Sys2Proof.Machine.execPreemptionMark s
  | .preemptionGraceExpiry => Sys2Proof.Machine.execPreemptionGraceExpiry s
  | .launchRestore => Sys2Proof.Machine.execLaunchRestore s
  | .launchKill => Sys2Proof.Machine.execLaunchKill s
  | .killComplete => Sys2Proof.Machine.execKillComplete s
  | .bargeForward => Sys2Proof.Machine.execBargeForward s
  | .bargeCopy => Sys2Proof.Machine.execBargeCopy s
  | .loopIteration => Sys2Proof.Machine.execLoopIteration s
  | .jobStart => Sys2Proof.Machine.execJobStart s
  | .tileLoad => Sys2Proof.Machine.execTileLoad s
  | .tileStream => Sys2Proof.Machine.execTileStream s
  | .rowDispatch => Sys2Proof.Machine.execRowDispatch s
  | .jobComplete => Sys2Proof.Machine.execJobComplete s
  | .jobFailure => Sys2Proof.Machine.execJobFailure s
  | .jobPark => Sys2Proof.Machine.execJobPark s
  | .driftEstimate => Sys2Proof.Machine.execDriftEstimate s
  | .bankSettled => Sys2Proof.Machine.execBankSettled s
  | .pthrsWrite => Sys2Proof.Machine.execPthrsWrite s
  | .sequencerRetune => Sys2Proof.Machine.execSequencerRetune s
  | .towSessionStart => Sys2Proof.Machine.execTowSessionStart s
  | .towWtile => Sys2Proof.Machine.execTowWtile s
  | .towRun => Sys2Proof.Machine.execTowRun s
  | .towPromote => Sys2Proof.Machine.execTowPromote s
  | .towDrain => Sys2Proof.Machine.execTowDrain s
  | .towRoute => Sys2Proof.Machine.execTowRoute s
  | .towSync => Sys2Proof.Machine.execTowSync s
  | .towBranch => Sys2Proof.Machine.execTowBranch s
  | .towCall => Sys2Proof.Machine.execTowCall s
  | .towRet => Sys2Proof.Machine.execTowRet s
  | .towExitBlock => Sys2Proof.Machine.execTowExitBlock s
  | .towReservedBlock => Sys2Proof.Machine.execTowReservedBlock s
  | .towStop => Sys2Proof.Machine.execTowStop s
  | .towPark => Sys2Proof.Machine.execTowPark s
  | .towCompletion => Sys2Proof.Machine.execTowCompletion s
  | .fordRequestTake => Sys2Proof.Machine.execFordRequestTake s
  | .fordFrame => Sys2Proof.Machine.execFordFrame s
  | .fordComplete => Sys2Proof.Machine.execFordComplete s
  | .fordTowHandover => Sys2Proof.Machine.execFordTowHandover s
  | .fordCensus => Sys2Proof.Machine.execFordCensus s
  | .fordReformNotice => Sys2Proof.Machine.execFordReformNotice s
  | .fordReformApply => Sys2Proof.Machine.execFordReformApply s
  | .fordFallbackCollective => Sys2Proof.Machine.execFordFallbackCollective s
  | .fordFallbackTimeout => Sys2Proof.Machine.execFordFallbackTimeout s
  | .fsegctlWrite => Sys2Proof.Machine.execFsegctlWrite s
  | .packetForward => Sys2Proof.Machine.execPacketForward s
  | .remoteAccessTimeout => Sys2Proof.Machine.execRemoteAccessTimeout s
  | .remoteStoreAck => Sys2Proof.Machine.execRemoteStoreAck s
  | .remoteStoreLost => Sys2Proof.Machine.execRemoteStoreLost s
  | .routeCommit => Sys2Proof.Machine.execRouteCommit s
  | .switchHoldDrain => Sys2Proof.Machine.execSwitchHoldDrain s
  | .switchDark => Sys2Proof.Machine.execSwitchDark s
  | .switchRelock => Sys2Proof.Machine.execSwitchRelock s
  | .switchCommit => Sys2Proof.Machine.execSwitchCommit s
  | .tideTick => Sys2Proof.Machine.execTideTick s
  | .tideSample => Sys2Proof.Machine.execTideSample s
  | .codewordReceive => Sys2Proof.Machine.execCodewordReceive s
  | .portRetrain => Sys2Proof.Machine.execPortRetrain s
  | .portRetrainTimeout => Sys2Proof.Machine.execPortRetrainTimeout s
  | .lhstClear => Sys2Proof.Machine.execLhstClear s
  | .pkick => Sys2Proof.Machine.execPkick s
  | .pilotWatchdogReset => Sys2Proof.Machine.execPilotWatchdogReset s
  | .pilotRestart => Sys2Proof.Machine.execPilotRestart s
  | .pilotShadowUpdate => Sys2Proof.Machine.execPilotShadowUpdate s
  | .clusterHalt => Sys2Proof.Machine.execClusterHalt s
  | .crossTriggerReceive => Sys2Proof.Machine.execCrossTriggerReceive s
  | .tdgo => Sys2Proof.Machine.execTdgo s
  | .debugWindowAccess => Sys2Proof.Machine.execDebugWindowAccess s
  | .coreDumpWrite => Sys2Proof.Machine.execCoreDumpWrite s
  | .hostBar2Access => Sys2Proof.Machine.execHostBar2Access s
  | .registerWrite => Sys2Proof.Machine.execRegisterWrite s
  | .fcenEnable => Sys2Proof.Machine.execFcenEnable s
  | .fcenDisable => Sys2Proof.Machine.execFcenDisable s
  | .translationInvalidate => Sys2Proof.Machine.execTranslationInvalidate s
  | .slicePartition => Sys2Proof.Machine.execSlicePartition s
  | .alogcWrite => Sys2Proof.Machine.execAlogcWrite s
  | .ectlGo => Sys2Proof.Machine.execEctlGo s
  | .ectlRst => Sys2Proof.Machine.execEctlRst s
  | .efpop => Sys2Proof.Machine.execEfpop s
  | .deviceReset => Sys2Proof.Machine.execDeviceReset s
  | .getVersion => Sys2Proof.Machine.execGetVersion s
  | .getCapabilities => Sys2Proof.Machine.execGetCapabilities s
  | .negotiateAlgorithms => Sys2Proof.Machine.execNegotiateAlgorithms s
  | .getDigests => Sys2Proof.Machine.execGetDigests s
  | .getCertificate => Sys2Proof.Machine.execGetCertificate s
  | .challenge => Sys2Proof.Machine.execChallenge s
  | .getMeasurements => Sys2Proof.Machine.execGetMeasurements s
  | .gofull => Sys2Proof.Machine.execGofull s
  | .cfenceCluster => Sys2Proof.Machine.execCfenceCluster s
  | .cfencePontoon => Sys2Proof.Machine.execCfencePontoon s
  | .powerCapCheck => Sys2Proof.Machine.execPowerCapCheck s
  | .thermalStateChange => Sys2Proof.Machine.execThermalStateChange s
  | .pcalComplete => Sys2Proof.Machine.execPcalComplete s
  | .falignTrained => Sys2Proof.Machine.execFalignTrained s
  | .portUp => Sys2Proof.Machine.execPortUp s
  | .settleTimeout => Sys2Proof.Machine.execSettleTimeout s

end Sys2Proof.Machine
end

