-- ==== Sys2Proof/Machine/Step.lean ====
section
/-!
DEFINITION. One step of the package: a turn of the agenda, or, while the agenda is empty, one cycle of the agent that
moves (R136, R137, R18).

Marks (notes/assumptions): DESIGN CHOICE (safe) 5, 6; DEDUCED (safe) 15.
-/

namespace Sys2Proof.Machine

/-- Whether a step answers a state in which a head has issued, or cannot go on. -/
def didIssue (o : Out) : Bool :=
  match o with
  | .next t => t.issued
  | _ => true

/-- The fault of a head that cannot be fetched or read (R38, R40, R43), with its tval. -/
def badHead (s : State) (code : Nat) (val : Word) : Out := .next (trapHead s [(s.cur, code, val)] s.me.r.pc)

/-- A head whose reserved operand value has no row: its legality is judged first (R43). -/
def badOperand (s : State) (op : Nat) : Out :=
  match legality s s.cur op with
  | some c => badHead s c s.me.r.pc
  | none => badHead s ILLEGAL_OPERAND s.me.r.pc

/-- The decoded head of a fetched line (R43): a reserved or foreign opcode, then the format, then the rest. -/
def runLine (s : State) (l : Line) : Out :=
  let pc := s.me.r.pc
  let op := bits (l.half (headIndex pc)) 8 8
  if isHart s.cur ∧ legality s s.cur op = some ILLEGAL_OPCODE then badHead s ILLEGAL_OPCODE pc
  else match l.decode (headIndex pc) with
    | .ok i => exec i s
    | .error .instrFormat => badHead s INSTR_FORMAT pc
    | .error .reservedOperand => badOperand s op

/-- Fetches the line of the agent's PC and runs the head there (R38, R40). In a gang the leader fetches (R138). -/
def stepHead (s : State) (q : Nat) : Out :=
  let s0 := { s with cur := leader s q, issued := false }
  let la := lineBase s0.me.r.pc
  match fetchLine s0 s0.cur la with
  | .error c => if c = WAITS then .next s0 else badHead s0 c (BitVec.ofNat 64 la)
  | .ok (s1, l) =>
    let s2 := if isHart q then s1 else s1.modProc s1.cur fun p => { p with copy := some (la, l) }
    if 1 ≤ headIndex s2.me.r.pc ∧ headIndex s2.me.r.pc ≤ l.check.getD 0 ∧ s2.me.r.pc.getLsbD 0 = false then runLine s2 l
    else badHead s2 INSTR_FORMAT (BitVec.ofNat 64 la)

/-- Whether an agent may try its next head in this cycle, before the head's own conditions (R136, R140, R142, R445). -/
def mayTry (s : State) (q : Nat) : Bool :=
  let p := s.proc q
  p.st == .live && !p.stopped && p.wait != .parked && decide (p.resumeAt.toNat ≤ s.tide.toNat) &&
  (isHart q ||
    (!(s.core (coreOf q)).parked && !(s.cluster (clusterOf q)).tdst.getLsbD 0 &&
     (slotOf q == 0 ||
       (!(s.proc (ctl (coreOf q))).timed && decide ((s.proc (ctl (coreOf q))).phaseOver.toNat ≤ s.tide.toNat)))))

/-- Whether context `q` is ready: its next head can issue in this cycle (R136). -/
def isReady (s : State) (q : Nat) : Bool := mayTry s q && didIssue (stepHead s q)

/-- The ready contexts of a core, before HYIELD's rule. -/
def readyAll (s : State) (g : Nat) : List Nat := ((upTo 11).map fun k => ctl g + k).filter (isReady s)

/-- HYIELD's rule (R171): a helper that has yielded is not ready until every other ready context has issued once, or the
deadline has passed. -/
def yieldOver (s : State) (ready : List Nat) (q : Nat) : Bool :=
  match (s.proc q).wait with
  | .yield due slots => decide (due.toNat ≤ s.tide.toNat) || ready.all fun r => r == q || slots.contains (slotOf r)
  | _ => true

/-- The ready contexts of a core. -/
def readyOf (s : State) (g : Nat) : List Nat :=
  let r := readyAll s g
  r.filter (yieldOver s r)

/-- The first of a list of contexts at or after the slot that follows `last`, round-robin (R137). -/
def roundRobin (last : Nat) (qs : List Nat) : Option Nat :=
  match qs.find? fun q => decide (last < slotOf q) with
  | some q => some q
  | none => qs.head?

/-- Of the contexts that have waited 16 cycles or more, the one that has waited longest; the lower slot of equals. -/
def longestWaiter (s : State) (qs : List Nat) : Option Nat :=
  (qs.filter fun q => decide (16 ≤ (s.proc q).waited)).foldl (fun m q =>
    match m with
    | none => some q
    | some x => if (s.proc x).waited < (s.proc q).waited then some q else some x) none

/-- The context of core `g` that issues (R137). -/
def choose (s : State) (g : Nat) : Option Nat :=
  let r := readyOf s g
  match longestWaiter s r with
  | some q => some q
  | none =>
    match roundRobin (s.core g).rrDrain (r.filter fun q => slotOf q != 0 && (s.proc q).drain) with
    | some q => some q
    | none =>
      if r.contains (ctl g) then some (ctl g)
      else roundRobin (s.core g).rrHelper (r.filter fun q => slotOf q != 0)

/-- The cores whose issue slots a context takes: its own, or every core of its gang (R138). -/
def slotCores (s : State) (q : Nat) : List Nat := (members s q).map coreOf

/-- The ready contexts of a core other than the one it chose have waited one cycle more (R136). -/
def waitOthers (s : State) (ready : List Nat) (q : Nat) : State :=
  (ready.filter (· != q)).foldl (fun s r => s.modProc r fun p => { p with waited := p.waited + 1 }) s

/-- What a cycle of core `g` leaves beside the head of `q` it issued (R136, R137, R171): the other ready contexts have
waited one cycle more, and those that have yielded have seen `q` issue. `ready`, and `drain`, whether `q` is a row-drain helper,
are taken before the head ran. -/
def account (s : State) (ready : List Nat) (drain : Bool) (g q : Nat) : State :=
  let s1 := waitOthers s ready q
  let s2 := ((upTo 11).map fun k => ctl g + k).foldl (fun s r =>
    if r = q then s
    else match (s.proc r).wait with
      | .yield due slots => s.modProc r fun p => { p with wait := .yield due (slots ++ [slotOf q]) }
      | _ => s) s1
  s2.modCore g fun c => { c with
    lastIssue := some s.tide
    rrDrain := if slotOf q != 0 && drain then slotOf q else c.rrDrain
    rrHelper := if slotOf q != 0 && !drain then slotOf q else c.rrHelper }

/-- A core whose issue slot of this cycle is not used yet. -/
def slotOpen (s : State) (g : Nat) : Bool := (s.core g).lastIssue != some s.tide

/-- The item of a push to qc has been accepted for cluster `gc` between `s` and the answer of a head. -/
def pushesQc (s : State) (gc : Nat) (o : Out) : Bool :=
  match o with
  | .next t => (t.cluster gc).qcLast == some s.tide && (s.cluster gc).qcLast != some s.tide
  | _ => false

/-- The head of `q` on core `g` in this cycle. Of simultaneous pushes to qc the lowest core index is accepted (R145): where a
core of lower index, whose issue slot is open, pushes in this cycle, the head finds the cluster's push taken. -/
def headInCycle (s : State) (g q : Nat) : Out :=
  let gc := g / 8
  let o := stepHead s q
  let lower := (upTo (g % 8)).any fun k =>
    let h := 8 * gc + k
    slotOpen s h && match choose s h with
      | some r => leader s r != leader s q && pushesQc s gc (stepHead s r)
      | none => false
  if pushesQc s gc o && lower then
    match stepHead (s.modCluster gc fun c => { c with qcLast := some s.tide }) q with
    | .next t => .next (t.modCluster gc fun c => { c with qcLast := (s.cluster gc).qcLast })
    | o => o
  else o

/-- One cycle of core `g`: a pending asynchronous trap is taken, and one ready context issues. A gang issues when every
member core chooses it; a core that has chosen it while another has not issues nothing in the cycle, and the gang waits on
the cores that chose otherwise (R138, R152). -/
def coreStep (s0 : State) (g : Nat) : Out :=
  let s := deliverAsync s0 (ctl g)
  if !slotOpen s g then .next s
  else match choose s g with
    | none => .next s
    | some q =>
      let cores := slotCores s q
      let at_ := fun (h : Nat) => if h = g then q else ctl h
      if cores.all fun h => slotOpen s h && (choose s h == some (at_ h)) then
        match headInCycle s g q with
        | .next t => .next (cores.foldl (fun t h => account t (readyOf s h) (s.proc (at_ h)).drain h (at_ h)) t)
        | o => o
      else .next ((waitOthers s (readyOf s g) q).modCore g fun c => { c with lastIssue := some s.tide })

/-- A sequencer whose engine is in towed mode fetches no lines (R354). -/
def towed (s : State) (h : Nat) : Bool := isSequencer h && (s.cluster (h - 640)).pontoon.tow.isSome

/-- One cycle of an engine hart. -/
def hartStep (s : State) (h : Nat) : Out := if mayTry s (hartQOf h) && !towed s h then stepHead s (hartQOf h) else .next s

/-- One turn of the agenda. -/
def runTurn (s : State) (t : Turn) : Out :=
  match t with
  | .core g => if g < Config.cores then coreStep s g else .fault .noSuchAgent
  | .hart h => if h < Config.harts then hartStep s h else .fault .noSuchAgent
  | .event i inp => if i.isEvent then exec i { s with inp := inp } else .fault .badTurn

/-- A cycle of the agent that moves, and the Tide counter advances (R18). -/
def runCycle (s : State) : Out :=
  match (if isHart s.cur then hartStep s (hartIx s.cur) else coreStep s (coreOf s.cur)) with
  | .next t => .next { t with tide := t.tide + 1 }
  | o => o

/-- One step: the first turn of the agenda; with the agenda empty, one cycle of the agent that moves. -/
def step (s : State) : Out :=
  match s.agenda with
  | t :: rest => runTurn { s with agenda := rest } t
  | [] => runCycle s

/-! ### A single instruction put where it is fetched next -/

/-- An agent that may run an opcode: the control context of core 0 in free mode or in a timed phase, its first helper, a
row-drain helper there, or a hart of the engine. -/
def agentFor (op : Nat) : Nat × Proc :=
  let l := legal op
  let live : Proc := { st := .live }
  if l.contains .control || l.isEmpty then (0, live)
  else if l.contains .timed then (0, { live with timed := true })
  else if l.contains .helper then (1, live)
  else if l.contains .drain then (1, { live with drain := true })
  else if l.contains .barge then (hartQOf 0, live)
  else if l.contains .sequencer then (hartQOf 640, live)
  else if l.contains .ford then (hartQOf 13440, live)
  else if l.contains .ferryman then (hartQOf 13456, live)
  else (hartQOf 13457, live)

/-- Where the line of the instruction stands: virtual address 0x1_0000 for a context, byte 0 of a hart's store. -/
def placeLine (q : Nat) : Nat := if isHart q then 0 else 0x10000

/-- `s` with the instruction whose bits are `w` as the next head of an agent that may run it, which is the agent that
moves: its line is fetched (a context) or stands in its microcode store (a hart), its PC is head 1 of that line, and
nothing else of its core issues. -/
def State.withFetchWord (s : State) (nbits w : Nat) : State :=
  let l := lineOfWord (w % 2 ^ nbits)
  let (q, p0) := agentFor (bits w 8 8)
  let la := placeLine q
  let p : Proc := { p0 with
    r := { (s.proc q).r with pc := BitVec.ofNat 64 (la + 2) }
    tvec := (s.proc q).tvec
    lines := []
    codeLen := if isHart q then 64 else 0 }
  let s1 := { s with
    agenda := [], cur := q
    procs := FMap.put (s.procs.filter fun (e : Nat × Proc) => isHart q || decide (11 ≤ e.1)) q p }
  if isHart q then { s1 with mem := Memory.writeList s1.mem (ucKey (hartIx q) 0) (leBytes 64 l.toNat) }
  else
    (s1.modCore 0 fun c => { c with gsize := 0, gmemb := 0, lastIssue := none, parked := false, pins := FMap.del c.pins la, l1i := [(la, l)] }).modCluster 0
      fun c => { c with tdst := 0 }

end Sys2Proof.Machine
end

