-- ==== Sys2Proof/Safety.lean ====
section
/-!
DEFINITION. What counts as a safe run: every step answers a next state. When a head may run and what it means that it
completes.
-/

namespace Sys2Proof.Machine

/-- A step from `s` leads to `t`. -/
def StepsTo (s t : State) : Prop := step s = .next t

/-- `t` is reached from `s` by steps that all answer a next state. -/
inductive Reaches : State → State → Prop where
  | refl (s : State) : Reaches s s
  | step (s t u : State) : Reaches s t → StepsTo t u → Reaches s u

/-- A state from which the next step neither faults nor is refused. -/
def Safe (s : State) : Prop := ∃ t, StepsTo s t

/-- The head `i` may run (R43): its agent leads its gang or stands alone, may execute the opcode (R60, R61), its operands
pass the checks of R42 to R52, no breakpoint matches it (R443), its chunk keeps the limit of R121, no source register of it is
awaited (R136, R139), and no member's push of the same head has been accepted yet (R145). -/
def ready (s : State) (i : Instr) : Bool :=
  leader s s.cur == s.cur && (legality s s.cur (i.opcode.getD 0)).isNone && operandsOk s i &&
  (bpMember s (members s s.cur) (s.proc s.cur).r.pc).isNone && decide (chunkLines s s.cur ≤ 64) &&
  !heldBack s s.cur i && (members s s.cur).all fun m => (s.proc m).wait != .pushed

/-- The head `i` completes (R37, R124): its effect has led to `t`, and control leaves it as `nx` says. -/
def Completes (i : Instr) (s t : State) (nx : Next) : Prop :=
  Sys2Proof.Machine.exec i s = .next (endHead { t with cur := s.cur } i nx)

/-- An agent that is in no gang. -/
def alone (s : State) : Bool := members s s.cur == [s.cur]

end Sys2Proof.Machine
end

