-- ==== Sys2Proof/Certificates/Slice0/Vocabulary.lean ====
section
/-!
DEFINITION. The words the statements are made of: results as they land, what a gang does member by member, and the tables
of results that chapters 5 to 8 of the spec give, written here from the spec and apart from the meanings.
-/

namespace Sys2Proof.Machine

/-! ### Results -/

/-- A result of the agent that moves, of a published latency: in free mode in program order, and awaited by the heads that read
it until the latency has passed; in a timed phase it lands then (R139, R141). -/
def State.land (t : State) (lat : Nat) (w : RegWrite) : State :=
  if t.me.timed then t.modProc t.cur fun p => { p with flight := p.flight ++ [⟨t.tide.toNat + lat, t.tide.toNat, w⟩] }
  else applyWrite (noteDue t t.cur lat w) t.cur w

/-- dst of R156 for a general register: g0 discards the result. -/
def State.landG (t : State) (lat : Nat) (a : BitVec 6) (x : Word) : State :=
  if a.toNat = 0 then t else t.land lat (.g a.toNat x)

/-- `f` done for each member of the gang of the agent that moves, in turn, from the state `b` (R138, R173). -/
def forMembers (s b : State) (f : State → State) : State :=
  { (members s s.cur).foldl (fun t m => f { t with cur := m }) b with cur := s.cur }

/-- A general register of the agent that moves, by its field. -/
def State.myReg (t : State) (f : BitVec 6) : Word := t.reg t.cur f.toNat

/-- A number of 64 bits, modulo 2^64 (w64 of R156). -/
def wNat (x : Nat) : Word := BitVec.ofNat 64 x

/-- A head of an agent in free mode that begins and ends inside its chunk, with nothing else to land or to commit: no
result in flight, no single-access chunking, and a chunk that has room (R121, R124, R139). -/
def calm (s : State) (i : Instr) : Bool :=
  alone s && !s.me.timed && s.me.flight.isEmpty && !s.me.single && !endsChunk i &&
  (match s.me.chunk with
   | none => true
   | some c => decide (c.heads < 512))

/-- Everything but the agent `q` is in `t` as in `s`; `issued` is the model's own. -/
def OthersKept (s t : State) (q : Nat) : Prop :=
  (∀ p, p ≠ q → t.proc p = s.proc p) ∧ t = { s with procs := t.procs, issued := t.issued }

/-- Every byte reads for the agent `q` in `t` as in `s`, and every performed byte is as it was. -/
def MemoryKept (s t : State) (q : Nat) : Prop :=
  (∀ a, viewByte t q a = viewByte s q a) ∧ ∀ a, t.byteAt a = s.byteAt a

/-- The registers of an agent that only a system instruction, a trap or a jetty read writes. -/
def SystemKept (p p' : Proc) : Prop :=
  p'.cause = p.cause ∧ p'.epc = p.epc ∧ p'.tval = p.tval ∧ p'.tvec = p.tvec ∧ p'.tscr = p.tscr ∧ p'.jhi = p.jhi ∧
  p'.intrap = p.intrap ∧ p'.ptim = p.ptim ∧ p'.aen = p.aen ∧ p'.gmem = p.gmem ∧ p'.timed = p.timed ∧ p'.pend = p.pend

/-- The vector and predicate registers, fcsr, the stochastic registers, vres and the bit-buffer are as they were. -/
def VectorKept (r r' : Regs) : Prop :=
  r'.v = r.v ∧ r'.k = r.k ∧ r'.fcsr = r.fcsr ∧ r'.srseed = r.srseed ∧ r'.srctr = r.srctr ∧ r'.vres = r.vres ∧ r'.bb = r.bb

/-! ### Scalar results (R157 to R163) -/

/-- An instruction that computes one result: latency (R142), destination, the two sources, and the result from the PC, the
destination's old value and the sources' values. -/
structure Alu where
  lat : Nat
  a : BitVec 6
  b : BitVec 6
  c : BitVec 6
  val : Word → Word → Word → Word → Word

/-- No field of the instruction names a port. -/
def Alu.plain (f : Alu) : Bool := decide (f.a.toNat < 48) && decide (f.b.toNat < 48) && decide (f.c.toNat < 48)

/-- The conditions of R46, on numbers. -/
def condition (cc : Nat) (x y : Word) : Bool :=
  match cc with
  | 0 => decide (x.toNat = y.toNat)
  | 1 => decide (x.toNat ≠ y.toNat)
  | 2 => decide (x.toInt < y.toInt)
  | 3 => decide (y.toInt ≤ x.toInt)
  | 4 => decide (x.toNat < y.toNat)
  | 5 => decide (y.toNat ≤ x.toNat)
  | 6 => decide (y.toInt < x.toInt)
  | 7 => decide (x.toInt ≤ y.toInt)
  | 8 => decide (y.toNat < x.toNat)
  | _ => decide (x.toNat ≤ y.toNat)

/-- The results of R157 to R163. -/
def aluOf : Instr → Option Alu
  | .liI16 a imm => some ⟨1, a, 0, 0, fun _ _ _ _ => imm.signExtend 64⟩
  | .liI32 a imm => some ⟨1, a, 0, 0, fun _ _ _ _ => imm.signExtend 64⟩
  | .liI48 a imm => some ⟨1, a, 0, 0, fun _ _ _ _ => imm.signExtend 64⟩
  | .liHi a imm => some ⟨1, a, 0, 0, fun _ _ _ _ => wNat ((imm.signExtend 64).toNat * 2 ^ 16)⟩
  | .leaBase a b imm => some ⟨1, a, b, 0, fun _ _ x _ => wNat (x.toNat + (imm.signExtend 64).toNat)⟩
  | .leaPc a imm => some ⟨1, a, 0, 0, fun pc _ _ _ => wNat (pc.toNat + (imm.signExtend 64).toNat)⟩
  | .leaIndex a b c sh imm => some ⟨1, a, b, c, fun _ _ x y =>
      wNat (x.toNat + y.toNat * 2 ^ sh.toNat + (imm.signExtend 64).toNat)⟩
  | .leaPcIndex a c sh imm => some ⟨1, a, 0, c, fun pc _ _ y =>
      wNat (pc.toNat + y.toNat * 2 ^ sh.toNat + (imm.signExtend 64).toNat)⟩
  | .addRr a b c => some ⟨1, a, b, c, fun _ _ x y => wNat (x.toNat + y.toNat)⟩
  | .subRr a b c => some ⟨1, a, b, c, fun _ _ x y => w64 ((x.toNat : Int) - y.toNat)⟩
  | .andRr a b c => some ⟨1, a, b, c, fun _ _ x y => wNat (x.toNat &&& y.toNat)⟩
  | .orRr a b c => some ⟨1, a, b, c, fun _ _ x y => wNat (x.toNat ||| y.toNat)⟩
  | .xorRr a b c => some ⟨1, a, b, c, fun _ _ x y => wNat (x.toNat ^^^ y.toNat)⟩
  | .shlRr a b c => some ⟨1, a, b, c, fun _ _ x y => wNat (x.toNat * 2 ^ (y.toNat % 64))⟩
  | .shrRr a b c => some ⟨1, a, b, c, fun _ _ x y => wNat (x.toNat / 2 ^ (y.toNat % 64))⟩
  | .sraRr a b c => some ⟨1, a, b, c, fun _ _ x y => w64 (x.toInt / (2 ^ (y.toNat % 64) : Nat))⟩
  | .minRr a b c => some ⟨1, a, b, c, fun _ _ x y => w64 (min x.toInt y.toInt)⟩
  | .maxRr a b c => some ⟨1, a, b, c, fun _ _ x y => w64 (max x.toInt y.toInt)⟩
  | .minuRr a b c => some ⟨1, a, b, c, fun _ _ x y => wNat (min x.toNat y.toNat)⟩
  | .maxuRr a b c => some ⟨1, a, b, c, fun _ _ x y => wNat (max x.toNat y.toNat)⟩
  | .addRi16 a b imm => some ⟨1, a, b, 0, fun _ _ x _ => wNat (x.toNat + (imm.signExtend 64).toNat)⟩
  | .andRi16 a b imm => some ⟨1, a, b, 0, fun _ _ x _ => wNat (x.toNat &&& (imm.signExtend 64).toNat)⟩
  | .orRi16 a b imm => some ⟨1, a, b, 0, fun _ _ x _ => wNat (x.toNat ||| imm.toNat)⟩
  | .xorRi16 a b imm => some ⟨1, a, b, 0, fun _ _ x _ => wNat (x.toNat ^^^ imm.toNat)⟩
  | .shlRi16 a b imm => some ⟨1, a, b, 0, fun _ _ x _ => wNat (x.toNat * 2 ^ imm.toNat)⟩
  | .shrRi16 a b imm => some ⟨1, a, b, 0, fun _ _ x _ => wNat (x.toNat / 2 ^ imm.toNat)⟩
  | .sraRi16 a b imm => some ⟨1, a, b, 0, fun _ _ x _ => w64 (x.toInt / (2 ^ imm.toNat : Nat))⟩
  | .addRri32 a b imm => some ⟨1, a, b, 0, fun _ _ x _ => wNat (x.toNat + (imm.signExtend 64).toNat)⟩
  | .andRri32 a b imm => some ⟨1, a, b, 0, fun _ _ x _ => wNat (x.toNat &&& (imm.signExtend 64).toNat)⟩
  | .orRri32 a b imm => some ⟨1, a, b, 0, fun _ _ x _ => wNat (x.toNat ||| imm.toNat)⟩
  | .xorRri32 a b imm => some ⟨1, a, b, 0, fun _ _ x _ => wNat (x.toNat ^^^ imm.toNat)⟩
  | .cmpRr a b c cc => some ⟨1, a, b, c, fun _ _ x y => if condition cc.toNat x y then 1 else 0⟩
  | .cmpRi16 a b cc imm => some ⟨1, a, b, 0, fun _ _ x _ =>
      if condition cc.toNat x (imm.signExtend 64) then 1 else 0⟩
  | .bfx a b sx p w1 => some ⟨1, a, b, 0, fun _ _ x _ =>
      let f := x.toNat / 2 ^ p.toNat % 2 ^ (w1.toNat + 1)
      if sx ∧ 2 ^ w1.toNat ≤ f then w64 ((f : Int) - (2 ^ (w1.toNat + 1) : Nat)) else wNat f⟩
  | .bfi a b p w1 => some ⟨1, a, b, 0, fun _ old x _ =>
      let mask := wNat ((2 ^ (w1.toNat + 1) - 1) * 2 ^ p.toNat)
      (old &&& ~~~mask) ||| wNat (x.toNat % 2 ^ (w1.toNat + 1) * 2 ^ p.toNat)⟩
  | .clz a b => some ⟨1, a, b, 0, fun _ _ x _ =>
      wNat ((List.range 64).takeWhile fun i => !x.getLsbD (63 - i)).length⟩
  | .popc a b => some ⟨1, a, b, 0, fun _ _ x _ => wNat ((List.range 64).filter fun i => x.getLsbD i).length⟩
  | .mul a b c => some ⟨3, a, b, c, fun _ _ x y => wNat (x.toNat * y.toNat)⟩
  | .mulh a b c => some ⟨3, a, b, c, fun _ _ x y => w64 (x.toInt * y.toInt / (2 ^ 64 : Nat))⟩
  | .mulhu a b c => some ⟨3, a, b, c, fun _ _ x y => wNat (x.toNat * y.toNat / 2 ^ 64)⟩
  | .div a b c => some ⟨36, a, b, c, fun _ _ x y =>
      if y.toNat = 0 then wNat (2 ^ 64 - 1) else w64 (x.toInt.tdiv y.toInt)⟩
  | .divu a b c => some ⟨36, a, b, c, fun _ _ x y =>
      if y.toNat = 0 then wNat (2 ^ 64 - 1) else wNat (x.toNat / y.toNat)⟩
  | .rem a b c => some ⟨36, a, b, c, fun _ _ x y =>
      if y.toNat = 0 then x else w64 (x.toInt - y.toInt * x.toInt.tdiv y.toInt)⟩
  | .remu a b c => some ⟨36, a, b, c, fun _ _ x y =>
      if y.toNat = 0 then x else wNat (x.toNat - y.toNat * (x.toNat / y.toNat))⟩
  | _ => none

/-! ### Instructions one by one -/

/-- The head `i` of an agent in no gang completes wherever it may run and `H` holds of the state `u` its effect begins in:
its effect is `E u`, and control leaves it as `nx u` says. -/
def Does (i : Instr) (H : State → Prop) (E : State → State) (nx : State → Next := fun _ => {}) : Prop :=
  ∀ s, ready s i = true → alone s = true → H (beginHead s i) → chunkLines (E (beginHead s i)) s.cur ≤ 64 →
    Completes i s (E (beginHead s i)) (nx (beginHead s i))

/-- The same of a head that a gang, or an agent in none, executes once (R194). -/
def DoesOnce (i : Instr) (H : State → Prop) (E : State → State) (nx : State → Next := fun _ => {}) : Prop :=
  ∀ s, ready s i = true → H (beginHead s i) → chunkLines (E (beginHead s i)) s.cur ≤ 64 →
    Completes i s (E (beginHead s i)) (nx (beginHead s i))

/-- A head of an agent in no gang completes with a result `x` in the destination `a` after `lat` cycles (R142), behind the
effect `E`: a general register takes it, g0 discards it, a port takes it as an item (R48, R49, R156). -/
def DoesTo (i : Instr) (a : BitVec 6) (lat : Nat) (H : State → Prop) (E : State → State) (x : State → Word)
    (nx : State → Next := fun _ => {}) : Prop :=
  ∀ w, Does i (fun u => H u ∧ dst lat a (x u) (E u) = .ok () w) (fun _ => w) nx

/-- The same of a head that a gang executes once: every member's destination takes the result (R194); `fin` follows it. -/
def DoesOnceTo (i : Instr) (a : BitVec 6) (lat : Nat) (H : State → Prop) (E : State → State) (x : State → Word)
    (fin : State → State := id) (nx : State → Next := fun _ => {}) : Prop :=
  ∀ w, DoesOnce i (fun u => H u ∧ dstAll lat a (x u) (E u) = .ok () w) (fun _ => fin w) nx

/-- Two sources read in turn, and the state behind the second: a port is popped (R50, R156). -/
def pops (u : State) (a b : BitVec 6) (x y : Word) (w : State) : Prop := ∃ v, src a u = .ok x v ∧ src b v = .ok y w

/-- A head that traps at its own PC with a cause and a value, wherever it may run and `H` holds (R150). -/
def Traps (i : Instr) (H : State → Prop) (code : Nat) (val : State → Word) : Prop :=
  ∀ s, ready s i = true → alone s = true → H (beginHead s i) →
    Sys2Proof.Machine.exec i s =
      .next (trapHead (beginHead s i) [(s.cur, code, val (beginHead s i))] (beginHead s i).me.r.pc)

/-- The field names a general register. -/
def isReg (f : BitVec 6) : Prop := f.toNat < 48

/-- The agent's own core and cluster. -/
def State.myCore (u : State) : Core := u.core (coreOf u.cur)
def State.myCluster (u : State) : Cluster := u.cluster (clusterOf u.cur)

/-- An address: a register and a signed displacement. -/
def State.ea (u : State) (b : BitVec 6) {n : Nat} (imm : BitVec n) : Word := w64 ((u.myReg b).toNat + imm.toInt)
/-- An address: a register, a scaled index and a signed displacement. -/
def State.eaIx (u : State) (b c : BitVec 6) (sh : BitVec 2) (imm : BitVec 32) : Word :=
  w64 ((u.myReg b).toNat + (u.myReg c).toNat * 2 ^ sh.toNat + imm.toInt)

/-- The little-endian value of `n` bytes as the agent `q` sees them. -/
def seenNat (u : State) (q a n : Nat) : Nat := leNat ((List.range n).map fun j => viewByte u q (a + j))

/-- A loaded value of `n` bytes, extended by its sign or with zeros (R164). -/
def loaded (v n : Nat) (sx : Bool) : Word :=
  if sx then w64 (if 2 ^ (8 * n - 1) ≤ v % 2 ^ (8 * n) then (v % 2 ^ (8 * n) : Nat) - (2 ^ (8 * n) : Nat) else (v % 2 ^ (8 * n) : Nat))
  else wNat v

/-- What a load of `n` bytes at `ea` answers: the value, the cycles until the result, and the state after it; none where the
access faults or has to wait. -/
def loadAt (u : State) (ea : Word) (n : Nat) : Option (Nat × Nat × State) :=
  match check ea n n .load u with
  | .error _ _ => none
  | .ok l u1 =>
    match readLoc ea l n u1.cur u1 with
    | .error _ _ => none
    | .ok v u2 =>
      match bankAccess [(l, n, u1.cur)] u2 with
      | .error _ _ => none
      | .ok w u3 => some (v, loadLatency l + w, u3)

/-- The state after a store of the `n` low bytes of `v` at `ea`; none where the access faults or has to wait. -/
def storeAt (u : State) (ea : Word) (n v : Nat) : Option State :=
  match store ea n (v % 2 ^ (8 * n)) u with
  | .error _ _ => none
  | .ok _ t => some t

/-- What an ordering instruction that releases at a scope does before anything else: at system scope every write-combining store
has been sent (R115, R129). -/
def State.released (u : State) (sc : BitVec 3) : State := if sc = 5 then sendCombined u else u

/-- An ordering instruction at a scope may go on: in a timed phase only at core scope (R140); one that releases at domain or
system scope has no remote store outstanding (R129, R425). -/
def ordered (u : State) (sc : BitVec 3) (release : Bool) : Bool :=
  (!u.me.timed || sc == 0) && (!release || decide (sc.toNat < 4) || u.me.remoteOut.isEmpty)

/-- An atomic of R167: its fields, its size in bytes, its scope and the new value from the old one, the operand and the new
value of ACAS. -/
structure Atomic where
  a : BitVec 6
  b : BitVec 6
  c : BitVec 6
  d : BitVec 6
  dw : Bool
  sc : BitVec 3
  new : Nat → Nat → Nat → Nat

/-- The size of an atomic in bytes. -/
def Atomic.size (f : Atomic) : Nat := if f.dw then 8 else 4

/-- A number of `n` bytes as a signed one. -/
def signedOf (n x : Nat) : Int := if 2 ^ (8 * n - 1) ≤ x then (x : Int) - (2 ^ (8 * n) : Nat) else x

/-- The new values of R167. -/
def atomicOf : Instr → Option Atomic
  | .aadd a b c dw sc => some ⟨a, b, c, 0, dw, sc, fun o y _ => (o + y) % 2 ^ (if dw then 64 else 32)⟩
  | .amin a b c dw u sc => some ⟨a, b, c, 0, dw, sc, fun o y _ =>
      if u then min o y else if signedOf (if dw then 8 else 4) y < signedOf (if dw then 8 else 4) o then y else o⟩
  | .amax a b c dw u sc => some ⟨a, b, c, 0, dw, sc, fun o y _ =>
      if u then max o y else if signedOf (if dw then 8 else 4) o < signedOf (if dw then 8 else 4) y then y else o⟩
  | .aand a b c dw sc => some ⟨a, b, c, 0, dw, sc, fun o y _ => o &&& y⟩
  | .aor a b c dw sc => some ⟨a, b, c, 0, dw, sc, fun o y _ => o ||| y⟩
  | .axor a b c dw sc => some ⟨a, b, c, 0, dw, sc, fun o y _ => o ^^^ y⟩
  | .aswap a b c dw sc => some ⟨a, b, c, 0, dw, sc, fun _ y _ => y⟩
  | .acas a b c d dw sc => some ⟨a, b, c, d, dw, sc, fun o y n => if o = y then n else o⟩
  | _ => none

/-- The state `w` after an atomic at physical address `pa` of this package: the new value, from the operand `y` and the new
value `z` of ACAS, is stored for the requester in one place of the total order (R126) and logged at the slice (R454). -/
def Atomic.after (f : Atomic) (y z : Word) (w : State) (pa : Nat) : State :=
  let q := leader w w.cur
  let n := f.size
  logAtomic (performAt w pa
    (leBytes n (f.new (w.natAt pa n) (y.toNat % 2 ^ (8 * n)) (z.toNat % 2 ^ (8 * n)))))
    (ownerSlice pa) q 0

/-! ### System registers (R73, R92, R134, R182, R191, R222, R253, R442) -/

/-- A control context in free mode: the only agent that may write certain registers (R135, R253, R441). -/
def freeControl (u : State) : Bool := !isHart u.cur && slotOf u.cur == 0 && !u.me.timed

/-- Whether SRW takes the value `v` for register `n`: the reserved values and the agents that may write it. tpin is told
apart. -/
def srwLegal (u : State) (n : Nat) (v : Word) : Bool :=
  if n = 0x0000 then decide (v.toNat % 8 < 6)
  else if n = 0x0008 then decide (v.toNat % 256 ≤ 128)
  else if n = 0x0011 then false
  else if n = 0x0182 then !v.getLsbD 0
  else if n = 0x0190 then freeControl u && decide (8512 ≤ v.toNat % 2 ^ 24)
  else if 0x0018 ≤ n ∧ n < 0x0020 ∨ 0x0300 ≤ n ∧ n < 0x0400 then freeControl u
  else if 0x0148 ≤ n ∧ n < 0x0180 then
    if n % 8 = 0 then decide (v.toNat % 8 ≠ 6) && decide (v.toNat / 8 % 4 ≠ 3)
    else if n = 0x016A ∨ n = 0x0172 then !v.getLsbD 0
    else true
  else true

/-- A register field of a context changed. -/
def State.setR (u : State) (f : Regs → Regs) : State := u.modProc u.cur fun p => { p with r := f p.r }

/-- The state after SRW of `v` to register `n`, of those that a context holds or shares with its core and cluster. -/
def srwEffect (u : State) (n : Nat) (v : Word) : State :=
  let g := coreOf u.cur
  let gc := clusterOf u.cur
  let bb := fun (f : BitBuf → BitBuf) => u.setR fun r => { r with bb := f r.bb }
  if n = 0x0000 then u.setR fun r => { r with fcsr := v &&& 0xFFF }
  else if n = 0x0001 then u.setR fun r => { r with srseed := v }
  else if n = 0x0005 then u.modProc u.cur fun p => { p with cause := v &&& 0x1FF }
  else if n = 0x0006 then u.modProc u.cur fun p => { p with epc := v }
  else if n = 0x0007 then u.modProc u.cur fun p => { p with tval := v }
  else if n = 0x0008 then bb fun b => (b.withStat v (b.und && !v.getLsbD 9)).clip
  else if n = 0x000C then u.modProc u.cur fun p => { p with tvec := v }
  else if n = 0x000D then (if freeControl u then u.modProc u.cur fun p => { p with aen := v.getLsbD 2 } else u)
  else if n = 0x000E then u.modProc u.cur fun p => { p with tscr := v }
  else if n = 0x0101 then u.setR fun r => { r with vres := v &&& 0xFFFF }
  else if n = 0x0102 then u.modCore g fun c => { c with hbind := v &&& 0xFFFFFFFF, bins := [], hsat := false }
  else if n = 0x0103 then u.modCore g fun c => { c with hen := v.getLsbD 0, hsat := c.hsat && !v.getLsbD 1 }
  else if n = 0x0180 then bb fun b => { b with buf := b.hi ++ v }.clip
  else if n = 0x0181 then bb fun b => { b with buf := v ++ b.lo }.clip
  else if n = 0x0182 then bb fun b => b.withTab v
  else if n = 0x0190 then u.modCluster gc fun c => { c with xwd := v.toNat % 2 ^ 24 }
  else if 0x0018 ≤ n ∧ n < 0x0020 then
    u.modCore g fun c => { c with qxmap := c.qxmap.setIfInBounds (n - 0x0018) (v &&& 0x3FFFFFFFF) }
  else if 0x0110 ≤ n ∧ n < 0x0130 then
    u.modCore g fun c => { c with
      bins := (c.bins.put (2 * (n - 0x0110)) (v.toNat % 2 ^ 32)).put (2 * (n - 0x0110) + 1) (v.toNat / 2 ^ 32) }
  else if 0x0148 ≤ n ∧ n < 0x0180 then
    let keep : Word := match n % 8 with
      | 0 => 0x7F
      | 1 => 0xFFFFFFFFF
      | 4 => 0xFFFFFFFF
      | _ => 0x3FFFF
    u.modCore g fun c => { c with win := c.win.put (n - 0x0140) (v &&& keep) }
  else if n = 0x0300 then u.modCluster gc fun c => { c with tdctl := v &&& 0xFFF }
  else if n = 0x0306 then u.modCluster gc fun c => { c with tbpc := v &&& 0x7777 }
  else if 0x0302 ≤ n ∧ n < 0x0306 then u.modCluster gc fun c => { c with tbp := c.tbp.setIfInBounds (n - 0x0302) v }
  else u

/-- Registers of a hart's own that SRW writes (R53): bcur, which gives the hart the identity of the request in the slot (R27,
R283), and pkick (R439); a write of another is ignored. -/
def hartWrite (u : State) (n : Nat) (v : Word) : State :=
  let h := hartIx u.cur
  if h < 640 ∧ n = 0x0200 then
    let w := u.modEngine h fun e => { e with sel := v.toNat % 16 }
    match mySlot w with
    | some r => w.modProc w.cur fun p => { p with vf := r.vf }
    | none => w
  else if 13457 ≤ h ∧ n = 0x0200 then u.modPilot (h - 13457) fun x => { x with kicked := u.tide }
  else u

/-! ### The bit-buffer (R252 to R260) -/

/-- No result is in flight after which the bit-buffer may not be used (R260). -/
def bufferFree (u : State) : Bool := !bufferBusy u

/-- The count `n` of BB.GET, BB.PEEK and BB.SKIP, an operand taken modulo `m`, and the state behind its read (R255, R256). -/
def bitsAsked (u : State) (b : BitVec 6) (r : Bool) (imm : BitVec 16) (m n : Nat) (v : State) : Prop :=
  if r then ∃ x, src b u = .ok x v ∧ n = x.toNat % m else n = imm.toNat ∧ v = u

/-- The value that BB.GET and BB.PEEK give: the low n valid bits, fewer where fewer are valid (R255). -/
def bitsGot (u : State) (n : Nat) (sx : Bool) : Word :=
  let v := u.me.r.bb.buf.toNat % 2 ^ min n u.me.r.bb.cnt
  if sx ∧ 2 ^ (n - 1) ≤ v then w64 ((v : Int) - (2 ^ n : Nat)) else wNat v

/-- The bit-buffer without its `n` low bits, which notes an under-run where it has fewer (R255). -/
def bitsTaken (b : BitBuf) (n : Nat) : BitBuf :=
  { b with buf := BitVec.ofNat 128 (b.buf.toNat / 2 ^ min n b.cnt), cnt := b.cnt - n, und := b.und || decide (b.cnt < n) }

/-- The bytes BB.FILL takes: what has room in the buffer and lies below the limit (R257). -/
def fillBytes (b : BitBuf) : Nat := min ((128 - b.cnt) / 8) (b.lim.toNat - b.ptr.toNat)

/-- Stores of doublewords one after another from `ea`. -/
def storesAt (u : State) (ea : Word) : List Word → Option State
  | [] => some u
  | x :: xs =>
    match storeAt u ea 8 x.toNat with
    | none => none
    | some v => storesAt v (ea + 8) xs

/-! ### Vector results (R186 to R223) -/

/-- The bits of `x` under `mask` as they land in vector register `n`, each member of the gang its own slice (R192). -/
def State.landV (u : State) (lat n mask x : Nat) : State :=
  { ((members u u.cur).zip (upTo 16)).foldl (fun t e => ({ t with cur := e.1 } : State).land lat
      (.v n (BitVec.ofNat 512 (mask / 2 ^ (512 * e.2))) (BitVec.ofNat 512 (x / 2 ^ (512 * e.2))))) u with cur := u.cur }

/-- The same of a predicate register. -/
def State.landK (u : State) (lat n mask x : Nat) : State :=
  { ((members u u.cur).zip (upTo 16)).foldl (fun t e => ({ t with cur := e.1 } : State).land lat
      (.k n (BitVec.ofNat 64 (mask / 2 ^ (64 * e.2))) (BitVec.ofNat 64 (x / 2 ^ (64 * e.2))))) u with cur := u.cur }

/-- Flags join fcsr of the leader (R74). -/
def State.landFlags (u : State) (lat fl : Nat) : State := if fl = 0 then u else u.land lat (.flags (wNat fl))

/-- A scalar result of a vector instruction lands on every member (R194). -/
def State.landAll (u : State) (lat : Nat) (a : BitVec 6) (x : Word) : State := forMembers u u fun t => t.landG lat a x

/-- A completed vector instruction leaves vres zero (R224), and what it has in flight for a general register is known as its
own (R225). -/
def State.vresZero (u : State) : State :=
  (members u u.cur).foldl (fun t m => t.modProc m fun p =>
    { p with
      r := { p.r with vres := 0 }
      flight := p.flight.map fun e => match e.w with
        | .g n x => if e.issued = u.tide.toNat then { e with w := .vg n x } else e
        | _ => e }) u

/-- sr_ctr moves on after an instruction that drew stochastic bits (R80). -/
def State.drew (u : State) (d : Bool) : State := if d then u.setR fun r => { r with srctr := r.srctr + 1 } else u

/-- An instruction that writes a vector element by element: latency (R197), destination, predicate, z, the width of an
element, the bits and flags of element i, and whether an active element draws stochastic bits. -/
structure VecOp where
  lat : State → Nat
  a : BitVec 6
  kp : BitVec 3
  z : Bool
  w : Nat
  res : State → Nat → Nat × Nat
  draws : State → Bool

/-- Whether each element of width `w` is active under kp (R189). -/
def activity (u : State) (kp : BitVec 3) (w : Nat) : List Bool :=
  (List.range (512 * (members u u.cur).length / w)).map fun i => (readPred u kp.toNat).testBit (i * w / 8)

/-- The results of the active elements, zeros for the others. -/
def activeResults {α : Type} (acts : List Bool) (d : α) (f : Nat → α) : List α :=
  ((List.range acts.length).zip acts).map fun e => if e.2 then f e.1 else d

/-- The state after a VecOp (R189, R190): active elements take their results, with z the others take zeros. -/
def VecOp.after (f : VecOp) (u : State) : State :=
  let acts := activity u f.kp f.w
  let rs := activeResults acts (0, 0) (f.res u)
  let mask := joinElems f.w (acts.map fun a => if a || f.z then 2 ^ f.w - 1 else 0)
  let t := (u.landV (f.lat u) f.a.toNat mask (joinElems f.w (rs.map (·.1)))).landFlags (f.lat u) (rs.foldl (fun m e => m ||| e.2) 0)
  (t.drew (acts.any id && f.draws u)).vresZero

/-- A rounded floating-point operation on up to three operands (R190, R199). -/
def fpOp (lat : Nat) (a b c d : BitVec 6) (kp : BitVec 3) (z : Bool) (rm : BitVec 3) (t : BitVec 4)
    (op : Mode → Ext → Ext → Ext → Ext × Nat) : VecOp :=
  let f := fmtOf t.toNat
  ⟨fun _ => lat, a, kp, z, f.width, fun u i =>
    let ctl := captureCtl u.me.r (coreOf u.cur) rm.toNat
    let x := fun r => operand ctl f (vecEl u r f.width i)
    let y := op ctl.mode (x b) (x c) (x d)
    let r := ctl.round f i 0 y.1
    (r.1, y.2 ||| r.2),
   fun u => (captureCtl u.me.r (coreOf u.cur) rm.toNat).mode == .sr⟩

/-- A minimum or maximum of two operands, written as it is (R84, R199). -/
def minmaxOp (isMax : Bool) (a b c : BitVec 6) (kp : BitVec 3) (z : Bool) (t : BitVec 4) : VecOp :=
  let f := fmtOf t.toNat
  ⟨fun _ => 4, a, kp, z, f.width, fun u i =>
    let x := fun r => operand (captureCtl u.me.r (coreOf u.cur) 0) f (vecEl u r f.width i)
    (exactBits f (minmaxExt isMax (x b) (x c)), 0), fun _ => false⟩

/-- An integer operation on elements of type `t` (R204). -/
def intOp (lat : Nat) (a b c : BitVec 6) (kp : BitVec 3) (z : Bool) (t : BitVec 4) (op : Nat → Nat → Nat → Nat) : VecOp :=
  let w := typeWidth t.toNat
  ⟨fun _ => lat, a, kp, z, w, fun u i => (op w (vecEl u b w i) (vecEl u c w i), 0), fun _ => false⟩

/-- A number of `w` bits as a signed one. -/
def signedAt (w x : Nat) : Int := if 2 ^ (w - 1) ≤ x then (x : Int) - (2 ^ w : Nat) else x

/-- Whether x < y, unsigned or signed. -/
def lessAt (u : Bool) (w x y : Nat) : Bool := if u then decide (x < y) else decide (signedAt w x < signedAt w y)

/-- The four multiply-adds (R199). -/
def fmaOp (var : BitVec 2) (m : Mode) (x y w : Ext) : Ext × Nat :=
  let x' := if 2 ≤ var.toNat then x.negate else x
  let w' := if var.toNat % 2 = 1 then w.negate else w
  addExt m (mulExt x' y).1 w' |> fun r => (r.1, (mulExt x' y).2 ||| r.2)

/-- The instructions of R199 to R204, R217 and R218 that write a vector element by element, but VBCAST. -/
def vecOf : Instr → Option VecOp
  | .vadd a b c kp z rm t => some (fpOp 4 a b c 0 kp z rm t fun m x y _ => addExt m x y)
  | .vsub a b c kp z rm t => some (fpOp 4 a b c 0 kp z rm t fun m x y _ => addExt m x y.negate)
  | .vmul a b c kp z rm t => some (fpOp 4 a b c 0 kp z rm t fun _ x y _ => mulExt x y)
  | .vmin a b c kp z _ t => some (minmaxOp false a b c kp z t)
  | .vmax a b c kp z _ t => some (minmaxOp true a b c kp z t)
  | .vrcpe a b kp z rm t => some (fpOp 6 a b 0 0 kp z rm t fun _ x _ _ => rcpEst x)
  | .vrsqe a b kp z rm t => some (fpOp 6 a b 0 0 kp z rm t fun _ x _ _ => rsqEst x)
  | .vexp2 a b kp z rm t => some (fpOp 8 a b 0 0 kp z rm t fun _ x _ _ => exp2Apx x)
  | .vlog2 a b kp z rm t => some (fpOp 8 a b 0 0 kp z rm t fun _ x _ _ => log2Apx x)
  | .vfma a b c d kp z rm t var false _ => some (fpOp 4 a b c d kp z rm t (fmaOp var))
  | .vfma a b c d kp z rm t var true h => some ⟨fun _ => 4, a, kp, z, 32, fun u i =>
      let ctl := captureCtl u.me.r (coreOf u.cur) rm.toNat
      let f := fmtOf t.toNat
      let j := if h then i + 16 * (members u u.cur).length else i
      let y := fmaOp var ctl.mode (operand ctl f (vecEl u b 16 j)) (operand ctl f (vecEl u c 16 j)) (operand ctl FP32 (vecEl u d 32 i))
      let r := ctl.round FP32 i 0 y.1
      (r.1, y.2 ||| r.2),
      fun u => (captureCtl u.me.r (coreOf u.cur) rm.toNat).mode == .sr⟩
  | .vrefn a b c kp z rm t var => some (fpOp 4 a b c 0 kp z rm t fun m x y _ => refine (var == 1) m x y)
  | .viadd a b c kp z t => some (intOp 2 a b c kp z t fun w x y => (x + y) % 2 ^ w)
  | .visub a b c kp z t => some (intOp 2 a b c kp z t fun w x y => (((x : Int) - y) % (2 ^ w : Nat)).toNat)
  | .vimul a b c kp z t part => some (intOp 4 a b c kp z t fun w x y =>
      if part = 0 then x * y % 2 ^ w
      else if part = 1 then (signedAt w x * signedAt w y / (2 ^ w : Nat) % (2 ^ w : Nat)).toNat
      else x * y / 2 ^ w)
  | .vimin a b c kp z t u => some (intOp 2 a b c kp z t fun w x y => if lessAt (u || t == 6) w y x then y else x)
  | .vimax a b c kp z t u => some (intOp 2 a b c kp z t fun w x y => if lessAt (u || t == 6) w x y then y else x)
  | .vishl a b c kp z t => some (intOp 2 a b c kp z t fun w x y => x * 2 ^ (y % w) % 2 ^ w)
  | .vishr a b c kp z t u => some (intOp 2 a b c kp z t fun w x y =>
      if u then (signedAt w x / (2 ^ (y % w) : Nat) % (2 ^ w : Nat)).toNat else x / 2 ^ (y % w))
  | .vand a b c kp z t => some (intOp 2 a b c kp z t fun _ x y => x &&& y)
  | .vor a b c kp z t => some (intOp 2 a b c kp z t fun _ x y => x ||| y)
  | .vxor a b c kp z t => some (intOp 2 a b c kp z t fun _ x y => x ^^^ y)
  | .vperm a b c d kp z t two => some ⟨fun u => 3 + gangTerm u, a, kp, z, typeWidth t.toNat, fun u i =>
      let w := typeWidth t.toNat
      let n := 512 * (members u u.cur).length / w
      let x := vecEl u c w i
      (if x < n then vecEl u b w x else if two ∧ x < 2 * n then vecEl u d w (x - n) else 0, 0), fun _ => false⟩
  | .vsel a b c kp t => some ⟨fun _ => 2, a, 0, false, typeWidth t.toNat, fun u i =>
      let w := typeWidth t.toNat
      (if (readPred u kp.toNat).testBit (i * w / 8) then vecEl u b w i else vecEl u c w i, 0), fun _ => false⟩
  | _ => none

/-- A comparison of two integer elements of width `w` by a condition code (R46, R205). -/
def compareAt (cc w x y : Nat) : Bool :=
  match cc with
  | 0 => decide (x = y)
  | 1 => decide (x ≠ y)
  | 2 => decide (signedAt w x < signedAt w y)
  | 3 => decide (signedAt w y ≤ signedAt w x)
  | 4 => decide (x < y)
  | 5 => decide (y ≤ x)
  | 6 => decide (signedAt w y < signedAt w x)
  | 7 => decide (signedAt w x ≤ signedAt w y)
  | 8 => decide (y < x)
  | _ => decide (x ≤ y)

/-- An instruction that writes a predicate element by element: destination, predicate, z, the width of an element, and the
outcome and flags of element i. -/
structure PredOp where
  a : BitVec 6
  kp : BitVec 3
  z : Bool
  w : Nat
  res : State → Nat → Bool × Nat

/-- The state after a PredOp (R189, R205): every predicate bit of an active element takes its outcome. -/
def PredOp.after (f : PredOp) (u : State) : State :=
  let acts := activity u f.kp f.w
  let rs := activeResults acts (false, 0) (f.res u)
  let n := f.w / 8
  let mask := joinElems n (acts.map fun a => if a || f.z then 2 ^ n - 1 else 0)
  ((u.landK 2 f.a.toNat mask (joinElems n (rs.map fun e => if e.1 then 2 ^ n - 1 else 0))).landFlags 2
    (rs.foldl (fun m e => m ||| e.2) 0)).vresZero

/-- KWHILE of the operands `x` and `y` (R206): element i is true where x + i < y. -/
def whileOp (a : BitVec 6) (w : BitVec 2) (un : Bool) (x y : Word) : PredOp :=
  let v := fun (z : Word) => if un then (z.toNat : Int) else z.toInt
  ⟨a, 0, false, 8 * 2 ^ w.toNat, fun _ i => (decide (v x + i < v y), 0)⟩

/-- The comparisons of R205. -/
def predOf : Instr → Option PredOp
  | .vcmp a b c kp z _ cc ft => some ⟨a, kp, z, (fmtOf ft.toNat).width, fun u i =>
      let f := fmtOf ft.toNat
      let x := fun r => operand (captureCtl u.me.r (coreOf u.cur) 0) f (vecEl u r f.width i)
      fcond cc.toNat (x b) (x c)⟩
  | .vicmp a b c kp z cc w => some ⟨a, kp, z, 8 * 2 ^ w.toNat, fun u i =>
      (compareAt cc.toNat (8 * 2 ^ w.toNat) (vecEl u b (8 * 2 ^ w.toNat) i) (vecEl u c (8 * 2 ^ w.toNat) i), 0)⟩
  | _ => none

/-- Counts of bins of core `g` by the agent that moves (R222): with its results in flight in a timed phase, held with its open
chunk in free mode. -/
def State.countHist (u : State) (g : Nat) (bins : List Nat) : State :=
  if u.me.timed then u.land 2 (.hist g bins)
  else match u.me.chunk with
    | some _ => u.modProc u.cur fun p => { p with chunk := p.chunk.map fun c => { c with
        hist := c.hist ++ bins.map fun b => (64 * g + b, 1) } }
    | none => bins.foldl (fun t b => addBin t g b 1) u

/-- The indices of a gang of `2 ^ n` cores as GANG writes them, in order, each to the destination its member named: the agent
that moves names `a`, the others what they wait with (R173). -/
def gangIndices (u : State) (n : Nat) (a : BitVec 6) : Option State :=
  let g := coreOf u.cur
  ((gangGroup g n).zip (List.range 16)).foldl (fun o e => o.bind fun t =>
    let f := if e.1 = g then a else ((gangWait u e.1).map (·.2)).getD 0
    match dst 1 f (wNat e.2) { t with cur := ctl e.1 } with
    | .ok _ v => some v
    | .error _ _ => none) (some u)

/-- What a vector store of the elements at `ea` leads to, where every active element from vres on may be written and they are one
part (R125, R210, R222, R224): the chunk before the last part of a split store ends; the elements are stored, their counts and
those of the parts before are added, and sr_ctr follows. -/
def storesVector (u : State) (a : BitVec 6) (kp : BitVec 3) (ty : BitVec 4) (ea : Nat → Word) (w : State) : Prop :=
  let n := typeWidth ty.toNat
  ∃ part u1 u2 wait w1,
    takePart n ea [] [] ((activeElems u kp n).filter fun i => decide (u.me.r.vres.toNat % 2 ^ 16 ≤ i)) u = .ok (part, []) u1 ∧
    writeElems u.cur n (readVec u a.toNat) ea part
      (if u.me.r.vres.toNat % 2 ^ 16 = 0 then u1 else endChunk u1 (leader u1 u1.cur)) = .ok () u2 ∧
    bankAccess (part.map fun e => (e.2, n / 8, memberOf (members u u.cur) n e.1))
      (((u.me.partCounts ++ partBins u n (readVec u a.toNat) part).foldl (fun t e => addBin t e.1 e.2 1) u2).modProc u2.cur fun p =>
        { p with partCounts := [] }) = .ok wait w1 ∧
    w = (w1.drew (storeDraws u n ea (activeElems u kp n))).vresZero

/-- The bits of a gang's predicate register. -/
def predBits (u : State) : Nat := 64 * (members u u.cur).length

/-- The predicate that an instruction of R207 writes whole. -/
def wholePred : Instr → Option (BitVec 6 × (State → Nat))
  | .kand a b c => some (a, fun u => readPred u b.toNat &&& readPred u c.toNat)
  | .kor a b c => some (a, fun u => readPred u b.toNat ||| readPred u c.toNat)
  | .kxor a b c => some (a, fun u => readPred u b.toNat ^^^ readPred u c.toNat)
  | .kandn a b c => some (a, fun u => readPred u b.toNat &&& (2 ^ predBits u - 1 - readPred u c.toNat % 2 ^ predBits u))
  | .kmov a b => some (a, fun u => readPred u b.toNat)
  | .knot a b => some (a, fun u => 2 ^ predBits u - 1 - readPred u b.toNat % 2 ^ predBits u)
  | _ => none

/-- Elements of width `w` that land at given indices: (index, governing element active, bits); with z an inactive one lands
as zero (R189, R212). -/
def State.landAt (u : State) (lat : Nat) (a : BitVec 6) (w : Nat) (z : Bool) (rs : List (Nat × Bool × Nat)) : State :=
  u.landV lat a.toNat
    (rs.foldl (fun m e => if e.2.1 || z then m + (2 ^ w - 1) * 2 ^ (w * e.1) else m) 0)
    (rs.foldl (fun m e => if e.2.1 then m + e.2.2 % 2 ^ w * 2 ^ (w * e.1) else m) 0)

/-- A conversion of R212 to R214: destination, source, predicate, z, widths, part, the bits and flags of an element from its
result index and source bits, and whether it draws stochastic bits. -/
structure ConvOp where
  a : BitVec 6
  b : BitVec 6
  kp : BitVec 3
  z : Bool
  ws : Nat
  wd : Nat
  part : Nat
  res : State → Nat → Nat → Nat × Nat
  draws : State → Bool

/-- The state after a conversion. -/
def ConvOp.after (f : ConvOp) (u : State) : State :=
  let rs := (convPairs u f.kp f.ws f.wd f.part).map fun e =>
    (e.2.1, e.2.2, if e.2.2 then f.res u e.2.1 (vecEl u f.b f.ws e.1) else (0, 0))
  let t := (u.landAt 4 f.a f.wd f.z (rs.map fun e => (e.1, e.2.1, e.2.2.1))).landFlags 4 (rs.foldl (fun m e => m ||| e.2.2.2) 0)
  (t.drew ((rs.any fun e => e.2.1) && f.draws u)).vresZero

/-- The controls a vector instruction captures (R75, R194). -/
def State.controls (u : State) (rm : BitVec 3) : RCtl := captureCtl u.me.r (coreOf u.cur) rm.toNat

/-- VCVT, VPACK and VUNPK (R213 to R215), but VPACK to MXINT8. -/
def convOf : Instr → Option ConvOp
  | .vcvt a b kp z rm ts td p _ => some ⟨a, b, kp, z, typeWidth ts.toNat, typeWidth td.toNat, p.toNat,
      fun u i x => convertElem (u.controls rm) ts.toNat td.toNat i x,
      fun u => (u.controls rm).mode == .sr && (isFloatCode ts.toNat || isFloatCode td.toNat)⟩
  | .vpack a b _ kp z _ ts td p un => if td = 11 then none else
      some ⟨a, b, kp, z, typeWidth ts.toNat, typeWidth td.toNat, p.toNat,
        fun _ _ x => if td = 12 then toE8m0 ((fmtOf ts.toNat).decode x) else toInt4 un (intOf ts.toNat x), fun _ => false⟩
  | .vunpk a b d kp z rm ts td p un => if ts = 11 then
      some ⟨a, b, kp, z, 8, 16, p.toNat,
        fun u i q => (u.controls rm).round BF16 i 0 (mxValue (vecEl u d 8 (i / 32 + p.toNat * (members u u.cur).length)) q),
        fun u => (u.controls rm).mode == .sr⟩
    else
      some ⟨a, b, kp, z, typeWidth ts.toNat, typeWidth td.toNat, p.toNat, fun _ _ x =>
        if ts = 12 then (exactBits (fmtOf td.toNat) (if x = 0xFF then .nan else .fin false 1 ((x : Int) - 127)), 0)
        else (((if un then (x : Int) else sextNat x 4) % (2 ^ typeWidth td.toNat : Nat)).toNat, 0), fun _ => false⟩
  | _ => none

/-- The sum of the products of active INT8 elements (R216). -/
def dotInt (u : State) (b c : BitVec 6) (kp : BitVec 3) (ta tb : BitVec 4) : Int :=
  (activeElems u kp 8).foldl (fun (m : Int) i => m + intOf ta.toNat (vecEl u b 8 i) * intOf tb.toNat (vecEl u c 8 i)) 0

/-- The result and flags of VDOTF8 at element j (R86, R216). -/
def dotFloat (u : State) (a b c : BitVec 6) (kp : BitVec 3) (rm : BitVec 3) (ta tb : BitVec 4) (j : Nat) : Nat × Nat :=
  let ctl := u.controls rm
  let ps := (List.range (64 * (members u u.cur).length)).map fun i =>
    if (readPred u kp.toNat).testBit i then mulExt ((fmtOf ta.toNat).decode (vecEl u b 8 i)) ((fmtOf tb.toNat).decode (vecEl u c 8 i))
    else (.fin true 0 0, 0)
  let l := treeLeaves ctl FP32 0 (ps.map (·.1))
  let t := treeLevels ctl FP32 14 2 l.1 0
  let y := addExt ctl.mode (operand ctl FP32 (vecEl u a 32 j)) (FP32.decode t.1)
  let r := ctl.round FP32 j 31 y.1
  (r.1, (ps.foldl (fun m e => m ||| e.2) 0) ||| l.2 ||| t.2 ||| y.2 ||| r.2)

/-- The latency of a reduction over elements of width `w` (R197). -/
def reduceLat (u : State) (base w : Nat) : Nat := base + Nat.log2 (512 * (members u u.cur).length / w) + gangTerm u

/-- What member `m` of a gang of `n` receives from VPEER at distance `d` (R219): the index of the member whose slice it
receives, `some none` for zeros, none where it keeps its own. -/
def peerOf (mode n m : Nat) (d : Int) : Option (Option Nat) :=
  if mode = 2 then some (some (((m : Int) + d) % (n : Int)).toNat)
  else if 0 ≤ (m : Int) + d ∧ (m : Int) + d < n then some (some ((m : Int) + d).toNat)
  else if mode = 0 then some none
  else none

/-! ### Requests to engines (R21 to R32, R281 to R319) -/

/-- Neither the own Jetty nor the queue of engine `h` keeps a kick waiting (R24, R25). -/
def canKick (u : State) (h : Nat) : Bool := !jettyFull u (coreOf u.cur) && !queueFull u h

/-- The state after a kick of `r` at engine `h` (R21 to R25, R32): an entry of the Jetty is reserved, the record stands in the
request buffer with the identity of its issuer, and the engine has copied it, so the buffer is free. -/
def kicked (u : State) (h : Nat) (r : Request) : State :=
  let g := coreOf u.cur
  let r' := { r with q := u.cur, vf := u.me.vf, ln := ((u.core g).owner.map (·.2)).getD 0, win := (u.core g).win }
  let v := (u.modCore g fun c => { c with reserved := c.reserved + 1 }).modProc u.cur fun p => { p with reqBuf := some r' }
  (acceptKick v h r').modProc u.cur fun p => { p with reqBuf := none }

/-- The next sequence number of a context's requests, and the identifier made of it and of the context's slot (R299, R328). -/
def numbered (n : Nat) : Nat := if 65535 ≤ n then 1 else n + 1
def requestId (u : State) (n : Nat) : Word := wNat (slotOf u.cur + 16 * numbered n)

/-- The state after the kick of a copy (R281, R299, R308): its ring is held, and the home Barge takes it. A stopped Barge ends it
at once, so its destination is undefined (R28, R302). -/
def copyKicked (u : State) (r : Request) : State :=
  let seq := numbered u.me.seqCpy
  let h := homeSlice (clusterOf u.cur)
  let held := match r.ring with
    | none => u
    | some n => modRing u (clusterOf u.cur) n fun x =>
        if r.op = 0x92 then { x with looping := true } else { x with inflight := x.inflight + 1 }
  (kicked (leaveIfStopped held h r) h { r with rid := requestId u u.me.seqCpy, seq := seq }).modProc u.cur fun p =>
    { p with seqCpy := seq }

/-- The state after the kick of a request that captures the rounding controls of the state `u` with mode `m` (R328, R357,
R413): `n` is the context's last sequence number and `put` stores the next; sr_ctr moves on where `d` holds. -/
def engineKicked (u w : State) (h n : Nat) (put : Nat → Proc → Proc) (m : Nat) (d : Bool) (r : Request) : State :=
  let v := kicked w h { r with
    mode := m, fcsr := u.me.r.fcsr, srseed := u.me.r.srseed, srctr := u.me.r.srctr, seq := numbered n, rid := requestId u n }
  (v.modProc u.cur (put (numbered n))).drew d

/-- `n` registers from the one that a field names, and whether they are g1 to g47 (R51). -/
def State.regs (u : State) (b : BitVec 6) (n : Nat) : List Word := (List.range n).map fun i => u.me.r.readG (b.toNat + i)
def regsOk (b : BitVec 6) (n : Nat) : Bool := decide (1 ≤ b.toNat) && decide (b.toNat + n ≤ 48)

/-- A record in registers passes the checks of R285, and base′ is aligned (R286). -/
def layoutOk (u : State) (r : List Word) : Bool :=
  (recFault r).isNone && decide ((basePrime u r).toNat % rBytes r = 0)

/-- The ring that a copy goes to passes the checks of R308. -/
def ringOk (u : State) (n : Nat) (r : List Word) : Bool :=
  let x := ringOf u (clusterOf u.cur) n
  x.enabled && x.kind 0 == 1 && !x.looping && decide (packAddr r 0 (rCount r - 1) + rNib r ≤ 256 * x.ssz)

/-- Results that land one after another in registers from `a`. -/
def landRegs (u : State) (a : BitVec 6) (xs : List Word) : State :=
  ((List.range xs.length).zip xs).foldl (fun t e => t.land 1 (.g (a.toNat + e.1) e.2)) u

/-- The engine of the hart that moves, changed. -/
def State.modMine (u : State) (f : Engine → Engine) : State := u.modEngine (hartIx u.cur) f

/-- The queue BGET takes from: the forward queue where only it holds a request, or where both do and the last request came
from the request queue (R317). -/
def fromForward (e : Engine) : Bool := !e.fwd.isEmpty && (e.queue.isEmpty || !e.lastFwd)

/-- What BGET tells of a request (R317). -/
def requestWords (r : Request) : List Word :=
  let loop := decide (r.op = 0x92)
  [wNat ((if r.restored then 3 else if loop then 2 else 1) + 2 ^ 4 * r.sel + 2 ^ 6 * b2n r.nt + 2 ^ 7 * b2n r.fwd +
      2 ^ 16 * (r.rid.toNat % 2 ^ 32)),
   if loop ∨ r.sel = 2 then 0 else if r.sel = 0 then r.base2 else r.args.getD 12 0,
   if loop then r.args.getD 12 0 else 0, wNat r.tag]

/-- The agent that moves has no cancellation of its own that waits to be executed again (R330). -/
def notCancelling (u : State) : State := u.modProc u.cur fun p => { p with pcan := none }

/-- A head that waits until `out` no longer holds (R330, R381, R382): it gives 1 where `out` does not hold when it issues, 0
when it has ended since; it is then at its end. -/
def Awaits (i : Instr) (a : BitVec 6) (H : State → Prop) (out : State → Bool) : Prop :=
  DoesTo i a 1 (fun u => H u ∧ (∀ t, u.me.wait ≠ .engine t) ∧ out u = false) notCancelling (fun _ => 1) ∧
  DoesTo i a 1 (fun u => H u ∧ (∃ t, u.me.wait = .engine t) ∧ out u = false) notCancelling (fun _ => 0)

/-- The engine and the Pontoon state of the agent's own cluster. -/
def State.myPontoon (u : State) : Pontoon := u.pontoon (clusterOf u.cur)
def State.modMyPontoon (u : State) (f : Pontoon → Pontoon) : State := u.modPontoon (clusterOf u.cur) f

/-- Every ring of the bank of ring `x` gets its own line back; and whether a heater met its limit (R349). -/
def identBank (po : Pontoon) (tide : Word) (x : Nat) : Pontoon × Bool :=
  (List.range 32).foldl (fun (e : Pontoon × Bool) r =>
    if sigmaOf e.1 (x + r) = r then e else ((setLine e.1 tide (x + r) r).1, e.2 || (setLine e.1 tide (x + r) r).2)) (po, false)

/-- An attachment that the agent may name (R410, R464): its function has been granted it; a port engine's own. -/
def granted (u : State) (n : Nat) : Bool :=
  if isHart u.cur then hartIx u.cur == fordHart n else (u.vfOf u.me.vf).fgnt.testBit n

/-- The launch the agent works for, as FENROL enters it. -/
def enrolment (u : State) : Nat × Nat := (myLaunch u).getD (0, 0)

/-- Why FENROL does not enrol (R411): its status, the lowest that applies. -/
def enrolRefusal (u : State) (n : Nat) : Option Nat :=
  let seg := u.seg n
  let p := u.ford n
  if p.enr.isSome ∧ p.enr ≠ myLaunch u then some 1
  else if seg.fen = true ∨ seg.lim = 0 ∧ seg.fbk = false then some 2
  else if aligned u n = false ∧ seg.fbk = false then some 3
  else if p.enr.isSome ∧ fordBusy u n = true then some 4
  else none

/-- The agent may arm switch `n`, and name the timetable of attachment `n` (R431). -/
def mayArm (u : State) (n : Nat) : Bool := isFerryman u || (u.switch n).gen && (u.switch n).gvf == u.me.vf
def mayTime (u : State) (n : Nat) : Bool := isFerryman u || (u.vfOf u.me.vf).fgnt.testBit n

/-- The request in the hand of the port engine that moves. -/
def State.hand (u : State) : Option FordJob := (u.ford (hartIx u.cur - 13440)).hand

/-- An agent of the machine's slices that may act as a Barge. -/
def bargeRuns (s : State) (h : Nat) : Prop := h < 640 ∧ (s.proc (hartQOf h)).stopped = false

/-! ### Steps that no head encodes -/

/-- The step `i` happens wherever `H` holds of the state with its data in `inp`, and leads to `E s`. -/
def Happens (i : Instr) (H : State → Prop) (E : State → State) : Prop :=
  ∀ s, H s → Sys2Proof.Machine.exec i s = .next (E s)

/-- The step `i` happens wherever `H` holds, and leads to a state with the property `P`. -/
def HappensTo (i : Instr) (H : State → Prop) (P : State → State → Prop) : Prop :=
  ∀ s, H s → ∃ t, Sys2Proof.Machine.exec i s = .next t ∧ P s t

/-- The register that `inp` names takes the item of a pop; register 0 discards it. -/
def State.taken (t : State) (x : Word) : State := if t.inp.b = 0 then t else t.land 1 (.g t.inp.b x)

/-- An inbound queue with its oldest item gone at the Tide value `now`: a pop counts as outstanding for 4 cycles (R145). -/
def Queue.less (k : Queue) (rest : List (Word × Word)) (now : Word) : Queue :=
  ⟨rest, (k.popped.filter fun t => decide (now.toNat < t.toNat + 4)) ++ [now]⟩

/-- Elements moved one by one by a transform unit for slot `k` of cluster `gc`, all of them: `f` gives the source address and size
and the destination address and size of each, `g` its result bits and flags (R267). What it sends to other packages is its own
(R277). -/
def movedAll (gc k q vf : Nat) (f : Nat → Word × Nat × Word × Nat) (g : Nat → Nat → Nat × Nat) (s : State) :
    List Nat → Option (State × Nat)
  | [] => some (s, 0)
  | i :: is =>
    match xRead s q vf (f i).1 (f i).2.1 with
    | .error _ => none
    | .ok (s1, v) => match xWrite s1 q vf (f i).2.2.1 (f i).2.2.2 (g i v).1 with
      | .error _ => none
      | .ok s2 => (movedAll gc k q vf f g (asUnit s1 s2 gc k q) is).map fun e => (e.1, (g i v).2 ||| e.2)

/-- One element of a conversion (R72, R213, R267): the bits and flags of element `i` with source bits `v`. -/
def convertOne (m : Mode) (fout : Bool) (sat : Bool) (ts td : Nat) (rnd : Nat → Nat) (i v : Nat) : Nat × Nat :=
  if isFloatCode td then roundTo (fmtOf td) m fout sat (rnd i) (if isFloatCode ts then (fmtOf ts).decode v else Ext.ofInt (intOf ts v))
  else if isFloatCode ts then
    let r := toInt (intRange td).1 (intRange td).2 m (rnd i) ((fmtOf ts).decode v)
    (wrapTo (typeWidth td) r.1, r.2)
  else convertElem { mode := m, fout := fout, sat8 := sat } ts td 0 v

end Sys2Proof.Machine
end

