-- ==== Sys2Proof/Certificates/Slice0/Obligations.lean ====
section
/-!
DEFINITION. The statements about the model.
-/

open Sys2Proof Sys2Proof.Machine

/-- Every scalar result of R157 to R163, for plain registers, alone or in a gang, in free mode or a timed phase. -/
def Obligations.ScalarResults : Prop :=
  ∀ (i : Instr) (f : Alu) (s : State), aluOf i = some f → ready s i = true → f.plain = true →
    Completes i s (forMembers s (beginHead s i) fun t =>
      t.landG f.lat f.a (f.val t.me.r.pc (t.myReg f.a) (t.myReg f.b) (t.myReg f.c))) seqNext

/-- The same results where an operand may be a port: the sources are popped in the order B, C, then the result is pushed
(R50, R156). -/
def Obligations.ScalarPortOperands : Prop :=
  ∀ (i : Instr) (f : Alu) (s s1 s2 t : State) (x y : Word), aluOf i = some f → ready s i = true → alone s = true →
    src f.b (beginHead s i) = .ok x s1 → src f.c s1 = .ok y s2 →
    dst f.lat f.a (f.val s2.me.r.pc (s2.myReg f.a) x y) s2 = .ok () t → chunkLines t s.cur ≤ 64 →
    Completes i s t seqNext

/-- The value and the frame of a scalar result in free mode: g[A] takes the result and nothing else of the machine changes
but the PC and the counts of the agent. -/
def Obligations.ScalarFrame : Prop :=
  ∀ (i : Instr) (f : Alu) (s : State), aluOf i = some f → ready s i = true → f.plain = true → calm s i = true →
    ∃ t, Sys2Proof.Machine.exec i s = .next t ∧
      t.reg s.cur f.a.toNat =
        (if f.a.toNat = 0 then 0 else f.val s.me.r.pc (s.myReg f.a) (s.myReg f.b) (s.myReg f.c)) ∧
      (∀ n, n ≠ f.a.toNat → t.reg s.cur n = s.reg s.cur n) ∧
      (t.proc s.cur).r.pc = nextPc s s.cur s.me.r.pc ∧
      VectorKept s.me.r (t.proc s.cur).r ∧ SystemKept s.me (t.proc s.cur) ∧
      MemoryKept s t s.cur ∧ OthersKept s t s.cur

/-- Branches and jumps complete (R142, R168, R169): a condition that holds takes control to the checked target, at c + 3; one
that does not goes on at the next head; a jump writes the address of the next head. -/
def Obligations.BranchesComplete : Prop :=
  (∀ a b cc imm x y w v, Does (.bRi16 a b cc imm)
    (fun u => pops u a b x y w ∧ condition cc.toNat x y = true ∧
      checkTarget w w.cur (w64 (w.me.r.pc.toNat + 2 * imm.toInt)) = .ok v)
    (fun _ => v) (fun _ => { target := some (w64 (w.me.r.pc.toNat + 2 * imm.toInt)), delay := 3 })) ∧
  (∀ a b cc imm x y w, Does (.bRi16 a b cc imm)
    (fun u => pops u a b x y w ∧ condition cc.toNat x y = false) (fun _ => w)) ∧
  (∀ a b cc imm x y w v, Does (.bRri32 a b cc imm)
    (fun u => pops u a b x y w ∧ condition cc.toNat x y = true ∧
      checkTarget w w.cur (w64 (w.me.r.pc.toNat + 2 * imm.toInt)) = .ok v)
    (fun _ => v) (fun _ => { target := some (w64 (w.me.r.pc.toNat + 2 * imm.toInt)), delay := 3 })) ∧
  (∀ a b cc imm x y w, Does (.bRri32 a b cc imm)
    (fun u => pops u a b x y w ∧ condition cc.toNat x y = false) (fun _ => w)) ∧
  (∀ a imm v, DoesTo (.jal a imm) a 1
    (fun u => checkTarget u u.cur (w64 (u.me.r.pc.toNat + 2 * imm.toInt)) = .ok v)
    (fun _ => v) (fun _ => nextPc v (leader v v.cur) v.me.r.pc)
    (fun u => { target := some (w64 (u.me.r.pc.toNat + 2 * imm.toInt)), delay := 3 })) ∧
  (∀ a b imm v, DoesTo (.jalr a b imm) a 1
    (fun u => checkTarget u u.cur (u.ea b imm) = .ok v)
    (fun _ => v) (fun _ => nextPc v (leader v v.cur) v.me.r.pc)
    (fun u => { target := some (u.ea b imm), delay := 3 }))

/-- A transfer to an address that is no head of a well-formed line traps, with the address in tval (R39). -/
def Obligations.BadTargetsTrap : Prop :=
  (∀ a b cc imm x y w c, Traps (.bRi16 a b cc imm)
    (fun u => pops u a b x y w ∧ condition cc.toNat x y = true ∧
      checkTarget w w.cur (w64 (w.me.r.pc.toNat + 2 * imm.toInt)) = .error c)
    c (fun _ => w64 (w.me.r.pc.toNat + 2 * imm.toInt))) ∧
  (∀ a b cc imm x y w c, Traps (.bRri32 a b cc imm)
    (fun u => pops u a b x y w ∧ condition cc.toNat x y = true ∧
      checkTarget w w.cur (w64 (w.me.r.pc.toNat + 2 * imm.toInt)) = .error c)
    c (fun _ => w64 (w.me.r.pc.toNat + 2 * imm.toInt))) ∧
  (∀ a imm c, Traps (.jal a imm)
    (fun u => checkTarget u u.cur (w64 (u.me.r.pc.toNat + 2 * imm.toInt)) = .error c)
    c (fun u => w64 (u.me.r.pc.toNat + 2 * imm.toInt))) ∧
  (∀ a b imm c, Traps (.jalr a b imm)
    (fun u => checkTarget u u.cur (u.ea b imm) = .error c) c (fun u => u.ea b imm))

/-- NOP, CHUNK.END, FENCE, TIDE.RD, TIDE.WAIT, PHASE.T and PHASE.E complete with these effects (R166, R175 to R177, R184): a timed phase begins
with every chunk of the core closed, and ends when every result in flight has been written. -/
def Obligations.ControlCompletes : Prop :=
  Does .nop (fun _ => True) id ∧
  Does .chunkEnd (fun _ => True) id ∧
  (∀ sc, Does (.fence sc false)
    (fun u => (u.me.timed = true → sc = 0) ∧ (4 ≤ sc.toNat → u.me.remoteOut = [])) (fun u => u.released sc)) ∧
  (∀ sc, Does (.fence sc true)
    (fun u => (u.me.timed = true → sc = 0) ∧ (4 ≤ sc.toNat → u.me.remoteOut = []) ∧ (isHart u.cur = false → u.myCore.pins = []))
    (fun u =>
      let v := (u.released sc).modProc u.cur fun p => { p with lines := [] }
      if isHart u.cur then v else v.modCore (coreOf u.cur) fun c => { c with l1i := [] })) ∧
  (∀ a, DoesTo (.tideRd a) a 1 (fun _ => True) id (fun u => u.tide)) ∧
  (∀ a b strict imm, DoesTo (.tideWait a b strict imm) a 1
    (fun u => (∀ c, u.me.wait ≠ .tide c) ∧ (u.ea b imm).toNat ≤ (u.tide + 1).toNat ∧ (strict = true → u.ea b imm = u.tide + 1))
    id (fun u => u.tide + 1 - u.ea b imm)) ∧
  (∀ a b strict imm c, DoesTo (.tideWait a b strict imm) a 1
    (fun u => u.me.wait = .tide c ∧ (c + 1).toNat < (u.ea b imm).toNat ∧ (u.ea b imm).toNat ≤ (u.tide + 1).toNat)
    id (fun _ => 0)) ∧
  Does .phaseT (fun u => coreQuiet u (coreOf u.cur) = true)
    (fun u => (closeChunks u (coreOf u.cur)).modProc u.cur fun p => { p with timed := true }) (fun _ => { delay := 4 }) ∧
  Does .phaseE (fun u => u.me.flight = []) (fun u => u.modProc u.cur fun p => { p with timed := false })

/-- Loads complete where the access is readable (R142, R164, R165). The model's choices it rests on: log entry 8. -/
def Obligations.LoadsComplete : Prop :=
  (∀ a b sz sx nt imm v lat w, DoesTo (.ldRi16 a b sz sx nt imm) a lat
    (fun u => loadAt u (u.ea b imm) (2 ^ sz.toNat) = some (v, lat, w))
    (fun _ => w) (fun _ => loaded v (2 ^ sz.toNat) sx)) ∧
  (∀ a b c sz sx nt sh imm v lat w, DoesTo (.ldRri32 a b c sz sx nt sh imm) a lat
    (fun u => loadAt u (u.eaIx b c sh imm) (2 ^ sz.toNat) = some (v, lat, w))
    (fun _ => w) (fun _ => loaded v (2 ^ sz.toNat) sx)) ∧
  (∀ a b sz sx sc imm v lat w, DoesTo (.lda a b sz sx sc imm) a lat
    (fun u => ordered u sc false = true ∧ loadAt u (u.ea b imm) (2 ^ sz.toNat) = some (v, lat, w))
    (fun _ => w) (fun _ => loaded v (2 ^ sz.toNat) sx))

/-- Stores complete where the access is writable (R164, R165). The model's choices it rests on: log entry 8. -/
def Obligations.StoresComplete : Prop :=
  (∀ a b sz nt imm x v w, Does (.stRi16 a b sz nt imm)
    (fun u => src a u = .ok x v ∧ storeAt v (u.ea b imm) (2 ^ sz.toNat) x.toNat = some w) (fun _ => w)) ∧
  (∀ a b c sz nt sh imm x v w, Does (.stRri32 a b c sz nt sh imm)
    (fun u => src a u = .ok x v ∧ storeAt v (u.eaIx b c sh imm) (2 ^ sz.toNat) x.toNat = some w) (fun _ => w)) ∧
  (∀ a b sz sc imm x v w, Does (.stl a b sz sc imm)
    (fun u => ordered u sc true = true ∧ src a (u.released sc) = .ok x v ∧
      storeAt v (u.ea b imm) (2 ^ sz.toNat) x.toNat = some w) (fun _ => w))

/-- Atomics on memory of this package complete: the old value goes to the destination, the new one to memory (R126, R167). -/
def Obligations.AtomicsComplete : Prop :=
  ∀ (i : Instr) (f : Atomic) (pa : Nat) (y z : Word) (v w : State), atomicOf i = some f →
    DoesTo i f.a 1 (fun u => ordered u f.sc true = true ∧ pops (u.released f.sc) f.c f.d y z v ∧
        decodeVa v v.cur v.me.vf (u.myReg f.b).toNat = some .global ∧
        check (u.myReg f.b) f.size f.size .atomic v = .ok (.own pa) w ∧ isWcPage w (u.myReg f.b).toNat = false)
      (fun _ => f.after y z w pa) (fun _ => wNat (w.natAt pa f.size))

/-- HALT and ERET complete (R62, R154, R184): a control context ends with its ended helpers freed; an engine hart that has
something to do goes on; ERET goes to epc and leaves the handler. -/
def Obligations.HaltAndReturnComplete : Prop :=
  Does .halt
    (fun u => isHart u.cur = false ∧ u.myCore.gsize = 0 ∧ startedHelper u u.cur = false ∧ u.me.remoteOut = [])
    (fun u =>
      let v := (helperQs (coreOf u.cur)).foldl (fun t q => if (t.proc q).st == .ended then t.setProc q {} else t) u
      v.modProc v.cur fun p => { p with st := .ended, icount := p.icount + 1, waited := 0 })
    (fun _ => { gone := true }) ∧
  Does .halt (fun u => isHart u.cur = true ∧ wakes u (hartIx u.cur) = true) id ∧
  (∀ v, Does .eret
    (fun u => u.me.intrap = true ∧ (u.me.ptim = true → coreQuiet u (coreOf u.cur) = true) ∧
      checkTarget u u.cur u.me.epc = .ok v)
    (fun u => (if u.me.ptim then closeChunks v (coreOf v.cur) else v).modProc v.cur fun p =>
      { p with intrap := false, timed := u.me.ptim })
    (fun u => { target := some u.me.epc, delay := 3, skipBp := true }))

/-- TRAP and BREAK take their traps (R183): TRAP raises TRAP_INSN with its number in tval and the PC of the next head in epc;
BREAK raises BREAKPOINT at its own PC; while the Tollhouse of the cluster has debug enabled, BREAK halts the cluster instead. -/
def Obligations.TrapsTaken : Prop :=
  (∀ code s, ready s (.trap code) = true → alone s = true →
    let u := beginHead s (.trap code)
    Sys2Proof.Machine.exec (.trap code) s =
      .next (trapHead u [(s.cur, 0x06, code.setWidth 64)] (nextPc u u.cur u.me.r.pc))) ∧
  (∀ code, Traps (.brk code)
    (fun u => isHart u.cur = true ∨ u.myCluster.tdctl.getLsbD 0 = false) 0x07 (fun _ => code.setWidth 64)) ∧
  (∀ code s, ready s (.brk code) = true → alone s = true →
    let u := beginHead s (.brk code)
    isHart u.cur = false → u.myCluster.tdctl.getLsbD 0 = true →
      Sys2Proof.Machine.exec (.brk code) s =
        .next { (commitChunk u u.cur).pushTurn .clusterHalt { a := clusterOf u.cur, b := 1, c := u.cur } with issued := true })

/-- SRR and SRW complete for every register that is defined for the agent (R182); an SRR of a bin or of hstat comes after the
counts that the open chunk holds (R222). -/
def Obligations.SystemRegistersComplete : Prop :=
  (∀ a n v x, DoesTo (.srr a n) a 2
    (fun u => v = (if holdsCounts u = true ∧ (n = 0x0103 ∨ 0x0110 ≤ n.toNat ∧ n.toNat < 0x0130) then endChunk u u.cur else u) ∧
      sysReg v v.cur n.toNat = some x)
    (fun _ => v) (fun _ => x)) ∧
  (∀ a n, Does (.srw a n)
    (fun u => (sysReg u u.cur n.toNat).isSome = true ∧ srwLegal u n.toNat (u.myReg a) = true ∧
      (isHart u.cur = true → n.toNat < 0x0200))
    (fun u => srwEffect u n.toNat (u.myReg a))) ∧
  (∀ a n, Does (.srw a n)
    (fun u => (sysReg u u.cur n.toNat).isSome = true ∧ isHart u.cur = true ∧ 0x0200 ≤ n.toNat)
    (fun u => hartWrite u n.toNat (u.myReg a))) ∧
  (∀ a w ps, Does (.srw a 0x0011)
    (fun u => freeControl u = true ∧ fetchPins u u.cur (pinLines (u.myReg a)) = .ok (w, ps))
    (fun u => w.modCore (coreOf u.cur) fun c => { c with tpin := u.myReg a, pins := ps }))

/-- HSTART, HJOIN, HEND and HYIELD complete (R132, R133, R170 to R172): HSTART takes the lowest free slot, or with nw answers
zero where there is none; HJOIN frees the slot of a helper that has ended and gives its exit value; HEND frees a detached
helper's slot and leaves an ended one to its starter; HYIELD lets the others go first. -/
def Obligations.HelpersComplete : Prop :=
  (∀ a b c nw det imm v h x y w, DoesTo (.hstart a b c nw det imm) a 1
    (fun u => checkTarget u u.cur (w64 (u.me.r.pc.toNat + 2 * imm.toInt)) = .ok v ∧ helperFor v (coreOf v.cur) = some h ∧
      pops v b c x y w)
    (fun u => w.setProc h (helperState w.me w.cur (slotOf h) (w64 (u.me.r.pc.toNat + 2 * imm.toInt)) x y w.tide det))
    (fun _ => wNat (slotOf h))) ∧
  (∀ a b c det imm v, DoesTo (.hstart a b c true det imm) a 1
    (fun u => checkTarget u u.cur (w64 (u.me.r.pc.toNat + 2 * imm.toInt)) = .ok v ∧ helperFor v (coreOf v.cur) = none)
    (fun _ => v) (fun _ => 0)) ∧
  (∀ a b k v, DoesTo (.hjoin a b) a 1
    (fun u =>
      let p := v.proc (v.cur + k.toNat)
      src b u = .ok k v ∧ 1 ≤ k.toNat ∧ k.toNat ≤ 10 ∧ p.starter = v.cur ∧ p.drain = false ∧ p.st = .ended)
    (fun _ => v.setProc (v.cur + k.toNat) {}) (fun _ => (v.proc (v.cur + k.toNat)).exitVal)) ∧
  Does .hend (fun u => u.me.drain = false)
    (fun u => if u.me.det then u.setProc u.cur {}
      else u.modProc u.cur fun p => { p with st := .ended, exitVal := p.r.readG 3 })
    (fun _ => { gone := true }) ∧
  (∀ r, Does .hend (fun u => u.me.drain = true ∧ u.me.row = some r)
    (fun u => (if r.released then u else releaseRow u u.cur none).setProc u.cur {}) (fun _ => { gone := true })) ∧
  Does .hyield (fun _ => True) id (fun u => { after := .yield (u.tide + 16) [] })

/-- GANG and SPLIT complete (R173, R174): GANG of size code 0 answers zero; the last core of a group to arrive writes every
member its index and forms the gang; SPLIT dissolves it, each member going on at the next head. -/
def Obligations.GangsComplete : Prop :=
  (∀ a, DoesOnceTo (.gang a 0) a 1 (fun u => u.myCore.gsize = 0) id (fun _ => 0)) ∧
  (∀ a n w, DoesOnce (.gang a n)
    (fun u =>
      let g := coreOf u.cur
      n ≠ 0 ∧ u.cur = ctl g ∧ u.myCore.gsize = 0 ∧ u.me.wait ≠ .gang n.toNat a ∧
      (∀ h ∈ gangGroup g n.toNat, h ≠ g → sameLaunch u g h = true ∧ (gangWait u h).map (·.1) = some n.toNat) ∧
      gangIndices u n.toNat a = some w)
    (fun u => { formGang w (coreOf u.cur) n.toNat with cur := u.cur })
    (fun u =>
      let l := ctl (coreOf u.cur / 2 ^ n.toNat * 2 ^ n.toNat)
      { target := some (nextPc u l (u.proc l).r.pc) })) ∧
  DoesOnce .split (fun u => u.myCore.gsize ≠ 0)
    (fun u =>
      let rest := (members u u.cur).filter (· != u.cur)
      let pc := nextPc u (leader u u.cur) u.me.r.pc
      let v := rest.foldl (fun t m => t.modProc m fun p => { p with
        r := { p.r with pc := pc }, icount := p.icount + 1, resumeAt := t.tide + 1, wait := .idle }) u
      (u.cur :: rest).foldl (fun t m => t.modCore (coreOf m) fun c => { c with gsize := 0, gmemb := 0 }) v)
    (fun u => { target := some (nextPc u (leader u u.cur) u.me.r.pc) })

/-- WAITMEM, WAITMSG, SENDMSG and SYNC complete (R178 to R181): a watched word that differs already, or has been written, or a
deadline that has passed; a Jetty with a message; a message that enters the destination's Jetty; a barrier that has released,
with its release cycle. -/
def Obligations.WaitsComplete : Prop :=
  (∀ a b sz imm x v pa w, Does (.waitmem a b sz imm)
    (fun u => src a u = .ok x v ∧ (∀ l d h, v.me.wait ≠ .mem l d h) ∧
      watchTarget (v.ea b imm) (2 ^ sz.toNat) v = .ok pa w ∧
      w.natAt pa (2 ^ sz.toNat) ≠ x.toNat % 2 ^ (8 * 2 ^ sz.toNat))
    (fun _ => w)) ∧
  (∀ a b sz imm l due hit, Does (.waitmem a b sz imm)
    (fun u => u.me.wait = .mem l due hit ∧ (hit = true ∨ due.toNat ≤ u.tide.toNat)) id) ∧
  Does .waitmsg (fun u => u.myCore.jetty ≠ []) id ∧
  (∀ a b c tag d v x y w h, Does (.sendmsg a b c tag)
    (fun u => src a u = .ok d v ∧ pops v b c x y w ∧ isHart w.cur = false ∧ d.toNat < 2 ^ 17 ∧
      vcore w w.me.vf (d.toNat / 8) (d.toNat % 8) = some h ∧ sameLaunch w (coreOf w.cur) h = true ∧
      (w.core h).jetty.length + (w.core h).reserved < 32)
    (fun _ => w.modCore h fun k => { k with jetty := k.jetty ++ [BitVec.ofNat 128 (x.toNat +
      2 ^ 64 * (y.toNat % 2 ^ 29) + 2 ^ 93 * tag.toNat +
      2 ^ 109 * (8 * w.myCore.vcl + coreOf w.cur % 8) + 2 ^ 126)] })) ∧
  (∀ a, DoesTo (.sync a 0) a 1
    (fun u => u.me.flight = [] ∧ (∀ e ∈ u.me.due, e.2 ≤ u.tide.toNat) ∧ awaitedHelper u u.cur = false)
    id (fun u => u.tide + 1)) ∧
  (∀ a lv due, lv ≠ 0 → DoesTo (.sync a lv) a 1
    (fun u => u.me.wait = .released due ∧ due.toNat ≤ (u.tide + 1).toNat) id (fun _ => due))

/-- The bit-stream instructions complete (R252 to R260), in free mode or a timed phase. -/
def Obligations.BitStreamCompletes : Prop :=
  (∀ a b r sx imm n v, DoesTo (.bbGet a b r sx imm) a 1
    (fun u => bufferFree u = true ∧ bitsAsked u b r imm 128 n v ∧ 1 ≤ n ∧ n ≤ 64)
    (fun _ => v.setR fun x => { x with bb := bitsTaken x.bb n }) (fun _ => bitsGot v n sx)) ∧
  (∀ a b r sx imm n v, DoesTo (.bbPeek a b r sx imm) a 1
    (fun u => bufferFree u = true ∧ bitsAsked u b r imm 128 n v ∧ 1 ≤ n ∧ n ≤ 64)
    (fun _ => v.setR fun x => { x with bb := { x.bb with und := x.bb.und || decide (x.bb.cnt < n) } })
    (fun _ => bitsGot v n sx)) ∧
  (∀ b r imm n v, Does (.bbSkip b r imm)
    (fun u => bufferFree u = true ∧ bitsAsked u b r imm 256 n v ∧ n ≤ 128)
    (fun _ => v.setR fun x => { x with bb := bitsTaken x.bb n })) ∧
  (∀ a x wait lat w, DoesTo (.bbFill a) a lat
    (fun u => bufferFree u = true ∧ lat = (if u.me.r.bb.reg then 4 else 2) + wait ∧
      bufRead u.me.r.bb.reg u.me.r.bb.ptr.toNat (fillBytes u.me.r.bb) u = .ok (x, wait) w)
    (fun u =>
      let b := u.me.r.bb
      let n := fillBytes b
      (w.setR fun y => { y with bb := { b with ptr := BitVec.ofNat 18 (b.ptr.toNat + n) } }).land lat (.bbAppend x n))
    (fun u => wNat (u.me.r.bb.cnt + 8 * fillBytes u.me.r.bb))) ∧
  (∀ a imm e wait lat w, DoesTo (.bbDec a imm) a lat
    (fun u => bufferFree u = true ∧ lat = (if u.me.r.bb.tabReg then 5 else 3) + wait ∧
      bufRead u.me.r.bb.tabReg (u.me.r.bb.tabBase.toNat + 2 * (u.me.r.bb.buf.toNat % 2 ^ imm.toNat)) 2 u = .ok (e, wait) w)
    (fun u =>
      let b := u.me.r.bb
      let len := e / 2 ^ 12 % 2 ^ 4
      w.land lat (.bbTake (min len b.cnt) (decide (b.cnt < len))))
    (fun _ => wNat ((if e / 2 ^ 12 % 2 ^ 4 = 0 then 2 ^ 63 else 0) + e % 2 ^ 12))) ∧
  (∀ b imm v w, Does (.bbSave b imm)
    (fun u => bufferFree u = true ∧ saveAddr b imm .store u = .ok (u.ea b imm) v ∧
      storesAt v (u.ea b imm) [v.me.r.bb.lo, v.me.r.bb.hi, v.me.r.bb.stat, v.me.r.bb.tab] = some w)
    (fun _ => w)) ∧
  (∀ b imm v lo v1 hi v2 st v3 tab v4 l v5 wait w, Does (.bbRest b imm)
    (fun u =>
      let a := u.ea b imm
      bufferFree u = true ∧ saveAddr b imm .load u = .ok a v ∧ load a 8 v = .ok lo v1 ∧ load (a + 8) 8 v1 = .ok hi v2 ∧
      load (a + 16) 8 v2 = .ok st v3 ∧ load (a + 24) 8 v3 = .ok tab v4 ∧ restOk (wNat st) (wNat tab) = true ∧
      check a 8 8 .load v4 = .ok l v5 ∧
      bankAccess ((upTo 4).map fun j => match l with
        | .scratch gc k o => (.scratch gc k (o + 8 * j), 8, v5.cur)
        | l => (l, 8, v5.cur)) v5 = .ok wait w)
    (fun _ =>
      let b : BitBuf := { buf := BitVec.ofNat 128 (lo + 2 ^ 64 * hi) }
      w.land ((match l with
        | .tcm _ _ => 2
        | _ => 4) + wait) (.bbSet ((b.withStat (wNat st) ((wNat st).getLsbD 9)).withTab (wNat tab)).clip)))

/-- Vector arithmetic completes (R189, R190, R194, R197 to R204, R218), for an agent alone or a gang: every active element
takes its result, the flags and sr_ctr follow, and vres is zero. -/
def Obligations.VectorArithmeticCompletes : Prop :=
  (∀ (i : Instr) (f : VecOp), vecOf i = some f → DoesOnce i (fun _ => True) f.after) ∧
  (∀ a b c kp z t x v, DoesOnce (.vbcast a b c kp z t false) (fun u => src b u = .ok x v)
    (fun _ => VecOp.after ⟨fun _ => 2, a, kp, z, typeWidth t.toNat, fun _ _ => (x.toNat % 2 ^ typeWidth t.toNat, 0), fun _ => false⟩ v))

/-- Comparisons and predicates complete (R189, R205 to R208). -/
def Obligations.PredicatesComplete : Prop :=
  (∀ (i : Instr) (f : PredOp), predOf i = some f → DoesOnce i (fun _ => True) f.after) ∧
  (∀ a b c w un x y v, DoesOnce (.kwhile a b c w un) (fun u => pops u b c x y v) (fun _ => (whileOp a w un x y).after v)) ∧
  (∀ (i : Instr) (a : BitVec 6) (f : State → Nat), wholePred i = some (a, f) →
    DoesOnce i (fun _ => True) (fun u => (u.landK 2 a.toNat (2 ^ predBits u - 1) (f u)).vresZero)) ∧
  (∀ a b w, DoesOnceTo (.kcnt a b w) a 2 (fun _ => True) id (fun u =>
    wNat ((List.range (512 * (members u u.cur).length / (8 * 2 ^ w.toNat))).filter fun i =>
      (readPred u b.toNat).testBit (i * (8 * 2 ^ w.toNat) / 8)).length) State.vresZero) ∧
  (∀ a, DoesOnceTo (.vwidth a) a 1 (fun _ => True) id (fun u => wNat (512 * (members u u.cur).length)) State.vresZero)

/-- Conversion, packing and unpacking complete (R212 to R215). -/
def Obligations.ConversionsComplete : Prop :=
  (∀ (i : Instr) (f : ConvOp), convOf i = some f → DoesOnce i (fun _ => True) f.after) ∧
  (∀ a b d kp z rm ts p un, DoesOnce (.vpack a b d kp z rm ts 11 p un) (fun _ => True) (fun u =>
    let n := (members u u.cur).length
    let bs := (List.range n).map (mxBlock (u.controls rm) (readPred u kp.toNat) (readVec u b.toNat) (p.toNat * (32 * n)))
    let t := (u.landAt 4 a 8 z (bs.flatMap MxBlock.elems)).landAt 4 d 8 z
      ((bs.zip (List.range n)).map fun e => (e.2 + p.toNat * n, e.1.any, e.1.scale))
    ((t.landFlags 4 (bs.foldl (fun m e => m ||| e.flags) 0)).drew (bs.any MxBlock.any && (u.controls rm).mode == .sr)).vresZero))

/-- Dot products, reductions and scans complete (R86, R87, R216, R217). -/
def Obligations.ReductionsComplete : Prop :=
  (∀ a b c kp rm ta tb j, DoesOnce (.vdotf8 a b c kp rm ta tb j) (fun u => j.toNat < 16 * (members u u.cur).length) (fun u =>
    let r := dotFloat u a b c kp rm ta tb j.toNat
    let lat := reduceLat u 6 8
    (((u.landAt lat a 32 false [(j.toNat, true, r.1)]).landFlags lat r.2).drew
      ((u.controls rm).mode == .sr && !(activeElems u kp 8).isEmpty)).vresZero)) ∧
  (∀ a b c kp ta tb j, DoesOnce (.vdoti8 a b c kp ta tb j) (fun u => j.toNat < 16 * (members u u.cur).length) (fun u =>
    (u.landAt (reduceLat u 6 8) a 32 false [(j.toNat, true,
      (((vecEl u a 32 j.toNat : Int) + dotInt u b c kp ta tb) % (2 ^ 32 : Nat)).toNat)]).vresZero)) ∧
  (∀ a b kp rm t o j, DoesOnce (.vred a b kp rm t o j)
    (fun u => j.toNat < 512 * (members u u.cur).length / typeWidth t.toNat) (fun u =>
    let w := typeWidth t.toNat
    let is := activeElems u kp w
    let r := reduce (u.controls rm) t.toNat o.toNat (readVec u b.toNat) is (512 * (members u u.cur).length / w)
    let lat := reduceLat u 4 w
    (((u.landAt lat a w false [(j.toNat, true, r.1)]).landFlags lat r.2).drew
      (isFloatCode t.toNat && o == 0 && (u.controls rm).mode == .sr && !is.isEmpty)).vresZero)) ∧
  (∀ a b kp z rm t o, DoesOnce (.vscan a b kp z rm t o) (fun _ => True) (fun u =>
    let w := typeWidth t.toNat
    let n := 512 * (members u u.cur).length / w
    let r := scanVec (u.controls rm) t.toNat o.toNat (readVec u b.toNat) (active (readPred u kp.toNat) w) n
    let lat := reduceLat u 4 w
    let acts := activity u kp w
    let t1 := u.landV lat a.toNat (joinElems w (acts.map fun x => if x || z then 2 ^ w - 1 else 0))
      (joinElems w (activeResults acts 0 fun i => r.1.getD i 0))
    ((t1.landFlags lat r.2).drew
      (isFloatCode t.toNat && o == 0 && (u.controls rm).mode == .sr && acts.any id)).vresZero))

/-- Moves between elements, members and general registers complete (R218 to R223). -/
def Obligations.VectorMovesComplete : Prop :=
  (∀ a b c kp z t, DoesOnce (.vbcast a b c kp z t true) (fun _ => True) (fun u =>
    let w := typeWidth t.toNat
    let n := 512 * (members u u.cur).length / w
    let acts := activity u kp w
    let x := vecEl u b w ((u.myReg c).toNat % n)
    (u.landV (3 + gangTerm u) a.toNat (joinElems w (acts.map fun e => if e || z then 2 ^ w - 1 else 0))
      (joinElems w (activeResults acts 0 fun _ => x))).vresZero)) ∧
  (∀ a b mode imm, DoesOnce (.vpeer a b mode imm) (fun _ => True) (fun u =>
    let n := (members u u.cur).length
    (u.landAt (if n = 16 then 3 else 2) a 512 false ((List.range n).map fun m =>
      match peerOf mode.toNat n m imm.toInt with
      | some (some j) => (m, true, readVec u b.toNat / 2 ^ (512 * j) % 2 ^ 512)
      | some none => (m, true, 0)
      | none => (m, false, 0))).vresZero)) ∧
  (∀ a b t sx idx lat, DoesOnceTo (.vext a b t sx idx) a lat
    (fun u => lat = 3 + gangTerm u ∧ idx.toNat < 512 * (members u u.cur).length / typeWidth t.toNat) id (fun u =>
    let x := vecEl u b (typeWidth t.toNat) idx.toNat
    if sx then w64 (signedAt (typeWidth t.toNat) x) else wNat x) State.vresZero) ∧
  (∀ a b t idx x v, DoesOnce (.vins a b t idx)
    (fun u => src b u = .ok x v ∧ idx.toNat < 512 * (members v v.cur).length / typeWidth t.toNat) (fun _ =>
    (v.landAt 2 a (typeWidth t.toNat) false [(idx.toNat, true, x.toNat % 2 ^ typeWidth t.toNat)]).vresZero)) ∧
  (∀ a, DoesOnceTo (.vseedRd a) a 1 (fun _ => True) id (fun u => u.me.r.srctr) State.vresZero) ∧
  (∀ b x v, DoesOnce (.vseedWr b) (fun u => src b u = .ok x v) (fun _ => (v.setR fun r => { r with srctr := x }).vresZero)) ∧
  (∀ a b x v, DoesOnceTo (.vseedXchg a b) a 1 (fun u => src b u = .ok x v)
    (fun _ => v.setR fun r => { r with srctr := x }) (fun _ => v.me.r.srctr) State.vresZero) ∧
  (∀ b kp t, DoesOnce (.vhist b kp t) (fun _ => True) (fun u =>
    let f := fmtOf t.toNat
    (((members u u.cur).zip (List.range 16)).foldl (fun v e =>
      if (u.core (coreOf e.1)).hen then
        v.countHist (coreOf e.1) (((activeElems u kp f.width).filter fun i => f.width * i / 512 == e.2).map fun i =>
          histBin (f.decode (vecEl u b f.width i)))
      else v) u).vresZero))

/-- Vector loads complete where every active element may be read (R195 to R197, R209, R210): `ea` of the three forms is one
element apart, a byte stride apart, or by an index vector. The model's choices it rests on: log entries 8, 23. -/
def Obligations.VectorLoadsComplete : Prop :=
  let reads := fun (u : State) (kp : BitVec 3) (t : BitVec 4) (ea : Nat → Word) (ls : List (Nat × Loc)) (vs : List (Nat × Nat))
      (wait : Nat) (w : State) =>
    ∃ u1 u2, checkElems (typeWidth t.toNat) .load ea (activeElems u kp (typeWidth t.toNat)) u = .ok ls u1 ∧
      readElems (typeWidth t.toNat) ea ls u1 = .ok vs u2 ∧
      bankAccess (ls.map fun e => (e.2, typeWidth t.toNat / 8, memberOf (members u u.cur) (typeWidth t.toNat) e.1)) u2 = .ok wait w
  let landed := fun (w : State) (a : BitVec 6) (kp : BitVec 3) (z : Bool) (t : BitVec 4) (unit : Bool) (ls : List (Nat × Loc))
      (vs : List (Nat × Nat)) (wait : Nat) =>
    let n := typeWidth t.toNat
    let acts := activity w kp n
    (w.landV (vloadLatency unit (512 * (members w w.cur).length / n) ls + wait) a.toNat
      (joinElems n (acts.map fun e => if e || z then 2 ^ n - 1 else 0))
      (joinElems n (activeResults acts 0 fun i => ((vs.find? fun e => e.1 == i).map (·.2)).getD 0))).vresZero
  (∀ a b kp z t nt imm ls vs wait w, DoesOnce (.vld a b kp z t nt imm)
    (fun u => reads u kp t (fun i => u.ea b imm + wNat (i * (typeWidth t.toNat / 8))) ls vs wait w)
    (fun _ => landed w a kp z t true ls vs wait)) ∧
  (∀ a b c kp z t nt imm ls vs wait w, DoesOnce (.vlds a b c kp z t nt imm)
    (fun u => reads u kp t (fun i => u.ea b imm + wNat i * u.myReg c) ls vs wait w)
    (fun _ => landed w a kp z t false ls vs wait)
    (fun _ => { delay := 512 * (members w w.cur).length / typeWidth t.toNat })) ∧
  (∀ a b c kp z t nt sh imm ls vs wait w, DoesOnce (.vgath a b c kp z t nt sh imm)
    (fun u => reads u kp t (fun i => u.ea b imm + indexEl u c (typeWidth t.toNat) i <<< sh.toNat) ls vs wait w)
    (fun _ => landed w a kp z t false ls vs wait)
    (fun _ => { delay := 512 * (members w w.cur).length / typeWidth t.toNat }))

/-- Vector stores complete where every active element from vres on may be written and the store has at most 64 lines (R125,
R209, R210, R222, R224). The model's choices it rests on: log entries 8, 59. -/
def Obligations.VectorStoresComplete : Prop :=
  (∀ a b kp t nt imm w, DoesOnce (.vst a b kp t nt imm)
    (fun u => storesVector u a kp t (fun i => u.ea b imm + wNat (i * (typeWidth t.toNat / 8))) w) (fun _ => w)) ∧
  (∀ a b c kp t nt imm w, DoesOnce (.vsts a b c kp t nt imm)
    (fun u => storesVector u a kp t (fun i => u.ea b imm + wNat i * u.myReg c) w) (fun _ => w)
    (fun u => { delay := 512 * (members u u.cur).length / typeWidth t.toNat })) ∧
  (∀ a b c kp t nt sh imm w, DoesOnce (.vscat a b c kp t nt sh imm)
    (fun u => storesVector u a kp t (fun i => u.ea b imm + indexEl u c (typeWidth t.toNat) i <<< sh.toNat) w) (fun _ => w)
    (fun u => { delay := 512 * (members u u.cur).length / typeWidth t.toNat }))

/-- The Jetty's instructions and CPYCAN complete (R303, R314, R315): JPEEK gives an entry in two halves, JDROP removes the
oldest, CPYCAN tells whether the copy was outstanding. -/
def Obligations.JettyCompletes : Prop :=
  (∀ a b i v m, DoesTo (.jpeek a b) a 2
    (fun u => src b u = .ok i v ∧ i.toNat ≤ 31 ∧ v.myCore.jetty[i.toNat]? = some m)
    (fun _ => v.land 2 (.jhi (m.extractLsb' 64 64))) (fun _ => m.extractLsb' 0 64)) ∧
  (∀ m ms, Does .jdrop (fun u => u.myCore.jetty = m :: ms)
    (fun u => u.modCore (coreOf u.cur) fun c => { c with jetty := ms })) ∧
  (∀ a b, DoesOnceTo (.cpycan a b) a 1
    (fun u => (u.myReg b).toNat < 2 ^ 20 ∧ (∀ t, u.me.wait ≠ .engine t) ∧ copyOutstanding u (coreOf u.cur) (u.myReg b) = false)
    id (fun _ => 1)) ∧
  (∀ a b t, DoesOnceTo (.cpycan a b) a 1
    (fun u => (u.myReg b).toNat < 2 ^ 20 ∧ u.me.wait = .engine t ∧ copyOutstanding u (coreOf u.cur) (u.myReg b) = false)
    id (fun _ => 0))

/-- The handle instructions complete (R291 to R297). -/
def Obligations.HandlesComplete : Prop :=
  (∀ a b c nt k gen, DoesTo (.halloc a b c nt) a 1
    (fun u => 1 ≤ (u.myReg c).toNat ∧ (u.myReg c).toNat < 2 ^ 48 ∧
      (u.myReg b).toNat + (u.myReg c).toNat ≤ 2 ^ 48 ∧
      (List.range 65536).find? (fun k => decide (1 ≤ k) && slotFree u u.me.vf k) = some k ∧
      gen = handleDw u u.me.vf k 1 / 2 ^ 48 % 2 ^ 12)
    (fun u =>
      let f := u.me.vf
      let v := putHandle (putHandle (setSlotFree u f k false) f k 0 (u.myReg b).toNat) f k 1
        ((u.myReg c).toNat + 2 ^ 48 * gen + 2 ^ 60)
      performAt v (handleEntry u f k + 16) (leBytes 4 0))
    (fun _ => wNat (k + 2 ^ 16 * gen + 2 ^ 28 * b2n nt))) ∧
  (∀ a b c nt, DoesTo (.halloc a b c nt) a 1
    (fun u => 1 ≤ (u.myReg c).toNat ∧ (u.myReg c).toNat < 2 ^ 48 ∧
      (u.myReg b).toNat + (u.myReg c).toNat ≤ 2 ^ 48 ∧
      (List.range 65536).find? (fun k => decide (1 ≤ k) && slotFree u u.me.vf k) = none)
    id (fun _ => 0)) ∧
  (∀ a b, DoesTo (.hfree a b) a 1
    (fun u =>
      let k := (u.myReg b).toNat % 2 ^ 16
      let d := handleDw u u.me.vf k 1
      let v := putHandle u u.me.vf k 1 (hDw1 (hLen d) (hGen d) true true)
      (u.myReg b).toNat < 2 ^ 29 ∧ u.me.wait = .idle ∧ handleStale u u.me.vf (u.myReg b).toNat = false ∧
      v.natAt (handleEntry v u.me.vf k + 16) 4 = 0)
    (fun u =>
      let f := u.me.vf
      let k := (u.myReg b).toNat % 2 ^ 16
      let d := handleDw u f k 1
      let v := putHandle u f k 1 (hDw1 (hLen d) (hGen d) true true)
      setSlotFree (putHandle v f k 1 (hDw1 (hLen d) (hGen d + 1) false false)) f k true)
    (fun _ => 0)) ∧
  (∀ a b, DoesTo (.hfree a b) a 1
    (fun u => (u.myReg b).toNat < 2 ^ 29 ∧ (∃ c, u.me.wait = .engine c) ∧
      u.natAt (handleEntry u u.me.vf ((u.myReg b).toNat % 2 ^ 16) + 16) 4 = 0)
    (fun u =>
      let f := u.me.vf
      let k := (u.myReg b).toNat % 2 ^ 16
      let d := handleDw u f k 1
      setSlotFree (putHandle u f k 1 (hDw1 (hLen d) (hGen d + 1) false false)) f k true)
    (fun _ => 0)) ∧
  (∀ a b c, DoesTo (.hbump a b c) a 1
    (fun u =>
      let d := handleDw u u.me.vf ((u.myReg b).toNat % 2 ^ 16) 1
      (u.myReg b).toNat < 2 ^ 29 ∧ handleStale u u.me.vf (u.myReg b).toNat = false ∧
      (u.myReg c).toNat + hLen d ≤ 2 ^ 48)
    (fun u =>
      let f := u.me.vf
      let k := (u.myReg b).toNat % 2 ^ 16
      let d := handleDw u f k 1
      putHandle (putHandle u f k 0 (u.myReg c).toNat) f k 1 (hDw1 (hLen d) (hGen d + 1) true false))
    (fun u =>
      let k := (u.myReg b).toNat % 2 ^ 16
      wNat (k + 2 ^ 16 * ((hGen (handleDw u u.me.vf k 1) + 1) % 4096) + 2 ^ 28 * ((u.myReg b).toNat / 2 ^ 28 % 2))))

/-- Copies are kicked (R281, R285, R286, R298 to R301, R308): the request carries its records, base′ of each, the handles it
holds and the ring it goes to, and the destination takes its identifier. -/
def Obligations.CopiesKicked : Prop :=
  (∀ a b c nt tag hs w, DoesOnceTo (.cpyPk a b c nt tag) a 2
    (fun u =>
      let r := u.regs b 12
      regsOk b 12 = true ∧ layoutOk u r = true ∧ (peerForm u u.cur (u.myReg c)).toNat % rBytes r = 0 ∧
      recHandle r u = .ok hs w ∧ canKick w (homeSlice (clusterOf w.cur)) = true)
    (fun u => copyKicked w
      { op := 0x91, sel := 0, args := u.regs b 12 ++ [u.myReg c], tag := tag.toNat, nt := nt || handleNt (u.regs b 12),
        base := basePrime u (u.regs b 12), base2 := peerForm u u.cur (u.myReg c), handles := hs })
    (fun _ => requestId w w.me.seqCpy)) ∧
  (∀ a b c nt tag hs w, DoesOnceTo (.cpyLand a b c nt tag) a 2
    (fun u =>
      let r := u.regs b 12
      regsOk b 12 = true ∧ layoutOk u r = true ∧ ringOk u ((u.myReg c).toNat % 16) r = true ∧
      recHandle r u = .ok hs w ∧ canKick w (homeSlice (clusterOf w.cur)) = true)
    (fun u => copyKicked w
      { op := 0x91, sel := 1, args := u.regs b 12 ++ [u.myReg c], tag := tag.toNat, nt := nt || handleNt (u.regs b 12),
        base := basePrime u (u.regs b 12), handles := hs, ring := some ((u.myReg c).toNat % 16)
        iter := (u.myReg c).toNat / 16 })
    (fun _ => requestId w w.me.seqCpy)) ∧
  (∀ a b c nt tag hs v hd w, DoesOnceTo (.cpyRec a b c nt tag) a 2
    (fun u =>
      let r := u.regs b 12
      let d := u.regs c 12
      regsOk b 12 = true ∧ regsOk c 12 = true ∧ layoutOk u r = true ∧ layoutOk u d = true ∧
      rFm d = 0 ∧ rFv d = 0 ∧ rBic d = 0 ∧ d.getD 9 0 = r.getD 9 0 ∧ rNib d = rNib r ∧
      recHandle r u = .ok hs v ∧ recHandle d v = .ok hd w ∧ canKick w (homeSlice (clusterOf w.cur)) = true)
    (fun u => copyKicked w
      { op := 0x91, sel := 2, args := u.regs b 12 ++ u.regs c 12, tag := tag.toNat
        nt := nt || handleNt (u.regs b 12) || handleNt (u.regs c 12)
        base := basePrime u (u.regs b 12), base2 := basePrime u (u.regs c 12), handles := hs ++ hd })
    (fun _ => requestId w w.me.seqCpy)) ∧
  (∀ a b c nt tag hs w, DoesOnceTo (.cpyLoop a b c nt tag) a 2
    (fun u =>
      let r := u.regs b 12
      let l := u.regs c 3
      regsOk b 12 = true ∧ regsOk c 3 = true ∧ layoutOk u r = true ∧ loopOk r l = true ∧
      ringOk u ((l.getD 0 0).toNat / 2 ^ 32 % 16) r = true ∧
      recHandle r u = .ok hs w ∧ canKick w (homeSlice (clusterOf w.cur)) = true)
    (fun u => copyKicked w
      { op := 0x92, args := u.regs b 12 ++ u.regs c 3, tag := tag.toNat, nt := nt || handleNt (u.regs b 12)
        base := basePrime u (u.regs b 12), handles := hs, ring := some (((u.regs c 3).getD 0 0).toNat / 2 ^ 32 % 16) })
    (fun _ => requestId w w.me.seqCpy))

/-- The landing-ring instructions complete (R305 to R310). -/
def Obligations.LandingRingsComplete : Prop :=
  (∀ a b c r x y w, DoesOnceTo (.landInit a b c r) a 1
    (fun u =>
      let o := ringOf w (clusterOf w.cur) r.toNat
      pops u b c x y w ∧ ringWordsOk x y = true ∧ o.looping = false ∧ o.inflight = 0 ∧
      ∀ st ∈ o.stages.vals, st.full = false ∧ st.own = 0 ∧ st.bnd = false)
    (fun _ => modRing w (clusterOf w.cur) r.toNat fun _ => { cfg := x, party := y })
    (fun _ => (ringOf w (clusterOf w.cur) r.toNat).cfg)) ∧
  (∀ a b r chk nw k v, DoesOnceTo (.landAcq a b r chk nw) a 3
    (fun u =>
      let x := ringOf v (clusterOf v.cur) r.toNat
      let st := x.stage (k.toNat % x.nst)
      src b u = .ok k v ∧ x.enabled = true ∧ x.anyParty (coreOf v.cur % 8) (slotOf v.cur) = true ∧
      x.matchesParty st.own (coreOf v.cur % 8) (slotOf v.cur) = true ∧
      (0 < st.own ∨ st.full = false ∧ st.bnd = false) ∧ (chk = true → 0 < st.own → st.tag = k.toNat % 2 ^ 16))
    (fun _ => v)
    (fun _ =>
      let x := ringOf v (clusterOf v.cur) r.toNat
      wNat (0xFFFF200000000000 + x.base (k.toNat % x.nst)))) ∧
  (∀ a b r chk k v, DoesOnceTo (.landAcq a b r chk true) a 3
    (fun u =>
      let x := ringOf v (clusterOf v.cur) r.toNat
      let st := x.stage (k.toNat % x.nst)
      src b u = .ok k v ∧ x.enabled = true ∧ x.anyParty (coreOf v.cur % 8) (slotOf v.cur) = true ∧
      (x.matchesParty st.own (coreOf v.cur % 8) (slotOf v.cur) = false ∨ st.own = 0 ∧ (st.full = true ∨ st.bnd = true)))
    (fun _ => v) (fun _ => 0)) ∧
  (∀ b r k v, DoesOnce (.landRel b r)
    (fun u =>
      let x := ringOf v (clusterOf v.cur) r.toNat
      let st := x.stage (k.toNat % x.nst)
      src b u = .ok k v ∧ x.enabled = true ∧ x.matchesParty st.own (coreOf v.cur % 8) (slotOf v.cur) = true ∧
      (0 < st.own ∨ st.full = false ∧ st.bnd = false))
    (fun _ =>
      let x := ringOf v (clusterOf v.cur) r.toNat
      let k := k.toNat
      modRing v (clusterOf v.cur) r.toNat fun y =>
        if (x.stage (k % x.nst)).own = 0 then y.setStage (k % x.nst) { full := true, own := 1, bnd := false, tag := k % 2 ^ 16 }
        else y.release (k % x.nst)))

/-- A Barge's microcode instructions complete (R317 to R319). -/
def Obligations.BargeMicrocodeCompletes : Prop :=
  (∀ a nw k r rest, Does (.bget a nw)
    (fun u =>
      let e := u.engine (hartIx u.cur)
      regsOk a 4 = true ∧ freeSlotOf e = some k ∧ (if fromForward e then e.fwd else e.queue) = r :: rest)
    (fun u =>
      let f := fromForward (u.engine (hartIx u.cur))
      let v := u.modMine fun e => { e with
        slots := e.slots.put k r, sel := k, lastFwd := f
        queue := if f then e.queue else rest, fwd := if f then rest else e.fwd }
      landRegs (v.modProc u.cur fun p => { p with vf := r.vf }) a (requestWords r))) ∧
  (∀ a, Does (.bget a true)
    (fun u =>
      let e := u.engine (hartIx u.cur)
      regsOk a 4 = true ∧ e.fwd = [] ∧ e.queue = [])
    (fun u => landRegs u a [0, 0, 0, 0])) ∧
  (∀ a b c d r v f, Does (.bstreamMove a b c d)
    (fun u => isReg a ∧ mySlot u = some r ∧ r.killed = false ∧ r.canc = false ∧ u.copiesFrozen (clusterOf r.q) = false ∧
      copyRun u (hartIx u.cur) r (u.myReg d).toNat (u.myReg b).toNat
        (min (u.myReg c).toNat (rCount r.source - (u.myReg b).toNat)) = (v, f) ∧ ∀ code j, f = some (code, j) → isWait code = false)
    (fun u =>
      let w := ownStores u v u.cur (myEngine u).sel
      match f with
      | none => w.landG 1 a 0
      | some (code, j) => (forgetStalls w u.cur code).landG 1 a (wNat (code + 2 ^ 8 * j)))) ∧
  (∀ a b c d r, Does (.bstreamMove a b c d)
    (fun u => isReg a ∧ mySlot u = some r ∧ (r.killed = true ∨ r.canc = true))
    (fun u => u.landG 1 a (wNat ((if r.killed then 0x91 else 0x64) + 2 ^ 8 * ((u.myReg b).toNat % 2 ^ 32))))) ∧
  (∀ a r w, Does (.bstreamOwner a)
    (fun u => isReg a ∧ mySlot u = some r ∧ workingBarge u (hartIx u.cur) r = .ok w) (fun u => u.landG 1 a (wNat w))) ∧
  (∀ b r, Does (.bstreamFwd b)
    (fun u => mySlot u = some r ∧ r.fwd = false ∧ bargeRuns u (u.myReg b).toNat ∧ (u.engine (u.myReg b).toNat).fwd.length < 64)
    (fun u => (u.modMine fun e => { e with slots := e.slots.del e.sel }).modEngine (u.myReg b).toNat fun e =>
      { e with fwd := e.fwd ++ [{ r with fwd := true }] })) ∧
  (∀ a b r n, Does (.blandWait a b)
    (fun u => isReg a ∧ mySlot u = some r ∧ r.killed = false ∧ r.canc = false ∧ r.park = false ∧ r.ring = some n ∧
      (ringOf u (clusterOf r.q) n).writable ((u.myReg b).toNat % (ringOf u (clusterOf r.q) n).nst) = true)
    (fun u =>
      let st := (u.myReg b).toNat % (ringOf u (clusterOf r.q) n).nst
      ((modRing u (clusterOf r.q) n fun x => x.bind ((u.myReg b).toNat % x.nst)).modMine fun e =>
        { e with slots := e.slots.put e.sel { r with bound := some st, iter := (u.myReg b).toNat } }).landG 1 a 0)) ∧
  (∀ b r n, Does (.blandFill b)
    (fun u => mySlot u = some r ∧ r.ring = some n ∧
      ((ringOf u (clusterOf r.q) n).stage ((u.myReg b).toNat % (ringOf u (clusterOf r.q) n).nst)).bnd = true)
    (fun u => (modRing u (clusterOf r.q) n fun x => x.fill ((u.myReg b).toNat % x.nst) (u.myReg b).toNat).modMine fun e =>
      { e with slots := e.slots.put e.sel { r with bound := none, iter := (u.myReg b).toNat + 1 } })) ∧
  (∀ b c r, Does (.blandDone b c) (fun u => mySlot u = some r ∧ storesDone u u.cur (myEngine u).sel = true)
    (fun u => post (releaseHolds ((leaveCopy (dropStores u u.cur (myEngine u).sel) (hartIx u.cur) r
        (leftBy r ((u.myReg b).toNat % 2 ^ 8) ((u.myReg c).toNat % 2 ^ 30))).modEngine (hartIx u.cur) fun e =>
          { e with slots := e.slots.del (myEngine u).sel }) r) (hartIx u.cur) r
      (frameOf ((u.myReg b).toNat % 2 ^ 8) 0 r.rid.toNat (hartIx u.cur) (r.tag + 2 ^ 32 * ((u.myReg c).toNat % 2 ^ 30)))))

/-- The transform unit's instructions complete (R269 to R271, R280): XREQ answers the offer, XSTAT tells the core's slots,
claim and responses. -/
def Obligations.TransformRequestsComplete : Prop :=
  (∀ a b k tag w, DoesTo (.xreq a b) a 2 (fun u => offer (u.myReg b) u = .ok (.accepted k tag) w)
    (fun _ => w) (fun _ => wNat (1 + 2 * k + 2 ^ 8 * tag))) ∧
  (∀ a b w, DoesTo (.xreq a b) a 2 (fun u => offer (u.myReg b) u = .ok .full w) (fun _ => w) (fun _ => 0)) ∧
  (∀ a b n w, DoesTo (.xreq a b) a 2 (fun u => offer (u.myReg b) u = .ok (.busy n) w) (fun _ => w) (fun _ => wNat (2 + 4 * n))) ∧
  (∀ a, DoesTo (.xstat a) a 1 (fun _ => True) id (fun u =>
    let g := coreOf u.cur
    let c := lapsed (u.cluster (g / 8)) u.tide.toNat
    let claim := c.xclaims.contains g
    wNat ((c.xslots.filter fun e => e.2.core == g).length + 2 ^ 3 * b2n claim +
      2 ^ 4 * b2n (c.xheld.any fun h => h.2.1 == g) +
      2 ^ 5 * (if claim then (c.xclaims.takeWhile (· != g)).length else 0) + 2 ^ 8 * u.myCore.xq.length)))

/-- LAUNCH, EVSIG, EVWAIT, LQSTAT and YIELD complete (R245 to R249): LAUNCH stores the record in the queue's slot with its
position, adds one to the tail and kicks the Ferryman; EVSIG adds one to its word and gives the old value; EVWAIT goes on once
the word has reached the target; LQSTAT gives the state of the queue; YIELD parks behind a pending pre-emption. -/
def Obligations.LaunchHeadsComplete : Prop :=
  (∀ a b q ds u1 r u2 pa u3 u4, DoesOnceTo (.launch a b q) a 2
    (fun u =>
      let va := queueVa u u.me.vf q.toNat
      let d : QDesc := ⟨ds⟩
      q.toNat ≤ 15 ∧ (u.vfOf u.me.vf).qtab ≠ 0 ∧ loadDws va 8 u = .ok ds u1 ∧ d.ok = true ∧ d.en = true ∧ d.hostq = false ∧
      loadDws (u.myReg b) 15 u1 = .ok r u2 ∧ tailPlace (va + 16) u2 = .ok pa u3 ∧ (d.tail - d.head).toNat < 2 ^ d.lcap ∧
      putImage u3 u.cur u.me.vf (d.slot d.tail) (r.take 15 ++ [d.tail + 1]) = .ok u4 ∧
      jettyFull u2 (coreOf u.cur) = false ∧ canKick (atomicAt u4 (leader u4 u.cur) 0 pa 0 8 false 1 0).2 ferryman = true)
    (fun u =>
      let t := (QDesc.mk ds).tail
      raiseEvent (kicked (atomicAt u4 (leader u4 u.cur) 0 pa 0 8 false 1 0).2 ferryman
        { op := 0x89, sel := q.toNat, rid := wNat (t.toNat % 2 ^ 32), tag := t.toNat / 2 ^ 32 })
        { kind := 1, vf := u.me.vf, queue := q.toNat })
    (fun _ => (QDesc.mk ds).tail)) ∧
  (∀ a b sc imm pa w, DoesTo (.evsig a b sc imm) a 1
    (fun u =>
      let v := u.released sc
      ordered u sc true = true ∧ decodeVa v v.cur v.me.vf (u.ea b imm).toNat = some .global ∧
      check (u.ea b imm) 8 8 .atomic v = .ok (.own pa) w ∧ isWcPage w (u.ea b imm).toNat = false)
    (fun u => eventChanged (logAtomic (performAt w pa (leBytes 8 ((w.natAt pa 8 + 1) % 2 ^ 64)))
      (ownerSlice pa) (leader w w.cur) 0) w.me.vf (u.ea b imm))
    (fun _ => wNat (w.natAt pa 8))) ∧
  (∀ a b sc imm x v pa w, Does (.evwait a b sc imm)
    (fun u => ordered u sc false = true ∧ src a u = .ok x v ∧ (∀ l, v.me.wait ≠ .ev l false) ∧
      watchTarget (v.ea b imm) 8 v = .ok pa w ∧ x.toNat ≤ w.natAt pa 8)
    (fun _ => w)) ∧
  (∀ a q, DoesTo (.lqstat a q) a 1 (fun _ => q.toNat ≤ 15) id (fun u => wNat (lqstat u u.me.vf q.toNat))) ∧
  DoesOnce .yieldOp (fun _ => True) id (fun u => { after := if u.myCore.preempt then .parked else .idle })

/-- The Ferryman's instructions complete (R250, R251): DTAKE gives the oldest event, or zero after its bound; DPLACE starts a
cluster, marks it for pre-emption, writes its state once it is at rest, restores it, or ends it. The model's choices it
rests on: log entry 36. -/
def Obligations.FerrymanMicrocodeCompletes : Prop :=
  (∀ a t e rest, DoesTo (.dtake a t) a 1 (fun u => u.devents = e :: rest)
    (fun u => ({ u with devents := rest } : State).modProc u.cur fun p => { p with vf := e.vf })
    (fun _ => wNat (e.kind + 2 ^ 8 * (e.vf % 64) + 2 ^ 14 * (e.queue % 16) + 2 ^ 32 * (e.ln % 2 ^ 32)))) ∧
  (∀ a t c, DoesTo (.dtake a t) a 1
    (fun u => u.devents = [] ∧ u.me.wait = .engine c ∧ t ≠ 0 ∧ c.toNat + 1024 * t.toNat ≤ u.tide.toNat) id (fun _ => 0)) ∧
  (∀ a b c lc v r w, DoesTo (.dplaceStart a b c lc) a 1
    (fun u =>
      let gc := (u.myReg c).toNat
      let l : Launch := { vf := u.me.vf, queue := 16, pos := (r.getD 16 0).toNat % 2 ^ 32, rec16 := r.take 16
                          ln := (r.getD 16 0).toNat % 2 ^ 32 }
      (u.vfOf u.me.vf).grant.contains gc = true ∧ readDws u u.cur u.me.vf (u.myReg b) 17 = .ok (v, r) ∧
      checkTarget (startCluster (joinLaunch v l gc lc.toNat) l gc lc.toNat) (ctl (8 * gc)) (l.dw 0) = .ok w)
    (fun _ => w) (fun _ => 0)) ∧
  (∀ a b c lc, DoesTo (.dplacePreq a b c lc) a 1
    (fun u => (u.vfOf u.me.vf).grant.contains (u.myReg c).toNat = true)
    (fun u => (List.range 8).foldl (fun t k => t.modCore (8 * (u.myReg c).toNat + k) fun x => { x with preempt := true }) u)
    (fun _ => 0)) ∧
  (∀ a b c lc w, DoesTo (.dplaceSave a b c lc) a 1
    (fun u =>
      let gc := (u.myReg c).toNat
      let v := restCluster u gc ((u.vfOf u.me.vf).sch0.getLsbD 8)
      (u.vfOf u.me.vf).grant.contains gc = true ∧
      (∀ g ∈ coresOf gc, (u.core g).parked = true ∧ ∀ k, k < 11 → mustFinish (u.proc (ctl g + k)) = false) ∧
      atRest v gc = true ∧ saveCluster v gc (vclOf u u.me.vf gc) u.me.vf (u.myReg b) = .ok w)
    (fun u => clearCluster (emptyQueue w (u.myReg c).toNat) (u.myReg c).toNat) (fun _ => 0)) ∧
  (∀ a b c lc v d w, DoesTo (.dplaceRest a b c lc) a 1
    (fun u => (u.vfOf u.me.vf).grant.contains (u.myReg c).toNat = true ∧
      readDws u u.cur u.me.vf (u.myReg b + wNat (266240 + 8 * 7793)) 1 = .ok (v, d) ∧
      restoreCluster u (u.myReg c).toNat u.me.vf ((d.getD 0 0).toNat % 2 ^ 32) (u.myReg b) = .ok w)
    (fun _ => w) (fun _ => 0)) ∧
  (∀ a b c lc t, DoesTo (.dplaceKill a b c lc) a 1
    (fun u => (u.vfOf u.me.vf).grant.contains (u.myReg c).toNat = true ∧ u.me.wait = .engine t ∧
      killDone u (u.myReg c).toNat = true)
    (fun u => clearCluster u (u.myReg c).toNat) (fun _ => 0))

/-- Jobs are kicked, followed, cancelled and drained (R328, R330, R334). -/
def Obligations.JobHeadsComplete : Prop :=
  (∀ a b hs w, DoesOnceTo (.pjob a b) a 2
    (fun u =>
      let r : Request := { op := 0x9F, vrec := u.me.r.readV b.toNat }
      let hdl := (r.dw 7).toNat % 2 ^ 32
      let gc := clusterOf w.cur
      jobRecBad r = false ∧
      (r.wk = false → inEngineSpace u (r.dw 1) = true ∧ (r.dw 1).toNat % 32 = 0) ∧
      (r.ik = false → inEngineSpace u (r.dw 2) = true ∧ (r.dw 2).toNat % 32 = 0) ∧
      (r.scm = true → (r.dw 4).toNat % 4 = 0) ∧ hdl < 2 ^ 29 ∧
      takeHandle hdl (r.dw 1).toNat ((r.dw 1).toNat + 1024 * r.kst) u = .ok hs w ∧
      (r.wk = true → kind2Ring (ringOf w gc ((r.dw 3).toNat % 16)) 1024 = true) ∧
      (r.ik = true → kind2Ring (ringOf w gc ((r.dw 3).toNat / 2 ^ 8 % 16)) (32 * r.depth) = true) ∧
      (r.oen = true → handlerRing (ringOf w gc r.orng) = true) ∧ canKick w (seqHart gc) = true)
    (fun u =>
      let r : Request := { op := 0x9F, vrec := u.me.r.readV b.toNat }
      let hdl := (r.dw 7).toNat % 2 ^ 32
      let m := captureMode u.me.r.fcsr ((r.dw 0).toNat / 2 ^ 32 % 8)
      engineKicked u w (seqHart (clusterOf w.cur)) u.me.seqJob (fun n p => { p with seqJob := n }) m (m == 5)
        { r with base := (if hdl = 0 then 0 else wNat (handleDw u u.me.vf (hdl % 65536) 0)) + r.dw 1, handles := hs })
    (fun u => requestId u u.me.seqJob)) ∧
  (∀ a b, DoesTo (.ppoll a b) a 2 (fun u => (u.myReg b).toNat < 2 ^ 20) id (fun u =>
    let po := u.myPontoon
    let rid := u.myReg b
    let mine := isJobOf (coreOf u.cur) rid
    if (u.engine (seqHart (clusterOf u.cur))).queue.any mine then 0
    else if (po.tail.map fun j => mine j.req).getD false then 3
    else match po.job with
      | none => 4
      | some j => if mine j.req = false then 4 else if j.ksteps = j.req.kst then 3 else if j.parked ≠ 0 then 2 else 1)) ∧
  (∀ a b rid g, Awaits (.pwait a b) a (fun u => u.myReg b = rid ∧ rid.toNat < 2 ^ 20 ∧ coreOf u.cur = g)
    (fun u => jobOutstanding u g rid)) ∧
  (∀ a b rid g, Awaits (.pcan a b) a (fun u => u.myReg b = rid ∧ rid.toNat < 2 ^ 20 ∧ coreOf u.cur = g)
    (fun u => jobOutstanding u g rid)) ∧
  (∀ a b rid g, DoesTo (.pcan a b) a 1
    (fun u => u.myReg b = rid ∧ rid.toNat < 2 ^ 20 ∧ coreOf u.cur = g ∧ (∀ t, u.me.wait ≠ .engine t) ∧ u.me.pcan = none ∧
      queueFull u (seqHart (g / 8)) = false ∧ jobOutstanding u g rid = true ∧ jobOutstanding (cancelJob g rid u) g rid = false)
    (fun u => notCancelling (cancelJob g rid u)) (fun _ => 0)) ∧
  (∀ r, Does .prowgoDrop (fun u => u.me.row = some r ∧ r.released = false) (fun u => releaseRow u u.cur none)) ∧
  (∀ r, Does .prowgoMem (fun u => u.me.row = some r ∧ r.released = false) (fun u => releaseRow u u.cur none)) ∧
  (∀ b r x v, Does (.prowgoLand b) (fun u => u.me.row = some r ∧ r.released = false ∧ r.land.isSome = true ∧ src b u = .ok x v)
    (fun _ => releaseRow v v.cur (some x.toNat)))

/-- The tuning instructions complete (R345 to R351). The model's choices it rests on: log entries 3, 43. -/
def Obligations.TuningCompletes : Prop :=
  let heats := fun (u : State) (a : BitVec 6) (x : Nat) (v : Int) =>
    let h := (max 0 (min v 4095)).toNat
    (u.modMyPontoon fun po => setHeater po u.tide x h).landG 1 a (wNat (h + 2 ^ 12 * b2n (decide ((h : Int) ≠ v))))
  (∀ a b, Does (.pheatSet a b)
    (fun u => (u.myReg b).toNat < 1024 ∧ tuneRefused u (clusterOf u.cur) = false ∧ (u.myReg a).toNat < 4096)
    (fun u => heats u a (u.myReg b).toNat (u.myReg a).toNat)) ∧
  (∀ a b, Does (.pheatAdd a b) (fun u => (u.myReg b).toNat < 1024 ∧ tuneRefused u (clusterOf u.cur) = false)
    (fun u => heats u a (u.myReg b).toNat ((u.myPontoon.heat.get (u.myReg b).toNat 0 : Int) + (u.myReg a).toInt))) ∧
  (∀ a b, Does (.pheatSet a b) (fun u => (u.myReg b).toNat < 1024 ∧ tuneRefused u (clusterOf u.cur) = true)
    (fun u => u.landG 1 a (wNat (2 ^ 13)))) ∧
  (∀ a b, Does (.pheatAdd a b) (fun u => (u.myReg b).toNat < 1024 ∧ tuneRefused u (clusterOf u.cur) = true)
    (fun u => u.landG 1 a (wNat (2 ^ 13)))) ∧
  (∀ a b, DoesTo (.pmonRing a b) a 1 (fun u => (u.myReg b).toNat < 1024) id
    (fun u => w64 (u.myPontoon.det.get (u.myReg b).toNat 0))) ∧
  (∀ a b, DoesTo (.pmonBank a b) a 1 (fun u => (u.myReg b).toNat < 1024) id
    (fun u => wNat (estimate u.myPontoon ((u.myReg b).toNat / 32)))) ∧
  (∀ a b, DoesTo (.pmonTemp a b) a 1 (fun u => (u.myReg b).toNat < 1024)
    (fun u => { u with freeCtr := u.freeCtr + 1 }) (fun u => wNat (Config.freeNat u.freeCtr % 2 ^ 16))) ∧
  (∀ a b go t, DoesTo (.psettle a b go t) a 1
    (fun u => t ≠ 0 ∧ ∀ i, i < 32 → (u.myReg b).getLsbD i = true → u.myPontoon.settled.contains i = true)
    (fun u => (settleEnd u (clusterOf u.cur) go).1) (fun u => wNat (settleEnd u (clusterOf u.cur) go).2)) ∧
  (∀ (i : Instr) a (full : Bool), i = (if full then .pcalFull a else .pcalOfs a) → DoesTo i a 1
    (fun u => (∀ c, u.me.wait ≠ .busy c) ∧ (calRefused u.myPontoon = true ∨ u.myPontoon.pcal.isSome = true)) id (fun _ => 1)) ∧
  (∀ (i : Instr) a (full : Bool) c v, i = (if full then .pcalFull a else .pcalOfs a) → DoesTo i a 1
    (fun u => u.me.wait = .busy c ∧ u.myPontoon.pcal = none ∧ u.myPontoon.pcalDone = some (u.cur, v))
    (fun u => u.modMyPontoon fun po => { po with pcalDone := none }) (fun _ => wNat v)) ∧
  (∀ (i : Instr) a (full : Bool) c v, i = (if full then .pcalFull a else .pcalOfs a) → DoesTo i a 1
    (fun u => u.me.wait = .busy c ∧ u.myPontoon.pcal = some (full, u.cur) ∧
      c.toNat + (if full then 2400000 else 60000) ≤ u.tide.toNat ∧ (endCal u (clusterOf u.cur)).myPontoon.pcalDone = some (u.cur, v))
    (fun u => (endCal u (clusterOf u.cur)).modMyPontoon fun po => { po with pcalDone := none }) (fun _ => wNat v)) ∧
  (∀ a b, DoesTo (.pmapRd a b) a 1 (fun u => (u.myReg b).toNat < 1024) id
    (fun u => wNat (sigmaOf u.myPontoon (u.myReg b).toNat))) ∧
  (∀ a b, DoesTo (.pmapSwap a b) a 1
    (fun u => (u.myReg b).toNat < 1024 ∧ (u.myReg b).toNat % 32 ≠ 31 ∧ tuneRefused u (clusterOf u.cur) = false)
    (fun u => u.modMyPontoon fun po => (swapLines po u.tide (u.myReg b).toNat).1)
    (fun u =>
      let r := swapLines u.myPontoon u.tide (u.myReg b).toNat
      wNat (sigmaOf u.myPontoon ((u.myReg b).toNat + 1) + 2 ^ 12 * b2n r.2))) ∧
  (∀ a b, DoesTo (.pmapIdent a b) a 1
    (fun u => (u.myReg b).toNat < 1024 ∧ (u.myReg b).toNat % 32 = 0 ∧ tuneRefused u (clusterOf u.cur) = false)
    (fun u => u.modMyPontoon fun po => (identBank po u.tide (u.myReg b).toNat).1)
    (fun u => wNat (2 ^ 12 * b2n (identBank u.myPontoon u.tide (u.myReg b).toNat).2))) ∧
  (∀ a b, DoesTo (.pmapSwap a b) a 1
    (fun u => (u.myReg b).toNat < 1024 ∧ (u.myReg b).toNat % 32 ≠ 31 ∧ tuneRefused u (clusterOf u.cur) = true)
    id (fun _ => wNat (2 ^ 13))) ∧
  (∀ a b, DoesTo (.pmapIdent a b) a 1
    (fun u => (u.myReg b).toNat < 1024 ∧ (u.myReg b).toNat % 32 = 0 ∧ tuneRefused u (clusterOf u.cur) = true)
    id (fun _ => wNat (2 ^ 13))) ∧
  (∀ a sel, DoesTo (.pstat a sel) a 2 (fun _ => sel.toNat ≤ 4) id
    (fun u => wNat (pstatWord u (clusterOf u.cur) sel.toNat))) ∧
  (∀ a b, DoesTo (.paccRdN a b) a 1 (fun u => (u.myReg b).toNat < 2 ^ 11) id (fun u =>
    let x := (u.myReg b).toNat
    match parkedAcc u.myPontoon with
    | some (d, n, _) => if x % 64 < d then w64 (n.get (64 * (x / 64) + x % 64) 0) else wNat (2 ^ 63)
    | none => wNat (2 ^ 63))) ∧
  (∀ a b, DoesTo (.paccRdP a b) a 1 (fun u => (u.myReg b).toNat < 2 ^ 11) id (fun u =>
    let x := (u.myReg b).toNat
    match parkedAcc u.myPontoon with
    | some (d, _, p) => if x % 64 < d then wNat (p.get (64 * (x / 64) + x % 64) 0) else wNat (2 ^ 63)
    | none => wNat (2 ^ 63)))

/-- The tow reader's instructions complete (R355 to R357, R381 to R383). -/
def Obligations.TowHeadsComplete : Prop :=
  (∀ a b c rr v w, DoesOnceTo (.towEnter a b c) a 2
    (fun u =>
      let r : Request := { op := 0xAB, vrec := u.me.r.readV b.toNat }
      let x := u.myReg c
      let first := if x = 0 then r.dw 0 else wNat ((rr.getD 0 0 : Word).toNat / 2 ^ 6 % 2 ^ 42 * 64)
      towRecBad r = false ∧ (r.dw 0).toNat < 2 ^ 48 ∧ inEngineSpace u (r.dw 5) = true ∧
      (if x = 0 then rr = [] ∧ v = u
       else ∃ l u1 n, check x 64 64 .load u = .ok l u1 ∧ readLoc x l 64 u1.cur u1 = .ok n v ∧
         rr = (List.range 8).map fun i => wNat (n / 2 ^ (64 * i) % 2 ^ 64)) ∧
      (∃ p, translate v (hartQOf (seqHart (clusterOf v.cur))) u.me.vf first.toNat .tow = .ok (w, p)) ∧
      ((r.dw 4).getLsbD 4 = true → handlerRing (ringOf w (clusterOf w.cur) ((r.dw 4).toNat % 16)) = true) ∧
      canKick w (seqHart (clusterOf v.cur)) = true)
    (fun u =>
      let r : Request := { op := 0xAB, vrec := u.me.r.readV b.toNat }
      let m := captureMode u.me.r.fcsr ((r.dw 1).toNat / 2 ^ 15 % 8)
      engineKicked u w (seqHart (clusterOf v.cur)) u.me.seqTow (fun n p => { p with seqTow := n }) m (u.myReg c == 0 && m == 5)
        { r with args := u.myReg c :: rr })
    (fun u => requestId u u.me.seqTow)) ∧
  (∀ a b rid g, Awaits (.towExit a b) a (fun u => u.myReg b = rid ∧ rid.toNat < 2 ^ 20 ∧ coreOf u.cur = g)
    (fun u => towQueued u g rid || (towNamed u g rid).isSome)) ∧
  (∀ a b rid g, DoesTo (.towExit a b) a 1
    (fun u => u.myReg b = rid ∧ rid.toNat < 2 ^ 20 ∧ coreOf u.cur = g ∧ (∀ t, u.me.wait ≠ .engine t) ∧ u.me.pcan = none ∧
      queueFull u (seqHart (g / 8)) = false ∧ (towQueued u g rid || (towNamed u g rid).isSome) = true ∧
      towQueued (exitTow g rid u) g rid = false ∧ towNamed (exitTow g rid u) g rid = none)
    (fun u => notCancelling (exitTow g rid u)) (fun _ => 0)) ∧
  (∀ a b rid g, Awaits (.towWait a b) a (fun u => u.myReg b = rid ∧ rid.toNat < 2 ^ 20 ∧ coreOf u.cur = g)
    (fun u => towOutstanding u g rid)) ∧
  (∀ a b, DoesTo (.towStat a b) a 2 (fun u => (u.myReg b).toNat < 2 ^ 20) id
    (fun u => wNat (towStat u (coreOf u.cur) (u.myReg b))))

/-- Ford's instructions complete on an attachment that the agent may name (R410 to R416): enrolment, its end, the three
collectives, the census, training and the status. The model's choices it rests on: log entries 45, 46. -/
def Obligations.FordHeadsComplete : Prop :=
  (∀ a b att n, DoesTo (.fenrol a b att n) a 1
    (fun u => 1 ≤ n.toNat ∧ n.toNat ≤ 1024 ∧ granted u att.toNat = true ∧ (u.myReg b).toNat < 2 ^ 48 ∧
      (u.myReg b).toNat % 65536 = 0 ∧ enrolRefusal u att.toNat = none)
    (fun u => u.modFord att.toNat fun p => { p with
      enr := some (enrolment u), nent := n.toNat, base := u.myReg b, censusOk := p.censusOk && p.enr.isSome })
    (fun _ => 0)) ∧
  (∀ a b att n v, DoesTo (.fenrol a b att n) a 1
    (fun u => 1 ≤ n.toNat ∧ n.toNat ≤ 1024 ∧ granted u att.toNat = true ∧ (u.myReg b).toNat < 2 ^ 48 ∧
      (u.myReg b).toNat % 65536 = 0 ∧ enrolRefusal u att.toNat = some v)
    id (fun _ => wNat v)) ∧
  (∀ a att, DoesTo (.fleave a att) a 1
    (fun u => granted u att.toNat = true ∧ (u.ford att.toNat).enr ≠ some (enrolment u)) id (fun _ => 1)) ∧
  (∀ a att, DoesTo (.fleave a att) a 1
    (fun u => granted u att.toNat = true ∧ (u.ford att.toNat).enr = some (enrolment u) ∧
      fordBusyFor u att.toNat (enrolment u) = false)
    (fun u => u.modFord att.toNat fun p => { p with enr := none, nent := 0, base := 0 }) (fun _ => 0)) ∧
  (∀ (i : Instr) a b c (rm : BitVec 3) ent att op,
    (i = .frb a b c rm ent att ∧ op = 0xB1 ∨ i = .fmax a b c ent att ∧ op = 0xB2 ∧ rm = 0 ∨
      i = .fmin a b c ent att ∧ op = 0xB3 ∧ rm = 0) →
    DoesOnceTo i a 2
      (fun u => regsOk b 4 = true ∧ granted u att.toNat = true ∧ (u.ford att.toNat).enr = some (enrolment u) ∧
        ent.toNat < (u.ford att.toNat).nent ∧ canKick u (fordHart att.toNat) = true)
      (fun u =>
        let m := captureMode u.me.r.fcsr rm.toNat
        engineKicked u u (fordHart att.toNat) u.me.seqFord (fun n p => { p with seqFord := n }) m (op == 0xB1 && m == 5)
          { op := op, sel := ent.toNat, base := (u.ford att.toNat).base
            args := ((u.regs b 4).map (peerForm u u.cur)) ++ [u.myReg c] })
      (fun u => requestId u u.me.seqFord)) ∧
  (∀ a att, DoesTo (.fpop a att) a 2 (fun u => granted u att.toNat = true) id (fun u =>
    let p := u.ford att.toNat
    wNat (((List.range 64).filter fun i => p.census.getLsbD i).length + 2 ^ 63 * b2n (!p.censusOk)))) ∧
  (∀ a att t v, DoesTo (.falign a att t) a 1
    (fun u => t ≠ 0 ∧ granted u att.toNat = true ∧ (∀ c, u.me.wait ≠ .busy c) ∧ alignRefused u att.toNat = some v)
    id (fun _ => wNat v)) ∧
  (∀ a att t c v, DoesTo (.falign a att t) a 1
    (fun u => t ≠ 0 ∧ granted u att.toNat = true ∧ u.me.wait = .busy c ∧ (u.ford att.toNat).trained.find u.cur = some v)
    (fun u => u.modFord att.toNat fun p => { p with trained := p.trained.del u.cur }) (fun _ => wNat v)) ∧
  (∀ a att t c, DoesTo (.falign a att t) a 1
    (fun u => t ≠ 0 ∧ granted u att.toNat = true ∧ u.me.wait = .busy c ∧ (u.ford att.toNat).trained.find u.cur = none ∧
      c.toNat + 1024 * t.toNat ≤ u.tide.toNat)
    (fun u => u.modFord att.toNat fun p => { p with training := p.training.erase u.cur }) (fun _ => 2)) ∧
  (∀ a att sel, DoesTo (.fstat a att sel) a 2 (fun u => sel.toNat ≤ 3 ∧ granted u att.toNat = true) id
    (fun u => wNat (fstatWord u att.toNat sel.toNat)))

/-- A Ford port engine's instructions complete (R418, R419). -/
def Obligations.FordMicrocodeCompletes : Prop :=
  let at_ := fun (u : State) => hartIx u.cur - 13440
  (∀ a r v w j, Does (.femitTake a)
    (fun u => popFord u (at_ u) = some (r, v) ∧ takeFord v (at_ u) r = (w, j) ∧ j.waits = none)
    (fun u => ((setHand w (at_ u) j).modProc w.cur fun p => { p with vf := r.vf }).landG 1 a
      (wNat ((r.op - 0xB0) + 2 ^ 2 * b2n j.fromTow + 2 ^ 16 * (r.rid.toNat % 2 ^ 32) + 2 ^ 56 * j.fail.getD 0)))) ∧
  (∀ a b j w j', Does (.femitLoad a b)
    (fun u => u.hand = some j ∧ u.myReg b = 0 ∧ loadFord u (at_ u) j = (w, j') ∧ j'.waits = none)
    (fun u => (setHand w (at_ u) j').landG 1 a (wNat (j'.fail.getD 0)))) ∧
  (∀ a b j, Does (.femitLoad a b) (fun u => u.hand = some j ∧ u.myReg b = 1)
    (fun u => (setHand u (at_ u) (realign j)).landG 1 a 0)) ∧
  (∀ a b j c, Does (.femitFrame a b)
    (fun u => u.hand = some j ∧ (∀ t, u.me.wait ≠ .engine t) ∧ (u.myReg b).toNat < j.total ∧ j.fail = some c)
    (fun u => u.landG 1 a (wNat (c + 2 ^ 25 * b2n j.late)))) ∧
  (∀ a b j, Does (.femitFrame a b)
    (fun u => u.hand = some j ∧ (∀ t, u.me.wait ≠ .engine t) ∧ (u.myReg b).toNat < j.total ∧ j.fail = none ∧ j.fbk = true ∧
      j.frames = j.total)
    (fun u => u.landG 1 a 0)) ∧
  (∀ a b j, Does (.femitFrame a b)
    (fun u => u.hand = some j ∧ (∀ t, u.me.wait ≠ .engine t) ∧ (u.myReg b).toNat < j.total ∧ j.fail = none ∧ j.fbk = false ∧
      j.start (u.myReg b).toNat < leadTick u (at_ u))
    (fun u => (setHand u (at_ u)
        { j with fail := some FORD_GUARD, late := true, failFrame := (u.myReg b).toNat }).landG 1 a (wNat (FORD_GUARD + 2 ^ 25)))) ∧
  (∀ a b j t, Does (.femitFrame a b)
    (fun u => u.hand = some j ∧ u.me.wait = .engine t ∧ (j.want = none ∨ j.fail.isSome = true))
    (fun u => u.landG 1 a
      (wNat (j.fail.getD 0 + (if j.fail = some FORD_GUARD then 2 ^ 8 * j.failWin + 2 ^ 24 * b2n j.pop else 0) +
        2 ^ 16 * j.used.foldl (· + ·) 0 + 2 ^ 25 * b2n j.late)))) ∧
  (∀ a b j w c, Does (.femitDone a b)
    (fun u => u.hand = some j ∧ finishFord u (at_ u) j ((u.myReg b).toNat % 2 ^ 8) = (w, some c))
    (fun _ => w.landG 1 a (wNat c))) ∧
  (∀ a b c j, Does (.fcountRd a b c) (fun u => u.hand = some j) (fun u =>
    let n := (u.myReg b).toNat
    let x := (u.myReg c).toNat
    u.landG 1 a (if n < j.used.length ∧ x % 4 ≤ 2 ∧ x / 2 ^ 7 % 4 ≤ 2 ∧ x < 2 ^ 9 then
      if j.used.getD n 0 < x / 2 ^ 7 then 0 else wNat (j.last.getD ((3 * n + x / 2 ^ 7) * 96 + 32 * (x % 4) + x / 4 % 32) 0) else wNat (2 ^ 63)))) ∧
  (∀ a b j, Does (.fcountEl a b) (fun u => u.hand = some j) (fun u =>
    u.landG 1 a (match j.res[(u.myReg b).toNat]? with
      | some x => w64 (agreedElem j x)
      | none => wNat (2 ^ 63)))) ∧
  (∀ a b j, Does (.fcountEx a b) (fun u => u.hand = some j) (fun u =>
    u.landG 1 a (match j.agreed[(u.myReg b).toNat]? with
      | some x => wNat x
      | none => wNat (2 ^ 63))))

/-- RTV, LNKST, TTSEL and PILOTST complete (R426, R431, R438, R440): TTSEL arms a switch with a well-formed version whose
route version is staged, for a tick far enough ahead, or says why not. -/
def Obligations.LinkHeadsComplete : Prop :=
  (∀ a, DoesTo (.rtv a) a 2 (fun _ => True) id (fun u =>
    wNat (u.fab.ver + 2 ^ 16 * u.fab.node + 2 ^ 28 * b2n (u.switches.any fun e => e.2.st != 0) +
      2 ^ 29 * b2n (u.fab.trefEn && (u.fab.node == u.fab.rnode ||
        u.fab.near && u.fab.refFull == u.full && u.fab.syncPorts.any fun p => (u.port p).st == 2))))) ∧
  (∀ a b sw v, DoesTo (.ttselSw a b sw v) a 1
    (fun u =>
      let c := u.switch sw.toNat
      let r := stepOf c v.toNat 0
      mayArm u sw.toNat = true ∧ c.st = 0 ∧ versionOk u sw.toNat v.toNat = true ∧
      u.tide.toNat + r.dl + 64 ≤ (u.myReg b).toNat ∧ u.fab.sver = r.rver)
    (fun u => u.modSwitch sw.toNat fun c => { c with st := 1, slot := v.toNat, step := 0, armed := u.myReg b, phase := 0 })
    (fun _ => 0)) ∧
  (∀ a b sw v, DoesTo (.ttselSw a b sw v) a 1
    (fun u =>
      let c := u.switch sw.toNat
      let r := stepOf c v.toNat 0
      mayArm u sw.toNat = true ∧ ¬ (c.st = 0 ∧ versionOk u sw.toNat v.toNat = true ∧
        u.tide.toNat + r.dl + 64 ≤ (u.myReg b).toNat ∧ u.fab.sver = r.rver))
    id (fun u =>
      let c := u.switch sw.toNat
      if c.st ≠ 0 then 3 else if versionOk u sw.toNat v.toNat = false then 1
      else if (u.myReg b).toNat < u.tide.toNat + (stepOf c v.toNat 0).dl + 64 then 2 else 4)) ∧
  (∀ a att v, DoesTo (.ttselSeg a att v) a 1
    (fun u => mayTime u att.toNat = true ∧ fordBusy u att.toNat = true) id (fun _ => 3)) ∧
  (∀ a att v, DoesTo (.ttselSeg a att v) a 1
    (fun u => mayTime u att.toNat = true ∧ fordBusy u att.toNat = false)
    (fun u => { u with ttvs := u.ttvs.put (u.seg att.toNat).sgid v.toNat }) (fun _ => 0)) ∧
  (∀ a b p, DoesTo (.lnkst a b p 0) a 1 (fun _ => p.toNat < 48) id (fun u =>
    let x := u.port p.toNat
    wNat (x.st + 2 ^ 3 * b2n (portHeld u p.toNat) + 2 ^ 4 * x.peerNode + 2 ^ 16 * x.peerPort + 2 ^ 22 * x.retrains +
      2 ^ 38 * x.uncorr))) ∧
  (∀ a b p, DoesTo (.lnkst a b p 1) a 1
    (fun u => p.toNat < 48 ∧ (u.myReg b).toNat < 2 ^ 11 ∧ (u.myReg b).toNat / 2 ^ 6 ≤ 16) id (fun u =>
    wNat ((u.port p.toNat).bins.get (17 * ((u.myReg b).toNat % 64) + (u.myReg b).toNat / 64) 0))) ∧
  (∀ a b p, DoesTo (.lnkst a b p 2) a 1 (fun _ => p.toNat < 48) id
    (fun u => wNat ((u.port p.toNat).lost + 2 ^ 32 * (u.port p.toNat).nacks))) ∧
  (∀ a p, DoesTo (.pilotst a p) a 1 (fun _ => True) id (fun u =>
    let x := u.pilot p.toNat
    let q := hartQOf (13457 + p.toNat)
    wNat ((if (u.proc q).stopped then 2 else x.st) + 2 ^ 2 * x.resets + 2 ^ 18 * x.retrains +
      2 ^ 34 * ((u.proc q).version % 2 ^ 16))))

/-- The Tollhouse's instructions complete (R448, R451 to R453, R461): DBGSIG raises DEBUG_HALT in the control contexts of a
cluster without debug, sends the cross-trigger, or enters a mark in the trace ring; IMB.RD, TRC.RD and DUMPST read the
records. -/
def Obligations.TollhouseHeadsComplete : Prop :=
  Does .dbgsigHalt (fun u => isHart u.cur = true ∨ u.myCluster.tdctl.getLsbD 0 = false) (fun u =>
    (List.range 8).foldl (fun t k =>
      let q := ctl (8 * clusterOf u.cur + k)
      if (t.proc q).st == .live then raiseAsync t q DEBUG_HALT (wNat (t.core (8 * clusterOf u.cur)).vcl) else t) u) ∧
  (∀ s, ready s .dbgsigHalt = true → alone s = true →
    let u := beginHead s .dbgsigHalt
    isHart u.cur = false → u.myCluster.tdctl.getLsbD 0 = true →
      Sys2Proof.Machine.exec .dbgsigHalt s = .next { (commitChunk u u.cur).pushTurn .clusterHalt
        { a := clusterOf u.cur, b := 3, c := u.cur } with issued := true }) ∧
  Does .dbgsigTrig (fun _ => True) (fun u =>
    if u.myCluster.tdctl.getLsbD 2 then
      (triggered u (clusterOf u.cur)).foldr (fun c t => t.pushTurn .crossTriggerReceive { a := c, b := clusterOf u.cur, c := u.cur }) u
    else u) ∧
  (∀ v, Does (.dbgsigMark v) (fun _ => True) (fun u =>
    if (u.cluster (coreOf u.cur / 8)).tdctl.getLsbD (4 + coreOf u.cur % 8) then
      u.modCore (coreOf u.cur) fun c => { c with
        trace := (if c.trace.length < 256 then c.trace else c.trace.drop 1) ++
          [wNat (v.toNat % 2 ^ 15 + 2 ^ 16 + 2 ^ 19 * u.cur + 2 ^ 52 * (u.tide.toNat % 2 ^ 12))]
        traceEver := if c.traceEver < 2 ^ 32 - 1 then c.traceEver + 1 else c.traceEver }
    else u)) ∧
  (∀ a dw i, DoesTo (.imbRd a dw true i) a 1 (fun _ => True) id
    (fun u => wNat (u.myCluster.imb.length + 2 ^ 32 * u.myCluster.imbLost))) ∧
  (∀ a dw i, DoesTo (.imbRd a dw false i) a 1 (fun _ => True) id (fun u =>
    match u.myCluster.imb[i.toNat]? with
    | none => wNat (2 ^ 63)
    | some e => e.getD dw.toNat 0)) ∧
  (∀ a i, DoesTo (.trcRdEnt a i) a 1 (fun _ => True) id (fun u => u.myCore.trace.getD i.toNat (wNat (2 ^ 63)))) ∧
  (∀ a, DoesTo (.trcRdCnt a) a 1 (fun _ => True) id (fun u => wNat (u.myCore.trace.length + 2 ^ 9 * u.myCore.traceEver))) ∧
  (∀ a, DoesTo (.trcRdClr a) a 1 (fun _ => True)
    (fun u => u.modCore (coreOf u.cur) fun c => { c with trace := [] }) (fun _ => 0)) ∧
  (∀ a sel, DoesTo (.dumpst a sel) a 1 (fun _ => True) id (fun u =>
    let f := u.vfOf u.me.vf
    if sel = 0 then
      wNat (b2n ((u.dumping.map fun d => d.vf == u.me.vf).getD false) + 2 * (u.dumpQ.filter fun d => d.vf == u.me.vf).length +
        2 ^ 4 * f.dumps)
    else wNat (f.dropFull + 2 ^ 32 * f.dropSlot)))

/-- The steps of a port access (R144 to R149, R270): a push joins the queue it goes to, with the Tide value from which it may
be popped; a pop takes the oldest item; qc goes to every core of the cluster; jet gives a message in two halves; prow gives
the next two elements of the held row; a pop of xq frees its slot; qx follows qxmap. Who acts and which data the
environment brings are arguments of the step (log entries 5, 7). -/
def Obligations.PortStepsComplete : Prop :=
  (∀ h, Happens .meshPush
    (fun s =>
      let g := coreOf s.cur
      let d := s.inp.a % 4
      isHart s.cur = false ∧ neighbour g d = some h ∧ sameLaunch s g h = true ∧
      (meshQueue s h ((d + 2) % 4)).outstanding s.tide.toNat 3 < 8)
    (fun s => s.modCore h fun c =>
      let k := (s.inp.a % 4 + 2) % 4
      let x := c.mesh.get k {}
      { c with mesh := c.mesh.put k ⟨x.items ++ [(s.inp.w, s.tide + 3)], x.popped⟩ })) ∧
  (∀ h x due rest, Happens .meshPop
    (fun s =>
      let g := coreOf s.cur
      let d := s.inp.a % 4
      isHart s.cur = false ∧ neighbour g d = some h ∧ sameLaunch s g h = true ∧
      (meshQueue s g d).items = (x, due) :: rest ∧ due.toNat ≤ s.tide.toNat)
    (fun s => (s.modCore (coreOf s.cur) fun c =>
      { c with mesh := c.mesh.put (s.inp.a % 4) ((c.mesh.get (s.inp.a % 4) {}).less rest s.tide) }).taken x)) ∧
  HappensTo .qcPush
    (fun s => isHart s.cur = false ∧ (∀ x, s.myCluster.qcLast = some x → x.toNat < s.tide.toNat) ∧
      (s.me.timed = true ∨ ∀ m ∈ members s s.cur, m ≠ s.cur → clusterOf m = clusterOf s.cur → (s.proc m).wait = .pushed) ∧
      ∀ h, h / 8 = clusterOf s.cur → (meshQueue s h 4).outstanding s.tide.toNat 4 < 8)
    (fun s t => t.myCluster.qcLast = some s.tide ∧
      (∀ h, h / 8 = clusterOf s.cur → meshQueue t h 4 = ⟨(meshQueue s h 4).items ++ [(s.inp.w, s.tide + 4)], (meshQueue s h 4).popped⟩) ∧
      ∀ h, h / 8 ≠ clusterOf s.cur → t.core h = s.core h) ∧
  (∀ x due rest, Happens .qcPop
    (fun s => isHart s.cur = false ∧ (meshQueue s (coreOf s.cur) 4).items = (x, due) :: rest ∧ due.toNat ≤ s.tide.toNat)
    (fun s => (s.modCore (coreOf s.cur) fun c => { c with mesh := c.mesh.put 4 ((c.mesh.get 4 {}).less rest s.tide) }).taken x)) ∧
  (∀ m rest, Happens .jetRead
    (fun s => isHart s.cur = false ∧ s.myCore.jetty = m :: rest)
    (fun s => ((s.modCore (coreOf s.cur) fun c => { c with jetty := rest }).modProc s.cur fun p =>
      { p with jhi := m.extractLsb' 64 64 }).taken (m.extractLsb' 0 64))) ∧
  (∀ r, Happens .prowRead
    (fun s => isHart s.cur = false ∧ s.me.drain = true ∧ s.me.row = some r ∧ r.reads < 16)
    (fun s => (s.modProc s.cur fun p => { p with row := some { r with reads := r.reads + 1 } }).taken
      (r.values.getD (2 * r.reads + 1) 0 ++ r.values.getD (2 * r.reads) 0))) ∧
  (∀ k tag w, Happens .xqPush
    (fun s => isHart s.cur = false ∧ offer s.inp.w s = .ok (.accepted k tag) w) (fun _ => w)) ∧
  (∀ x k rest, HappensTo .xqPop
    (fun s => isHart s.cur = false ∧ s.myCore.xq = (x, k) :: rest)
    (fun s t => (t.core (coreOf s.cur)).xq = rest ∧ (t.cluster (coreOf s.cur / 8)).xslots.find k = none ∧
      (s.me.timed = false → 0 < s.inp.b → s.inp.b < 48 → t.reg s.cur s.inp.b = x))) ∧
  (∀ h, HappensTo .qxPush
    (fun s =>
      let m := s.myCore.qxmap[s.inp.a % 8]?.getD 0
      isHart s.cur = false ∧ s.me.timed = false ∧ m.getLsbD 0 = true ∧ m.getLsbD 21 = false ∧
      vcore s s.me.vf (m.toNat / 2 ^ 7 % 2 ^ 14) (m.toNat / 2 ^ 4 % 8) = some h ∧ sameLaunch s (coreOf s.cur) h = true ∧
      (qxQueue s h (m.toNat / 2 % 8)).items.length < 8)
    (fun s t =>
      let k := (s.myCore.qxmap[s.inp.a % 8]?.getD 0).toNat / 2 % 8
      qxQueue t h k = ⟨(qxQueue s h k).items ++ [(s.inp.w, s.tide)], (qxQueue s h k).popped⟩)) ∧
  (∀ x due rest, Happens .qxPop
    (fun s => isHart s.cur = false ∧ (qxQueue s (coreOf s.cur) (s.inp.a % 8)).items = (x, due) :: rest ∧ due.toNat ≤ s.tide.toNat)
    (fun s => (s.modCore (coreOf s.cur) fun c =>
      { c with qx := c.qx.put (s.inp.a % 8) ((c.qx.get (s.inp.a % 8) {}).less rest s.tide) }).taken x))

/-- Arrivals and the steps of a chunk (R38, R118, R123, R125, R224): a local access is performed at its owner; a commit
performs what the chunk held, which is what its agent saw, and counts its heads; the last part of a split vector store ends
the head; a fetched line is resident. Who acts and which data the environment brings are arguments of the step (log
entries 5, 8). -/
def Obligations.ChunkStepsComplete : Prop :=
  HappensTo .localArrival
    (fun s => s.inp.ints = [] ∧ s.inp.a < 102400 ∧ s.inp.b + s.inp.bytes.length ≤ 2 ^ 15)
    (fun s t => ∀ j, (h : j < s.inp.bytes.length) → t.byteAt (tcmKey s.inp.a s.inp.b + j) = s.inp.bytes[j]) ∧
  (∀ x, HappensTo .localArrival
    (fun s => s.inp.ints = [x] ∧ s.inp.a < 12800 ∧ s.inp.b + s.inp.bytes.length ≤ 2 ^ 18)
    (fun s t => ∀ j, (h : j < s.inp.bytes.length) → t.byteAt (spKey s.inp.a s.inp.b + j) = s.inp.bytes[j])) ∧
  (∀ x y, HappensTo .localArrival
    (fun s => s.inp.ints = [x, y] ∧ s.inp.a < 102400 ∧ s.inp.b < 8 ∧ (qxQueue s s.inp.a s.inp.b).items.length < 8)
    (fun s t => (qxQueue t s.inp.a s.inp.b).items = (qxQueue s s.inp.a s.inp.b).items ++ [(s.inp.w, s.tide)])) ∧
  (∀ x y z b, HappensTo .localArrival
    (fun s => s.inp.ints = [x, y, z] ∧ (s.slice s.inp.a).wc[s.inp.b]? = some b)
    (fun s t => (t.slice s.inp.a).wc = (s.slice s.inp.a).wc.eraseIdx s.inp.b ∧ (∀ a, t.byteAt a = s.byteAt a) ∧
      ∀ a, hostSees t a = (b.data.filter fun e => e.1 == a).foldl (fun _ e => e.2) (hostSees s a))) ∧
  (∀ c, HappensTo .chunkCommit
    (fun s => s.inp.ints = [] ∧ members s s.inp.a = [s.inp.a] ∧ (s.proc s.inp.a).chunk = some c ∧ c.held.Pairwise (fun x y => x.1 < y.1) ∧
      c.ckpt.map (·.1) = [s.inp.a])
    (fun s t => (t.proc s.inp.a).chunk = none ∧ (t.proc s.inp.a).icount = (s.proc s.inp.a).icount + wNat c.heads ∧
      ∀ a, t.byteAt a = viewByte s s.inp.a a)) ∧
  (∀ a b kp ty nt imm w s s1,
    let q := leader s s.inp.a
    let i : Instr := .vst a b kp ty nt imm
    let u := beginHead { s1 with cur := q } i
    (s.proc q).wait = .parts → currentInstr s q = some (s1, i) → ready { s1 with cur := q } i = true →
    storesVector u a kp ty (fun k => u.ea b imm + wNat (k * (typeWidth ty.toNat / 8))) w → chunkLines w q ≤ 64 →
    Sys2Proof.Machine.exec .vectorStorePart s = .next (endHead { w with cur := q } i {})) ∧
  (∀ w l n, Happens .lineFetch
    (fun s =>
      let q := s.inp.a
      let la := lineBase (s.proc q).r.pc
      isHart q = false ∧ (s.proc q).timed = false ∧ residentLine s q la = none ∧ FMap.find (s.proc q).lines la = none ∧
      readCode s q la = .ok (w, l) ∧ l.check = some n)
    (fun s =>
      let la := lineBase (s.proc s.inp.a).r.pc
      (w.modProc s.inp.a fun p => { p with lines := FMap.put p.lines la l }).modCore (coreOf s.inp.a) fun c =>
        let kept := c.l1i.filter fun e => e.1 != la
        { c with l1i := (if kept.length + c.pins.length < 256 then kept else kept.drop 1) ++ [(la, l)] }))

/-- The steps that end a wait (R135, R140, R152, R178, R179, R191, R247, R29): a pending asynchronous trap of the lowest code is
taken; the pinned lines and the histogram binding change; a timed phase begins; a watched line or a deadline ends WAITMEM; the
last arrival releases a barrier, a level's constant after the latest arrival; a written line lets EVWAIT read again; an idle
engine hart goes on. Who acts and which data the environment brings are arguments of the step (log entries 5). -/
def Obligations.WaitsEnd : Prop :=
  (∀ code val l n, HappensTo .asyncTrapDelivery
    (fun s =>
      let p := s.proc s.inp.a
      isHart s.inp.a = false ∧ slotOf s.inp.a = 0 ∧ members s s.inp.a = [s.inp.a] ∧ s.halted (clusterOf s.inp.a) = false ∧
      p.st = .live ∧ p.stopped = false ∧ p.aen = true ∧ p.intrap = false ∧ p.wait = .idle ∧ p.chunk = none ∧ p.flight = [] ∧
      p.partCounts = [] ∧ (code, val) ∈ p.pend ∧ (∀ e ∈ p.pend, e = (code, val) ∨ code < e.1) ∧ p.tvec ≠ 0 ∧ p.tvec.getLsbD 0 = false ∧
      residentLine s s.inp.a (lineBase p.tvec) = some l ∧ l.check = some n ∧ 1 ≤ headIndex p.tvec ∧ headIndex p.tvec ≤ n)
    (fun s t =>
      let p := s.proc s.inp.a
      t.proc s.inp.a = { p with
        cause := wNat (256 + code), epc := p.r.pc, tval := val, ptim := p.timed, intrap := true, timed := false, waited := 0
        resumeAt := if p.resumeAt.toNat ≤ s.tide.toNat then s.tide + 1 else p.resumeAt
        lines := if p.copy.map (·.1) = some (lineBase p.tvec) then p.lines else FMap.put p.lines (lineBase p.tvec) l
        pend := p.pend.erase (code, val), r := { p.r with pc := p.tvec } })) ∧
  (∀ w ps, Happens .tpinWrite
    (fun s =>
      let u : State := { s with cur := ctl s.inp.a }
      fetchPins u u.cur (pinLines s.inp.w) = .ok (w, ps) ∧ w.cur = u.cur)
    (fun s => w.modCore s.inp.a fun c => { c with tpin := s.inp.w, pins := ps })) ∧
  Happens .hbindWrite (fun s => s.inp.a < 102400) (fun s =>
    ({ s with cur := ctl s.inp.a } : State).modCore s.inp.a fun c =>
      { c with hbind := wNat (s.inp.w.toNat % 2 ^ 32), bins := [], hsat := false }) ∧
  (∀ s,
    let q := ctl s.inp.a
    let u := beginHead { s with cur := q } .phaseT
    (s.proc q).wait = .phase → ready { s with cur := q } .phaseT = true → alone { s with cur := q } = true →
    coreQuiet u s.inp.a = true →
    Sys2Proof.Machine.exec .timedPhaseEntry s =
      .next (endHead ((closeChunks u s.inp.a).modProc q fun p => { p with timed := true }) .phaseT { delay := 4 })) ∧
  (∀ l d, HappensTo .waitmemWake
    (fun s => members s s.inp.a = [s.inp.a] ∧ (s.proc s.inp.a).wait = .mem l d true ∧ (s.proc s.inp.a).single = false)
    (fun s t => (t.proc s.inp.a).wait = .idle ∧ (t.proc s.inp.a).r.pc = nextPc s s.inp.a (s.proc s.inp.a).r.pc ∧
      ∀ p, p ≠ s.inp.a → t.proc p = s.proc p)) ∧
  (∀ l d hit, HappensTo .waitmemTimeout
    (fun s => members s s.inp.a = [s.inp.a] ∧ (s.proc s.inp.a).wait = .mem l d hit ∧ (s.proc s.inp.a).single = false ∧
      d.toNat ≤ s.tide.toNat)
    (fun s t => (t.proc s.inp.a).wait = .idle ∧ (t.proc s.inp.a).r.pc = nextPc s s.inp.a (s.proc s.inp.a).r.pc ∧
      ∀ p, p ≠ s.inp.a → t.proc p = s.proc p)) ∧
  (∀ l, HappensTo .barrierRelease
    (fun s => launchOf s s.inp.c = some l ∧ 1 ≤ s.inp.a ∧ s.inp.a ≤ 3 ∧ s.inp.w = 0 ∧ ∀ g ∈ domainCores s l s.inp.a s.inp.b,
      (s.proc (ctl g)).st = .ended ∨ ∃ t0, (s.proc (ctl g)).wait = .sync s.inp.a s.inp.b t0)
    (fun s t =>
      let gs := domainCores s l s.inp.a s.inp.b
      let times := gs.filterMap fun g => match arrivalOf s s.inp.a s.inp.b g with
        | some (some x) => some x.toNat
        | _ => none
      ∀ g ∈ gs, ∀ t0, (s.proc (ctl g)).wait = .sync s.inp.a s.inp.b t0 → (t.proc (ctl g)).wait =
        .released (wNat (times.foldl max 0 + if s.inp.a = 1 then 16 else if s.inp.a = 2 then 64 else 256)))) ∧
  (∀ l others, HappensTo .barrierRelease
    (fun s => launchOf s s.inp.c = some l ∧ s.inp.a = 4 ∧ remoteArrivals s.inp.ints = others ∧
      ((others.map fun e => e.2.1).filter (· ≠ s.fab.node)).eraseDups.length + s.inp.w.toNat =
        (l.rec16.getD 2 0).toNat / 2 ^ 44 % 2 ^ 12 ∧
      ∀ g ∈ domainCores s l 4 s.inp.b, (s.proc (ctl g)).st = .ended ∨ ∃ t0, (s.proc (ctl g)).wait = .sync 4 s.inp.b t0)
    (fun s t =>
      let gs := domainCores s l 4 s.inp.b
      let times := (gs.filterMap fun g => match arrivalOf s 4 s.inp.b g with
        | some (some x) => some x.toNat
        | _ => none) ++ others.map (·.1)
      ∀ g ∈ gs, ∀ t0, (s.proc (ctl g)).wait = .sync 4 s.inp.b t0 → (t.proc (ctl g)).wait =
        .released (wNat (times.foldl max 0 + 4096)))) ∧
  (∀ l, Happens .evwaitWake (fun s => (s.proc s.inp.a).wait = .ev l true)
    (fun s => s.modProc s.inp.a fun p => { p with wait := .idle })) ∧
  HappensTo .engineHartWake
    (fun s =>
      let q := hartQOf s.inp.a
      s.inp.a < Config.harts ∧ (s.proc q).wait = .hartIdle ∧ wakes s s.inp.a = true ∧ (s.proc q).single = false)
    (fun s t =>
      let q := hartQOf s.inp.a
      (t.proc q).wait = .idle ∧ (t.proc q).r.pc = nextPc s q (s.proc q).r.pc ∧ ∀ p, p ≠ q → t.proc p = s.proc p)

/-- The steps of a transform unit (R271 to R277): a chunk that decodes is stored and counted; one that passes the watchdog ends
its request with LENGTH_VIOLATION; a transposition and a conversion move their elements one by one; the response joins the
core's queue, after the fault record of a request that failed and once its stores are acknowledged; a claim lapses after 128
cycles, and its slot passes on at that moment. Who acts, in what pieces and which data the environment brings are arguments of
the step (log entries 5, 40). -/
def Obligations.TransformStepsComplete : Prop :=
  let inHand := fun (s : State) (x : XSlot) (op : Nat) =>
    (s.cluster s.inp.a).xslots.find s.inp.b = some x ∧ serving s s.inp.a s.inp.b = true ∧ (x.rec8.getD 0 0).toNat % 16 = op
  let d := fun (x : XSlot) (k : Nat) => x.rec8.getD k 0
  let piece := fun (s : State) (x : XSlot) (n : Nat) (src : List Byte) (fault : Nat) (s1 : State) =>
    xReadRun s x.q x.vf (d x 1 + wNat x.srcOff + wNat x.got.length) n = (s1, src, fault)
  let chunk := fun (s : State) (x : XSlot) (src : List Byte) (fault : Nat) (s1 : State) =>
    x.staged = [] ∧ piece s x (4352 - x.got.length) src fault s1
  let stored := fun (t : State) (gc k : Nat) (x : XSlot) (n : Nat) =>
    let y := { x with dstOff := x.dstOff + (x.staged.take n).length, staged := x.staged.drop n }
    setXslot t gc k (if y.staged ≠ [] then y
      else if x.count + 1 = (d x 3).toNat % 2 ^ 6 + 1 then { y with count := x.count + 1, ended := some 0, bound := 0, faultVa := 0 }
      else { y with count := x.count + 1 })
  let elements := fun (s w : State) (x : XSlot) (m fl : Nat) (last : Bool) =>
    let y := { x with count := x.count + m, flags := x.flags ||| fl }
    if last then served (setXslot w s.inp.a s.inp.b { y with ended := some 0, bound := 0, faultVa := 0 }) s.inp.a
    else setXslot w s.inp.a s.inp.b y
  let asked := fun (s : State) (x : XSlot) (n : Nat) =>
    if s.inp.c = 0 then (List.range n).drop x.count else ((List.range n).drop x.count).take s.inp.c
  (∀ x s1 src fault w, Happens .transformDecodeChunk
    (fun s =>
      let o := Sys2Proof.Machine.decode (x.got ++ src) fault ((d x 3).toNat / 2 ^ 32 - x.dstOff) x.wdc
      inHand s x 0 ∧ s.inp.c = 0 ∧ s.inp.w = 0 ∧ chunk s x src fault s1 ∧ o.fail = none ∧
      xWriteRun s1 x.q x.vf (d x 2 + wNat x.dstOff) o.bytes = .ok w)
    (fun s =>
      let o := Sys2Proof.Machine.decode (x.got ++ src) fault ((d x 3).toNat / 2 ^ 32 - x.dstOff) x.wdc
      let y := { x with srcOff := x.srcOff + o.clen, staged := o.bytes, got := [], emitted := 0, cycles := 0, consumed := 0 }
      served (stored (asUnit s1 w s.inp.a s.inp.b x.q) s.inp.a s.inp.b y o.bytes.length) s.inp.a)) ∧
  (∀ x s1 src, Happens .transformDecodeChunk
    (fun s => inHand s x 0 ∧ s.inp.c ≠ 0 ∧ x.staged = [] ∧ piece s x (min s.inp.c (4352 - x.got.length)) src 0 s1)
    (fun s => served (setXslot s1 s.inp.a s.inp.b { x with got := x.got ++ src }) s.inp.a)) ∧
  (∀ x s1 src fault, Happens .transformDecodeChunk
    (fun s => inHand s x 0 ∧ s.inp.c = 0 ∧ s.inp.w ≠ 0 ∧ chunk s x src fault s1 ∧
      (Sys2Proof.Machine.decode (x.got ++ src) fault ((d x 3).toNat / 2 ^ 32 - x.dstOff) x.wdc).fail = none)
    (fun s =>
      let o := Sys2Proof.Machine.decode (x.got ++ src) fault ((d x 3).toNat / 2 ^ 32 - x.dstOff) x.wdc
      served (setXslot s1 s.inp.a s.inp.b
        { x with srcOff := x.srcOff + o.clen, staged := o.bytes, got := [], emitted := 0, cycles := 0, consumed := 0 }) s.inp.a)) ∧
  (∀ x n w, Happens .transformDecodeChunk
    (fun s => inHand s x 0 ∧ x.staged ≠ [] ∧ n = (if s.inp.c = 0 then x.staged.length else s.inp.c) ∧
      xWriteRun s x.q x.vf (d x 2 + wNat x.dstOff) (x.staged.take n) = .ok w)
    (fun s => served (stored (asUnit s w s.inp.a s.inp.b x.q) s.inp.a s.inp.b x n) s.inp.a)) ∧
  (∀ x s1 src fault f, Happens .decoderWatchdogCutoff
    (fun s =>
      let o := Sys2Proof.Machine.decode (x.got ++ src) fault ((d x 3).toNat / 2 ^ 32 - x.dstOff) x.wdc
      inHand s x 0 ∧ chunk s x src fault s1 ∧ o.fail = some f ∧ f.bound = 2 ∧ f.status = 0x62 ∧ f.byte = none)
    (fun s =>
      let o := Sys2Proof.Machine.decode (x.got ++ src) fault ((d x 3).toNat / 2 ^ 32 - x.dstOff) x.wdc
      served (setXslot s1 s.inp.a s.inp.b { x with
        ended := some 0x62, bound := 2, faultVa := d x 1 + wNat x.srcOff
        emitted := o.emitted, cycles := o.cycles, consumed := o.consumed, got := [] }) s.inp.a)) ∧
  (∀ x w n, Happens .transformTranspose
    (fun s =>
      let esz := 2 ^ ((d x 3).toNat % 4)
      let cols := (d x 3).toNat / 2 ^ 14 % 2 ^ 12 + 1
      inHand s x 1 ∧ n = ((d x 3).toNat / 2 ^ 2 % 2 ^ 12 + 1) * cols ∧ movedAll s.inp.a s.inp.b x.q x.vf (fun e =>
        (d x 1 + wNat (e / cols * ((d x 5).toNat % 2 ^ 32) + e % cols * esz), esz,
         d x 2 + wNat (e % cols * ((d x 5).toNat / 2 ^ 32) + e / cols * esz), esz)) (fun _ v => (v, 0)) s (asked s x n) = some (w, 0))
    (fun s => elements s w x (asked s x n).length 0 (s.inp.c = 0 || n - x.count ≤ s.inp.c))) ∧
  (∀ x w fl n, Happens .transformConvert
    (fun s =>
      let ts := (d x 3).toNat % 16
      let td := (d x 3).toNat / 2 ^ 4 % 16
      let m := effMode x.fcsr ((d x 3).toNat / 2 ^ 8 % 8)
      inHand s x 2 ∧ n = (d x 3).toNat / 2 ^ 12 % 2 ^ 16 + 1 ∧ movedAll s.inp.a s.inp.b x.q x.vf (fun i =>
        (d x 1 + wNat (i * (typeWidth ts / 8)), typeWidth ts / 8, d x 2 + wNat (i * (typeWidth td / 8)), typeWidth td / 8))
        (convertOne m (fcsrFout x.fcsr) ((d x 3).getLsbD 11) ts td
          (fun i => if m = .sr then srBits x.srseed x.srcore x.srctr i 0 else 0)) s (asked s x n) = some (w, fl))
    (fun s => elements s w x (asked s x n).length fl (s.inp.c = 0 || n - x.count ≤ s.inp.c))) ∧
  (∀ x st0 st w, Happens .transformResponse
    (fun s => (s.cluster s.inp.a).xslots.find s.inp.b = some x ∧ x.ended = some st0 ∧ x.answered = false ∧
      (∀ e ∈ (s.cluster s.inp.a).xslots, e.1 = s.inp.b ∨ e.2.core ≠ x.core ∨ e.2.answered = true ∨ x.order ≤ e.2.order) ∧
      storesDone s (xUnit s.inp.a) s.inp.b = true ∧
      st = (if st0 = 0 ∧ storesLost s (xUnit s.inp.a) s.inp.b = true then 0x2C else st0) ∧
      ((st = 0 ∨ d x 4 = 0) ∧ w = s ∨
       st ≠ 0 ∧ d x 4 ≠ 0 ∧ xWriteRun s x.q x.vf (d x 4)
        ([x.faultVa, wNat (st + 2 ^ 8 * x.bound + 2 ^ 10 * (if (d x 0).toNat % 16 = 0 then x.count % 64 else 0) + 2 ^ 32 * x.emitted),
          wNat (x.cycles + 2 ^ 32 * x.consumed), d x 0].flatMap fun v => (leBytes 8 v.toNat).map BitVec.toNat) = .ok w))
    (fun s => (setXslot (dropStores w (xUnit s.inp.a) s.inp.b) s.inp.a s.inp.b { x with answered := true }).modCore x.core fun c =>
      { c with
        xq := c.xq ++ [(wNat (st + 2 ^ 8 * ((d x 0).toNat / 2 ^ 4 % 2 ^ 8) + 2 ^ 16 * x.bound + 2 ^ 18 * (x.flags / 128) +
          2 ^ 24 * (if st = 0 ∨ (d x 0).toNat % 16 ≠ 0 then 0 else x.count % 64) + 2 ^ 32 * x.count), s.inp.b)] })) ∧
  (∀ k core t, Happens .transformClaimLapse
    (fun s => (s.cluster s.inp.a).xheld = [(k, core, t)] ∧ t.toNat + 128 ≤ s.tide.toNat ∧ s.tide.toNat < t.toNat + 256)
    (fun s => s.modCluster s.inp.a fun c =>
      let claims := c.xclaims.filter (· != core)
      { c with xclaims := claims, xheld := (claims.head?.map fun g => (k, g, t + 128)).toList })) ∧
  (∀ k core t, Happens .transformClaimLapse
    (fun s => (s.cluster s.inp.a).xheld = [(k, core, t)] ∧ s.tide.toNat < t.toNat + 128)
    (fun s => s.modCluster s.inp.a id))

/-- The steps of an engine hart (R22, R28, R467): the engine takes the record from the request buffer; a stopped one answers with
ENGINE_FAULT; a hart that has stopped ends its requests, is named in efault with the interrupt of vector 1, and the Ferryman
is told. Who acts and which data the environment brings are arguments of the step (log entries 5, 27). -/
def Obligations.EngineStepsComplete : Prop :=
  (∀ r, Happens .engineKickAccept
    (fun s => s.me.reqBuf = some r ∧ s.inp.a < Config.harts ∧ queueFull s s.inp.a = false ∧ (s.proc (hartQOf s.inp.a)).stopped = false)
    (fun s => (s.modEngine s.inp.a fun e => { e with queue := e.queue ++ [r] }).modProc s.cur fun p => { p with reqBuf := none })) ∧
  (∀ r, HappensTo .engineKickAccept
    (fun s => s.me.reqBuf = some r ∧ s.inp.a < Config.harts ∧ queueFull s s.inp.a = false ∧ (s.proc (hartQOf s.inp.a)).stopped = true ∧
      engineNo r.op ≠ 0 ∧ engineNo r.op ≠ 4 ∧ r.killed = false ∧ r.toMem = none ∧ r.handles = [] ∧ r.ring = none)
    (fun s t => (t.core (coreOf r.q)).jetty = (s.core (coreOf r.q)).jetty ++ [frameOf 0x71 (engineNo r.op) r.rid.toNat 0 0] ∧
      t.me.reqBuf = none ∧ t.engines = s.engines)) ∧
  HappensTo .engineHartFaultStop
    (fun s =>
      let q := hartQOf s.inp.a
      s.inp.a < 640 ∧ (s.proc q).stopped = true ∧ (s.proc q).st ≠ .ended ∧ s.efaults.length < 16 ∧ (s.engine s.inp.a).all = [])
    (fun s t =>
      (t.proc (hartQOf s.inp.a)).st = .ended ∧
      t.efaults = s.efaults ++ [wNat (1 + 2 ^ 4 * s.inp.a + 2 ^ 18 * (s.inp.b % 256) + 2 ^ 32 * (s.inp.w.toNat % 2 ^ 32))] ∧
      (0, 1) ∈ t.msix ∧ t.devents = s.devents ++ [⟨5, (s.proc (hartQOf s.inp.a)).vf, 0, 0⟩]) ∧
  (∀ r, HappensTo .engineHartFaultStop
    (fun s =>
      let q := hartQOf s.inp.a
      s.inp.a = ferryman ∧ (s.proc q).stopped = true ∧ (s.proc q).st ≠ .ended ∧ (s.engine s.inp.a).all = [r] ∧
      engineNo r.op = 4 ∧ r.killed = false ∧ r.toMem = none ∧ r.handles = [] ∧ r.ring = none)
    (fun s t => (s.engine s.inp.a).all = [r] ∧ (t.engine s.inp.a).all = [] ∧
      (t.core (coreOf r.q)).jetty = (s.core (coreOf r.q)).jetty ++ [frameOf 0x71 4 r.rid.toNat r.sel r.tag]))

/-- The Ferryman's steps (R229 to R244): a doorbell, a kill by number, the taking of a record, the placement or holding of the
launch to be served, retirement, the marks of pre-emption, the stop and the saving of a launch, its restore, and its kill.
Who acts and which data the environment brings are arguments of the step (log entries 5, 33 to 39). -/
def Obligations.LaunchStepsComplete : Prop :=
  let marked := fun (s : State) (l : Launch) =>
    l.cls.foldl (fun t gc => (coresOf gc).foldl (fun t g => t.modCore g fun c => { c with preempt := true }) t)
      (setLaunch s { l with st := .marked, since := s.tide })
  let started := fun (s : State) (l : Launch) (cs : List Nat) =>
    let ln := nextLn (s.vfOf l.vf).lastLn
    let k := { l with ln := ln, st := .running, cls := cs, vcls := cs.map (vclOf s l.vf), held := false, waiting := none, started := s.tide }
    ((List.range cs.length).zip cs).foldl (fun t e => startCluster t k e.2 e.1) (setLaunch (s.modVf l.vf fun f => { f with lastLn := ln }) k)
  let rested := fun (s : State) (l : Launch) => l.cls.foldl (fun t gc => restCluster t gc ((s.vfOf l.vf).sch0.getLsbD 8)) 
  let dead := fun (s : State) (l : Launch) (cause : Nat) =>
    (setLaunch (l.cls.foldl killCluster s) { l with st := .killed, cause := cause, held := false, waiting := none }).modEngine ferryman
      fun e => { e with queue := e.queue.filter fun r => !(r.vf == l.vf && r.ln == l.ln) }
  let taken := fun (s : State) (head : Word) (r : List Word) =>
    ({ vf := s.inp.a, queue := s.inp.b, pos := head.toNat, rec16 := r } : Launch)
  let fits := fun (s : State) (head : Word) (r : List Word) =>
    recordOk (taken s head r) ((s.vfOf s.inp.a).grant.filter fun gc => !(s.cluster gc).fenced).length
  let takes := fun (s s1 : State) (ws : List Word) (s2 : State) (r : List Word) (s3 : State) =>
    let d : QDesc := ⟨ws⟩
    runsDefault s ferryman = true ∧ hasQueue s s.inp.a s.inp.b = true ∧ (s.vfOf s.inp.a).badq.contains s.inp.b = false ∧
    (∀ l ∈ s.launches, l.vf = s.inp.a → l.queue = s.inp.b → l.st ≠ .taken) ∧
    readDws s ferryQ s.inp.a (queueVa s s.inp.a s.inp.b) 8 = .ok (s1, ws) ∧ d.ok = true ∧ d.en = true ∧
    readDws s1 ferryQ s.inp.a (d.slot d.head) 16 = .ok (s2, r) ∧ r.getD 15 0 = d.head + 1 ∧
    putImage s2 ferryQ s.inp.a (queueVa s s.inp.a s.inp.b + 24) [d.head + 1] = .ok s3
  let serves := fun (s : State) (l : Launch) (u : State) =>
    mayPlace s s.inp.a = true ∧ failEvent (checkQueues s s.inp.a) s.inp.a = none ∧ chosen (checkQueues s s.inp.a) s.inp.a = some (l, u)
  Happens .doorbell (fun _ => True)
    (fun s => { (s.modVf s.inp.a fun f => { f with badq := f.badq.filter fun q => !((List.range 16).filter fun q => s.inp.b.testBit q).contains q })
      with devents := s.devents ++ ((List.range 16).filter fun q => s.inp.b.testBit q).map fun q => ⟨1, s.inp.a, q, 0⟩ }) ∧
  HappensTo .klnidKill (fun s => launchAt s s.inp.a s.inp.b = none)
    (fun s t => (t.vfOf s.inp.a).kbusy = false ∧ (t.vfOf s.inp.a).kln = s.inp.b ∧ t.launches = s.launches) ∧
  (∀ l, Happens .klnidKill
    (fun s => launchAt s s.inp.a s.inp.b = some l ∧ (l.st = .running ∨ l.st = .marked ∨ l.st = .resting))
    (fun s => dead (raiseEvent (s.modVf s.inp.a fun f => { f with kbusy := true, kln := s.inp.b }) ⟨4, s.inp.a, l.queue, l.ln⟩) l 0)) ∧
  (∀ s1 ws s2 r s3, Happens .launchRecordTake
    (fun s => takes s s1 ws s2 r s3 ∧ fits s (⟨ws⟩ : QDesc).head r = true)
    (fun s => answerLaunch { s3 with launches := s3.launches ++ [taken s (⟨ws⟩ : QDesc).head r] } s.inp.a s.inp.b (⟨ws⟩ : QDesc).head 0)) ∧
  (∀ s1 ws s2 r s3 t, Happens .launchRecordTake
    (fun s => takes s s1 ws s2 r s3 ∧ fits s (⟨ws⟩ : QDesc).head r = false ∧
      reportEnd (answerLaunch s3 s.inp.a s.inp.b (⟨ws⟩ : QDesc).head 5) (taken s (⟨ws⟩ : QDesc).head r) 5 0 = .ok t)
    (fun _ => t)) ∧
  (∀ l u cs w, Happens .launchPlacement
    (fun s => serves s l u ∧ l.st = .taken ∧
      placesFor u l (freeFor u s.inp.a) s.inp.ints = some cs ∧ checkTarget (started u l cs) (ctl (8 * cs.headD 0)) (l.dw 0) = .ok w)
    (fun _ => w)) ∧
  (∀ l u cs c, Happens .launchPlacement
    (fun s => serves s l u ∧ l.st = .taken ∧
      placesFor u l (freeFor u s.inp.a) s.inp.ints = some cs ∧ checkTarget (started u l cs) (ctl (8 * cs.headD 0)) (l.dw 0) = .error c)
    (fun _ => (started u l cs).pushTurn .launchKill { a := l.vf, b := nextLn (u.vfOf l.vf).lastLn, c := 2, w := wNat c })) ∧
  (∀ l u, Happens .launchPlacement
    (fun s => serves s l u ∧ l.st = .taken ∧
      placesFor u l (freeFor u s.inp.a) s.inp.ints = none)
    (fun _ => holdLaunch u l)) ∧
  (∀ l t, Happens .launchRetirement
    (fun s => launchAt s s.inp.a s.inp.b = some l ∧ (l.st = .running ∨ l.st = .marked) ∧ allHalted s l = true ∧ allComplete s l = true ∧
      reportEnd (endLaunch s l) l 0 0 = .ok t)
    (fun _ => raiseEvent t ⟨2, l.vf, l.queue, l.ln⟩)) ∧
  (∀ l x c, Happens .timeSliceExpiry
    (fun s => launchAt s s.inp.b s.inp.c = some l ∧ s.inp.a ≠ l.vf ∧
      (∃ k ∈ s.launches, k.vf = s.inp.a ∧ k.waiting = some x ∧ x.toNat + 1024 * (s.vfOf l.vf).tslice ≤ s.tide.toNat) ∧
      c ∈ l.cls ∧ (s.vfOf s.inp.a).grant.contains c = true ∧ preemptible s l = true ∧ runsDefault s ferryman = true)
    (fun s => marked (checkQueues s l.vf) l)) ∧
  (∀ l, Happens .preemptionMark
    (fun s => launchAt s s.inp.a s.inp.b = some l ∧ runsDefault s ferryman = true ∧ preemptible s l = true ∧ preemptWanted s l = true)
    (fun s => marked (checkQueues s l.vf) l)) ∧
  (∀ l, Happens .preemptionGraceExpiry
    (fun s => launchAt s s.inp.a s.inp.b = some l ∧ l.st = .marked ∧ runsDefault s ferryman = true ∧ mayStop s l = true ∧ noDump s l.vf l.ln = true)
    (fun s => rested s l (setLaunch (l.cls.foldl stopCluster s) { l with st := .resting }))) ∧
  (∀ l, Happens .preemptionGraceExpiry
    (fun s => launchAt s s.inp.a s.inp.b = some l ∧ l.st = .resting ∧ runsDefault s ferryman = true)
    (fun s => if l.cls.all (atRest (rested s l s)) then saveLaunch (rested s l s) l else rested s l s)) ∧
  (∀ l u w, Happens .launchRestore
    (fun s =>
      let cs := l.vcls.map fun v => (s.vfOf s.inp.a).grant.getD v Config.clusters
      let k := { l with st := .running, cls := cs, held := false, waiting := none, started := s.tide }
      mayPlace s s.inp.a = true ∧ chosen (checkQueues s s.inp.a) s.inp.a = some (l, u) ∧ l.st = .saved ∧ cs.all (freeFor u s.inp.a) = true ∧
      restoreSections (setLaunch u k) k 0 cs = .ok w)
    (fun s => answerParked w { l with
      st := .running, cls := l.vcls.map fun v => (s.vfOf s.inp.a).grant.getD v Config.clusters
      held := false, waiting := none, started := s.tide })) ∧
  (∀ l u, Happens .launchRestore
    (fun s => mayPlace s s.inp.a = true ∧ chosen (checkQueues s s.inp.a) s.inp.a = some (l, u) ∧ l.st = .saved ∧
      (l.vcls.map fun v => (s.vfOf s.inp.a).grant.getD v Config.clusters).all (freeFor u s.inp.a) = false)
    (fun _ => holdLaunch u l)) ∧
  (∀ l, Happens .launchKill (fun s => launchAt s s.inp.a s.inp.b = some l ∧ l.st = .saved)
    (fun s => setLaunch (s.modEngine ferryman fun e => { e with queue := e.queue.filter fun r => !(r.vf == l.vf && r.ln == l.ln) }) { l with
      st := .killed, cause := if s.inp.c = 0 then 0 else if s.inp.c = 3 then 0x71 else s.inp.w.toNat % 256
      cls := [], held := false, waiting := none })) ∧
  (∀ l, Happens .launchKill
    (fun s => launchAt s s.inp.a s.inp.b = some l ∧ (l.st = .running ∨ l.st = .marked ∨ l.st = .resting))
    (fun s => dead s l (if s.inp.c = 0 then 0 else if s.inp.c = 3 then 0x71 else s.inp.w.toNat % 256))) ∧
  (∀ l t, Happens .killComplete
    (fun s => launchAt s s.inp.a s.inp.b = some l ∧ l.st = .killed ∧ l.cls.all (killDone s) = true ∧ noDump s l.vf l.ln = true ∧
      reportEnd (endLaunch s l) l 0x91 l.cause = .ok t)
    (fun _ => settleKill t l))

/-- The steps of a copy (R281, R282, R288, R300 to R303): the home Barge forwards a request to its working Barge; a copy moves its
next elements, all that are left or some, and completes with their count once its stores are acknowledged, or, with its
destination undefined, with the status and index of the element that failed; a landing stage is bound before and filled after;
each iteration of a looping copy fills the next stage; a cancelled copy ends. Who acts and which data the environment brings are
arguments of the step (log entries 5, 30, 61). -/
def Obligations.BargeStepsComplete : Prop :=
  let runs := fun (s : State) => s.inp.a < 640 ∧ runsDefault s s.inp.a = true
  let q := fun (s : State) => hartQOf s.inp.a
  let serves := fun (s : State) (op k : Nat) (r : Request) (v : State) =>
    runs s ∧ takeInHand s s.inp.a s.inp.b s.inp.c = some (k, r, v) ∧ r.op = op ∧ s.copiesFrozen (clusterOf r.q) = false
  let goes := fun (r : Request) => r.fin = none ∧ r.killed = false ∧ r.canc = false
  let ended := fun (t : State) (h k : Nat) (r : Request) (status count : Nat) =>
    post (releaseHolds (t.modEngine h fun e => { e with slots := e.slots.del k }) r) h r
      (frameOf status 0 r.rid.toNat h (r.tag + 2 ^ 32 * (count % 2 ^ 30)))
  let held := fun (v : State) (r : Request) (u : State) (r1 : Request) =>
    match r.ring with
    | none => u = v ∧ r1 = r
    | some n =>
      let k := r.iter % (ringOf v (clusterOf r.q) n).nst
      r.bound.isSome = true ∧ u = v ∧ r1 = r ∨
      r.bound = none ∧ (ringOf v (clusterOf r.q) n).writable k = true ∧ u = (modRing v (clusterOf r.q) n fun x => x.bind k) ∧
        r1 = { r with bound := some k }
  let moves := fun (s u : State) (k : Nat) (r : Request) (t : State) (out : Option (Nat × Nat)) =>
    let m := rCount r.source - r.next
    ∃ w, copyRun u s.inp.a r r.iter r.next (if s.inp.w.toNat = 0 then m else min s.inp.w.toNat m) = (w, out) ∧ t = ownStores u w (q s) k
  let whole := fun (s : State) (r : Request) => s.inp.w.toNat = 0 ∨ rCount r.source ≤ r.next + s.inp.w.toNat
  let filled := fun (t : State) (r : Request) =>
    match r.ring with
    | none => t
    | some n => modRing t (clusterOf r.q) n fun x => x.fill (r.iter % x.nst) r.iter
  let freed := fun (r : Request) => if r.ring.isSome then { r with bound := none } else r
  let kept := fun (t : State) (h k : Nat) (r : Request) => t.modEngine h fun e => { e with slots := e.slots.put k r }
  (∀ r rest w, Happens .bargeForward
    (fun s => runs s ∧ (s.engine s.inp.a).queue = r :: rest ∧ r.canc = false ∧
      workingBarge s s.inp.a r = .ok w ∧ w ≠ s.inp.a ∧ (s.proc (hartQOf w)).stopped = false ∧ (s.engine w).fwd.length < 64)
    (fun s => (s.modEngine s.inp.a fun e => { e with queue := rest }).modEngine w fun e =>
      { e with fwd := e.fwd ++ [{ r with fwd := true }] })) ∧
  (∀ r rest, Happens .bargeForward
    (fun s => runs s ∧ (s.engine s.inp.a).queue = r :: rest ∧ r.canc = true)
    (fun s => post (releaseHolds (s.modEngine s.inp.a fun e => { e with queue := rest }) r) s.inp.a r
      (frameOf 0x64 0 r.rid.toNat s.inp.a (r.tag + 2 ^ 32 * ((if r.op = 0x92 then r.iter else 0) % 2 ^ 30))))) ∧
  (∀ r rest c, Happens .bargeForward
    (fun s => runs s ∧ (s.engine s.inp.a).queue = r :: rest ∧ r.canc = false ∧ workingBarge s s.inp.a r = .error c ∧ isWait c = false)
    (fun s =>
      let t := leaveCopy (s.modEngine s.inp.a fun e => { e with queue := rest }) s.inp.a r (rCount r.source)
      post (releaseHolds { t with freeCtr := t.freeCtr + 1 } r) s.inp.a r
        (frameOf c 0 r.rid.toNat s.inp.a (r.tag + 2 ^ 32 *
          ((if r.op = 0x92 then r.iter else Config.freeNat t.freeCtr % rCount r.source) % 2 ^ 30))))) ∧
  (∀ k r v u r1 t, Happens .bargeCopy
    (fun s => serves s 0x91 k r v ∧ goes r ∧ held v r u r1 ∧ moves s u k r1 t none ∧ whole s r ∧
      storesDone (filled t r1) (q s) k = true ∧ storesLost (filled t r1) (q s) k = false)
    (fun s => ended (dropStores (filled t r1) (q s) k) s.inp.a k (freed r1) 0 (writtenCount r))) ∧
  (∀ k r v u r1 t, Happens .bargeCopy
    (fun s => serves s 0x91 k r v ∧ goes r ∧ held v r u r1 ∧ moves s u k r1 t none ∧ whole s r ∧
      storesDone (filled t r1) (q s) k = false)
    (fun s => kept (filled t r1) s.inp.a k { freed r1 with fin := some (0, writtenCount r) })) ∧
  (∀ k r v c n, Happens .bargeCopy
    (fun s => serves s 0x91 k r v ∧ r.fin = some (c, n) ∧ storesDone v (q s) k = true ∧ (c = 0 → storesLost v (q s) k = false))
    (fun s => ended (dropStores v (q s) k) s.inp.a k r c n)) ∧
  (∀ k r v u r1 t, Happens .bargeCopy
    (fun s => serves s 0x91 k r v ∧ goes r ∧ held v r u r1 ∧ moves s u k r1 t none ∧ ¬ whole s r)
    (fun s => kept t s.inp.a k { r1 with next := r.next + s.inp.w.toNat })) ∧
  (∀ k r v u r1 t c j, Happens .bargeCopy
    (fun s => serves s 0x91 k r v ∧ goes r ∧ held v r u r1 ∧ moves s u k r1 t (some (c, j)) ∧ isWait c = false ∧ c ≠ 0 ∧
      storesDone (forgetStalls (leaveCopy t s.inp.a r1 (rCount r.source)) (q s) c) (q s) k = true)
    (fun s => ended (dropStores (forgetStalls (leaveCopy t s.inp.a r1 (rCount r.source)) (q s) c) (q s) k) s.inp.a k r1 c j)) ∧
  (∀ k r v w, Happens .bargeCopy
    (fun s => serves s 0x91 k r v ∧ r.fin = none ∧ r.killed = false ∧ r.canc = true ∧
      w = leaveCopy v s.inp.a r (if r.bound.isSome then rCount r.source else r.next) ∧ storesDone w (q s) k = true)
    (fun s => ended (dropStores w (q s) k) s.inp.a k r 0x64 r.next)) ∧
  (∀ k r v u r1 t, Happens .loopIteration
    (fun s => serves s 0x92 k r v ∧ r.killed = false ∧ r.canc = false ∧ held v r u r1 ∧ moves s u k r1 t none ∧ whole s r)
    (fun s =>
      let r2 := { freed r1 with iter := r.iter + 1, next := 0 }
      if r.iter + 1 = r.iters then ended (filled t r1) s.inp.a k r2 0 (r.iter + 1) else kept (filled t r1) s.inp.a k r2)) ∧
  (∀ k r v u r1 t, Happens .loopIteration
    (fun s => serves s 0x92 k r v ∧ r.killed = false ∧ r.canc = false ∧ held v r u r1 ∧ moves s u k r1 t none ∧ ¬ whole s r)
    (fun s => kept t s.inp.a k { r1 with next := r.next + s.inp.w.toNat })) ∧
  (∀ k r v u r1 t c j, Happens .loopIteration
    (fun s => serves s 0x92 k r v ∧ r.killed = false ∧ r.canc = false ∧ held v r u r1 ∧ moves s u k r1 t (some (c, j)) ∧ isWait c = false)
    (fun s => ended (forgetStalls (leaveCopy t s.inp.a r1 (rCount r.source)) (q s) c) s.inp.a k r1 c r.iter)) ∧
  (∀ k r v, Happens .loopIteration
    (fun s => serves s 0x92 k r v ∧ r.killed = false ∧ r.canc = true)
    (fun s => ended (leaveCopy v s.inp.a r (if r.bound.isSome then rCount r.source else r.next)) s.inp.a k r 0x64 r.iter))

/-- The steps of a Pontoon job (R323, R324, R329, R331, R332, R337 to R339, R342, R343, R347, R348, R353): the engine takes a
record, loads and streams its tiles, each from memory in one piece or in several or from a stage of a ring, and promotes, hands
its rows out, parks it, and completes or ends it, with its destination undefined where it fails (R8); the readings of a
bank, the settling of a bank, a new pair of thresholds, the end of a calibration, a timeout of PSETTLE, and a round of the
sequencer's own retune. Who acts, which data the environment brings and how much of a source is read at once are arguments of
the step (log entries 5, 41 to 43). -/
def Obligations.JobStepsComplete : Prop :=
  let ended := fun (t : State) (gc : Nat) (j : PJob) (status : Nat) =>
    post (releaseHolds (if status = 0 then t else leaveRows t gc j) j.req) (640 + gc) j.req (frameOf status 1 j.req.rid.toNat j.rel.length
      (j.flags / 128 + 2 ^ 5 * j.worst + 2 ^ 7 * b2n j.parkedOnce + 2 ^ 32 * j.ksteps))
  let piece := fun (s : State) (left : Nat) => if s.inp.w.toNat = 0 then left else min left (32 * s.inp.w.toNat)
  let reads := fun (s : State) (j : PJob) (va : Word) (len : Nat) (before : List Byte) (n : Nat) (w : State) (bs : List Byte) =>
    n = piece s (len - before.length) ∧ pontoonRead s s.inp.a j.req (va + wNat before.length) n = .ok (w, bs)
  let hold := fun (w : State) (gc : Nat) (j : PJob) => w.modPontoon gc fun po => { po with job := some j }
  let loads := fun (s : State) (j : PJob) =>
    runningJob s s.inp.a = some j ∧ j.tiles.length < 2 ∧ j.ksteps + j.tiles.length < j.req.kst
  let tileAt := fun (j : PJob) => j.req.base + wNat (1024 * (j.ksteps + j.tiles.length))
  let stageOf := fun (s : State) (n t : Nat) (x : Ring) (k : Nat) =>
    x = ringOf s s.inp.a n ∧ k = t % x.nst ∧ (x.stage k).own ≤ x.np ∧ x.kind (x.stage k).own = 2 ∧ (x.stage k).tag = t % 2 ^ 16
  let freed := fun (s : State) (n t k : Nat) => modRing s s.inp.a n fun x =>
    if (x.stage k).own = 0 then x.fill k t else x.release k
  let streams := fun (s : State) (j : PJob) (tile : List Int) (rest : List (List Int)) =>
    let po := s.pontoon s.inp.a
    runningJob s s.inp.a = some j ∧ j.tiles = tile :: rest ∧ po.preempt = false ∧ po.drift < 2
  let actsAt := fun (j : PJob) => j.req.dw 2 + wNat (32 * j.req.depth * j.ksteps)
  let stepped := fun (s w : State) (j : PJob) (tile : List Int) (rest : List (List Int)) (bs : List Byte) =>
    let r := j.req
    let drift := (s.pontoon s.inp.a).drift
    { j with
      n := streamTile tile r.split r.gain r.shift r.depth (if drift = 0 then 1 else 3) w.freeCtr
        (fun b => ((bs.drop (32 * b)).take 32).map BitVec.toNat) 0 j.n
      cs := (List.range 32).foldl (fun m i => m.put i (m.get i 0 + rowSum tile i (List.replicate 32 1))) j.cs
      tiles := rest, acts := [], ksteps := j.ksteps + 1, worst := max j.worst (min drift 1) }
  let drawn := fun (w : State) (r : Request) => ({ w with freeCtr := w.freeCtr + (passes r.split).length * (r.depth * 32) } : State)
  (∀ r rest, Happens .jobStart
    (fun s =>
      let po := s.pontoon s.inp.a
      s.inp.a < 12800 ∧ (s.proc (hartQOf (640 + s.inp.a))).stopped = false ∧ po.tow = none ∧ po.job = none ∧
      (s.engine (640 + s.inp.a)).queue = r :: rest ∧ r.op = 0x9F)
    (fun s => ((s.modEngine (640 + s.inp.a) fun e => { e with queue := rest }).modProc (hartQOf (640 + s.inp.a)) fun p =>
      { p with vf := r.vf }).modPontoon s.inp.a fun po => { po with
        job := some { req := r, fail := if r.canc then some 0x64 else if engineDown s s.inp.a then some 0x70 else none } })) ∧
  (∀ r rest j, Happens .jobStart
    (fun s =>
      let po := s.pontoon s.inp.a
      s.inp.a < 12800 ∧ (s.proc (hartQOf (640 + s.inp.a))).stopped = false ∧ po.tow = none ∧ po.job = some j ∧ po.tail = none ∧
      j.ksteps = j.req.kst ∧ j.next = j.req.depth ∧ j.fail = none ∧ (s.engine (640 + s.inp.a)).queue = r :: rest ∧ r.op = 0x9F)
    (fun s => ((s.modEngine (640 + s.inp.a) fun e => { e with queue := rest }).modProc (hartQOf (640 + s.inp.a)) fun p =>
      { p with vf := r.vf }).modPontoon s.inp.a fun po => { po with
        tail := some j
        job := some { req := r, fail := if r.canc then some 0x64 else if engineDown s s.inp.a then some 0x70 else none } })) ∧
  (∀ j n w bs, Happens .tileLoad
    (fun s => loads s j ∧ j.req.wk = false ∧ reads s j (tileAt j) 1024 j.got n w bs ∧ n = 1024 - j.got.length ∧
      (j.got ++ bs).contains 0x80 = false)
    (fun s => hold w s.inp.a { j with tiles := j.tiles ++ [(j.got ++ bs).map fun x => x.toInt], got := [] })) ∧
  (∀ j n w bs, Happens .tileLoad
    (fun s => loads s j ∧ j.req.wk = false ∧ reads s j (tileAt j) 1024 j.got n w bs ∧ n < 1024 - j.got.length)
    (fun s => hold w s.inp.a { j with got := j.got ++ bs })) ∧
  (∀ j n w bs, Happens .tileLoad
    (fun s => loads s j ∧ j.req.wk = false ∧ reads s j (tileAt j) 1024 j.got n w bs ∧ n = 1024 - j.got.length ∧
      (j.got ++ bs).contains 0x80 = true)
    (fun s => hold w s.inp.a { j with fail := some 0x72 })) ∧
  (∀ j n t x k bs, Happens .tileLoad
    (fun s => loads s j ∧ j.req.wk = true ∧ n = fld (j.req.dw 3) 0 4 ∧ t = fld (j.req.dw 3) 16 16 + (j.ksteps + j.tiles.length) ∧
      stageOf s n t x k ∧ bs = ((List.range 1024).map fun i => s.byteAt (spKey s.inp.a (x.base k + i))) ∧ bs.contains 0x80 = false)
    (fun s => hold (freed s n t k) s.inp.a { j with tiles := j.tiles ++ [bs.map fun b => b.toInt], got := [] })) ∧
  (∀ j tile rest n w bs, Happens .tileStream
    (fun s => streams s j tile rest ∧ j.req.ik = false ∧ (j.ksteps + 1) % j.req.interval ≠ 0 ∧
      reads s j (actsAt j) (32 * j.req.depth) j.acts n w bs ∧ n = 32 * j.req.depth - j.acts.length)
    (fun s => hold (drawn w j.req) s.inp.a (stepped s w j tile rest (j.acts ++ bs)))) ∧
  (∀ j tile rest n w bs, Happens .tileStream
    (fun s => streams s j tile rest ∧ j.req.ik = false ∧
      ((j.ksteps + 1) % j.req.interval ≠ 0 ∨ (s.pontoon s.inp.a).tail = none) ∧
      reads s j (actsAt j) (32 * j.req.depth) j.acts n w bs ∧ n < 32 * j.req.depth - j.acts.length)
    (fun s => hold w s.inp.a { j with acts := j.acts ++ bs })) ∧
  (∀ j tile rest n t x k, Happens .tileStream
    (fun s => streams s j tile rest ∧ j.req.ik = true ∧ (j.ksteps + 1) % j.req.interval ≠ 0 ∧ n = fld (j.req.dw 3) 8 4 ∧
      t = fld (j.req.dw 3) 32 16 + j.ksteps ∧ stageOf s n t x k)
    (fun s => hold (freed (drawn s j.req) n t k) s.inp.a (stepped s s j tile rest
      ((List.range (32 * j.req.depth)).map fun i => s.byteAt (spKey s.inp.a ((ringOf s s.inp.a n).base k + i)))))) ∧
  (∀ j tile rest n w bs, HappensTo .tileStream
    (fun s => streams s j tile rest ∧ j.req.ik = false ∧ (j.ksteps + 1) % j.req.interval = 0 ∧ (s.pontoon s.inp.a).tail = none ∧
      j.req.scm = false ∧ reads s j (actsAt j) (32 * j.req.depth) j.acts n w bs ∧ n = 32 * j.req.depth - j.acts.length)
    (fun s t =>
      let r := j.req
      let m := stepped s w j tile rest (j.acts ++ bs)
      let e := promoteAll m.n j.a r.depth r.gain r.shift ((j.ksteps + 1) / r.interval - 1) r.ctl (fun _ => (r.dw 4).toNat % 2 ^ 32)
        fun i => if r.split = 1 then 128 * m.cs.get i 0 else if r.split = 2 then r.zp * m.cs.get i 0 else 0
      ∃ k, (t.pontoon s.inp.a).job = some k ∧ k.a = e.1 ∧ k.n = [] ∧ k.cs = [] ∧ k.flags = j.flags ||| e.2 ∧
        k.promos = j.promos + 1 ∧ k.ksteps = j.ksteps + 1)) ∧
  (∀ j g, Happens .rowDispatch
    (fun s =>
      let po := s.pontoon s.inp.a
      po.tow = none ∧ po.job = some j ∧ s.frozen s.inp.a = false ∧ j.ksteps = j.req.kst ∧ j.next < j.req.depth ∧ j.fail = none ∧
      po.preempt = false ∧ rowsOutstanding po < 8 ∧ (s.proc (hartQOf (640 + s.inp.a))).stopped = false ∧
      rowTarget s s.inp.a j.req = some g ∧ j.req.oen = false)
    (fun s => (startHandler s g s.inp.a j.next j.req j.a j.req.rid (j.req.dw 5) (j.req.dw 6) none false).modPontoon s.inp.a fun po =>
      { po with job := some { j with next := j.next + 1, out := j.out ++ [j.next] } })) ∧
  (∀ j, Happens .jobComplete
    (fun s => (s.pontoon s.inp.a).tail = none ∧ (s.pontoon s.inp.a).job = some j ∧ j.fail = none ∧ j.ksteps = j.req.kst ∧
      j.rel.length = j.req.depth ∧ handlerLive s s.inp.a (ofJob j) = false)
    (fun s => afterJob s.inp.a (ended (s.modPontoon s.inp.a fun po => { po with job := none }) s.inp.a j 0))) ∧
  (∀ j, Happens .jobComplete
    (fun s => (s.pontoon s.inp.a).tail = some j ∧ j.ksteps = j.req.kst ∧ j.rel.length = j.req.depth ∧
      handlerLive s s.inp.a (ofJob j) = false)
    (fun s => ended (s.modPontoon s.inp.a fun po => { po with tail := none }) s.inp.a j (j.fail.getD 0))) ∧
  (∀ j c, Happens .jobFailure
    (fun s => (s.pontoon s.inp.a).tail = none ∧ (s.pontoon s.inp.a).job = some j ∧ j.fail = some c ∧
      handlerLive s s.inp.a (ofJob j) = false)
    (fun s => afterJob s.inp.a (ended (s.modPontoon s.inp.a fun po => { po with job := none }) s.inp.a j c))) ∧
  (∀ j, Happens .jobPark
    (fun s => s.frozen s.inp.a = false ∧ runningJob s s.inp.a = some j ∧ (s.pontoon s.inp.a).preempt = true)
    (fun s => s.modPontoon s.inp.a fun po => { po with job := some { j with parked := 1, parkedOnce := true } })) ∧
  (∀ j, Happens .jobPark
    (fun s => s.frozen s.inp.a = false ∧ runningJob s s.inp.a = some j ∧ (s.pontoon s.inp.a).preempt = false ∧
      2 ≤ (s.pontoon s.inp.a).drift)
    (fun s => raiseDrift (s.modPontoon s.inp.a fun po => { po with
      job := some { j with parked := 2, parkedOnce := true }, drift := 3, round := 0 }) s.inp.a 0x74)) ∧
  Happens .driftEstimate
    (fun s => s.inp.a < 12800 ∧ s.inp.b < 32 ∧ s.inp.c = 0 ∧
      ∀ x, (s.pontoon s.inp.a).lastHeat.find s.inp.b = some x → x.toNat + 8192 ≤ s.tide.toNat)
    (fun s => driftMove (s.modPontoon s.inp.a fun po => { po with
      det := (List.range 32).foldl (fun m r => m.put (32 * s.inp.b + r) (s.inp.ints.getD r 0)) po.det }) s.inp.a) ∧
  Happens .bankSettled
    (fun s => s.inp.a < 12800 ∧ s.inp.b < 32 ∧ (s.pontoon s.inp.a).settled.contains s.inp.b = false ∧
      ∀ x, (s.pontoon s.inp.a).lastHeat.find s.inp.b = some x → x.toNat + 8192 ≤ s.tide.toNat)
    (fun s => s.modPontoon s.inp.a fun po => { po with settled := po.settled ++ [s.inp.b] }) ∧
  Happens .pthrsWrite
    (fun s => s.inp.a < 12800 ∧ 0 < s.inp.w.toNat % 2 ^ 16 ∧ s.inp.w.toNat % 2 ^ 16 < s.inp.w.toNat / 2 ^ 16 % 2 ^ 16 ∧
      s.inp.w.toNat / 2 ^ 16 % 2 ^ 16 ≤ 4095)
    (fun s => s.modCluster s.inp.a fun c => { c with warn := s.inp.w.toNat % 2 ^ 16, retn := s.inp.w.toNat / 2 ^ 16 % 2 ^ 16 }) ∧
  (∀ q, HappensTo .pcalComplete
    (fun s => s.inp.a < 12800 ∧ (s.pontoon s.inp.a).pcal = some (false, q))
    (fun s t => (t.pontoon s.inp.a).pcal = none ∧ (t.pontoon s.inp.a).pcalDone = some (q, 0))) ∧
  HappensTo .pcalComplete
    (fun s => s.inp.a < 12800 ∧ (s.pontoon s.inp.a).pcal = none ∧ (s.cluster s.inp.a).pontoonUp = false)
    (fun s t => (t.cluster s.inp.a).pontoonUp = true) ∧
  (∀ a b go tm since i v s,
    let q := s.inp.a
    let u := beginHead { v with cur := q } (.psettle a b go tm)
    currentInstr s q = some (v, .psettle a b go tm) → (s.proc q).wait = .engine since → since.toNat + 1024 * tm.toNat ≤ s.tide.toNat →
    v.tide = s.tide → ready { v with cur := q } (.psettle a b go tm) = true → alone { v with cur := q } = true → tm ≠ 0 →
    u.me.wait = .engine since →
    ((List.range 32).filter fun k => (u.myReg b).getLsbD k && !(u.pontoon (clusterOf q)).settled.contains k).head? = some i →
    Sys2Proof.Machine.exec .settleTimeout s = .next (trapHead u [(q, 0x73, wNat i)] u.me.r.pc)) ∧
  Happens .sequencerRetune
    (fun s =>
      let po := s.pontoon s.inp.a
      let banks := banksAtOrAbove po (s.cluster s.inp.a).retn
      s.inp.a < 12800 ∧ runsDefault s (640 + s.inp.a) = true ∧ po.pevRt = true ∧ po.round < 2 ∧ banks ≠ [] ∧ ∀ i ∈ banks, po.settled.contains i = true)
    (fun s => s.modPontoon s.inp.a fun po =>
      { retuneRound po s.tide (banksAtOrAbove po (s.cluster s.inp.a).retn) (po.round == 0) with round := po.round + 1 }) ∧
  Happens .sequencerRetune
    (fun s =>
      let po := s.pontoon s.inp.a
      s.inp.a < 12800 ∧ runsDefault s (640 + s.inp.a) = true ∧ po.pevRt = true ∧ po.round = 2 ∧ banksAtOrAbove po (s.cluster s.inp.a).retn ≠ [] ∧
      ∀ i ∈ banksAtOrAbove po (s.cluster s.inp.a).retn, po.settled.contains i = true)
    (fun s => pushEfault (s.modPontoon s.inp.a fun po => { po with round := 3 }) 1 s.inp.a 0x74 0)

/-- The steps of a tow session (R354 to R380): it starts, or a resume continues one that was stopped; it acts on the block at cb that
its checks let through, on a WTILE or a RUN at once or in several steps; it stops, parks and completes, with the rows it delivered
undefined unless it is DONE (R8); a block that fails a check stops it. Who acts and which data the environment brings are arguments
of the step (log entries 5, 44). -/
def Obligations.TowStepsComplete : Prop :=
  let at' := fun (s : State) (w : Tow) (op : Nat) (h : List Word) (body : List Byte) (s1 : State) =>
    (s.pontoon s.inp.a).tow = some w ∧ towMoves s s.inp.a w = true ∧ w.hdr = [] ∧ readBlock s s.inp.a w = (s1, h, .ok body) ∧
    (h.getD 0 0).toNat % 256 = op
  let go := fun (t : State) (gc : Nat) (w : Tow) (dest : Word) =>
    t.modPontoon gc fun po => { po with tow := some { w with
      cb := dest, ph := 0, sub := 0, hdr := [], pay := [], dec := none, seq := 0, blocks := w.blocks + 1, waits := false }}
  let put := fun (t : State) (gc : Nat) (w : Tow) => t.modPontoon gc fun po => { po with tow := some w }
  let op := fun (h : List Word) (i : Nat) => h.getD (3 + i) 0
  let q := fun (s : State) => hartQOf (640 + s.inp.a)
  let completes := fun (s : State) (w : Tow) (c : Nat) =>
    (s.pontoon s.inp.a).tow = some w ∧ w.done = some c ∧ handlerLive s s.inp.a (·.tow) = false ∧ storesDone s (q s) 2 = true ∧
    storesLost s (q s) 2 = false
  let left := fun (s : State) (w : Tow) (c : Nat) =>
    if c = 0 then (dropStores s (q s) 2, w) else leaveSession (dropStores s (q s) 2) s.inp.a w
  let frame := fun (w : Tow) (c : Nat) => frameOf c 2 w.req.rid.toNat w.seq
    (w.flags / 128 + 2 ^ 5 * w.worst + 2 ^ 7 * b2n w.parkedOnce + 2 ^ 32 * w.blocks)
  (∀ r rest, HappensTo .towSessionStart
    (fun s =>
      let po := s.pontoon s.inp.a
      s.inp.a < 12800 ∧ (s.proc (hartQOf (640 + s.inp.a))).stopped = false ∧ po.tow = none ∧ po.job = none ∧ po.tail = none ∧
      (s.engine (640 + s.inp.a)).queue = r :: rest ∧ r.op = 0xAB ∧ engineDown s s.inp.a = false ∧ r.args.headD 0 = 0)
    (fun s t => (t.pontoon s.inp.a).tow = some { req := r, cap := r, cb := r.dw 0 } ∧ (t.engine (640 + s.inp.a)).queue = rest ∧
      (t.proc (hartQOf (640 + s.inp.a))).vf = r.vf)) ∧
  (∀ r w, HappensTo .towSessionStart
    (fun s =>
      s.inp.a < 12800 ∧ (s.proc (hartQOf (640 + s.inp.a))).stopped = false ∧ (s.pontoon s.inp.a).tow = some w ∧
      (s.engine (640 + s.inp.a)).queue.find? isResume = some r ∧ engineDown s s.inp.a = false ∧ w.st = 2 ∧ w.leaving = false ∧
      r.vrec = w.cap.vrec ∧ r.args.drop 1 = w.rr)
    (fun s t => ∃ k, (t.pontoon s.inp.a).tow = some k ∧ k.req = r ∧ k.st = 0 ∧ k.cb = w.cb ∧ k.ph = w.ph ∧ k.sub = w.sub ∧
      k.stack = w.stack ∧ k.a = w.a ∧ k.n = w.n ∧ k.u = w.u)) ∧
  (∀ w h body s1 t, Happens .towWtile
    (fun s => at' s w 1 h body s1 ∧ w.dec = none ∧ (coreWaits s1 s.inp.a = false ∨ hCodec h = 0) ∧ wtile s1 s.inp.a h body = .ok t)
    (fun s => go s1 s.inp.a { w with shadow := some t, lwt := some w.cb } (succOf w h))) ∧
  (∀ w t, Happens .towWtile
    (fun s => (s.pontoon s.inp.a).tow = some w ∧ towMoves s s.inp.a w = true ∧ w.hdr ≠ [] ∧ (w.hdr.getD 0 0).toNat % 256 = 1 ∧
      coreWaits s s.inp.a = false ∧
      wtileFrom s s.inp.a w.hdr ((w.dec.map fun e => w.pay.drop e.1).getD w.pay) ((w.dec.map fun e => e.2).getD []) = .ok t)
    (fun s => go s s.inp.a { w with shadow := some t, lwt := some w.cb } (succOf w w.hdr))) ∧
  (∀ w h body s1 s2 bs, HappensTo .towRun
    (fun s => at' s w 2 h body s1 ∧ op h 0 ≠ 0 ∧ w.ph = 0 ∧ w.pay = [] ∧ s.inp.w = 0 ∧ s.inp.c = 0 ∧ s1.inp = s.inp ∧
      pontoonRead s1 s.inp.a w.cap (op h 0) (32 * w.depth) = .ok (s2, bs))
    (fun s t =>
      let drift := (s1.pontoon s.inp.a).drift
      let bank := w.shadow.getD w.bank
      ∃ k, (t.pontoon s.inp.a).tow = some k ∧ k.bank = bank ∧ k.shadow = none ∧ k.cb = succOf w h ∧ k.runs = w.runs + 1 ∧
        k.n = streamTile bank w.split w.gain w.shift w.depth (if drift = 0 then 1 else 3) s2.freeCtr
          (fun b => ((bs.drop (32 * b)).take 32).map BitVec.toNat) 0 w.n)) ∧
  (∀ w, HappensTo .towRun
    (fun s =>
      let done := if w.ph = 1 then w.sub else 0
      (s.pontoon s.inp.a).tow = some w ∧ towMoves s s.inp.a w = true ∧ w.hdr ≠ [] ∧ (w.hdr.getD 0 0).toNat % 256 = 2 ∧
      op w.hdr 0 ≠ 0 ∧ w.pay.length = 32 * w.depth ∧ s.inp.w ≠ 0 ∧ done + s.inp.w.toNat < slotCount w.split w.depth)
    (fun s t =>
      let done := if w.ph = 1 then w.sub else 0
      let drift := (s.pontoon s.inp.a).drift
      let bank := w.shadow.getD w.bank
      ∃ k, (t.pontoon s.inp.a).tow = some k ∧ k.bank = bank ∧ k.shadow = none ∧ k.cb = w.cb ∧ k.ph = 1 ∧
        k.sub = done + s.inp.w.toNat ∧ k.runs = w.runs ∧
        k.n = streamSlots bank w.split w.gain w.shift w.depth (if drift = 0 then 1 else 3) s.freeCtr
          (fun b => ((w.pay.drop (32 * b)).take 32).map BitVec.toNat) done (done + s.inp.w.toNat) w.n)) ∧
  (∀ w h body s1 s2 sc, HappensTo .towPromote
    (fun s => at' s w 3 h body s1 ∧ w.out = [] ∧ towScales s1 s.inp.a w h = .ok (s2, sc))
    (fun s t =>
      let e := promoteAll w.n w.a w.depth w.gain w.shift w.u w.cap.ctl (fun i => sc.getD i 0) fun _ => 0
      ∃ k, (t.pontoon s.inp.a).tow = some k ∧ k.a = e.1 ∧ k.n = [] ∧ k.u = w.u + 1 ∧ k.flags = w.flags ||| e.2 ∧ k.cb = succOf w h)) ∧
  (∀ w h body s1, HappensTo .towDrain
    (fun s => at' s w 4 h body s1 ∧ w.ph = 0 ∧ hRk h = 5 ∧ 1 < w.depth)
    (fun s t => ∃ k, (t.pontoon s.inp.a).tow = some k ∧ k.hdr = h ∧ k.ph = 2 ∧ k.sub = 1 ∧
      ∀ j, (hj : j < 128) → t.byteAt (spKey s.inp.a (128 * ((op h 0).toNat % 2 ^ 16) + j)) =
        (w.rowBytes 0).getD j 0)) ∧
  (∀ w h body s1, HappensTo .towRoute
    (fun s => at' s w 5 h body s1 ∧ hRk h ≠ 4)
    (fun s t => ∃ k, (t.pontoon s.inp.a).tow = some k ∧ k.rk = hRk h ∧ k.rs = hRs h ∧ k.rv = (op h 0).toNat % 2 ^ 16 ∧
      k.cb = succOf w h)) ∧
  (∀ w h body s1, HappensTo .towSync
    (fun s => at' s w 6 h body s1 ∧ w.out = [] ∧ op h 0 = 1 ∧ (op h 1).toNat ≤ s1.tide.toNat)
    (fun s t => ∃ k, (t.pontoon s.inp.a).tow = some k ∧ k.cb = succOf w h)) ∧
  (∀ w h body s1 dest, HappensTo .towBranch
    (fun s => at' s w 7 h body s1 ∧ w.out = [] ∧ linkTarget w.cb (hPlen h) (op h 1) = some dest)
    (fun s t => ∃ k, (t.pontoon s.inp.a).tow = some k ∧
      k.cb = if s1.natAt (spKey s.inp.a (op h 0).toNat) 8 ≠ 0 then dest else succOf w h)) ∧
  (∀ w h body s1 dest, HappensTo .towCall
    (fun s => at' s w 8 h body s1 ∧ w.stack.length < 8 ∧ linkTarget w.cb (hPlen h) (op h 0) = some dest)
    (fun s t => ∃ k, (t.pontoon s.inp.a).tow = some k ∧ k.cb = dest ∧ k.stack = w.stack ++ [succOf w h])) ∧
  (∀ w h body s1, HappensTo .towCall
    (fun s => at' s w 8 h body s1 ∧ 8 ≤ w.stack.length)
    (fun s t => ∃ k, (t.pontoon s.inp.a).tow = some k ∧ k.fail = some 0x79)) ∧
  (∀ w h body s1 st dest, HappensTo .towRet
    (fun s => at' s w 9 h body s1 ∧ w.stack = st ++ [dest])
    (fun s t => ∃ k, (t.pontoon s.inp.a).tow = some k ∧ k.cb = dest ∧ k.stack = st)) ∧
  (∀ w h body s1, HappensTo .towExitBlock
    (fun s => at' s w 10 h body s1 ∧ w.out = [])
    (fun s t => ∃ k, (t.pontoon s.inp.a).tow = some k ∧ k.st = 3 ∧ k.done = some 0 ∧ k.blocks = w.blocks + 1)) ∧
  (∀ w h s1, HappensTo .towReservedBlock
    (fun s => (s.pontoon s.inp.a).tow = some w ∧ towMoves s s.inp.a w = true ∧ w.hdr = [] ∧ readBlock s s.inp.a w = (s1, h, .error 0x78))
    (fun s t => ∃ k, (t.pontoon s.inp.a).tow = some k ∧ k.fail = some 0x78)) ∧
  (∀ w c v k, Happens .towStop
    (fun s => (s.pontoon s.inp.a).tow = some w ∧ w.fail = some c ∧ w.done = none ∧ w.st = 0 ∧ writeRestart s s.inp.a w c = .ok (v, k))
    (fun s => put v s.inp.a { k with
      st := 2, status := c, done := some c, fail := none, hdr := [], pay := [], dec := none, waits := false })) ∧
  (∀ w v k, Happens .towPark
    (fun s => (s.pontoon s.inp.a).tow = some w ∧ w.st = 0 ∧ w.fail = none ∧ w.done = none ∧ w.leaving = false ∧
      (s.proc (hartQOf (640 + s.inp.a))).stopped = false ∧ (s.pontoon s.inp.a).preempt = true ∧
      writeRestart s s.inp.a w 0 = .ok (v, k))
    (fun s => put v s.inp.a { k with hdr := [], pay := [], dec := none, waits := false })) ∧
  (∀ w, Happens .towStop
    (fun s => (s.pontoon s.inp.a).tow = some w ∧ w.fail = none ∧ w.done = none ∧ w.leaving = true ∧ w.st ≤ 1)
    (fun s => put s s.inp.a { w with st := 3, done := some 0x64, hdr := [], pay := [], dec := none, waits := false })) ∧
  (∀ w c, Happens .towCompletion
    (fun s => completes s w c ∧ (w.st ≠ 2 ∨ w.leaving = true))
    (fun s => (post (payOwed (left s w c).1 s.inp.a w) (640 + s.inp.a) w.req (frame w c)).modPontoon s.inp.a fun po =>
      { po with tow := none })) ∧
  (∀ w c, Happens .towCompletion
    (fun s => completes s w c ∧ w.st = 2 ∧ w.leaving = false)
    (fun s => put (post (payOwed (left s w c).1 s.inp.a w) (640 + s.inp.a) w.req (frame w c)) s.inp.a
      { (left s w c).2 with done := none, owed := [] }))

/-- The steps of a Ford port engine (R386 to R389, R394, R403 to R409, R415, R418, R435): it takes and checks a request and reads its
source, runs its frames, those its microcode asks for among them, and completes it once its stores are acknowledged, or ends it with
its destination undefined, but for a killed one, which writes nothing; a fenced attachment lights nothing (log entry 62); a row of a
tow session is handed over; a census and a notice are received; a re-form ends the requests; the fallback forms the result or times
out; fsegctl is written, a new limit alone once no request is in hand; FALIGN's training ends for every agent that waits for it. Who
acts and which data the environment brings are arguments of the step (log entries 5, 45, 61). -/
def Obligations.FordStepsComplete : Prop :=
  let hand := fun (t : State) (a : Nat) (j : FordJob) => t.modFord a fun p => { p with hand := some j }
  let q := fun (s : State) => hartQOf (13440 + s.inp.a)
  let default := fun (s : State) => runsDefault s (13440 + s.inp.a) = true
  let runs := fun (s : State) (j : FordJob) => (s.ford s.inp.a).hand = some j ∧ j.fail = none ∧ j.loaded = true
  let frame := fun (j : FordJob) (status : Nat) => frameOf status 3 j.req.rid.toNat j.frames
    (j.replays + 2 ^ 8 * (j.flags / 128) + 2 ^ 13 * b2n j.late + 2 ^ 14 * b2n j.fbk +
      (if status = 0x80 then 2 ^ 15 * b2n j.pop + 2 ^ 16 * j.failWin else 0) +
      2 ^ 32 * (if status = 0x80 ∨ status = 0x81 then j.failFrame else 0))
  let ends := fun (t : State) (a : Nat) (j : FordJob) (status : Nat) =>
    post ((t.modFord a fun p => { p with hand := none }).modSeg a fun c =>
      { c with lim := c.limNext.getD c.lim, limNext := none }) (13440 + a) j.req (frame j status)
  let takes := fun (s : State) (r : Request) (rest : List Request) (v : State) (j : FordJob) =>
    s.inp.a < 16 ∧ default s ∧ (s.ford s.inp.a).hand = none ∧ (s.engine (13440 + s.inp.a)).queue = r :: rest ∧
    takeFord (s.modEngine (13440 + s.inp.a) fun e => { e with queue := rest }) s.inp.a r = (v, j)
  let asks := fun (s : State) (j : FordJob) (k : Nat) =>
    (s.ford s.inp.a).hand = some j ∧ j.fail = none ∧
    (default s ∧ j.loaded = true ∧ j.want = none ∧ k = j.frames ∨
      (s.proc (q s)).loaded = true ∧ (s.proc (q s)).stopped = false ∧ j.want = some k) ∧
    j.fbk = false ∧ k < j.total ∧ j.start k ≤ leadTick s s.inp.a ∧ ∀ e, (s.ford s.inp.a).reform = some e → j.start k < e
  let writes := fun (s : State) (j : FordJob) (v : State) (k : FordJob) =>
    runs s j ∧ default s ∧ j.frames = j.total ∧ j.req.killed = false ∧ j.written = false ∧
    ∃ w, writeFord s s.inp.a j = .ok (w, k) ∧ v = ownStores s w (q s) 1
  (∀ r rest v j w k, Happens .fordRequestTake
    (fun s => takes s r rest v j ∧ j.fail = none ∧ loadFord v s.inp.a j = (w, k) ∧ ∀ c, k.fail = some c → isWait c = false)
    (fun s => hand w s.inp.a k)) ∧
  (∀ r rest v j c, Happens .fordRequestTake
    (fun s => takes s r rest v j ∧ j.fail = some c ∧ isWait c = false)
    (fun s => hand v s.inp.a j)) ∧
  (∀ j k, Happens .fordFrame
    (fun s => asks s j k ∧ (s.seg s.inp.a).fen = false ∧ (if k < j.nx then j.agreed.length else j.res.length) = j.first k)
    (fun s =>
      let j0 := if k = j.nx ∧ j.block = true ∧ j.aligned = false then realign j else j
      let r := runFrame { job := j0, k := k, read := s.inp.ints.map fun x => (x % ((j.lim : Int) + 1)).toNat, mine := mineOf s s.inp.a j0 k }
      s.modFord s.inp.a fun p => { p with
        hand := some { r with want := none }, lastEnd := j0.start k / 3 * 80 + (9 * j0.windows k + 8)
        replays := satAdd (2 ^ 32 - 1) p.replays (r.used.foldl (· + ·) 0)
        failed := if r.fail.isSome then satAdd 65535 p.failed 1 else p.failed })) ∧
  (∀ j k, Happens .fordFrame
    (fun s => asks s j k ∧ (s.seg s.inp.a).fen = true)
    (fun s => hand s s.inp.a { j with fail := some 0x70, want := none })) ∧
  (∀ j v k, Happens .fordComplete
    (fun s => writes s j v k ∧ storesDone v (q s) 1 = true ∧ storesLost v (q s) 1 = false)
    (fun s => ends (dropStores v (q s) 1) s.inp.a k 0)) ∧
  (∀ j v k, Happens .fordComplete
    (fun s => writes s j v k ∧ storesDone v (q s) 1 = false)
    (fun s => hand v s.inp.a { k with written := true })) ∧
  (∀ j, Happens .fordComplete
    (fun s => runs s j ∧ default s ∧ j.frames = j.total ∧ j.req.killed = false ∧ j.written = true ∧
      storesDone s (q s) 1 = true ∧ storesLost s (q s) 1 = false)
    (fun s => ends (dropStores s (q s) 1) s.inp.a j 0)) ∧
  (∀ j c, Happens .fordComplete
    (fun s => (s.ford s.inp.a).hand = some j ∧ default s ∧ j.fail = some c ∧ c ≠ 0)
    (fun s => ends (if j.req.killed then s else leaveFord s s.inp.a j) s.inp.a j c)) ∧
  (∀ w sel v, Happens .fordTowHandover
    (fun s => (s.pontoon s.inp.a).tow = some w ∧ w.hdr ≠ [] ∧ w.ph = 2 ∧ towMoves s s.inp.a w = true ∧
      drainRoute w w.hdr = (4, sel, v) ∧ queueFull s (13440 + sel) = false)
    (fun s => (acceptKick s (13440 + sel) (towCollective s w sel w.sub v)).modPontoon s.inp.a fun po => { po with
      tow := some (rowGone { w with a := w.a.filter fun e => !decide (e.1 % 64 = w.sub) }) })) ∧
  Happens .fordCensus (fun s => s.inp.a < 16 ∧ leadTick s s.inp.a % 3072 = 0)
    (fun s =>
      let own := wNat (2 ^ (s.seg s.inp.a).pos)
      let lit := (s.ford s.inp.a).enr.isSome && !(s.seg s.inp.a).fen && !busOff s s.inp.a
      s.modFord s.inp.a fun p => { p with
        census := (if lit then s.inp.w ||| own else s.inp.w &&& ~~~own) ^^^ BitVec.ofInt 64 (s.inp.ints.headD 0), censusOk := true }) ∧
  Happens .fordReformNotice (fun s => s.inp.a < 16) (fun s => s.modFord s.inp.a fun p => { p with reform := some s.inp.b }) ∧
  (∀ e, HappensTo .fordReformApply
    (fun s => (s.ford s.inp.a).reform = some e ∧ e ≤ leadTick s s.inp.a ∧ (s.ford s.inp.a).hand = none ∧
      (s.engine (13440 + s.inp.a)).queue = [])
    (fun s t => (t.seg s.inp.a).algn = false ∧ (t.ford s.inp.a).censusOk = false ∧ (t.ford s.inp.a).reform = none)) ∧
  (∀ e j, HappensTo .fordReformApply
    (fun s => (s.ford s.inp.a).reform = some e ∧ e ≤ leadTick s s.inp.a ∧ (s.ford s.inp.a).hand = some j ∧ j.req.killed = false ∧
      (s.ford s.inp.a).lastEnd ≤ leadTick s s.inp.a / 3 * 80 ∧ (s.engine (13440 + s.inp.a)).queue = [])
    (fun s t => (t.seg s.inp.a).algn = false ∧ (t.ford s.inp.a).hand = some { j with
      fail := some 0x81, failFrame := j.frames, want := none })) ∧
  (∀ e r, HappensTo .fordReformApply
    (fun s => (s.ford s.inp.a).reform = some e ∧ e ≤ leadTick s s.inp.a ∧ (s.ford s.inp.a).hand = none ∧
      (s.engine (13440 + s.inp.a)).queue = [r] ∧ r.killed = false ∧ r.toMem = none)
    (fun s t => (t.engine (13440 + s.inp.a)).queue = [] ∧
      (t.core (coreOf r.q)).jetty = (s.core (coreOf r.q)).jetty ++ [frame { req := r } 0x81])) ∧
  (∀ j, HappensTo .fordFallbackCollective
    (fun s => runs s j ∧ (s.proc (q s)).stopped = false ∧ j.fbk = true ∧ j.frames ≠ j.total ∧ j.start 0 ≤ leadTick s s.inp.a ∧
      j.etype ≠ 0 ∧ j.etype ≠ 11 ∧ j.kind = 0 ∧ isWriter s s.inp.a j = false ∧ j.writers.length = 1)
    (fun s t => ∃ k, (t.ford s.inp.a).hand = some k ∧ k.frames = j.total ∧ k.want = none ∧
      k.res = (List.range j.nel).map fun i => (s.inp.ints.take j.nel).getD i 0)) ∧
  (∀ j, Happens .fordFallbackTimeout
    (fun s => runs s j ∧ j.fbk = true ∧ j.frames ≠ j.total ∧ j.start 0 + fallbackBound s j ≤ leadTick s s.inp.a)
    (fun s => hand s s.inp.a (if s.inp.b = 1 then { j with fail := some 0x2C, want := none }
      else { j with fail := some 0x80, pop := true, want := none }))) ∧
  Happens .fsegctlWrite
    (fun s => s.inp.a < 16 ∧ s.inp.w.toNat / 2 ^ 3 % 2 ^ 6 = (s.seg s.inp.a).pos ∧ s.inp.w.toNat / 2 ^ 9 % 2 ^ 16 = (s.seg s.inp.a).sgid ∧
      ((s.ford s.inp.a).hand = none ∨ s.inp.w.getLsbD 25 ≠ (s.seg s.inp.a).fbk ∨ s.inp.w.getLsbD 26 ≠ (s.seg s.inp.a).fen) ∧
      (s.inp.w.getLsbD 26 = false ∨ (s.seg s.inp.a).fen = true))
    (fun s => s.modSeg s.inp.a fun c => { c with
      lim := s.inp.w.toNat % 8, limNext := none, pos := s.inp.w.toNat / 2 ^ 3 % 2 ^ 6, sgid := s.inp.w.toNat / 2 ^ 9 % 2 ^ 16
      fbk := s.inp.w.getLsbD 25, fen := s.inp.w.getLsbD 26 }) ∧
  (∀ j, Happens .fsegctlWrite
    (fun s => s.inp.a < 16 ∧ s.inp.w.toNat / 2 ^ 3 % 2 ^ 6 = (s.seg s.inp.a).pos ∧ s.inp.w.toNat / 2 ^ 9 % 2 ^ 16 = (s.seg s.inp.a).sgid ∧
      (s.ford s.inp.a).hand = some j ∧ s.inp.w.getLsbD 25 = (s.seg s.inp.a).fbk ∧ s.inp.w.getLsbD 26 = (s.seg s.inp.a).fen)
    (fun s => s.modSeg s.inp.a fun c => { c with limNext := some (s.inp.w.toNat % 8) })) ∧
  HappensTo .fsegctlWrite
    (fun s => s.inp.a < 16 ∧ (s.inp.w.toNat / 2 ^ 3 % 2 ^ 6 ≠ (s.seg s.inp.a).pos ∨ s.inp.w.toNat / 2 ^ 9 % 2 ^ 16 ≠ (s.seg s.inp.a).sgid))
    (fun s t =>
      let e := 3 * ((leadTick s s.inp.a + 768 + 2) / 3)
      (t.seg s.inp.a).algn = false ∧ (t.seg s.inp.a).pos = s.inp.w.toNat / 2 ^ 3 % 2 ^ 6 ∧ (t.ford s.inp.a).reform = some e ∧
      ∀ b, b < 16 → (s.seg b).sgid = (s.seg s.inp.a).sgid → (t.ford b).reform = some e) ∧
  (∀ qs, Happens .falignTrained (fun s => (s.ford s.inp.a).training = qs ∧ qs ≠ [] ∧ s.inp.b = 1)
    (fun s => s.modFord s.inp.a fun p => { p with training := [], trained := qs.foldl (fun m q => m.put q 1) p.trained })) ∧
  (∀ qs, Happens .falignTrained (fun s => (s.ford s.inp.a).training = qs ∧ qs ≠ [] ∧ s.inp.b ≠ 1)
    (fun s => (s.modSeg s.inp.a fun c => { c with algn := true }).modFord s.inp.a fun p =>
      { p with training := [], trained := qs.foldl (fun m q => m.put q 0) p.trained, skew := s.inp.ints.headD 0 })) ∧
  HappensTo .fsegctlWrite
    (fun s => s.inp.a < 16 ∧ s.inp.w.getLsbD 26 = true ∧ (s.seg s.inp.a).fen = false)
    (fun s t => (t.seg s.inp.a).fen = true ∧ t.rrq = true ∧ t.msix = s.msix ++ [(0, 3)])

/-- The steps of links, switches and Pilots (R134, R420, R422 to R425, R427, R432 to R440, R466): a load of another node is served and
answered, an acknowledgement ends its store, a drain marker and its acknowledgement are noted; a remote access times out; a remote
store is acknowledged or lost; the route banks swap; a switch holds and drains, goes dark, relocks and commits, fenced ports apart;
the Tide counter counts; a sample sets what tsync reads; a codeword is counted, and its packets' replays; a port trains, retrains,
fails to, comes up, is fenced and cleared; a Pilot's watchdog is fed, resets its hart alone, and the hart restarts from its shadow
or with the image it loads. Who acts and which data the environment brings are arguments of the step (log entries 5, 24, 25, 47,
62). -/
def Obligations.LinkStepsComplete : Prop :=
  let takes := fun (s : State) => s.inp.a < 48 ∧ ((s.port s.inp.a).st = 2 ∨ (s.port s.inp.a).st = 3)
  let packet := fun (s : State) (c : Nat) (xs : List Int) => s.inp.ints = Int.ofNat c :: xs ∧ takes s ∧
    heldFor s s.inp.b = false ∧ routeOf (activeBank s) s.inp.b = some 63
  let step := fun (s : State) => stepOf (s.switch s.inp.a) (s.switch s.inp.a).slot (s.switch s.inp.a).step
  let fire := fun (s : State) => (s.switch s.inp.a).armed.toNat + (step s).dt
  let each := fun (s : State) (m : Nat) (f : LinkPort → LinkPort) =>
    (portsOf m).foldl (fun t p => t.modPort p fun x => if x.st = 6 then x else f x) s
  (∀ q n va g since vf p, p ≠ 63 → HappensTo .packetForward
    (fun s => packet s 0 [Int.ofNat q, 0, Int.ofNat va, Int.ofNat g, Int.ofNat since, Int.ofNat vf, Int.ofNat n] ∧
      isOwnMem s s.inp.w.toNat = true ∧ heldFor s s.inp.c = false ∧
      routeOf (activeBank s) s.inp.c = some p ∧ (s.port p).st = 2)
    (fun s t => t.fab.outbox = s.fab.outbox ++ [(p,
      { dest := s.inp.c, src := s.fab.node, requester := q, addr := s.inp.w.toNat, va := wNat va, hops := 1, agent := g
        since := wNat since, vf := vf, kind := .answer (s.natAt s.inp.w.toNat n) })])) ∧
  (∀ q va g xs, Happens .packetForward (fun s => packet s 5 (Int.ofNat q :: 0 :: Int.ofNat va :: Int.ofNat g :: xs))
    (fun s => s.modProc g fun p => { p with remoteOut := removeFirst (fun e => e.va == wNat va && !e.lost) p.remoteOut })) ∧
  (∀ xs, Happens .packetForward (fun s => takes s ∧ s.inp.ints = 8 :: xs)
    (fun s => s.modPort s.inp.a fun p => { p with peerDrained := true })) ∧
  (∀ xs, Happens .packetForward (fun s => takes s ∧ s.inp.ints = 9 :: xs)
    (fun s => s.modPort s.inp.a fun p => { p with drainAcked := true })) ∧
  (∀ since sent ans va, Happens .remoteAccessTimeout
    (fun s => (s.proc s.inp.a).wait = .remote since sent ans va ∧ s.fab.tmo ≤ s.tide.toNat - since.toNat)
    (fun s => trapHead { s with cur := s.inp.a } [(s.inp.a, 0x2C, va)] (s.proc s.inp.a).r.pc)) ∧
  Happens .remoteStoreAck (fun _ => True)
    (fun s => s.modProc s.inp.a fun p => { p with remoteOut := removeFirst (fun e => e.va == s.inp.w && !e.lost) p.remoteOut }) ∧
  (∀ e rest, HappensTo .remoteStoreLost
    (fun s => (s.proc s.inp.a).remoteOut = e :: rest ∧ e.va = s.inp.w ∧ e.lost = false ∧
      (s.inp.b = 1 ∨ s.fab.tmo ≤ s.tide.toNat - e.sent.toNat))
    (fun s t => (t.proc s.inp.a).remoteOut = { e with lost := true } :: rest)) ∧
  HappensTo .routeCommit (fun s => s.fab.held = [])
    (fun s t => t.fab.ver = s.fab.sver ∧ t.fab.sver = s.fab.ver ∧ t.fab.bank = !s.fab.bank) ∧
  Happens .switchHoldDrain
    (fun s => (s.switch s.inp.a).st = 1 ∧ (s.switch s.inp.a).phase = 0 ∧ fire s ≤ s.tide.toNat + (step s).dl ∧ (step s).amask = 0)
    (fun s => (each s (step s).pmask fun p =>
      { p with st := if p.st = 2 then 3 else p.st, drained := true, drainAcked := false }).modSwitch s.inp.a fun c =>
        { c with st := 2, phase := 1 }) ∧
  HappensTo .switchHoldDrain
    (fun s => (s.switch s.inp.a).st = 1 ∧ (s.switch s.inp.a).phase = 0 ∧ fire s ≤ s.tide.toNat + (step s).dl)
    (fun s t => (t.switch s.inp.a).phase = 1 ∧ ∀ a b, a < 16 → b < 16 → (step s).amask.testBit a = true →
      (s.seg b).sgid = (s.seg a).sgid → (t.ford b).reform.isSome = true) ∧
  HappensTo .switchDark
    (fun s => (s.switch s.inp.a).phase = 1 ∧ fire s ≤ s.tide.toNat)
    (fun s t => (t.switch s.inp.a).phase = 2 ∧ ∀ p ∈ portsOf (step s).pmask, (t.pilot p).ocfg = some (s.inp.a, (step s).ocfg) ∧
      (t.port p).st = (if (s.port p).st = 6 then 6 else 4) ∧
      ((s.port p).drained = true → (s.port p).peerDrained = true → (s.port p).drainAcked = true → (t.port p).lost = (s.port p).lost)) ∧
  Happens .switchRelock
    (fun s => (s.switch s.inp.a).phase = 2 ∧ fire s + (step s).dk ≤ s.tide.toNat)
    (fun s => (each s (step s).pmask fun p => { p with st := 5, since := s.tide }).modSwitch s.inp.a fun c => { c with phase := 3 }) ∧
  HappensTo .switchCommit
    (fun s => (s.switch s.inp.a).phase = 3 ∧ fire s + (step s).dk + (step s).rq ≤ s.tide.toNat ∧ s.fab.held = [] ∧
      s.fab.sver = (step s).rver)
    (fun s t => t.fab.ver = s.fab.sver ∧ t.fab.bank = (!s.fab.bank) ∧ (t.switch s.inp.a).phase = 0 ∧
      (t.switch s.inp.a).st = (if (s.switch s.inp.a).step + 1 = stepCount (s.switch s.inp.a) (s.switch s.inp.a).slot then 0 else 1) ∧
      ∀ p ∈ portsOf (step s).pmask, (s.port p).st ≠ 6 → (t.port p).drained = false ∧ (t.port p).peerDrained = false ∧
        (t.port p).st = if (s.port p).st = 2 then 2 else 0) ∧
  HappensTo .switchCommit
    (fun s => (s.switch s.inp.a).phase = 3 ∧ fire s + (step s).dk + (step s).rq ≤ s.tide.toNat ∧ s.fab.held = [] ∧
      s.fab.sver ≠ (step s).rver)
    (fun s t => t.fab.ver = s.fab.ver ∧ t.fab.bank = s.fab.bank ∧ (t.switch s.inp.a).phase = 0 ∧ (t.switch s.inp.a).verr = true) ∧
  Happens .tideTick (fun s => s.inp.ints = []) (fun s => { s with tide := s.tide + 1 }) ∧
  HappensTo .tideTick (fun _ => True) (fun s t => t.tide = s.tide + 1 ∧ t.mem = s.mem ∧ ∀ x ∈ s.inp.ints, x.toNat ∈ t.poison) ∧
  HappensTo .tideSample (fun _ => True)
    (fun s t =>
      let d : Int := (s.tide.toNat : Int) - ((s.inp.w.toNat : Int) + s.inp.a)
      tsyncOf t = (s.fab.trefEn && (s.fab.node == s.fab.rnode || (decide (-1 ≤ d) && decide (d ≤ 1) &&
        (decide (s.inp.c = 1) == s.full) && s.inp.ints.any fun p => decide ((s.port p.toNat).st = 2)))) ∧ t.tide = s.tide) ∧
  HappensTo .codewordReceive
    (fun s => takes s ∧ s.inp.b < 64 ∧ s.inp.c ≤ 15)
    (fun s t => (t.port s.inp.a).bins.get (17 * s.inp.b + s.inp.c) 0 = min (2 ^ 32 - 1) ((s.port s.inp.a).bins.get (17 * s.inp.b + s.inp.c) 0 + 1) ∧
      (t.port s.inp.a).st = (s.port s.inp.a).st) ∧
  (∀ k : Nat, HappensTo .codewordReceive
    (fun s => takes s ∧ s.inp.b < 64 ∧ 15 < s.inp.c ∧ s.inp.ints = [Int.ofNat k] ∧ (s.port s.inp.a).replays.get k 0 = 8)
    (fun s t => (t.port s.inp.a).st = 1 ∧ (t.port s.inp.a).retrains = min 65535 ((s.port s.inp.a).retrains + 1))) ∧
  (∀ k : Nat, HappensTo .codewordReceive
    (fun s => takes s ∧ s.inp.b < 64 ∧ 15 < s.inp.c ∧ s.inp.ints = [Int.ofNat k] ∧ (s.port s.inp.a).replays = [])
    (fun s t => (t.port s.inp.a).st = (s.port s.inp.a).st ∧ (t.port s.inp.a).replays = [(k, 1)] ∧
      (t.port s.inp.a).uncorr = min 65535 ((s.port s.inp.a).uncorr + 1))) ∧
  HappensTo .portRetrain
    (fun s => takes s ∧ s.inp.b = 0 ∧ ((∃ n ∈ (s.port s.inp.a).replays.vals, 9 ≤ n) ∨ (s.pilot s.inp.a).st = 1))
    (fun s t => (t.port s.inp.a).st = 1 ∧ (t.port s.inp.a).since = s.tide ∧
      (t.port s.inp.a).retrains = min 65535 ((s.port s.inp.a).retrains + 1)) ∧
  Happens .portRetrain
    (fun s => s.inp.a < 48 ∧ s.inp.b = 0 ∧ (s.port s.inp.a).st = 0 ∧ s.thermal ≠ 2)
    (fun s => s.modPort s.inp.a fun p => { p with st := 1, since := s.tide }) ∧
  HappensTo .portRetrain
    (fun s => 48 ≤ s.inp.a ∧ s.inp.a < 64 ∧ (s.pilot s.inp.a).st = 1)
    (fun s t => (t.pilot s.inp.a).retrains = min 65535 ((s.pilot s.inp.a).retrains + 1)) ∧
  HappensTo .portRetrain (fun s => s.inp.a < 48 ∧ s.inp.b = 1) (fun s t => (t.port s.inp.a).st = 6 ∧ t.rrq = true) ∧
  Happens .portRetrain (fun s => s.inp.a < 48 ∧ s.inp.b = 2 ∧ (s.port s.inp.a).st = 6)
    (fun s => s.modPort s.inp.a fun p => { p with st := 0 }) ∧
  Happens .portRetrainTimeout
    (fun s => (s.port s.inp.a).st = 1 ∧ (s.port s.inp.a).since.toNat + 48000 ≤ s.tide.toNat)
    (fun s => s.modPort s.inp.a fun p => { p with st := 0 }) ∧
  HappensTo .portUp
    (fun s => s.inp.a < 48 ∧ ((s.port s.inp.a).st = 1 ∨ (s.port s.inp.a).st = 5) ∧ s.thermal ≠ 2 ∧ s.fab.held = [])
    (fun s t => (t.port s.inp.a).st = 2 ∧ (t.port s.inp.a).peerNode = s.inp.b % 2 ^ 12 ∧ (t.port s.inp.a).peerPort = s.inp.c % 2 ^ 6) ∧
  Happens .lhstClear (fun s => s.inp.a < 48) (fun s => s.modPort s.inp.a fun p => { p with bins := [] }) ∧
  Happens .pkick (fun s => s.inp.a < 64) (fun s => s.modPilot s.inp.a fun p => { p with kicked := s.tide }) ∧
  HappensTo .pilotWatchdogReset
    (fun s => s.inp.a < 64 ∧ (s.pilot s.inp.a).st = 0 ∧
      (s.pilot s.inp.a).kicked.toNat + 1024 * s.pwd.get s.inp.a 1024 ≤ s.tide.toNat)
    (fun s t => (t.pilot s.inp.a).st = 1 ∧ (t.pilot s.inp.a).resets = min 65535 ((s.pilot s.inp.a).resets + 1) ∧
      (t.pilot s.inp.a).tune = (s.pilot s.inp.a).tune ∧ (t.proc (hartQOf (13457 + s.inp.a))).r = {} ∧ t.ports = s.ports) ∧
  HappensTo .pilotRestart
    (fun s => s.inp.a < 64 ∧ (s.pilot s.inp.a).st = 1)
    (fun s t => (t.pilot s.inp.a).st = 0 ∧ (t.pilot s.inp.a).kicked = s.tide ∧ (t.pilot s.inp.a).tune = (s.pilot s.inp.a).shadow) ∧
  HappensTo .pilotRestart
    (fun s => s.inp.a < 64 ∧ (s.pilot s.inp.a).st = 3)
    (fun s t => (t.pilot s.inp.a).st = 0 ∧ (t.pilot s.inp.a).kicked = s.tide ∧ (t.pilot s.inp.a).tune = (s.pilot s.inp.a).tune) ∧
  HappensTo .pilotShadowUpdate (fun s => s.inp.a < 64 ∧ (s.pilot s.inp.a).st = 0)
    (fun s t => (t.pilot s.inp.a).shadow = (t.pilot s.inp.a).tune)

/-- The Tollhouse's steps (R443 to R447, R457 to R460): a halt event with debug enabled halts the cluster and discards its
chunks; the cross-trigger halts a cluster with debug enabled and raises DEBUG_HALT in one without; a resume lets the writes of
the debug window take effect and no breakpoint match the first head; the dump engine takes a stop, and ends its dump or drops
it, and the kill follows. Who acts and which data the environment brings are arguments of the step (log entries 5, 49,
50). -/
def Obligations.TollhouseStepsComplete : Prop :=
  HappensTo .clusterHalt
    (fun s => s.inp.a < 12800 ∧ s.halted s.inp.a = false ∧ (s.cluster s.inp.a).tdctl.getLsbD 0 = true ∧
      (s.inp.b = 1 ∨ s.inp.b = 2 ∨ s.inp.b = 3 ∨ s.inp.b = 5) ∧ ∀ g, g / 8 = s.inp.a → (s.core g).gsize ≠ 4)
    (fun s t => (t.cluster s.inp.a).tdst = wNat (1 + 2 * s.inp.b + 2 ^ 4 * (s.inp.c / 11 % 8) + 2 ^ 7 * (s.inp.c % 11)) ∧
      ∀ q, q / 88 = s.inp.a → (t.proc q).chunk = none) ∧
  HappensTo .crossTriggerReceive
    (fun s => (s.cluster s.inp.b).tdctl.getLsbD 2 = true ∧ (triggered s s.inp.b).contains s.inp.a = true ∧
      (s.cluster s.inp.a).tdctl.getLsbD 0 = true ∧ s.halted s.inp.a = false ∧ ∀ g, g / 8 = s.inp.a → (s.core g).gsize ≠ 4)
    (fun s t => t.halted s.inp.a = true) ∧
  Happens .crossTriggerReceive
    (fun s => (s.cluster s.inp.b).tdctl.getLsbD 2 = true ∧ (triggered s s.inp.b).contains s.inp.a = true ∧
      (s.cluster s.inp.a).tdctl.getLsbD 0 = false)
    (fun s => (List.range 8).foldl (fun t k =>
      let q := ctl (8 * s.inp.a + k)
      if (t.proc q).st == .live then raiseAsync t q 0x92 (wNat (t.core (8 * s.inp.b)).vcl) else t) s) ∧
  HappensTo .tdgo
    (fun s => s.halted s.inp.a = true ∧ (s.cluster s.inp.a).dbg = [])
    (fun s t => (t.cluster s.inp.a).tdst = 0 ∧ ∀ q, q / 88 = s.inp.a → (s.proc q).st = .live →
      t.proc q = { s.proc q with skipBp := true }) ∧
  (∀ k v, HappensTo .tdgo
    (fun s => s.halted s.inp.a = true ∧ k < 8 ∧ (s.cluster s.inp.a).dbg = [(k, 4098, v)] ∧ (s.proc (88 * s.inp.a + 11 * k)).st = .live)
    (fun s t => t.reg (88 * s.inp.a + 11 * k) 1 = v)) ∧
  Happens .debugWindowAccess
    (fun s => s.inp.c = 1 ∧ s.halted s.inp.a = true ∧ s.inp.b / 8 < 8240)
    (fun s => s.modCluster s.inp.a fun c => { c with dbg := (c.tdsel.toNat % 8, s.inp.b / 8, s.inp.w) :: c.dbg }) ∧
  (∀ d rest, Happens .coreDumpWrite
    (fun s => s.dumping = none ∧ s.dumpQ = d :: rest ∧ (s.vfOf d.vf).dump0 ≠ 0 ∧ (s.vfOf d.vf).nextSlot ≠ (s.vfOf d.vf).nslot)
    (fun s => { s with dumpQ := rest, dumping := some d })) ∧
  (∀ d rest, HappensTo .coreDumpWrite
    (fun s => s.dumping = none ∧ s.dumpQ = d :: rest ∧ ((s.vfOf d.vf).dump0 = 0 ∨ (s.vfOf d.vf).nextSlot = (s.vfOf d.vf).nslot))
    (fun s t => t.dumpQ = rest ∧ (t.vfOf d.vf).dropSlot = min ((s.vfOf d.vf).dropSlot + 1) (2 ^ 32 - 1) ∧
      t.agenda.head? = some (.event .launchKill { a := d.vf, b := d.ln, c := 1, w := wNat d.code }))) ∧
  (∀ d, HappensTo .coreDumpWrite
    (fun s => s.dumping = some d)
    (fun _ t => t.dumping = none ∧ t.agenda.head? = some (.event .launchKill { a := d.vf, b := d.ln, c := 1, w := wNat d.code }))) ∧
  Happens .debugWindowAccess
    (fun s => s.inp.c ≠ 1 ∧ s.halted s.inp.a = true ∧ s.inp.b / 8 < 8240)
    (fun s =>
      let x := coreWord (debugView s s.inp.a) (8 * s.inp.a + (s.cluster s.inp.a).tdsel.toNat % 8) (s.inp.b / 8)
      { s with hostRead := leBytes 8 x.toNat }) ∧
  Happens .debugWindowAccess
    (fun s => s.inp.c ≠ 1 ∧ (s.halted s.inp.a = false ∨ 8240 ≤ s.inp.b / 8))
    (fun s => { s with hostRead := List.replicate 8 0 })

/-- The host's steps (R108, R113, R115, R388, R454, R463 to R475): a BAR2 access reads or writes memory, a write-combining page among
it; a register write is merged into its doubleword and takes effect, a read gives the bytes it covers; functions are enabled and disabled; translations are dropped; a
slice is partitioned, in two steps; the atomic-order log is set; microcode is loaded, a Pilot's once it verifies, and started; a fault
record is popped; the package resets and boots; an attestation request changes no register; the clock goes to full, and the segments
re-form; a cluster and a Pontoon are fenced; the power cap and the temperature act. Who acts and which data the environment brings
are arguments of the step (log entries 5, 53 to 56). -/
def Obligations.HostStepsComplete : Prop :=
  let bar2 := fun (s : State) (w : State) (write : Nat) (l : Loc) =>
    let va := (s.vfOf s.inp.a).winb + wNat s.inp.b
    s.inp.a < 64 ∧ pf0Only s = false ∧ s.inp.b < 2 ^ 34 ∧ 0 < s.inp.bytes.length ∧ va.toNat % 32 + s.inp.bytes.length ≤ 32 ∧ s.inp.c = write ∧
    translate s ferryQ s.inp.a va.toNat (if write = 0 then .load else .store) = .ok (w, l)
  let named := fun (s : State) => namedHart (s.inp.w.toNat % 8) (s.inp.w.toNat / 2 ^ 3 % 2 ^ 14)
  (∀ w pa, HappensTo .hostBar2Access (fun s => bar2 s w 1 (.own pa))
    (fun s t => ∀ j, (h : j < s.inp.bytes.length) → t.byteAt (pa + j) = s.inp.bytes[j])) ∧
  (∀ w pa wc, Happens .hostBar2Access (fun s => bar2 s w 1 (.host pa wc)) (fun s => hostStore w pa wc s.inp.bytes)) ∧
  (∀ w pa, Happens .hostBar2Access (fun s => bar2 s w 0 (.own pa))
    (fun s => { w with hostRead := (List.range s.inp.bytes.length).map fun i => w.byteAt (pa + i) })) ∧
  Happens .registerWrite
    (fun s => s.inp.b = 0 ∧ s.inp.c ≠ 1 ∧ s.inp.a + s.inp.bytes.length ≤ 2 ^ 34 ∧ s.inp.bytes.length ∈ [1, 2, 4, 8] ∧
      s.inp.a % s.inp.bytes.length = 0 ∧ isKickBlock s.inp.a = false)
    (fun s =>
      let k := 8 * (s.inp.a % 8)
      let w := wNat (leNat s.inp.bytes * 2 ^ k)
      let m := wNat ((2 ^ (8 * s.inp.bytes.length) - 1) * 2 ^ k)
      regWrite s (s.inp.a / 8 * 8) ((regRead s (s.inp.a / 8 * 8) &&& ~~~m) ||| w) w) ∧
  Happens .registerWrite
    (fun s => 1 ≤ s.inp.b ∧ s.inp.b ≤ 64 ∧ pf0Only s = false ∧ s.inp.c ≠ 1 ∧ s.inp.bytes.length = 8 ∧ s.inp.a % 8 = 0 ∧ s.inp.a < 2 ^ 16)
    (fun s =>
      let off := 0x1000000 + 0x10000 * (s.inp.b - 1) + s.inp.a
      regWrite s off (wNat (leNat s.inp.bytes)) (wNat (leNat s.inp.bytes))) ∧
  Happens .fcenEnable (fun s => s.inp.a < 64 ∧ (s.vfOf s.inp.a).en = false)
    (fun s => s.modVf s.inp.a fun f => { f with
      en := true
      grant := ((List.range (min f.gcnt 12800)).map fun i => s.natAt (f.glist.toNat + 2 * i) 2).filter fun c =>
        decide (c < 12800) && !(s.cluster c).fenced }) ∧
  HappensTo .fcenDisable (fun s => (s.vfOf s.inp.a).en = true ∧ ∀ l ∈ s.launches, l.vf ≠ s.inp.a)
    (fun s t => (t.vfOf s.inp.a).en = false ∧ (t.vfOf s.inp.a).busy = false ∧ t.launches = s.launches) ∧
  HappensTo .translationInvalidate
    (fun s => ∀ e ∈ s.procs, e.2.chunk = none ∧ e.2.remoteOut = [] ∧ ∀ since ans va, e.2.wait ≠ .remote since true ans va)
    (fun s t => (t.vfOf s.inp.a).ib = false ∧ (∀ c, ∀ e ∈ (t.cluster c).tlb, e.vf ≠ s.inp.a) ∧
      ∀ c, ∀ e ∈ (t.slice c).tlb, e.vf ≠ s.inp.a) ∧
  Happens .slicePartition
    (fun s => s.inp.a < 640 ∧ s.inp.c = 0 ∧ s.inp.b ≤ 24 ∧ s.inp.b ≠ (s.slice s.inp.a).near ∧ (s.slice s.inp.a).parTo = none)
    (fun s => s.modSlice s.inp.a fun c => { c with parTo := some s.inp.b }) ∧
  (∀ n, HappensTo .slicePartition (fun s => s.inp.a < 640 ∧ s.inp.c ≠ 0 ∧ (s.slice s.inp.a).parTo = some n)
    (fun s t => (t.slice s.inp.a).near = n ∧ (t.slice s.inp.a).parTo = none ∧
      ∀ o, min n (s.slice s.inp.a).near * 2 ^ 20 ≤ o → o < 2 ^ 25 → t.byteAt (2 ^ 40 + 2 ^ 25 * s.inp.a + o) = 0)) ∧
  HappensTo .slicePartition
    (fun s => s.inp.a < 640 ∧ s.inp.c = 0 ∧ (24 < s.inp.b ∨ (s.slice s.inp.a).parTo.isSome = true))
    (fun s t => (t.slice s.inp.a).parErr = true ∧ (t.slice s.inp.a).near = (s.slice s.inp.a).near ∧ t.mem = s.mem) ∧
  Happens .alogcWrite (fun s => s.inp.a < 640 ∧ (s.slice s.inp.a).logRun = none)
    (fun s => s.modSlice s.inp.a fun c => { c with
      logEn := s.inp.w.getLsbD 0, logWrap := s.inp.w.getLsbD 1, logLen := s.inp.w.toNat / 2 ^ 3 % 2 ^ 21
      logHead := if s.inp.w.getLsbD 1 = c.logWrap ∧ s.inp.w.toNat / 2 ^ 3 % 2 ^ 21 = c.logLen then c.logHead else logPlace c }) ∧
  (∀ h ver len vec, HappensTo .ectlGo
    (fun s => named s = some h ∧ h < 13457 ∧ hartBusy s h = false ∧
      imageHeaderAt s s.emaddr.toNat (s.inp.w.toNat % 8) = some (ver, len, vec))
    (fun s t =>
      let p := t.proc (hartQOf h)
      p.loaded = true ∧ p.codeLen = len ∧ p.dispVec = vec ∧ p.version = ver ∧ p.r.pc = wNat vec ∧
      ∀ j, j < len → t.byteAt (ucKey h j) = s.byteAt (s.emaddr.toNat + 64 + j))) ∧
  (∀ h ver len vec, HappensTo .ectlGo
    (fun s => named s = some h ∧ s.inp.w.toNat % 8 = 4 ∧ hartBusy s h = false ∧
      imageHeaderAt s s.emaddr.toNat 4 = some (ver, len, vec) ∧
      Config.imageVerifies ((List.range (64 + len + 2764)).map fun i => s.byteAt (s.emaddr.toNat + i)) = true)
    (fun s t =>
      let p := t.proc (hartQOf h)
      p.loaded = true ∧ p.codeLen = len ∧ p.dispVec = vec ∧ p.version = ver ∧ (t.pilot (h - 13457)).st = 3 ∧
      t.agenda.head? = some (.event .pilotRestart { a := h - 13457 }) ∧
      ∀ j, j < len → t.byteAt (ucKey h j) = s.byteAt (s.emaddr.toNat + 64 + j))) ∧
  (∀ h ver len vec, Happens .ectlGo
    (fun s => named s = some h ∧ s.inp.w.toNat % 8 = 4 ∧ hartBusy s h = false ∧
      imageHeaderAt s s.emaddr.toNat 4 = some (ver, len, vec) ∧
      Config.imageVerifies ((List.range (64 + len + 2764)).map fun i => s.byteAt (s.emaddr.toNat + i)) = false)
    (fun s => { s with ectlErr := true })) ∧
  (∀ h, HappensTo .ectlRst
    (fun s => named s = some h ∧ (s.proc (hartQOf h)).stopped = true ∧ (s.proc (hartQOf h)).loaded = true)
    (fun s t => (t.proc (hartQOf h)).st = .live ∧ (t.proc (hartQOf h)).r.pc = wNat (s.proc (hartQOf h)).dispVec)) ∧
  (∀ h, HappensTo .ectlRst
    (fun s => named s = some h ∧ (s.proc (hartQOf h)).stopped = true ∧ (s.proc (hartQOf h)).loaded = false)
    (fun _ t => runsDefault t h = true)) ∧
  Happens .ectlRst (fun s => named s = none) (fun s => { s with ectlErr := true }) ∧
  Happens .efpop (fun _ => True) (fun s => { s with efaults := s.efaults.drop 1 }) ∧
  HappensTo .deviceReset (fun s => s.inp.w = 0 ∧ ∀ e ∈ s.hostStale, 2 ^ 51 ≤ e.1)
    (fun s t => t.tide = 0 ∧ t.boot = true ∧ t.bstat = 255 ∧ t.launches = [] ∧ t.msix = [(0, 0)] ∧
      (∀ q, t.proc q = {}) ∧ ∀ a, a < 2 ^ 40 → t.byteAt a = s.byteAt a) ∧
  (∀ i ∈ [Instr.getVersion, .getCapabilities, .negotiateAlgorithms, .getDigests, .getCertificate, .challenge, .getMeasurements],
    Happens i (fun _ => True) id) ∧
  Happens .gofull (fun s => s.full = false ∧ ∀ l ∈ s.launches, l.holds = false) (fun s => reformAll { s with full := true, goingFull := false }) ∧
  Happens .gofull (fun s => s.full = false ∧ ∃ l ∈ s.launches, l.holds = true) (fun s => { s with goingFull := true }) ∧
  HappensTo .cfenceCluster (fun s => s.inp.a < 12800 ∧ s.launches = [])
    (fun s t => (t.cluster s.inp.a).fenced = true ∧ t.rrq = true ∧ t.msix = s.msix ++ [(0, 3)]) ∧
  HappensTo .cfencePontoon (fun s => s.inp.a < 12800 ∧ (s.engine (640 + s.inp.a)).queue = [])
    (fun s t => (t.cluster s.inp.a).pfenced = true ∧ t.rrq = true ∧ t.msix = s.msix ++ [(0, 3)] ∧
      ∀ j, (s.pontoon s.inp.a).job = some j → j.fail = none → (t.pontoon s.inp.a).job = some { j with fail := some 0x70 }) ∧
  Happens .powerCapCheck (fun _ => True)
    (fun s => { s with cap := decide ((if 1 ≤ s.thermal then 1200 else s.plim) < s.inp.a) }) ∧
  HappensTo .thermalStateChange (fun s => s.thermal = 0 ∧ 100 ≤ s.inp.a ∧ s.inp.a < 110)
    (fun s t => t.thermal = 1 ∧ t.tmax = s.inp.a ∧ t.msix = s.msix ++ [(0, 4)] ∧ t.launches = s.launches) ∧
  HappensTo .thermalStateChange (fun s => s.thermal ≠ 2 ∧ 110 ≤ s.inp.a ∧ s.launches = [])
    (fun s t => t.thermal = 2 ∧ t.msix = s.msix ++ [(0, 4)] ∧ ∀ p, p < 48 → (s.port p).st ≠ 6 → (t.port p).st = 0) ∧
  Happens .registerWrite
    (fun s => s.inp.b = 0 ∧ s.inp.c = 1 ∧ s.inp.a + s.inp.bytes.length ≤ 2 ^ 34 ∧ s.inp.bytes.length ∈ [1, 2, 4, 8] ∧
      s.inp.a % s.inp.bytes.length = 0 ∧ isKickBlock s.inp.a = false)
    (fun s =>
      let x := (regRead s (s.inp.a / 8 * 8)).toNat / 2 ^ (8 * (s.inp.a % 8)) % 2 ^ (8 * s.inp.bytes.length)
      { s with hostRead := leBytes s.inp.bytes.length x })

/-- What an agent may not run traps at its own PC, before anything else of the head is looked at (R61, R66, R154): a core context
raises ILLEGAL_CONTEXT; an engine hart raises it for an opcode of its own engine's range, and ILLEGAL_OPCODE for any other;
a reserved opcode raises ILLEGAL_OPCODE everywhere, and ERET outside a handler ILLEGAL_CONTEXT. -/
def Obligations.IllegalHeadsTrap : Prop :=
  (∀ i op s, i.opcode = some op → (∀ n, i ≠ .reservedOpcode n) → alone s = true → mayRun (whoOf s s.cur) op = false →
    Sys2Proof.Machine.exec i s = .next (trapHead s
      [(s.cur, if isHart s.cur = true ∧ ownRange (whoOf s s.cur) op = false then 0x02 else 0x03, s.me.r.pc)] s.me.r.pc)) ∧
  (∀ op s, alone s = true →
    Sys2Proof.Machine.exec (.reservedOpcode op) s = .next (trapHead s [(s.cur, 0x02, s.me.r.pc)] s.me.r.pc)) ∧
  Traps .eret (fun u => u.me.intrap = false) 0x03 (fun u => u.me.r.pc)

/-- Taking a synchronous trap (R122, R141, R150, R151): behind the commit of the open chunk and the writing of the results in
flight, cause, epc and tval are written, ptim keeps whether a timed phase ran, intrap is set, a timed phase is left, and the
PC becomes tvec; nothing else of the machine changes. In a handler, or with no handler, the stop is fatal. -/
def Obligations.TrapEntry : Prop :=
  ∀ (s : State) (code : Nat) (val pc : Word), alone s = true →
    let u := addParts (flushFlight (endChunk s s.cur) s.cur) s.cur
    let p := u.proc s.cur
    let t := trapHead s [(s.cur, code, val)] pc
    (p.intrap = true ∨ p.tvec = 0 → t = { fatalStop u s.cur code pc val with issued := true } ∧ (t.proc s.cur).stopped = true) ∧
    (∀ l n, p.intrap = false → p.tvec ≠ 0 → p.tvec.getLsbD 0 = false → residentLine u s.cur (lineBase p.tvec) = some l →
      l.check = some n → 1 ≤ headIndex p.tvec → headIndex p.tvec ≤ n →
      t.proc s.cur = { p with
        cause := wNat code, epc := pc, tval := val, ptim := p.timed && !isHart s.cur, intrap := true, timed := false
        wait := .idle, waited := 0, resumeAt := if p.resumeAt.toNat ≤ u.tide.toNat then u.tide + 1 else p.resumeAt
        lines := if isHart s.cur = true ∨ p.copy.map (·.1) = some (lineBase p.tvec) then p.lines else FMap.put p.lines (lineBase p.tvec) l
        r := { p.r with pc := p.tvec } } ∧
      (∀ q, q ≠ s.cur → t.proc q = u.proc q) ∧ t = { u with procs := t.procs, issued := true })

/-- Words of the spec's encodings decode to their instructions (R34, R41): one of each family at least. -/
def Obligations.WordsDecode : Prop :=
  decodeHalves [0x3F85, 0x81C6, 0x1A00] = .ok (.acas 5 6 7 8 true 3) ∧
  decodeHalves [0x8985, 0x0006, 0x0002] = .ok (.launch 5 6 2) ∧
  decodeHalves [0x54C3, 0x3101, 0, 0, 0] = .ok (.vfma 3 1 4 3 0 false 0 0 0 false false) ∧
  decodeHalves [0x92CA, 0x0350, 0, 0x0057, 0] = .ok (.cpyLoop 10 16 13 false 0x57) ∧
  decodeHalves [0x9F4B, 0x0008] = .ok (.pjob 11 8) ∧
  decodeHalves [0xAB4B, 0x0308] = .ok (.towEnter 11 8 12) ∧
  decodeHalves [0xAF8B, 0x0108, 0x0001] = .ok (.fenrol 11 8 4 1) ∧
  decodeHalves [0xBF80, 0x0080, 0x0005] = .ok (.dbgsigMark 5)

/-- Decoding is the inverse of encoding (R34, R41, R42): every well-formed instruction that a head encodes comes back from its
halfwords with every operand. -/
def Obligations.RoundTrip : Prop :=
  ∀ i : Instr, i.wf = true → i.opcode.isSome = true → decodeHalves (encode i) = .ok i

/-- Every step keeps the memory in its one canonical form: keys strictly rising, no entry equal to what an unlisted byte reads as
(R102, the model's choice of log entry 4). -/
def Obligations.MemoryStaysCanonical : Prop :=
  ∀ s t : State, Memory.wf s.mem = true → step s = .next t → Memory.wf t.mem = true

/-- What reset leaves: the values the spec states (R18, R73, R134, R338, R342, R421, R437, R439, R471, R474), and memory in its
canonical form with nothing listed. The model's choices it rests on: log entry 4. -/
def Obligations.ResetLeaves : Prop :=
  let s := State.reset
  Memory.wf s.mem = true ∧ s.mem = [] ∧ s.tide = 0 ∧ s.boot = false ∧ s.full = false ∧ s.rrq = false ∧ s.plim = 3000 ∧
  s.fab.tmo = 240000 ∧ (s.port 0).tbin = 16 ∧ (s.port 47).tcnt = 1 ∧
  (∀ g, g < 102400 → ∀ n ∈ [0x0000, 0x0001, 0x0002, 0x0005, 0x0006, 0x0007, 0x000C, 0x000D, 0x000E, 0x000F, 0x0013],
    sysReg s (ctl g) n = some 0) ∧
  (∀ gc, gc < 12800 → sysReg s (hartQOf (640 + gc)) 0x0201 = some (wNat (8 + 2 ^ 16 * 16)) ∧
    ∀ x, x < 1024 → sigmaOf (s.pontoon gc) x = x % 32)

/-- A step runs the decoded instruction (R36, R38, R43, R136, R137, R18). A core's turn runs the head that its chosen context's PC
names in a well-formed resident line, the line being the context's copy, and then counts the waiting of the others, and the
Tide counter advances (a push to qc of a core other than the cluster's first is left to the instruction's own statement: there a
core of lower index may push in the same cycle, R145); a hart's turn runs the head at its PC in its store; a head whose encoding is not well formed raises
INSTR_FORMAT there; a turn of the agenda that is a step from outside the heads is that step. -/
def Obligations.StepRunsDecoded : Prop :=
  (∀ (s : State) (q : Nat) (l : Line) (n : Nat) (i : Instr),
    let g := coreOf s.cur
    let pc := (s.proc q).r.pc
    s.agenda = [] → isHart s.cur = false → isHart q = false → lowestPend (s.proc (ctl g)) = none → slotOpen s g = true →
    choose s g = some q → members s q = [q] → coreOf q = g → residentLine s q (lineBase pc) = some l → l.check = some n →
    1 ≤ headIndex pc → headIndex pc ≤ n → pc.getLsbD 0 = false → l.decode (headIndex pc) = .ok i →
    let u := (keepLine { s with cur := q, issued := false } q (lineBase pc) l).modProc q fun p => { p with copy := some (lineBase pc, l) }
    (g % 8 = 0 ∨ ∀ t, Sys2Proof.Machine.exec i u = .next t → (t.cluster (g / 8)).qcLast = (s.cluster (g / 8)).qcLast) →
    step s = match Sys2Proof.Machine.exec i u with
      | .next t =>
        let v := account t (readyOf s g) (s.proc q).drain g q
        .next { v with tide := v.tide + 1 }
      | o => o) ∧
  (∀ (s : State) (l : Line) (n : Nat) (i : Instr),
    let pc := s.me.r.pc
    s.agenda = [] → isHart s.cur = true → mayTry s s.cur = true → towed s (hartIx s.cur) = false →
    residentLine s s.cur (lineBase pc) = some l → l.check = some n → 1 ≤ headIndex pc → headIndex pc ≤ n →
    pc.getLsbD 0 = false → legality s s.cur (bits (l.half (headIndex pc)) 8 8) = none → l.decode (headIndex pc) = .ok i →
    step s = match Sys2Proof.Machine.exec i { s with issued := false } with
      | .next t => .next { t with tide := t.tide + 1 }
      | o => o) ∧
  (∀ (s : State) (q : Nat) (l : Line) (n : Nat),
    let pc := (s.proc q).r.pc
    members s q = [q] → isHart q = false → residentLine s q (lineBase pc) = some l → l.check = some n →
    1 ≤ headIndex pc → headIndex pc ≤ n → pc.getLsbD 0 = false → l.decode (headIndex pc) = .error .instrFormat →
    stepHead s q = .next (trapHead ((keepLine { s with cur := q, issued := false } q (lineBase pc) l).modProc q fun p =>
      { p with copy := some (lineBase pc, l) }) [(q, 0x01, pc)] pc)) ∧
  (∀ (s : State) (q : Nat) (l : Line),
    let pc := (s.proc q).r.pc
    members s q = [q] → residentLine s q (lineBase pc) = some l → l.check = none →
    stepHead s q = .next (trapHead { s with cur := q, issued := false } [(q, 0x01, wNat (lineBase pc))] pc)) ∧
  (∀ (s : State) (i : Instr) (inp : Input) (rest : List Turn), s.agenda = .event i inp :: rest → i.isEvent = true →
    step s = Sys2Proof.Machine.exec i { s with agenda := rest, inp := inp })

/-- What loads and stores change. A load of memory, of a TCM or of a scratchpad window changes its destination alone: every byte
reads as before. A store to memory or to the own TCM writes the bytes from the key of its checked address, as many as its size,
for its own agent, held back until the chunk commits; a store through a window writes the bytes that the window's layout gives,
at once; every other byte, and every general register, is as before (R106, R117, R121, R164). The model's choices it rests
on: log entries 4, 8. -/
def Obligations.AccessFrames : Prop :=
  let kept := fun (s t : State) =>
    VectorKept s.me.r (t.proc s.cur).r ∧ SystemKept s.me (t.proc s.cur) ∧ (∀ p, p ≠ s.cur → t.proc p = s.proc p)
  let loads := fun (i : Instr) (a : BitVec 6) (n : Nat) (ea : State → Word) => ∀ s l v x w, ready s i = true → calm s i = true →
    isReg a → check (ea (beginHead s i)) n n .load (beginHead s i) = .ok l v →
    ((∃ g o, l = .tcm g o) ∨ (∃ gc k o, l = .scratch gc k o) ∨ ∃ pa, l = .own pa) → readLoc (ea (beginHead s i)) l n s.cur v = .ok x w →
    ∃ t, Sys2Proof.Machine.exec i s = .next t ∧ (∀ r, r ≠ a.toNat → t.reg s.cur r = s.reg s.cur r) ∧ MemoryKept s t s.cur ∧ kept s t
  let held := fun (i : Instr) (a : BitVec 6) (n : Nat) (ea : State → Word) => ∀ s l v, ready s i = true → calm s i = true →
    isReg a → check (ea (beginHead s i)) n n .store (beginHead s i) = .ok l v →
    ∀ key, (l = .own key ∨ ∃ o, l = .tcm (coreOf s.cur) o ∧ isHart s.cur = false ∧ key = tcmKey (coreOf s.cur) o) →
    ∀ u, storeAt (beginHead s i) (ea (beginHead s i)) n (s.myReg a).toNat = some u → chunkLines u s.cur ≤ 64 →
    ∃ t, Sys2Proof.Machine.exec i s = .next t ∧
      (∀ j, j < n → viewByte t s.cur (key + j) = BitVec.ofNat 8 ((s.myReg a).toNat / 2 ^ (8 * j))) ∧
      (∀ k, (∀ j, j < n → k ≠ key + j) → viewByte t s.cur k = viewByte s s.cur k) ∧ (∀ k, t.byteAt k = s.byteAt k) ∧
      (∀ r, t.reg s.cur r = s.reg s.cur r) ∧ kept s t
  let windowed := fun (i : Instr) (a : BitVec 6) (n : Nat) (ea : State → Word) => ∀ s l v, ready s i = true → calm s i = true →
    isReg a → (∀ c, s.me.chunk = some c → c.held = []) →
    check (ea (beginHead s i)) n n .store (beginHead s i) = .ok l v → ∀ gc k o, l = .scratch gc k o →
    ∀ u, storeAt (beginHead s i) (ea (beginHead s i)) n (s.myReg a).toNat = some u → chunkLines u s.cur ≤ 64 →
    ∃ t, Sys2Proof.Machine.exec i s = .next t ∧
      (let b := windowBytes (winOf v v.cur) (windowCtl v v.cur k) k o n (s.myReg a).toNat 0
       (∀ j, (h : j < b.2.length) → t.byteAt (spKey gc b.1 + j) = b.2[j]) ∧
       ∀ x, (∀ j, j < b.2.length → x ≠ spKey gc b.1 + j) → t.byteAt x = s.byteAt x) ∧
      (∀ r, t.reg s.cur r = s.reg s.cur r)
  (∀ a b sz sx nt imm, loads (.ldRi16 a b sz sx nt imm) a (2 ^ sz.toNat) fun u => u.ea b imm) ∧
  (∀ a b c sz sx nt sh imm, loads (.ldRri32 a b c sz sx nt sh imm) a (2 ^ sz.toNat) fun u => u.eaIx b c sh imm) ∧
  (∀ a b sz nt imm, held (.stRi16 a b sz nt imm) a (2 ^ sz.toNat) fun u => u.ea b imm) ∧
  (∀ a b c sz nt sh imm, held (.stRri32 a b c sz nt sh imm) a (2 ^ sz.toNat) fun u => u.eaIx b c sh imm) ∧
  (∀ a b sz nt imm, windowed (.stRi16 a b sz nt imm) a (2 ^ sz.toNat) fun u => u.ea b imm) ∧
  (∀ a b c sz nt sh imm, windowed (.stRri32 a b c sz nt sh imm) a (2 ^ sz.toNat) fun u => u.eaIx b c sh imm)

/-- What a vector instruction changes beside its destination (R186, R189, R190, R197 to R208, R217, R218): of the agent's registers the
sticky flags of fcsr, sr_ctr and vres; no general register, no other vector or predicate register, no byte of memory, no
other agent. One that writes predicates leaves every vector register. -/
def Obligations.VectorFrame : Prop :=
  let kept := fun (s t : State) =>
    (∀ n, t.reg s.cur n = s.reg s.cur n) ∧ SystemKept s.me (t.proc s.cur) ∧ MemoryKept s t s.cur ∧ OthersKept s t s.cur ∧
    (t.proc s.cur).r.srseed = s.me.r.srseed ∧ (t.proc s.cur).r.bb = s.me.r.bb ∧ (t.proc s.cur).r.vres = 0 ∧
    ∀ b, b < 64 → (b < 7 ∨ 11 < b) → (t.proc s.cur).r.fcsr.getLsbD b = s.me.r.fcsr.getLsbD b
  (∀ (i : Instr) (f : VecOp) (s : State), vecOf i = some f → ready s i = true → calm s i = true →
    ∃ t, Sys2Proof.Machine.exec i s = .next t ∧ kept s t ∧ (t.proc s.cur).r.k = s.me.r.k ∧
      ∀ n, n ≠ f.a.toNat → (t.proc s.cur).r.readV n = s.me.r.readV n) ∧
  (∀ (i : Instr) (f : PredOp) (s : State), predOf i = some f → ready s i = true → calm s i = true →
    ∃ t, Sys2Proof.Machine.exec i s = .next t ∧ kept s t ∧ (t.proc s.cur).r.v = s.me.r.v ∧
      ∀ n, n ≠ f.a.toNat → (t.proc s.cur).r.readK n = s.me.r.readK n)
end

