-- ==== Sys2Proof/Laws/Frame.lean ====
section
/-!
SUPPORT. The frame of a head, once for all meanings: what `frame` answers when the checks pass and the meaning completes,
and what it answers when a check fails.
-/

namespace Sys2Proof.Machine

/-! ### Maps -/

theorem FMap.get_put_same {α : Type} (m : FMap α) (k : Nat) (x d : α) : FMap.get (FMap.put m k x) k d = x := by
  induction m with
  | nil => simp [FMap.put, FMap.get, FMap.find]
  | cons e m ih =>
    obtain ⟨j, y⟩ := e
    simp only [FMap.put]
    split
    · simp [FMap.get, FMap.find]
    · split
      · simp [FMap.get, FMap.find]
      · rename_i h _
        simpa [FMap.get, FMap.find, h] using ih

theorem FMap.get_put_ne {α : Type} (m : FMap α) (k j : Nat) (x d : α) (h : j ≠ k) :
    FMap.get (FMap.put m k x) j d = FMap.get m j d := by
  induction m with
  | nil => simp [FMap.put, FMap.get, FMap.find, h]
  | cons e m ih =>
    obtain ⟨i, y⟩ := e
    simp only [FMap.put]
    split
    · rename_i hk
      subst hk
      simp [FMap.get, FMap.find, h]
    · split
      · simp [FMap.get, FMap.find, h]
      · simp only [FMap.get, FMap.find] at ih ⊢
        split
        · rfl
        · exact ih

@[simp] theorem State.proc_setProc (s : State) (q : Nat) (p : Proc) : (s.setProc q p).proc q = p := FMap.get_put_same _ _ _ _

theorem State.proc_setProc_ne (s : State) (q r : Nat) (p : Proc) (h : r ≠ q) : (s.setProc q p).proc r = s.proc r :=
  FMap.get_put_ne _ _ _ _ _ h

@[simp] theorem State.proc_modProc (s : State) (q : Nat) (f : Proc → Proc) : (s.modProc q f).proc q = f (s.proc q) := by
  simp [State.modProc]

theorem State.proc_modProc_ne (s : State) (q r : Nat) (f : Proc → Proc) (h : r ≠ q) :
    (s.modProc q f).proc r = s.proc r := State.proc_setProc_ne _ _ _ _ h

theorem State.proc_modProc_eq (s : State) (q r : Nat) (f : Proc → Proc) :
    (s.modProc q f).proc r = if r = q then f (s.proc q) else s.proc r := by
  split
  · subst_vars; simp
  · exact State.proc_modProc_ne _ _ _ _ ‹_›

theorem State.proc_modCore (s : State) (g q : Nat) (f : Core → Core) : (s.modCore g f).proc q = s.proc q := rfl

/-! ### The chunk in hand -/

/-- Every agent's chunk is as it was. -/
def SameChunks (s t : State) : Prop := ∀ q, (t.proc q).chunk = (s.proc q).chunk

theorem SameChunks.refl (s : State) : SameChunks s s := fun _ => rfl

theorem SameChunks.trans {s t u : State} (h : SameChunks s t) (k : SameChunks t u) : SameChunks s u :=
  fun q => (k q).trans (h q)

theorem SameChunks.modProc (s : State) (q : Nat) (f : Proc → Proc) (h : ∀ p, (f p).chunk = p.chunk) :
    SameChunks s (s.modProc q f) := by
  intro r
  rw [State.proc_modProc_eq]
  split
  · subst_vars; exact h _
  · rfl

theorem SameChunks.modCore (s : State) (g : Nat) (f : Core → Core) : SameChunks s (s.modCore g f) := fun _ => rfl

theorem SameChunks.foldl {α : Type} (f : State → α → State) (h : ∀ s a, SameChunks s (f s a)) (l : List α) (s : State) :
    SameChunks s (l.foldl f s) := by
  induction l generalizing s with
  | nil => exact .refl s
  | cons a l ih => exact (h s a).trans (ih _)

theorem addBin_sameChunks (s : State) (g b n : Nat) : SameChunks s (addBin s g b n) := SameChunks.modCore _ _ _

theorem applyWrite_sameChunks (s : State) (q : Nat) (w : RegWrite) : SameChunks s (applyWrite s q w) := by
  cases w
  case hist g bins => exact SameChunks.foldl _ (fun s b => addBin_sameChunks s g b 1) _ _
  case parts => exact .refl s
  all_goals
    refine SameChunks.modProc _ _ _ ?_
    intro p
    rfl

theorem landFlight_sameChunks (s : State) (q t : Nat) : SameChunks s (landFlight s q t) := by
  unfold landFlight
  simp only
  split
  · exact .refl s
  · refine (SameChunks.foldl (α := Flying) _ (fun s e => applyWrite_sameChunks s q e.w) _ _).trans (SameChunks.modProc _ _ _ ?_)
    intro p
    rfl

theorem chunkLines_congr {s t : State} (h : SameChunks s t) (u : Nat) : chunkLines t u = chunkLines s u := by
  unfold chunkLines
  rw [h u]

/-- Landing the results due, for the members of a gang, leaves the chunks as they were. -/
theorem landAll_sameChunks (s : State) (ms : List Nat) :
    SameChunks s (ms.foldl (fun s m => (landFlight s m s.tide.toNat).modProc m fun p => { p with remIx := 0 }) s) :=
  SameChunks.foldl _ (by
    intro s m
    refine (landFlight_sameChunks s m _).trans (SameChunks.modProc _ _ _ ?_)
    intro p
    rfl) _ _

/-- Register files of the agents change, their chunks do not come back: a chunk that is gone stays gone. -/
def NoNewChunk (u : Nat) (s t : State) : Prop := (s.proc u).chunk = none → (t.proc u).chunk = none

theorem SameChunks.noNew {s t : State} (h : SameChunks s t) (u : Nat) : NoNewChunk u s t := fun k => (h u).trans k

theorem NoNewChunk.trans {u : Nat} {s t v : State} (h : NoNewChunk u s t) (k : NoNewChunk u t v) : NoNewChunk u s v :=
  fun x => k (h x)

theorem NoNewChunk.foldl {α : Type} {u : Nat} (f : State → α → State) (h : ∀ s a, NoNewChunk u s (f s a)) (l : List α)
    (s : State) : NoNewChunk u s (l.foldl f s) := by
  induction l generalizing s with
  | nil => exact id
  | cons a l ih => exact (h s a).trans (ih _)

theorem discardChunk_noNew (u : Nat) (s : State) (q : Nat) : NoNewChunk u s (discardChunk s q) := by
  unfold discardChunk
  split
  · exact id
  · rename_i c _
    intro h
    have k := SameChunks.foldl (fun (s : State) (e : Nat × Regs) => s.modProc e.1 fun p => { p with r := e.2, due := [] })
      (fun s e => SameChunks.modProc s e.1 _ fun _ => rfl) c.ckpt s
    simp only
    rw [State.proc_modProc_eq]
    split
    · rfl
    · rw [k u]; exact h

theorem find_map_val {α : Type} (m : FMap α) (f : Nat × α → Nat × α) (h : ∀ e, (f e).1 = e.1) (k : Nat) :
    FMap.find (m.map f) k = (FMap.find m k).map fun x => (f (k, x)).2 := by
  induction m with
  | nil => rfl
  | cons e m ih =>
    obtain ⟨j, y⟩ := e
    have hj := h (j, y)
    simp only [List.map, FMap.find]
    rw [show f (j, y) = ((f (j, y)).1, (f (j, y)).2) from rfl, hj]
    simp only
    split
    · subst_vars; rfl
    · exact ih

theorem notifyLines_sameChunks (s : State) (ls : List Nat) : SameChunks s (notifyLines s ls) := by
  intro q
  unfold notifyLines State.proc FMap.get
  simp only
  rw [find_map_val]
  · cases h : FMap.find s.procs q with
    | none => rfl
    | some p =>
      simp only [Option.map_some, Option.getD_some]
      split <;> (try split) <;> rfl
  · intro e
    split <;> (try split) <;> rfl

theorem sendSignature_noNew (u : Nat) (s : State) (ls : List Nat) : NoNewChunk u s (sendSignature s ls) := by
  unfold sendSignature
  simp only
  split
  · exact id
  · exact NoNewChunk.foldl (α := Nat × Proc) _ (fun s e => discardChunk_noNew u s e.1) _ _

theorem performBytes_noNew (u : Nat) (s : State) (cells : FMap Byte) : NoNewChunk u s (performBytes s cells) := by
  unfold performBytes
  simp only
  intro h
  exact (notifyLines_sameChunks _ _).noNew u (sendSignature_noNew u _ _ h)

theorem commitChunk_none (s : State) (q : Nat) : ((commitChunk s q).proc q).chunk = none := by
  unfold commitChunk
  split
  · assumption
  · rename_i c _
    simp only
    refine (SameChunks.foldl (α := Nat × Regs) _ ?_ c.ckpt _).noNew q ?_
    · intro s e
      refine SameChunks.modProc _ _ _ ?_
      intro p
      rfl
    · refine (SameChunks.foldl (α := Nat × Nat) _ ?_ c.hist _).noNew q ?_
      · intro s e
        exact addBin_sameChunks _ _ _ _
      · refine performBytes_noNew q _ _ ?_
        simp

theorem commitChunk_of_none (s : State) (q : Nat) (h : (s.proc q).chunk = none) : commitChunk s q = s := by
  unfold commitChunk
  rw [h]

theorem chunkLines_none {s : State} {u : Nat} (h : (s.proc u).chunk = none) : chunkLines s u = 0 := by
  unfold chunkLines
  rw [h]

theorem openChunk_lines (s : State) (u n : Nat) (h : chunkLines s u ≤ n) : chunkLines (openChunk s u) u ≤ n := by
  unfold openChunk
  split
  · exact h
  · simp [chunkLines]

/-- A head begins within the limit of R121. -/
theorem beginHead_lines (s : State) (i : Instr) (hl : leader s s.cur = s.cur) (h : chunkLines s s.cur ≤ 64) :
    chunkLines (beginHead s i) s.cur ≤ 64 := by
  have k := landAll_sameChunks s (members s s.cur)
  unfold beginHead
  simp only [hl]
  generalize (members s s.cur).foldl (fun s m => (landFlight s m s.tide.toNat).modProc m fun p => { p with remIx := 0 }) s = s1 at k
  split
  · unfold endChunk
    have k2 : SameChunks (commitChunk s1 s.cur) ((commitChunk s1 s.cur).modProc s.cur fun p => { p with single := false }) := by
      refine SameChunks.modProc _ _ _ ?_
      intro p
      rfl
    rw [chunkLines_congr k2, chunkLines_none (commitChunk_none _ _)]
    omega
  · apply openChunk_lines
    split
    · split
      · rw [chunkLines_none (commitChunk_none _ _)]; omega
      · rw [chunkLines_congr k]; exact h
    · split
      · rw [chunkLines_none (commitChunk_none _ _)]; omega
      · rw [chunkLines_congr k]; exact h

/-! ### What a head's beginning may touch -/

/-- `t` differs from `s` in the agents, the cores and memory only, and in which of its lines have a soft error. -/
def Inner (s t : State) : Prop := t = { s with procs := t.procs, cores := t.cores, mem := t.mem, poison := t.poison }

theorem Inner.refl (s : State) : Inner s s := rfl

theorem Inner.trans {s t u : State} (h : Inner s t) (k : Inner t u) : Inner s u := by
  unfold Inner at *
  rw [k, h]

theorem Inner.cur {s t : State} (h : Inner s t) : t.cur = s.cur := by rw [h]
theorem Inner.tide {s t : State} (h : Inner s t) : t.tide = s.tide := by rw [h]

theorem Inner.modProc (s : State) (q : Nat) (f : Proc → Proc) : Inner s (s.modProc q f) := rfl
theorem Inner.modCore (s : State) (g : Nat) (f : Core → Core) : Inner s (s.modCore g f) := rfl

theorem Inner.foldl {α : Type} (f : State → α → State) (h : ∀ s a, Inner s (f s a)) (l : List α) (s : State) :
    Inner s (l.foldl f s) := by
  induction l generalizing s with
  | nil => exact .refl s
  | cons a l ih => exact (h s a).trans (ih _)

theorem addBin_inner (s : State) (g b n : Nat) : Inner s (addBin s g b n) := rfl

theorem applyWrite_inner (s : State) (q : Nat) (w : RegWrite) : Inner s (applyWrite s q w) := by
  cases w
  case hist g bins => exact Inner.foldl _ (fun s b => addBin_inner s g b 1) _ _
  all_goals rfl

theorem landFlight_inner (s : State) (q t : Nat) : Inner s (landFlight s q t) := by
  unfold landFlight
  simp only
  split
  · exact .refl s
  · exact (Inner.foldl (α := Flying) _ (fun s e => applyWrite_inner s q e.w) _ _).trans (Inner.modProc _ _ _)

theorem discardChunk_inner (s : State) (q : Nat) : Inner s (discardChunk s q) := by
  unfold discardChunk
  split
  · exact .refl s
  · exact (Inner.foldl (α := Nat × Regs) _ (fun s e => Inner.modProc s e.1 _) _ _).trans (Inner.modProc _ _ _)

theorem notifyLines_inner (s : State) (ls : List Nat) : Inner s (notifyLines s ls) := rfl

theorem sendSignature_inner (s : State) (ls : List Nat) : Inner s (sendSignature s ls) := by
  unfold sendSignature
  simp only
  split
  · exact .refl s
  · exact Inner.foldl (α := Nat × Proc) _ (fun s e => discardChunk_inner s e.1) _ _

theorem performBytes_inner (s : State) (cells : FMap Byte) : Inner s (performBytes s cells) := by
  unfold performBytes
  simp only
  refine Inner.trans ?_ (notifyLines_inner _ _)
  refine Inner.trans ?_ (sendSignature_inner _ _)
  rfl

theorem commitChunk_inner (s : State) (q : Nat) : Inner s (commitChunk s q) := by
  unfold commitChunk
  split
  · exact .refl s
  · simp only
    refine Inner.trans ?_ (Inner.foldl (α := Nat × Regs) _ (fun s e => Inner.modProc s e.1 _) _ _)
    refine Inner.trans ?_ (Inner.foldl (α := Nat × Nat) _ (fun s e => addBin_inner s _ _ _) _ _)
    exact (Inner.modProc _ _ _).trans (performBytes_inner _ _)

theorem openChunk_inner (s : State) (q : Nat) : Inner s (openChunk s q) := by
  unfold openChunk
  split
  · exact .refl s
  · exact Inner.modProc _ _ _

/-- The beginning of a head touches agents, cores and memory only. -/
theorem beginHead_inner (s : State) (i : Instr) : Inner s (beginHead s i) := by
  have k : Inner s ((members s s.cur).foldl
      (fun s m => (landFlight s m s.tide.toNat).modProc m fun p => { p with remIx := 0 }) s) :=
    Inner.foldl _ (fun s m => (landFlight_inner s m _).trans (Inner.modProc _ _ _)) _ _
  unfold beginHead
  simp only
  split
  · exact k.trans ((commitChunk_inner _ _).trans (Inner.modProc _ _ _))
  · refine Inner.trans ?_ (openChunk_inner _ _)
    split
    · split
      · exact k.trans (commitChunk_inner _ _)
      · exact k
    · split
      · exact k.trans (commitChunk_inner _ _)
      · exact k

theorem beginHead_cur (s : State) (i : Instr) : (beginHead s i).cur = s.cur := (beginHead_inner s i).cur

/-! ### The gang of an agent -/

/-- Every core's gang is as it was. -/
def SameGang (s t : State) : Prop := ∀ g, (t.core g).gsize = (s.core g).gsize ∧ (t.core g).gmemb = (s.core g).gmemb

theorem SameGang.refl (s : State) : SameGang s s := fun _ => ⟨rfl, rfl⟩

theorem SameGang.trans {s t u : State} (h : SameGang s t) (k : SameGang t u) : SameGang s u :=
  fun g => ⟨(k g).1.trans (h g).1, (k g).2.trans (h g).2⟩

theorem SameGang.modProc (s : State) (q : Nat) (f : Proc → Proc) : SameGang s (s.modProc q f) := fun _ => ⟨rfl, rfl⟩

theorem SameGang.foldl {α : Type} (f : State → α → State) (h : ∀ s a, SameGang s (f s a)) (l : List α) (s : State) :
    SameGang s (l.foldl f s) := by
  induction l generalizing s with
  | nil => exact .refl s
  | cons a l ih => exact (h s a).trans (ih _)

theorem State.core_modCore (s : State) (g h : Nat) (f : Core → Core) :
    (s.modCore g f).core h = if h = g then f (s.core g) else s.core h := by
  unfold State.modCore State.setCore State.core
  split
  · subst_vars
    exact FMap.get_put_same _ _ _ _
  · exact FMap.get_put_ne _ _ _ _ _ ‹_›

theorem addBin_sameGang (s : State) (g b n : Nat) : SameGang s (addBin s g b n) := by
  intro h
  unfold addBin
  rw [State.core_modCore]
  split
  · subst_vars
    simp only
    split <;> exact ⟨rfl, rfl⟩
  · exact ⟨rfl, rfl⟩

theorem applyWrite_sameGang (s : State) (q : Nat) (w : RegWrite) : SameGang s (applyWrite s q w) := by
  cases w
  case hist g bins => exact SameGang.foldl _ (fun s b => addBin_sameGang s g b 1) _ _
  all_goals exact fun _ => ⟨rfl, rfl⟩

theorem landFlight_sameGang (s : State) (q t : Nat) : SameGang s (landFlight s q t) := by
  unfold landFlight
  simp only
  split
  · exact .refl s
  · exact (SameGang.foldl (α := Flying) _ (fun s e => applyWrite_sameGang s q e.w) _ _).trans (SameGang.modProc _ _ _)

theorem discardChunk_sameGang (s : State) (q : Nat) : SameGang s (discardChunk s q) := by
  unfold discardChunk
  split
  · exact .refl s
  · exact (SameGang.foldl (α := Nat × Regs) _ (fun s e => SameGang.modProc s e.1 _) _ _).trans (SameGang.modProc _ _ _)

theorem performBytes_sameGang (s : State) (cells : FMap Byte) : SameGang s (performBytes s cells) := by
  have k : ∀ (s : State) ls, SameGang s (sendSignature s ls) := by
    intro s ls
    unfold sendSignature
    simp only
    split
    · exact .refl s
    · exact SameGang.foldl (α := Nat × Proc) _ (fun s e => discardChunk_sameGang s e.1) _ _
  unfold performBytes
  simp only
  have h1 : SameGang s { s with mem := cells.foldl (fun m e => Memory.write m e.1 e.2) s.mem, poison := stillPoisoned s.poison cells } := fun _ => ⟨rfl, rfl⟩
  exact h1.trans ((k _ _).trans fun _ => ⟨rfl, rfl⟩)

theorem commitChunk_sameGang (s : State) (q : Nat) : SameGang s (commitChunk s q) := by
  unfold commitChunk
  split
  · exact .refl s
  · simp only
    refine SameGang.trans ?_ (SameGang.foldl (α := Nat × Regs) _ (fun s e => SameGang.modProc s e.1 _) _ _)
    refine SameGang.trans ?_ (SameGang.foldl (α := Nat × Nat) _ (fun s e => addBin_sameGang s _ _ _) _ _)
    exact (SameGang.modProc _ _ _).trans (performBytes_sameGang _ _)

theorem openChunk_sameGang (s : State) (q : Nat) : SameGang s (openChunk s q) := by
  unfold openChunk
  split
  · exact .refl s
  · exact SameGang.modProc _ _ _

theorem beginHead_sameGang (s : State) (i : Instr) : SameGang s (beginHead s i) := by
  have k : SameGang s ((members s s.cur).foldl
      (fun s m => (landFlight s m s.tide.toNat).modProc m fun p => { p with remIx := 0 }) s) :=
    SameGang.foldl _ (fun s m => (landFlight_sameGang s m _).trans (SameGang.modProc _ _ _)) _ _
  unfold beginHead
  simp only
  split
  · exact k.trans ((commitChunk_sameGang _ _).trans (SameGang.modProc _ _ _))
  · refine SameGang.trans ?_ (openChunk_sameGang _ _)
    split
    · split
      · exact k.trans (commitChunk_sameGang _ _)
      · exact k
    · split
      · exact k.trans (commitChunk_sameGang _ _)
      · exact k

theorem members_congr {s t : State} (h : SameGang s t) (q : Nat) : members t q = members s q := by
  unfold members gangSize
  simp only [(h (coreOf q)).1, (h (coreOf q)).2]

theorem beginHead_members (s : State) (i : Instr) (q : Nat) : members (beginHead s i) q = members s q :=
  members_congr (beginHead_sameGang s i) q

theorem beginHead_alone {s : State} {i : Instr} (h : alone s = true) :
    members (beginHead s i) (beginHead s i).cur = [(beginHead s i).cur] := by
  have m : members s s.cur = [s.cur] := by simpa [alone] using h
  rw [beginHead_members, beginHead_cur, m]

theorem beginHead_leader {s : State} {i : Instr} (h : alone s = true) :
    leader (beginHead s i) (beginHead s i).cur = (beginHead s i).cur := by
  unfold leader
  rw [beginHead_alone h]
  rfl

/-! ### The frame -/

theorem ready_iff (s : State) (i : Instr) : ready s i = true ↔
    leader s s.cur = s.cur ∧ legality s s.cur (i.opcode.getD 0) = none ∧ operandsOk s i = true ∧
    bpMember s (members s s.cur) (s.proc s.cur).r.pc = none ∧ chunkLines s s.cur ≤ 64 ∧ heldBack s s.cur i = false ∧
    ∀ m ∈ members s s.cur, (s.proc m).wait ≠ .pushed := by
  simp [ready, and_assoc]

theorem members_ne_nil (s : State) (q : Nat) : members s q ≠ [] := by
  unfold members
  split
  · simp
  · simp [upTo, gangSize]

theorem leader_mem (s : State) (q : Nat) : leader s q ∈ members s q := by
  unfold leader
  cases h : members s q with
  | nil => exact absurd h (members_ne_nil s q)
  | cons m ms => simp

/-- No member of a head that may run is done with it already. -/
theorem ready_filter {i : Instr} {s : State} (h : ready s i = true) (each : Bool) :
    ((if each then members s s.cur else [s.cur]).filter fun m => (s.proc m).wait != .pushed) =
      if each then members s s.cur else [s.cur] := by
  obtain ⟨h1, _, _, _, _, _, h7⟩ := (ready_iff s i).1 h
  rw [List.filter_eq_self]
  intro m hm
  cases each
  · have hm' : m = s.cur := by simpa using hm
    have := h7 _ (h1 ▸ leader_mem s s.cur)
    simpa [hm'] using this
  · simpa using h7 m (by simpa using hm)

/-- What a head that may run answers when its meaning completes. -/
theorem frame_of_ok {i : Instr} {each : Bool} {body : Eff Next} {s t : State} {nx : Next} (h : ready s i = true)
    (hb : runMembers (if each then members s s.cur else [s.cur]) body (beginHead s i) = .ok nx t)
    (hc : chunkLines t s.cur ≤ 64) : frame i each body s = endHead { t with cur := s.cur } i nx := by
  obtain ⟨h1, h2, h3, h4, _, h6, _⟩ := (ready_iff s i).1 h
  unfold frame
  simp only [h1, h2, h3, h4, h6, ready_filter h each, hb, Bool.not_true, Bool.false_eq_true, if_false]
  rw [if_neg (show ¬ 64 < chunkLines t s.cur by omega)]
  simp only [settle, beginHead_cur]

/-- A head that its agent, alone or for its gang, executes once (R194). -/
theorem exec_once {i : Instr} {body : Eff Next} {s t : State} {nx : Next} (h : ready s i = true)
    (hb : body (beginHead s i) = .ok nx t) (hc : chunkLines t s.cur ≤ 64) :
    frame i false body s = endHead { t with cur := s.cur } i nx := by
  refine frame_of_ok h ?_ hc
  have k : ({ beginHead s i with cur := s.cur } : State) = beginHead s i := by rw [← beginHead_cur s i]
  simp [runMembers, runMembersFrom, k, hb]

/-- A head that each member executes, of an agent in no gang. -/
theorem exec_alone {i : Instr} {body : Eff Next} {s t : State} {nx : Next} (h : ready s i = true) (ha : alone s = true)
    (hb : body (beginHead s i) = .ok nx t) (hc : chunkLines t s.cur ≤ 64) :
    frame i true body s = endHead { t with cur := s.cur } i nx := by
  refine frame_of_ok h ?_ hc
  have k : ({ beginHead s i with cur := s.cur } : State) = beginHead s i := by rw [← beginHead_cur s i]
  have m : members s s.cur = [s.cur] := by simpa [alone] using ha
  simp [runMembers, runMembersFrom, k, hb, m]

/-- Members that all complete, one after another. -/
theorem runMembersFrom_ok {body : Eff Next} {nx : Next} (f : State → Nat → State)
    (h : ∀ t m, body { t with cur := m } = .ok nx (f t m)) (ms : List Nat) (keep acc : State) :
    runMembersFrom body (some nx) none keep ms acc = .ok nx (ms.foldl f acc) := by
  induction ms generalizing acc with
  | nil => rfl
  | cons m ms ih => simp only [runMembersFrom, h, Option.getD_some, List.foldl_cons, ih]

/-- A head that each member of a gang executes and that always completes (R138, R173). -/
theorem exec_each {i : Instr} {body : Eff Next} {s : State} {nx : Next} (h : ready s i = true) (f : State → Nat → State)
    (hb : ∀ t m, body { t with cur := m } = .ok nx (f t m)) (hk : ∀ t m, SameChunks t (f t m))
    (hm : members s s.cur ≠ []) :
    frame i true body s = endHead { (members s s.cur).foldl f (beginHead s i) with cur := s.cur } i nx := by
  refine frame_of_ok h ?_ ?_
  · rw [if_pos rfl]
    cases e : members s s.cur with
    | nil => exact absurd e hm
    | cons m ms => simp only [runMembers, runMembersFrom, hb, Option.getD_none, List.foldl_cons, runMembersFrom_ok f hb]
  · rw [chunkLines_congr (SameChunks.foldl f hk _ _)]
    obtain ⟨h1, _, _, _, h5, _⟩ := (ready_iff s i).1 h
    exact beginHead_lines s i h1 h5

end Sys2Proof.Machine
end

