-- ==== Sys2Proof/Laws/Effects.lean ====
section
/-!
SUPPORT. How a meaning runs: one lemma for each step of the monad, and the operands of a head that names no port.
-/

namespace Sys2Proof.Machine

theorem Eff.bind_ok {α β : Type} {e : Eff α} {k : α → Eff β} {s t : State} {x : α} (h : e s = .ok x t) :
    (e >>= k) s = k x t := by
  show EStateM.bind e k s = _
  simp only [EStateM.bind, h]

theorem Eff.bind_error {α β : Type} {e : Eff α} {k : α → Eff β} {s t : State} {x : Stop} (h : e s = .error x t) :
    (e >>= k) s = .error x t := by
  show EStateM.bind e k s = _
  simp only [EStateM.bind, h]

theorem Eff.bind_apply {α β : Type} (e : Eff α) (k : α → Eff β) (s : State) : (e >>= k) s = match e s with
    | .ok x t => k x t
    | .error x t => .error x t := by
  show EStateM.bind e k s = _
  unfold EStateM.bind
  cases e s <;> rfl

theorem Eff.pure_apply {α : Type} (x : α) (s : State) : (pure x : Eff α) s = .ok x s := rfl
theorem Eff.get_apply (s : State) : (get : Eff State) s = .ok s s := rfl
theorem Eff.set_apply (s t : State) : (set t : Eff Unit) s = .ok () t := rfl
theorem Eff.modify_apply (f : State → State) (s : State) : (modify f : Eff Unit) s = .ok () (f s) := rfl
theorem Eff.throw_apply {α : Type} (e : Stop) (s : State) : (throw e : Eff α) s = .error e s := rfl
theorem Eff.map_apply {α β : Type} (f : α → β) (e : Eff α) (s : State) : (f <$> e) s = match e s with
    | .ok x t => .ok (f x) t
    | .error x t => .error x t := by
  show EStateM.map f e s = _
  unfold EStateM.map
  cases e s <;> rfl
theorem Eff.seqRight_apply {α β : Type} (e : Eff α) (k : Eff β) (s : State) : (do let _ ← e; k) s = match e s with
    | .ok _ t => k t
    | .error x t => .error x t := Eff.bind_apply _ _ _
theorem Eff.ite_apply {α : Type} (c : Prop) [Decidable c] (x y : Eff α) (s : State) :
    (if c then x else y) s = if c then x s else y s := by split <;> rfl

theorem modMe_apply (f : Proc → Proc) (s : State) : modMe f s = .ok () (s.modProc s.cur f) := rfl
theorem gr_apply (f : BitVec 6) (t : State) : gr f t = .ok (t.myReg f) t := rfl
theorem pcOf_apply (t : State) : pcOf t = .ok t.me.r.pc t := rfl

theorem result_apply (lat : Nat) (w : RegWrite) (t : State) : result lat w t = .ok () (t.land lat w) := rfl

/-- A source that names no port is read without an effect. -/
theorem src_plain (f : BitVec 6) (t : State) (h : f.toNat < 48) : src f t = .ok (t.myReg f) t := by
  unfold src
  rw [if_pos h]
  rfl

/-- A destination that names no port takes its result. -/
theorem dst_plain (lat : Nat) (f : BitVec 6) (x : Word) (t : State) (h : f.toNat < 48) :
    dst lat f x t = .ok () (t.landG lat f x) := by
  unfold dst State.landG
  by_cases h0 : f.toNat = 0
  · rw [if_pos h0, if_pos h0]
    rfl
  · rw [if_neg h0, if_pos h, if_neg h0]
    rfl

theorem writeNext_plain (lat : Nat) (f : BitVec 6) (x : Word) (t : State) (h : f.toNat < 48) :
    writeNext lat f x t = .ok seqNext (t.landG lat f x) := by
  unfold writeNext
  rw [Eff.bind_ok (dst_plain lat f x t h)]
  rfl

theorem alu2_plain (lat : Nat) (f : Word → Word → Word) (a b c : BitVec 6) (t : State) (ha : a.toNat < 48) (hb : b.toNat < 48)
    (hc : c.toNat < 48) : alu2 lat f a b c t = .ok seqNext (t.landG lat a (f (t.myReg b) (t.myReg c))) := by
  unfold alu2
  rw [Eff.bind_ok (src_plain b t hb), Eff.bind_ok (src_plain c t hc), writeNext_plain _ _ _ _ ha]

theorem alu1_plain (f : Word → Word) (a b : BitVec 6) (t : State) (ha : a.toNat < 48) (hb : b.toNat < 48) :
    alu1 f a b t = .ok seqNext (t.landG 1 a (f (t.myReg b))) := by
  unfold alu1
  rw [Eff.bind_ok (src_plain b t hb), writeNext_plain _ _ _ _ ha]

/-! ### What a result touches -/

theorem noteDue_sameChunks (t : State) (q lat : Nat) (w : RegWrite) : SameChunks t (noteDue t q lat w) := by
  unfold noteDue
  split
  · exact .refl t
  · split
    · exact .refl t
    · exact SameChunks.modProc _ _ _ fun _ => rfl

theorem noteDue_inner (t : State) (q lat : Nat) (w : RegWrite) : Inner t (noteDue t q lat w) := by
  unfold noteDue
  split
  · exact .refl t
  · split
    · exact .refl t
    · exact Inner.modProc _ _ _

theorem land_sameChunks (t : State) (lat : Nat) (w : RegWrite) : SameChunks t (t.land lat w) := by
  unfold State.land
  split
  · refine SameChunks.modProc _ _ _ ?_
    intro p
    rfl
  · exact (noteDue_sameChunks _ _ _ _).trans (applyWrite_sameChunks _ _ _)

theorem landG_sameChunks (t : State) (lat : Nat) (f : BitVec 6) (x : Word) : SameChunks t (t.landG lat f x) := by
  unfold State.landG
  split
  · exact .refl t
  · exact land_sameChunks _ _ _

theorem land_inner (t : State) (lat : Nat) (w : RegWrite) : Inner t (t.land lat w) := by
  unfold State.land
  split
  · exact Inner.modProc _ _ _
  · exact (noteDue_inner _ _ _ _).trans (applyWrite_inner _ _ _)

theorem landG_inner (t : State) (lat : Nat) (f : BitVec 6) (x : Word) : Inner t (t.landG lat f x) := by
  unfold State.landG
  split
  · exact .refl t
  · exact land_inner _ _ _

/-- A head that each member executes and that always completes: the head completes. -/
theorem completes_each {i : Instr} {body : Eff Next} {s : State} {nx : Next} (h : ready s i = true) (f : State → State)
    (he : Sys2Proof.Machine.exec i s = runHead i body s) (hb : ∀ t, body t = .ok nx (f t))
    (hk : ∀ t, SameChunks t (f t)) : Completes i s (forMembers s (beginHead s i) f) nx := by
  unfold Completes
  rw [he]
  unfold runHead
  rw [exec_each h (fun t m => f { t with cur := m }) (fun t m => hb _) (fun t m => hk _) (members_ne_nil s s.cur)]
  rfl

/-- A head that each member executes, of an agent in no gang. -/
theorem completes_alone {i : Instr} {body : Eff Next} {s t : State} {nx : Next} (h : ready s i = true) (ha : alone s = true)
    (he : Sys2Proof.Machine.exec i s = runHead i body s) (hb : body (beginHead s i) = .ok nx t)
    (hc : chunkLines t s.cur ≤ 64) : Completes i s t nx := by
  unfold Completes
  rw [he]
  unfold runHead
  rw [exec_alone h ha hb hc]

/-- A head that is executed once for its gang. -/
theorem completes_once {i : Instr} {body : Eff Next} {s t : State} {nx : Next} (h : ready s i = true)
    (he : Sys2Proof.Machine.exec i s = runOnce i body s) (hb : body (beginHead s i) = .ok nx t)
    (hc : chunkLines t s.cur ≤ 64) : Completes i s t nx := by
  unfold Completes
  rw [he]
  unfold runOnce
  rw [exec_once h hb hc]

end Sys2Proof.Machine
end

