-- ==== Sys2Proof/Laws/Calm.lean ====
section
/-!
SUPPORT. A head of an agent in free mode inside its chunk: how it begins and ends, in one equation each.
-/

namespace Sys2Proof.Machine

theorem alone_iff (s : State) : alone s = true ↔ members s s.cur = [s.cur] := by simp [alone]

theorem calm_iff (s : State) (i : Instr) : calm s i = true ↔
    members s s.cur = [s.cur] ∧ s.me.timed = false ∧ s.me.flight = [] ∧ s.me.single = false ∧ endsChunk i = false ∧
    (∀ c, s.me.chunk = some c → c.heads < 512) := by
  unfold calm
  cases h : s.me.chunk <;> simp [alone_iff, and_assoc, List.isEmpty_iff]

theorem leader_alone {s : State} {q : Nat} (h : members s q = [q]) : leader s q = q := by simp [leader, h]

theorem members_modProc (s : State) (q r : Nat) (f : Proc → Proc) : members (s.modProc q f) r = members s r := rfl

theorem landFlight_none (s : State) (q t : Nat) (h : (s.proc q).flight = []) : landFlight s q t = s := by
  unfold landFlight
  simp [h]

/-- The agent of a calm head as its meaning sees it: its chunk is open. -/
def opened (s : State) (p : Proc) : Proc :=
  { p with
    remIx := 0
    chunk := some (p.chunk.getD { ckpt := [(s.cur, p.r)], age := s.tide }) }

theorem modProc_modProc (s : State) (q : Nat) (f g : Proc → Proc) : (s.modProc q f).modProc q g = s.modProc q (g ∘ f) := by
  have hput : ∀ (m : FMap Proc) (x y : Proc), FMap.put (FMap.put m q x) q y = FMap.put m q y := by
    intro m x y
    induction m with
    | nil => simp [FMap.put]
    | cons e m ih =>
      obtain ⟨j, z⟩ := e
      simp only [FMap.put]
      split
      · simp [FMap.put]
      · split
        · simp [FMap.put]
        · rename_i h1 h2
          simp [FMap.put, h1, h2, ih]
  show ({ s with procs := _ } : State) = _
  unfold State.modProc State.setProc
  simp only [hput]
  have hp : ({ s with procs := s.procs.put q (f (s.proc q)) } : State).proc q = f (s.proc q) := FMap.get_put_same _ _ _ _
  rw [hp]
  rfl

theorem modProc_congr {s : State} {q : Nat} {f g : Proc → Proc} (h : f (s.proc q) = g (s.proc q)) :
    s.modProc q f = s.modProc q g := by
  unfold State.modProc
  rw [h]

theorem beginHead_calm {s : State} {i : Instr} (h : calm s i = true) : beginHead s i = s.modProc s.cur (opened s) := by
  obtain ⟨hm, ht, hf, _, he, hc⟩ := (calm_iff s i).1 h
  unfold beginHead
  simp only [hm, leader_alone hm, he, List.foldl_cons, List.foldl_nil, landFlight_none s s.cur _ hf, Bool.false_eq_true, if_false]
  generalize hs1 : (s.modProc s.cur fun p => { p with remIx := 0 }) = s1
  have h1 : s1.proc s.cur = { s.me with remIx := 0 } := by rw [← hs1]; exact State.proc_modProc _ _ _
  rw [if_neg (by
    rw [h1]
    cases k : s.me.chunk with
    | none => simp
    | some c => have := hc c k; simp; omega)]
  unfold openChunk
  cases k : s.me.chunk with
  | some c =>
    rw [if_pos (by rw [h1]; simp [k]), ← hs1]
    refine modProc_congr ?_
    show ({ s.me with remIx := 0 } : Proc) = opened s s.me
    simp only [opened, k, Option.getD_some]
  | none =>
    rw [if_neg (by rw [h1]; simp [k, ht])]
    have hm1 : members s1 s.cur = [s.cur] := by rw [← hs1]; exact hm
    have htd : s1.tide = s.tide := by rw [← hs1]; rfl
    simp only [hm1, List.map_cons, List.map_nil, h1, htd]
    rw [← hs1, modProc_modProc]
    refine modProc_congr ?_
    show _ = opened s s.me
    simp only [Function.comp, opened, k, Option.getD_none]
    rfl

/-- The agent of a calm head when it has completed: the PC, the count of its chunk, and when it issues next. -/
def closed (s : State) (pc : Word) (nx : Next) (p : Proc) : Proc :=
  { p with
    r := { p.r with pc := pc }
    waited := 0, skipBp := nx.skipBp, wait := nx.after
    resumeAt := if p.resumeAt.toNat < s.tide.toNat + nx.delay then s.tide + BitVec.ofNat 64 nx.delay else p.resumeAt
    chunk := p.chunk.map fun c => { c with heads := c.heads + 1 } }

/-- The end of a head of an agent in no gang, whose chunk stays open. -/
theorem endHead_calm {t : State} {i : Instr} {nx : Next} (hm : members t t.cur = [t.cur]) (hc : t.me.chunk.isSome = true)
    (he : endsChunk i = false) (hs : t.me.single = false) (hg : nx.gone = false) :
    endHead t i nx =
      { t.modProc t.cur (closed t (nx.target.getD (nextPc t t.cur t.me.r.pc)) nx) with issued := true } := by
  have hc' : (t.proc t.cur).chunk.isSome = true := hc
  have hs' : (t.proc t.cur).single = false := hs
  unfold endHead
  simp only [hg, Bool.false_eq_true, if_false, hm, leader_alone hm, List.foldl_cons, List.foldl_nil, hc', he, Bool.not_false,
    Bool.and_true, if_true, modProc_modProc, State.proc_modProc, Function.comp, hs']
  congr 1

end Sys2Proof.Machine
end

