-- ==== Sys2Proof/Laws/Memory.lean ====
section
/-!
SUPPORT. Memory (R102, R106): what a byte reads as after a write, and that every operation keeps the one canonical form.
-/

namespace Sys2Proof.Machine

/-! ### Reading -/

theorem FMap.get_del {α : Type} (m : FMap α) (k j : Nat) (d : α) : FMap.get (FMap.del m k) j d = if j = k then d else FMap.get m j d := by
  induction m with
  | nil => split <;> rfl
  | cons e m ih =>
    obtain ⟨i, x⟩ := e
    simp only [FMap.del, FMap.get] at ih
    simp only [FMap.del, FMap.get, FMap.find, List.filter_cons]
    by_cases hi : i = k
    · subst hi
      simp only [decide_true, Bool.not_true, Bool.false_eq_true, if_false, ih]
      split <;> simp_all
    · simp only [hi, decide_false, Bool.not_false, if_true, FMap.find]
      by_cases hj : j = i
      · subst hj
        simp [hi]
      · simp only [hj, if_false, ih]

theorem FMap.get_filter {α : Type} (m : FMap α) (g : Nat → Bool) (k : Nat) (d : α) :
    FMap.get (m.filter fun (e : Nat × α) => g e.1) k d = if g k then FMap.get m k d else d := by
  induction m with
  | nil => split <;> rfl
  | cons e m ih =>
    obtain ⟨j, x⟩ := e
    simp only [FMap.get] at ih
    by_cases hj : g j = true
    · simp only [List.filter_cons, hj, if_true, FMap.get, FMap.find]
      by_cases hk : k = j
      · subst hk; simp [hj]
      · simpa [hk] using ih
    · simp only [List.filter_cons, hj, Bool.false_eq_true, if_false, FMap.get, FMap.find, ih]
      by_cases hk : k = j
      · subst hk; simp [hj]
      · simp [hk]

/-- A byte reads as what was written there, every other byte as before. -/
theorem Memory.read_write (m : List Host.Cell) (a k : Nat) (b : Byte) :
    Memory.read (Memory.write m a b) k = if k = a then b else Memory.read m k := by
  unfold Memory.read Memory.write
  by_cases hb : b = Memory.default
  · rw [if_pos hb, FMap.get_del]
    split
    · exact hb.symm
    · rfl
  · rw [if_neg hb]
    by_cases h : k = a
    · subst h
      rw [if_pos rfl, FMap.get_put_same]
    · rw [if_neg h, FMap.get_put_ne _ _ _ _ _ h]

theorem Memory.read_writeList_below (bs : List Byte) : ∀ (m : List Host.Cell) (a k : Nat), k < a →
    Memory.read (Memory.writeList m a bs) k = Memory.read m k := by
  induction bs with
  | nil => intros; rfl
  | cons b bs ih =>
    intro m a k h
    rw [Memory.writeList, ih _ _ _ (by omega), Memory.read_write, if_neg (by omega)]

/-- The bytes of a list read back where they were written. -/
theorem Memory.read_writeList_in (bs : List Byte) : ∀ (m : List Host.Cell) (a j : Nat) (h : j < bs.length),
    Memory.read (Memory.writeList m a bs) (a + j) = bs[j] := by
  induction bs with
  | nil => intro m a j h; exact absurd h (by simp)
  | cons b bs ih =>
    intro m a j h
    rw [Memory.writeList]
    cases j with
    | zero => rw [Memory.read_writeList_below _ _ _ _ (by omega), Memory.read_write, if_pos (Nat.add_zero a)]; rfl
    | succ j =>
      have := ih (Memory.write m a b) (a + 1) j (by simpa using h)
      rw [show a + (j + 1) = a + 1 + j by omega, this]
      rfl

/-- Every byte beside those written reads as before. -/
theorem Memory.read_writeList_out (bs : List Byte) : ∀ (m : List Host.Cell) (a k : Nat), (k < a ∨ a + bs.length ≤ k) →
    Memory.read (Memory.writeList m a bs) k = Memory.read m k := by
  induction bs with
  | nil => intros; rfl
  | cons b bs ih =>
    intro m a k h
    rw [List.length_cons] at h
    rw [Memory.writeList, ih _ _ _ (by omega), Memory.read_write, if_neg (by omega)]

theorem Memory.read_filter (m : List Host.Cell) (g : Nat → Bool) (k : Nat) :
    Memory.read (m.filter fun e => g e.1) k = if g k then Memory.read m k else Memory.default := FMap.get_filter m g k _

/-! ### The canonical form -/

/-- The keys of a memory strictly rise and no entry equals what an unlisted key reads as. -/
theorem Memory.wf_iff (m : List Host.Cell) : Memory.wf m = true ↔
    m.Pairwise (fun x y => x.1 < y.1) ∧ ∀ e ∈ m, e.2 ≠ Memory.default := by
  induction m with
  | nil => simp [Memory.wf]
  | cons e m ih =>
    obtain ⟨a, b⟩ := e
    cases m with
    | nil => simp [Memory.wf]
    | cons e' m =>
      obtain ⟨a', b'⟩ := e'
      rw [Memory.wf, Bool.and_eq_true, Bool.and_eq_true, ih]
      simp only [decide_eq_true_eq, bne_iff_ne, List.pairwise_cons, List.mem_cons]
      constructor
      · rintro ⟨⟨h1, h2⟩, ⟨h3, h4⟩, h5⟩
        refine ⟨⟨?_, h3, h4⟩, ?_⟩
        · rintro x (rfl | hx)
          · exact h1
          · exact Nat.lt_trans h1 (h3 x hx)
        · rintro x (rfl | hx)
          · exact h2
          · exact h5 x hx
      · rintro ⟨⟨h1, h3, h4⟩, h5⟩
        exact ⟨⟨h1 _ (.inl rfl), h5 _ (.inl rfl)⟩, ⟨h3, h4⟩, fun x hx => h5 x (.inr hx)⟩

theorem Memory.wf_filter {m : List Host.Cell} (h : Memory.wf m = true) (p : Host.Cell → Bool) : Memory.wf (m.filter p) = true := by
  rw [Memory.wf_iff] at h ⊢
  exact ⟨h.1.filter _, fun e he => h.2 e (List.mem_filter.1 he).1⟩

theorem FMap.mem_put {α : Type} (m : FMap α) (k : Nat) (x : α) : ∀ e ∈ FMap.put m k x, e = (k, x) ∨ e ∈ m := by
  induction m with
  | nil => intro e he; exact .inl (by simpa [FMap.put] using he)
  | cons a m ih =>
    obtain ⟨j, y⟩ := a
    intro e he
    rw [FMap.put] at he
    split at he
    · rcases List.mem_cons.1 he with h | h
      · exact .inl h
      · exact .inr (List.mem_cons_of_mem _ h)
    · split at he
      · rcases List.mem_cons.1 he with h | h
        · exact .inl h
        · exact .inr h
      · rcases List.mem_cons.1 he with h | h
        · exact .inr (h ▸ List.mem_cons_self)
        · rcases ih e h with h | h
          · exact .inl h
          · exact .inr (List.mem_cons_of_mem _ h)

theorem FMap.put_rising {α : Type} (m : FMap α) (k : Nat) (x : α) (h : m.Pairwise fun a b => a.1 < b.1) :
    (FMap.put m k x).Pairwise fun a b => a.1 < b.1 := by
  induction m with
  | nil => simp [FMap.put]
  | cons a m ih =>
    obtain ⟨j, y⟩ := a
    obtain ⟨h1, h2⟩ := List.pairwise_cons.1 h
    rw [FMap.put]
    split
    · rename_i hk
      subst hk
      exact List.pairwise_cons.2 ⟨h1, h2⟩
    · split
      · rename_i hk
        refine List.pairwise_cons.2 ⟨fun e he => ?_, h⟩
        rcases List.mem_cons.1 he with rfl | he
        · exact hk
        · exact Nat.lt_trans hk (h1 e he)
      · refine List.pairwise_cons.2 ⟨fun e he => ?_, ih h2⟩
        rcases FMap.mem_put m k x e he with rfl | he
        · show j < k
          omega
        · exact h1 e he

/-- A write keeps the canonical form. -/
theorem Memory.wf_write {m : List Host.Cell} (h : Memory.wf m = true) (a : Nat) (b : Byte) : Memory.wf (Memory.write m a b) = true := by
  unfold Memory.write
  split
  · exact Memory.wf_filter h _
  · rename_i hb
    rw [Memory.wf_iff] at h ⊢
    refine ⟨FMap.put_rising _ _ _ h.1, fun e he => ?_⟩
    rcases FMap.mem_put m a b e he with rfl | he
    · exact hb
    · exact h.2 e he

theorem Memory.wf_writeList (bs : List Byte) : ∀ {m : List Host.Cell} (a : Nat), Memory.wf m = true → Memory.wf (Memory.writeList m a bs) = true := by
  induction bs with
  | nil => intro m a h; exact h
  | cons b bs ih => intro m a h; exact ih _ (Memory.wf_write h a b)

/-- A chunk's bytes, written one after another, keep the canonical form. -/
theorem Memory.wf_cells (cells : FMap Byte) : ∀ {m : List Host.Cell}, Memory.wf m = true →
    Memory.wf (cells.foldl (fun m e => Memory.write m e.1 e.2) m) = true := by
  induction cells with
  | nil => intro m h; exact h
  | cons e cells ih => intro m h; exact ih (Memory.wf_write h e.1 e.2)

theorem State.reset_wf : Memory.wf State.reset.mem = true := rfl

/-- Equal canonical memories are those whose bytes read equal. -/
theorem Memory.ext_of_wf {m n : List Host.Cell} (hm : Memory.wf m = true) (hn : Memory.wf n = true)
    (h : ∀ a, Memory.read m a = Memory.read n a) : m = n := by
  rw [Memory.wf_iff] at hm hn
  have low : ∀ (l : List Host.Cell) (k : Nat), (∀ e ∈ l, k < e.1) → Memory.read l k = Memory.default := by
    intro l k hl
    induction l with
    | nil => rfl
    | cons e l ih =>
      obtain ⟨j, x⟩ := e
      have hj : k < j := hl _ List.mem_cons_self
      have := ih fun e he => hl e (List.mem_cons_of_mem _ he)
      unfold Memory.read FMap.get at this ⊢
      rw [FMap.find, if_neg (by omega)]
      exact this
  have hd : ∀ (l : List Host.Cell) (k : Nat) (x : Byte), Memory.read ((k, x) :: l) k = x := by
    intro l k x
    simp [Memory.read, FMap.get, FMap.find]
  have tl : ∀ (l : List Host.Cell) (j k : Nat) (x : Byte), k ≠ j → Memory.read ((j, x) :: l) k = Memory.read l k := by
    intro l j k x hk
    simp [Memory.read, FMap.get, FMap.find, hk]
  induction m generalizing n with
  | nil =>
    cases n with
    | nil => rfl
    | cons e n =>
      obtain ⟨k, x⟩ := e
      exact absurd ((hd n k x).symm.trans (h k).symm) (hn.2 _ List.mem_cons_self)
  | cons e m ih =>
    obtain ⟨j, x⟩ := e
    have hx : x ≠ Memory.default := hm.2 _ List.mem_cons_self
    obtain ⟨m1, m2⟩ := List.pairwise_cons.1 hm.1
    cases n with
    | nil => exact absurd ((hd m j x).symm.trans (h j)) hx
    | cons e n =>
      obtain ⟨k, y⟩ := e
      have hy : y ≠ Memory.default := hn.2 _ List.mem_cons_self
      obtain ⟨n1, n2⟩ := List.pairwise_cons.1 hn.1
      have hjk : j = k := by
        rcases Nat.lt_trichotomy j k with hlt | heq | hlt
        · refine absurd ((hd m j x).symm.trans ((h j).trans (low _ _ fun e he => ?_))) hx
          rcases List.mem_cons.1 he with rfl | he
          · exact hlt
          · exact Nat.lt_trans hlt (n1 e he)
        · exact heq
        · refine absurd ((hd n k y).symm.trans ((h k).symm.trans (low _ _ fun e he => ?_))) hy
          rcases List.mem_cons.1 he with rfl | he
          · exact hlt
          · exact Nat.lt_trans hlt (m1 e he)
      subst hjk
      have hxy : x = y := by rw [← hd m j x, ← hd n j y]; exact h j
      subst hxy
      congr 1
      refine ih ⟨m2, fun e he => hm.2 e (List.mem_cons_of_mem _ he)⟩ ⟨n2, fun e he => hn.2 e (List.mem_cons_of_mem _ he)⟩ fun a => ?_
      by_cases ha : a = j
      · subst ha
        rw [low m a m1, low n a n1]
      · rw [← tl m j a x ha, ← tl n j a x ha]
        exact h a

end Sys2Proof.Machine
end

