-- ==== Sys2Proof/Laws/PerInstr.lean ====
section
/-!
SUPPORT. One lemma per instruction: the encoding of a head has the head's opcode, in eight bits, and a field A of six bits; what
is no head has no encoding (R41, R43).
-/

namespace Sys2Proof.Laws.WfEncoding

/-- The opcode and field A that an instruction is encoded with. -/
def Statement (i : Instr) : Prop :=
  match encodeParts i with
  | some (op, a, _) => i.opcode = some op ∧ op < 256 ∧ a < 64
  | none => i.opcode = none

theorem nop : Statement (.nop) := ⟨rfl, by decide, by decide⟩
theorem halt : Statement (.halt) := ⟨rfl, by decide, by decide⟩
theorem brk (code : BitVec 16) : Statement (.brk code) := ⟨rfl, by decide, by decide⟩
theorem trap (code : BitVec 16) : Statement (.trap code) := ⟨rfl, by decide, by decide⟩
theorem eret : Statement (.eret) := ⟨rfl, by decide, by decide⟩
theorem fence (sc : BitVec 3) (i : Bool) : Statement (.fence sc i) := ⟨rfl, by decide, by decide⟩
theorem chunkEnd : Statement (.chunkEnd) := ⟨rfl, by decide, by decide⟩
theorem srr (a : BitVec 6) (num : BitVec 16) : Statement (.srr a num) := ⟨rfl, by decide, BitVec.isLt _⟩
theorem srw (a : BitVec 6) (num : BitVec 16) : Statement (.srw a num) := ⟨rfl, by decide, BitVec.isLt _⟩
theorem liI16 (a : BitVec 6) (imm : BitVec 16) : Statement (.liI16 a imm) := ⟨rfl, by decide, BitVec.isLt _⟩
theorem liI32 (a : BitVec 6) (imm : BitVec 32) : Statement (.liI32 a imm) := ⟨rfl, by decide, BitVec.isLt _⟩
theorem liI48 (a : BitVec 6) (imm : BitVec 48) : Statement (.liI48 a imm) := ⟨rfl, by decide, BitVec.isLt _⟩
theorem liHi (a : BitVec 6) (imm : BitVec 48) : Statement (.liHi a imm) := ⟨rfl, by decide, BitVec.isLt _⟩
theorem leaBase (a : BitVec 6) (b : BitVec 6) (imm : BitVec 16) : Statement (.leaBase a b imm) := ⟨rfl, by decide, BitVec.isLt _⟩
theorem leaPc (a : BitVec 6) (imm : BitVec 16) : Statement (.leaPc a imm) := ⟨rfl, by decide, BitVec.isLt _⟩
theorem leaIndex (a : BitVec 6) (b : BitVec 6) (c : BitVec 6) (sh : BitVec 2) (imm : BitVec 32) : Statement (.leaIndex a b c sh imm) := ⟨rfl, by decide, BitVec.isLt _⟩
theorem leaPcIndex (a : BitVec 6) (c : BitVec 6) (sh : BitVec 2) (imm : BitVec 32) : Statement (.leaPcIndex a c sh imm) := ⟨rfl, by decide, BitVec.isLt _⟩
theorem addRr (a : BitVec 6) (b : BitVec 6) (c : BitVec 6) : Statement (.addRr a b c) := ⟨rfl, by decide, BitVec.isLt _⟩
theorem subRr (a : BitVec 6) (b : BitVec 6) (c : BitVec 6) : Statement (.subRr a b c) := ⟨rfl, by decide, BitVec.isLt _⟩
theorem andRr (a : BitVec 6) (b : BitVec 6) (c : BitVec 6) : Statement (.andRr a b c) := ⟨rfl, by decide, BitVec.isLt _⟩
theorem orRr (a : BitVec 6) (b : BitVec 6) (c : BitVec 6) : Statement (.orRr a b c) := ⟨rfl, by decide, BitVec.isLt _⟩
theorem xorRr (a : BitVec 6) (b : BitVec 6) (c : BitVec 6) : Statement (.xorRr a b c) := ⟨rfl, by decide, BitVec.isLt _⟩
theorem shlRr (a : BitVec 6) (b : BitVec 6) (c : BitVec 6) : Statement (.shlRr a b c) := ⟨rfl, by decide, BitVec.isLt _⟩
theorem shrRr (a : BitVec 6) (b : BitVec 6) (c : BitVec 6) : Statement (.shrRr a b c) := ⟨rfl, by decide, BitVec.isLt _⟩
theorem sraRr (a : BitVec 6) (b : BitVec 6) (c : BitVec 6) : Statement (.sraRr a b c) := ⟨rfl, by decide, BitVec.isLt _⟩
theorem minRr (a : BitVec 6) (b : BitVec 6) (c : BitVec 6) : Statement (.minRr a b c) := ⟨rfl, by decide, BitVec.isLt _⟩
theorem maxRr (a : BitVec 6) (b : BitVec 6) (c : BitVec 6) : Statement (.maxRr a b c) := ⟨rfl, by decide, BitVec.isLt _⟩
theorem minuRr (a : BitVec 6) (b : BitVec 6) (c : BitVec 6) : Statement (.minuRr a b c) := ⟨rfl, by decide, BitVec.isLt _⟩
theorem maxuRr (a : BitVec 6) (b : BitVec 6) (c : BitVec 6) : Statement (.maxuRr a b c) := ⟨rfl, by decide, BitVec.isLt _⟩
theorem addRi16 (a : BitVec 6) (b : BitVec 6) (imm : BitVec 16) : Statement (.addRi16 a b imm) := ⟨rfl, by decide, BitVec.isLt _⟩
theorem andRi16 (a : BitVec 6) (b : BitVec 6) (imm : BitVec 16) : Statement (.andRi16 a b imm) := ⟨rfl, by decide, BitVec.isLt _⟩
theorem orRi16 (a : BitVec 6) (b : BitVec 6) (imm : BitVec 16) : Statement (.orRi16 a b imm) := ⟨rfl, by decide, BitVec.isLt _⟩
theorem xorRi16 (a : BitVec 6) (b : BitVec 6) (imm : BitVec 16) : Statement (.xorRi16 a b imm) := ⟨rfl, by decide, BitVec.isLt _⟩
theorem shlRi16 (a : BitVec 6) (b : BitVec 6) (imm : BitVec 16) : Statement (.shlRi16 a b imm) := ⟨rfl, by decide, BitVec.isLt _⟩
theorem shrRi16 (a : BitVec 6) (b : BitVec 6) (imm : BitVec 16) : Statement (.shrRi16 a b imm) := ⟨rfl, by decide, BitVec.isLt _⟩
theorem sraRi16 (a : BitVec 6) (b : BitVec 6) (imm : BitVec 16) : Statement (.sraRi16 a b imm) := ⟨rfl, by decide, BitVec.isLt _⟩
theorem addRri32 (a : BitVec 6) (b : BitVec 6) (imm : BitVec 32) : Statement (.addRri32 a b imm) := ⟨rfl, by decide, BitVec.isLt _⟩
theorem andRri32 (a : BitVec 6) (b : BitVec 6) (imm : BitVec 32) : Statement (.andRri32 a b imm) := ⟨rfl, by decide, BitVec.isLt _⟩
theorem orRri32 (a : BitVec 6) (b : BitVec 6) (imm : BitVec 32) : Statement (.orRri32 a b imm) := ⟨rfl, by decide, BitVec.isLt _⟩
theorem xorRri32 (a : BitVec 6) (b : BitVec 6) (imm : BitVec 32) : Statement (.xorRri32 a b imm) := ⟨rfl, by decide, BitVec.isLt _⟩
theorem cmpRr (a : BitVec 6) (b : BitVec 6) (c : BitVec 6) (cc : BitVec 4) : Statement (.cmpRr a b c cc) := ⟨rfl, by decide, BitVec.isLt _⟩
theorem cmpRi16 (a : BitVec 6) (b : BitVec 6) (cc : BitVec 4) (imm : BitVec 16) : Statement (.cmpRi16 a b cc imm) := ⟨rfl, by decide, BitVec.isLt _⟩
theorem bfx (a : BitVec 6) (b : BitVec 6) (s : Bool) (p : BitVec 6) (w1 : BitVec 6) : Statement (.bfx a b s p w1) := ⟨rfl, by decide, BitVec.isLt _⟩
theorem bfi (a : BitVec 6) (b : BitVec 6) (p : BitVec 6) (w1 : BitVec 6) : Statement (.bfi a b p w1) := ⟨rfl, by decide, BitVec.isLt _⟩
theorem clz (a : BitVec 6) (b : BitVec 6) : Statement (.clz a b) := ⟨rfl, by decide, BitVec.isLt _⟩
theorem popc (a : BitVec 6) (b : BitVec 6) : Statement (.popc a b) := ⟨rfl, by decide, BitVec.isLt _⟩
theorem mul (a : BitVec 6) (b : BitVec 6) (c : BitVec 6) : Statement (.mul a b c) := ⟨rfl, by decide, BitVec.isLt _⟩
theorem mulh (a : BitVec 6) (b : BitVec 6) (c : BitVec 6) : Statement (.mulh a b c) := ⟨rfl, by decide, BitVec.isLt _⟩
theorem mulhu (a : BitVec 6) (b : BitVec 6) (c : BitVec 6) : Statement (.mulhu a b c) := ⟨rfl, by decide, BitVec.isLt _⟩
theorem div (a : BitVec 6) (b : BitVec 6) (c : BitVec 6) : Statement (.div a b c) := ⟨rfl, by decide, BitVec.isLt _⟩
theorem divu (a : BitVec 6) (b : BitVec 6) (c : BitVec 6) : Statement (.divu a b c) := ⟨rfl, by decide, BitVec.isLt _⟩
theorem rem (a : BitVec 6) (b : BitVec 6) (c : BitVec 6) : Statement (.rem a b c) := ⟨rfl, by decide, BitVec.isLt _⟩
theorem remu (a : BitVec 6) (b : BitVec 6) (c : BitVec 6) : Statement (.remu a b c) := ⟨rfl, by decide, BitVec.isLt _⟩
theorem ldRi16 (a : BitVec 6) (b : BitVec 6) (sz : BitVec 2) (s : Bool) (nt : Bool) (imm : BitVec 16) : Statement (.ldRi16 a b sz s nt imm) := ⟨rfl, by decide, BitVec.isLt _⟩
theorem ldRri32 (a : BitVec 6) (b : BitVec 6) (c : BitVec 6) (sz : BitVec 2) (s : Bool) (nt : Bool) (sh : BitVec 2) (imm : BitVec 32) : Statement (.ldRri32 a b c sz s nt sh imm) := ⟨rfl, by decide, BitVec.isLt _⟩
theorem stRi16 (a : BitVec 6) (b : BitVec 6) (sz : BitVec 2) (nt : Bool) (imm : BitVec 16) : Statement (.stRi16 a b sz nt imm) := ⟨rfl, by decide, BitVec.isLt _⟩
theorem stRri32 (a : BitVec 6) (b : BitVec 6) (c : BitVec 6) (sz : BitVec 2) (nt : Bool) (sh : BitVec 2) (imm : BitVec 32) : Statement (.stRri32 a b c sz nt sh imm) := ⟨rfl, by decide, BitVec.isLt _⟩
theorem lda (a : BitVec 6) (b : BitVec 6) (sz : BitVec 2) (s : Bool) (sc : BitVec 3) (imm : BitVec 16) : Statement (.lda a b sz s sc imm) := ⟨rfl, by decide, BitVec.isLt _⟩
theorem stl (a : BitVec 6) (b : BitVec 6) (sz : BitVec 2) (sc : BitVec 3) (imm : BitVec 16) : Statement (.stl a b sz sc imm) := ⟨rfl, by decide, BitVec.isLt _⟩
theorem aadd (a : BitVec 6) (b : BitVec 6) (c : BitVec 6) (dw : Bool) (sc : BitVec 3) : Statement (.aadd a b c dw sc) := ⟨rfl, by decide, BitVec.isLt _⟩
theorem amin (a : BitVec 6) (b : BitVec 6) (c : BitVec 6) (dw : Bool) (u : Bool) (sc : BitVec 3) : Statement (.amin a b c dw u sc) := ⟨rfl, by decide, BitVec.isLt _⟩
theorem amax (a : BitVec 6) (b : BitVec 6) (c : BitVec 6) (dw : Bool) (u : Bool) (sc : BitVec 3) : Statement (.amax a b c dw u sc) := ⟨rfl, by decide, BitVec.isLt _⟩
theorem aand (a : BitVec 6) (b : BitVec 6) (c : BitVec 6) (dw : Bool) (sc : BitVec 3) : Statement (.aand a b c dw sc) := ⟨rfl, by decide, BitVec.isLt _⟩
theorem aor (a : BitVec 6) (b : BitVec 6) (c : BitVec 6) (dw : Bool) (sc : BitVec 3) : Statement (.aor a b c dw sc) := ⟨rfl, by decide, BitVec.isLt _⟩
theorem axor (a : BitVec 6) (b : BitVec 6) (c : BitVec 6) (dw : Bool) (sc : BitVec 3) : Statement (.axor a b c dw sc) := ⟨rfl, by decide, BitVec.isLt _⟩
theorem aswap (a : BitVec 6) (b : BitVec 6) (c : BitVec 6) (dw : Bool) (sc : BitVec 3) : Statement (.aswap a b c dw sc) := ⟨rfl, by decide, BitVec.isLt _⟩
theorem acas (a : BitVec 6) (b : BitVec 6) (c : BitVec 6) (d : BitVec 6) (dw : Bool) (sc : BitVec 3) : Statement (.acas a b c d dw sc) := ⟨rfl, by decide, BitVec.isLt _⟩
theorem bRi16 (a : BitVec 6) (b : BitVec 6) (cc : BitVec 4) (imm : BitVec 16) : Statement (.bRi16 a b cc imm) := ⟨rfl, by decide, BitVec.isLt _⟩
theorem bRri32 (a : BitVec 6) (b : BitVec 6) (cc : BitVec 4) (imm : BitVec 32) : Statement (.bRri32 a b cc imm) := ⟨rfl, by decide, BitVec.isLt _⟩
theorem jal (a : BitVec 6) (imm : BitVec 32) : Statement (.jal a imm) := ⟨rfl, by decide, BitVec.isLt _⟩
theorem jalr (a : BitVec 6) (b : BitVec 6) (imm : BitVec 16) : Statement (.jalr a b imm) := ⟨rfl, by decide, BitVec.isLt _⟩
theorem hstart (a : BitVec 6) (b : BitVec 6) (c : BitVec 6) (nw : Bool) (det : Bool) (imm : BitVec 32) : Statement (.hstart a b c nw det imm) := ⟨rfl, by decide, BitVec.isLt _⟩
theorem hjoin (a : BitVec 6) (b : BitVec 6) : Statement (.hjoin a b) := ⟨rfl, by decide, BitVec.isLt _⟩
theorem hend : Statement (.hend) := ⟨rfl, by decide, by decide⟩
theorem hyield : Statement (.hyield) := ⟨rfl, by decide, by decide⟩
theorem gang (a : BitVec 6) (size : BitVec 3) : Statement (.gang a size) := ⟨rfl, by decide, BitVec.isLt _⟩
theorem split : Statement (.split) := ⟨rfl, by decide, by decide⟩
theorem phaseT : Statement (.phaseT) := ⟨rfl, by decide, by decide⟩
theorem phaseE : Statement (.phaseE) := ⟨rfl, by decide, by decide⟩
theorem tideRd (a : BitVec 6) : Statement (.tideRd a) := ⟨rfl, by decide, BitVec.isLt _⟩
theorem tideWait (a : BitVec 6) (b : BitVec 6) (strict : Bool) (imm : BitVec 16) : Statement (.tideWait a b strict imm) := ⟨rfl, by decide, BitVec.isLt _⟩
theorem waitmem (a : BitVec 6) (b : BitVec 6) (sz : BitVec 2) (imm : BitVec 16) : Statement (.waitmem a b sz imm) := ⟨rfl, by decide, BitVec.isLt _⟩
theorem sendmsg (a : BitVec 6) (b : BitVec 6) (c : BitVec 6) (tag : BitVec 16) : Statement (.sendmsg a b c tag) := ⟨rfl, by decide, BitVec.isLt _⟩
theorem waitmsg : Statement (.waitmsg) := ⟨rfl, by decide, by decide⟩
theorem vadd (a : BitVec 6) (b : BitVec 6) (c : BitVec 6) (kp : BitVec 3) (z : Bool) (rm : BitVec 3) (t : BitVec 4) : Statement (.vadd a b c kp z rm t) := ⟨rfl, by decide, BitVec.isLt _⟩
theorem vsub (a : BitVec 6) (b : BitVec 6) (c : BitVec 6) (kp : BitVec 3) (z : Bool) (rm : BitVec 3) (t : BitVec 4) : Statement (.vsub a b c kp z rm t) := ⟨rfl, by decide, BitVec.isLt _⟩
theorem vmul (a : BitVec 6) (b : BitVec 6) (c : BitVec 6) (kp : BitVec 3) (z : Bool) (rm : BitVec 3) (t : BitVec 4) : Statement (.vmul a b c kp z rm t) := ⟨rfl, by decide, BitVec.isLt _⟩
theorem vmin (a : BitVec 6) (b : BitVec 6) (c : BitVec 6) (kp : BitVec 3) (z : Bool) (rm : BitVec 3) (t : BitVec 4) : Statement (.vmin a b c kp z rm t) := ⟨rfl, by decide, BitVec.isLt _⟩
theorem vmax (a : BitVec 6) (b : BitVec 6) (c : BitVec 6) (kp : BitVec 3) (z : Bool) (rm : BitVec 3) (t : BitVec 4) : Statement (.vmax a b c kp z rm t) := ⟨rfl, by decide, BitVec.isLt _⟩
theorem vrcpe (a : BitVec 6) (b : BitVec 6) (kp : BitVec 3) (z : Bool) (rm : BitVec 3) (t : BitVec 4) : Statement (.vrcpe a b kp z rm t) := ⟨rfl, by decide, BitVec.isLt _⟩
theorem vrsqe (a : BitVec 6) (b : BitVec 6) (kp : BitVec 3) (z : Bool) (rm : BitVec 3) (t : BitVec 4) : Statement (.vrsqe a b kp z rm t) := ⟨rfl, by decide, BitVec.isLt _⟩
theorem vexp2 (a : BitVec 6) (b : BitVec 6) (kp : BitVec 3) (z : Bool) (rm : BitVec 3) (t : BitVec 4) : Statement (.vexp2 a b kp z rm t) := ⟨rfl, by decide, BitVec.isLt _⟩
theorem vlog2 (a : BitVec 6) (b : BitVec 6) (kp : BitVec 3) (z : Bool) (rm : BitVec 3) (t : BitVec 4) : Statement (.vlog2 a b kp z rm t) := ⟨rfl, by decide, BitVec.isLt _⟩
theorem vfma (a : BitVec 6) (b : BitVec 6) (c : BitVec 6) (d : BitVec 6) (kp : BitVec 3) (z : Bool) (rm : BitVec 3) (t : BitVec 4) (var : BitVec 2) (wide : Bool) (h : Bool) : Statement (.vfma a b c d kp z rm t var wide h) := ⟨rfl, by decide, BitVec.isLt _⟩
theorem vrefn (a : BitVec 6) (b : BitVec 6) (c : BitVec 6) (kp : BitVec 3) (z : Bool) (rm : BitVec 3) (t : BitVec 4) (var : BitVec 2) : Statement (.vrefn a b c kp z rm t var) := ⟨rfl, by decide, BitVec.isLt _⟩
theorem viadd (a : BitVec 6) (b : BitVec 6) (c : BitVec 6) (kp : BitVec 3) (z : Bool) (t : BitVec 4) : Statement (.viadd a b c kp z t) := ⟨rfl, by decide, BitVec.isLt _⟩
theorem visub (a : BitVec 6) (b : BitVec 6) (c : BitVec 6) (kp : BitVec 3) (z : Bool) (t : BitVec 4) : Statement (.visub a b c kp z t) := ⟨rfl, by decide, BitVec.isLt _⟩
theorem vimul (a : BitVec 6) (b : BitVec 6) (c : BitVec 6) (kp : BitVec 3) (z : Bool) (t : BitVec 4) (part : BitVec 2) : Statement (.vimul a b c kp z t part) := ⟨rfl, by decide, BitVec.isLt _⟩
theorem vimin (a : BitVec 6) (b : BitVec 6) (c : BitVec 6) (kp : BitVec 3) (z : Bool) (t : BitVec 4) (u : Bool) : Statement (.vimin a b c kp z t u) := ⟨rfl, by decide, BitVec.isLt _⟩
theorem vimax (a : BitVec 6) (b : BitVec 6) (c : BitVec 6) (kp : BitVec 3) (z : Bool) (t : BitVec 4) (u : Bool) : Statement (.vimax a b c kp z t u) := ⟨rfl, by decide, BitVec.isLt _⟩
theorem vishl (a : BitVec 6) (b : BitVec 6) (c : BitVec 6) (kp : BitVec 3) (z : Bool) (t : BitVec 4) : Statement (.vishl a b c kp z t) := ⟨rfl, by decide, BitVec.isLt _⟩
theorem vishr (a : BitVec 6) (b : BitVec 6) (c : BitVec 6) (kp : BitVec 3) (z : Bool) (t : BitVec 4) (u : Bool) : Statement (.vishr a b c kp z t u) := ⟨rfl, by decide, BitVec.isLt _⟩
theorem vand (a : BitVec 6) (b : BitVec 6) (c : BitVec 6) (kp : BitVec 3) (z : Bool) (t : BitVec 4) : Statement (.vand a b c kp z t) := ⟨rfl, by decide, BitVec.isLt _⟩
theorem vor (a : BitVec 6) (b : BitVec 6) (c : BitVec 6) (kp : BitVec 3) (z : Bool) (t : BitVec 4) : Statement (.vor a b c kp z t) := ⟨rfl, by decide, BitVec.isLt _⟩
theorem vxor (a : BitVec 6) (b : BitVec 6) (c : BitVec 6) (kp : BitVec 3) (z : Bool) (t : BitVec 4) : Statement (.vxor a b c kp z t) := ⟨rfl, by decide, BitVec.isLt _⟩
theorem vcmp (a : BitVec 6) (b : BitVec 6) (c : BitVec 6) (kp : BitVec 3) (z : Bool) (rm : BitVec 3) (cc : BitVec 4) (ft : BitVec 2) : Statement (.vcmp a b c kp z rm cc ft) := ⟨rfl, by decide, BitVec.isLt _⟩
theorem vicmp (a : BitVec 6) (b : BitVec 6) (c : BitVec 6) (kp : BitVec 3) (z : Bool) (cc : BitVec 4) (w : BitVec 3) : Statement (.vicmp a b c kp z cc w) := ⟨rfl, by decide, BitVec.isLt _⟩
theorem kwhile (a : BitVec 6) (b : BitVec 6) (c : BitVec 6) (w : BitVec 2) (u : Bool) : Statement (.kwhile a b c w u) := ⟨rfl, by decide, BitVec.isLt _⟩
theorem kand (a : BitVec 6) (b : BitVec 6) (c : BitVec 6) : Statement (.kand a b c) := ⟨rfl, by decide, BitVec.isLt _⟩
theorem kor (a : BitVec 6) (b : BitVec 6) (c : BitVec 6) : Statement (.kor a b c) := ⟨rfl, by decide, BitVec.isLt _⟩
theorem kxor (a : BitVec 6) (b : BitVec 6) (c : BitVec 6) : Statement (.kxor a b c) := ⟨rfl, by decide, BitVec.isLt _⟩
theorem kandn (a : BitVec 6) (b : BitVec 6) (c : BitVec 6) : Statement (.kandn a b c) := ⟨rfl, by decide, BitVec.isLt _⟩
theorem kmov (a : BitVec 6) (b : BitVec 6) : Statement (.kmov a b) := ⟨rfl, by decide, BitVec.isLt _⟩
theorem knot (a : BitVec 6) (b : BitVec 6) : Statement (.knot a b) := ⟨rfl, by decide, BitVec.isLt _⟩
theorem kcnt (a : BitVec 6) (b : BitVec 6) (w : BitVec 2) : Statement (.kcnt a b w) := ⟨rfl, by decide, BitVec.isLt _⟩
theorem vwidth (a : BitVec 6) : Statement (.vwidth a) := ⟨rfl, by decide, BitVec.isLt _⟩
theorem vld (a : BitVec 6) (b : BitVec 6) (kp : BitVec 3) (z : Bool) (t : BitVec 4) (nt : Bool) (imm : BitVec 32) : Statement (.vld a b kp z t nt imm) := ⟨rfl, by decide, BitVec.isLt _⟩
theorem vst (a : BitVec 6) (b : BitVec 6) (kp : BitVec 3) (t : BitVec 4) (nt : Bool) (imm : BitVec 32) : Statement (.vst a b kp t nt imm) := ⟨rfl, by decide, BitVec.isLt _⟩
theorem vlds (a : BitVec 6) (b : BitVec 6) (c : BitVec 6) (kp : BitVec 3) (z : Bool) (t : BitVec 4) (nt : Bool) (imm : BitVec 32) : Statement (.vlds a b c kp z t nt imm) := ⟨rfl, by decide, BitVec.isLt _⟩
theorem vsts (a : BitVec 6) (b : BitVec 6) (c : BitVec 6) (kp : BitVec 3) (t : BitVec 4) (nt : Bool) (imm : BitVec 32) : Statement (.vsts a b c kp t nt imm) := ⟨rfl, by decide, BitVec.isLt _⟩
theorem vgath (a : BitVec 6) (b : BitVec 6) (c : BitVec 6) (kp : BitVec 3) (z : Bool) (t : BitVec 4) (nt : Bool) (sh : BitVec 2) (imm : BitVec 32) : Statement (.vgath a b c kp z t nt sh imm) := ⟨rfl, by decide, BitVec.isLt _⟩
theorem vscat (a : BitVec 6) (b : BitVec 6) (c : BitVec 6) (kp : BitVec 3) (t : BitVec 4) (nt : Bool) (sh : BitVec 2) (imm : BitVec 32) : Statement (.vscat a b c kp t nt sh imm) := ⟨rfl, by decide, BitVec.isLt _⟩
theorem vcvt (a : BitVec 6) (b : BitVec 6) (kp : BitVec 3) (z : Bool) (rm : BitVec 3) (ts : BitVec 4) (td : BitVec 4) (p : BitVec 3) (u : Bool) : Statement (.vcvt a b kp z rm ts td p u) := ⟨rfl, by decide, BitVec.isLt _⟩
theorem vpack (a : BitVec 6) (b : BitVec 6) (d : BitVec 6) (kp : BitVec 3) (z : Bool) (rm : BitVec 3) (ts : BitVec 4) (td : BitVec 4) (p : BitVec 3) (u : Bool) : Statement (.vpack a b d kp z rm ts td p u) := ⟨rfl, by decide, BitVec.isLt _⟩
theorem vunpk (a : BitVec 6) (b : BitVec 6) (d : BitVec 6) (kp : BitVec 3) (z : Bool) (rm : BitVec 3) (ts : BitVec 4) (td : BitVec 4) (p : BitVec 3) (u : Bool) : Statement (.vunpk a b d kp z rm ts td p u) := ⟨rfl, by decide, BitVec.isLt _⟩
theorem vdotf8 (a : BitVec 6) (b : BitVec 6) (c : BitVec 6) (kp : BitVec 3) (rm : BitVec 3) (ta : BitVec 4) (tb : BitVec 4) (j : BitVec 9) : Statement (.vdotf8 a b c kp rm ta tb j) := ⟨rfl, by decide, BitVec.isLt _⟩
theorem vdoti8 (a : BitVec 6) (b : BitVec 6) (c : BitVec 6) (kp : BitVec 3) (ta : BitVec 4) (tb : BitVec 4) (j : BitVec 9) : Statement (.vdoti8 a b c kp ta tb j) := ⟨rfl, by decide, BitVec.isLt _⟩
theorem vred (a : BitVec 6) (b : BitVec 6) (kp : BitVec 3) (rm : BitVec 3) (t : BitVec 4) (o : BitVec 2) (j : BitVec 10) : Statement (.vred a b kp rm t o j) := ⟨rfl, by decide, BitVec.isLt _⟩
theorem vscan (a : BitVec 6) (b : BitVec 6) (kp : BitVec 3) (z : Bool) (rm : BitVec 3) (t : BitVec 4) (o : BitVec 2) : Statement (.vscan a b kp z rm t o) := ⟨rfl, by decide, BitVec.isLt _⟩
theorem vperm (a : BitVec 6) (b : BitVec 6) (c : BitVec 6) (d : BitVec 6) (kp : BitVec 3) (z : Bool) (t : BitVec 4) (two : Bool) : Statement (.vperm a b c d kp z t two) := ⟨rfl, by decide, BitVec.isLt _⟩
theorem vbcast (a : BitVec 6) (b : BitVec 6) (c : BitVec 6) (kp : BitVec 3) (z : Bool) (t : BitVec 4) (el : Bool) : Statement (.vbcast a b c kp z t el) := ⟨rfl, by decide, BitVec.isLt _⟩
theorem vsel (a : BitVec 6) (b : BitVec 6) (c : BitVec 6) (kp : BitVec 3) (t : BitVec 4) : Statement (.vsel a b c kp t) := ⟨rfl, by decide, BitVec.isLt _⟩
theorem vpeer (a : BitVec 6) (b : BitVec 6) (mode : BitVec 2) (imm : BitVec 16) : Statement (.vpeer a b mode imm) := ⟨rfl, by decide, BitVec.isLt _⟩
theorem vhist (b : BitVec 6) (kp : BitVec 3) (t : BitVec 4) : Statement (.vhist b kp t) := ⟨rfl, by decide, by decide⟩
theorem vseedRd (a : BitVec 6) : Statement (.vseedRd a) := ⟨rfl, by decide, BitVec.isLt _⟩
theorem vseedWr (b : BitVec 6) : Statement (.vseedWr b) := ⟨rfl, by decide, by decide⟩
theorem vseedXchg (a : BitVec 6) (b : BitVec 6) : Statement (.vseedXchg a b) := ⟨rfl, by decide, BitVec.isLt _⟩
theorem vext (a : BitVec 6) (b : BitVec 6) (t : BitVec 4) (s : Bool) (idx : BitVec 16) : Statement (.vext a b t s idx) := ⟨rfl, by decide, BitVec.isLt _⟩
theorem vins (a : BitVec 6) (b : BitVec 6) (t : BitVec 4) (idx : BitVec 16) : Statement (.vins a b t idx) := ⟨rfl, by decide, BitVec.isLt _⟩
theorem bbGet (a : BitVec 6) (b : BitVec 6) (r : Bool) (s : Bool) (imm : BitVec 16) : Statement (.bbGet a b r s imm) := ⟨rfl, by decide, BitVec.isLt _⟩
theorem bbPeek (a : BitVec 6) (b : BitVec 6) (r : Bool) (s : Bool) (imm : BitVec 16) : Statement (.bbPeek a b r s imm) := ⟨rfl, by decide, BitVec.isLt _⟩
theorem bbSkip (b : BitVec 6) (r : Bool) (imm : BitVec 16) : Statement (.bbSkip b r imm) := ⟨rfl, by decide, by decide⟩
theorem bbFill (a : BitVec 6) : Statement (.bbFill a) := ⟨rfl, by decide, BitVec.isLt _⟩
theorem bbDec (a : BitVec 6) (imm : BitVec 16) : Statement (.bbDec a imm) := ⟨rfl, by decide, BitVec.isLt _⟩
theorem bbSave (b : BitVec 6) (imm : BitVec 16) : Statement (.bbSave b imm) := ⟨rfl, by decide, by decide⟩
theorem bbRest (b : BitVec 6) (imm : BitVec 16) : Statement (.bbRest b imm) := ⟨rfl, by decide, by decide⟩
theorem xreq (a : BitVec 6) (b : BitVec 6) : Statement (.xreq a b) := ⟨rfl, by decide, BitVec.isLt _⟩
theorem xstat (a : BitVec 6) : Statement (.xstat a) := ⟨rfl, by decide, BitVec.isLt _⟩
theorem launch (a : BitVec 6) (b : BitVec 6) (q : BitVec 16) : Statement (.launch a b q) := ⟨rfl, by decide, BitVec.isLt _⟩
theorem evwait (a : BitVec 6) (b : BitVec 6) (sc : BitVec 3) (imm : BitVec 16) : Statement (.evwait a b sc imm) := ⟨rfl, by decide, BitVec.isLt _⟩
theorem evsig (a : BitVec 6) (b : BitVec 6) (sc : BitVec 3) (imm : BitVec 16) : Statement (.evsig a b sc imm) := ⟨rfl, by decide, BitVec.isLt _⟩
theorem lqstat (a : BitVec 6) (q : BitVec 16) : Statement (.lqstat a q) := ⟨rfl, by decide, BitVec.isLt _⟩
theorem yieldOp : Statement (.yieldOp) := ⟨rfl, by decide, by decide⟩
theorem sync (a : BitVec 6) (lv : BitVec 3) : Statement (.sync a lv) := ⟨rfl, by decide, BitVec.isLt _⟩
theorem dtake (a : BitVec 6) (t : BitVec 16) : Statement (.dtake a t) := ⟨rfl, by decide, BitVec.isLt _⟩
theorem dplaceStart (a : BitVec 6) (b : BitVec 6) (c : BitVec 6) (l : BitVec 32) : Statement (.dplaceStart a b c l) := ⟨rfl, by decide, BitVec.isLt _⟩
theorem dplacePreq (a : BitVec 6) (b : BitVec 6) (c : BitVec 6) (l : BitVec 32) : Statement (.dplacePreq a b c l) := ⟨rfl, by decide, BitVec.isLt _⟩
theorem dplaceSave (a : BitVec 6) (b : BitVec 6) (c : BitVec 6) (l : BitVec 32) : Statement (.dplaceSave a b c l) := ⟨rfl, by decide, BitVec.isLt _⟩
theorem dplaceRest (a : BitVec 6) (b : BitVec 6) (c : BitVec 6) (l : BitVec 32) : Statement (.dplaceRest a b c l) := ⟨rfl, by decide, BitVec.isLt _⟩
theorem dplaceKill (a : BitVec 6) (b : BitVec 6) (c : BitVec 6) (l : BitVec 32) : Statement (.dplaceKill a b c l) := ⟨rfl, by decide, BitVec.isLt _⟩
theorem cpyPk (a : BitVec 6) (b : BitVec 6) (c : BitVec 6) (nt : Bool) (tag : BitVec 32) : Statement (.cpyPk a b c nt tag) := ⟨rfl, by decide, BitVec.isLt _⟩
theorem cpyLand (a : BitVec 6) (b : BitVec 6) (c : BitVec 6) (nt : Bool) (tag : BitVec 32) : Statement (.cpyLand a b c nt tag) := ⟨rfl, by decide, BitVec.isLt _⟩
theorem cpyRec (a : BitVec 6) (b : BitVec 6) (c : BitVec 6) (nt : Bool) (tag : BitVec 32) : Statement (.cpyRec a b c nt tag) := ⟨rfl, by decide, BitVec.isLt _⟩
theorem cpyLoop (a : BitVec 6) (b : BitVec 6) (c : BitVec 6) (nt : Bool) (tag : BitVec 32) : Statement (.cpyLoop a b c nt tag) := ⟨rfl, by decide, BitVec.isLt _⟩
theorem cpycan (a : BitVec 6) (b : BitVec 6) : Statement (.cpycan a b) := ⟨rfl, by decide, BitVec.isLt _⟩
theorem landAcq (a : BitVec 6) (b : BitVec 6) (r : BitVec 4) (chk : Bool) (nw : Bool) : Statement (.landAcq a b r chk nw) := ⟨rfl, by decide, BitVec.isLt _⟩
theorem landRel (b : BitVec 6) (r : BitVec 4) : Statement (.landRel b r) := ⟨rfl, by decide, by decide⟩
theorem landInit (a : BitVec 6) (b : BitVec 6) (c : BitVec 6) (r : BitVec 4) : Statement (.landInit a b c r) := ⟨rfl, by decide, BitVec.isLt _⟩
theorem halloc (a : BitVec 6) (b : BitVec 6) (c : BitVec 6) (nt : Bool) : Statement (.halloc a b c nt) := ⟨rfl, by decide, BitVec.isLt _⟩
theorem hfree (a : BitVec 6) (b : BitVec 6) : Statement (.hfree a b) := ⟨rfl, by decide, BitVec.isLt _⟩
theorem hbump (a : BitVec 6) (b : BitVec 6) (c : BitVec 6) : Statement (.hbump a b c) := ⟨rfl, by decide, BitVec.isLt _⟩
theorem jpeek (a : BitVec 6) (b : BitVec 6) : Statement (.jpeek a b) := ⟨rfl, by decide, BitVec.isLt _⟩
theorem jdrop : Statement (.jdrop) := ⟨rfl, by decide, by decide⟩
theorem bget (a : BitVec 6) (nw : Bool) : Statement (.bget a nw) := ⟨rfl, by decide, BitVec.isLt _⟩
theorem bstreamMove (a : BitVec 6) (b : BitVec 6) (c : BitVec 6) (d : BitVec 6) : Statement (.bstreamMove a b c d) := ⟨rfl, by decide, BitVec.isLt _⟩
theorem bstreamOwner (a : BitVec 6) : Statement (.bstreamOwner a) := ⟨rfl, by decide, BitVec.isLt _⟩
theorem bstreamFwd (b : BitVec 6) : Statement (.bstreamFwd b) := ⟨rfl, by decide, by decide⟩
theorem blandWait (a : BitVec 6) (b : BitVec 6) : Statement (.blandWait a b) := ⟨rfl, by decide, BitVec.isLt _⟩
theorem blandFill (b : BitVec 6) : Statement (.blandFill b) := ⟨rfl, by decide, by decide⟩
theorem blandDone (b : BitVec 6) (c : BitVec 6) : Statement (.blandDone b c) := ⟨rfl, by decide, by decide⟩
theorem pjob (a : BitVec 6) (b : BitVec 6) : Statement (.pjob a b) := ⟨rfl, by decide, BitVec.isLt _⟩
theorem ppoll (a : BitVec 6) (b : BitVec 6) : Statement (.ppoll a b) := ⟨rfl, by decide, BitVec.isLt _⟩
theorem pwait (a : BitVec 6) (b : BitVec 6) : Statement (.pwait a b) := ⟨rfl, by decide, BitVec.isLt _⟩
theorem pcan (a : BitVec 6) (b : BitVec 6) : Statement (.pcan a b) := ⟨rfl, by decide, BitVec.isLt _⟩
theorem pheatSet (a : BitVec 6) (b : BitVec 6) : Statement (.pheatSet a b) := ⟨rfl, by decide, BitVec.isLt _⟩
theorem pheatAdd (a : BitVec 6) (b : BitVec 6) : Statement (.pheatAdd a b) := ⟨rfl, by decide, BitVec.isLt _⟩
theorem pmonRing (a : BitVec 6) (b : BitVec 6) : Statement (.pmonRing a b) := ⟨rfl, by decide, BitVec.isLt _⟩
theorem pmonBank (a : BitVec 6) (b : BitVec 6) : Statement (.pmonBank a b) := ⟨rfl, by decide, BitVec.isLt _⟩
theorem pmonTemp (a : BitVec 6) (b : BitVec 6) : Statement (.pmonTemp a b) := ⟨rfl, by decide, BitVec.isLt _⟩
theorem psettle (a : BitVec 6) (b : BitVec 6) (go : Bool) (t : BitVec 16) : Statement (.psettle a b go t) := ⟨rfl, by decide, BitVec.isLt _⟩
theorem pcalFull (a : BitVec 6) : Statement (.pcalFull a) := ⟨rfl, by decide, BitVec.isLt _⟩
theorem pcalOfs (a : BitVec 6) : Statement (.pcalOfs a) := ⟨rfl, by decide, BitVec.isLt _⟩
theorem pmapRd (a : BitVec 6) (b : BitVec 6) : Statement (.pmapRd a b) := ⟨rfl, by decide, BitVec.isLt _⟩
theorem pmapSwap (a : BitVec 6) (b : BitVec 6) : Statement (.pmapSwap a b) := ⟨rfl, by decide, BitVec.isLt _⟩
theorem pmapIdent (a : BitVec 6) (b : BitVec 6) : Statement (.pmapIdent a b) := ⟨rfl, by decide, BitVec.isLt _⟩
theorem pstat (a : BitVec 6) (sel : BitVec 16) : Statement (.pstat a sel) := ⟨rfl, by decide, BitVec.isLt _⟩
theorem prowgoDrop : Statement (.prowgoDrop) := ⟨rfl, by decide, by decide⟩
theorem prowgoMem : Statement (.prowgoMem) := ⟨rfl, by decide, by decide⟩
theorem prowgoLand (b : BitVec 6) : Statement (.prowgoLand b) := ⟨rfl, by decide, by decide⟩
theorem paccRdN (a : BitVec 6) (b : BitVec 6) : Statement (.paccRdN a b) := ⟨rfl, by decide, BitVec.isLt _⟩
theorem paccRdP (a : BitVec 6) (b : BitVec 6) : Statement (.paccRdP a b) := ⟨rfl, by decide, BitVec.isLt _⟩
theorem towEnter (a : BitVec 6) (b : BitVec 6) (c : BitVec 6) : Statement (.towEnter a b c) := ⟨rfl, by decide, BitVec.isLt _⟩
theorem towExit (a : BitVec 6) (b : BitVec 6) : Statement (.towExit a b) := ⟨rfl, by decide, BitVec.isLt _⟩
theorem towStat (a : BitVec 6) (b : BitVec 6) : Statement (.towStat a b) := ⟨rfl, by decide, BitVec.isLt _⟩
theorem towWait (a : BitVec 6) (b : BitVec 6) : Statement (.towWait a b) := ⟨rfl, by decide, BitVec.isLt _⟩
theorem fenrol (a : BitVec 6) (b : BitVec 6) (att : BitVec 4) (nent : BitVec 16) : Statement (.fenrol a b att nent) := ⟨rfl, by decide, BitVec.isLt _⟩
theorem fleave (a : BitVec 6) (att : BitVec 4) : Statement (.fleave a att) := ⟨rfl, by decide, BitVec.isLt _⟩
theorem frb (a : BitVec 6) (b : BitVec 6) (c : BitVec 6) (rm : BitVec 3) (ent : BitVec 10) (att : BitVec 4) : Statement (.frb a b c rm ent att) := ⟨rfl, by decide, BitVec.isLt _⟩
theorem fmax (a : BitVec 6) (b : BitVec 6) (c : BitVec 6) (ent : BitVec 10) (att : BitVec 4) : Statement (.fmax a b c ent att) := ⟨rfl, by decide, BitVec.isLt _⟩
theorem fmin (a : BitVec 6) (b : BitVec 6) (c : BitVec 6) (ent : BitVec 10) (att : BitVec 4) : Statement (.fmin a b c ent att) := ⟨rfl, by decide, BitVec.isLt _⟩
theorem fpop (a : BitVec 6) (att : BitVec 4) : Statement (.fpop a att) := ⟨rfl, by decide, BitVec.isLt _⟩
theorem falign (a : BitVec 6) (att : BitVec 4) (t : BitVec 16) : Statement (.falign a att t) := ⟨rfl, by decide, BitVec.isLt _⟩
theorem fstat (a : BitVec 6) (att : BitVec 4) (sel : BitVec 16) : Statement (.fstat a att sel) := ⟨rfl, by decide, BitVec.isLt _⟩
theorem femitTake (a : BitVec 6) : Statement (.femitTake a) := ⟨rfl, by decide, BitVec.isLt _⟩
theorem femitLoad (a : BitVec 6) (b : BitVec 6) : Statement (.femitLoad a b) := ⟨rfl, by decide, BitVec.isLt _⟩
theorem femitFrame (a : BitVec 6) (b : BitVec 6) : Statement (.femitFrame a b) := ⟨rfl, by decide, BitVec.isLt _⟩
theorem femitDone (a : BitVec 6) (b : BitVec 6) : Statement (.femitDone a b) := ⟨rfl, by decide, BitVec.isLt _⟩
theorem fcountRd (a : BitVec 6) (b : BitVec 6) (c : BitVec 6) : Statement (.fcountRd a b c) := ⟨rfl, by decide, BitVec.isLt _⟩
theorem fcountEl (a : BitVec 6) (b : BitVec 6) : Statement (.fcountEl a b) := ⟨rfl, by decide, BitVec.isLt _⟩
theorem fcountEx (a : BitVec 6) (b : BitVec 6) : Statement (.fcountEx a b) := ⟨rfl, by decide, BitVec.isLt _⟩
theorem rtv (a : BitVec 6) : Statement (.rtv a) := ⟨rfl, by decide, BitVec.isLt _⟩
theorem lnkst (a : BitVec 6) (b : BitVec 6) (p : BitVec 6) (sel : BitVec 16) : Statement (.lnkst a b p sel) := ⟨rfl, by decide, BitVec.isLt _⟩
theorem ttselSw (a : BitVec 6) (b : BitVec 6) (sw : BitVec 4) (v : BitVec 2) : Statement (.ttselSw a b sw v) := ⟨rfl, by decide, BitVec.isLt _⟩
theorem ttselSeg (a : BitVec 6) (att : BitVec 4) (ttv : BitVec 16) : Statement (.ttselSeg a att ttv) := ⟨rfl, by decide, BitVec.isLt _⟩
theorem pilotst (a : BitVec 6) (p : BitVec 6) : Statement (.pilotst a p) := ⟨rfl, by decide, BitVec.isLt _⟩
theorem trcRdEnt (a : BitVec 6) (i : BitVec 16) : Statement (.trcRdEnt a i) := ⟨rfl, by decide, BitVec.isLt _⟩
theorem trcRdCnt (a : BitVec 6) : Statement (.trcRdCnt a) := ⟨rfl, by decide, BitVec.isLt _⟩
theorem trcRdClr (a : BitVec 6) : Statement (.trcRdClr a) := ⟨rfl, by decide, BitVec.isLt _⟩
theorem imbRd (a : BitVec 6) (dw : BitVec 2) (st : Bool) (i : BitVec 16) : Statement (.imbRd a dw st i) := ⟨rfl, by decide, BitVec.isLt _⟩
theorem dbgsigHalt : Statement (.dbgsigHalt) := ⟨rfl, by decide, by decide⟩
theorem dbgsigTrig : Statement (.dbgsigTrig) := ⟨rfl, by decide, by decide⟩
theorem dbgsigMark (v : BitVec 16) : Statement (.dbgsigMark v) := ⟨rfl, by decide, by decide⟩
theorem dumpst (a : BitVec 6) (sel : BitVec 16) : Statement (.dumpst a sel) := ⟨rfl, by decide, BitVec.isLt _⟩
theorem reservedOpcode (op : BitVec 8) : Statement (.reservedOpcode op) := rfl
theorem lineFetch : Statement (.lineFetch) := rfl
theorem asyncTrapDelivery : Statement (.asyncTrapDelivery) := rfl
theorem tpinWrite : Statement (.tpinWrite) := rfl
theorem hbindWrite : Statement (.hbindWrite) := rfl
theorem timedPhaseEntry : Statement (.timedPhaseEntry) := rfl
theorem waitmemWake : Statement (.waitmemWake) := rfl
theorem waitmemTimeout : Statement (.waitmemTimeout) := rfl
theorem barrierRelease : Statement (.barrierRelease) := rfl
theorem meshPush : Statement (.meshPush) := rfl
theorem meshPop : Statement (.meshPop) := rfl
theorem qcPush : Statement (.qcPush) := rfl
theorem qcPop : Statement (.qcPop) := rfl
theorem jetRead : Statement (.jetRead) := rfl
theorem prowRead : Statement (.prowRead) := rfl
theorem xqPush : Statement (.xqPush) := rfl
theorem xqPop : Statement (.xqPop) := rfl
theorem qxPush : Statement (.qxPush) := rfl
theorem qxPop : Statement (.qxPop) := rfl
theorem localArrival : Statement (.localArrival) := rfl
theorem chunkCommit : Statement (.chunkCommit) := rfl
theorem vectorStorePart : Statement (.vectorStorePart) := rfl
theorem transformClaimLapse : Statement (.transformClaimLapse) := rfl
theorem transformDecodeChunk : Statement (.transformDecodeChunk) := rfl
theorem decoderWatchdogCutoff : Statement (.decoderWatchdogCutoff) := rfl
theorem transformTranspose : Statement (.transformTranspose) := rfl
theorem transformConvert : Statement (.transformConvert) := rfl
theorem transformResponse : Statement (.transformResponse) := rfl
theorem evwaitWake : Statement (.evwaitWake) := rfl
theorem engineKickAccept : Statement (.engineKickAccept) := rfl
theorem engineHartFaultStop : Statement (.engineHartFaultStop) := rfl
theorem engineHartWake : Statement (.engineHartWake) := rfl
theorem doorbell : Statement (.doorbell) := rfl
theorem klnidKill : Statement (.klnidKill) := rfl
theorem launchRecordTake : Statement (.launchRecordTake) := rfl
theorem launchPlacement : Statement (.launchPlacement) := rfl
theorem launchRetirement : Statement (.launchRetirement) := rfl
theorem timeSliceExpiry : Statement (.timeSliceExpiry) := rfl
theorem preemptionMark : Statement (.preemptionMark) := rfl
theorem preemptionGraceExpiry : Statement (.preemptionGraceExpiry) := rfl
theorem launchRestore : Statement (.launchRestore) := rfl
theorem launchKill : Statement (.launchKill) := rfl
theorem killComplete : Statement (.killComplete) := rfl
theorem bargeForward : Statement (.bargeForward) := rfl
theorem bargeCopy : Statement (.bargeCopy) := rfl
theorem loopIteration : Statement (.loopIteration) := rfl
theorem jobStart : Statement (.jobStart) := rfl
theorem tileLoad : Statement (.tileLoad) := rfl
theorem tileStream : Statement (.tileStream) := rfl
theorem rowDispatch : Statement (.rowDispatch) := rfl
theorem jobComplete : Statement (.jobComplete) := rfl
theorem jobFailure : Statement (.jobFailure) := rfl
theorem jobPark : Statement (.jobPark) := rfl
theorem driftEstimate : Statement (.driftEstimate) := rfl
theorem bankSettled : Statement (.bankSettled) := rfl
theorem pthrsWrite : Statement (.pthrsWrite) := rfl
theorem sequencerRetune : Statement (.sequencerRetune) := rfl
theorem towSessionStart : Statement (.towSessionStart) := rfl
theorem towWtile : Statement (.towWtile) := rfl
theorem towRun : Statement (.towRun) := rfl
theorem towPromote : Statement (.towPromote) := rfl
theorem towDrain : Statement (.towDrain) := rfl
theorem towRoute : Statement (.towRoute) := rfl
theorem towSync : Statement (.towSync) := rfl
theorem towBranch : Statement (.towBranch) := rfl
theorem towCall : Statement (.towCall) := rfl
theorem towRet : Statement (.towRet) := rfl
theorem towExitBlock : Statement (.towExitBlock) := rfl
theorem towReservedBlock : Statement (.towReservedBlock) := rfl
theorem towStop : Statement (.towStop) := rfl
theorem towPark : Statement (.towPark) := rfl
theorem towCompletion : Statement (.towCompletion) := rfl
theorem fordRequestTake : Statement (.fordRequestTake) := rfl
theorem fordFrame : Statement (.fordFrame) := rfl
theorem fordComplete : Statement (.fordComplete) := rfl
theorem fordTowHandover : Statement (.fordTowHandover) := rfl
theorem fordCensus : Statement (.fordCensus) := rfl
theorem fordReformNotice : Statement (.fordReformNotice) := rfl
theorem fordReformApply : Statement (.fordReformApply) := rfl
theorem fordFallbackCollective : Statement (.fordFallbackCollective) := rfl
theorem fordFallbackTimeout : Statement (.fordFallbackTimeout) := rfl
theorem fsegctlWrite : Statement (.fsegctlWrite) := rfl
theorem packetForward : Statement (.packetForward) := rfl
theorem remoteAccessTimeout : Statement (.remoteAccessTimeout) := rfl
theorem remoteStoreAck : Statement (.remoteStoreAck) := rfl
theorem remoteStoreLost : Statement (.remoteStoreLost) := rfl
theorem routeCommit : Statement (.routeCommit) := rfl
theorem switchHoldDrain : Statement (.switchHoldDrain) := rfl
theorem switchDark : Statement (.switchDark) := rfl
theorem switchRelock : Statement (.switchRelock) := rfl
theorem switchCommit : Statement (.switchCommit) := rfl
theorem tideTick : Statement (.tideTick) := rfl
theorem tideSample : Statement (.tideSample) := rfl
theorem codewordReceive : Statement (.codewordReceive) := rfl
theorem portRetrain : Statement (.portRetrain) := rfl
theorem portRetrainTimeout : Statement (.portRetrainTimeout) := rfl
theorem lhstClear : Statement (.lhstClear) := rfl
theorem pkick : Statement (.pkick) := rfl
theorem pilotWatchdogReset : Statement (.pilotWatchdogReset) := rfl
theorem pilotRestart : Statement (.pilotRestart) := rfl
theorem pilotShadowUpdate : Statement (.pilotShadowUpdate) := rfl
theorem clusterHalt : Statement (.clusterHalt) := rfl
theorem crossTriggerReceive : Statement (.crossTriggerReceive) := rfl
theorem tdgo : Statement (.tdgo) := rfl
theorem debugWindowAccess : Statement (.debugWindowAccess) := rfl
theorem coreDumpWrite : Statement (.coreDumpWrite) := rfl
theorem hostBar2Access : Statement (.hostBar2Access) := rfl
theorem registerWrite : Statement (.registerWrite) := rfl
theorem fcenEnable : Statement (.fcenEnable) := rfl
theorem fcenDisable : Statement (.fcenDisable) := rfl
theorem translationInvalidate : Statement (.translationInvalidate) := rfl
theorem slicePartition : Statement (.slicePartition) := rfl
theorem alogcWrite : Statement (.alogcWrite) := rfl
theorem ectlGo : Statement (.ectlGo) := rfl
theorem ectlRst : Statement (.ectlRst) := rfl
theorem efpop : Statement (.efpop) := rfl
theorem deviceReset : Statement (.deviceReset) := rfl
theorem getVersion : Statement (.getVersion) := rfl
theorem getCapabilities : Statement (.getCapabilities) := rfl
theorem negotiateAlgorithms : Statement (.negotiateAlgorithms) := rfl
theorem getDigests : Statement (.getDigests) := rfl
theorem getCertificate : Statement (.getCertificate) := rfl
theorem challenge : Statement (.challenge) := rfl
theorem getMeasurements : Statement (.getMeasurements) := rfl
theorem gofull : Statement (.gofull) := rfl
theorem cfenceCluster : Statement (.cfenceCluster) := rfl
theorem cfencePontoon : Statement (.cfencePontoon) := rfl
theorem powerCapCheck : Statement (.powerCapCheck) := rfl
theorem thermalStateChange : Statement (.thermalStateChange) := rfl
theorem pcalComplete : Statement (.pcalComplete) := rfl
theorem falignTrained : Statement (.falignTrained) := rfl
theorem portUp : Statement (.portUp) := rfl
theorem settleTimeout : Statement (.settleTimeout) := rfl

end Sys2Proof.Laws.WfEncoding
end

