-- ==== Sys2Proof/Laws/Scalar.lean ====
section
/-!
SUPPORT. What the scalar functions compute, as arithmetic on numbers: one lemma for each.
-/

namespace Sys2Proof.Machine

theorem add_eq (x y : Word) : x + y = wNat (x.toNat + y.toNat) := by simp [wNat, BitVec.ofNat_add]
theorem mul_eq (x y : Word) : x * y = wNat (x.toNat * y.toNat) := by simp [wNat, BitVec.ofNat_mul]
theorem sub_eq (x y : Word) : x - y = w64 ((x.toNat : Int) - y.toNat) := by
  apply BitVec.eq_of_toNat_eq
  simp only [w64, BitVec.toNat_sub, BitVec.toNat_ofInt]
  have hx := x.isLt
  have hy := y.isLt
  omega
theorem and_eq (x y : Word) : x &&& y = wNat (x.toNat &&& y.toNat) := by
  apply BitVec.eq_of_toNat_eq
  simp only [wNat, BitVec.toNat_and, BitVec.toNat_ofNat]
  exact (Nat.mod_eq_of_lt (Nat.and_lt_two_pow _ y.isLt)).symm
theorem or_eq (x y : Word) : x ||| y = wNat (x.toNat ||| y.toNat) := by
  apply BitVec.eq_of_toNat_eq
  simp only [wNat, BitVec.toNat_or, BitVec.toNat_ofNat]
  exact (Nat.mod_eq_of_lt (Nat.or_lt_two_pow x.isLt y.isLt)).symm
theorem xor_eq (x y : Word) : x ^^^ y = wNat (x.toNat ^^^ y.toNat) := by
  apply BitVec.eq_of_toNat_eq
  simp only [wNat, BitVec.toNat_xor, BitVec.toNat_ofNat]
  exact (Nat.mod_eq_of_lt (Nat.xor_lt_two_pow x.isLt y.isLt)).symm

theorem shl_eq (x : Word) (n : Nat) : x <<< n = wNat (x.toNat * 2 ^ n) := by
  apply BitVec.eq_of_toNat_eq
  simp [wNat, Nat.shiftLeft_eq]
theorem shlW_eq (x y : Word) : shlW x y = wNat (x.toNat * 2 ^ (y.toNat % 64)) := shl_eq _ _
theorem shrW_eq (x y : Word) : shrW x y = wNat (x.toNat / 2 ^ (y.toNat % 64)) := by
  apply BitVec.eq_of_toNat_eq
  simp only [shrW, wNat, BitVec.toNat_ushiftRight, Nat.shiftRight_eq_div_pow, BitVec.toNat_ofNat]
  exact (Nat.mod_eq_of_lt (lt_of_le_of_lt (Nat.div_le_self _ _) x.isLt)).symm
theorem sraW_eq (x y : Word) : sraW x y = w64 (x.toInt / (2 ^ (y.toNat % 64) : Nat)) := by
  apply BitVec.eq_of_toInt_eq
  simp only [sraW, w64, BitVec.toInt_sshiftRight, BitVec.toInt_ofInt, Int.shiftRight_eq_div_pow]
  have h1 := BitVec.le_toInt x
  have h2 := BitVec.toInt_lt (x := x)
  have hp : (1 : Int) ≤ ((2 ^ (y.toNat % 64) : Nat) : Int) := by exact_mod_cast Nat.one_le_two_pow
  generalize ((2 ^ (y.toNat % 64) : Nat) : Int) = k at hp
  norm_num at h1 h2
  rw [Int.bmod_eq_of_le]
  · have : -(9223372036854775808 : Int) ≤ x.toInt / k := by
      rw [Int.le_ediv_iff_mul_le (by omega)]
      nlinarith
    simpa using this
  · have : x.toInt / k < 9223372036854775808 := by
      rw [Int.ediv_lt_iff_lt_mul (by omega)]
      nlinarith
    simpa using this

theorem minS_eq (x y : Word) : minS x y = w64 (min x.toInt y.toInt) := by
  unfold minS w64
  split
  · rw [min_eq_left ‹_›]; simp
  · rw [min_eq_right (by omega)]; simp
theorem maxS_eq (x y : Word) : maxS x y = w64 (max x.toInt y.toInt) := by
  unfold maxS w64
  split
  · rw [max_eq_right ‹_›]; simp
  · rw [max_eq_left (by omega)]; simp
theorem minU_eq (x y : Word) : minU x y = wNat (min x.toNat y.toNat) := by
  unfold minU wNat
  split
  · rw [min_eq_left ‹_›]; simp
  · rw [min_eq_right (by omega)]; simp
theorem maxU_eq (x y : Word) : maxU x y = wNat (max x.toNat y.toNat) := by
  unfold maxU wNat
  split
  · rw [max_eq_right ‹_›]; simp
  · rw [max_eq_left (by omega)]; simp

theorem word_eq_zero (y : Word) : y = 0 ↔ y.toNat = 0 := by
  constructor
  · intro h; simp [h]
  · intro h; apply BitVec.eq_of_toNat_eq; simpa using h

theorem allOnes_eq : (-1 : Word) = wNat (2 ^ 64 - 1) := by decide

theorem divS_eq (x y : Word) : divS x y = if y.toNat = 0 then wNat (2 ^ 64 - 1) else w64 (x.toInt.tdiv y.toInt) := by
  simp only [divS, word_eq_zero, allOnes_eq, w64]
theorem divU_eq (x y : Word) : divU x y = if y.toNat = 0 then wNat (2 ^ 64 - 1) else wNat (x.toNat / y.toNat) := by
  simp only [divU, word_eq_zero, allOnes_eq, wNat]
theorem remS_eq (x y : Word) : remS x y = if y.toNat = 0 then x else w64 (x.toInt - y.toInt * x.toInt.tdiv y.toInt) := by
  simp only [remS, word_eq_zero, w64]
  split
  · rfl
  · rw [Int.tmod_def]
theorem remU_eq (x y : Word) : remU x y = if y.toNat = 0 then x else wNat (x.toNat - y.toNat * (x.toNat / y.toNat)) := by
  simp only [remU, word_eq_zero, wNat]
  split
  · rfl
  · have := Nat.div_add_mod x.toNat y.toNat
    congr 1
    omega

/-- A run of the first numbers that ends at `m`. -/
theorem takeWhile_range (p : Nat → Bool) (n m : Nat) (hm : m ≤ n) (h : ∀ i, i < m → p i = true)
    (hn : m < n → p m = false) : ((List.range n).takeWhile p).length = m := by
  have e : List.range n = List.range m ++ (List.range (n - m)).map (m + ·) := by
    rw [← List.range_add]
    congr 1
    omega
  rw [e, List.takeWhile_append_of_pos (by simpa using h)]
  rcases Nat.eq_or_lt_of_le hm with h0 | h0
  · simp [h0]
  · obtain ⟨k, hk⟩ : ∃ k, n - m = k + 1 := ⟨n - m - 1, by omega⟩
    rw [hk, List.range_succ_eq_map]
    simp [hn h0]

theorem clzW_eq (x : Word) : clzW x = wNat ((List.range 64).takeWhile fun i => !x.getLsbD (63 - i)).length := by
  unfold clzW
  by_cases h0 : x = 0
  · subst h0
    decide
  · rw [if_neg h0]
    have hx : x.toNat ≠ 0 := fun h => h0 ((word_eq_zero x).2 h)
    have hl : x.toNat.log2 < 64 := (Nat.log2_lt hx).2 x.isLt
    rw [takeWhile_range _ 64 (63 - x.toNat.log2) (by omega)]
    · rfl
    · intro i hi
      have : x.toNat < 2 ^ (63 - i) := (Nat.log2_lt hx).1 (by omega)
      simp [BitVec.getLsbD, Nat.testBit_lt_two_pow this]
    · intro _
      have e : 63 - (63 - x.toNat.log2) = x.toNat.log2 := by omega
      simp only [e, BitVec.getLsbD, Bool.not_eq_false']
      exact Nat.testBit_log2 hx
theorem popcW_eq (x : Word) : popcW x = wNat ((List.range 64).filter fun i => x.getLsbD i).length := rfl

theorem mulhS_eq (x y : Word) : mulhS x y = w64 (x.toInt * y.toInt / (2 ^ 64 : Nat)) := rfl
theorem mulhU_eq (x y : Word) : mulhU x y = wNat (x.toNat * y.toNat / 2 ^ 64) := rfl
theorem bfi_eq (old x : Word) (p w : Nat) : bfiW old x p w =
    (old &&& ~~~wNat ((2 ^ w - 1) * 2 ^ p)) ||| wNat (x.toNat % 2 ^ w * 2 ^ p) := rfl

theorem condW_eq (cc : Nat) (x y : Word) : condW cc x y = condition cc x y := by
  unfold condW condition
  split <;> simp [BitVec.toNat_eq, beq_eq_decide, bne]

theorem bfx_eq (x : Word) (p w : Nat) (s : Bool) : bfxW x p (w + 1) s =
    if s ∧ 2 ^ w ≤ x.toNat / 2 ^ p % 2 ^ (w + 1) then w64 ((x.toNat / 2 ^ p % 2 ^ (w + 1) : Nat) - (2 ^ (w + 1) : Nat))
    else wNat (x.toNat / 2 ^ p % 2 ^ (w + 1)) := by
  have h2 : (2 : Nat) ^ (w + 1) = 2 * 2 ^ w := by rw [pow_succ]; ring
  cases s
  · simp [bfxW, wNat]
  · simp only [bfxW, if_true, true_and, sextNat, Nat.mod_mod]
    by_cases h : 2 ^ w ≤ x.toNat / 2 ^ p % 2 ^ (w + 1)
    · rw [if_pos (by omega), if_pos h]; rfl
    · rw [if_neg (by omega), if_neg h]
      rw [wNat, ← BitVec.ofInt_natCast]

end Sys2Proof.Machine
end

