-- ==== Sys2Proof/Laws/State.lean ====
section
/-!
SUPPORT. What each update of the state changes: one lemma per field and per update. A change of one agent, core, cluster,
slice, function, port, switch, engine, Ford attachment or Pilot changes one map of the state, at one key.
-/

namespace Sys2Proof.Machine

/-! ### One Proc -/

@[simp] theorem State.setProc_agenda (s : State) (k : Nat) (x : Proc) : (s.setProc k x).agenda = s.agenda := rfl
@[simp] theorem State.setProc_inp (s : State) (k : Nat) (x : Proc) : (s.setProc k x).inp = s.inp := rfl
@[simp] theorem State.setProc_cur (s : State) (k : Nat) (x : Proc) : (s.setProc k x).cur = s.cur := rfl
@[simp] theorem State.setProc_issued (s : State) (k : Nat) (x : Proc) : (s.setProc k x).issued = s.issued := rfl
@[simp] theorem State.setProc_freeCtr (s : State) (k : Nat) (x : Proc) : (s.setProc k x).freeCtr = s.freeCtr := rfl
@[simp] theorem State.setProc_tide (s : State) (k : Nat) (x : Proc) : (s.setProc k x).tide = s.tide := rfl
@[simp] theorem State.setProc_mem (s : State) (k : Nat) (x : Proc) : (s.setProc k x).mem = s.mem := rfl
@[simp] theorem State.setProc_poison (s : State) (k : Nat) (x : Proc) : (s.setProc k x).poison = s.poison := rfl
@[simp] theorem State.setProc_stalls (s : State) (k : Nat) (x : Proc) : (s.setProc k x).stalls = s.stalls := rfl
@[simp] theorem State.setProc_hostStale (s : State) (k : Nat) (x : Proc) : (s.setProc k x).hostStale = s.hostStale := rfl
@[simp] theorem State.setProc_hostRead (s : State) (k : Nat) (x : Proc) : (s.setProc k x).hostRead = s.hostRead := rfl
@[simp] theorem State.setProc_cores (s : State) (k : Nat) (x : Proc) : (s.setProc k x).cores = s.cores := rfl
@[simp] theorem State.setProc_clusters (s : State) (k : Nat) (x : Proc) : (s.setProc k x).clusters = s.clusters := rfl
@[simp] theorem State.setProc_slices (s : State) (k : Nat) (x : Proc) : (s.setProc k x).slices = s.slices := rfl
@[simp] theorem State.setProc_vfs (s : State) (k : Nat) (x : Proc) : (s.setProc k x).vfs = s.vfs := rfl
@[simp] theorem State.setProc_dumpQ (s : State) (k : Nat) (x : Proc) : (s.setProc k x).dumpQ = s.dumpQ := rfl
@[simp] theorem State.setProc_dumping (s : State) (k : Nat) (x : Proc) : (s.setProc k x).dumping = s.dumping := rfl
@[simp] theorem State.setProc_dumpSeq (s : State) (k : Nat) (x : Proc) : (s.setProc k x).dumpSeq = s.dumpSeq := rfl
@[simp] theorem State.setProc_devents (s : State) (k : Nat) (x : Proc) : (s.setProc k x).devents = s.devents := rfl
@[simp] theorem State.setProc_goingFull (s : State) (k : Nat) (x : Proc) : (s.setProc k x).goingFull = s.goingFull := rfl
@[simp] theorem State.setProc_kept (s : State) (k : Nat) (x : Proc) : (s.setProc k x).kept = s.kept := rfl
@[simp] theorem State.setProc_sealed (s : State) (k : Nat) (x : Proc) : (s.setProc k x).sealed = s.sealed := rfl
@[simp] theorem State.setProc_ports (s : State) (k : Nat) (x : Proc) : (s.setProc k x).ports = s.ports := rfl
@[simp] theorem State.setProc_switches (s : State) (k : Nat) (x : Proc) : (s.setProc k x).switches = s.switches := rfl
@[simp] theorem State.setProc_fab (s : State) (k : Nat) (x : Proc) : (s.setProc k x).fab = s.fab := rfl
@[simp] theorem State.setProc_boot (s : State) (k : Nat) (x : Proc) : (s.setProc k x).boot = s.boot := rfl
@[simp] theorem State.setProc_full (s : State) (k : Nat) (x : Proc) : (s.setProc k x).full = s.full := rfl
@[simp] theorem State.setProc_rrq (s : State) (k : Nat) (x : Proc) : (s.setProc k x).rrq = s.rrq := rfl
@[simp] theorem State.setProc_plim (s : State) (k : Nat) (x : Proc) : (s.setProc k x).plim = s.plim := rfl
@[simp] theorem State.setProc_cap (s : State) (k : Nat) (x : Proc) : (s.setProc k x).cap = s.cap := rfl
@[simp] theorem State.setProc_tmax (s : State) (k : Nat) (x : Proc) : (s.setProc k x).tmax = s.tmax := rfl
@[simp] theorem State.setProc_thermal (s : State) (k : Nat) (x : Proc) : (s.setProc k x).thermal = s.thermal := rfl
@[simp] theorem State.setProc_bstat (s : State) (k : Nat) (x : Proc) : (s.setProc k x).bstat = s.bstat := rfl
@[simp] theorem State.setProc_ecls (s : State) (k : Nat) (x : Proc) : (s.setProc k x).ecls = s.ecls := rfl
@[simp] theorem State.setProc_eidx (s : State) (k : Nat) (x : Proc) : (s.setProc k x).eidx = s.eidx := rfl
@[simp] theorem State.setProc_ectlErr (s : State) (k : Nat) (x : Proc) : (s.setProc k x).ectlErr = s.ectlErr := rfl
@[simp] theorem State.setProc_emaddr (s : State) (k : Nat) (x : Proc) : (s.setProc k x).emaddr = s.emaddr := rfl
@[simp] theorem State.setProc_efaults (s : State) (k : Nat) (x : Proc) : (s.setProc k x).efaults = s.efaults := rfl
@[simp] theorem State.setProc_efOvf (s : State) (k : Nat) (x : Proc) : (s.setProc k x).efOvf = s.efOvf := rfl
@[simp] theorem State.setProc_msix (s : State) (k : Nat) (x : Proc) : (s.setProc k x).msix = s.msix := rfl
@[simp] theorem State.setProc_pwd (s : State) (k : Nat) (x : Proc) : (s.setProc k x).pwd = s.pwd := rfl
@[simp] theorem State.setProc_fseg (s : State) (k : Nat) (x : Proc) : (s.setProc k x).fseg = s.fseg := rfl
@[simp] theorem State.setProc_launches (s : State) (k : Nat) (x : Proc) : (s.setProc k x).launches = s.launches := rfl
@[simp] theorem State.setProc_barriers (s : State) (k : Nat) (x : Proc) : (s.setProc k x).barriers = s.barriers := rfl
@[simp] theorem State.setProc_engines (s : State) (k : Nat) (x : Proc) : (s.setProc k x).engines = s.engines := rfl
@[simp] theorem State.setProc_fords (s : State) (k : Nat) (x : Proc) : (s.setProc k x).fords = s.fords := rfl
@[simp] theorem State.setProc_ttvs (s : State) (k : Nat) (x : Proc) : (s.setProc k x).ttvs = s.ttvs := rfl
@[simp] theorem State.setProc_pilots (s : State) (k : Nat) (x : Proc) : (s.setProc k x).pilots = s.pilots := rfl
theorem State.setProc_procs (s : State) (k : Nat) (x : Proc) : (s.setProc k x).procs = s.procs.put k x := rfl
@[simp] theorem State.setProc_core (s : State) (k : Nat) (x : Proc) (j : Nat) : (s.setProc k x).core j = s.core j := rfl
@[simp] theorem State.setProc_cluster (s : State) (k : Nat) (x : Proc) (j : Nat) : (s.setProc k x).cluster j = s.cluster j := rfl
@[simp] theorem State.setProc_slice (s : State) (k : Nat) (x : Proc) (j : Nat) : (s.setProc k x).slice j = s.slice j := rfl
@[simp] theorem State.setProc_vfOf (s : State) (k : Nat) (x : Proc) (j : Nat) : (s.setProc k x).vfOf j = s.vfOf j := rfl
@[simp] theorem State.setProc_port (s : State) (k : Nat) (x : Proc) (j : Nat) : (s.setProc k x).port j = s.port j := rfl
@[simp] theorem State.setProc_switch (s : State) (k : Nat) (x : Proc) (j : Nat) : (s.setProc k x).switch j = s.switch j := rfl
@[simp] theorem State.setProc_engine (s : State) (k : Nat) (x : Proc) (j : Nat) : (s.setProc k x).engine j = s.engine j := rfl
@[simp] theorem State.setProc_ford (s : State) (k : Nat) (x : Proc) (j : Nat) : (s.setProc k x).ford j = s.ford j := rfl
@[simp] theorem State.setProc_pilot (s : State) (k : Nat) (x : Proc) (j : Nat) : (s.setProc k x).pilot j = s.pilot j := rfl
@[simp] theorem State.setProc_byteAt (s : State) (k : Nat) (x : Proc) (a : Nat) : (s.setProc k x).byteAt a = s.byteAt a := rfl

@[simp] theorem State.modProc_agenda (s : State) (k : Nat) (f : Proc → Proc) : (s.modProc k f).agenda = s.agenda := rfl
@[simp] theorem State.modProc_inp (s : State) (k : Nat) (f : Proc → Proc) : (s.modProc k f).inp = s.inp := rfl
@[simp] theorem State.modProc_cur (s : State) (k : Nat) (f : Proc → Proc) : (s.modProc k f).cur = s.cur := rfl
@[simp] theorem State.modProc_issued (s : State) (k : Nat) (f : Proc → Proc) : (s.modProc k f).issued = s.issued := rfl
@[simp] theorem State.modProc_freeCtr (s : State) (k : Nat) (f : Proc → Proc) : (s.modProc k f).freeCtr = s.freeCtr := rfl
@[simp] theorem State.modProc_tide (s : State) (k : Nat) (f : Proc → Proc) : (s.modProc k f).tide = s.tide := rfl
@[simp] theorem State.modProc_mem (s : State) (k : Nat) (f : Proc → Proc) : (s.modProc k f).mem = s.mem := rfl
@[simp] theorem State.modProc_poison (s : State) (k : Nat) (f : Proc → Proc) : (s.modProc k f).poison = s.poison := rfl
@[simp] theorem State.modProc_stalls (s : State) (k : Nat) (f : Proc → Proc) : (s.modProc k f).stalls = s.stalls := rfl
@[simp] theorem State.modProc_hostStale (s : State) (k : Nat) (f : Proc → Proc) : (s.modProc k f).hostStale = s.hostStale := rfl
@[simp] theorem State.modProc_hostRead (s : State) (k : Nat) (f : Proc → Proc) : (s.modProc k f).hostRead = s.hostRead := rfl
@[simp] theorem State.modProc_cores (s : State) (k : Nat) (f : Proc → Proc) : (s.modProc k f).cores = s.cores := rfl
@[simp] theorem State.modProc_clusters (s : State) (k : Nat) (f : Proc → Proc) : (s.modProc k f).clusters = s.clusters := rfl
@[simp] theorem State.modProc_slices (s : State) (k : Nat) (f : Proc → Proc) : (s.modProc k f).slices = s.slices := rfl
@[simp] theorem State.modProc_vfs (s : State) (k : Nat) (f : Proc → Proc) : (s.modProc k f).vfs = s.vfs := rfl
@[simp] theorem State.modProc_dumpQ (s : State) (k : Nat) (f : Proc → Proc) : (s.modProc k f).dumpQ = s.dumpQ := rfl
@[simp] theorem State.modProc_dumping (s : State) (k : Nat) (f : Proc → Proc) : (s.modProc k f).dumping = s.dumping := rfl
@[simp] theorem State.modProc_dumpSeq (s : State) (k : Nat) (f : Proc → Proc) : (s.modProc k f).dumpSeq = s.dumpSeq := rfl
@[simp] theorem State.modProc_devents (s : State) (k : Nat) (f : Proc → Proc) : (s.modProc k f).devents = s.devents := rfl
@[simp] theorem State.modProc_goingFull (s : State) (k : Nat) (f : Proc → Proc) : (s.modProc k f).goingFull = s.goingFull := rfl
@[simp] theorem State.modProc_kept (s : State) (k : Nat) (f : Proc → Proc) : (s.modProc k f).kept = s.kept := rfl
@[simp] theorem State.modProc_sealed (s : State) (k : Nat) (f : Proc → Proc) : (s.modProc k f).sealed = s.sealed := rfl
@[simp] theorem State.modProc_ports (s : State) (k : Nat) (f : Proc → Proc) : (s.modProc k f).ports = s.ports := rfl
@[simp] theorem State.modProc_switches (s : State) (k : Nat) (f : Proc → Proc) : (s.modProc k f).switches = s.switches := rfl
@[simp] theorem State.modProc_fab (s : State) (k : Nat) (f : Proc → Proc) : (s.modProc k f).fab = s.fab := rfl
@[simp] theorem State.modProc_boot (s : State) (k : Nat) (f : Proc → Proc) : (s.modProc k f).boot = s.boot := rfl
@[simp] theorem State.modProc_full (s : State) (k : Nat) (f : Proc → Proc) : (s.modProc k f).full = s.full := rfl
@[simp] theorem State.modProc_rrq (s : State) (k : Nat) (f : Proc → Proc) : (s.modProc k f).rrq = s.rrq := rfl
@[simp] theorem State.modProc_plim (s : State) (k : Nat) (f : Proc → Proc) : (s.modProc k f).plim = s.plim := rfl
@[simp] theorem State.modProc_cap (s : State) (k : Nat) (f : Proc → Proc) : (s.modProc k f).cap = s.cap := rfl
@[simp] theorem State.modProc_tmax (s : State) (k : Nat) (f : Proc → Proc) : (s.modProc k f).tmax = s.tmax := rfl
@[simp] theorem State.modProc_thermal (s : State) (k : Nat) (f : Proc → Proc) : (s.modProc k f).thermal = s.thermal := rfl
@[simp] theorem State.modProc_bstat (s : State) (k : Nat) (f : Proc → Proc) : (s.modProc k f).bstat = s.bstat := rfl
@[simp] theorem State.modProc_ecls (s : State) (k : Nat) (f : Proc → Proc) : (s.modProc k f).ecls = s.ecls := rfl
@[simp] theorem State.modProc_eidx (s : State) (k : Nat) (f : Proc → Proc) : (s.modProc k f).eidx = s.eidx := rfl
@[simp] theorem State.modProc_ectlErr (s : State) (k : Nat) (f : Proc → Proc) : (s.modProc k f).ectlErr = s.ectlErr := rfl
@[simp] theorem State.modProc_emaddr (s : State) (k : Nat) (f : Proc → Proc) : (s.modProc k f).emaddr = s.emaddr := rfl
@[simp] theorem State.modProc_efaults (s : State) (k : Nat) (f : Proc → Proc) : (s.modProc k f).efaults = s.efaults := rfl
@[simp] theorem State.modProc_efOvf (s : State) (k : Nat) (f : Proc → Proc) : (s.modProc k f).efOvf = s.efOvf := rfl
@[simp] theorem State.modProc_msix (s : State) (k : Nat) (f : Proc → Proc) : (s.modProc k f).msix = s.msix := rfl
@[simp] theorem State.modProc_pwd (s : State) (k : Nat) (f : Proc → Proc) : (s.modProc k f).pwd = s.pwd := rfl
@[simp] theorem State.modProc_fseg (s : State) (k : Nat) (f : Proc → Proc) : (s.modProc k f).fseg = s.fseg := rfl
@[simp] theorem State.modProc_launches (s : State) (k : Nat) (f : Proc → Proc) : (s.modProc k f).launches = s.launches := rfl
@[simp] theorem State.modProc_barriers (s : State) (k : Nat) (f : Proc → Proc) : (s.modProc k f).barriers = s.barriers := rfl
@[simp] theorem State.modProc_engines (s : State) (k : Nat) (f : Proc → Proc) : (s.modProc k f).engines = s.engines := rfl
@[simp] theorem State.modProc_fords (s : State) (k : Nat) (f : Proc → Proc) : (s.modProc k f).fords = s.fords := rfl
@[simp] theorem State.modProc_ttvs (s : State) (k : Nat) (f : Proc → Proc) : (s.modProc k f).ttvs = s.ttvs := rfl
@[simp] theorem State.modProc_pilots (s : State) (k : Nat) (f : Proc → Proc) : (s.modProc k f).pilots = s.pilots := rfl
theorem State.modProc_procs (s : State) (k : Nat) (f : Proc → Proc) : (s.modProc k f).procs = s.procs.put k (f (s.proc k)) := rfl
@[simp] theorem State.modProc_core (s : State) (k : Nat) (f : Proc → Proc) (j : Nat) : (s.modProc k f).core j = s.core j := rfl
@[simp] theorem State.modProc_cluster (s : State) (k : Nat) (f : Proc → Proc) (j : Nat) : (s.modProc k f).cluster j = s.cluster j := rfl
@[simp] theorem State.modProc_slice (s : State) (k : Nat) (f : Proc → Proc) (j : Nat) : (s.modProc k f).slice j = s.slice j := rfl
@[simp] theorem State.modProc_vfOf (s : State) (k : Nat) (f : Proc → Proc) (j : Nat) : (s.modProc k f).vfOf j = s.vfOf j := rfl
@[simp] theorem State.modProc_port (s : State) (k : Nat) (f : Proc → Proc) (j : Nat) : (s.modProc k f).port j = s.port j := rfl
@[simp] theorem State.modProc_switch (s : State) (k : Nat) (f : Proc → Proc) (j : Nat) : (s.modProc k f).switch j = s.switch j := rfl
@[simp] theorem State.modProc_engine (s : State) (k : Nat) (f : Proc → Proc) (j : Nat) : (s.modProc k f).engine j = s.engine j := rfl
@[simp] theorem State.modProc_ford (s : State) (k : Nat) (f : Proc → Proc) (j : Nat) : (s.modProc k f).ford j = s.ford j := rfl
@[simp] theorem State.modProc_pilot (s : State) (k : Nat) (f : Proc → Proc) (j : Nat) : (s.modProc k f).pilot j = s.pilot j := rfl
@[simp] theorem State.modProc_byteAt (s : State) (k : Nat) (f : Proc → Proc) (a : Nat) : (s.modProc k f).byteAt a = s.byteAt a := rfl

/-! ### One Core -/

@[simp] theorem State.setCore_agenda (s : State) (k : Nat) (x : Core) : (s.setCore k x).agenda = s.agenda := rfl
@[simp] theorem State.setCore_inp (s : State) (k : Nat) (x : Core) : (s.setCore k x).inp = s.inp := rfl
@[simp] theorem State.setCore_cur (s : State) (k : Nat) (x : Core) : (s.setCore k x).cur = s.cur := rfl
@[simp] theorem State.setCore_issued (s : State) (k : Nat) (x : Core) : (s.setCore k x).issued = s.issued := rfl
@[simp] theorem State.setCore_freeCtr (s : State) (k : Nat) (x : Core) : (s.setCore k x).freeCtr = s.freeCtr := rfl
@[simp] theorem State.setCore_tide (s : State) (k : Nat) (x : Core) : (s.setCore k x).tide = s.tide := rfl
@[simp] theorem State.setCore_mem (s : State) (k : Nat) (x : Core) : (s.setCore k x).mem = s.mem := rfl
@[simp] theorem State.setCore_poison (s : State) (k : Nat) (x : Core) : (s.setCore k x).poison = s.poison := rfl
@[simp] theorem State.setCore_stalls (s : State) (k : Nat) (x : Core) : (s.setCore k x).stalls = s.stalls := rfl
@[simp] theorem State.setCore_hostStale (s : State) (k : Nat) (x : Core) : (s.setCore k x).hostStale = s.hostStale := rfl
@[simp] theorem State.setCore_hostRead (s : State) (k : Nat) (x : Core) : (s.setCore k x).hostRead = s.hostRead := rfl
@[simp] theorem State.setCore_procs (s : State) (k : Nat) (x : Core) : (s.setCore k x).procs = s.procs := rfl
@[simp] theorem State.setCore_clusters (s : State) (k : Nat) (x : Core) : (s.setCore k x).clusters = s.clusters := rfl
@[simp] theorem State.setCore_slices (s : State) (k : Nat) (x : Core) : (s.setCore k x).slices = s.slices := rfl
@[simp] theorem State.setCore_vfs (s : State) (k : Nat) (x : Core) : (s.setCore k x).vfs = s.vfs := rfl
@[simp] theorem State.setCore_dumpQ (s : State) (k : Nat) (x : Core) : (s.setCore k x).dumpQ = s.dumpQ := rfl
@[simp] theorem State.setCore_dumping (s : State) (k : Nat) (x : Core) : (s.setCore k x).dumping = s.dumping := rfl
@[simp] theorem State.setCore_dumpSeq (s : State) (k : Nat) (x : Core) : (s.setCore k x).dumpSeq = s.dumpSeq := rfl
@[simp] theorem State.setCore_devents (s : State) (k : Nat) (x : Core) : (s.setCore k x).devents = s.devents := rfl
@[simp] theorem State.setCore_goingFull (s : State) (k : Nat) (x : Core) : (s.setCore k x).goingFull = s.goingFull := rfl
@[simp] theorem State.setCore_kept (s : State) (k : Nat) (x : Core) : (s.setCore k x).kept = s.kept := rfl
@[simp] theorem State.setCore_sealed (s : State) (k : Nat) (x : Core) : (s.setCore k x).sealed = s.sealed := rfl
@[simp] theorem State.setCore_ports (s : State) (k : Nat) (x : Core) : (s.setCore k x).ports = s.ports := rfl
@[simp] theorem State.setCore_switches (s : State) (k : Nat) (x : Core) : (s.setCore k x).switches = s.switches := rfl
@[simp] theorem State.setCore_fab (s : State) (k : Nat) (x : Core) : (s.setCore k x).fab = s.fab := rfl
@[simp] theorem State.setCore_boot (s : State) (k : Nat) (x : Core) : (s.setCore k x).boot = s.boot := rfl
@[simp] theorem State.setCore_full (s : State) (k : Nat) (x : Core) : (s.setCore k x).full = s.full := rfl
@[simp] theorem State.setCore_rrq (s : State) (k : Nat) (x : Core) : (s.setCore k x).rrq = s.rrq := rfl
@[simp] theorem State.setCore_plim (s : State) (k : Nat) (x : Core) : (s.setCore k x).plim = s.plim := rfl
@[simp] theorem State.setCore_cap (s : State) (k : Nat) (x : Core) : (s.setCore k x).cap = s.cap := rfl
@[simp] theorem State.setCore_tmax (s : State) (k : Nat) (x : Core) : (s.setCore k x).tmax = s.tmax := rfl
@[simp] theorem State.setCore_thermal (s : State) (k : Nat) (x : Core) : (s.setCore k x).thermal = s.thermal := rfl
@[simp] theorem State.setCore_bstat (s : State) (k : Nat) (x : Core) : (s.setCore k x).bstat = s.bstat := rfl
@[simp] theorem State.setCore_ecls (s : State) (k : Nat) (x : Core) : (s.setCore k x).ecls = s.ecls := rfl
@[simp] theorem State.setCore_eidx (s : State) (k : Nat) (x : Core) : (s.setCore k x).eidx = s.eidx := rfl
@[simp] theorem State.setCore_ectlErr (s : State) (k : Nat) (x : Core) : (s.setCore k x).ectlErr = s.ectlErr := rfl
@[simp] theorem State.setCore_emaddr (s : State) (k : Nat) (x : Core) : (s.setCore k x).emaddr = s.emaddr := rfl
@[simp] theorem State.setCore_efaults (s : State) (k : Nat) (x : Core) : (s.setCore k x).efaults = s.efaults := rfl
@[simp] theorem State.setCore_efOvf (s : State) (k : Nat) (x : Core) : (s.setCore k x).efOvf = s.efOvf := rfl
@[simp] theorem State.setCore_msix (s : State) (k : Nat) (x : Core) : (s.setCore k x).msix = s.msix := rfl
@[simp] theorem State.setCore_pwd (s : State) (k : Nat) (x : Core) : (s.setCore k x).pwd = s.pwd := rfl
@[simp] theorem State.setCore_fseg (s : State) (k : Nat) (x : Core) : (s.setCore k x).fseg = s.fseg := rfl
@[simp] theorem State.setCore_launches (s : State) (k : Nat) (x : Core) : (s.setCore k x).launches = s.launches := rfl
@[simp] theorem State.setCore_barriers (s : State) (k : Nat) (x : Core) : (s.setCore k x).barriers = s.barriers := rfl
@[simp] theorem State.setCore_engines (s : State) (k : Nat) (x : Core) : (s.setCore k x).engines = s.engines := rfl
@[simp] theorem State.setCore_fords (s : State) (k : Nat) (x : Core) : (s.setCore k x).fords = s.fords := rfl
@[simp] theorem State.setCore_ttvs (s : State) (k : Nat) (x : Core) : (s.setCore k x).ttvs = s.ttvs := rfl
@[simp] theorem State.setCore_pilots (s : State) (k : Nat) (x : Core) : (s.setCore k x).pilots = s.pilots := rfl
theorem State.setCore_cores (s : State) (k : Nat) (x : Core) : (s.setCore k x).cores = s.cores.put k x := rfl
@[simp] theorem State.setCore_same (s : State) (k : Nat) (x : Core) : (s.setCore k x).core k = x := FMap.get_put_same _ _ _ _
theorem State.setCore_other (s : State) (k : Nat) (x : Core) {j : Nat} (h : j ≠ k) : (s.setCore k x).core j = s.core j :=
  FMap.get_put_ne _ _ _ _ _ h
@[simp] theorem State.setCore_proc (s : State) (k : Nat) (x : Core) (j : Nat) : (s.setCore k x).proc j = s.proc j := rfl
@[simp] theorem State.setCore_cluster (s : State) (k : Nat) (x : Core) (j : Nat) : (s.setCore k x).cluster j = s.cluster j := rfl
@[simp] theorem State.setCore_slice (s : State) (k : Nat) (x : Core) (j : Nat) : (s.setCore k x).slice j = s.slice j := rfl
@[simp] theorem State.setCore_vfOf (s : State) (k : Nat) (x : Core) (j : Nat) : (s.setCore k x).vfOf j = s.vfOf j := rfl
@[simp] theorem State.setCore_port (s : State) (k : Nat) (x : Core) (j : Nat) : (s.setCore k x).port j = s.port j := rfl
@[simp] theorem State.setCore_switch (s : State) (k : Nat) (x : Core) (j : Nat) : (s.setCore k x).switch j = s.switch j := rfl
@[simp] theorem State.setCore_engine (s : State) (k : Nat) (x : Core) (j : Nat) : (s.setCore k x).engine j = s.engine j := rfl
@[simp] theorem State.setCore_ford (s : State) (k : Nat) (x : Core) (j : Nat) : (s.setCore k x).ford j = s.ford j := rfl
@[simp] theorem State.setCore_pilot (s : State) (k : Nat) (x : Core) (j : Nat) : (s.setCore k x).pilot j = s.pilot j := rfl
@[simp] theorem State.setCore_byteAt (s : State) (k : Nat) (x : Core) (a : Nat) : (s.setCore k x).byteAt a = s.byteAt a := rfl

@[simp] theorem State.modCore_agenda (s : State) (k : Nat) (f : Core → Core) : (s.modCore k f).agenda = s.agenda := rfl
@[simp] theorem State.modCore_inp (s : State) (k : Nat) (f : Core → Core) : (s.modCore k f).inp = s.inp := rfl
@[simp] theorem State.modCore_cur (s : State) (k : Nat) (f : Core → Core) : (s.modCore k f).cur = s.cur := rfl
@[simp] theorem State.modCore_issued (s : State) (k : Nat) (f : Core → Core) : (s.modCore k f).issued = s.issued := rfl
@[simp] theorem State.modCore_freeCtr (s : State) (k : Nat) (f : Core → Core) : (s.modCore k f).freeCtr = s.freeCtr := rfl
@[simp] theorem State.modCore_tide (s : State) (k : Nat) (f : Core → Core) : (s.modCore k f).tide = s.tide := rfl
@[simp] theorem State.modCore_mem (s : State) (k : Nat) (f : Core → Core) : (s.modCore k f).mem = s.mem := rfl
@[simp] theorem State.modCore_poison (s : State) (k : Nat) (f : Core → Core) : (s.modCore k f).poison = s.poison := rfl
@[simp] theorem State.modCore_stalls (s : State) (k : Nat) (f : Core → Core) : (s.modCore k f).stalls = s.stalls := rfl
@[simp] theorem State.modCore_hostStale (s : State) (k : Nat) (f : Core → Core) : (s.modCore k f).hostStale = s.hostStale := rfl
@[simp] theorem State.modCore_hostRead (s : State) (k : Nat) (f : Core → Core) : (s.modCore k f).hostRead = s.hostRead := rfl
@[simp] theorem State.modCore_procs (s : State) (k : Nat) (f : Core → Core) : (s.modCore k f).procs = s.procs := rfl
@[simp] theorem State.modCore_clusters (s : State) (k : Nat) (f : Core → Core) : (s.modCore k f).clusters = s.clusters := rfl
@[simp] theorem State.modCore_slices (s : State) (k : Nat) (f : Core → Core) : (s.modCore k f).slices = s.slices := rfl
@[simp] theorem State.modCore_vfs (s : State) (k : Nat) (f : Core → Core) : (s.modCore k f).vfs = s.vfs := rfl
@[simp] theorem State.modCore_dumpQ (s : State) (k : Nat) (f : Core → Core) : (s.modCore k f).dumpQ = s.dumpQ := rfl
@[simp] theorem State.modCore_dumping (s : State) (k : Nat) (f : Core → Core) : (s.modCore k f).dumping = s.dumping := rfl
@[simp] theorem State.modCore_dumpSeq (s : State) (k : Nat) (f : Core → Core) : (s.modCore k f).dumpSeq = s.dumpSeq := rfl
@[simp] theorem State.modCore_devents (s : State) (k : Nat) (f : Core → Core) : (s.modCore k f).devents = s.devents := rfl
@[simp] theorem State.modCore_goingFull (s : State) (k : Nat) (f : Core → Core) : (s.modCore k f).goingFull = s.goingFull := rfl
@[simp] theorem State.modCore_kept (s : State) (k : Nat) (f : Core → Core) : (s.modCore k f).kept = s.kept := rfl
@[simp] theorem State.modCore_sealed (s : State) (k : Nat) (f : Core → Core) : (s.modCore k f).sealed = s.sealed := rfl
@[simp] theorem State.modCore_ports (s : State) (k : Nat) (f : Core → Core) : (s.modCore k f).ports = s.ports := rfl
@[simp] theorem State.modCore_switches (s : State) (k : Nat) (f : Core → Core) : (s.modCore k f).switches = s.switches := rfl
@[simp] theorem State.modCore_fab (s : State) (k : Nat) (f : Core → Core) : (s.modCore k f).fab = s.fab := rfl
@[simp] theorem State.modCore_boot (s : State) (k : Nat) (f : Core → Core) : (s.modCore k f).boot = s.boot := rfl
@[simp] theorem State.modCore_full (s : State) (k : Nat) (f : Core → Core) : (s.modCore k f).full = s.full := rfl
@[simp] theorem State.modCore_rrq (s : State) (k : Nat) (f : Core → Core) : (s.modCore k f).rrq = s.rrq := rfl
@[simp] theorem State.modCore_plim (s : State) (k : Nat) (f : Core → Core) : (s.modCore k f).plim = s.plim := rfl
@[simp] theorem State.modCore_cap (s : State) (k : Nat) (f : Core → Core) : (s.modCore k f).cap = s.cap := rfl
@[simp] theorem State.modCore_tmax (s : State) (k : Nat) (f : Core → Core) : (s.modCore k f).tmax = s.tmax := rfl
@[simp] theorem State.modCore_thermal (s : State) (k : Nat) (f : Core → Core) : (s.modCore k f).thermal = s.thermal := rfl
@[simp] theorem State.modCore_bstat (s : State) (k : Nat) (f : Core → Core) : (s.modCore k f).bstat = s.bstat := rfl
@[simp] theorem State.modCore_ecls (s : State) (k : Nat) (f : Core → Core) : (s.modCore k f).ecls = s.ecls := rfl
@[simp] theorem State.modCore_eidx (s : State) (k : Nat) (f : Core → Core) : (s.modCore k f).eidx = s.eidx := rfl
@[simp] theorem State.modCore_ectlErr (s : State) (k : Nat) (f : Core → Core) : (s.modCore k f).ectlErr = s.ectlErr := rfl
@[simp] theorem State.modCore_emaddr (s : State) (k : Nat) (f : Core → Core) : (s.modCore k f).emaddr = s.emaddr := rfl
@[simp] theorem State.modCore_efaults (s : State) (k : Nat) (f : Core → Core) : (s.modCore k f).efaults = s.efaults := rfl
@[simp] theorem State.modCore_efOvf (s : State) (k : Nat) (f : Core → Core) : (s.modCore k f).efOvf = s.efOvf := rfl
@[simp] theorem State.modCore_msix (s : State) (k : Nat) (f : Core → Core) : (s.modCore k f).msix = s.msix := rfl
@[simp] theorem State.modCore_pwd (s : State) (k : Nat) (f : Core → Core) : (s.modCore k f).pwd = s.pwd := rfl
@[simp] theorem State.modCore_fseg (s : State) (k : Nat) (f : Core → Core) : (s.modCore k f).fseg = s.fseg := rfl
@[simp] theorem State.modCore_launches (s : State) (k : Nat) (f : Core → Core) : (s.modCore k f).launches = s.launches := rfl
@[simp] theorem State.modCore_barriers (s : State) (k : Nat) (f : Core → Core) : (s.modCore k f).barriers = s.barriers := rfl
@[simp] theorem State.modCore_engines (s : State) (k : Nat) (f : Core → Core) : (s.modCore k f).engines = s.engines := rfl
@[simp] theorem State.modCore_fords (s : State) (k : Nat) (f : Core → Core) : (s.modCore k f).fords = s.fords := rfl
@[simp] theorem State.modCore_ttvs (s : State) (k : Nat) (f : Core → Core) : (s.modCore k f).ttvs = s.ttvs := rfl
@[simp] theorem State.modCore_pilots (s : State) (k : Nat) (f : Core → Core) : (s.modCore k f).pilots = s.pilots := rfl
theorem State.modCore_cores (s : State) (k : Nat) (f : Core → Core) : (s.modCore k f).cores = s.cores.put k (f (s.core k)) := rfl
@[simp] theorem State.modCore_same (s : State) (k : Nat) (f : Core → Core) : (s.modCore k f).core k = (f (s.core k)) := FMap.get_put_same _ _ _ _
theorem State.modCore_other (s : State) (k : Nat) (f : Core → Core) {j : Nat} (h : j ≠ k) : (s.modCore k f).core j = s.core j :=
  FMap.get_put_ne _ _ _ _ _ h
@[simp] theorem State.modCore_proc (s : State) (k : Nat) (f : Core → Core) (j : Nat) : (s.modCore k f).proc j = s.proc j := rfl
@[simp] theorem State.modCore_cluster (s : State) (k : Nat) (f : Core → Core) (j : Nat) : (s.modCore k f).cluster j = s.cluster j := rfl
@[simp] theorem State.modCore_slice (s : State) (k : Nat) (f : Core → Core) (j : Nat) : (s.modCore k f).slice j = s.slice j := rfl
@[simp] theorem State.modCore_vfOf (s : State) (k : Nat) (f : Core → Core) (j : Nat) : (s.modCore k f).vfOf j = s.vfOf j := rfl
@[simp] theorem State.modCore_port (s : State) (k : Nat) (f : Core → Core) (j : Nat) : (s.modCore k f).port j = s.port j := rfl
@[simp] theorem State.modCore_switch (s : State) (k : Nat) (f : Core → Core) (j : Nat) : (s.modCore k f).switch j = s.switch j := rfl
@[simp] theorem State.modCore_engine (s : State) (k : Nat) (f : Core → Core) (j : Nat) : (s.modCore k f).engine j = s.engine j := rfl
@[simp] theorem State.modCore_ford (s : State) (k : Nat) (f : Core → Core) (j : Nat) : (s.modCore k f).ford j = s.ford j := rfl
@[simp] theorem State.modCore_pilot (s : State) (k : Nat) (f : Core → Core) (j : Nat) : (s.modCore k f).pilot j = s.pilot j := rfl
@[simp] theorem State.modCore_byteAt (s : State) (k : Nat) (f : Core → Core) (a : Nat) : (s.modCore k f).byteAt a = s.byteAt a := rfl

/-! ### One Cluster -/

@[simp] theorem State.setCluster_agenda (s : State) (k : Nat) (x : Cluster) : (s.setCluster k x).agenda = s.agenda := rfl
@[simp] theorem State.setCluster_inp (s : State) (k : Nat) (x : Cluster) : (s.setCluster k x).inp = s.inp := rfl
@[simp] theorem State.setCluster_cur (s : State) (k : Nat) (x : Cluster) : (s.setCluster k x).cur = s.cur := rfl
@[simp] theorem State.setCluster_issued (s : State) (k : Nat) (x : Cluster) : (s.setCluster k x).issued = s.issued := rfl
@[simp] theorem State.setCluster_freeCtr (s : State) (k : Nat) (x : Cluster) : (s.setCluster k x).freeCtr = s.freeCtr := rfl
@[simp] theorem State.setCluster_tide (s : State) (k : Nat) (x : Cluster) : (s.setCluster k x).tide = s.tide := rfl
@[simp] theorem State.setCluster_mem (s : State) (k : Nat) (x : Cluster) : (s.setCluster k x).mem = s.mem := rfl
@[simp] theorem State.setCluster_poison (s : State) (k : Nat) (x : Cluster) : (s.setCluster k x).poison = s.poison := rfl
@[simp] theorem State.setCluster_stalls (s : State) (k : Nat) (x : Cluster) : (s.setCluster k x).stalls = s.stalls := rfl
@[simp] theorem State.setCluster_hostStale (s : State) (k : Nat) (x : Cluster) : (s.setCluster k x).hostStale = s.hostStale := rfl
@[simp] theorem State.setCluster_hostRead (s : State) (k : Nat) (x : Cluster) : (s.setCluster k x).hostRead = s.hostRead := rfl
@[simp] theorem State.setCluster_procs (s : State) (k : Nat) (x : Cluster) : (s.setCluster k x).procs = s.procs := rfl
@[simp] theorem State.setCluster_cores (s : State) (k : Nat) (x : Cluster) : (s.setCluster k x).cores = s.cores := rfl
@[simp] theorem State.setCluster_slices (s : State) (k : Nat) (x : Cluster) : (s.setCluster k x).slices = s.slices := rfl
@[simp] theorem State.setCluster_vfs (s : State) (k : Nat) (x : Cluster) : (s.setCluster k x).vfs = s.vfs := rfl
@[simp] theorem State.setCluster_dumpQ (s : State) (k : Nat) (x : Cluster) : (s.setCluster k x).dumpQ = s.dumpQ := rfl
@[simp] theorem State.setCluster_dumping (s : State) (k : Nat) (x : Cluster) : (s.setCluster k x).dumping = s.dumping := rfl
@[simp] theorem State.setCluster_dumpSeq (s : State) (k : Nat) (x : Cluster) : (s.setCluster k x).dumpSeq = s.dumpSeq := rfl
@[simp] theorem State.setCluster_devents (s : State) (k : Nat) (x : Cluster) : (s.setCluster k x).devents = s.devents := rfl
@[simp] theorem State.setCluster_goingFull (s : State) (k : Nat) (x : Cluster) : (s.setCluster k x).goingFull = s.goingFull := rfl
@[simp] theorem State.setCluster_kept (s : State) (k : Nat) (x : Cluster) : (s.setCluster k x).kept = s.kept := rfl
@[simp] theorem State.setCluster_sealed (s : State) (k : Nat) (x : Cluster) : (s.setCluster k x).sealed = s.sealed := rfl
@[simp] theorem State.setCluster_ports (s : State) (k : Nat) (x : Cluster) : (s.setCluster k x).ports = s.ports := rfl
@[simp] theorem State.setCluster_switches (s : State) (k : Nat) (x : Cluster) : (s.setCluster k x).switches = s.switches := rfl
@[simp] theorem State.setCluster_fab (s : State) (k : Nat) (x : Cluster) : (s.setCluster k x).fab = s.fab := rfl
@[simp] theorem State.setCluster_boot (s : State) (k : Nat) (x : Cluster) : (s.setCluster k x).boot = s.boot := rfl
@[simp] theorem State.setCluster_full (s : State) (k : Nat) (x : Cluster) : (s.setCluster k x).full = s.full := rfl
@[simp] theorem State.setCluster_rrq (s : State) (k : Nat) (x : Cluster) : (s.setCluster k x).rrq = s.rrq := rfl
@[simp] theorem State.setCluster_plim (s : State) (k : Nat) (x : Cluster) : (s.setCluster k x).plim = s.plim := rfl
@[simp] theorem State.setCluster_cap (s : State) (k : Nat) (x : Cluster) : (s.setCluster k x).cap = s.cap := rfl
@[simp] theorem State.setCluster_tmax (s : State) (k : Nat) (x : Cluster) : (s.setCluster k x).tmax = s.tmax := rfl
@[simp] theorem State.setCluster_thermal (s : State) (k : Nat) (x : Cluster) : (s.setCluster k x).thermal = s.thermal := rfl
@[simp] theorem State.setCluster_bstat (s : State) (k : Nat) (x : Cluster) : (s.setCluster k x).bstat = s.bstat := rfl
@[simp] theorem State.setCluster_ecls (s : State) (k : Nat) (x : Cluster) : (s.setCluster k x).ecls = s.ecls := rfl
@[simp] theorem State.setCluster_eidx (s : State) (k : Nat) (x : Cluster) : (s.setCluster k x).eidx = s.eidx := rfl
@[simp] theorem State.setCluster_ectlErr (s : State) (k : Nat) (x : Cluster) : (s.setCluster k x).ectlErr = s.ectlErr := rfl
@[simp] theorem State.setCluster_emaddr (s : State) (k : Nat) (x : Cluster) : (s.setCluster k x).emaddr = s.emaddr := rfl
@[simp] theorem State.setCluster_efaults (s : State) (k : Nat) (x : Cluster) : (s.setCluster k x).efaults = s.efaults := rfl
@[simp] theorem State.setCluster_efOvf (s : State) (k : Nat) (x : Cluster) : (s.setCluster k x).efOvf = s.efOvf := rfl
@[simp] theorem State.setCluster_msix (s : State) (k : Nat) (x : Cluster) : (s.setCluster k x).msix = s.msix := rfl
@[simp] theorem State.setCluster_pwd (s : State) (k : Nat) (x : Cluster) : (s.setCluster k x).pwd = s.pwd := rfl
@[simp] theorem State.setCluster_fseg (s : State) (k : Nat) (x : Cluster) : (s.setCluster k x).fseg = s.fseg := rfl
@[simp] theorem State.setCluster_launches (s : State) (k : Nat) (x : Cluster) : (s.setCluster k x).launches = s.launches := rfl
@[simp] theorem State.setCluster_barriers (s : State) (k : Nat) (x : Cluster) : (s.setCluster k x).barriers = s.barriers := rfl
@[simp] theorem State.setCluster_engines (s : State) (k : Nat) (x : Cluster) : (s.setCluster k x).engines = s.engines := rfl
@[simp] theorem State.setCluster_fords (s : State) (k : Nat) (x : Cluster) : (s.setCluster k x).fords = s.fords := rfl
@[simp] theorem State.setCluster_ttvs (s : State) (k : Nat) (x : Cluster) : (s.setCluster k x).ttvs = s.ttvs := rfl
@[simp] theorem State.setCluster_pilots (s : State) (k : Nat) (x : Cluster) : (s.setCluster k x).pilots = s.pilots := rfl
theorem State.setCluster_clusters (s : State) (k : Nat) (x : Cluster) : (s.setCluster k x).clusters = s.clusters.put k x := rfl
@[simp] theorem State.setCluster_same (s : State) (k : Nat) (x : Cluster) : (s.setCluster k x).cluster k = x := FMap.get_put_same _ _ _ _
theorem State.setCluster_other (s : State) (k : Nat) (x : Cluster) {j : Nat} (h : j ≠ k) : (s.setCluster k x).cluster j = s.cluster j :=
  FMap.get_put_ne _ _ _ _ _ h
@[simp] theorem State.setCluster_proc (s : State) (k : Nat) (x : Cluster) (j : Nat) : (s.setCluster k x).proc j = s.proc j := rfl
@[simp] theorem State.setCluster_core (s : State) (k : Nat) (x : Cluster) (j : Nat) : (s.setCluster k x).core j = s.core j := rfl
@[simp] theorem State.setCluster_slice (s : State) (k : Nat) (x : Cluster) (j : Nat) : (s.setCluster k x).slice j = s.slice j := rfl
@[simp] theorem State.setCluster_vfOf (s : State) (k : Nat) (x : Cluster) (j : Nat) : (s.setCluster k x).vfOf j = s.vfOf j := rfl
@[simp] theorem State.setCluster_port (s : State) (k : Nat) (x : Cluster) (j : Nat) : (s.setCluster k x).port j = s.port j := rfl
@[simp] theorem State.setCluster_switch (s : State) (k : Nat) (x : Cluster) (j : Nat) : (s.setCluster k x).switch j = s.switch j := rfl
@[simp] theorem State.setCluster_engine (s : State) (k : Nat) (x : Cluster) (j : Nat) : (s.setCluster k x).engine j = s.engine j := rfl
@[simp] theorem State.setCluster_ford (s : State) (k : Nat) (x : Cluster) (j : Nat) : (s.setCluster k x).ford j = s.ford j := rfl
@[simp] theorem State.setCluster_pilot (s : State) (k : Nat) (x : Cluster) (j : Nat) : (s.setCluster k x).pilot j = s.pilot j := rfl
@[simp] theorem State.setCluster_byteAt (s : State) (k : Nat) (x : Cluster) (a : Nat) : (s.setCluster k x).byteAt a = s.byteAt a := rfl

@[simp] theorem State.modCluster_agenda (s : State) (k : Nat) (f : Cluster → Cluster) : (s.modCluster k f).agenda = s.agenda := rfl
@[simp] theorem State.modCluster_inp (s : State) (k : Nat) (f : Cluster → Cluster) : (s.modCluster k f).inp = s.inp := rfl
@[simp] theorem State.modCluster_cur (s : State) (k : Nat) (f : Cluster → Cluster) : (s.modCluster k f).cur = s.cur := rfl
@[simp] theorem State.modCluster_issued (s : State) (k : Nat) (f : Cluster → Cluster) : (s.modCluster k f).issued = s.issued := rfl
@[simp] theorem State.modCluster_freeCtr (s : State) (k : Nat) (f : Cluster → Cluster) : (s.modCluster k f).freeCtr = s.freeCtr := rfl
@[simp] theorem State.modCluster_tide (s : State) (k : Nat) (f : Cluster → Cluster) : (s.modCluster k f).tide = s.tide := rfl
@[simp] theorem State.modCluster_mem (s : State) (k : Nat) (f : Cluster → Cluster) : (s.modCluster k f).mem = s.mem := rfl
@[simp] theorem State.modCluster_poison (s : State) (k : Nat) (f : Cluster → Cluster) : (s.modCluster k f).poison = s.poison := rfl
@[simp] theorem State.modCluster_stalls (s : State) (k : Nat) (f : Cluster → Cluster) : (s.modCluster k f).stalls = s.stalls := rfl
@[simp] theorem State.modCluster_hostStale (s : State) (k : Nat) (f : Cluster → Cluster) : (s.modCluster k f).hostStale = s.hostStale := rfl
@[simp] theorem State.modCluster_hostRead (s : State) (k : Nat) (f : Cluster → Cluster) : (s.modCluster k f).hostRead = s.hostRead := rfl
@[simp] theorem State.modCluster_procs (s : State) (k : Nat) (f : Cluster → Cluster) : (s.modCluster k f).procs = s.procs := rfl
@[simp] theorem State.modCluster_cores (s : State) (k : Nat) (f : Cluster → Cluster) : (s.modCluster k f).cores = s.cores := rfl
@[simp] theorem State.modCluster_slices (s : State) (k : Nat) (f : Cluster → Cluster) : (s.modCluster k f).slices = s.slices := rfl
@[simp] theorem State.modCluster_vfs (s : State) (k : Nat) (f : Cluster → Cluster) : (s.modCluster k f).vfs = s.vfs := rfl
@[simp] theorem State.modCluster_dumpQ (s : State) (k : Nat) (f : Cluster → Cluster) : (s.modCluster k f).dumpQ = s.dumpQ := rfl
@[simp] theorem State.modCluster_dumping (s : State) (k : Nat) (f : Cluster → Cluster) : (s.modCluster k f).dumping = s.dumping := rfl
@[simp] theorem State.modCluster_dumpSeq (s : State) (k : Nat) (f : Cluster → Cluster) : (s.modCluster k f).dumpSeq = s.dumpSeq := rfl
@[simp] theorem State.modCluster_devents (s : State) (k : Nat) (f : Cluster → Cluster) : (s.modCluster k f).devents = s.devents := rfl
@[simp] theorem State.modCluster_goingFull (s : State) (k : Nat) (f : Cluster → Cluster) : (s.modCluster k f).goingFull = s.goingFull := rfl
@[simp] theorem State.modCluster_kept (s : State) (k : Nat) (f : Cluster → Cluster) : (s.modCluster k f).kept = s.kept := rfl
@[simp] theorem State.modCluster_sealed (s : State) (k : Nat) (f : Cluster → Cluster) : (s.modCluster k f).sealed = s.sealed := rfl
@[simp] theorem State.modCluster_ports (s : State) (k : Nat) (f : Cluster → Cluster) : (s.modCluster k f).ports = s.ports := rfl
@[simp] theorem State.modCluster_switches (s : State) (k : Nat) (f : Cluster → Cluster) : (s.modCluster k f).switches = s.switches := rfl
@[simp] theorem State.modCluster_fab (s : State) (k : Nat) (f : Cluster → Cluster) : (s.modCluster k f).fab = s.fab := rfl
@[simp] theorem State.modCluster_boot (s : State) (k : Nat) (f : Cluster → Cluster) : (s.modCluster k f).boot = s.boot := rfl
@[simp] theorem State.modCluster_full (s : State) (k : Nat) (f : Cluster → Cluster) : (s.modCluster k f).full = s.full := rfl
@[simp] theorem State.modCluster_rrq (s : State) (k : Nat) (f : Cluster → Cluster) : (s.modCluster k f).rrq = s.rrq := rfl
@[simp] theorem State.modCluster_plim (s : State) (k : Nat) (f : Cluster → Cluster) : (s.modCluster k f).plim = s.plim := rfl
@[simp] theorem State.modCluster_cap (s : State) (k : Nat) (f : Cluster → Cluster) : (s.modCluster k f).cap = s.cap := rfl
@[simp] theorem State.modCluster_tmax (s : State) (k : Nat) (f : Cluster → Cluster) : (s.modCluster k f).tmax = s.tmax := rfl
@[simp] theorem State.modCluster_thermal (s : State) (k : Nat) (f : Cluster → Cluster) : (s.modCluster k f).thermal = s.thermal := rfl
@[simp] theorem State.modCluster_bstat (s : State) (k : Nat) (f : Cluster → Cluster) : (s.modCluster k f).bstat = s.bstat := rfl
@[simp] theorem State.modCluster_ecls (s : State) (k : Nat) (f : Cluster → Cluster) : (s.modCluster k f).ecls = s.ecls := rfl
@[simp] theorem State.modCluster_eidx (s : State) (k : Nat) (f : Cluster → Cluster) : (s.modCluster k f).eidx = s.eidx := rfl
@[simp] theorem State.modCluster_ectlErr (s : State) (k : Nat) (f : Cluster → Cluster) : (s.modCluster k f).ectlErr = s.ectlErr := rfl
@[simp] theorem State.modCluster_emaddr (s : State) (k : Nat) (f : Cluster → Cluster) : (s.modCluster k f).emaddr = s.emaddr := rfl
@[simp] theorem State.modCluster_efaults (s : State) (k : Nat) (f : Cluster → Cluster) : (s.modCluster k f).efaults = s.efaults := rfl
@[simp] theorem State.modCluster_efOvf (s : State) (k : Nat) (f : Cluster → Cluster) : (s.modCluster k f).efOvf = s.efOvf := rfl
@[simp] theorem State.modCluster_msix (s : State) (k : Nat) (f : Cluster → Cluster) : (s.modCluster k f).msix = s.msix := rfl
@[simp] theorem State.modCluster_pwd (s : State) (k : Nat) (f : Cluster → Cluster) : (s.modCluster k f).pwd = s.pwd := rfl
@[simp] theorem State.modCluster_fseg (s : State) (k : Nat) (f : Cluster → Cluster) : (s.modCluster k f).fseg = s.fseg := rfl
@[simp] theorem State.modCluster_launches (s : State) (k : Nat) (f : Cluster → Cluster) : (s.modCluster k f).launches = s.launches := rfl
@[simp] theorem State.modCluster_barriers (s : State) (k : Nat) (f : Cluster → Cluster) : (s.modCluster k f).barriers = s.barriers := rfl
@[simp] theorem State.modCluster_engines (s : State) (k : Nat) (f : Cluster → Cluster) : (s.modCluster k f).engines = s.engines := rfl
@[simp] theorem State.modCluster_fords (s : State) (k : Nat) (f : Cluster → Cluster) : (s.modCluster k f).fords = s.fords := rfl
@[simp] theorem State.modCluster_ttvs (s : State) (k : Nat) (f : Cluster → Cluster) : (s.modCluster k f).ttvs = s.ttvs := rfl
@[simp] theorem State.modCluster_pilots (s : State) (k : Nat) (f : Cluster → Cluster) : (s.modCluster k f).pilots = s.pilots := rfl
theorem State.modCluster_clusters (s : State) (k : Nat) (f : Cluster → Cluster) : (s.modCluster k f).clusters = s.clusters.put k (f (s.cluster k)) := rfl
@[simp] theorem State.modCluster_same (s : State) (k : Nat) (f : Cluster → Cluster) : (s.modCluster k f).cluster k = (f (s.cluster k)) := FMap.get_put_same _ _ _ _
theorem State.modCluster_other (s : State) (k : Nat) (f : Cluster → Cluster) {j : Nat} (h : j ≠ k) : (s.modCluster k f).cluster j = s.cluster j :=
  FMap.get_put_ne _ _ _ _ _ h
@[simp] theorem State.modCluster_proc (s : State) (k : Nat) (f : Cluster → Cluster) (j : Nat) : (s.modCluster k f).proc j = s.proc j := rfl
@[simp] theorem State.modCluster_core (s : State) (k : Nat) (f : Cluster → Cluster) (j : Nat) : (s.modCluster k f).core j = s.core j := rfl
@[simp] theorem State.modCluster_slice (s : State) (k : Nat) (f : Cluster → Cluster) (j : Nat) : (s.modCluster k f).slice j = s.slice j := rfl
@[simp] theorem State.modCluster_vfOf (s : State) (k : Nat) (f : Cluster → Cluster) (j : Nat) : (s.modCluster k f).vfOf j = s.vfOf j := rfl
@[simp] theorem State.modCluster_port (s : State) (k : Nat) (f : Cluster → Cluster) (j : Nat) : (s.modCluster k f).port j = s.port j := rfl
@[simp] theorem State.modCluster_switch (s : State) (k : Nat) (f : Cluster → Cluster) (j : Nat) : (s.modCluster k f).switch j = s.switch j := rfl
@[simp] theorem State.modCluster_engine (s : State) (k : Nat) (f : Cluster → Cluster) (j : Nat) : (s.modCluster k f).engine j = s.engine j := rfl
@[simp] theorem State.modCluster_ford (s : State) (k : Nat) (f : Cluster → Cluster) (j : Nat) : (s.modCluster k f).ford j = s.ford j := rfl
@[simp] theorem State.modCluster_pilot (s : State) (k : Nat) (f : Cluster → Cluster) (j : Nat) : (s.modCluster k f).pilot j = s.pilot j := rfl
@[simp] theorem State.modCluster_byteAt (s : State) (k : Nat) (f : Cluster → Cluster) (a : Nat) : (s.modCluster k f).byteAt a = s.byteAt a := rfl

/-! ### One Slice -/

@[simp] theorem State.setSlice_agenda (s : State) (k : Nat) (x : Slice) : (s.setSlice k x).agenda = s.agenda := rfl
@[simp] theorem State.setSlice_inp (s : State) (k : Nat) (x : Slice) : (s.setSlice k x).inp = s.inp := rfl
@[simp] theorem State.setSlice_cur (s : State) (k : Nat) (x : Slice) : (s.setSlice k x).cur = s.cur := rfl
@[simp] theorem State.setSlice_issued (s : State) (k : Nat) (x : Slice) : (s.setSlice k x).issued = s.issued := rfl
@[simp] theorem State.setSlice_freeCtr (s : State) (k : Nat) (x : Slice) : (s.setSlice k x).freeCtr = s.freeCtr := rfl
@[simp] theorem State.setSlice_tide (s : State) (k : Nat) (x : Slice) : (s.setSlice k x).tide = s.tide := rfl
@[simp] theorem State.setSlice_mem (s : State) (k : Nat) (x : Slice) : (s.setSlice k x).mem = s.mem := rfl
@[simp] theorem State.setSlice_poison (s : State) (k : Nat) (x : Slice) : (s.setSlice k x).poison = s.poison := rfl
@[simp] theorem State.setSlice_stalls (s : State) (k : Nat) (x : Slice) : (s.setSlice k x).stalls = s.stalls := rfl
@[simp] theorem State.setSlice_hostStale (s : State) (k : Nat) (x : Slice) : (s.setSlice k x).hostStale = s.hostStale := rfl
@[simp] theorem State.setSlice_hostRead (s : State) (k : Nat) (x : Slice) : (s.setSlice k x).hostRead = s.hostRead := rfl
@[simp] theorem State.setSlice_procs (s : State) (k : Nat) (x : Slice) : (s.setSlice k x).procs = s.procs := rfl
@[simp] theorem State.setSlice_cores (s : State) (k : Nat) (x : Slice) : (s.setSlice k x).cores = s.cores := rfl
@[simp] theorem State.setSlice_clusters (s : State) (k : Nat) (x : Slice) : (s.setSlice k x).clusters = s.clusters := rfl
@[simp] theorem State.setSlice_vfs (s : State) (k : Nat) (x : Slice) : (s.setSlice k x).vfs = s.vfs := rfl
@[simp] theorem State.setSlice_dumpQ (s : State) (k : Nat) (x : Slice) : (s.setSlice k x).dumpQ = s.dumpQ := rfl
@[simp] theorem State.setSlice_dumping (s : State) (k : Nat) (x : Slice) : (s.setSlice k x).dumping = s.dumping := rfl
@[simp] theorem State.setSlice_dumpSeq (s : State) (k : Nat) (x : Slice) : (s.setSlice k x).dumpSeq = s.dumpSeq := rfl
@[simp] theorem State.setSlice_devents (s : State) (k : Nat) (x : Slice) : (s.setSlice k x).devents = s.devents := rfl
@[simp] theorem State.setSlice_goingFull (s : State) (k : Nat) (x : Slice) : (s.setSlice k x).goingFull = s.goingFull := rfl
@[simp] theorem State.setSlice_kept (s : State) (k : Nat) (x : Slice) : (s.setSlice k x).kept = s.kept := rfl
@[simp] theorem State.setSlice_sealed (s : State) (k : Nat) (x : Slice) : (s.setSlice k x).sealed = s.sealed := rfl
@[simp] theorem State.setSlice_ports (s : State) (k : Nat) (x : Slice) : (s.setSlice k x).ports = s.ports := rfl
@[simp] theorem State.setSlice_switches (s : State) (k : Nat) (x : Slice) : (s.setSlice k x).switches = s.switches := rfl
@[simp] theorem State.setSlice_fab (s : State) (k : Nat) (x : Slice) : (s.setSlice k x).fab = s.fab := rfl
@[simp] theorem State.setSlice_boot (s : State) (k : Nat) (x : Slice) : (s.setSlice k x).boot = s.boot := rfl
@[simp] theorem State.setSlice_full (s : State) (k : Nat) (x : Slice) : (s.setSlice k x).full = s.full := rfl
@[simp] theorem State.setSlice_rrq (s : State) (k : Nat) (x : Slice) : (s.setSlice k x).rrq = s.rrq := rfl
@[simp] theorem State.setSlice_plim (s : State) (k : Nat) (x : Slice) : (s.setSlice k x).plim = s.plim := rfl
@[simp] theorem State.setSlice_cap (s : State) (k : Nat) (x : Slice) : (s.setSlice k x).cap = s.cap := rfl
@[simp] theorem State.setSlice_tmax (s : State) (k : Nat) (x : Slice) : (s.setSlice k x).tmax = s.tmax := rfl
@[simp] theorem State.setSlice_thermal (s : State) (k : Nat) (x : Slice) : (s.setSlice k x).thermal = s.thermal := rfl
@[simp] theorem State.setSlice_bstat (s : State) (k : Nat) (x : Slice) : (s.setSlice k x).bstat = s.bstat := rfl
@[simp] theorem State.setSlice_ecls (s : State) (k : Nat) (x : Slice) : (s.setSlice k x).ecls = s.ecls := rfl
@[simp] theorem State.setSlice_eidx (s : State) (k : Nat) (x : Slice) : (s.setSlice k x).eidx = s.eidx := rfl
@[simp] theorem State.setSlice_ectlErr (s : State) (k : Nat) (x : Slice) : (s.setSlice k x).ectlErr = s.ectlErr := rfl
@[simp] theorem State.setSlice_emaddr (s : State) (k : Nat) (x : Slice) : (s.setSlice k x).emaddr = s.emaddr := rfl
@[simp] theorem State.setSlice_efaults (s : State) (k : Nat) (x : Slice) : (s.setSlice k x).efaults = s.efaults := rfl
@[simp] theorem State.setSlice_efOvf (s : State) (k : Nat) (x : Slice) : (s.setSlice k x).efOvf = s.efOvf := rfl
@[simp] theorem State.setSlice_msix (s : State) (k : Nat) (x : Slice) : (s.setSlice k x).msix = s.msix := rfl
@[simp] theorem State.setSlice_pwd (s : State) (k : Nat) (x : Slice) : (s.setSlice k x).pwd = s.pwd := rfl
@[simp] theorem State.setSlice_fseg (s : State) (k : Nat) (x : Slice) : (s.setSlice k x).fseg = s.fseg := rfl
@[simp] theorem State.setSlice_launches (s : State) (k : Nat) (x : Slice) : (s.setSlice k x).launches = s.launches := rfl
@[simp] theorem State.setSlice_barriers (s : State) (k : Nat) (x : Slice) : (s.setSlice k x).barriers = s.barriers := rfl
@[simp] theorem State.setSlice_engines (s : State) (k : Nat) (x : Slice) : (s.setSlice k x).engines = s.engines := rfl
@[simp] theorem State.setSlice_fords (s : State) (k : Nat) (x : Slice) : (s.setSlice k x).fords = s.fords := rfl
@[simp] theorem State.setSlice_ttvs (s : State) (k : Nat) (x : Slice) : (s.setSlice k x).ttvs = s.ttvs := rfl
@[simp] theorem State.setSlice_pilots (s : State) (k : Nat) (x : Slice) : (s.setSlice k x).pilots = s.pilots := rfl
theorem State.setSlice_slices (s : State) (k : Nat) (x : Slice) : (s.setSlice k x).slices = s.slices.put k x := rfl
@[simp] theorem State.setSlice_same (s : State) (k : Nat) (x : Slice) : (s.setSlice k x).slice k = x := FMap.get_put_same _ _ _ _
theorem State.setSlice_other (s : State) (k : Nat) (x : Slice) {j : Nat} (h : j ≠ k) : (s.setSlice k x).slice j = s.slice j :=
  FMap.get_put_ne _ _ _ _ _ h
@[simp] theorem State.setSlice_proc (s : State) (k : Nat) (x : Slice) (j : Nat) : (s.setSlice k x).proc j = s.proc j := rfl
@[simp] theorem State.setSlice_core (s : State) (k : Nat) (x : Slice) (j : Nat) : (s.setSlice k x).core j = s.core j := rfl
@[simp] theorem State.setSlice_cluster (s : State) (k : Nat) (x : Slice) (j : Nat) : (s.setSlice k x).cluster j = s.cluster j := rfl
@[simp] theorem State.setSlice_vfOf (s : State) (k : Nat) (x : Slice) (j : Nat) : (s.setSlice k x).vfOf j = s.vfOf j := rfl
@[simp] theorem State.setSlice_port (s : State) (k : Nat) (x : Slice) (j : Nat) : (s.setSlice k x).port j = s.port j := rfl
@[simp] theorem State.setSlice_switch (s : State) (k : Nat) (x : Slice) (j : Nat) : (s.setSlice k x).switch j = s.switch j := rfl
@[simp] theorem State.setSlice_engine (s : State) (k : Nat) (x : Slice) (j : Nat) : (s.setSlice k x).engine j = s.engine j := rfl
@[simp] theorem State.setSlice_ford (s : State) (k : Nat) (x : Slice) (j : Nat) : (s.setSlice k x).ford j = s.ford j := rfl
@[simp] theorem State.setSlice_pilot (s : State) (k : Nat) (x : Slice) (j : Nat) : (s.setSlice k x).pilot j = s.pilot j := rfl
@[simp] theorem State.setSlice_byteAt (s : State) (k : Nat) (x : Slice) (a : Nat) : (s.setSlice k x).byteAt a = s.byteAt a := rfl

@[simp] theorem State.modSlice_agenda (s : State) (k : Nat) (f : Slice → Slice) : (s.modSlice k f).agenda = s.agenda := rfl
@[simp] theorem State.modSlice_inp (s : State) (k : Nat) (f : Slice → Slice) : (s.modSlice k f).inp = s.inp := rfl
@[simp] theorem State.modSlice_cur (s : State) (k : Nat) (f : Slice → Slice) : (s.modSlice k f).cur = s.cur := rfl
@[simp] theorem State.modSlice_issued (s : State) (k : Nat) (f : Slice → Slice) : (s.modSlice k f).issued = s.issued := rfl
@[simp] theorem State.modSlice_freeCtr (s : State) (k : Nat) (f : Slice → Slice) : (s.modSlice k f).freeCtr = s.freeCtr := rfl
@[simp] theorem State.modSlice_tide (s : State) (k : Nat) (f : Slice → Slice) : (s.modSlice k f).tide = s.tide := rfl
@[simp] theorem State.modSlice_mem (s : State) (k : Nat) (f : Slice → Slice) : (s.modSlice k f).mem = s.mem := rfl
@[simp] theorem State.modSlice_poison (s : State) (k : Nat) (f : Slice → Slice) : (s.modSlice k f).poison = s.poison := rfl
@[simp] theorem State.modSlice_stalls (s : State) (k : Nat) (f : Slice → Slice) : (s.modSlice k f).stalls = s.stalls := rfl
@[simp] theorem State.modSlice_hostStale (s : State) (k : Nat) (f : Slice → Slice) : (s.modSlice k f).hostStale = s.hostStale := rfl
@[simp] theorem State.modSlice_hostRead (s : State) (k : Nat) (f : Slice → Slice) : (s.modSlice k f).hostRead = s.hostRead := rfl
@[simp] theorem State.modSlice_procs (s : State) (k : Nat) (f : Slice → Slice) : (s.modSlice k f).procs = s.procs := rfl
@[simp] theorem State.modSlice_cores (s : State) (k : Nat) (f : Slice → Slice) : (s.modSlice k f).cores = s.cores := rfl
@[simp] theorem State.modSlice_clusters (s : State) (k : Nat) (f : Slice → Slice) : (s.modSlice k f).clusters = s.clusters := rfl
@[simp] theorem State.modSlice_vfs (s : State) (k : Nat) (f : Slice → Slice) : (s.modSlice k f).vfs = s.vfs := rfl
@[simp] theorem State.modSlice_dumpQ (s : State) (k : Nat) (f : Slice → Slice) : (s.modSlice k f).dumpQ = s.dumpQ := rfl
@[simp] theorem State.modSlice_dumping (s : State) (k : Nat) (f : Slice → Slice) : (s.modSlice k f).dumping = s.dumping := rfl
@[simp] theorem State.modSlice_dumpSeq (s : State) (k : Nat) (f : Slice → Slice) : (s.modSlice k f).dumpSeq = s.dumpSeq := rfl
@[simp] theorem State.modSlice_devents (s : State) (k : Nat) (f : Slice → Slice) : (s.modSlice k f).devents = s.devents := rfl
@[simp] theorem State.modSlice_goingFull (s : State) (k : Nat) (f : Slice → Slice) : (s.modSlice k f).goingFull = s.goingFull := rfl
@[simp] theorem State.modSlice_kept (s : State) (k : Nat) (f : Slice → Slice) : (s.modSlice k f).kept = s.kept := rfl
@[simp] theorem State.modSlice_sealed (s : State) (k : Nat) (f : Slice → Slice) : (s.modSlice k f).sealed = s.sealed := rfl
@[simp] theorem State.modSlice_ports (s : State) (k : Nat) (f : Slice → Slice) : (s.modSlice k f).ports = s.ports := rfl
@[simp] theorem State.modSlice_switches (s : State) (k : Nat) (f : Slice → Slice) : (s.modSlice k f).switches = s.switches := rfl
@[simp] theorem State.modSlice_fab (s : State) (k : Nat) (f : Slice → Slice) : (s.modSlice k f).fab = s.fab := rfl
@[simp] theorem State.modSlice_boot (s : State) (k : Nat) (f : Slice → Slice) : (s.modSlice k f).boot = s.boot := rfl
@[simp] theorem State.modSlice_full (s : State) (k : Nat) (f : Slice → Slice) : (s.modSlice k f).full = s.full := rfl
@[simp] theorem State.modSlice_rrq (s : State) (k : Nat) (f : Slice → Slice) : (s.modSlice k f).rrq = s.rrq := rfl
@[simp] theorem State.modSlice_plim (s : State) (k : Nat) (f : Slice → Slice) : (s.modSlice k f).plim = s.plim := rfl
@[simp] theorem State.modSlice_cap (s : State) (k : Nat) (f : Slice → Slice) : (s.modSlice k f).cap = s.cap := rfl
@[simp] theorem State.modSlice_tmax (s : State) (k : Nat) (f : Slice → Slice) : (s.modSlice k f).tmax = s.tmax := rfl
@[simp] theorem State.modSlice_thermal (s : State) (k : Nat) (f : Slice → Slice) : (s.modSlice k f).thermal = s.thermal := rfl
@[simp] theorem State.modSlice_bstat (s : State) (k : Nat) (f : Slice → Slice) : (s.modSlice k f).bstat = s.bstat := rfl
@[simp] theorem State.modSlice_ecls (s : State) (k : Nat) (f : Slice → Slice) : (s.modSlice k f).ecls = s.ecls := rfl
@[simp] theorem State.modSlice_eidx (s : State) (k : Nat) (f : Slice → Slice) : (s.modSlice k f).eidx = s.eidx := rfl
@[simp] theorem State.modSlice_ectlErr (s : State) (k : Nat) (f : Slice → Slice) : (s.modSlice k f).ectlErr = s.ectlErr := rfl
@[simp] theorem State.modSlice_emaddr (s : State) (k : Nat) (f : Slice → Slice) : (s.modSlice k f).emaddr = s.emaddr := rfl
@[simp] theorem State.modSlice_efaults (s : State) (k : Nat) (f : Slice → Slice) : (s.modSlice k f).efaults = s.efaults := rfl
@[simp] theorem State.modSlice_efOvf (s : State) (k : Nat) (f : Slice → Slice) : (s.modSlice k f).efOvf = s.efOvf := rfl
@[simp] theorem State.modSlice_msix (s : State) (k : Nat) (f : Slice → Slice) : (s.modSlice k f).msix = s.msix := rfl
@[simp] theorem State.modSlice_pwd (s : State) (k : Nat) (f : Slice → Slice) : (s.modSlice k f).pwd = s.pwd := rfl
@[simp] theorem State.modSlice_fseg (s : State) (k : Nat) (f : Slice → Slice) : (s.modSlice k f).fseg = s.fseg := rfl
@[simp] theorem State.modSlice_launches (s : State) (k : Nat) (f : Slice → Slice) : (s.modSlice k f).launches = s.launches := rfl
@[simp] theorem State.modSlice_barriers (s : State) (k : Nat) (f : Slice → Slice) : (s.modSlice k f).barriers = s.barriers := rfl
@[simp] theorem State.modSlice_engines (s : State) (k : Nat) (f : Slice → Slice) : (s.modSlice k f).engines = s.engines := rfl
@[simp] theorem State.modSlice_fords (s : State) (k : Nat) (f : Slice → Slice) : (s.modSlice k f).fords = s.fords := rfl
@[simp] theorem State.modSlice_ttvs (s : State) (k : Nat) (f : Slice → Slice) : (s.modSlice k f).ttvs = s.ttvs := rfl
@[simp] theorem State.modSlice_pilots (s : State) (k : Nat) (f : Slice → Slice) : (s.modSlice k f).pilots = s.pilots := rfl
theorem State.modSlice_slices (s : State) (k : Nat) (f : Slice → Slice) : (s.modSlice k f).slices = s.slices.put k (f (s.slice k)) := rfl
@[simp] theorem State.modSlice_same (s : State) (k : Nat) (f : Slice → Slice) : (s.modSlice k f).slice k = (f (s.slice k)) := FMap.get_put_same _ _ _ _
theorem State.modSlice_other (s : State) (k : Nat) (f : Slice → Slice) {j : Nat} (h : j ≠ k) : (s.modSlice k f).slice j = s.slice j :=
  FMap.get_put_ne _ _ _ _ _ h
@[simp] theorem State.modSlice_proc (s : State) (k : Nat) (f : Slice → Slice) (j : Nat) : (s.modSlice k f).proc j = s.proc j := rfl
@[simp] theorem State.modSlice_core (s : State) (k : Nat) (f : Slice → Slice) (j : Nat) : (s.modSlice k f).core j = s.core j := rfl
@[simp] theorem State.modSlice_cluster (s : State) (k : Nat) (f : Slice → Slice) (j : Nat) : (s.modSlice k f).cluster j = s.cluster j := rfl
@[simp] theorem State.modSlice_vfOf (s : State) (k : Nat) (f : Slice → Slice) (j : Nat) : (s.modSlice k f).vfOf j = s.vfOf j := rfl
@[simp] theorem State.modSlice_port (s : State) (k : Nat) (f : Slice → Slice) (j : Nat) : (s.modSlice k f).port j = s.port j := rfl
@[simp] theorem State.modSlice_switch (s : State) (k : Nat) (f : Slice → Slice) (j : Nat) : (s.modSlice k f).switch j = s.switch j := rfl
@[simp] theorem State.modSlice_engine (s : State) (k : Nat) (f : Slice → Slice) (j : Nat) : (s.modSlice k f).engine j = s.engine j := rfl
@[simp] theorem State.modSlice_ford (s : State) (k : Nat) (f : Slice → Slice) (j : Nat) : (s.modSlice k f).ford j = s.ford j := rfl
@[simp] theorem State.modSlice_pilot (s : State) (k : Nat) (f : Slice → Slice) (j : Nat) : (s.modSlice k f).pilot j = s.pilot j := rfl
@[simp] theorem State.modSlice_byteAt (s : State) (k : Nat) (f : Slice → Slice) (a : Nat) : (s.modSlice k f).byteAt a = s.byteAt a := rfl

/-! ### One Vf -/

@[simp] theorem State.setVf_agenda (s : State) (k : Nat) (x : Vf) : (s.setVf k x).agenda = s.agenda := rfl
@[simp] theorem State.setVf_inp (s : State) (k : Nat) (x : Vf) : (s.setVf k x).inp = s.inp := rfl
@[simp] theorem State.setVf_cur (s : State) (k : Nat) (x : Vf) : (s.setVf k x).cur = s.cur := rfl
@[simp] theorem State.setVf_issued (s : State) (k : Nat) (x : Vf) : (s.setVf k x).issued = s.issued := rfl
@[simp] theorem State.setVf_freeCtr (s : State) (k : Nat) (x : Vf) : (s.setVf k x).freeCtr = s.freeCtr := rfl
@[simp] theorem State.setVf_tide (s : State) (k : Nat) (x : Vf) : (s.setVf k x).tide = s.tide := rfl
@[simp] theorem State.setVf_mem (s : State) (k : Nat) (x : Vf) : (s.setVf k x).mem = s.mem := rfl
@[simp] theorem State.setVf_poison (s : State) (k : Nat) (x : Vf) : (s.setVf k x).poison = s.poison := rfl
@[simp] theorem State.setVf_stalls (s : State) (k : Nat) (x : Vf) : (s.setVf k x).stalls = s.stalls := rfl
@[simp] theorem State.setVf_hostStale (s : State) (k : Nat) (x : Vf) : (s.setVf k x).hostStale = s.hostStale := rfl
@[simp] theorem State.setVf_hostRead (s : State) (k : Nat) (x : Vf) : (s.setVf k x).hostRead = s.hostRead := rfl
@[simp] theorem State.setVf_procs (s : State) (k : Nat) (x : Vf) : (s.setVf k x).procs = s.procs := rfl
@[simp] theorem State.setVf_cores (s : State) (k : Nat) (x : Vf) : (s.setVf k x).cores = s.cores := rfl
@[simp] theorem State.setVf_clusters (s : State) (k : Nat) (x : Vf) : (s.setVf k x).clusters = s.clusters := rfl
@[simp] theorem State.setVf_slices (s : State) (k : Nat) (x : Vf) : (s.setVf k x).slices = s.slices := rfl
@[simp] theorem State.setVf_dumpQ (s : State) (k : Nat) (x : Vf) : (s.setVf k x).dumpQ = s.dumpQ := rfl
@[simp] theorem State.setVf_dumping (s : State) (k : Nat) (x : Vf) : (s.setVf k x).dumping = s.dumping := rfl
@[simp] theorem State.setVf_dumpSeq (s : State) (k : Nat) (x : Vf) : (s.setVf k x).dumpSeq = s.dumpSeq := rfl
@[simp] theorem State.setVf_devents (s : State) (k : Nat) (x : Vf) : (s.setVf k x).devents = s.devents := rfl
@[simp] theorem State.setVf_goingFull (s : State) (k : Nat) (x : Vf) : (s.setVf k x).goingFull = s.goingFull := rfl
@[simp] theorem State.setVf_kept (s : State) (k : Nat) (x : Vf) : (s.setVf k x).kept = s.kept := rfl
@[simp] theorem State.setVf_sealed (s : State) (k : Nat) (x : Vf) : (s.setVf k x).sealed = s.sealed := rfl
@[simp] theorem State.setVf_ports (s : State) (k : Nat) (x : Vf) : (s.setVf k x).ports = s.ports := rfl
@[simp] theorem State.setVf_switches (s : State) (k : Nat) (x : Vf) : (s.setVf k x).switches = s.switches := rfl
@[simp] theorem State.setVf_fab (s : State) (k : Nat) (x : Vf) : (s.setVf k x).fab = s.fab := rfl
@[simp] theorem State.setVf_boot (s : State) (k : Nat) (x : Vf) : (s.setVf k x).boot = s.boot := rfl
@[simp] theorem State.setVf_full (s : State) (k : Nat) (x : Vf) : (s.setVf k x).full = s.full := rfl
@[simp] theorem State.setVf_rrq (s : State) (k : Nat) (x : Vf) : (s.setVf k x).rrq = s.rrq := rfl
@[simp] theorem State.setVf_plim (s : State) (k : Nat) (x : Vf) : (s.setVf k x).plim = s.plim := rfl
@[simp] theorem State.setVf_cap (s : State) (k : Nat) (x : Vf) : (s.setVf k x).cap = s.cap := rfl
@[simp] theorem State.setVf_tmax (s : State) (k : Nat) (x : Vf) : (s.setVf k x).tmax = s.tmax := rfl
@[simp] theorem State.setVf_thermal (s : State) (k : Nat) (x : Vf) : (s.setVf k x).thermal = s.thermal := rfl
@[simp] theorem State.setVf_bstat (s : State) (k : Nat) (x : Vf) : (s.setVf k x).bstat = s.bstat := rfl
@[simp] theorem State.setVf_ecls (s : State) (k : Nat) (x : Vf) : (s.setVf k x).ecls = s.ecls := rfl
@[simp] theorem State.setVf_eidx (s : State) (k : Nat) (x : Vf) : (s.setVf k x).eidx = s.eidx := rfl
@[simp] theorem State.setVf_ectlErr (s : State) (k : Nat) (x : Vf) : (s.setVf k x).ectlErr = s.ectlErr := rfl
@[simp] theorem State.setVf_emaddr (s : State) (k : Nat) (x : Vf) : (s.setVf k x).emaddr = s.emaddr := rfl
@[simp] theorem State.setVf_efaults (s : State) (k : Nat) (x : Vf) : (s.setVf k x).efaults = s.efaults := rfl
@[simp] theorem State.setVf_efOvf (s : State) (k : Nat) (x : Vf) : (s.setVf k x).efOvf = s.efOvf := rfl
@[simp] theorem State.setVf_msix (s : State) (k : Nat) (x : Vf) : (s.setVf k x).msix = s.msix := rfl
@[simp] theorem State.setVf_pwd (s : State) (k : Nat) (x : Vf) : (s.setVf k x).pwd = s.pwd := rfl
@[simp] theorem State.setVf_fseg (s : State) (k : Nat) (x : Vf) : (s.setVf k x).fseg = s.fseg := rfl
@[simp] theorem State.setVf_launches (s : State) (k : Nat) (x : Vf) : (s.setVf k x).launches = s.launches := rfl
@[simp] theorem State.setVf_barriers (s : State) (k : Nat) (x : Vf) : (s.setVf k x).barriers = s.barriers := rfl
@[simp] theorem State.setVf_engines (s : State) (k : Nat) (x : Vf) : (s.setVf k x).engines = s.engines := rfl
@[simp] theorem State.setVf_fords (s : State) (k : Nat) (x : Vf) : (s.setVf k x).fords = s.fords := rfl
@[simp] theorem State.setVf_ttvs (s : State) (k : Nat) (x : Vf) : (s.setVf k x).ttvs = s.ttvs := rfl
@[simp] theorem State.setVf_pilots (s : State) (k : Nat) (x : Vf) : (s.setVf k x).pilots = s.pilots := rfl
theorem State.setVf_vfs (s : State) (k : Nat) (x : Vf) : (s.setVf k x).vfs = s.vfs.put k x := rfl
@[simp] theorem State.setVf_same (s : State) (k : Nat) (x : Vf) : (s.setVf k x).vfOf k = x := FMap.get_put_same _ _ _ _
theorem State.setVf_other (s : State) (k : Nat) (x : Vf) {j : Nat} (h : j ≠ k) : (s.setVf k x).vfOf j = s.vfOf j :=
  FMap.get_put_ne _ _ _ _ _ h
@[simp] theorem State.setVf_proc (s : State) (k : Nat) (x : Vf) (j : Nat) : (s.setVf k x).proc j = s.proc j := rfl
@[simp] theorem State.setVf_core (s : State) (k : Nat) (x : Vf) (j : Nat) : (s.setVf k x).core j = s.core j := rfl
@[simp] theorem State.setVf_cluster (s : State) (k : Nat) (x : Vf) (j : Nat) : (s.setVf k x).cluster j = s.cluster j := rfl
@[simp] theorem State.setVf_slice (s : State) (k : Nat) (x : Vf) (j : Nat) : (s.setVf k x).slice j = s.slice j := rfl
@[simp] theorem State.setVf_port (s : State) (k : Nat) (x : Vf) (j : Nat) : (s.setVf k x).port j = s.port j := rfl
@[simp] theorem State.setVf_switch (s : State) (k : Nat) (x : Vf) (j : Nat) : (s.setVf k x).switch j = s.switch j := rfl
@[simp] theorem State.setVf_engine (s : State) (k : Nat) (x : Vf) (j : Nat) : (s.setVf k x).engine j = s.engine j := rfl
@[simp] theorem State.setVf_ford (s : State) (k : Nat) (x : Vf) (j : Nat) : (s.setVf k x).ford j = s.ford j := rfl
@[simp] theorem State.setVf_pilot (s : State) (k : Nat) (x : Vf) (j : Nat) : (s.setVf k x).pilot j = s.pilot j := rfl
@[simp] theorem State.setVf_byteAt (s : State) (k : Nat) (x : Vf) (a : Nat) : (s.setVf k x).byteAt a = s.byteAt a := rfl

@[simp] theorem State.modVf_agenda (s : State) (k : Nat) (f : Vf → Vf) : (s.modVf k f).agenda = s.agenda := rfl
@[simp] theorem State.modVf_inp (s : State) (k : Nat) (f : Vf → Vf) : (s.modVf k f).inp = s.inp := rfl
@[simp] theorem State.modVf_cur (s : State) (k : Nat) (f : Vf → Vf) : (s.modVf k f).cur = s.cur := rfl
@[simp] theorem State.modVf_issued (s : State) (k : Nat) (f : Vf → Vf) : (s.modVf k f).issued = s.issued := rfl
@[simp] theorem State.modVf_freeCtr (s : State) (k : Nat) (f : Vf → Vf) : (s.modVf k f).freeCtr = s.freeCtr := rfl
@[simp] theorem State.modVf_tide (s : State) (k : Nat) (f : Vf → Vf) : (s.modVf k f).tide = s.tide := rfl
@[simp] theorem State.modVf_mem (s : State) (k : Nat) (f : Vf → Vf) : (s.modVf k f).mem = s.mem := rfl
@[simp] theorem State.modVf_poison (s : State) (k : Nat) (f : Vf → Vf) : (s.modVf k f).poison = s.poison := rfl
@[simp] theorem State.modVf_stalls (s : State) (k : Nat) (f : Vf → Vf) : (s.modVf k f).stalls = s.stalls := rfl
@[simp] theorem State.modVf_hostStale (s : State) (k : Nat) (f : Vf → Vf) : (s.modVf k f).hostStale = s.hostStale := rfl
@[simp] theorem State.modVf_hostRead (s : State) (k : Nat) (f : Vf → Vf) : (s.modVf k f).hostRead = s.hostRead := rfl
@[simp] theorem State.modVf_procs (s : State) (k : Nat) (f : Vf → Vf) : (s.modVf k f).procs = s.procs := rfl
@[simp] theorem State.modVf_cores (s : State) (k : Nat) (f : Vf → Vf) : (s.modVf k f).cores = s.cores := rfl
@[simp] theorem State.modVf_clusters (s : State) (k : Nat) (f : Vf → Vf) : (s.modVf k f).clusters = s.clusters := rfl
@[simp] theorem State.modVf_slices (s : State) (k : Nat) (f : Vf → Vf) : (s.modVf k f).slices = s.slices := rfl
@[simp] theorem State.modVf_dumpQ (s : State) (k : Nat) (f : Vf → Vf) : (s.modVf k f).dumpQ = s.dumpQ := rfl
@[simp] theorem State.modVf_dumping (s : State) (k : Nat) (f : Vf → Vf) : (s.modVf k f).dumping = s.dumping := rfl
@[simp] theorem State.modVf_dumpSeq (s : State) (k : Nat) (f : Vf → Vf) : (s.modVf k f).dumpSeq = s.dumpSeq := rfl
@[simp] theorem State.modVf_devents (s : State) (k : Nat) (f : Vf → Vf) : (s.modVf k f).devents = s.devents := rfl
@[simp] theorem State.modVf_goingFull (s : State) (k : Nat) (f : Vf → Vf) : (s.modVf k f).goingFull = s.goingFull := rfl
@[simp] theorem State.modVf_kept (s : State) (k : Nat) (f : Vf → Vf) : (s.modVf k f).kept = s.kept := rfl
@[simp] theorem State.modVf_sealed (s : State) (k : Nat) (f : Vf → Vf) : (s.modVf k f).sealed = s.sealed := rfl
@[simp] theorem State.modVf_ports (s : State) (k : Nat) (f : Vf → Vf) : (s.modVf k f).ports = s.ports := rfl
@[simp] theorem State.modVf_switches (s : State) (k : Nat) (f : Vf → Vf) : (s.modVf k f).switches = s.switches := rfl
@[simp] theorem State.modVf_fab (s : State) (k : Nat) (f : Vf → Vf) : (s.modVf k f).fab = s.fab := rfl
@[simp] theorem State.modVf_boot (s : State) (k : Nat) (f : Vf → Vf) : (s.modVf k f).boot = s.boot := rfl
@[simp] theorem State.modVf_full (s : State) (k : Nat) (f : Vf → Vf) : (s.modVf k f).full = s.full := rfl
@[simp] theorem State.modVf_rrq (s : State) (k : Nat) (f : Vf → Vf) : (s.modVf k f).rrq = s.rrq := rfl
@[simp] theorem State.modVf_plim (s : State) (k : Nat) (f : Vf → Vf) : (s.modVf k f).plim = s.plim := rfl
@[simp] theorem State.modVf_cap (s : State) (k : Nat) (f : Vf → Vf) : (s.modVf k f).cap = s.cap := rfl
@[simp] theorem State.modVf_tmax (s : State) (k : Nat) (f : Vf → Vf) : (s.modVf k f).tmax = s.tmax := rfl
@[simp] theorem State.modVf_thermal (s : State) (k : Nat) (f : Vf → Vf) : (s.modVf k f).thermal = s.thermal := rfl
@[simp] theorem State.modVf_bstat (s : State) (k : Nat) (f : Vf → Vf) : (s.modVf k f).bstat = s.bstat := rfl
@[simp] theorem State.modVf_ecls (s : State) (k : Nat) (f : Vf → Vf) : (s.modVf k f).ecls = s.ecls := rfl
@[simp] theorem State.modVf_eidx (s : State) (k : Nat) (f : Vf → Vf) : (s.modVf k f).eidx = s.eidx := rfl
@[simp] theorem State.modVf_ectlErr (s : State) (k : Nat) (f : Vf → Vf) : (s.modVf k f).ectlErr = s.ectlErr := rfl
@[simp] theorem State.modVf_emaddr (s : State) (k : Nat) (f : Vf → Vf) : (s.modVf k f).emaddr = s.emaddr := rfl
@[simp] theorem State.modVf_efaults (s : State) (k : Nat) (f : Vf → Vf) : (s.modVf k f).efaults = s.efaults := rfl
@[simp] theorem State.modVf_efOvf (s : State) (k : Nat) (f : Vf → Vf) : (s.modVf k f).efOvf = s.efOvf := rfl
@[simp] theorem State.modVf_msix (s : State) (k : Nat) (f : Vf → Vf) : (s.modVf k f).msix = s.msix := rfl
@[simp] theorem State.modVf_pwd (s : State) (k : Nat) (f : Vf → Vf) : (s.modVf k f).pwd = s.pwd := rfl
@[simp] theorem State.modVf_fseg (s : State) (k : Nat) (f : Vf → Vf) : (s.modVf k f).fseg = s.fseg := rfl
@[simp] theorem State.modVf_launches (s : State) (k : Nat) (f : Vf → Vf) : (s.modVf k f).launches = s.launches := rfl
@[simp] theorem State.modVf_barriers (s : State) (k : Nat) (f : Vf → Vf) : (s.modVf k f).barriers = s.barriers := rfl
@[simp] theorem State.modVf_engines (s : State) (k : Nat) (f : Vf → Vf) : (s.modVf k f).engines = s.engines := rfl
@[simp] theorem State.modVf_fords (s : State) (k : Nat) (f : Vf → Vf) : (s.modVf k f).fords = s.fords := rfl
@[simp] theorem State.modVf_ttvs (s : State) (k : Nat) (f : Vf → Vf) : (s.modVf k f).ttvs = s.ttvs := rfl
@[simp] theorem State.modVf_pilots (s : State) (k : Nat) (f : Vf → Vf) : (s.modVf k f).pilots = s.pilots := rfl
theorem State.modVf_vfs (s : State) (k : Nat) (f : Vf → Vf) : (s.modVf k f).vfs = s.vfs.put k (f (s.vfOf k)) := rfl
@[simp] theorem State.modVf_same (s : State) (k : Nat) (f : Vf → Vf) : (s.modVf k f).vfOf k = (f (s.vfOf k)) := FMap.get_put_same _ _ _ _
theorem State.modVf_other (s : State) (k : Nat) (f : Vf → Vf) {j : Nat} (h : j ≠ k) : (s.modVf k f).vfOf j = s.vfOf j :=
  FMap.get_put_ne _ _ _ _ _ h
@[simp] theorem State.modVf_proc (s : State) (k : Nat) (f : Vf → Vf) (j : Nat) : (s.modVf k f).proc j = s.proc j := rfl
@[simp] theorem State.modVf_core (s : State) (k : Nat) (f : Vf → Vf) (j : Nat) : (s.modVf k f).core j = s.core j := rfl
@[simp] theorem State.modVf_cluster (s : State) (k : Nat) (f : Vf → Vf) (j : Nat) : (s.modVf k f).cluster j = s.cluster j := rfl
@[simp] theorem State.modVf_slice (s : State) (k : Nat) (f : Vf → Vf) (j : Nat) : (s.modVf k f).slice j = s.slice j := rfl
@[simp] theorem State.modVf_port (s : State) (k : Nat) (f : Vf → Vf) (j : Nat) : (s.modVf k f).port j = s.port j := rfl
@[simp] theorem State.modVf_switch (s : State) (k : Nat) (f : Vf → Vf) (j : Nat) : (s.modVf k f).switch j = s.switch j := rfl
@[simp] theorem State.modVf_engine (s : State) (k : Nat) (f : Vf → Vf) (j : Nat) : (s.modVf k f).engine j = s.engine j := rfl
@[simp] theorem State.modVf_ford (s : State) (k : Nat) (f : Vf → Vf) (j : Nat) : (s.modVf k f).ford j = s.ford j := rfl
@[simp] theorem State.modVf_pilot (s : State) (k : Nat) (f : Vf → Vf) (j : Nat) : (s.modVf k f).pilot j = s.pilot j := rfl
@[simp] theorem State.modVf_byteAt (s : State) (k : Nat) (f : Vf → Vf) (a : Nat) : (s.modVf k f).byteAt a = s.byteAt a := rfl

/-! ### One LinkPort -/

@[simp] theorem State.modPort_agenda (s : State) (k : Nat) (f : LinkPort → LinkPort) : (s.modPort k f).agenda = s.agenda := rfl
@[simp] theorem State.modPort_inp (s : State) (k : Nat) (f : LinkPort → LinkPort) : (s.modPort k f).inp = s.inp := rfl
@[simp] theorem State.modPort_cur (s : State) (k : Nat) (f : LinkPort → LinkPort) : (s.modPort k f).cur = s.cur := rfl
@[simp] theorem State.modPort_issued (s : State) (k : Nat) (f : LinkPort → LinkPort) : (s.modPort k f).issued = s.issued := rfl
@[simp] theorem State.modPort_freeCtr (s : State) (k : Nat) (f : LinkPort → LinkPort) : (s.modPort k f).freeCtr = s.freeCtr := rfl
@[simp] theorem State.modPort_tide (s : State) (k : Nat) (f : LinkPort → LinkPort) : (s.modPort k f).tide = s.tide := rfl
@[simp] theorem State.modPort_mem (s : State) (k : Nat) (f : LinkPort → LinkPort) : (s.modPort k f).mem = s.mem := rfl
@[simp] theorem State.modPort_poison (s : State) (k : Nat) (f : LinkPort → LinkPort) : (s.modPort k f).poison = s.poison := rfl
@[simp] theorem State.modPort_stalls (s : State) (k : Nat) (f : LinkPort → LinkPort) : (s.modPort k f).stalls = s.stalls := rfl
@[simp] theorem State.modPort_hostStale (s : State) (k : Nat) (f : LinkPort → LinkPort) : (s.modPort k f).hostStale = s.hostStale := rfl
@[simp] theorem State.modPort_hostRead (s : State) (k : Nat) (f : LinkPort → LinkPort) : (s.modPort k f).hostRead = s.hostRead := rfl
@[simp] theorem State.modPort_procs (s : State) (k : Nat) (f : LinkPort → LinkPort) : (s.modPort k f).procs = s.procs := rfl
@[simp] theorem State.modPort_cores (s : State) (k : Nat) (f : LinkPort → LinkPort) : (s.modPort k f).cores = s.cores := rfl
@[simp] theorem State.modPort_clusters (s : State) (k : Nat) (f : LinkPort → LinkPort) : (s.modPort k f).clusters = s.clusters := rfl
@[simp] theorem State.modPort_slices (s : State) (k : Nat) (f : LinkPort → LinkPort) : (s.modPort k f).slices = s.slices := rfl
@[simp] theorem State.modPort_vfs (s : State) (k : Nat) (f : LinkPort → LinkPort) : (s.modPort k f).vfs = s.vfs := rfl
@[simp] theorem State.modPort_dumpQ (s : State) (k : Nat) (f : LinkPort → LinkPort) : (s.modPort k f).dumpQ = s.dumpQ := rfl
@[simp] theorem State.modPort_dumping (s : State) (k : Nat) (f : LinkPort → LinkPort) : (s.modPort k f).dumping = s.dumping := rfl
@[simp] theorem State.modPort_dumpSeq (s : State) (k : Nat) (f : LinkPort → LinkPort) : (s.modPort k f).dumpSeq = s.dumpSeq := rfl
@[simp] theorem State.modPort_devents (s : State) (k : Nat) (f : LinkPort → LinkPort) : (s.modPort k f).devents = s.devents := rfl
@[simp] theorem State.modPort_goingFull (s : State) (k : Nat) (f : LinkPort → LinkPort) : (s.modPort k f).goingFull = s.goingFull := rfl
@[simp] theorem State.modPort_kept (s : State) (k : Nat) (f : LinkPort → LinkPort) : (s.modPort k f).kept = s.kept := rfl
@[simp] theorem State.modPort_sealed (s : State) (k : Nat) (f : LinkPort → LinkPort) : (s.modPort k f).sealed = s.sealed := rfl
@[simp] theorem State.modPort_switches (s : State) (k : Nat) (f : LinkPort → LinkPort) : (s.modPort k f).switches = s.switches := rfl
@[simp] theorem State.modPort_fab (s : State) (k : Nat) (f : LinkPort → LinkPort) : (s.modPort k f).fab = s.fab := rfl
@[simp] theorem State.modPort_boot (s : State) (k : Nat) (f : LinkPort → LinkPort) : (s.modPort k f).boot = s.boot := rfl
@[simp] theorem State.modPort_full (s : State) (k : Nat) (f : LinkPort → LinkPort) : (s.modPort k f).full = s.full := rfl
@[simp] theorem State.modPort_rrq (s : State) (k : Nat) (f : LinkPort → LinkPort) : (s.modPort k f).rrq = s.rrq := rfl
@[simp] theorem State.modPort_plim (s : State) (k : Nat) (f : LinkPort → LinkPort) : (s.modPort k f).plim = s.plim := rfl
@[simp] theorem State.modPort_cap (s : State) (k : Nat) (f : LinkPort → LinkPort) : (s.modPort k f).cap = s.cap := rfl
@[simp] theorem State.modPort_tmax (s : State) (k : Nat) (f : LinkPort → LinkPort) : (s.modPort k f).tmax = s.tmax := rfl
@[simp] theorem State.modPort_thermal (s : State) (k : Nat) (f : LinkPort → LinkPort) : (s.modPort k f).thermal = s.thermal := rfl
@[simp] theorem State.modPort_bstat (s : State) (k : Nat) (f : LinkPort → LinkPort) : (s.modPort k f).bstat = s.bstat := rfl
@[simp] theorem State.modPort_ecls (s : State) (k : Nat) (f : LinkPort → LinkPort) : (s.modPort k f).ecls = s.ecls := rfl
@[simp] theorem State.modPort_eidx (s : State) (k : Nat) (f : LinkPort → LinkPort) : (s.modPort k f).eidx = s.eidx := rfl
@[simp] theorem State.modPort_ectlErr (s : State) (k : Nat) (f : LinkPort → LinkPort) : (s.modPort k f).ectlErr = s.ectlErr := rfl
@[simp] theorem State.modPort_emaddr (s : State) (k : Nat) (f : LinkPort → LinkPort) : (s.modPort k f).emaddr = s.emaddr := rfl
@[simp] theorem State.modPort_efaults (s : State) (k : Nat) (f : LinkPort → LinkPort) : (s.modPort k f).efaults = s.efaults := rfl
@[simp] theorem State.modPort_efOvf (s : State) (k : Nat) (f : LinkPort → LinkPort) : (s.modPort k f).efOvf = s.efOvf := rfl
@[simp] theorem State.modPort_msix (s : State) (k : Nat) (f : LinkPort → LinkPort) : (s.modPort k f).msix = s.msix := rfl
@[simp] theorem State.modPort_pwd (s : State) (k : Nat) (f : LinkPort → LinkPort) : (s.modPort k f).pwd = s.pwd := rfl
@[simp] theorem State.modPort_fseg (s : State) (k : Nat) (f : LinkPort → LinkPort) : (s.modPort k f).fseg = s.fseg := rfl
@[simp] theorem State.modPort_launches (s : State) (k : Nat) (f : LinkPort → LinkPort) : (s.modPort k f).launches = s.launches := rfl
@[simp] theorem State.modPort_barriers (s : State) (k : Nat) (f : LinkPort → LinkPort) : (s.modPort k f).barriers = s.barriers := rfl
@[simp] theorem State.modPort_engines (s : State) (k : Nat) (f : LinkPort → LinkPort) : (s.modPort k f).engines = s.engines := rfl
@[simp] theorem State.modPort_fords (s : State) (k : Nat) (f : LinkPort → LinkPort) : (s.modPort k f).fords = s.fords := rfl
@[simp] theorem State.modPort_ttvs (s : State) (k : Nat) (f : LinkPort → LinkPort) : (s.modPort k f).ttvs = s.ttvs := rfl
@[simp] theorem State.modPort_pilots (s : State) (k : Nat) (f : LinkPort → LinkPort) : (s.modPort k f).pilots = s.pilots := rfl
theorem State.modPort_ports (s : State) (k : Nat) (f : LinkPort → LinkPort) : (s.modPort k f).ports = s.ports.put k (f (s.port k)) := rfl
@[simp] theorem State.modPort_same (s : State) (k : Nat) (f : LinkPort → LinkPort) : (s.modPort k f).port k = (f (s.port k)) := FMap.get_put_same _ _ _ _
theorem State.modPort_other (s : State) (k : Nat) (f : LinkPort → LinkPort) {j : Nat} (h : j ≠ k) : (s.modPort k f).port j = s.port j :=
  FMap.get_put_ne _ _ _ _ _ h
@[simp] theorem State.modPort_proc (s : State) (k : Nat) (f : LinkPort → LinkPort) (j : Nat) : (s.modPort k f).proc j = s.proc j := rfl
@[simp] theorem State.modPort_core (s : State) (k : Nat) (f : LinkPort → LinkPort) (j : Nat) : (s.modPort k f).core j = s.core j := rfl
@[simp] theorem State.modPort_cluster (s : State) (k : Nat) (f : LinkPort → LinkPort) (j : Nat) : (s.modPort k f).cluster j = s.cluster j := rfl
@[simp] theorem State.modPort_slice (s : State) (k : Nat) (f : LinkPort → LinkPort) (j : Nat) : (s.modPort k f).slice j = s.slice j := rfl
@[simp] theorem State.modPort_vfOf (s : State) (k : Nat) (f : LinkPort → LinkPort) (j : Nat) : (s.modPort k f).vfOf j = s.vfOf j := rfl
@[simp] theorem State.modPort_switch (s : State) (k : Nat) (f : LinkPort → LinkPort) (j : Nat) : (s.modPort k f).switch j = s.switch j := rfl
@[simp] theorem State.modPort_engine (s : State) (k : Nat) (f : LinkPort → LinkPort) (j : Nat) : (s.modPort k f).engine j = s.engine j := rfl
@[simp] theorem State.modPort_ford (s : State) (k : Nat) (f : LinkPort → LinkPort) (j : Nat) : (s.modPort k f).ford j = s.ford j := rfl
@[simp] theorem State.modPort_pilot (s : State) (k : Nat) (f : LinkPort → LinkPort) (j : Nat) : (s.modPort k f).pilot j = s.pilot j := rfl
@[simp] theorem State.modPort_byteAt (s : State) (k : Nat) (f : LinkPort → LinkPort) (a : Nat) : (s.modPort k f).byteAt a = s.byteAt a := rfl

/-! ### One Switch -/

@[simp] theorem State.modSwitch_agenda (s : State) (k : Nat) (f : Switch → Switch) : (s.modSwitch k f).agenda = s.agenda := rfl
@[simp] theorem State.modSwitch_inp (s : State) (k : Nat) (f : Switch → Switch) : (s.modSwitch k f).inp = s.inp := rfl
@[simp] theorem State.modSwitch_cur (s : State) (k : Nat) (f : Switch → Switch) : (s.modSwitch k f).cur = s.cur := rfl
@[simp] theorem State.modSwitch_issued (s : State) (k : Nat) (f : Switch → Switch) : (s.modSwitch k f).issued = s.issued := rfl
@[simp] theorem State.modSwitch_freeCtr (s : State) (k : Nat) (f : Switch → Switch) : (s.modSwitch k f).freeCtr = s.freeCtr := rfl
@[simp] theorem State.modSwitch_tide (s : State) (k : Nat) (f : Switch → Switch) : (s.modSwitch k f).tide = s.tide := rfl
@[simp] theorem State.modSwitch_mem (s : State) (k : Nat) (f : Switch → Switch) : (s.modSwitch k f).mem = s.mem := rfl
@[simp] theorem State.modSwitch_poison (s : State) (k : Nat) (f : Switch → Switch) : (s.modSwitch k f).poison = s.poison := rfl
@[simp] theorem State.modSwitch_stalls (s : State) (k : Nat) (f : Switch → Switch) : (s.modSwitch k f).stalls = s.stalls := rfl
@[simp] theorem State.modSwitch_hostStale (s : State) (k : Nat) (f : Switch → Switch) : (s.modSwitch k f).hostStale = s.hostStale := rfl
@[simp] theorem State.modSwitch_hostRead (s : State) (k : Nat) (f : Switch → Switch) : (s.modSwitch k f).hostRead = s.hostRead := rfl
@[simp] theorem State.modSwitch_procs (s : State) (k : Nat) (f : Switch → Switch) : (s.modSwitch k f).procs = s.procs := rfl
@[simp] theorem State.modSwitch_cores (s : State) (k : Nat) (f : Switch → Switch) : (s.modSwitch k f).cores = s.cores := rfl
@[simp] theorem State.modSwitch_clusters (s : State) (k : Nat) (f : Switch → Switch) : (s.modSwitch k f).clusters = s.clusters := rfl
@[simp] theorem State.modSwitch_slices (s : State) (k : Nat) (f : Switch → Switch) : (s.modSwitch k f).slices = s.slices := rfl
@[simp] theorem State.modSwitch_vfs (s : State) (k : Nat) (f : Switch → Switch) : (s.modSwitch k f).vfs = s.vfs := rfl
@[simp] theorem State.modSwitch_dumpQ (s : State) (k : Nat) (f : Switch → Switch) : (s.modSwitch k f).dumpQ = s.dumpQ := rfl
@[simp] theorem State.modSwitch_dumping (s : State) (k : Nat) (f : Switch → Switch) : (s.modSwitch k f).dumping = s.dumping := rfl
@[simp] theorem State.modSwitch_dumpSeq (s : State) (k : Nat) (f : Switch → Switch) : (s.modSwitch k f).dumpSeq = s.dumpSeq := rfl
@[simp] theorem State.modSwitch_devents (s : State) (k : Nat) (f : Switch → Switch) : (s.modSwitch k f).devents = s.devents := rfl
@[simp] theorem State.modSwitch_goingFull (s : State) (k : Nat) (f : Switch → Switch) : (s.modSwitch k f).goingFull = s.goingFull := rfl
@[simp] theorem State.modSwitch_kept (s : State) (k : Nat) (f : Switch → Switch) : (s.modSwitch k f).kept = s.kept := rfl
@[simp] theorem State.modSwitch_sealed (s : State) (k : Nat) (f : Switch → Switch) : (s.modSwitch k f).sealed = s.sealed := rfl
@[simp] theorem State.modSwitch_ports (s : State) (k : Nat) (f : Switch → Switch) : (s.modSwitch k f).ports = s.ports := rfl
@[simp] theorem State.modSwitch_fab (s : State) (k : Nat) (f : Switch → Switch) : (s.modSwitch k f).fab = s.fab := rfl
@[simp] theorem State.modSwitch_boot (s : State) (k : Nat) (f : Switch → Switch) : (s.modSwitch k f).boot = s.boot := rfl
@[simp] theorem State.modSwitch_full (s : State) (k : Nat) (f : Switch → Switch) : (s.modSwitch k f).full = s.full := rfl
@[simp] theorem State.modSwitch_rrq (s : State) (k : Nat) (f : Switch → Switch) : (s.modSwitch k f).rrq = s.rrq := rfl
@[simp] theorem State.modSwitch_plim (s : State) (k : Nat) (f : Switch → Switch) : (s.modSwitch k f).plim = s.plim := rfl
@[simp] theorem State.modSwitch_cap (s : State) (k : Nat) (f : Switch → Switch) : (s.modSwitch k f).cap = s.cap := rfl
@[simp] theorem State.modSwitch_tmax (s : State) (k : Nat) (f : Switch → Switch) : (s.modSwitch k f).tmax = s.tmax := rfl
@[simp] theorem State.modSwitch_thermal (s : State) (k : Nat) (f : Switch → Switch) : (s.modSwitch k f).thermal = s.thermal := rfl
@[simp] theorem State.modSwitch_bstat (s : State) (k : Nat) (f : Switch → Switch) : (s.modSwitch k f).bstat = s.bstat := rfl
@[simp] theorem State.modSwitch_ecls (s : State) (k : Nat) (f : Switch → Switch) : (s.modSwitch k f).ecls = s.ecls := rfl
@[simp] theorem State.modSwitch_eidx (s : State) (k : Nat) (f : Switch → Switch) : (s.modSwitch k f).eidx = s.eidx := rfl
@[simp] theorem State.modSwitch_ectlErr (s : State) (k : Nat) (f : Switch → Switch) : (s.modSwitch k f).ectlErr = s.ectlErr := rfl
@[simp] theorem State.modSwitch_emaddr (s : State) (k : Nat) (f : Switch → Switch) : (s.modSwitch k f).emaddr = s.emaddr := rfl
@[simp] theorem State.modSwitch_efaults (s : State) (k : Nat) (f : Switch → Switch) : (s.modSwitch k f).efaults = s.efaults := rfl
@[simp] theorem State.modSwitch_efOvf (s : State) (k : Nat) (f : Switch → Switch) : (s.modSwitch k f).efOvf = s.efOvf := rfl
@[simp] theorem State.modSwitch_msix (s : State) (k : Nat) (f : Switch → Switch) : (s.modSwitch k f).msix = s.msix := rfl
@[simp] theorem State.modSwitch_pwd (s : State) (k : Nat) (f : Switch → Switch) : (s.modSwitch k f).pwd = s.pwd := rfl
@[simp] theorem State.modSwitch_fseg (s : State) (k : Nat) (f : Switch → Switch) : (s.modSwitch k f).fseg = s.fseg := rfl
@[simp] theorem State.modSwitch_launches (s : State) (k : Nat) (f : Switch → Switch) : (s.modSwitch k f).launches = s.launches := rfl
@[simp] theorem State.modSwitch_barriers (s : State) (k : Nat) (f : Switch → Switch) : (s.modSwitch k f).barriers = s.barriers := rfl
@[simp] theorem State.modSwitch_engines (s : State) (k : Nat) (f : Switch → Switch) : (s.modSwitch k f).engines = s.engines := rfl
@[simp] theorem State.modSwitch_fords (s : State) (k : Nat) (f : Switch → Switch) : (s.modSwitch k f).fords = s.fords := rfl
@[simp] theorem State.modSwitch_ttvs (s : State) (k : Nat) (f : Switch → Switch) : (s.modSwitch k f).ttvs = s.ttvs := rfl
@[simp] theorem State.modSwitch_pilots (s : State) (k : Nat) (f : Switch → Switch) : (s.modSwitch k f).pilots = s.pilots := rfl
theorem State.modSwitch_switches (s : State) (k : Nat) (f : Switch → Switch) : (s.modSwitch k f).switches = s.switches.put k (f (s.switch k)) := rfl
@[simp] theorem State.modSwitch_same (s : State) (k : Nat) (f : Switch → Switch) : (s.modSwitch k f).switch k = (f (s.switch k)) := FMap.get_put_same _ _ _ _
theorem State.modSwitch_other (s : State) (k : Nat) (f : Switch → Switch) {j : Nat} (h : j ≠ k) : (s.modSwitch k f).switch j = s.switch j :=
  FMap.get_put_ne _ _ _ _ _ h
@[simp] theorem State.modSwitch_proc (s : State) (k : Nat) (f : Switch → Switch) (j : Nat) : (s.modSwitch k f).proc j = s.proc j := rfl
@[simp] theorem State.modSwitch_core (s : State) (k : Nat) (f : Switch → Switch) (j : Nat) : (s.modSwitch k f).core j = s.core j := rfl
@[simp] theorem State.modSwitch_cluster (s : State) (k : Nat) (f : Switch → Switch) (j : Nat) : (s.modSwitch k f).cluster j = s.cluster j := rfl
@[simp] theorem State.modSwitch_slice (s : State) (k : Nat) (f : Switch → Switch) (j : Nat) : (s.modSwitch k f).slice j = s.slice j := rfl
@[simp] theorem State.modSwitch_vfOf (s : State) (k : Nat) (f : Switch → Switch) (j : Nat) : (s.modSwitch k f).vfOf j = s.vfOf j := rfl
@[simp] theorem State.modSwitch_port (s : State) (k : Nat) (f : Switch → Switch) (j : Nat) : (s.modSwitch k f).port j = s.port j := rfl
@[simp] theorem State.modSwitch_engine (s : State) (k : Nat) (f : Switch → Switch) (j : Nat) : (s.modSwitch k f).engine j = s.engine j := rfl
@[simp] theorem State.modSwitch_ford (s : State) (k : Nat) (f : Switch → Switch) (j : Nat) : (s.modSwitch k f).ford j = s.ford j := rfl
@[simp] theorem State.modSwitch_pilot (s : State) (k : Nat) (f : Switch → Switch) (j : Nat) : (s.modSwitch k f).pilot j = s.pilot j := rfl
@[simp] theorem State.modSwitch_byteAt (s : State) (k : Nat) (f : Switch → Switch) (a : Nat) : (s.modSwitch k f).byteAt a = s.byteAt a := rfl

/-! ### One Engine -/

@[simp] theorem State.modEngine_agenda (s : State) (k : Nat) (f : Engine → Engine) : (s.modEngine k f).agenda = s.agenda := rfl
@[simp] theorem State.modEngine_inp (s : State) (k : Nat) (f : Engine → Engine) : (s.modEngine k f).inp = s.inp := rfl
@[simp] theorem State.modEngine_cur (s : State) (k : Nat) (f : Engine → Engine) : (s.modEngine k f).cur = s.cur := rfl
@[simp] theorem State.modEngine_issued (s : State) (k : Nat) (f : Engine → Engine) : (s.modEngine k f).issued = s.issued := rfl
@[simp] theorem State.modEngine_freeCtr (s : State) (k : Nat) (f : Engine → Engine) : (s.modEngine k f).freeCtr = s.freeCtr := rfl
@[simp] theorem State.modEngine_tide (s : State) (k : Nat) (f : Engine → Engine) : (s.modEngine k f).tide = s.tide := rfl
@[simp] theorem State.modEngine_mem (s : State) (k : Nat) (f : Engine → Engine) : (s.modEngine k f).mem = s.mem := rfl
@[simp] theorem State.modEngine_poison (s : State) (k : Nat) (f : Engine → Engine) : (s.modEngine k f).poison = s.poison := rfl
@[simp] theorem State.modEngine_stalls (s : State) (k : Nat) (f : Engine → Engine) : (s.modEngine k f).stalls = s.stalls := rfl
@[simp] theorem State.modEngine_hostStale (s : State) (k : Nat) (f : Engine → Engine) : (s.modEngine k f).hostStale = s.hostStale := rfl
@[simp] theorem State.modEngine_hostRead (s : State) (k : Nat) (f : Engine → Engine) : (s.modEngine k f).hostRead = s.hostRead := rfl
@[simp] theorem State.modEngine_procs (s : State) (k : Nat) (f : Engine → Engine) : (s.modEngine k f).procs = s.procs := rfl
@[simp] theorem State.modEngine_cores (s : State) (k : Nat) (f : Engine → Engine) : (s.modEngine k f).cores = s.cores := rfl
@[simp] theorem State.modEngine_clusters (s : State) (k : Nat) (f : Engine → Engine) : (s.modEngine k f).clusters = s.clusters := rfl
@[simp] theorem State.modEngine_slices (s : State) (k : Nat) (f : Engine → Engine) : (s.modEngine k f).slices = s.slices := rfl
@[simp] theorem State.modEngine_vfs (s : State) (k : Nat) (f : Engine → Engine) : (s.modEngine k f).vfs = s.vfs := rfl
@[simp] theorem State.modEngine_dumpQ (s : State) (k : Nat) (f : Engine → Engine) : (s.modEngine k f).dumpQ = s.dumpQ := rfl
@[simp] theorem State.modEngine_dumping (s : State) (k : Nat) (f : Engine → Engine) : (s.modEngine k f).dumping = s.dumping := rfl
@[simp] theorem State.modEngine_dumpSeq (s : State) (k : Nat) (f : Engine → Engine) : (s.modEngine k f).dumpSeq = s.dumpSeq := rfl
@[simp] theorem State.modEngine_devents (s : State) (k : Nat) (f : Engine → Engine) : (s.modEngine k f).devents = s.devents := rfl
@[simp] theorem State.modEngine_goingFull (s : State) (k : Nat) (f : Engine → Engine) : (s.modEngine k f).goingFull = s.goingFull := rfl
@[simp] theorem State.modEngine_kept (s : State) (k : Nat) (f : Engine → Engine) : (s.modEngine k f).kept = s.kept := rfl
@[simp] theorem State.modEngine_sealed (s : State) (k : Nat) (f : Engine → Engine) : (s.modEngine k f).sealed = s.sealed := rfl
@[simp] theorem State.modEngine_ports (s : State) (k : Nat) (f : Engine → Engine) : (s.modEngine k f).ports = s.ports := rfl
@[simp] theorem State.modEngine_switches (s : State) (k : Nat) (f : Engine → Engine) : (s.modEngine k f).switches = s.switches := rfl
@[simp] theorem State.modEngine_fab (s : State) (k : Nat) (f : Engine → Engine) : (s.modEngine k f).fab = s.fab := rfl
@[simp] theorem State.modEngine_boot (s : State) (k : Nat) (f : Engine → Engine) : (s.modEngine k f).boot = s.boot := rfl
@[simp] theorem State.modEngine_full (s : State) (k : Nat) (f : Engine → Engine) : (s.modEngine k f).full = s.full := rfl
@[simp] theorem State.modEngine_rrq (s : State) (k : Nat) (f : Engine → Engine) : (s.modEngine k f).rrq = s.rrq := rfl
@[simp] theorem State.modEngine_plim (s : State) (k : Nat) (f : Engine → Engine) : (s.modEngine k f).plim = s.plim := rfl
@[simp] theorem State.modEngine_cap (s : State) (k : Nat) (f : Engine → Engine) : (s.modEngine k f).cap = s.cap := rfl
@[simp] theorem State.modEngine_tmax (s : State) (k : Nat) (f : Engine → Engine) : (s.modEngine k f).tmax = s.tmax := rfl
@[simp] theorem State.modEngine_thermal (s : State) (k : Nat) (f : Engine → Engine) : (s.modEngine k f).thermal = s.thermal := rfl
@[simp] theorem State.modEngine_bstat (s : State) (k : Nat) (f : Engine → Engine) : (s.modEngine k f).bstat = s.bstat := rfl
@[simp] theorem State.modEngine_ecls (s : State) (k : Nat) (f : Engine → Engine) : (s.modEngine k f).ecls = s.ecls := rfl
@[simp] theorem State.modEngine_eidx (s : State) (k : Nat) (f : Engine → Engine) : (s.modEngine k f).eidx = s.eidx := rfl
@[simp] theorem State.modEngine_ectlErr (s : State) (k : Nat) (f : Engine → Engine) : (s.modEngine k f).ectlErr = s.ectlErr := rfl
@[simp] theorem State.modEngine_emaddr (s : State) (k : Nat) (f : Engine → Engine) : (s.modEngine k f).emaddr = s.emaddr := rfl
@[simp] theorem State.modEngine_efaults (s : State) (k : Nat) (f : Engine → Engine) : (s.modEngine k f).efaults = s.efaults := rfl
@[simp] theorem State.modEngine_efOvf (s : State) (k : Nat) (f : Engine → Engine) : (s.modEngine k f).efOvf = s.efOvf := rfl
@[simp] theorem State.modEngine_msix (s : State) (k : Nat) (f : Engine → Engine) : (s.modEngine k f).msix = s.msix := rfl
@[simp] theorem State.modEngine_pwd (s : State) (k : Nat) (f : Engine → Engine) : (s.modEngine k f).pwd = s.pwd := rfl
@[simp] theorem State.modEngine_fseg (s : State) (k : Nat) (f : Engine → Engine) : (s.modEngine k f).fseg = s.fseg := rfl
@[simp] theorem State.modEngine_launches (s : State) (k : Nat) (f : Engine → Engine) : (s.modEngine k f).launches = s.launches := rfl
@[simp] theorem State.modEngine_barriers (s : State) (k : Nat) (f : Engine → Engine) : (s.modEngine k f).barriers = s.barriers := rfl
@[simp] theorem State.modEngine_fords (s : State) (k : Nat) (f : Engine → Engine) : (s.modEngine k f).fords = s.fords := rfl
@[simp] theorem State.modEngine_ttvs (s : State) (k : Nat) (f : Engine → Engine) : (s.modEngine k f).ttvs = s.ttvs := rfl
@[simp] theorem State.modEngine_pilots (s : State) (k : Nat) (f : Engine → Engine) : (s.modEngine k f).pilots = s.pilots := rfl
theorem State.modEngine_engines (s : State) (k : Nat) (f : Engine → Engine) : (s.modEngine k f).engines = s.engines.put k (f (s.engine k)) := rfl
@[simp] theorem State.modEngine_same (s : State) (k : Nat) (f : Engine → Engine) : (s.modEngine k f).engine k = (f (s.engine k)) := FMap.get_put_same _ _ _ _
theorem State.modEngine_other (s : State) (k : Nat) (f : Engine → Engine) {j : Nat} (h : j ≠ k) : (s.modEngine k f).engine j = s.engine j :=
  FMap.get_put_ne _ _ _ _ _ h
@[simp] theorem State.modEngine_proc (s : State) (k : Nat) (f : Engine → Engine) (j : Nat) : (s.modEngine k f).proc j = s.proc j := rfl
@[simp] theorem State.modEngine_core (s : State) (k : Nat) (f : Engine → Engine) (j : Nat) : (s.modEngine k f).core j = s.core j := rfl
@[simp] theorem State.modEngine_cluster (s : State) (k : Nat) (f : Engine → Engine) (j : Nat) : (s.modEngine k f).cluster j = s.cluster j := rfl
@[simp] theorem State.modEngine_slice (s : State) (k : Nat) (f : Engine → Engine) (j : Nat) : (s.modEngine k f).slice j = s.slice j := rfl
@[simp] theorem State.modEngine_vfOf (s : State) (k : Nat) (f : Engine → Engine) (j : Nat) : (s.modEngine k f).vfOf j = s.vfOf j := rfl
@[simp] theorem State.modEngine_port (s : State) (k : Nat) (f : Engine → Engine) (j : Nat) : (s.modEngine k f).port j = s.port j := rfl
@[simp] theorem State.modEngine_switch (s : State) (k : Nat) (f : Engine → Engine) (j : Nat) : (s.modEngine k f).switch j = s.switch j := rfl
@[simp] theorem State.modEngine_ford (s : State) (k : Nat) (f : Engine → Engine) (j : Nat) : (s.modEngine k f).ford j = s.ford j := rfl
@[simp] theorem State.modEngine_pilot (s : State) (k : Nat) (f : Engine → Engine) (j : Nat) : (s.modEngine k f).pilot j = s.pilot j := rfl
@[simp] theorem State.modEngine_byteAt (s : State) (k : Nat) (f : Engine → Engine) (a : Nat) : (s.modEngine k f).byteAt a = s.byteAt a := rfl

/-! ### One FordPort -/

@[simp] theorem State.modFord_agenda (s : State) (k : Nat) (f : FordPort → FordPort) : (s.modFord k f).agenda = s.agenda := rfl
@[simp] theorem State.modFord_inp (s : State) (k : Nat) (f : FordPort → FordPort) : (s.modFord k f).inp = s.inp := rfl
@[simp] theorem State.modFord_cur (s : State) (k : Nat) (f : FordPort → FordPort) : (s.modFord k f).cur = s.cur := rfl
@[simp] theorem State.modFord_issued (s : State) (k : Nat) (f : FordPort → FordPort) : (s.modFord k f).issued = s.issued := rfl
@[simp] theorem State.modFord_freeCtr (s : State) (k : Nat) (f : FordPort → FordPort) : (s.modFord k f).freeCtr = s.freeCtr := rfl
@[simp] theorem State.modFord_tide (s : State) (k : Nat) (f : FordPort → FordPort) : (s.modFord k f).tide = s.tide := rfl
@[simp] theorem State.modFord_mem (s : State) (k : Nat) (f : FordPort → FordPort) : (s.modFord k f).mem = s.mem := rfl
@[simp] theorem State.modFord_poison (s : State) (k : Nat) (f : FordPort → FordPort) : (s.modFord k f).poison = s.poison := rfl
@[simp] theorem State.modFord_stalls (s : State) (k : Nat) (f : FordPort → FordPort) : (s.modFord k f).stalls = s.stalls := rfl
@[simp] theorem State.modFord_hostStale (s : State) (k : Nat) (f : FordPort → FordPort) : (s.modFord k f).hostStale = s.hostStale := rfl
@[simp] theorem State.modFord_hostRead (s : State) (k : Nat) (f : FordPort → FordPort) : (s.modFord k f).hostRead = s.hostRead := rfl
@[simp] theorem State.modFord_procs (s : State) (k : Nat) (f : FordPort → FordPort) : (s.modFord k f).procs = s.procs := rfl
@[simp] theorem State.modFord_cores (s : State) (k : Nat) (f : FordPort → FordPort) : (s.modFord k f).cores = s.cores := rfl
@[simp] theorem State.modFord_clusters (s : State) (k : Nat) (f : FordPort → FordPort) : (s.modFord k f).clusters = s.clusters := rfl
@[simp] theorem State.modFord_slices (s : State) (k : Nat) (f : FordPort → FordPort) : (s.modFord k f).slices = s.slices := rfl
@[simp] theorem State.modFord_vfs (s : State) (k : Nat) (f : FordPort → FordPort) : (s.modFord k f).vfs = s.vfs := rfl
@[simp] theorem State.modFord_dumpQ (s : State) (k : Nat) (f : FordPort → FordPort) : (s.modFord k f).dumpQ = s.dumpQ := rfl
@[simp] theorem State.modFord_dumping (s : State) (k : Nat) (f : FordPort → FordPort) : (s.modFord k f).dumping = s.dumping := rfl
@[simp] theorem State.modFord_dumpSeq (s : State) (k : Nat) (f : FordPort → FordPort) : (s.modFord k f).dumpSeq = s.dumpSeq := rfl
@[simp] theorem State.modFord_devents (s : State) (k : Nat) (f : FordPort → FordPort) : (s.modFord k f).devents = s.devents := rfl
@[simp] theorem State.modFord_goingFull (s : State) (k : Nat) (f : FordPort → FordPort) : (s.modFord k f).goingFull = s.goingFull := rfl
@[simp] theorem State.modFord_kept (s : State) (k : Nat) (f : FordPort → FordPort) : (s.modFord k f).kept = s.kept := rfl
@[simp] theorem State.modFord_sealed (s : State) (k : Nat) (f : FordPort → FordPort) : (s.modFord k f).sealed = s.sealed := rfl
@[simp] theorem State.modFord_ports (s : State) (k : Nat) (f : FordPort → FordPort) : (s.modFord k f).ports = s.ports := rfl
@[simp] theorem State.modFord_switches (s : State) (k : Nat) (f : FordPort → FordPort) : (s.modFord k f).switches = s.switches := rfl
@[simp] theorem State.modFord_fab (s : State) (k : Nat) (f : FordPort → FordPort) : (s.modFord k f).fab = s.fab := rfl
@[simp] theorem State.modFord_boot (s : State) (k : Nat) (f : FordPort → FordPort) : (s.modFord k f).boot = s.boot := rfl
@[simp] theorem State.modFord_full (s : State) (k : Nat) (f : FordPort → FordPort) : (s.modFord k f).full = s.full := rfl
@[simp] theorem State.modFord_rrq (s : State) (k : Nat) (f : FordPort → FordPort) : (s.modFord k f).rrq = s.rrq := rfl
@[simp] theorem State.modFord_plim (s : State) (k : Nat) (f : FordPort → FordPort) : (s.modFord k f).plim = s.plim := rfl
@[simp] theorem State.modFord_cap (s : State) (k : Nat) (f : FordPort → FordPort) : (s.modFord k f).cap = s.cap := rfl
@[simp] theorem State.modFord_tmax (s : State) (k : Nat) (f : FordPort → FordPort) : (s.modFord k f).tmax = s.tmax := rfl
@[simp] theorem State.modFord_thermal (s : State) (k : Nat) (f : FordPort → FordPort) : (s.modFord k f).thermal = s.thermal := rfl
@[simp] theorem State.modFord_bstat (s : State) (k : Nat) (f : FordPort → FordPort) : (s.modFord k f).bstat = s.bstat := rfl
@[simp] theorem State.modFord_ecls (s : State) (k : Nat) (f : FordPort → FordPort) : (s.modFord k f).ecls = s.ecls := rfl
@[simp] theorem State.modFord_eidx (s : State) (k : Nat) (f : FordPort → FordPort) : (s.modFord k f).eidx = s.eidx := rfl
@[simp] theorem State.modFord_ectlErr (s : State) (k : Nat) (f : FordPort → FordPort) : (s.modFord k f).ectlErr = s.ectlErr := rfl
@[simp] theorem State.modFord_emaddr (s : State) (k : Nat) (f : FordPort → FordPort) : (s.modFord k f).emaddr = s.emaddr := rfl
@[simp] theorem State.modFord_efaults (s : State) (k : Nat) (f : FordPort → FordPort) : (s.modFord k f).efaults = s.efaults := rfl
@[simp] theorem State.modFord_efOvf (s : State) (k : Nat) (f : FordPort → FordPort) : (s.modFord k f).efOvf = s.efOvf := rfl
@[simp] theorem State.modFord_msix (s : State) (k : Nat) (f : FordPort → FordPort) : (s.modFord k f).msix = s.msix := rfl
@[simp] theorem State.modFord_pwd (s : State) (k : Nat) (f : FordPort → FordPort) : (s.modFord k f).pwd = s.pwd := rfl
@[simp] theorem State.modFord_fseg (s : State) (k : Nat) (f : FordPort → FordPort) : (s.modFord k f).fseg = s.fseg := rfl
@[simp] theorem State.modFord_launches (s : State) (k : Nat) (f : FordPort → FordPort) : (s.modFord k f).launches = s.launches := rfl
@[simp] theorem State.modFord_barriers (s : State) (k : Nat) (f : FordPort → FordPort) : (s.modFord k f).barriers = s.barriers := rfl
@[simp] theorem State.modFord_engines (s : State) (k : Nat) (f : FordPort → FordPort) : (s.modFord k f).engines = s.engines := rfl
@[simp] theorem State.modFord_ttvs (s : State) (k : Nat) (f : FordPort → FordPort) : (s.modFord k f).ttvs = s.ttvs := rfl
@[simp] theorem State.modFord_pilots (s : State) (k : Nat) (f : FordPort → FordPort) : (s.modFord k f).pilots = s.pilots := rfl
theorem State.modFord_fords (s : State) (k : Nat) (f : FordPort → FordPort) : (s.modFord k f).fords = s.fords.put k (f (s.ford k)) := rfl
@[simp] theorem State.modFord_same (s : State) (k : Nat) (f : FordPort → FordPort) : (s.modFord k f).ford k = (f (s.ford k)) := FMap.get_put_same _ _ _ _
theorem State.modFord_other (s : State) (k : Nat) (f : FordPort → FordPort) {j : Nat} (h : j ≠ k) : (s.modFord k f).ford j = s.ford j :=
  FMap.get_put_ne _ _ _ _ _ h
@[simp] theorem State.modFord_proc (s : State) (k : Nat) (f : FordPort → FordPort) (j : Nat) : (s.modFord k f).proc j = s.proc j := rfl
@[simp] theorem State.modFord_core (s : State) (k : Nat) (f : FordPort → FordPort) (j : Nat) : (s.modFord k f).core j = s.core j := rfl
@[simp] theorem State.modFord_cluster (s : State) (k : Nat) (f : FordPort → FordPort) (j : Nat) : (s.modFord k f).cluster j = s.cluster j := rfl
@[simp] theorem State.modFord_slice (s : State) (k : Nat) (f : FordPort → FordPort) (j : Nat) : (s.modFord k f).slice j = s.slice j := rfl
@[simp] theorem State.modFord_vfOf (s : State) (k : Nat) (f : FordPort → FordPort) (j : Nat) : (s.modFord k f).vfOf j = s.vfOf j := rfl
@[simp] theorem State.modFord_port (s : State) (k : Nat) (f : FordPort → FordPort) (j : Nat) : (s.modFord k f).port j = s.port j := rfl
@[simp] theorem State.modFord_switch (s : State) (k : Nat) (f : FordPort → FordPort) (j : Nat) : (s.modFord k f).switch j = s.switch j := rfl
@[simp] theorem State.modFord_engine (s : State) (k : Nat) (f : FordPort → FordPort) (j : Nat) : (s.modFord k f).engine j = s.engine j := rfl
@[simp] theorem State.modFord_pilot (s : State) (k : Nat) (f : FordPort → FordPort) (j : Nat) : (s.modFord k f).pilot j = s.pilot j := rfl
@[simp] theorem State.modFord_byteAt (s : State) (k : Nat) (f : FordPort → FordPort) (a : Nat) : (s.modFord k f).byteAt a = s.byteAt a := rfl

/-! ### One Pilot -/

@[simp] theorem State.modPilot_agenda (s : State) (k : Nat) (f : Pilot → Pilot) : (s.modPilot k f).agenda = s.agenda := rfl
@[simp] theorem State.modPilot_inp (s : State) (k : Nat) (f : Pilot → Pilot) : (s.modPilot k f).inp = s.inp := rfl
@[simp] theorem State.modPilot_cur (s : State) (k : Nat) (f : Pilot → Pilot) : (s.modPilot k f).cur = s.cur := rfl
@[simp] theorem State.modPilot_issued (s : State) (k : Nat) (f : Pilot → Pilot) : (s.modPilot k f).issued = s.issued := rfl
@[simp] theorem State.modPilot_freeCtr (s : State) (k : Nat) (f : Pilot → Pilot) : (s.modPilot k f).freeCtr = s.freeCtr := rfl
@[simp] theorem State.modPilot_tide (s : State) (k : Nat) (f : Pilot → Pilot) : (s.modPilot k f).tide = s.tide := rfl
@[simp] theorem State.modPilot_mem (s : State) (k : Nat) (f : Pilot → Pilot) : (s.modPilot k f).mem = s.mem := rfl
@[simp] theorem State.modPilot_poison (s : State) (k : Nat) (f : Pilot → Pilot) : (s.modPilot k f).poison = s.poison := rfl
@[simp] theorem State.modPilot_stalls (s : State) (k : Nat) (f : Pilot → Pilot) : (s.modPilot k f).stalls = s.stalls := rfl
@[simp] theorem State.modPilot_hostStale (s : State) (k : Nat) (f : Pilot → Pilot) : (s.modPilot k f).hostStale = s.hostStale := rfl
@[simp] theorem State.modPilot_hostRead (s : State) (k : Nat) (f : Pilot → Pilot) : (s.modPilot k f).hostRead = s.hostRead := rfl
@[simp] theorem State.modPilot_procs (s : State) (k : Nat) (f : Pilot → Pilot) : (s.modPilot k f).procs = s.procs := rfl
@[simp] theorem State.modPilot_cores (s : State) (k : Nat) (f : Pilot → Pilot) : (s.modPilot k f).cores = s.cores := rfl
@[simp] theorem State.modPilot_clusters (s : State) (k : Nat) (f : Pilot → Pilot) : (s.modPilot k f).clusters = s.clusters := rfl
@[simp] theorem State.modPilot_slices (s : State) (k : Nat) (f : Pilot → Pilot) : (s.modPilot k f).slices = s.slices := rfl
@[simp] theorem State.modPilot_vfs (s : State) (k : Nat) (f : Pilot → Pilot) : (s.modPilot k f).vfs = s.vfs := rfl
@[simp] theorem State.modPilot_dumpQ (s : State) (k : Nat) (f : Pilot → Pilot) : (s.modPilot k f).dumpQ = s.dumpQ := rfl
@[simp] theorem State.modPilot_dumping (s : State) (k : Nat) (f : Pilot → Pilot) : (s.modPilot k f).dumping = s.dumping := rfl
@[simp] theorem State.modPilot_dumpSeq (s : State) (k : Nat) (f : Pilot → Pilot) : (s.modPilot k f).dumpSeq = s.dumpSeq := rfl
@[simp] theorem State.modPilot_devents (s : State) (k : Nat) (f : Pilot → Pilot) : (s.modPilot k f).devents = s.devents := rfl
@[simp] theorem State.modPilot_goingFull (s : State) (k : Nat) (f : Pilot → Pilot) : (s.modPilot k f).goingFull = s.goingFull := rfl
@[simp] theorem State.modPilot_kept (s : State) (k : Nat) (f : Pilot → Pilot) : (s.modPilot k f).kept = s.kept := rfl
@[simp] theorem State.modPilot_sealed (s : State) (k : Nat) (f : Pilot → Pilot) : (s.modPilot k f).sealed = s.sealed := rfl
@[simp] theorem State.modPilot_ports (s : State) (k : Nat) (f : Pilot → Pilot) : (s.modPilot k f).ports = s.ports := rfl
@[simp] theorem State.modPilot_switches (s : State) (k : Nat) (f : Pilot → Pilot) : (s.modPilot k f).switches = s.switches := rfl
@[simp] theorem State.modPilot_fab (s : State) (k : Nat) (f : Pilot → Pilot) : (s.modPilot k f).fab = s.fab := rfl
@[simp] theorem State.modPilot_boot (s : State) (k : Nat) (f : Pilot → Pilot) : (s.modPilot k f).boot = s.boot := rfl
@[simp] theorem State.modPilot_full (s : State) (k : Nat) (f : Pilot → Pilot) : (s.modPilot k f).full = s.full := rfl
@[simp] theorem State.modPilot_rrq (s : State) (k : Nat) (f : Pilot → Pilot) : (s.modPilot k f).rrq = s.rrq := rfl
@[simp] theorem State.modPilot_plim (s : State) (k : Nat) (f : Pilot → Pilot) : (s.modPilot k f).plim = s.plim := rfl
@[simp] theorem State.modPilot_cap (s : State) (k : Nat) (f : Pilot → Pilot) : (s.modPilot k f).cap = s.cap := rfl
@[simp] theorem State.modPilot_tmax (s : State) (k : Nat) (f : Pilot → Pilot) : (s.modPilot k f).tmax = s.tmax := rfl
@[simp] theorem State.modPilot_thermal (s : State) (k : Nat) (f : Pilot → Pilot) : (s.modPilot k f).thermal = s.thermal := rfl
@[simp] theorem State.modPilot_bstat (s : State) (k : Nat) (f : Pilot → Pilot) : (s.modPilot k f).bstat = s.bstat := rfl
@[simp] theorem State.modPilot_ecls (s : State) (k : Nat) (f : Pilot → Pilot) : (s.modPilot k f).ecls = s.ecls := rfl
@[simp] theorem State.modPilot_eidx (s : State) (k : Nat) (f : Pilot → Pilot) : (s.modPilot k f).eidx = s.eidx := rfl
@[simp] theorem State.modPilot_ectlErr (s : State) (k : Nat) (f : Pilot → Pilot) : (s.modPilot k f).ectlErr = s.ectlErr := rfl
@[simp] theorem State.modPilot_emaddr (s : State) (k : Nat) (f : Pilot → Pilot) : (s.modPilot k f).emaddr = s.emaddr := rfl
@[simp] theorem State.modPilot_efaults (s : State) (k : Nat) (f : Pilot → Pilot) : (s.modPilot k f).efaults = s.efaults := rfl
@[simp] theorem State.modPilot_efOvf (s : State) (k : Nat) (f : Pilot → Pilot) : (s.modPilot k f).efOvf = s.efOvf := rfl
@[simp] theorem State.modPilot_msix (s : State) (k : Nat) (f : Pilot → Pilot) : (s.modPilot k f).msix = s.msix := rfl
@[simp] theorem State.modPilot_pwd (s : State) (k : Nat) (f : Pilot → Pilot) : (s.modPilot k f).pwd = s.pwd := rfl
@[simp] theorem State.modPilot_fseg (s : State) (k : Nat) (f : Pilot → Pilot) : (s.modPilot k f).fseg = s.fseg := rfl
@[simp] theorem State.modPilot_launches (s : State) (k : Nat) (f : Pilot → Pilot) : (s.modPilot k f).launches = s.launches := rfl
@[simp] theorem State.modPilot_barriers (s : State) (k : Nat) (f : Pilot → Pilot) : (s.modPilot k f).barriers = s.barriers := rfl
@[simp] theorem State.modPilot_engines (s : State) (k : Nat) (f : Pilot → Pilot) : (s.modPilot k f).engines = s.engines := rfl
@[simp] theorem State.modPilot_fords (s : State) (k : Nat) (f : Pilot → Pilot) : (s.modPilot k f).fords = s.fords := rfl
@[simp] theorem State.modPilot_ttvs (s : State) (k : Nat) (f : Pilot → Pilot) : (s.modPilot k f).ttvs = s.ttvs := rfl
theorem State.modPilot_pilots (s : State) (k : Nat) (f : Pilot → Pilot) : (s.modPilot k f).pilots = s.pilots.put k (f (s.pilot k)) := rfl
@[simp] theorem State.modPilot_same (s : State) (k : Nat) (f : Pilot → Pilot) : (s.modPilot k f).pilot k = (f (s.pilot k)) := FMap.get_put_same _ _ _ _
theorem State.modPilot_other (s : State) (k : Nat) (f : Pilot → Pilot) {j : Nat} (h : j ≠ k) : (s.modPilot k f).pilot j = s.pilot j :=
  FMap.get_put_ne _ _ _ _ _ h
@[simp] theorem State.modPilot_proc (s : State) (k : Nat) (f : Pilot → Pilot) (j : Nat) : (s.modPilot k f).proc j = s.proc j := rfl
@[simp] theorem State.modPilot_core (s : State) (k : Nat) (f : Pilot → Pilot) (j : Nat) : (s.modPilot k f).core j = s.core j := rfl
@[simp] theorem State.modPilot_cluster (s : State) (k : Nat) (f : Pilot → Pilot) (j : Nat) : (s.modPilot k f).cluster j = s.cluster j := rfl
@[simp] theorem State.modPilot_slice (s : State) (k : Nat) (f : Pilot → Pilot) (j : Nat) : (s.modPilot k f).slice j = s.slice j := rfl
@[simp] theorem State.modPilot_vfOf (s : State) (k : Nat) (f : Pilot → Pilot) (j : Nat) : (s.modPilot k f).vfOf j = s.vfOf j := rfl
@[simp] theorem State.modPilot_port (s : State) (k : Nat) (f : Pilot → Pilot) (j : Nat) : (s.modPilot k f).port j = s.port j := rfl
@[simp] theorem State.modPilot_switch (s : State) (k : Nat) (f : Pilot → Pilot) (j : Nat) : (s.modPilot k f).switch j = s.switch j := rfl
@[simp] theorem State.modPilot_engine (s : State) (k : Nat) (f : Pilot → Pilot) (j : Nat) : (s.modPilot k f).engine j = s.engine j := rfl
@[simp] theorem State.modPilot_ford (s : State) (k : Nat) (f : Pilot → Pilot) (j : Nat) : (s.modPilot k f).ford j = s.ford j := rfl
@[simp] theorem State.modPilot_byteAt (s : State) (k : Nat) (f : Pilot → Pilot) (a : Nat) : (s.modPilot k f).byteAt a = s.byteAt a := rfl

/-! ### A turn that comes next -/

@[simp] theorem State.pushTurn_inp (s : State) (i : Instr) (inp : Input) : (s.pushTurn i inp).inp = s.inp := rfl
@[simp] theorem State.pushTurn_cur (s : State) (i : Instr) (inp : Input) : (s.pushTurn i inp).cur = s.cur := rfl
@[simp] theorem State.pushTurn_issued (s : State) (i : Instr) (inp : Input) : (s.pushTurn i inp).issued = s.issued := rfl
@[simp] theorem State.pushTurn_freeCtr (s : State) (i : Instr) (inp : Input) : (s.pushTurn i inp).freeCtr = s.freeCtr := rfl
@[simp] theorem State.pushTurn_tide (s : State) (i : Instr) (inp : Input) : (s.pushTurn i inp).tide = s.tide := rfl
@[simp] theorem State.pushTurn_mem (s : State) (i : Instr) (inp : Input) : (s.pushTurn i inp).mem = s.mem := rfl
@[simp] theorem State.pushTurn_poison (s : State) (i : Instr) (inp : Input) : (s.pushTurn i inp).poison = s.poison := rfl
@[simp] theorem State.pushTurn_stalls (s : State) (i : Instr) (inp : Input) : (s.pushTurn i inp).stalls = s.stalls := rfl
@[simp] theorem State.pushTurn_hostStale (s : State) (i : Instr) (inp : Input) : (s.pushTurn i inp).hostStale = s.hostStale := rfl
@[simp] theorem State.pushTurn_hostRead (s : State) (i : Instr) (inp : Input) : (s.pushTurn i inp).hostRead = s.hostRead := rfl
@[simp] theorem State.pushTurn_procs (s : State) (i : Instr) (inp : Input) : (s.pushTurn i inp).procs = s.procs := rfl
@[simp] theorem State.pushTurn_cores (s : State) (i : Instr) (inp : Input) : (s.pushTurn i inp).cores = s.cores := rfl
@[simp] theorem State.pushTurn_clusters (s : State) (i : Instr) (inp : Input) : (s.pushTurn i inp).clusters = s.clusters := rfl
@[simp] theorem State.pushTurn_slices (s : State) (i : Instr) (inp : Input) : (s.pushTurn i inp).slices = s.slices := rfl
@[simp] theorem State.pushTurn_vfs (s : State) (i : Instr) (inp : Input) : (s.pushTurn i inp).vfs = s.vfs := rfl
@[simp] theorem State.pushTurn_dumpQ (s : State) (i : Instr) (inp : Input) : (s.pushTurn i inp).dumpQ = s.dumpQ := rfl
@[simp] theorem State.pushTurn_dumping (s : State) (i : Instr) (inp : Input) : (s.pushTurn i inp).dumping = s.dumping := rfl
@[simp] theorem State.pushTurn_dumpSeq (s : State) (i : Instr) (inp : Input) : (s.pushTurn i inp).dumpSeq = s.dumpSeq := rfl
@[simp] theorem State.pushTurn_devents (s : State) (i : Instr) (inp : Input) : (s.pushTurn i inp).devents = s.devents := rfl
@[simp] theorem State.pushTurn_goingFull (s : State) (i : Instr) (inp : Input) : (s.pushTurn i inp).goingFull = s.goingFull := rfl
@[simp] theorem State.pushTurn_kept (s : State) (i : Instr) (inp : Input) : (s.pushTurn i inp).kept = s.kept := rfl
@[simp] theorem State.pushTurn_sealed (s : State) (i : Instr) (inp : Input) : (s.pushTurn i inp).sealed = s.sealed := rfl
@[simp] theorem State.pushTurn_ports (s : State) (i : Instr) (inp : Input) : (s.pushTurn i inp).ports = s.ports := rfl
@[simp] theorem State.pushTurn_switches (s : State) (i : Instr) (inp : Input) : (s.pushTurn i inp).switches = s.switches := rfl
@[simp] theorem State.pushTurn_fab (s : State) (i : Instr) (inp : Input) : (s.pushTurn i inp).fab = s.fab := rfl
@[simp] theorem State.pushTurn_boot (s : State) (i : Instr) (inp : Input) : (s.pushTurn i inp).boot = s.boot := rfl
@[simp] theorem State.pushTurn_full (s : State) (i : Instr) (inp : Input) : (s.pushTurn i inp).full = s.full := rfl
@[simp] theorem State.pushTurn_rrq (s : State) (i : Instr) (inp : Input) : (s.pushTurn i inp).rrq = s.rrq := rfl
@[simp] theorem State.pushTurn_plim (s : State) (i : Instr) (inp : Input) : (s.pushTurn i inp).plim = s.plim := rfl
@[simp] theorem State.pushTurn_cap (s : State) (i : Instr) (inp : Input) : (s.pushTurn i inp).cap = s.cap := rfl
@[simp] theorem State.pushTurn_tmax (s : State) (i : Instr) (inp : Input) : (s.pushTurn i inp).tmax = s.tmax := rfl
@[simp] theorem State.pushTurn_thermal (s : State) (i : Instr) (inp : Input) : (s.pushTurn i inp).thermal = s.thermal := rfl
@[simp] theorem State.pushTurn_bstat (s : State) (i : Instr) (inp : Input) : (s.pushTurn i inp).bstat = s.bstat := rfl
@[simp] theorem State.pushTurn_ecls (s : State) (i : Instr) (inp : Input) : (s.pushTurn i inp).ecls = s.ecls := rfl
@[simp] theorem State.pushTurn_eidx (s : State) (i : Instr) (inp : Input) : (s.pushTurn i inp).eidx = s.eidx := rfl
@[simp] theorem State.pushTurn_ectlErr (s : State) (i : Instr) (inp : Input) : (s.pushTurn i inp).ectlErr = s.ectlErr := rfl
@[simp] theorem State.pushTurn_emaddr (s : State) (i : Instr) (inp : Input) : (s.pushTurn i inp).emaddr = s.emaddr := rfl
@[simp] theorem State.pushTurn_efaults (s : State) (i : Instr) (inp : Input) : (s.pushTurn i inp).efaults = s.efaults := rfl
@[simp] theorem State.pushTurn_efOvf (s : State) (i : Instr) (inp : Input) : (s.pushTurn i inp).efOvf = s.efOvf := rfl
@[simp] theorem State.pushTurn_msix (s : State) (i : Instr) (inp : Input) : (s.pushTurn i inp).msix = s.msix := rfl
@[simp] theorem State.pushTurn_pwd (s : State) (i : Instr) (inp : Input) : (s.pushTurn i inp).pwd = s.pwd := rfl
@[simp] theorem State.pushTurn_fseg (s : State) (i : Instr) (inp : Input) : (s.pushTurn i inp).fseg = s.fseg := rfl
@[simp] theorem State.pushTurn_launches (s : State) (i : Instr) (inp : Input) : (s.pushTurn i inp).launches = s.launches := rfl
@[simp] theorem State.pushTurn_barriers (s : State) (i : Instr) (inp : Input) : (s.pushTurn i inp).barriers = s.barriers := rfl
@[simp] theorem State.pushTurn_engines (s : State) (i : Instr) (inp : Input) : (s.pushTurn i inp).engines = s.engines := rfl
@[simp] theorem State.pushTurn_fords (s : State) (i : Instr) (inp : Input) : (s.pushTurn i inp).fords = s.fords := rfl
@[simp] theorem State.pushTurn_ttvs (s : State) (i : Instr) (inp : Input) : (s.pushTurn i inp).ttvs = s.ttvs := rfl
@[simp] theorem State.pushTurn_pilots (s : State) (i : Instr) (inp : Input) : (s.pushTurn i inp).pilots = s.pilots := rfl
@[simp] theorem State.pushTurn_agenda (s : State) (i : Instr) (inp : Input) : (s.pushTurn i inp).agenda = .event i inp :: s.agenda := rfl
@[simp] theorem State.pushTurn_proc (s : State) (i : Instr) (inp : Input) (j : Nat) : (s.pushTurn i inp).proc j = s.proc j := rfl
@[simp] theorem State.pushTurn_core (s : State) (i : Instr) (inp : Input) (j : Nat) : (s.pushTurn i inp).core j = s.core j := rfl
@[simp] theorem State.pushTurn_cluster (s : State) (i : Instr) (inp : Input) (j : Nat) : (s.pushTurn i inp).cluster j = s.cluster j := rfl
@[simp] theorem State.pushTurn_slice (s : State) (i : Instr) (inp : Input) (j : Nat) : (s.pushTurn i inp).slice j = s.slice j := rfl
@[simp] theorem State.pushTurn_vfOf (s : State) (i : Instr) (inp : Input) (j : Nat) : (s.pushTurn i inp).vfOf j = s.vfOf j := rfl
@[simp] theorem State.pushTurn_port (s : State) (i : Instr) (inp : Input) (j : Nat) : (s.pushTurn i inp).port j = s.port j := rfl
@[simp] theorem State.pushTurn_switch (s : State) (i : Instr) (inp : Input) (j : Nat) : (s.pushTurn i inp).switch j = s.switch j := rfl
@[simp] theorem State.pushTurn_engine (s : State) (i : Instr) (inp : Input) (j : Nat) : (s.pushTurn i inp).engine j = s.engine j := rfl
@[simp] theorem State.pushTurn_ford (s : State) (i : Instr) (inp : Input) (j : Nat) : (s.pushTurn i inp).ford j = s.ford j := rfl
@[simp] theorem State.pushTurn_pilot (s : State) (i : Instr) (inp : Input) (j : Nat) : (s.pushTurn i inp).pilot j = s.pilot j := rfl

end Sys2Proof.Machine
end

