-- ==== Sys2Proof/Tests/Kit.lean ====
section
/-!
SUPPORT. What the tests share: small states, and what it means that the hypotheses of a statement are met.
-/

namespace Sys2Proof.Machine

/-- The hypotheses of `Does` are met. -/
def MetDoes (i : Instr) (H : State → Prop) (E : State → State) (_nx : State → Next := fun _ => {}) : Prop :=
  ∃ s, ready s i = true ∧ alone s = true ∧ H (beginHead s i) ∧ chunkLines (E (beginHead s i)) s.cur ≤ 64
/-- The hypotheses of `DoesOnce` are met. -/
def MetDoesOnce (i : Instr) (H : State → Prop) (E : State → State) (_nx : State → Next := fun _ => {}) : Prop :=
  ∃ s, ready s i = true ∧ H (beginHead s i) ∧ chunkLines (E (beginHead s i)) s.cur ≤ 64
/-- The hypotheses of `DoesTo` are met. -/
def MetDoesTo (i : Instr) (a : BitVec 6) (lat : Nat) (H : State → Prop) (E : State → State) (x : State → Word)
    (_nx : State → Next := fun _ => {}) : Prop :=
  ∃ w s, ready s i = true ∧ alone s = true ∧ H (beginHead s i) ∧
    dst lat a (x (beginHead s i)) (E (beginHead s i)) = .ok () w ∧ chunkLines w s.cur ≤ 64
/-- The hypotheses of `DoesOnceTo` are met. -/
def MetDoesOnceTo (i : Instr) (a : BitVec 6) (lat : Nat) (H : State → Prop) (E : State → State) (x : State → Word)
    (fin : State → State := id) (_nx : State → Next := fun _ => {}) : Prop :=
  ∃ w s, ready s i = true ∧ H (beginHead s i) ∧
    dstAll lat a (x (beginHead s i)) (E (beginHead s i)) = .ok () w ∧ chunkLines (fin w) s.cur ≤ 64
/-- The hypotheses of `Traps` are met. -/
def MetTraps (i : Instr) (H : State → Prop) (_code : Nat) (_val : State → Word) : Prop :=
  ∃ s, ready s i = true ∧ alone s = true ∧ H (beginHead s i)
/-- The hypothesis of `Happens` is met. -/
def MetHappens (_i : Instr) (H : State → Prop) (_E : State → State) : Prop := ∃ s, H s
/-- The hypothesis of `HappensTo` is met. -/
def MetHappensTo (_i : Instr) (H : State → Prop) (_P : State → State → Prop) : Prop := ∃ s, H s

/-- Whether an effect succeeded. -/
def isOk {ε σ α : Type} : EStateM.Result ε σ α → Bool
  | .ok _ _ => true
  | .error _ _ => false
/-- The value of an effect that succeeded. -/
def okVal {ε σ α : Type} [Inhabited α] : EStateM.Result ε σ α → α
  | .ok a _ => a
  | .error _ _ => default
/-- The state an effect leaves. -/
def okState {ε σ α : Type} : EStateM.Result ε σ α → σ
  | .ok _ s => s
  | .error _ s => s
theorem ok_of_isOk {ε σ α : Type} [Inhabited α] {x : EStateM.Result ε σ α} (h : isOk x = true) : x = .ok (okVal x) (okState x) := by
  cases x with
  | ok _ _ => rfl
  | error _ _ => exact absurd h Bool.false_ne_true
theorem ok_unit_of_isOk {ε σ : Type} {x : EStateM.Result ε σ Unit} (h : isOk x = true) : x = .ok () (okState x) := by
  cases x with
  | ok _ _ => rfl
  | error _ _ => exact absurd h Bool.false_ne_true
theorem some_of_isSome {α : Type} [Inhabited α] {x : Option α} (h : x.isSome = true) : x = some (x.getD default) := by
  cases x with
  | some _ => rfl
  | none => exact absurd h Bool.false_ne_true
/-- The fault a check found. -/
def errCode {ε α : Type} : Except ε α → Option ε
  | .ok _ => none
  | .error e => some e
theorem error_of {ε α : Type} {x : Except ε α} {e : ε} (h : errCode x = some e) : x = .error e := by
  cases x with
  | ok _ => exact absurd h (by simp [errCode])
  | error _ => exact congrArg Except.error (Option.some.inj h)
/-- Whether a check succeeded. -/
def isFine {ε α : Type} : Except ε α → Bool
  | .ok _ => true
  | .error _ => false
/-- What a check answered. -/
def fineVal {ε α : Type} [Inhabited α] : Except ε α → α
  | .ok a => a
  | .error _ => default
theorem fine_of_isFine {ε α : Type} [Inhabited α] {x : Except ε α} (h : isFine x = true) : x = .ok (fineVal x) := by
  cases x with
  | ok _ => rfl
  | error _ => exact absurd h Bool.false_ne_true

/-- Whether an effect answered `a`. -/
def okIs {ε σ α : Type} [DecidableEq α] (x : EStateM.Result ε σ α) (a : α) : Bool :=
  match x with
  | .ok b _ => decide (b = a)
  | .error _ _ => false
theorem okIs_eq {ε σ α : Type} [DecidableEq α] {x : EStateM.Result ε σ α} {a : α} (h : okIs x a = true) : x = .ok a (okState x) := by
  cases x with
  | ok b _ => rw [of_decide_eq_true h]; rfl
  | error _ _ => exact absurd h Bool.false_ne_true
theorem fine_is {ε α : Type} [Inhabited α] {x : Except ε α} {a : α} (h : isFine x = true) (ha : fineVal x = a) : x = .ok a := by
  rw [fine_of_isFine h, ha]
theorem ok_pair_nil {ε σ α β : Type} [Inhabited α] {x : EStateM.Result ε σ (α × List β)} (h : isOk x = true)
    (hn : (okVal x).2.isEmpty = true) : x = .ok ((okVal x).1, []) (okState x) := by
  cases x with
  | ok a s =>
    obtain ⟨a, l⟩ := a
    cases l with
    | nil => rfl
    | cons _ _ => exact absurd hn (by simp [okVal])
  | error _ _ => exact absurd h Bool.false_ne_true
theorem bits_imm {u : State} {b : BitVec 6} {imm : BitVec 16} {m : Nat} : bitsAsked u b false imm m imm.toNat u := by
  simp [bitsAsked]
theorem not_tide {w : Wait} (h : w = .idle) : ∀ c, w ≠ .tide c := by subst h; nofun
theorem not_engine {w : Wait} (h : w = .idle) : ∀ c, w ≠ .engine c := by subst h; nofun
theorem not_busy {w : Wait} (h : w = .idle) : ∀ c, w ≠ .busy c := by subst h; nofun
theorem not_mem {w : Wait} (h : w = .idle) : ∀ l d x, w ≠ .mem l d x := by subst h; nofun
theorem not_ev {w : Wait} (h : w = .idle) : ∀ l, w ≠ .ev l false := by subst h; nofun

theorem isReg_of {f : BitVec 6} (h : decide (f.toNat < 48) = true) : isReg f := show f.toNat < 48 from of_decide_eq_true h
theorem fine_pair {ε α β : Type} [Inhabited α] [Inhabited β] {x : Except ε (α × β)} (h : isFine x = true) :
    x = .ok ((fineVal x).1, (fineVal x).2) := fine_of_isFine h
theorem some_pair {α β : Type} [Inhabited α] [Inhabited β] {x : Option (α × β)} (h : x.isSome = true) :
    x = some ((x.getD default).1, (x.getD default).2) := some_of_isSome h
theorem triple_eta {α β γ : Type} (x : α × β × γ) : x = (x.1, x.2.1, x.2.2) := rfl
theorem some_with {α β : Type} [Inhabited α] [Inhabited β] [DecidableEq β] {x : Option (α × β)} {b : β} (h : x.isSome = true)
    (hb : (x.getD default).2 = b) : x = some ((x.getD default).1, b) := by
  rw [← hb]
  exact some_of_isSome h
theorem some_third {α β γ : Type} [DecidableEq α] [DecidableEq β] [Inhabited γ] {x : Option (α × β × γ)} {a : α} {b : β}
    (h : decide (x.map (fun y => (y.1, y.2.1)) = some (a, b)) = true) : x = some (a, b, ((x.map (·.2.2)).getD default)) := by
  cases x with
  | none => exact absurd (of_decide_eq_true h) nofun
  | some y =>
    obtain ⟨y, z, u⟩ := y
    have h := Prod.mk.inj (Option.some.inj (of_decide_eq_true h))
    rw [← h.1, ← h.2]
    rfl
theorem some_snd {α β : Type} [Inhabited α] [DecidableEq β] {x : Option (α × β)} {b : β} (h : decide (x.map (·.2) = some b) = true) :
    x = some (((x.map (·.1)).getD default), b) := by
  cases x with
  | none => exact absurd (of_decide_eq_true h) nofun
  | some y => rw [← Option.some.inj (of_decide_eq_true h)]; rfl
theorem fine_with {ε α β : Type} [Inhabited α] [Inhabited β] [DecidableEq β] {x : Except ε (α × β)} {b : β} (h : isFine x = true)
    (hb : (fineVal x).2 = b) : x = .ok ((fineVal x).1, b) := by
  rw [← hb]
  exact fine_of_isFine h
/-- The code of a fault, of a check that found one. -/
def errVal {α : Type} : Except Nat α → Nat
  | .ok _ => 0
  | .error e => e
theorem error_is {α : Type} {x : Except Nat α} (h : isFine x = false) : x = .error (errVal x) := by
  cases x with
  | ok _ => exact absurd h (by simp [isFine])
  | error _ => rfl
/-- Whether a choice answered `a`, with what else it answered. -/
def isFirst {α β : Type} [DecidableEq α] (x : Option (α × β)) (a : α) : Bool :=
  match x with
  | some b => decide (b.1 = a)
  | none => false
theorem some_first {α β : Type} [DecidableEq α] [Inhabited β] {x : Option (α × β)} {a : α} (h : isFirst x a = true) :
    x = some (a, ((x.map (·.2)).getD default)) := by
  cases x with
  | none => exact absurd h Bool.false_ne_true
  | some b => rw [← of_decide_eq_true h]; rfl
theorem pair_none {α β : Type} {x : α × Option β} (h : x.2.isNone = true) : x = (x.1, none) :=
  Prod.ext rfl (Option.isNone_iff_eq_none.mp h)
theorem pair_value {α β : Type} [Inhabited β] {x : α × Option β} (h : x.2.isSome = true) : x = (x.1, some (x.2.getD default)) :=
  Prod.ext rfl (some_of_isSome h)
theorem pair_some {α β γ : Type} [Inhabited β] [Inhabited γ] {x : α × Option (β × γ)} (h : x.2.isSome = true) :
    x = (x.1, some ((x.2.getD default).1, (x.2.getD default).2)) := Prod.ext rfl (some_of_isSome h)
theorem triple_third {α β γ : Type} {x : α × β × γ} {c : γ} (h : x.2.2 = c) : x = (x.1, x.2.1, c) := Prod.ext rfl (Prod.ext rfl h)
theorem triple_ok {α β γ : Type} [Inhabited γ] {x : α × β × Except Nat γ} (h : isFine x.2.2 = true) :
    x = (x.1, x.2.1, .ok (fineVal x.2.2)) := Prod.ext rfl (Prod.ext rfl (fine_of_isFine h))
theorem triple_error {α β γ : Type} {x : α × β × Except Nat γ} {e : Nat} (h : errCode x.2.2 = some e) :
    x = (x.1, x.2.1, .error e) := Prod.ext rfl (Prod.ext rfl (error_of h))
theorem never_some {α : Type} {x : Option α} {P : α → Prop} (h : x.isNone = true) : ∀ a, x = some a → P a := by
  intro a ha
  rw [ha] at h
  exact absurd h Bool.false_ne_true
theorem pair_eta {α β : Type} (x : α × β) : x = (x.1, x.2) := rfl
/-- The hypotheses of `Awaits` are met, of each of its two parts. -/
def MetAwaits (i : Instr) (a : BitVec 6) (H : State → Prop) (out : State → Bool) : Prop :=
  MetDoesTo i a 1 (fun u => H u ∧ (∀ t, u.me.wait ≠ .engine t) ∧ out u = false) id (fun _ => 1) ∧
  MetDoesTo i a 1 (fun u => H u ∧ (∃ t, u.me.wait = .engine t) ∧ out u = false) id (fun _ => 0)

theorem forall_first {P : Nat → Prop} [DecidablePred P] {c : Nat} (hc : c = 0) (h : ((List.range 8).all fun n => decide (P n)) = true) :
    ∀ n, n / 8 = c → P n := fun n hn => of_decide_eq_true (List.all_eq_true.mp h n (List.mem_range.mpr (by omega)))
/-- Every core of a list has arrived at a barrier or halted. -/
def allArrived (s : State) (lv dom : Nat) (gs : List Nat) : Bool := gs.all fun g =>
  (s.proc (ctl g)).st == .ended || match (s.proc (ctl g)).wait with
    | .sync l d _ => l == lv && d == dom
    | _ => false
theorem arrived_of {s : State} {lv dom : Nat} {gs : List Nat} (h : allArrived s lv dom gs = true) :
    ∀ g ∈ gs, (s.proc (ctl g)).st = .ended ∨ ∃ t0, (s.proc (ctl g)).wait = .sync lv dom t0 := by
  intro g hg
  have hx := List.all_eq_true.mp h g hg
  cases hw : (s.proc (ctl g)).wait <;> simp_all

/-- Whether a step goes on, and where to. -/
def goesOn (x : Host.Outcome State Fault Refusal) : Bool :=
  match x with
  | .next _ => true
  | _ => false
def wentTo (x : Host.Outcome State Fault Refusal) : State :=
  match x with
  | .next s => s
  | _ => {}
theorem next_of {x : Host.Outcome State Fault Refusal} (h : goesOn x = true) : x = .next (wentTo x) := by
  cases x with
  | next _ => rfl
  | fault _ => exact absurd h Bool.false_ne_true
  | refused _ => exact absurd h Bool.false_ne_true

/-- Whether a decoding gives the instruction. -/
def decodesTo (x : Except DecErr Instr) (i : Instr) : Bool :=
  match x with
  | .ok j => decide (j = i)
  | .error _ => false
theorem decodes_of {x : Except DecErr Instr} {i : Instr} (h : decodesTo x i = true) : x = .ok i := by
  cases x with
  | ok j => exact congrArg Except.ok (of_decide_eq_true h)
  | error _ => exact absurd h Bool.false_ne_true

/-! ### Small states -/

/-- General registers, by number. -/
def greg (l : List (Nat × Nat)) : Vector Word 48 := l.foldl (fun v e => v.setIfInBounds e.1 (wNat e.2)) (Vector.replicate 48 0)
/-- A line of one NOP and 30 more heads' space: the line 1 at its descriptor. -/
def nopLine : Line := BitVec.ofNat 512 (1 + 0x0100 * 2 ^ 16)
/-- A line of one head, the instruction. -/
def lineOf (i : Instr) : Line :=
  match encode i with
  | h :: t => BitVec.ofNat 512 (1 + h.toNat * 2 ^ 16 + ((List.range t.length).zip t).foldl
      (fun m e => m + e.2.toNat * 2 ^ (16 * (32 - t.length + e.1))) 0)
  | [] => 0
/-- A translation that gives every address of function 0 its own number, with every permission. -/
def flat : TlbEntry := ⟨0, 0, 2 ^ 40, 0x3F⟩
/-- A live context at head 1 of a resident line. -/
def live (r : List (Nat × Nat)) : Proc := { st := .live, r := { pc := 0x10002, g := greg r }, lines := [(0x10000, nopLine)] }
/-- One control context on core 0, which works for launch 1 of function 0 on cluster 0. -/
def one (r : List (Nat × Nat)) (p : Proc → Proc := id) (c : Core → Core := id) (k : Cluster → Cluster := id) : State :=
  { procs := [(0, p (live r))], cores := [(0, c { owner := some (0, 1), lnid := 1 })], clusters := [(0, k { tlb := [flat] })], tide := 1000
    mem := [(0x10000, 1), (0x10003, 1)] }

/-- The control contexts of cores 0 and 1, of one launch; the second moves. -/
def twoCores (p : Proc → Proc) (c : Core → Core) : State :=
  { one [] with
    procs := [(0, p (live [])), (11, live [])], cur := 11
    cores := [(0, c { owner := some (0, 1) }), (1, c { owner := some (0, 1), gmemb := 0 })] }
/-- An engine hart at head 1 of its microcode store, with its engine. -/
def hart (h : Nat) (r : List (Nat × Nat)) (p : Proc → Proc := id) (e : Engine → Engine := id) : State :=
  { procs := [(hartQOf h, p { st := .live, r := { pc := 2, g := greg r }, codeLen := 64 })], engines := [(h, e {})], cur := hartQOf h
    tide := 1000 }

end Sys2Proof.Machine
end

