-- ==== Sys2Proof/Tests/MetEngineSteps.lean ====
section
/-!
SUPPORT. Witnesses of the statements about jobs, tow sessions and collectives: for each clause a concrete state and operands that meet its hypotheses together.
-/

open Sys2Proof Sys2Proof.Machine
set_option maxRecDepth 20000
set_option Elab.async false
set_option linter.unusedVariables false

theorem met_JobStepsComplete_1 :
  let ended := fun (t : State) (gc : Nat) (j : PJob) (status : Nat) =>
    post (releaseHolds (if status = 0 then t else leaveRows t gc j) j.req) (640 + gc) j.req (frameOf status 1 j.req.rid.toNat j.rel.length
      (j.flags / 128 + 2 ^ 5 * j.worst + 2 ^ 7 * b2n j.parkedOnce + 2 ^ 32 * j.ksteps))
  let piece := fun (s : State) (left : Nat) => if s.inp.w.toNat = 0 then left else min left (32 * s.inp.w.toNat)
  let reads := fun (s : State) (j : PJob) (va : Word) (len : Nat) (before : List Byte) (n : Nat) (w : State) (bs : List Byte) =>
    n = piece s (len - before.length) ∧ pontoonRead s s.inp.a j.req (va + wNat before.length) n = .ok (w, bs)
  let hold := fun (w : State) (gc : Nat) (j : PJob) => w.modPontoon gc fun po => { po with job := some j }
  let loads := fun (s : State) (j : PJob) =>
    runningJob s s.inp.a = some j ∧ j.tiles.length < 2 ∧ j.ksteps + j.tiles.length < j.req.kst
  let tileAt := fun (j : PJob) => j.req.base + wNat (1024 * (j.ksteps + j.tiles.length))
  let stageOf := fun (s : State) (n t : Nat) (x : Ring) (k : Nat) =>
    x = ringOf s s.inp.a n ∧ k = t % x.nst ∧ (x.stage k).own ≤ x.np ∧ x.kind (x.stage k).own = 2 ∧ (x.stage k).tag = t % 2 ^ 16
  let freed := fun (s : State) (n t k : Nat) => modRing s s.inp.a n fun x =>
    if (x.stage k).own = 0 then x.fill k t else x.release k
  let streams := fun (s : State) (j : PJob) (tile : List Int) (rest : List (List Int)) =>
    let po := s.pontoon s.inp.a
    runningJob s s.inp.a = some j ∧ j.tiles = tile :: rest ∧ po.preempt = false ∧ po.drift < 2
  let actsAt := fun (j : PJob) => j.req.dw 2 + wNat (32 * j.req.depth * j.ksteps)
  let stepped := fun (s w : State) (j : PJob) (tile : List Int) (rest : List (List Int)) (bs : List Byte) =>
    let r := j.req
    let drift := (s.pontoon s.inp.a).drift
    { j with
      n := streamTile tile r.split r.gain r.shift r.depth (if drift = 0 then 1 else 3) w.freeCtr
        (fun b => ((bs.drop (32 * b)).take 32).map BitVec.toNat) 0 j.n
      cs := (List.range 32).foldl (fun m i => m.put i (m.get i 0 + rowSum tile i (List.replicate 32 1))) j.cs
      tiles := rest, acts := [], ksteps := j.ksteps + 1, worst := max j.worst (min drift 1) }
  let drawn := fun (w : State) (r : Request) => ({ w with freeCtr := w.freeCtr + (passes r.split).length * (r.depth * 32) } : State)
  ∃ r rest, MetHappens .jobStart
    (fun s =>
      let po := s.pontoon s.inp.a
      s.inp.a < 12800 ∧ (s.proc (hartQOf (640 + s.inp.a))).stopped = false ∧ po.tow = none ∧ po.job = none ∧
      (s.engine (640 + s.inp.a)).queue = r :: rest ∧ r.op = 0x9F)
    (fun s => ((s.modEngine (640 + s.inp.a) fun e => { e with queue := rest }).modProc (hartQOf (640 + s.inp.a)) fun p =>
      { p with vf := r.vf }).modPontoon s.inp.a fun po => { po with
        job := some { req := r, fail := if r.canc then some 0x64 else if engineDown s s.inp.a then some 0x70 else none } }) :=
  ⟨{ op := 0x9F }, [], ({ inp := { a := 0 }, tide := 20000, clusters := [(0, { tlb := [flat], pontoonUp := true, pontoon := {  } })], engines := [(640, { queue := [{ op := 0x9F }] })] }), ⟨(by decide +kernel), (by decide +kernel), (by decide +kernel), (by decide +kernel), (by decide +kernel), (by decide +kernel)⟩⟩

theorem met_JobStepsComplete_2 :
  let ended := fun (t : State) (gc : Nat) (j : PJob) (status : Nat) =>
    post (releaseHolds (if status = 0 then t else leaveRows t gc j) j.req) (640 + gc) j.req (frameOf status 1 j.req.rid.toNat j.rel.length
      (j.flags / 128 + 2 ^ 5 * j.worst + 2 ^ 7 * b2n j.parkedOnce + 2 ^ 32 * j.ksteps))
  let piece := fun (s : State) (left : Nat) => if s.inp.w.toNat = 0 then left else min left (32 * s.inp.w.toNat)
  let reads := fun (s : State) (j : PJob) (va : Word) (len : Nat) (before : List Byte) (n : Nat) (w : State) (bs : List Byte) =>
    n = piece s (len - before.length) ∧ pontoonRead s s.inp.a j.req (va + wNat before.length) n = .ok (w, bs)
  let hold := fun (w : State) (gc : Nat) (j : PJob) => w.modPontoon gc fun po => { po with job := some j }
  let loads := fun (s : State) (j : PJob) =>
    runningJob s s.inp.a = some j ∧ j.tiles.length < 2 ∧ j.ksteps + j.tiles.length < j.req.kst
  let tileAt := fun (j : PJob) => j.req.base + wNat (1024 * (j.ksteps + j.tiles.length))
  let stageOf := fun (s : State) (n t : Nat) (x : Ring) (k : Nat) =>
    x = ringOf s s.inp.a n ∧ k = t % x.nst ∧ (x.stage k).own ≤ x.np ∧ x.kind (x.stage k).own = 2 ∧ (x.stage k).tag = t % 2 ^ 16
  let freed := fun (s : State) (n t k : Nat) => modRing s s.inp.a n fun x =>
    if (x.stage k).own = 0 then x.fill k t else x.release k
  let streams := fun (s : State) (j : PJob) (tile : List Int) (rest : List (List Int)) =>
    let po := s.pontoon s.inp.a
    runningJob s s.inp.a = some j ∧ j.tiles = tile :: rest ∧ po.preempt = false ∧ po.drift < 2
  let actsAt := fun (j : PJob) => j.req.dw 2 + wNat (32 * j.req.depth * j.ksteps)
  let stepped := fun (s w : State) (j : PJob) (tile : List Int) (rest : List (List Int)) (bs : List Byte) =>
    let r := j.req
    let drift := (s.pontoon s.inp.a).drift
    { j with
      n := streamTile tile r.split r.gain r.shift r.depth (if drift = 0 then 1 else 3) w.freeCtr
        (fun b => ((bs.drop (32 * b)).take 32).map BitVec.toNat) 0 j.n
      cs := (List.range 32).foldl (fun m i => m.put i (m.get i 0 + rowSum tile i (List.replicate 32 1))) j.cs
      tiles := rest, acts := [], ksteps := j.ksteps + 1, worst := max j.worst (min drift 1) }
  let drawn := fun (w : State) (r : Request) => ({ w with freeCtr := w.freeCtr + (passes r.split).length * (r.depth * 32) } : State)
  ∃ r rest j, MetHappens .jobStart
    (fun s =>
      let po := s.pontoon s.inp.a
      s.inp.a < 12800 ∧ (s.proc (hartQOf (640 + s.inp.a))).stopped = false ∧ po.tow = none ∧ po.job = some j ∧ po.tail = none ∧
      j.ksteps = j.req.kst ∧ j.next = j.req.depth ∧ j.fail = none ∧ (s.engine (640 + s.inp.a)).queue = r :: rest ∧ r.op = 0x9F)
    (fun s => ((s.modEngine (640 + s.inp.a) fun e => { e with queue := rest }).modProc (hartQOf (640 + s.inp.a)) fun p =>
      { p with vf := r.vf }).modPontoon s.inp.a fun po => { po with
        tail := some j
        job := some { req := r, fail := if r.canc then some 0x64 else if engineDown s s.inp.a then some 0x70 else none } }) :=
  ⟨{ op := 0x9F }, [], { req := { op := 0x9F, ln := 1 }, ksteps := 1, next := 1 }, ({ inp := { a := 0 }, tide := 20000, clusters := [(0, { tlb := [flat], pontoonUp := true, pontoon := { job := some { req := { op := 0x9F, ln := 1 }, ksteps := 1, next := 1 } } })], engines := [(640, { queue := [{ op := 0x9F }] })] }), ⟨(by decide +kernel), (by decide +kernel), (by decide +kernel), (by decide +kernel), (by decide +kernel), (by decide +kernel), (by decide +kernel), (by decide +kernel), (by decide +kernel), (by decide +kernel)⟩⟩

theorem met_JobStepsComplete_3 :
  let ended := fun (t : State) (gc : Nat) (j : PJob) (status : Nat) =>
    post (releaseHolds (if status = 0 then t else leaveRows t gc j) j.req) (640 + gc) j.req (frameOf status 1 j.req.rid.toNat j.rel.length
      (j.flags / 128 + 2 ^ 5 * j.worst + 2 ^ 7 * b2n j.parkedOnce + 2 ^ 32 * j.ksteps))
  let piece := fun (s : State) (left : Nat) => if s.inp.w.toNat = 0 then left else min left (32 * s.inp.w.toNat)
  let reads := fun (s : State) (j : PJob) (va : Word) (len : Nat) (before : List Byte) (n : Nat) (w : State) (bs : List Byte) =>
    n = piece s (len - before.length) ∧ pontoonRead s s.inp.a j.req (va + wNat before.length) n = .ok (w, bs)
  let hold := fun (w : State) (gc : Nat) (j : PJob) => w.modPontoon gc fun po => { po with job := some j }
  let loads := fun (s : State) (j : PJob) =>
    runningJob s s.inp.a = some j ∧ j.tiles.length < 2 ∧ j.ksteps + j.tiles.length < j.req.kst
  let tileAt := fun (j : PJob) => j.req.base + wNat (1024 * (j.ksteps + j.tiles.length))
  let stageOf := fun (s : State) (n t : Nat) (x : Ring) (k : Nat) =>
    x = ringOf s s.inp.a n ∧ k = t % x.nst ∧ (x.stage k).own ≤ x.np ∧ x.kind (x.stage k).own = 2 ∧ (x.stage k).tag = t % 2 ^ 16
  let freed := fun (s : State) (n t k : Nat) => modRing s s.inp.a n fun x =>
    if (x.stage k).own = 0 then x.fill k t else x.release k
  let streams := fun (s : State) (j : PJob) (tile : List Int) (rest : List (List Int)) =>
    let po := s.pontoon s.inp.a
    runningJob s s.inp.a = some j ∧ j.tiles = tile :: rest ∧ po.preempt = false ∧ po.drift < 2
  let actsAt := fun (j : PJob) => j.req.dw 2 + wNat (32 * j.req.depth * j.ksteps)
  let stepped := fun (s w : State) (j : PJob) (tile : List Int) (rest : List (List Int)) (bs : List Byte) =>
    let r := j.req
    let drift := (s.pontoon s.inp.a).drift
    { j with
      n := streamTile tile r.split r.gain r.shift r.depth (if drift = 0 then 1 else 3) w.freeCtr
        (fun b => ((bs.drop (32 * b)).take 32).map BitVec.toNat) 0 j.n
      cs := (List.range 32).foldl (fun m i => m.put i (m.get i 0 + rowSum tile i (List.replicate 32 1))) j.cs
      tiles := rest, acts := [], ksteps := j.ksteps + 1, worst := max j.worst (min drift 1) }
  let drawn := fun (w : State) (r : Request) => ({ w with freeCtr := w.freeCtr + (passes r.split).length * (r.depth * 32) } : State)
  ∃ j n w bs, MetHappens .tileLoad
    (fun s => loads s j ∧ j.req.wk = false ∧ reads s j (tileAt j) 1024 j.got n w bs ∧ n = 1024 - j.got.length ∧
      (j.got ++ bs).contains 0x80 = false)
    (fun s => hold w s.inp.a { j with tiles := j.tiles ++ [(j.got ++ bs).map fun x => x.toInt], got := [] }) :=
  ⟨{ req := { op := 0x9F, base := 0x4000, ln := 1, vrec := BitVec.ofNat 512 (0x5000 * 2 ^ 128 + 0x10002 * 2 ^ 320) } }, 1024, _, _, ({ inp := { a := 0 }, tide := 20000, clusters := [(0, { tlb := [flat], pontoonUp := true, pontoon := { job := some { req := { op := 0x9F, base := 0x4000, ln := 1, vrec := BitVec.ofNat 512 (0x5000 * 2 ^ 128 + 0x10002 * 2 ^ 320) } } } })] }), ⟨⟨(by decide +kernel), (by decide +kernel), (by decide +kernel)⟩, (by decide +kernel), ⟨(by decide +kernel), (fine_pair (by decide +kernel))⟩, (by decide +kernel), (by decide +kernel)⟩⟩

theorem met_JobStepsComplete_4 :
  let ended := fun (t : State) (gc : Nat) (j : PJob) (status : Nat) =>
    post (releaseHolds (if status = 0 then t else leaveRows t gc j) j.req) (640 + gc) j.req (frameOf status 1 j.req.rid.toNat j.rel.length
      (j.flags / 128 + 2 ^ 5 * j.worst + 2 ^ 7 * b2n j.parkedOnce + 2 ^ 32 * j.ksteps))
  let piece := fun (s : State) (left : Nat) => if s.inp.w.toNat = 0 then left else min left (32 * s.inp.w.toNat)
  let reads := fun (s : State) (j : PJob) (va : Word) (len : Nat) (before : List Byte) (n : Nat) (w : State) (bs : List Byte) =>
    n = piece s (len - before.length) ∧ pontoonRead s s.inp.a j.req (va + wNat before.length) n = .ok (w, bs)
  let hold := fun (w : State) (gc : Nat) (j : PJob) => w.modPontoon gc fun po => { po with job := some j }
  let loads := fun (s : State) (j : PJob) =>
    runningJob s s.inp.a = some j ∧ j.tiles.length < 2 ∧ j.ksteps + j.tiles.length < j.req.kst
  let tileAt := fun (j : PJob) => j.req.base + wNat (1024 * (j.ksteps + j.tiles.length))
  let stageOf := fun (s : State) (n t : Nat) (x : Ring) (k : Nat) =>
    x = ringOf s s.inp.a n ∧ k = t % x.nst ∧ (x.stage k).own ≤ x.np ∧ x.kind (x.stage k).own = 2 ∧ (x.stage k).tag = t % 2 ^ 16
  let freed := fun (s : State) (n t k : Nat) => modRing s s.inp.a n fun x =>
    if (x.stage k).own = 0 then x.fill k t else x.release k
  let streams := fun (s : State) (j : PJob) (tile : List Int) (rest : List (List Int)) =>
    let po := s.pontoon s.inp.a
    runningJob s s.inp.a = some j ∧ j.tiles = tile :: rest ∧ po.preempt = false ∧ po.drift < 2
  let actsAt := fun (j : PJob) => j.req.dw 2 + wNat (32 * j.req.depth * j.ksteps)
  let stepped := fun (s w : State) (j : PJob) (tile : List Int) (rest : List (List Int)) (bs : List Byte) =>
    let r := j.req
    let drift := (s.pontoon s.inp.a).drift
    { j with
      n := streamTile tile r.split r.gain r.shift r.depth (if drift = 0 then 1 else 3) w.freeCtr
        (fun b => ((bs.drop (32 * b)).take 32).map BitVec.toNat) 0 j.n
      cs := (List.range 32).foldl (fun m i => m.put i (m.get i 0 + rowSum tile i (List.replicate 32 1))) j.cs
      tiles := rest, acts := [], ksteps := j.ksteps + 1, worst := max j.worst (min drift 1) }
  let drawn := fun (w : State) (r : Request) => ({ w with freeCtr := w.freeCtr + (passes r.split).length * (r.depth * 32) } : State)
  ∃ j n w bs, MetHappens .tileLoad
    (fun s => loads s j ∧ j.req.wk = false ∧ reads s j (tileAt j) 1024 j.got n w bs ∧ n < 1024 - j.got.length)
    (fun s => hold w s.inp.a { j with got := j.got ++ bs }) :=
  ⟨{ req := { op := 0x9F, base := 0x4000, ln := 1, vrec := BitVec.ofNat 512 (0x5000 * 2 ^ 128 + 0x10002 * 2 ^ 320) } }, 128, _, _, ({ inp := { a := 0, w := 4 }, tide := 20000, clusters := [(0, { tlb := [flat], pontoonUp := true, pontoon := { job := some { req := { op := 0x9F, base := 0x4000, ln := 1, vrec := BitVec.ofNat 512 (0x5000 * 2 ^ 128 + 0x10002 * 2 ^ 320) } } } })] }), ⟨⟨(by decide +kernel), (by decide +kernel), (by decide +kernel)⟩, (by decide +kernel), ⟨(by decide +kernel), (fine_pair (by decide +kernel))⟩, (by decide +kernel)⟩⟩

theorem met_JobStepsComplete_5 :
  let ended := fun (t : State) (gc : Nat) (j : PJob) (status : Nat) =>
    post (releaseHolds (if status = 0 then t else leaveRows t gc j) j.req) (640 + gc) j.req (frameOf status 1 j.req.rid.toNat j.rel.length
      (j.flags / 128 + 2 ^ 5 * j.worst + 2 ^ 7 * b2n j.parkedOnce + 2 ^ 32 * j.ksteps))
  let piece := fun (s : State) (left : Nat) => if s.inp.w.toNat = 0 then left else min left (32 * s.inp.w.toNat)
  let reads := fun (s : State) (j : PJob) (va : Word) (len : Nat) (before : List Byte) (n : Nat) (w : State) (bs : List Byte) =>
    n = piece s (len - before.length) ∧ pontoonRead s s.inp.a j.req (va + wNat before.length) n = .ok (w, bs)
  let hold := fun (w : State) (gc : Nat) (j : PJob) => w.modPontoon gc fun po => { po with job := some j }
  let loads := fun (s : State) (j : PJob) =>
    runningJob s s.inp.a = some j ∧ j.tiles.length < 2 ∧ j.ksteps + j.tiles.length < j.req.kst
  let tileAt := fun (j : PJob) => j.req.base + wNat (1024 * (j.ksteps + j.tiles.length))
  let stageOf := fun (s : State) (n t : Nat) (x : Ring) (k : Nat) =>
    x = ringOf s s.inp.a n ∧ k = t % x.nst ∧ (x.stage k).own ≤ x.np ∧ x.kind (x.stage k).own = 2 ∧ (x.stage k).tag = t % 2 ^ 16
  let freed := fun (s : State) (n t k : Nat) => modRing s s.inp.a n fun x =>
    if (x.stage k).own = 0 then x.fill k t else x.release k
  let streams := fun (s : State) (j : PJob) (tile : List Int) (rest : List (List Int)) =>
    let po := s.pontoon s.inp.a
    runningJob s s.inp.a = some j ∧ j.tiles = tile :: rest ∧ po.preempt = false ∧ po.drift < 2
  let actsAt := fun (j : PJob) => j.req.dw 2 + wNat (32 * j.req.depth * j.ksteps)
  let stepped := fun (s w : State) (j : PJob) (tile : List Int) (rest : List (List Int)) (bs : List Byte) =>
    let r := j.req
    let drift := (s.pontoon s.inp.a).drift
    { j with
      n := streamTile tile r.split r.gain r.shift r.depth (if drift = 0 then 1 else 3) w.freeCtr
        (fun b => ((bs.drop (32 * b)).take 32).map BitVec.toNat) 0 j.n
      cs := (List.range 32).foldl (fun m i => m.put i (m.get i 0 + rowSum tile i (List.replicate 32 1))) j.cs
      tiles := rest, acts := [], ksteps := j.ksteps + 1, worst := max j.worst (min drift 1) }
  let drawn := fun (w : State) (r : Request) => ({ w with freeCtr := w.freeCtr + (passes r.split).length * (r.depth * 32) } : State)
  ∃ j n w bs, MetHappens .tileLoad
    (fun s => loads s j ∧ j.req.wk = false ∧ reads s j (tileAt j) 1024 j.got n w bs ∧ n = 1024 - j.got.length ∧
      (j.got ++ bs).contains 0x80 = true)
    (fun s => hold w s.inp.a { j with fail := some 0x72 }) :=
  ⟨{ req := { op := 0x9F, base := 0x4000, ln := 1, vrec := BitVec.ofNat 512 (0x5000 * 2 ^ 128 + 0x10002 * 2 ^ 320) } }, 1024, _, _, ({ inp := { a := 0 }, tide := 20000, clusters := [(0, { tlb := [flat], pontoonUp := true, pontoon := { job := some { req := { op := 0x9F, base := 0x4000, ln := 1, vrec := BitVec.ofNat 512 (0x5000 * 2 ^ 128 + 0x10002 * 2 ^ 320) } } } })], mem := [(0x4000, 0x80)] }), ⟨⟨(by decide +kernel), (by decide +kernel), (by decide +kernel)⟩, (by decide +kernel), ⟨(by decide +kernel), (fine_pair (by decide +kernel))⟩, (by decide +kernel), (by decide +kernel)⟩⟩

theorem met_JobStepsComplete_6 :
  let ended := fun (t : State) (gc : Nat) (j : PJob) (status : Nat) =>
    post (releaseHolds (if status = 0 then t else leaveRows t gc j) j.req) (640 + gc) j.req (frameOf status 1 j.req.rid.toNat j.rel.length
      (j.flags / 128 + 2 ^ 5 * j.worst + 2 ^ 7 * b2n j.parkedOnce + 2 ^ 32 * j.ksteps))
  let piece := fun (s : State) (left : Nat) => if s.inp.w.toNat = 0 then left else min left (32 * s.inp.w.toNat)
  let reads := fun (s : State) (j : PJob) (va : Word) (len : Nat) (before : List Byte) (n : Nat) (w : State) (bs : List Byte) =>
    n = piece s (len - before.length) ∧ pontoonRead s s.inp.a j.req (va + wNat before.length) n = .ok (w, bs)
  let hold := fun (w : State) (gc : Nat) (j : PJob) => w.modPontoon gc fun po => { po with job := some j }
  let loads := fun (s : State) (j : PJob) =>
    runningJob s s.inp.a = some j ∧ j.tiles.length < 2 ∧ j.ksteps + j.tiles.length < j.req.kst
  let tileAt := fun (j : PJob) => j.req.base + wNat (1024 * (j.ksteps + j.tiles.length))
  let stageOf := fun (s : State) (n t : Nat) (x : Ring) (k : Nat) =>
    x = ringOf s s.inp.a n ∧ k = t % x.nst ∧ (x.stage k).own ≤ x.np ∧ x.kind (x.stage k).own = 2 ∧ (x.stage k).tag = t % 2 ^ 16
  let freed := fun (s : State) (n t k : Nat) => modRing s s.inp.a n fun x =>
    if (x.stage k).own = 0 then x.fill k t else x.release k
  let streams := fun (s : State) (j : PJob) (tile : List Int) (rest : List (List Int)) =>
    let po := s.pontoon s.inp.a
    runningJob s s.inp.a = some j ∧ j.tiles = tile :: rest ∧ po.preempt = false ∧ po.drift < 2
  let actsAt := fun (j : PJob) => j.req.dw 2 + wNat (32 * j.req.depth * j.ksteps)
  let stepped := fun (s w : State) (j : PJob) (tile : List Int) (rest : List (List Int)) (bs : List Byte) =>
    let r := j.req
    let drift := (s.pontoon s.inp.a).drift
    { j with
      n := streamTile tile r.split r.gain r.shift r.depth (if drift = 0 then 1 else 3) w.freeCtr
        (fun b => ((bs.drop (32 * b)).take 32).map BitVec.toNat) 0 j.n
      cs := (List.range 32).foldl (fun m i => m.put i (m.get i 0 + rowSum tile i (List.replicate 32 1))) j.cs
      tiles := rest, acts := [], ksteps := j.ksteps + 1, worst := max j.worst (min drift 1) }
  let drawn := fun (w : State) (r : Request) => ({ w with freeCtr := w.freeCtr + (passes r.split).length * (r.depth * 32) } : State)
  ∃ j n t x k bs, MetHappens .tileLoad
    (fun s => loads s j ∧ j.req.wk = true ∧ n = fld (j.req.dw 3) 0 4 ∧ t = fld (j.req.dw 3) 16 16 + (j.ksteps + j.tiles.length) ∧
      stageOf s n t x k ∧ bs = ((List.range 1024).map fun i => s.byteAt (spKey s.inp.a (x.base k + i))) ∧ bs.contains 0x80 = false)
    (fun s => hold (freed s n t k) s.inp.a { j with tiles := j.tiles ++ [bs.map fun b => b.toInt], got := [] }) :=
  ⟨{ req := { op := 0x9F, ln := 1, vrec := BitVec.ofNat 512 (21 * 2 ^ 192) } }, 5, 0, _, _, _, ({ inp := { a := 0 }, tide := 20000, clusters := [(0, { tlb := [flat], pontoonUp := true, pontoon := { job := some { req := { op := 0x9F, ln := 1, vrec := BitVec.ofNat 512 (21 * 2 ^ 192) } } }, rings := [(5, { cfg := 0x4000800, party := 0x80000000, inflight := 1, stages := [(0, { full := true, own := 1 })] })] })] }), ⟨⟨(by decide +kernel), (by decide +kernel), (by decide +kernel)⟩, (by decide +kernel), (by decide +kernel), (by decide +kernel), ⟨rfl, rfl, (by decide +kernel), (by decide +kernel), (by decide +kernel)⟩, rfl, (by decide +kernel)⟩⟩

theorem met_JobStepsComplete_7 :
  let ended := fun (t : State) (gc : Nat) (j : PJob) (status : Nat) =>
    post (releaseHolds (if status = 0 then t else leaveRows t gc j) j.req) (640 + gc) j.req (frameOf status 1 j.req.rid.toNat j.rel.length
      (j.flags / 128 + 2 ^ 5 * j.worst + 2 ^ 7 * b2n j.parkedOnce + 2 ^ 32 * j.ksteps))
  let piece := fun (s : State) (left : Nat) => if s.inp.w.toNat = 0 then left else min left (32 * s.inp.w.toNat)
  let reads := fun (s : State) (j : PJob) (va : Word) (len : Nat) (before : List Byte) (n : Nat) (w : State) (bs : List Byte) =>
    n = piece s (len - before.length) ∧ pontoonRead s s.inp.a j.req (va + wNat before.length) n = .ok (w, bs)
  let hold := fun (w : State) (gc : Nat) (j : PJob) => w.modPontoon gc fun po => { po with job := some j }
  let loads := fun (s : State) (j : PJob) =>
    runningJob s s.inp.a = some j ∧ j.tiles.length < 2 ∧ j.ksteps + j.tiles.length < j.req.kst
  let tileAt := fun (j : PJob) => j.req.base + wNat (1024 * (j.ksteps + j.tiles.length))
  let stageOf := fun (s : State) (n t : Nat) (x : Ring) (k : Nat) =>
    x = ringOf s s.inp.a n ∧ k = t % x.nst ∧ (x.stage k).own ≤ x.np ∧ x.kind (x.stage k).own = 2 ∧ (x.stage k).tag = t % 2 ^ 16
  let freed := fun (s : State) (n t k : Nat) => modRing s s.inp.a n fun x =>
    if (x.stage k).own = 0 then x.fill k t else x.release k
  let streams := fun (s : State) (j : PJob) (tile : List Int) (rest : List (List Int)) =>
    let po := s.pontoon s.inp.a
    runningJob s s.inp.a = some j ∧ j.tiles = tile :: rest ∧ po.preempt = false ∧ po.drift < 2
  let actsAt := fun (j : PJob) => j.req.dw 2 + wNat (32 * j.req.depth * j.ksteps)
  let stepped := fun (s w : State) (j : PJob) (tile : List Int) (rest : List (List Int)) (bs : List Byte) =>
    let r := j.req
    let drift := (s.pontoon s.inp.a).drift
    { j with
      n := streamTile tile r.split r.gain r.shift r.depth (if drift = 0 then 1 else 3) w.freeCtr
        (fun b => ((bs.drop (32 * b)).take 32).map BitVec.toNat) 0 j.n
      cs := (List.range 32).foldl (fun m i => m.put i (m.get i 0 + rowSum tile i (List.replicate 32 1))) j.cs
      tiles := rest, acts := [], ksteps := j.ksteps + 1, worst := max j.worst (min drift 1) }
  let drawn := fun (w : State) (r : Request) => ({ w with freeCtr := w.freeCtr + (passes r.split).length * (r.depth * 32) } : State)
  ∃ j tile rest n w bs, MetHappens .tileStream
    (fun s => streams s j tile rest ∧ j.req.ik = false ∧ (j.ksteps + 1) % j.req.interval ≠ 0 ∧
      reads s j (actsAt j) (32 * j.req.depth) j.acts n w bs ∧ n = 32 * j.req.depth - j.acts.length)
    (fun s => hold (drawn w j.req) s.inp.a (stepped s w j tile rest (j.acts ++ bs))) :=
  ⟨{ req := { op := 0x9F, vrec := BitVec.ofNat 512 (2 ^ 22 + 2 ^ 12 + 0x5000 * 2 ^ 128) }, tiles := [List.replicate 1024 1] }, _, _, 32, _, _, ({ inp := { a := 0 }, tide := 20000, clusters := [(0, { tlb := [flat], pontoonUp := true, pontoon := { job := some { req := { op := 0x9F, vrec := BitVec.ofNat 512 (2 ^ 22 + 2 ^ 12 + 0x5000 * 2 ^ 128) }, tiles := [List.replicate 1024 1] } } })] }), ⟨⟨(by decide +kernel), rfl, (by decide +kernel), (by decide +kernel)⟩, (by decide +kernel), (by decide +kernel), ⟨(by decide +kernel), (fine_pair (by decide +kernel))⟩, (by decide +kernel)⟩⟩

theorem met_JobStepsComplete_8 :
  let ended := fun (t : State) (gc : Nat) (j : PJob) (status : Nat) =>
    post (releaseHolds (if status = 0 then t else leaveRows t gc j) j.req) (640 + gc) j.req (frameOf status 1 j.req.rid.toNat j.rel.length
      (j.flags / 128 + 2 ^ 5 * j.worst + 2 ^ 7 * b2n j.parkedOnce + 2 ^ 32 * j.ksteps))
  let piece := fun (s : State) (left : Nat) => if s.inp.w.toNat = 0 then left else min left (32 * s.inp.w.toNat)
  let reads := fun (s : State) (j : PJob) (va : Word) (len : Nat) (before : List Byte) (n : Nat) (w : State) (bs : List Byte) =>
    n = piece s (len - before.length) ∧ pontoonRead s s.inp.a j.req (va + wNat before.length) n = .ok (w, bs)
  let hold := fun (w : State) (gc : Nat) (j : PJob) => w.modPontoon gc fun po => { po with job := some j }
  let loads := fun (s : State) (j : PJob) =>
    runningJob s s.inp.a = some j ∧ j.tiles.length < 2 ∧ j.ksteps + j.tiles.length < j.req.kst
  let tileAt := fun (j : PJob) => j.req.base + wNat (1024 * (j.ksteps + j.tiles.length))
  let stageOf := fun (s : State) (n t : Nat) (x : Ring) (k : Nat) =>
    x = ringOf s s.inp.a n ∧ k = t % x.nst ∧ (x.stage k).own ≤ x.np ∧ x.kind (x.stage k).own = 2 ∧ (x.stage k).tag = t % 2 ^ 16
  let freed := fun (s : State) (n t k : Nat) => modRing s s.inp.a n fun x =>
    if (x.stage k).own = 0 then x.fill k t else x.release k
  let streams := fun (s : State) (j : PJob) (tile : List Int) (rest : List (List Int)) =>
    let po := s.pontoon s.inp.a
    runningJob s s.inp.a = some j ∧ j.tiles = tile :: rest ∧ po.preempt = false ∧ po.drift < 2
  let actsAt := fun (j : PJob) => j.req.dw 2 + wNat (32 * j.req.depth * j.ksteps)
  let stepped := fun (s w : State) (j : PJob) (tile : List Int) (rest : List (List Int)) (bs : List Byte) =>
    let r := j.req
    let drift := (s.pontoon s.inp.a).drift
    { j with
      n := streamTile tile r.split r.gain r.shift r.depth (if drift = 0 then 1 else 3) w.freeCtr
        (fun b => ((bs.drop (32 * b)).take 32).map BitVec.toNat) 0 j.n
      cs := (List.range 32).foldl (fun m i => m.put i (m.get i 0 + rowSum tile i (List.replicate 32 1))) j.cs
      tiles := rest, acts := [], ksteps := j.ksteps + 1, worst := max j.worst (min drift 1) }
  let drawn := fun (w : State) (r : Request) => ({ w with freeCtr := w.freeCtr + (passes r.split).length * (r.depth * 32) } : State)
  ∃ j tile rest n w bs, MetHappens .tileStream
    (fun s => streams s j tile rest ∧ j.req.ik = false ∧
      ((j.ksteps + 1) % j.req.interval ≠ 0 ∨ (s.pontoon s.inp.a).tail = none) ∧
      reads s j (actsAt j) (32 * j.req.depth) j.acts n w bs ∧ n < 32 * j.req.depth - j.acts.length)
    (fun s => hold w s.inp.a { j with acts := j.acts ++ bs }) :=
  ⟨{ req := { op := 0x9F, vrec := BitVec.ofNat 512 (2 ^ 22 + 2 ^ 12 + 2 ^ 6 + 0x5000 * 2 ^ 128) }, tiles := [List.replicate 1024 1] }, _, _, 32, _, _, ({ inp := { a := 0, w := 1 }, tide := 20000, clusters := [(0, { tlb := [flat], pontoonUp := true, pontoon := { job := some { req := { op := 0x9F, vrec := BitVec.ofNat 512 (2 ^ 22 + 2 ^ 12 + 2 ^ 6 + 0x5000 * 2 ^ 128) }, tiles := [List.replicate 1024 1] } } })] }), ⟨⟨(by decide +kernel), rfl, (by decide +kernel), (by decide +kernel)⟩, (by decide +kernel), .inl (by decide +kernel), ⟨(by decide +kernel), (fine_pair (by decide +kernel))⟩, (by decide +kernel)⟩⟩

theorem met_JobStepsComplete_9 :
  let ended := fun (t : State) (gc : Nat) (j : PJob) (status : Nat) =>
    post (releaseHolds (if status = 0 then t else leaveRows t gc j) j.req) (640 + gc) j.req (frameOf status 1 j.req.rid.toNat j.rel.length
      (j.flags / 128 + 2 ^ 5 * j.worst + 2 ^ 7 * b2n j.parkedOnce + 2 ^ 32 * j.ksteps))
  let piece := fun (s : State) (left : Nat) => if s.inp.w.toNat = 0 then left else min left (32 * s.inp.w.toNat)
  let reads := fun (s : State) (j : PJob) (va : Word) (len : Nat) (before : List Byte) (n : Nat) (w : State) (bs : List Byte) =>
    n = piece s (len - before.length) ∧ pontoonRead s s.inp.a j.req (va + wNat before.length) n = .ok (w, bs)
  let hold := fun (w : State) (gc : Nat) (j : PJob) => w.modPontoon gc fun po => { po with job := some j }
  let loads := fun (s : State) (j : PJob) =>
    runningJob s s.inp.a = some j ∧ j.tiles.length < 2 ∧ j.ksteps + j.tiles.length < j.req.kst
  let tileAt := fun (j : PJob) => j.req.base + wNat (1024 * (j.ksteps + j.tiles.length))
  let stageOf := fun (s : State) (n t : Nat) (x : Ring) (k : Nat) =>
    x = ringOf s s.inp.a n ∧ k = t % x.nst ∧ (x.stage k).own ≤ x.np ∧ x.kind (x.stage k).own = 2 ∧ (x.stage k).tag = t % 2 ^ 16
  let freed := fun (s : State) (n t k : Nat) => modRing s s.inp.a n fun x =>
    if (x.stage k).own = 0 then x.fill k t else x.release k
  let streams := fun (s : State) (j : PJob) (tile : List Int) (rest : List (List Int)) =>
    let po := s.pontoon s.inp.a
    runningJob s s.inp.a = some j ∧ j.tiles = tile :: rest ∧ po.preempt = false ∧ po.drift < 2
  let actsAt := fun (j : PJob) => j.req.dw 2 + wNat (32 * j.req.depth * j.ksteps)
  let stepped := fun (s w : State) (j : PJob) (tile : List Int) (rest : List (List Int)) (bs : List Byte) =>
    let r := j.req
    let drift := (s.pontoon s.inp.a).drift
    { j with
      n := streamTile tile r.split r.gain r.shift r.depth (if drift = 0 then 1 else 3) w.freeCtr
        (fun b => ((bs.drop (32 * b)).take 32).map BitVec.toNat) 0 j.n
      cs := (List.range 32).foldl (fun m i => m.put i (m.get i 0 + rowSum tile i (List.replicate 32 1))) j.cs
      tiles := rest, acts := [], ksteps := j.ksteps + 1, worst := max j.worst (min drift 1) }
  let drawn := fun (w : State) (r : Request) => ({ w with freeCtr := w.freeCtr + (passes r.split).length * (r.depth * 32) } : State)
  ∃ j tile rest n t x k, MetHappens .tileStream
    (fun s => streams s j tile rest ∧ j.req.ik = true ∧ (j.ksteps + 1) % j.req.interval ≠ 0 ∧ n = fld (j.req.dw 3) 8 4 ∧
      t = fld (j.req.dw 3) 32 16 + j.ksteps ∧ stageOf s n t x k)
    (fun s => hold (freed (drawn s j.req) n t k) s.inp.a (stepped s s j tile rest
      ((List.range (32 * j.req.depth)).map fun i => s.byteAt (spKey s.inp.a ((ringOf s s.inp.a n).base k + i))))) :=
  ⟨{ req := { op := 0x9F, vrec := BitVec.ofNat 512 (2 ^ 22 + 2 ^ 12 + (2 ^ 12 + 5 * 2 ^ 8) * 2 ^ 192) }, tiles := [List.replicate 1024 1] }, _, _, 5, 0, _, _, ({ inp := { a := 0 }, tide := 20000, clusters := [(0, { tlb := [flat], pontoonUp := true, pontoon := { job := some { req := { op := 0x9F, vrec := BitVec.ofNat 512 (2 ^ 22 + 2 ^ 12 + (2 ^ 12 + 5 * 2 ^ 8) * 2 ^ 192) }, tiles := [List.replicate 1024 1] } }, rings := [(5, { cfg := 0x4000800, party := 0x80000000, inflight := 1, stages := [(0, { full := true, own := 1 })] })] })] }), ⟨⟨(by decide +kernel), rfl, (by decide +kernel), (by decide +kernel)⟩, (by decide +kernel), (by decide +kernel), (by decide +kernel), (by decide +kernel), ⟨rfl, rfl, (by decide +kernel), (by decide +kernel), (by decide +kernel)⟩⟩⟩

theorem met_JobStepsComplete_10 :
  let ended := fun (t : State) (gc : Nat) (j : PJob) (status : Nat) =>
    post (releaseHolds (if status = 0 then t else leaveRows t gc j) j.req) (640 + gc) j.req (frameOf status 1 j.req.rid.toNat j.rel.length
      (j.flags / 128 + 2 ^ 5 * j.worst + 2 ^ 7 * b2n j.parkedOnce + 2 ^ 32 * j.ksteps))
  let piece := fun (s : State) (left : Nat) => if s.inp.w.toNat = 0 then left else min left (32 * s.inp.w.toNat)
  let reads := fun (s : State) (j : PJob) (va : Word) (len : Nat) (before : List Byte) (n : Nat) (w : State) (bs : List Byte) =>
    n = piece s (len - before.length) ∧ pontoonRead s s.inp.a j.req (va + wNat before.length) n = .ok (w, bs)
  let hold := fun (w : State) (gc : Nat) (j : PJob) => w.modPontoon gc fun po => { po with job := some j }
  let loads := fun (s : State) (j : PJob) =>
    runningJob s s.inp.a = some j ∧ j.tiles.length < 2 ∧ j.ksteps + j.tiles.length < j.req.kst
  let tileAt := fun (j : PJob) => j.req.base + wNat (1024 * (j.ksteps + j.tiles.length))
  let stageOf := fun (s : State) (n t : Nat) (x : Ring) (k : Nat) =>
    x = ringOf s s.inp.a n ∧ k = t % x.nst ∧ (x.stage k).own ≤ x.np ∧ x.kind (x.stage k).own = 2 ∧ (x.stage k).tag = t % 2 ^ 16
  let freed := fun (s : State) (n t k : Nat) => modRing s s.inp.a n fun x =>
    if (x.stage k).own = 0 then x.fill k t else x.release k
  let streams := fun (s : State) (j : PJob) (tile : List Int) (rest : List (List Int)) =>
    let po := s.pontoon s.inp.a
    runningJob s s.inp.a = some j ∧ j.tiles = tile :: rest ∧ po.preempt = false ∧ po.drift < 2
  let actsAt := fun (j : PJob) => j.req.dw 2 + wNat (32 * j.req.depth * j.ksteps)
  let stepped := fun (s w : State) (j : PJob) (tile : List Int) (rest : List (List Int)) (bs : List Byte) =>
    let r := j.req
    let drift := (s.pontoon s.inp.a).drift
    { j with
      n := streamTile tile r.split r.gain r.shift r.depth (if drift = 0 then 1 else 3) w.freeCtr
        (fun b => ((bs.drop (32 * b)).take 32).map BitVec.toNat) 0 j.n
      cs := (List.range 32).foldl (fun m i => m.put i (m.get i 0 + rowSum tile i (List.replicate 32 1))) j.cs
      tiles := rest, acts := [], ksteps := j.ksteps + 1, worst := max j.worst (min drift 1) }
  let drawn := fun (w : State) (r : Request) => ({ w with freeCtr := w.freeCtr + (passes r.split).length * (r.depth * 32) } : State)
  ∃ j tile rest n w bs, MetHappensTo .tileStream
    (fun s => streams s j tile rest ∧ j.req.ik = false ∧ (j.ksteps + 1) % j.req.interval = 0 ∧ (s.pontoon s.inp.a).tail = none ∧
      j.req.scm = false ∧ reads s j (actsAt j) (32 * j.req.depth) j.acts n w bs ∧ n = 32 * j.req.depth - j.acts.length)
    (fun s t =>
      let r := j.req
      let m := stepped s w j tile rest (j.acts ++ bs)
      let e := promoteAll m.n j.a r.depth r.gain r.shift ((j.ksteps + 1) / r.interval - 1) r.ctl (fun _ => (r.dw 4).toNat % 2 ^ 32)
        fun i => if r.split = 1 then 128 * m.cs.get i 0 else if r.split = 2 then r.zp * m.cs.get i 0 else 0
      ∃ k, (t.pontoon s.inp.a).job = some k ∧ k.a = e.1 ∧ k.n = [] ∧ k.cs = [] ∧ k.flags = j.flags ||| e.2 ∧
        k.promos = j.promos + 1 ∧ k.ksteps = j.ksteps + 1) :=
  ⟨{ req := { op := 0x9F, vrec := BitVec.ofNat 512 (0x5000 * 2 ^ 128) }, tiles := [List.replicate 1024 1] }, _, _, 32, _, _, ({ inp := { a := 0 }, tide := 20000, clusters := [(0, { tlb := [flat], pontoonUp := true, pontoon := { job := some { req := { op := 0x9F, vrec := BitVec.ofNat 512 (0x5000 * 2 ^ 128) }, tiles := [List.replicate 1024 1] } } })] }), ⟨⟨(by decide +kernel), rfl, (by decide +kernel), (by decide +kernel)⟩, (by decide +kernel), (by decide +kernel), (by decide +kernel), (by decide +kernel), ⟨(by decide +kernel), (fine_pair (by decide +kernel))⟩, (by decide +kernel)⟩⟩

theorem met_JobStepsComplete_11 :
  let ended := fun (t : State) (gc : Nat) (j : PJob) (status : Nat) =>
    post (releaseHolds (if status = 0 then t else leaveRows t gc j) j.req) (640 + gc) j.req (frameOf status 1 j.req.rid.toNat j.rel.length
      (j.flags / 128 + 2 ^ 5 * j.worst + 2 ^ 7 * b2n j.parkedOnce + 2 ^ 32 * j.ksteps))
  let piece := fun (s : State) (left : Nat) => if s.inp.w.toNat = 0 then left else min left (32 * s.inp.w.toNat)
  let reads := fun (s : State) (j : PJob) (va : Word) (len : Nat) (before : List Byte) (n : Nat) (w : State) (bs : List Byte) =>
    n = piece s (len - before.length) ∧ pontoonRead s s.inp.a j.req (va + wNat before.length) n = .ok (w, bs)
  let hold := fun (w : State) (gc : Nat) (j : PJob) => w.modPontoon gc fun po => { po with job := some j }
  let loads := fun (s : State) (j : PJob) =>
    runningJob s s.inp.a = some j ∧ j.tiles.length < 2 ∧ j.ksteps + j.tiles.length < j.req.kst
  let tileAt := fun (j : PJob) => j.req.base + wNat (1024 * (j.ksteps + j.tiles.length))
  let stageOf := fun (s : State) (n t : Nat) (x : Ring) (k : Nat) =>
    x = ringOf s s.inp.a n ∧ k = t % x.nst ∧ (x.stage k).own ≤ x.np ∧ x.kind (x.stage k).own = 2 ∧ (x.stage k).tag = t % 2 ^ 16
  let freed := fun (s : State) (n t k : Nat) => modRing s s.inp.a n fun x =>
    if (x.stage k).own = 0 then x.fill k t else x.release k
  let streams := fun (s : State) (j : PJob) (tile : List Int) (rest : List (List Int)) =>
    let po := s.pontoon s.inp.a
    runningJob s s.inp.a = some j ∧ j.tiles = tile :: rest ∧ po.preempt = false ∧ po.drift < 2
  let actsAt := fun (j : PJob) => j.req.dw 2 + wNat (32 * j.req.depth * j.ksteps)
  let stepped := fun (s w : State) (j : PJob) (tile : List Int) (rest : List (List Int)) (bs : List Byte) =>
    let r := j.req
    let drift := (s.pontoon s.inp.a).drift
    { j with
      n := streamTile tile r.split r.gain r.shift r.depth (if drift = 0 then 1 else 3) w.freeCtr
        (fun b => ((bs.drop (32 * b)).take 32).map BitVec.toNat) 0 j.n
      cs := (List.range 32).foldl (fun m i => m.put i (m.get i 0 + rowSum tile i (List.replicate 32 1))) j.cs
      tiles := rest, acts := [], ksteps := j.ksteps + 1, worst := max j.worst (min drift 1) }
  let drawn := fun (w : State) (r : Request) => ({ w with freeCtr := w.freeCtr + (passes r.split).length * (r.depth * 32) } : State)
  ∃ j g, MetHappens .rowDispatch
    (fun s =>
      let po := s.pontoon s.inp.a
      po.tow = none ∧ po.job = some j ∧ s.frozen s.inp.a = false ∧ j.ksteps = j.req.kst ∧ j.next < j.req.depth ∧ j.fail = none ∧
      po.preempt = false ∧ rowsOutstanding po < 8 ∧ (s.proc (hartQOf (640 + s.inp.a))).stopped = false ∧
      rowTarget s s.inp.a j.req = some g ∧ j.req.oen = false)
    (fun s => (startHandler s g s.inp.a j.next j.req j.a j.req.rid (j.req.dw 5) (j.req.dw 6) none false).modPontoon s.inp.a fun po =>
      { po with job := some { j with next := j.next + 1, out := j.out ++ [j.next] } }) :=
  ⟨{ req := { op := 0x9F, base := 0x4000, ln := 1, vrec := BitVec.ofNat 512 (0x5000 * 2 ^ 128 + 0x10002 * 2 ^ 320) }, ksteps := 1, a := [(64, 5)] }, 0, ({ inp := { a := 0 }, tide := 20000, clusters := [(0, { tlb := [flat], pontoonUp := true, pontoon := { job := some { req := { op := 0x9F, base := 0x4000, ln := 1, vrec := BitVec.ofNat 512 (0x5000 * 2 ^ 128 + 0x10002 * 2 ^ 320) }, ksteps := 1, a := [(64, 5)] } } })], cores := [(0, { owner := some (0, 1) })] }), ⟨(by decide +kernel), (by decide +kernel), (by decide +kernel), (by decide +kernel), (by decide +kernel), (by decide +kernel), (by decide +kernel), (by decide +kernel), (by decide +kernel), (by decide +kernel), (by decide +kernel)⟩⟩

theorem met_JobStepsComplete_12 :
  let ended := fun (t : State) (gc : Nat) (j : PJob) (status : Nat) =>
    post (releaseHolds (if status = 0 then t else leaveRows t gc j) j.req) (640 + gc) j.req (frameOf status 1 j.req.rid.toNat j.rel.length
      (j.flags / 128 + 2 ^ 5 * j.worst + 2 ^ 7 * b2n j.parkedOnce + 2 ^ 32 * j.ksteps))
  let piece := fun (s : State) (left : Nat) => if s.inp.w.toNat = 0 then left else min left (32 * s.inp.w.toNat)
  let reads := fun (s : State) (j : PJob) (va : Word) (len : Nat) (before : List Byte) (n : Nat) (w : State) (bs : List Byte) =>
    n = piece s (len - before.length) ∧ pontoonRead s s.inp.a j.req (va + wNat before.length) n = .ok (w, bs)
  let hold := fun (w : State) (gc : Nat) (j : PJob) => w.modPontoon gc fun po => { po with job := some j }
  let loads := fun (s : State) (j : PJob) =>
    runningJob s s.inp.a = some j ∧ j.tiles.length < 2 ∧ j.ksteps + j.tiles.length < j.req.kst
  let tileAt := fun (j : PJob) => j.req.base + wNat (1024 * (j.ksteps + j.tiles.length))
  let stageOf := fun (s : State) (n t : Nat) (x : Ring) (k : Nat) =>
    x = ringOf s s.inp.a n ∧ k = t % x.nst ∧ (x.stage k).own ≤ x.np ∧ x.kind (x.stage k).own = 2 ∧ (x.stage k).tag = t % 2 ^ 16
  let freed := fun (s : State) (n t k : Nat) => modRing s s.inp.a n fun x =>
    if (x.stage k).own = 0 then x.fill k t else x.release k
  let streams := fun (s : State) (j : PJob) (tile : List Int) (rest : List (List Int)) =>
    let po := s.pontoon s.inp.a
    runningJob s s.inp.a = some j ∧ j.tiles = tile :: rest ∧ po.preempt = false ∧ po.drift < 2
  let actsAt := fun (j : PJob) => j.req.dw 2 + wNat (32 * j.req.depth * j.ksteps)
  let stepped := fun (s w : State) (j : PJob) (tile : List Int) (rest : List (List Int)) (bs : List Byte) =>
    let r := j.req
    let drift := (s.pontoon s.inp.a).drift
    { j with
      n := streamTile tile r.split r.gain r.shift r.depth (if drift = 0 then 1 else 3) w.freeCtr
        (fun b => ((bs.drop (32 * b)).take 32).map BitVec.toNat) 0 j.n
      cs := (List.range 32).foldl (fun m i => m.put i (m.get i 0 + rowSum tile i (List.replicate 32 1))) j.cs
      tiles := rest, acts := [], ksteps := j.ksteps + 1, worst := max j.worst (min drift 1) }
  let drawn := fun (w : State) (r : Request) => ({ w with freeCtr := w.freeCtr + (passes r.split).length * (r.depth * 32) } : State)
  ∃ j, MetHappens .jobComplete
    (fun s => (s.pontoon s.inp.a).tail = none ∧ (s.pontoon s.inp.a).job = some j ∧ j.fail = none ∧ j.ksteps = j.req.kst ∧
      j.rel.length = j.req.depth ∧ handlerLive s s.inp.a (ofJob j) = false)
    (fun s => afterJob s.inp.a (ended (s.modPontoon s.inp.a fun po => { po with job := none }) s.inp.a j 0)) :=
  ⟨{ req := { op := 0x9F, base := 0x4000, ln := 1, vrec := BitVec.ofNat 512 (0x5000 * 2 ^ 128 + 0x10002 * 2 ^ 320) }, ksteps := 1, next := 1, out := [0], rel := [0] }, ({ inp := { a := 0 }, tide := 20000, clusters := [(0, { tlb := [flat], pontoonUp := true, pontoon := { job := some { req := { op := 0x9F, base := 0x4000, ln := 1, vrec := BitVec.ofNat 512 (0x5000 * 2 ^ 128 + 0x10002 * 2 ^ 320) }, ksteps := 1, next := 1, out := [0], rel := [0] } } })] }), ⟨(by decide +kernel), (by decide +kernel), (by decide +kernel), (by decide +kernel), (by decide +kernel), (by decide +kernel)⟩⟩

theorem met_JobStepsComplete_13 :
  let ended := fun (t : State) (gc : Nat) (j : PJob) (status : Nat) =>
    post (releaseHolds (if status = 0 then t else leaveRows t gc j) j.req) (640 + gc) j.req (frameOf status 1 j.req.rid.toNat j.rel.length
      (j.flags / 128 + 2 ^ 5 * j.worst + 2 ^ 7 * b2n j.parkedOnce + 2 ^ 32 * j.ksteps))
  let piece := fun (s : State) (left : Nat) => if s.inp.w.toNat = 0 then left else min left (32 * s.inp.w.toNat)
  let reads := fun (s : State) (j : PJob) (va : Word) (len : Nat) (before : List Byte) (n : Nat) (w : State) (bs : List Byte) =>
    n = piece s (len - before.length) ∧ pontoonRead s s.inp.a j.req (va + wNat before.length) n = .ok (w, bs)
  let hold := fun (w : State) (gc : Nat) (j : PJob) => w.modPontoon gc fun po => { po with job := some j }
  let loads := fun (s : State) (j : PJob) =>
    runningJob s s.inp.a = some j ∧ j.tiles.length < 2 ∧ j.ksteps + j.tiles.length < j.req.kst
  let tileAt := fun (j : PJob) => j.req.base + wNat (1024 * (j.ksteps + j.tiles.length))
  let stageOf := fun (s : State) (n t : Nat) (x : Ring) (k : Nat) =>
    x = ringOf s s.inp.a n ∧ k = t % x.nst ∧ (x.stage k).own ≤ x.np ∧ x.kind (x.stage k).own = 2 ∧ (x.stage k).tag = t % 2 ^ 16
  let freed := fun (s : State) (n t k : Nat) => modRing s s.inp.a n fun x =>
    if (x.stage k).own = 0 then x.fill k t else x.release k
  let streams := fun (s : State) (j : PJob) (tile : List Int) (rest : List (List Int)) =>
    let po := s.pontoon s.inp.a
    runningJob s s.inp.a = some j ∧ j.tiles = tile :: rest ∧ po.preempt = false ∧ po.drift < 2
  let actsAt := fun (j : PJob) => j.req.dw 2 + wNat (32 * j.req.depth * j.ksteps)
  let stepped := fun (s w : State) (j : PJob) (tile : List Int) (rest : List (List Int)) (bs : List Byte) =>
    let r := j.req
    let drift := (s.pontoon s.inp.a).drift
    { j with
      n := streamTile tile r.split r.gain r.shift r.depth (if drift = 0 then 1 else 3) w.freeCtr
        (fun b => ((bs.drop (32 * b)).take 32).map BitVec.toNat) 0 j.n
      cs := (List.range 32).foldl (fun m i => m.put i (m.get i 0 + rowSum tile i (List.replicate 32 1))) j.cs
      tiles := rest, acts := [], ksteps := j.ksteps + 1, worst := max j.worst (min drift 1) }
  let drawn := fun (w : State) (r : Request) => ({ w with freeCtr := w.freeCtr + (passes r.split).length * (r.depth * 32) } : State)
  ∃ j, MetHappens .jobComplete
    (fun s => (s.pontoon s.inp.a).tail = some j ∧ j.ksteps = j.req.kst ∧ j.rel.length = j.req.depth ∧
      handlerLive s s.inp.a (ofJob j) = false)
    (fun s => ended (s.modPontoon s.inp.a fun po => { po with tail := none }) s.inp.a j (j.fail.getD 0)) :=
  ⟨{ req := { op := 0x9F, base := 0x4000, ln := 1, vrec := BitVec.ofNat 512 (0x5000 * 2 ^ 128 + 0x10002 * 2 ^ 320) }, ksteps := 1, next := 1, out := [0], rel := [0] }, ({ inp := { a := 0 }, tide := 20000, clusters := [(0, { tlb := [flat], pontoonUp := true, pontoon := { tail := some { req := { op := 0x9F, base := 0x4000, ln := 1, vrec := BitVec.ofNat 512 (0x5000 * 2 ^ 128 + 0x10002 * 2 ^ 320) }, ksteps := 1, next := 1, out := [0], rel := [0] } } })] }), ⟨(by decide +kernel), (by decide +kernel), (by decide +kernel), (by decide +kernel)⟩⟩

theorem met_JobStepsComplete_14 :
  let ended := fun (t : State) (gc : Nat) (j : PJob) (status : Nat) =>
    post (releaseHolds (if status = 0 then t else leaveRows t gc j) j.req) (640 + gc) j.req (frameOf status 1 j.req.rid.toNat j.rel.length
      (j.flags / 128 + 2 ^ 5 * j.worst + 2 ^ 7 * b2n j.parkedOnce + 2 ^ 32 * j.ksteps))
  let piece := fun (s : State) (left : Nat) => if s.inp.w.toNat = 0 then left else min left (32 * s.inp.w.toNat)
  let reads := fun (s : State) (j : PJob) (va : Word) (len : Nat) (before : List Byte) (n : Nat) (w : State) (bs : List Byte) =>
    n = piece s (len - before.length) ∧ pontoonRead s s.inp.a j.req (va + wNat before.length) n = .ok (w, bs)
  let hold := fun (w : State) (gc : Nat) (j : PJob) => w.modPontoon gc fun po => { po with job := some j }
  let loads := fun (s : State) (j : PJob) =>
    runningJob s s.inp.a = some j ∧ j.tiles.length < 2 ∧ j.ksteps + j.tiles.length < j.req.kst
  let tileAt := fun (j : PJob) => j.req.base + wNat (1024 * (j.ksteps + j.tiles.length))
  let stageOf := fun (s : State) (n t : Nat) (x : Ring) (k : Nat) =>
    x = ringOf s s.inp.a n ∧ k = t % x.nst ∧ (x.stage k).own ≤ x.np ∧ x.kind (x.stage k).own = 2 ∧ (x.stage k).tag = t % 2 ^ 16
  let freed := fun (s : State) (n t k : Nat) => modRing s s.inp.a n fun x =>
    if (x.stage k).own = 0 then x.fill k t else x.release k
  let streams := fun (s : State) (j : PJob) (tile : List Int) (rest : List (List Int)) =>
    let po := s.pontoon s.inp.a
    runningJob s s.inp.a = some j ∧ j.tiles = tile :: rest ∧ po.preempt = false ∧ po.drift < 2
  let actsAt := fun (j : PJob) => j.req.dw 2 + wNat (32 * j.req.depth * j.ksteps)
  let stepped := fun (s w : State) (j : PJob) (tile : List Int) (rest : List (List Int)) (bs : List Byte) =>
    let r := j.req
    let drift := (s.pontoon s.inp.a).drift
    { j with
      n := streamTile tile r.split r.gain r.shift r.depth (if drift = 0 then 1 else 3) w.freeCtr
        (fun b => ((bs.drop (32 * b)).take 32).map BitVec.toNat) 0 j.n
      cs := (List.range 32).foldl (fun m i => m.put i (m.get i 0 + rowSum tile i (List.replicate 32 1))) j.cs
      tiles := rest, acts := [], ksteps := j.ksteps + 1, worst := max j.worst (min drift 1) }
  let drawn := fun (w : State) (r : Request) => ({ w with freeCtr := w.freeCtr + (passes r.split).length * (r.depth * 32) } : State)
  ∃ j c, MetHappens .jobFailure
    (fun s => (s.pontoon s.inp.a).tail = none ∧ (s.pontoon s.inp.a).job = some j ∧ j.fail = some c ∧
      handlerLive s s.inp.a (ofJob j) = false)
    (fun s => afterJob s.inp.a (ended (s.modPontoon s.inp.a fun po => { po with job := none }) s.inp.a j c)) :=
  ⟨{ req := { op := 0x9F, base := 0x4000, ln := 1, vrec := BitVec.ofNat 512 (0x5000 * 2 ^ 128 + 0x10002 * 2 ^ 320) }, fail := some 5 }, 5, ({ inp := { a := 0 }, tide := 20000, clusters := [(0, { tlb := [flat], pontoonUp := true, pontoon := { job := some { req := { op := 0x9F, base := 0x4000, ln := 1, vrec := BitVec.ofNat 512 (0x5000 * 2 ^ 128 + 0x10002 * 2 ^ 320) }, fail := some 5 } } })] }), ⟨(by decide +kernel), (by decide +kernel), (by decide +kernel), (by decide +kernel)⟩⟩

theorem met_JobStepsComplete_15 :
  let ended := fun (t : State) (gc : Nat) (j : PJob) (status : Nat) =>
    post (releaseHolds (if status = 0 then t else leaveRows t gc j) j.req) (640 + gc) j.req (frameOf status 1 j.req.rid.toNat j.rel.length
      (j.flags / 128 + 2 ^ 5 * j.worst + 2 ^ 7 * b2n j.parkedOnce + 2 ^ 32 * j.ksteps))
  let piece := fun (s : State) (left : Nat) => if s.inp.w.toNat = 0 then left else min left (32 * s.inp.w.toNat)
  let reads := fun (s : State) (j : PJob) (va : Word) (len : Nat) (before : List Byte) (n : Nat) (w : State) (bs : List Byte) =>
    n = piece s (len - before.length) ∧ pontoonRead s s.inp.a j.req (va + wNat before.length) n = .ok (w, bs)
  let hold := fun (w : State) (gc : Nat) (j : PJob) => w.modPontoon gc fun po => { po with job := some j }
  let loads := fun (s : State) (j : PJob) =>
    runningJob s s.inp.a = some j ∧ j.tiles.length < 2 ∧ j.ksteps + j.tiles.length < j.req.kst
  let tileAt := fun (j : PJob) => j.req.base + wNat (1024 * (j.ksteps + j.tiles.length))
  let stageOf := fun (s : State) (n t : Nat) (x : Ring) (k : Nat) =>
    x = ringOf s s.inp.a n ∧ k = t % x.nst ∧ (x.stage k).own ≤ x.np ∧ x.kind (x.stage k).own = 2 ∧ (x.stage k).tag = t % 2 ^ 16
  let freed := fun (s : State) (n t k : Nat) => modRing s s.inp.a n fun x =>
    if (x.stage k).own = 0 then x.fill k t else x.release k
  let streams := fun (s : State) (j : PJob) (tile : List Int) (rest : List (List Int)) =>
    let po := s.pontoon s.inp.a
    runningJob s s.inp.a = some j ∧ j.tiles = tile :: rest ∧ po.preempt = false ∧ po.drift < 2
  let actsAt := fun (j : PJob) => j.req.dw 2 + wNat (32 * j.req.depth * j.ksteps)
  let stepped := fun (s w : State) (j : PJob) (tile : List Int) (rest : List (List Int)) (bs : List Byte) =>
    let r := j.req
    let drift := (s.pontoon s.inp.a).drift
    { j with
      n := streamTile tile r.split r.gain r.shift r.depth (if drift = 0 then 1 else 3) w.freeCtr
        (fun b => ((bs.drop (32 * b)).take 32).map BitVec.toNat) 0 j.n
      cs := (List.range 32).foldl (fun m i => m.put i (m.get i 0 + rowSum tile i (List.replicate 32 1))) j.cs
      tiles := rest, acts := [], ksteps := j.ksteps + 1, worst := max j.worst (min drift 1) }
  let drawn := fun (w : State) (r : Request) => ({ w with freeCtr := w.freeCtr + (passes r.split).length * (r.depth * 32) } : State)
  ∃ j, MetHappens .jobPark
    (fun s => s.frozen s.inp.a = false ∧ runningJob s s.inp.a = some j ∧ (s.pontoon s.inp.a).preempt = true)
    (fun s => s.modPontoon s.inp.a fun po => { po with job := some { j with parked := 1, parkedOnce := true } }) :=
  ⟨{ req := { op := 0x9F, base := 0x4000, ln := 1, vrec := BitVec.ofNat 512 (0x5000 * 2 ^ 128 + 0x10002 * 2 ^ 320) } }, ({ inp := { a := 0 }, tide := 20000, clusters := [(0, { tlb := [flat], pontoonUp := true, pontoon := { job := some { req := { op := 0x9F, base := 0x4000, ln := 1, vrec := BitVec.ofNat 512 (0x5000 * 2 ^ 128 + 0x10002 * 2 ^ 320) } }, preempt := true } })] }), ⟨(by decide +kernel), (by decide +kernel), (by decide +kernel)⟩⟩

theorem met_JobStepsComplete_16 :
  let ended := fun (t : State) (gc : Nat) (j : PJob) (status : Nat) =>
    post (releaseHolds (if status = 0 then t else leaveRows t gc j) j.req) (640 + gc) j.req (frameOf status 1 j.req.rid.toNat j.rel.length
      (j.flags / 128 + 2 ^ 5 * j.worst + 2 ^ 7 * b2n j.parkedOnce + 2 ^ 32 * j.ksteps))
  let piece := fun (s : State) (left : Nat) => if s.inp.w.toNat = 0 then left else min left (32 * s.inp.w.toNat)
  let reads := fun (s : State) (j : PJob) (va : Word) (len : Nat) (before : List Byte) (n : Nat) (w : State) (bs : List Byte) =>
    n = piece s (len - before.length) ∧ pontoonRead s s.inp.a j.req (va + wNat before.length) n = .ok (w, bs)
  let hold := fun (w : State) (gc : Nat) (j : PJob) => w.modPontoon gc fun po => { po with job := some j }
  let loads := fun (s : State) (j : PJob) =>
    runningJob s s.inp.a = some j ∧ j.tiles.length < 2 ∧ j.ksteps + j.tiles.length < j.req.kst
  let tileAt := fun (j : PJob) => j.req.base + wNat (1024 * (j.ksteps + j.tiles.length))
  let stageOf := fun (s : State) (n t : Nat) (x : Ring) (k : Nat) =>
    x = ringOf s s.inp.a n ∧ k = t % x.nst ∧ (x.stage k).own ≤ x.np ∧ x.kind (x.stage k).own = 2 ∧ (x.stage k).tag = t % 2 ^ 16
  let freed := fun (s : State) (n t k : Nat) => modRing s s.inp.a n fun x =>
    if (x.stage k).own = 0 then x.fill k t else x.release k
  let streams := fun (s : State) (j : PJob) (tile : List Int) (rest : List (List Int)) =>
    let po := s.pontoon s.inp.a
    runningJob s s.inp.a = some j ∧ j.tiles = tile :: rest ∧ po.preempt = false ∧ po.drift < 2
  let actsAt := fun (j : PJob) => j.req.dw 2 + wNat (32 * j.req.depth * j.ksteps)
  let stepped := fun (s w : State) (j : PJob) (tile : List Int) (rest : List (List Int)) (bs : List Byte) =>
    let r := j.req
    let drift := (s.pontoon s.inp.a).drift
    { j with
      n := streamTile tile r.split r.gain r.shift r.depth (if drift = 0 then 1 else 3) w.freeCtr
        (fun b => ((bs.drop (32 * b)).take 32).map BitVec.toNat) 0 j.n
      cs := (List.range 32).foldl (fun m i => m.put i (m.get i 0 + rowSum tile i (List.replicate 32 1))) j.cs
      tiles := rest, acts := [], ksteps := j.ksteps + 1, worst := max j.worst (min drift 1) }
  let drawn := fun (w : State) (r : Request) => ({ w with freeCtr := w.freeCtr + (passes r.split).length * (r.depth * 32) } : State)
  ∃ j, MetHappens .jobPark
    (fun s => s.frozen s.inp.a = false ∧ runningJob s s.inp.a = some j ∧ (s.pontoon s.inp.a).preempt = false ∧
      2 ≤ (s.pontoon s.inp.a).drift)
    (fun s => raiseDrift (s.modPontoon s.inp.a fun po => { po with
      job := some { j with parked := 2, parkedOnce := true }, drift := 3, round := 0 }) s.inp.a 0x74) :=
  ⟨{ req := { op := 0x9F, base := 0x4000, ln := 1, vrec := BitVec.ofNat 512 (0x5000 * 2 ^ 128 + 0x10002 * 2 ^ 320) } }, ({ inp := { a := 0 }, tide := 20000, clusters := [(0, { tlb := [flat], pontoonUp := true, pontoon := { job := some { req := { op := 0x9F, base := 0x4000, ln := 1, vrec := BitVec.ofNat 512 (0x5000 * 2 ^ 128 + 0x10002 * 2 ^ 320) } }, drift := 2 } })] }), ⟨(by decide +kernel), (by decide +kernel), (by decide +kernel), (by decide +kernel)⟩⟩

theorem met_JobStepsComplete_17 :
  let ended := fun (t : State) (gc : Nat) (j : PJob) (status : Nat) =>
    post (releaseHolds (if status = 0 then t else leaveRows t gc j) j.req) (640 + gc) j.req (frameOf status 1 j.req.rid.toNat j.rel.length
      (j.flags / 128 + 2 ^ 5 * j.worst + 2 ^ 7 * b2n j.parkedOnce + 2 ^ 32 * j.ksteps))
  let piece := fun (s : State) (left : Nat) => if s.inp.w.toNat = 0 then left else min left (32 * s.inp.w.toNat)
  let reads := fun (s : State) (j : PJob) (va : Word) (len : Nat) (before : List Byte) (n : Nat) (w : State) (bs : List Byte) =>
    n = piece s (len - before.length) ∧ pontoonRead s s.inp.a j.req (va + wNat before.length) n = .ok (w, bs)
  let hold := fun (w : State) (gc : Nat) (j : PJob) => w.modPontoon gc fun po => { po with job := some j }
  let loads := fun (s : State) (j : PJob) =>
    runningJob s s.inp.a = some j ∧ j.tiles.length < 2 ∧ j.ksteps + j.tiles.length < j.req.kst
  let tileAt := fun (j : PJob) => j.req.base + wNat (1024 * (j.ksteps + j.tiles.length))
  let stageOf := fun (s : State) (n t : Nat) (x : Ring) (k : Nat) =>
    x = ringOf s s.inp.a n ∧ k = t % x.nst ∧ (x.stage k).own ≤ x.np ∧ x.kind (x.stage k).own = 2 ∧ (x.stage k).tag = t % 2 ^ 16
  let freed := fun (s : State) (n t k : Nat) => modRing s s.inp.a n fun x =>
    if (x.stage k).own = 0 then x.fill k t else x.release k
  let streams := fun (s : State) (j : PJob) (tile : List Int) (rest : List (List Int)) =>
    let po := s.pontoon s.inp.a
    runningJob s s.inp.a = some j ∧ j.tiles = tile :: rest ∧ po.preempt = false ∧ po.drift < 2
  let actsAt := fun (j : PJob) => j.req.dw 2 + wNat (32 * j.req.depth * j.ksteps)
  let stepped := fun (s w : State) (j : PJob) (tile : List Int) (rest : List (List Int)) (bs : List Byte) =>
    let r := j.req
    let drift := (s.pontoon s.inp.a).drift
    { j with
      n := streamTile tile r.split r.gain r.shift r.depth (if drift = 0 then 1 else 3) w.freeCtr
        (fun b => ((bs.drop (32 * b)).take 32).map BitVec.toNat) 0 j.n
      cs := (List.range 32).foldl (fun m i => m.put i (m.get i 0 + rowSum tile i (List.replicate 32 1))) j.cs
      tiles := rest, acts := [], ksteps := j.ksteps + 1, worst := max j.worst (min drift 1) }
  let drawn := fun (w : State) (r : Request) => ({ w with freeCtr := w.freeCtr + (passes r.split).length * (r.depth * 32) } : State)
  MetHappens .driftEstimate
    (fun s => s.inp.a < 12800 ∧ s.inp.b < 32 ∧ s.inp.c = 0 ∧
      ∀ x, (s.pontoon s.inp.a).lastHeat.find s.inp.b = some x → x.toNat + 8192 ≤ s.tide.toNat)
    (fun s => driftMove (s.modPontoon s.inp.a fun po => { po with
      det := (List.range 32).foldl (fun m r => m.put (32 * s.inp.b + r) (s.inp.ints.getD r 0)) po.det }) s.inp.a) :=
  ⟨({ inp := { a := 0, b := 3, ints := [5, -20] }, tide := 20000, clusters := [(0, { tlb := [flat], pontoonUp := true, pontoon := {  } })] }), ⟨(by decide +kernel), (by decide +kernel), (by decide +kernel), (never_some (by decide +kernel))⟩⟩

theorem met_JobStepsComplete_18 :
  let ended := fun (t : State) (gc : Nat) (j : PJob) (status : Nat) =>
    post (releaseHolds (if status = 0 then t else leaveRows t gc j) j.req) (640 + gc) j.req (frameOf status 1 j.req.rid.toNat j.rel.length
      (j.flags / 128 + 2 ^ 5 * j.worst + 2 ^ 7 * b2n j.parkedOnce + 2 ^ 32 * j.ksteps))
  let piece := fun (s : State) (left : Nat) => if s.inp.w.toNat = 0 then left else min left (32 * s.inp.w.toNat)
  let reads := fun (s : State) (j : PJob) (va : Word) (len : Nat) (before : List Byte) (n : Nat) (w : State) (bs : List Byte) =>
    n = piece s (len - before.length) ∧ pontoonRead s s.inp.a j.req (va + wNat before.length) n = .ok (w, bs)
  let hold := fun (w : State) (gc : Nat) (j : PJob) => w.modPontoon gc fun po => { po with job := some j }
  let loads := fun (s : State) (j : PJob) =>
    runningJob s s.inp.a = some j ∧ j.tiles.length < 2 ∧ j.ksteps + j.tiles.length < j.req.kst
  let tileAt := fun (j : PJob) => j.req.base + wNat (1024 * (j.ksteps + j.tiles.length))
  let stageOf := fun (s : State) (n t : Nat) (x : Ring) (k : Nat) =>
    x = ringOf s s.inp.a n ∧ k = t % x.nst ∧ (x.stage k).own ≤ x.np ∧ x.kind (x.stage k).own = 2 ∧ (x.stage k).tag = t % 2 ^ 16
  let freed := fun (s : State) (n t k : Nat) => modRing s s.inp.a n fun x =>
    if (x.stage k).own = 0 then x.fill k t else x.release k
  let streams := fun (s : State) (j : PJob) (tile : List Int) (rest : List (List Int)) =>
    let po := s.pontoon s.inp.a
    runningJob s s.inp.a = some j ∧ j.tiles = tile :: rest ∧ po.preempt = false ∧ po.drift < 2
  let actsAt := fun (j : PJob) => j.req.dw 2 + wNat (32 * j.req.depth * j.ksteps)
  let stepped := fun (s w : State) (j : PJob) (tile : List Int) (rest : List (List Int)) (bs : List Byte) =>
    let r := j.req
    let drift := (s.pontoon s.inp.a).drift
    { j with
      n := streamTile tile r.split r.gain r.shift r.depth (if drift = 0 then 1 else 3) w.freeCtr
        (fun b => ((bs.drop (32 * b)).take 32).map BitVec.toNat) 0 j.n
      cs := (List.range 32).foldl (fun m i => m.put i (m.get i 0 + rowSum tile i (List.replicate 32 1))) j.cs
      tiles := rest, acts := [], ksteps := j.ksteps + 1, worst := max j.worst (min drift 1) }
  let drawn := fun (w : State) (r : Request) => ({ w with freeCtr := w.freeCtr + (passes r.split).length * (r.depth * 32) } : State)
  MetHappens .bankSettled
    (fun s => s.inp.a < 12800 ∧ s.inp.b < 32 ∧ (s.pontoon s.inp.a).settled.contains s.inp.b = false ∧
      ∀ x, (s.pontoon s.inp.a).lastHeat.find s.inp.b = some x → x.toNat + 8192 ≤ s.tide.toNat)
    (fun s => s.modPontoon s.inp.a fun po => { po with settled := po.settled ++ [s.inp.b] }) :=
  ⟨({ inp := { a := 0, b := 3 }, tide := 20000, clusters := [(0, { tlb := [flat], pontoonUp := true, pontoon := {  } })] }), ⟨(by decide +kernel), (by decide +kernel), (by decide +kernel), (never_some (by decide +kernel))⟩⟩

theorem met_JobStepsComplete_19 :
  let ended := fun (t : State) (gc : Nat) (j : PJob) (status : Nat) =>
    post (releaseHolds (if status = 0 then t else leaveRows t gc j) j.req) (640 + gc) j.req (frameOf status 1 j.req.rid.toNat j.rel.length
      (j.flags / 128 + 2 ^ 5 * j.worst + 2 ^ 7 * b2n j.parkedOnce + 2 ^ 32 * j.ksteps))
  let piece := fun (s : State) (left : Nat) => if s.inp.w.toNat = 0 then left else min left (32 * s.inp.w.toNat)
  let reads := fun (s : State) (j : PJob) (va : Word) (len : Nat) (before : List Byte) (n : Nat) (w : State) (bs : List Byte) =>
    n = piece s (len - before.length) ∧ pontoonRead s s.inp.a j.req (va + wNat before.length) n = .ok (w, bs)
  let hold := fun (w : State) (gc : Nat) (j : PJob) => w.modPontoon gc fun po => { po with job := some j }
  let loads := fun (s : State) (j : PJob) =>
    runningJob s s.inp.a = some j ∧ j.tiles.length < 2 ∧ j.ksteps + j.tiles.length < j.req.kst
  let tileAt := fun (j : PJob) => j.req.base + wNat (1024 * (j.ksteps + j.tiles.length))
  let stageOf := fun (s : State) (n t : Nat) (x : Ring) (k : Nat) =>
    x = ringOf s s.inp.a n ∧ k = t % x.nst ∧ (x.stage k).own ≤ x.np ∧ x.kind (x.stage k).own = 2 ∧ (x.stage k).tag = t % 2 ^ 16
  let freed := fun (s : State) (n t k : Nat) => modRing s s.inp.a n fun x =>
    if (x.stage k).own = 0 then x.fill k t else x.release k
  let streams := fun (s : State) (j : PJob) (tile : List Int) (rest : List (List Int)) =>
    let po := s.pontoon s.inp.a
    runningJob s s.inp.a = some j ∧ j.tiles = tile :: rest ∧ po.preempt = false ∧ po.drift < 2
  let actsAt := fun (j : PJob) => j.req.dw 2 + wNat (32 * j.req.depth * j.ksteps)
  let stepped := fun (s w : State) (j : PJob) (tile : List Int) (rest : List (List Int)) (bs : List Byte) =>
    let r := j.req
    let drift := (s.pontoon s.inp.a).drift
    { j with
      n := streamTile tile r.split r.gain r.shift r.depth (if drift = 0 then 1 else 3) w.freeCtr
        (fun b => ((bs.drop (32 * b)).take 32).map BitVec.toNat) 0 j.n
      cs := (List.range 32).foldl (fun m i => m.put i (m.get i 0 + rowSum tile i (List.replicate 32 1))) j.cs
      tiles := rest, acts := [], ksteps := j.ksteps + 1, worst := max j.worst (min drift 1) }
  let drawn := fun (w : State) (r : Request) => ({ w with freeCtr := w.freeCtr + (passes r.split).length * (r.depth * 32) } : State)
  MetHappens .pthrsWrite
    (fun s => s.inp.a < 12800 ∧ 0 < s.inp.w.toNat % 2 ^ 16 ∧ s.inp.w.toNat % 2 ^ 16 < s.inp.w.toNat / 2 ^ 16 % 2 ^ 16 ∧
      s.inp.w.toNat / 2 ^ 16 % 2 ^ 16 ≤ 4095)
    (fun s => s.modCluster s.inp.a fun c => { c with warn := s.inp.w.toNat % 2 ^ 16, retn := s.inp.w.toNat / 2 ^ 16 % 2 ^ 16 }) :=
  ⟨({ inp := { a := 0, w := 0x140009 }, tide := 20000, clusters := [(0, { tlb := [flat], pontoonUp := true, pontoon := {  } })] }), ⟨(by decide +kernel), (by decide +kernel), (by decide +kernel), (by decide +kernel)⟩⟩

theorem met_JobStepsComplete_20 :
  let ended := fun (t : State) (gc : Nat) (j : PJob) (status : Nat) =>
    post (releaseHolds (if status = 0 then t else leaveRows t gc j) j.req) (640 + gc) j.req (frameOf status 1 j.req.rid.toNat j.rel.length
      (j.flags / 128 + 2 ^ 5 * j.worst + 2 ^ 7 * b2n j.parkedOnce + 2 ^ 32 * j.ksteps))
  let piece := fun (s : State) (left : Nat) => if s.inp.w.toNat = 0 then left else min left (32 * s.inp.w.toNat)
  let reads := fun (s : State) (j : PJob) (va : Word) (len : Nat) (before : List Byte) (n : Nat) (w : State) (bs : List Byte) =>
    n = piece s (len - before.length) ∧ pontoonRead s s.inp.a j.req (va + wNat before.length) n = .ok (w, bs)
  let hold := fun (w : State) (gc : Nat) (j : PJob) => w.modPontoon gc fun po => { po with job := some j }
  let loads := fun (s : State) (j : PJob) =>
    runningJob s s.inp.a = some j ∧ j.tiles.length < 2 ∧ j.ksteps + j.tiles.length < j.req.kst
  let tileAt := fun (j : PJob) => j.req.base + wNat (1024 * (j.ksteps + j.tiles.length))
  let stageOf := fun (s : State) (n t : Nat) (x : Ring) (k : Nat) =>
    x = ringOf s s.inp.a n ∧ k = t % x.nst ∧ (x.stage k).own ≤ x.np ∧ x.kind (x.stage k).own = 2 ∧ (x.stage k).tag = t % 2 ^ 16
  let freed := fun (s : State) (n t k : Nat) => modRing s s.inp.a n fun x =>
    if (x.stage k).own = 0 then x.fill k t else x.release k
  let streams := fun (s : State) (j : PJob) (tile : List Int) (rest : List (List Int)) =>
    let po := s.pontoon s.inp.a
    runningJob s s.inp.a = some j ∧ j.tiles = tile :: rest ∧ po.preempt = false ∧ po.drift < 2
  let actsAt := fun (j : PJob) => j.req.dw 2 + wNat (32 * j.req.depth * j.ksteps)
  let stepped := fun (s w : State) (j : PJob) (tile : List Int) (rest : List (List Int)) (bs : List Byte) =>
    let r := j.req
    let drift := (s.pontoon s.inp.a).drift
    { j with
      n := streamTile tile r.split r.gain r.shift r.depth (if drift = 0 then 1 else 3) w.freeCtr
        (fun b => ((bs.drop (32 * b)).take 32).map BitVec.toNat) 0 j.n
      cs := (List.range 32).foldl (fun m i => m.put i (m.get i 0 + rowSum tile i (List.replicate 32 1))) j.cs
      tiles := rest, acts := [], ksteps := j.ksteps + 1, worst := max j.worst (min drift 1) }
  let drawn := fun (w : State) (r : Request) => ({ w with freeCtr := w.freeCtr + (passes r.split).length * (r.depth * 32) } : State)
  ∃ q, MetHappensTo .pcalComplete
    (fun s => s.inp.a < 12800 ∧ (s.pontoon s.inp.a).pcal = some (false, q))
    (fun s t => (t.pontoon s.inp.a).pcal = none ∧ (t.pontoon s.inp.a).pcalDone = some (q, 0)) :=
  ⟨7, ({ inp := { a := 0 }, tide := 20000, clusters := [(0, { tlb := [flat], pontoonUp := true, pontoon := { pcal := some (false, 7) } })] }), ⟨(by decide +kernel), (by decide +kernel)⟩⟩

theorem met_JobStepsComplete_21 :
  let ended := fun (t : State) (gc : Nat) (j : PJob) (status : Nat) =>
    post (releaseHolds (if status = 0 then t else leaveRows t gc j) j.req) (640 + gc) j.req (frameOf status 1 j.req.rid.toNat j.rel.length
      (j.flags / 128 + 2 ^ 5 * j.worst + 2 ^ 7 * b2n j.parkedOnce + 2 ^ 32 * j.ksteps))
  let piece := fun (s : State) (left : Nat) => if s.inp.w.toNat = 0 then left else min left (32 * s.inp.w.toNat)
  let reads := fun (s : State) (j : PJob) (va : Word) (len : Nat) (before : List Byte) (n : Nat) (w : State) (bs : List Byte) =>
    n = piece s (len - before.length) ∧ pontoonRead s s.inp.a j.req (va + wNat before.length) n = .ok (w, bs)
  let hold := fun (w : State) (gc : Nat) (j : PJob) => w.modPontoon gc fun po => { po with job := some j }
  let loads := fun (s : State) (j : PJob) =>
    runningJob s s.inp.a = some j ∧ j.tiles.length < 2 ∧ j.ksteps + j.tiles.length < j.req.kst
  let tileAt := fun (j : PJob) => j.req.base + wNat (1024 * (j.ksteps + j.tiles.length))
  let stageOf := fun (s : State) (n t : Nat) (x : Ring) (k : Nat) =>
    x = ringOf s s.inp.a n ∧ k = t % x.nst ∧ (x.stage k).own ≤ x.np ∧ x.kind (x.stage k).own = 2 ∧ (x.stage k).tag = t % 2 ^ 16
  let freed := fun (s : State) (n t k : Nat) => modRing s s.inp.a n fun x =>
    if (x.stage k).own = 0 then x.fill k t else x.release k
  let streams := fun (s : State) (j : PJob) (tile : List Int) (rest : List (List Int)) =>
    let po := s.pontoon s.inp.a
    runningJob s s.inp.a = some j ∧ j.tiles = tile :: rest ∧ po.preempt = false ∧ po.drift < 2
  let actsAt := fun (j : PJob) => j.req.dw 2 + wNat (32 * j.req.depth * j.ksteps)
  let stepped := fun (s w : State) (j : PJob) (tile : List Int) (rest : List (List Int)) (bs : List Byte) =>
    let r := j.req
    let drift := (s.pontoon s.inp.a).drift
    { j with
      n := streamTile tile r.split r.gain r.shift r.depth (if drift = 0 then 1 else 3) w.freeCtr
        (fun b => ((bs.drop (32 * b)).take 32).map BitVec.toNat) 0 j.n
      cs := (List.range 32).foldl (fun m i => m.put i (m.get i 0 + rowSum tile i (List.replicate 32 1))) j.cs
      tiles := rest, acts := [], ksteps := j.ksteps + 1, worst := max j.worst (min drift 1) }
  let drawn := fun (w : State) (r : Request) => ({ w with freeCtr := w.freeCtr + (passes r.split).length * (r.depth * 32) } : State)
  MetHappensTo .pcalComplete
    (fun s => s.inp.a < 12800 ∧ (s.pontoon s.inp.a).pcal = none ∧ (s.cluster s.inp.a).pontoonUp = false)
    (fun s t => (t.cluster s.inp.a).pontoonUp = true) :=
  ⟨({ inp := { a := 0 } }), ⟨(by decide +kernel), (by decide +kernel), (by decide +kernel)⟩⟩

theorem met_JobStepsComplete_22 : ∃ (a : _) (b : _) (go : _) (tm : _) (since : _) (i : _) (v : _) (s : State),
  let ended := fun (t : State) (gc : Nat) (j : PJob) (status : Nat) =>
    post (releaseHolds (if status = 0 then t else leaveRows t gc j) j.req) (640 + gc) j.req (frameOf status 1 j.req.rid.toNat j.rel.length
      (j.flags / 128 + 2 ^ 5 * j.worst + 2 ^ 7 * b2n j.parkedOnce + 2 ^ 32 * j.ksteps))
  let piece := fun (s : State) (left : Nat) => if s.inp.w.toNat = 0 then left else min left (32 * s.inp.w.toNat)
  let reads := fun (s : State) (j : PJob) (va : Word) (len : Nat) (before : List Byte) (n : Nat) (w : State) (bs : List Byte) =>
    n = piece s (len - before.length) ∧ pontoonRead s s.inp.a j.req (va + wNat before.length) n = .ok (w, bs)
  let hold := fun (w : State) (gc : Nat) (j : PJob) => w.modPontoon gc fun po => { po with job := some j }
  let loads := fun (s : State) (j : PJob) =>
    runningJob s s.inp.a = some j ∧ j.tiles.length < 2 ∧ j.ksteps + j.tiles.length < j.req.kst
  let tileAt := fun (j : PJob) => j.req.base + wNat (1024 * (j.ksteps + j.tiles.length))
  let stageOf := fun (s : State) (n t : Nat) (x : Ring) (k : Nat) =>
    x = ringOf s s.inp.a n ∧ k = t % x.nst ∧ (x.stage k).own ≤ x.np ∧ x.kind (x.stage k).own = 2 ∧ (x.stage k).tag = t % 2 ^ 16
  let freed := fun (s : State) (n t k : Nat) => modRing s s.inp.a n fun x =>
    if (x.stage k).own = 0 then x.fill k t else x.release k
  let streams := fun (s : State) (j : PJob) (tile : List Int) (rest : List (List Int)) =>
    let po := s.pontoon s.inp.a
    runningJob s s.inp.a = some j ∧ j.tiles = tile :: rest ∧ po.preempt = false ∧ po.drift < 2
  let actsAt := fun (j : PJob) => j.req.dw 2 + wNat (32 * j.req.depth * j.ksteps)
  let stepped := fun (s w : State) (j : PJob) (tile : List Int) (rest : List (List Int)) (bs : List Byte) =>
    let r := j.req
    let drift := (s.pontoon s.inp.a).drift
    { j with
      n := streamTile tile r.split r.gain r.shift r.depth (if drift = 0 then 1 else 3) w.freeCtr
        (fun b => ((bs.drop (32 * b)).take 32).map BitVec.toNat) 0 j.n
      cs := (List.range 32).foldl (fun m i => m.put i (m.get i 0 + rowSum tile i (List.replicate 32 1))) j.cs
      tiles := rest, acts := [], ksteps := j.ksteps + 1, worst := max j.worst (min drift 1) }
  let drawn := fun (w : State) (r : Request) => ({ w with freeCtr := w.freeCtr + (passes r.split).length * (r.depth * 32) } : State)
    let q := s.inp.a
    let u := beginHead { v with cur := q } (.psettle a b go tm)
    (currentInstr s q = some (v, .psettle a b go tm)) ∧
    ((s.proc q).wait = .engine since) ∧
    (since.toNat + 1024 * tm.toNat ≤ s.tide.toNat) ∧
    (v.tide = s.tide) ∧
    (ready { v with cur := q } (.psettle a b go tm) = true) ∧
    (alone { v with cur := q } = true) ∧
    (tm ≠ 0) ∧
    (u.me.wait = .engine since) ∧
    (((List.range 32).filter fun k => (u.myReg b).getLsbD k && !(u.pontoon (clusterOf q)).settled.contains k).head? = some i) :=
  ⟨5, 6, false, 9, 0, 2, _, { one [(6, 4)] fun p => { p with wait := .engine 0, copy := some (0x10000, lineOf (.psettle 5 6 false 9)) } with tide := 20000 }, (some_snd (by decide +kernel)), (by decide +kernel), (by decide +kernel), (by decide +kernel), (by decide +kernel), (by decide +kernel), (by decide +kernel), (by decide +kernel), (by decide +kernel)⟩

theorem met_JobStepsComplete_23 :
  let ended := fun (t : State) (gc : Nat) (j : PJob) (status : Nat) =>
    post (releaseHolds (if status = 0 then t else leaveRows t gc j) j.req) (640 + gc) j.req (frameOf status 1 j.req.rid.toNat j.rel.length
      (j.flags / 128 + 2 ^ 5 * j.worst + 2 ^ 7 * b2n j.parkedOnce + 2 ^ 32 * j.ksteps))
  let piece := fun (s : State) (left : Nat) => if s.inp.w.toNat = 0 then left else min left (32 * s.inp.w.toNat)
  let reads := fun (s : State) (j : PJob) (va : Word) (len : Nat) (before : List Byte) (n : Nat) (w : State) (bs : List Byte) =>
    n = piece s (len - before.length) ∧ pontoonRead s s.inp.a j.req (va + wNat before.length) n = .ok (w, bs)
  let hold := fun (w : State) (gc : Nat) (j : PJob) => w.modPontoon gc fun po => { po with job := some j }
  let loads := fun (s : State) (j : PJob) =>
    runningJob s s.inp.a = some j ∧ j.tiles.length < 2 ∧ j.ksteps + j.tiles.length < j.req.kst
  let tileAt := fun (j : PJob) => j.req.base + wNat (1024 * (j.ksteps + j.tiles.length))
  let stageOf := fun (s : State) (n t : Nat) (x : Ring) (k : Nat) =>
    x = ringOf s s.inp.a n ∧ k = t % x.nst ∧ (x.stage k).own ≤ x.np ∧ x.kind (x.stage k).own = 2 ∧ (x.stage k).tag = t % 2 ^ 16
  let freed := fun (s : State) (n t k : Nat) => modRing s s.inp.a n fun x =>
    if (x.stage k).own = 0 then x.fill k t else x.release k
  let streams := fun (s : State) (j : PJob) (tile : List Int) (rest : List (List Int)) =>
    let po := s.pontoon s.inp.a
    runningJob s s.inp.a = some j ∧ j.tiles = tile :: rest ∧ po.preempt = false ∧ po.drift < 2
  let actsAt := fun (j : PJob) => j.req.dw 2 + wNat (32 * j.req.depth * j.ksteps)
  let stepped := fun (s w : State) (j : PJob) (tile : List Int) (rest : List (List Int)) (bs : List Byte) =>
    let r := j.req
    let drift := (s.pontoon s.inp.a).drift
    { j with
      n := streamTile tile r.split r.gain r.shift r.depth (if drift = 0 then 1 else 3) w.freeCtr
        (fun b => ((bs.drop (32 * b)).take 32).map BitVec.toNat) 0 j.n
      cs := (List.range 32).foldl (fun m i => m.put i (m.get i 0 + rowSum tile i (List.replicate 32 1))) j.cs
      tiles := rest, acts := [], ksteps := j.ksteps + 1, worst := max j.worst (min drift 1) }
  let drawn := fun (w : State) (r : Request) => ({ w with freeCtr := w.freeCtr + (passes r.split).length * (r.depth * 32) } : State)
  MetHappens .sequencerRetune
    (fun s =>
      let po := s.pontoon s.inp.a
      let banks := banksAtOrAbove po (s.cluster s.inp.a).retn
      s.inp.a < 12800 ∧ runsDefault s (640 + s.inp.a) = true ∧ po.pevRt = true ∧ po.round < 2 ∧ banks ≠ [] ∧ ∀ i ∈ banks, po.settled.contains i = true)
    (fun s => s.modPontoon s.inp.a fun po =>
      { retuneRound po s.tide (banksAtOrAbove po (s.cluster s.inp.a).retn) (po.round == 0) with round := po.round + 1 }) :=
  ⟨({ inp := { a := 0 }, tide := 20000, clusters := [(0, { tlb := [flat], pontoonUp := true, pontoon := { pevRt := true, det := [(33, 20)], settled := [1] } })] }), ⟨(by decide +kernel), (by decide +kernel), (by decide +kernel), (by decide +kernel), (by decide +kernel)⟩⟩

theorem met_JobStepsComplete_24 :
  let ended := fun (t : State) (gc : Nat) (j : PJob) (status : Nat) =>
    post (releaseHolds (if status = 0 then t else leaveRows t gc j) j.req) (640 + gc) j.req (frameOf status 1 j.req.rid.toNat j.rel.length
      (j.flags / 128 + 2 ^ 5 * j.worst + 2 ^ 7 * b2n j.parkedOnce + 2 ^ 32 * j.ksteps))
  let piece := fun (s : State) (left : Nat) => if s.inp.w.toNat = 0 then left else min left (32 * s.inp.w.toNat)
  let reads := fun (s : State) (j : PJob) (va : Word) (len : Nat) (before : List Byte) (n : Nat) (w : State) (bs : List Byte) =>
    n = piece s (len - before.length) ∧ pontoonRead s s.inp.a j.req (va + wNat before.length) n = .ok (w, bs)
  let hold := fun (w : State) (gc : Nat) (j : PJob) => w.modPontoon gc fun po => { po with job := some j }
  let loads := fun (s : State) (j : PJob) =>
    runningJob s s.inp.a = some j ∧ j.tiles.length < 2 ∧ j.ksteps + j.tiles.length < j.req.kst
  let tileAt := fun (j : PJob) => j.req.base + wNat (1024 * (j.ksteps + j.tiles.length))
  let stageOf := fun (s : State) (n t : Nat) (x : Ring) (k : Nat) =>
    x = ringOf s s.inp.a n ∧ k = t % x.nst ∧ (x.stage k).own ≤ x.np ∧ x.kind (x.stage k).own = 2 ∧ (x.stage k).tag = t % 2 ^ 16
  let freed := fun (s : State) (n t k : Nat) => modRing s s.inp.a n fun x =>
    if (x.stage k).own = 0 then x.fill k t else x.release k
  let streams := fun (s : State) (j : PJob) (tile : List Int) (rest : List (List Int)) =>
    let po := s.pontoon s.inp.a
    runningJob s s.inp.a = some j ∧ j.tiles = tile :: rest ∧ po.preempt = false ∧ po.drift < 2
  let actsAt := fun (j : PJob) => j.req.dw 2 + wNat (32 * j.req.depth * j.ksteps)
  let stepped := fun (s w : State) (j : PJob) (tile : List Int) (rest : List (List Int)) (bs : List Byte) =>
    let r := j.req
    let drift := (s.pontoon s.inp.a).drift
    { j with
      n := streamTile tile r.split r.gain r.shift r.depth (if drift = 0 then 1 else 3) w.freeCtr
        (fun b => ((bs.drop (32 * b)).take 32).map BitVec.toNat) 0 j.n
      cs := (List.range 32).foldl (fun m i => m.put i (m.get i 0 + rowSum tile i (List.replicate 32 1))) j.cs
      tiles := rest, acts := [], ksteps := j.ksteps + 1, worst := max j.worst (min drift 1) }
  let drawn := fun (w : State) (r : Request) => ({ w with freeCtr := w.freeCtr + (passes r.split).length * (r.depth * 32) } : State)
  MetHappens .sequencerRetune
    (fun s =>
      let po := s.pontoon s.inp.a
      s.inp.a < 12800 ∧ runsDefault s (640 + s.inp.a) = true ∧ po.pevRt = true ∧ po.round = 2 ∧ banksAtOrAbove po (s.cluster s.inp.a).retn ≠ [] ∧
      ∀ i ∈ banksAtOrAbove po (s.cluster s.inp.a).retn, po.settled.contains i = true)
    (fun s => pushEfault (s.modPontoon s.inp.a fun po => { po with round := 3 }) 1 s.inp.a 0x74 0) :=
  ⟨({ inp := { a := 0 }, tide := 20000, clusters := [(0, { tlb := [flat], pontoonUp := true, pontoon := { pevRt := true, round := 2, det := [(33, 20)], settled := [1] } })] }), ⟨(by decide +kernel), (by decide +kernel), (by decide +kernel), (by decide +kernel), (by decide +kernel)⟩⟩

theorem met_TowStepsComplete_1 :
  let at' := fun (s : State) (w : Tow) (op : Nat) (h : List Word) (body : List Byte) (s1 : State) =>
    (s.pontoon s.inp.a).tow = some w ∧ towMoves s s.inp.a w = true ∧ w.hdr = [] ∧ readBlock s s.inp.a w = (s1, h, .ok body) ∧
    (h.getD 0 0).toNat % 256 = op
  let go := fun (t : State) (gc : Nat) (w : Tow) (dest : Word) =>
    t.modPontoon gc fun po => { po with tow := some { w with
      cb := dest, ph := 0, sub := 0, hdr := [], pay := [], dec := none, seq := 0, blocks := w.blocks + 1, waits := false }}
  let put := fun (t : State) (gc : Nat) (w : Tow) => t.modPontoon gc fun po => { po with tow := some w }
  let op := fun (h : List Word) (i : Nat) => h.getD (3 + i) 0
  let q := fun (s : State) => hartQOf (640 + s.inp.a)
  let completes := fun (s : State) (w : Tow) (c : Nat) =>
    (s.pontoon s.inp.a).tow = some w ∧ w.done = some c ∧ handlerLive s s.inp.a (·.tow) = false ∧ storesDone s (q s) 2 = true ∧
    storesLost s (q s) 2 = false
  let left := fun (s : State) (w : Tow) (c : Nat) =>
    if c = 0 then (dropStores s (q s) 2, w) else leaveSession (dropStores s (q s) 2) s.inp.a w
  let frame := fun (w : Tow) (c : Nat) => frameOf c 2 w.req.rid.toNat w.seq
    (w.flags / 128 + 2 ^ 5 * w.worst + 2 ^ 7 * b2n w.parkedOnce + 2 ^ 32 * w.blocks)
  ∃ r rest, MetHappensTo .towSessionStart
    (fun s =>
      let po := s.pontoon s.inp.a
      s.inp.a < 12800 ∧ (s.proc (hartQOf (640 + s.inp.a))).stopped = false ∧ po.tow = none ∧ po.job = none ∧ po.tail = none ∧
      (s.engine (640 + s.inp.a)).queue = r :: rest ∧ r.op = 0xAB ∧ engineDown s s.inp.a = false ∧ r.args.headD 0 = 0)
    (fun s t => (t.pontoon s.inp.a).tow = some { req := r, cap := r, cb := r.dw 0 } ∧ (t.engine (640 + s.inp.a)).queue = rest ∧
      (t.proc (hartQOf (640 + s.inp.a))).vf = r.vf) :=
  ⟨{ op := 0xAB, args := [0], vrec := 0x4000 }, [], ({ inp := { a := 0 }, tide := 20000, clusters := [(0, { tlb := [flat], pontoonUp := true, pontoon := {  } })], engines := [(640, { queue := [{ op := 0xAB, args := [0], vrec := 0x4000 }] })] }), ⟨(by decide +kernel), (by decide +kernel), (by decide +kernel), (by decide +kernel), (by decide +kernel), (by decide +kernel), (by decide +kernel), (by decide +kernel), (by decide +kernel)⟩⟩

theorem met_TowStepsComplete_2 :
  let at' := fun (s : State) (w : Tow) (op : Nat) (h : List Word) (body : List Byte) (s1 : State) =>
    (s.pontoon s.inp.a).tow = some w ∧ towMoves s s.inp.a w = true ∧ w.hdr = [] ∧ readBlock s s.inp.a w = (s1, h, .ok body) ∧
    (h.getD 0 0).toNat % 256 = op
  let go := fun (t : State) (gc : Nat) (w : Tow) (dest : Word) =>
    t.modPontoon gc fun po => { po with tow := some { w with
      cb := dest, ph := 0, sub := 0, hdr := [], pay := [], dec := none, seq := 0, blocks := w.blocks + 1, waits := false }}
  let put := fun (t : State) (gc : Nat) (w : Tow) => t.modPontoon gc fun po => { po with tow := some w }
  let op := fun (h : List Word) (i : Nat) => h.getD (3 + i) 0
  let q := fun (s : State) => hartQOf (640 + s.inp.a)
  let completes := fun (s : State) (w : Tow) (c : Nat) =>
    (s.pontoon s.inp.a).tow = some w ∧ w.done = some c ∧ handlerLive s s.inp.a (·.tow) = false ∧ storesDone s (q s) 2 = true ∧
    storesLost s (q s) 2 = false
  let left := fun (s : State) (w : Tow) (c : Nat) =>
    if c = 0 then (dropStores s (q s) 2, w) else leaveSession (dropStores s (q s) 2) s.inp.a w
  let frame := fun (w : Tow) (c : Nat) => frameOf c 2 w.req.rid.toNat w.seq
    (w.flags / 128 + 2 ^ 5 * w.worst + 2 ^ 7 * b2n w.parkedOnce + 2 ^ 32 * w.blocks)
  ∃ r w, MetHappensTo .towSessionStart
    (fun s =>
      s.inp.a < 12800 ∧ (s.proc (hartQOf (640 + s.inp.a))).stopped = false ∧ (s.pontoon s.inp.a).tow = some w ∧
      (s.engine (640 + s.inp.a)).queue.find? isResume = some r ∧ engineDown s s.inp.a = false ∧ w.st = 2 ∧ w.leaving = false ∧
      r.vrec = w.cap.vrec ∧ r.args.drop 1 = w.rr)
    (fun s t => ∃ k, (t.pontoon s.inp.a).tow = some k ∧ k.req = r ∧ k.st = 0 ∧ k.cb = w.cb ∧ k.ph = w.ph ∧ k.sub = w.sub ∧
      k.stack = w.stack ∧ k.a = w.a ∧ k.n = w.n ∧ k.u = w.u) :=
  ⟨{ op := 0xAB, args := [1, 5], vrec := 0x4000 }, { cb := 0x4000, cap := { vrec := 0x4000 }, st := 2, rr := [5], stack := [7] }, ({ inp := { a := 0 }, tide := 20000, clusters := [(0, { tlb := [flat], pontoonUp := true, pontoon := { tow := some { cb := 0x4000, cap := { vrec := 0x4000 }, st := 2, rr := [5], stack := [7] } } })], engines := [(640, { queue := [{ op := 0xAB, args := [1, 5], vrec := 0x4000 }] })] }), ⟨(by decide +kernel), (by decide +kernel), (by decide +kernel), (by decide +kernel), (by decide +kernel), (by decide +kernel), (by decide +kernel), (by decide +kernel), (by decide +kernel)⟩⟩

theorem met_TowStepsComplete_3 :
  let at' := fun (s : State) (w : Tow) (op : Nat) (h : List Word) (body : List Byte) (s1 : State) =>
    (s.pontoon s.inp.a).tow = some w ∧ towMoves s s.inp.a w = true ∧ w.hdr = [] ∧ readBlock s s.inp.a w = (s1, h, .ok body) ∧
    (h.getD 0 0).toNat % 256 = op
  let go := fun (t : State) (gc : Nat) (w : Tow) (dest : Word) =>
    t.modPontoon gc fun po => { po with tow := some { w with
      cb := dest, ph := 0, sub := 0, hdr := [], pay := [], dec := none, seq := 0, blocks := w.blocks + 1, waits := false }}
  let put := fun (t : State) (gc : Nat) (w : Tow) => t.modPontoon gc fun po => { po with tow := some w }
  let op := fun (h : List Word) (i : Nat) => h.getD (3 + i) 0
  let q := fun (s : State) => hartQOf (640 + s.inp.a)
  let completes := fun (s : State) (w : Tow) (c : Nat) =>
    (s.pontoon s.inp.a).tow = some w ∧ w.done = some c ∧ handlerLive s s.inp.a (·.tow) = false ∧ storesDone s (q s) 2 = true ∧
    storesLost s (q s) 2 = false
  let left := fun (s : State) (w : Tow) (c : Nat) =>
    if c = 0 then (dropStores s (q s) 2, w) else leaveSession (dropStores s (q s) 2) s.inp.a w
  let frame := fun (w : Tow) (c : Nat) => frameOf c 2 w.req.rid.toNat w.seq
    (w.flags / 128 + 2 ^ 5 * w.worst + 2 ^ 7 * b2n w.parkedOnce + 2 ^ 32 * w.blocks)
  ∃ w h body s1 t, MetHappens .towWtile
    (fun s => at' s w 1 h body s1 ∧ w.dec = none ∧ (coreWaits s1 s.inp.a = false ∨ hCodec h = 0) ∧ wtile s1 s.inp.a h body = .ok t)
    (fun s => go s1 s.inp.a { w with shadow := some t, lwt := some w.cb } (succOf w h)) :=
  ⟨{ cb := 0x4000, cap := { vrec := BitVec.ofNat 512 (0 * 2 ^ 64 + 0x6000 * 2 ^ 320) } }, _, _, _, _, ({ inp := { a := 0 }, tide := 20000, clusters := [(0, { tlb := [flat], pontoonUp := true, pontoon := { tow := some { cb := 0x4000, cap := { vrec := BitVec.ofNat 512 (0 * 2 ^ 64 + 0x6000 * 2 ^ 320) } } } })], mem := Memory.writeList [] 0x4000 (leBytes 8 2099713 ++ leBytes 8 2 ++ leBytes 8 1 ++ leBytes 8 0 ++ leBytes 8 0 ++ leBytes 8 0 ++ leBytes 8 0 ++ leBytes 8 786441428526956544 ++ [33]) }), ⟨⟨(by decide +kernel), (by decide +kernel), (by decide +kernel), (triple_ok (by decide +kernel)), (by decide +kernel)⟩, (by decide +kernel), .inl (by decide +kernel), (fine_of_isFine (by decide +kernel))⟩⟩

theorem met_TowStepsComplete_4 :
  let at' := fun (s : State) (w : Tow) (op : Nat) (h : List Word) (body : List Byte) (s1 : State) =>
    (s.pontoon s.inp.a).tow = some w ∧ towMoves s s.inp.a w = true ∧ w.hdr = [] ∧ readBlock s s.inp.a w = (s1, h, .ok body) ∧
    (h.getD 0 0).toNat % 256 = op
  let go := fun (t : State) (gc : Nat) (w : Tow) (dest : Word) =>
    t.modPontoon gc fun po => { po with tow := some { w with
      cb := dest, ph := 0, sub := 0, hdr := [], pay := [], dec := none, seq := 0, blocks := w.blocks + 1, waits := false }}
  let put := fun (t : State) (gc : Nat) (w : Tow) => t.modPontoon gc fun po => { po with tow := some w }
  let op := fun (h : List Word) (i : Nat) => h.getD (3 + i) 0
  let q := fun (s : State) => hartQOf (640 + s.inp.a)
  let completes := fun (s : State) (w : Tow) (c : Nat) =>
    (s.pontoon s.inp.a).tow = some w ∧ w.done = some c ∧ handlerLive s s.inp.a (·.tow) = false ∧ storesDone s (q s) 2 = true ∧
    storesLost s (q s) 2 = false
  let left := fun (s : State) (w : Tow) (c : Nat) =>
    if c = 0 then (dropStores s (q s) 2, w) else leaveSession (dropStores s (q s) 2) s.inp.a w
  let frame := fun (w : Tow) (c : Nat) => frameOf c 2 w.req.rid.toNat w.seq
    (w.flags / 128 + 2 ^ 5 * w.worst + 2 ^ 7 * b2n w.parkedOnce + 2 ^ 32 * w.blocks)
  ∃ w t, MetHappens .towWtile
    (fun s => (s.pontoon s.inp.a).tow = some w ∧ towMoves s s.inp.a w = true ∧ w.hdr ≠ [] ∧ (w.hdr.getD 0 0).toNat % 256 = 1 ∧
      coreWaits s s.inp.a = false ∧
      wtileFrom s s.inp.a w.hdr ((w.dec.map fun e => w.pay.drop e.1).getD w.pay) ((w.dec.map fun e => e.2).getD []) = .ok t)
    (fun s => go s s.inp.a { w with shadow := some t, lwt := some w.cb } (succOf w w.hdr)) :=
  ⟨{ cb := 0x4000, cap := { vrec := BitVec.ofNat 512 (0 * 2 ^ 64 + 0x6000 * 2 ^ 320) }, hdr := [2099713, 2, 1, 0, 0, 0, 0, 0], pay := [0x21] }, _, ({ inp := { a := 0 }, tide := 20000, clusters := [(0, { tlb := [flat], pontoonUp := true, pontoon := { tow := some { cb := 0x4000, cap := { vrec := BitVec.ofNat 512 (0 * 2 ^ 64 + 0x6000 * 2 ^ 320) }, hdr := [2099713, 2, 1, 0, 0, 0, 0, 0], pay := [0x21] } } })] }), ⟨(by decide +kernel), (by decide +kernel), (by decide +kernel), (by decide +kernel), (by decide +kernel), (fine_of_isFine (by decide +kernel))⟩⟩

theorem met_TowStepsComplete_5 :
  let at' := fun (s : State) (w : Tow) (op : Nat) (h : List Word) (body : List Byte) (s1 : State) =>
    (s.pontoon s.inp.a).tow = some w ∧ towMoves s s.inp.a w = true ∧ w.hdr = [] ∧ readBlock s s.inp.a w = (s1, h, .ok body) ∧
    (h.getD 0 0).toNat % 256 = op
  let go := fun (t : State) (gc : Nat) (w : Tow) (dest : Word) =>
    t.modPontoon gc fun po => { po with tow := some { w with
      cb := dest, ph := 0, sub := 0, hdr := [], pay := [], dec := none, seq := 0, blocks := w.blocks + 1, waits := false }}
  let put := fun (t : State) (gc : Nat) (w : Tow) => t.modPontoon gc fun po => { po with tow := some w }
  let op := fun (h : List Word) (i : Nat) => h.getD (3 + i) 0
  let q := fun (s : State) => hartQOf (640 + s.inp.a)
  let completes := fun (s : State) (w : Tow) (c : Nat) =>
    (s.pontoon s.inp.a).tow = some w ∧ w.done = some c ∧ handlerLive s s.inp.a (·.tow) = false ∧ storesDone s (q s) 2 = true ∧
    storesLost s (q s) 2 = false
  let left := fun (s : State) (w : Tow) (c : Nat) =>
    if c = 0 then (dropStores s (q s) 2, w) else leaveSession (dropStores s (q s) 2) s.inp.a w
  let frame := fun (w : Tow) (c : Nat) => frameOf c 2 w.req.rid.toNat w.seq
    (w.flags / 128 + 2 ^ 5 * w.worst + 2 ^ 7 * b2n w.parkedOnce + 2 ^ 32 * w.blocks)
  ∃ w h body s1 s2 bs, MetHappensTo .towRun
    (fun s => at' s w 2 h body s1 ∧ op h 0 ≠ 0 ∧ w.ph = 0 ∧ w.pay = [] ∧ s.inp.w = 0 ∧ s.inp.c = 0 ∧ s1.inp = s.inp ∧
      pontoonRead s1 s.inp.a w.cap (op h 0) (32 * w.depth) = .ok (s2, bs))
    (fun s t =>
      let drift := (s1.pontoon s.inp.a).drift
      let bank := w.shadow.getD w.bank
      ∃ k, (t.pontoon s.inp.a).tow = some k ∧ k.bank = bank ∧ k.shadow = none ∧ k.cb = succOf w h ∧ k.runs = w.runs + 1 ∧
        k.n = streamTile bank w.split w.gain w.shift w.depth (if drift = 0 then 1 else 3) s2.freeCtr
          (fun b => ((bs.drop (32 * b)).take 32).map BitVec.toNat) 0 w.n) :=
  ⟨{ cb := 0x4000, cap := { vrec := BitVec.ofNat 512 (0 * 2 ^ 64 + 0x6000 * 2 ^ 320) } }, _, _, _, _, _, ({ inp := { a := 0 }, tide := 20000, clusters := [(0, { tlb := [flat], pontoonUp := true, pontoon := { tow := some { cb := 0x4000, cap := { vrec := BitVec.ofNat 512 (0 * 2 ^ 64 + 0x6000 * 2 ^ 320) } } } })], mem := Memory.writeList [] 0x4000 (leBytes 8 281474976710658 ++ leBytes 8 2 ++ leBytes 8 0 ++ leBytes 8 20480 ++ leBytes 8 0 ++ leBytes 8 0 ++ leBytes 8 0 ++ leBytes 8 883268846285225984) }), ⟨⟨(by decide +kernel), (by decide +kernel), (by decide +kernel), (triple_ok (by decide +kernel)), (by decide +kernel)⟩, (by decide +kernel), (by decide +kernel), (by decide +kernel), (by decide +kernel), (by decide +kernel), (by decide +kernel), (fine_pair (by decide +kernel))⟩⟩

theorem met_TowStepsComplete_6 :
  let at' := fun (s : State) (w : Tow) (op : Nat) (h : List Word) (body : List Byte) (s1 : State) =>
    (s.pontoon s.inp.a).tow = some w ∧ towMoves s s.inp.a w = true ∧ w.hdr = [] ∧ readBlock s s.inp.a w = (s1, h, .ok body) ∧
    (h.getD 0 0).toNat % 256 = op
  let go := fun (t : State) (gc : Nat) (w : Tow) (dest : Word) =>
    t.modPontoon gc fun po => { po with tow := some { w with
      cb := dest, ph := 0, sub := 0, hdr := [], pay := [], dec := none, seq := 0, blocks := w.blocks + 1, waits := false }}
  let put := fun (t : State) (gc : Nat) (w : Tow) => t.modPontoon gc fun po => { po with tow := some w }
  let op := fun (h : List Word) (i : Nat) => h.getD (3 + i) 0
  let q := fun (s : State) => hartQOf (640 + s.inp.a)
  let completes := fun (s : State) (w : Tow) (c : Nat) =>
    (s.pontoon s.inp.a).tow = some w ∧ w.done = some c ∧ handlerLive s s.inp.a (·.tow) = false ∧ storesDone s (q s) 2 = true ∧
    storesLost s (q s) 2 = false
  let left := fun (s : State) (w : Tow) (c : Nat) =>
    if c = 0 then (dropStores s (q s) 2, w) else leaveSession (dropStores s (q s) 2) s.inp.a w
  let frame := fun (w : Tow) (c : Nat) => frameOf c 2 w.req.rid.toNat w.seq
    (w.flags / 128 + 2 ^ 5 * w.worst + 2 ^ 7 * b2n w.parkedOnce + 2 ^ 32 * w.blocks)
  ∃ w, MetHappensTo .towRun
    (fun s =>
      let done := if w.ph = 1 then w.sub else 0
      (s.pontoon s.inp.a).tow = some w ∧ towMoves s s.inp.a w = true ∧ w.hdr ≠ [] ∧ (w.hdr.getD 0 0).toNat % 256 = 2 ∧
      op w.hdr 0 ≠ 0 ∧ w.pay.length = 32 * w.depth ∧ s.inp.w ≠ 0 ∧ done + s.inp.w.toNat < slotCount w.split w.depth)
    (fun s t =>
      let done := if w.ph = 1 then w.sub else 0
      let drift := (s.pontoon s.inp.a).drift
      let bank := w.shadow.getD w.bank
      ∃ k, (t.pontoon s.inp.a).tow = some k ∧ k.bank = bank ∧ k.shadow = none ∧ k.cb = w.cb ∧ k.ph = 1 ∧
        k.sub = done + s.inp.w.toNat ∧ k.runs = w.runs ∧
        k.n = streamSlots bank w.split w.gain w.shift w.depth (if drift = 0 then 1 else 3) s.freeCtr
          (fun b => ((w.pay.drop (32 * b)).take 32).map BitVec.toNat) done (done + s.inp.w.toNat) w.n) :=
  ⟨{ cb := 0x4000, cap := { vrec := BitVec.ofNat 512 (1 * 2 ^ 64 + 0x6000 * 2 ^ 320) }, hdr := [2, 2, 0, 0x5000, 0, 0, 0, 0], pay := List.replicate 64 1 }, ({ inp := { a := 0, w := 1 }, tide := 20000, clusters := [(0, { tlb := [flat], pontoonUp := true, pontoon := { tow := some { cb := 0x4000, cap := { vrec := BitVec.ofNat 512 (1 * 2 ^ 64 + 0x6000 * 2 ^ 320) }, hdr := [2, 2, 0, 0x5000, 0, 0, 0, 0], pay := List.replicate 64 1 } } })] }), ⟨(by decide +kernel), (by decide +kernel), (by decide +kernel), (by decide +kernel), (by decide +kernel), (by decide +kernel), (by decide +kernel), (by decide +kernel)⟩⟩

theorem met_TowStepsComplete_7 :
  let at' := fun (s : State) (w : Tow) (op : Nat) (h : List Word) (body : List Byte) (s1 : State) =>
    (s.pontoon s.inp.a).tow = some w ∧ towMoves s s.inp.a w = true ∧ w.hdr = [] ∧ readBlock s s.inp.a w = (s1, h, .ok body) ∧
    (h.getD 0 0).toNat % 256 = op
  let go := fun (t : State) (gc : Nat) (w : Tow) (dest : Word) =>
    t.modPontoon gc fun po => { po with tow := some { w with
      cb := dest, ph := 0, sub := 0, hdr := [], pay := [], dec := none, seq := 0, blocks := w.blocks + 1, waits := false }}
  let put := fun (t : State) (gc : Nat) (w : Tow) => t.modPontoon gc fun po => { po with tow := some w }
  let op := fun (h : List Word) (i : Nat) => h.getD (3 + i) 0
  let q := fun (s : State) => hartQOf (640 + s.inp.a)
  let completes := fun (s : State) (w : Tow) (c : Nat) =>
    (s.pontoon s.inp.a).tow = some w ∧ w.done = some c ∧ handlerLive s s.inp.a (·.tow) = false ∧ storesDone s (q s) 2 = true ∧
    storesLost s (q s) 2 = false
  let left := fun (s : State) (w : Tow) (c : Nat) =>
    if c = 0 then (dropStores s (q s) 2, w) else leaveSession (dropStores s (q s) 2) s.inp.a w
  let frame := fun (w : Tow) (c : Nat) => frameOf c 2 w.req.rid.toNat w.seq
    (w.flags / 128 + 2 ^ 5 * w.worst + 2 ^ 7 * b2n w.parkedOnce + 2 ^ 32 * w.blocks)
  ∃ w h body s1 s2 sc, MetHappensTo .towPromote
    (fun s => at' s w 3 h body s1 ∧ w.out = [] ∧ towScales s1 s.inp.a w h = .ok (s2, sc))
    (fun s t =>
      let e := promoteAll w.n w.a w.depth w.gain w.shift w.u w.cap.ctl (fun i => sc.getD i 0) fun _ => 0
      ∃ k, (t.pontoon s.inp.a).tow = some k ∧ k.a = e.1 ∧ k.n = [] ∧ k.u = w.u + 1 ∧ k.flags = w.flags ||| e.2 ∧ k.cb = succOf w h) :=
  ⟨{ cb := 0x4000, cap := { vrec := BitVec.ofNat 512 (0 * 2 ^ 64 + 0x6000 * 2 ^ 320) }, n := [(0, 5)] }, _, _, _, _, _, ({ inp := { a := 0 }, tide := 20000, clusters := [(0, { tlb := [flat], pontoonUp := true, pontoon := { tow := some { cb := 0x4000, cap := { vrec := BitVec.ofNat 512 (0 * 2 ^ 64 + 0x6000 * 2 ^ 320) }, n := [(0, 5)] } } })], mem := Memory.writeList [] 0x4000 (leBytes 8 3 ++ leBytes 8 2 ++ leBytes 8 0 ++ leBytes 8 1065353216 ++ leBytes 8 0 ++ leBytes 8 0 ++ leBytes 8 0 ++ leBytes 8 1906993813323251712) }), ⟨⟨(by decide +kernel), (by decide +kernel), (by decide +kernel), (triple_ok (by decide +kernel)), (by decide +kernel)⟩, (by decide +kernel), (fine_pair (by decide +kernel))⟩⟩

theorem met_TowStepsComplete_8 :
  let at' := fun (s : State) (w : Tow) (op : Nat) (h : List Word) (body : List Byte) (s1 : State) =>
    (s.pontoon s.inp.a).tow = some w ∧ towMoves s s.inp.a w = true ∧ w.hdr = [] ∧ readBlock s s.inp.a w = (s1, h, .ok body) ∧
    (h.getD 0 0).toNat % 256 = op
  let go := fun (t : State) (gc : Nat) (w : Tow) (dest : Word) =>
    t.modPontoon gc fun po => { po with tow := some { w with
      cb := dest, ph := 0, sub := 0, hdr := [], pay := [], dec := none, seq := 0, blocks := w.blocks + 1, waits := false }}
  let put := fun (t : State) (gc : Nat) (w : Tow) => t.modPontoon gc fun po => { po with tow := some w }
  let op := fun (h : List Word) (i : Nat) => h.getD (3 + i) 0
  let q := fun (s : State) => hartQOf (640 + s.inp.a)
  let completes := fun (s : State) (w : Tow) (c : Nat) =>
    (s.pontoon s.inp.a).tow = some w ∧ w.done = some c ∧ handlerLive s s.inp.a (·.tow) = false ∧ storesDone s (q s) 2 = true ∧
    storesLost s (q s) 2 = false
  let left := fun (s : State) (w : Tow) (c : Nat) =>
    if c = 0 then (dropStores s (q s) 2, w) else leaveSession (dropStores s (q s) 2) s.inp.a w
  let frame := fun (w : Tow) (c : Nat) => frameOf c 2 w.req.rid.toNat w.seq
    (w.flags / 128 + 2 ^ 5 * w.worst + 2 ^ 7 * b2n w.parkedOnce + 2 ^ 32 * w.blocks)
  ∃ w h body s1, MetHappensTo .towDrain
    (fun s => at' s w 4 h body s1 ∧ w.ph = 0 ∧ hRk h = 5 ∧ 1 < w.depth)
    (fun s t => ∃ k, (t.pontoon s.inp.a).tow = some k ∧ k.hdr = h ∧ k.ph = 2 ∧ k.sub = 1 ∧
      ∀ j, (hj : j < 128) → t.byteAt (spKey s.inp.a (128 * ((op h 0).toNat % 2 ^ 16) + j)) =
        (w.rowBytes 0).getD j 0) :=
  ⟨{ cb := 0x4000, cap := { vrec := BitVec.ofNat 512 (1 * 2 ^ 64 + 0x6000 * 2 ^ 320) }, a := [(0, 5)] }, _, _, _, ({ inp := { a := 0 }, tide := 20000, clusters := [(0, { tlb := [flat], pontoonUp := true, pontoon := { tow := some { cb := 0x4000, cap := { vrec := BitVec.ofNat 512 (1 * 2 ^ 64 + 0x6000 * 2 ^ 320) }, a := [(0, 5)] } } })], mem := Memory.writeList [] 0x4000 (leBytes 8 1407374883553284 ++ leBytes 8 2 ++ leBytes 8 0 ++ leBytes 8 3 ++ leBytes 8 0 ++ leBytes 8 0 ++ leBytes 8 0 ++ leBytes 8 220113496212242432) }), ⟨⟨(by decide +kernel), (by decide +kernel), (by decide +kernel), (triple_ok (by decide +kernel)), (by decide +kernel)⟩, (by decide +kernel), (by decide +kernel), (by decide +kernel)⟩⟩

theorem met_TowStepsComplete_9 :
  let at' := fun (s : State) (w : Tow) (op : Nat) (h : List Word) (body : List Byte) (s1 : State) =>
    (s.pontoon s.inp.a).tow = some w ∧ towMoves s s.inp.a w = true ∧ w.hdr = [] ∧ readBlock s s.inp.a w = (s1, h, .ok body) ∧
    (h.getD 0 0).toNat % 256 = op
  let go := fun (t : State) (gc : Nat) (w : Tow) (dest : Word) =>
    t.modPontoon gc fun po => { po with tow := some { w with
      cb := dest, ph := 0, sub := 0, hdr := [], pay := [], dec := none, seq := 0, blocks := w.blocks + 1, waits := false }}
  let put := fun (t : State) (gc : Nat) (w : Tow) => t.modPontoon gc fun po => { po with tow := some w }
  let op := fun (h : List Word) (i : Nat) => h.getD (3 + i) 0
  let q := fun (s : State) => hartQOf (640 + s.inp.a)
  let completes := fun (s : State) (w : Tow) (c : Nat) =>
    (s.pontoon s.inp.a).tow = some w ∧ w.done = some c ∧ handlerLive s s.inp.a (·.tow) = false ∧ storesDone s (q s) 2 = true ∧
    storesLost s (q s) 2 = false
  let left := fun (s : State) (w : Tow) (c : Nat) =>
    if c = 0 then (dropStores s (q s) 2, w) else leaveSession (dropStores s (q s) 2) s.inp.a w
  let frame := fun (w : Tow) (c : Nat) => frameOf c 2 w.req.rid.toNat w.seq
    (w.flags / 128 + 2 ^ 5 * w.worst + 2 ^ 7 * b2n w.parkedOnce + 2 ^ 32 * w.blocks)
  ∃ w h body s1, MetHappensTo .towRoute
    (fun s => at' s w 5 h body s1 ∧ hRk h ≠ 4)
    (fun s t => ∃ k, (t.pontoon s.inp.a).tow = some k ∧ k.rk = hRk h ∧ k.rs = hRs h ∧ k.rv = (op h 0).toNat % 2 ^ 16 ∧
      k.cb = succOf w h) :=
  ⟨{ cb := 0x4000, cap := { vrec := BitVec.ofNat 512 (0 * 2 ^ 64 + 0x6000 * 2 ^ 320) } }, _, _, _, ({ inp := { a := 0 }, tide := 20000, clusters := [(0, { tlb := [flat], pontoonUp := true, pontoon := { tow := some { cb := 0x4000, cap := { vrec := BitVec.ofNat 512 (0 * 2 ^ 64 + 0x6000 * 2 ^ 320) } } } })], mem := Memory.writeList [] 0x4000 (leBytes 8 562949953421317 ++ leBytes 8 2 ++ leBytes 8 0 ++ leBytes 8 0 ++ leBytes 8 0 ++ leBytes 8 0 ++ leBytes 8 0 ++ leBytes 8 161003729628168192) }), ⟨⟨(by decide +kernel), (by decide +kernel), (by decide +kernel), (triple_ok (by decide +kernel)), (by decide +kernel)⟩, (by decide +kernel)⟩⟩

theorem met_TowStepsComplete_10 :
  let at' := fun (s : State) (w : Tow) (op : Nat) (h : List Word) (body : List Byte) (s1 : State) =>
    (s.pontoon s.inp.a).tow = some w ∧ towMoves s s.inp.a w = true ∧ w.hdr = [] ∧ readBlock s s.inp.a w = (s1, h, .ok body) ∧
    (h.getD 0 0).toNat % 256 = op
  let go := fun (t : State) (gc : Nat) (w : Tow) (dest : Word) =>
    t.modPontoon gc fun po => { po with tow := some { w with
      cb := dest, ph := 0, sub := 0, hdr := [], pay := [], dec := none, seq := 0, blocks := w.blocks + 1, waits := false }}
  let put := fun (t : State) (gc : Nat) (w : Tow) => t.modPontoon gc fun po => { po with tow := some w }
  let op := fun (h : List Word) (i : Nat) => h.getD (3 + i) 0
  let q := fun (s : State) => hartQOf (640 + s.inp.a)
  let completes := fun (s : State) (w : Tow) (c : Nat) =>
    (s.pontoon s.inp.a).tow = some w ∧ w.done = some c ∧ handlerLive s s.inp.a (·.tow) = false ∧ storesDone s (q s) 2 = true ∧
    storesLost s (q s) 2 = false
  let left := fun (s : State) (w : Tow) (c : Nat) =>
    if c = 0 then (dropStores s (q s) 2, w) else leaveSession (dropStores s (q s) 2) s.inp.a w
  let frame := fun (w : Tow) (c : Nat) => frameOf c 2 w.req.rid.toNat w.seq
    (w.flags / 128 + 2 ^ 5 * w.worst + 2 ^ 7 * b2n w.parkedOnce + 2 ^ 32 * w.blocks)
  ∃ w h body s1, MetHappensTo .towSync
    (fun s => at' s w 6 h body s1 ∧ w.out = [] ∧ op h 0 = 1 ∧ (op h 1).toNat ≤ s1.tide.toNat)
    (fun s t => ∃ k, (t.pontoon s.inp.a).tow = some k ∧ k.cb = succOf w h) :=
  ⟨{ cb := 0x4000, cap := { vrec := BitVec.ofNat 512 (0 * 2 ^ 64 + 0x6000 * 2 ^ 320) } }, _, _, _, ({ inp := { a := 0 }, tide := 20000, clusters := [(0, { tlb := [flat], pontoonUp := true, pontoon := { tow := some { cb := 0x4000, cap := { vrec := BitVec.ofNat 512 (0 * 2 ^ 64 + 0x6000 * 2 ^ 320) } } } })], mem := Memory.writeList [] 0x4000 (leBytes 8 6 ++ leBytes 8 2 ++ leBytes 8 0 ++ leBytes 8 1 ++ leBytes 8 5 ++ leBytes 8 0 ++ leBytes 8 0 ++ leBytes 8 197032548121968640) }), ⟨⟨(by decide +kernel), (by decide +kernel), (by decide +kernel), (triple_ok (by decide +kernel)), (by decide +kernel)⟩, (by decide +kernel), (by decide +kernel), (by decide +kernel)⟩⟩

theorem met_TowStepsComplete_11 :
  let at' := fun (s : State) (w : Tow) (op : Nat) (h : List Word) (body : List Byte) (s1 : State) =>
    (s.pontoon s.inp.a).tow = some w ∧ towMoves s s.inp.a w = true ∧ w.hdr = [] ∧ readBlock s s.inp.a w = (s1, h, .ok body) ∧
    (h.getD 0 0).toNat % 256 = op
  let go := fun (t : State) (gc : Nat) (w : Tow) (dest : Word) =>
    t.modPontoon gc fun po => { po with tow := some { w with
      cb := dest, ph := 0, sub := 0, hdr := [], pay := [], dec := none, seq := 0, blocks := w.blocks + 1, waits := false }}
  let put := fun (t : State) (gc : Nat) (w : Tow) => t.modPontoon gc fun po => { po with tow := some w }
  let op := fun (h : List Word) (i : Nat) => h.getD (3 + i) 0
  let q := fun (s : State) => hartQOf (640 + s.inp.a)
  let completes := fun (s : State) (w : Tow) (c : Nat) =>
    (s.pontoon s.inp.a).tow = some w ∧ w.done = some c ∧ handlerLive s s.inp.a (·.tow) = false ∧ storesDone s (q s) 2 = true ∧
    storesLost s (q s) 2 = false
  let left := fun (s : State) (w : Tow) (c : Nat) =>
    if c = 0 then (dropStores s (q s) 2, w) else leaveSession (dropStores s (q s) 2) s.inp.a w
  let frame := fun (w : Tow) (c : Nat) => frameOf c 2 w.req.rid.toNat w.seq
    (w.flags / 128 + 2 ^ 5 * w.worst + 2 ^ 7 * b2n w.parkedOnce + 2 ^ 32 * w.blocks)
  ∃ w h body s1 dest, MetHappensTo .towBranch
    (fun s => at' s w 7 h body s1 ∧ w.out = [] ∧ linkTarget w.cb (hPlen h) (op h 1) = some dest)
    (fun s t => ∃ k, (t.pontoon s.inp.a).tow = some k ∧
      k.cb = if s1.natAt (spKey s.inp.a (op h 0).toNat) 8 ≠ 0 then dest else succOf w h) :=
  ⟨{ cb := 0x4000, cap := { vrec := BitVec.ofNat 512 (0 * 2 ^ 64 + 0x6000 * 2 ^ 320) } }, _, _, _, 0x8000, ({ inp := { a := 0 }, tide := 20000, clusters := [(0, { tlb := [flat], pontoonUp := true, pontoon := { tow := some { cb := 0x4000, cap := { vrec := BitVec.ofNat 512 (0 * 2 ^ 64 + 0x6000 * 2 ^ 320) } } } })], mem := Memory.writeList [] 0x4000 (leBytes 8 7 ++ leBytes 8 2 ++ leBytes 8 0 ++ leBytes 8 256 ++ leBytes 8 32769 ++ leBytes 8 0 ++ leBytes 8 0 ++ leBytes 8 1154892430739243008) }), ⟨⟨(by decide +kernel), (by decide +kernel), (by decide +kernel), (triple_ok (by decide +kernel)), (by decide +kernel)⟩, (by decide +kernel), (by decide +kernel)⟩⟩

theorem met_TowStepsComplete_12 :
  let at' := fun (s : State) (w : Tow) (op : Nat) (h : List Word) (body : List Byte) (s1 : State) =>
    (s.pontoon s.inp.a).tow = some w ∧ towMoves s s.inp.a w = true ∧ w.hdr = [] ∧ readBlock s s.inp.a w = (s1, h, .ok body) ∧
    (h.getD 0 0).toNat % 256 = op
  let go := fun (t : State) (gc : Nat) (w : Tow) (dest : Word) =>
    t.modPontoon gc fun po => { po with tow := some { w with
      cb := dest, ph := 0, sub := 0, hdr := [], pay := [], dec := none, seq := 0, blocks := w.blocks + 1, waits := false }}
  let put := fun (t : State) (gc : Nat) (w : Tow) => t.modPontoon gc fun po => { po with tow := some w }
  let op := fun (h : List Word) (i : Nat) => h.getD (3 + i) 0
  let q := fun (s : State) => hartQOf (640 + s.inp.a)
  let completes := fun (s : State) (w : Tow) (c : Nat) =>
    (s.pontoon s.inp.a).tow = some w ∧ w.done = some c ∧ handlerLive s s.inp.a (·.tow) = false ∧ storesDone s (q s) 2 = true ∧
    storesLost s (q s) 2 = false
  let left := fun (s : State) (w : Tow) (c : Nat) =>
    if c = 0 then (dropStores s (q s) 2, w) else leaveSession (dropStores s (q s) 2) s.inp.a w
  let frame := fun (w : Tow) (c : Nat) => frameOf c 2 w.req.rid.toNat w.seq
    (w.flags / 128 + 2 ^ 5 * w.worst + 2 ^ 7 * b2n w.parkedOnce + 2 ^ 32 * w.blocks)
  ∃ w h body s1 dest, MetHappensTo .towCall
    (fun s => at' s w 8 h body s1 ∧ w.stack.length < 8 ∧ linkTarget w.cb (hPlen h) (op h 0) = some dest)
    (fun s t => ∃ k, (t.pontoon s.inp.a).tow = some k ∧ k.cb = dest ∧ k.stack = w.stack ++ [succOf w h]) :=
  ⟨{ cb := 0x4000, cap := { vrec := BitVec.ofNat 512 (0 * 2 ^ 64 + 0x6000 * 2 ^ 320) } }, _, _, _, 0x8000, ({ inp := { a := 0 }, tide := 20000, clusters := [(0, { tlb := [flat], pontoonUp := true, pontoon := { tow := some { cb := 0x4000, cap := { vrec := BitVec.ofNat 512 (0 * 2 ^ 64 + 0x6000 * 2 ^ 320) } } } })], mem := Memory.writeList [] 0x4000 (leBytes 8 8 ++ leBytes 8 2 ++ leBytes 8 0 ++ leBytes 8 32769 ++ leBytes 8 0 ++ leBytes 8 0 ++ leBytes 8 0 ++ leBytes 8 1452411481122406400) }), ⟨⟨(by decide +kernel), (by decide +kernel), (by decide +kernel), (triple_ok (by decide +kernel)), (by decide +kernel)⟩, (by decide +kernel), (by decide +kernel)⟩⟩

theorem met_TowStepsComplete_13 :
  let at' := fun (s : State) (w : Tow) (op : Nat) (h : List Word) (body : List Byte) (s1 : State) =>
    (s.pontoon s.inp.a).tow = some w ∧ towMoves s s.inp.a w = true ∧ w.hdr = [] ∧ readBlock s s.inp.a w = (s1, h, .ok body) ∧
    (h.getD 0 0).toNat % 256 = op
  let go := fun (t : State) (gc : Nat) (w : Tow) (dest : Word) =>
    t.modPontoon gc fun po => { po with tow := some { w with
      cb := dest, ph := 0, sub := 0, hdr := [], pay := [], dec := none, seq := 0, blocks := w.blocks + 1, waits := false }}
  let put := fun (t : State) (gc : Nat) (w : Tow) => t.modPontoon gc fun po => { po with tow := some w }
  let op := fun (h : List Word) (i : Nat) => h.getD (3 + i) 0
  let q := fun (s : State) => hartQOf (640 + s.inp.a)
  let completes := fun (s : State) (w : Tow) (c : Nat) =>
    (s.pontoon s.inp.a).tow = some w ∧ w.done = some c ∧ handlerLive s s.inp.a (·.tow) = false ∧ storesDone s (q s) 2 = true ∧
    storesLost s (q s) 2 = false
  let left := fun (s : State) (w : Tow) (c : Nat) =>
    if c = 0 then (dropStores s (q s) 2, w) else leaveSession (dropStores s (q s) 2) s.inp.a w
  let frame := fun (w : Tow) (c : Nat) => frameOf c 2 w.req.rid.toNat w.seq
    (w.flags / 128 + 2 ^ 5 * w.worst + 2 ^ 7 * b2n w.parkedOnce + 2 ^ 32 * w.blocks)
  ∃ w h body s1, MetHappensTo .towCall
    (fun s => at' s w 8 h body s1 ∧ 8 ≤ w.stack.length)
    (fun s t => ∃ k, (t.pontoon s.inp.a).tow = some k ∧ k.fail = some 0x79) :=
  ⟨{ cb := 0x4000, cap := { vrec := BitVec.ofNat 512 (0 * 2 ^ 64 + 0x6000 * 2 ^ 320) }, stack := [0x40, 0x80, 0, 0, 0, 0, 0, 0] }, _, _, _, ({ inp := { a := 0 }, tide := 20000, clusters := [(0, { tlb := [flat], pontoonUp := true, pontoon := { tow := some { cb := 0x4000, cap := { vrec := BitVec.ofNat 512 (0 * 2 ^ 64 + 0x6000 * 2 ^ 320) }, stack := [0x40, 0x80, 0, 0, 0, 0, 0, 0] } } })], mem := Memory.writeList [] 0x4000 (leBytes 8 8 ++ leBytes 8 2 ++ leBytes 8 0 ++ leBytes 8 32769 ++ leBytes 8 0 ++ leBytes 8 0 ++ leBytes 8 0 ++ leBytes 8 1452411481122406400) }), ⟨⟨(by decide +kernel), (by decide +kernel), (by decide +kernel), (triple_ok (by decide +kernel)), (by decide +kernel)⟩, (by decide +kernel)⟩⟩

theorem met_TowStepsComplete_14 :
  let at' := fun (s : State) (w : Tow) (op : Nat) (h : List Word) (body : List Byte) (s1 : State) =>
    (s.pontoon s.inp.a).tow = some w ∧ towMoves s s.inp.a w = true ∧ w.hdr = [] ∧ readBlock s s.inp.a w = (s1, h, .ok body) ∧
    (h.getD 0 0).toNat % 256 = op
  let go := fun (t : State) (gc : Nat) (w : Tow) (dest : Word) =>
    t.modPontoon gc fun po => { po with tow := some { w with
      cb := dest, ph := 0, sub := 0, hdr := [], pay := [], dec := none, seq := 0, blocks := w.blocks + 1, waits := false }}
  let put := fun (t : State) (gc : Nat) (w : Tow) => t.modPontoon gc fun po => { po with tow := some w }
  let op := fun (h : List Word) (i : Nat) => h.getD (3 + i) 0
  let q := fun (s : State) => hartQOf (640 + s.inp.a)
  let completes := fun (s : State) (w : Tow) (c : Nat) =>
    (s.pontoon s.inp.a).tow = some w ∧ w.done = some c ∧ handlerLive s s.inp.a (·.tow) = false ∧ storesDone s (q s) 2 = true ∧
    storesLost s (q s) 2 = false
  let left := fun (s : State) (w : Tow) (c : Nat) =>
    if c = 0 then (dropStores s (q s) 2, w) else leaveSession (dropStores s (q s) 2) s.inp.a w
  let frame := fun (w : Tow) (c : Nat) => frameOf c 2 w.req.rid.toNat w.seq
    (w.flags / 128 + 2 ^ 5 * w.worst + 2 ^ 7 * b2n w.parkedOnce + 2 ^ 32 * w.blocks)
  ∃ w h body s1 st dest, MetHappensTo .towRet
    (fun s => at' s w 9 h body s1 ∧ w.stack = st ++ [dest])
    (fun s t => ∃ k, (t.pontoon s.inp.a).tow = some k ∧ k.cb = dest ∧ k.stack = st) :=
  ⟨{ cb := 0x4000, cap := { vrec := BitVec.ofNat 512 (0 * 2 ^ 64 + 0x6000 * 2 ^ 320) }, stack := [0x40, 0x80] }, _, _, _, [0x40], 0x80, ({ inp := { a := 0 }, tide := 20000, clusters := [(0, { tlb := [flat], pontoonUp := true, pontoon := { tow := some { cb := 0x4000, cap := { vrec := BitVec.ofNat 512 (0 * 2 ^ 64 + 0x6000 * 2 ^ 320) }, stack := [0x40, 0x80] } } })], mem := Memory.writeList [] 0x4000 (leBytes 8 9 ++ leBytes 8 0 ++ leBytes 8 0 ++ leBytes 8 0 ++ leBytes 8 0 ++ leBytes 8 0 ++ leBytes 8 0 ++ leBytes 8 168885028976066560) }), ⟨⟨(by decide +kernel), (by decide +kernel), (by decide +kernel), (triple_ok (by decide +kernel)), (by decide +kernel)⟩, (by decide +kernel)⟩⟩

theorem met_TowStepsComplete_15 :
  let at' := fun (s : State) (w : Tow) (op : Nat) (h : List Word) (body : List Byte) (s1 : State) =>
    (s.pontoon s.inp.a).tow = some w ∧ towMoves s s.inp.a w = true ∧ w.hdr = [] ∧ readBlock s s.inp.a w = (s1, h, .ok body) ∧
    (h.getD 0 0).toNat % 256 = op
  let go := fun (t : State) (gc : Nat) (w : Tow) (dest : Word) =>
    t.modPontoon gc fun po => { po with tow := some { w with
      cb := dest, ph := 0, sub := 0, hdr := [], pay := [], dec := none, seq := 0, blocks := w.blocks + 1, waits := false }}
  let put := fun (t : State) (gc : Nat) (w : Tow) => t.modPontoon gc fun po => { po with tow := some w }
  let op := fun (h : List Word) (i : Nat) => h.getD (3 + i) 0
  let q := fun (s : State) => hartQOf (640 + s.inp.a)
  let completes := fun (s : State) (w : Tow) (c : Nat) =>
    (s.pontoon s.inp.a).tow = some w ∧ w.done = some c ∧ handlerLive s s.inp.a (·.tow) = false ∧ storesDone s (q s) 2 = true ∧
    storesLost s (q s) 2 = false
  let left := fun (s : State) (w : Tow) (c : Nat) =>
    if c = 0 then (dropStores s (q s) 2, w) else leaveSession (dropStores s (q s) 2) s.inp.a w
  let frame := fun (w : Tow) (c : Nat) => frameOf c 2 w.req.rid.toNat w.seq
    (w.flags / 128 + 2 ^ 5 * w.worst + 2 ^ 7 * b2n w.parkedOnce + 2 ^ 32 * w.blocks)
  ∃ w h body s1, MetHappensTo .towExitBlock
    (fun s => at' s w 10 h body s1 ∧ w.out = [])
    (fun s t => ∃ k, (t.pontoon s.inp.a).tow = some k ∧ k.st = 3 ∧ k.done = some 0 ∧ k.blocks = w.blocks + 1) :=
  ⟨{ cb := 0x4000, cap := { vrec := BitVec.ofNat 512 (0 * 2 ^ 64 + 0x6000 * 2 ^ 320) } }, _, _, _, ({ inp := { a := 0 }, tide := 20000, clusters := [(0, { tlb := [flat], pontoonUp := true, pontoon := { tow := some { cb := 0x4000, cap := { vrec := BitVec.ofNat 512 (0 * 2 ^ 64 + 0x6000 * 2 ^ 320) } } } })], mem := Memory.writeList [] 0x4000 (leBytes 8 10 ++ leBytes 8 0 ++ leBytes 8 0 ++ leBytes 8 0 ++ leBytes 8 0 ++ leBytes 8 0 ++ leBytes 8 0 ++ leBytes 8 185773531873673216) }), ⟨⟨(by decide +kernel), (by decide +kernel), (by decide +kernel), (triple_ok (by decide +kernel)), (by decide +kernel)⟩, (by decide +kernel)⟩⟩

theorem met_TowStepsComplete_16 :
  let at' := fun (s : State) (w : Tow) (op : Nat) (h : List Word) (body : List Byte) (s1 : State) =>
    (s.pontoon s.inp.a).tow = some w ∧ towMoves s s.inp.a w = true ∧ w.hdr = [] ∧ readBlock s s.inp.a w = (s1, h, .ok body) ∧
    (h.getD 0 0).toNat % 256 = op
  let go := fun (t : State) (gc : Nat) (w : Tow) (dest : Word) =>
    t.modPontoon gc fun po => { po with tow := some { w with
      cb := dest, ph := 0, sub := 0, hdr := [], pay := [], dec := none, seq := 0, blocks := w.blocks + 1, waits := false }}
  let put := fun (t : State) (gc : Nat) (w : Tow) => t.modPontoon gc fun po => { po with tow := some w }
  let op := fun (h : List Word) (i : Nat) => h.getD (3 + i) 0
  let q := fun (s : State) => hartQOf (640 + s.inp.a)
  let completes := fun (s : State) (w : Tow) (c : Nat) =>
    (s.pontoon s.inp.a).tow = some w ∧ w.done = some c ∧ handlerLive s s.inp.a (·.tow) = false ∧ storesDone s (q s) 2 = true ∧
    storesLost s (q s) 2 = false
  let left := fun (s : State) (w : Tow) (c : Nat) =>
    if c = 0 then (dropStores s (q s) 2, w) else leaveSession (dropStores s (q s) 2) s.inp.a w
  let frame := fun (w : Tow) (c : Nat) => frameOf c 2 w.req.rid.toNat w.seq
    (w.flags / 128 + 2 ^ 5 * w.worst + 2 ^ 7 * b2n w.parkedOnce + 2 ^ 32 * w.blocks)
  ∃ w h s1, MetHappensTo .towReservedBlock
    (fun s => (s.pontoon s.inp.a).tow = some w ∧ towMoves s s.inp.a w = true ∧ w.hdr = [] ∧ readBlock s s.inp.a w = (s1, h, .error 0x78))
    (fun s t => ∃ k, (t.pontoon s.inp.a).tow = some k ∧ k.fail = some 0x78) :=
  ⟨{ cb := 0x4000, cap := { vrec := BitVec.ofNat 512 (0 * 2 ^ 64 + 0x6000 * 2 ^ 320) } }, _, _, ({ inp := { a := 0 }, tide := 20000, clusters := [(0, { tlb := [flat], pontoonUp := true, pontoon := { tow := some { cb := 0x4000, cap := { vrec := BitVec.ofNat 512 (0 * 2 ^ 64 + 0x6000 * 2 ^ 320) } } } })], mem := Memory.writeList [] 0x4000 (leBytes 8 11 ++ leBytes 8 0 ++ leBytes 8 0 ++ leBytes 8 0 ++ leBytes 8 0 ++ leBytes 8 0 ++ leBytes 8 0 ++ leBytes 8 202662034771279872) }), ⟨(by decide +kernel), (by decide +kernel), (by decide +kernel), (triple_error (by decide +kernel))⟩⟩

theorem met_TowStepsComplete_17 :
  let at' := fun (s : State) (w : Tow) (op : Nat) (h : List Word) (body : List Byte) (s1 : State) =>
    (s.pontoon s.inp.a).tow = some w ∧ towMoves s s.inp.a w = true ∧ w.hdr = [] ∧ readBlock s s.inp.a w = (s1, h, .ok body) ∧
    (h.getD 0 0).toNat % 256 = op
  let go := fun (t : State) (gc : Nat) (w : Tow) (dest : Word) =>
    t.modPontoon gc fun po => { po with tow := some { w with
      cb := dest, ph := 0, sub := 0, hdr := [], pay := [], dec := none, seq := 0, blocks := w.blocks + 1, waits := false }}
  let put := fun (t : State) (gc : Nat) (w : Tow) => t.modPontoon gc fun po => { po with tow := some w }
  let op := fun (h : List Word) (i : Nat) => h.getD (3 + i) 0
  let q := fun (s : State) => hartQOf (640 + s.inp.a)
  let completes := fun (s : State) (w : Tow) (c : Nat) =>
    (s.pontoon s.inp.a).tow = some w ∧ w.done = some c ∧ handlerLive s s.inp.a (·.tow) = false ∧ storesDone s (q s) 2 = true ∧
    storesLost s (q s) 2 = false
  let left := fun (s : State) (w : Tow) (c : Nat) =>
    if c = 0 then (dropStores s (q s) 2, w) else leaveSession (dropStores s (q s) 2) s.inp.a w
  let frame := fun (w : Tow) (c : Nat) => frameOf c 2 w.req.rid.toNat w.seq
    (w.flags / 128 + 2 ^ 5 * w.worst + 2 ^ 7 * b2n w.parkedOnce + 2 ^ 32 * w.blocks)
  ∃ w c v k, MetHappens .towStop
    (fun s => (s.pontoon s.inp.a).tow = some w ∧ w.fail = some c ∧ w.done = none ∧ w.st = 0 ∧ writeRestart s s.inp.a w c = .ok (v, k))
    (fun s => put v s.inp.a { k with
      st := 2, status := c, done := some c, fail := none, hdr := [], pay := [], dec := none, waits := false }) :=
  ⟨{ cb := 0x4000, cap := { vrec := BitVec.ofNat 512 (0 * 2 ^ 64 + 0x6000 * 2 ^ 320) }, fail := some 5 }, 5, _, _, ({ inp := { a := 0 }, tide := 20000, clusters := [(0, { tlb := [flat], pontoonUp := true, pontoon := { tow := some { cb := 0x4000, cap := { vrec := BitVec.ofNat 512 (0 * 2 ^ 64 + 0x6000 * 2 ^ 320) }, fail := some 5 } } })] }), ⟨(by decide +kernel), (by decide +kernel), (by decide +kernel), (by decide +kernel), (fine_pair (by decide +kernel))⟩⟩

theorem met_TowStepsComplete_18 :
  let at' := fun (s : State) (w : Tow) (op : Nat) (h : List Word) (body : List Byte) (s1 : State) =>
    (s.pontoon s.inp.a).tow = some w ∧ towMoves s s.inp.a w = true ∧ w.hdr = [] ∧ readBlock s s.inp.a w = (s1, h, .ok body) ∧
    (h.getD 0 0).toNat % 256 = op
  let go := fun (t : State) (gc : Nat) (w : Tow) (dest : Word) =>
    t.modPontoon gc fun po => { po with tow := some { w with
      cb := dest, ph := 0, sub := 0, hdr := [], pay := [], dec := none, seq := 0, blocks := w.blocks + 1, waits := false }}
  let put := fun (t : State) (gc : Nat) (w : Tow) => t.modPontoon gc fun po => { po with tow := some w }
  let op := fun (h : List Word) (i : Nat) => h.getD (3 + i) 0
  let q := fun (s : State) => hartQOf (640 + s.inp.a)
  let completes := fun (s : State) (w : Tow) (c : Nat) =>
    (s.pontoon s.inp.a).tow = some w ∧ w.done = some c ∧ handlerLive s s.inp.a (·.tow) = false ∧ storesDone s (q s) 2 = true ∧
    storesLost s (q s) 2 = false
  let left := fun (s : State) (w : Tow) (c : Nat) =>
    if c = 0 then (dropStores s (q s) 2, w) else leaveSession (dropStores s (q s) 2) s.inp.a w
  let frame := fun (w : Tow) (c : Nat) => frameOf c 2 w.req.rid.toNat w.seq
    (w.flags / 128 + 2 ^ 5 * w.worst + 2 ^ 7 * b2n w.parkedOnce + 2 ^ 32 * w.blocks)
  ∃ w v k, MetHappens .towPark
    (fun s => (s.pontoon s.inp.a).tow = some w ∧ w.st = 0 ∧ w.fail = none ∧ w.done = none ∧ w.leaving = false ∧
      (s.proc (hartQOf (640 + s.inp.a))).stopped = false ∧ (s.pontoon s.inp.a).preempt = true ∧
      writeRestart s s.inp.a w 0 = .ok (v, k))
    (fun s => put v s.inp.a { k with hdr := [], pay := [], dec := none, waits := false }) :=
  ⟨{ cb := 0x4000, cap := { vrec := BitVec.ofNat 512 (0 * 2 ^ 64 + 0x6000 * 2 ^ 320) } }, _, _, ({ inp := { a := 0 }, tide := 20000, clusters := [(0, { tlb := [flat], pontoonUp := true, pontoon := { tow := some { cb := 0x4000, cap := { vrec := BitVec.ofNat 512 (0 * 2 ^ 64 + 0x6000 * 2 ^ 320) } }, preempt := true } })] }), ⟨(by decide +kernel), (by decide +kernel), (by decide +kernel), (by decide +kernel), (by decide +kernel), (by decide +kernel), (by decide +kernel), (fine_pair (by decide +kernel))⟩⟩

theorem met_TowStepsComplete_19 :
  let at' := fun (s : State) (w : Tow) (op : Nat) (h : List Word) (body : List Byte) (s1 : State) =>
    (s.pontoon s.inp.a).tow = some w ∧ towMoves s s.inp.a w = true ∧ w.hdr = [] ∧ readBlock s s.inp.a w = (s1, h, .ok body) ∧
    (h.getD 0 0).toNat % 256 = op
  let go := fun (t : State) (gc : Nat) (w : Tow) (dest : Word) =>
    t.modPontoon gc fun po => { po with tow := some { w with
      cb := dest, ph := 0, sub := 0, hdr := [], pay := [], dec := none, seq := 0, blocks := w.blocks + 1, waits := false }}
  let put := fun (t : State) (gc : Nat) (w : Tow) => t.modPontoon gc fun po => { po with tow := some w }
  let op := fun (h : List Word) (i : Nat) => h.getD (3 + i) 0
  let q := fun (s : State) => hartQOf (640 + s.inp.a)
  let completes := fun (s : State) (w : Tow) (c : Nat) =>
    (s.pontoon s.inp.a).tow = some w ∧ w.done = some c ∧ handlerLive s s.inp.a (·.tow) = false ∧ storesDone s (q s) 2 = true ∧
    storesLost s (q s) 2 = false
  let left := fun (s : State) (w : Tow) (c : Nat) =>
    if c = 0 then (dropStores s (q s) 2, w) else leaveSession (dropStores s (q s) 2) s.inp.a w
  let frame := fun (w : Tow) (c : Nat) => frameOf c 2 w.req.rid.toNat w.seq
    (w.flags / 128 + 2 ^ 5 * w.worst + 2 ^ 7 * b2n w.parkedOnce + 2 ^ 32 * w.blocks)
  ∃ w, MetHappens .towStop
    (fun s => (s.pontoon s.inp.a).tow = some w ∧ w.fail = none ∧ w.done = none ∧ w.leaving = true ∧ w.st ≤ 1)
    (fun s => put s s.inp.a { w with st := 3, done := some 0x64, hdr := [], pay := [], dec := none, waits := false }) :=
  ⟨{ cb := 0x4000, cap := { vrec := BitVec.ofNat 512 (0 * 2 ^ 64 + 0x6000 * 2 ^ 320) }, leaving := true }, ({ inp := { a := 0 }, tide := 20000, clusters := [(0, { tlb := [flat], pontoonUp := true, pontoon := { tow := some { cb := 0x4000, cap := { vrec := BitVec.ofNat 512 (0 * 2 ^ 64 + 0x6000 * 2 ^ 320) }, leaving := true } } })] }), ⟨(by decide +kernel), (by decide +kernel), (by decide +kernel), (by decide +kernel), (by decide +kernel)⟩⟩

theorem met_TowStepsComplete_20 :
  let at' := fun (s : State) (w : Tow) (op : Nat) (h : List Word) (body : List Byte) (s1 : State) =>
    (s.pontoon s.inp.a).tow = some w ∧ towMoves s s.inp.a w = true ∧ w.hdr = [] ∧ readBlock s s.inp.a w = (s1, h, .ok body) ∧
    (h.getD 0 0).toNat % 256 = op
  let go := fun (t : State) (gc : Nat) (w : Tow) (dest : Word) =>
    t.modPontoon gc fun po => { po with tow := some { w with
      cb := dest, ph := 0, sub := 0, hdr := [], pay := [], dec := none, seq := 0, blocks := w.blocks + 1, waits := false }}
  let put := fun (t : State) (gc : Nat) (w : Tow) => t.modPontoon gc fun po => { po with tow := some w }
  let op := fun (h : List Word) (i : Nat) => h.getD (3 + i) 0
  let q := fun (s : State) => hartQOf (640 + s.inp.a)
  let completes := fun (s : State) (w : Tow) (c : Nat) =>
    (s.pontoon s.inp.a).tow = some w ∧ w.done = some c ∧ handlerLive s s.inp.a (·.tow) = false ∧ storesDone s (q s) 2 = true ∧
    storesLost s (q s) 2 = false
  let left := fun (s : State) (w : Tow) (c : Nat) =>
    if c = 0 then (dropStores s (q s) 2, w) else leaveSession (dropStores s (q s) 2) s.inp.a w
  let frame := fun (w : Tow) (c : Nat) => frameOf c 2 w.req.rid.toNat w.seq
    (w.flags / 128 + 2 ^ 5 * w.worst + 2 ^ 7 * b2n w.parkedOnce + 2 ^ 32 * w.blocks)
  ∃ w c, MetHappens .towCompletion
    (fun s => completes s w c ∧ (w.st ≠ 2 ∨ w.leaving = true))
    (fun s => (post (payOwed (left s w c).1 s.inp.a w) (640 + s.inp.a) w.req (frame w c)).modPontoon s.inp.a fun po =>
      { po with tow := none }) :=
  ⟨{ cb := 0x4000, cap := { vrec := BitVec.ofNat 512 (0 * 2 ^ 64 + 0x6000 * 2 ^ 320) }, st := 3, done := some 5 }, 5, ({ inp := { a := 0 }, tide := 20000, clusters := [(0, { tlb := [flat], pontoonUp := true, pontoon := { tow := some { cb := 0x4000, cap := { vrec := BitVec.ofNat 512 (0 * 2 ^ 64 + 0x6000 * 2 ^ 320) }, st := 3, done := some 5 } } })] }), ⟨⟨(by decide +kernel), (by decide +kernel), (by decide +kernel), (by decide +kernel), (by decide +kernel)⟩, .inl (by decide +kernel)⟩⟩

theorem met_TowStepsComplete_21 :
  let at' := fun (s : State) (w : Tow) (op : Nat) (h : List Word) (body : List Byte) (s1 : State) =>
    (s.pontoon s.inp.a).tow = some w ∧ towMoves s s.inp.a w = true ∧ w.hdr = [] ∧ readBlock s s.inp.a w = (s1, h, .ok body) ∧
    (h.getD 0 0).toNat % 256 = op
  let go := fun (t : State) (gc : Nat) (w : Tow) (dest : Word) =>
    t.modPontoon gc fun po => { po with tow := some { w with
      cb := dest, ph := 0, sub := 0, hdr := [], pay := [], dec := none, seq := 0, blocks := w.blocks + 1, waits := false }}
  let put := fun (t : State) (gc : Nat) (w : Tow) => t.modPontoon gc fun po => { po with tow := some w }
  let op := fun (h : List Word) (i : Nat) => h.getD (3 + i) 0
  let q := fun (s : State) => hartQOf (640 + s.inp.a)
  let completes := fun (s : State) (w : Tow) (c : Nat) =>
    (s.pontoon s.inp.a).tow = some w ∧ w.done = some c ∧ handlerLive s s.inp.a (·.tow) = false ∧ storesDone s (q s) 2 = true ∧
    storesLost s (q s) 2 = false
  let left := fun (s : State) (w : Tow) (c : Nat) =>
    if c = 0 then (dropStores s (q s) 2, w) else leaveSession (dropStores s (q s) 2) s.inp.a w
  let frame := fun (w : Tow) (c : Nat) => frameOf c 2 w.req.rid.toNat w.seq
    (w.flags / 128 + 2 ^ 5 * w.worst + 2 ^ 7 * b2n w.parkedOnce + 2 ^ 32 * w.blocks)
  ∃ w c, MetHappens .towCompletion
    (fun s => completes s w c ∧ w.st = 2 ∧ w.leaving = false)
    (fun s => put (post (payOwed (left s w c).1 s.inp.a w) (640 + s.inp.a) w.req (frame w c)) s.inp.a
      { (left s w c).2 with done := none, owed := [] }) :=
  ⟨{ cb := 0x4000, cap := { vrec := BitVec.ofNat 512 (0 * 2 ^ 64 + 0x6000 * 2 ^ 320) }, st := 2, done := some 5 }, 5, ({ inp := { a := 0 }, tide := 20000, clusters := [(0, { tlb := [flat], pontoonUp := true, pontoon := { tow := some { cb := 0x4000, cap := { vrec := BitVec.ofNat 512 (0 * 2 ^ 64 + 0x6000 * 2 ^ 320) }, st := 2, done := some 5 } } })] }), ⟨⟨(by decide +kernel), (by decide +kernel), (by decide +kernel), (by decide +kernel), (by decide +kernel)⟩, (by decide +kernel), (by decide +kernel)⟩⟩

theorem met_FordStepsComplete_1 :
  let hand := fun (t : State) (a : Nat) (j : FordJob) => t.modFord a fun p => { p with hand := some j }
  let q := fun (s : State) => hartQOf (13440 + s.inp.a)
  let default := fun (s : State) => runsDefault s (13440 + s.inp.a) = true
  let runs := fun (s : State) (j : FordJob) => (s.ford s.inp.a).hand = some j ∧ j.fail = none ∧ j.loaded = true
  let frame := fun (j : FordJob) (status : Nat) => frameOf status 3 j.req.rid.toNat j.frames
    (j.replays + 2 ^ 8 * (j.flags / 128) + 2 ^ 13 * b2n j.late + 2 ^ 14 * b2n j.fbk +
      (if status = 0x80 then 2 ^ 15 * b2n j.pop + 2 ^ 16 * j.failWin else 0) +
      2 ^ 32 * (if status = 0x80 ∨ status = 0x81 then j.failFrame else 0))
  let ends := fun (t : State) (a : Nat) (j : FordJob) (status : Nat) =>
    post ((t.modFord a fun p => { p with hand := none }).modSeg a fun c =>
      { c with lim := c.limNext.getD c.lim, limNext := none }) (13440 + a) j.req (frame j status)
  let takes := fun (s : State) (r : Request) (rest : List Request) (v : State) (j : FordJob) =>
    s.inp.a < 16 ∧ default s ∧ (s.ford s.inp.a).hand = none ∧ (s.engine (13440 + s.inp.a)).queue = r :: rest ∧
    takeFord (s.modEngine (13440 + s.inp.a) fun e => { e with queue := rest }) s.inp.a r = (v, j)
  let asks := fun (s : State) (j : FordJob) (k : Nat) =>
    (s.ford s.inp.a).hand = some j ∧ j.fail = none ∧
    (default s ∧ j.loaded = true ∧ j.want = none ∧ k = j.frames ∨
      (s.proc (q s)).loaded = true ∧ (s.proc (q s)).stopped = false ∧ j.want = some k) ∧
    j.fbk = false ∧ k < j.total ∧ j.start k ≤ leadTick s s.inp.a ∧ ∀ e, (s.ford s.inp.a).reform = some e → j.start k < e
  let writes := fun (s : State) (j : FordJob) (v : State) (k : FordJob) =>
    runs s j ∧ default s ∧ j.frames = j.total ∧ j.req.killed = false ∧ j.written = false ∧
    ∃ w, writeFord s s.inp.a j = .ok (w, k) ∧ v = ownStores s w (q s) 1
  ∃ r rest v j w k, MetHappens .fordRequestTake
    (fun s => takes s r rest v j ∧ j.fail = none ∧ loadFord v s.inp.a j = (w, k) ∧ ∀ c, k.fail = some c → isWait c = false)
    (fun s => hand w s.inp.a k) :=
  ⟨{ op := 0xB1, rid := 16, base := 0x10000, args := [0x2000, 0x3000, 0, 0] }, [], _, _, _, _, ({ inp := { a := 0 }, tide := 40000, full := true, slices := [(0, { tlb := [flat] })], fseg := [(0, { lim := 1, algn := true })], fords := [(0, {  })], engines := [(13440, { queue := [{ op := 0xB1, rid := 16, base := 0x10000, args := [0x2000, 0x3000, 0, 0] }] })], mem := Memory.writeList [] 0x10000 (leBytes 8 529409 ++ leBytes 8 1 ++ leBytes 8 0 ++ leBytes 8 25769863776) }), ⟨⟨(by decide +kernel), (by decide +kernel), (by decide +kernel), (by decide +kernel), (pair_eta _)⟩, (by decide +kernel), (pair_eta _), (never_some (by decide +kernel))⟩⟩

theorem met_FordStepsComplete_2 :
  let hand := fun (t : State) (a : Nat) (j : FordJob) => t.modFord a fun p => { p with hand := some j }
  let q := fun (s : State) => hartQOf (13440 + s.inp.a)
  let default := fun (s : State) => runsDefault s (13440 + s.inp.a) = true
  let runs := fun (s : State) (j : FordJob) => (s.ford s.inp.a).hand = some j ∧ j.fail = none ∧ j.loaded = true
  let frame := fun (j : FordJob) (status : Nat) => frameOf status 3 j.req.rid.toNat j.frames
    (j.replays + 2 ^ 8 * (j.flags / 128) + 2 ^ 13 * b2n j.late + 2 ^ 14 * b2n j.fbk +
      (if status = 0x80 then 2 ^ 15 * b2n j.pop + 2 ^ 16 * j.failWin else 0) +
      2 ^ 32 * (if status = 0x80 ∨ status = 0x81 then j.failFrame else 0))
  let ends := fun (t : State) (a : Nat) (j : FordJob) (status : Nat) =>
    post ((t.modFord a fun p => { p with hand := none }).modSeg a fun c =>
      { c with lim := c.limNext.getD c.lim, limNext := none }) (13440 + a) j.req (frame j status)
  let takes := fun (s : State) (r : Request) (rest : List Request) (v : State) (j : FordJob) =>
    s.inp.a < 16 ∧ default s ∧ (s.ford s.inp.a).hand = none ∧ (s.engine (13440 + s.inp.a)).queue = r :: rest ∧
    takeFord (s.modEngine (13440 + s.inp.a) fun e => { e with queue := rest }) s.inp.a r = (v, j)
  let asks := fun (s : State) (j : FordJob) (k : Nat) =>
    (s.ford s.inp.a).hand = some j ∧ j.fail = none ∧
    (default s ∧ j.loaded = true ∧ j.want = none ∧ k = j.frames ∨
      (s.proc (q s)).loaded = true ∧ (s.proc (q s)).stopped = false ∧ j.want = some k) ∧
    j.fbk = false ∧ k < j.total ∧ j.start k ≤ leadTick s s.inp.a ∧ ∀ e, (s.ford s.inp.a).reform = some e → j.start k < e
  let writes := fun (s : State) (j : FordJob) (v : State) (k : FordJob) =>
    runs s j ∧ default s ∧ j.frames = j.total ∧ j.req.killed = false ∧ j.written = false ∧
    ∃ w, writeFord s s.inp.a j = .ok (w, k) ∧ v = ownStores s w (q s) 1
  ∃ r rest v j c, MetHappens .fordRequestTake
    (fun s => takes s r rest v j ∧ j.fail = some c ∧ isWait c = false)
    (fun s => hand v s.inp.a j) :=
  ⟨{ op := 0xB1, rid := 16, base := 0x10000, args := [0x2000, 0x3000, 0, 0] }, [], _, _, _, ({ inp := { a := 0 }, tide := 40000, full := true, slices := [(0, { tlb := [flat] })], fseg := [(0, { lim := 1, algn := true })], fords := [(0, {  })], engines := [(13440, { queue := [{ op := 0xB1, rid := 16, base := 0x10000, args := [0x2000, 0x3000, 0, 0] }] })] }), ⟨⟨(by decide +kernel), (by decide +kernel), (by decide +kernel), (by decide +kernel), (pair_eta _)⟩, (some_of_isSome (by decide +kernel)), (by decide +kernel)⟩⟩

theorem met_FordStepsComplete_3 :
  let hand := fun (t : State) (a : Nat) (j : FordJob) => t.modFord a fun p => { p with hand := some j }
  let q := fun (s : State) => hartQOf (13440 + s.inp.a)
  let default := fun (s : State) => runsDefault s (13440 + s.inp.a) = true
  let runs := fun (s : State) (j : FordJob) => (s.ford s.inp.a).hand = some j ∧ j.fail = none ∧ j.loaded = true
  let frame := fun (j : FordJob) (status : Nat) => frameOf status 3 j.req.rid.toNat j.frames
    (j.replays + 2 ^ 8 * (j.flags / 128) + 2 ^ 13 * b2n j.late + 2 ^ 14 * b2n j.fbk +
      (if status = 0x80 then 2 ^ 15 * b2n j.pop + 2 ^ 16 * j.failWin else 0) +
      2 ^ 32 * (if status = 0x80 ∨ status = 0x81 then j.failFrame else 0))
  let ends := fun (t : State) (a : Nat) (j : FordJob) (status : Nat) =>
    post ((t.modFord a fun p => { p with hand := none }).modSeg a fun c =>
      { c with lim := c.limNext.getD c.lim, limNext := none }) (13440 + a) j.req (frame j status)
  let takes := fun (s : State) (r : Request) (rest : List Request) (v : State) (j : FordJob) =>
    s.inp.a < 16 ∧ default s ∧ (s.ford s.inp.a).hand = none ∧ (s.engine (13440 + s.inp.a)).queue = r :: rest ∧
    takeFord (s.modEngine (13440 + s.inp.a) fun e => { e with queue := rest }) s.inp.a r = (v, j)
  let asks := fun (s : State) (j : FordJob) (k : Nat) =>
    (s.ford s.inp.a).hand = some j ∧ j.fail = none ∧
    (default s ∧ j.loaded = true ∧ j.want = none ∧ k = j.frames ∨
      (s.proc (q s)).loaded = true ∧ (s.proc (q s)).stopped = false ∧ j.want = some k) ∧
    j.fbk = false ∧ k < j.total ∧ j.start k ≤ leadTick s s.inp.a ∧ ∀ e, (s.ford s.inp.a).reform = some e → j.start k < e
  let writes := fun (s : State) (j : FordJob) (v : State) (k : FordJob) =>
    runs s j ∧ default s ∧ j.frames = j.total ∧ j.req.killed = false ∧ j.written = false ∧
    ∃ w, writeFord s s.inp.a j = .ok (w, k) ∧ v = ownStores s w (q s) 1
  ∃ j k, MetHappens .fordFrame
    (fun s => asks s j k ∧ (s.seg s.inp.a).fen = false ∧ (if k < j.nx then j.agreed.length else j.res.length) = j.first k)
    (fun s =>
      let j0 := if k = j.nx ∧ j.block = true ∧ j.aligned = false then realign j else j
      let r := runFrame { job := j0, k := k, read := s.inp.ints.map fun x => (x % ((j.lim : Int) + 1)).toNat, mine := mineOf s s.inp.a j0 k }
      s.modFord s.inp.a fun p => { p with
        hand := some { r with want := none }, lastEnd := j0.start k / 3 * 80 + (9 * j0.windows k + 8)
        replays := satAdd (2 ^ 32 - 1) p.replays (r.used.foldl (· + ·) 0)
        failed := if r.fail.isSome then satAdd 65535 p.failed 1 else p.failed }) :=
  ⟨{ req := { op := 0xB1, rid := 16, base := 0x10000, args := [0x2000, 0x3000, 0, 0] }, ent := [529409, 1, 0, 25769833776, 0, 0, 0, 0], lim := 1, loaded := true }, 0, ({ inp := { a := 0, ints := [3, 4] }, tide := 40000, full := true, slices := [(0, { tlb := [flat] })], fseg := [(0, { lim := 1, algn := true })], fords := [(0, { hand := some { req := { op := 0xB1, rid := 16, base := 0x10000, args := [0x2000, 0x3000, 0, 0] }, ent := [529409, 1, 0, 25769833776, 0, 0, 0, 0], lim := 1, loaded := true } })], engines := [(13440, {  })] }), ⟨⟨(by decide +kernel), (by decide +kernel), .inl ⟨(by decide +kernel), (by decide +kernel), (by decide +kernel), (by decide +kernel)⟩, (by decide +kernel), (by decide +kernel), (by decide +kernel), (never_some (by decide +kernel))⟩, (by decide +kernel), (by decide +kernel)⟩⟩

theorem met_FordStepsComplete_4 :
  let hand := fun (t : State) (a : Nat) (j : FordJob) => t.modFord a fun p => { p with hand := some j }
  let q := fun (s : State) => hartQOf (13440 + s.inp.a)
  let default := fun (s : State) => runsDefault s (13440 + s.inp.a) = true
  let runs := fun (s : State) (j : FordJob) => (s.ford s.inp.a).hand = some j ∧ j.fail = none ∧ j.loaded = true
  let frame := fun (j : FordJob) (status : Nat) => frameOf status 3 j.req.rid.toNat j.frames
    (j.replays + 2 ^ 8 * (j.flags / 128) + 2 ^ 13 * b2n j.late + 2 ^ 14 * b2n j.fbk +
      (if status = 0x80 then 2 ^ 15 * b2n j.pop + 2 ^ 16 * j.failWin else 0) +
      2 ^ 32 * (if status = 0x80 ∨ status = 0x81 then j.failFrame else 0))
  let ends := fun (t : State) (a : Nat) (j : FordJob) (status : Nat) =>
    post ((t.modFord a fun p => { p with hand := none }).modSeg a fun c =>
      { c with lim := c.limNext.getD c.lim, limNext := none }) (13440 + a) j.req (frame j status)
  let takes := fun (s : State) (r : Request) (rest : List Request) (v : State) (j : FordJob) =>
    s.inp.a < 16 ∧ default s ∧ (s.ford s.inp.a).hand = none ∧ (s.engine (13440 + s.inp.a)).queue = r :: rest ∧
    takeFord (s.modEngine (13440 + s.inp.a) fun e => { e with queue := rest }) s.inp.a r = (v, j)
  let asks := fun (s : State) (j : FordJob) (k : Nat) =>
    (s.ford s.inp.a).hand = some j ∧ j.fail = none ∧
    (default s ∧ j.loaded = true ∧ j.want = none ∧ k = j.frames ∨
      (s.proc (q s)).loaded = true ∧ (s.proc (q s)).stopped = false ∧ j.want = some k) ∧
    j.fbk = false ∧ k < j.total ∧ j.start k ≤ leadTick s s.inp.a ∧ ∀ e, (s.ford s.inp.a).reform = some e → j.start k < e
  let writes := fun (s : State) (j : FordJob) (v : State) (k : FordJob) =>
    runs s j ∧ default s ∧ j.frames = j.total ∧ j.req.killed = false ∧ j.written = false ∧
    ∃ w, writeFord s s.inp.a j = .ok (w, k) ∧ v = ownStores s w (q s) 1
  ∃ j k, MetHappens .fordFrame
    (fun s => asks s j k ∧ (s.seg s.inp.a).fen = true)
    (fun s => hand s s.inp.a { j with fail := some 0x70, want := none }) :=
  ⟨{ req := { op := 0xB1, rid := 16, base := 0x10000, args := [0x2000, 0x3000, 0, 0] }, ent := [529409, 1, 0, 25769833776, 0, 0, 0, 0], lim := 1, loaded := true }, 0, ({ inp := { a := 0, ints := [3, 4] }, tide := 40000, full := true, slices := [(0, { tlb := [flat] })], fseg := [(0, { lim := 1, algn := true, fen := true })], fords := [(0, { hand := some { req := { op := 0xB1, rid := 16, base := 0x10000, args := [0x2000, 0x3000, 0, 0] }, ent := [529409, 1, 0, 25769833776, 0, 0, 0, 0], lim := 1, loaded := true } })], engines := [(13440, {  })] }), ⟨⟨(by decide +kernel), (by decide +kernel), .inl ⟨(by decide +kernel), (by decide +kernel), (by decide +kernel), (by decide +kernel)⟩, (by decide +kernel), (by decide +kernel), (by decide +kernel), (never_some (by decide +kernel))⟩, (by decide +kernel)⟩⟩

theorem met_FordStepsComplete_5 :
  let hand := fun (t : State) (a : Nat) (j : FordJob) => t.modFord a fun p => { p with hand := some j }
  let q := fun (s : State) => hartQOf (13440 + s.inp.a)
  let default := fun (s : State) => runsDefault s (13440 + s.inp.a) = true
  let runs := fun (s : State) (j : FordJob) => (s.ford s.inp.a).hand = some j ∧ j.fail = none ∧ j.loaded = true
  let frame := fun (j : FordJob) (status : Nat) => frameOf status 3 j.req.rid.toNat j.frames
    (j.replays + 2 ^ 8 * (j.flags / 128) + 2 ^ 13 * b2n j.late + 2 ^ 14 * b2n j.fbk +
      (if status = 0x80 then 2 ^ 15 * b2n j.pop + 2 ^ 16 * j.failWin else 0) +
      2 ^ 32 * (if status = 0x80 ∨ status = 0x81 then j.failFrame else 0))
  let ends := fun (t : State) (a : Nat) (j : FordJob) (status : Nat) =>
    post ((t.modFord a fun p => { p with hand := none }).modSeg a fun c =>
      { c with lim := c.limNext.getD c.lim, limNext := none }) (13440 + a) j.req (frame j status)
  let takes := fun (s : State) (r : Request) (rest : List Request) (v : State) (j : FordJob) =>
    s.inp.a < 16 ∧ default s ∧ (s.ford s.inp.a).hand = none ∧ (s.engine (13440 + s.inp.a)).queue = r :: rest ∧
    takeFord (s.modEngine (13440 + s.inp.a) fun e => { e with queue := rest }) s.inp.a r = (v, j)
  let asks := fun (s : State) (j : FordJob) (k : Nat) =>
    (s.ford s.inp.a).hand = some j ∧ j.fail = none ∧
    (default s ∧ j.loaded = true ∧ j.want = none ∧ k = j.frames ∨
      (s.proc (q s)).loaded = true ∧ (s.proc (q s)).stopped = false ∧ j.want = some k) ∧
    j.fbk = false ∧ k < j.total ∧ j.start k ≤ leadTick s s.inp.a ∧ ∀ e, (s.ford s.inp.a).reform = some e → j.start k < e
  let writes := fun (s : State) (j : FordJob) (v : State) (k : FordJob) =>
    runs s j ∧ default s ∧ j.frames = j.total ∧ j.req.killed = false ∧ j.written = false ∧
    ∃ w, writeFord s s.inp.a j = .ok (w, k) ∧ v = ownStores s w (q s) 1
  ∃ j v k, MetHappens .fordComplete
    (fun s => writes s j v k ∧ storesDone v (q s) 1 = true ∧ storesLost v (q s) 1 = false)
    (fun s => ends (dropStores v (q s) 1) s.inp.a k 0) :=
  ⟨{ req := { op := 0xB1, rid := 16, base := 0x10000, args := [0x2000, 0x3000, 0, 0] }, ent := [529409, 1, 0, 25769833776, 0, 0, 0, 0], lim := 1, loaded := true, frames := 1, res := [3] }, _, _, ({ inp := { a := 0 }, tide := 40000, full := true, slices := [(0, { tlb := [flat] })], fseg := [(0, { lim := 1, algn := true })], fords := [(0, { hand := some { req := { op := 0xB1, rid := 16, base := 0x10000, args := [0x2000, 0x3000, 0, 0] }, ent := [529409, 1, 0, 25769833776, 0, 0, 0, 0], lim := 1, loaded := true, frames := 1, res := [3] } })], engines := [(13440, {  })] }), ⟨⟨⟨(by decide +kernel), (by decide +kernel), (by decide +kernel)⟩, (by decide +kernel), (by decide +kernel), (by decide +kernel), (by decide +kernel), ⟨_, (fine_pair (by decide +kernel)), rfl⟩⟩, (by decide +kernel), (by decide +kernel)⟩⟩

theorem met_FordStepsComplete_6 :
  let hand := fun (t : State) (a : Nat) (j : FordJob) => t.modFord a fun p => { p with hand := some j }
  let q := fun (s : State) => hartQOf (13440 + s.inp.a)
  let default := fun (s : State) => runsDefault s (13440 + s.inp.a) = true
  let runs := fun (s : State) (j : FordJob) => (s.ford s.inp.a).hand = some j ∧ j.fail = none ∧ j.loaded = true
  let frame := fun (j : FordJob) (status : Nat) => frameOf status 3 j.req.rid.toNat j.frames
    (j.replays + 2 ^ 8 * (j.flags / 128) + 2 ^ 13 * b2n j.late + 2 ^ 14 * b2n j.fbk +
      (if status = 0x80 then 2 ^ 15 * b2n j.pop + 2 ^ 16 * j.failWin else 0) +
      2 ^ 32 * (if status = 0x80 ∨ status = 0x81 then j.failFrame else 0))
  let ends := fun (t : State) (a : Nat) (j : FordJob) (status : Nat) =>
    post ((t.modFord a fun p => { p with hand := none }).modSeg a fun c =>
      { c with lim := c.limNext.getD c.lim, limNext := none }) (13440 + a) j.req (frame j status)
  let takes := fun (s : State) (r : Request) (rest : List Request) (v : State) (j : FordJob) =>
    s.inp.a < 16 ∧ default s ∧ (s.ford s.inp.a).hand = none ∧ (s.engine (13440 + s.inp.a)).queue = r :: rest ∧
    takeFord (s.modEngine (13440 + s.inp.a) fun e => { e with queue := rest }) s.inp.a r = (v, j)
  let asks := fun (s : State) (j : FordJob) (k : Nat) =>
    (s.ford s.inp.a).hand = some j ∧ j.fail = none ∧
    (default s ∧ j.loaded = true ∧ j.want = none ∧ k = j.frames ∨
      (s.proc (q s)).loaded = true ∧ (s.proc (q s)).stopped = false ∧ j.want = some k) ∧
    j.fbk = false ∧ k < j.total ∧ j.start k ≤ leadTick s s.inp.a ∧ ∀ e, (s.ford s.inp.a).reform = some e → j.start k < e
  let writes := fun (s : State) (j : FordJob) (v : State) (k : FordJob) =>
    runs s j ∧ default s ∧ j.frames = j.total ∧ j.req.killed = false ∧ j.written = false ∧
    ∃ w, writeFord s s.inp.a j = .ok (w, k) ∧ v = ownStores s w (q s) 1
  ∃ j v k, MetHappens .fordComplete
    (fun s => writes s j v k ∧ storesDone v (q s) 1 = false)
    (fun s => hand v s.inp.a { k with written := true }) :=
  ⟨{ req := { op := 0xB1, rid := 16, base := 0x10000, args := [0x2000, 0x3000, 0, 0] }, ent := [529409, 1, 0, 25769833776, 0, 0, 0, 0], lim := 1, loaded := true, frames := 1, res := [3] }, _, _, ({ inp := { a := 0 }, tide := 40000, full := true, slices := [(0, { tlb := [flat] })], fseg := [(0, { lim := 1, algn := true })], fords := [(0, { hand := some { req := { op := 0xB1, rid := 16, base := 0x10000, args := [0x2000, 0x3000, 0, 0] }, ent := [529409, 1, 0, 25769833776, 0, 0, 0, 0], lim := 1, loaded := true, frames := 1, res := [3] } })], engines := [(13440, {  })], procs := [(hartQOf 13440, { remoteOut := [⟨0x2000, 39990, false, 1, 0⟩] })] }), ⟨⟨⟨(by decide +kernel), (by decide +kernel), (by decide +kernel)⟩, (by decide +kernel), (by decide +kernel), (by decide +kernel), (by decide +kernel), ⟨_, (fine_pair (by decide +kernel)), rfl⟩⟩, (by decide +kernel)⟩⟩

theorem met_FordStepsComplete_7 :
  let hand := fun (t : State) (a : Nat) (j : FordJob) => t.modFord a fun p => { p with hand := some j }
  let q := fun (s : State) => hartQOf (13440 + s.inp.a)
  let default := fun (s : State) => runsDefault s (13440 + s.inp.a) = true
  let runs := fun (s : State) (j : FordJob) => (s.ford s.inp.a).hand = some j ∧ j.fail = none ∧ j.loaded = true
  let frame := fun (j : FordJob) (status : Nat) => frameOf status 3 j.req.rid.toNat j.frames
    (j.replays + 2 ^ 8 * (j.flags / 128) + 2 ^ 13 * b2n j.late + 2 ^ 14 * b2n j.fbk +
      (if status = 0x80 then 2 ^ 15 * b2n j.pop + 2 ^ 16 * j.failWin else 0) +
      2 ^ 32 * (if status = 0x80 ∨ status = 0x81 then j.failFrame else 0))
  let ends := fun (t : State) (a : Nat) (j : FordJob) (status : Nat) =>
    post ((t.modFord a fun p => { p with hand := none }).modSeg a fun c =>
      { c with lim := c.limNext.getD c.lim, limNext := none }) (13440 + a) j.req (frame j status)
  let takes := fun (s : State) (r : Request) (rest : List Request) (v : State) (j : FordJob) =>
    s.inp.a < 16 ∧ default s ∧ (s.ford s.inp.a).hand = none ∧ (s.engine (13440 + s.inp.a)).queue = r :: rest ∧
    takeFord (s.modEngine (13440 + s.inp.a) fun e => { e with queue := rest }) s.inp.a r = (v, j)
  let asks := fun (s : State) (j : FordJob) (k : Nat) =>
    (s.ford s.inp.a).hand = some j ∧ j.fail = none ∧
    (default s ∧ j.loaded = true ∧ j.want = none ∧ k = j.frames ∨
      (s.proc (q s)).loaded = true ∧ (s.proc (q s)).stopped = false ∧ j.want = some k) ∧
    j.fbk = false ∧ k < j.total ∧ j.start k ≤ leadTick s s.inp.a ∧ ∀ e, (s.ford s.inp.a).reform = some e → j.start k < e
  let writes := fun (s : State) (j : FordJob) (v : State) (k : FordJob) =>
    runs s j ∧ default s ∧ j.frames = j.total ∧ j.req.killed = false ∧ j.written = false ∧
    ∃ w, writeFord s s.inp.a j = .ok (w, k) ∧ v = ownStores s w (q s) 1
  ∃ j, MetHappens .fordComplete
    (fun s => runs s j ∧ default s ∧ j.frames = j.total ∧ j.req.killed = false ∧ j.written = true ∧
      storesDone s (q s) 1 = true ∧ storesLost s (q s) 1 = false)
    (fun s => ends (dropStores s (q s) 1) s.inp.a j 0) :=
  ⟨{ req := { op := 0xB1, rid := 16, base := 0x10000, args := [0x2000, 0x3000, 0, 0] }, ent := [529409, 1, 0, 25769833776, 0, 0, 0, 0], lim := 1, loaded := true, frames := 1, res := [3], written := true }, ({ inp := { a := 0 }, tide := 40000, full := true, slices := [(0, { tlb := [flat] })], fseg := [(0, { lim := 1, algn := true })], fords := [(0, { hand := some { req := { op := 0xB1, rid := 16, base := 0x10000, args := [0x2000, 0x3000, 0, 0] }, ent := [529409, 1, 0, 25769833776, 0, 0, 0, 0], lim := 1, loaded := true, frames := 1, res := [3], written := true } })], engines := [(13440, {  })] }), ⟨⟨(by decide +kernel), (by decide +kernel), (by decide +kernel)⟩, (by decide +kernel), (by decide +kernel), (by decide +kernel), (by decide +kernel), (by decide +kernel), (by decide +kernel)⟩⟩

theorem met_FordStepsComplete_8 :
  let hand := fun (t : State) (a : Nat) (j : FordJob) => t.modFord a fun p => { p with hand := some j }
  let q := fun (s : State) => hartQOf (13440 + s.inp.a)
  let default := fun (s : State) => runsDefault s (13440 + s.inp.a) = true
  let runs := fun (s : State) (j : FordJob) => (s.ford s.inp.a).hand = some j ∧ j.fail = none ∧ j.loaded = true
  let frame := fun (j : FordJob) (status : Nat) => frameOf status 3 j.req.rid.toNat j.frames
    (j.replays + 2 ^ 8 * (j.flags / 128) + 2 ^ 13 * b2n j.late + 2 ^ 14 * b2n j.fbk +
      (if status = 0x80 then 2 ^ 15 * b2n j.pop + 2 ^ 16 * j.failWin else 0) +
      2 ^ 32 * (if status = 0x80 ∨ status = 0x81 then j.failFrame else 0))
  let ends := fun (t : State) (a : Nat) (j : FordJob) (status : Nat) =>
    post ((t.modFord a fun p => { p with hand := none }).modSeg a fun c =>
      { c with lim := c.limNext.getD c.lim, limNext := none }) (13440 + a) j.req (frame j status)
  let takes := fun (s : State) (r : Request) (rest : List Request) (v : State) (j : FordJob) =>
    s.inp.a < 16 ∧ default s ∧ (s.ford s.inp.a).hand = none ∧ (s.engine (13440 + s.inp.a)).queue = r :: rest ∧
    takeFord (s.modEngine (13440 + s.inp.a) fun e => { e with queue := rest }) s.inp.a r = (v, j)
  let asks := fun (s : State) (j : FordJob) (k : Nat) =>
    (s.ford s.inp.a).hand = some j ∧ j.fail = none ∧
    (default s ∧ j.loaded = true ∧ j.want = none ∧ k = j.frames ∨
      (s.proc (q s)).loaded = true ∧ (s.proc (q s)).stopped = false ∧ j.want = some k) ∧
    j.fbk = false ∧ k < j.total ∧ j.start k ≤ leadTick s s.inp.a ∧ ∀ e, (s.ford s.inp.a).reform = some e → j.start k < e
  let writes := fun (s : State) (j : FordJob) (v : State) (k : FordJob) =>
    runs s j ∧ default s ∧ j.frames = j.total ∧ j.req.killed = false ∧ j.written = false ∧
    ∃ w, writeFord s s.inp.a j = .ok (w, k) ∧ v = ownStores s w (q s) 1
  ∃ j c, MetHappens .fordComplete
    (fun s => (s.ford s.inp.a).hand = some j ∧ default s ∧ j.fail = some c ∧ c ≠ 0)
    (fun s => ends (if j.req.killed then s else leaveFord s s.inp.a j) s.inp.a j c) :=
  ⟨{ req := { op := 0xB1, rid := 16, base := 0x10000, args := [0x2000, 0x3000, 0, 0] }, ent := [529409, 1, 0, 25769833776, 0, 0, 0, 0], lim := 1, loaded := true, fail := some 5 }, 5, ({ inp := { a := 0 }, tide := 40000, full := true, slices := [(0, { tlb := [flat] })], fseg := [(0, { lim := 1, algn := true })], fords := [(0, { hand := some { req := { op := 0xB1, rid := 16, base := 0x10000, args := [0x2000, 0x3000, 0, 0] }, ent := [529409, 1, 0, 25769833776, 0, 0, 0, 0], lim := 1, loaded := true, fail := some 5 } })], engines := [(13440, {  })] }), ⟨(by decide +kernel), (by decide +kernel), (by decide +kernel), (by decide +kernel)⟩⟩

theorem met_FordStepsComplete_9 :
  let hand := fun (t : State) (a : Nat) (j : FordJob) => t.modFord a fun p => { p with hand := some j }
  let q := fun (s : State) => hartQOf (13440 + s.inp.a)
  let default := fun (s : State) => runsDefault s (13440 + s.inp.a) = true
  let runs := fun (s : State) (j : FordJob) => (s.ford s.inp.a).hand = some j ∧ j.fail = none ∧ j.loaded = true
  let frame := fun (j : FordJob) (status : Nat) => frameOf status 3 j.req.rid.toNat j.frames
    (j.replays + 2 ^ 8 * (j.flags / 128) + 2 ^ 13 * b2n j.late + 2 ^ 14 * b2n j.fbk +
      (if status = 0x80 then 2 ^ 15 * b2n j.pop + 2 ^ 16 * j.failWin else 0) +
      2 ^ 32 * (if status = 0x80 ∨ status = 0x81 then j.failFrame else 0))
  let ends := fun (t : State) (a : Nat) (j : FordJob) (status : Nat) =>
    post ((t.modFord a fun p => { p with hand := none }).modSeg a fun c =>
      { c with lim := c.limNext.getD c.lim, limNext := none }) (13440 + a) j.req (frame j status)
  let takes := fun (s : State) (r : Request) (rest : List Request) (v : State) (j : FordJob) =>
    s.inp.a < 16 ∧ default s ∧ (s.ford s.inp.a).hand = none ∧ (s.engine (13440 + s.inp.a)).queue = r :: rest ∧
    takeFord (s.modEngine (13440 + s.inp.a) fun e => { e with queue := rest }) s.inp.a r = (v, j)
  let asks := fun (s : State) (j : FordJob) (k : Nat) =>
    (s.ford s.inp.a).hand = some j ∧ j.fail = none ∧
    (default s ∧ j.loaded = true ∧ j.want = none ∧ k = j.frames ∨
      (s.proc (q s)).loaded = true ∧ (s.proc (q s)).stopped = false ∧ j.want = some k) ∧
    j.fbk = false ∧ k < j.total ∧ j.start k ≤ leadTick s s.inp.a ∧ ∀ e, (s.ford s.inp.a).reform = some e → j.start k < e
  let writes := fun (s : State) (j : FordJob) (v : State) (k : FordJob) =>
    runs s j ∧ default s ∧ j.frames = j.total ∧ j.req.killed = false ∧ j.written = false ∧
    ∃ w, writeFord s s.inp.a j = .ok (w, k) ∧ v = ownStores s w (q s) 1
  ∃ w sel v, MetHappens .fordTowHandover
    (fun s => (s.pontoon s.inp.a).tow = some w ∧ w.hdr ≠ [] ∧ w.ph = 2 ∧ towMoves s s.inp.a w = true ∧
      drainRoute w w.hdr = (4, sel, v) ∧ queueFull s (13440 + sel) = false)
    (fun s => (acceptKick s (13440 + sel) (towCollective s w sel w.sub v)).modPontoon s.inp.a fun po => { po with
      tow := some (rowGone { w with a := w.a.filter fun e => !decide (e.1 % 64 = w.sub) }) }) :=
  ⟨{ cap := { vrec := BitVec.ofNat 512 (2 ^ 64) }, ph := 2, hdr := [4 + 4 * 2 ^ 48, 2, 0, 2, 0, 0, 0, 0] }, 0, 2, ({ inp := { a := 0 }, tide := 40000, full := true, slices := [(0, { tlb := [flat] })], fseg := [(0, { lim := 1, algn := true })], fords := [(0, {  })], engines := [(13440, {  })], clusters := [(0, { pontoon := { tow := some { cap := { vrec := BitVec.ofNat 512 (2 ^ 64) }, ph := 2, hdr := [4 + 4 * 2 ^ 48, 2, 0, 2, 0, 0, 0, 0] } } })] }), ⟨(by decide +kernel), (by decide +kernel), (by decide +kernel), (by decide +kernel), (by decide +kernel), (by decide +kernel)⟩⟩

theorem met_FordStepsComplete_10 :
  let hand := fun (t : State) (a : Nat) (j : FordJob) => t.modFord a fun p => { p with hand := some j }
  let q := fun (s : State) => hartQOf (13440 + s.inp.a)
  let default := fun (s : State) => runsDefault s (13440 + s.inp.a) = true
  let runs := fun (s : State) (j : FordJob) => (s.ford s.inp.a).hand = some j ∧ j.fail = none ∧ j.loaded = true
  let frame := fun (j : FordJob) (status : Nat) => frameOf status 3 j.req.rid.toNat j.frames
    (j.replays + 2 ^ 8 * (j.flags / 128) + 2 ^ 13 * b2n j.late + 2 ^ 14 * b2n j.fbk +
      (if status = 0x80 then 2 ^ 15 * b2n j.pop + 2 ^ 16 * j.failWin else 0) +
      2 ^ 32 * (if status = 0x80 ∨ status = 0x81 then j.failFrame else 0))
  let ends := fun (t : State) (a : Nat) (j : FordJob) (status : Nat) =>
    post ((t.modFord a fun p => { p with hand := none }).modSeg a fun c =>
      { c with lim := c.limNext.getD c.lim, limNext := none }) (13440 + a) j.req (frame j status)
  let takes := fun (s : State) (r : Request) (rest : List Request) (v : State) (j : FordJob) =>
    s.inp.a < 16 ∧ default s ∧ (s.ford s.inp.a).hand = none ∧ (s.engine (13440 + s.inp.a)).queue = r :: rest ∧
    takeFord (s.modEngine (13440 + s.inp.a) fun e => { e with queue := rest }) s.inp.a r = (v, j)
  let asks := fun (s : State) (j : FordJob) (k : Nat) =>
    (s.ford s.inp.a).hand = some j ∧ j.fail = none ∧
    (default s ∧ j.loaded = true ∧ j.want = none ∧ k = j.frames ∨
      (s.proc (q s)).loaded = true ∧ (s.proc (q s)).stopped = false ∧ j.want = some k) ∧
    j.fbk = false ∧ k < j.total ∧ j.start k ≤ leadTick s s.inp.a ∧ ∀ e, (s.ford s.inp.a).reform = some e → j.start k < e
  let writes := fun (s : State) (j : FordJob) (v : State) (k : FordJob) =>
    runs s j ∧ default s ∧ j.frames = j.total ∧ j.req.killed = false ∧ j.written = false ∧
    ∃ w, writeFord s s.inp.a j = .ok (w, k) ∧ v = ownStores s w (q s) 1
  MetHappens .fordCensus (fun s => s.inp.a < 16 ∧ leadTick s s.inp.a % 3072 = 0)
    (fun s =>
      let own := wNat (2 ^ (s.seg s.inp.a).pos)
      let lit := (s.ford s.inp.a).enr.isSome && !(s.seg s.inp.a).fen && !busOff s s.inp.a
      s.modFord s.inp.a fun p => { p with
        census := (if lit then s.inp.w ||| own else s.inp.w &&& ~~~own) ^^^ BitVec.ofInt 64 (s.inp.ints.headD 0), censusOk := true }) :=
  ⟨({ inp := { a := 0, w := 5 }, tide := 39936, full := true, slices := [(0, { tlb := [flat] })], fseg := [(0, { lim := 1, algn := true })], fords := [(0, {  })], engines := [(13440, {  })] }), ⟨(by decide +kernel), (by decide +kernel)⟩⟩

theorem met_FordStepsComplete_11 :
  let hand := fun (t : State) (a : Nat) (j : FordJob) => t.modFord a fun p => { p with hand := some j }
  let q := fun (s : State) => hartQOf (13440 + s.inp.a)
  let default := fun (s : State) => runsDefault s (13440 + s.inp.a) = true
  let runs := fun (s : State) (j : FordJob) => (s.ford s.inp.a).hand = some j ∧ j.fail = none ∧ j.loaded = true
  let frame := fun (j : FordJob) (status : Nat) => frameOf status 3 j.req.rid.toNat j.frames
    (j.replays + 2 ^ 8 * (j.flags / 128) + 2 ^ 13 * b2n j.late + 2 ^ 14 * b2n j.fbk +
      (if status = 0x80 then 2 ^ 15 * b2n j.pop + 2 ^ 16 * j.failWin else 0) +
      2 ^ 32 * (if status = 0x80 ∨ status = 0x81 then j.failFrame else 0))
  let ends := fun (t : State) (a : Nat) (j : FordJob) (status : Nat) =>
    post ((t.modFord a fun p => { p with hand := none }).modSeg a fun c =>
      { c with lim := c.limNext.getD c.lim, limNext := none }) (13440 + a) j.req (frame j status)
  let takes := fun (s : State) (r : Request) (rest : List Request) (v : State) (j : FordJob) =>
    s.inp.a < 16 ∧ default s ∧ (s.ford s.inp.a).hand = none ∧ (s.engine (13440 + s.inp.a)).queue = r :: rest ∧
    takeFord (s.modEngine (13440 + s.inp.a) fun e => { e with queue := rest }) s.inp.a r = (v, j)
  let asks := fun (s : State) (j : FordJob) (k : Nat) =>
    (s.ford s.inp.a).hand = some j ∧ j.fail = none ∧
    (default s ∧ j.loaded = true ∧ j.want = none ∧ k = j.frames ∨
      (s.proc (q s)).loaded = true ∧ (s.proc (q s)).stopped = false ∧ j.want = some k) ∧
    j.fbk = false ∧ k < j.total ∧ j.start k ≤ leadTick s s.inp.a ∧ ∀ e, (s.ford s.inp.a).reform = some e → j.start k < e
  let writes := fun (s : State) (j : FordJob) (v : State) (k : FordJob) =>
    runs s j ∧ default s ∧ j.frames = j.total ∧ j.req.killed = false ∧ j.written = false ∧
    ∃ w, writeFord s s.inp.a j = .ok (w, k) ∧ v = ownStores s w (q s) 1
  MetHappens .fordReformNotice (fun s => s.inp.a < 16) (fun s => s.modFord s.inp.a fun p => { p with reform := some s.inp.b }) :=
  ⟨({ inp := { a := 0, b := 50000 }, tide := 40000, full := true, slices := [(0, { tlb := [flat] })], fseg := [(0, { lim := 1, algn := true })], fords := [(0, {  })], engines := [(13440, {  })] }), (by decide +kernel)⟩

theorem met_FordStepsComplete_12 :
  let hand := fun (t : State) (a : Nat) (j : FordJob) => t.modFord a fun p => { p with hand := some j }
  let q := fun (s : State) => hartQOf (13440 + s.inp.a)
  let default := fun (s : State) => runsDefault s (13440 + s.inp.a) = true
  let runs := fun (s : State) (j : FordJob) => (s.ford s.inp.a).hand = some j ∧ j.fail = none ∧ j.loaded = true
  let frame := fun (j : FordJob) (status : Nat) => frameOf status 3 j.req.rid.toNat j.frames
    (j.replays + 2 ^ 8 * (j.flags / 128) + 2 ^ 13 * b2n j.late + 2 ^ 14 * b2n j.fbk +
      (if status = 0x80 then 2 ^ 15 * b2n j.pop + 2 ^ 16 * j.failWin else 0) +
      2 ^ 32 * (if status = 0x80 ∨ status = 0x81 then j.failFrame else 0))
  let ends := fun (t : State) (a : Nat) (j : FordJob) (status : Nat) =>
    post ((t.modFord a fun p => { p with hand := none }).modSeg a fun c =>
      { c with lim := c.limNext.getD c.lim, limNext := none }) (13440 + a) j.req (frame j status)
  let takes := fun (s : State) (r : Request) (rest : List Request) (v : State) (j : FordJob) =>
    s.inp.a < 16 ∧ default s ∧ (s.ford s.inp.a).hand = none ∧ (s.engine (13440 + s.inp.a)).queue = r :: rest ∧
    takeFord (s.modEngine (13440 + s.inp.a) fun e => { e with queue := rest }) s.inp.a r = (v, j)
  let asks := fun (s : State) (j : FordJob) (k : Nat) =>
    (s.ford s.inp.a).hand = some j ∧ j.fail = none ∧
    (default s ∧ j.loaded = true ∧ j.want = none ∧ k = j.frames ∨
      (s.proc (q s)).loaded = true ∧ (s.proc (q s)).stopped = false ∧ j.want = some k) ∧
    j.fbk = false ∧ k < j.total ∧ j.start k ≤ leadTick s s.inp.a ∧ ∀ e, (s.ford s.inp.a).reform = some e → j.start k < e
  let writes := fun (s : State) (j : FordJob) (v : State) (k : FordJob) =>
    runs s j ∧ default s ∧ j.frames = j.total ∧ j.req.killed = false ∧ j.written = false ∧
    ∃ w, writeFord s s.inp.a j = .ok (w, k) ∧ v = ownStores s w (q s) 1
  ∃ e, MetHappensTo .fordReformApply
    (fun s => (s.ford s.inp.a).reform = some e ∧ e ≤ leadTick s s.inp.a ∧ (s.ford s.inp.a).hand = none ∧
      (s.engine (13440 + s.inp.a)).queue = [])
    (fun s t => (t.seg s.inp.a).algn = false ∧ (t.ford s.inp.a).censusOk = false ∧ (t.ford s.inp.a).reform = none) :=
  ⟨5, ({ inp := { a := 0 }, tide := 40000, full := true, slices := [(0, { tlb := [flat] })], fseg := [(0, { lim := 1, algn := true })], fords := [(0, { reform := some 5 })], engines := [(13440, {  })] }), ⟨(by decide +kernel), (by decide +kernel), (by decide +kernel), (by decide +kernel)⟩⟩

theorem met_FordStepsComplete_13 :
  let hand := fun (t : State) (a : Nat) (j : FordJob) => t.modFord a fun p => { p with hand := some j }
  let q := fun (s : State) => hartQOf (13440 + s.inp.a)
  let default := fun (s : State) => runsDefault s (13440 + s.inp.a) = true
  let runs := fun (s : State) (j : FordJob) => (s.ford s.inp.a).hand = some j ∧ j.fail = none ∧ j.loaded = true
  let frame := fun (j : FordJob) (status : Nat) => frameOf status 3 j.req.rid.toNat j.frames
    (j.replays + 2 ^ 8 * (j.flags / 128) + 2 ^ 13 * b2n j.late + 2 ^ 14 * b2n j.fbk +
      (if status = 0x80 then 2 ^ 15 * b2n j.pop + 2 ^ 16 * j.failWin else 0) +
      2 ^ 32 * (if status = 0x80 ∨ status = 0x81 then j.failFrame else 0))
  let ends := fun (t : State) (a : Nat) (j : FordJob) (status : Nat) =>
    post ((t.modFord a fun p => { p with hand := none }).modSeg a fun c =>
      { c with lim := c.limNext.getD c.lim, limNext := none }) (13440 + a) j.req (frame j status)
  let takes := fun (s : State) (r : Request) (rest : List Request) (v : State) (j : FordJob) =>
    s.inp.a < 16 ∧ default s ∧ (s.ford s.inp.a).hand = none ∧ (s.engine (13440 + s.inp.a)).queue = r :: rest ∧
    takeFord (s.modEngine (13440 + s.inp.a) fun e => { e with queue := rest }) s.inp.a r = (v, j)
  let asks := fun (s : State) (j : FordJob) (k : Nat) =>
    (s.ford s.inp.a).hand = some j ∧ j.fail = none ∧
    (default s ∧ j.loaded = true ∧ j.want = none ∧ k = j.frames ∨
      (s.proc (q s)).loaded = true ∧ (s.proc (q s)).stopped = false ∧ j.want = some k) ∧
    j.fbk = false ∧ k < j.total ∧ j.start k ≤ leadTick s s.inp.a ∧ ∀ e, (s.ford s.inp.a).reform = some e → j.start k < e
  let writes := fun (s : State) (j : FordJob) (v : State) (k : FordJob) =>
    runs s j ∧ default s ∧ j.frames = j.total ∧ j.req.killed = false ∧ j.written = false ∧
    ∃ w, writeFord s s.inp.a j = .ok (w, k) ∧ v = ownStores s w (q s) 1
  ∃ e j, MetHappensTo .fordReformApply
    (fun s => (s.ford s.inp.a).reform = some e ∧ e ≤ leadTick s s.inp.a ∧ (s.ford s.inp.a).hand = some j ∧ j.req.killed = false ∧
      (s.ford s.inp.a).lastEnd ≤ leadTick s s.inp.a / 3 * 80 ∧ (s.engine (13440 + s.inp.a)).queue = [])
    (fun s t => (t.seg s.inp.a).algn = false ∧ (t.ford s.inp.a).hand = some { j with
      fail := some 0x81, failFrame := j.frames, want := none }) :=
  ⟨5, { req := { op := 0xB1, rid := 16, base := 0x10000, args := [0x2000, 0x3000, 0, 0] }, ent := [529409, 1, 0, 25769833776, 0, 0, 0, 0], lim := 1, loaded := true }, ({ inp := { a := 0 }, tide := 40000, full := true, slices := [(0, { tlb := [flat] })], fseg := [(0, { lim := 1, algn := true })], fords := [(0, { reform := some 5, hand := some { req := { op := 0xB1, rid := 16, base := 0x10000, args := [0x2000, 0x3000, 0, 0] }, ent := [529409, 1, 0, 25769833776, 0, 0, 0, 0], lim := 1, loaded := true } })], engines := [(13440, {  })] }), ⟨(by decide +kernel), (by decide +kernel), (by decide +kernel), (by decide +kernel), (by decide +kernel), (by decide +kernel)⟩⟩

theorem met_FordStepsComplete_14 :
  let hand := fun (t : State) (a : Nat) (j : FordJob) => t.modFord a fun p => { p with hand := some j }
  let q := fun (s : State) => hartQOf (13440 + s.inp.a)
  let default := fun (s : State) => runsDefault s (13440 + s.inp.a) = true
  let runs := fun (s : State) (j : FordJob) => (s.ford s.inp.a).hand = some j ∧ j.fail = none ∧ j.loaded = true
  let frame := fun (j : FordJob) (status : Nat) => frameOf status 3 j.req.rid.toNat j.frames
    (j.replays + 2 ^ 8 * (j.flags / 128) + 2 ^ 13 * b2n j.late + 2 ^ 14 * b2n j.fbk +
      (if status = 0x80 then 2 ^ 15 * b2n j.pop + 2 ^ 16 * j.failWin else 0) +
      2 ^ 32 * (if status = 0x80 ∨ status = 0x81 then j.failFrame else 0))
  let ends := fun (t : State) (a : Nat) (j : FordJob) (status : Nat) =>
    post ((t.modFord a fun p => { p with hand := none }).modSeg a fun c =>
      { c with lim := c.limNext.getD c.lim, limNext := none }) (13440 + a) j.req (frame j status)
  let takes := fun (s : State) (r : Request) (rest : List Request) (v : State) (j : FordJob) =>
    s.inp.a < 16 ∧ default s ∧ (s.ford s.inp.a).hand = none ∧ (s.engine (13440 + s.inp.a)).queue = r :: rest ∧
    takeFord (s.modEngine (13440 + s.inp.a) fun e => { e with queue := rest }) s.inp.a r = (v, j)
  let asks := fun (s : State) (j : FordJob) (k : Nat) =>
    (s.ford s.inp.a).hand = some j ∧ j.fail = none ∧
    (default s ∧ j.loaded = true ∧ j.want = none ∧ k = j.frames ∨
      (s.proc (q s)).loaded = true ∧ (s.proc (q s)).stopped = false ∧ j.want = some k) ∧
    j.fbk = false ∧ k < j.total ∧ j.start k ≤ leadTick s s.inp.a ∧ ∀ e, (s.ford s.inp.a).reform = some e → j.start k < e
  let writes := fun (s : State) (j : FordJob) (v : State) (k : FordJob) =>
    runs s j ∧ default s ∧ j.frames = j.total ∧ j.req.killed = false ∧ j.written = false ∧
    ∃ w, writeFord s s.inp.a j = .ok (w, k) ∧ v = ownStores s w (q s) 1
  ∃ e r, MetHappensTo .fordReformApply
    (fun s => (s.ford s.inp.a).reform = some e ∧ e ≤ leadTick s s.inp.a ∧ (s.ford s.inp.a).hand = none ∧
      (s.engine (13440 + s.inp.a)).queue = [r] ∧ r.killed = false ∧ r.toMem = none)
    (fun s t => (t.engine (13440 + s.inp.a)).queue = [] ∧
      (t.core (coreOf r.q)).jetty = (s.core (coreOf r.q)).jetty ++ [frame { req := r } 0x81]) :=
  ⟨5, { op := 0xB1, rid := 16, base := 0x10000, args := [0x2000, 0x3000, 0, 0] }, ({ inp := { a := 0 }, tide := 40000, full := true, slices := [(0, { tlb := [flat] })], fseg := [(0, { lim := 1, algn := true })], fords := [(0, { reform := some 5 })], engines := [(13440, { queue := [{ op := 0xB1, rid := 16, base := 0x10000, args := [0x2000, 0x3000, 0, 0] }] })] }), ⟨(by decide +kernel), (by decide +kernel), (by decide +kernel), (by decide +kernel), (by decide +kernel), (by decide +kernel)⟩⟩

theorem met_FordStepsComplete_15 :
  let hand := fun (t : State) (a : Nat) (j : FordJob) => t.modFord a fun p => { p with hand := some j }
  let q := fun (s : State) => hartQOf (13440 + s.inp.a)
  let default := fun (s : State) => runsDefault s (13440 + s.inp.a) = true
  let runs := fun (s : State) (j : FordJob) => (s.ford s.inp.a).hand = some j ∧ j.fail = none ∧ j.loaded = true
  let frame := fun (j : FordJob) (status : Nat) => frameOf status 3 j.req.rid.toNat j.frames
    (j.replays + 2 ^ 8 * (j.flags / 128) + 2 ^ 13 * b2n j.late + 2 ^ 14 * b2n j.fbk +
      (if status = 0x80 then 2 ^ 15 * b2n j.pop + 2 ^ 16 * j.failWin else 0) +
      2 ^ 32 * (if status = 0x80 ∨ status = 0x81 then j.failFrame else 0))
  let ends := fun (t : State) (a : Nat) (j : FordJob) (status : Nat) =>
    post ((t.modFord a fun p => { p with hand := none }).modSeg a fun c =>
      { c with lim := c.limNext.getD c.lim, limNext := none }) (13440 + a) j.req (frame j status)
  let takes := fun (s : State) (r : Request) (rest : List Request) (v : State) (j : FordJob) =>
    s.inp.a < 16 ∧ default s ∧ (s.ford s.inp.a).hand = none ∧ (s.engine (13440 + s.inp.a)).queue = r :: rest ∧
    takeFord (s.modEngine (13440 + s.inp.a) fun e => { e with queue := rest }) s.inp.a r = (v, j)
  let asks := fun (s : State) (j : FordJob) (k : Nat) =>
    (s.ford s.inp.a).hand = some j ∧ j.fail = none ∧
    (default s ∧ j.loaded = true ∧ j.want = none ∧ k = j.frames ∨
      (s.proc (q s)).loaded = true ∧ (s.proc (q s)).stopped = false ∧ j.want = some k) ∧
    j.fbk = false ∧ k < j.total ∧ j.start k ≤ leadTick s s.inp.a ∧ ∀ e, (s.ford s.inp.a).reform = some e → j.start k < e
  let writes := fun (s : State) (j : FordJob) (v : State) (k : FordJob) =>
    runs s j ∧ default s ∧ j.frames = j.total ∧ j.req.killed = false ∧ j.written = false ∧
    ∃ w, writeFord s s.inp.a j = .ok (w, k) ∧ v = ownStores s w (q s) 1
  ∃ j, MetHappensTo .fordFallbackCollective
    (fun s => runs s j ∧ (s.proc (q s)).stopped = false ∧ j.fbk = true ∧ j.frames ≠ j.total ∧ j.start 0 ≤ leadTick s s.inp.a ∧
      j.etype ≠ 0 ∧ j.etype ≠ 11 ∧ j.kind = 0 ∧ isWriter s s.inp.a j = false ∧ j.writers.length = 1)
    (fun s t => ∃ k, (t.ford s.inp.a).hand = some k ∧ k.frames = j.total ∧ k.want = none ∧
      k.res = (List.range j.nel).map fun i => (s.inp.ints.take j.nel).getD i 0) :=
  ⟨{ req := { op := 0xB1, rid := 16, base := 0x10000, args := [0x2000, 0x3000, 0, 0] }, ent := [529409, 2, 0, 25769833776, 0, 0, 0, 0], lim := 1, loaded := true, fbk := true }, ({ inp := { a := 0, ints := [7, 9] }, tide := 40000, full := true, slices := [(0, { tlb := [flat] })], fseg := [(0, { lim := 1, algn := true })], fords := [(0, { hand := some { req := { op := 0xB1, rid := 16, base := 0x10000, args := [0x2000, 0x3000, 0, 0] }, ent := [529409, 2, 0, 25769833776, 0, 0, 0, 0], lim := 1, loaded := true, fbk := true } })], engines := [(13440, {  })] }), ⟨⟨(by decide +kernel), (by decide +kernel), (by decide +kernel)⟩, (by decide +kernel), (by decide +kernel), (by decide +kernel), (by decide +kernel), (by decide +kernel), (by decide +kernel), (by decide +kernel), (by decide +kernel), (by decide +kernel)⟩⟩

theorem met_FordStepsComplete_16 :
  let hand := fun (t : State) (a : Nat) (j : FordJob) => t.modFord a fun p => { p with hand := some j }
  let q := fun (s : State) => hartQOf (13440 + s.inp.a)
  let default := fun (s : State) => runsDefault s (13440 + s.inp.a) = true
  let runs := fun (s : State) (j : FordJob) => (s.ford s.inp.a).hand = some j ∧ j.fail = none ∧ j.loaded = true
  let frame := fun (j : FordJob) (status : Nat) => frameOf status 3 j.req.rid.toNat j.frames
    (j.replays + 2 ^ 8 * (j.flags / 128) + 2 ^ 13 * b2n j.late + 2 ^ 14 * b2n j.fbk +
      (if status = 0x80 then 2 ^ 15 * b2n j.pop + 2 ^ 16 * j.failWin else 0) +
      2 ^ 32 * (if status = 0x80 ∨ status = 0x81 then j.failFrame else 0))
  let ends := fun (t : State) (a : Nat) (j : FordJob) (status : Nat) =>
    post ((t.modFord a fun p => { p with hand := none }).modSeg a fun c =>
      { c with lim := c.limNext.getD c.lim, limNext := none }) (13440 + a) j.req (frame j status)
  let takes := fun (s : State) (r : Request) (rest : List Request) (v : State) (j : FordJob) =>
    s.inp.a < 16 ∧ default s ∧ (s.ford s.inp.a).hand = none ∧ (s.engine (13440 + s.inp.a)).queue = r :: rest ∧
    takeFord (s.modEngine (13440 + s.inp.a) fun e => { e with queue := rest }) s.inp.a r = (v, j)
  let asks := fun (s : State) (j : FordJob) (k : Nat) =>
    (s.ford s.inp.a).hand = some j ∧ j.fail = none ∧
    (default s ∧ j.loaded = true ∧ j.want = none ∧ k = j.frames ∨
      (s.proc (q s)).loaded = true ∧ (s.proc (q s)).stopped = false ∧ j.want = some k) ∧
    j.fbk = false ∧ k < j.total ∧ j.start k ≤ leadTick s s.inp.a ∧ ∀ e, (s.ford s.inp.a).reform = some e → j.start k < e
  let writes := fun (s : State) (j : FordJob) (v : State) (k : FordJob) =>
    runs s j ∧ default s ∧ j.frames = j.total ∧ j.req.killed = false ∧ j.written = false ∧
    ∃ w, writeFord s s.inp.a j = .ok (w, k) ∧ v = ownStores s w (q s) 1
  ∃ j, MetHappens .fordFallbackTimeout
    (fun s => runs s j ∧ j.fbk = true ∧ j.frames ≠ j.total ∧ j.start 0 + fallbackBound s j ≤ leadTick s s.inp.a)
    (fun s => hand s s.inp.a (if s.inp.b = 1 then { j with fail := some 0x2C, want := none }
      else { j with fail := some 0x80, pop := true, want := none })) :=
  ⟨{ req := { op := 0xB1, rid := 16, base := 0x10000, args := [0x2000, 0x3000, 0, 0] }, ent := [529409, 2, 0, 25769833776, 0, 0, 0, 0], lim := 1, loaded := true, fbk := true }, ({ inp := { a := 0 }, tide := 40000000, full := true, slices := [(0, { tlb := [flat] })], fseg := [(0, { lim := 1, algn := true })], fords := [(0, { hand := some { req := { op := 0xB1, rid := 16, base := 0x10000, args := [0x2000, 0x3000, 0, 0] }, ent := [529409, 2, 0, 25769833776, 0, 0, 0, 0], lim := 1, loaded := true, fbk := true } })], engines := [(13440, {  })] }), ⟨⟨(by decide +kernel), (by decide +kernel), (by decide +kernel)⟩, (by decide +kernel), (by decide +kernel), (by decide +kernel)⟩⟩

theorem met_FordStepsComplete_17 :
  let hand := fun (t : State) (a : Nat) (j : FordJob) => t.modFord a fun p => { p with hand := some j }
  let q := fun (s : State) => hartQOf (13440 + s.inp.a)
  let default := fun (s : State) => runsDefault s (13440 + s.inp.a) = true
  let runs := fun (s : State) (j : FordJob) => (s.ford s.inp.a).hand = some j ∧ j.fail = none ∧ j.loaded = true
  let frame := fun (j : FordJob) (status : Nat) => frameOf status 3 j.req.rid.toNat j.frames
    (j.replays + 2 ^ 8 * (j.flags / 128) + 2 ^ 13 * b2n j.late + 2 ^ 14 * b2n j.fbk +
      (if status = 0x80 then 2 ^ 15 * b2n j.pop + 2 ^ 16 * j.failWin else 0) +
      2 ^ 32 * (if status = 0x80 ∨ status = 0x81 then j.failFrame else 0))
  let ends := fun (t : State) (a : Nat) (j : FordJob) (status : Nat) =>
    post ((t.modFord a fun p => { p with hand := none }).modSeg a fun c =>
      { c with lim := c.limNext.getD c.lim, limNext := none }) (13440 + a) j.req (frame j status)
  let takes := fun (s : State) (r : Request) (rest : List Request) (v : State) (j : FordJob) =>
    s.inp.a < 16 ∧ default s ∧ (s.ford s.inp.a).hand = none ∧ (s.engine (13440 + s.inp.a)).queue = r :: rest ∧
    takeFord (s.modEngine (13440 + s.inp.a) fun e => { e with queue := rest }) s.inp.a r = (v, j)
  let asks := fun (s : State) (j : FordJob) (k : Nat) =>
    (s.ford s.inp.a).hand = some j ∧ j.fail = none ∧
    (default s ∧ j.loaded = true ∧ j.want = none ∧ k = j.frames ∨
      (s.proc (q s)).loaded = true ∧ (s.proc (q s)).stopped = false ∧ j.want = some k) ∧
    j.fbk = false ∧ k < j.total ∧ j.start k ≤ leadTick s s.inp.a ∧ ∀ e, (s.ford s.inp.a).reform = some e → j.start k < e
  let writes := fun (s : State) (j : FordJob) (v : State) (k : FordJob) =>
    runs s j ∧ default s ∧ j.frames = j.total ∧ j.req.killed = false ∧ j.written = false ∧
    ∃ w, writeFord s s.inp.a j = .ok (w, k) ∧ v = ownStores s w (q s) 1
  MetHappens .fsegctlWrite
    (fun s => s.inp.a < 16 ∧ s.inp.w.toNat / 2 ^ 3 % 2 ^ 6 = (s.seg s.inp.a).pos ∧ s.inp.w.toNat / 2 ^ 9 % 2 ^ 16 = (s.seg s.inp.a).sgid ∧
      ((s.ford s.inp.a).hand = none ∨ s.inp.w.getLsbD 25 ≠ (s.seg s.inp.a).fbk ∨ s.inp.w.getLsbD 26 ≠ (s.seg s.inp.a).fen) ∧
      (s.inp.w.getLsbD 26 = false ∨ (s.seg s.inp.a).fen = true))
    (fun s => s.modSeg s.inp.a fun c => { c with
      lim := s.inp.w.toNat % 8, limNext := none, pos := s.inp.w.toNat / 2 ^ 3 % 2 ^ 6, sgid := s.inp.w.toNat / 2 ^ 9 % 2 ^ 16
      fbk := s.inp.w.getLsbD 25, fen := s.inp.w.getLsbD 26 }) :=
  ⟨({ inp := { a := 0, w := 3 }, tide := 40000, full := true, slices := [(0, { tlb := [flat] })], fseg := [(0, { lim := 1, algn := true })], fords := [(0, {  })], engines := [(13440, {  })] }), ⟨(by decide +kernel), (by decide +kernel), (by decide +kernel), .inl (by decide +kernel), .inl (by decide +kernel)⟩⟩

theorem met_FordStepsComplete_18 :
  let hand := fun (t : State) (a : Nat) (j : FordJob) => t.modFord a fun p => { p with hand := some j }
  let q := fun (s : State) => hartQOf (13440 + s.inp.a)
  let default := fun (s : State) => runsDefault s (13440 + s.inp.a) = true
  let runs := fun (s : State) (j : FordJob) => (s.ford s.inp.a).hand = some j ∧ j.fail = none ∧ j.loaded = true
  let frame := fun (j : FordJob) (status : Nat) => frameOf status 3 j.req.rid.toNat j.frames
    (j.replays + 2 ^ 8 * (j.flags / 128) + 2 ^ 13 * b2n j.late + 2 ^ 14 * b2n j.fbk +
      (if status = 0x80 then 2 ^ 15 * b2n j.pop + 2 ^ 16 * j.failWin else 0) +
      2 ^ 32 * (if status = 0x80 ∨ status = 0x81 then j.failFrame else 0))
  let ends := fun (t : State) (a : Nat) (j : FordJob) (status : Nat) =>
    post ((t.modFord a fun p => { p with hand := none }).modSeg a fun c =>
      { c with lim := c.limNext.getD c.lim, limNext := none }) (13440 + a) j.req (frame j status)
  let takes := fun (s : State) (r : Request) (rest : List Request) (v : State) (j : FordJob) =>
    s.inp.a < 16 ∧ default s ∧ (s.ford s.inp.a).hand = none ∧ (s.engine (13440 + s.inp.a)).queue = r :: rest ∧
    takeFord (s.modEngine (13440 + s.inp.a) fun e => { e with queue := rest }) s.inp.a r = (v, j)
  let asks := fun (s : State) (j : FordJob) (k : Nat) =>
    (s.ford s.inp.a).hand = some j ∧ j.fail = none ∧
    (default s ∧ j.loaded = true ∧ j.want = none ∧ k = j.frames ∨
      (s.proc (q s)).loaded = true ∧ (s.proc (q s)).stopped = false ∧ j.want = some k) ∧
    j.fbk = false ∧ k < j.total ∧ j.start k ≤ leadTick s s.inp.a ∧ ∀ e, (s.ford s.inp.a).reform = some e → j.start k < e
  let writes := fun (s : State) (j : FordJob) (v : State) (k : FordJob) =>
    runs s j ∧ default s ∧ j.frames = j.total ∧ j.req.killed = false ∧ j.written = false ∧
    ∃ w, writeFord s s.inp.a j = .ok (w, k) ∧ v = ownStores s w (q s) 1
  ∃ j, MetHappens .fsegctlWrite
    (fun s => s.inp.a < 16 ∧ s.inp.w.toNat / 2 ^ 3 % 2 ^ 6 = (s.seg s.inp.a).pos ∧ s.inp.w.toNat / 2 ^ 9 % 2 ^ 16 = (s.seg s.inp.a).sgid ∧
      (s.ford s.inp.a).hand = some j ∧ s.inp.w.getLsbD 25 = (s.seg s.inp.a).fbk ∧ s.inp.w.getLsbD 26 = (s.seg s.inp.a).fen)
    (fun s => s.modSeg s.inp.a fun c => { c with limNext := some (s.inp.w.toNat % 8) }) :=
  ⟨{ req := { op := 0xB1, rid := 16, base := 0x10000, args := [0x2000, 0x3000, 0, 0] }, ent := [529409, 1, 0, 25769833776, 0, 0, 0, 0], lim := 1, loaded := true }, ({ inp := { a := 0, w := 3 }, tide := 40000, full := true, slices := [(0, { tlb := [flat] })], fseg := [(0, { lim := 1, algn := true })], fords := [(0, { hand := some { req := { op := 0xB1, rid := 16, base := 0x10000, args := [0x2000, 0x3000, 0, 0] }, ent := [529409, 1, 0, 25769833776, 0, 0, 0, 0], lim := 1, loaded := true } })], engines := [(13440, {  })] }), ⟨(by decide +kernel), (by decide +kernel), (by decide +kernel), (by decide +kernel), (by decide +kernel), (by decide +kernel)⟩⟩

theorem met_FordStepsComplete_19 :
  let hand := fun (t : State) (a : Nat) (j : FordJob) => t.modFord a fun p => { p with hand := some j }
  let q := fun (s : State) => hartQOf (13440 + s.inp.a)
  let default := fun (s : State) => runsDefault s (13440 + s.inp.a) = true
  let runs := fun (s : State) (j : FordJob) => (s.ford s.inp.a).hand = some j ∧ j.fail = none ∧ j.loaded = true
  let frame := fun (j : FordJob) (status : Nat) => frameOf status 3 j.req.rid.toNat j.frames
    (j.replays + 2 ^ 8 * (j.flags / 128) + 2 ^ 13 * b2n j.late + 2 ^ 14 * b2n j.fbk +
      (if status = 0x80 then 2 ^ 15 * b2n j.pop + 2 ^ 16 * j.failWin else 0) +
      2 ^ 32 * (if status = 0x80 ∨ status = 0x81 then j.failFrame else 0))
  let ends := fun (t : State) (a : Nat) (j : FordJob) (status : Nat) =>
    post ((t.modFord a fun p => { p with hand := none }).modSeg a fun c =>
      { c with lim := c.limNext.getD c.lim, limNext := none }) (13440 + a) j.req (frame j status)
  let takes := fun (s : State) (r : Request) (rest : List Request) (v : State) (j : FordJob) =>
    s.inp.a < 16 ∧ default s ∧ (s.ford s.inp.a).hand = none ∧ (s.engine (13440 + s.inp.a)).queue = r :: rest ∧
    takeFord (s.modEngine (13440 + s.inp.a) fun e => { e with queue := rest }) s.inp.a r = (v, j)
  let asks := fun (s : State) (j : FordJob) (k : Nat) =>
    (s.ford s.inp.a).hand = some j ∧ j.fail = none ∧
    (default s ∧ j.loaded = true ∧ j.want = none ∧ k = j.frames ∨
      (s.proc (q s)).loaded = true ∧ (s.proc (q s)).stopped = false ∧ j.want = some k) ∧
    j.fbk = false ∧ k < j.total ∧ j.start k ≤ leadTick s s.inp.a ∧ ∀ e, (s.ford s.inp.a).reform = some e → j.start k < e
  let writes := fun (s : State) (j : FordJob) (v : State) (k : FordJob) =>
    runs s j ∧ default s ∧ j.frames = j.total ∧ j.req.killed = false ∧ j.written = false ∧
    ∃ w, writeFord s s.inp.a j = .ok (w, k) ∧ v = ownStores s w (q s) 1
  MetHappensTo .fsegctlWrite
    (fun s => s.inp.a < 16 ∧ (s.inp.w.toNat / 2 ^ 3 % 2 ^ 6 ≠ (s.seg s.inp.a).pos ∨ s.inp.w.toNat / 2 ^ 9 % 2 ^ 16 ≠ (s.seg s.inp.a).sgid))
    (fun s t =>
      let e := 3 * ((leadTick s s.inp.a + 768 + 2) / 3)
      (t.seg s.inp.a).algn = false ∧ (t.seg s.inp.a).pos = s.inp.w.toNat / 2 ^ 3 % 2 ^ 6 ∧ (t.ford s.inp.a).reform = some e ∧
      ∀ b, b < 16 → (s.seg b).sgid = (s.seg s.inp.a).sgid → (t.ford b).reform = some e) :=
  ⟨({ inp := { a := 0, w := 1 + 2 ^ 3 }, tide := 40000, full := true, slices := [(0, { tlb := [flat] })], fseg := [(0, { lim := 1, algn := true })], fords := [(0, {  })], engines := [(13440, {  })] }), ⟨(by decide +kernel), .inl (by decide +kernel)⟩⟩

theorem met_FordStepsComplete_20 :
  let hand := fun (t : State) (a : Nat) (j : FordJob) => t.modFord a fun p => { p with hand := some j }
  let q := fun (s : State) => hartQOf (13440 + s.inp.a)
  let default := fun (s : State) => runsDefault s (13440 + s.inp.a) = true
  let runs := fun (s : State) (j : FordJob) => (s.ford s.inp.a).hand = some j ∧ j.fail = none ∧ j.loaded = true
  let frame := fun (j : FordJob) (status : Nat) => frameOf status 3 j.req.rid.toNat j.frames
    (j.replays + 2 ^ 8 * (j.flags / 128) + 2 ^ 13 * b2n j.late + 2 ^ 14 * b2n j.fbk +
      (if status = 0x80 then 2 ^ 15 * b2n j.pop + 2 ^ 16 * j.failWin else 0) +
      2 ^ 32 * (if status = 0x80 ∨ status = 0x81 then j.failFrame else 0))
  let ends := fun (t : State) (a : Nat) (j : FordJob) (status : Nat) =>
    post ((t.modFord a fun p => { p with hand := none }).modSeg a fun c =>
      { c with lim := c.limNext.getD c.lim, limNext := none }) (13440 + a) j.req (frame j status)
  let takes := fun (s : State) (r : Request) (rest : List Request) (v : State) (j : FordJob) =>
    s.inp.a < 16 ∧ default s ∧ (s.ford s.inp.a).hand = none ∧ (s.engine (13440 + s.inp.a)).queue = r :: rest ∧
    takeFord (s.modEngine (13440 + s.inp.a) fun e => { e with queue := rest }) s.inp.a r = (v, j)
  let asks := fun (s : State) (j : FordJob) (k : Nat) =>
    (s.ford s.inp.a).hand = some j ∧ j.fail = none ∧
    (default s ∧ j.loaded = true ∧ j.want = none ∧ k = j.frames ∨
      (s.proc (q s)).loaded = true ∧ (s.proc (q s)).stopped = false ∧ j.want = some k) ∧
    j.fbk = false ∧ k < j.total ∧ j.start k ≤ leadTick s s.inp.a ∧ ∀ e, (s.ford s.inp.a).reform = some e → j.start k < e
  let writes := fun (s : State) (j : FordJob) (v : State) (k : FordJob) =>
    runs s j ∧ default s ∧ j.frames = j.total ∧ j.req.killed = false ∧ j.written = false ∧
    ∃ w, writeFord s s.inp.a j = .ok (w, k) ∧ v = ownStores s w (q s) 1
  ∃ qs, MetHappens .falignTrained (fun s => (s.ford s.inp.a).training = qs ∧ qs ≠ [] ∧ s.inp.b = 1)
    (fun s => s.modFord s.inp.a fun p => { p with training := [], trained := qs.foldl (fun m q => m.put q 1) p.trained }) :=
  ⟨[7], ({ inp := { a := 0, b := 1 }, tide := 40000, full := true, slices := [(0, { tlb := [flat] })], fseg := [(0, { lim := 1, algn := true })], fords := [(0, { training := [7] })], engines := [(13440, {  })] }), ⟨(by decide +kernel), (by decide +kernel), (by decide +kernel)⟩⟩

theorem met_FordStepsComplete_21 :
  let hand := fun (t : State) (a : Nat) (j : FordJob) => t.modFord a fun p => { p with hand := some j }
  let q := fun (s : State) => hartQOf (13440 + s.inp.a)
  let default := fun (s : State) => runsDefault s (13440 + s.inp.a) = true
  let runs := fun (s : State) (j : FordJob) => (s.ford s.inp.a).hand = some j ∧ j.fail = none ∧ j.loaded = true
  let frame := fun (j : FordJob) (status : Nat) => frameOf status 3 j.req.rid.toNat j.frames
    (j.replays + 2 ^ 8 * (j.flags / 128) + 2 ^ 13 * b2n j.late + 2 ^ 14 * b2n j.fbk +
      (if status = 0x80 then 2 ^ 15 * b2n j.pop + 2 ^ 16 * j.failWin else 0) +
      2 ^ 32 * (if status = 0x80 ∨ status = 0x81 then j.failFrame else 0))
  let ends := fun (t : State) (a : Nat) (j : FordJob) (status : Nat) =>
    post ((t.modFord a fun p => { p with hand := none }).modSeg a fun c =>
      { c with lim := c.limNext.getD c.lim, limNext := none }) (13440 + a) j.req (frame j status)
  let takes := fun (s : State) (r : Request) (rest : List Request) (v : State) (j : FordJob) =>
    s.inp.a < 16 ∧ default s ∧ (s.ford s.inp.a).hand = none ∧ (s.engine (13440 + s.inp.a)).queue = r :: rest ∧
    takeFord (s.modEngine (13440 + s.inp.a) fun e => { e with queue := rest }) s.inp.a r = (v, j)
  let asks := fun (s : State) (j : FordJob) (k : Nat) =>
    (s.ford s.inp.a).hand = some j ∧ j.fail = none ∧
    (default s ∧ j.loaded = true ∧ j.want = none ∧ k = j.frames ∨
      (s.proc (q s)).loaded = true ∧ (s.proc (q s)).stopped = false ∧ j.want = some k) ∧
    j.fbk = false ∧ k < j.total ∧ j.start k ≤ leadTick s s.inp.a ∧ ∀ e, (s.ford s.inp.a).reform = some e → j.start k < e
  let writes := fun (s : State) (j : FordJob) (v : State) (k : FordJob) =>
    runs s j ∧ default s ∧ j.frames = j.total ∧ j.req.killed = false ∧ j.written = false ∧
    ∃ w, writeFord s s.inp.a j = .ok (w, k) ∧ v = ownStores s w (q s) 1
  ∃ qs, MetHappens .falignTrained (fun s => (s.ford s.inp.a).training = qs ∧ qs ≠ [] ∧ s.inp.b ≠ 1)
    (fun s => (s.modSeg s.inp.a fun c => { c with algn := true }).modFord s.inp.a fun p =>
      { p with training := [], trained := qs.foldl (fun m q => m.put q 0) p.trained, skew := s.inp.ints.headD 0 }) :=
  ⟨[7], ({ inp := { a := 0, ints := [-4] }, tide := 40000, full := true, slices := [(0, { tlb := [flat] })], fseg := [(0, { lim := 1, algn := true })], fords := [(0, { training := [7] })], engines := [(13440, {  })] }), ⟨(by decide +kernel), (by decide +kernel), (by decide +kernel)⟩⟩

theorem met_FordStepsComplete_22 :
  let hand := fun (t : State) (a : Nat) (j : FordJob) => t.modFord a fun p => { p with hand := some j }
  let q := fun (s : State) => hartQOf (13440 + s.inp.a)
  let default := fun (s : State) => runsDefault s (13440 + s.inp.a) = true
  let runs := fun (s : State) (j : FordJob) => (s.ford s.inp.a).hand = some j ∧ j.fail = none ∧ j.loaded = true
  let frame := fun (j : FordJob) (status : Nat) => frameOf status 3 j.req.rid.toNat j.frames
    (j.replays + 2 ^ 8 * (j.flags / 128) + 2 ^ 13 * b2n j.late + 2 ^ 14 * b2n j.fbk +
      (if status = 0x80 then 2 ^ 15 * b2n j.pop + 2 ^ 16 * j.failWin else 0) +
      2 ^ 32 * (if status = 0x80 ∨ status = 0x81 then j.failFrame else 0))
  let ends := fun (t : State) (a : Nat) (j : FordJob) (status : Nat) =>
    post ((t.modFord a fun p => { p with hand := none }).modSeg a fun c =>
      { c with lim := c.limNext.getD c.lim, limNext := none }) (13440 + a) j.req (frame j status)
  let takes := fun (s : State) (r : Request) (rest : List Request) (v : State) (j : FordJob) =>
    s.inp.a < 16 ∧ default s ∧ (s.ford s.inp.a).hand = none ∧ (s.engine (13440 + s.inp.a)).queue = r :: rest ∧
    takeFord (s.modEngine (13440 + s.inp.a) fun e => { e with queue := rest }) s.inp.a r = (v, j)
  let asks := fun (s : State) (j : FordJob) (k : Nat) =>
    (s.ford s.inp.a).hand = some j ∧ j.fail = none ∧
    (default s ∧ j.loaded = true ∧ j.want = none ∧ k = j.frames ∨
      (s.proc (q s)).loaded = true ∧ (s.proc (q s)).stopped = false ∧ j.want = some k) ∧
    j.fbk = false ∧ k < j.total ∧ j.start k ≤ leadTick s s.inp.a ∧ ∀ e, (s.ford s.inp.a).reform = some e → j.start k < e
  let writes := fun (s : State) (j : FordJob) (v : State) (k : FordJob) =>
    runs s j ∧ default s ∧ j.frames = j.total ∧ j.req.killed = false ∧ j.written = false ∧
    ∃ w, writeFord s s.inp.a j = .ok (w, k) ∧ v = ownStores s w (q s) 1
  MetHappensTo .fsegctlWrite
    (fun s => s.inp.a < 16 ∧ s.inp.w.getLsbD 26 = true ∧ (s.seg s.inp.a).fen = false)
    (fun s t => (t.seg s.inp.a).fen = true ∧ t.rrq = true ∧ t.msix = s.msix ++ [(0, 3)]) :=
  ⟨({ inp := { a := 0, w := 2 ^ 26 }, tide := 40000, full := true, slices := [(0, { tlb := [flat] })], fseg := [(0, { lim := 1, algn := true })], fords := [(0, {  })], engines := [(13440, {  })] }), ⟨(by decide +kernel), (by decide +kernel), (by decide +kernel)⟩⟩
end

