-- ==== Sys2Proof/Tests/MetEngines.lean ====
section
/-!
SUPPORT. Witnesses of the statements about the Pontoon, the tow reader, the Ford, the links and the Tollhouse: for each clause a concrete state and operands that meet its hypotheses together.
-/

open Sys2Proof Sys2Proof.Machine
set_option maxRecDepth 20000
set_option Elab.async false
set_option linter.unusedVariables false

theorem met_JobHeadsComplete_1 :
  ∃ a b hs w, MetDoesOnceTo (.pjob a b) a 2
    (fun u =>
      let r : Request := { op := 0x9F, vrec := u.me.r.readV b.toNat }
      let hdl := (r.dw 7).toNat % 2 ^ 32
      let gc := clusterOf w.cur
      jobRecBad r = false ∧
      (r.wk = false → inEngineSpace u (r.dw 1) = true ∧ (r.dw 1).toNat % 32 = 0) ∧
      (r.ik = false → inEngineSpace u (r.dw 2) = true ∧ (r.dw 2).toNat % 32 = 0) ∧
      (r.scm = true → (r.dw 4).toNat % 4 = 0) ∧ hdl < 2 ^ 29 ∧
      takeHandle hdl (r.dw 1).toNat ((r.dw 1).toNat + 1024 * r.kst) u = .ok hs w ∧
      (r.wk = true → kind2Ring (ringOf w gc ((r.dw 3).toNat % 16)) 1024 = true) ∧
      (r.ik = true → kind2Ring (ringOf w gc ((r.dw 3).toNat / 2 ^ 8 % 16)) (32 * r.depth) = true) ∧
      (r.oen = true → handlerRing (ringOf w gc r.orng) = true) ∧ canKick w (seqHart gc) = true)
    (fun u =>
      let r : Request := { op := 0x9F, vrec := u.me.r.readV b.toNat }
      let hdl := (r.dw 7).toNat % 2 ^ 32
      let m := captureMode u.me.r.fcsr ((r.dw 0).toNat / 2 ^ 32 % 8)
      engineKicked u w (seqHart (clusterOf w.cur)) u.me.seqJob (fun n p => { p with seqJob := n }) m (m == 5)
        { r with base := (if hdl = 0 then 0 else wNat (handleDw u u.me.vf (hdl % 65536) 0)) + r.dw 1, handles := hs })
    (fun u => requestId u u.me.seqJob) :=
  ⟨5, 8, _, _, _, (one [] (fun p => { p with r := { p.r with v := p.r.v.setIfInBounds 8 (BitVec.ofNat 512 (0x2000 * 2 ^ 64 + 0x3000 * 2 ^ 128 + 0x6000 * 2 ^ 320)) } })), (by decide +kernel), ⟨(by decide +kernel), (by decide +kernel), (by decide +kernel), (by decide +kernel), (by decide +kernel), (ok_of_isOk (by decide +kernel)), (by decide +kernel), (by decide +kernel), (by decide +kernel), (by decide +kernel)⟩, (ok_unit_of_isOk (by decide +kernel)), (by decide +kernel)⟩

theorem met_JobHeadsComplete_2 :
  ∃ a b, MetDoesTo (.ppoll a b) a 2 (fun u => (u.myReg b).toNat < 2 ^ 20) id (fun u =>
    let po := u.myPontoon
    let rid := u.myReg b
    let mine := isJobOf (coreOf u.cur) rid
    if (u.engine (seqHart (clusterOf u.cur))).queue.any mine then 0
    else if (po.tail.map fun j => mine j.req).getD false then 3
    else match po.job with
      | none => 4
      | some j => if mine j.req = false then 4 else if j.ksteps = j.req.kst then 3 else if j.parked ≠ 0 then 2 else 1) :=
  ⟨5, 6, _, (one [(6, 0x20)] id id fun k => { k with pontoon := { job := some { req := { op := 0x9F, rid := 0x20 }, rel := [] } } }), (by decide +kernel), (by decide +kernel), (by decide +kernel), (ok_unit_of_isOk (by decide +kernel)), (by decide +kernel)⟩

theorem met_JobHeadsComplete_3 : ∃ a b rid g, MetAwaits (.pwait a b) a (fun u => u.myReg b = rid ∧ rid.toNat < 2 ^ 20 ∧ coreOf u.cur = g)
    (fun u => jobOutstanding u g rid) :=
  ⟨5, 6, 0x20, 0, ⟨_, (one [(6, 0x20)]), (by decide +kernel), (by decide +kernel), ⟨⟨(by decide +kernel), (by decide +kernel), (by decide +kernel)⟩, (not_engine (by decide +kernel)), (by decide +kernel)⟩, (ok_unit_of_isOk (by decide +kernel)), (by decide +kernel)⟩, ⟨_, (one [(6, 0x20)] fun p => { p with wait := .engine 900 }), (by decide +kernel), (by decide +kernel), ⟨⟨(by decide +kernel), (by decide +kernel), (by decide +kernel)⟩, ⟨900, (by decide +kernel)⟩, (by decide +kernel)⟩, (ok_unit_of_isOk (by decide +kernel)), (by decide +kernel)⟩⟩

theorem met_JobHeadsComplete_4 : ∃ a b rid g, MetAwaits (.pcan a b) a (fun u => u.myReg b = rid ∧ rid.toNat < 2 ^ 20 ∧ coreOf u.cur = g)
    (fun u => jobOutstanding u g rid) :=
  ⟨5, 6, 0x20, 0, ⟨_, (one [(6, 0x20)]), (by decide +kernel), (by decide +kernel), ⟨⟨(by decide +kernel), (by decide +kernel), (by decide +kernel)⟩, (not_engine (by decide +kernel)), (by decide +kernel)⟩, (ok_unit_of_isOk (by decide +kernel)), (by decide +kernel)⟩, ⟨_, (one [(6, 0x20)] fun p => { p with wait := .engine 900 }), (by decide +kernel), (by decide +kernel), ⟨⟨(by decide +kernel), (by decide +kernel), (by decide +kernel)⟩, ⟨900, (by decide +kernel)⟩, (by decide +kernel)⟩, (ok_unit_of_isOk (by decide +kernel)), (by decide +kernel)⟩⟩

theorem met_JobHeadsComplete_5 :
  ∃ a b rid g, MetDoesTo (.pcan a b) a 1
    (fun u => u.myReg b = rid ∧ rid.toNat < 2 ^ 20 ∧ coreOf u.cur = g ∧ (∀ t, u.me.wait ≠ .engine t) ∧ u.me.pcan = none ∧
      queueFull u (seqHart (g / 8)) = false ∧ jobOutstanding u g rid = true ∧ jobOutstanding (cancelJob g rid u) g rid = false)
    (fun u => notCancelling (cancelJob g rid u)) (fun _ => 0) :=
  ⟨5, 6, 0x20, 0, _, ({ one [(6, 0x20)] with engines := [(640, { queue := [{ op := 0x9F, rid := 0x20 }] })] }), (by decide +kernel), (by decide +kernel), ⟨(by decide +kernel), (by decide +kernel), (by decide +kernel), (not_engine (by decide +kernel)), (by decide +kernel), (by decide +kernel), (by decide +kernel), (by decide +kernel)⟩, (ok_unit_of_isOk (by decide +kernel)), (by decide +kernel)⟩

theorem met_JobHeadsComplete_6 :
  ∃ r, MetDoes .prowgoDrop (fun u => u.me.row = some r ∧ r.released = false) (fun u => releaseRow u u.cur none) :=
  ⟨_, ({ one [] id id (fun k => { k with pontoon := { job := some { req := { op := 0x9F, rid := 0x20 }, rel := [] } } }) with procs := [(1, { live [] with drain := true, row := some { row := 3, rid := 0x20 } })], cur := 1 }), (by decide +kernel), (by decide +kernel), ⟨rfl, (by decide +kernel)⟩, (by decide +kernel)⟩

theorem met_JobHeadsComplete_7 :
  ∃ r, MetDoes .prowgoMem (fun u => u.me.row = some r ∧ r.released = false) (fun u => releaseRow u u.cur none) :=
  ⟨_, ({ one [] id id (fun k => { k with pontoon := { job := some { req := { op := 0x9F, rid := 0x20 }, rel := [] } } }) with procs := [(1, { live [] with drain := true, row := some { row := 3, rid := 0x20 } })], cur := 1 }), (by decide +kernel), (by decide +kernel), ⟨rfl, (by decide +kernel)⟩, (by decide +kernel)⟩

theorem met_JobHeadsComplete_8 :
  ∃ b r x v, MetDoes (.prowgoLand b) (fun u => u.me.row = some r ∧ r.released = false ∧ r.land.isSome = true ∧ src b u = .ok x v)
    (fun _ => releaseRow v v.cur (some x.toNat)) :=
  ⟨6, _, _, _, ({ one [] id id (fun k => { k with pontoon := { job := some { req := { op := 0x9F, rid := 0x20 }, rel := [] } } }) with procs := [(1, { live [(6, 9)] with drain := true, row := some { row := 3, rid := 0x20, land := some (5, 2) } })], cur := 1 }), (by decide +kernel), (by decide +kernel), ⟨rfl, (by decide +kernel), (by decide +kernel), (ok_of_isOk (by decide +kernel))⟩, (by decide +kernel)⟩

theorem met_TuningCompletes_1 :
  let heats := fun (u : State) (a : BitVec 6) (x : Nat) (v : Int) =>
    let h := (max 0 (min v 4095)).toNat
    (u.modMyPontoon fun po => setHeater po u.tide x h).landG 1 a (wNat (h + 2 ^ 12 * b2n (decide ((h : Int) ≠ v))))
  ∃ a b, MetDoes (.pheatSet a b)
    (fun u => (u.myReg b).toNat < 1024 ∧ tuneRefused u (clusterOf u.cur) = false ∧ (u.myReg a).toNat < 4096)
    (fun u => heats u a (u.myReg b).toNat (u.myReg a).toNat) :=
  ⟨5, 6, (one [(5, 300), (6, 33)] (id) id fun k => { k with pontoonUp := true, pontoon := {  } }), (by decide +kernel), (by decide +kernel), ⟨(by decide +kernel), (by decide +kernel), (by decide +kernel)⟩, (by decide +kernel)⟩

theorem met_TuningCompletes_2 :
  let heats := fun (u : State) (a : BitVec 6) (x : Nat) (v : Int) =>
    let h := (max 0 (min v 4095)).toNat
    (u.modMyPontoon fun po => setHeater po u.tide x h).landG 1 a (wNat (h + 2 ^ 12 * b2n (decide ((h : Int) ≠ v))))
  ∃ a b, MetDoes (.pheatAdd a b) (fun u => (u.myReg b).toNat < 1024 ∧ tuneRefused u (clusterOf u.cur) = false)
    (fun u => heats u a (u.myReg b).toNat ((u.myPontoon.heat.get (u.myReg b).toNat 0 : Int) + (u.myReg a).toInt)) :=
  ⟨5, 6, (one [(5, 5000), (6, 33)] (id) id fun k => { k with pontoonUp := true, pontoon := { heat := [(33, 20)] } }), (by decide +kernel), (by decide +kernel), ⟨(by decide +kernel), (by decide +kernel)⟩, (by decide +kernel)⟩

theorem met_TuningCompletes_3 :
  let heats := fun (u : State) (a : BitVec 6) (x : Nat) (v : Int) =>
    let h := (max 0 (min v 4095)).toNat
    (u.modMyPontoon fun po => setHeater po u.tide x h).landG 1 a (wNat (h + 2 ^ 12 * b2n (decide ((h : Int) ≠ v))))
  ∃ a b, MetDoes (.pheatSet a b) (fun u => (u.myReg b).toNat < 1024 ∧ tuneRefused u (clusterOf u.cur) = true)
    (fun u => u.landG 1 a (wNat (2 ^ 13))) :=
  ⟨5, 6, (one [(5, 300), (6, 33)]), (by decide +kernel), (by decide +kernel), ⟨(by decide +kernel), (by decide +kernel)⟩, (by decide +kernel)⟩

theorem met_TuningCompletes_4 :
  let heats := fun (u : State) (a : BitVec 6) (x : Nat) (v : Int) =>
    let h := (max 0 (min v 4095)).toNat
    (u.modMyPontoon fun po => setHeater po u.tide x h).landG 1 a (wNat (h + 2 ^ 12 * b2n (decide ((h : Int) ≠ v))))
  ∃ a b, MetDoes (.pheatAdd a b) (fun u => (u.myReg b).toNat < 1024 ∧ tuneRefused u (clusterOf u.cur) = true)
    (fun u => u.landG 1 a (wNat (2 ^ 13))) :=
  ⟨5, 6, (one [(5, 300), (6, 33)]), (by decide +kernel), (by decide +kernel), ⟨(by decide +kernel), (by decide +kernel)⟩, (by decide +kernel)⟩

theorem met_TuningCompletes_5 :
  let heats := fun (u : State) (a : BitVec 6) (x : Nat) (v : Int) =>
    let h := (max 0 (min v 4095)).toNat
    (u.modMyPontoon fun po => setHeater po u.tide x h).landG 1 a (wNat (h + 2 ^ 12 * b2n (decide ((h : Int) ≠ v))))
  ∃ a b, MetDoesTo (.pmonRing a b) a 1 (fun u => (u.myReg b).toNat < 1024) id
    (fun u => w64 (u.myPontoon.det.get (u.myReg b).toNat 0)) :=
  ⟨5, 6, _, (one [(6, 33)] (id) id fun k => { k with pontoonUp := true, pontoon := { det := [(33, -20)] } }), (by decide +kernel), (by decide +kernel), (by decide +kernel), (ok_unit_of_isOk (by decide +kernel)), (by decide +kernel)⟩

theorem met_TuningCompletes_6 :
  let heats := fun (u : State) (a : BitVec 6) (x : Nat) (v : Int) =>
    let h := (max 0 (min v 4095)).toNat
    (u.modMyPontoon fun po => setHeater po u.tide x h).landG 1 a (wNat (h + 2 ^ 12 * b2n (decide ((h : Int) ≠ v))))
  ∃ a b, MetDoesTo (.pmonBank a b) a 1 (fun u => (u.myReg b).toNat < 1024) id
    (fun u => wNat (estimate u.myPontoon ((u.myReg b).toNat / 32))) :=
  ⟨5, 6, _, (one [(6, 33)] (id) id fun k => { k with pontoonUp := true, pontoon := { det := [(33, -20)] } }), (by decide +kernel), (by decide +kernel), (by decide +kernel), (ok_unit_of_isOk (by decide +kernel)), (by decide +kernel)⟩

theorem met_TuningCompletes_7 :
  let heats := fun (u : State) (a : BitVec 6) (x : Nat) (v : Int) =>
    let h := (max 0 (min v 4095)).toNat
    (u.modMyPontoon fun po => setHeater po u.tide x h).landG 1 a (wNat (h + 2 ^ 12 * b2n (decide ((h : Int) ≠ v))))
  ∃ a b, MetDoesTo (.pmonTemp a b) a 1 (fun u => (u.myReg b).toNat < 1024)
    (fun u => { u with freeCtr := u.freeCtr + 1 }) (fun u => wNat (Config.freeNat u.freeCtr % 2 ^ 16)) :=
  ⟨5, 6, _, (one [(6, 33)] (id) id fun k => { k with pontoonUp := true, pontoon := {  } }), (by decide +kernel), (by decide +kernel), (by decide +kernel), (ok_unit_of_isOk (by decide +kernel)), (by decide +kernel)⟩

theorem met_TuningCompletes_8 :
  let heats := fun (u : State) (a : BitVec 6) (x : Nat) (v : Int) =>
    let h := (max 0 (min v 4095)).toNat
    (u.modMyPontoon fun po => setHeater po u.tide x h).landG 1 a (wNat (h + 2 ^ 12 * b2n (decide ((h : Int) ≠ v))))
  ∃ a b go t, MetDoesTo (.psettle a b go t) a 1
    (fun u => t ≠ 0 ∧ ∀ i, i < 32 → (u.myReg b).getLsbD i = true → u.myPontoon.settled.contains i = true)
    (fun u => (settleEnd u (clusterOf u.cur) go).1) (fun u => wNat (settleEnd u (clusterOf u.cur) go).2) :=
  ⟨5, 6, true, 9, _, (one [(6, 4)] (id) id fun k => { k with pontoonUp := true, pontoon := { settled := [2] } }), (by decide +kernel), (by decide +kernel), ⟨(by decide +kernel), (by decide +kernel)⟩, (ok_unit_of_isOk (by decide +kernel)), (by decide +kernel)⟩

theorem met_TuningCompletes_9 :
  let heats := fun (u : State) (a : BitVec 6) (x : Nat) (v : Int) =>
    let h := (max 0 (min v 4095)).toNat
    (u.modMyPontoon fun po => setHeater po u.tide x h).landG 1 a (wNat (h + 2 ^ 12 * b2n (decide ((h : Int) ≠ v))))
  ∃ (i : Instr) (a : _) (full : Bool), i = (if full then .pcalFull a else .pcalOfs a) ∧
    MetDoesTo i a 1
    (fun u => (∀ c, u.me.wait ≠ .busy c) ∧ (calRefused u.myPontoon = true ∨ u.myPontoon.pcal.isSome = true)) id (fun _ => 1) :=
  ⟨_, 5, true, rfl, _, (one [] (id) id fun k => { k with pontoonUp := true, pontoon := { pcal := some (true, 7) } }), (by decide +kernel), (by decide +kernel), ⟨(not_busy (by decide +kernel)), (by decide +kernel)⟩, (ok_unit_of_isOk (by decide +kernel)), (by decide +kernel)⟩

theorem met_TuningCompletes_10 :
  let heats := fun (u : State) (a : BitVec 6) (x : Nat) (v : Int) =>
    let h := (max 0 (min v 4095)).toNat
    (u.modMyPontoon fun po => setHeater po u.tide x h).landG 1 a (wNat (h + 2 ^ 12 * b2n (decide ((h : Int) ≠ v))))
  ∃ (i : Instr) (a : _) (full : Bool) (c : _) (v : _), i = (if full then .pcalFull a else .pcalOfs a) ∧
    MetDoesTo i a 1
    (fun u => u.me.wait = .busy c ∧ u.myPontoon.pcal = none ∧ u.myPontoon.pcalDone = some (u.cur, v))
    (fun u => u.modMyPontoon fun po => { po with pcalDone := none }) (fun _ => wNat v) :=
  ⟨_, 5, false, 900, 259, rfl, _, (one [] (fun p => { p with wait := .busy 900 }) id fun k => { k with pontoonUp := true, pontoon := { pcalDone := some (0, 259) } }), (by decide +kernel), (by decide +kernel), ⟨(by decide +kernel), (by decide +kernel), (by decide +kernel)⟩, (ok_unit_of_isOk (by decide +kernel)), (by decide +kernel)⟩

theorem met_TuningCompletes_11 :
  let heats := fun (u : State) (a : BitVec 6) (x : Nat) (v : Int) =>
    let h := (max 0 (min v 4095)).toNat
    (u.modMyPontoon fun po => setHeater po u.tide x h).landG 1 a (wNat (h + 2 ^ 12 * b2n (decide ((h : Int) ≠ v))))
  ∃ (i : Instr) (a : _) (full : Bool) (c : _) (v : _), i = (if full then .pcalFull a else .pcalOfs a) ∧
    MetDoesTo i a 1
    (fun u => u.me.wait = .busy c ∧ u.myPontoon.pcal = some (full, u.cur) ∧
      c.toNat + (if full then 2400000 else 60000) ≤ u.tide.toNat ∧ (endCal u (clusterOf u.cur)).myPontoon.pcalDone = some (u.cur, v))
    (fun u => (endCal u (clusterOf u.cur)).modMyPontoon fun po => { po with pcalDone := none }) (fun _ => wNat v) :=
  ⟨_, 5, false, 900, 0, rfl, _, ({ one [] (fun p => { p with wait := .busy 900 }) id fun k => { k with pontoonUp := true, pontoon := { pcal := some (false, 0) } } with tide := 70000 }), (by decide +kernel), (by decide +kernel), ⟨(by decide +kernel), (by decide +kernel), (by decide +kernel), (by decide +kernel)⟩, (ok_unit_of_isOk (by decide +kernel)), (by decide +kernel)⟩

theorem met_TuningCompletes_12 :
  let heats := fun (u : State) (a : BitVec 6) (x : Nat) (v : Int) =>
    let h := (max 0 (min v 4095)).toNat
    (u.modMyPontoon fun po => setHeater po u.tide x h).landG 1 a (wNat (h + 2 ^ 12 * b2n (decide ((h : Int) ≠ v))))
  ∃ a b, MetDoesTo (.pmapRd a b) a 1 (fun u => (u.myReg b).toNat < 1024) id
    (fun u => wNat (sigmaOf u.myPontoon (u.myReg b).toNat)) :=
  ⟨5, 6, _, (one [(6, 33)] (id) id fun k => { k with pontoonUp := true, pontoon := { sigma := [(33, 2)] } }), (by decide +kernel), (by decide +kernel), (by decide +kernel), (ok_unit_of_isOk (by decide +kernel)), (by decide +kernel)⟩

theorem met_TuningCompletes_13 :
  let heats := fun (u : State) (a : BitVec 6) (x : Nat) (v : Int) =>
    let h := (max 0 (min v 4095)).toNat
    (u.modMyPontoon fun po => setHeater po u.tide x h).landG 1 a (wNat (h + 2 ^ 12 * b2n (decide ((h : Int) ≠ v))))
  ∃ a b, MetDoesTo (.pmapSwap a b) a 1
    (fun u => (u.myReg b).toNat < 1024 ∧ (u.myReg b).toNat % 32 ≠ 31 ∧ tuneRefused u (clusterOf u.cur) = false)
    (fun u => u.modMyPontoon fun po => (swapLines po u.tide (u.myReg b).toNat).1)
    (fun u =>
      let r := swapLines u.myPontoon u.tide (u.myReg b).toNat
      wNat (sigmaOf u.myPontoon ((u.myReg b).toNat + 1) + 2 ^ 12 * b2n r.2)) :=
  ⟨5, 6, _, (one [(6, 33)] (id) id fun k => { k with pontoonUp := true, pontoon := { sigma := [(33, 2), (34, 1)] } }), (by decide +kernel), (by decide +kernel), ⟨(by decide +kernel), (by decide +kernel), (by decide +kernel)⟩, (ok_unit_of_isOk (by decide +kernel)), (by decide +kernel)⟩

theorem met_TuningCompletes_14 :
  let heats := fun (u : State) (a : BitVec 6) (x : Nat) (v : Int) =>
    let h := (max 0 (min v 4095)).toNat
    (u.modMyPontoon fun po => setHeater po u.tide x h).landG 1 a (wNat (h + 2 ^ 12 * b2n (decide ((h : Int) ≠ v))))
  ∃ a b, MetDoesTo (.pmapIdent a b) a 1
    (fun u => (u.myReg b).toNat < 1024 ∧ (u.myReg b).toNat % 32 = 0 ∧ tuneRefused u (clusterOf u.cur) = false)
    (fun u => u.modMyPontoon fun po => (identBank po u.tide (u.myReg b).toNat).1)
    (fun u => wNat (2 ^ 12 * b2n (identBank u.myPontoon u.tide (u.myReg b).toNat).2)) :=
  ⟨5, 6, _, (one [(6, 32)] (id) id fun k => { k with pontoonUp := true, pontoon := { sigma := [(33, 2), (34, 1)] } }), (by decide +kernel), (by decide +kernel), ⟨(by decide +kernel), (by decide +kernel), (by decide +kernel)⟩, (ok_unit_of_isOk (by decide +kernel)), (by decide +kernel)⟩

theorem met_TuningCompletes_15 :
  let heats := fun (u : State) (a : BitVec 6) (x : Nat) (v : Int) =>
    let h := (max 0 (min v 4095)).toNat
    (u.modMyPontoon fun po => setHeater po u.tide x h).landG 1 a (wNat (h + 2 ^ 12 * b2n (decide ((h : Int) ≠ v))))
  ∃ a b, MetDoesTo (.pmapSwap a b) a 1
    (fun u => (u.myReg b).toNat < 1024 ∧ (u.myReg b).toNat % 32 ≠ 31 ∧ tuneRefused u (clusterOf u.cur) = true)
    id (fun _ => wNat (2 ^ 13)) :=
  ⟨5, 6, _, (one [(6, 33)]), (by decide +kernel), (by decide +kernel), ⟨(by decide +kernel), (by decide +kernel), (by decide +kernel)⟩, (ok_unit_of_isOk (by decide +kernel)), (by decide +kernel)⟩

theorem met_TuningCompletes_16 :
  let heats := fun (u : State) (a : BitVec 6) (x : Nat) (v : Int) =>
    let h := (max 0 (min v 4095)).toNat
    (u.modMyPontoon fun po => setHeater po u.tide x h).landG 1 a (wNat (h + 2 ^ 12 * b2n (decide ((h : Int) ≠ v))))
  ∃ a b, MetDoesTo (.pmapIdent a b) a 1
    (fun u => (u.myReg b).toNat < 1024 ∧ (u.myReg b).toNat % 32 = 0 ∧ tuneRefused u (clusterOf u.cur) = true)
    id (fun _ => wNat (2 ^ 13)) :=
  ⟨5, 6, _, (one [(6, 32)]), (by decide +kernel), (by decide +kernel), ⟨(by decide +kernel), (by decide +kernel), (by decide +kernel)⟩, (ok_unit_of_isOk (by decide +kernel)), (by decide +kernel)⟩

theorem met_TuningCompletes_17 :
  let heats := fun (u : State) (a : BitVec 6) (x : Nat) (v : Int) =>
    let h := (max 0 (min v 4095)).toNat
    (u.modMyPontoon fun po => setHeater po u.tide x h).landG 1 a (wNat (h + 2 ^ 12 * b2n (decide ((h : Int) ≠ v))))
  ∃ a sel, MetDoesTo (.pstat a sel) a 2 (fun _ => sel.toNat ≤ 4) id
    (fun u => wNat (pstatWord u (clusterOf u.cur) sel.toNat)) :=
  ⟨5, 2, _, (one [] (id) id fun k => { k with pontoonUp := true, pontoon := { retunes := 5 } }), (by decide +kernel), (by decide +kernel), (by decide +kernel), (ok_unit_of_isOk (by decide +kernel)), (by decide +kernel)⟩

theorem met_TuningCompletes_18 :
  let heats := fun (u : State) (a : BitVec 6) (x : Nat) (v : Int) =>
    let h := (max 0 (min v 4095)).toNat
    (u.modMyPontoon fun po => setHeater po u.tide x h).landG 1 a (wNat (h + 2 ^ 12 * b2n (decide ((h : Int) ≠ v))))
  ∃ a b, MetDoesTo (.paccRdN a b) a 1 (fun u => (u.myReg b).toNat < 2 ^ 11) id (fun u =>
    let x := (u.myReg b).toNat
    match parkedAcc u.myPontoon with
    | some (d, n, _) => if x % 64 < d then w64 (n.get (64 * (x / 64) + x % 64) 0) else wNat (2 ^ 63)
    | none => wNat (2 ^ 63)) :=
  ⟨5, 6, _, (one [(6, 64)] (id) id fun k => { k with pontoonUp := true, pontoon := { job := some { req := { vrec := 0 }, parked := 1, n := [(64, -3)] } } }), (by decide +kernel), (by decide +kernel), (by decide +kernel), (ok_unit_of_isOk (by decide +kernel)), (by decide +kernel)⟩

theorem met_TuningCompletes_19 :
  let heats := fun (u : State) (a : BitVec 6) (x : Nat) (v : Int) =>
    let h := (max 0 (min v 4095)).toNat
    (u.modMyPontoon fun po => setHeater po u.tide x h).landG 1 a (wNat (h + 2 ^ 12 * b2n (decide ((h : Int) ≠ v))))
  ∃ a b, MetDoesTo (.paccRdP a b) a 1 (fun u => (u.myReg b).toNat < 2 ^ 11) id (fun u =>
    let x := (u.myReg b).toNat
    match parkedAcc u.myPontoon with
    | some (d, _, p) => if x % 64 < d then wNat (p.get (64 * (x / 64) + x % 64) 0) else wNat (2 ^ 63)
    | none => wNat (2 ^ 63)) :=
  ⟨5, 6, _, (one [(6, 64)] (id) id fun k => { k with pontoonUp := true, pontoon := { job := some { req := { vrec := 0 }, parked := 1, a := [(64, 3)] } } }), (by decide +kernel), (by decide +kernel), (by decide +kernel), (ok_unit_of_isOk (by decide +kernel)), (by decide +kernel)⟩

theorem met_TowHeadsComplete_1 :
  ∃ a b c rr v w, MetDoesOnceTo (.towEnter a b c) a 2
    (fun u =>
      let r : Request := { op := 0xAB, vrec := u.me.r.readV b.toNat }
      let x := u.myReg c
      let first := if x = 0 then r.dw 0 else wNat ((rr.getD 0 0 : Word).toNat / 2 ^ 6 % 2 ^ 42 * 64)
      towRecBad r = false ∧ (r.dw 0).toNat < 2 ^ 48 ∧ inEngineSpace u (r.dw 5) = true ∧
      (if x = 0 then rr = [] ∧ v = u
       else ∃ l u1 n, check x 64 64 .load u = .ok l u1 ∧ readLoc x l 64 u1.cur u1 = .ok n v ∧
         rr = (List.range 8).map fun i => wNat (n / 2 ^ (64 * i) % 2 ^ 64)) ∧
      (∃ p, translate v (hartQOf (seqHart (clusterOf v.cur))) u.me.vf first.toNat .tow = .ok (w, p)) ∧
      ((r.dw 4).getLsbD 4 = true → handlerRing (ringOf w (clusterOf w.cur) ((r.dw 4).toNat % 16)) = true) ∧
      canKick w (seqHart (clusterOf v.cur)) = true)
    (fun u =>
      let r : Request := { op := 0xAB, vrec := u.me.r.readV b.toNat }
      let m := captureMode u.me.r.fcsr ((r.dw 1).toNat / 2 ^ 15 % 8)
      engineKicked u w (seqHart (clusterOf v.cur)) u.me.seqTow (fun n p => { p with seqTow := n }) m (u.myReg c == 0 && m == 5)
        { r with args := u.myReg c :: rr })
    (fun u => requestId u u.me.seqTow) :=
  ⟨5, 8, 7, [], _, _, _, (one [] (fun p => { p with r := { p.r with v := p.r.v.setIfInBounds 8 (BitVec.ofNat 512 (0x4000 + 2 ^ 128 + 0x5000 * 2 ^ 320)) } })), (by decide +kernel), ⟨(by decide +kernel), (by decide +kernel), (by decide +kernel), ⟨rfl, rfl⟩, ⟨_, (fine_pair (by decide +kernel))⟩, (by decide +kernel), (by decide +kernel)⟩, (ok_unit_of_isOk (by decide +kernel)), (by decide +kernel)⟩

theorem met_TowHeadsComplete_2 : ∃ a b rid g, MetAwaits (.towExit a b) a (fun u => u.myReg b = rid ∧ rid.toNat < 2 ^ 20 ∧ coreOf u.cur = g)
    (fun u => towQueued u g rid || (towNamed u g rid).isSome) :=
  ⟨5, 6, 0x20, 0, ⟨_, (one [(6, 0x20)]), (by decide +kernel), (by decide +kernel), ⟨⟨(by decide +kernel), (by decide +kernel), (by decide +kernel)⟩, (not_engine (by decide +kernel)), (by decide +kernel)⟩, (ok_unit_of_isOk (by decide +kernel)), (by decide +kernel)⟩, ⟨_, (one [(6, 0x20)] fun p => { p with wait := .engine 900 }), (by decide +kernel), (by decide +kernel), ⟨⟨(by decide +kernel), (by decide +kernel), (by decide +kernel)⟩, ⟨900, (by decide +kernel)⟩, (by decide +kernel)⟩, (ok_unit_of_isOk (by decide +kernel)), (by decide +kernel)⟩⟩

theorem met_TowHeadsComplete_3 :
  ∃ a b rid g, MetDoesTo (.towExit a b) a 1
    (fun u => u.myReg b = rid ∧ rid.toNat < 2 ^ 20 ∧ coreOf u.cur = g ∧ (∀ t, u.me.wait ≠ .engine t) ∧ u.me.pcan = none ∧
      queueFull u (seqHart (g / 8)) = false ∧ (towQueued u g rid || (towNamed u g rid).isSome) = true ∧
      towQueued (exitTow g rid u) g rid = false ∧ towNamed (exitTow g rid u) g rid = none)
    (fun u => notCancelling (exitTow g rid u)) (fun _ => 0) :=
  ⟨5, 6, 0x20, 0, _, (one [(6, 0x20)] id id fun k => { k with pontoon := { tow := some { st := 2, req := { op := 0xAB, rid := 0x20 }, seq := 7, status := 3 } } }), (by decide +kernel), (by decide +kernel), ⟨(by decide +kernel), (by decide +kernel), (by decide +kernel), (not_engine (by decide +kernel)), (by decide +kernel), (by decide +kernel), (by decide +kernel)⟩, (ok_unit_of_isOk (by decide +kernel)), (by decide +kernel)⟩

theorem met_TowHeadsComplete_4 : ∃ a b rid g, MetAwaits (.towWait a b) a (fun u => u.myReg b = rid ∧ rid.toNat < 2 ^ 20 ∧ coreOf u.cur = g)
    (fun u => towOutstanding u g rid) :=
  ⟨5, 6, 0x20, 0, ⟨_, (one [(6, 0x20)]), (by decide +kernel), (by decide +kernel), ⟨⟨(by decide +kernel), (by decide +kernel), (by decide +kernel)⟩, (not_engine (by decide +kernel)), (by decide +kernel)⟩, (ok_unit_of_isOk (by decide +kernel)), (by decide +kernel)⟩, ⟨_, (one [(6, 0x20)] fun p => { p with wait := .engine 900 }), (by decide +kernel), (by decide +kernel), ⟨⟨(by decide +kernel), (by decide +kernel), (by decide +kernel)⟩, ⟨900, (by decide +kernel)⟩, (by decide +kernel)⟩, (ok_unit_of_isOk (by decide +kernel)), (by decide +kernel)⟩⟩

theorem met_TowHeadsComplete_5 :
  ∃ a b, MetDoesTo (.towStat a b) a 2 (fun u => (u.myReg b).toNat < 2 ^ 20) id
    (fun u => wNat (towStat u (coreOf u.cur) (u.myReg b))) :=
  ⟨5, 6, _, (one [(6, 0x20)] id id fun k => { k with pontoon := { tow := some { st := 2, req := { op := 0xAB, rid := 0x20 }, seq := 7, status := 3 } } }), (by decide +kernel), (by decide +kernel), (by decide +kernel), (ok_unit_of_isOk (by decide +kernel)), (by decide +kernel)⟩

theorem met_FordHeadsComplete_1 :
  ∃ a b att n, MetDoesTo (.fenrol a b att n) a 1
    (fun u => 1 ≤ n.toNat ∧ n.toNat ≤ 1024 ∧ granted u att.toNat = true ∧ (u.myReg b).toNat < 2 ^ 48 ∧
      (u.myReg b).toNat % 65536 = 0 ∧ enrolRefusal u att.toNat = none)
    (fun u => u.modFord att.toNat fun p => { p with
      enr := some (enrolment u), nent := n.toNat, base := u.myReg b, censusOk := p.censusOk && p.enr.isSome })
    (fun _ => 0) :=
  ⟨5, 6, 0, 3, _, ({ one [(6, 0x10000)] (id) with vfs := [(0, { fgnt := 1 })], fords := [(0, {  })], full := true, fseg := [(0, { lim := 1, algn := true })] }), (by decide +kernel), (by decide +kernel), ⟨(by decide +kernel), (by decide +kernel), (by decide +kernel), (by decide +kernel), (by decide +kernel), (by decide +kernel)⟩, (ok_unit_of_isOk (by decide +kernel)), (by decide +kernel)⟩

theorem met_FordHeadsComplete_2 :
  ∃ a b att n v, MetDoesTo (.fenrol a b att n) a 1
    (fun u => 1 ≤ n.toNat ∧ n.toNat ≤ 1024 ∧ granted u att.toNat = true ∧ (u.myReg b).toNat < 2 ^ 48 ∧
      (u.myReg b).toNat % 65536 = 0 ∧ enrolRefusal u att.toNat = some v)
    id (fun _ => wNat v) :=
  ⟨5, 6, 0, 3, 2, _, ({ one [(6, 0x10000)] (id) with vfs := [(0, { fgnt := 1 })], fords := [(0, {  })] }), (by decide +kernel), (by decide +kernel), ⟨(by decide +kernel), (by decide +kernel), (by decide +kernel), (by decide +kernel), (by decide +kernel), (by decide +kernel)⟩, (ok_unit_of_isOk (by decide +kernel)), (by decide +kernel)⟩

theorem met_FordHeadsComplete_3 :
  ∃ a att, MetDoesTo (.fleave a att) a 1
    (fun u => granted u att.toNat = true ∧ (u.ford att.toNat).enr ≠ some (enrolment u)) id (fun _ => 1) :=
  ⟨5, 0, _, ({ one [] (id) with vfs := [(0, { fgnt := 1 })], fords := [(0, {  })] }), (by decide +kernel), (by decide +kernel), ⟨(by decide +kernel), (by decide +kernel)⟩, (ok_unit_of_isOk (by decide +kernel)), (by decide +kernel)⟩

theorem met_FordHeadsComplete_4 :
  ∃ a att, MetDoesTo (.fleave a att) a 1
    (fun u => granted u att.toNat = true ∧ (u.ford att.toNat).enr = some (enrolment u) ∧
      fordBusyFor u att.toNat (enrolment u) = false)
    (fun u => u.modFord att.toNat fun p => { p with enr := none, nent := 0, base := 0 }) (fun _ => 0) :=
  ⟨5, 0, _, ({ one [] (id) with vfs := [(0, { fgnt := 1 })], fords := [(0, { enr := some (0, 1), nent := 4 })] }), (by decide +kernel), (by decide +kernel), ⟨(by decide +kernel), (by decide +kernel), (by decide +kernel)⟩, (ok_unit_of_isOk (by decide +kernel)), (by decide +kernel)⟩

theorem met_FordHeadsComplete_5 :
  ∃ (i : Instr) (a : _) (b : _) (c : _) (rm : BitVec 3) (ent : _) (att : _) (op : _), (i = .frb a b c rm ent att ∧ op = 0xB1 ∨ i = .fmax a b c ent att ∧ op = 0xB2 ∧ rm = 0 ∨
      i = .fmin a b c ent att ∧ op = 0xB3 ∧ rm = 0) ∧
    MetDoesOnceTo i a 2
      (fun u => regsOk b 4 = true ∧ granted u att.toNat = true ∧ (u.ford att.toNat).enr = some (enrolment u) ∧
        ent.toNat < (u.ford att.toNat).nent ∧ canKick u (fordHart att.toNat) = true)
      (fun u =>
        let m := captureMode u.me.r.fcsr rm.toNat
        engineKicked u u (fordHart att.toNat) u.me.seqFord (fun n p => { p with seqFord := n }) m (op == 0xB1 && m == 5)
          { op := op, sel := ent.toNat, base := (u.ford att.toNat).base
            args := ((u.regs b 4).map (peerForm u u.cur)) ++ [u.myReg c] })
      (fun u => requestId u u.me.seqFord) :=
  ⟨_, 5, 6, 7, 0, 3, 0, 0xB1, (.inl ⟨rfl, rfl⟩), _, ({ one [(6, 0x2000), (7, 0x3000), (8, 0x4000), (9, 0)] (id) with vfs := [(0, { fgnt := 1 })], fords := [(0, { enr := some (0, 1), nent := 4 })] }), (by decide +kernel), ⟨(by decide +kernel), (by decide +kernel), (by decide +kernel), (by decide +kernel), (by decide +kernel)⟩, (ok_unit_of_isOk (by decide +kernel)), (by decide +kernel)⟩

theorem met_FordHeadsComplete_6 :
  ∃ a att, MetDoesTo (.fpop a att) a 2 (fun u => granted u att.toNat = true) id (fun u =>
    let p := u.ford att.toNat
    wNat (((List.range 64).filter fun i => p.census.getLsbD i).length + 2 ^ 63 * b2n (!p.censusOk))) :=
  ⟨5, 0, _, ({ one [] (id) with vfs := [(0, { fgnt := 1 })], fords := [(0, { census := 7, censusOk := true })] }), (by decide +kernel), (by decide +kernel), (by decide +kernel), (ok_unit_of_isOk (by decide +kernel)), (by decide +kernel)⟩

theorem met_FordHeadsComplete_7 :
  ∃ a att t v, MetDoesTo (.falign a att t) a 1
    (fun u => t ≠ 0 ∧ granted u att.toNat = true ∧ (∀ c, u.me.wait ≠ .busy c) ∧ alignRefused u att.toNat = some v)
    id (fun _ => wNat v) :=
  ⟨5, 0, 9, 1, _, ({ one [] (id) with vfs := [(0, { fgnt := 1 })], fords := [(0, {  })] }), (by decide +kernel), (by decide +kernel), ⟨(by decide +kernel), (by decide +kernel), (not_busy (by decide +kernel)), (by decide +kernel)⟩, (ok_unit_of_isOk (by decide +kernel)), (by decide +kernel)⟩

theorem met_FordHeadsComplete_8 :
  ∃ a att t c v, MetDoesTo (.falign a att t) a 1
    (fun u => t ≠ 0 ∧ granted u att.toNat = true ∧ u.me.wait = .busy c ∧ (u.ford att.toNat).trained.find u.cur = some v)
    (fun u => u.modFord att.toNat fun p => { p with trained := p.trained.del u.cur }) (fun _ => wNat v) :=
  ⟨5, 0, 9, 900, 3, _, ({ one [] (fun p => { p with wait := .busy 900 }) with vfs := [(0, { fgnt := 1 })], fords := [(0, { trained := [(0, 3)] })] }), (by decide +kernel), (by decide +kernel), ⟨(by decide +kernel), (by decide +kernel), (by decide +kernel), (by decide +kernel)⟩, (ok_unit_of_isOk (by decide +kernel)), (by decide +kernel)⟩

theorem met_FordHeadsComplete_9 :
  ∃ a att t c, MetDoesTo (.falign a att t) a 1
    (fun u => t ≠ 0 ∧ granted u att.toNat = true ∧ u.me.wait = .busy c ∧ (u.ford att.toNat).trained.find u.cur = none ∧
      c.toNat + 1024 * t.toNat ≤ u.tide.toNat)
    (fun u => u.modFord att.toNat fun p => { p with training := p.training.erase u.cur }) (fun _ => 2) :=
  ⟨5, 0, 9, 900, _, ({ one [] (fun p => { p with wait := .busy 900 }) with vfs := [(0, { fgnt := 1 })], fords := [(0, { training := [0] })], tide := 20000 }), (by decide +kernel), (by decide +kernel), ⟨(by decide +kernel), (by decide +kernel), (by decide +kernel), (by decide +kernel), (by decide +kernel)⟩, (ok_unit_of_isOk (by decide +kernel)), (by decide +kernel)⟩

theorem met_FordHeadsComplete_10 :
  ∃ a att sel, MetDoesTo (.fstat a att sel) a 2 (fun u => sel.toNat ≤ 3 ∧ granted u att.toNat = true) id
    (fun u => wNat (fstatWord u att.toNat sel.toNat)) :=
  ⟨5, 0, 1, _, ({ one [] (id) with vfs := [(0, { fgnt := 1 })], fords := [(0, { census := 7, censusOk := true })] }), (by decide +kernel), (by decide +kernel), ⟨(by decide +kernel), (by decide +kernel)⟩, (ok_unit_of_isOk (by decide +kernel)), (by decide +kernel)⟩

theorem met_FordMicrocodeCompletes_1 :
  let at_ := fun (u : State) => hartIx u.cur - 13440
  ∃ a r v w j, MetDoes (.femitTake a)
    (fun u => popFord u (at_ u) = some (r, v) ∧ takeFord v (at_ u) r = (w, j) ∧ j.waits = none)
    (fun u => ((setHand w (at_ u) j).modProc w.cur fun p => { p with vf := r.vf }).landG 1 a
      (wNat ((r.op - 0xB0) + 2 ^ 2 * b2n j.fromTow + 2 ^ 16 * (r.rid.toNat % 2 ^ 32) + 2 ^ 56 * j.fail.getD 0))) :=
  ⟨5, _, _, _, _, ({ hart 13440 [] (id) (fun e => { e with queue := [{ op := 0xB2, rid := 16, sel := 0, base := 0x10000, args := [0x2000, 0x3000, 0, 0] }] }) with fords := [(0, {  })] }), (by decide +kernel), (by decide +kernel), ⟨(some_pair (by decide +kernel)), (pair_eta _), (by decide +kernel)⟩, (by decide +kernel)⟩

theorem met_FordMicrocodeCompletes_2 :
  let at_ := fun (u : State) => hartIx u.cur - 13440
  ∃ a b j w j', MetDoes (.femitLoad a b)
    (fun u => u.hand = some j ∧ u.myReg b = 0 ∧ loadFord u (at_ u) j = (w, j') ∧ j'.waits = none)
    (fun u => (setHand w (at_ u) j').landG 1 a (wNat (j'.fail.getD 0))) :=
  ⟨5, 6, { req := { op := 0xB2, rid := 16, sel := 0, base := 0x10000, args := [0x2000, 0x3000, 0, 0] }, used := [0], last := [3], res := [-4], agreed := [9], ent := [] }, _, _, ({ hart 13440 [] (id) (id) with fords := [(0, { hand := some { req := { op := 0xB2, rid := 16, sel := 0, base := 0x10000, args := [0x2000, 0x3000, 0, 0] }, used := [0], last := [3], res := [-4], agreed := [9], ent := [] } })] }), (by decide +kernel), (by decide +kernel), ⟨(by decide +kernel), (by decide +kernel), (pair_eta _), (by decide +kernel)⟩, (by decide +kernel)⟩

theorem met_FordMicrocodeCompletes_3 :
  let at_ := fun (u : State) => hartIx u.cur - 13440
  ∃ a b j, MetDoes (.femitLoad a b) (fun u => u.hand = some j ∧ u.myReg b = 1)
    (fun u => (setHand u (at_ u) (realign j)).landG 1 a 0) :=
  ⟨5, 6, { req := { op := 0xB2, rid := 16, sel := 0, base := 0x10000, args := [0x2000, 0x3000, 0, 0] }, used := [0], last := [3], res := [-4], agreed := [9], ent := [] }, ({ hart 13440 [(6, 1)] (id) (id) with fords := [(0, { hand := some { req := { op := 0xB2, rid := 16, sel := 0, base := 0x10000, args := [0x2000, 0x3000, 0, 0] }, used := [0], last := [3], res := [-4], agreed := [9], ent := [] } })] }), (by decide +kernel), (by decide +kernel), ⟨(by decide +kernel), (by decide +kernel)⟩, (by decide +kernel)⟩

theorem met_FordMicrocodeCompletes_4 :
  let at_ := fun (u : State) => hartIx u.cur - 13440
  ∃ a b j c, MetDoes (.femitFrame a b)
    (fun u => u.hand = some j ∧ (∀ t, u.me.wait ≠ .engine t) ∧ (u.myReg b).toNat < j.total ∧ j.fail = some c)
    (fun u => u.landG 1 a (wNat (c + 2 ^ 25 * b2n j.late))) :=
  ⟨5, 6, { req := { op := 0xB2, rid := 16, sel := 0, base := 0x10000, args := [0x2000, 0x3000, 0, 0] }, used := [0], last := [3], res := [-4], agreed := [9], ent := [], fail := some 5, late := true }, 5, ({ hart 13440 [(6, 0)] (id) (id) with fords := [(0, { hand := some { req := { op := 0xB2, rid := 16, sel := 0, base := 0x10000, args := [0x2000, 0x3000, 0, 0] }, used := [0], last := [3], res := [-4], agreed := [9], ent := [], fail := some 5, late := true } })] }), (by decide +kernel), (by decide +kernel), ⟨(by decide +kernel), (not_engine (by decide +kernel)), (by decide +kernel), (by decide +kernel)⟩, (by decide +kernel)⟩

theorem met_FordMicrocodeCompletes_5 :
  let at_ := fun (u : State) => hartIx u.cur - 13440
  ∃ a b j, MetDoes (.femitFrame a b)
    (fun u => u.hand = some j ∧ (∀ t, u.me.wait ≠ .engine t) ∧ (u.myReg b).toNat < j.total ∧ j.fail = none ∧ j.fbk = true ∧
      j.frames = j.total)
    (fun u => u.landG 1 a 0) :=
  ⟨5, 6, { req := { op := 0xB2, rid := 16, sel := 0, base := 0x10000, args := [0x2000, 0x3000, 0, 0] }, used := [0], last := [3], res := [-4], agreed := [9], ent := [], fbk := true, frames := 1 }, ({ hart 13440 [(6, 0)] (id) (id) with fords := [(0, { hand := some { req := { op := 0xB2, rid := 16, sel := 0, base := 0x10000, args := [0x2000, 0x3000, 0, 0] }, used := [0], last := [3], res := [-4], agreed := [9], ent := [], fbk := true, frames := 1 } })] }), (by decide +kernel), (by decide +kernel), ⟨(by decide +kernel), (not_engine (by decide +kernel)), (by decide +kernel), (by decide +kernel), (by decide +kernel), (by decide +kernel)⟩, (by decide +kernel)⟩

theorem met_FordMicrocodeCompletes_6 :
  let at_ := fun (u : State) => hartIx u.cur - 13440
  ∃ a b j, MetDoes (.femitFrame a b)
    (fun u => u.hand = some j ∧ (∀ t, u.me.wait ≠ .engine t) ∧ (u.myReg b).toNat < j.total ∧ j.fail = none ∧ j.fbk = false ∧
      j.start (u.myReg b).toNat < leadTick u (at_ u))
    (fun u => (setHand u (at_ u)
        { j with fail := some FORD_GUARD, late := true, failFrame := (u.myReg b).toNat }).landG 1 a (wNat (FORD_GUARD + 2 ^ 25))) :=
  ⟨5, 6, { req := { op := 0xB2, rid := 16, sel := 0, base := 0x10000, args := [0x2000, 0x3000, 0, 0] }, used := [0], last := [3], res := [-4], agreed := [9], ent := [] }, ({ hart 13440 [(6, 0)] (id) (id) with fords := [(0, { hand := some { req := { op := 0xB2, rid := 16, sel := 0, base := 0x10000, args := [0x2000, 0x3000, 0, 0] }, used := [0], last := [3], res := [-4], agreed := [9], ent := [] } })] }), (by decide +kernel), (by decide +kernel), ⟨(by decide +kernel), (not_engine (by decide +kernel)), (by decide +kernel), (by decide +kernel), (by decide +kernel), (by decide +kernel)⟩, (by decide +kernel)⟩

theorem met_FordMicrocodeCompletes_7 :
  let at_ := fun (u : State) => hartIx u.cur - 13440
  ∃ a b j t, MetDoes (.femitFrame a b)
    (fun u => u.hand = some j ∧ u.me.wait = .engine t ∧ (j.want = none ∨ j.fail.isSome = true))
    (fun u => u.landG 1 a
      (wNat (j.fail.getD 0 + (if j.fail = some FORD_GUARD then 2 ^ 8 * j.failWin + 2 ^ 24 * b2n j.pop else 0) +
        2 ^ 16 * j.used.foldl (· + ·) 0 + 2 ^ 25 * b2n j.late))) :=
  ⟨5, 6, { req := { op := 0xB2, rid := 16, sel := 0, base := 0x10000, args := [0x2000, 0x3000, 0, 0] }, used := [0], last := [3], res := [-4], agreed := [9], ent := [] }, 900, ({ hart 13440 [(6, 0)] (fun p => { p with wait := .engine 900 }) (id) with fords := [(0, { hand := some { req := { op := 0xB2, rid := 16, sel := 0, base := 0x10000, args := [0x2000, 0x3000, 0, 0] }, used := [0], last := [3], res := [-4], agreed := [9], ent := [] } })] }), (by decide +kernel), (by decide +kernel), ⟨(by decide +kernel), (by decide +kernel), .inl (by decide +kernel)⟩, (by decide +kernel)⟩

theorem met_FordMicrocodeCompletes_8 :
  let at_ := fun (u : State) => hartIx u.cur - 13440
  ∃ a b j w c, MetDoes (.femitDone a b)
    (fun u => u.hand = some j ∧ finishFord u (at_ u) j ((u.myReg b).toNat % 2 ^ 8) = (w, some c))
    (fun _ => w.landG 1 a (wNat c)) :=
  ⟨5, 6, { req := { op := 0xB2, rid := 16, sel := 0, base := 0x10000, args := [0x2000, 0x3000, 0, 0] }, used := [0], last := [3], res := [-4], agreed := [9], ent := [], fail := some 5, late := true }, _, _, ({ hart 13440 [(6, 5)] (id) (id) with fords := [(0, { hand := some { req := { op := 0xB2, rid := 16, sel := 0, base := 0x10000, args := [0x2000, 0x3000, 0, 0] }, used := [0], last := [3], res := [-4], agreed := [9], ent := [], fail := some 5, late := true } })] }), (by decide +kernel), (by decide +kernel), ⟨(by decide +kernel), (pair_value (by decide +kernel))⟩, (by decide +kernel)⟩

theorem met_FordMicrocodeCompletes_9 :
  let at_ := fun (u : State) => hartIx u.cur - 13440
  ∃ a b c j, MetDoes (.fcountRd a b c) (fun u => u.hand = some j) (fun u =>
    let n := (u.myReg b).toNat
    let x := (u.myReg c).toNat
    u.landG 1 a (if n < j.used.length ∧ x % 4 ≤ 2 ∧ x / 2 ^ 7 % 4 ≤ 2 ∧ x < 2 ^ 9 then
      if j.used.getD n 0 < x / 2 ^ 7 then 0 else wNat (j.last.getD ((3 * n + x / 2 ^ 7) * 96 + 32 * (x % 4) + x / 4 % 32) 0) else wNat (2 ^ 63))) :=
  ⟨5, 6, 7, { req := { op := 0xB2, rid := 16, sel := 0, base := 0x10000, args := [0x2000, 0x3000, 0, 0] }, used := [0], last := [3], res := [-4], agreed := [9], ent := [] }, ({ hart 13440 [(6, 0), (7, 0)] (id) (id) with fords := [(0, { hand := some { req := { op := 0xB2, rid := 16, sel := 0, base := 0x10000, args := [0x2000, 0x3000, 0, 0] }, used := [0], last := [3], res := [-4], agreed := [9], ent := [] } })] }), (by decide +kernel), (by decide +kernel), (by decide +kernel), (by decide +kernel)⟩

theorem met_FordMicrocodeCompletes_10 :
  let at_ := fun (u : State) => hartIx u.cur - 13440
  ∃ a b j, MetDoes (.fcountEl a b) (fun u => u.hand = some j) (fun u =>
    u.landG 1 a (match j.res[(u.myReg b).toNat]? with
      | some x => w64 (agreedElem j x)
      | none => wNat (2 ^ 63))) :=
  ⟨5, 6, { req := { op := 0xB2, rid := 16, sel := 0, base := 0x10000, args := [0x2000, 0x3000, 0, 0] }, used := [0], last := [3], res := [-4], agreed := [9], ent := [] }, ({ hart 13440 [(6, 0)] (id) (id) with fords := [(0, { hand := some { req := { op := 0xB2, rid := 16, sel := 0, base := 0x10000, args := [0x2000, 0x3000, 0, 0] }, used := [0], last := [3], res := [-4], agreed := [9], ent := [] } })] }), (by decide +kernel), (by decide +kernel), (by decide +kernel), (by decide +kernel)⟩

theorem met_FordMicrocodeCompletes_11 :
  let at_ := fun (u : State) => hartIx u.cur - 13440
  ∃ a b j, MetDoes (.fcountEx a b) (fun u => u.hand = some j) (fun u =>
    u.landG 1 a (match j.agreed[(u.myReg b).toNat]? with
      | some x => wNat x
      | none => wNat (2 ^ 63))) :=
  ⟨5, 6, { req := { op := 0xB2, rid := 16, sel := 0, base := 0x10000, args := [0x2000, 0x3000, 0, 0] }, used := [0], last := [3], res := [-4], agreed := [9], ent := [] }, ({ hart 13440 [(6, 0)] (id) (id) with fords := [(0, { hand := some { req := { op := 0xB2, rid := 16, sel := 0, base := 0x10000, args := [0x2000, 0x3000, 0, 0] }, used := [0], last := [3], res := [-4], agreed := [9], ent := [] } })] }), (by decide +kernel), (by decide +kernel), (by decide +kernel), (by decide +kernel)⟩

theorem met_LinkHeadsComplete_1 :
  ∃ a, MetDoesTo (.rtv a) a 2 (fun _ => True) id (fun u =>
    wNat (u.fab.ver + 2 ^ 16 * u.fab.node + 2 ^ 28 * b2n (u.switches.any fun e => e.2.st != 0) +
      2 ^ 29 * b2n (u.fab.trefEn && (u.fab.node == u.fab.rnode ||
        u.fab.near && u.fab.refFull == u.full && u.fab.syncPorts.any fun p => (u.port p).st == 2)))) :=
  ⟨5, _, ({ one [] (id) with fab := { ver := 3, node := 5, rnode := 5, trefEn := true } }), (by decide +kernel), (by decide +kernel), trivial, (ok_unit_of_isOk (by decide +kernel)), (by decide +kernel)⟩

theorem met_LinkHeadsComplete_2 :
  ∃ a b sw v, MetDoesTo (.ttselSw a b sw v) a 1
    (fun u =>
      let c := u.switch sw.toNat
      let r := stepOf c v.toNat 0
      mayArm u sw.toNat = true ∧ c.st = 0 ∧ versionOk u sw.toNat v.toNat = true ∧
      u.tide.toNat + r.dl + 64 ≤ (u.myReg b).toNat ∧ u.fab.sver = r.rver)
    (fun u => u.modSwitch sw.toNat fun c => { c with st := 1, slot := v.toNat, step := 0, armed := u.myReg b, phase := 0 })
    (fun _ => 0) :=
  ⟨5, 6, 0, 0, _, ({ one [(6, 5000)] (id) with switches := [(0, { gen := true, tt := [(0, 0x101), (10, 1024 + 1200 * 2 ^ 32), (11, 12000)] })] }), (by decide +kernel), (by decide +kernel), ⟨(by decide +kernel), (by decide +kernel), (by decide +kernel), (by decide +kernel), (by decide +kernel)⟩, (ok_unit_of_isOk (by decide +kernel)), (by decide +kernel)⟩

theorem met_LinkHeadsComplete_3 :
  ∃ a b sw v, MetDoesTo (.ttselSw a b sw v) a 1
    (fun u =>
      let c := u.switch sw.toNat
      let r := stepOf c v.toNat 0
      mayArm u sw.toNat = true ∧ ¬ (c.st = 0 ∧ versionOk u sw.toNat v.toNat = true ∧
        u.tide.toNat + r.dl + 64 ≤ (u.myReg b).toNat ∧ u.fab.sver = r.rver))
    id (fun u =>
      let c := u.switch sw.toNat
      if c.st ≠ 0 then 3 else if versionOk u sw.toNat v.toNat = false then 1
      else if (u.myReg b).toNat < u.tide.toNat + (stepOf c v.toNat 0).dl + 64 then 2 else 4) :=
  ⟨5, 6, 0, 0, _, ({ one [(6, 500)] (id) with switches := [(0, { gen := true, tt := [(0, 0x101), (10, 1024 + 1200 * 2 ^ 32), (11, 12000)] })] }), (by decide +kernel), (by decide +kernel), ⟨(by decide +kernel), (by decide +kernel)⟩, (ok_unit_of_isOk (by decide +kernel)), (by decide +kernel)⟩

theorem met_LinkHeadsComplete_4 :
  ∃ a att v, MetDoesTo (.ttselSeg a att v) a 1
    (fun u => mayTime u att.toNat = true ∧ fordBusy u att.toNat = true) id (fun _ => 3) :=
  ⟨5, 0, 2, _, ({ one [] (id) with vfs := [(0, { fgnt := 1 })], fords := [(0, { hand := some {} })] }), (by decide +kernel), (by decide +kernel), ⟨(by decide +kernel), (by decide +kernel)⟩, (ok_unit_of_isOk (by decide +kernel)), (by decide +kernel)⟩

theorem met_LinkHeadsComplete_5 :
  ∃ a att v, MetDoesTo (.ttselSeg a att v) a 1
    (fun u => mayTime u att.toNat = true ∧ fordBusy u att.toNat = false)
    (fun u => { u with ttvs := u.ttvs.put (u.seg att.toNat).sgid v.toNat }) (fun _ => 0) :=
  ⟨5, 0, 2, _, ({ one [] (id) with vfs := [(0, { fgnt := 1 })] }), (by decide +kernel), (by decide +kernel), ⟨(by decide +kernel), (by decide +kernel)⟩, (ok_unit_of_isOk (by decide +kernel)), (by decide +kernel)⟩

theorem met_LinkHeadsComplete_6 :
  ∃ a b p, MetDoesTo (.lnkst a b p 0) a 1 (fun _ => p.toNat < 48) id (fun u =>
    let x := u.port p.toNat
    wNat (x.st + 2 ^ 3 * b2n (portHeld u p.toNat) + 2 ^ 4 * x.peerNode + 2 ^ 16 * x.peerPort + 2 ^ 22 * x.retrains +
      2 ^ 38 * x.uncorr)) :=
  ⟨5, 0, 3, _, ({ one [] (id) with ports := [(3, { st := 2, peerNode := 5, retrains := 7, uncorr := 2, lost := 4, nacks := 1, bins := [(18, 6)] })] }), (by decide +kernel), (by decide +kernel), (by decide +kernel), (ok_unit_of_isOk (by decide +kernel)), (by decide +kernel)⟩

theorem met_LinkHeadsComplete_7 :
  ∃ a b p, MetDoesTo (.lnkst a b p 1) a 1
    (fun u => p.toNat < 48 ∧ (u.myReg b).toNat < 2 ^ 11 ∧ (u.myReg b).toNat / 2 ^ 6 ≤ 16) id (fun u =>
    wNat ((u.port p.toNat).bins.get (17 * ((u.myReg b).toNat % 64) + (u.myReg b).toNat / 64) 0)) :=
  ⟨5, 6, 3, _, ({ one [(6, 65)] (id) with ports := [(3, { st := 2, peerNode := 5, retrains := 7, uncorr := 2, lost := 4, nacks := 1, bins := [(18, 6)] })] }), (by decide +kernel), (by decide +kernel), ⟨(by decide +kernel), (by decide +kernel), (by decide +kernel)⟩, (ok_unit_of_isOk (by decide +kernel)), (by decide +kernel)⟩

theorem met_LinkHeadsComplete_8 :
  ∃ a b p, MetDoesTo (.lnkst a b p 2) a 1 (fun _ => p.toNat < 48) id
    (fun u => wNat ((u.port p.toNat).lost + 2 ^ 32 * (u.port p.toNat).nacks)) :=
  ⟨5, 0, 3, _, ({ one [] (id) with ports := [(3, { st := 2, peerNode := 5, retrains := 7, uncorr := 2, lost := 4, nacks := 1, bins := [(18, 6)] })] }), (by decide +kernel), (by decide +kernel), (by decide +kernel), (ok_unit_of_isOk (by decide +kernel)), (by decide +kernel)⟩

theorem met_LinkHeadsComplete_9 :
  ∃ a p, MetDoesTo (.pilotst a p) a 1 (fun _ => True) id (fun u =>
    let x := u.pilot p.toNat
    let q := hartQOf (13457 + p.toNat)
    wNat ((if (u.proc q).stopped then 2 else x.st) + 2 ^ 2 * x.resets + 2 ^ 18 * x.retrains +
      2 ^ 34 * ((u.proc q).version % 2 ^ 16))) :=
  ⟨5, 3, _, ({ one [] (id) with pilots := [(3, { st := 1, resets := 4, retrains := 9 })] }), (by decide +kernel), (by decide +kernel), trivial, (ok_unit_of_isOk (by decide +kernel)), (by decide +kernel)⟩

theorem met_TollhouseHeadsComplete_1 :
  MetDoes .dbgsigHalt (fun u => isHart u.cur = true ∨ u.myCluster.tdctl.getLsbD 0 = false) (fun u =>
    (List.range 8).foldl (fun t k =>
      let q := ctl (8 * clusterOf u.cur + k)
      if (t.proc q).st == .live then raiseAsync t q DEBUG_HALT (wNat (t.core (8 * clusterOf u.cur)).vcl) else t) u) :=
  ⟨(one [] id (fun c => { c with hbind := 0 }) fun k => { k with tdctl := 8 }), (by decide +kernel), (by decide +kernel), .inr (by decide +kernel), (by decide +kernel)⟩

theorem met_TollhouseHeadsComplete_2 : ∃ s, ready s .dbgsigHalt = true ∧ alone s = true ∧ isHart (beginHead s .dbgsigHalt).cur = false ∧ (beginHead s .dbgsigHalt).myCluster.tdctl.getLsbD 0 = true :=
  ⟨one [] id (fun c => { c with hbind := 0 }) fun k => { k with tdctl := 9 }, (by decide +kernel), (by decide +kernel), (by decide +kernel), (by decide +kernel)⟩

theorem met_TollhouseHeadsComplete_3 :
  MetDoes .dbgsigTrig (fun _ => True) (fun u =>
    if u.myCluster.tdctl.getLsbD 2 then
      (triggered u (clusterOf u.cur)).foldr (fun c t => t.pushTurn .crossTriggerReceive { a := c, b := clusterOf u.cur, c := u.cur }) u
    else u) :=
  ⟨(one [] id (fun c => { c with hbind := 0 }) fun k => { k with tdctl := 12 }), (by decide +kernel), (by decide +kernel), trivial, (by decide +kernel)⟩

theorem met_TollhouseHeadsComplete_4 :
  ∃ v, MetDoes (.dbgsigMark v) (fun _ => True) (fun u =>
    if (u.cluster (coreOf u.cur / 8)).tdctl.getLsbD (4 + coreOf u.cur % 8) then
      u.modCore (coreOf u.cur) fun c => { c with
        trace := (if c.trace.length < 256 then c.trace else c.trace.drop 1) ++
          [wNat (v.toNat % 2 ^ 15 + 2 ^ 16 + 2 ^ 19 * u.cur + 2 ^ 52 * (u.tide.toNat % 2 ^ 12))]
        traceEver := if c.traceEver < 2 ^ 32 - 1 then c.traceEver + 1 else c.traceEver }
    else u) :=
  ⟨5, (one [] id (fun c => { c with hbind := 0 }) fun k => { k with tdctl := 16 }), (by decide +kernel), (by decide +kernel), trivial, (by decide +kernel)⟩

theorem met_TollhouseHeadsComplete_5 :
  ∃ a dw i, MetDoesTo (.imbRd a dw true i) a 1 (fun _ => True) id
    (fun u => wNat (u.myCluster.imb.length + 2 ^ 32 * u.myCluster.imbLost)) :=
  ⟨5, 0, 0, _, (one [] id (fun c => { c with hbind := 0 }) fun k => { k with imb := [[7]], imbLost := 2 }), (by decide +kernel), (by decide +kernel), trivial, (ok_unit_of_isOk (by decide +kernel)), (by decide +kernel)⟩

theorem met_TollhouseHeadsComplete_6 :
  ∃ a dw i, MetDoesTo (.imbRd a dw false i) a 1 (fun _ => True) id (fun u =>
    match u.myCluster.imb[i.toNat]? with
    | none => wNat (2 ^ 63)
    | some e => e.getD dw.toNat 0) :=
  ⟨5, 0, 0, _, (one [] id (fun c => { c with hbind := 0 }) fun k => { k with imb := [[7]], imbLost := 2 }), (by decide +kernel), (by decide +kernel), trivial, (ok_unit_of_isOk (by decide +kernel)), (by decide +kernel)⟩

theorem met_TollhouseHeadsComplete_7 :
  ∃ a i, MetDoesTo (.trcRdEnt a i) a 1 (fun _ => True) id (fun u => u.myCore.trace.getD i.toNat (wNat (2 ^ 63))) :=
  ⟨5, 1, _, (one [] id (fun c => { c with trace := [4, 9], traceEver := 8 }) fun k => { k with xwd := 16384 }), (by decide +kernel), (by decide +kernel), trivial, (ok_unit_of_isOk (by decide +kernel)), (by decide +kernel)⟩

theorem met_TollhouseHeadsComplete_8 :
  ∃ a, MetDoesTo (.trcRdCnt a) a 1 (fun _ => True) id (fun u => wNat (u.myCore.trace.length + 2 ^ 9 * u.myCore.traceEver)) :=
  ⟨5, _, (one [] id (fun c => { c with trace := [4, 9], traceEver := 8 }) fun k => { k with xwd := 16384 }), (by decide +kernel), (by decide +kernel), trivial, (ok_unit_of_isOk (by decide +kernel)), (by decide +kernel)⟩

theorem met_TollhouseHeadsComplete_9 :
  ∃ a, MetDoesTo (.trcRdClr a) a 1 (fun _ => True)
    (fun u => u.modCore (coreOf u.cur) fun c => { c with trace := [] }) (fun _ => 0) :=
  ⟨5, _, (one [] id (fun c => { c with trace := [4, 9], traceEver := 8 }) fun k => { k with xwd := 16384 }), (by decide +kernel), (by decide +kernel), trivial, (ok_unit_of_isOk (by decide +kernel)), (by decide +kernel)⟩

theorem met_TollhouseHeadsComplete_10 :
  ∃ a sel, MetDoesTo (.dumpst a sel) a 1 (fun _ => True) id (fun u =>
    let f := u.vfOf u.me.vf
    if sel = 0 then
      wNat (b2n ((u.dumping.map fun d => d.vf == u.me.vf).getD false) + 2 * (u.dumpQ.filter fun d => d.vf == u.me.vf).length +
        2 ^ 4 * f.dumps)
    else wNat (f.dropFull + 2 ^ 32 * f.dropSlot)) :=
  ⟨5, 1, _, ({ one [] with vfs := [(0, { dumps := 3, dropFull := 2 })] }), (by decide +kernel), (by decide +kernel), trivial, (ok_unit_of_isOk (by decide +kernel)), (by decide +kernel)⟩
end

