-- ==== Sys2Proof/Tests/MetMachine.lean ====
section
/-!
SUPPORT. Witnesses of the statements about links, the Tollhouse, the host, and the whole machine: for each clause a concrete state and operands that meet its hypotheses together.
-/

open Sys2Proof Sys2Proof.Machine
set_option maxRecDepth 20000
set_option Elab.async false
set_option linter.unusedVariables false

theorem met_LinkStepsComplete_1 :
  let takes := fun (s : State) => s.inp.a < 48 ∧ ((s.port s.inp.a).st = 2 ∨ (s.port s.inp.a).st = 3)
  let packet := fun (s : State) (c : Nat) (xs : List Int) => s.inp.ints = Int.ofNat c :: xs ∧ takes s ∧
    heldFor s s.inp.b = false ∧ routeOf (activeBank s) s.inp.b = some 63
  let step := fun (s : State) => stepOf (s.switch s.inp.a) (s.switch s.inp.a).slot (s.switch s.inp.a).step
  let fire := fun (s : State) => (s.switch s.inp.a).armed.toNat + (step s).dt
  let each := fun (s : State) (m : Nat) (f : LinkPort → LinkPort) =>
    (portsOf m).foldl (fun t p => t.modPort p fun x => if x.st = 6 then x else f x) s
  ∃ q n va g since vf p, p ≠ 63 ∧
    MetHappensTo .packetForward
    (fun s => packet s 0 [Int.ofNat q, 0, Int.ofNat va, Int.ofNat g, Int.ofNat since, Int.ofNat vf, Int.ofNat n] ∧
      isOwnMem s s.inp.w.toNat = true ∧ heldFor s s.inp.c = false ∧
      routeOf (activeBank s) s.inp.c = some p ∧ (s.port p).st = 2)
    (fun s t => t.fab.outbox = s.fab.outbox ++ [(p,
      { dest := s.inp.c, src := s.fab.node, requester := q, addr := s.inp.w.toNat, va := wNat va, hops := 1, agent := g
        since := wNat since, vf := vf, kind := .answer (s.natAt s.inp.w.toNat n) })]) :=
  ⟨7, 8, 0x2000, 0, 0, 0, 3, (by decide +kernel), ({ inp := { a := 3, b := 0, c := 5, w := 0x1000, ints := [0, 7, 0, 0x2000, 0, 0, 0, 8] }, tide := 40000, ports := [(3, { st := 2 })], fab := { rtb0 := [(0, 127), (5, 67)] }, switches := [(0, {  })], mem := [(0x1000, 9)] }), ⟨⟨(by decide +kernel), ⟨(by decide +kernel), .inl (by decide +kernel)⟩, (by decide +kernel), (by decide +kernel)⟩, (by decide +kernel), (by decide +kernel), (by decide +kernel), (by decide +kernel)⟩⟩

theorem met_LinkStepsComplete_2 :
  let takes := fun (s : State) => s.inp.a < 48 ∧ ((s.port s.inp.a).st = 2 ∨ (s.port s.inp.a).st = 3)
  let packet := fun (s : State) (c : Nat) (xs : List Int) => s.inp.ints = Int.ofNat c :: xs ∧ takes s ∧
    heldFor s s.inp.b = false ∧ routeOf (activeBank s) s.inp.b = some 63
  let step := fun (s : State) => stepOf (s.switch s.inp.a) (s.switch s.inp.a).slot (s.switch s.inp.a).step
  let fire := fun (s : State) => (s.switch s.inp.a).armed.toNat + (step s).dt
  let each := fun (s : State) (m : Nat) (f : LinkPort → LinkPort) =>
    (portsOf m).foldl (fun t p => t.modPort p fun x => if x.st = 6 then x else f x) s
  ∃ q va g xs, MetHappens .packetForward (fun s => packet s 5 (Int.ofNat q :: 0 :: Int.ofNat va :: Int.ofNat g :: xs))
    (fun s => s.modProc g fun p => { p with remoteOut := removeFirst (fun e => e.va == wNat va && !e.lost) p.remoteOut }) :=
  ⟨0, 0x2000, 0, [], ({ inp := { a := 3, b := 0, c := 5, ints := [5, 0, 0, 0x2000, 0] }, tide := 40000, ports := [(3, { st := 2 })], fab := { rtb0 := [(0, 127), (5, 67)] }, switches := [(0, {  })], procs := [(0, { remoteOut := [⟨0x2000, 3, false, 0, 0⟩] })] }), ⟨(by decide +kernel), ⟨(by decide +kernel), .inl (by decide +kernel)⟩, (by decide +kernel), (by decide +kernel)⟩⟩

theorem met_LinkStepsComplete_3 :
  let takes := fun (s : State) => s.inp.a < 48 ∧ ((s.port s.inp.a).st = 2 ∨ (s.port s.inp.a).st = 3)
  let packet := fun (s : State) (c : Nat) (xs : List Int) => s.inp.ints = Int.ofNat c :: xs ∧ takes s ∧
    heldFor s s.inp.b = false ∧ routeOf (activeBank s) s.inp.b = some 63
  let step := fun (s : State) => stepOf (s.switch s.inp.a) (s.switch s.inp.a).slot (s.switch s.inp.a).step
  let fire := fun (s : State) => (s.switch s.inp.a).armed.toNat + (step s).dt
  let each := fun (s : State) (m : Nat) (f : LinkPort → LinkPort) =>
    (portsOf m).foldl (fun t p => t.modPort p fun x => if x.st = 6 then x else f x) s
  ∃ xs, MetHappens .packetForward (fun s => takes s ∧ s.inp.ints = 8 :: xs)
    (fun s => s.modPort s.inp.a fun p => { p with peerDrained := true }) :=
  ⟨[], ({ inp := { a := 3, ints := [8] }, tide := 40000, ports := [(3, { st := 2 })], fab := {  }, switches := [(0, {  })] }), ⟨⟨(by decide +kernel), .inl (by decide +kernel)⟩, (by decide +kernel)⟩⟩

theorem met_LinkStepsComplete_4 :
  let takes := fun (s : State) => s.inp.a < 48 ∧ ((s.port s.inp.a).st = 2 ∨ (s.port s.inp.a).st = 3)
  let packet := fun (s : State) (c : Nat) (xs : List Int) => s.inp.ints = Int.ofNat c :: xs ∧ takes s ∧
    heldFor s s.inp.b = false ∧ routeOf (activeBank s) s.inp.b = some 63
  let step := fun (s : State) => stepOf (s.switch s.inp.a) (s.switch s.inp.a).slot (s.switch s.inp.a).step
  let fire := fun (s : State) => (s.switch s.inp.a).armed.toNat + (step s).dt
  let each := fun (s : State) (m : Nat) (f : LinkPort → LinkPort) =>
    (portsOf m).foldl (fun t p => t.modPort p fun x => if x.st = 6 then x else f x) s
  ∃ xs, MetHappens .packetForward (fun s => takes s ∧ s.inp.ints = 9 :: xs)
    (fun s => s.modPort s.inp.a fun p => { p with drainAcked := true }) :=
  ⟨[], ({ inp := { a := 3, ints := [9] }, tide := 40000, ports := [(3, { st := 2 })], fab := {  }, switches := [(0, {  })] }), ⟨⟨(by decide +kernel), .inl (by decide +kernel)⟩, (by decide +kernel)⟩⟩

theorem met_LinkStepsComplete_5 :
  let takes := fun (s : State) => s.inp.a < 48 ∧ ((s.port s.inp.a).st = 2 ∨ (s.port s.inp.a).st = 3)
  let packet := fun (s : State) (c : Nat) (xs : List Int) => s.inp.ints = Int.ofNat c :: xs ∧ takes s ∧
    heldFor s s.inp.b = false ∧ routeOf (activeBank s) s.inp.b = some 63
  let step := fun (s : State) => stepOf (s.switch s.inp.a) (s.switch s.inp.a).slot (s.switch s.inp.a).step
  let fire := fun (s : State) => (s.switch s.inp.a).armed.toNat + (step s).dt
  let each := fun (s : State) (m : Nat) (f : LinkPort → LinkPort) =>
    (portsOf m).foldl (fun t p => t.modPort p fun x => if x.st = 6 then x else f x) s
  ∃ since sent ans va, MetHappens .remoteAccessTimeout
    (fun s => (s.proc s.inp.a).wait = .remote since sent ans va ∧ s.fab.tmo ≤ s.tide.toNat - since.toNat)
    (fun s => trapHead { s with cur := s.inp.a } [(s.inp.a, 0x2C, va)] (s.proc s.inp.a).r.pc) :=
  ⟨900, true, [], 0x2000, ({ one [] fun p => { p with wait := .remote 900 true [] 0x2000 } with inp := { a := 0 }, tide := 300000 }), ⟨(by decide +kernel), (by decide +kernel)⟩⟩

theorem met_LinkStepsComplete_6 :
  let takes := fun (s : State) => s.inp.a < 48 ∧ ((s.port s.inp.a).st = 2 ∨ (s.port s.inp.a).st = 3)
  let packet := fun (s : State) (c : Nat) (xs : List Int) => s.inp.ints = Int.ofNat c :: xs ∧ takes s ∧
    heldFor s s.inp.b = false ∧ routeOf (activeBank s) s.inp.b = some 63
  let step := fun (s : State) => stepOf (s.switch s.inp.a) (s.switch s.inp.a).slot (s.switch s.inp.a).step
  let fire := fun (s : State) => (s.switch s.inp.a).armed.toNat + (step s).dt
  let each := fun (s : State) (m : Nat) (f : LinkPort → LinkPort) =>
    (portsOf m).foldl (fun t p => t.modPort p fun x => if x.st = 6 then x else f x) s
  MetHappens .remoteStoreAck (fun _ => True)
    (fun s => s.modProc s.inp.a fun p => { p with remoteOut := removeFirst (fun e => e.va == s.inp.w && !e.lost) p.remoteOut }) :=
  ⟨({ one [] fun p => { p with remoteOut := [⟨0x2000, 3, false, 0, 0⟩] } with inp := { a := 0, w := 0x2000 } }), trivial⟩

theorem met_LinkStepsComplete_7 :
  let takes := fun (s : State) => s.inp.a < 48 ∧ ((s.port s.inp.a).st = 2 ∨ (s.port s.inp.a).st = 3)
  let packet := fun (s : State) (c : Nat) (xs : List Int) => s.inp.ints = Int.ofNat c :: xs ∧ takes s ∧
    heldFor s s.inp.b = false ∧ routeOf (activeBank s) s.inp.b = some 63
  let step := fun (s : State) => stepOf (s.switch s.inp.a) (s.switch s.inp.a).slot (s.switch s.inp.a).step
  let fire := fun (s : State) => (s.switch s.inp.a).armed.toNat + (step s).dt
  let each := fun (s : State) (m : Nat) (f : LinkPort → LinkPort) =>
    (portsOf m).foldl (fun t p => t.modPort p fun x => if x.st = 6 then x else f x) s
  ∃ e rest, MetHappensTo .remoteStoreLost
    (fun s => (s.proc s.inp.a).remoteOut = e :: rest ∧ e.va = s.inp.w ∧ e.lost = false ∧
      (s.inp.b = 1 ∨ s.fab.tmo ≤ s.tide.toNat - e.sent.toNat))
    (fun s t => (t.proc s.inp.a).remoteOut = { e with lost := true } :: rest) :=
  ⟨⟨0x2000, 3, false, 0, 0⟩, [], ({ one [] fun p => { p with remoteOut := [⟨0x2000, 3, false, 0, 0⟩] } with inp := { a := 0, w := 0x2000, b := 1 } }), ⟨(by decide +kernel), (by decide +kernel), (by decide +kernel), .inl (by decide +kernel)⟩⟩

theorem met_LinkStepsComplete_8 :
  let takes := fun (s : State) => s.inp.a < 48 ∧ ((s.port s.inp.a).st = 2 ∨ (s.port s.inp.a).st = 3)
  let packet := fun (s : State) (c : Nat) (xs : List Int) => s.inp.ints = Int.ofNat c :: xs ∧ takes s ∧
    heldFor s s.inp.b = false ∧ routeOf (activeBank s) s.inp.b = some 63
  let step := fun (s : State) => stepOf (s.switch s.inp.a) (s.switch s.inp.a).slot (s.switch s.inp.a).step
  let fire := fun (s : State) => (s.switch s.inp.a).armed.toNat + (step s).dt
  let each := fun (s : State) (m : Nat) (f : LinkPort → LinkPort) =>
    (portsOf m).foldl (fun t p => t.modPort p fun x => if x.st = 6 then x else f x) s
  MetHappensTo .routeCommit (fun s => s.fab.held = [])
    (fun s t => t.fab.ver = s.fab.sver ∧ t.fab.sver = s.fab.ver ∧ t.fab.bank = !s.fab.bank) :=
  ⟨({ inp := { a := 0 }, tide := 40000, ports := [(3, { st := 2 })], fab := { sver := 3, ver := 2 }, switches := [(0, {  })] }), (by decide +kernel)⟩

theorem met_LinkStepsComplete_9 :
  let takes := fun (s : State) => s.inp.a < 48 ∧ ((s.port s.inp.a).st = 2 ∨ (s.port s.inp.a).st = 3)
  let packet := fun (s : State) (c : Nat) (xs : List Int) => s.inp.ints = Int.ofNat c :: xs ∧ takes s ∧
    heldFor s s.inp.b = false ∧ routeOf (activeBank s) s.inp.b = some 63
  let step := fun (s : State) => stepOf (s.switch s.inp.a) (s.switch s.inp.a).slot (s.switch s.inp.a).step
  let fire := fun (s : State) => (s.switch s.inp.a).armed.toNat + (step s).dt
  let each := fun (s : State) (m : Nat) (f : LinkPort → LinkPort) =>
    (portsOf m).foldl (fun t p => t.modPort p fun x => if x.st = 6 then x else f x) s
  MetHappens .switchHoldDrain
    (fun s => (s.switch s.inp.a).st = 1 ∧ (s.switch s.inp.a).phase = 0 ∧ fire s ≤ s.tide.toNat + (step s).dl ∧ (step s).amask = 0)
    (fun s => (each s (step s).pmask fun p =>
      { p with st := if p.st = 2 then 3 else p.st, drained := true, drainAcked := false }).modSwitch s.inp.a fun c =>
        { c with st := 2, phase := 1 }) :=
  ⟨({ inp := { a := 0 }, tide := 40000, ports := [(3, { st := 2 })], fab := {  }, switches := [(0, { st := 1, armed := 40500, tt := [(0, 0x101), (8, 7 * 2 ^ 48), (9, 8), (10, 1024 + 1200 * 2 ^ 32), (11, 12000)] })] }), ⟨(by decide +kernel), (by decide +kernel), (by decide +kernel), (by decide +kernel)⟩⟩

theorem met_LinkStepsComplete_10 :
  let takes := fun (s : State) => s.inp.a < 48 ∧ ((s.port s.inp.a).st = 2 ∨ (s.port s.inp.a).st = 3)
  let packet := fun (s : State) (c : Nat) (xs : List Int) => s.inp.ints = Int.ofNat c :: xs ∧ takes s ∧
    heldFor s s.inp.b = false ∧ routeOf (activeBank s) s.inp.b = some 63
  let step := fun (s : State) => stepOf (s.switch s.inp.a) (s.switch s.inp.a).slot (s.switch s.inp.a).step
  let fire := fun (s : State) => (s.switch s.inp.a).armed.toNat + (step s).dt
  let each := fun (s : State) (m : Nat) (f : LinkPort → LinkPort) =>
    (portsOf m).foldl (fun t p => t.modPort p fun x => if x.st = 6 then x else f x) s
  MetHappensTo .switchHoldDrain
    (fun s => (s.switch s.inp.a).st = 1 ∧ (s.switch s.inp.a).phase = 0 ∧ fire s ≤ s.tide.toNat + (step s).dl)
    (fun s t => (t.switch s.inp.a).phase = 1 ∧ ∀ a b, a < 16 → b < 16 → (step s).amask.testBit a = true →
      (s.seg b).sgid = (s.seg a).sgid → (t.ford b).reform.isSome = true) :=
  ⟨({ inp := { a := 0 }, tide := 40000, ports := [(3, { st := 2 })], fab := {  }, switches := [(0, { st := 1, armed := 40500, tt := [(0, 0x101), (8, 7 * 2 ^ 48), (9, 8 + 2 ^ 48), (10, 1024 + 1200 * 2 ^ 32), (11, 12000)] })] }), ⟨(by decide +kernel), (by decide +kernel), (by decide +kernel)⟩⟩

theorem met_LinkStepsComplete_11 :
  let takes := fun (s : State) => s.inp.a < 48 ∧ ((s.port s.inp.a).st = 2 ∨ (s.port s.inp.a).st = 3)
  let packet := fun (s : State) (c : Nat) (xs : List Int) => s.inp.ints = Int.ofNat c :: xs ∧ takes s ∧
    heldFor s s.inp.b = false ∧ routeOf (activeBank s) s.inp.b = some 63
  let step := fun (s : State) => stepOf (s.switch s.inp.a) (s.switch s.inp.a).slot (s.switch s.inp.a).step
  let fire := fun (s : State) => (s.switch s.inp.a).armed.toNat + (step s).dt
  let each := fun (s : State) (m : Nat) (f : LinkPort → LinkPort) =>
    (portsOf m).foldl (fun t p => t.modPort p fun x => if x.st = 6 then x else f x) s
  MetHappensTo .switchDark
    (fun s => (s.switch s.inp.a).phase = 1 ∧ fire s ≤ s.tide.toNat)
    (fun s t => (t.switch s.inp.a).phase = 2 ∧ ∀ p ∈ portsOf (step s).pmask, (t.pilot p).ocfg = some (s.inp.a, (step s).ocfg) ∧
      (t.port p).st = (if (s.port p).st = 6 then 6 else 4) ∧
      ((s.port p).drained = true → (s.port p).peerDrained = true → (s.port p).drainAcked = true → (t.port p).lost = (s.port p).lost)) :=
  ⟨({ inp := { a := 0 }, tide := 40000, ports := [(3, { st := 3, drained := true })], fab := {  }, switches := [(0, { st := 2, phase := 1, armed := 39000, tt := [(0, 0x101), (8, 7 * 2 ^ 48), (9, 8), (10, 1024 + 1200 * 2 ^ 32), (11, 12000)] })] }), ⟨(by decide +kernel), (by decide +kernel)⟩⟩

theorem met_LinkStepsComplete_12 :
  let takes := fun (s : State) => s.inp.a < 48 ∧ ((s.port s.inp.a).st = 2 ∨ (s.port s.inp.a).st = 3)
  let packet := fun (s : State) (c : Nat) (xs : List Int) => s.inp.ints = Int.ofNat c :: xs ∧ takes s ∧
    heldFor s s.inp.b = false ∧ routeOf (activeBank s) s.inp.b = some 63
  let step := fun (s : State) => stepOf (s.switch s.inp.a) (s.switch s.inp.a).slot (s.switch s.inp.a).step
  let fire := fun (s : State) => (s.switch s.inp.a).armed.toNat + (step s).dt
  let each := fun (s : State) (m : Nat) (f : LinkPort → LinkPort) =>
    (portsOf m).foldl (fun t p => t.modPort p fun x => if x.st = 6 then x else f x) s
  MetHappens .switchRelock
    (fun s => (s.switch s.inp.a).phase = 2 ∧ fire s + (step s).dk ≤ s.tide.toNat)
    (fun s => (each s (step s).pmask fun p => { p with st := 5, since := s.tide }).modSwitch s.inp.a fun c => { c with phase := 3 }) :=
  ⟨({ inp := { a := 0 }, tide := 40000, ports := [(3, { st := 4 })], fab := {  }, switches := [(0, { st := 2, phase := 2, armed := 30000, tt := [(0, 0x101), (8, 7 * 2 ^ 48), (9, 8), (10, 1024 + 1200 * 2 ^ 32), (11, 12000)] })] }), ⟨(by decide +kernel), (by decide +kernel)⟩⟩

theorem met_LinkStepsComplete_13 :
  let takes := fun (s : State) => s.inp.a < 48 ∧ ((s.port s.inp.a).st = 2 ∨ (s.port s.inp.a).st = 3)
  let packet := fun (s : State) (c : Nat) (xs : List Int) => s.inp.ints = Int.ofNat c :: xs ∧ takes s ∧
    heldFor s s.inp.b = false ∧ routeOf (activeBank s) s.inp.b = some 63
  let step := fun (s : State) => stepOf (s.switch s.inp.a) (s.switch s.inp.a).slot (s.switch s.inp.a).step
  let fire := fun (s : State) => (s.switch s.inp.a).armed.toNat + (step s).dt
  let each := fun (s : State) (m : Nat) (f : LinkPort → LinkPort) =>
    (portsOf m).foldl (fun t p => t.modPort p fun x => if x.st = 6 then x else f x) s
  MetHappensTo .switchCommit
    (fun s => (s.switch s.inp.a).phase = 3 ∧ fire s + (step s).dk + (step s).rq ≤ s.tide.toNat ∧ s.fab.held = [] ∧
      s.fab.sver = (step s).rver)
    (fun s t => t.fab.ver = s.fab.sver ∧ t.fab.bank = (!s.fab.bank) ∧ (t.switch s.inp.a).phase = 0 ∧
      (t.switch s.inp.a).st = (if (s.switch s.inp.a).step + 1 = stepCount (s.switch s.inp.a) (s.switch s.inp.a).slot then 0 else 1) ∧
      ∀ p ∈ portsOf (step s).pmask, (s.port p).st ≠ 6 → (t.port p).drained = false ∧ (t.port p).peerDrained = false ∧
        (t.port p).st = if (s.port p).st = 2 then 2 else 0) :=
  ⟨({ inp := { a := 0 }, tide := 40000, ports := [(3, { st := 2, drained := true })], fab := {  }, switches := [(0, { st := 2, phase := 3, armed := 20000, tt := [(0, 0x101), (8, 7 * 2 ^ 48), (9, 8), (10, 1024 + 1200 * 2 ^ 32), (11, 12000)] })] }), ⟨(by decide +kernel), (by decide +kernel), (by decide +kernel), (by decide +kernel)⟩⟩

theorem met_LinkStepsComplete_14 :
  let takes := fun (s : State) => s.inp.a < 48 ∧ ((s.port s.inp.a).st = 2 ∨ (s.port s.inp.a).st = 3)
  let packet := fun (s : State) (c : Nat) (xs : List Int) => s.inp.ints = Int.ofNat c :: xs ∧ takes s ∧
    heldFor s s.inp.b = false ∧ routeOf (activeBank s) s.inp.b = some 63
  let step := fun (s : State) => stepOf (s.switch s.inp.a) (s.switch s.inp.a).slot (s.switch s.inp.a).step
  let fire := fun (s : State) => (s.switch s.inp.a).armed.toNat + (step s).dt
  let each := fun (s : State) (m : Nat) (f : LinkPort → LinkPort) =>
    (portsOf m).foldl (fun t p => t.modPort p fun x => if x.st = 6 then x else f x) s
  MetHappensTo .switchCommit
    (fun s => (s.switch s.inp.a).phase = 3 ∧ fire s + (step s).dk + (step s).rq ≤ s.tide.toNat ∧ s.fab.held = [] ∧
      s.fab.sver ≠ (step s).rver)
    (fun s t => t.fab.ver = s.fab.ver ∧ t.fab.bank = s.fab.bank ∧ (t.switch s.inp.a).phase = 0 ∧ (t.switch s.inp.a).verr = true) :=
  ⟨({ inp := { a := 0 }, tide := 40000, ports := [(3, { st := 2, drained := true })], fab := { sver := 9 }, switches := [(0, { st := 2, phase := 3, armed := 20000, tt := [(0, 0x101), (8, 7 * 2 ^ 48), (9, 8), (10, 1024 + 1200 * 2 ^ 32), (11, 12000)] })] }), ⟨(by decide +kernel), (by decide +kernel), (by decide +kernel), (by decide +kernel)⟩⟩

theorem met_LinkStepsComplete_15 :
  let takes := fun (s : State) => s.inp.a < 48 ∧ ((s.port s.inp.a).st = 2 ∨ (s.port s.inp.a).st = 3)
  let packet := fun (s : State) (c : Nat) (xs : List Int) => s.inp.ints = Int.ofNat c :: xs ∧ takes s ∧
    heldFor s s.inp.b = false ∧ routeOf (activeBank s) s.inp.b = some 63
  let step := fun (s : State) => stepOf (s.switch s.inp.a) (s.switch s.inp.a).slot (s.switch s.inp.a).step
  let fire := fun (s : State) => (s.switch s.inp.a).armed.toNat + (step s).dt
  let each := fun (s : State) (m : Nat) (f : LinkPort → LinkPort) =>
    (portsOf m).foldl (fun t p => t.modPort p fun x => if x.st = 6 then x else f x) s
  MetHappens .tideTick (fun s => s.inp.ints = []) (fun s => { s with tide := s.tide + 1 }) :=
  ⟨({ inp := { a := 0 }, tide := 40000, ports := [(3, { st := 2 })], fab := {  }, switches := [(0, {  })] }), (by decide +kernel)⟩

theorem met_LinkStepsComplete_16 :
  let takes := fun (s : State) => s.inp.a < 48 ∧ ((s.port s.inp.a).st = 2 ∨ (s.port s.inp.a).st = 3)
  let packet := fun (s : State) (c : Nat) (xs : List Int) => s.inp.ints = Int.ofNat c :: xs ∧ takes s ∧
    heldFor s s.inp.b = false ∧ routeOf (activeBank s) s.inp.b = some 63
  let step := fun (s : State) => stepOf (s.switch s.inp.a) (s.switch s.inp.a).slot (s.switch s.inp.a).step
  let fire := fun (s : State) => (s.switch s.inp.a).armed.toNat + (step s).dt
  let each := fun (s : State) (m : Nat) (f : LinkPort → LinkPort) =>
    (portsOf m).foldl (fun t p => t.modPort p fun x => if x.st = 6 then x else f x) s
  MetHappensTo .tideTick (fun _ => True) (fun s t => t.tide = s.tide + 1 ∧ t.mem = s.mem ∧ ∀ x ∈ s.inp.ints, x.toNat ∈ t.poison) :=
  ⟨({ inp := { a := 0, ints := [64] }, tide := 40000, ports := [(3, { st := 2 })], fab := {  }, switches := [(0, {  })] }), trivial⟩

theorem met_LinkStepsComplete_17 :
  let takes := fun (s : State) => s.inp.a < 48 ∧ ((s.port s.inp.a).st = 2 ∨ (s.port s.inp.a).st = 3)
  let packet := fun (s : State) (c : Nat) (xs : List Int) => s.inp.ints = Int.ofNat c :: xs ∧ takes s ∧
    heldFor s s.inp.b = false ∧ routeOf (activeBank s) s.inp.b = some 63
  let step := fun (s : State) => stepOf (s.switch s.inp.a) (s.switch s.inp.a).slot (s.switch s.inp.a).step
  let fire := fun (s : State) => (s.switch s.inp.a).armed.toNat + (step s).dt
  let each := fun (s : State) (m : Nat) (f : LinkPort → LinkPort) =>
    (portsOf m).foldl (fun t p => t.modPort p fun x => if x.st = 6 then x else f x) s
  MetHappensTo .tideSample (fun _ => True)
    (fun s t =>
      let d : Int := (s.tide.toNat : Int) - ((s.inp.w.toNat : Int) + s.inp.a)
      tsyncOf t = (s.fab.trefEn && (s.fab.node == s.fab.rnode || (decide (-1 ≤ d) && decide (d ≤ 1) &&
        (decide (s.inp.c = 1) == s.full) && s.inp.ints.any fun p => decide ((s.port p.toNat).st = 2)))) ∧ t.tide = s.tide) :=
  ⟨({ inp := { a := 20, w := 39980, ints := [3] }, tide := 40000, ports := [(3, { st := 2 })], fab := { trefEn := true }, switches := [(0, {  })] }), trivial⟩

theorem met_LinkStepsComplete_18 :
  let takes := fun (s : State) => s.inp.a < 48 ∧ ((s.port s.inp.a).st = 2 ∨ (s.port s.inp.a).st = 3)
  let packet := fun (s : State) (c : Nat) (xs : List Int) => s.inp.ints = Int.ofNat c :: xs ∧ takes s ∧
    heldFor s s.inp.b = false ∧ routeOf (activeBank s) s.inp.b = some 63
  let step := fun (s : State) => stepOf (s.switch s.inp.a) (s.switch s.inp.a).slot (s.switch s.inp.a).step
  let fire := fun (s : State) => (s.switch s.inp.a).armed.toNat + (step s).dt
  let each := fun (s : State) (m : Nat) (f : LinkPort → LinkPort) =>
    (portsOf m).foldl (fun t p => t.modPort p fun x => if x.st = 6 then x else f x) s
  MetHappensTo .codewordReceive
    (fun s => takes s ∧ s.inp.b < 64 ∧ s.inp.c ≤ 15)
    (fun s t => (t.port s.inp.a).bins.get (17 * s.inp.b + s.inp.c) 0 = min (2 ^ 32 - 1) ((s.port s.inp.a).bins.get (17 * s.inp.b + s.inp.c) 0 + 1) ∧
      (t.port s.inp.a).st = (s.port s.inp.a).st) :=
  ⟨({ inp := { a := 3, b := 5, c := 4 }, tide := 40000, ports := [(3, { st := 2 })], fab := {  }, switches := [(0, {  })] }), ⟨⟨(by decide +kernel), .inl (by decide +kernel)⟩, (by decide +kernel), (by decide +kernel)⟩⟩

theorem met_LinkStepsComplete_19 :
  let takes := fun (s : State) => s.inp.a < 48 ∧ ((s.port s.inp.a).st = 2 ∨ (s.port s.inp.a).st = 3)
  let packet := fun (s : State) (c : Nat) (xs : List Int) => s.inp.ints = Int.ofNat c :: xs ∧ takes s ∧
    heldFor s s.inp.b = false ∧ routeOf (activeBank s) s.inp.b = some 63
  let step := fun (s : State) => stepOf (s.switch s.inp.a) (s.switch s.inp.a).slot (s.switch s.inp.a).step
  let fire := fun (s : State) => (s.switch s.inp.a).armed.toNat + (step s).dt
  let each := fun (s : State) (m : Nat) (f : LinkPort → LinkPort) =>
    (portsOf m).foldl (fun t p => t.modPort p fun x => if x.st = 6 then x else f x) s
  ∃ k : Nat, MetHappensTo .codewordReceive
    (fun s => takes s ∧ s.inp.b < 64 ∧ 15 < s.inp.c ∧ s.inp.ints = [Int.ofNat k] ∧ (s.port s.inp.a).replays.get k 0 = 8)
    (fun s t => (t.port s.inp.a).st = 1 ∧ (t.port s.inp.a).retrains = min 65535 ((s.port s.inp.a).retrains + 1)) :=
  ⟨5, ({ inp := { a := 3, b := 5, c := 16, ints := [5] }, tide := 40000, ports := [(3, { st := 2, replays := [(5, 8)] })], fab := {  }, switches := [(0, {  })] }), ⟨⟨(by decide +kernel), .inl (by decide +kernel)⟩, (by decide +kernel), (by decide +kernel), (by decide +kernel), (by decide +kernel)⟩⟩

theorem met_LinkStepsComplete_20 :
  let takes := fun (s : State) => s.inp.a < 48 ∧ ((s.port s.inp.a).st = 2 ∨ (s.port s.inp.a).st = 3)
  let packet := fun (s : State) (c : Nat) (xs : List Int) => s.inp.ints = Int.ofNat c :: xs ∧ takes s ∧
    heldFor s s.inp.b = false ∧ routeOf (activeBank s) s.inp.b = some 63
  let step := fun (s : State) => stepOf (s.switch s.inp.a) (s.switch s.inp.a).slot (s.switch s.inp.a).step
  let fire := fun (s : State) => (s.switch s.inp.a).armed.toNat + (step s).dt
  let each := fun (s : State) (m : Nat) (f : LinkPort → LinkPort) =>
    (portsOf m).foldl (fun t p => t.modPort p fun x => if x.st = 6 then x else f x) s
  ∃ k : Nat, MetHappensTo .codewordReceive
    (fun s => takes s ∧ s.inp.b < 64 ∧ 15 < s.inp.c ∧ s.inp.ints = [Int.ofNat k] ∧ (s.port s.inp.a).replays = [])
    (fun s t => (t.port s.inp.a).st = (s.port s.inp.a).st ∧ (t.port s.inp.a).replays = [(k, 1)] ∧
      (t.port s.inp.a).uncorr = min 65535 ((s.port s.inp.a).uncorr + 1)) :=
  ⟨5, ({ inp := { a := 3, b := 5, c := 16, ints := [5] }, tide := 40000, ports := [(3, { st := 2 })], fab := {  }, switches := [(0, {  })] }), ⟨⟨(by decide +kernel), .inl (by decide +kernel)⟩, (by decide +kernel), (by decide +kernel), (by decide +kernel), (by decide +kernel)⟩⟩

theorem met_LinkStepsComplete_21 :
  let takes := fun (s : State) => s.inp.a < 48 ∧ ((s.port s.inp.a).st = 2 ∨ (s.port s.inp.a).st = 3)
  let packet := fun (s : State) (c : Nat) (xs : List Int) => s.inp.ints = Int.ofNat c :: xs ∧ takes s ∧
    heldFor s s.inp.b = false ∧ routeOf (activeBank s) s.inp.b = some 63
  let step := fun (s : State) => stepOf (s.switch s.inp.a) (s.switch s.inp.a).slot (s.switch s.inp.a).step
  let fire := fun (s : State) => (s.switch s.inp.a).armed.toNat + (step s).dt
  let each := fun (s : State) (m : Nat) (f : LinkPort → LinkPort) =>
    (portsOf m).foldl (fun t p => t.modPort p fun x => if x.st = 6 then x else f x) s
  MetHappensTo .portRetrain
    (fun s => takes s ∧ s.inp.b = 0 ∧ ((∃ n ∈ (s.port s.inp.a).replays.vals, 9 ≤ n) ∨ (s.pilot s.inp.a).st = 1))
    (fun s t => (t.port s.inp.a).st = 1 ∧ (t.port s.inp.a).since = s.tide ∧
      (t.port s.inp.a).retrains = min 65535 ((s.port s.inp.a).retrains + 1)) :=
  ⟨({ inp := { a := 3 }, tide := 40000, ports := [(3, { st := 2, replays := [(5, 9)] })], fab := {  }, switches := [(0, {  })] }), ⟨⟨(by decide +kernel), .inl (by decide +kernel)⟩, (by decide +kernel), .inl ⟨9, (by decide +kernel), (by decide +kernel)⟩⟩⟩

theorem met_LinkStepsComplete_22 :
  let takes := fun (s : State) => s.inp.a < 48 ∧ ((s.port s.inp.a).st = 2 ∨ (s.port s.inp.a).st = 3)
  let packet := fun (s : State) (c : Nat) (xs : List Int) => s.inp.ints = Int.ofNat c :: xs ∧ takes s ∧
    heldFor s s.inp.b = false ∧ routeOf (activeBank s) s.inp.b = some 63
  let step := fun (s : State) => stepOf (s.switch s.inp.a) (s.switch s.inp.a).slot (s.switch s.inp.a).step
  let fire := fun (s : State) => (s.switch s.inp.a).armed.toNat + (step s).dt
  let each := fun (s : State) (m : Nat) (f : LinkPort → LinkPort) =>
    (portsOf m).foldl (fun t p => t.modPort p fun x => if x.st = 6 then x else f x) s
  MetHappens .portRetrain
    (fun s => s.inp.a < 48 ∧ s.inp.b = 0 ∧ (s.port s.inp.a).st = 0 ∧ s.thermal ≠ 2)
    (fun s => s.modPort s.inp.a fun p => { p with st := 1, since := s.tide }) :=
  ⟨({ inp := { a := 3 }, tide := 40000, ports := [(3, { st := 0 })], fab := {  }, switches := [(0, {  })] }), ⟨(by decide +kernel), (by decide +kernel), (by decide +kernel), (by decide +kernel)⟩⟩

theorem met_LinkStepsComplete_23 :
  let takes := fun (s : State) => s.inp.a < 48 ∧ ((s.port s.inp.a).st = 2 ∨ (s.port s.inp.a).st = 3)
  let packet := fun (s : State) (c : Nat) (xs : List Int) => s.inp.ints = Int.ofNat c :: xs ∧ takes s ∧
    heldFor s s.inp.b = false ∧ routeOf (activeBank s) s.inp.b = some 63
  let step := fun (s : State) => stepOf (s.switch s.inp.a) (s.switch s.inp.a).slot (s.switch s.inp.a).step
  let fire := fun (s : State) => (s.switch s.inp.a).armed.toNat + (step s).dt
  let each := fun (s : State) (m : Nat) (f : LinkPort → LinkPort) =>
    (portsOf m).foldl (fun t p => t.modPort p fun x => if x.st = 6 then x else f x) s
  MetHappensTo .portRetrain
    (fun s => 48 ≤ s.inp.a ∧ s.inp.a < 64 ∧ (s.pilot s.inp.a).st = 1)
    (fun s t => (t.pilot s.inp.a).retrains = min 65535 ((s.pilot s.inp.a).retrains + 1)) :=
  ⟨({ inp := { a := 50 }, tide := 40000, ports := [(3, { st := 2 })], fab := {  }, switches := [(0, {  })], pilots := [(50, { st := 1 })] }), ⟨(by decide +kernel), (by decide +kernel), (by decide +kernel)⟩⟩

theorem met_LinkStepsComplete_24 :
  let takes := fun (s : State) => s.inp.a < 48 ∧ ((s.port s.inp.a).st = 2 ∨ (s.port s.inp.a).st = 3)
  let packet := fun (s : State) (c : Nat) (xs : List Int) => s.inp.ints = Int.ofNat c :: xs ∧ takes s ∧
    heldFor s s.inp.b = false ∧ routeOf (activeBank s) s.inp.b = some 63
  let step := fun (s : State) => stepOf (s.switch s.inp.a) (s.switch s.inp.a).slot (s.switch s.inp.a).step
  let fire := fun (s : State) => (s.switch s.inp.a).armed.toNat + (step s).dt
  let each := fun (s : State) (m : Nat) (f : LinkPort → LinkPort) =>
    (portsOf m).foldl (fun t p => t.modPort p fun x => if x.st = 6 then x else f x) s
  MetHappensTo .portRetrain (fun s => s.inp.a < 48 ∧ s.inp.b = 1) (fun s t => (t.port s.inp.a).st = 6 ∧ t.rrq = true) :=
  ⟨({ inp := { a := 3, b := 1 }, tide := 40000, ports := [(3, { st := 2 })], fab := {  }, switches := [(0, {  })] }), ⟨(by decide +kernel), (by decide +kernel)⟩⟩

theorem met_LinkStepsComplete_25 :
  let takes := fun (s : State) => s.inp.a < 48 ∧ ((s.port s.inp.a).st = 2 ∨ (s.port s.inp.a).st = 3)
  let packet := fun (s : State) (c : Nat) (xs : List Int) => s.inp.ints = Int.ofNat c :: xs ∧ takes s ∧
    heldFor s s.inp.b = false ∧ routeOf (activeBank s) s.inp.b = some 63
  let step := fun (s : State) => stepOf (s.switch s.inp.a) (s.switch s.inp.a).slot (s.switch s.inp.a).step
  let fire := fun (s : State) => (s.switch s.inp.a).armed.toNat + (step s).dt
  let each := fun (s : State) (m : Nat) (f : LinkPort → LinkPort) =>
    (portsOf m).foldl (fun t p => t.modPort p fun x => if x.st = 6 then x else f x) s
  MetHappens .portRetrain (fun s => s.inp.a < 48 ∧ s.inp.b = 2 ∧ (s.port s.inp.a).st = 6)
    (fun s => s.modPort s.inp.a fun p => { p with st := 0 }) :=
  ⟨({ inp := { a := 3, b := 2 }, tide := 40000, ports := [(3, { st := 6 })], fab := {  }, switches := [(0, {  })] }), ⟨(by decide +kernel), (by decide +kernel), (by decide +kernel)⟩⟩

theorem met_LinkStepsComplete_26 :
  let takes := fun (s : State) => s.inp.a < 48 ∧ ((s.port s.inp.a).st = 2 ∨ (s.port s.inp.a).st = 3)
  let packet := fun (s : State) (c : Nat) (xs : List Int) => s.inp.ints = Int.ofNat c :: xs ∧ takes s ∧
    heldFor s s.inp.b = false ∧ routeOf (activeBank s) s.inp.b = some 63
  let step := fun (s : State) => stepOf (s.switch s.inp.a) (s.switch s.inp.a).slot (s.switch s.inp.a).step
  let fire := fun (s : State) => (s.switch s.inp.a).armed.toNat + (step s).dt
  let each := fun (s : State) (m : Nat) (f : LinkPort → LinkPort) =>
    (portsOf m).foldl (fun t p => t.modPort p fun x => if x.st = 6 then x else f x) s
  MetHappens .portRetrainTimeout
    (fun s => (s.port s.inp.a).st = 1 ∧ (s.port s.inp.a).since.toNat + 48000 ≤ s.tide.toNat)
    (fun s => s.modPort s.inp.a fun p => { p with st := 0 }) :=
  ⟨({ inp := { a := 3 }, tide := 90000, ports := [(3, { st := 1 })], fab := {  }, switches := [(0, {  })] }), ⟨(by decide +kernel), (by decide +kernel)⟩⟩

theorem met_LinkStepsComplete_27 :
  let takes := fun (s : State) => s.inp.a < 48 ∧ ((s.port s.inp.a).st = 2 ∨ (s.port s.inp.a).st = 3)
  let packet := fun (s : State) (c : Nat) (xs : List Int) => s.inp.ints = Int.ofNat c :: xs ∧ takes s ∧
    heldFor s s.inp.b = false ∧ routeOf (activeBank s) s.inp.b = some 63
  let step := fun (s : State) => stepOf (s.switch s.inp.a) (s.switch s.inp.a).slot (s.switch s.inp.a).step
  let fire := fun (s : State) => (s.switch s.inp.a).armed.toNat + (step s).dt
  let each := fun (s : State) (m : Nat) (f : LinkPort → LinkPort) =>
    (portsOf m).foldl (fun t p => t.modPort p fun x => if x.st = 6 then x else f x) s
  MetHappensTo .portUp
    (fun s => s.inp.a < 48 ∧ ((s.port s.inp.a).st = 1 ∨ (s.port s.inp.a).st = 5) ∧ s.thermal ≠ 2 ∧ s.fab.held = [])
    (fun s t => (t.port s.inp.a).st = 2 ∧ (t.port s.inp.a).peerNode = s.inp.b % 2 ^ 12 ∧ (t.port s.inp.a).peerPort = s.inp.c % 2 ^ 6) :=
  ⟨({ inp := { a := 3, b := 9, c := 4 }, tide := 40000, ports := [(3, { st := 1 })], fab := {  }, switches := [(0, {  })] }), ⟨(by decide +kernel), .inl (by decide +kernel), (by decide +kernel), (by decide +kernel)⟩⟩

theorem met_LinkStepsComplete_28 :
  let takes := fun (s : State) => s.inp.a < 48 ∧ ((s.port s.inp.a).st = 2 ∨ (s.port s.inp.a).st = 3)
  let packet := fun (s : State) (c : Nat) (xs : List Int) => s.inp.ints = Int.ofNat c :: xs ∧ takes s ∧
    heldFor s s.inp.b = false ∧ routeOf (activeBank s) s.inp.b = some 63
  let step := fun (s : State) => stepOf (s.switch s.inp.a) (s.switch s.inp.a).slot (s.switch s.inp.a).step
  let fire := fun (s : State) => (s.switch s.inp.a).armed.toNat + (step s).dt
  let each := fun (s : State) (m : Nat) (f : LinkPort → LinkPort) =>
    (portsOf m).foldl (fun t p => t.modPort p fun x => if x.st = 6 then x else f x) s
  MetHappens .lhstClear (fun s => s.inp.a < 48) (fun s => s.modPort s.inp.a fun p => { p with bins := [] }) :=
  ⟨({ inp := { a := 3 }, tide := 40000, ports := [(3, { st := 2 })], fab := {  }, switches := [(0, {  })] }), (by decide +kernel)⟩

theorem met_LinkStepsComplete_29 :
  let takes := fun (s : State) => s.inp.a < 48 ∧ ((s.port s.inp.a).st = 2 ∨ (s.port s.inp.a).st = 3)
  let packet := fun (s : State) (c : Nat) (xs : List Int) => s.inp.ints = Int.ofNat c :: xs ∧ takes s ∧
    heldFor s s.inp.b = false ∧ routeOf (activeBank s) s.inp.b = some 63
  let step := fun (s : State) => stepOf (s.switch s.inp.a) (s.switch s.inp.a).slot (s.switch s.inp.a).step
  let fire := fun (s : State) => (s.switch s.inp.a).armed.toNat + (step s).dt
  let each := fun (s : State) (m : Nat) (f : LinkPort → LinkPort) =>
    (portsOf m).foldl (fun t p => t.modPort p fun x => if x.st = 6 then x else f x) s
  MetHappens .pkick (fun s => s.inp.a < 64) (fun s => s.modPilot s.inp.a fun p => { p with kicked := s.tide }) :=
  ⟨({ inp := { a := 3 }, tide := 40000, ports := [(3, { st := 2 })], fab := {  }, switches := [(0, {  })] }), (by decide +kernel)⟩

theorem met_LinkStepsComplete_30 :
  let takes := fun (s : State) => s.inp.a < 48 ∧ ((s.port s.inp.a).st = 2 ∨ (s.port s.inp.a).st = 3)
  let packet := fun (s : State) (c : Nat) (xs : List Int) => s.inp.ints = Int.ofNat c :: xs ∧ takes s ∧
    heldFor s s.inp.b = false ∧ routeOf (activeBank s) s.inp.b = some 63
  let step := fun (s : State) => stepOf (s.switch s.inp.a) (s.switch s.inp.a).slot (s.switch s.inp.a).step
  let fire := fun (s : State) => (s.switch s.inp.a).armed.toNat + (step s).dt
  let each := fun (s : State) (m : Nat) (f : LinkPort → LinkPort) =>
    (portsOf m).foldl (fun t p => t.modPort p fun x => if x.st = 6 then x else f x) s
  MetHappensTo .pilotWatchdogReset
    (fun s => s.inp.a < 64 ∧ (s.pilot s.inp.a).st = 0 ∧
      (s.pilot s.inp.a).kicked.toNat + 1024 * s.pwd.get s.inp.a 1024 ≤ s.tide.toNat)
    (fun s t => (t.pilot s.inp.a).st = 1 ∧ (t.pilot s.inp.a).resets = min 65535 ((s.pilot s.inp.a).resets + 1) ∧
      (t.pilot s.inp.a).tune = (s.pilot s.inp.a).tune ∧ (t.proc (hartQOf (13457 + s.inp.a))).r = {} ∧ t.ports = s.ports) :=
  ⟨({ inp := { a := 3 }, tide := 2000000, ports := [(3, { st := 2 })], fab := {  }, switches := [(0, {  })], pilots := [(3, { tune := [4] })] }), ⟨(by decide +kernel), (by decide +kernel), (by decide +kernel)⟩⟩

theorem met_LinkStepsComplete_31 :
  let takes := fun (s : State) => s.inp.a < 48 ∧ ((s.port s.inp.a).st = 2 ∨ (s.port s.inp.a).st = 3)
  let packet := fun (s : State) (c : Nat) (xs : List Int) => s.inp.ints = Int.ofNat c :: xs ∧ takes s ∧
    heldFor s s.inp.b = false ∧ routeOf (activeBank s) s.inp.b = some 63
  let step := fun (s : State) => stepOf (s.switch s.inp.a) (s.switch s.inp.a).slot (s.switch s.inp.a).step
  let fire := fun (s : State) => (s.switch s.inp.a).armed.toNat + (step s).dt
  let each := fun (s : State) (m : Nat) (f : LinkPort → LinkPort) =>
    (portsOf m).foldl (fun t p => t.modPort p fun x => if x.st = 6 then x else f x) s
  MetHappensTo .pilotRestart
    (fun s => s.inp.a < 64 ∧ (s.pilot s.inp.a).st = 1)
    (fun s t => (t.pilot s.inp.a).st = 0 ∧ (t.pilot s.inp.a).kicked = s.tide ∧ (t.pilot s.inp.a).tune = (s.pilot s.inp.a).shadow) :=
  ⟨({ inp := { a := 3 }, tide := 40000, ports := [(3, { st := 2 })], fab := {  }, switches := [(0, {  })], pilots := [(3, { st := 1, tune := [4], shadow := [5] })] }), ⟨(by decide +kernel), (by decide +kernel)⟩⟩

theorem met_LinkStepsComplete_32 :
  let takes := fun (s : State) => s.inp.a < 48 ∧ ((s.port s.inp.a).st = 2 ∨ (s.port s.inp.a).st = 3)
  let packet := fun (s : State) (c : Nat) (xs : List Int) => s.inp.ints = Int.ofNat c :: xs ∧ takes s ∧
    heldFor s s.inp.b = false ∧ routeOf (activeBank s) s.inp.b = some 63
  let step := fun (s : State) => stepOf (s.switch s.inp.a) (s.switch s.inp.a).slot (s.switch s.inp.a).step
  let fire := fun (s : State) => (s.switch s.inp.a).armed.toNat + (step s).dt
  let each := fun (s : State) (m : Nat) (f : LinkPort → LinkPort) =>
    (portsOf m).foldl (fun t p => t.modPort p fun x => if x.st = 6 then x else f x) s
  MetHappensTo .pilotRestart
    (fun s => s.inp.a < 64 ∧ (s.pilot s.inp.a).st = 3)
    (fun s t => (t.pilot s.inp.a).st = 0 ∧ (t.pilot s.inp.a).kicked = s.tide ∧ (t.pilot s.inp.a).tune = (s.pilot s.inp.a).tune) :=
  ⟨({ inp := { a := 3 }, tide := 40000, ports := [(3, { st := 2 })], fab := {  }, switches := [(0, {  })], pilots := [(3, { st := 3, tune := [4], shadow := [5] })] }), ⟨(by decide +kernel), (by decide +kernel)⟩⟩

theorem met_LinkStepsComplete_33 :
  let takes := fun (s : State) => s.inp.a < 48 ∧ ((s.port s.inp.a).st = 2 ∨ (s.port s.inp.a).st = 3)
  let packet := fun (s : State) (c : Nat) (xs : List Int) => s.inp.ints = Int.ofNat c :: xs ∧ takes s ∧
    heldFor s s.inp.b = false ∧ routeOf (activeBank s) s.inp.b = some 63
  let step := fun (s : State) => stepOf (s.switch s.inp.a) (s.switch s.inp.a).slot (s.switch s.inp.a).step
  let fire := fun (s : State) => (s.switch s.inp.a).armed.toNat + (step s).dt
  let each := fun (s : State) (m : Nat) (f : LinkPort → LinkPort) =>
    (portsOf m).foldl (fun t p => t.modPort p fun x => if x.st = 6 then x else f x) s
  MetHappensTo .pilotShadowUpdate (fun s => s.inp.a < 64 ∧ (s.pilot s.inp.a).st = 0)
    (fun s t => (t.pilot s.inp.a).shadow = (t.pilot s.inp.a).tune) :=
  ⟨({ inp := { a := 3 }, tide := 40000, ports := [(3, { st := 2 })], fab := {  }, switches := [(0, {  })], pilots := [(3, { tune := [4], shadow := [5] })] }), ⟨(by decide +kernel), (by decide +kernel)⟩⟩

theorem met_TollhouseStepsComplete_1 :
  MetHappensTo .clusterHalt
    (fun s => s.inp.a < 12800 ∧ s.halted s.inp.a = false ∧ (s.cluster s.inp.a).tdctl.getLsbD 0 = true ∧
      (s.inp.b = 1 ∨ s.inp.b = 2 ∨ s.inp.b = 3 ∨ s.inp.b = 5) ∧ ∀ g, g / 8 = s.inp.a → (s.core g).gsize ≠ 4)
    (fun s t => (t.cluster s.inp.a).tdst = wNat (1 + 2 * s.inp.b + 2 ^ 4 * (s.inp.c / 11 % 8) + 2 ^ 7 * (s.inp.c % 11)) ∧
      ∀ q, q / 88 = s.inp.a → (t.proc q).chunk = none) :=
  ⟨({ one [] fun p => { p with wait := .idle } with inp := { a := 0, b := 1 }, clusters := [(0, { tdctl := 7 })] }), ⟨(by decide +kernel), (by decide +kernel), (by decide +kernel), .inl (by decide +kernel), (forall_first rfl (by decide +kernel))⟩⟩

theorem met_TollhouseStepsComplete_2 :
  MetHappensTo .crossTriggerReceive
    (fun s => (s.cluster s.inp.b).tdctl.getLsbD 2 = true ∧ (triggered s s.inp.b).contains s.inp.a = true ∧
      (s.cluster s.inp.a).tdctl.getLsbD 0 = true ∧ s.halted s.inp.a = false ∧ ∀ g, g / 8 = s.inp.a → (s.core g).gsize ≠ 4)
    (fun s t => t.halted s.inp.a = true) :=
  ⟨({ one [] fun p => { p with wait := .idle } with inp := { a := 0, b := 1 }, clusters := [(0, { tdctl := 7 }), (1, { tdctl := 4 })], cores := [(0, { owner := some (0, 1) }), (8, { owner := some (0, 1) })], launches := [{ vf := 0, ln := 1, cls := [0, 1], st := .running }] }), ⟨(by decide +kernel), (by decide +kernel), (by decide +kernel), (by decide +kernel), (forall_first rfl (by decide +kernel))⟩⟩

theorem met_TollhouseStepsComplete_3 :
  MetHappens .crossTriggerReceive
    (fun s => (s.cluster s.inp.b).tdctl.getLsbD 2 = true ∧ (triggered s s.inp.b).contains s.inp.a = true ∧
      (s.cluster s.inp.a).tdctl.getLsbD 0 = false)
    (fun s => (List.range 8).foldl (fun t k =>
      let q := ctl (8 * s.inp.a + k)
      if (t.proc q).st == .live then raiseAsync t q 0x92 (wNat (t.core (8 * s.inp.b)).vcl) else t) s) :=
  ⟨({ one [] fun p => { p with wait := .idle } with inp := { a := 0, b := 1 }, clusters := [(0, { tdctl := 2 }), (1, { tdctl := 4 })], cores := [(0, { owner := some (0, 1) }), (8, { owner := some (0, 1) })], launches := [{ vf := 0, ln := 1, cls := [0, 1], st := .running }] }), ⟨(by decide +kernel), (by decide +kernel), (by decide +kernel)⟩⟩

theorem met_TollhouseStepsComplete_4 :
  MetHappensTo .tdgo
    (fun s => s.halted s.inp.a = true ∧ (s.cluster s.inp.a).dbg = [])
    (fun s t => (t.cluster s.inp.a).tdst = 0 ∧ ∀ q, q / 88 = s.inp.a → (s.proc q).st = .live →
      t.proc q = { s.proc q with skipBp := true }) :=
  ⟨({ one [] fun p => { p with wait := .idle } with inp := { a := 0, b := 1 }, clusters := [(0, { tdctl := 7, tdst := 1 })] }), ⟨(by decide +kernel), (by decide +kernel)⟩⟩

theorem met_TollhouseStepsComplete_5 :
  ∃ k v, MetHappensTo .tdgo
    (fun s => s.halted s.inp.a = true ∧ k < 8 ∧ (s.cluster s.inp.a).dbg = [(k, 4098, v)] ∧ (s.proc (88 * s.inp.a + 11 * k)).st = .live)
    (fun s t => t.reg (88 * s.inp.a + 11 * k) 1 = v) :=
  ⟨0, 77, ({ one [] fun p => { p with wait := .idle } with inp := { a := 0, b := 1 }, clusters := [(0, { tdctl := 7, tdst := 1, dbg := [(0, 4098, 77)] })] }), ⟨(by decide +kernel), (by decide +kernel), (by decide +kernel), (by decide +kernel)⟩⟩

theorem met_TollhouseStepsComplete_6 :
  MetHappens .debugWindowAccess
    (fun s => s.inp.c = 1 ∧ s.halted s.inp.a = true ∧ s.inp.b / 8 < 8240)
    (fun s => s.modCluster s.inp.a fun c => { c with dbg := (c.tdsel.toNat % 8, s.inp.b / 8, s.inp.w) :: c.dbg }) :=
  ⟨({ one [] fun p => { p with wait := .idle } with inp := { a := 0, c := 1, b := 5, w := 77 }, clusters := [(0, { tdctl := 7, tdst := 1 })] }), ⟨(by decide +kernel), (by decide +kernel), (by decide +kernel)⟩⟩

theorem met_TollhouseStepsComplete_7 :
  ∃ d rest, MetHappens .coreDumpWrite
    (fun s => s.dumping = none ∧ s.dumpQ = d :: rest ∧ (s.vfOf d.vf).dump0 ≠ 0 ∧ (s.vfOf d.vf).nextSlot ≠ (s.vfOf d.vf).nslot)
    (fun s => { s with dumpQ := rest, dumping := some d }) :=
  ⟨{ q := 0, code := 5, pc := 0x10002, val := 0, tide := 40, vf := 0, ln := 1 }, [], ({ one [] fun p => { p with wait := .idle } with inp := { a := 0, b := 1 }, clusters := [(0, { tdctl := 7 })], dumpQ := [{ q := 0, code := 5, pc := 0x10002, val := 0, tide := 40, vf := 0, ln := 1 }], vfs := [(0, { en := true, dump0 := 0x10000, nslot := 4 })] }), ⟨(by decide +kernel), (by decide +kernel), (by decide +kernel), (by decide +kernel)⟩⟩

theorem met_TollhouseStepsComplete_8 :
  ∃ d rest, MetHappensTo .coreDumpWrite
    (fun s => s.dumping = none ∧ s.dumpQ = d :: rest ∧ ((s.vfOf d.vf).dump0 = 0 ∨ (s.vfOf d.vf).nextSlot = (s.vfOf d.vf).nslot))
    (fun s t => t.dumpQ = rest ∧ (t.vfOf d.vf).dropSlot = min ((s.vfOf d.vf).dropSlot + 1) (2 ^ 32 - 1) ∧
      t.agenda.head? = some (.event .launchKill { a := d.vf, b := d.ln, c := 1, w := wNat d.code })) :=
  ⟨{ q := 0, code := 5, pc := 0x10002, val := 0, tide := 40, vf := 0, ln := 1 }, [], ({ one [] fun p => { p with wait := .idle } with inp := { a := 0, b := 1 }, clusters := [(0, { tdctl := 7 })], dumpQ := [{ q := 0, code := 5, pc := 0x10002, val := 0, tide := 40, vf := 0, ln := 1 }], vfs := [(0, { en := true, nslot := 4 })] }), ⟨(by decide +kernel), (by decide +kernel), .inl (by decide +kernel)⟩⟩

theorem met_TollhouseStepsComplete_9 :
  ∃ d, MetHappensTo .coreDumpWrite
    (fun s => s.dumping = some d)
    (fun _ t => t.dumping = none ∧ t.agenda.head? = some (.event .launchKill { a := d.vf, b := d.ln, c := 1, w := wNat d.code })) :=
  ⟨{ q := 0, code := 5, pc := 0x10002, val := 0, tide := 40, vf := 0, ln := 1 }, ({ one [] fun p => { p with wait := .idle } with inp := { a := 0, b := 1 }, clusters := [(0, { tdctl := 7 })], dumping := some { q := 0, code := 5, pc := 0x10002, val := 0, tide := 40, vf := 0, ln := 1 }, vfs := [(0, { en := true, dump0 := 0x10000, nslot := 4 })] }), (by decide +kernel)⟩

theorem met_TollhouseStepsComplete_10 :
  MetHappens .debugWindowAccess
    (fun s => s.inp.c ≠ 1 ∧ s.halted s.inp.a = true ∧ s.inp.b / 8 < 8240)
    (fun s =>
      let x := coreWord (debugView s s.inp.a) (8 * s.inp.a + (s.cluster s.inp.a).tdsel.toNat % 8) (s.inp.b / 8)
      { s with hostRead := leBytes 8 x.toNat }) :=
  ⟨({ one [] fun p => { p with wait := .idle } with inp := { a := 0, b := 65919 }, clusters := [(0, { tdctl := 7, tdst := 1 })] }), ⟨(by decide +kernel), (by decide +kernel), (by decide +kernel)⟩⟩

theorem met_TollhouseStepsComplete_11 :
  MetHappens .debugWindowAccess
    (fun s => s.inp.c ≠ 1 ∧ (s.halted s.inp.a = false ∨ 8240 ≤ s.inp.b / 8))
    (fun s => { s with hostRead := List.replicate 8 0 }) :=
  ⟨({ one [] fun p => { p with wait := .idle } with inp := { a := 0, b := 65920 }, clusters := [(0, { tdctl := 7, tdst := 1 })] }), ⟨(by decide +kernel), .inr (by decide +kernel)⟩⟩

theorem met_HostStepsComplete_1 :
  let bar2 := fun (s : State) (w : State) (write : Nat) (l : Loc) =>
    let va := (s.vfOf s.inp.a).winb + wNat s.inp.b
    s.inp.a < 64 ∧ pf0Only s = false ∧ s.inp.b < 2 ^ 34 ∧ 0 < s.inp.bytes.length ∧ va.toNat % 32 + s.inp.bytes.length ≤ 32 ∧ s.inp.c = write ∧
    translate s ferryQ s.inp.a va.toNat (if write = 0 then .load else .store) = .ok (w, l)
  let named := fun (s : State) => namedHart (s.inp.w.toNat % 8) (s.inp.w.toNat / 2 ^ 3 % 2 ^ 14)
  ∃ w pa, MetHappensTo .hostBar2Access (fun s => bar2 s w 1 (.own pa))
    (fun s t => ∀ j, (h : j < s.inp.bytes.length) → t.byteAt (pa + j) = s.inp.bytes[j]) :=
  ⟨_, 0x10040, ({ inp := { a := 2, b := 0x40, c := 1, bytes := [1, 2, 3, 4] }, vfs := [(2, { winb := 0x10000 })], slices := [(0, { tlb := [{ flat with vf := 2 }] })] }), ⟨(by decide +kernel), (by decide +kernel), (by decide +kernel), (by decide +kernel), (by decide +kernel), (by decide +kernel), (fine_with (by decide +kernel) (by decide +kernel))⟩⟩

theorem met_HostStepsComplete_2 :
  let bar2 := fun (s : State) (w : State) (write : Nat) (l : Loc) =>
    let va := (s.vfOf s.inp.a).winb + wNat s.inp.b
    s.inp.a < 64 ∧ pf0Only s = false ∧ s.inp.b < 2 ^ 34 ∧ 0 < s.inp.bytes.length ∧ va.toNat % 32 + s.inp.bytes.length ≤ 32 ∧ s.inp.c = write ∧
    translate s ferryQ s.inp.a va.toNat (if write = 0 then .load else .store) = .ok (w, l)
  let named := fun (s : State) => namedHart (s.inp.w.toNat % 8) (s.inp.w.toNat / 2 ^ 3 % 2 ^ 14)
  ∃ w pa wc, MetHappens .hostBar2Access (fun s => bar2 s w 1 (.host pa wc)) (fun s => hostStore w pa wc s.inp.bytes) :=
  ⟨_, 2 ^ 51 + 0x10040, true, ({ inp := { a := 2, b := 0x40, c := 1, bytes := [1, 2, 3, 4] }, vfs := [(2, { winb := 0x10000 })], slices := [(0, { tlb := [{ flat with vf := 2, pte := 0x8000000000000 + 0xBF }] })] }), ⟨(by decide +kernel), (by decide +kernel), (by decide +kernel), (by decide +kernel), (by decide +kernel), (by decide +kernel), (fine_with (by decide +kernel) (by decide +kernel))⟩⟩

theorem met_HostStepsComplete_3 :
  let bar2 := fun (s : State) (w : State) (write : Nat) (l : Loc) =>
    let va := (s.vfOf s.inp.a).winb + wNat s.inp.b
    s.inp.a < 64 ∧ pf0Only s = false ∧ s.inp.b < 2 ^ 34 ∧ 0 < s.inp.bytes.length ∧ va.toNat % 32 + s.inp.bytes.length ≤ 32 ∧ s.inp.c = write ∧
    translate s ferryQ s.inp.a va.toNat (if write = 0 then .load else .store) = .ok (w, l)
  let named := fun (s : State) => namedHart (s.inp.w.toNat % 8) (s.inp.w.toNat / 2 ^ 3 % 2 ^ 14)
  ∃ w pa, MetHappens .hostBar2Access (fun s => bar2 s w 0 (.own pa))
    (fun s => { w with hostRead := (List.range s.inp.bytes.length).map fun i => w.byteAt (pa + i) }) :=
  ⟨_, 0x10040, ({ inp := { a := 2, b := 0x40, c := 0, bytes := [0, 0, 0, 0] }, vfs := [(2, { winb := 0x10000 })], slices := [(0, { tlb := [{ flat with vf := 2 }] })] }), ⟨(by decide +kernel), (by decide +kernel), (by decide +kernel), (by decide +kernel), (by decide +kernel), (by decide +kernel), (fine_with (by decide +kernel) (by decide +kernel))⟩⟩

theorem met_HostStepsComplete_4 :
  let bar2 := fun (s : State) (w : State) (write : Nat) (l : Loc) =>
    let va := (s.vfOf s.inp.a).winb + wNat s.inp.b
    s.inp.a < 64 ∧ pf0Only s = false ∧ s.inp.b < 2 ^ 34 ∧ 0 < s.inp.bytes.length ∧ va.toNat % 32 + s.inp.bytes.length ≤ 32 ∧ s.inp.c = write ∧
    translate s ferryQ s.inp.a va.toNat (if write = 0 then .load else .store) = .ok (w, l)
  let named := fun (s : State) => namedHart (s.inp.w.toNat % 8) (s.inp.w.toNat / 2 ^ 3 % 2 ^ 14)
  MetHappens .registerWrite
    (fun s => s.inp.b = 0 ∧ s.inp.c ≠ 1 ∧ s.inp.a + s.inp.bytes.length ≤ 2 ^ 34 ∧ s.inp.bytes.length ∈ [1, 2, 4, 8] ∧
      s.inp.a % s.inp.bytes.length = 0 ∧ isKickBlock s.inp.a = false)
    (fun s =>
      let k := 8 * (s.inp.a % 8)
      let w := wNat (leNat s.inp.bytes * 2 ^ k)
      let m := wNat ((2 ^ (8 * s.inp.bytes.length) - 1) * 2 ^ k)
      regWrite s (s.inp.a / 8 * 8) ((regRead s (s.inp.a / 8 * 8) &&& ~~~m) ||| w) w) :=
  ⟨({ inp := { a := 0x24, bytes := [1, 2, 3, 4] } }), ⟨(by decide +kernel), (by decide +kernel), (by decide +kernel), (by decide +kernel), (by decide +kernel), (by decide +kernel)⟩⟩

theorem met_HostStepsComplete_5 :
  let bar2 := fun (s : State) (w : State) (write : Nat) (l : Loc) =>
    let va := (s.vfOf s.inp.a).winb + wNat s.inp.b
    s.inp.a < 64 ∧ pf0Only s = false ∧ s.inp.b < 2 ^ 34 ∧ 0 < s.inp.bytes.length ∧ va.toNat % 32 + s.inp.bytes.length ≤ 32 ∧ s.inp.c = write ∧
    translate s ferryQ s.inp.a va.toNat (if write = 0 then .load else .store) = .ok (w, l)
  let named := fun (s : State) => namedHart (s.inp.w.toNat % 8) (s.inp.w.toNat / 2 ^ 3 % 2 ^ 14)
  MetHappens .registerWrite
    (fun s => 1 ≤ s.inp.b ∧ s.inp.b ≤ 64 ∧ pf0Only s = false ∧ s.inp.c ≠ 1 ∧ s.inp.bytes.length = 8 ∧ s.inp.a % 8 = 0 ∧ s.inp.a < 2 ^ 16)
    (fun s =>
      let off := 0x1000000 + 0x10000 * (s.inp.b - 1) + s.inp.a
      regWrite s off (wNat (leNat s.inp.bytes)) (wNat (leNat s.inp.bytes))) :=
  ⟨({ inp := { a := 0x28, b := 64, bytes := [1, 2, 3, 4, 5, 6, 7, 8] } }), ⟨(by decide +kernel), (by decide +kernel), (by decide +kernel), (by decide +kernel), (by decide +kernel), (by decide +kernel), (by decide +kernel)⟩⟩

theorem met_HostStepsComplete_6 :
  let bar2 := fun (s : State) (w : State) (write : Nat) (l : Loc) =>
    let va := (s.vfOf s.inp.a).winb + wNat s.inp.b
    s.inp.a < 64 ∧ pf0Only s = false ∧ s.inp.b < 2 ^ 34 ∧ 0 < s.inp.bytes.length ∧ va.toNat % 32 + s.inp.bytes.length ≤ 32 ∧ s.inp.c = write ∧
    translate s ferryQ s.inp.a va.toNat (if write = 0 then .load else .store) = .ok (w, l)
  let named := fun (s : State) => namedHart (s.inp.w.toNat % 8) (s.inp.w.toNat / 2 ^ 3 % 2 ^ 14)
  MetHappens .fcenEnable (fun s => s.inp.a < 64 ∧ (s.vfOf s.inp.a).en = false)
    (fun s => s.modVf s.inp.a fun f => { f with
      en := true
      grant := ((List.range (min f.gcnt 12800)).map fun i => s.natAt (f.glist.toNat + 2 * i) 2).filter fun c =>
        decide (c < 12800) && !(s.cluster c).fenced }) :=
  ⟨({ inp := { a := 63 }, mem := [(0x1002, 3)], vfs := [(63, { glist := 0x1000, gcnt := 2 })] }), ⟨(by decide +kernel), (by decide +kernel)⟩⟩

theorem met_HostStepsComplete_7 :
  let bar2 := fun (s : State) (w : State) (write : Nat) (l : Loc) =>
    let va := (s.vfOf s.inp.a).winb + wNat s.inp.b
    s.inp.a < 64 ∧ pf0Only s = false ∧ s.inp.b < 2 ^ 34 ∧ 0 < s.inp.bytes.length ∧ va.toNat % 32 + s.inp.bytes.length ≤ 32 ∧ s.inp.c = write ∧
    translate s ferryQ s.inp.a va.toNat (if write = 0 then .load else .store) = .ok (w, l)
  let named := fun (s : State) => namedHart (s.inp.w.toNat % 8) (s.inp.w.toNat / 2 ^ 3 % 2 ^ 14)
  MetHappensTo .fcenDisable (fun s => (s.vfOf s.inp.a).en = true ∧ ∀ l ∈ s.launches, l.vf ≠ s.inp.a)
    (fun s t => (t.vfOf s.inp.a).en = false ∧ (t.vfOf s.inp.a).busy = false ∧ t.launches = s.launches) :=
  ⟨({ inp := { a := 63 }, vfs := [(63, { en := true })], launches := [{ vf := 2, ln := 1 }] }), ⟨(by decide +kernel), (by decide +kernel)⟩⟩

theorem met_HostStepsComplete_8 :
  let bar2 := fun (s : State) (w : State) (write : Nat) (l : Loc) =>
    let va := (s.vfOf s.inp.a).winb + wNat s.inp.b
    s.inp.a < 64 ∧ pf0Only s = false ∧ s.inp.b < 2 ^ 34 ∧ 0 < s.inp.bytes.length ∧ va.toNat % 32 + s.inp.bytes.length ≤ 32 ∧ s.inp.c = write ∧
    translate s ferryQ s.inp.a va.toNat (if write = 0 then .load else .store) = .ok (w, l)
  let named := fun (s : State) => namedHart (s.inp.w.toNat % 8) (s.inp.w.toNat / 2 ^ 3 % 2 ^ 14)
  MetHappensTo .translationInvalidate
    (fun s => ∀ e ∈ s.procs, e.2.chunk = none ∧ e.2.remoteOut = [] ∧ ∀ since ans va, e.2.wait ≠ .remote since true ans va)
    (fun s t => (t.vfOf s.inp.a).ib = false ∧ (∀ c, ∀ e ∈ (t.cluster c).tlb, e.vf ≠ s.inp.a) ∧
      ∀ c, ∀ e ∈ (t.slice c).tlb, e.vf ≠ s.inp.a) :=
  ⟨({ inp := { a := 63 }, clusters := [(5, { tlb := [{ flat with vf := 63 }, flat] })] }), (fun _ h => nomatch h)⟩

theorem met_HostStepsComplete_9 :
  let bar2 := fun (s : State) (w : State) (write : Nat) (l : Loc) =>
    let va := (s.vfOf s.inp.a).winb + wNat s.inp.b
    s.inp.a < 64 ∧ pf0Only s = false ∧ s.inp.b < 2 ^ 34 ∧ 0 < s.inp.bytes.length ∧ va.toNat % 32 + s.inp.bytes.length ≤ 32 ∧ s.inp.c = write ∧
    translate s ferryQ s.inp.a va.toNat (if write = 0 then .load else .store) = .ok (w, l)
  let named := fun (s : State) => namedHart (s.inp.w.toNat % 8) (s.inp.w.toNat / 2 ^ 3 % 2 ^ 14)
  MetHappens .slicePartition
    (fun s => s.inp.a < 640 ∧ s.inp.c = 0 ∧ s.inp.b ≤ 24 ∧ s.inp.b ≠ (s.slice s.inp.a).near ∧ (s.slice s.inp.a).parTo = none)
    (fun s => s.modSlice s.inp.a fun c => { c with parTo := some s.inp.b }) :=
  ⟨({ inp := { a := 639, b := 24 }, slices := [(639, { near := 3 })] }), ⟨(by decide +kernel), (by decide +kernel), (by decide +kernel), (by decide +kernel), (by decide +kernel)⟩⟩

theorem met_HostStepsComplete_10 :
  let bar2 := fun (s : State) (w : State) (write : Nat) (l : Loc) =>
    let va := (s.vfOf s.inp.a).winb + wNat s.inp.b
    s.inp.a < 64 ∧ pf0Only s = false ∧ s.inp.b < 2 ^ 34 ∧ 0 < s.inp.bytes.length ∧ va.toNat % 32 + s.inp.bytes.length ≤ 32 ∧ s.inp.c = write ∧
    translate s ferryQ s.inp.a va.toNat (if write = 0 then .load else .store) = .ok (w, l)
  let named := fun (s : State) => namedHart (s.inp.w.toNat % 8) (s.inp.w.toNat / 2 ^ 3 % 2 ^ 14)
  ∃ n, MetHappensTo .slicePartition (fun s => s.inp.a < 640 ∧ s.inp.c ≠ 0 ∧ (s.slice s.inp.a).parTo = some n)
    (fun s t => (t.slice s.inp.a).near = n ∧ (t.slice s.inp.a).parTo = none ∧
      ∀ o, min n (s.slice s.inp.a).near * 2 ^ 20 ≤ o → o < 2 ^ 25 → t.byteAt (2 ^ 40 + 2 ^ 25 * s.inp.a + o) = 0) :=
  ⟨24, ({ inp := { a := 639, c := 1 }, slices := [(639, { near := 3, parTo := some 24 })] }), ⟨(by decide +kernel), (by decide +kernel), (by decide +kernel)⟩⟩

theorem met_HostStepsComplete_11 :
  let bar2 := fun (s : State) (w : State) (write : Nat) (l : Loc) =>
    let va := (s.vfOf s.inp.a).winb + wNat s.inp.b
    s.inp.a < 64 ∧ pf0Only s = false ∧ s.inp.b < 2 ^ 34 ∧ 0 < s.inp.bytes.length ∧ va.toNat % 32 + s.inp.bytes.length ≤ 32 ∧ s.inp.c = write ∧
    translate s ferryQ s.inp.a va.toNat (if write = 0 then .load else .store) = .ok (w, l)
  let named := fun (s : State) => namedHart (s.inp.w.toNat % 8) (s.inp.w.toNat / 2 ^ 3 % 2 ^ 14)
  MetHappensTo .slicePartition
    (fun s => s.inp.a < 640 ∧ s.inp.c = 0 ∧ (24 < s.inp.b ∨ (s.slice s.inp.a).parTo.isSome = true))
    (fun s t => (t.slice s.inp.a).parErr = true ∧ (t.slice s.inp.a).near = (s.slice s.inp.a).near ∧ t.mem = s.mem) :=
  ⟨({ inp := { a := 639, b := 25 }, slices := [(639, { near := 3 })] }), ⟨(by decide +kernel), (by decide +kernel), .inl (by decide +kernel)⟩⟩

theorem met_HostStepsComplete_12 :
  let bar2 := fun (s : State) (w : State) (write : Nat) (l : Loc) =>
    let va := (s.vfOf s.inp.a).winb + wNat s.inp.b
    s.inp.a < 64 ∧ pf0Only s = false ∧ s.inp.b < 2 ^ 34 ∧ 0 < s.inp.bytes.length ∧ va.toNat % 32 + s.inp.bytes.length ≤ 32 ∧ s.inp.c = write ∧
    translate s ferryQ s.inp.a va.toNat (if write = 0 then .load else .store) = .ok (w, l)
  let named := fun (s : State) => namedHart (s.inp.w.toNat % 8) (s.inp.w.toNat / 2 ^ 3 % 2 ^ 14)
  MetHappens .alogcWrite (fun s => s.inp.a < 640 ∧ (s.slice s.inp.a).logRun = none)
    (fun s => s.modSlice s.inp.a fun c => { c with
      logEn := s.inp.w.getLsbD 0, logWrap := s.inp.w.getLsbD 1, logLen := s.inp.w.toNat / 2 ^ 3 % 2 ^ 21
      logHead := if s.inp.w.getLsbD 1 = c.logWrap ∧ s.inp.w.toNat / 2 ^ 3 % 2 ^ 21 = c.logLen then c.logHead else logPlace c }) :=
  ⟨({ inp := { a := 639, w := 0xFFFF } }), ⟨(by decide +kernel), (by decide +kernel)⟩⟩

theorem met_HostStepsComplete_13 :
  let bar2 := fun (s : State) (w : State) (write : Nat) (l : Loc) =>
    let va := (s.vfOf s.inp.a).winb + wNat s.inp.b
    s.inp.a < 64 ∧ pf0Only s = false ∧ s.inp.b < 2 ^ 34 ∧ 0 < s.inp.bytes.length ∧ va.toNat % 32 + s.inp.bytes.length ≤ 32 ∧ s.inp.c = write ∧
    translate s ferryQ s.inp.a va.toNat (if write = 0 then .load else .store) = .ok (w, l)
  let named := fun (s : State) => namedHart (s.inp.w.toNat % 8) (s.inp.w.toNat / 2 ^ 3 % 2 ^ 14)
  ∃ h ver len vec, MetHappensTo .ectlGo
    (fun s => named s = some h ∧ h < 13457 ∧ hartBusy s h = false ∧
      imageHeaderAt s s.emaddr.toNat (s.inp.w.toNat % 8) = some (ver, len, vec))
    (fun s t =>
      let p := t.proc (hartQOf h)
      p.loaded = true ∧ p.codeLen = len ∧ p.dispVec = vec ∧ p.version = ver ∧ p.r.pc = wNat vec ∧
      ∀ j, j < len → t.byteAt (ucKey h j) = s.byteAt (s.emaddr.toNat + 64 + j)) :=
  ⟨640, 9, 64, 2, ({ inp := { w := 1 }, emaddr := 0x10000, mem := Memory.writeList [] 0x10000 (leBytes 4 1 ++ leBytes 4 9 ++ leBytes 4 64 ++ leBytes 2 2) }), ⟨(by decide +kernel), (by decide +kernel), (by decide +kernel), (by decide +kernel)⟩⟩

theorem met_HostStepsComplete_14 : 
  let bar2 := fun (s : State) (w : State) (write : Nat) (l : Loc) =>
    let va := (s.vfOf s.inp.a).winb + wNat s.inp.b
    s.inp.a < 64 ∧ pf0Only s = false ∧ s.inp.b < 2 ^ 34 ∧ 0 < s.inp.bytes.length ∧ va.toNat % 32 + s.inp.bytes.length ≤ 32 ∧ s.inp.c = write ∧
    translate s ferryQ s.inp.a va.toNat (if write = 0 then .load else .store) = .ok (w, l)
  let named := fun (s : State) => namedHart (s.inp.w.toNat % 8) (s.inp.w.toNat / 2 ^ 3 % 2 ^ 14)
  (∃ (h : _) (ver : _) (len : _) (vec : _), MetHappensTo .ectlGo
    (fun s => named s = some h ∧ s.inp.w.toNat % 8 = 4 ∧ hartBusy s h = false ∧
      imageHeaderAt s s.emaddr.toNat 4 = some (ver, len, vec) ∧
      Config.imageVerifies ((List.range (64 + len + 2764)).map fun i => s.byteAt (s.emaddr.toNat + i)) = true)
    (fun s t =>
      let p := t.proc (hartQOf h)
      p.loaded = true ∧ p.codeLen = len ∧ p.dispVec = vec ∧ p.version = ver ∧ (t.pilot (h - 13457)).st = 3 ∧
      t.agenda.head? = some (.event .pilotRestart { a := h - 13457 }) ∧
      ∀ j, j < len → t.byteAt (ucKey h j) = s.byteAt (s.emaddr.toNat + 64 + j))) ∨
    (∃ (h : _) (ver : _) (len : _) (vec : _), MetHappens .ectlGo
    (fun s => named s = some h ∧ s.inp.w.toNat % 8 = 4 ∧ hartBusy s h = false ∧
      imageHeaderAt s s.emaddr.toNat 4 = some (ver, len, vec) ∧
      Config.imageVerifies ((List.range (64 + len + 2764)).map fun i => s.byteAt (s.emaddr.toNat + i)) = false)
    (fun s => { s with ectlErr := true })) :=
  by
  cases h : Config.imageVerifies ((List.range (64 + 64 + 2764)).map fun i => State.byteAt ({ inp := { w := 4 }, emaddr := 0x10000, mem := Memory.writeList [] 0x10000 (leBytes 4 4 ++ leBytes 4 9 ++ leBytes 4 64 ++ leBytes 2 2) }) (0x10000 + i)) with
  | true => exact .inl ⟨13457, 9, 64, 2, _, (by decide +kernel), (by decide +kernel), (by decide +kernel), (by decide +kernel), h⟩
  | false => exact .inr ⟨13457, 9, 64, 2, _, (by decide +kernel), (by decide +kernel), (by decide +kernel), (by decide +kernel), h⟩

theorem met_HostStepsComplete_16 :
  let bar2 := fun (s : State) (w : State) (write : Nat) (l : Loc) =>
    let va := (s.vfOf s.inp.a).winb + wNat s.inp.b
    s.inp.a < 64 ∧ pf0Only s = false ∧ s.inp.b < 2 ^ 34 ∧ 0 < s.inp.bytes.length ∧ va.toNat % 32 + s.inp.bytes.length ≤ 32 ∧ s.inp.c = write ∧
    translate s ferryQ s.inp.a va.toNat (if write = 0 then .load else .store) = .ok (w, l)
  let named := fun (s : State) => namedHart (s.inp.w.toNat % 8) (s.inp.w.toNat / 2 ^ 3 % 2 ^ 14)
  ∃ h, MetHappensTo .ectlRst
    (fun s => named s = some h ∧ (s.proc (hartQOf h)).stopped = true ∧ (s.proc (hartQOf h)).loaded = true)
    (fun s t => (t.proc (hartQOf h)).st = .live ∧ (t.proc (hartQOf h)).r.pc = wNat (s.proc (hartQOf h)).dispVec) :=
  ⟨640, ({ inp := { w := 1 }, procs := [(hartQOf 640, { stopped := true, loaded := true, st := .ended, codeLen := 64, dispVec := 2 })] }), ⟨(by decide +kernel), (by decide +kernel), (by decide +kernel)⟩⟩

theorem met_HostStepsComplete_17 :
  let bar2 := fun (s : State) (w : State) (write : Nat) (l : Loc) =>
    let va := (s.vfOf s.inp.a).winb + wNat s.inp.b
    s.inp.a < 64 ∧ pf0Only s = false ∧ s.inp.b < 2 ^ 34 ∧ 0 < s.inp.bytes.length ∧ va.toNat % 32 + s.inp.bytes.length ≤ 32 ∧ s.inp.c = write ∧
    translate s ferryQ s.inp.a va.toNat (if write = 0 then .load else .store) = .ok (w, l)
  let named := fun (s : State) => namedHart (s.inp.w.toNat % 8) (s.inp.w.toNat / 2 ^ 3 % 2 ^ 14)
  ∃ h, MetHappensTo .ectlRst
    (fun s => named s = some h ∧ (s.proc (hartQOf h)).stopped = true ∧ (s.proc (hartQOf h)).loaded = false)
    (fun _ t => runsDefault t h = true) :=
  ⟨640, ({ inp := { w := 1 }, procs := [(hartQOf 640, { stopped := true, st := .ended })] }), ⟨(by decide +kernel), (by decide +kernel), (by decide +kernel)⟩⟩

theorem met_HostStepsComplete_18 :
  let bar2 := fun (s : State) (w : State) (write : Nat) (l : Loc) =>
    let va := (s.vfOf s.inp.a).winb + wNat s.inp.b
    s.inp.a < 64 ∧ pf0Only s = false ∧ s.inp.b < 2 ^ 34 ∧ 0 < s.inp.bytes.length ∧ va.toNat % 32 + s.inp.bytes.length ≤ 32 ∧ s.inp.c = write ∧
    translate s ferryQ s.inp.a va.toNat (if write = 0 then .load else .store) = .ok (w, l)
  let named := fun (s : State) => namedHart (s.inp.w.toNat % 8) (s.inp.w.toNat / 2 ^ 3 % 2 ^ 14)
  MetHappens .ectlRst (fun s => named s = none) (fun s => { s with ectlErr := true }) :=
  ⟨({ inp := { w := 5 } }), (by decide +kernel)⟩

theorem met_HostStepsComplete_19 :
  let bar2 := fun (s : State) (w : State) (write : Nat) (l : Loc) =>
    let va := (s.vfOf s.inp.a).winb + wNat s.inp.b
    s.inp.a < 64 ∧ pf0Only s = false ∧ s.inp.b < 2 ^ 34 ∧ 0 < s.inp.bytes.length ∧ va.toNat % 32 + s.inp.bytes.length ≤ 32 ∧ s.inp.c = write ∧
    translate s ferryQ s.inp.a va.toNat (if write = 0 then .load else .store) = .ok (w, l)
  let named := fun (s : State) => namedHart (s.inp.w.toNat % 8) (s.inp.w.toNat / 2 ^ 3 % 2 ^ 14)
  MetHappens .efpop (fun _ => True) (fun s => { s with efaults := s.efaults.drop 1 }) :=
  ⟨({ inp := {  } }), trivial⟩

theorem met_HostStepsComplete_20 :
  let bar2 := fun (s : State) (w : State) (write : Nat) (l : Loc) =>
    let va := (s.vfOf s.inp.a).winb + wNat s.inp.b
    s.inp.a < 64 ∧ pf0Only s = false ∧ s.inp.b < 2 ^ 34 ∧ 0 < s.inp.bytes.length ∧ va.toNat % 32 + s.inp.bytes.length ≤ 32 ∧ s.inp.c = write ∧
    translate s ferryQ s.inp.a va.toNat (if write = 0 then .load else .store) = .ok (w, l)
  let named := fun (s : State) => namedHart (s.inp.w.toNat % 8) (s.inp.w.toNat / 2 ^ 3 % 2 ^ 14)
  MetHappensTo .deviceReset (fun s => s.inp.w = 0 ∧ ∀ e ∈ s.hostStale, 2 ^ 51 ≤ e.1)
    (fun s t => t.tide = 0 ∧ t.boot = true ∧ t.bstat = 255 ∧ t.launches = [] ∧ t.msix = [(0, 0)] ∧
      (∀ q, t.proc q = {}) ∧ ∀ a, a < 2 ^ 40 → t.byteAt a = s.byteAt a) :=
  ⟨({ inp := {  }, mem := [(5, 1), (2 ^ 40, 1)], procs := [(3, live [])] }), ⟨(by decide +kernel), (by decide +kernel)⟩⟩

theorem met_HostStepsComplete_21 : ∃ i ∈ [Instr.getVersion, .getCapabilities, .negotiateAlgorithms, .getDigests, .getCertificate, .challenge, .getMeasurements], MetHappens i (fun _ => True) id :=
  ⟨.challenge, (by decide +kernel), {}, trivial⟩

theorem met_HostStepsComplete_22 :
  let bar2 := fun (s : State) (w : State) (write : Nat) (l : Loc) =>
    let va := (s.vfOf s.inp.a).winb + wNat s.inp.b
    s.inp.a < 64 ∧ pf0Only s = false ∧ s.inp.b < 2 ^ 34 ∧ 0 < s.inp.bytes.length ∧ va.toNat % 32 + s.inp.bytes.length ≤ 32 ∧ s.inp.c = write ∧
    translate s ferryQ s.inp.a va.toNat (if write = 0 then .load else .store) = .ok (w, l)
  let named := fun (s : State) => namedHart (s.inp.w.toNat % 8) (s.inp.w.toNat / 2 ^ 3 % 2 ^ 14)
  MetHappens .gofull (fun s => s.full = false ∧ ∀ l ∈ s.launches, l.holds = false) (fun s => reformAll { s with full := true, goingFull := false }) :=
  ⟨({ inp := {  }, launches := [{ vf := 2, ln := 1 }] }), ⟨(by decide +kernel), (by decide +kernel)⟩⟩

theorem met_HostStepsComplete_23 :
  let bar2 := fun (s : State) (w : State) (write : Nat) (l : Loc) =>
    let va := (s.vfOf s.inp.a).winb + wNat s.inp.b
    s.inp.a < 64 ∧ pf0Only s = false ∧ s.inp.b < 2 ^ 34 ∧ 0 < s.inp.bytes.length ∧ va.toNat % 32 + s.inp.bytes.length ≤ 32 ∧ s.inp.c = write ∧
    translate s ferryQ s.inp.a va.toNat (if write = 0 then .load else .store) = .ok (w, l)
  let named := fun (s : State) => namedHart (s.inp.w.toNat % 8) (s.inp.w.toNat / 2 ^ 3 % 2 ^ 14)
  MetHappens .gofull (fun s => s.full = false ∧ ∃ l ∈ s.launches, l.holds = true) (fun s => { s with goingFull := true }) :=
  ⟨({ inp := {  }, launches := [{ vf := 2, ln := 1, st := .running }] }), ⟨(by decide +kernel), ⟨{ vf := 2, ln := 1, st := .running }, (by decide +kernel), (by decide +kernel)⟩⟩⟩

theorem met_HostStepsComplete_24 :
  let bar2 := fun (s : State) (w : State) (write : Nat) (l : Loc) =>
    let va := (s.vfOf s.inp.a).winb + wNat s.inp.b
    s.inp.a < 64 ∧ pf0Only s = false ∧ s.inp.b < 2 ^ 34 ∧ 0 < s.inp.bytes.length ∧ va.toNat % 32 + s.inp.bytes.length ≤ 32 ∧ s.inp.c = write ∧
    translate s ferryQ s.inp.a va.toNat (if write = 0 then .load else .store) = .ok (w, l)
  let named := fun (s : State) => namedHart (s.inp.w.toNat % 8) (s.inp.w.toNat / 2 ^ 3 % 2 ^ 14)
  MetHappensTo .cfenceCluster (fun s => s.inp.a < 12800 ∧ s.launches = [])
    (fun s t => (t.cluster s.inp.a).fenced = true ∧ t.rrq = true ∧ t.msix = s.msix ++ [(0, 3)]) :=
  ⟨({ inp := { a := 12799 } }), ⟨(by decide +kernel), (by decide +kernel)⟩⟩

theorem met_HostStepsComplete_25 :
  let bar2 := fun (s : State) (w : State) (write : Nat) (l : Loc) =>
    let va := (s.vfOf s.inp.a).winb + wNat s.inp.b
    s.inp.a < 64 ∧ pf0Only s = false ∧ s.inp.b < 2 ^ 34 ∧ 0 < s.inp.bytes.length ∧ va.toNat % 32 + s.inp.bytes.length ≤ 32 ∧ s.inp.c = write ∧
    translate s ferryQ s.inp.a va.toNat (if write = 0 then .load else .store) = .ok (w, l)
  let named := fun (s : State) => namedHart (s.inp.w.toNat % 8) (s.inp.w.toNat / 2 ^ 3 % 2 ^ 14)
  MetHappensTo .cfencePontoon (fun s => s.inp.a < 12800 ∧ (s.engine (640 + s.inp.a)).queue = [])
    (fun s t => (t.cluster s.inp.a).pfenced = true ∧ t.rrq = true ∧ t.msix = s.msix ++ [(0, 3)] ∧
      ∀ j, (s.pontoon s.inp.a).job = some j → j.fail = none → (t.pontoon s.inp.a).job = some { j with fail := some 0x70 }) :=
  ⟨({ inp := { a := 12799 } }), ⟨(by decide +kernel), (by decide +kernel)⟩⟩

theorem met_HostStepsComplete_26 :
  let bar2 := fun (s : State) (w : State) (write : Nat) (l : Loc) =>
    let va := (s.vfOf s.inp.a).winb + wNat s.inp.b
    s.inp.a < 64 ∧ pf0Only s = false ∧ s.inp.b < 2 ^ 34 ∧ 0 < s.inp.bytes.length ∧ va.toNat % 32 + s.inp.bytes.length ≤ 32 ∧ s.inp.c = write ∧
    translate s ferryQ s.inp.a va.toNat (if write = 0 then .load else .store) = .ok (w, l)
  let named := fun (s : State) => namedHart (s.inp.w.toNat % 8) (s.inp.w.toNat / 2 ^ 3 % 2 ^ 14)
  MetHappens .powerCapCheck (fun _ => True)
    (fun s => { s with cap := decide ((if 1 ≤ s.thermal then 1200 else s.plim) < s.inp.a) }) :=
  ⟨({ inp := { a := 3001 } }), trivial⟩

theorem met_HostStepsComplete_27 :
  let bar2 := fun (s : State) (w : State) (write : Nat) (l : Loc) =>
    let va := (s.vfOf s.inp.a).winb + wNat s.inp.b
    s.inp.a < 64 ∧ pf0Only s = false ∧ s.inp.b < 2 ^ 34 ∧ 0 < s.inp.bytes.length ∧ va.toNat % 32 + s.inp.bytes.length ≤ 32 ∧ s.inp.c = write ∧
    translate s ferryQ s.inp.a va.toNat (if write = 0 then .load else .store) = .ok (w, l)
  let named := fun (s : State) => namedHart (s.inp.w.toNat % 8) (s.inp.w.toNat / 2 ^ 3 % 2 ^ 14)
  MetHappensTo .thermalStateChange (fun s => s.thermal = 0 ∧ 100 ≤ s.inp.a ∧ s.inp.a < 110)
    (fun s t => t.thermal = 1 ∧ t.tmax = s.inp.a ∧ t.msix = s.msix ++ [(0, 4)] ∧ t.launches = s.launches) :=
  ⟨({ inp := { a := 109 } }), ⟨(by decide +kernel), (by decide +kernel), (by decide +kernel)⟩⟩

theorem met_HostStepsComplete_28 :
  let bar2 := fun (s : State) (w : State) (write : Nat) (l : Loc) =>
    let va := (s.vfOf s.inp.a).winb + wNat s.inp.b
    s.inp.a < 64 ∧ pf0Only s = false ∧ s.inp.b < 2 ^ 34 ∧ 0 < s.inp.bytes.length ∧ va.toNat % 32 + s.inp.bytes.length ≤ 32 ∧ s.inp.c = write ∧
    translate s ferryQ s.inp.a va.toNat (if write = 0 then .load else .store) = .ok (w, l)
  let named := fun (s : State) => namedHart (s.inp.w.toNat % 8) (s.inp.w.toNat / 2 ^ 3 % 2 ^ 14)
  MetHappensTo .thermalStateChange (fun s => s.thermal ≠ 2 ∧ 110 ≤ s.inp.a ∧ s.launches = [])
    (fun s t => t.thermal = 2 ∧ t.msix = s.msix ++ [(0, 4)] ∧ ∀ p, p < 48 → (s.port p).st ≠ 6 → (t.port p).st = 0) :=
  ⟨({ inp := { a := 110 } }), ⟨(by decide +kernel), (by decide +kernel), (by decide +kernel)⟩⟩

theorem met_HostStepsComplete_29 :
  let bar2 := fun (s : State) (w : State) (write : Nat) (l : Loc) =>
    let va := (s.vfOf s.inp.a).winb + wNat s.inp.b
    s.inp.a < 64 ∧ pf0Only s = false ∧ s.inp.b < 2 ^ 34 ∧ 0 < s.inp.bytes.length ∧ va.toNat % 32 + s.inp.bytes.length ≤ 32 ∧ s.inp.c = write ∧
    translate s ferryQ s.inp.a va.toNat (if write = 0 then .load else .store) = .ok (w, l)
  let named := fun (s : State) => namedHart (s.inp.w.toNat % 8) (s.inp.w.toNat / 2 ^ 3 % 2 ^ 14)
  MetHappens .registerWrite
    (fun s => s.inp.b = 0 ∧ s.inp.c = 1 ∧ s.inp.a + s.inp.bytes.length ≤ 2 ^ 34 ∧ s.inp.bytes.length ∈ [1, 2, 4, 8] ∧
      s.inp.a % s.inp.bytes.length = 0 ∧ isKickBlock s.inp.a = false)
    (fun s =>
      let x := (regRead s (s.inp.a / 8 * 8)).toNat / 2 ^ (8 * (s.inp.a % 8)) % 2 ^ (8 * s.inp.bytes.length)
      { s with hostRead := leBytes s.inp.bytes.length x }) :=
  ⟨({ inp := { a := 0x14, c := 1, bytes := [0, 0, 0, 0] } }), ⟨(by decide +kernel), (by decide +kernel), (by decide +kernel), (by decide +kernel), (by decide +kernel), (by decide +kernel)⟩⟩

theorem met_IllegalHeadsTrap_1 : ∃ (i : Instr) (op : Nat) (s : State), i.opcode = some op ∧ (∀ n, i ≠ .reservedOpcode n) ∧ alone s = true ∧ mayRun (whoOf s s.cur) op = false :=
  ⟨.dtake 5 0, _, one [], rfl, nofun, (by decide +kernel), (by decide +kernel)⟩

theorem met_IllegalHeadsTrap_2 : ∃ s, alone s = true :=
  ⟨one [], (by decide +kernel)⟩

theorem met_IllegalHeadsTrap_3 :
  MetTraps .eret (fun u => u.me.intrap = false) 0x03 (fun u => u.me.r.pc) :=
  ⟨(one []), (by decide +kernel), (by decide +kernel), (by decide +kernel)⟩

theorem met_TrapEntry_1 : ∃ s : State, alone s = true ∧ let p := (addParts (flushFlight (endChunk s s.cur) s.cur) s.cur).proc s.cur; p.intrap = true ∨ p.tvec = 0 :=
  ⟨one [], (by decide +kernel), (by decide +kernel)⟩

theorem met_TrapEntry_2 : ∃ (s : State) (l : Line) (n : Nat), alone s = true ∧
    let u := addParts (flushFlight (endChunk s s.cur) s.cur) s.cur
    let p := u.proc s.cur
    p.intrap = false ∧ p.tvec ≠ 0 ∧ p.tvec.getLsbD 0 = false ∧ residentLine u s.cur (lineBase p.tvec) = some l ∧
      l.check = some n ∧ 1 ≤ headIndex p.tvec ∧ headIndex p.tvec ≤ n :=
  ⟨one [] fun p => { p with tvec := 0x10002, flight := [⟨1001, 990, .g 7 9⟩], copy := some (0x10000, nopLine) }, nopLine, 1, (by decide +kernel), (by decide +kernel), (by decide +kernel), (by decide +kernel), (by decide +kernel), (by decide +kernel), (by decide +kernel), (by decide +kernel)⟩

theorem met_RoundTrip : ∃ i : Instr, i.wf = true ∧ i.opcode.isSome = true :=
  ⟨.addRr 5 6 7, (by decide +kernel), (by decide +kernel)⟩

theorem met_MemoryStaysCanonical : ∃ s t : State, Memory.wf s.mem = true ∧ step s = .next t :=
  ⟨one [], _, (by decide +kernel), next_of (by decide +kernel)⟩

theorem met_StepRunsDecoded_1 : ∃ (s : State) (q : Nat) (l : Line) (n : Nat) (i : Instr),
    let g := coreOf s.cur
    let pc := (s.proc q).r.pc
    s.agenda = [] ∧ isHart s.cur = false ∧ isHart q = false ∧ lowestPend (s.proc (ctl g)) = none ∧ slotOpen s g = true ∧
    choose s g = some q ∧ members s q = [q] ∧ coreOf q = g ∧ residentLine s q (lineBase pc) = some l ∧ l.check = some n ∧
    1 ≤ headIndex pc ∧ headIndex pc ≤ n ∧ pc.getLsbD 0 = false ∧ l.decode (headIndex pc) = .ok i ∧
    let u := (keepLine { s with cur := q, issued := false } q (lineBase pc) l).modProc q fun p => { p with copy := some (lineBase pc, l) }
    (g % 8 = 0 ∨ ∀ t, Sys2Proof.Machine.exec i u = .next t → (t.cluster (g / 8)).qcLast = (s.cluster (g / 8)).qcLast) :=
  ⟨one [] fun p => { p with copy := some (0x10000, nopLine) }, 0, nopLine, 1, .nop, (by decide +kernel), (by decide +kernel), (by decide +kernel), (by decide +kernel), (by decide +kernel), (by decide +kernel), (by decide +kernel), (by decide +kernel), (by decide +kernel), (by decide +kernel), (by decide +kernel), (by decide +kernel), (by decide +kernel), (decodes_of (by decide +kernel)), .inl (by decide +kernel)⟩

theorem met_StepRunsDecoded_2 : ∃ (s : State) (l : Line) (n : Nat) (i : Instr),
    let pc := s.me.r.pc
    s.agenda = [] ∧ isHart s.cur = true ∧ mayTry s s.cur = true ∧ towed s (hartIx s.cur) = false ∧
    residentLine s s.cur (lineBase pc) = some l ∧ l.check = some n ∧ 1 ≤ headIndex pc ∧ headIndex pc ≤ n ∧
    pc.getLsbD 0 = false ∧ legality s s.cur (bits (l.half (headIndex pc)) 8 8) = none ∧ l.decode (headIndex pc) = .ok i :=
  ⟨{ hart 0 [] with mem := Memory.writeList [] (ucKey 0 0) [1, 0, 0, 1] }, nopLine, 1, .nop, (by decide +kernel), (by decide +kernel), (by decide +kernel), (by decide +kernel), (by decide +kernel), (by decide +kernel), (by decide +kernel), (by decide +kernel), (by decide +kernel), (by decide +kernel), (decodes_of (by decide +kernel))⟩

theorem met_StepRunsDecoded_3 : ∃ (s : State) (q : Nat) (l : Line) (n : Nat),
    let pc := (s.proc q).r.pc
    members s q = [q] ∧ isHart q = false ∧ residentLine s q (lineBase pc) = some l ∧ l.check = some n ∧
    1 ≤ headIndex pc ∧ headIndex pc ≤ n ∧ pc.getLsbD 0 = false ∧ l.decode (headIndex pc) = .error .instrFormat :=
  ⟨one [] fun p => { p with copy := some (0x10000, BitVec.ofNat 512 (1 + 0x0101 * 2 ^ 16)) }, 0, BitVec.ofNat 512 (1 + 0x0101 * 2 ^ 16), 1, (by decide +kernel), (by decide +kernel), (by decide +kernel), (by decide +kernel), (by decide +kernel), (by decide +kernel), (by decide +kernel), (error_of (by decide +kernel))⟩

theorem met_StepRunsDecoded_4 : ∃ (s : State) (q : Nat) (l : Line),
    let pc := (s.proc q).r.pc
    members s q = [q] ∧ residentLine s q (lineBase pc) = some l ∧ l.check = none :=
  ⟨one [] fun p => { p with copy := some (0x10000, 0) }, 0, 0, (by decide +kernel), (by decide +kernel), (by decide +kernel)⟩

theorem met_StepRunsDecoded_5 : ∃ (s : State) (i : Instr) (inp : Input) (rest : List Turn), s.agenda = .event i inp :: rest ∧ i.isEvent = true :=
  ⟨{ one [] with agenda := [.event .gofull {}] }, .gofull, {}, [], (by decide +kernel), (by decide +kernel)⟩

theorem met_AccessFrames_1 : ∃ (i : Instr) (a : BitVec 6) (n : Nat) (ea : State → Word), i = .ldRi16 5 6 3 false false 8 ∧ a = 5 ∧ n = 8 ∧ ea = (fun u => u.ea 6 (8 : BitVec 16)) ∧
    ∃ (s : State) (l : Loc) (v : State) (x : Nat) (w : State), ready s i = true ∧ calm s i = true ∧ isReg a ∧
    check (ea (beginHead s i)) n n .load (beginHead s i) = .ok l v ∧
    ((∃ g o, l = .tcm g o) ∨ (∃ gc k o, l = .scratch gc k o) ∨ ∃ pa, l = .own pa) ∧ readLoc (ea (beginHead s i)) l n s.cur v = .ok x w :=
  ⟨_, _, _, _, rfl, rfl, rfl, rfl, one [(6, 0x2000)], .own 0x2008, _, _, _, (by decide +kernel), (by decide +kernel), (isReg_of (by decide +kernel)), (okIs_eq (by decide +kernel)), .inr (.inr ⟨_, rfl⟩), (ok_of_isOk (by decide +kernel))⟩

theorem met_AccessFrames_2 : ∃ (i : Instr) (a : BitVec 6) (n : Nat) (ea : State → Word), i = .ldRri32 5 6 7 2 true false 2 (-8) ∧ a = 5 ∧ n = 4 ∧ ea = (fun u => u.eaIx 6 7 2 (-8)) ∧
    ∃ (s : State) (l : Loc) (v : State) (x : Nat) (w : State), ready s i = true ∧ calm s i = true ∧ isReg a ∧
    check (ea (beginHead s i)) n n .load (beginHead s i) = .ok l v ∧
    ((∃ g o, l = .tcm g o) ∨ (∃ gc k o, l = .scratch gc k o) ∨ ∃ pa, l = .own pa) ∧ readLoc (ea (beginHead s i)) l n s.cur v = .ok x w :=
  ⟨_, _, _, _, rfl, rfl, rfl, rfl, one [(6, 0x2000), (7, 3)], .own 0x2004, _, _, _, (by decide +kernel), (by decide +kernel), (isReg_of (by decide +kernel)), (okIs_eq (by decide +kernel)), .inr (.inr ⟨_, rfl⟩), (ok_of_isOk (by decide +kernel))⟩

theorem met_AccessFrames_3 : ∃ (i : Instr) (a : BitVec 6) (n : Nat) (ea : State → Word), i = .stRi16 5 6 3 false 8 ∧ a = 5 ∧ n = 8 ∧ ea = (fun u => u.ea 6 (8 : BitVec 16)) ∧
    ∃ (s : State) (l : Loc) (v : State) (key : Nat) (u : State), ready s i = true ∧ calm s i = true ∧ isReg a ∧
    check (ea (beginHead s i)) n n .store (beginHead s i) = .ok l v ∧
    (l = .own key ∨ ∃ o, l = .tcm (coreOf s.cur) o ∧ isHart s.cur = false ∧ key = tcmKey (coreOf s.cur) o) ∧
    storeAt (beginHead s i) (ea (beginHead s i)) n (s.myReg a).toNat = some u ∧ chunkLines u s.cur ≤ 64 :=
  ⟨_, _, _, _, rfl, rfl, rfl, rfl, one [(5, 0x1122), (6, 0x2000)], .own 0x2008, _, 0x2008, _, (by decide +kernel), (by decide +kernel), (isReg_of (by decide +kernel)), (okIs_eq (by decide +kernel)), .inl rfl, (some_of_isSome (by decide +kernel)), (by decide +kernel)⟩

theorem met_AccessFrames_4 : ∃ (i : Instr) (a : BitVec 6) (n : Nat) (ea : State → Word), i = .stRri32 5 6 7 0 false 3 0 ∧ a = 5 ∧ n = 1 ∧ ea = (fun u => u.eaIx 6 7 3 0) ∧
    ∃ (s : State) (l : Loc) (v : State) (key : Nat) (u : State), ready s i = true ∧ calm s i = true ∧ isReg a ∧
    check (ea (beginHead s i)) n n .store (beginHead s i) = .ok l v ∧
    (l = .own key ∨ ∃ o, l = .tcm (coreOf s.cur) o ∧ isHart s.cur = false ∧ key = tcmKey (coreOf s.cur) o) ∧
    storeAt (beginHead s i) (ea (beginHead s i)) n (s.myReg a).toNat = some u ∧ chunkLines u s.cur ≤ 64 :=
  ⟨_, _, _, _, rfl, rfl, rfl, rfl, one [(5, 0x1122), (6, 0x2000), (7, 1)], .own 0x2008, _, 0x2008, _, (by decide +kernel), (by decide +kernel), (isReg_of (by decide +kernel)), (okIs_eq (by decide +kernel)), .inl rfl, (some_of_isSome (by decide +kernel)), (by decide +kernel)⟩

theorem met_AccessFrames_5 : ∃ (i : Instr) (a : BitVec 6) (n : Nat) (ea : State → Word), i = .stRi16 5 6 3 false 8 ∧ a = 5 ∧ n = 8 ∧ ea = (fun u => u.ea 6 (8 : BitVec 16)) ∧
    ∃ (s : State) (l : Loc) (v : State) (gc k o : Nat) (u : State), ready s i = true ∧ calm s i = true ∧ isReg a ∧
    (∀ c, s.me.chunk = some c → c.held = []) ∧ check (ea (beginHead s i)) n n .store (beginHead s i) = .ok l v ∧ l = .scratch gc k o ∧
    storeAt (beginHead s i) (ea (beginHead s i)) n (s.myReg a).toNat = some u ∧ chunkLines u s.cur ≤ 64 :=
  ⟨_, _, _, _, rfl, rfl, rfl, rfl, one [(5, 0x1122), (6, 0xFFFF200000000000)], .scratch 0 0 8, _, _, _, _, _, (by decide +kernel), (by decide +kernel), (isReg_of (by decide +kernel)), (never_some (by decide +kernel)), (okIs_eq (by decide +kernel)), rfl, (some_of_isSome (by decide +kernel)), (by decide +kernel)⟩

theorem met_AccessFrames_6 : ∃ (i : Instr) (a : BitVec 6) (n : Nat) (ea : State → Word), i = .stRri32 5 6 7 0 false 3 0 ∧ a = 5 ∧ n = 1 ∧ ea = (fun u => u.eaIx 6 7 3 0) ∧
    ∃ (s : State) (l : Loc) (v : State) (gc k o : Nat) (u : State), ready s i = true ∧ calm s i = true ∧ isReg a ∧
    (∀ c, s.me.chunk = some c → c.held = []) ∧ check (ea (beginHead s i)) n n .store (beginHead s i) = .ok l v ∧ l = .scratch gc k o ∧
    storeAt (beginHead s i) (ea (beginHead s i)) n (s.myReg a).toNat = some u ∧ chunkLines u s.cur ≤ 64 :=
  ⟨_, _, _, _, rfl, rfl, rfl, rfl, one [(5, 0x1122), (6, 0xFFFF200000000000), (7, 1)], .scratch 0 0 8, _, _, _, _, _, (by decide +kernel), (by decide +kernel), (isReg_of (by decide +kernel)), (never_some (by decide +kernel)), (okIs_eq (by decide +kernel)), rfl, (some_of_isSome (by decide +kernel)), (by decide +kernel)⟩

theorem met_VectorFrame_1 : ∃ (i : Instr) (f : VecOp) (s : State), vecOf i = some f ∧ ready s i = true ∧ calm s i = true :=
  ⟨.vor 8 27 21 4 false 9, _, one [], rfl, (by decide +kernel), (by decide +kernel)⟩

theorem met_VectorFrame_2 : ∃ (i : Instr) (f : PredOp) (s : State), predOf i = some f ∧ ready s i = true ∧ calm s i = true :=
  ⟨.vcmp 6 3 8 3 true 5 7 0, _, one [], rfl, (by decide +kernel), (by decide +kernel)⟩
end

