-- ==== Sys2Proof/Tests/MetRequests.lean ====
section
/-!
SUPPORT. Witnesses of the statements about handles, copies, transforms and launches: for each clause a concrete state and operands that meet its hypotheses together.
-/

open Sys2Proof Sys2Proof.Machine
set_option maxRecDepth 20000
set_option Elab.async false
set_option linter.unusedVariables false

theorem met_JettyCompletes_1 :
  ∃ a b i v m, MetDoesTo (.jpeek a b) a 2
    (fun u => src b u = .ok i v ∧ i.toNat ≤ 31 ∧ v.myCore.jetty[i.toNat]? = some m)
    (fun _ => v.land 2 (.jhi (m.extractLsb' 64 64))) (fun _ => m.extractLsb' 0 64) :=
  ⟨5, 6, _, _, _, _, (one [(6, 1)] id fun c => { c with jetty := [7, 8] }), (by decide +kernel), (by decide +kernel), ⟨(ok_of_isOk (by decide +kernel)), (by decide +kernel), (some_of_isSome (by decide +kernel))⟩, (ok_unit_of_isOk (by decide +kernel)), (by decide +kernel)⟩

theorem met_JettyCompletes_2 :
  ∃ m ms, MetDoes .jdrop (fun u => u.myCore.jetty = m :: ms)
    (fun u => u.modCore (coreOf u.cur) fun c => { c with jetty := ms }) :=
  ⟨7, [8], (one [] id fun c => { c with jetty := [7, 8] }), (by decide +kernel), (by decide +kernel), (by decide +kernel), (by decide +kernel)⟩

theorem met_JettyCompletes_3 :
  ∃ a b, MetDoesOnceTo (.cpycan a b) a 1
    (fun u => (u.myReg b).toNat < 2 ^ 20 ∧ (∀ t, u.me.wait ≠ .engine t) ∧ copyOutstanding u (coreOf u.cur) (u.myReg b) = false)
    id (fun _ => 1) :=
  ⟨5, 6, _, (one [(6, 1)]), (by decide +kernel), ⟨(by decide +kernel), (not_engine (by decide +kernel)), (by decide +kernel)⟩, (ok_unit_of_isOk (by decide +kernel)), (by decide +kernel)⟩

theorem met_JettyCompletes_4 :
  ∃ a b t, MetDoesOnceTo (.cpycan a b) a 1
    (fun u => (u.myReg b).toNat < 2 ^ 20 ∧ u.me.wait = .engine t ∧ copyOutstanding u (coreOf u.cur) (u.myReg b) = false)
    id (fun _ => 0) :=
  ⟨5, 6, 900, _, (one [(6, 1)] fun p => { p with wait := .engine 900 }), (by decide +kernel), (by decide +kernel), (ok_unit_of_isOk (by decide +kernel)), (by decide +kernel)⟩

theorem met_HandlesComplete_1 :
  ∃ a b c nt k gen, MetDoesTo (.halloc a b c nt) a 1
    (fun u => 1 ≤ (u.myReg c).toNat ∧ (u.myReg c).toNat < 2 ^ 48 ∧
      (u.myReg b).toNat + (u.myReg c).toNat ≤ 2 ^ 48 ∧
      (List.range 65536).find? (fun k => decide (1 ≤ k) && slotFree u u.me.vf k) = some k ∧
      gen = handleDw u u.me.vf k 1 / 2 ^ 48 % 2 ^ 12)
    (fun u =>
      let f := u.me.vf
      let v := putHandle (putHandle (setSlotFree u f k false) f k 0 (u.myReg b).toNat) f k 1
        ((u.myReg c).toNat + 2 ^ 48 * gen + 2 ^ 60)
      performAt v (handleEntry u f k + 16) (leBytes 4 0))
    (fun _ => wNat (k + 2 ^ 16 * gen + 2 ^ 28 * b2n nt)) :=
  ⟨5, 6, 7, true, 1, _, _, ({ one [(6, 0x4000), (7, 256)] with mem := [(0, 2)] }), (by decide +kernel), (by decide +kernel), ⟨(by decide +kernel), (by decide +kernel), (by decide +kernel), (by decide +kernel), rfl⟩, (ok_unit_of_isOk (by decide +kernel)), (by decide +kernel)⟩

theorem met_HandlesComplete_2 :
  ∃ a b c nt, MetDoesTo (.halloc a b c nt) a 1
    (fun u => 1 ≤ (u.myReg c).toNat ∧ (u.myReg c).toNat < 2 ^ 48 ∧
      (u.myReg b).toNat + (u.myReg c).toNat ≤ 2 ^ 48 ∧
      (List.range 65536).find? (fun k => decide (1 ≤ k) && slotFree u u.me.vf k) = none)
    id (fun _ => 0) :=
  ⟨5, 6, 7, true, _, (one [(6, 0x4000), (7, 256)]), (by decide +kernel), (by decide +kernel), (by decide +kernel), (ok_unit_of_isOk (by decide +kernel)), (by decide +kernel)⟩

theorem met_HandlesComplete_3 :
  ∃ a b, MetDoesTo (.hfree a b) a 1
    (fun u =>
      let k := (u.myReg b).toNat % 2 ^ 16
      let d := handleDw u u.me.vf k 1
      let v := putHandle u u.me.vf k 1 (hDw1 (hLen d) (hGen d) true true)
      (u.myReg b).toNat < 2 ^ 29 ∧ u.me.wait = .idle ∧ handleStale u u.me.vf (u.myReg b).toNat = false ∧
      v.natAt (handleEntry v u.me.vf k + 16) 4 = 0)
    (fun u =>
      let f := u.me.vf
      let k := (u.myReg b).toNat % 2 ^ 16
      let d := handleDw u f k 1
      let v := putHandle u f k 1 (hDw1 (hLen d) (hGen d) true true)
      setSlotFree (putHandle v f k 1 (hDw1 (hLen d) (hGen d + 1) false false)) f k true)
    (fun _ => 0) :=
  ⟨5, 6, _, ({ one [(6, 1)] with mem := Memory.writeList [] (handleEntry (one []) 0 1 + 8) (leBytes 8 (2 ^ 60 + 64)) }), (by decide +kernel), (by decide +kernel), (by decide +kernel), (ok_unit_of_isOk (by decide +kernel)), (by decide +kernel)⟩

theorem met_HandlesComplete_4 :
  ∃ a b, MetDoesTo (.hfree a b) a 1
    (fun u => (u.myReg b).toNat < 2 ^ 29 ∧ (∃ c, u.me.wait = .engine c) ∧
      u.natAt (handleEntry u u.me.vf ((u.myReg b).toNat % 2 ^ 16) + 16) 4 = 0)
    (fun u =>
      let f := u.me.vf
      let k := (u.myReg b).toNat % 2 ^ 16
      let d := handleDw u f k 1
      setSlotFree (putHandle u f k 1 (hDw1 (hLen d) (hGen d + 1) false false)) f k true)
    (fun _ => 0) :=
  ⟨5, 6, _, (one [(6, 1)] fun p => { p with wait := .engine 900 }), (by decide +kernel), (by decide +kernel), ⟨(by decide +kernel), ⟨900, (by decide +kernel)⟩, (by decide +kernel)⟩, (ok_unit_of_isOk (by decide +kernel)), (by decide +kernel)⟩

theorem met_HandlesComplete_5 :
  ∃ a b c, MetDoesTo (.hbump a b c) a 1
    (fun u =>
      let d := handleDw u u.me.vf ((u.myReg b).toNat % 2 ^ 16) 1
      (u.myReg b).toNat < 2 ^ 29 ∧ handleStale u u.me.vf (u.myReg b).toNat = false ∧
      (u.myReg c).toNat + hLen d ≤ 2 ^ 48)
    (fun u =>
      let f := u.me.vf
      let k := (u.myReg b).toNat % 2 ^ 16
      let d := handleDw u f k 1
      putHandle (putHandle u f k 0 (u.myReg c).toNat) f k 1 (hDw1 (hLen d) (hGen d + 1) true false))
    (fun u =>
      let k := (u.myReg b).toNat % 2 ^ 16
      wNat (k + 2 ^ 16 * ((hGen (handleDw u u.me.vf k 1) + 1) % 4096) + 2 ^ 28 * ((u.myReg b).toNat / 2 ^ 28 % 2))) :=
  ⟨5, 6, 7, _, ({ one [(6, 1), (7, 0x4000)] with mem := Memory.writeList [] (handleEntry (one []) 0 1 + 8) (leBytes 8 (2 ^ 60 + 64)) }), (by decide +kernel), (by decide +kernel), (by decide +kernel), (ok_unit_of_isOk (by decide +kernel)), (by decide +kernel)⟩

theorem met_CopiesKicked_1 :
  ∃ a b c nt tag hs w, MetDoesOnceTo (.cpyPk a b c nt tag) a 2
    (fun u =>
      let r := u.regs b 12
      regsOk b 12 = true ∧ layoutOk u r = true ∧ (peerForm u u.cur (u.myReg c)).toNat % rBytes r = 0 ∧
      recHandle r u = .ok hs w ∧ canKick w (homeSlice (clusterOf w.cur)) = true)
    (fun u => copyKicked w
      { op := 0x91, sel := 0, args := u.regs b 12 ++ [u.myReg c], tag := tag.toNat, nt := nt || handleNt (u.regs b 12),
        base := basePrime u (u.regs b 12), base2 := peerForm u u.cur (u.myReg c), handles := hs })
    (fun _ => requestId w w.me.seqCpy) :=
  ⟨5, 10, 6, true, 7, _, _, _, (one [(10, 0x4000), (12, 3), (19, 3), (6, 0x8000)]), (by decide +kernel), ⟨(by decide +kernel), (by decide +kernel), (by decide +kernel), (ok_of_isOk (by decide +kernel)), (by decide +kernel)⟩, (ok_unit_of_isOk (by decide +kernel)), (by decide +kernel)⟩

theorem met_CopiesKicked_2 :
  ∃ a b c nt tag hs w, MetDoesOnceTo (.cpyLand a b c nt tag) a 2
    (fun u =>
      let r := u.regs b 12
      regsOk b 12 = true ∧ layoutOk u r = true ∧ ringOk u ((u.myReg c).toNat % 16) r = true ∧
      recHandle r u = .ok hs w ∧ canKick w (homeSlice (clusterOf w.cur)) = true)
    (fun u => copyKicked w
      { op := 0x91, sel := 1, args := u.regs b 12 ++ [u.myReg c], tag := tag.toNat, nt := nt || handleNt (u.regs b 12),
        base := basePrime u (u.regs b 12), handles := hs, ring := some ((u.myReg c).toNat % 16)
        iter := (u.myReg c).toNat / 16 })
    (fun _ => requestId w w.me.seqCpy) :=
  ⟨5, 10, 6, false, 7, _, _, _, (one [(10, 0x4000), (12, 3), (19, 3), (6, 5)] id id fun k => { k with rings := [(5, { cfg := 0x4000800, party := 0x4000 })] }), (by decide +kernel), ⟨(by decide +kernel), (by decide +kernel), (by decide +kernel), (ok_of_isOk (by decide +kernel)), (by decide +kernel)⟩, (ok_unit_of_isOk (by decide +kernel)), (by decide +kernel)⟩

theorem met_CopiesKicked_3 :
  ∃ a b c nt tag hs v hd w, MetDoesOnceTo (.cpyRec a b c nt tag) a 2
    (fun u =>
      let r := u.regs b 12
      let d := u.regs c 12
      regsOk b 12 = true ∧ regsOk c 12 = true ∧ layoutOk u r = true ∧ layoutOk u d = true ∧
      rFm d = 0 ∧ rFv d = 0 ∧ rBic d = 0 ∧ d.getD 9 0 = r.getD 9 0 ∧ rNib d = rNib r ∧
      recHandle r u = .ok hs v ∧ recHandle d v = .ok hd w ∧ canKick w (homeSlice (clusterOf w.cur)) = true)
    (fun u => copyKicked w
      { op := 0x91, sel := 2, args := u.regs b 12 ++ u.regs c 12, tag := tag.toNat
        nt := nt || handleNt (u.regs b 12) || handleNt (u.regs c 12)
        base := basePrime u (u.regs b 12), base2 := basePrime u (u.regs c 12), handles := hs ++ hd })
    (fun _ => requestId w w.me.seqCpy) :=
  ⟨5, 10, 22, false, 7, _, _, _, _, _, (one [(10, 0x4000), (12, 3), (19, 3), (22, 0x8000), (24, 9), (31, 3)]), (by decide +kernel), ⟨(by decide +kernel), (by decide +kernel), (by decide +kernel), (by decide +kernel), (by decide +kernel), (by decide +kernel), (by decide +kernel), (by decide +kernel), (by decide +kernel), (ok_of_isOk (by decide +kernel)), (ok_of_isOk (by decide +kernel)), (by decide +kernel)⟩, (ok_unit_of_isOk (by decide +kernel)), (by decide +kernel)⟩

theorem met_CopiesKicked_4 :
  ∃ a b c nt tag hs w, MetDoesOnceTo (.cpyLoop a b c nt tag) a 2
    (fun u =>
      let r := u.regs b 12
      let l := u.regs c 3
      regsOk b 12 = true ∧ regsOk c 3 = true ∧ layoutOk u r = true ∧ loopOk r l = true ∧
      ringOk u ((l.getD 0 0).toNat / 2 ^ 32 % 16) r = true ∧
      recHandle r u = .ok hs w ∧ canKick w (homeSlice (clusterOf w.cur)) = true)
    (fun u => copyKicked w
      { op := 0x92, args := u.regs b 12 ++ u.regs c 3, tag := tag.toNat, nt := nt || handleNt (u.regs b 12)
        base := basePrime u (u.regs b 12), handles := hs, ring := some (((u.regs c 3).getD 0 0).toNat / 2 ^ 32 % 16) })
    (fun _ => requestId w w.me.seqCpy) :=
  ⟨5, 10, 22, false, 7, _, _, _, (one [(10, 0x4000), (12, 3), (19, 3), (22, 0x500000002)] id id fun k => { k with rings := [(5, { cfg := 0x4000800, party := 0x4000 })] }), (by decide +kernel), ⟨(by decide +kernel), (by decide +kernel), (by decide +kernel), (by decide +kernel), (by decide +kernel), (ok_of_isOk (by decide +kernel)), (by decide +kernel)⟩, (ok_unit_of_isOk (by decide +kernel)), (by decide +kernel)⟩

theorem met_LandingRingsComplete_1 :
  ∃ a b c r x y w, MetDoesOnceTo (.landInit a b c r) a 1
    (fun u =>
      let o := ringOf w (clusterOf w.cur) r.toNat
      pops u b c x y w ∧ ringWordsOk x y = true ∧ o.looping = false ∧ o.inflight = 0 ∧
      ∀ st ∈ o.stages.vals, st.full = false ∧ st.own = 0 ∧ st.bnd = false)
    (fun _ => modRing w (clusterOf w.cur) r.toNat fun _ => { cfg := x, party := y })
    (fun _ => (ringOf w (clusterOf w.cur) r.toNat).cfg) :=
  ⟨5, 6, 7, 3, _, _, _, _, (one [(6, 0x4000800), (7, 0x4000)]), (by decide +kernel), ⟨⟨_, (ok_of_isOk (by decide +kernel)), (ok_of_isOk (by decide +kernel))⟩, (by decide +kernel), (by decide +kernel), (by decide +kernel), (by decide +kernel)⟩, (ok_unit_of_isOk (by decide +kernel)), (by decide +kernel)⟩

theorem met_LandingRingsComplete_2 :
  ∃ a b r chk nw k v, MetDoesOnceTo (.landAcq a b r chk nw) a 3
    (fun u =>
      let x := ringOf v (clusterOf v.cur) r.toNat
      let st := x.stage (k.toNat % x.nst)
      src b u = .ok k v ∧ x.enabled = true ∧ x.anyParty (coreOf v.cur % 8) (slotOf v.cur) = true ∧
      x.matchesParty st.own (coreOf v.cur % 8) (slotOf v.cur) = true ∧
      (0 < st.own ∨ st.full = false ∧ st.bnd = false) ∧ (chk = true → 0 < st.own → st.tag = k.toNat % 2 ^ 16))
    (fun _ => v)
    (fun _ =>
      let x := ringOf v (clusterOf v.cur) r.toNat
      wNat (0xFFFF200000000000 + x.base (k.toNat % x.nst))) :=
  ⟨5, 6, 5, true, false, _, _, _, (one [(6, 3)] id id fun k => { k with rings := [(5, { cfg := 0x4000800, party := 0x4000, stages := [(0, ⟨true, 1, false, 3⟩)] })] }), (by decide +kernel), ⟨(ok_of_isOk (by decide +kernel)), (by decide +kernel), (by decide +kernel), (by decide +kernel), (by decide +kernel), (by decide +kernel)⟩, (ok_unit_of_isOk (by decide +kernel)), (by decide +kernel)⟩

theorem met_LandingRingsComplete_3 :
  ∃ a b r chk k v, MetDoesOnceTo (.landAcq a b r chk true) a 3
    (fun u =>
      let x := ringOf v (clusterOf v.cur) r.toNat
      let st := x.stage (k.toNat % x.nst)
      src b u = .ok k v ∧ x.enabled = true ∧ x.anyParty (coreOf v.cur % 8) (slotOf v.cur) = true ∧
      (x.matchesParty st.own (coreOf v.cur % 8) (slotOf v.cur) = false ∨ st.own = 0 ∧ (st.full = true ∨ st.bnd = true)))
    (fun _ => v) (fun _ => 0) :=
  ⟨5, 6, 5, true, _, _, _, (one [(6, 3)] id id fun k => { k with rings := [(5, { cfg := 0x4000800, party := 0x4000 })] }), (by decide +kernel), ⟨(ok_of_isOk (by decide +kernel)), (by decide +kernel), (by decide +kernel), (by decide +kernel)⟩, (ok_unit_of_isOk (by decide +kernel)), (by decide +kernel)⟩

theorem met_LandingRingsComplete_4 :
  ∃ b r k v, MetDoesOnce (.landRel b r)
    (fun u =>
      let x := ringOf v (clusterOf v.cur) r.toNat
      let st := x.stage (k.toNat % x.nst)
      src b u = .ok k v ∧ x.enabled = true ∧ x.matchesParty st.own (coreOf v.cur % 8) (slotOf v.cur) = true ∧
      (0 < st.own ∨ st.full = false ∧ st.bnd = false))
    (fun _ =>
      let x := ringOf v (clusterOf v.cur) r.toNat
      let k := k.toNat
      modRing v (clusterOf v.cur) r.toNat fun y =>
        if (x.stage (k % x.nst)).own = 0 then y.setStage (k % x.nst) { full := true, own := 1, bnd := false, tag := k % 2 ^ 16 }
        else y.release (k % x.nst)) :=
  ⟨6, 5, _, _, (one [(6, 3)] id id fun k => { k with rings := [(5, { cfg := 0x4000800, party := 0x4000, stages := [(0, ⟨true, 1, false, 3⟩)] })] }), (by decide +kernel), ⟨(ok_of_isOk (by decide +kernel)), (by decide +kernel), (by decide +kernel), (by decide +kernel)⟩, (by decide +kernel)⟩

theorem met_BargeMicrocodeCompletes_1 :
  ∃ a nw k r rest, MetDoes (.bget a nw)
    (fun u =>
      let e := u.engine (hartIx u.cur)
      regsOk a 4 = true ∧ freeSlotOf e = some k ∧ (if fromForward e then e.fwd else e.queue) = r :: rest)
    (fun u =>
      let f := fromForward (u.engine (hartIx u.cur))
      let v := u.modMine fun e => { e with
        slots := e.slots.put k r, sel := k, lastFwd := f
        queue := if f then e.queue else rest, fwd := if f then rest else e.fwd }
      landRegs (v.modProc u.cur fun p => { p with vf := r.vf }) a (requestWords r)) :=
  ⟨4, true, 0, { op := 0x91, sel := 0, args := (List.range 12).map (fun i => if i = 0 then 0x4000 else if i = 2 then 3 else if i = 9 then 3 else 0) ++ [0x8000], base := 0x4000, base2 := 0x8000, rid := 16, tag := 7 }, [], (hart 0 [] id fun e => { e with queue := [{ op := 0x91, sel := 0, args := (List.range 12).map (fun i => if i = 0 then 0x4000 else if i = 2 then 3 else if i = 9 then 3 else 0) ++ [0x8000], base := 0x4000, base2 := 0x8000, rid := 16, tag := 7 }] }), (by decide +kernel), (by decide +kernel), ⟨(by decide +kernel), (by decide +kernel), (by decide +kernel)⟩, (by decide +kernel)⟩

theorem met_BargeMicrocodeCompletes_2 :
  ∃ a, MetDoes (.bget a true)
    (fun u =>
      let e := u.engine (hartIx u.cur)
      regsOk a 4 = true ∧ e.fwd = [] ∧ e.queue = [])
    (fun u => landRegs u a [0, 0, 0, 0]) :=
  ⟨4, (hart 0 []), (by decide +kernel), (by decide +kernel), ⟨(by decide +kernel), (by decide +kernel), (by decide +kernel)⟩, (by decide +kernel)⟩

theorem met_BargeMicrocodeCompletes_3 :
  ∃ a b c d r v f, MetDoes (.bstreamMove a b c d)
    (fun u => isReg a ∧ mySlot u = some r ∧ r.killed = false ∧ r.canc = false ∧ u.copiesFrozen (clusterOf r.q) = false ∧
      copyRun u (hartIx u.cur) r (u.myReg d).toNat (u.myReg b).toNat
        (min (u.myReg c).toNat (rCount r.source - (u.myReg b).toNat)) = (v, f) ∧ ∀ code j, f = some (code, j) → isWait code = false)
    (fun u =>
      let w := ownStores u v u.cur (myEngine u).sel
      match f with
      | none => w.landG 1 a 0
      | some (code, j) => (forgetStalls w u.cur code).landG 1 a (wNat (code + 2 ^ 8 * j))) :=
  ⟨5, 6, 7, 8, { op := 0x91, sel := 0, args := (List.range 12).map (fun i => if i = 0 then 0x4000 else if i = 2 then 3 else if i = 9 then 3 else 0) ++ [0x8000], base := 0x4000, base2 := 0x8000, rid := 16, tag := 7 }, _, none, ({ hart 0 [(6, 0), (7, 8), (8, 0)] id fun e => { e with slots := [(0, { op := 0x91, sel := 0, args := (List.range 12).map (fun i => if i = 0 then 0x4000 else if i = 2 then 3 else if i = 9 then 3 else 0) ++ [0x8000], base := 0x4000, base2 := 0x8000, rid := 16, tag := 7 })] } with slices := [(0, { tlb := [flat] })], clusters := [(0, { tlb := [flat] })] }), (by decide +kernel), (by decide +kernel), ⟨(isReg_of (by decide +kernel)), (by decide +kernel), (by decide +kernel), (by decide +kernel), (by decide +kernel), (pair_none (by decide +kernel)), nofun⟩, (by decide +kernel)⟩

theorem met_BargeMicrocodeCompletes_4 :
  ∃ a b c d r, MetDoes (.bstreamMove a b c d)
    (fun u => isReg a ∧ mySlot u = some r ∧ (r.killed = true ∨ r.canc = true))
    (fun u => u.landG 1 a (wNat ((if r.killed then 0x91 else 0x64) + 2 ^ 8 * ((u.myReg b).toNat % 2 ^ 32)))) :=
  ⟨5, 6, 7, 8, { op := 0x91, sel := 0, args := (List.range 12).map (fun i => if i = 0 then 0x4000 else if i = 2 then 3 else if i = 9 then 3 else 0) ++ [0x8000], base := 0x4000, base2 := 0x8000, rid := 16, tag := 7, killed := true }, ({ hart 0 [(6, 0), (7, 8), (8, 0)] id fun e => { e with slots := [(0, { op := 0x91, sel := 0, args := (List.range 12).map (fun i => if i = 0 then 0x4000 else if i = 2 then 3 else if i = 9 then 3 else 0) ++ [0x8000], base := 0x4000, base2 := 0x8000, rid := 16, tag := 7, killed := true })] } with slices := [(0, { tlb := [flat] })], clusters := [(0, { tlb := [flat] })] }), (by decide +kernel), (by decide +kernel), ⟨(isReg_of (by decide +kernel)), (by decide +kernel), .inl (by decide +kernel)⟩, (by decide +kernel)⟩

theorem met_BargeMicrocodeCompletes_5 :
  ∃ a r w, MetDoes (.bstreamOwner a)
    (fun u => isReg a ∧ mySlot u = some r ∧ workingBarge u (hartIx u.cur) r = .ok w) (fun u => u.landG 1 a (wNat w)) :=
  ⟨5, { op := 0x91, sel := 0, args := (List.range 12).map (fun i => if i = 0 then 0x4000 else if i = 2 then 3 else if i = 9 then 3 else 0) ++ [0x8000], base := 0x4000, base2 := 0x8000, rid := 16, tag := 7 }, _, ({ hart 0 [(6, 0), (7, 8), (8, 0)] id fun e => { e with slots := [(0, { op := 0x91, sel := 0, args := (List.range 12).map (fun i => if i = 0 then 0x4000 else if i = 2 then 3 else if i = 9 then 3 else 0) ++ [0x8000], base := 0x4000, base2 := 0x8000, rid := 16, tag := 7 })] } with slices := [(0, { tlb := [flat] })], clusters := [(0, { tlb := [flat] })] }), (by decide +kernel), (by decide +kernel), ⟨(isReg_of (by decide +kernel)), (by decide +kernel), (fine_of_isFine (by decide +kernel))⟩, (by decide +kernel)⟩

theorem met_BargeMicrocodeCompletes_6 :
  ∃ b r, MetDoes (.bstreamFwd b)
    (fun u => mySlot u = some r ∧ r.fwd = false ∧ bargeRuns u (u.myReg b).toNat ∧ (u.engine (u.myReg b).toNat).fwd.length < 64)
    (fun u => (u.modMine fun e => { e with slots := e.slots.del e.sel }).modEngine (u.myReg b).toNat fun e =>
      { e with fwd := e.fwd ++ [{ r with fwd := true }] }) :=
  ⟨6, { op := 0x91, sel := 0, args := (List.range 12).map (fun i => if i = 0 then 0x4000 else if i = 2 then 3 else if i = 9 then 3 else 0) ++ [0x8000], base := 0x4000, base2 := 0x8000, rid := 16, tag := 7 }, ({ hart 0 [(6, 81), (7, 8), (8, 0)] id fun e => { e with slots := [(0, { op := 0x91, sel := 0, args := (List.range 12).map (fun i => if i = 0 then 0x4000 else if i = 2 then 3 else if i = 9 then 3 else 0) ++ [0x8000], base := 0x4000, base2 := 0x8000, rid := 16, tag := 7 })] } with slices := [(0, { tlb := [flat] })], clusters := [(0, { tlb := [flat] })] }), (by decide +kernel), (by decide +kernel), ⟨(by decide +kernel), (by decide +kernel), ⟨(by decide +kernel), (by decide +kernel)⟩, (by decide +kernel)⟩, (by decide +kernel)⟩

theorem met_BargeMicrocodeCompletes_7 :
  ∃ a b r n, MetDoes (.blandWait a b)
    (fun u => isReg a ∧ mySlot u = some r ∧ r.killed = false ∧ r.canc = false ∧ r.park = false ∧ r.ring = some n ∧
      (ringOf u (clusterOf r.q) n).writable ((u.myReg b).toNat % (ringOf u (clusterOf r.q) n).nst) = true)
    (fun u =>
      let st := (u.myReg b).toNat % (ringOf u (clusterOf r.q) n).nst
      ((modRing u (clusterOf r.q) n fun x => x.bind ((u.myReg b).toNat % x.nst)).modMine fun e =>
        { e with slots := e.slots.put e.sel { r with bound := some st, iter := (u.myReg b).toNat } }).landG 1 a 0) :=
  ⟨5, 6, { op := 0x91, sel := 1, ring := some 5, iter := 0 , rid := 16, tag := 7 }, 5, ({ hart 0 [(6, 0), (7, 8), (8, 0)] id fun e => { e with slots := [(0, { op := 0x91, sel := 1, ring := some 5, iter := 0 , rid := 16, tag := 7 })] } with clusters := [(0, { rings := [(5, { cfg := 0x4000800, party := 0x4000, inflight := 1 })] })] }), (by decide +kernel), (by decide +kernel), ⟨(isReg_of (by decide +kernel)), (by decide +kernel), (by decide +kernel), (by decide +kernel), (by decide +kernel), (by decide +kernel), (by decide +kernel)⟩, (by decide +kernel)⟩

theorem met_BargeMicrocodeCompletes_8 :
  ∃ b r n, MetDoes (.blandFill b)
    (fun u => mySlot u = some r ∧ r.ring = some n ∧
      ((ringOf u (clusterOf r.q) n).stage ((u.myReg b).toNat % (ringOf u (clusterOf r.q) n).nst)).bnd = true)
    (fun u => (modRing u (clusterOf r.q) n fun x => x.fill ((u.myReg b).toNat % x.nst) (u.myReg b).toNat).modMine fun e =>
      { e with slots := e.slots.put e.sel { r with bound := none, iter := (u.myReg b).toNat + 1 } }) :=
  ⟨6, { op := 0x91, sel := 1, ring := some 5, iter := 0 , rid := 16, tag := 7 }, 5, ({ hart 0 [(6, 0), (7, 8), (8, 0)] id fun e => { e with slots := [(0, { op := 0x91, sel := 1, ring := some 5, iter := 0 , rid := 16, tag := 7 })] } with clusters := [(0, { rings := [(5, { cfg := 0x4000800, party := 0x4000, inflight := 1, stages := [(0, { bnd := true })] })] })] }), (by decide +kernel), (by decide +kernel), ⟨(by decide +kernel), (by decide +kernel), (by decide +kernel)⟩, (by decide +kernel)⟩

theorem met_BargeMicrocodeCompletes_9 :
  ∃ b c r, MetDoes (.blandDone b c) (fun u => mySlot u = some r ∧ storesDone u u.cur (myEngine u).sel = true)
    (fun u => post (releaseHolds ((leaveCopy (dropStores u u.cur (myEngine u).sel) (hartIx u.cur) r
        (leftBy r ((u.myReg b).toNat % 2 ^ 8) ((u.myReg c).toNat % 2 ^ 30))).modEngine (hartIx u.cur) fun e =>
          { e with slots := e.slots.del (myEngine u).sel }) r) (hartIx u.cur) r
      (frameOf ((u.myReg b).toNat % 2 ^ 8) 0 r.rid.toNat (hartIx u.cur) (r.tag + 2 ^ 32 * ((u.myReg c).toNat % 2 ^ 30)))) :=
  ⟨6, 7, { op := 0x91, sel := 0, args := (List.range 12).map (fun i => if i = 0 then 0x4000 else if i = 2 then 3 else if i = 9 then 3 else 0) ++ [0x8000], base := 0x4000, base2 := 0x8000, rid := 16, tag := 7 }, ({ hart 0 [(6, 0), (7, 8), (8, 0)] id fun e => { e with slots := [(0, { op := 0x91, sel := 0, args := (List.range 12).map (fun i => if i = 0 then 0x4000 else if i = 2 then 3 else if i = 9 then 3 else 0) ++ [0x8000], base := 0x4000, base2 := 0x8000, rid := 16, tag := 7 })] } with slices := [(0, { tlb := [flat] })], clusters := [(0, { tlb := [flat] })] }), (by decide +kernel), (by decide +kernel), ⟨(by decide +kernel), (by decide +kernel)⟩, (by decide +kernel)⟩

theorem met_TransformRequestsComplete_1 :
  ∃ a b k tag w, MetDoesTo (.xreq a b) a 2 (fun u => offer (u.myReg b) u = .ok (.accepted k tag) w)
    (fun _ => w) (fun _ => wNat (1 + 2 * k + 2 ^ 8 * tag)) :=
  ⟨5, 6, 0, 0, _, _, ({ one [(6, 0x2000)] with mem := Memory.writeList [(0x10000, 1), (0x10003, 1)] 0x2000 [2] }), (by decide +kernel), (by decide +kernel), (okIs_eq (by decide +kernel)), (ok_unit_of_isOk (by decide +kernel)), (by decide +kernel)⟩

theorem met_TransformRequestsComplete_2 :
  ∃ a b w, MetDoesTo (.xreq a b) a 2 (fun u => offer (u.myReg b) u = .ok .full w) (fun _ => w) (fun _ => 0) :=
  ⟨5, 6, _, _, ({ one [(6, 0x2000)] id id (fun k => { k with xslots := [(0, {}), (1, {}), (2, {}), (3, {})] }) with mem := Memory.writeList [(0x10000, 1), (0x10003, 1)] 0x2000 [2] }), (by decide +kernel), (by decide +kernel), (okIs_eq (by decide +kernel)), (ok_unit_of_isOk (by decide +kernel)), (by decide +kernel)⟩

theorem met_TransformRequestsComplete_3 :
  ∃ a b n w, MetDoesTo (.xreq a b) a 2 (fun u => offer (u.myReg b) u = .ok (.busy n) w) (fun _ => w) (fun _ => wNat (2 + 4 * n)) :=
  ⟨5, 6, 0, _, _, ({ one [(6, 0x2000)] id id (fun k => { k with xslots := (List.range 8).map fun i => (i, { core := 1 }) }) with mem := Memory.writeList [(0x10000, 1), (0x10003, 1)] 0x2000 [2] }), (by decide +kernel), (by decide +kernel), (okIs_eq (by decide +kernel)), (ok_unit_of_isOk (by decide +kernel)), (by decide +kernel)⟩

theorem met_TransformRequestsComplete_4 :
  ∃ a, MetDoesTo (.xstat a) a 1 (fun _ => True) id (fun u =>
    let g := coreOf u.cur
    let c := lapsed (u.cluster (g / 8)) u.tide.toNat
    let claim := c.xclaims.contains g
    wNat ((c.xslots.filter fun e => e.2.core == g).length + 2 ^ 3 * b2n claim +
      2 ^ 4 * b2n (c.xheld.any fun h => h.2.1 == g) +
      2 ^ 5 * (if claim then (c.xclaims.takeWhile (· != g)).length else 0) + 2 ^ 8 * u.myCore.xq.length)) :=
  ⟨5, _, (one [] id id fun k => { k with xslots := [(0, {})] }), (by decide +kernel), (by decide +kernel), trivial, (ok_unit_of_isOk (by decide +kernel)), (by decide +kernel)⟩

theorem met_LaunchHeadsComplete_1 :
  ∃ a b q ds u1 r u2 pa u3 u4, MetDoesOnceTo (.launch a b q) a 2
    (fun u =>
      let va := queueVa u u.me.vf q.toNat
      let d : QDesc := ⟨ds⟩
      q.toNat ≤ 15 ∧ (u.vfOf u.me.vf).qtab ≠ 0 ∧ loadDws va 8 u = .ok ds u1 ∧ d.ok = true ∧ d.en = true ∧ d.hostq = false ∧
      loadDws (u.myReg b) 15 u1 = .ok r u2 ∧ tailPlace (va + 16) u2 = .ok pa u3 ∧ (d.tail - d.head).toNat < 2 ^ d.lcap ∧
      putImage u3 u.cur u.me.vf (d.slot d.tail) (r.take 15 ++ [d.tail + 1]) = .ok u4 ∧
      jettyFull u2 (coreOf u.cur) = false ∧ canKick (atomicAt u4 (leader u4 u.cur) 0 pa 0 8 false 1 0).2 ferryman = true)
    (fun u =>
      let t := (QDesc.mk ds).tail
      raiseEvent (kicked (atomicAt u4 (leader u4 u.cur) 0 pa 0 8 false 1 0).2 ferryman
        { op := 0x89, sel := q.toNat, rid := wNat (t.toNat % 2 ^ 32), tag := t.toNat / 2 ^ 32 })
        { kind := 1, vf := u.me.vf, queue := q.toNat })
    (fun _ => (QDesc.mk ds).tail) :=
  ⟨5, 6, 2, _, _, _, _, _, _, _, _, ({ one [(6, 0x24000)] with mem := Memory.writeList [(0x10000, 1), (0x10003, 1)] 0x20080 (leBytes 8 0x22000 ++ leBytes 8 0x141), vfs := [(0, { qtab := 0x20000 })] }), (by decide +kernel), ⟨(by decide +kernel), (by decide +kernel), (ok_of_isOk (by decide +kernel)), (by decide +kernel), (by decide +kernel), (by decide +kernel), (ok_of_isOk (by decide +kernel)), (ok_of_isOk (by decide +kernel)), (by decide +kernel), (fine_of_isFine (by decide +kernel)), (by decide +kernel), (by decide +kernel)⟩, (ok_unit_of_isOk (by decide +kernel)), (by decide +kernel)⟩

theorem met_LaunchHeadsComplete_2 :
  ∃ a b sc imm pa w, MetDoesTo (.evsig a b sc imm) a 1
    (fun u =>
      let v := u.released sc
      ordered u sc true = true ∧ decodeVa v v.cur v.me.vf (u.ea b imm).toNat = some .global ∧
      check (u.ea b imm) 8 8 .atomic v = .ok (.own pa) w ∧ isWcPage w (u.ea b imm).toNat = false)
    (fun u => eventChanged (logAtomic (performAt w pa (leBytes 8 ((w.natAt pa 8 + 1) % 2 ^ 64)))
      (ownerSlice pa) (leader w w.cur) 0) w.me.vf (u.ea b imm))
    (fun _ => wNat (w.natAt pa 8)) :=
  ⟨5, 6, 4, 8, 0x24008, _, _, (one [(6, 0x24000)]), (by decide +kernel), (by decide +kernel), ⟨(by decide +kernel), (by decide +kernel), (okIs_eq (by decide +kernel)), (by decide +kernel)⟩, (ok_unit_of_isOk (by decide +kernel)), (by decide +kernel)⟩

theorem met_LaunchHeadsComplete_3 :
  ∃ a b sc imm x v pa w, MetDoes (.evwait a b sc imm)
    (fun u => ordered u sc false = true ∧ src a u = .ok x v ∧ (∀ l, v.me.wait ≠ .ev l false) ∧
      watchTarget (v.ea b imm) 8 v = .ok pa w ∧ x.toNat ≤ w.natAt pa 8)
    (fun _ => w) :=
  ⟨5, 6, 4, 8, _, _, _, _, (one [(6, 0x24000)]), (by decide +kernel), (by decide +kernel), ⟨(by decide +kernel), (ok_of_isOk (by decide +kernel)), (not_ev (by decide +kernel)), (ok_of_isOk (by decide +kernel)), (by decide +kernel)⟩, (by decide +kernel)⟩

theorem met_LaunchHeadsComplete_4 :
  ∃ a q, MetDoesTo (.lqstat a q) a 1 (fun _ => q.toNat ≤ 15) id (fun u => wNat (lqstat u u.me.vf q.toNat)) :=
  ⟨5, 2, _, ({ one [] with mem := Memory.writeList [(0x10000, 1), (0x10003, 1)] 0x20080 (leBytes 8 0x22000 ++ leBytes 8 0x141), vfs := [(0, { qtab := 0x20000 })] }), (by decide +kernel), (by decide +kernel), (by decide +kernel), (ok_unit_of_isOk (by decide +kernel)), (by decide +kernel)⟩

theorem met_LaunchHeadsComplete_5 :
  MetDoesOnce .yieldOp (fun _ => True) id (fun u => { after := if u.myCore.preempt then .parked else .idle }) :=
  ⟨(one []), (by decide +kernel), trivial, (by decide +kernel)⟩

theorem met_FerrymanMicrocodeCompletes_1 :
  ∃ a t e rest, MetDoesTo (.dtake a t) a 1 (fun u => u.devents = e :: rest)
    (fun u => ({ u with devents := rest } : State).modProc u.cur fun p => { p with vf := e.vf })
    (fun _ => wNat (e.kind + 2 ^ 8 * (e.vf % 64) + 2 ^ 14 * (e.queue % 16) + 2 ^ 32 * (e.ln % 2 ^ 32))) :=
  ⟨5, 2, ⟨1, 3, 4, 5⟩, [], _, ({ hart 13456 [] with devents := [⟨1, 3, 4, 5⟩] }), (by decide +kernel), (by decide +kernel), (by decide +kernel), (ok_unit_of_isOk (by decide +kernel)), (by decide +kernel)⟩

theorem met_FerrymanMicrocodeCompletes_2 :
  ∃ a t c, MetDoesTo (.dtake a t) a 1
    (fun u => u.devents = [] ∧ u.me.wait = .engine c ∧ t ≠ 0 ∧ c.toNat + 1024 * t.toNat ≤ u.tide.toNat) id (fun _ => 0) :=
  ⟨5, 2, 900, _, ({ hart 13456 [] fun p => { p with wait := .engine 900 } with tide := 5000 }), (by decide +kernel), (by decide +kernel), ⟨(by decide +kernel), (by decide +kernel), (by decide +kernel), (by decide +kernel)⟩, (ok_unit_of_isOk (by decide +kernel)), (by decide +kernel)⟩

theorem met_FerrymanMicrocodeCompletes_3 :
  ∃ a b c lc v r w, MetDoesTo (.dplaceStart a b c lc) a 1
    (fun u =>
      let gc := (u.myReg c).toNat
      let l : Launch := { vf := u.me.vf, queue := 16, pos := (r.getD 16 0).toNat % 2 ^ 32, rec16 := r.take 16
                          ln := (r.getD 16 0).toNat % 2 ^ 32 }
      (u.vfOf u.me.vf).grant.contains gc = true ∧ readDws u u.cur u.me.vf (u.myReg b) 17 = .ok (v, r) ∧
      checkTarget (startCluster (joinLaunch v l gc lc.toNat) l gc lc.toNat) (ctl (8 * gc)) (l.dw 0) = .ok w)
    (fun _ => w) (fun _ => 0) :=
  ⟨5, 6, 7, 0, _, _, _, _, ({ hart 13456 [(6, 0x20000), (7, 0)] with vfs := [(0, { grant := [0, 9], sch0 := 1 })], clusters := [(0, { tlb := [flat] })], mem := [(0x10000, 1), (0x10003, 1), (0x20000, 2), (0x20002, 1)], slices := [(0, { tlb := [flat] })] }), (by decide +kernel), (by decide +kernel), ⟨(by decide +kernel), (fine_of_isFine (by decide +kernel)), (fine_of_isFine (by decide +kernel))⟩, (ok_unit_of_isOk (by decide +kernel)), (by decide +kernel)⟩

theorem met_FerrymanMicrocodeCompletes_4 :
  ∃ a b c lc, MetDoesTo (.dplacePreq a b c lc) a 1
    (fun u => (u.vfOf u.me.vf).grant.contains (u.myReg c).toNat = true)
    (fun u => (List.range 8).foldl (fun t k => t.modCore (8 * (u.myReg c).toNat + k) fun x => { x with preempt := true }) u)
    (fun _ => 0) :=
  ⟨5, 6, 7, 0, _, ({ hart 13456 [(6, 0x20000), (7, 0)] with vfs := [(0, { grant := [0, 9], sch0 := 1 })], clusters := [(0, { tlb := [flat] })], mem := [(0x10000, 1), (0x10003, 1), (0x20000, 2), (0x20002, 1)], slices := [(0, { tlb := [flat] })] }), (by decide +kernel), (by decide +kernel), (by decide +kernel), (ok_unit_of_isOk (by decide +kernel)), (by decide +kernel)⟩

theorem met_FerrymanMicrocodeCompletes_7 :
  ∃ a b c lc t, MetDoesTo (.dplaceKill a b c lc) a 1
    (fun u => (u.vfOf u.me.vf).grant.contains (u.myReg c).toNat = true ∧ u.me.wait = .engine t ∧
      killDone u (u.myReg c).toNat = true)
    (fun u => clearCluster u (u.myReg c).toNat) (fun _ => 0) :=
  ⟨5, 6, 7, 0, 900, _, ({ hart 13456 [(6, 0x20000), (7, 0)] fun p => { p with wait := .engine 900 } with vfs := [(0, { grant := [0, 9], sch0 := 1 })], clusters := [(0, { tlb := [flat] })], mem := [(0x10000, 1), (0x10003, 1), (0x20000, 2), (0x20002, 1)], slices := [(0, { tlb := [flat] })] }), (by decide +kernel), (by decide +kernel), ⟨(by decide +kernel), (by decide +kernel), (by decide +kernel)⟩, (ok_unit_of_isOk (by decide +kernel)), (by decide +kernel)⟩
end

