-- ==== Sys2Proof/Tests/MetScalar.lean ====
section
/-!
SUPPORT. Witnesses of the statements about the scalar engine: for each clause a concrete state and operands that meet its hypotheses together.
-/

open Sys2Proof Sys2Proof.Machine
set_option maxRecDepth 20000
set_option Elab.async false
set_option linter.unusedVariables false

theorem met_ScalarResults : ∃ i f s, aluOf i = some f ∧ ready s i = true ∧ f.plain = true :=
  ⟨.addRr 5 6 7, _, one [(6, 1), (7, 2)], rfl, (by decide +kernel), (by decide +kernel)⟩

theorem met_ScalarPortOperands : ∃ (i : Instr) (f : Alu) (s s1 s2 t : State) (x y : Word), aluOf i = some f ∧ ready s i = true ∧ alone s = true ∧
    src f.b (beginHead s i) = .ok x s1 ∧ src f.c s1 = .ok y s2 ∧
    dst f.lat f.a (f.val s2.me.r.pc (s2.myReg f.a) x y) s2 = .ok () t ∧ chunkLines t s.cur ≤ 64 :=
  ⟨.addRr 5 52 7, _, one [(7, 2)] id fun c => { c with mesh := [(4, { items := [(9, 5)] })] }, _, _, _, _, _, rfl, (by decide +kernel), (by decide +kernel), (ok_of_isOk (by decide +kernel)), (ok_of_isOk (by decide +kernel)), (ok_unit_of_isOk (by decide +kernel)), (by decide +kernel)⟩

theorem met_ScalarFrame : ∃ i f s, aluOf i = some f ∧ ready s i = true ∧ f.plain = true ∧ calm s i = true :=
  ⟨.addRr 5 6 7, _, one [(6, 1), (7, 2)], rfl, (by decide +kernel), (by decide +kernel), (by decide +kernel)⟩

theorem met_BranchesComplete_1 :
  ∃ a b cc imm x y w v, MetDoes (.bRi16 a b cc imm)
    (fun u => pops u a b x y w ∧ condition cc.toNat x y = true ∧
      checkTarget w w.cur (w64 (w.me.r.pc.toNat + 2 * imm.toInt)) = .ok v)
    (fun _ => v) (fun _ => { target := some (w64 (w.me.r.pc.toNat + 2 * imm.toInt)), delay := 3 }) :=
  ⟨5, 6, 0, 0, _, _, _, _, (one []), (by decide +kernel), (by decide +kernel), ⟨⟨_, (ok_of_isOk (by decide +kernel)), (ok_of_isOk (by decide +kernel))⟩, (by decide +kernel), (fine_of_isFine (by decide +kernel))⟩, (by decide +kernel)⟩

theorem met_BranchesComplete_2 :
  ∃ a b cc imm x y w, MetDoes (.bRi16 a b cc imm)
    (fun u => pops u a b x y w ∧ condition cc.toNat x y = false) (fun _ => w) :=
  ⟨5, 6, 1, 0, _, _, _, (one []), (by decide +kernel), (by decide +kernel), ⟨⟨_, (ok_of_isOk (by decide +kernel)), (ok_of_isOk (by decide +kernel))⟩, (by decide +kernel)⟩, (by decide +kernel)⟩

theorem met_BranchesComplete_3 :
  ∃ a b cc imm x y w v, MetDoes (.bRri32 a b cc imm)
    (fun u => pops u a b x y w ∧ condition cc.toNat x y = true ∧
      checkTarget w w.cur (w64 (w.me.r.pc.toNat + 2 * imm.toInt)) = .ok v)
    (fun _ => v) (fun _ => { target := some (w64 (w.me.r.pc.toNat + 2 * imm.toInt)), delay := 3 }) :=
  ⟨5, 6, 0, 0, _, _, _, _, (one []), (by decide +kernel), (by decide +kernel), ⟨⟨_, (ok_of_isOk (by decide +kernel)), (ok_of_isOk (by decide +kernel))⟩, (by decide +kernel), (fine_of_isFine (by decide +kernel))⟩, (by decide +kernel)⟩

theorem met_BranchesComplete_4 :
  ∃ a b cc imm x y w, MetDoes (.bRri32 a b cc imm)
    (fun u => pops u a b x y w ∧ condition cc.toNat x y = false) (fun _ => w) :=
  ⟨5, 6, 1, 0, _, _, _, (one []), (by decide +kernel), (by decide +kernel), ⟨⟨_, (ok_of_isOk (by decide +kernel)), (ok_of_isOk (by decide +kernel))⟩, (by decide +kernel)⟩, (by decide +kernel)⟩

theorem met_BranchesComplete_5 :
  ∃ a imm v, MetDoesTo (.jal a imm) a 1
    (fun u => checkTarget u u.cur (w64 (u.me.r.pc.toNat + 2 * imm.toInt)) = .ok v)
    (fun _ => v) (fun _ => nextPc v (leader v v.cur) v.me.r.pc)
    (fun u => { target := some (w64 (u.me.r.pc.toNat + 2 * imm.toInt)), delay := 3 }) :=
  ⟨1, 0, _, _, (one []), (by decide +kernel), (by decide +kernel), (fine_of_isFine (by decide +kernel)), (ok_unit_of_isOk (by decide +kernel)), (by decide +kernel)⟩

theorem met_BranchesComplete_6 :
  ∃ a b imm v, MetDoesTo (.jalr a b imm) a 1
    (fun u => checkTarget u u.cur (u.ea b imm) = .ok v)
    (fun _ => v) (fun _ => nextPc v (leader v v.cur) v.me.r.pc)
    (fun u => { target := some (u.ea b imm), delay := 3 }) :=
  ⟨1, 6, 0, _, _, (one [(6, 0x10002)]), (by decide +kernel), (by decide +kernel), (fine_of_isFine (by decide +kernel)), (ok_unit_of_isOk (by decide +kernel)), (by decide +kernel)⟩

theorem met_BadTargetsTrap_1 :
  ∃ a b cc imm x y w c, MetTraps (.bRi16 a b cc imm)
    (fun u => pops u a b x y w ∧ condition cc.toNat x y = true ∧
      checkTarget w w.cur (w64 (w.me.r.pc.toNat + 2 * imm.toInt)) = .error c)
    c (fun _ => w64 (w.me.r.pc.toNat + 2 * imm.toInt)) :=
  ⟨5, 6, 0, 1, _, _, _, 1, (one []), (by decide +kernel), (by decide +kernel), ⟨⟨_, (ok_of_isOk (by decide +kernel)), (ok_of_isOk (by decide +kernel))⟩, (by decide +kernel), (error_of (by decide +kernel))⟩⟩

theorem met_BadTargetsTrap_2 :
  ∃ a b cc imm x y w c, MetTraps (.bRri32 a b cc imm)
    (fun u => pops u a b x y w ∧ condition cc.toNat x y = true ∧
      checkTarget w w.cur (w64 (w.me.r.pc.toNat + 2 * imm.toInt)) = .error c)
    c (fun _ => w64 (w.me.r.pc.toNat + 2 * imm.toInt)) :=
  ⟨5, 6, 0, 1, _, _, _, 1, (one []), (by decide +kernel), (by decide +kernel), ⟨⟨_, (ok_of_isOk (by decide +kernel)), (ok_of_isOk (by decide +kernel))⟩, (by decide +kernel), (error_of (by decide +kernel))⟩⟩

theorem met_BadTargetsTrap_3 :
  ∃ a imm c, MetTraps (.jal a imm)
    (fun u => checkTarget u u.cur (w64 (u.me.r.pc.toNat + 2 * imm.toInt)) = .error c)
    c (fun u => w64 (u.me.r.pc.toNat + 2 * imm.toInt)) :=
  ⟨1, 1, 1, (one []), (by decide +kernel), (by decide +kernel), (error_of (by decide +kernel))⟩

theorem met_BadTargetsTrap_4 :
  ∃ a b imm c, MetTraps (.jalr a b imm)
    (fun u => checkTarget u u.cur (u.ea b imm) = .error c) c (fun u => u.ea b imm) :=
  ⟨1, 6, 0, 1, (one [(6, 0x10003)]), (by decide +kernel), (by decide +kernel), (error_of (by decide +kernel))⟩

theorem met_ControlCompletes_1 :
  MetDoes .nop (fun _ => True) id :=
  ⟨(one []), (by decide +kernel), (by decide +kernel), trivial, (by decide +kernel)⟩

theorem met_ControlCompletes_2 :
  MetDoes .chunkEnd (fun _ => True) id :=
  ⟨(one []), (by decide +kernel), (by decide +kernel), trivial, (by decide +kernel)⟩

theorem met_ControlCompletes_3 :
  ∃ sc, MetDoes (.fence sc false)
    (fun u => (u.me.timed = true → sc = 0) ∧ (4 ≤ sc.toNat → u.me.remoteOut = [])) (fun u => u.released sc) :=
  ⟨5, (one []), (by decide +kernel), (by decide +kernel), (by decide +kernel), (by decide +kernel)⟩

theorem met_ControlCompletes_4 :
  ∃ sc, MetDoes (.fence sc true)
    (fun u => (u.me.timed = true → sc = 0) ∧ (4 ≤ sc.toNat → u.me.remoteOut = []) ∧ (isHart u.cur = false → u.myCore.pins = []))
    (fun u =>
      let v := (u.released sc).modProc u.cur fun p => { p with lines := [] }
      if isHart u.cur then v else v.modCore (coreOf u.cur) fun c => { c with l1i := [] }) :=
  ⟨5, (one []), (by decide +kernel), (by decide +kernel), (by decide +kernel), (by decide +kernel)⟩

theorem met_ControlCompletes_5 :
  ∃ a, MetDoesTo (.tideRd a) a 1 (fun _ => True) id (fun u => u.tide) :=
  ⟨7, _, (one []), (by decide +kernel), (by decide +kernel), trivial, (ok_unit_of_isOk (by decide +kernel)), (by decide +kernel)⟩

theorem met_ControlCompletes_6 :
  ∃ a b strict imm, MetDoesTo (.tideWait a b strict imm) a 1
    (fun u => (∀ c, u.me.wait ≠ .tide c) ∧ (u.ea b imm).toNat ≤ (u.tide + 1).toNat ∧ (strict = true → u.ea b imm = u.tide + 1))
    id (fun u => u.tide + 1 - u.ea b imm) :=
  ⟨7, 6, true, 1, _, (one [(6, 1000)]), (by decide +kernel), (by decide +kernel), ⟨(not_tide (by decide +kernel)), (by decide +kernel), (by decide +kernel)⟩, (ok_unit_of_isOk (by decide +kernel)), (by decide +kernel)⟩

theorem met_ControlCompletes_7 :
  ∃ a b strict imm c, MetDoesTo (.tideWait a b strict imm) a 1
    (fun u => u.me.wait = .tide c ∧ (c + 1).toNat < (u.ea b imm).toNat ∧ (u.ea b imm).toNat ≤ (u.tide + 1).toNat)
    id (fun _ => 0) :=
  ⟨7, 6, false, 0, 100, _, (one [(6, 500)] fun p => { p with wait := .tide 100 }), (by decide +kernel), (by decide +kernel), (by decide +kernel), (ok_unit_of_isOk (by decide +kernel)), (by decide +kernel)⟩

theorem met_ControlCompletes_8 :
  MetDoes .phaseT (fun u => coreQuiet u (coreOf u.cur) = true)
    (fun u => (closeChunks u (coreOf u.cur)).modProc u.cur fun p => { p with timed := true }) (fun _ => { delay := 4 }) :=
  ⟨(one []), (by decide +kernel), (by decide +kernel), (by decide +kernel), (by decide +kernel)⟩

theorem met_ControlCompletes_9 :
  MetDoes .phaseE (fun u => u.me.flight = []) (fun u => u.modProc u.cur fun p => { p with timed := false }) :=
  ⟨(one [] fun p => { p with timed := true }), (by decide +kernel), (by decide +kernel), (by decide +kernel), (by decide +kernel)⟩

theorem met_LoadsComplete_1 :
  ∃ a b sz sx nt imm v lat w, MetDoesTo (.ldRi16 a b sz sx nt imm) a lat
    (fun u => loadAt u (u.ea b imm) (2 ^ sz.toNat) = some (v, lat, w))
    (fun _ => w) (fun _ => loaded v (2 ^ sz.toNat) sx) :=
  ⟨5, 6, 3, false, false, 8, _, _, _, _, (one [(6, 0x2000)]), (by decide +kernel), (by decide +kernel), (some_of_isSome (by decide +kernel)), (ok_unit_of_isOk (by decide +kernel)), (by decide +kernel)⟩

theorem met_LoadsComplete_2 :
  ∃ a b c sz sx nt sh imm v lat w, MetDoesTo (.ldRri32 a b c sz sx nt sh imm) a lat
    (fun u => loadAt u (u.eaIx b c sh imm) (2 ^ sz.toNat) = some (v, lat, w))
    (fun _ => w) (fun _ => loaded v (2 ^ sz.toNat) sx) :=
  ⟨5, 6, 7, 2, true, false, 2, -8, _, _, _, _, (one [(6, 0x2000), (7, 3)]), (by decide +kernel), (by decide +kernel), (some_of_isSome (by decide +kernel)), (ok_unit_of_isOk (by decide +kernel)), (by decide +kernel)⟩

theorem met_LoadsComplete_3 :
  ∃ a b sz sx sc imm v lat w, MetDoesTo (.lda a b sz sx sc imm) a lat
    (fun u => ordered u sc false = true ∧ loadAt u (u.ea b imm) (2 ^ sz.toNat) = some (v, lat, w))
    (fun _ => w) (fun _ => loaded v (2 ^ sz.toNat) sx) :=
  ⟨5, 6, 1, true, 3, 2, _, _, _, _, (one [(6, 0x2000)]), (by decide +kernel), (by decide +kernel), ⟨(by decide +kernel), (some_of_isSome (by decide +kernel))⟩, (ok_unit_of_isOk (by decide +kernel)), (by decide +kernel)⟩

theorem met_StoresComplete_1 :
  ∃ a b sz nt imm x v w, MetDoes (.stRi16 a b sz nt imm)
    (fun u => src a u = .ok x v ∧ storeAt v (u.ea b imm) (2 ^ sz.toNat) x.toNat = some w) (fun _ => w) :=
  ⟨5, 6, 3, false, 8, _, _, _, (one [(5, 0x1122), (6, 0x2000)]), (by decide +kernel), (by decide +kernel), ⟨(ok_of_isOk (by decide +kernel)), (some_of_isSome (by decide +kernel))⟩, (by decide +kernel)⟩

theorem met_StoresComplete_2 :
  ∃ a b c sz nt sh imm x v w, MetDoes (.stRri32 a b c sz nt sh imm)
    (fun u => src a u = .ok x v ∧ storeAt v (u.eaIx b c sh imm) (2 ^ sz.toNat) x.toNat = some w) (fun _ => w) :=
  ⟨5, 6, 7, 0, false, 3, 0, _, _, _, (one [(5, 0x1122), (6, 0x2000), (7, 1)]), (by decide +kernel), (by decide +kernel), ⟨(ok_of_isOk (by decide +kernel)), (some_of_isSome (by decide +kernel))⟩, (by decide +kernel)⟩

theorem met_StoresComplete_3 :
  ∃ a b sz sc imm x v w, MetDoes (.stl a b sz sc imm)
    (fun u => ordered u sc true = true ∧ src a (u.released sc) = .ok x v ∧
      storeAt v (u.ea b imm) (2 ^ sz.toNat) x.toNat = some w) (fun _ => w) :=
  ⟨5, 6, 2, 3, 4, _, _, _, (one [(5, 0x1122), (6, 0x2000)]), (by decide +kernel), (by decide +kernel), ⟨(by decide +kernel), (ok_of_isOk (by decide +kernel)), (some_of_isSome (by decide +kernel))⟩, (by decide +kernel)⟩

theorem met_AtomicsComplete_1 :
  ∃ (i : Instr) (f : Atomic) (pa : Nat) (y z : Word) (v w : State), atomicOf i = some f ∧
    MetDoesTo i f.a 1 (fun u => ordered u f.sc true = true ∧ pops (u.released f.sc) f.c f.d y z v ∧
        decodeVa v v.cur v.me.vf (u.myReg f.b).toNat = some .global ∧
        check (u.myReg f.b) f.size f.size .atomic v = .ok (.own pa) w ∧ isWcPage w (u.myReg f.b).toNat = false)
      (fun _ => f.after y z w pa) (fun _ => wNat (w.natAt pa f.size)) :=
  ⟨.acas 5 6 7 8 true 3, _, 0x2000, _, _, _, _, rfl, _, (one [(6, 0x2000), (8, 5)]), (by decide +kernel), (by decide +kernel), ⟨(by decide +kernel), ⟨_, (ok_of_isOk (by decide +kernel)), (ok_of_isOk (by decide +kernel))⟩, (by decide +kernel), (okIs_eq (by decide +kernel)), (by decide +kernel)⟩, (ok_unit_of_isOk (by decide +kernel)), (by decide +kernel)⟩

theorem met_HaltAndReturnComplete_1 :
  MetDoes .halt
    (fun u => isHart u.cur = false ∧ u.myCore.gsize = 0 ∧ startedHelper u u.cur = false ∧ u.me.remoteOut = [])
    (fun u =>
      let v := (helperQs (coreOf u.cur)).foldl (fun t q => if (t.proc q).st == .ended then t.setProc q {} else t) u
      v.modProc v.cur fun p => { p with st := .ended, icount := p.icount + 1, waited := 0 })
    (fun _ => { gone := true }) :=
  ⟨(one []), (by decide +kernel), (by decide +kernel), (by decide +kernel), (by decide +kernel)⟩

theorem met_HaltAndReturnComplete_2 :
  MetDoes .halt (fun u => isHart u.cur = true ∧ wakes u (hartIx u.cur) = true) id :=
  ⟨(hart 3 [] id fun e => { e with queue := [{}] }), (by decide +kernel), (by decide +kernel), (by decide +kernel), (by decide +kernel)⟩

theorem met_HaltAndReturnComplete_3 :
  ∃ v, MetDoes .eret
    (fun u => u.me.intrap = true ∧ (u.me.ptim = true → coreQuiet u (coreOf u.cur) = true) ∧
      checkTarget u u.cur u.me.epc = .ok v)
    (fun u => (if u.me.ptim then closeChunks v (coreOf v.cur) else v).modProc v.cur fun p =>
      { p with intrap := false, timed := u.me.ptim })
    (fun u => { target := some u.me.epc, delay := 3, skipBp := true }) :=
  ⟨_, (one [] fun p => { p with intrap := true, epc := 0x10002 }), (by decide +kernel), (by decide +kernel), ⟨(by decide +kernel), (by decide +kernel), (fine_of_isFine (by decide +kernel))⟩, (by decide +kernel)⟩

theorem met_TrapsTaken_1 : ∃ code s, ready s (.trap code) = true ∧ alone s = true :=
  ⟨7, one [], (by decide +kernel), (by decide +kernel)⟩

theorem met_TrapsTaken_2 :
  ∃ code, MetTraps (.brk code)
    (fun u => isHart u.cur = true ∨ u.myCluster.tdctl.getLsbD 0 = false) 0x07 (fun _ => code.setWidth 64) :=
  ⟨9, (one []), (by decide +kernel), (by decide +kernel), (by decide +kernel)⟩

theorem met_TrapsTaken_3 : ∃ code s, ready s (.brk code) = true ∧ alone s = true ∧ isHart (beginHead s (.brk code)).cur = false ∧
    (beginHead s (.brk code)).myCluster.tdctl.getLsbD 0 = true :=
  ⟨7, one [] id id fun k => { k with tdctl := 1 }, (by decide +kernel), (by decide +kernel), (by decide +kernel), (by decide +kernel)⟩

theorem met_SystemRegistersComplete_1 :
  ∃ a n v x, MetDoesTo (.srr a n) a 2
    (fun u => v = (if holdsCounts u = true ∧ (n = 0x0103 ∨ 0x0110 ≤ n.toNat ∧ n.toNat < 0x0130) then endChunk u u.cur else u) ∧
      sysReg v v.cur n.toNat = some x)
    (fun _ => v) (fun _ => x) :=
  ⟨5, 0x000A, _, _, _, (one []), (by decide +kernel), (by decide +kernel), ⟨rfl, (some_of_isSome (by decide +kernel))⟩, (ok_unit_of_isOk (by decide +kernel)), (by decide +kernel)⟩

theorem met_SystemRegistersComplete_2 :
  ∃ a n, MetDoes (.srw a n)
    (fun u => (sysReg u u.cur n.toNat).isSome = true ∧ srwLegal u n.toNat (u.myReg a) = true ∧
      (isHart u.cur = true → n.toNat < 0x0200))
    (fun u => srwEffect u n.toNat (u.myReg a)) :=
  ⟨5, 0x000E, (one [(5, 77)]), (by decide +kernel), (by decide +kernel), (by decide +kernel), (by decide +kernel)⟩

theorem met_SystemRegistersComplete_3 :
  ∃ a n, MetDoes (.srw a n)
    (fun u => (sysReg u u.cur n.toNat).isSome = true ∧ isHart u.cur = true ∧ 0x0200 ≤ n.toNat)
    (fun u => hartWrite u n.toNat (u.myReg a)) :=
  ⟨5, 0x0200, (hart 3 [(5, 2)]), (by decide +kernel), (by decide +kernel), (by decide +kernel), (by decide +kernel)⟩

theorem met_SystemRegistersComplete_4 :
  ∃ a w ps, MetDoes (.srw a 0x0011)
    (fun u => freeControl u = true ∧ fetchPins u u.cur (pinLines (u.myReg a)) = .ok (w, ps))
    (fun u => w.modCore (coreOf u.cur) fun c => { c with tpin := u.myReg a, pins := ps }) :=
  ⟨5, _, _, (one [(5, 0x10000)]), (by decide +kernel), (by decide +kernel), ⟨(by decide +kernel), (fine_of_isFine (by decide +kernel))⟩, (by decide +kernel)⟩

theorem met_HelpersComplete_1 :
  ∃ a b c nw det imm v h x y w, MetDoesTo (.hstart a b c nw det imm) a 1
    (fun u => checkTarget u u.cur (w64 (u.me.r.pc.toNat + 2 * imm.toInt)) = .ok v ∧ helperFor v (coreOf v.cur) = some h ∧
      pops v b c x y w)
    (fun u => w.setProc h (helperState w.me w.cur (slotOf h) (w64 (u.me.r.pc.toNat + 2 * imm.toInt)) x y w.tide det))
    (fun _ => wNat (slotOf h)) :=
  ⟨5, 6, 7, false, false, 0, _, 1, _, _, _, _, (one [(6, 1), (7, 2)]), (by decide +kernel), (by decide +kernel), ⟨(fine_of_isFine (by decide +kernel)), (by decide +kernel), ⟨_, (ok_of_isOk (by decide +kernel)), (ok_of_isOk (by decide +kernel))⟩⟩, (ok_unit_of_isOk (by decide +kernel)), (by decide +kernel)⟩

theorem met_HelpersComplete_2 :
  ∃ a b c det imm v, MetDoesTo (.hstart a b c true det imm) a 1
    (fun u => checkTarget u u.cur (w64 (u.me.r.pc.toNat + 2 * imm.toInt)) = .ok v ∧ helperFor v (coreOf v.cur) = none)
    (fun _ => v) (fun _ => 0) :=
  ⟨5, 6, 7, false, 0, _, _, ({ one [] with procs := (0, live []) :: (List.range 10).map fun k => (k + 1, live []) }), (by decide +kernel), (by decide +kernel), ⟨(fine_of_isFine (by decide +kernel)), (by decide +kernel)⟩, (ok_unit_of_isOk (by decide +kernel)), (by decide +kernel)⟩

theorem met_HelpersComplete_3 :
  ∃ a b k v, MetDoesTo (.hjoin a b) a 1
    (fun u =>
      let p := v.proc (v.cur + k.toNat)
      src b u = .ok k v ∧ 1 ≤ k.toNat ∧ k.toNat ≤ 10 ∧ p.starter = v.cur ∧ p.drain = false ∧ p.st = .ended)
    (fun _ => v.setProc (v.cur + k.toNat) {}) (fun _ => (v.proc (v.cur + k.toNat)).exitVal) :=
  ⟨5, 6, _, _, _, ({ one [] with procs := [(0, live [(6, 10)]), (10, { live [] with st := .ended, exitVal := 77 })] }), (by decide +kernel), (by decide +kernel), ⟨(ok_of_isOk (by decide +kernel)), (by decide +kernel)⟩, (ok_unit_of_isOk (by decide +kernel)), (by decide +kernel)⟩

theorem met_HelpersComplete_4 :
  MetDoes .hend (fun u => u.me.drain = false)
    (fun u => if u.me.det then u.setProc u.cur {}
      else u.modProc u.cur fun p => { p with st := .ended, exitVal := p.r.readG 3 })
    (fun _ => { gone := true }) :=
  ⟨({ one [] with procs := [(0, live []), (1, live [(3, 7)])], cur := 1 }), (by decide +kernel), (by decide +kernel), (by decide +kernel), (by decide +kernel)⟩

theorem met_HelpersComplete_5 :
  ∃ r, MetDoes .hend (fun u => u.me.drain = true ∧ u.me.row = some r)
    (fun u => (if r.released then u else releaseRow u u.cur none).setProc u.cur {}) (fun _ => { gone := true }) :=
  ⟨{}, ({ one [] with procs := [(0, live []), (1, { live [] with drain := true, row := some {} })], cur := 1 }), (by decide +kernel), (by decide +kernel), (by decide +kernel), (by decide +kernel)⟩

theorem met_HelpersComplete_6 :
  MetDoes .hyield (fun _ => True) id (fun u => { after := .yield (u.tide + 16) [] }) :=
  ⟨({ one [] with procs := [(0, live []), (1, live [(3, 7)])], cur := 1 }), (by decide +kernel), (by decide +kernel), trivial, (by decide +kernel)⟩

theorem met_GangsComplete_1 :
  ∃ a, MetDoesOnceTo (.gang a 0) a 1 (fun u => u.myCore.gsize = 0) id (fun _ => 0) :=
  ⟨5, _, (one []), (by decide +kernel), (by decide +kernel), (ok_unit_of_isOk (by decide +kernel)), (by decide +kernel)⟩

theorem met_GangsComplete_2 :
  ∃ a n w, MetDoesOnce (.gang a n)
    (fun u =>
      let g := coreOf u.cur
      n ≠ 0 ∧ u.cur = ctl g ∧ u.myCore.gsize = 0 ∧ u.me.wait ≠ .gang n.toNat a ∧
      (∀ h ∈ gangGroup g n.toNat, h ≠ g → sameLaunch u g h = true ∧ (gangWait u h).map (·.1) = some n.toNat) ∧
      gangIndices u n.toNat a = some w)
    (fun u => { formGang w (coreOf u.cur) n.toNat with cur := u.cur })
    (fun u =>
      let l := ctl (coreOf u.cur / 2 ^ n.toNat * 2 ^ n.toNat)
      { target := some (nextPc u l (u.proc l).r.pc) }) :=
  ⟨5, 1, _, (twoCores (fun p => { p with wait := .gang 1 6 }) id), (by decide +kernel), ⟨(by decide +kernel), (by decide +kernel), (by decide +kernel), (by decide +kernel), (by decide +kernel), (some_of_isSome (by decide +kernel))⟩, (by decide +kernel)⟩

theorem met_GangsComplete_3 :
  MetDoesOnce .split (fun u => u.myCore.gsize ≠ 0)
    (fun u =>
      let rest := (members u u.cur).filter (· != u.cur)
      let pc := nextPc u (leader u u.cur) u.me.r.pc
      let v := rest.foldl (fun t m => t.modProc m fun p => { p with
        r := { p.r with pc := pc }, icount := p.icount + 1, resumeAt := t.tide + 1, wait := .idle }) u
      (u.cur :: rest).foldl (fun t m => t.modCore (coreOf m) fun c => { c with gsize := 0, gmemb := 0 }) v)
    (fun u => { target := some (nextPc u (leader u u.cur) u.me.r.pc) }) :=
  ⟨({ twoCores id id with cur := 0, cores := [(0, { owner := some (0, 1), gsize := 1 }), (1, { owner := some (0, 1), gsize := 1, gmemb := 1 })] }), (by decide +kernel), (by decide +kernel), (by decide +kernel)⟩

theorem met_WaitsComplete_1 :
  ∃ a b sz imm x v pa w, MetDoes (.waitmem a b sz imm)
    (fun u => src a u = .ok x v ∧ (∀ l d h, v.me.wait ≠ .mem l d h) ∧
      watchTarget (v.ea b imm) (2 ^ sz.toNat) v = .ok pa w ∧
      w.natAt pa (2 ^ sz.toNat) ≠ x.toNat % 2 ^ (8 * 2 ^ sz.toNat))
    (fun _ => w) :=
  ⟨5, 6, 3, 0, _, _, _, _, (one [(5, 1), (6, 0x2000)]), (by decide +kernel), (by decide +kernel), ⟨(ok_of_isOk (by decide +kernel)), (not_mem (by decide +kernel)), (ok_of_isOk (by decide +kernel)), (by decide +kernel)⟩, (by decide +kernel)⟩

theorem met_WaitsComplete_2 :
  ∃ a b sz imm l due hit, MetDoes (.waitmem a b sz imm)
    (fun u => u.me.wait = .mem l due hit ∧ (hit = true ∨ due.toNat ≤ u.tide.toNat)) id :=
  ⟨5, 6, 3, 0, 256, 0, true, (one [(5, 1), (6, 0x2000)] fun p => { p with wait := .mem 256 0 true }), (by decide +kernel), (by decide +kernel), ⟨(by decide +kernel), (by decide +kernel)⟩, (by decide +kernel)⟩

theorem met_WaitsComplete_3 :
  MetDoes .waitmsg (fun u => u.myCore.jetty ≠ []) id :=
  ⟨(one [] id fun c => { c with jetty := [7] }), (by decide +kernel), (by decide +kernel), (by decide +kernel), (by decide +kernel)⟩

theorem met_WaitsComplete_4 :
  ∃ a b c tag d v x y w h, MetDoes (.sendmsg a b c tag)
    (fun u => src a u = .ok d v ∧ pops v b c x y w ∧ isHart w.cur = false ∧ d.toNat < 2 ^ 17 ∧
      vcore w w.me.vf (d.toNat / 8) (d.toNat % 8) = some h ∧ sameLaunch w (coreOf w.cur) h = true ∧
      (w.core h).jetty.length + (w.core h).reserved < 32)
    (fun _ => w.modCore h fun k => { k with jetty := k.jetty ++ [BitVec.ofNat 128 (x.toNat +
      2 ^ 64 * (y.toNat % 2 ^ 29) + 2 ^ 93 * tag.toNat +
      2 ^ 109 * (8 * w.myCore.vcl + coreOf w.cur % 8) + 2 ^ 126)] }) :=
  ⟨5, 6, 7, 9, _, _, _, _, _, 1, ({ one [(5, 1), (6, 3), (7, 4)] with cores := [(0, { owner := some (0, 1) }), (1, { owner := some (0, 1) })], vfs := [(0, { grant := [0] })] }), (by decide +kernel), (by decide +kernel), ⟨(ok_of_isOk (by decide +kernel)), ⟨_, (ok_of_isOk (by decide +kernel)), (ok_of_isOk (by decide +kernel))⟩, (by decide +kernel)⟩, (by decide +kernel)⟩

theorem met_WaitsComplete_5 :
  ∃ a, MetDoesTo (.sync a 0) a 1
    (fun u => u.me.flight = [] ∧ (∀ e ∈ u.me.due, e.2 ≤ u.tide.toNat) ∧ awaitedHelper u u.cur = false)
    id (fun u => u.tide + 1) :=
  ⟨5, _, (one []), (by decide +kernel), (by decide +kernel), (by decide +kernel), (ok_unit_of_isOk (by decide +kernel)), (by decide +kernel)⟩

theorem met_WaitsComplete_6 :
  ∃ a lv due, lv ≠ 0 ∧
    MetDoesTo (.sync a lv) a 1
    (fun u => u.me.wait = .released due ∧ due.toNat ≤ (u.tide + 1).toNat) id (fun _ => due) :=
  ⟨5, 1, 1001, (by decide +kernel), _, (one [] fun p => { p with wait := .released 1001 }), (by decide +kernel), (by decide +kernel), (by decide +kernel), (ok_unit_of_isOk (by decide +kernel)), (by decide +kernel)⟩

theorem met_BitStreamCompletes_1 :
  ∃ a b r sx imm n v, MetDoesTo (.bbGet a b r sx imm) a 1
    (fun u => bufferFree u = true ∧ bitsAsked u b r imm 128 n v ∧ 1 ≤ n ∧ n ≤ 64)
    (fun _ => v.setR fun x => { x with bb := bitsTaken x.bb n }) (fun _ => bitsGot v n sx) :=
  ⟨5, 0, false, true, 8, _, _, _, (one [] fun p => { p with r := { p.r with bb := { buf := 0x1FF, cnt := 9 } } }), (by decide +kernel), (by decide +kernel), ⟨(by decide +kernel), bits_imm, (by decide +kernel)⟩, (ok_unit_of_isOk (by decide +kernel)), (by decide +kernel)⟩

theorem met_BitStreamCompletes_2 :
  ∃ a b r sx imm n v, MetDoesTo (.bbPeek a b r sx imm) a 1
    (fun u => bufferFree u = true ∧ bitsAsked u b r imm 128 n v ∧ 1 ≤ n ∧ n ≤ 64)
    (fun _ => v.setR fun x => { x with bb := { x.bb with und := x.bb.und || decide (x.bb.cnt < n) } })
    (fun _ => bitsGot v n sx) :=
  ⟨5, 0, false, true, 8, _, _, _, (one [] fun p => { p with r := { p.r with bb := { buf := 0x1FF, cnt := 9 } } }), (by decide +kernel), (by decide +kernel), ⟨(by decide +kernel), bits_imm, (by decide +kernel)⟩, (ok_unit_of_isOk (by decide +kernel)), (by decide +kernel)⟩

theorem met_BitStreamCompletes_3 :
  ∃ b r imm n v, MetDoes (.bbSkip b r imm)
    (fun u => bufferFree u = true ∧ bitsAsked u b r imm 256 n v ∧ n ≤ 128)
    (fun _ => v.setR fun x => { x with bb := bitsTaken x.bb n }) :=
  ⟨0, false, 128, _, _, (one [] fun p => { p with r := { p.r with bb := { buf := 0x1FF, cnt := 9 } } }), (by decide +kernel), (by decide +kernel), ⟨(by decide +kernel), bits_imm, (by decide +kernel)⟩, (by decide +kernel)⟩

theorem met_BitStreamCompletes_4 :
  ∃ a x wait lat w, MetDoesTo (.bbFill a) a lat
    (fun u => bufferFree u = true ∧ lat = (if u.me.r.bb.reg then 4 else 2) + wait ∧
      bufRead u.me.r.bb.reg u.me.r.bb.ptr.toNat (fillBytes u.me.r.bb) u = .ok (x, wait) w)
    (fun u =>
      let b := u.me.r.bb
      let n := fillBytes b
      (w.setR fun y => { y with bb := { b with ptr := BitVec.ofNat 18 (b.ptr.toNat + n) } }).land lat (.bbAppend x n))
    (fun u => wNat (u.me.r.bb.cnt + 8 * fillBytes u.me.r.bb)) :=
  ⟨5, _, _, _, _, _, (one [] fun p => { p with r := { p.r with bb := { buf := 0x1FF, cnt := 9, lim := 40 } } }), (by decide +kernel), (by decide +kernel), ⟨(by decide +kernel), rfl, (ok_of_isOk (by decide +kernel))⟩, (ok_unit_of_isOk (by decide +kernel)), (by decide +kernel)⟩

theorem met_BitStreamCompletes_5 :
  ∃ a imm e wait lat w, MetDoesTo (.bbDec a imm) a lat
    (fun u => bufferFree u = true ∧ lat = (if u.me.r.bb.tabReg then 5 else 3) + wait ∧
      bufRead u.me.r.bb.tabReg (u.me.r.bb.tabBase.toNat + 2 * (u.me.r.bb.buf.toNat % 2 ^ imm.toNat)) 2 u = .ok (e, wait) w)
    (fun u =>
      let b := u.me.r.bb
      let len := e / 2 ^ 12 % 2 ^ 4
      w.land lat (.bbTake (min len b.cnt) (decide (b.cnt < len))))
    (fun _ => wNat ((if e / 2 ^ 12 % 2 ^ 4 = 0 then 2 ^ 63 else 0) + e % 2 ^ 12)) :=
  ⟨5, 9, _, _, _, _, _, (one [] fun p => { p with r := { p.r with bb := { buf := 0x1FF, cnt := 9, lim := 40 } } }), (by decide +kernel), (by decide +kernel), ⟨(by decide +kernel), rfl, (ok_of_isOk (by decide +kernel))⟩, (ok_unit_of_isOk (by decide +kernel)), (by decide +kernel)⟩

theorem met_BitStreamCompletes_6 :
  ∃ b imm v w, MetDoes (.bbSave b imm)
    (fun u => bufferFree u = true ∧ saveAddr b imm .store u = .ok (u.ea b imm) v ∧
      storesAt v (u.ea b imm) [v.me.r.bb.lo, v.me.r.bb.hi, v.me.r.bb.stat, v.me.r.bb.tab] = some w)
    (fun _ => w) :=
  ⟨6, 32, _, _, (one [(6, 0x2000)]), (by decide +kernel), (by decide +kernel), ⟨(by decide +kernel), (okIs_eq (by decide +kernel)), (some_of_isSome (by decide +kernel))⟩, (by decide +kernel)⟩

theorem met_BitStreamCompletes_7 :
  ∃ b imm v lo v1 hi v2 st v3 tab v4 l v5 wait w, MetDoes (.bbRest b imm)
    (fun u =>
      let a := u.ea b imm
      bufferFree u = true ∧ saveAddr b imm .load u = .ok a v ∧ load a 8 v = .ok lo v1 ∧ load (a + 8) 8 v1 = .ok hi v2 ∧
      load (a + 16) 8 v2 = .ok st v3 ∧ load (a + 24) 8 v3 = .ok tab v4 ∧ restOk (wNat st) (wNat tab) = true ∧
      check a 8 8 .load v4 = .ok l v5 ∧
      bankAccess ((upTo 4).map fun j => match l with
        | .scratch gc k o => (.scratch gc k (o + 8 * j), 8, v5.cur)
        | l => (l, 8, v5.cur)) v5 = .ok wait w)
    (fun _ =>
      let b : BitBuf := { buf := BitVec.ofNat 128 (lo + 2 ^ 64 * hi) }
      w.land ((match l with
        | .tcm _ _ => 2
        | _ => 4) + wait) (.bbSet ((b.withStat (wNat st) ((wNat st).getLsbD 9)).withTab (wNat tab)).clip)) :=
  ⟨6, 32, _, _, _, _, _, _, _, _, _, _, _, _, _, (one [(6, 0x2000)]), (by decide +kernel), (by decide +kernel), ⟨(by decide +kernel), (okIs_eq (by decide +kernel)), (ok_of_isOk (by decide +kernel)), (ok_of_isOk (by decide +kernel)), (ok_of_isOk (by decide +kernel)), (ok_of_isOk (by decide +kernel)), (by decide +kernel), (ok_of_isOk (by decide +kernel)), (ok_of_isOk (by decide +kernel))⟩, (by decide +kernel)⟩
end

