-- ==== Sys2Proof/Tests/MetSteps.lean ====
section
/-!
SUPPORT. Witnesses of the statements about ports, chunks, waits, transforms, engines, launches and copies: for each clause a concrete state and operands that meet its hypotheses together.
-/

open Sys2Proof Sys2Proof.Machine
set_option maxRecDepth 20000
set_option Elab.async false
set_option linter.unusedVariables false

theorem met_PortStepsComplete_1 :
  ∃ h, MetHappens .meshPush
    (fun s =>
      let g := coreOf s.cur
      let d := s.inp.a % 4
      isHart s.cur = false ∧ neighbour g d = some h ∧ sameLaunch s g h = true ∧
      (meshQueue s h ((d + 2) % 4)).outstanding s.tide.toNat 3 < 8)
    (fun s => s.modCore h fun c =>
      let k := (s.inp.a % 4 + 2) % 4
      let x := c.mesh.get k {}
      { c with mesh := c.mesh.put k ⟨x.items ++ [(s.inp.w, s.tide + 3)], x.popped⟩ }) :=
  ⟨1, ({ one [] with inp := { a := 1, w := 7 }, cores := [(0, { owner := some (0, 1) }), (1, { owner := some (0, 1) })] }), ⟨(by decide +kernel), (by decide +kernel), (by decide +kernel), (by decide +kernel)⟩⟩

theorem met_PortStepsComplete_2 :
  ∃ h x due rest, MetHappens .meshPop
    (fun s =>
      let g := coreOf s.cur
      let d := s.inp.a % 4
      isHart s.cur = false ∧ neighbour g d = some h ∧ sameLaunch s g h = true ∧
      (meshQueue s g d).items = (x, due) :: rest ∧ due.toNat ≤ s.tide.toNat)
    (fun s => (s.modCore (coreOf s.cur) fun c =>
      { c with mesh := c.mesh.put (s.inp.a % 4) ((c.mesh.get (s.inp.a % 4) {}).less rest s.tide) }).taken x) :=
  ⟨1, 7, 5, [], ({ one [] with inp := { a := 1, b := 5 }, cores := [(0, { owner := some (0, 1), mesh := [(1, ⟨[(7, 5)], []⟩)] }), (1, { owner := some (0, 1) })] }), ⟨(by decide +kernel), (by decide +kernel), (by decide +kernel), (by decide +kernel), (by decide +kernel)⟩⟩

theorem met_PortStepsComplete_3 :
  MetHappensTo .qcPush
    (fun s => isHart s.cur = false ∧ (∀ x, s.myCluster.qcLast = some x → x.toNat < s.tide.toNat) ∧
      (s.me.timed = true ∨ ∀ m ∈ members s s.cur, m ≠ s.cur → clusterOf m = clusterOf s.cur → (s.proc m).wait = .pushed) ∧
      ∀ h, h / 8 = clusterOf s.cur → (meshQueue s h 4).outstanding s.tide.toNat 4 < 8)
    (fun s t => t.myCluster.qcLast = some s.tide ∧
      (∀ h, h / 8 = clusterOf s.cur → meshQueue t h 4 = ⟨(meshQueue s h 4).items ++ [(s.inp.w, s.tide + 4)], (meshQueue s h 4).popped⟩) ∧
      ∀ h, h / 8 ≠ clusterOf s.cur → t.core h = s.core h) :=
  ⟨({ one [] with inp := { w := 7 } }), ⟨(by decide +kernel), (never_some (by decide +kernel)), .inr (by decide +kernel), (forall_first rfl (by decide +kernel))⟩⟩

theorem met_PortStepsComplete_4 :
  ∃ x due rest, MetHappens .qcPop
    (fun s => isHart s.cur = false ∧ (meshQueue s (coreOf s.cur) 4).items = (x, due) :: rest ∧ due.toNat ≤ s.tide.toNat)
    (fun s => (s.modCore (coreOf s.cur) fun c => { c with mesh := c.mesh.put 4 ((c.mesh.get 4 {}).less rest s.tide) }).taken x) :=
  ⟨7, 5, [], ({ one [] with inp := { b := 5 }, cores := [(0, { owner := some (0, 1), mesh := [(4, ⟨[(7, 5)], []⟩)] }), (1, { owner := some (0, 1) })] }), ⟨(by decide +kernel), (by decide +kernel), (by decide +kernel)⟩⟩

theorem met_PortStepsComplete_5 :
  ∃ m rest, MetHappens .jetRead
    (fun s => isHart s.cur = false ∧ s.myCore.jetty = m :: rest)
    (fun s => ((s.modCore (coreOf s.cur) fun c => { c with jetty := rest }).modProc s.cur fun p =>
      { p with jhi := m.extractLsb' 64 64 }).taken (m.extractLsb' 0 64)) :=
  ⟨7, [], ({ one [] with inp := { b := 5 }, cores := [(0, { owner := some (0, 1), jetty := [7] }), (1, { owner := some (0, 1) })] }), ⟨(by decide +kernel), (by decide +kernel)⟩⟩

theorem met_PortStepsComplete_6 :
  ∃ r, MetHappens .prowRead
    (fun s => isHart s.cur = false ∧ s.me.drain = true ∧ s.me.row = some r ∧ r.reads < 16)
    (fun s => (s.modProc s.cur fun p => { p with row := some { r with reads := r.reads + 1 } }).taken
      (r.values.getD (2 * r.reads + 1) 0 ++ r.values.getD (2 * r.reads) 0)) :=
  ⟨_, ({ one [] fun p => { p with drain := true, row := some { reads := 1, values := [4, 5, 6, 7] } } with inp := { b := 5 } }), ⟨(by decide +kernel), (by decide +kernel), rfl, (by decide +kernel)⟩⟩

theorem met_PortStepsComplete_7 :
  ∃ k tag w, MetHappens .xqPush
    (fun s => isHart s.cur = false ∧ offer s.inp.w s = .ok (.accepted k tag) w) (fun _ => w) :=
  ⟨0, 0, _, ({ one [] with inp := { w := 0x2000 }, mem := Memory.writeList [(0x10000, 1), (0x10003, 1)] 0x2000 [2] }), ⟨(by decide +kernel), (okIs_eq (by decide +kernel))⟩⟩

theorem met_PortStepsComplete_8 :
  ∃ x k rest, MetHappensTo .xqPop
    (fun s => isHart s.cur = false ∧ s.myCore.xq = (x, k) :: rest)
    (fun s t => (t.core (coreOf s.cur)).xq = rest ∧ (t.cluster (coreOf s.cur / 8)).xslots.find k = none ∧
      (s.me.timed = false → 0 < s.inp.b → s.inp.b < 48 → t.reg s.cur s.inp.b = x)) :=
  ⟨7, 2, [], ({ one [] with inp := { b := 5 }, cores := [(0, { owner := some (0, 1), xq := [(7, 2)] }), (1, { owner := some (0, 1) })], clusters := [(0, { xslots := [(2, { answered := true })] })] }), ⟨(by decide +kernel), (by decide +kernel)⟩⟩

theorem met_PortStepsComplete_9 :
  ∃ h, MetHappensTo .qxPush
    (fun s =>
      let m := s.myCore.qxmap[s.inp.a % 8]?.getD 0
      isHart s.cur = false ∧ s.me.timed = false ∧ m.getLsbD 0 = true ∧ m.getLsbD 21 = false ∧
      vcore s s.me.vf (m.toNat / 2 ^ 7 % 2 ^ 14) (m.toNat / 2 ^ 4 % 8) = some h ∧ sameLaunch s (coreOf s.cur) h = true ∧
      (qxQueue s h (m.toNat / 2 % 8)).items.length < 8)
    (fun s t =>
      let k := (s.myCore.qxmap[s.inp.a % 8]?.getD 0).toNat / 2 % 8
      qxQueue t h k = ⟨(qxQueue s h k).items ++ [(s.inp.w, s.tide)], (qxQueue s h k).popped⟩) :=
  ⟨1, ({ one [] with inp := { a := 0, w := 7 }, cores := [(0, { owner := some (0, 1), qxmap := #v[0x13, 0, 0, 0, 0, 0, 0, 0] }), (1, { owner := some (0, 1) })], vfs := [(0, { grant := [0] })] }), ⟨(by decide +kernel), (by decide +kernel), (by decide +kernel), (by decide +kernel), (by decide +kernel), (by decide +kernel), (by decide +kernel)⟩⟩

theorem met_PortStepsComplete_10 :
  ∃ x due rest, MetHappens .qxPop
    (fun s => isHart s.cur = false ∧ (qxQueue s (coreOf s.cur) (s.inp.a % 8)).items = (x, due) :: rest ∧ due.toNat ≤ s.tide.toNat)
    (fun s => (s.modCore (coreOf s.cur) fun c =>
      { c with qx := c.qx.put (s.inp.a % 8) ((c.qx.get (s.inp.a % 8) {}).less rest s.tide) }).taken x) :=
  ⟨7, 5, [], ({ one [] with inp := { a := 2, b := 5 }, cores := [(0, { owner := some (0, 1), qx := [(2, ⟨[(7, 5)], []⟩)] }), (1, { owner := some (0, 1) })] }), ⟨(by decide +kernel), (by decide +kernel), (by decide +kernel)⟩⟩

theorem met_ChunkStepsComplete_1 :
  MetHappensTo .localArrival
    (fun s => s.inp.ints = [] ∧ s.inp.a < 102400 ∧ s.inp.b + s.inp.bytes.length ≤ 2 ^ 15)
    (fun s t => ∀ j, (h : j < s.inp.bytes.length) → t.byteAt (tcmKey s.inp.a s.inp.b + j) = s.inp.bytes[j]) :=
  ⟨({ one [] with inp := { a := 3, b := 5, bytes := [1, 2] } }), ⟨(by decide +kernel), (by decide +kernel), (by decide +kernel)⟩⟩

theorem met_ChunkStepsComplete_2 :
  ∃ x, MetHappensTo .localArrival
    (fun s => s.inp.ints = [x] ∧ s.inp.a < 12800 ∧ s.inp.b + s.inp.bytes.length ≤ 2 ^ 18)
    (fun s t => ∀ j, (h : j < s.inp.bytes.length) → t.byteAt (spKey s.inp.a s.inp.b + j) = s.inp.bytes[j]) :=
  ⟨0, ({ one [] with inp := { a := 3, b := 5, bytes := [1, 2], ints := [0] } }), ⟨(by decide +kernel), (by decide +kernel), (by decide +kernel)⟩⟩

theorem met_ChunkStepsComplete_3 :
  ∃ x y, MetHappensTo .localArrival
    (fun s => s.inp.ints = [x, y] ∧ s.inp.a < 102400 ∧ s.inp.b < 8 ∧ (qxQueue s s.inp.a s.inp.b).items.length < 8)
    (fun s t => (qxQueue t s.inp.a s.inp.b).items = (qxQueue s s.inp.a s.inp.b).items ++ [(s.inp.w, s.tide)]) :=
  ⟨0, 0, ({ one [] with inp := { a := 3, b := 5, w := 9, ints := [0, 0] } }), ⟨(by decide +kernel), (by decide +kernel), (by decide +kernel), (by decide +kernel)⟩⟩

theorem met_ChunkStepsComplete_4 :
  ∃ x y z b, MetHappensTo .localArrival
    (fun s => s.inp.ints = [x, y, z] ∧ (s.slice s.inp.a).wc[s.inp.b]? = some b)
    (fun s t => (t.slice s.inp.a).wc = (s.slice s.inp.a).wc.eraseIdx s.inp.b ∧ (∀ a, t.byteAt a = s.byteAt a) ∧
      ∀ a, hostSees t a = (b.data.filter fun e => e.1 == a).foldl (fun _ e => e.2) (hostSees s a)) :=
  ⟨0, 0, 0, { base := 0x8000000000000, data := [(0x8000000000005, 7)] }, ({ one [] with inp := { a := 0, b := 0, ints := [0, 0, 0] }, slices := [(0, { wc := [{ base := 0x8000000000000, data := [(0x8000000000005, 7)] }] })], hostStale := [(0x8000000000005, 1)] }), ⟨(by decide +kernel), (by decide +kernel)⟩⟩

theorem met_ChunkStepsComplete_5 :
  ∃ c, MetHappensTo .chunkCommit
    (fun s => s.inp.ints = [] ∧ members s s.inp.a = [s.inp.a] ∧ (s.proc s.inp.a).chunk = some c ∧ c.held.Pairwise (fun x y => x.1 < y.1) ∧
      c.ckpt.map (·.1) = [s.inp.a])
    (fun s t => (t.proc s.inp.a).chunk = none ∧ (t.proc s.inp.a).icount = (s.proc s.inp.a).icount + wNat c.heads ∧
      ∀ a, t.byteAt a = viewByte s s.inp.a a) :=
  ⟨{ ckpt := [(0, {})], heads := 3, held := [(0x2000, 5), (0x2001, 6)], writes := [0x2000] }, ({ one [] fun p => { p with chunk := some { ckpt := [(0, {})], heads := 3, held := [(0x2000, 5), (0x2001, 6)], writes := [0x2000] } } with inp := { a := 0 } }), ⟨(by decide +kernel), (by decide +kernel), (by decide +kernel), (by decide +kernel), (by decide +kernel)⟩⟩

theorem met_ChunkStepsComplete_6 : ∃ (a : _) (b : _) (kp : _) (ty : _) (nt : _) (imm : _) (w : _) (s : State) (s1 : _),
    let q := leader s s.inp.a
    let i : Instr := .vst a b kp ty nt imm
    let u := beginHead { s1 with cur := q } i
    ((s.proc q).wait = .parts) ∧
    (currentInstr s q = some (s1, i)) ∧
    (ready { s1 with cur := q } i = true) ∧
    (storesVector u a kp ty (fun k => u.ea b imm + wNat (k * (typeWidth ty.toNat / 8))) w) ∧
    (chunkLines w q ≤ 64) :=
  ⟨2, 6, 0, 0, false, 0, _, { one [(6, 0x2000)] fun p => { p with wait := .parts, copy := some (0x10000, BitVec.ofNat 512 (1 + 0x6dc2 * 2 ^ 16 + 6 * 2 ^ 448)), r := { p.r with vres := 4 } } with inp := { a := 0 } }, _, (by decide +kernel), (some_snd (by decide +kernel)), (by decide +kernel), ⟨_, _, _, _, _, (ok_pair_nil (by decide +kernel) (by decide +kernel)), (ok_unit_of_isOk (by decide +kernel)), (ok_of_isOk (by decide +kernel)), rfl⟩, (by decide +kernel)⟩

theorem met_ChunkStepsComplete_7 :
  ∃ w l n, MetHappens .lineFetch
    (fun s =>
      let q := s.inp.a
      let la := lineBase (s.proc q).r.pc
      isHart q = false ∧ (s.proc q).timed = false ∧ residentLine s q la = none ∧ FMap.find (s.proc q).lines la = none ∧
      readCode s q la = .ok (w, l) ∧ l.check = some n)
    (fun s =>
      let la := lineBase (s.proc s.inp.a).r.pc
      (w.modProc s.inp.a fun p => { p with lines := FMap.put p.lines la l }).modCore (coreOf s.inp.a) fun c =>
        let kept := c.l1i.filter fun e => e.1 != la
        { c with l1i := (if kept.length + c.pins.length < 256 then kept else kept.drop 1) ++ [(la, l)] }) :=
  ⟨_, _, 1, ({ one [] fun p => { p with lines := [] } with inp := { a := 0 } }), ⟨(by decide +kernel), (by decide +kernel), (by decide +kernel), (by decide +kernel), (fine_pair (by decide +kernel)), (by decide +kernel)⟩⟩

theorem met_WaitsEnd_1 :
  ∃ code val l n, MetHappensTo .asyncTrapDelivery
    (fun s =>
      let p := s.proc s.inp.a
      isHart s.inp.a = false ∧ slotOf s.inp.a = 0 ∧ members s s.inp.a = [s.inp.a] ∧ s.halted (clusterOf s.inp.a) = false ∧
      p.st = .live ∧ p.stopped = false ∧ p.aen = true ∧ p.intrap = false ∧ p.wait = .idle ∧ p.chunk = none ∧ p.flight = [] ∧
      p.partCounts = [] ∧ (code, val) ∈ p.pend ∧ (∀ e ∈ p.pend, e = (code, val) ∨ code < e.1) ∧ p.tvec ≠ 0 ∧ p.tvec.getLsbD 0 = false ∧
      residentLine s s.inp.a (lineBase p.tvec) = some l ∧ l.check = some n ∧ 1 ≤ headIndex p.tvec ∧ headIndex p.tvec ≤ n)
    (fun s t =>
      let p := s.proc s.inp.a
      t.proc s.inp.a = { p with
        cause := wNat (256 + code), epc := p.r.pc, tval := val, ptim := p.timed, intrap := true, timed := false, waited := 0
        resumeAt := if p.resumeAt.toNat ≤ s.tide.toNat then s.tide + 1 else p.resumeAt
        lines := if p.copy.map (·.1) = some (lineBase p.tvec) then p.lines else FMap.put p.lines (lineBase p.tvec) l
        pend := p.pend.erase (code, val), r := { p.r with pc := p.tvec } }) :=
  ⟨0x41, 9, nopLine, 1, ({ one [] (fun p => { p with aen := true, tvec := 0x10002, pend := [(0x45, 3), (0x41, 9)] }) fun c => { c with l1i := [(0x10000, nopLine)] } with inp := { a := 0 } }), ⟨(by decide +kernel), (by decide +kernel), (by decide +kernel), (by decide +kernel), (by decide +kernel), (by decide +kernel), (by decide +kernel), (by decide +kernel), (by decide +kernel), (by decide +kernel), (by decide +kernel), (by decide +kernel), (by decide +kernel), (by decide +kernel), (by decide +kernel), (by decide +kernel), (by decide +kernel), (by decide +kernel), (by decide +kernel), (by decide +kernel)⟩⟩

theorem met_WaitsEnd_2 :
  ∃ w ps, MetHappens .tpinWrite
    (fun s =>
      let u : State := { s with cur := ctl s.inp.a }
      fetchPins u u.cur (pinLines s.inp.w) = .ok (w, ps) ∧ w.cur = u.cur)
    (fun s => w.modCore s.inp.a fun c => { c with tpin := s.inp.w, pins := ps }) :=
  ⟨_, _, ({ one [] with inp := { a := 0, w := 0x10000 } }), ⟨(fine_pair (by decide +kernel)), (by decide +kernel)⟩⟩

theorem met_WaitsEnd_3 :
  MetHappens .hbindWrite (fun s => s.inp.a < 102400) (fun s =>
    ({ s with cur := ctl s.inp.a } : State).modCore s.inp.a fun c =>
      { c with hbind := wNat (s.inp.w.toNat % 2 ^ 32), bins := [], hsat := false }) :=
  ⟨({ one [] with inp := { a := 0, w := 0x10001 } }), (by decide +kernel)⟩

theorem met_WaitsEnd_4 : ∃ (s : State),
    let q := ctl s.inp.a
    let u := beginHead { s with cur := q } .phaseT
    ((s.proc q).wait = .phase) ∧
    (ready { s with cur := q } .phaseT = true) ∧
    (alone { s with cur := q } = true) ∧
    (coreQuiet u s.inp.a = true) :=
  ⟨{ one [] fun p => { p with wait := .phase } with inp := { a := 0 } }, (by decide +kernel), (by decide +kernel), (by decide +kernel), (by decide +kernel)⟩

theorem met_WaitsEnd_5 :
  ∃ l d, MetHappensTo .waitmemWake
    (fun s => members s s.inp.a = [s.inp.a] ∧ (s.proc s.inp.a).wait = .mem l d true ∧ (s.proc s.inp.a).single = false)
    (fun s t => (t.proc s.inp.a).wait = .idle ∧ (t.proc s.inp.a).r.pc = nextPc s s.inp.a (s.proc s.inp.a).r.pc ∧
      ∀ p, p ≠ s.inp.a → t.proc p = s.proc p) :=
  ⟨0, 5000, ({ one [] fun p => { p with wait := .mem 0 5000 true } with inp := { a := 0 } }), ⟨(by decide +kernel), (by decide +kernel), (by decide +kernel)⟩⟩

theorem met_WaitsEnd_6 :
  ∃ l d hit, MetHappensTo .waitmemTimeout
    (fun s => members s s.inp.a = [s.inp.a] ∧ (s.proc s.inp.a).wait = .mem l d hit ∧ (s.proc s.inp.a).single = false ∧
      d.toNat ≤ s.tide.toNat)
    (fun s t => (t.proc s.inp.a).wait = .idle ∧ (t.proc s.inp.a).r.pc = nextPc s s.inp.a (s.proc s.inp.a).r.pc ∧
      ∀ p, p ≠ s.inp.a → t.proc p = s.proc p) :=
  ⟨0, 900, false, ({ one [] fun p => { p with wait := .mem 0 900 false } with inp := { a := 0 } }), ⟨(by decide +kernel), (by decide +kernel), (by decide +kernel), (by decide +kernel)⟩⟩

theorem met_WaitsEnd_7 :
  ∃ l, MetHappensTo .barrierRelease
    (fun s => launchOf s s.inp.c = some l ∧ 1 ≤ s.inp.a ∧ s.inp.a ≤ 3 ∧ s.inp.w = 0 ∧ ∀ g ∈ domainCores s l s.inp.a s.inp.b,
      (s.proc (ctl g)).st = .ended ∨ ∃ t0, (s.proc (ctl g)).wait = .sync s.inp.a s.inp.b t0)
    (fun s t =>
      let gs := domainCores s l s.inp.a s.inp.b
      let times := gs.filterMap fun g => match arrivalOf s s.inp.a s.inp.b g with
        | some (some x) => some x.toNat
        | _ => none
      ∀ g ∈ gs, ∀ t0, (s.proc (ctl g)).wait = .sync s.inp.a s.inp.b t0 → (t.proc (ctl g)).wait =
        .released (wNat (times.foldl max 0 + if s.inp.a = 1 then 16 else if s.inp.a = 2 then 64 else 256))) :=
  ⟨{ ln := 1, cls := [0] }, ({ one [] with inp := { a := 1, b := 0, c := 0 }, launches := [{ ln := 1, cls := [0] }], cores := (List.range 8).map (fun g => (g, { owner := some (0, 1), sdm := 1 })), procs := (List.range 8).map fun g => (11 * g, if g = 3 then { st := .ended } else { live [] with wait := .sync 1 0 (wNat (900 + g)) }) }), ⟨(by decide +kernel), (by decide +kernel), (by decide +kernel), (by decide +kernel), arrived_of (by decide +kernel)⟩⟩

theorem met_WaitsEnd_8 :
  ∃ l others, MetHappensTo .barrierRelease
    (fun s => launchOf s s.inp.c = some l ∧ s.inp.a = 4 ∧ remoteArrivals s.inp.ints = others ∧
      ((others.map fun e => e.2.1).filter (· ≠ s.fab.node)).eraseDups.length + s.inp.w.toNat =
        (l.rec16.getD 2 0).toNat / 2 ^ 44 % 2 ^ 12 ∧
      ∀ g ∈ domainCores s l 4 s.inp.b, (s.proc (ctl g)).st = .ended ∨ ∃ t0, (s.proc (ctl g)).wait = .sync 4 s.inp.b t0)
    (fun s t =>
      let gs := domainCores s l 4 s.inp.b
      let times := (gs.filterMap fun g => match arrivalOf s 4 s.inp.b g with
        | some (some x) => some x.toNat
        | _ => none) ++ others.map (·.1)
      ∀ g ∈ gs, ∀ t0, (s.proc (ctl g)).wait = .sync 4 s.inp.b t0 → (t.proc (ctl g)).wait =
        .released (wNat (times.foldl max 0 + 4096))) :=
  ⟨{ ln := 1, cls := [0], rec16 := [0, 0, 2 ^ 44] }, [(950, 7, 3)], ({ one [] with inp := { a := 4, b := 0, c := 0, ints := [950, 7, 3] }, launches := [{ ln := 1, cls := [0], rec16 := [0, 0, 2 ^ 44] }], cores := (List.range 8).map (fun g => (g, { owner := some (0, 1), sdm := 1 })), procs := (List.range 8).map fun g => (11 * g, if g = 3 then { st := .ended } else { live [] with wait := .sync 4 0 (wNat (900 + g)) }) }), ⟨(by decide +kernel), (by decide +kernel), (by decide +kernel), (by decide +kernel), arrived_of (by decide +kernel)⟩⟩

theorem met_WaitsEnd_9 :
  ∃ l, MetHappens .evwaitWake (fun s => (s.proc s.inp.a).wait = .ev l true)
    (fun s => s.modProc s.inp.a fun p => { p with wait := .idle }) :=
  ⟨40, ({ one [] fun p => { p with wait := .ev 40 true } with inp := { a := 0 } }), (by decide +kernel)⟩

theorem met_WaitsEnd_10 :
  MetHappensTo .engineHartWake
    (fun s =>
      let q := hartQOf s.inp.a
      s.inp.a < Config.harts ∧ (s.proc q).wait = .hartIdle ∧ wakes s s.inp.a = true ∧ (s.proc q).single = false)
    (fun s t =>
      let q := hartQOf s.inp.a
      (t.proc q).wait = .idle ∧ (t.proc q).r.pc = nextPc s q (s.proc q).r.pc ∧ ∀ p, p ≠ q → t.proc p = s.proc p) :=
  ⟨({ hart 0 [] (fun p => { p with wait := .hartIdle }) fun e => { e with queue := [{}] } with inp := { a := 0 } }), ⟨(by decide +kernel), (by decide +kernel), (by decide +kernel), (by decide +kernel)⟩⟩

theorem met_TransformStepsComplete_1 :
  let inHand := fun (s : State) (x : XSlot) (op : Nat) =>
    (s.cluster s.inp.a).xslots.find s.inp.b = some x ∧ serving s s.inp.a s.inp.b = true ∧ (x.rec8.getD 0 0).toNat % 16 = op
  let d := fun (x : XSlot) (k : Nat) => x.rec8.getD k 0
  let piece := fun (s : State) (x : XSlot) (n : Nat) (src : List Byte) (fault : Nat) (s1 : State) =>
    xReadRun s x.q x.vf (d x 1 + wNat x.srcOff + wNat x.got.length) n = (s1, src, fault)
  let chunk := fun (s : State) (x : XSlot) (src : List Byte) (fault : Nat) (s1 : State) =>
    x.staged = [] ∧ piece s x (4352 - x.got.length) src fault s1
  let stored := fun (t : State) (gc k : Nat) (x : XSlot) (n : Nat) =>
    let y := { x with dstOff := x.dstOff + (x.staged.take n).length, staged := x.staged.drop n }
    setXslot t gc k (if y.staged ≠ [] then y
      else if x.count + 1 = (d x 3).toNat % 2 ^ 6 + 1 then { y with count := x.count + 1, ended := some 0, bound := 0, faultVa := 0 }
      else { y with count := x.count + 1 })
  let elements := fun (s w : State) (x : XSlot) (m fl : Nat) (last : Bool) =>
    let y := { x with count := x.count + m, flags := x.flags ||| fl }
    if last then served (setXslot w s.inp.a s.inp.b { y with ended := some 0, bound := 0, faultVa := 0 }) s.inp.a
    else setXslot w s.inp.a s.inp.b y
  let asked := fun (s : State) (x : XSlot) (n : Nat) =>
    if s.inp.c = 0 then (List.range n).drop x.count else ((List.range n).drop x.count).take s.inp.c
  ∃ x s1 src fault w, MetHappens .transformDecodeChunk
    (fun s =>
      let o := Sys2Proof.Machine.decode (x.got ++ src) fault ((d x 3).toNat / 2 ^ 32 - x.dstOff) x.wdc
      inHand s x 0 ∧ s.inp.c = 0 ∧ s.inp.w = 0 ∧ chunk s x src fault s1 ∧ o.fail = none ∧
      xWriteRun s1 x.q x.vf (d x 2 + wNat x.dstOff) o.bytes = .ok w)
    (fun s =>
      let o := Sys2Proof.Machine.decode (x.got ++ src) fault ((d x 3).toNat / 2 ^ 32 - x.dstOff) x.wdc
      let y := { x with srcOff := x.srcOff + o.clen, staged := o.bytes, got := [], emitted := 0, cycles := 0, consumed := 0 }
      served (stored (asUnit s1 w s.inp.a s.inp.b x.q) s.inp.a s.inp.b y o.bytes.length) s.inp.a) :=
  ⟨{ rec8 := [0, 0x2000, 0x3000, 0x100 * 2 ^ 32, 0, 0, 0, 0], wdc := 16384 }, _, _, _, _, ({ one [] id id (fun k => { k with tlb := [⟨0, 0x2000, 24, 0x3F⟩, ⟨0, 0x3000, 256, 0x1003F⟩], xslots := [(2, { rec8 := [0, 0x2000, 0x3000, 0x100 * 2 ^ 32, 0, 0, 0, 0], wdc := 16384 })] }) with inp := { a := 0, b := 2 }, mem := Memory.writeList [] 0 [1, 0, 21, 0, 1, 0, 0, 0, 0x34, 0, 0x34, 0, 0, 0, 0, 0, 0, 0, 0, 0, 14] }), ⟨⟨(by decide +kernel), (by decide +kernel), (by decide +kernel)⟩, (by decide +kernel), (by decide +kernel), ⟨rfl, (triple_eta _)⟩, (by decide +kernel), (fine_of_isFine (by decide +kernel))⟩⟩

theorem met_TransformStepsComplete_2 :
  let inHand := fun (s : State) (x : XSlot) (op : Nat) =>
    (s.cluster s.inp.a).xslots.find s.inp.b = some x ∧ serving s s.inp.a s.inp.b = true ∧ (x.rec8.getD 0 0).toNat % 16 = op
  let d := fun (x : XSlot) (k : Nat) => x.rec8.getD k 0
  let piece := fun (s : State) (x : XSlot) (n : Nat) (src : List Byte) (fault : Nat) (s1 : State) =>
    xReadRun s x.q x.vf (d x 1 + wNat x.srcOff + wNat x.got.length) n = (s1, src, fault)
  let chunk := fun (s : State) (x : XSlot) (src : List Byte) (fault : Nat) (s1 : State) =>
    x.staged = [] ∧ piece s x (4352 - x.got.length) src fault s1
  let stored := fun (t : State) (gc k : Nat) (x : XSlot) (n : Nat) =>
    let y := { x with dstOff := x.dstOff + (x.staged.take n).length, staged := x.staged.drop n }
    setXslot t gc k (if y.staged ≠ [] then y
      else if x.count + 1 = (d x 3).toNat % 2 ^ 6 + 1 then { y with count := x.count + 1, ended := some 0, bound := 0, faultVa := 0 }
      else { y with count := x.count + 1 })
  let elements := fun (s w : State) (x : XSlot) (m fl : Nat) (last : Bool) =>
    let y := { x with count := x.count + m, flags := x.flags ||| fl }
    if last then served (setXslot w s.inp.a s.inp.b { y with ended := some 0, bound := 0, faultVa := 0 }) s.inp.a
    else setXslot w s.inp.a s.inp.b y
  let asked := fun (s : State) (x : XSlot) (n : Nat) =>
    if s.inp.c = 0 then (List.range n).drop x.count else ((List.range n).drop x.count).take s.inp.c
  ∃ x s1 src, MetHappens .transformDecodeChunk
    (fun s => inHand s x 0 ∧ s.inp.c ≠ 0 ∧ x.staged = [] ∧ piece s x (min s.inp.c (4352 - x.got.length)) src 0 s1)
    (fun s => served (setXslot s1 s.inp.a s.inp.b { x with got := x.got ++ src }) s.inp.a) :=
  ⟨{ rec8 := [0, 0x2000, 0x3000, 0x100 * 2 ^ 32, 0, 0, 0, 0], wdc := 16384 }, _, _, ({ one [] id id (fun k => { k with tlb := [⟨0, 0x2000, 24, 0x3F⟩, ⟨0, 0x3000, 256, 0x1003F⟩], xslots := [(2, { rec8 := [0, 0x2000, 0x3000, 0x100 * 2 ^ 32, 0, 0, 0, 0], wdc := 16384 })] }) with inp := { a := 0, b := 2, c := 8 }, mem := Memory.writeList [] 0 [1, 0, 21, 0, 1, 0, 0, 0, 0x34, 0, 0x34, 0, 0, 0, 0, 0, 0, 0, 0, 0, 14] }), ⟨⟨(by decide +kernel), (by decide +kernel), (by decide +kernel)⟩, (by decide +kernel), rfl, (triple_third (by decide +kernel))⟩⟩

theorem met_TransformStepsComplete_3 :
  let inHand := fun (s : State) (x : XSlot) (op : Nat) =>
    (s.cluster s.inp.a).xslots.find s.inp.b = some x ∧ serving s s.inp.a s.inp.b = true ∧ (x.rec8.getD 0 0).toNat % 16 = op
  let d := fun (x : XSlot) (k : Nat) => x.rec8.getD k 0
  let piece := fun (s : State) (x : XSlot) (n : Nat) (src : List Byte) (fault : Nat) (s1 : State) =>
    xReadRun s x.q x.vf (d x 1 + wNat x.srcOff + wNat x.got.length) n = (s1, src, fault)
  let chunk := fun (s : State) (x : XSlot) (src : List Byte) (fault : Nat) (s1 : State) =>
    x.staged = [] ∧ piece s x (4352 - x.got.length) src fault s1
  let stored := fun (t : State) (gc k : Nat) (x : XSlot) (n : Nat) =>
    let y := { x with dstOff := x.dstOff + (x.staged.take n).length, staged := x.staged.drop n }
    setXslot t gc k (if y.staged ≠ [] then y
      else if x.count + 1 = (d x 3).toNat % 2 ^ 6 + 1 then { y with count := x.count + 1, ended := some 0, bound := 0, faultVa := 0 }
      else { y with count := x.count + 1 })
  let elements := fun (s w : State) (x : XSlot) (m fl : Nat) (last : Bool) =>
    let y := { x with count := x.count + m, flags := x.flags ||| fl }
    if last then served (setXslot w s.inp.a s.inp.b { y with ended := some 0, bound := 0, faultVa := 0 }) s.inp.a
    else setXslot w s.inp.a s.inp.b y
  let asked := fun (s : State) (x : XSlot) (n : Nat) =>
    if s.inp.c = 0 then (List.range n).drop x.count else ((List.range n).drop x.count).take s.inp.c
  ∃ x s1 src fault, MetHappens .transformDecodeChunk
    (fun s => inHand s x 0 ∧ s.inp.c = 0 ∧ s.inp.w ≠ 0 ∧ chunk s x src fault s1 ∧
      (Sys2Proof.Machine.decode (x.got ++ src) fault ((d x 3).toNat / 2 ^ 32 - x.dstOff) x.wdc).fail = none)
    (fun s =>
      let o := Sys2Proof.Machine.decode (x.got ++ src) fault ((d x 3).toNat / 2 ^ 32 - x.dstOff) x.wdc
      served (setXslot s1 s.inp.a s.inp.b
        { x with srcOff := x.srcOff + o.clen, staged := o.bytes, got := [], emitted := 0, cycles := 0, consumed := 0 }) s.inp.a) :=
  ⟨{ rec8 := [0, 0x2000, 0x3000, 0x100 * 2 ^ 32, 0, 0, 0, 0], wdc := 16384 }, _, _, _, ({ one [] id id (fun k => { k with tlb := [⟨0, 0x2000, 24, 0x3F⟩, ⟨0, 0x3000, 256, 0x1003F⟩], xslots := [(2, { rec8 := [0, 0x2000, 0x3000, 0x100 * 2 ^ 32, 0, 0, 0, 0], wdc := 16384 })] }) with inp := { a := 0, b := 2, w := 1 }, mem := Memory.writeList [] 0 [1, 0, 21, 0, 1, 0, 0, 0, 0x34, 0, 0x34, 0, 0, 0, 0, 0, 0, 0, 0, 0, 14] }), ⟨⟨(by decide +kernel), (by decide +kernel), (by decide +kernel)⟩, (by decide +kernel), (by decide +kernel), ⟨rfl, (triple_eta _)⟩, (by decide +kernel)⟩⟩

theorem met_TransformStepsComplete_4 :
  let inHand := fun (s : State) (x : XSlot) (op : Nat) =>
    (s.cluster s.inp.a).xslots.find s.inp.b = some x ∧ serving s s.inp.a s.inp.b = true ∧ (x.rec8.getD 0 0).toNat % 16 = op
  let d := fun (x : XSlot) (k : Nat) => x.rec8.getD k 0
  let piece := fun (s : State) (x : XSlot) (n : Nat) (src : List Byte) (fault : Nat) (s1 : State) =>
    xReadRun s x.q x.vf (d x 1 + wNat x.srcOff + wNat x.got.length) n = (s1, src, fault)
  let chunk := fun (s : State) (x : XSlot) (src : List Byte) (fault : Nat) (s1 : State) =>
    x.staged = [] ∧ piece s x (4352 - x.got.length) src fault s1
  let stored := fun (t : State) (gc k : Nat) (x : XSlot) (n : Nat) =>
    let y := { x with dstOff := x.dstOff + (x.staged.take n).length, staged := x.staged.drop n }
    setXslot t gc k (if y.staged ≠ [] then y
      else if x.count + 1 = (d x 3).toNat % 2 ^ 6 + 1 then { y with count := x.count + 1, ended := some 0, bound := 0, faultVa := 0 }
      else { y with count := x.count + 1 })
  let elements := fun (s w : State) (x : XSlot) (m fl : Nat) (last : Bool) =>
    let y := { x with count := x.count + m, flags := x.flags ||| fl }
    if last then served (setXslot w s.inp.a s.inp.b { y with ended := some 0, bound := 0, faultVa := 0 }) s.inp.a
    else setXslot w s.inp.a s.inp.b y
  let asked := fun (s : State) (x : XSlot) (n : Nat) =>
    if s.inp.c = 0 then (List.range n).drop x.count else ((List.range n).drop x.count).take s.inp.c
  ∃ x n w, MetHappens .transformDecodeChunk
    (fun s => inHand s x 0 ∧ x.staged ≠ [] ∧ n = (if s.inp.c = 0 then x.staged.length else s.inp.c) ∧
      xWriteRun s x.q x.vf (d x 2 + wNat x.dstOff) (x.staged.take n) = .ok w)
    (fun s => served (stored (asUnit s w s.inp.a s.inp.b x.q) s.inp.a s.inp.b x n) s.inp.a) :=
  ⟨{ rec8 := [0, 0x2000, 0x3000, 0x100 * 2 ^ 32, 0, 0, 0, 0], staged := [1, 2] }, 2, _, ({ one [] id id (fun k => { k with tlb := [⟨0, 0x2000, 24, 0x3F⟩, ⟨0, 0x3000, 256, 0x1003F⟩], xslots := [(2, { rec8 := [0, 0x2000, 0x3000, 0x100 * 2 ^ 32, 0, 0, 0, 0], staged := [1, 2] })] }) with inp := { a := 0, b := 2 }, mem := Memory.writeList [] 0 [1, 0, 21, 0, 1, 0, 0, 0, 0x34, 0, 0x34, 0, 0, 0, 0, 0, 0, 0, 0, 0, 14] }), ⟨⟨(by decide +kernel), (by decide +kernel), (by decide +kernel)⟩, (by decide +kernel), (by decide +kernel), (fine_of_isFine (by decide +kernel))⟩⟩

theorem met_TransformStepsComplete_5 :
  let inHand := fun (s : State) (x : XSlot) (op : Nat) =>
    (s.cluster s.inp.a).xslots.find s.inp.b = some x ∧ serving s s.inp.a s.inp.b = true ∧ (x.rec8.getD 0 0).toNat % 16 = op
  let d := fun (x : XSlot) (k : Nat) => x.rec8.getD k 0
  let piece := fun (s : State) (x : XSlot) (n : Nat) (src : List Byte) (fault : Nat) (s1 : State) =>
    xReadRun s x.q x.vf (d x 1 + wNat x.srcOff + wNat x.got.length) n = (s1, src, fault)
  let chunk := fun (s : State) (x : XSlot) (src : List Byte) (fault : Nat) (s1 : State) =>
    x.staged = [] ∧ piece s x (4352 - x.got.length) src fault s1
  let stored := fun (t : State) (gc k : Nat) (x : XSlot) (n : Nat) =>
    let y := { x with dstOff := x.dstOff + (x.staged.take n).length, staged := x.staged.drop n }
    setXslot t gc k (if y.staged ≠ [] then y
      else if x.count + 1 = (d x 3).toNat % 2 ^ 6 + 1 then { y with count := x.count + 1, ended := some 0, bound := 0, faultVa := 0 }
      else { y with count := x.count + 1 })
  let elements := fun (s w : State) (x : XSlot) (m fl : Nat) (last : Bool) =>
    let y := { x with count := x.count + m, flags := x.flags ||| fl }
    if last then served (setXslot w s.inp.a s.inp.b { y with ended := some 0, bound := 0, faultVa := 0 }) s.inp.a
    else setXslot w s.inp.a s.inp.b y
  let asked := fun (s : State) (x : XSlot) (n : Nat) =>
    if s.inp.c = 0 then (List.range n).drop x.count else ((List.range n).drop x.count).take s.inp.c
  ∃ x s1 src fault f, MetHappens .decoderWatchdogCutoff
    (fun s =>
      let o := Sys2Proof.Machine.decode (x.got ++ src) fault ((d x 3).toNat / 2 ^ 32 - x.dstOff) x.wdc
      inHand s x 0 ∧ chunk s x src fault s1 ∧ o.fail = some f ∧ f.bound = 2 ∧ f.status = 0x62 ∧ f.byte = none)
    (fun s =>
      let o := Sys2Proof.Machine.decode (x.got ++ src) fault ((d x 3).toNat / 2 ^ 32 - x.dstOff) x.wdc
      served (setXslot s1 s.inp.a s.inp.b { x with
        ended := some 0x62, bound := 2, faultVa := d x 1 + wNat x.srcOff
        emitted := o.emitted, cycles := o.cycles, consumed := o.consumed, got := [] }) s.inp.a) :=
  ⟨{ rec8 := [0, 0x2000, 0x3000, 0x100 * 2 ^ 32, 0, 0, 0, 0], wdc := 1 }, _, _, _, { status := 0x62, bound := 2 }, ({ one [] id id (fun k => { k with tlb := [⟨0, 0x2000, 24, 0x3F⟩, ⟨0, 0x3000, 256, 0x1003F⟩], xslots := [(2, { rec8 := [0, 0x2000, 0x3000, 0x100 * 2 ^ 32, 0, 0, 0, 0], wdc := 1 })] }) with inp := { a := 0, b := 2 }, mem := Memory.writeList [] 0 [1, 0, 21, 0, 1, 0, 0, 0, 0x34, 0, 0x34, 0, 0, 0, 0, 0, 0, 0, 0, 0, 14] }), ⟨⟨(by decide +kernel), (by decide +kernel), (by decide +kernel)⟩, ⟨rfl, (triple_eta _)⟩, (by decide +kernel), (by decide +kernel), (by decide +kernel), (by decide +kernel)⟩⟩

theorem met_TransformStepsComplete_6 :
  let inHand := fun (s : State) (x : XSlot) (op : Nat) =>
    (s.cluster s.inp.a).xslots.find s.inp.b = some x ∧ serving s s.inp.a s.inp.b = true ∧ (x.rec8.getD 0 0).toNat % 16 = op
  let d := fun (x : XSlot) (k : Nat) => x.rec8.getD k 0
  let piece := fun (s : State) (x : XSlot) (n : Nat) (src : List Byte) (fault : Nat) (s1 : State) =>
    xReadRun s x.q x.vf (d x 1 + wNat x.srcOff + wNat x.got.length) n = (s1, src, fault)
  let chunk := fun (s : State) (x : XSlot) (src : List Byte) (fault : Nat) (s1 : State) =>
    x.staged = [] ∧ piece s x (4352 - x.got.length) src fault s1
  let stored := fun (t : State) (gc k : Nat) (x : XSlot) (n : Nat) =>
    let y := { x with dstOff := x.dstOff + (x.staged.take n).length, staged := x.staged.drop n }
    setXslot t gc k (if y.staged ≠ [] then y
      else if x.count + 1 = (d x 3).toNat % 2 ^ 6 + 1 then { y with count := x.count + 1, ended := some 0, bound := 0, faultVa := 0 }
      else { y with count := x.count + 1 })
  let elements := fun (s w : State) (x : XSlot) (m fl : Nat) (last : Bool) =>
    let y := { x with count := x.count + m, flags := x.flags ||| fl }
    if last then served (setXslot w s.inp.a s.inp.b { y with ended := some 0, bound := 0, faultVa := 0 }) s.inp.a
    else setXslot w s.inp.a s.inp.b y
  let asked := fun (s : State) (x : XSlot) (n : Nat) =>
    if s.inp.c = 0 then (List.range n).drop x.count else ((List.range n).drop x.count).take s.inp.c
  ∃ x w n, MetHappens .transformTranspose
    (fun s =>
      let esz := 2 ^ ((d x 3).toNat % 4)
      let cols := (d x 3).toNat / 2 ^ 14 % 2 ^ 12 + 1
      inHand s x 1 ∧ n = ((d x 3).toNat / 2 ^ 2 % 2 ^ 12 + 1) * cols ∧ movedAll s.inp.a s.inp.b x.q x.vf (fun e =>
        (d x 1 + wNat (e / cols * ((d x 5).toNat % 2 ^ 32) + e % cols * esz), esz,
         d x 2 + wNat (e % cols * ((d x 5).toNat / 2 ^ 32) + e / cols * esz), esz)) (fun _ v => (v, 0)) s (asked s x n) = some (w, 0))
    (fun s => elements s w x (asked s x n).length 0 (s.inp.c = 0 || n - x.count ≤ s.inp.c)) :=
  ⟨{ rec8 := [1, 0x2000, 0x3000, 0x4004, 0, 2 + 2 ^ 32 * 2, 0, 0] }, _, 4, ({ one [] id id (fun k => { k with tlb := [⟨0, 0x2000, 24, 0x3F⟩, ⟨0, 0x3000, 256, 0x1003F⟩], xslots := [(2, { rec8 := [1, 0x2000, 0x3000, 0x4004, 0, 2 + 2 ^ 32 * 2, 0, 0] })] }) with inp := { a := 0, b := 2 }, mem := Memory.writeList [] 0 [0x20, 1, 2, 3] }), ⟨⟨(by decide +kernel), (by decide +kernel), (by decide +kernel)⟩, (by decide +kernel), (some_with (by decide +kernel) (by decide +kernel))⟩⟩

theorem met_TransformStepsComplete_7 :
  let inHand := fun (s : State) (x : XSlot) (op : Nat) =>
    (s.cluster s.inp.a).xslots.find s.inp.b = some x ∧ serving s s.inp.a s.inp.b = true ∧ (x.rec8.getD 0 0).toNat % 16 = op
  let d := fun (x : XSlot) (k : Nat) => x.rec8.getD k 0
  let piece := fun (s : State) (x : XSlot) (n : Nat) (src : List Byte) (fault : Nat) (s1 : State) =>
    xReadRun s x.q x.vf (d x 1 + wNat x.srcOff + wNat x.got.length) n = (s1, src, fault)
  let chunk := fun (s : State) (x : XSlot) (src : List Byte) (fault : Nat) (s1 : State) =>
    x.staged = [] ∧ piece s x (4352 - x.got.length) src fault s1
  let stored := fun (t : State) (gc k : Nat) (x : XSlot) (n : Nat) =>
    let y := { x with dstOff := x.dstOff + (x.staged.take n).length, staged := x.staged.drop n }
    setXslot t gc k (if y.staged ≠ [] then y
      else if x.count + 1 = (d x 3).toNat % 2 ^ 6 + 1 then { y with count := x.count + 1, ended := some 0, bound := 0, faultVa := 0 }
      else { y with count := x.count + 1 })
  let elements := fun (s w : State) (x : XSlot) (m fl : Nat) (last : Bool) =>
    let y := { x with count := x.count + m, flags := x.flags ||| fl }
    if last then served (setXslot w s.inp.a s.inp.b { y with ended := some 0, bound := 0, faultVa := 0 }) s.inp.a
    else setXslot w s.inp.a s.inp.b y
  let asked := fun (s : State) (x : XSlot) (n : Nat) =>
    if s.inp.c = 0 then (List.range n).drop x.count else ((List.range n).drop x.count).take s.inp.c
  ∃ x w fl n, MetHappens .transformConvert
    (fun s =>
      let ts := (d x 3).toNat % 16
      let td := (d x 3).toNat / 2 ^ 4 % 16
      let m := effMode x.fcsr ((d x 3).toNat / 2 ^ 8 % 8)
      inHand s x 2 ∧ n = (d x 3).toNat / 2 ^ 12 % 2 ^ 16 + 1 ∧ movedAll s.inp.a s.inp.b x.q x.vf (fun i =>
        (d x 1 + wNat (i * (typeWidth ts / 8)), typeWidth ts / 8, d x 2 + wNat (i * (typeWidth td / 8)), typeWidth td / 8))
        (convertOne m (fcsrFout x.fcsr) ((d x 3).getLsbD 11) ts td
          (fun i => if m = .sr then srBits x.srseed x.srcore x.srctr i 0 else 0)) s (asked s x n) = some (w, fl))
    (fun s => elements s w x (asked s x n).length fl (s.inp.c = 0 || n - x.count ≤ s.inp.c)) :=
  ⟨{ rec8 := [2, 0x2000, 0x3000, 0x51, 0, 0, 0, 0] }, _, _, 1, ({ one [] id id (fun k => { k with tlb := [⟨0, 0x2000, 24, 0x3F⟩, ⟨0, 0x3000, 256, 0x1003F⟩], xslots := [(2, { rec8 := [2, 0x2000, 0x3000, 0x51, 0, 0, 0, 0] })] }) with inp := { a := 0, b := 2 }, mem := Memory.writeList [] 0 [0x20, 1, 2, 3] }), ⟨⟨(by decide +kernel), (by decide +kernel), (by decide +kernel)⟩, (by decide +kernel), (some_pair (by decide +kernel))⟩⟩

theorem met_TransformStepsComplete_8 :
  let inHand := fun (s : State) (x : XSlot) (op : Nat) =>
    (s.cluster s.inp.a).xslots.find s.inp.b = some x ∧ serving s s.inp.a s.inp.b = true ∧ (x.rec8.getD 0 0).toNat % 16 = op
  let d := fun (x : XSlot) (k : Nat) => x.rec8.getD k 0
  let piece := fun (s : State) (x : XSlot) (n : Nat) (src : List Byte) (fault : Nat) (s1 : State) =>
    xReadRun s x.q x.vf (d x 1 + wNat x.srcOff + wNat x.got.length) n = (s1, src, fault)
  let chunk := fun (s : State) (x : XSlot) (src : List Byte) (fault : Nat) (s1 : State) =>
    x.staged = [] ∧ piece s x (4352 - x.got.length) src fault s1
  let stored := fun (t : State) (gc k : Nat) (x : XSlot) (n : Nat) =>
    let y := { x with dstOff := x.dstOff + (x.staged.take n).length, staged := x.staged.drop n }
    setXslot t gc k (if y.staged ≠ [] then y
      else if x.count + 1 = (d x 3).toNat % 2 ^ 6 + 1 then { y with count := x.count + 1, ended := some 0, bound := 0, faultVa := 0 }
      else { y with count := x.count + 1 })
  let elements := fun (s w : State) (x : XSlot) (m fl : Nat) (last : Bool) =>
    let y := { x with count := x.count + m, flags := x.flags ||| fl }
    if last then served (setXslot w s.inp.a s.inp.b { y with ended := some 0, bound := 0, faultVa := 0 }) s.inp.a
    else setXslot w s.inp.a s.inp.b y
  let asked := fun (s : State) (x : XSlot) (n : Nat) =>
    if s.inp.c = 0 then (List.range n).drop x.count else ((List.range n).drop x.count).take s.inp.c
  ∃ x st0 st w, MetHappens .transformResponse
    (fun s => (s.cluster s.inp.a).xslots.find s.inp.b = some x ∧ x.ended = some st0 ∧ x.answered = false ∧
      (∀ e ∈ (s.cluster s.inp.a).xslots, e.1 = s.inp.b ∨ e.2.core ≠ x.core ∨ e.2.answered = true ∨ x.order ≤ e.2.order) ∧
      storesDone s (xUnit s.inp.a) s.inp.b = true ∧
      st = (if st0 = 0 ∧ storesLost s (xUnit s.inp.a) s.inp.b = true then 0x2C else st0) ∧
      ((st = 0 ∨ d x 4 = 0) ∧ w = s ∨
       st ≠ 0 ∧ d x 4 ≠ 0 ∧ xWriteRun s x.q x.vf (d x 4)
        ([x.faultVa, wNat (st + 2 ^ 8 * x.bound + 2 ^ 10 * (if (d x 0).toNat % 16 = 0 then x.count % 64 else 0) + 2 ^ 32 * x.emitted),
          wNat (x.cycles + 2 ^ 32 * x.consumed), d x 0].flatMap fun v => (leBytes 8 v.toNat).map BitVec.toNat) = .ok w))
    (fun s => (setXslot (dropStores w (xUnit s.inp.a) s.inp.b) s.inp.a s.inp.b { x with answered := true }).modCore x.core fun c =>
      { c with
        xq := c.xq ++ [(wNat (st + 2 ^ 8 * ((d x 0).toNat / 2 ^ 4 % 2 ^ 8) + 2 ^ 16 * x.bound + 2 ^ 18 * (x.flags / 128) +
          2 ^ 24 * (if st = 0 ∨ (d x 0).toNat % 16 ≠ 0 then 0 else x.count % 64) + 2 ^ 32 * x.count), s.inp.b)] }) :=
  ⟨{ rec8 := [1, 0x2000, 0x3000, 0x4004, 0, 2 + 2 ^ 32 * 2, 0, 0], ended := some 0 }, 0, 0, _, ({ one [] id id (fun k => { k with tlb := [⟨0, 0x2000, 24, 0x3F⟩, ⟨0, 0x3000, 256, 0x1003F⟩], xslots := [(2, { rec8 := [1, 0x2000, 0x3000, 0x4004, 0, 2 + 2 ^ 32 * 2, 0, 0], ended := some 0 })] }) with inp := { a := 0, b := 2 } }), ⟨(by decide +kernel), (by decide +kernel), (by decide +kernel), (by decide +kernel), (by decide +kernel), (by decide +kernel), .inl ⟨.inl (by decide +kernel), rfl⟩⟩⟩

theorem met_TransformStepsComplete_9 :
  let inHand := fun (s : State) (x : XSlot) (op : Nat) =>
    (s.cluster s.inp.a).xslots.find s.inp.b = some x ∧ serving s s.inp.a s.inp.b = true ∧ (x.rec8.getD 0 0).toNat % 16 = op
  let d := fun (x : XSlot) (k : Nat) => x.rec8.getD k 0
  let piece := fun (s : State) (x : XSlot) (n : Nat) (src : List Byte) (fault : Nat) (s1 : State) =>
    xReadRun s x.q x.vf (d x 1 + wNat x.srcOff + wNat x.got.length) n = (s1, src, fault)
  let chunk := fun (s : State) (x : XSlot) (src : List Byte) (fault : Nat) (s1 : State) =>
    x.staged = [] ∧ piece s x (4352 - x.got.length) src fault s1
  let stored := fun (t : State) (gc k : Nat) (x : XSlot) (n : Nat) =>
    let y := { x with dstOff := x.dstOff + (x.staged.take n).length, staged := x.staged.drop n }
    setXslot t gc k (if y.staged ≠ [] then y
      else if x.count + 1 = (d x 3).toNat % 2 ^ 6 + 1 then { y with count := x.count + 1, ended := some 0, bound := 0, faultVa := 0 }
      else { y with count := x.count + 1 })
  let elements := fun (s w : State) (x : XSlot) (m fl : Nat) (last : Bool) =>
    let y := { x with count := x.count + m, flags := x.flags ||| fl }
    if last then served (setXslot w s.inp.a s.inp.b { y with ended := some 0, bound := 0, faultVa := 0 }) s.inp.a
    else setXslot w s.inp.a s.inp.b y
  let asked := fun (s : State) (x : XSlot) (n : Nat) =>
    if s.inp.c = 0 then (List.range n).drop x.count else ((List.range n).drop x.count).take s.inp.c
  ∃ k core t, MetHappens .transformClaimLapse
    (fun s => (s.cluster s.inp.a).xheld = [(k, core, t)] ∧ t.toNat + 128 ≤ s.tide.toNat ∧ s.tide.toNat < t.toNat + 256)
    (fun s => s.modCluster s.inp.a fun c =>
      let claims := c.xclaims.filter (· != core)
      { c with xclaims := claims, xheld := (claims.head?.map fun g => (k, g, t + 128)).toList }) :=
  ⟨2, 0, 800, ({ one [] id id (fun k => { k with xclaims := [0, 1], xheld := [(2, 0, 800)] }) with inp := { a := 0 } }), ⟨(by decide +kernel), (by decide +kernel), (by decide +kernel)⟩⟩

theorem met_TransformStepsComplete_10 :
  let inHand := fun (s : State) (x : XSlot) (op : Nat) =>
    (s.cluster s.inp.a).xslots.find s.inp.b = some x ∧ serving s s.inp.a s.inp.b = true ∧ (x.rec8.getD 0 0).toNat % 16 = op
  let d := fun (x : XSlot) (k : Nat) => x.rec8.getD k 0
  let piece := fun (s : State) (x : XSlot) (n : Nat) (src : List Byte) (fault : Nat) (s1 : State) =>
    xReadRun s x.q x.vf (d x 1 + wNat x.srcOff + wNat x.got.length) n = (s1, src, fault)
  let chunk := fun (s : State) (x : XSlot) (src : List Byte) (fault : Nat) (s1 : State) =>
    x.staged = [] ∧ piece s x (4352 - x.got.length) src fault s1
  let stored := fun (t : State) (gc k : Nat) (x : XSlot) (n : Nat) =>
    let y := { x with dstOff := x.dstOff + (x.staged.take n).length, staged := x.staged.drop n }
    setXslot t gc k (if y.staged ≠ [] then y
      else if x.count + 1 = (d x 3).toNat % 2 ^ 6 + 1 then { y with count := x.count + 1, ended := some 0, bound := 0, faultVa := 0 }
      else { y with count := x.count + 1 })
  let elements := fun (s w : State) (x : XSlot) (m fl : Nat) (last : Bool) =>
    let y := { x with count := x.count + m, flags := x.flags ||| fl }
    if last then served (setXslot w s.inp.a s.inp.b { y with ended := some 0, bound := 0, faultVa := 0 }) s.inp.a
    else setXslot w s.inp.a s.inp.b y
  let asked := fun (s : State) (x : XSlot) (n : Nat) =>
    if s.inp.c = 0 then (List.range n).drop x.count else ((List.range n).drop x.count).take s.inp.c
  ∃ k core t, MetHappens .transformClaimLapse
    (fun s => (s.cluster s.inp.a).xheld = [(k, core, t)] ∧ s.tide.toNat < t.toNat + 128)
    (fun s => s.modCluster s.inp.a id) :=
  ⟨2, 0, 900, ({ one [] id id (fun k => { k with xclaims := [0, 1], xheld := [(2, 0, 900)] }) with inp := { a := 0 } }), ⟨(by decide +kernel), (by decide +kernel)⟩⟩

theorem met_EngineStepsComplete_1 :
  ∃ r, MetHappens .engineKickAccept
    (fun s => s.me.reqBuf = some r ∧ s.inp.a < Config.harts ∧ queueFull s s.inp.a = false ∧ (s.proc (hartQOf s.inp.a)).stopped = false)
    (fun s => (s.modEngine s.inp.a fun e => { e with queue := e.queue ++ [r] }).modProc s.cur fun p => { p with reqBuf := none }) :=
  ⟨{ op := 0x91 }, ({ one [] fun p => { p with reqBuf := some { op := 0x91 } } with inp := { a := 3 } }), ⟨(by decide +kernel), (by decide +kernel), (by decide +kernel), (by decide +kernel)⟩⟩

theorem met_EngineStepsComplete_2 :
  ∃ r, MetHappensTo .engineKickAccept
    (fun s => s.me.reqBuf = some r ∧ s.inp.a < Config.harts ∧ queueFull s s.inp.a = false ∧ (s.proc (hartQOf s.inp.a)).stopped = true ∧
      engineNo r.op ≠ 0 ∧ engineNo r.op ≠ 4 ∧ r.killed = false ∧ r.toMem = none ∧ r.handles = [] ∧ r.ring = none)
    (fun s t => (t.core (coreOf r.q)).jetty = (s.core (coreOf r.q)).jetty ++ [frameOf 0x71 (engineNo r.op) r.rid.toNat 0 0] ∧
      t.me.reqBuf = none ∧ t.engines = s.engines) :=
  ⟨{ op := 0x9F, rid := 16 }, ({ one [] fun p => { p with reqBuf := some { op := 0x9F, rid := 16 } } with inp := { a := 640 }, procs := [(0, { live [] with reqBuf := some { op := 0x9F, rid := 16 } }), (hartQOf 640, { stopped := true })] }), ⟨(by decide +kernel), (by decide +kernel), (by decide +kernel), (by decide +kernel), (by decide +kernel), (by decide +kernel), (by decide +kernel), (by decide +kernel), (by decide +kernel), (by decide +kernel)⟩⟩

theorem met_EngineStepsComplete_3 :
  MetHappensTo .engineHartFaultStop
    (fun s =>
      let q := hartQOf s.inp.a
      s.inp.a < 640 ∧ (s.proc q).stopped = true ∧ (s.proc q).st ≠ .ended ∧ s.efaults.length < 16 ∧ (s.engine s.inp.a).all = [])
    (fun s t =>
      (t.proc (hartQOf s.inp.a)).st = .ended ∧
      t.efaults = s.efaults ++ [wNat (1 + 2 ^ 4 * s.inp.a + 2 ^ 18 * (s.inp.b % 256) + 2 ^ 32 * (s.inp.w.toNat % 2 ^ 32))] ∧
      (0, 1) ∈ t.msix ∧ t.devents = s.devents ++ [⟨5, (s.proc (hartQOf s.inp.a)).vf, 0, 0⟩]) :=
  ⟨({ hart 3 [] (fun p => { p with stopped := true }) with inp := { a := 3, b := 7, w := 9 } }), ⟨(by decide +kernel), (by decide +kernel), (by decide +kernel), (by decide +kernel), (by decide +kernel)⟩⟩

theorem met_EngineStepsComplete_4 :
  ∃ r, MetHappensTo .engineHartFaultStop
    (fun s =>
      let q := hartQOf s.inp.a
      s.inp.a = ferryman ∧ (s.proc q).stopped = true ∧ (s.proc q).st ≠ .ended ∧ (s.engine s.inp.a).all = [r] ∧
      engineNo r.op = 4 ∧ r.killed = false ∧ r.toMem = none ∧ r.handles = [] ∧ r.ring = none)
    (fun s t => (s.engine s.inp.a).all = [r] ∧ (t.engine s.inp.a).all = [] ∧
      (t.core (coreOf r.q)).jetty = (s.core (coreOf r.q)).jetty ++ [frameOf 0x71 4 r.rid.toNat r.sel r.tag]) :=
  ⟨{ op := 0x89, rid := 16, sel := 2, tag := 5 }, ({ hart 13456 [] (fun p => { p with stopped := true }) (fun e => { e with queue := [{ op := 0x89, rid := 16, sel := 2, tag := 5 }] }) with inp := { a := 13456, b := 7, w := 9 } }), ⟨(by decide +kernel), (by decide +kernel), (by decide +kernel), (by decide +kernel), (by decide +kernel), (by decide +kernel), (by decide +kernel), (by decide +kernel), (by decide +kernel)⟩⟩

theorem met_LaunchStepsComplete_1 :
  let marked := fun (s : State) (l : Launch) =>
    l.cls.foldl (fun t gc => (coresOf gc).foldl (fun t g => t.modCore g fun c => { c with preempt := true }) t)
      (setLaunch s { l with st := .marked, since := s.tide })
  let started := fun (s : State) (l : Launch) (cs : List Nat) =>
    let ln := nextLn (s.vfOf l.vf).lastLn
    let k := { l with ln := ln, st := .running, cls := cs, vcls := cs.map (vclOf s l.vf), held := false, waiting := none, started := s.tide }
    ((List.range cs.length).zip cs).foldl (fun t e => startCluster t k e.2 e.1) (setLaunch (s.modVf l.vf fun f => { f with lastLn := ln }) k)
  let rested := fun (s : State) (l : Launch) => l.cls.foldl (fun t gc => restCluster t gc ((s.vfOf l.vf).sch0.getLsbD 8)) 
  let dead := fun (s : State) (l : Launch) (cause : Nat) =>
    (setLaunch (l.cls.foldl killCluster s) { l with st := .killed, cause := cause, held := false, waiting := none }).modEngine ferryman
      fun e => { e with queue := e.queue.filter fun r => !(r.vf == l.vf && r.ln == l.ln) }
  let taken := fun (s : State) (head : Word) (r : List Word) =>
    ({ vf := s.inp.a, queue := s.inp.b, pos := head.toNat, rec16 := r } : Launch)
  let fits := fun (s : State) (head : Word) (r : List Word) =>
    recordOk (taken s head r) ((s.vfOf s.inp.a).grant.filter fun gc => !(s.cluster gc).fenced).length
  let takes := fun (s s1 : State) (ws : List Word) (s2 : State) (r : List Word) (s3 : State) =>
    let d : QDesc := ⟨ws⟩
    runsDefault s ferryman = true ∧ hasQueue s s.inp.a s.inp.b = true ∧ (s.vfOf s.inp.a).badq.contains s.inp.b = false ∧
    (∀ l ∈ s.launches, l.vf = s.inp.a → l.queue = s.inp.b → l.st ≠ .taken) ∧
    readDws s ferryQ s.inp.a (queueVa s s.inp.a s.inp.b) 8 = .ok (s1, ws) ∧ d.ok = true ∧ d.en = true ∧
    readDws s1 ferryQ s.inp.a (d.slot d.head) 16 = .ok (s2, r) ∧ r.getD 15 0 = d.head + 1 ∧
    putImage s2 ferryQ s.inp.a (queueVa s s.inp.a s.inp.b + 24) [d.head + 1] = .ok s3
  let serves := fun (s : State) (l : Launch) (u : State) =>
    mayPlace s s.inp.a = true ∧ failEvent (checkQueues s s.inp.a) s.inp.a = none ∧ chosen (checkQueues s s.inp.a) s.inp.a = some (l, u)
  MetHappens .doorbell (fun _ => True)
    (fun s => { (s.modVf s.inp.a fun f => { f with badq := f.badq.filter fun q => !((List.range 16).filter fun q => s.inp.b.testBit q).contains q })
      with devents := s.devents ++ ((List.range 16).filter fun q => s.inp.b.testBit q).map fun q => ⟨1, s.inp.a, q, 0⟩ }) :=
  ⟨({ inp := { a := 0, b := 5 }, tide := 3000000, slices := [(0, { tlb := [flat] })], clusters := [(0, { tlb := [flat] })], vfs := [(0, { en := true, sch0 := 1, grant := [0], qtab := 0x20000, badq := [0] }), (1, { en := true, grant := [0] })], launches := [], mem := [(0x10000, 1), (0x10003, 1)] }), trivial⟩

theorem met_LaunchStepsComplete_2 :
  let marked := fun (s : State) (l : Launch) =>
    l.cls.foldl (fun t gc => (coresOf gc).foldl (fun t g => t.modCore g fun c => { c with preempt := true }) t)
      (setLaunch s { l with st := .marked, since := s.tide })
  let started := fun (s : State) (l : Launch) (cs : List Nat) =>
    let ln := nextLn (s.vfOf l.vf).lastLn
    let k := { l with ln := ln, st := .running, cls := cs, vcls := cs.map (vclOf s l.vf), held := false, waiting := none, started := s.tide }
    ((List.range cs.length).zip cs).foldl (fun t e => startCluster t k e.2 e.1) (setLaunch (s.modVf l.vf fun f => { f with lastLn := ln }) k)
  let rested := fun (s : State) (l : Launch) => l.cls.foldl (fun t gc => restCluster t gc ((s.vfOf l.vf).sch0.getLsbD 8)) 
  let dead := fun (s : State) (l : Launch) (cause : Nat) =>
    (setLaunch (l.cls.foldl killCluster s) { l with st := .killed, cause := cause, held := false, waiting := none }).modEngine ferryman
      fun e => { e with queue := e.queue.filter fun r => !(r.vf == l.vf && r.ln == l.ln) }
  let taken := fun (s : State) (head : Word) (r : List Word) =>
    ({ vf := s.inp.a, queue := s.inp.b, pos := head.toNat, rec16 := r } : Launch)
  let fits := fun (s : State) (head : Word) (r : List Word) =>
    recordOk (taken s head r) ((s.vfOf s.inp.a).grant.filter fun gc => !(s.cluster gc).fenced).length
  let takes := fun (s s1 : State) (ws : List Word) (s2 : State) (r : List Word) (s3 : State) =>
    let d : QDesc := ⟨ws⟩
    runsDefault s ferryman = true ∧ hasQueue s s.inp.a s.inp.b = true ∧ (s.vfOf s.inp.a).badq.contains s.inp.b = false ∧
    (∀ l ∈ s.launches, l.vf = s.inp.a → l.queue = s.inp.b → l.st ≠ .taken) ∧
    readDws s ferryQ s.inp.a (queueVa s s.inp.a s.inp.b) 8 = .ok (s1, ws) ∧ d.ok = true ∧ d.en = true ∧
    readDws s1 ferryQ s.inp.a (d.slot d.head) 16 = .ok (s2, r) ∧ r.getD 15 0 = d.head + 1 ∧
    putImage s2 ferryQ s.inp.a (queueVa s s.inp.a s.inp.b + 24) [d.head + 1] = .ok s3
  let serves := fun (s : State) (l : Launch) (u : State) =>
    mayPlace s s.inp.a = true ∧ failEvent (checkQueues s s.inp.a) s.inp.a = none ∧ chosen (checkQueues s s.inp.a) s.inp.a = some (l, u)
  MetHappensTo .klnidKill (fun s => launchAt s s.inp.a s.inp.b = none)
    (fun s t => (t.vfOf s.inp.a).kbusy = false ∧ (t.vfOf s.inp.a).kln = s.inp.b ∧ t.launches = s.launches) :=
  ⟨({ inp := { a := 0, b := 5 }, tide := 3000000, slices := [(0, { tlb := [flat] })], clusters := [(0, { tlb := [flat] })], vfs := [(0, { en := true, sch0 := 1, grant := [0], qtab := 0x20000 }), (1, { en := true, grant := [0] })], launches := [], mem := [(0x10000, 1), (0x10003, 1)] }), (by decide +kernel)⟩

theorem met_LaunchStepsComplete_3 :
  let marked := fun (s : State) (l : Launch) =>
    l.cls.foldl (fun t gc => (coresOf gc).foldl (fun t g => t.modCore g fun c => { c with preempt := true }) t)
      (setLaunch s { l with st := .marked, since := s.tide })
  let started := fun (s : State) (l : Launch) (cs : List Nat) =>
    let ln := nextLn (s.vfOf l.vf).lastLn
    let k := { l with ln := ln, st := .running, cls := cs, vcls := cs.map (vclOf s l.vf), held := false, waiting := none, started := s.tide }
    ((List.range cs.length).zip cs).foldl (fun t e => startCluster t k e.2 e.1) (setLaunch (s.modVf l.vf fun f => { f with lastLn := ln }) k)
  let rested := fun (s : State) (l : Launch) => l.cls.foldl (fun t gc => restCluster t gc ((s.vfOf l.vf).sch0.getLsbD 8)) 
  let dead := fun (s : State) (l : Launch) (cause : Nat) =>
    (setLaunch (l.cls.foldl killCluster s) { l with st := .killed, cause := cause, held := false, waiting := none }).modEngine ferryman
      fun e => { e with queue := e.queue.filter fun r => !(r.vf == l.vf && r.ln == l.ln) }
  let taken := fun (s : State) (head : Word) (r : List Word) =>
    ({ vf := s.inp.a, queue := s.inp.b, pos := head.toNat, rec16 := r } : Launch)
  let fits := fun (s : State) (head : Word) (r : List Word) =>
    recordOk (taken s head r) ((s.vfOf s.inp.a).grant.filter fun gc => !(s.cluster gc).fenced).length
  let takes := fun (s s1 : State) (ws : List Word) (s2 : State) (r : List Word) (s3 : State) =>
    let d : QDesc := ⟨ws⟩
    runsDefault s ferryman = true ∧ hasQueue s s.inp.a s.inp.b = true ∧ (s.vfOf s.inp.a).badq.contains s.inp.b = false ∧
    (∀ l ∈ s.launches, l.vf = s.inp.a → l.queue = s.inp.b → l.st ≠ .taken) ∧
    readDws s ferryQ s.inp.a (queueVa s s.inp.a s.inp.b) 8 = .ok (s1, ws) ∧ d.ok = true ∧ d.en = true ∧
    readDws s1 ferryQ s.inp.a (d.slot d.head) 16 = .ok (s2, r) ∧ r.getD 15 0 = d.head + 1 ∧
    putImage s2 ferryQ s.inp.a (queueVa s s.inp.a s.inp.b + 24) [d.head + 1] = .ok s3
  let serves := fun (s : State) (l : Launch) (u : State) =>
    mayPlace s s.inp.a = true ∧ failEvent (checkQueues s s.inp.a) s.inp.a = none ∧ chosen (checkQueues s s.inp.a) s.inp.a = some (l, u)
  ∃ l, MetHappens .klnidKill
    (fun s => launchAt s s.inp.a s.inp.b = some l ∧ (l.st = .running ∨ l.st = .marked ∨ l.st = .resting))
    (fun s => dead (raiseEvent (s.modVf s.inp.a fun f => { f with kbusy := true, kln := s.inp.b }) ⟨4, s.inp.a, l.queue, l.ln⟩) l 0) :=
  ⟨{ ln := 1, cls := [0], vcls := [0], st := .running }, ({ inp := { a := 0, b := 1 }, tide := 3000000, slices := [(0, { tlb := [flat] })], clusters := [(0, { tlb := [flat] })], vfs := [(0, { en := true, sch0 := 1, grant := [0], qtab := 0x20000 }), (1, { en := true, grant := [0] })], launches := [{ ln := 1, cls := [0], vcls := [0], st := .running }], mem := [(0x10000, 1), (0x10003, 1)] }), ⟨(by decide +kernel), .inl (by decide +kernel)⟩⟩

theorem met_LaunchStepsComplete_4 :
  let marked := fun (s : State) (l : Launch) =>
    l.cls.foldl (fun t gc => (coresOf gc).foldl (fun t g => t.modCore g fun c => { c with preempt := true }) t)
      (setLaunch s { l with st := .marked, since := s.tide })
  let started := fun (s : State) (l : Launch) (cs : List Nat) =>
    let ln := nextLn (s.vfOf l.vf).lastLn
    let k := { l with ln := ln, st := .running, cls := cs, vcls := cs.map (vclOf s l.vf), held := false, waiting := none, started := s.tide }
    ((List.range cs.length).zip cs).foldl (fun t e => startCluster t k e.2 e.1) (setLaunch (s.modVf l.vf fun f => { f with lastLn := ln }) k)
  let rested := fun (s : State) (l : Launch) => l.cls.foldl (fun t gc => restCluster t gc ((s.vfOf l.vf).sch0.getLsbD 8)) 
  let dead := fun (s : State) (l : Launch) (cause : Nat) =>
    (setLaunch (l.cls.foldl killCluster s) { l with st := .killed, cause := cause, held := false, waiting := none }).modEngine ferryman
      fun e => { e with queue := e.queue.filter fun r => !(r.vf == l.vf && r.ln == l.ln) }
  let taken := fun (s : State) (head : Word) (r : List Word) =>
    ({ vf := s.inp.a, queue := s.inp.b, pos := head.toNat, rec16 := r } : Launch)
  let fits := fun (s : State) (head : Word) (r : List Word) =>
    recordOk (taken s head r) ((s.vfOf s.inp.a).grant.filter fun gc => !(s.cluster gc).fenced).length
  let takes := fun (s s1 : State) (ws : List Word) (s2 : State) (r : List Word) (s3 : State) =>
    let d : QDesc := ⟨ws⟩
    runsDefault s ferryman = true ∧ hasQueue s s.inp.a s.inp.b = true ∧ (s.vfOf s.inp.a).badq.contains s.inp.b = false ∧
    (∀ l ∈ s.launches, l.vf = s.inp.a → l.queue = s.inp.b → l.st ≠ .taken) ∧
    readDws s ferryQ s.inp.a (queueVa s s.inp.a s.inp.b) 8 = .ok (s1, ws) ∧ d.ok = true ∧ d.en = true ∧
    readDws s1 ferryQ s.inp.a (d.slot d.head) 16 = .ok (s2, r) ∧ r.getD 15 0 = d.head + 1 ∧
    putImage s2 ferryQ s.inp.a (queueVa s s.inp.a s.inp.b + 24) [d.head + 1] = .ok s3
  let serves := fun (s : State) (l : Launch) (u : State) =>
    mayPlace s s.inp.a = true ∧ failEvent (checkQueues s s.inp.a) s.inp.a = none ∧ chosen (checkQueues s s.inp.a) s.inp.a = some (l, u)
  ∃ s1 ws s2 r s3, MetHappens .launchRecordTake
    (fun s => takes s s1 ws s2 r s3 ∧ fits s (⟨ws⟩ : QDesc).head r = true)
    (fun s => answerLaunch { s3 with launches := s3.launches ++ [taken s (⟨ws⟩ : QDesc).head r] } s.inp.a s.inp.b (⟨ws⟩ : QDesc).head 0) :=
  ⟨_, _, _, _, _, ({ inp := { a := 0, b := 0 }, tide := 3000000, slices := [(0, { tlb := [flat] })], clusters := [(0, { tlb := [flat] })], vfs := [(0, { en := true, sch0 := 1, grant := [0], qtab := 0x20000 }), (1, { en := true, grant := [0] })], launches := [], mem := Memory.writeList (Memory.writeList [(0x10000, 1), (0x10003, 1)] 0x20000 (leBytes 8 0x22000 ++ leBytes 8 0x141 ++ leBytes 8 1 ++ leBytes 8 0 ++ leBytes 8 0x100000 ++ leBytes 8 0x1000000)) 0x22000 (leBytes 8 0x10002 ++ leBytes 8 1 ++ List.replicate 104 0 ++ leBytes 8 1) }), ⟨⟨(by decide +kernel), (by decide +kernel), (by decide +kernel), nofun, (fine_pair (by decide +kernel)), (by decide +kernel), (by decide +kernel), (fine_pair (by decide +kernel)), (by decide +kernel), (fine_of_isFine (by decide +kernel))⟩, (by decide +kernel)⟩⟩

theorem met_LaunchStepsComplete_5 :
  let marked := fun (s : State) (l : Launch) =>
    l.cls.foldl (fun t gc => (coresOf gc).foldl (fun t g => t.modCore g fun c => { c with preempt := true }) t)
      (setLaunch s { l with st := .marked, since := s.tide })
  let started := fun (s : State) (l : Launch) (cs : List Nat) =>
    let ln := nextLn (s.vfOf l.vf).lastLn
    let k := { l with ln := ln, st := .running, cls := cs, vcls := cs.map (vclOf s l.vf), held := false, waiting := none, started := s.tide }
    ((List.range cs.length).zip cs).foldl (fun t e => startCluster t k e.2 e.1) (setLaunch (s.modVf l.vf fun f => { f with lastLn := ln }) k)
  let rested := fun (s : State) (l : Launch) => l.cls.foldl (fun t gc => restCluster t gc ((s.vfOf l.vf).sch0.getLsbD 8)) 
  let dead := fun (s : State) (l : Launch) (cause : Nat) =>
    (setLaunch (l.cls.foldl killCluster s) { l with st := .killed, cause := cause, held := false, waiting := none }).modEngine ferryman
      fun e => { e with queue := e.queue.filter fun r => !(r.vf == l.vf && r.ln == l.ln) }
  let taken := fun (s : State) (head : Word) (r : List Word) =>
    ({ vf := s.inp.a, queue := s.inp.b, pos := head.toNat, rec16 := r } : Launch)
  let fits := fun (s : State) (head : Word) (r : List Word) =>
    recordOk (taken s head r) ((s.vfOf s.inp.a).grant.filter fun gc => !(s.cluster gc).fenced).length
  let takes := fun (s s1 : State) (ws : List Word) (s2 : State) (r : List Word) (s3 : State) =>
    let d : QDesc := ⟨ws⟩
    runsDefault s ferryman = true ∧ hasQueue s s.inp.a s.inp.b = true ∧ (s.vfOf s.inp.a).badq.contains s.inp.b = false ∧
    (∀ l ∈ s.launches, l.vf = s.inp.a → l.queue = s.inp.b → l.st ≠ .taken) ∧
    readDws s ferryQ s.inp.a (queueVa s s.inp.a s.inp.b) 8 = .ok (s1, ws) ∧ d.ok = true ∧ d.en = true ∧
    readDws s1 ferryQ s.inp.a (d.slot d.head) 16 = .ok (s2, r) ∧ r.getD 15 0 = d.head + 1 ∧
    putImage s2 ferryQ s.inp.a (queueVa s s.inp.a s.inp.b + 24) [d.head + 1] = .ok s3
  let serves := fun (s : State) (l : Launch) (u : State) =>
    mayPlace s s.inp.a = true ∧ failEvent (checkQueues s s.inp.a) s.inp.a = none ∧ chosen (checkQueues s s.inp.a) s.inp.a = some (l, u)
  ∃ s1 ws s2 r s3 t, MetHappens .launchRecordTake
    (fun s => takes s s1 ws s2 r s3 ∧ fits s (⟨ws⟩ : QDesc).head r = false ∧
      reportEnd (answerLaunch s3 s.inp.a s.inp.b (⟨ws⟩ : QDesc).head 5) (taken s (⟨ws⟩ : QDesc).head r) 5 0 = .ok t)
    (fun _ => t) :=
  ⟨_, _, _, _, _, _, ({ inp := { a := 0, b := 0 }, tide := 3000000, slices := [(0, { tlb := [flat] })], clusters := [(0, { tlb := [flat] })], vfs := [(0, { en := true, sch0 := 1, grant := [0], qtab := 0x20000 }), (1, { en := true, grant := [0] })], launches := [], mem := Memory.writeList (Memory.writeList [(0x10000, 1), (0x10003, 1)] 0x20000 (leBytes 8 0x22000 ++ leBytes 8 0x141 ++ leBytes 8 1 ++ leBytes 8 0 ++ leBytes 8 0x100000 ++ leBytes 8 0x1000000)) 0x22000 (leBytes 8 0x30002 ++ leBytes 8 0x3000 ++ List.replicate 104 0 ++ leBytes 8 1) }), ⟨⟨(by decide +kernel), (by decide +kernel), (by decide +kernel), nofun, (fine_pair (by decide +kernel)), (by decide +kernel), (by decide +kernel), (fine_pair (by decide +kernel)), (by decide +kernel), (fine_of_isFine (by decide +kernel))⟩, (by decide +kernel), (fine_of_isFine (by decide +kernel))⟩⟩

theorem met_LaunchStepsComplete_6 :
  let marked := fun (s : State) (l : Launch) =>
    l.cls.foldl (fun t gc => (coresOf gc).foldl (fun t g => t.modCore g fun c => { c with preempt := true }) t)
      (setLaunch s { l with st := .marked, since := s.tide })
  let started := fun (s : State) (l : Launch) (cs : List Nat) =>
    let ln := nextLn (s.vfOf l.vf).lastLn
    let k := { l with ln := ln, st := .running, cls := cs, vcls := cs.map (vclOf s l.vf), held := false, waiting := none, started := s.tide }
    ((List.range cs.length).zip cs).foldl (fun t e => startCluster t k e.2 e.1) (setLaunch (s.modVf l.vf fun f => { f with lastLn := ln }) k)
  let rested := fun (s : State) (l : Launch) => l.cls.foldl (fun t gc => restCluster t gc ((s.vfOf l.vf).sch0.getLsbD 8)) 
  let dead := fun (s : State) (l : Launch) (cause : Nat) =>
    (setLaunch (l.cls.foldl killCluster s) { l with st := .killed, cause := cause, held := false, waiting := none }).modEngine ferryman
      fun e => { e with queue := e.queue.filter fun r => !(r.vf == l.vf && r.ln == l.ln) }
  let taken := fun (s : State) (head : Word) (r : List Word) =>
    ({ vf := s.inp.a, queue := s.inp.b, pos := head.toNat, rec16 := r } : Launch)
  let fits := fun (s : State) (head : Word) (r : List Word) =>
    recordOk (taken s head r) ((s.vfOf s.inp.a).grant.filter fun gc => !(s.cluster gc).fenced).length
  let takes := fun (s s1 : State) (ws : List Word) (s2 : State) (r : List Word) (s3 : State) =>
    let d : QDesc := ⟨ws⟩
    runsDefault s ferryman = true ∧ hasQueue s s.inp.a s.inp.b = true ∧ (s.vfOf s.inp.a).badq.contains s.inp.b = false ∧
    (∀ l ∈ s.launches, l.vf = s.inp.a → l.queue = s.inp.b → l.st ≠ .taken) ∧
    readDws s ferryQ s.inp.a (queueVa s s.inp.a s.inp.b) 8 = .ok (s1, ws) ∧ d.ok = true ∧ d.en = true ∧
    readDws s1 ferryQ s.inp.a (d.slot d.head) 16 = .ok (s2, r) ∧ r.getD 15 0 = d.head + 1 ∧
    putImage s2 ferryQ s.inp.a (queueVa s s.inp.a s.inp.b + 24) [d.head + 1] = .ok s3
  let serves := fun (s : State) (l : Launch) (u : State) =>
    mayPlace s s.inp.a = true ∧ failEvent (checkQueues s s.inp.a) s.inp.a = none ∧ chosen (checkQueues s s.inp.a) s.inp.a = some (l, u)
  ∃ l u cs w, MetHappens .launchPlacement
    (fun s => serves s l u ∧ l.st = .taken ∧
      placesFor u l (freeFor u s.inp.a) s.inp.ints = some cs ∧ checkTarget (started u l cs) (ctl (8 * cs.headD 0)) (l.dw 0) = .ok w)
    (fun _ => w) :=
  ⟨{ rec16 := [0x10002, 1] }, _, _, _, ({ inp := { a := 0, ints := [0] }, tide := 3000000, slices := [(0, { tlb := [flat] })], clusters := [(0, { tlb := [flat] })], vfs := [(0, { en := true, sch0 := 1, grant := [0], qtab := 0x20000 }), (1, { en := true, grant := [0] })], launches := [{ rec16 := [0x10002, 1] }], mem := Memory.writeList [(0x10000, 1), (0x10003, 1)] 0x20000 (leBytes 8 0x22000 ++ leBytes 8 0x141 ++ leBytes 8 1 ++ leBytes 8 0 ++ leBytes 8 0x100000 ++ leBytes 8 0x1000000) }), ⟨⟨(by decide +kernel), (by decide +kernel), (some_first (by decide +kernel))⟩, (by decide +kernel), (some_of_isSome (by decide +kernel)), (fine_of_isFine (by decide +kernel))⟩⟩

theorem met_LaunchStepsComplete_7 :
  let marked := fun (s : State) (l : Launch) =>
    l.cls.foldl (fun t gc => (coresOf gc).foldl (fun t g => t.modCore g fun c => { c with preempt := true }) t)
      (setLaunch s { l with st := .marked, since := s.tide })
  let started := fun (s : State) (l : Launch) (cs : List Nat) =>
    let ln := nextLn (s.vfOf l.vf).lastLn
    let k := { l with ln := ln, st := .running, cls := cs, vcls := cs.map (vclOf s l.vf), held := false, waiting := none, started := s.tide }
    ((List.range cs.length).zip cs).foldl (fun t e => startCluster t k e.2 e.1) (setLaunch (s.modVf l.vf fun f => { f with lastLn := ln }) k)
  let rested := fun (s : State) (l : Launch) => l.cls.foldl (fun t gc => restCluster t gc ((s.vfOf l.vf).sch0.getLsbD 8)) 
  let dead := fun (s : State) (l : Launch) (cause : Nat) =>
    (setLaunch (l.cls.foldl killCluster s) { l with st := .killed, cause := cause, held := false, waiting := none }).modEngine ferryman
      fun e => { e with queue := e.queue.filter fun r => !(r.vf == l.vf && r.ln == l.ln) }
  let taken := fun (s : State) (head : Word) (r : List Word) =>
    ({ vf := s.inp.a, queue := s.inp.b, pos := head.toNat, rec16 := r } : Launch)
  let fits := fun (s : State) (head : Word) (r : List Word) =>
    recordOk (taken s head r) ((s.vfOf s.inp.a).grant.filter fun gc => !(s.cluster gc).fenced).length
  let takes := fun (s s1 : State) (ws : List Word) (s2 : State) (r : List Word) (s3 : State) =>
    let d : QDesc := ⟨ws⟩
    runsDefault s ferryman = true ∧ hasQueue s s.inp.a s.inp.b = true ∧ (s.vfOf s.inp.a).badq.contains s.inp.b = false ∧
    (∀ l ∈ s.launches, l.vf = s.inp.a → l.queue = s.inp.b → l.st ≠ .taken) ∧
    readDws s ferryQ s.inp.a (queueVa s s.inp.a s.inp.b) 8 = .ok (s1, ws) ∧ d.ok = true ∧ d.en = true ∧
    readDws s1 ferryQ s.inp.a (d.slot d.head) 16 = .ok (s2, r) ∧ r.getD 15 0 = d.head + 1 ∧
    putImage s2 ferryQ s.inp.a (queueVa s s.inp.a s.inp.b + 24) [d.head + 1] = .ok s3
  let serves := fun (s : State) (l : Launch) (u : State) =>
    mayPlace s s.inp.a = true ∧ failEvent (checkQueues s s.inp.a) s.inp.a = none ∧ chosen (checkQueues s s.inp.a) s.inp.a = some (l, u)
  ∃ l u cs c, MetHappens .launchPlacement
    (fun s => serves s l u ∧ l.st = .taken ∧
      placesFor u l (freeFor u s.inp.a) s.inp.ints = some cs ∧ checkTarget (started u l cs) (ctl (8 * cs.headD 0)) (l.dw 0) = .error c)
    (fun _ => (started u l cs).pushTurn .launchKill { a := l.vf, b := nextLn (u.vfOf l.vf).lastLn, c := 2, w := wNat c }) :=
  ⟨{ rec16 := [0x30002, 1] }, _, _, _, ({ inp := { a := 0, ints := [0] }, tide := 3000000, slices := [(0, { tlb := [flat] })], clusters := [(0, { tlb := [flat] })], vfs := [(0, { en := true, sch0 := 1, grant := [0], qtab := 0x20000 }), (1, { en := true, grant := [0] })], launches := [{ rec16 := [0x30002, 1] }], mem := Memory.writeList [(0x10000, 1), (0x10003, 1)] 0x20000 (leBytes 8 0x22000 ++ leBytes 8 0x141 ++ leBytes 8 1 ++ leBytes 8 0 ++ leBytes 8 0x100000 ++ leBytes 8 0x1000000) }), ⟨⟨(by decide +kernel), (by decide +kernel), (some_first (by decide +kernel))⟩, (by decide +kernel), (some_of_isSome (by decide +kernel)), (error_is (by decide +kernel))⟩⟩

theorem met_LaunchStepsComplete_8 :
  let marked := fun (s : State) (l : Launch) =>
    l.cls.foldl (fun t gc => (coresOf gc).foldl (fun t g => t.modCore g fun c => { c with preempt := true }) t)
      (setLaunch s { l with st := .marked, since := s.tide })
  let started := fun (s : State) (l : Launch) (cs : List Nat) =>
    let ln := nextLn (s.vfOf l.vf).lastLn
    let k := { l with ln := ln, st := .running, cls := cs, vcls := cs.map (vclOf s l.vf), held := false, waiting := none, started := s.tide }
    ((List.range cs.length).zip cs).foldl (fun t e => startCluster t k e.2 e.1) (setLaunch (s.modVf l.vf fun f => { f with lastLn := ln }) k)
  let rested := fun (s : State) (l : Launch) => l.cls.foldl (fun t gc => restCluster t gc ((s.vfOf l.vf).sch0.getLsbD 8)) 
  let dead := fun (s : State) (l : Launch) (cause : Nat) =>
    (setLaunch (l.cls.foldl killCluster s) { l with st := .killed, cause := cause, held := false, waiting := none }).modEngine ferryman
      fun e => { e with queue := e.queue.filter fun r => !(r.vf == l.vf && r.ln == l.ln) }
  let taken := fun (s : State) (head : Word) (r : List Word) =>
    ({ vf := s.inp.a, queue := s.inp.b, pos := head.toNat, rec16 := r } : Launch)
  let fits := fun (s : State) (head : Word) (r : List Word) =>
    recordOk (taken s head r) ((s.vfOf s.inp.a).grant.filter fun gc => !(s.cluster gc).fenced).length
  let takes := fun (s s1 : State) (ws : List Word) (s2 : State) (r : List Word) (s3 : State) =>
    let d : QDesc := ⟨ws⟩
    runsDefault s ferryman = true ∧ hasQueue s s.inp.a s.inp.b = true ∧ (s.vfOf s.inp.a).badq.contains s.inp.b = false ∧
    (∀ l ∈ s.launches, l.vf = s.inp.a → l.queue = s.inp.b → l.st ≠ .taken) ∧
    readDws s ferryQ s.inp.a (queueVa s s.inp.a s.inp.b) 8 = .ok (s1, ws) ∧ d.ok = true ∧ d.en = true ∧
    readDws s1 ferryQ s.inp.a (d.slot d.head) 16 = .ok (s2, r) ∧ r.getD 15 0 = d.head + 1 ∧
    putImage s2 ferryQ s.inp.a (queueVa s s.inp.a s.inp.b + 24) [d.head + 1] = .ok s3
  let serves := fun (s : State) (l : Launch) (u : State) =>
    mayPlace s s.inp.a = true ∧ failEvent (checkQueues s s.inp.a) s.inp.a = none ∧ chosen (checkQueues s s.inp.a) s.inp.a = some (l, u)
  ∃ l u, MetHappens .launchPlacement
    (fun s => serves s l u ∧ l.st = .taken ∧
      placesFor u l (freeFor u s.inp.a) s.inp.ints = none)
    (fun _ => holdLaunch u l) :=
  ⟨{ rec16 := [0x10002, 1600 + 2 * 2 ^ 14] }, _, ({ inp := { a := 0 }, tide := 3000000, slices := [(0, { tlb := [flat] })], clusters := [(0, { tlb := [flat] })], vfs := [(0, { en := true, sch0 := 1, grant := [0], qtab := 0x20000 }), (1, { en := true, grant := [0] })], launches := [{ rec16 := [0x10002, 1600 + 2 * 2 ^ 14] }], mem := Memory.writeList [(0x10000, 1), (0x10003, 1)] 0x20000 (leBytes 8 0x22000 ++ leBytes 8 0x141 ++ leBytes 8 1 ++ leBytes 8 0 ++ leBytes 8 0x100000 ++ leBytes 8 0x1000000) }), ⟨⟨(by decide +kernel), (by decide +kernel), (some_first (by decide +kernel))⟩, (by decide +kernel), (by decide +kernel)⟩⟩

theorem met_LaunchStepsComplete_9 :
  let marked := fun (s : State) (l : Launch) =>
    l.cls.foldl (fun t gc => (coresOf gc).foldl (fun t g => t.modCore g fun c => { c with preempt := true }) t)
      (setLaunch s { l with st := .marked, since := s.tide })
  let started := fun (s : State) (l : Launch) (cs : List Nat) =>
    let ln := nextLn (s.vfOf l.vf).lastLn
    let k := { l with ln := ln, st := .running, cls := cs, vcls := cs.map (vclOf s l.vf), held := false, waiting := none, started := s.tide }
    ((List.range cs.length).zip cs).foldl (fun t e => startCluster t k e.2 e.1) (setLaunch (s.modVf l.vf fun f => { f with lastLn := ln }) k)
  let rested := fun (s : State) (l : Launch) => l.cls.foldl (fun t gc => restCluster t gc ((s.vfOf l.vf).sch0.getLsbD 8)) 
  let dead := fun (s : State) (l : Launch) (cause : Nat) =>
    (setLaunch (l.cls.foldl killCluster s) { l with st := .killed, cause := cause, held := false, waiting := none }).modEngine ferryman
      fun e => { e with queue := e.queue.filter fun r => !(r.vf == l.vf && r.ln == l.ln) }
  let taken := fun (s : State) (head : Word) (r : List Word) =>
    ({ vf := s.inp.a, queue := s.inp.b, pos := head.toNat, rec16 := r } : Launch)
  let fits := fun (s : State) (head : Word) (r : List Word) =>
    recordOk (taken s head r) ((s.vfOf s.inp.a).grant.filter fun gc => !(s.cluster gc).fenced).length
  let takes := fun (s s1 : State) (ws : List Word) (s2 : State) (r : List Word) (s3 : State) =>
    let d : QDesc := ⟨ws⟩
    runsDefault s ferryman = true ∧ hasQueue s s.inp.a s.inp.b = true ∧ (s.vfOf s.inp.a).badq.contains s.inp.b = false ∧
    (∀ l ∈ s.launches, l.vf = s.inp.a → l.queue = s.inp.b → l.st ≠ .taken) ∧
    readDws s ferryQ s.inp.a (queueVa s s.inp.a s.inp.b) 8 = .ok (s1, ws) ∧ d.ok = true ∧ d.en = true ∧
    readDws s1 ferryQ s.inp.a (d.slot d.head) 16 = .ok (s2, r) ∧ r.getD 15 0 = d.head + 1 ∧
    putImage s2 ferryQ s.inp.a (queueVa s s.inp.a s.inp.b + 24) [d.head + 1] = .ok s3
  let serves := fun (s : State) (l : Launch) (u : State) =>
    mayPlace s s.inp.a = true ∧ failEvent (checkQueues s s.inp.a) s.inp.a = none ∧ chosen (checkQueues s s.inp.a) s.inp.a = some (l, u)
  ∃ l t, MetHappens .launchRetirement
    (fun s => launchAt s s.inp.a s.inp.b = some l ∧ (l.st = .running ∨ l.st = .marked) ∧ allHalted s l = true ∧ allComplete s l = true ∧
      reportEnd (endLaunch s l) l 0 0 = .ok t)
    (fun _ => raiseEvent t ⟨2, l.vf, l.queue, l.ln⟩) :=
  ⟨{ ln := 1, cls := [0], vcls := [0], st := .running }, _, ({ inp := { a := 0, b := 1 }, tide := 3000000, slices := [(0, { tlb := [flat] })], clusters := [(0, { tlb := [flat] })], vfs := [(0, { en := true, sch0 := 1, grant := [0], qtab := 0x20000 }), (1, { en := true, grant := [0] })], launches := [{ ln := 1, cls := [0], vcls := [0], st := .running }], mem := [(0x10000, 1), (0x10003, 1)], procs := (List.range 8).map fun k => (11 * k, { st := .ended }) }), ⟨(by decide +kernel), .inl (by decide +kernel), (by decide +kernel), (by decide +kernel), (fine_of_isFine (by decide +kernel))⟩⟩

theorem met_LaunchStepsComplete_10 :
  let marked := fun (s : State) (l : Launch) =>
    l.cls.foldl (fun t gc => (coresOf gc).foldl (fun t g => t.modCore g fun c => { c with preempt := true }) t)
      (setLaunch s { l with st := .marked, since := s.tide })
  let started := fun (s : State) (l : Launch) (cs : List Nat) =>
    let ln := nextLn (s.vfOf l.vf).lastLn
    let k := { l with ln := ln, st := .running, cls := cs, vcls := cs.map (vclOf s l.vf), held := false, waiting := none, started := s.tide }
    ((List.range cs.length).zip cs).foldl (fun t e => startCluster t k e.2 e.1) (setLaunch (s.modVf l.vf fun f => { f with lastLn := ln }) k)
  let rested := fun (s : State) (l : Launch) => l.cls.foldl (fun t gc => restCluster t gc ((s.vfOf l.vf).sch0.getLsbD 8)) 
  let dead := fun (s : State) (l : Launch) (cause : Nat) =>
    (setLaunch (l.cls.foldl killCluster s) { l with st := .killed, cause := cause, held := false, waiting := none }).modEngine ferryman
      fun e => { e with queue := e.queue.filter fun r => !(r.vf == l.vf && r.ln == l.ln) }
  let taken := fun (s : State) (head : Word) (r : List Word) =>
    ({ vf := s.inp.a, queue := s.inp.b, pos := head.toNat, rec16 := r } : Launch)
  let fits := fun (s : State) (head : Word) (r : List Word) =>
    recordOk (taken s head r) ((s.vfOf s.inp.a).grant.filter fun gc => !(s.cluster gc).fenced).length
  let takes := fun (s s1 : State) (ws : List Word) (s2 : State) (r : List Word) (s3 : State) =>
    let d : QDesc := ⟨ws⟩
    runsDefault s ferryman = true ∧ hasQueue s s.inp.a s.inp.b = true ∧ (s.vfOf s.inp.a).badq.contains s.inp.b = false ∧
    (∀ l ∈ s.launches, l.vf = s.inp.a → l.queue = s.inp.b → l.st ≠ .taken) ∧
    readDws s ferryQ s.inp.a (queueVa s s.inp.a s.inp.b) 8 = .ok (s1, ws) ∧ d.ok = true ∧ d.en = true ∧
    readDws s1 ferryQ s.inp.a (d.slot d.head) 16 = .ok (s2, r) ∧ r.getD 15 0 = d.head + 1 ∧
    putImage s2 ferryQ s.inp.a (queueVa s s.inp.a s.inp.b + 24) [d.head + 1] = .ok s3
  let serves := fun (s : State) (l : Launch) (u : State) =>
    mayPlace s s.inp.a = true ∧ failEvent (checkQueues s s.inp.a) s.inp.a = none ∧ chosen (checkQueues s s.inp.a) s.inp.a = some (l, u)
  ∃ l x c, MetHappens .timeSliceExpiry
    (fun s => launchAt s s.inp.b s.inp.c = some l ∧ s.inp.a ≠ l.vf ∧
      (∃ k ∈ s.launches, k.vf = s.inp.a ∧ k.waiting = some x ∧ x.toNat + 1024 * (s.vfOf l.vf).tslice ≤ s.tide.toNat) ∧
      c ∈ l.cls ∧ (s.vfOf s.inp.a).grant.contains c = true ∧ preemptible s l = true ∧ runsDefault s ferryman = true)
    (fun s => marked (checkQueues s l.vf) l) :=
  ⟨{ ln := 1, cls := [0], vcls := [0], st := .running }, 100, 0, ({ inp := { a := 1, b := 0, c := 1 }, tide := 3000000, slices := [(0, { tlb := [flat] })], clusters := [(0, { tlb := [flat] })], vfs := [(0, { en := true, sch0 := 1, grant := [0], qtab := 0x20000 }), (1, { en := true, grant := [0] })], launches := [{ ln := 1, cls := [0], vcls := [0], st := .running }, { vf := 1, waiting := some 100 }], mem := Memory.writeList [(0x10000, 1), (0x10003, 1)] 0x20000 (leBytes 8 0x22000 ++ leBytes 8 0x141 ++ leBytes 8 1 ++ leBytes 8 0 ++ leBytes 8 0x100000 ++ leBytes 8 0x1000000) }), ⟨(by decide +kernel), (by decide +kernel), ⟨{ vf := 1, waiting := some 100 }, (by decide +kernel), (by decide +kernel), (by decide +kernel), (by decide +kernel)⟩, (by decide +kernel), (by decide +kernel), (by decide +kernel), (by decide +kernel)⟩⟩

theorem met_LaunchStepsComplete_11 :
  let marked := fun (s : State) (l : Launch) =>
    l.cls.foldl (fun t gc => (coresOf gc).foldl (fun t g => t.modCore g fun c => { c with preempt := true }) t)
      (setLaunch s { l with st := .marked, since := s.tide })
  let started := fun (s : State) (l : Launch) (cs : List Nat) =>
    let ln := nextLn (s.vfOf l.vf).lastLn
    let k := { l with ln := ln, st := .running, cls := cs, vcls := cs.map (vclOf s l.vf), held := false, waiting := none, started := s.tide }
    ((List.range cs.length).zip cs).foldl (fun t e => startCluster t k e.2 e.1) (setLaunch (s.modVf l.vf fun f => { f with lastLn := ln }) k)
  let rested := fun (s : State) (l : Launch) => l.cls.foldl (fun t gc => restCluster t gc ((s.vfOf l.vf).sch0.getLsbD 8)) 
  let dead := fun (s : State) (l : Launch) (cause : Nat) =>
    (setLaunch (l.cls.foldl killCluster s) { l with st := .killed, cause := cause, held := false, waiting := none }).modEngine ferryman
      fun e => { e with queue := e.queue.filter fun r => !(r.vf == l.vf && r.ln == l.ln) }
  let taken := fun (s : State) (head : Word) (r : List Word) =>
    ({ vf := s.inp.a, queue := s.inp.b, pos := head.toNat, rec16 := r } : Launch)
  let fits := fun (s : State) (head : Word) (r : List Word) =>
    recordOk (taken s head r) ((s.vfOf s.inp.a).grant.filter fun gc => !(s.cluster gc).fenced).length
  let takes := fun (s s1 : State) (ws : List Word) (s2 : State) (r : List Word) (s3 : State) =>
    let d : QDesc := ⟨ws⟩
    runsDefault s ferryman = true ∧ hasQueue s s.inp.a s.inp.b = true ∧ (s.vfOf s.inp.a).badq.contains s.inp.b = false ∧
    (∀ l ∈ s.launches, l.vf = s.inp.a → l.queue = s.inp.b → l.st ≠ .taken) ∧
    readDws s ferryQ s.inp.a (queueVa s s.inp.a s.inp.b) 8 = .ok (s1, ws) ∧ d.ok = true ∧ d.en = true ∧
    readDws s1 ferryQ s.inp.a (d.slot d.head) 16 = .ok (s2, r) ∧ r.getD 15 0 = d.head + 1 ∧
    putImage s2 ferryQ s.inp.a (queueVa s s.inp.a s.inp.b + 24) [d.head + 1] = .ok s3
  let serves := fun (s : State) (l : Launch) (u : State) =>
    mayPlace s s.inp.a = true ∧ failEvent (checkQueues s s.inp.a) s.inp.a = none ∧ chosen (checkQueues s s.inp.a) s.inp.a = some (l, u)
  ∃ l, MetHappens .preemptionMark
    (fun s => launchAt s s.inp.a s.inp.b = some l ∧ runsDefault s ferryman = true ∧ preemptible s l = true ∧ preemptWanted s l = true)
    (fun s => marked (checkQueues s l.vf) l) :=
  ⟨{ ln := 1, cls := [0], vcls := [0], st := .running }, ({ inp := { a := 0, b := 1 }, tide := 3000000, slices := [(0, { tlb := [flat] })], clusters := [(0, { tlb := [flat] })], vfs := [(0, { en := true, sch0 := 1, grant := [0], qtab := 0x20000 }), (1, { en := true, grant := [0] })], launches := [{ ln := 1, cls := [0], vcls := [0], st := .running }], mem := Memory.writeList [(0x10000, 1), (0x10003, 1)] 0x20000 (leBytes 8 0x22000 ++ leBytes 8 0x141 ++ leBytes 8 1 ++ leBytes 8 0 ++ leBytes 8 0x100000 ++ leBytes 8 0x1000000), goingFull := true }), ⟨(by decide +kernel), (by decide +kernel), (by decide +kernel), (by decide +kernel)⟩⟩

theorem met_LaunchStepsComplete_12 :
  let marked := fun (s : State) (l : Launch) =>
    l.cls.foldl (fun t gc => (coresOf gc).foldl (fun t g => t.modCore g fun c => { c with preempt := true }) t)
      (setLaunch s { l with st := .marked, since := s.tide })
  let started := fun (s : State) (l : Launch) (cs : List Nat) =>
    let ln := nextLn (s.vfOf l.vf).lastLn
    let k := { l with ln := ln, st := .running, cls := cs, vcls := cs.map (vclOf s l.vf), held := false, waiting := none, started := s.tide }
    ((List.range cs.length).zip cs).foldl (fun t e => startCluster t k e.2 e.1) (setLaunch (s.modVf l.vf fun f => { f with lastLn := ln }) k)
  let rested := fun (s : State) (l : Launch) => l.cls.foldl (fun t gc => restCluster t gc ((s.vfOf l.vf).sch0.getLsbD 8)) 
  let dead := fun (s : State) (l : Launch) (cause : Nat) =>
    (setLaunch (l.cls.foldl killCluster s) { l with st := .killed, cause := cause, held := false, waiting := none }).modEngine ferryman
      fun e => { e with queue := e.queue.filter fun r => !(r.vf == l.vf && r.ln == l.ln) }
  let taken := fun (s : State) (head : Word) (r : List Word) =>
    ({ vf := s.inp.a, queue := s.inp.b, pos := head.toNat, rec16 := r } : Launch)
  let fits := fun (s : State) (head : Word) (r : List Word) =>
    recordOk (taken s head r) ((s.vfOf s.inp.a).grant.filter fun gc => !(s.cluster gc).fenced).length
  let takes := fun (s s1 : State) (ws : List Word) (s2 : State) (r : List Word) (s3 : State) =>
    let d : QDesc := ⟨ws⟩
    runsDefault s ferryman = true ∧ hasQueue s s.inp.a s.inp.b = true ∧ (s.vfOf s.inp.a).badq.contains s.inp.b = false ∧
    (∀ l ∈ s.launches, l.vf = s.inp.a → l.queue = s.inp.b → l.st ≠ .taken) ∧
    readDws s ferryQ s.inp.a (queueVa s s.inp.a s.inp.b) 8 = .ok (s1, ws) ∧ d.ok = true ∧ d.en = true ∧
    readDws s1 ferryQ s.inp.a (d.slot d.head) 16 = .ok (s2, r) ∧ r.getD 15 0 = d.head + 1 ∧
    putImage s2 ferryQ s.inp.a (queueVa s s.inp.a s.inp.b + 24) [d.head + 1] = .ok s3
  let serves := fun (s : State) (l : Launch) (u : State) =>
    mayPlace s s.inp.a = true ∧ failEvent (checkQueues s s.inp.a) s.inp.a = none ∧ chosen (checkQueues s s.inp.a) s.inp.a = some (l, u)
  ∃ l, MetHappens .preemptionGraceExpiry
    (fun s => launchAt s s.inp.a s.inp.b = some l ∧ l.st = .marked ∧ runsDefault s ferryman = true ∧ mayStop s l = true ∧ noDump s l.vf l.ln = true)
    (fun s => rested s l (setLaunch (l.cls.foldl stopCluster s) { l with st := .resting })) :=
  ⟨{ ln := 1, cls := [0], vcls := [0], st := .marked }, ({ inp := { a := 0, b := 1 }, tide := 3000000, slices := [(0, { tlb := [flat] })], clusters := [(0, { tlb := [flat] })], vfs := [(0, { en := true, sch0 := 1, grant := [0], qtab := 0x20000 }), (1, { en := true, grant := [0] })], launches := [{ ln := 1, cls := [0], vcls := [0], st := .marked }], mem := [(0x10000, 1), (0x10003, 1)] }), ⟨(by decide +kernel), (by decide +kernel), (by decide +kernel), (by decide +kernel)⟩⟩

theorem met_LaunchStepsComplete_13 :
  let marked := fun (s : State) (l : Launch) =>
    l.cls.foldl (fun t gc => (coresOf gc).foldl (fun t g => t.modCore g fun c => { c with preempt := true }) t)
      (setLaunch s { l with st := .marked, since := s.tide })
  let started := fun (s : State) (l : Launch) (cs : List Nat) =>
    let ln := nextLn (s.vfOf l.vf).lastLn
    let k := { l with ln := ln, st := .running, cls := cs, vcls := cs.map (vclOf s l.vf), held := false, waiting := none, started := s.tide }
    ((List.range cs.length).zip cs).foldl (fun t e => startCluster t k e.2 e.1) (setLaunch (s.modVf l.vf fun f => { f with lastLn := ln }) k)
  let rested := fun (s : State) (l : Launch) => l.cls.foldl (fun t gc => restCluster t gc ((s.vfOf l.vf).sch0.getLsbD 8)) 
  let dead := fun (s : State) (l : Launch) (cause : Nat) =>
    (setLaunch (l.cls.foldl killCluster s) { l with st := .killed, cause := cause, held := false, waiting := none }).modEngine ferryman
      fun e => { e with queue := e.queue.filter fun r => !(r.vf == l.vf && r.ln == l.ln) }
  let taken := fun (s : State) (head : Word) (r : List Word) =>
    ({ vf := s.inp.a, queue := s.inp.b, pos := head.toNat, rec16 := r } : Launch)
  let fits := fun (s : State) (head : Word) (r : List Word) =>
    recordOk (taken s head r) ((s.vfOf s.inp.a).grant.filter fun gc => !(s.cluster gc).fenced).length
  let takes := fun (s s1 : State) (ws : List Word) (s2 : State) (r : List Word) (s3 : State) =>
    let d : QDesc := ⟨ws⟩
    runsDefault s ferryman = true ∧ hasQueue s s.inp.a s.inp.b = true ∧ (s.vfOf s.inp.a).badq.contains s.inp.b = false ∧
    (∀ l ∈ s.launches, l.vf = s.inp.a → l.queue = s.inp.b → l.st ≠ .taken) ∧
    readDws s ferryQ s.inp.a (queueVa s s.inp.a s.inp.b) 8 = .ok (s1, ws) ∧ d.ok = true ∧ d.en = true ∧
    readDws s1 ferryQ s.inp.a (d.slot d.head) 16 = .ok (s2, r) ∧ r.getD 15 0 = d.head + 1 ∧
    putImage s2 ferryQ s.inp.a (queueVa s s.inp.a s.inp.b + 24) [d.head + 1] = .ok s3
  let serves := fun (s : State) (l : Launch) (u : State) =>
    mayPlace s s.inp.a = true ∧ failEvent (checkQueues s s.inp.a) s.inp.a = none ∧ chosen (checkQueues s s.inp.a) s.inp.a = some (l, u)
  ∃ l, MetHappens .preemptionGraceExpiry
    (fun s => launchAt s s.inp.a s.inp.b = some l ∧ l.st = .resting ∧ runsDefault s ferryman = true)
    (fun s => if l.cls.all (atRest (rested s l s)) then saveLaunch (rested s l s) l else rested s l s) :=
  ⟨{ ln := 1, cls := [0], vcls := [0], st := .resting }, ({ inp := { a := 0, b := 1 }, tide := 3000000, slices := [(0, { tlb := [flat] })], clusters := [(0, { tlb := [flat] })], vfs := [(0, { en := true, sch0 := 1, grant := [0], qtab := 0x20000 }), (1, { en := true, grant := [0] })], launches := [{ ln := 1, cls := [0], vcls := [0], st := .resting }], mem := [(0x10000, 1), (0x10003, 1)] }), ⟨(by decide +kernel), (by decide +kernel)⟩⟩

theorem met_LaunchStepsComplete_14 :
  let marked := fun (s : State) (l : Launch) =>
    l.cls.foldl (fun t gc => (coresOf gc).foldl (fun t g => t.modCore g fun c => { c with preempt := true }) t)
      (setLaunch s { l with st := .marked, since := s.tide })
  let started := fun (s : State) (l : Launch) (cs : List Nat) =>
    let ln := nextLn (s.vfOf l.vf).lastLn
    let k := { l with ln := ln, st := .running, cls := cs, vcls := cs.map (vclOf s l.vf), held := false, waiting := none, started := s.tide }
    ((List.range cs.length).zip cs).foldl (fun t e => startCluster t k e.2 e.1) (setLaunch (s.modVf l.vf fun f => { f with lastLn := ln }) k)
  let rested := fun (s : State) (l : Launch) => l.cls.foldl (fun t gc => restCluster t gc ((s.vfOf l.vf).sch0.getLsbD 8)) 
  let dead := fun (s : State) (l : Launch) (cause : Nat) =>
    (setLaunch (l.cls.foldl killCluster s) { l with st := .killed, cause := cause, held := false, waiting := none }).modEngine ferryman
      fun e => { e with queue := e.queue.filter fun r => !(r.vf == l.vf && r.ln == l.ln) }
  let taken := fun (s : State) (head : Word) (r : List Word) =>
    ({ vf := s.inp.a, queue := s.inp.b, pos := head.toNat, rec16 := r } : Launch)
  let fits := fun (s : State) (head : Word) (r : List Word) =>
    recordOk (taken s head r) ((s.vfOf s.inp.a).grant.filter fun gc => !(s.cluster gc).fenced).length
  let takes := fun (s s1 : State) (ws : List Word) (s2 : State) (r : List Word) (s3 : State) =>
    let d : QDesc := ⟨ws⟩
    runsDefault s ferryman = true ∧ hasQueue s s.inp.a s.inp.b = true ∧ (s.vfOf s.inp.a).badq.contains s.inp.b = false ∧
    (∀ l ∈ s.launches, l.vf = s.inp.a → l.queue = s.inp.b → l.st ≠ .taken) ∧
    readDws s ferryQ s.inp.a (queueVa s s.inp.a s.inp.b) 8 = .ok (s1, ws) ∧ d.ok = true ∧ d.en = true ∧
    readDws s1 ferryQ s.inp.a (d.slot d.head) 16 = .ok (s2, r) ∧ r.getD 15 0 = d.head + 1 ∧
    putImage s2 ferryQ s.inp.a (queueVa s s.inp.a s.inp.b + 24) [d.head + 1] = .ok s3
  let serves := fun (s : State) (l : Launch) (u : State) =>
    mayPlace s s.inp.a = true ∧ failEvent (checkQueues s s.inp.a) s.inp.a = none ∧ chosen (checkQueues s s.inp.a) s.inp.a = some (l, u)
  ∃ l u w, MetHappens .launchRestore
    (fun s =>
      let cs := l.vcls.map fun v => (s.vfOf s.inp.a).grant.getD v Config.clusters
      let k := { l with st := .running, cls := cs, held := false, waiting := none, started := s.tide }
      mayPlace s s.inp.a = true ∧ chosen (checkQueues s s.inp.a) s.inp.a = some (l, u) ∧ l.st = .saved ∧ cs.all (freeFor u s.inp.a) = true ∧
      restoreSections (setLaunch u k) k 0 cs = .ok w)
    (fun s => answerParked w { l with
      st := .running, cls := l.vcls.map fun v => (s.vfOf s.inp.a).grant.getD v Config.clusters
      held := false, waiting := none, started := s.tide }) :=
  ⟨{ ln := 1, vcls := [], st := .saved }, _, _, ({ inp := { a := 0, b := 1 }, tide := 3000000, slices := [(0, { tlb := [flat] })], clusters := [(0, { tlb := [flat] })], vfs := [(0, { en := true, sch0 := 1, grant := [0], qtab := 0x20000 }), (1, { en := true, grant := [0] })], launches := [{ ln := 1, vcls := [], st := .saved }], mem := [(0x10000, 1), (0x10003, 1)] }), ⟨(by decide +kernel), (some_first (by decide +kernel)), (by decide +kernel), (by decide +kernel), (fine_of_isFine (by decide +kernel))⟩⟩

theorem met_LaunchStepsComplete_15 :
  let marked := fun (s : State) (l : Launch) =>
    l.cls.foldl (fun t gc => (coresOf gc).foldl (fun t g => t.modCore g fun c => { c with preempt := true }) t)
      (setLaunch s { l with st := .marked, since := s.tide })
  let started := fun (s : State) (l : Launch) (cs : List Nat) =>
    let ln := nextLn (s.vfOf l.vf).lastLn
    let k := { l with ln := ln, st := .running, cls := cs, vcls := cs.map (vclOf s l.vf), held := false, waiting := none, started := s.tide }
    ((List.range cs.length).zip cs).foldl (fun t e => startCluster t k e.2 e.1) (setLaunch (s.modVf l.vf fun f => { f with lastLn := ln }) k)
  let rested := fun (s : State) (l : Launch) => l.cls.foldl (fun t gc => restCluster t gc ((s.vfOf l.vf).sch0.getLsbD 8)) 
  let dead := fun (s : State) (l : Launch) (cause : Nat) =>
    (setLaunch (l.cls.foldl killCluster s) { l with st := .killed, cause := cause, held := false, waiting := none }).modEngine ferryman
      fun e => { e with queue := e.queue.filter fun r => !(r.vf == l.vf && r.ln == l.ln) }
  let taken := fun (s : State) (head : Word) (r : List Word) =>
    ({ vf := s.inp.a, queue := s.inp.b, pos := head.toNat, rec16 := r } : Launch)
  let fits := fun (s : State) (head : Word) (r : List Word) =>
    recordOk (taken s head r) ((s.vfOf s.inp.a).grant.filter fun gc => !(s.cluster gc).fenced).length
  let takes := fun (s s1 : State) (ws : List Word) (s2 : State) (r : List Word) (s3 : State) =>
    let d : QDesc := ⟨ws⟩
    runsDefault s ferryman = true ∧ hasQueue s s.inp.a s.inp.b = true ∧ (s.vfOf s.inp.a).badq.contains s.inp.b = false ∧
    (∀ l ∈ s.launches, l.vf = s.inp.a → l.queue = s.inp.b → l.st ≠ .taken) ∧
    readDws s ferryQ s.inp.a (queueVa s s.inp.a s.inp.b) 8 = .ok (s1, ws) ∧ d.ok = true ∧ d.en = true ∧
    readDws s1 ferryQ s.inp.a (d.slot d.head) 16 = .ok (s2, r) ∧ r.getD 15 0 = d.head + 1 ∧
    putImage s2 ferryQ s.inp.a (queueVa s s.inp.a s.inp.b + 24) [d.head + 1] = .ok s3
  let serves := fun (s : State) (l : Launch) (u : State) =>
    mayPlace s s.inp.a = true ∧ failEvent (checkQueues s s.inp.a) s.inp.a = none ∧ chosen (checkQueues s s.inp.a) s.inp.a = some (l, u)
  ∃ l u, MetHappens .launchRestore
    (fun s => mayPlace s s.inp.a = true ∧ chosen (checkQueues s s.inp.a) s.inp.a = some (l, u) ∧ l.st = .saved ∧
      (l.vcls.map fun v => (s.vfOf s.inp.a).grant.getD v Config.clusters).all (freeFor u s.inp.a) = false)
    (fun _ => holdLaunch u l) :=
  ⟨{ ln := 1, vcls := [0], st := .saved }, _, ({ inp := { a := 0, b := 1 }, tide := 3000000, slices := [(0, { tlb := [flat] })], clusters := [(0, { tlb := [flat], fenced := true })], vfs := [(0, { en := true, sch0 := 1, grant := [0], qtab := 0x20000 }), (1, { en := true, grant := [0] })], launches := [{ ln := 1, vcls := [0], st := .saved }], mem := [(0x10000, 1), (0x10003, 1)] }), ⟨(by decide +kernel), (some_first (by decide +kernel)), (by decide +kernel), (by decide +kernel)⟩⟩

theorem met_LaunchStepsComplete_16 :
  let marked := fun (s : State) (l : Launch) =>
    l.cls.foldl (fun t gc => (coresOf gc).foldl (fun t g => t.modCore g fun c => { c with preempt := true }) t)
      (setLaunch s { l with st := .marked, since := s.tide })
  let started := fun (s : State) (l : Launch) (cs : List Nat) =>
    let ln := nextLn (s.vfOf l.vf).lastLn
    let k := { l with ln := ln, st := .running, cls := cs, vcls := cs.map (vclOf s l.vf), held := false, waiting := none, started := s.tide }
    ((List.range cs.length).zip cs).foldl (fun t e => startCluster t k e.2 e.1) (setLaunch (s.modVf l.vf fun f => { f with lastLn := ln }) k)
  let rested := fun (s : State) (l : Launch) => l.cls.foldl (fun t gc => restCluster t gc ((s.vfOf l.vf).sch0.getLsbD 8)) 
  let dead := fun (s : State) (l : Launch) (cause : Nat) =>
    (setLaunch (l.cls.foldl killCluster s) { l with st := .killed, cause := cause, held := false, waiting := none }).modEngine ferryman
      fun e => { e with queue := e.queue.filter fun r => !(r.vf == l.vf && r.ln == l.ln) }
  let taken := fun (s : State) (head : Word) (r : List Word) =>
    ({ vf := s.inp.a, queue := s.inp.b, pos := head.toNat, rec16 := r } : Launch)
  let fits := fun (s : State) (head : Word) (r : List Word) =>
    recordOk (taken s head r) ((s.vfOf s.inp.a).grant.filter fun gc => !(s.cluster gc).fenced).length
  let takes := fun (s s1 : State) (ws : List Word) (s2 : State) (r : List Word) (s3 : State) =>
    let d : QDesc := ⟨ws⟩
    runsDefault s ferryman = true ∧ hasQueue s s.inp.a s.inp.b = true ∧ (s.vfOf s.inp.a).badq.contains s.inp.b = false ∧
    (∀ l ∈ s.launches, l.vf = s.inp.a → l.queue = s.inp.b → l.st ≠ .taken) ∧
    readDws s ferryQ s.inp.a (queueVa s s.inp.a s.inp.b) 8 = .ok (s1, ws) ∧ d.ok = true ∧ d.en = true ∧
    readDws s1 ferryQ s.inp.a (d.slot d.head) 16 = .ok (s2, r) ∧ r.getD 15 0 = d.head + 1 ∧
    putImage s2 ferryQ s.inp.a (queueVa s s.inp.a s.inp.b + 24) [d.head + 1] = .ok s3
  let serves := fun (s : State) (l : Launch) (u : State) =>
    mayPlace s s.inp.a = true ∧ failEvent (checkQueues s s.inp.a) s.inp.a = none ∧ chosen (checkQueues s s.inp.a) s.inp.a = some (l, u)
  ∃ l, MetHappens .launchKill (fun s => launchAt s s.inp.a s.inp.b = some l ∧ l.st = .saved)
    (fun s => setLaunch (s.modEngine ferryman fun e => { e with queue := e.queue.filter fun r => !(r.vf == l.vf && r.ln == l.ln) }) { l with
      st := .killed, cause := if s.inp.c = 0 then 0 else if s.inp.c = 3 then 0x71 else s.inp.w.toNat % 256
      cls := [], held := false, waiting := none }) :=
  ⟨{ ln := 1, vcls := [0], st := .saved }, ({ inp := { a := 0, b := 1 }, tide := 3000000, slices := [(0, { tlb := [flat] })], clusters := [(0, { tlb := [flat] })], vfs := [(0, { en := true, sch0 := 1, grant := [0], qtab := 0x20000 }), (1, { en := true, grant := [0] })], launches := [{ ln := 1, vcls := [0], st := .saved }], mem := [(0x10000, 1), (0x10003, 1)] }), ⟨(by decide +kernel), (by decide +kernel)⟩⟩

theorem met_LaunchStepsComplete_17 :
  let marked := fun (s : State) (l : Launch) =>
    l.cls.foldl (fun t gc => (coresOf gc).foldl (fun t g => t.modCore g fun c => { c with preempt := true }) t)
      (setLaunch s { l with st := .marked, since := s.tide })
  let started := fun (s : State) (l : Launch) (cs : List Nat) =>
    let ln := nextLn (s.vfOf l.vf).lastLn
    let k := { l with ln := ln, st := .running, cls := cs, vcls := cs.map (vclOf s l.vf), held := false, waiting := none, started := s.tide }
    ((List.range cs.length).zip cs).foldl (fun t e => startCluster t k e.2 e.1) (setLaunch (s.modVf l.vf fun f => { f with lastLn := ln }) k)
  let rested := fun (s : State) (l : Launch) => l.cls.foldl (fun t gc => restCluster t gc ((s.vfOf l.vf).sch0.getLsbD 8)) 
  let dead := fun (s : State) (l : Launch) (cause : Nat) =>
    (setLaunch (l.cls.foldl killCluster s) { l with st := .killed, cause := cause, held := false, waiting := none }).modEngine ferryman
      fun e => { e with queue := e.queue.filter fun r => !(r.vf == l.vf && r.ln == l.ln) }
  let taken := fun (s : State) (head : Word) (r : List Word) =>
    ({ vf := s.inp.a, queue := s.inp.b, pos := head.toNat, rec16 := r } : Launch)
  let fits := fun (s : State) (head : Word) (r : List Word) =>
    recordOk (taken s head r) ((s.vfOf s.inp.a).grant.filter fun gc => !(s.cluster gc).fenced).length
  let takes := fun (s s1 : State) (ws : List Word) (s2 : State) (r : List Word) (s3 : State) =>
    let d : QDesc := ⟨ws⟩
    runsDefault s ferryman = true ∧ hasQueue s s.inp.a s.inp.b = true ∧ (s.vfOf s.inp.a).badq.contains s.inp.b = false ∧
    (∀ l ∈ s.launches, l.vf = s.inp.a → l.queue = s.inp.b → l.st ≠ .taken) ∧
    readDws s ferryQ s.inp.a (queueVa s s.inp.a s.inp.b) 8 = .ok (s1, ws) ∧ d.ok = true ∧ d.en = true ∧
    readDws s1 ferryQ s.inp.a (d.slot d.head) 16 = .ok (s2, r) ∧ r.getD 15 0 = d.head + 1 ∧
    putImage s2 ferryQ s.inp.a (queueVa s s.inp.a s.inp.b + 24) [d.head + 1] = .ok s3
  let serves := fun (s : State) (l : Launch) (u : State) =>
    mayPlace s s.inp.a = true ∧ failEvent (checkQueues s s.inp.a) s.inp.a = none ∧ chosen (checkQueues s s.inp.a) s.inp.a = some (l, u)
  ∃ l, MetHappens .launchKill
    (fun s => launchAt s s.inp.a s.inp.b = some l ∧ (l.st = .running ∨ l.st = .marked ∨ l.st = .resting))
    (fun s => dead s l (if s.inp.c = 0 then 0 else if s.inp.c = 3 then 0x71 else s.inp.w.toNat % 256)) :=
  ⟨{ ln := 1, cls := [0], vcls := [0], st := .running }, ({ inp := { a := 0, b := 1 }, tide := 3000000, slices := [(0, { tlb := [flat] })], clusters := [(0, { tlb := [flat] })], vfs := [(0, { en := true, sch0 := 1, grant := [0], qtab := 0x20000 }), (1, { en := true, grant := [0] })], launches := [{ ln := 1, cls := [0], vcls := [0], st := .running }], mem := [(0x10000, 1), (0x10003, 1)] }), ⟨(by decide +kernel), .inl (by decide +kernel)⟩⟩

theorem met_LaunchStepsComplete_18 :
  let marked := fun (s : State) (l : Launch) =>
    l.cls.foldl (fun t gc => (coresOf gc).foldl (fun t g => t.modCore g fun c => { c with preempt := true }) t)
      (setLaunch s { l with st := .marked, since := s.tide })
  let started := fun (s : State) (l : Launch) (cs : List Nat) =>
    let ln := nextLn (s.vfOf l.vf).lastLn
    let k := { l with ln := ln, st := .running, cls := cs, vcls := cs.map (vclOf s l.vf), held := false, waiting := none, started := s.tide }
    ((List.range cs.length).zip cs).foldl (fun t e => startCluster t k e.2 e.1) (setLaunch (s.modVf l.vf fun f => { f with lastLn := ln }) k)
  let rested := fun (s : State) (l : Launch) => l.cls.foldl (fun t gc => restCluster t gc ((s.vfOf l.vf).sch0.getLsbD 8)) 
  let dead := fun (s : State) (l : Launch) (cause : Nat) =>
    (setLaunch (l.cls.foldl killCluster s) { l with st := .killed, cause := cause, held := false, waiting := none }).modEngine ferryman
      fun e => { e with queue := e.queue.filter fun r => !(r.vf == l.vf && r.ln == l.ln) }
  let taken := fun (s : State) (head : Word) (r : List Word) =>
    ({ vf := s.inp.a, queue := s.inp.b, pos := head.toNat, rec16 := r } : Launch)
  let fits := fun (s : State) (head : Word) (r : List Word) =>
    recordOk (taken s head r) ((s.vfOf s.inp.a).grant.filter fun gc => !(s.cluster gc).fenced).length
  let takes := fun (s s1 : State) (ws : List Word) (s2 : State) (r : List Word) (s3 : State) =>
    let d : QDesc := ⟨ws⟩
    runsDefault s ferryman = true ∧ hasQueue s s.inp.a s.inp.b = true ∧ (s.vfOf s.inp.a).badq.contains s.inp.b = false ∧
    (∀ l ∈ s.launches, l.vf = s.inp.a → l.queue = s.inp.b → l.st ≠ .taken) ∧
    readDws s ferryQ s.inp.a (queueVa s s.inp.a s.inp.b) 8 = .ok (s1, ws) ∧ d.ok = true ∧ d.en = true ∧
    readDws s1 ferryQ s.inp.a (d.slot d.head) 16 = .ok (s2, r) ∧ r.getD 15 0 = d.head + 1 ∧
    putImage s2 ferryQ s.inp.a (queueVa s s.inp.a s.inp.b + 24) [d.head + 1] = .ok s3
  let serves := fun (s : State) (l : Launch) (u : State) =>
    mayPlace s s.inp.a = true ∧ failEvent (checkQueues s s.inp.a) s.inp.a = none ∧ chosen (checkQueues s s.inp.a) s.inp.a = some (l, u)
  ∃ l t, MetHappens .killComplete
    (fun s => launchAt s s.inp.a s.inp.b = some l ∧ l.st = .killed ∧ l.cls.all (killDone s) = true ∧ noDump s l.vf l.ln = true ∧
      reportEnd (endLaunch s l) l 0x91 l.cause = .ok t)
    (fun _ => settleKill t l) :=
  ⟨{ ln := 1, cls := [0], vcls := [0], st := .killed }, _, ({ inp := { a := 0, b := 1 }, tide := 3000000, slices := [(0, { tlb := [flat] })], clusters := [(0, { tlb := [flat] })], vfs := [(0, { en := true, sch0 := 1, grant := [0], qtab := 0x20000 }), (1, { en := true, grant := [0] })], launches := [{ ln := 1, cls := [0], vcls := [0], st := .killed }], mem := [(0x10000, 1), (0x10003, 1)] }), ⟨(by decide +kernel), (by decide +kernel), (by decide +kernel), (by decide +kernel), (fine_of_isFine (by decide +kernel))⟩⟩

theorem met_BargeStepsComplete_1 :
  let runs := fun (s : State) => s.inp.a < 640 ∧ runsDefault s s.inp.a = true
  let q := fun (s : State) => hartQOf s.inp.a
  let serves := fun (s : State) (op k : Nat) (r : Request) (v : State) =>
    runs s ∧ takeInHand s s.inp.a s.inp.b s.inp.c = some (k, r, v) ∧ r.op = op ∧ s.copiesFrozen (clusterOf r.q) = false
  let goes := fun (r : Request) => r.fin = none ∧ r.killed = false ∧ r.canc = false
  let ended := fun (t : State) (h k : Nat) (r : Request) (status count : Nat) =>
    post (releaseHolds (t.modEngine h fun e => { e with slots := e.slots.del k }) r) h r
      (frameOf status 0 r.rid.toNat h (r.tag + 2 ^ 32 * (count % 2 ^ 30)))
  let held := fun (v : State) (r : Request) (u : State) (r1 : Request) =>
    match r.ring with
    | none => u = v ∧ r1 = r
    | some n =>
      let k := r.iter % (ringOf v (clusterOf r.q) n).nst
      r.bound.isSome = true ∧ u = v ∧ r1 = r ∨
      r.bound = none ∧ (ringOf v (clusterOf r.q) n).writable k = true ∧ u = (modRing v (clusterOf r.q) n fun x => x.bind k) ∧
        r1 = { r with bound := some k }
  let moves := fun (s u : State) (k : Nat) (r : Request) (t : State) (out : Option (Nat × Nat)) =>
    let m := rCount r.source - r.next
    ∃ w, copyRun u s.inp.a r r.iter r.next (if s.inp.w.toNat = 0 then m else min s.inp.w.toNat m) = (w, out) ∧ t = ownStores u w (q s) k
  let whole := fun (s : State) (r : Request) => s.inp.w.toNat = 0 ∨ rCount r.source ≤ r.next + s.inp.w.toNat
  let filled := fun (t : State) (r : Request) =>
    match r.ring with
    | none => t
    | some n => modRing t (clusterOf r.q) n fun x => x.fill (r.iter % x.nst) r.iter
  let freed := fun (r : Request) => if r.ring.isSome then { r with bound := none } else r
  let kept := fun (t : State) (h k : Nat) (r : Request) => t.modEngine h fun e => { e with slots := e.slots.put k r }
  ∃ r rest w, MetHappens .bargeForward
    (fun s => runs s ∧ (s.engine s.inp.a).queue = r :: rest ∧ r.canc = false ∧
      workingBarge s s.inp.a r = .ok w ∧ w ≠ s.inp.a ∧ (s.proc (hartQOf w)).stopped = false ∧ (s.engine w).fwd.length < 64)
    (fun s => (s.modEngine s.inp.a fun e => { e with queue := rest }).modEngine w fun e =>
      { e with fwd := e.fwd ++ [{ r with fwd := true }] }) :=
  ⟨{ op := 0x91, sel := 0, args := [0x4000, 0, 3, 0, 0, 0, 0, 0, 0, 3, 0, 0, 0x8000], base := 0x4000, base2 := 0x8000, rid := 16, tag := 7 }, [], 64, ({ inp := { a := 0, b := 2 }, engines := [(0, { queue := [{ op := 0x91, sel := 0, args := [0x4000, 0, 3, 0, 0, 0, 0, 0, 0, 3, 0, 0, 0x8000], base := 0x4000, base2 := 0x8000, rid := 16, tag := 7 }] })], slices := [(0, { tlb := [⟨0, 0, 2 ^ 40, 0x3F⟩] })], clusters := [(0, { rings := [(5, { cfg := 0x4000800, party := 0x4000, inflight := 1 })] })] }), ⟨⟨(by decide +kernel), (by decide +kernel)⟩, (by decide +kernel), (by decide +kernel), (fine_is (by decide +kernel) (by decide +kernel)), (by decide +kernel), (by decide +kernel), (by decide +kernel)⟩⟩

theorem met_BargeStepsComplete_2 :
  let runs := fun (s : State) => s.inp.a < 640 ∧ runsDefault s s.inp.a = true
  let q := fun (s : State) => hartQOf s.inp.a
  let serves := fun (s : State) (op k : Nat) (r : Request) (v : State) =>
    runs s ∧ takeInHand s s.inp.a s.inp.b s.inp.c = some (k, r, v) ∧ r.op = op ∧ s.copiesFrozen (clusterOf r.q) = false
  let goes := fun (r : Request) => r.fin = none ∧ r.killed = false ∧ r.canc = false
  let ended := fun (t : State) (h k : Nat) (r : Request) (status count : Nat) =>
    post (releaseHolds (t.modEngine h fun e => { e with slots := e.slots.del k }) r) h r
      (frameOf status 0 r.rid.toNat h (r.tag + 2 ^ 32 * (count % 2 ^ 30)))
  let held := fun (v : State) (r : Request) (u : State) (r1 : Request) =>
    match r.ring with
    | none => u = v ∧ r1 = r
    | some n =>
      let k := r.iter % (ringOf v (clusterOf r.q) n).nst
      r.bound.isSome = true ∧ u = v ∧ r1 = r ∨
      r.bound = none ∧ (ringOf v (clusterOf r.q) n).writable k = true ∧ u = (modRing v (clusterOf r.q) n fun x => x.bind k) ∧
        r1 = { r with bound := some k }
  let moves := fun (s u : State) (k : Nat) (r : Request) (t : State) (out : Option (Nat × Nat)) =>
    let m := rCount r.source - r.next
    ∃ w, copyRun u s.inp.a r r.iter r.next (if s.inp.w.toNat = 0 then m else min s.inp.w.toNat m) = (w, out) ∧ t = ownStores u w (q s) k
  let whole := fun (s : State) (r : Request) => s.inp.w.toNat = 0 ∨ rCount r.source ≤ r.next + s.inp.w.toNat
  let filled := fun (t : State) (r : Request) =>
    match r.ring with
    | none => t
    | some n => modRing t (clusterOf r.q) n fun x => x.fill (r.iter % x.nst) r.iter
  let freed := fun (r : Request) => if r.ring.isSome then { r with bound := none } else r
  let kept := fun (t : State) (h k : Nat) (r : Request) => t.modEngine h fun e => { e with slots := e.slots.put k r }
  ∃ r rest, MetHappens .bargeForward
    (fun s => runs s ∧ (s.engine s.inp.a).queue = r :: rest ∧ r.canc = true)
    (fun s => post (releaseHolds (s.modEngine s.inp.a fun e => { e with queue := rest }) r) s.inp.a r
      (frameOf 0x64 0 r.rid.toNat s.inp.a (r.tag + 2 ^ 32 * ((if r.op = 0x92 then r.iter else 0) % 2 ^ 30)))) :=
  ⟨{ op := 0x91, sel := 0, args := [0x4000, 0, 3, 0, 0, 0, 0, 0, 0, 3, 0, 0, 0x8000], base := 0x4000, base2 := 0x8000, rid := 16, tag := 7, canc := true }, [], ({ inp := { a := 0, b := 2 }, engines := [(0, { queue := [{ op := 0x91, sel := 0, args := [0x4000, 0, 3, 0, 0, 0, 0, 0, 0, 3, 0, 0, 0x8000], base := 0x4000, base2 := 0x8000, rid := 16, tag := 7, canc := true }] })], slices := [(0, { tlb := [⟨0, 0, 0x9000, 0x3F⟩] })], clusters := [(0, { rings := [(5, { cfg := 0x4000800, party := 0x4000, inflight := 1 })] })] }), ⟨⟨(by decide +kernel), (by decide +kernel)⟩, (by decide +kernel), (by decide +kernel)⟩⟩

theorem met_BargeStepsComplete_3 :
  let runs := fun (s : State) => s.inp.a < 640 ∧ runsDefault s s.inp.a = true
  let q := fun (s : State) => hartQOf s.inp.a
  let serves := fun (s : State) (op k : Nat) (r : Request) (v : State) =>
    runs s ∧ takeInHand s s.inp.a s.inp.b s.inp.c = some (k, r, v) ∧ r.op = op ∧ s.copiesFrozen (clusterOf r.q) = false
  let goes := fun (r : Request) => r.fin = none ∧ r.killed = false ∧ r.canc = false
  let ended := fun (t : State) (h k : Nat) (r : Request) (status count : Nat) =>
    post (releaseHolds (t.modEngine h fun e => { e with slots := e.slots.del k }) r) h r
      (frameOf status 0 r.rid.toNat h (r.tag + 2 ^ 32 * (count % 2 ^ 30)))
  let held := fun (v : State) (r : Request) (u : State) (r1 : Request) =>
    match r.ring with
    | none => u = v ∧ r1 = r
    | some n =>
      let k := r.iter % (ringOf v (clusterOf r.q) n).nst
      r.bound.isSome = true ∧ u = v ∧ r1 = r ∨
      r.bound = none ∧ (ringOf v (clusterOf r.q) n).writable k = true ∧ u = (modRing v (clusterOf r.q) n fun x => x.bind k) ∧
        r1 = { r with bound := some k }
  let moves := fun (s u : State) (k : Nat) (r : Request) (t : State) (out : Option (Nat × Nat)) =>
    let m := rCount r.source - r.next
    ∃ w, copyRun u s.inp.a r r.iter r.next (if s.inp.w.toNat = 0 then m else min s.inp.w.toNat m) = (w, out) ∧ t = ownStores u w (q s) k
  let whole := fun (s : State) (r : Request) => s.inp.w.toNat = 0 ∨ rCount r.source ≤ r.next + s.inp.w.toNat
  let filled := fun (t : State) (r : Request) =>
    match r.ring with
    | none => t
    | some n => modRing t (clusterOf r.q) n fun x => x.fill (r.iter % x.nst) r.iter
  let freed := fun (r : Request) => if r.ring.isSome then { r with bound := none } else r
  let kept := fun (t : State) (h k : Nat) (r : Request) => t.modEngine h fun e => { e with slots := e.slots.put k r }
  ∃ r rest c, MetHappens .bargeForward
    (fun s => runs s ∧ (s.engine s.inp.a).queue = r :: rest ∧ r.canc = false ∧ workingBarge s s.inp.a r = .error c ∧ isWait c = false)
    (fun s =>
      let t := leaveCopy (s.modEngine s.inp.a fun e => { e with queue := rest }) s.inp.a r (rCount r.source)
      post (releaseHolds { t with freeCtr := t.freeCtr + 1 } r) s.inp.a r
        (frameOf c 0 r.rid.toNat s.inp.a (r.tag + 2 ^ 32 *
          ((if r.op = 0x92 then r.iter else Config.freeNat t.freeCtr % rCount r.source) % 2 ^ 30)))) :=
  ⟨{ op := 0x91, sel := 0, args := [0x4000, 0, 3, 0, 0, 0, 0, 0, 0, 3, 0, 0, 0x8000], base := 0x4000, base2 := 0x8000, rid := 16, tag := 7 }, [], _, ({ inp := { a := 0, b := 2 }, engines := [(0, { queue := [{ op := 0x91, sel := 0, args := [0x4000, 0, 3, 0, 0, 0, 0, 0, 0, 3, 0, 0, 0x8000], base := 0x4000, base2 := 0x8000, rid := 16, tag := 7 }] })], slices := [(0, { tlb := [⟨0, 0, 0x100, 0x3F⟩] })], clusters := [(0, { rings := [(5, { cfg := 0x4000800, party := 0x4000, inflight := 1 })] })] }), ⟨⟨(by decide +kernel), (by decide +kernel)⟩, (by decide +kernel), (by decide +kernel), (error_is (by decide +kernel)), (by decide +kernel)⟩⟩

theorem met_BargeStepsComplete_4 :
  let runs := fun (s : State) => s.inp.a < 640 ∧ runsDefault s s.inp.a = true
  let q := fun (s : State) => hartQOf s.inp.a
  let serves := fun (s : State) (op k : Nat) (r : Request) (v : State) =>
    runs s ∧ takeInHand s s.inp.a s.inp.b s.inp.c = some (k, r, v) ∧ r.op = op ∧ s.copiesFrozen (clusterOf r.q) = false
  let goes := fun (r : Request) => r.fin = none ∧ r.killed = false ∧ r.canc = false
  let ended := fun (t : State) (h k : Nat) (r : Request) (status count : Nat) =>
    post (releaseHolds (t.modEngine h fun e => { e with slots := e.slots.del k }) r) h r
      (frameOf status 0 r.rid.toNat h (r.tag + 2 ^ 32 * (count % 2 ^ 30)))
  let held := fun (v : State) (r : Request) (u : State) (r1 : Request) =>
    match r.ring with
    | none => u = v ∧ r1 = r
    | some n =>
      let k := r.iter % (ringOf v (clusterOf r.q) n).nst
      r.bound.isSome = true ∧ u = v ∧ r1 = r ∨
      r.bound = none ∧ (ringOf v (clusterOf r.q) n).writable k = true ∧ u = (modRing v (clusterOf r.q) n fun x => x.bind k) ∧
        r1 = { r with bound := some k }
  let moves := fun (s u : State) (k : Nat) (r : Request) (t : State) (out : Option (Nat × Nat)) =>
    let m := rCount r.source - r.next
    ∃ w, copyRun u s.inp.a r r.iter r.next (if s.inp.w.toNat = 0 then m else min s.inp.w.toNat m) = (w, out) ∧ t = ownStores u w (q s) k
  let whole := fun (s : State) (r : Request) => s.inp.w.toNat = 0 ∨ rCount r.source ≤ r.next + s.inp.w.toNat
  let filled := fun (t : State) (r : Request) =>
    match r.ring with
    | none => t
    | some n => modRing t (clusterOf r.q) n fun x => x.fill (r.iter % x.nst) r.iter
  let freed := fun (r : Request) => if r.ring.isSome then { r with bound := none } else r
  let kept := fun (t : State) (h k : Nat) (r : Request) => t.modEngine h fun e => { e with slots := e.slots.put k r }
  ∃ k r v u r1 t, MetHappens .bargeCopy
    (fun s => serves s 0x91 k r v ∧ goes r ∧ held v r u r1 ∧ moves s u k r1 t none ∧ whole s r ∧
      storesDone (filled t r1) (q s) k = true ∧ storesLost (filled t r1) (q s) k = false)
    (fun s => ended (dropStores (filled t r1) (q s) k) s.inp.a k (freed r1) 0 (writtenCount r)) :=
  ⟨2, { op := 0x91, sel := 0, args := [0x4000, 0, 3, 0, 0, 0, 0, 0, 0, 3, 0, 0, 0x8000], base := 0x4000, base2 := 0x8000, rid := 16, tag := 7 }, _, _, _, _, ({ inp := { a := 0, b := 2 }, engines := [(0, { slots := [(2, { op := 0x91, sel := 0, args := [0x4000, 0, 3, 0, 0, 0, 0, 0, 0, 3, 0, 0, 0x8000], base := 0x4000, base2 := 0x8000, rid := 16, tag := 7 })] })], slices := [(0, { tlb := [⟨0, 0, 0x9000, 0x3F⟩] })], clusters := [(0, { rings := [(5, { cfg := 0x4000800, party := 0x4000, inflight := 1 })] })] }), ⟨⟨⟨(by decide +kernel), (by decide +kernel)⟩, (some_third (by decide +kernel)), (by decide +kernel), (by decide +kernel)⟩, ⟨(by decide +kernel), (by decide +kernel), (by decide +kernel)⟩, ⟨rfl, rfl⟩, ⟨_, (pair_none (by decide +kernel)), rfl⟩, (by decide +kernel), (by decide +kernel), (by decide +kernel)⟩⟩

theorem met_BargeStepsComplete_5 :
  let runs := fun (s : State) => s.inp.a < 640 ∧ runsDefault s s.inp.a = true
  let q := fun (s : State) => hartQOf s.inp.a
  let serves := fun (s : State) (op k : Nat) (r : Request) (v : State) =>
    runs s ∧ takeInHand s s.inp.a s.inp.b s.inp.c = some (k, r, v) ∧ r.op = op ∧ s.copiesFrozen (clusterOf r.q) = false
  let goes := fun (r : Request) => r.fin = none ∧ r.killed = false ∧ r.canc = false
  let ended := fun (t : State) (h k : Nat) (r : Request) (status count : Nat) =>
    post (releaseHolds (t.modEngine h fun e => { e with slots := e.slots.del k }) r) h r
      (frameOf status 0 r.rid.toNat h (r.tag + 2 ^ 32 * (count % 2 ^ 30)))
  let held := fun (v : State) (r : Request) (u : State) (r1 : Request) =>
    match r.ring with
    | none => u = v ∧ r1 = r
    | some n =>
      let k := r.iter % (ringOf v (clusterOf r.q) n).nst
      r.bound.isSome = true ∧ u = v ∧ r1 = r ∨
      r.bound = none ∧ (ringOf v (clusterOf r.q) n).writable k = true ∧ u = (modRing v (clusterOf r.q) n fun x => x.bind k) ∧
        r1 = { r with bound := some k }
  let moves := fun (s u : State) (k : Nat) (r : Request) (t : State) (out : Option (Nat × Nat)) =>
    let m := rCount r.source - r.next
    ∃ w, copyRun u s.inp.a r r.iter r.next (if s.inp.w.toNat = 0 then m else min s.inp.w.toNat m) = (w, out) ∧ t = ownStores u w (q s) k
  let whole := fun (s : State) (r : Request) => s.inp.w.toNat = 0 ∨ rCount r.source ≤ r.next + s.inp.w.toNat
  let filled := fun (t : State) (r : Request) =>
    match r.ring with
    | none => t
    | some n => modRing t (clusterOf r.q) n fun x => x.fill (r.iter % x.nst) r.iter
  let freed := fun (r : Request) => if r.ring.isSome then { r with bound := none } else r
  let kept := fun (t : State) (h k : Nat) (r : Request) => t.modEngine h fun e => { e with slots := e.slots.put k r }
  ∃ k r v u r1 t, MetHappens .bargeCopy
    (fun s => serves s 0x91 k r v ∧ goes r ∧ held v r u r1 ∧ moves s u k r1 t none ∧ whole s r ∧
      storesDone (filled t r1) (q s) k = false)
    (fun s => kept (filled t r1) s.inp.a k { freed r1 with fin := some (0, writtenCount r) }) :=
  ⟨2, { op := 0x91, sel := 0, args := [0x4000, 0, 3, 0, 0, 0, 0, 0, 0, 3, 0, 0, 0x8000], base := 0x4000, base2 := 0x8000, rid := 16, tag := 7 }, _, _, _, _, ({ inp := { a := 0, b := 2 }, engines := [(0, { slots := [(2, { op := 0x91, sel := 0, args := [0x4000, 0, 3, 0, 0, 0, 0, 0, 0, 3, 0, 0, 0x8000], base := 0x4000, base2 := 0x8000, rid := 16, tag := 7 })] })], slices := [(0, { tlb := [⟨0, 0, 0x9000, 0x3F⟩] })], clusters := [(0, { rings := [(5, { cfg := 0x4000800, party := 0x4000, inflight := 1 })] })], procs := [(hartQOf 0, { remoteOut := [⟨0x2000, 3, false, 2, 0⟩] })] }), ⟨⟨⟨(by decide +kernel), (by decide +kernel)⟩, (some_third (by decide +kernel)), (by decide +kernel), (by decide +kernel)⟩, ⟨(by decide +kernel), (by decide +kernel), (by decide +kernel)⟩, ⟨rfl, rfl⟩, ⟨_, (pair_none (by decide +kernel)), rfl⟩, (by decide +kernel), (by decide +kernel)⟩⟩

theorem met_BargeStepsComplete_6 :
  let runs := fun (s : State) => s.inp.a < 640 ∧ runsDefault s s.inp.a = true
  let q := fun (s : State) => hartQOf s.inp.a
  let serves := fun (s : State) (op k : Nat) (r : Request) (v : State) =>
    runs s ∧ takeInHand s s.inp.a s.inp.b s.inp.c = some (k, r, v) ∧ r.op = op ∧ s.copiesFrozen (clusterOf r.q) = false
  let goes := fun (r : Request) => r.fin = none ∧ r.killed = false ∧ r.canc = false
  let ended := fun (t : State) (h k : Nat) (r : Request) (status count : Nat) =>
    post (releaseHolds (t.modEngine h fun e => { e with slots := e.slots.del k }) r) h r
      (frameOf status 0 r.rid.toNat h (r.tag + 2 ^ 32 * (count % 2 ^ 30)))
  let held := fun (v : State) (r : Request) (u : State) (r1 : Request) =>
    match r.ring with
    | none => u = v ∧ r1 = r
    | some n =>
      let k := r.iter % (ringOf v (clusterOf r.q) n).nst
      r.bound.isSome = true ∧ u = v ∧ r1 = r ∨
      r.bound = none ∧ (ringOf v (clusterOf r.q) n).writable k = true ∧ u = (modRing v (clusterOf r.q) n fun x => x.bind k) ∧
        r1 = { r with bound := some k }
  let moves := fun (s u : State) (k : Nat) (r : Request) (t : State) (out : Option (Nat × Nat)) =>
    let m := rCount r.source - r.next
    ∃ w, copyRun u s.inp.a r r.iter r.next (if s.inp.w.toNat = 0 then m else min s.inp.w.toNat m) = (w, out) ∧ t = ownStores u w (q s) k
  let whole := fun (s : State) (r : Request) => s.inp.w.toNat = 0 ∨ rCount r.source ≤ r.next + s.inp.w.toNat
  let filled := fun (t : State) (r : Request) =>
    match r.ring with
    | none => t
    | some n => modRing t (clusterOf r.q) n fun x => x.fill (r.iter % x.nst) r.iter
  let freed := fun (r : Request) => if r.ring.isSome then { r with bound := none } else r
  let kept := fun (t : State) (h k : Nat) (r : Request) => t.modEngine h fun e => { e with slots := e.slots.put k r }
  ∃ k r v c n, MetHappens .bargeCopy
    (fun s => serves s 0x91 k r v ∧ r.fin = some (c, n) ∧ storesDone v (q s) k = true ∧ (c = 0 → storesLost v (q s) k = false))
    (fun s => ended (dropStores v (q s) k) s.inp.a k r c n) :=
  ⟨2, { op := 0x91, sel := 0, args := [0x4000, 0, 3, 0, 0, 0, 0, 0, 0, 3, 0, 0, 0x8000], base := 0x4000, base2 := 0x8000, rid := 16, tag := 7, fin := some (0, 4) }, _, 0, 4, ({ inp := { a := 0, b := 2 }, engines := [(0, { slots := [(2, { op := 0x91, sel := 0, args := [0x4000, 0, 3, 0, 0, 0, 0, 0, 0, 3, 0, 0, 0x8000], base := 0x4000, base2 := 0x8000, rid := 16, tag := 7, fin := some (0, 4) })] })], slices := [(0, { tlb := [⟨0, 0, 0x9000, 0x3F⟩] })], clusters := [(0, { rings := [(5, { cfg := 0x4000800, party := 0x4000, inflight := 1 })] })] }), ⟨⟨⟨(by decide +kernel), (by decide +kernel)⟩, (some_third (by decide +kernel)), (by decide +kernel), (by decide +kernel)⟩, (by decide +kernel), (by decide +kernel), fun _ => (by decide +kernel)⟩⟩

theorem met_BargeStepsComplete_7 :
  let runs := fun (s : State) => s.inp.a < 640 ∧ runsDefault s s.inp.a = true
  let q := fun (s : State) => hartQOf s.inp.a
  let serves := fun (s : State) (op k : Nat) (r : Request) (v : State) =>
    runs s ∧ takeInHand s s.inp.a s.inp.b s.inp.c = some (k, r, v) ∧ r.op = op ∧ s.copiesFrozen (clusterOf r.q) = false
  let goes := fun (r : Request) => r.fin = none ∧ r.killed = false ∧ r.canc = false
  let ended := fun (t : State) (h k : Nat) (r : Request) (status count : Nat) =>
    post (releaseHolds (t.modEngine h fun e => { e with slots := e.slots.del k }) r) h r
      (frameOf status 0 r.rid.toNat h (r.tag + 2 ^ 32 * (count % 2 ^ 30)))
  let held := fun (v : State) (r : Request) (u : State) (r1 : Request) =>
    match r.ring with
    | none => u = v ∧ r1 = r
    | some n =>
      let k := r.iter % (ringOf v (clusterOf r.q) n).nst
      r.bound.isSome = true ∧ u = v ∧ r1 = r ∨
      r.bound = none ∧ (ringOf v (clusterOf r.q) n).writable k = true ∧ u = (modRing v (clusterOf r.q) n fun x => x.bind k) ∧
        r1 = { r with bound := some k }
  let moves := fun (s u : State) (k : Nat) (r : Request) (t : State) (out : Option (Nat × Nat)) =>
    let m := rCount r.source - r.next
    ∃ w, copyRun u s.inp.a r r.iter r.next (if s.inp.w.toNat = 0 then m else min s.inp.w.toNat m) = (w, out) ∧ t = ownStores u w (q s) k
  let whole := fun (s : State) (r : Request) => s.inp.w.toNat = 0 ∨ rCount r.source ≤ r.next + s.inp.w.toNat
  let filled := fun (t : State) (r : Request) =>
    match r.ring with
    | none => t
    | some n => modRing t (clusterOf r.q) n fun x => x.fill (r.iter % x.nst) r.iter
  let freed := fun (r : Request) => if r.ring.isSome then { r with bound := none } else r
  let kept := fun (t : State) (h k : Nat) (r : Request) => t.modEngine h fun e => { e with slots := e.slots.put k r }
  ∃ k r v u r1 t, MetHappens .bargeCopy
    (fun s => serves s 0x91 k r v ∧ goes r ∧ held v r u r1 ∧ moves s u k r1 t none ∧ ¬ whole s r)
    (fun s => kept t s.inp.a k { r1 with next := r.next + s.inp.w.toNat }) :=
  ⟨2, { op := 0x91, sel := 0, args := [0x4000, 0, 3, 0, 0, 0, 0, 0, 0, 3, 0, 0, 0x8000], base := 0x4000, base2 := 0x8000, rid := 16, tag := 7 }, _, _, _, _, ({ inp := { a := 0, b := 2, w := 2 }, engines := [(0, { slots := [(2, { op := 0x91, sel := 0, args := [0x4000, 0, 3, 0, 0, 0, 0, 0, 0, 3, 0, 0, 0x8000], base := 0x4000, base2 := 0x8000, rid := 16, tag := 7 })] })], slices := [(0, { tlb := [⟨0, 0, 0x9000, 0x3F⟩] })], clusters := [(0, { rings := [(5, { cfg := 0x4000800, party := 0x4000, inflight := 1 })] })] }), ⟨⟨⟨(by decide +kernel), (by decide +kernel)⟩, (some_third (by decide +kernel)), (by decide +kernel), (by decide +kernel)⟩, ⟨(by decide +kernel), (by decide +kernel), (by decide +kernel)⟩, ⟨rfl, rfl⟩, ⟨_, (pair_none (by decide +kernel)), rfl⟩, (by decide +kernel)⟩⟩

theorem met_BargeStepsComplete_8 :
  let runs := fun (s : State) => s.inp.a < 640 ∧ runsDefault s s.inp.a = true
  let q := fun (s : State) => hartQOf s.inp.a
  let serves := fun (s : State) (op k : Nat) (r : Request) (v : State) =>
    runs s ∧ takeInHand s s.inp.a s.inp.b s.inp.c = some (k, r, v) ∧ r.op = op ∧ s.copiesFrozen (clusterOf r.q) = false
  let goes := fun (r : Request) => r.fin = none ∧ r.killed = false ∧ r.canc = false
  let ended := fun (t : State) (h k : Nat) (r : Request) (status count : Nat) =>
    post (releaseHolds (t.modEngine h fun e => { e with slots := e.slots.del k }) r) h r
      (frameOf status 0 r.rid.toNat h (r.tag + 2 ^ 32 * (count % 2 ^ 30)))
  let held := fun (v : State) (r : Request) (u : State) (r1 : Request) =>
    match r.ring with
    | none => u = v ∧ r1 = r
    | some n =>
      let k := r.iter % (ringOf v (clusterOf r.q) n).nst
      r.bound.isSome = true ∧ u = v ∧ r1 = r ∨
      r.bound = none ∧ (ringOf v (clusterOf r.q) n).writable k = true ∧ u = (modRing v (clusterOf r.q) n fun x => x.bind k) ∧
        r1 = { r with bound := some k }
  let moves := fun (s u : State) (k : Nat) (r : Request) (t : State) (out : Option (Nat × Nat)) =>
    let m := rCount r.source - r.next
    ∃ w, copyRun u s.inp.a r r.iter r.next (if s.inp.w.toNat = 0 then m else min s.inp.w.toNat m) = (w, out) ∧ t = ownStores u w (q s) k
  let whole := fun (s : State) (r : Request) => s.inp.w.toNat = 0 ∨ rCount r.source ≤ r.next + s.inp.w.toNat
  let filled := fun (t : State) (r : Request) =>
    match r.ring with
    | none => t
    | some n => modRing t (clusterOf r.q) n fun x => x.fill (r.iter % x.nst) r.iter
  let freed := fun (r : Request) => if r.ring.isSome then { r with bound := none } else r
  let kept := fun (t : State) (h k : Nat) (r : Request) => t.modEngine h fun e => { e with slots := e.slots.put k r }
  ∃ k r v u r1 t c j, MetHappens .bargeCopy
    (fun s => serves s 0x91 k r v ∧ goes r ∧ held v r u r1 ∧ moves s u k r1 t (some (c, j)) ∧ isWait c = false ∧ c ≠ 0 ∧
      storesDone (forgetStalls (leaveCopy t s.inp.a r1 (rCount r.source)) (q s) c) (q s) k = true)
    (fun s => ended (dropStores (forgetStalls (leaveCopy t s.inp.a r1 (rCount r.source)) (q s) c) (q s) k) s.inp.a k r1 c j) :=
  ⟨2, { op := 0x91, sel := 0, args := [0x4000, 0, 3, 0, 0, 0, 0, 0, 0, 3, 0, 0, 0x8000], base := 0x4000, base2 := 0xA000, rid := 16, tag := 7 }, _, _, _, _, _, _, ({ inp := { a := 0, b := 2 }, engines := [(0, { slots := [(2, { op := 0x91, sel := 0, args := [0x4000, 0, 3, 0, 0, 0, 0, 0, 0, 3, 0, 0, 0x8000], base := 0x4000, base2 := 0xA000, rid := 16, tag := 7 })] })], slices := [(0, { tlb := [⟨0, 0, 0x9000, 0x3F⟩] })], clusters := [(0, { rings := [(5, { cfg := 0x4000800, party := 0x4000, inflight := 1 })] })] }), ⟨⟨⟨(by decide +kernel), (by decide +kernel)⟩, (some_third (by decide +kernel)), (by decide +kernel), (by decide +kernel)⟩, ⟨(by decide +kernel), (by decide +kernel), (by decide +kernel)⟩, ⟨rfl, rfl⟩, ⟨_, (pair_some (by decide +kernel)), rfl⟩, (by decide +kernel), (by decide +kernel), (by decide +kernel)⟩⟩

theorem met_BargeStepsComplete_9 :
  let runs := fun (s : State) => s.inp.a < 640 ∧ runsDefault s s.inp.a = true
  let q := fun (s : State) => hartQOf s.inp.a
  let serves := fun (s : State) (op k : Nat) (r : Request) (v : State) =>
    runs s ∧ takeInHand s s.inp.a s.inp.b s.inp.c = some (k, r, v) ∧ r.op = op ∧ s.copiesFrozen (clusterOf r.q) = false
  let goes := fun (r : Request) => r.fin = none ∧ r.killed = false ∧ r.canc = false
  let ended := fun (t : State) (h k : Nat) (r : Request) (status count : Nat) =>
    post (releaseHolds (t.modEngine h fun e => { e with slots := e.slots.del k }) r) h r
      (frameOf status 0 r.rid.toNat h (r.tag + 2 ^ 32 * (count % 2 ^ 30)))
  let held := fun (v : State) (r : Request) (u : State) (r1 : Request) =>
    match r.ring with
    | none => u = v ∧ r1 = r
    | some n =>
      let k := r.iter % (ringOf v (clusterOf r.q) n).nst
      r.bound.isSome = true ∧ u = v ∧ r1 = r ∨
      r.bound = none ∧ (ringOf v (clusterOf r.q) n).writable k = true ∧ u = (modRing v (clusterOf r.q) n fun x => x.bind k) ∧
        r1 = { r with bound := some k }
  let moves := fun (s u : State) (k : Nat) (r : Request) (t : State) (out : Option (Nat × Nat)) =>
    let m := rCount r.source - r.next
    ∃ w, copyRun u s.inp.a r r.iter r.next (if s.inp.w.toNat = 0 then m else min s.inp.w.toNat m) = (w, out) ∧ t = ownStores u w (q s) k
  let whole := fun (s : State) (r : Request) => s.inp.w.toNat = 0 ∨ rCount r.source ≤ r.next + s.inp.w.toNat
  let filled := fun (t : State) (r : Request) =>
    match r.ring with
    | none => t
    | some n => modRing t (clusterOf r.q) n fun x => x.fill (r.iter % x.nst) r.iter
  let freed := fun (r : Request) => if r.ring.isSome then { r with bound := none } else r
  let kept := fun (t : State) (h k : Nat) (r : Request) => t.modEngine h fun e => { e with slots := e.slots.put k r }
  ∃ k r v w, MetHappens .bargeCopy
    (fun s => serves s 0x91 k r v ∧ r.fin = none ∧ r.killed = false ∧ r.canc = true ∧
      w = leaveCopy v s.inp.a r (if r.bound.isSome then rCount r.source else r.next) ∧ storesDone w (q s) k = true)
    (fun s => ended (dropStores w (q s) k) s.inp.a k r 0x64 r.next) :=
  ⟨2, { op := 0x91, sel := 0, args := [0x4000, 0, 3, 0, 0, 0, 0, 0, 0, 3, 0, 0, 0x8000], base := 0x4000, base2 := 0x8000, rid := 16, tag := 7, canc := true }, _, _, ({ inp := { a := 0, b := 2 }, engines := [(0, { slots := [(2, { op := 0x91, sel := 0, args := [0x4000, 0, 3, 0, 0, 0, 0, 0, 0, 3, 0, 0, 0x8000], base := 0x4000, base2 := 0x8000, rid := 16, tag := 7, canc := true })] })], slices := [(0, { tlb := [⟨0, 0, 0x9000, 0x3F⟩] })], clusters := [(0, { rings := [(5, { cfg := 0x4000800, party := 0x4000, inflight := 1 })] })] }), ⟨⟨⟨(by decide +kernel), (by decide +kernel)⟩, (some_third (by decide +kernel)), (by decide +kernel), (by decide +kernel)⟩, (by decide +kernel), (by decide +kernel), (by decide +kernel), rfl, (by decide +kernel)⟩⟩

theorem met_BargeStepsComplete_10 :
  let runs := fun (s : State) => s.inp.a < 640 ∧ runsDefault s s.inp.a = true
  let q := fun (s : State) => hartQOf s.inp.a
  let serves := fun (s : State) (op k : Nat) (r : Request) (v : State) =>
    runs s ∧ takeInHand s s.inp.a s.inp.b s.inp.c = some (k, r, v) ∧ r.op = op ∧ s.copiesFrozen (clusterOf r.q) = false
  let goes := fun (r : Request) => r.fin = none ∧ r.killed = false ∧ r.canc = false
  let ended := fun (t : State) (h k : Nat) (r : Request) (status count : Nat) =>
    post (releaseHolds (t.modEngine h fun e => { e with slots := e.slots.del k }) r) h r
      (frameOf status 0 r.rid.toNat h (r.tag + 2 ^ 32 * (count % 2 ^ 30)))
  let held := fun (v : State) (r : Request) (u : State) (r1 : Request) =>
    match r.ring with
    | none => u = v ∧ r1 = r
    | some n =>
      let k := r.iter % (ringOf v (clusterOf r.q) n).nst
      r.bound.isSome = true ∧ u = v ∧ r1 = r ∨
      r.bound = none ∧ (ringOf v (clusterOf r.q) n).writable k = true ∧ u = (modRing v (clusterOf r.q) n fun x => x.bind k) ∧
        r1 = { r with bound := some k }
  let moves := fun (s u : State) (k : Nat) (r : Request) (t : State) (out : Option (Nat × Nat)) =>
    let m := rCount r.source - r.next
    ∃ w, copyRun u s.inp.a r r.iter r.next (if s.inp.w.toNat = 0 then m else min s.inp.w.toNat m) = (w, out) ∧ t = ownStores u w (q s) k
  let whole := fun (s : State) (r : Request) => s.inp.w.toNat = 0 ∨ rCount r.source ≤ r.next + s.inp.w.toNat
  let filled := fun (t : State) (r : Request) =>
    match r.ring with
    | none => t
    | some n => modRing t (clusterOf r.q) n fun x => x.fill (r.iter % x.nst) r.iter
  let freed := fun (r : Request) => if r.ring.isSome then { r with bound := none } else r
  let kept := fun (t : State) (h k : Nat) (r : Request) => t.modEngine h fun e => { e with slots := e.slots.put k r }
  ∃ k r v u r1 t, MetHappens .loopIteration
    (fun s => serves s 0x92 k r v ∧ r.killed = false ∧ r.canc = false ∧ held v r u r1 ∧ moves s u k r1 t none ∧ whole s r)
    (fun s =>
      let r2 := { freed r1 with iter := r.iter + 1, next := 0 }
      if r.iter + 1 = r.iters then ended (filled t r1) s.inp.a k r2 0 (r.iter + 1) else kept (filled t r1) s.inp.a k r2) :=
  ⟨2, { op := 0x92, args := [0x4000, 0, 3, 0, 0, 0, 0, 0, 0, 3, 0, 0, 0x500000002, 0, 0], base := 0x4000, rid := 16, tag := 7, ring := some 5 }, _, _, _, _, ({ inp := { a := 0, b := 2 }, engines := [(0, { slots := [(2, { op := 0x92, args := [0x4000, 0, 3, 0, 0, 0, 0, 0, 0, 3, 0, 0, 0x500000002, 0, 0], base := 0x4000, rid := 16, tag := 7, ring := some 5 })] })], slices := [(0, { tlb := [⟨0, 0, 0x9000, 0x3F⟩] })], clusters := [(0, { rings := [(5, { cfg := 0x4000800, party := 0x4000, inflight := 1 })] })] }), ⟨⟨⟨(by decide +kernel), (by decide +kernel)⟩, (some_third (by decide +kernel)), (by decide +kernel), (by decide +kernel)⟩, (by decide +kernel), (by decide +kernel), .inr ⟨(by decide +kernel), (by decide +kernel), rfl, rfl⟩, ⟨_, (pair_none (by decide +kernel)), rfl⟩, (by decide +kernel)⟩⟩

theorem met_BargeStepsComplete_11 :
  let runs := fun (s : State) => s.inp.a < 640 ∧ runsDefault s s.inp.a = true
  let q := fun (s : State) => hartQOf s.inp.a
  let serves := fun (s : State) (op k : Nat) (r : Request) (v : State) =>
    runs s ∧ takeInHand s s.inp.a s.inp.b s.inp.c = some (k, r, v) ∧ r.op = op ∧ s.copiesFrozen (clusterOf r.q) = false
  let goes := fun (r : Request) => r.fin = none ∧ r.killed = false ∧ r.canc = false
  let ended := fun (t : State) (h k : Nat) (r : Request) (status count : Nat) =>
    post (releaseHolds (t.modEngine h fun e => { e with slots := e.slots.del k }) r) h r
      (frameOf status 0 r.rid.toNat h (r.tag + 2 ^ 32 * (count % 2 ^ 30)))
  let held := fun (v : State) (r : Request) (u : State) (r1 : Request) =>
    match r.ring with
    | none => u = v ∧ r1 = r
    | some n =>
      let k := r.iter % (ringOf v (clusterOf r.q) n).nst
      r.bound.isSome = true ∧ u = v ∧ r1 = r ∨
      r.bound = none ∧ (ringOf v (clusterOf r.q) n).writable k = true ∧ u = (modRing v (clusterOf r.q) n fun x => x.bind k) ∧
        r1 = { r with bound := some k }
  let moves := fun (s u : State) (k : Nat) (r : Request) (t : State) (out : Option (Nat × Nat)) =>
    let m := rCount r.source - r.next
    ∃ w, copyRun u s.inp.a r r.iter r.next (if s.inp.w.toNat = 0 then m else min s.inp.w.toNat m) = (w, out) ∧ t = ownStores u w (q s) k
  let whole := fun (s : State) (r : Request) => s.inp.w.toNat = 0 ∨ rCount r.source ≤ r.next + s.inp.w.toNat
  let filled := fun (t : State) (r : Request) =>
    match r.ring with
    | none => t
    | some n => modRing t (clusterOf r.q) n fun x => x.fill (r.iter % x.nst) r.iter
  let freed := fun (r : Request) => if r.ring.isSome then { r with bound := none } else r
  let kept := fun (t : State) (h k : Nat) (r : Request) => t.modEngine h fun e => { e with slots := e.slots.put k r }
  ∃ k r v u r1 t, MetHappens .loopIteration
    (fun s => serves s 0x92 k r v ∧ r.killed = false ∧ r.canc = false ∧ held v r u r1 ∧ moves s u k r1 t none ∧ ¬ whole s r)
    (fun s => kept t s.inp.a k { r1 with next := r.next + s.inp.w.toNat }) :=
  ⟨2, { op := 0x92, args := [0x4000, 0, 3, 0, 0, 0, 0, 0, 0, 3, 0, 0, 0x500000002, 0, 0], base := 0x4000, rid := 16, tag := 7, ring := some 5 }, _, _, _, _, ({ inp := { a := 0, b := 2, w := 2 }, engines := [(0, { slots := [(2, { op := 0x92, args := [0x4000, 0, 3, 0, 0, 0, 0, 0, 0, 3, 0, 0, 0x500000002, 0, 0], base := 0x4000, rid := 16, tag := 7, ring := some 5 })] })], slices := [(0, { tlb := [⟨0, 0, 0x9000, 0x3F⟩] })], clusters := [(0, { rings := [(5, { cfg := 0x4000800, party := 0x4000, inflight := 1 })] })] }), ⟨⟨⟨(by decide +kernel), (by decide +kernel)⟩, (some_third (by decide +kernel)), (by decide +kernel), (by decide +kernel)⟩, (by decide +kernel), (by decide +kernel), .inr ⟨(by decide +kernel), (by decide +kernel), rfl, rfl⟩, ⟨_, (pair_none (by decide +kernel)), rfl⟩, (by decide +kernel)⟩⟩

theorem met_BargeStepsComplete_12 :
  let runs := fun (s : State) => s.inp.a < 640 ∧ runsDefault s s.inp.a = true
  let q := fun (s : State) => hartQOf s.inp.a
  let serves := fun (s : State) (op k : Nat) (r : Request) (v : State) =>
    runs s ∧ takeInHand s s.inp.a s.inp.b s.inp.c = some (k, r, v) ∧ r.op = op ∧ s.copiesFrozen (clusterOf r.q) = false
  let goes := fun (r : Request) => r.fin = none ∧ r.killed = false ∧ r.canc = false
  let ended := fun (t : State) (h k : Nat) (r : Request) (status count : Nat) =>
    post (releaseHolds (t.modEngine h fun e => { e with slots := e.slots.del k }) r) h r
      (frameOf status 0 r.rid.toNat h (r.tag + 2 ^ 32 * (count % 2 ^ 30)))
  let held := fun (v : State) (r : Request) (u : State) (r1 : Request) =>
    match r.ring with
    | none => u = v ∧ r1 = r
    | some n =>
      let k := r.iter % (ringOf v (clusterOf r.q) n).nst
      r.bound.isSome = true ∧ u = v ∧ r1 = r ∨
      r.bound = none ∧ (ringOf v (clusterOf r.q) n).writable k = true ∧ u = (modRing v (clusterOf r.q) n fun x => x.bind k) ∧
        r1 = { r with bound := some k }
  let moves := fun (s u : State) (k : Nat) (r : Request) (t : State) (out : Option (Nat × Nat)) =>
    let m := rCount r.source - r.next
    ∃ w, copyRun u s.inp.a r r.iter r.next (if s.inp.w.toNat = 0 then m else min s.inp.w.toNat m) = (w, out) ∧ t = ownStores u w (q s) k
  let whole := fun (s : State) (r : Request) => s.inp.w.toNat = 0 ∨ rCount r.source ≤ r.next + s.inp.w.toNat
  let filled := fun (t : State) (r : Request) =>
    match r.ring with
    | none => t
    | some n => modRing t (clusterOf r.q) n fun x => x.fill (r.iter % x.nst) r.iter
  let freed := fun (r : Request) => if r.ring.isSome then { r with bound := none } else r
  let kept := fun (t : State) (h k : Nat) (r : Request) => t.modEngine h fun e => { e with slots := e.slots.put k r }
  ∃ k r v u r1 t c j, MetHappens .loopIteration
    (fun s => serves s 0x92 k r v ∧ r.killed = false ∧ r.canc = false ∧ held v r u r1 ∧ moves s u k r1 t (some (c, j)) ∧ isWait c = false)
    (fun s => ended (forgetStalls (leaveCopy t s.inp.a r1 (rCount r.source)) (q s) c) s.inp.a k r1 c r.iter) :=
  ⟨2, { op := 0x92, args := [0x4000, 0, 3, 0, 0, 0, 0, 0, 0, 3, 0, 0, 0x500000002, 0, 0], base := 0x8FF8, rid := 16, tag := 7, ring := some 5 }, _, _, _, _, _, _, ({ inp := { a := 0, b := 2 }, engines := [(0, { slots := [(2, { op := 0x92, args := [0x4000, 0, 3, 0, 0, 0, 0, 0, 0, 3, 0, 0, 0x500000002, 0, 0], base := 0x8FF8, rid := 16, tag := 7, ring := some 5 })] })], slices := [(0, { tlb := [⟨0, 0, 0x9000, 0x3F⟩] })], clusters := [(0, { rings := [(5, { cfg := 0x4000800, party := 0x4000, inflight := 1 })] })] }), ⟨⟨⟨(by decide +kernel), (by decide +kernel)⟩, (some_third (by decide +kernel)), (by decide +kernel), (by decide +kernel)⟩, (by decide +kernel), (by decide +kernel), .inr ⟨(by decide +kernel), (by decide +kernel), rfl, rfl⟩, ⟨_, (pair_some (by decide +kernel)), rfl⟩, (by decide +kernel)⟩⟩

theorem met_BargeStepsComplete_13 :
  let runs := fun (s : State) => s.inp.a < 640 ∧ runsDefault s s.inp.a = true
  let q := fun (s : State) => hartQOf s.inp.a
  let serves := fun (s : State) (op k : Nat) (r : Request) (v : State) =>
    runs s ∧ takeInHand s s.inp.a s.inp.b s.inp.c = some (k, r, v) ∧ r.op = op ∧ s.copiesFrozen (clusterOf r.q) = false
  let goes := fun (r : Request) => r.fin = none ∧ r.killed = false ∧ r.canc = false
  let ended := fun (t : State) (h k : Nat) (r : Request) (status count : Nat) =>
    post (releaseHolds (t.modEngine h fun e => { e with slots := e.slots.del k }) r) h r
      (frameOf status 0 r.rid.toNat h (r.tag + 2 ^ 32 * (count % 2 ^ 30)))
  let held := fun (v : State) (r : Request) (u : State) (r1 : Request) =>
    match r.ring with
    | none => u = v ∧ r1 = r
    | some n =>
      let k := r.iter % (ringOf v (clusterOf r.q) n).nst
      r.bound.isSome = true ∧ u = v ∧ r1 = r ∨
      r.bound = none ∧ (ringOf v (clusterOf r.q) n).writable k = true ∧ u = (modRing v (clusterOf r.q) n fun x => x.bind k) ∧
        r1 = { r with bound := some k }
  let moves := fun (s u : State) (k : Nat) (r : Request) (t : State) (out : Option (Nat × Nat)) =>
    let m := rCount r.source - r.next
    ∃ w, copyRun u s.inp.a r r.iter r.next (if s.inp.w.toNat = 0 then m else min s.inp.w.toNat m) = (w, out) ∧ t = ownStores u w (q s) k
  let whole := fun (s : State) (r : Request) => s.inp.w.toNat = 0 ∨ rCount r.source ≤ r.next + s.inp.w.toNat
  let filled := fun (t : State) (r : Request) =>
    match r.ring with
    | none => t
    | some n => modRing t (clusterOf r.q) n fun x => x.fill (r.iter % x.nst) r.iter
  let freed := fun (r : Request) => if r.ring.isSome then { r with bound := none } else r
  let kept := fun (t : State) (h k : Nat) (r : Request) => t.modEngine h fun e => { e with slots := e.slots.put k r }
  ∃ k r v, MetHappens .loopIteration
    (fun s => serves s 0x92 k r v ∧ r.killed = false ∧ r.canc = true)
    (fun s => ended (leaveCopy v s.inp.a r (if r.bound.isSome then rCount r.source else r.next)) s.inp.a k r 0x64 r.iter) :=
  ⟨2, { op := 0x92, args := [0x4000, 0, 3, 0, 0, 0, 0, 0, 0, 3, 0, 0, 0x500000002, 0, 0], base := 0x4000, rid := 16, tag := 7, ring := some 5, canc := true }, _, ({ inp := { a := 0, b := 2 }, engines := [(0, { slots := [(2, { op := 0x92, args := [0x4000, 0, 3, 0, 0, 0, 0, 0, 0, 3, 0, 0, 0x500000002, 0, 0], base := 0x4000, rid := 16, tag := 7, ring := some 5, canc := true })] })], slices := [(0, { tlb := [⟨0, 0, 0x9000, 0x3F⟩] })], clusters := [(0, { rings := [(5, { cfg := 0x4000800, party := 0x4000, inflight := 1 })] })] }), ⟨⟨⟨(by decide +kernel), (by decide +kernel)⟩, (some_third (by decide +kernel)), (by decide +kernel), (by decide +kernel)⟩, (by decide +kernel), (by decide +kernel)⟩⟩
end

