-- ==== Sys2Proof/Tests/MetVector.lean ====
section
/-!
SUPPORT. Witnesses of the statements about the vector engine: for each clause a concrete state and operands that meet its hypotheses together.
-/

open Sys2Proof Sys2Proof.Machine
set_option maxRecDepth 20000
set_option Elab.async false
set_option linter.unusedVariables false

theorem met_VectorArithmeticCompletes_1 : ∀ i ∈ [.vadd 5 0 1 1 false 5 1, .vsub 30 2 0 6 false 0 1, .vmul 28 31 0 7 false 2 1, .vmin 5 6 9 6 true 0 1, .vmax 2 0 6 7 false 3 0, .vrcpe 0 0 5 false 1 0, .vrsqe 27 0 6 true 0 0, .vexp2 0 25 2 true 3 0, .vlog2 7 20 3 true 0 0, .vfma 31 5 2 25 7 true 0 1 2 false false, .vrefn 7 0 0 7 false 7 1 0, .viadd 0 0 4 4 false 6, .visub 4 6 2 7 false 5, .vimul 7 0 0 4 false 6 0, .vimin 1 9 1 6 true 6 false, .vimax 10 2 6 7 false 9 true, .vishl 31 0 2 4 false 5, .vishr 0 0 7 1 false 5 false, .vand 5 0 14 6 false 5, .vor 8 27 21 4 false 9, .vxor 3 9 3 7 false 5, .vperm 12 0 0 1 1 false 3 true, .vsel 0 7 24 6 0], (vecOf i).isSome = true ∧ ready (one []) i = true ∧ chunkLines (((vecOf i).map (·.after (beginHead (one []) i))).getD {}) 0 ≤ 64 :=
  (by decide +kernel)

theorem met_VectorArithmeticCompletes_2 :
  ∃ a b c kp z t x v, MetDoesOnce (.vbcast a b c kp z t false) (fun u => src b u = .ok x v)
    (fun _ => VecOp.after ⟨fun _ => 2, a, kp, z, typeWidth t.toNat, fun _ _ => (x.toNat % 2 ^ typeWidth t.toNat, 0), fun _ => false⟩ v) :=
  ⟨3, 7, 0, 1, false, 0, _, _, (one [(7, 9)]), (by decide +kernel), (ok_of_isOk (by decide +kernel)), (by decide +kernel)⟩

theorem met_PredicatesComplete_1 : ∀ i ∈ [.vcmp 6 3 8 3 true 5 7 0, .vicmp 5 0 3 0 false 0 0], (predOf i).isSome = true ∧ ready (one []) i = true ∧ chunkLines (((predOf i).map (·.after (beginHead (one []) i))).getD {}) 0 ≤ 64 :=
  (by decide +kernel)

theorem met_PredicatesComplete_2 :
  ∃ a b c w un x y v, MetDoesOnce (.kwhile a b c w un) (fun u => pops u b c x y v) (fun _ => (whileOp a w un x y).after v) :=
  ⟨4, 8, 9, 2, false, _, _, _, (one [(8, 3), (9, 7)]), (by decide +kernel), ⟨_, (ok_of_isOk (by decide +kernel)), (ok_of_isOk (by decide +kernel))⟩, (by decide +kernel)⟩

theorem met_PredicatesComplete_3 : ∀ i ∈ [.kand 2 2 4, .kor 4 0 4, .kxor 5 6 0, .kandn 1 3 0, .kmov 3 7, .knot 2 0], (wholePred i).isSome = true ∧ ready (one []) i = true :=
  (by decide +kernel)

theorem met_PredicatesComplete_4 :
  ∃ a b w, MetDoesOnceTo (.kcnt a b w) a 2 (fun _ => True) id (fun u =>
    wNat ((List.range (512 * (members u u.cur).length / (8 * 2 ^ w.toNat))).filter fun i =>
      (readPred u b.toNat).testBit (i * (8 * 2 ^ w.toNat) / 8)).length) State.vresZero :=
  ⟨8, 4, 0, _, (one []), (by decide +kernel), trivial, (ok_unit_of_isOk (by decide +kernel)), (by decide +kernel)⟩

theorem met_PredicatesComplete_5 :
  ∃ a, MetDoesOnceTo (.vwidth a) a 1 (fun _ => True) id (fun u => wNat (512 * (members u u.cur).length)) State.vresZero :=
  ⟨35, _, (one []), (by decide +kernel), trivial, (ok_unit_of_isOk (by decide +kernel)), (by decide +kernel)⟩

theorem met_ConversionsComplete_1 : ∀ i ∈ [.vpack 1 2 0 1 false 0 5 10 0 false, .vcvt 6 0 7 false 4 9 0 0 false, .vunpk 1 27 0 2 true 0 10 8 2 false], (convOf i).isSome = true ∧ ready (one []) i = true ∧ chunkLines (((convOf i).map (·.after (beginHead (one []) i))).getD {}) 0 ≤ 64 :=
  (by decide +kernel)

theorem met_ConversionsComplete_2 :
  ∃ a b d kp z rm ts p un, MetDoesOnce (.vpack a b d kp z rm ts 11 p un) (fun _ => True) (fun u =>
    let n := (members u u.cur).length
    let bs := (List.range n).map (mxBlock (u.controls rm) (readPred u kp.toNat) (readVec u b.toNat) (p.toNat * (32 * n)))
    let t := (u.landAt 4 a 8 z (bs.flatMap MxBlock.elems)).landAt 4 d 8 z
      ((bs.zip (List.range n)).map fun e => (e.2 + p.toNat * n, e.1.any, e.1.scale))
    ((t.landFlags 4 (bs.foldl (fun m e => m ||| e.flags) 0)).drew (bs.any MxBlock.any && (u.controls rm).mode == .sr)).vresZero) :=
  ⟨1, 2, 3, 0, false, 0, 2, 0, false, (one []), (by decide +kernel), trivial, (by decide +kernel)⟩

theorem met_ReductionsComplete_1 :
  ∃ a b c kp rm ta tb j, MetDoesOnce (.vdotf8 a b c kp rm ta tb j) (fun u => j.toNat < 16 * (members u u.cur).length) (fun u =>
    let r := dotFloat u a b c kp rm ta tb j.toNat
    let lat := reduceLat u 6 8
    (((u.landAt lat a 32 false [(j.toNat, true, r.1)]).landFlags lat r.2).drew
      ((u.controls rm).mode == .sr && !(activeElems u kp 8).isEmpty)).vresZero) :=
  ⟨1, 2, 3, 0, 0, 3, 4, 15, (one []), (by decide +kernel), (by decide +kernel), (by decide +kernel)⟩

theorem met_ReductionsComplete_2 :
  ∃ a b c kp ta tb j, MetDoesOnce (.vdoti8 a b c kp ta tb j) (fun u => j.toNat < 16 * (members u u.cur).length) (fun u =>
    (u.landAt (reduceLat u 6 8) a 32 false [(j.toNat, true,
      (((vecEl u a 32 j.toNat : Int) + dotInt u b c kp ta tb) % (2 ^ 32 : Nat)).toNat)]).vresZero) :=
  ⟨1, 2, 3, 0, 5, 6, 15, (one []), (by decide +kernel), (by decide +kernel), (by decide +kernel)⟩

theorem met_ReductionsComplete_3 :
  ∃ a b kp rm t o j, MetDoesOnce (.vred a b kp rm t o j)
    (fun u => j.toNat < 512 * (members u u.cur).length / typeWidth t.toNat) (fun u =>
    let w := typeWidth t.toNat
    let is := activeElems u kp w
    let r := reduce (u.controls rm) t.toNat o.toNat (readVec u b.toNat) is (512 * (members u u.cur).length / w)
    let lat := reduceLat u 4 w
    (((u.landAt lat a w false [(j.toNat, true, r.1)]).landFlags lat r.2).drew
      (isFloatCode t.toNat && o == 0 && (u.controls rm).mode == .sr && !is.isEmpty)).vresZero) :=
  ⟨1, 2, 0, 0, 0, 0, 15, (one []), (by decide +kernel), (by decide +kernel), (by decide +kernel)⟩

theorem met_ReductionsComplete_4 :
  ∃ a b kp z rm t o, MetDoesOnce (.vscan a b kp z rm t o) (fun _ => True) (fun u =>
    let w := typeWidth t.toNat
    let n := 512 * (members u u.cur).length / w
    let r := scanVec (u.controls rm) t.toNat o.toNat (readVec u b.toNat) (active (readPred u kp.toNat) w) n
    let lat := reduceLat u 4 w
    let acts := activity u kp w
    let t1 := u.landV lat a.toNat (joinElems w (acts.map fun x => if x || z then 2 ^ w - 1 else 0))
      (joinElems w (activeResults acts 0 fun i => r.1.getD i 0))
    ((t1.landFlags lat r.2).drew
      (isFloatCode t.toNat && o == 0 && (u.controls rm).mode == .sr && acts.any id)).vresZero) :=
  ⟨1, 2, 0, true, 0, 5, 2, (one []), (by decide +kernel), trivial, (by decide +kernel)⟩

theorem met_VectorMovesComplete_1 :
  ∃ a b c kp z t, MetDoesOnce (.vbcast a b c kp z t true) (fun _ => True) (fun u =>
    let w := typeWidth t.toNat
    let n := 512 * (members u u.cur).length / w
    let acts := activity u kp w
    let x := vecEl u b w ((u.myReg c).toNat % n)
    (u.landV (3 + gangTerm u) a.toNat (joinElems w (acts.map fun e => if e || z then 2 ^ w - 1 else 0))
      (joinElems w (activeResults acts 0 fun _ => x))).vresZero) :=
  ⟨3, 11, 38, 1, false, 0, (one [(38, 5)]), (by decide +kernel), trivial, (by decide +kernel)⟩

theorem met_VectorMovesComplete_2 :
  ∃ a b mode imm, MetDoesOnce (.vpeer a b mode imm) (fun _ => True) (fun u =>
    let n := (members u u.cur).length
    (u.landAt (if n = 16 then 3 else 2) a 512 false ((List.range n).map fun m =>
      match peerOf mode.toNat n m imm.toInt with
      | some (some j) => (m, true, readVec u b.toNat / 2 ^ (512 * j) % 2 ^ 512)
      | some none => (m, true, 0)
      | none => (m, false, 0))).vresZero) :=
  ⟨2, 0, 2, -1, (one []), (by decide +kernel), trivial, (by decide +kernel)⟩

theorem met_VectorMovesComplete_3 :
  ∃ a b t sx idx lat, MetDoesOnceTo (.vext a b t sx idx) a lat
    (fun u => lat = 3 + gangTerm u ∧ idx.toNat < 512 * (members u u.cur).length / typeWidth t.toNat) id (fun u =>
    let x := vecEl u b (typeWidth t.toNat) idx.toNat
    if sx then w64 (signedAt (typeWidth t.toNat) x) else wNat x) State.vresZero :=
  ⟨25, 6, 2, true, 31, _, _, (one []), (by decide +kernel), ⟨rfl, (by decide +kernel)⟩, (ok_unit_of_isOk (by decide +kernel)), (by decide +kernel)⟩

theorem met_VectorMovesComplete_4 :
  ∃ a b t idx x v, MetDoesOnce (.vins a b t idx)
    (fun u => src b u = .ok x v ∧ idx.toNat < 512 * (members v v.cur).length / typeWidth t.toNat) (fun _ =>
    (v.landAt 2 a (typeWidth t.toNat) false [(idx.toNat, true, x.toNat % 2 ^ typeWidth t.toNat)]).vresZero) :=
  ⟨1, 8, 3, 63, _, _, (one [(8, 7)]), (by decide +kernel), ⟨(ok_of_isOk (by decide +kernel)), (by decide +kernel)⟩, (by decide +kernel)⟩

theorem met_VectorMovesComplete_5 :
  ∃ a, MetDoesOnceTo (.vseedRd a) a 1 (fun _ => True) id (fun u => u.me.r.srctr) State.vresZero :=
  ⟨9, _, (one []), (by decide +kernel), trivial, (ok_unit_of_isOk (by decide +kernel)), (by decide +kernel)⟩

theorem met_VectorMovesComplete_6 :
  ∃ b x v, MetDoesOnce (.vseedWr b) (fun u => src b u = .ok x v) (fun _ => (v.setR fun r => { r with srctr := x }).vresZero) :=
  ⟨8, _, _, (one [(8, 7)]), (by decide +kernel), (ok_of_isOk (by decide +kernel)), (by decide +kernel)⟩

theorem met_VectorMovesComplete_7 :
  ∃ a b x v, MetDoesOnceTo (.vseedXchg a b) a 1 (fun u => src b u = .ok x v)
    (fun _ => v.setR fun r => { r with srctr := x }) (fun _ => v.me.r.srctr) State.vresZero :=
  ⟨9, 8, _, _, _, (one [(8, 7)]), (by decide +kernel), (ok_of_isOk (by decide +kernel)), (ok_unit_of_isOk (by decide +kernel)), (by decide +kernel)⟩

theorem met_VectorMovesComplete_8 :
  ∃ b kp t, MetDoesOnce (.vhist b kp t) (fun _ => True) (fun u =>
    let f := fmtOf t.toNat
    (((members u u.cur).zip (List.range 16)).foldl (fun v e =>
      if (u.core (coreOf e.1)).hen then
        v.countHist (coreOf e.1) (((activeElems u kp f.width).filter fun i => f.width * i / 512 == e.2).map fun i =>
          histBin (f.decode (vecEl u b f.width i)))
      else v) u).vresZero) :=
  ⟨27, 1, 0, (one [] id fun c => { c with hen := true }), (by decide +kernel), trivial, (by decide +kernel)⟩

theorem met_VectorLoadsComplete_1 :
  let reads := fun (u : State) (kp : BitVec 3) (t : BitVec 4) (ea : Nat → Word) (ls : List (Nat × Loc)) (vs : List (Nat × Nat))
      (wait : Nat) (w : State) =>
    ∃ u1 u2, checkElems (typeWidth t.toNat) .load ea (activeElems u kp (typeWidth t.toNat)) u = .ok ls u1 ∧
      readElems (typeWidth t.toNat) ea ls u1 = .ok vs u2 ∧
      bankAccess (ls.map fun e => (e.2, typeWidth t.toNat / 8, memberOf (members u u.cur) (typeWidth t.toNat) e.1)) u2 = .ok wait w
  let landed := fun (w : State) (a : BitVec 6) (kp : BitVec 3) (z : Bool) (t : BitVec 4) (unit : Bool) (ls : List (Nat × Loc))
      (vs : List (Nat × Nat)) (wait : Nat) =>
    let n := typeWidth t.toNat
    let acts := activity w kp n
    (w.landV (vloadLatency unit (512 * (members w w.cur).length / n) ls + wait) a.toNat
      (joinElems n (acts.map fun e => if e || z then 2 ^ n - 1 else 0))
      (joinElems n (activeResults acts 0 fun i => ((vs.find? fun e => e.1 == i).map (·.2)).getD 0))).vresZero
  ∃ a b kp z t nt imm ls vs wait w, MetDoesOnce (.vld a b kp z t nt imm)
    (fun u => reads u kp t (fun i => u.ea b imm + wNat (i * (typeWidth t.toNat / 8))) ls vs wait w)
    (fun _ => landed w a kp z t true ls vs wait) :=
  ⟨2, 6, 0, false, 0, false, 0, _, _, _, _, (one [(6, 0x2000)]), (by decide +kernel), ⟨_, _, (ok_of_isOk (by decide +kernel)), (ok_of_isOk (by decide +kernel)), (ok_of_isOk (by decide +kernel))⟩, (by decide +kernel)⟩

theorem met_VectorLoadsComplete_2 :
  let reads := fun (u : State) (kp : BitVec 3) (t : BitVec 4) (ea : Nat → Word) (ls : List (Nat × Loc)) (vs : List (Nat × Nat))
      (wait : Nat) (w : State) =>
    ∃ u1 u2, checkElems (typeWidth t.toNat) .load ea (activeElems u kp (typeWidth t.toNat)) u = .ok ls u1 ∧
      readElems (typeWidth t.toNat) ea ls u1 = .ok vs u2 ∧
      bankAccess (ls.map fun e => (e.2, typeWidth t.toNat / 8, memberOf (members u u.cur) (typeWidth t.toNat) e.1)) u2 = .ok wait w
  let landed := fun (w : State) (a : BitVec 6) (kp : BitVec 3) (z : Bool) (t : BitVec 4) (unit : Bool) (ls : List (Nat × Loc))
      (vs : List (Nat × Nat)) (wait : Nat) =>
    let n := typeWidth t.toNat
    let acts := activity w kp n
    (w.landV (vloadLatency unit (512 * (members w w.cur).length / n) ls + wait) a.toNat
      (joinElems n (acts.map fun e => if e || z then 2 ^ n - 1 else 0))
      (joinElems n (activeResults acts 0 fun i => ((vs.find? fun e => e.1 == i).map (·.2)).getD 0))).vresZero
  ∃ a b c kp z t nt imm ls vs wait w, MetDoesOnce (.vlds a b c kp z t nt imm)
    (fun u => reads u kp t (fun i => u.ea b imm + wNat i * u.myReg c) ls vs wait w)
    (fun _ => landed w a kp z t false ls vs wait)
    (fun _ => { delay := 512 * (members w w.cur).length / typeWidth t.toNat }) :=
  ⟨2, 6, 7, 0, true, 0, false, 0, _, _, _, _, (one [(6, 0x2000), (7, 64)]), (by decide +kernel), ⟨_, _, (ok_of_isOk (by decide +kernel)), (ok_of_isOk (by decide +kernel)), (ok_of_isOk (by decide +kernel))⟩, (by decide +kernel)⟩

theorem met_VectorLoadsComplete_3 :
  let reads := fun (u : State) (kp : BitVec 3) (t : BitVec 4) (ea : Nat → Word) (ls : List (Nat × Loc)) (vs : List (Nat × Nat))
      (wait : Nat) (w : State) =>
    ∃ u1 u2, checkElems (typeWidth t.toNat) .load ea (activeElems u kp (typeWidth t.toNat)) u = .ok ls u1 ∧
      readElems (typeWidth t.toNat) ea ls u1 = .ok vs u2 ∧
      bankAccess (ls.map fun e => (e.2, typeWidth t.toNat / 8, memberOf (members u u.cur) (typeWidth t.toNat) e.1)) u2 = .ok wait w
  let landed := fun (w : State) (a : BitVec 6) (kp : BitVec 3) (z : Bool) (t : BitVec 4) (unit : Bool) (ls : List (Nat × Loc))
      (vs : List (Nat × Nat)) (wait : Nat) =>
    let n := typeWidth t.toNat
    let acts := activity w kp n
    (w.landV (vloadLatency unit (512 * (members w w.cur).length / n) ls + wait) a.toNat
      (joinElems n (acts.map fun e => if e || z then 2 ^ n - 1 else 0))
      (joinElems n (activeResults acts 0 fun i => ((vs.find? fun e => e.1 == i).map (·.2)).getD 0))).vresZero
  ∃ a b c kp z t nt sh imm ls vs wait w, MetDoesOnce (.vgath a b c kp z t nt sh imm)
    (fun u => reads u kp t (fun i => u.ea b imm + indexEl u c (typeWidth t.toNat) i <<< sh.toNat) ls vs wait w)
    (fun _ => landed w a kp z t false ls vs wait)
    (fun _ => { delay := 512 * (members w w.cur).length / typeWidth t.toNat }) :=
  ⟨2, 6, 7, 0, true, 0, false, 2, 0, _, _, _, _, (one [(6, 0x2000)]), (by decide +kernel), ⟨_, _, (ok_of_isOk (by decide +kernel)), (ok_of_isOk (by decide +kernel)), (ok_of_isOk (by decide +kernel))⟩, (by decide +kernel)⟩

theorem met_VectorStoresComplete_1 :
  ∃ a b kp t nt imm w, MetDoesOnce (.vst a b kp t nt imm)
    (fun u => storesVector u a kp t (fun i => u.ea b imm + wNat (i * (typeWidth t.toNat / 8))) w) (fun _ => w) :=
  ⟨2, 6, 0, 0, false, 0, _, (one [(6, 0x2000)]), (by decide +kernel), ⟨_, _, _, _, _, (ok_pair_nil (by decide +kernel) (by decide +kernel)), (ok_unit_of_isOk (by decide +kernel)), (ok_of_isOk (by decide +kernel)), rfl⟩, (by decide +kernel)⟩

theorem met_VectorStoresComplete_2 :
  ∃ a b c kp t nt imm w, MetDoesOnce (.vsts a b c kp t nt imm)
    (fun u => storesVector u a kp t (fun i => u.ea b imm + wNat i * u.myReg c) w) (fun _ => w)
    (fun u => { delay := 512 * (members u u.cur).length / typeWidth t.toNat }) :=
  ⟨2, 6, 7, 0, 0, false, 0, _, (one [(6, 0x2000), (7, 64)]), (by decide +kernel), ⟨_, _, _, _, _, (ok_pair_nil (by decide +kernel) (by decide +kernel)), (ok_unit_of_isOk (by decide +kernel)), (ok_of_isOk (by decide +kernel)), rfl⟩, (by decide +kernel)⟩

theorem met_VectorStoresComplete_3 :
  ∃ a b c kp t nt sh imm w, MetDoesOnce (.vscat a b c kp t nt sh imm)
    (fun u => storesVector u a kp t (fun i => u.ea b imm + indexEl u c (typeWidth t.toNat) i <<< sh.toNat) w) (fun _ => w)
    (fun u => { delay := 512 * (members u u.cur).length / typeWidth t.toNat }) :=
  ⟨2, 6, 7, 0, 0, false, 2, 0, _, (one [(6, 0x2000)]), (by decide +kernel), ⟨_, _, _, _, _, (ok_pair_nil (by decide +kernel) (by decide +kernel)), (ok_unit_of_isOk (by decide +kernel)), (ok_of_isOk (by decide +kernel)), rfl⟩, (by decide +kernel)⟩
end

