-- ==== Sys2Proof/Tests/Slice0.lean ====
section
/-!
SUPPORT. Words written out from the encoding of each head (R33, R34, R41 to R47, R62 to R65), the static checks, and single steps.
-/

open Sys2Proof Sys2Proof.Machine
set_option maxRecDepth 20000
set_option Elab.async false

/-! ### Decoding: the halfwords of one head of each constructor -/

/-- A word decodes to its instruction, is what the instruction encodes to, and the instruction is well formed. -/
def wordOf (e : List (BitVec 16) × Instr) : Bool :=
  decodesTo (decodeHalves e.1) e.2 && decide (encode e.2 = e.1) && e.2.wf

theorem test_decode_system : ([
    ([0x0100], .nop),
    ([0x0200], .halt),
    ([0x0340, 0x1234], .brk 0x1234),
    ([0x0440, 0x2973], .trap 10611),
    ([0x0500], .eret),
    ([0x0640, 0xA000], .fence 2 true),
    ([0x0700], .chunkEnd),
    ([0x0840, 0x0006], .srr 0 6),
    ([0x0945, 0x0008], .srw 5 8)] : List (List (BitVec 16) × Instr)).all wordOf = true := by decide +kernel

theorem test_decode_scalar : ([
    ([0x0A45, 0x0009], .liI16 5 9),
    ([0x0B82, 0x766C, 0x4319], .liI32 2 1125742188),
    ([0x0CD8, 0x0000, 0x0003, 0x0000, 0x0000], .liI48 24 3),
    ([0x0CC6, 0x0040, 0x0006, 0x0000, 0x0000], .liHi 6 6),
    ([0x0D88, 0x0023, 0x75DD], .leaBase 8 35 30173),
    ([0x0D83, 0x0040, 0xFF34], .leaPc 3 65332),
    ([0x0EEF, 0x1013, 0x0000, 0x0000, 0x0000], .leaIndex 47 19 0 1 0),
    ([0x0EC0, 0x4040, 0x0000, 0x0003, 0x0000], .leaPcIndex 0 1 0 3),
    ([0x0F46, 0x0149], .addRr 6 9 5),
    ([0x1040, 0x0B03], .subRr 0 3 44),
    ([0x1148, 0x0840], .andRr 8 0 33),
    ([0x125C, 0x0000], .orRr 28 0 0),
    ([0x1356, 0x0204], .xorRr 22 4 8),
    ([0x145F, 0x0000], .shlRr 31 0 0),
    ([0x1542, 0x01CD], .shrRr 2 13 7),
    ([0x1648, 0x00AA], .sraRr 8 42 2),
    ([0x1740, 0x0240], .minRr 0 0 9),
    ([0x1844, 0x009E], .maxRr 4 30 2),
    ([0x1953, 0x0288], .minuRr 19 8 10),
    ([0x1A40, 0x0608], .maxuRr 0 8 24),
    ([0x1B96, 0x0009, 0x314C], .addRi16 22 9 12620),
    ([0x1C85, 0x0000, 0x0000], .andRi16 5 0 0),
    ([0x1D8A, 0x000A, 0x0004], .orRi16 10 10 4),
    ([0x1E83, 0x0000, 0x0008], .xorRi16 3 0 8),
    ([0x1F89, 0x0000, 0x0000], .shlRi16 9 0 0),
    ([0x2094, 0x000A, 0x0006], .shrRi16 20 10 6),
    ([0x2084, 0x0080, 0x0003], .sraRi16 4 0 3),
    ([0x21CA, 0x001F, 0x0000, 0x0006, 0x0000], .addRri32 10 31 6),
    ([0x22C6, 0x0005, 0x0000, 0xB0A8, 0xBFDA], .andRri32 6 5 3218780328),
    ([0x23C2, 0x000E, 0x0000, 0x0000, 0x0000], .orRri32 2 14 0),
    ([0x24C1, 0x0000, 0x0000, 0x275C, 0x20DF], .xorRri32 1 0 551495516),
    ([0x2547, 0x90C9], .cmpRr 7 9 3 9),
    ([0x2691, 0x0007, 0x0008], .cmpRi16 17 7 0 8),
    ([0x2780, 0x0043, 0x0045], .bfx 0 3 true 5 1),
    ([0x2886, 0x001B, 0x00A7], .bfi 6 27 39 2),
    ([0x2947, 0x0001], .clz 7 1),
    ([0x2A40, 0x0001], .popc 0 1),
    ([0x2B43, 0x00C9], .mul 3 9 3),
    ([0x2C41, 0x0100], .mulh 1 0 4),
    ([0x2D40, 0x000F], .mulhu 0 15 0),
    ([0x2E44, 0x0018], .div 4 24 0),
    ([0x2F47, 0x0180], .divu 7 0 6),
    ([0x3049, 0x0701], .rem 9 1 28),
    ([0x3148, 0x0080], .remu 8 0 2)] : List (List (BitVec 16) × Instr)).all wordOf = true := by decide +kernel

theorem test_decode_memory : ([
    ([0x3280, 0x0343, 0x0000], .ldRi16 0 3 1 true true 0),
    ([0x33C6, 0x101B, 0x0000, 0x5D58, 0xC475], .ldRri32 6 27 0 1 false false 0 3296025944),
    ([0x3491, 0x02C2, 0x0000], .stRi16 17 2 3 true 0),
    ([0x35C3, 0x8083, 0x0002, 0x397E, 0x1478], .stRri32 3 3 2 0 true 2 343423358),
    ([0x3681, 0x070C, 0xF4CA], .lda 1 12 0 true 3 62666),
    ([0x3784, 0x009C, 0x0003], .stl 4 28 2 0 3)] : List (List (BitVec 16) × Instr)).all wordOf = true := by decide +kernel

theorem test_decode_atomics : ([
    ([0x3883, 0x0108, 0x0200], .aadd 3 8 4 true 0),
    ([0x3988, 0x0011, 0x0000], .amin 8 17 0 false false 0),
    ([0x3A81, 0x02C5, 0x0600], .amax 1 5 11 true true 0),
    ([0x3B86, 0x0200, 0x0800], .aand 6 0 8 false 1),
    ([0x3C80, 0x0009, 0x2A00], .aor 0 9 0 true 5),
    ([0x3D85, 0x0107, 0x2200], .axor 5 7 4 true 4),
    ([0x3E83, 0x0189, 0x0200], .aswap 3 9 6 true 0),
    ([0x3F80, 0x9204, 0x0A00], .acas 0 4 8 9 true 1)] : List (List (BitVec 16) × Instr)).all wordOf = true := by decide +kernel

theorem test_decode_control : ([
    ([0x408A, 0x0008, 0xAE41], .bRi16 10 8 0 44609),
    ([0x41C5, 0x0009, 0x0000, 0x5FE6, 0x6E3C], .bRri32 5 9 0 1849450470),
    ([0x4285, 0x0009, 0x0000], .jal 5 9),
    ([0x4382, 0x0004, 0x8C87], .jalr 2 4 35975),
    ([0x44C2, 0x0244, 0x0000, 0x0000, 0x0000], .hstart 2 4 9 false false 0),
    ([0x4547, 0x0000], .hjoin 7 0),
    ([0x4600], .hend),
    ([0x4700], .hyield),
    ([0x4847, 0x1000], .gang 7 1),
    ([0x4900], .split),
    ([0x4A00], .phaseT),
    ([0x4B00], .phaseE),
    ([0x4C05], .tideRd 5),
    ([0x4D82, 0x0058, 0x0006], .tideWait 2 24 true 6),
    ([0x4E82, 0x00D4, 0x0000], .waitmem 2 20 3 0),
    ([0x4FC7, 0x001B, 0x0000, 0x0000, 0x0000], .sendmsg 7 27 0 0),
    ([0x5000], .waitmsg)] : List (List (BitVec 16) × Instr)).all wordOf = true := by decide +kernel

theorem test_decode_float_vectors : ([
    ([0x51C5, 0x0040, 0xD100, 0x0000, 0x0000], .vadd 5 0 1 1 false 5 1),
    ([0x52DE, 0x0002, 0x8600, 0x0000, 0x0000], .vsub 30 2 0 6 false 0 1),
    ([0x53DC, 0x001F, 0xA700, 0x0000, 0x0000], .vmul 28 31 0 7 false 2 1),
    ([0x54DF, 0x9085, 0x8F01, 0x0010, 0x0000], .vfma 31 5 2 25 7 true 0 1 2 false false),
    ([0x55C5, 0x0246, 0x8E00, 0x0000, 0x0000], .vmin 5 6 9 6 true 0 1),
    ([0x56C2, 0x0180, 0x3700, 0x0000, 0x0000], .vmax 2 0 6 7 false 3 0),
    ([0x57C0, 0x0000, 0x1500, 0x0000, 0x0000], .vrcpe 0 0 5 false 1 0),
    ([0x58DB, 0x0000, 0x0E00, 0x0000, 0x0000], .vrsqe 27 0 6 true 0 0),
    ([0x59C7, 0x0000, 0xF700, 0x0000, 0x0000], .vrefn 7 0 0 7 false 7 1 0),
    ([0x5AC0, 0x0019, 0x3A00, 0x0000, 0x0000], .vexp2 0 25 2 true 3 0),
    ([0x5BC7, 0x0014, 0x0B00, 0x0000, 0x0000], .vlog2 7 20 3 true 0 0)] : List (List (BitVec 16) × Instr)).all wordOf = true := by decide +kernel

theorem test_decode_integer_vectors : ([
    ([0x5C80, 0x0100, 0x0C10], .viadd 0 0 4 4 false 6),
    ([0x5D84, 0x0086, 0x0A1C], .visub 4 6 2 7 false 5),
    ([0x5E87, 0x0000, 0x0C10], .vimul 7 0 0 4 false 6 0),
    ([0x5F81, 0x0049, 0x0C38], .vimin 1 9 1 6 true 6 false),
    ([0x608A, 0x0182, 0x321C], .vimax 10 2 6 7 false 9 true),
    ([0x619F, 0x0080, 0x0A10], .vishl 31 0 2 4 false 5),
    ([0x6280, 0x01C0, 0x0A04], .vishr 0 0 7 1 false 5 false),
    ([0x6385, 0x0380, 0x0A18], .vand 5 0 14 6 false 5),
    ([0x6488, 0x055B, 0x1210], .vor 8 27 21 4 false 9),
    ([0x6583, 0x00C9, 0x0A1C], .vxor 3 9 3 7 false 5)] : List (List (BitVec 16) × Instr)).all wordOf = true := by decide +kernel

theorem test_decode_predicates : ([
    ([0x6686, 0x0203, 0x0F6C], .vcmp 6 3 8 3 true 5 7 0),
    ([0x6785, 0x00C0, 0x0000], .vicmp 5 0 3 0 false 0 0),
    ([0x6884, 0x0108, 0x0400], .kwhile 4 8 4 2 false),
    ([0x6942, 0x0102], .kand 2 2 4),
    ([0x6944, 0x1100], .kor 4 0 4),
    ([0x6945, 0x2006], .kxor 5 6 0),
    ([0x6941, 0x3003], .kandn 1 3 0),
    ([0x6A43, 0x0007], .kmov 3 7),
    ([0x6A42, 0x1000], .knot 2 0),
    ([0x6A48, 0x2004], .kcnt 8 4 0),
    ([0x6B23], .vwidth 35)] : List (List (BitVec 16) × Instr)).all wordOf = true := by decide +kernel

theorem test_decode_vector_memory : ([
    ([0x6CC2, 0x5005, 0x0009, 0x4C21, 0x3E53], .vld 2 5 5 false 9 false 1045646369),
    ([0x6DC5, 0x3018, 0x0016, 0xE5D5, 0xA96E], .vst 5 24 3 6 true 2842617301),
    ([0x6EC6, 0x802F, 0x0013, 0x0000, 0x0000], .vlds 6 47 0 0 true 3 true 0),
    ([0x6FC6, 0x10C7, 0x0012, 0x0065, 0x73A8], .vsts 6 7 3 1 2 true 1940389989),
    ([0x70C4, 0xE000, 0x003B, 0x0A14, 0xCAF9], .vgath 4 0 0 6 true 11 true 1 3405318676),
    ([0x71C7, 0x218A, 0x001B, 0x0002, 0x0000], .vscat 7 10 6 2 11 true 0 2)] : List (List (BitVec 16) × Instr)).all wordOf = true := by decide +kernel

theorem test_decode_conversions : ([
    ([0x72C6, 0x0000, 0xC700, 0x0004, 0x0000], .vcvt 6 0 7 false 4 9 0 0 false),
    ([0x73C1, 0x3002, 0x5400, 0x00D9, 0x0000], .vpack 1 2 3 4 false 5 2 11 1 false),
    ([0x74C1, 0x001B, 0x0A00, 0x0145, 0x0000], .vunpk 1 27 0 2 true 0 10 8 2 false)] : List (List (BitVec 16) × Instr)).all wordOf = true := by decide +kernel

theorem test_decode_dots_and_reductions : ([
    ([0x75C7, 0x07C5, 0x8700, 0x0119, 0x0000], .vdotf8 7 5 31 7 0 3 3 2),
    ([0x76C5, 0x0002, 0x0600, 0x0333, 0x0000], .vdoti8 5 2 0 6 6 6 6),
    ([0x77DC, 0x000D, 0x1000, 0x3E71, 0x0000], .vred 28 13 0 1 2 2 499),
    ([0x78C0, 0x001E, 0x5400, 0x0000, 0x0000], .vscan 0 30 4 false 5 0 0)] : List (List (BitVec 16) × Instr)).all wordOf = true := by decide +kernel

theorem test_decode_vector_moves : ([
    ([0x798C, 0x1000, 0x2604], .vperm 12 0 0 1 1 false 3 true),
    ([0x7A83, 0x098B, 0x2004], .vbcast 3 11 38 1 false 0 true),
    ([0x7B80, 0x0607, 0x0018], .vsel 0 7 24 6 0),
    ([0x7C82, 0x0080, 0x0000], .vpeer 2 0 2 0),
    ([0x7D80, 0x001B, 0x0004], .vhist 27 1 0),
    ([0x7E49, 0x0000], .vseedRd 9),
    ([0x7E40, 0x1001], .vseedWr 1),
    ([0x7E40, 0x2000], .vseedXchg 0 0),
    ([0x7F99, 0x0486, 0x0000], .vext 25 6 2 true 0),
    ([0x8081, 0x0200, 0x0000], .vins 1 0 8 0)] : List (List (BitVec 16) × Instr)).all wordOf = true := by decide +kernel

theorem test_decode_bit_stream : ([
    ([0x8188, 0x00C1, 0x0000], .bbGet 8 1 true true 0),
    ([0x8286, 0x0049, 0x0000], .bbPeek 6 9 true false 0),
    ([0x8380, 0x0040, 0x0000], .bbSkip 0 true 0),
    ([0x8482, 0x0000, 0x0000], .bbFill 2),
    ([0x8584, 0x0000, 0x0005], .bbDec 4 5),
    ([0x8680, 0x0006, 0x0009], .bbSave 6 9),
    ([0x8680, 0x0041, 0x0B26], .bbRest 1 2854),
    ([0x8742, 0x001F], .xreq 2 31),
    ([0x8808], .xstat 8)] : List (List (BitVec 16) × Instr)).all wordOf = true := by decide +kernel

theorem test_decode_dispatch : ([
    ([0x8985, 0x0002, 0x0009], .launch 5 2 9),
    ([0x8A8C, 0x0007, 0xB776], .evwait 12 7 0 46966),
    ([0x8B80, 0x0100, 0x0000], .evsig 0 0 4 0),
    ([0x8C80, 0x0000, 0x0000], .lqstat 0 0),
    ([0x8D00], .yieldOp),
    ([0x8E49, 0x0000], .sync 9 0),
    ([0x8F81, 0x0000, 0x0004], .dtake 1 4),
    ([0x90D6, 0x0054, 0x0000, 0x0003, 0x0000], .dplaceStart 22 20 1 3),
    ([0x90C7, 0x11C0, 0x0000, 0x0000, 0x0000], .dplacePreq 7 0 7 0),
    ([0x90E5, 0x2080, 0x0000, 0x0006, 0x0000], .dplaceSave 37 0 2 6),
    ([0x90C0, 0x31C0, 0x0000, 0x0005, 0x0000], .dplaceRest 0 0 7 5),
    ([0x90C4, 0x4700, 0x0000, 0x0000, 0x0000], .dplaceKill 4 0 28 0)] : List (List (BitVec 16) × Instr)).all wordOf = true := by decide +kernel

theorem test_decode_copies : ([
    ([0x91C1, 0x4250, 0x0000, 0x0001, 0x0000], .cpyPk 1 16 9 true 1),
    ([0x91D3, 0x5198, 0x0000, 0x0006, 0x0000], .cpyLand 19 24 6 true 6),
    ([0x91C0, 0x6152, 0x0000, 0x0001, 0x0000], .cpyRec 0 18 5 true 1),
    ([0x92C9, 0x40CC, 0x0000, 0x0001, 0x0000], .cpyLoop 9 12 3 true 1),
    ([0x9345, 0x0002], .cpycan 5 2),
    ([0x9483, 0x0801, 0x0000], .landAcq 3 1 0 false true),
    ([0x9580, 0x0200, 0x0000], .landRel 0 8),
    ([0x96C6, 0x5000, 0x0000, 0x0000, 0x0000], .landInit 6 0 0 5)] : List (List (BitVec 16) × Instr)).all wordOf = true := by decide +kernel

theorem test_decode_handles_and_jetty : ([
    ([0x9742, 0x1011], .halloc 2 17 0 true),
    ([0x9842, 0x0015], .hfree 2 21),
    ([0x9945, 0x0258], .hbump 5 24 9),
    ([0x9A40, 0x0025], .jpeek 0 37),
    ([0x9B00], .jdrop),
    ([0x9C48, 0x1000], .bget 8 true),
    ([0x9DC9, 0x0040, 0x0000, 0x0000, 0x0000], .bstreamMove 9 0 1 0),
    ([0x9DC8, 0x0000, 0x8000, 0x0000, 0x0000], .bstreamOwner 8),
    ([0x9DC0, 0x001B, 0x0000, 0x0001, 0x0000], .bstreamFwd 27),
    ([0x9E40, 0x0004], .blandWait 0 4),
    ([0x9E40, 0x1000], .blandFill 0),
    ([0x9E40, 0x221C], .blandDone 28 8)] : List (List (BitVec 16) × Instr)).all wordOf = true := by decide +kernel

theorem test_decode_pontoon : ([
    ([0x9F40, 0x0017], .pjob 0 23),
    ([0xA04E, 0x001C], .ppoll 14 28),
    ([0xA16C, 0x0004], .pwait 44 4),
    ([0xA240, 0x0005], .pcan 0 5),
    ([0xA389, 0x0003, 0x0000], .pheatSet 9 3),
    ([0xA38A, 0x0049, 0x0000], .pheatAdd 10 9),
    ([0xA484, 0x0000, 0x0000], .pmonRing 4 0),
    ([0xA496, 0x0041, 0x0000], .pmonBank 22 1),
    ([0xA480, 0x0085, 0x0000], .pmonTemp 0 5),
    ([0xA583, 0x0042, 0x28FD], .psettle 3 2 true 10493),
    ([0xA698, 0x0000, 0x0000], .pcalFull 24),
    ([0xA682, 0x0040, 0x0000], .pcalOfs 2),
    ([0xA785, 0x0006, 0x0000], .pmapRd 5 6),
    ([0xA7A4, 0x005C, 0x0000], .pmapSwap 36 28),
    ([0xA781, 0x0080, 0x0000], .pmapIdent 1 0),
    ([0xA880, 0x0000, 0x0004], .pstat 0 4),
    ([0xA980, 0x0000, 0x0000], .prowgoDrop),
    ([0xA980, 0x0040, 0x0000], .prowgoMem),
    ([0xA980, 0x0080, 0x0000], .prowgoLand 0),
    ([0xAA84, 0x0008, 0x0000], .paccRdN 4 8),
    ([0xAA89, 0x0050, 0x0000], .paccRdP 9 16)] : List (List (BitVec 16) × Instr)).all wordOf = true := by decide +kernel

theorem test_decode_tow : ([
    ([0xAB43, 0x06C0], .towEnter 3 0 27),
    ([0xAC41, 0x000D], .towExit 1 13),
    ([0xAD41, 0x0013], .towStat 1 19),
    ([0xAE52, 0x0005], .towWait 18 5)] : List (List (BitVec 16) × Instr)).all wordOf = true := by decide +kernel

theorem test_decode_ford : ([
    ([0xAFA3, 0x0000, 0x0003], .fenrol 35 0 0 3),
    ([0xB087, 0x0100, 0x0000], .fleave 7 4),
    ([0xB1C7, 0x4006, 0x0000, 0x011D, 0x0000], .frb 7 6 0 4 285 0),
    ([0xB2C4, 0x0153, 0x0000, 0x0805, 0x0000], .fmax 4 19 5 5 2),
    ([0xB3CD, 0x00C5, 0x0000, 0x1400, 0x0000], .fmin 13 5 3 0 5),
    ([0xB484, 0x0000, 0x0000], .fpop 4 0),
    ([0xB585, 0x00C0, 0x0006], .falign 5 3 6),
    ([0xB689, 0x0000, 0x0000], .fstat 9 0 0),
    ([0xB7C0, 0x0000, 0x0000, 0x0000, 0x0000], .femitTake 0),
    ([0xB7C5, 0x0012, 0x8000, 0x0000, 0x0000], .femitLoad 5 18),
    ([0xB7C0, 0x0001, 0x0000, 0x0001, 0x0000], .femitFrame 0 1),
    ([0xB7DB, 0x0000, 0x8000, 0x0001, 0x0000], .femitDone 27 0),
    ([0xB886, 0x0002, 0x0000], .fcountRd 6 2 0),
    ([0xB883, 0x0001, 0x0200], .fcountEl 3 1),
    ([0xB880, 0x0009, 0x0400], .fcountEx 0 9)] : List (List (BitVec 16) × Instr)).all wordOf = true := by decide +kernel

theorem test_decode_links : ([
    ([0xB91E], .rtv 30),
    ([0xBA80, 0x06C2, 0x0001], .lnkst 0 2 27 1),
    ([0xBB92, 0x1888, 0x0000], .ttselSw 18 8 1 3),
    ([0xBBA3, 0x0240, 0xB822], .ttselSeg 35 4 47138),
    ([0xBC87, 0x01C0, 0x0000], .pilotst 7 7)] : List (List (BitVec 16) × Instr)).all wordOf = true := by decide +kernel

theorem test_decode_tollhouse : ([
    ([0xBD88, 0x0000, 0x0001], .trcRdEnt 8 1),
    ([0xBD87, 0x0040, 0x0000], .trcRdCnt 7),
    ([0xBD89, 0x0080, 0x0000], .trcRdClr 9),
    ([0xBE92, 0x0040, 0x0002], .imbRd 18 1 false 2),
    ([0xBF80, 0x0000, 0x0000], .dbgsigHalt),
    ([0xBF80, 0x0040, 0x0000], .dbgsigTrig),
    ([0xBF80, 0x0080, 0x0000], .dbgsigMark 0),
    ([0xC089, 0x0000, 0x0000], .dumpst 9 0)] : List (List (BitVec 16) × Instr)).all wordOf = true := by decide +kernel

/-! ### Words that no head has (R42) -/

/-- Whether a decoding fails so. -/
def refusedAs (e : DecErr) (h : List (BitVec 16)) : Bool :=
  match decodeHalves h with
  | .ok _ => false
  | .error f => decide (f = e)

/-- A wrong size code; a bit of m that ADD leaves undefined; field A of NOP; the unused register field of CLZ; a res field of VADD. -/
theorem test_format_faults : ([[0x1045], [0x0F45, 0x1185], [0x0101], [0x2945, 0x0186], [0x51C1, 0x00C2, 0, 0, 1]] : List (List (BitVec 16))).all
    (refusedAs .instrFormat) = true := by decide +kernel
/-- A nonzero unused part of an immediate: bits 15:12 of BFX's, bits 15:3 of SYNC's. -/
theorem test_operand_faults : ([[0x2785, 0x0006, 0x1000], [0x8E45, 0x0008]] : List (List (BitVec 16))).all
    (refusedAs .reservedOperand) = true := by decide +kernel

/-! ### The line of R59 -/

/-- The six heads of the listing. -/
def loopHeads : List Instr :=
  [.ldRi16 4 3 2 false false 8, .addRi16 4 4 1, .stRi16 4 3 2 false 8, .subRr 5 5 6, .bRi16 5 0 1 (-4), .jalr 0 1 0]
/-- The line as the manual prints it, halfword by halfword. -/
def loopHalves : List (BitVec 16) :=
  [0x0006, 0x3284, 0x1B84, 0x3484, 0x1045, 0x4085, 0x4380] ++ List.replicate 14 0 ++
  [0x0001, 0x0000, 0x0040, 0xFFFC, 0x0185, 0x0083, 0x0008, 0x0004, 0x0001, 0x0083, 0x0008]
def lineFrom (hs : List (BitVec 16)) : Line := BitVec.ofNat 512 (joinHalves hs)
theorem test_loop_packs : packLines [] loopHeads = [lineFrom loopHalves] := by decide +kernel
theorem test_loop_checks : (lineFrom loopHalves).check = some 6 := by decide +kernel
theorem test_loop_decodes : ((List.range 6).zip loopHeads).all (fun e => decodesTo ((lineFrom loopHalves).decode (e.1 + 1)) e.2) = true := by
  decide +kernel
/-- The four variants: a gap that is not zero; a size code too large, well formed, whose head is refused; one too small, whose gap
is not zero; a reserved opcode. -/
theorem test_loop_gap : (lineFrom (loopHalves.set 15 1)).check = none := by decide +kernel
theorem test_loop_long : (lineFrom (loopHalves.set 4 0x1085)).check = some 6 ∧
    decodesTo ((lineFrom (loopHalves.set 4 0x1085)).decode 4) (.subRr 5 5 6) = false := by decide +kernel
theorem test_loop_short : (lineFrom (loopHalves.set 4 0x1005)).check = none := by decide +kernel
theorem test_loop_reserved : decodesTo ((lineFrom (loopHalves.set 6 0xC580)).decode 6) (.reservedOpcode 0xC5) = true := by decide +kernel

/-! ### An ill-formed term for each static check (R42 to R52) -/

def illFormed : List Instr :=
  [.addRr 53 1 2, .addRr 54 1 2, .leaBase 5 48 0, .srr 48 0, .vadd 32 1 2 0 false 0 0, .kand 1 8 1, .kand 0 1 1, .kand 8 1 1,
   .cpyPk 5 0 6 false 0, .cpyPk 5 37 6 false 0, .cpyLoop 5 6 46 false 0, .bget 45 false, .fence 6 false, .cmpRr 1 2 3 10,
   .vcmp 1 1 1 0 false 0 4 0, .vcmp 1 1 1 0 false 0 0 3, .vicmp 1 1 1 0 false 0 4, .bfx 1 2 false 33 31, .bfi 1 2 1 63,
   .ldRi16 1 2 3 true false 0, .shlRi16 1 2 64, .gang 1 5, .waitmem 1 2 1 0]
def illFormedVector : List Instr :=
  [.vadd 1 1 1 0 false 6 0, .vadd 1 1 1 0 false 0 3, .vfma 1 1 1 1 0 false 0 0 0 true false, .vrefn 1 1 1 0 false 0 0 2,
   .viadd 1 1 1 0 false 4, .viadd 1 1 1 0 false 10, .vimul 1 1 1 0 false 5 3, .vld 1 1 0 false 10 false 0, .vld 1 1 0 false 13 false 0,
   .vext 1 1 10 false 0, .vcvt 1 1 0 false 0 10 0 0 false, .vcvt 1 1 0 false 0 0 2 2 false, .vcvt 1 1 0 false 0 0 2 0 true,
   .vpack 1 1 0 0 false 0 0 10 0 false, .vpack 1 1 5 0 false 0 5 10 0 false, .vpack 1 1 32 0 false 0 2 11 0 false,
   .vunpk 1 1 0 0 false 0 10 6 0 false, .vdotf8 1 1 1 0 0 2 3 0, .vdoti8 1 1 1 0 7 5 0, .vred 1 1 0 0 0 3 0, .vred 1 1 0 1 5 0 0,
   .vscan 1 1 0 false 0 10 0, .vperm 1 1 1 5 0 false 0 false, .vperm 1 1 1 32 0 false 0 true, .vbcast 1 1 1 0 false 0 false,
   .vbcast 1 32 1 0 false 0 true, .vpeer 1 1 3 0, .vpeer 1 1 0 16, .vhist 1 0 5]
def illFormedEngine : List Instr :=
  [.bbGet 5 6 true false 1, .bbGet 5 0 false false 0, .bbGet 5 0 false false 65, .bbGet 5 6 false false 8, .bbSkip 0 false 129,
   .bbDec 5 0, .bbDec 5 13, .launch 5 6 16, .sync 5 5, .psettle 5 6 false 0, .pstat 5 5, .fenrol 5 6 0 0, .fenrol 5 6 0 1025,
   .frb 5 8 6 6 0 0, .frb 5 45 6 0 0 0, .falign 5 0 0, .fstat 5 0 4, .lnkst 5 0 48 0, .lnkst 5 0 0 3, .lnkst 5 6 0 0, .trcRdEnt 5 256,
   .imbRd 5 0 false 64, .imbRd 5 1 true 0, .dbgsigMark 32768, .dumpst 5 2, .reservedOpcode 0x42]
theorem test_wf_scalar : illFormed.all (fun i => !i.wf) = true := by decide +kernel
theorem test_wf_vector : illFormedVector.all (fun i => !i.wf) = true := by decide +kernel
theorem test_wf_engine : illFormedEngine.all (fun i => !i.wf) = true := by decide +kernel

/-! ### Values worked out in the manual -/

/-- The encodings of R68: 1.0, -2.5, 0.15625, 448 and -0 in FP32 round to those in the other formats. -/
def rounded (f : Fmt) (x : Nat) : Nat := (roundTo f .rne false false 0 (FP32.decode x)).1
theorem test_fp16_encodings : ([0x3F800000, 0xC0200000, 0x3E200000, 0x43E00000, 0x80000000] : List Nat).map (rounded FP16) =
    [0x3C00, 0xC100, 0x3100, 0x5F00, 0x8000] := by decide +kernel
theorem test_bf16_encodings : ([0x3F800000, 0xC0200000, 0x3E200000, 0x43E00000, 0x80000000] : List Nat).map (rounded BF16) =
    [0x3F80, 0xC020, 0x3E20, 0x43E0, 0x8000] := by decide +kernel
theorem test_e4m3_encodings : ([0x3F800000, 0xC0200000, 0x3E200000, 0x43E00000, 0x80000000] : List Nat).map (rounded E4M3) =
    [0x38, 0xC2, 0x22, 0x7E, 0x80] := by decide +kernel
theorem test_e5m2_encodings : ([0x3F800000, 0xC0200000, 0x3E200000, 0x43E00000, 0x80000000] : List Nat).map (rounded E5M2) =
    [0x3C, 0xC1, 0x31, 0x5F, 0x80] := by decide +kernel
/-- The examples of R78: 1 + 2^-8 in BF16 under RNE and RNA; 70,000 in E5M2 with sat8 = 0 and 1. -/
theorem test_round_ties : (roundTo BF16 .rne false false 0 (FP32.decode 0x3F808000)).1 = 0x3F80 ∧
    (roundTo BF16 .rna false false 0 (FP32.decode 0x3F808000)).1 = 0x3F81 := by decide +kernel
theorem test_round_overflow : (roundTo E5M2 .rne false false 0 (.ofInt 70000)).1 = 0x7C ∧
    (roundTo E5M2 .rne false true 0 (.ofInt 70000)).1 = 0x7B ∧ (roundTo E4M3 .rup false false 0 (.ofInt 500)).1 = 0x7E := by decide +kernel
/-- The example of R82: 1 + 2^-9 in BF16 rounds up from r = 0xC000_0000 on. -/
theorem test_round_stochastic : (roundTo BF16 .sr false false 0xBFFFFFFF (.fin false 513 (-9))).1 = 0x3F80 ∧
    (roundTo BF16 .sr false false 0xC0000000 (.fin false 513 (-9))).1 = 0x3F81 := by decide +kernel
/-- The example of R107: the owner of 0x32_1000_9ABC is slice 1.38. -/
theorem test_owner_slice : ownerSlice 0x3210009ABC = 80 + 38 := by decide +kernel
/-- The example of R113: the four tables of 0x1234_5678_9ABC, and where the leaf maps it. -/
def tables : State :=
  { vfs := [(0, { ptroot := 0x10000 })]
    mem := [(0x10120, 0x20001), (0x20688, 0x30001), (0x30598, 0x40001), (0x400C0, 0x321000000F)].foldl
      (fun m e => Memory.writeList m e.1 (leBytes 8 e.2)) [] }
def placeOf (x : Except Nat (State × Loc)) : Option Loc :=
  match x with
  | .ok (_, l) => some l
  | .error _ => none
theorem test_walk : placeOf (translate tables 0 0 0x123456789ABC .load) = some (.own 0x3210009ABC) := by decide +kernel
/-- The same leaf gives no fetch permission (R111). -/
theorem test_walk_fetch : errCode (translate tables 0 0 0x123456789ABC .fetch) = some 0x24 := by decide +kernel

/-- The example of R93: window W5 over the INT8 data of R72, its scale and its zero point, with the address in g6. -/
def grouped (o : Nat) : State :=
  { one [(6, 0xFFFF200000500000 + o)] (fun p => { p with tvec := 0x10002 })
      fun c => { c with win := [(40, 0), (41, wNat (64 * 2 ^ 20)), (42, 0x30000), (43, 0x31000)] } with
    mem := Memory.writeList (Memory.writeList (Memory.writeList [] (spKey 0 40) [0xC8]) (spKey 0 0x30002) [0x00, 0x2C]) (spKey 0 0x31001) [0x80] }
theorem test_window_load : (wentTo (exec (.ldRi16 5 6 1 false false 0) (grouped 80))).reg 0 5 = 0x4090 := by decide +kernel
theorem test_window_range : ((wentTo (exec (.ldRi16 5 6 1 false false 0) (grouped 4096))).proc 0).cause = 0x28 := by decide +kernel
theorem test_window_align : ((wentTo (exec (.ldRi16 5 6 0 false false 0) (grouped 81))).proc 0).cause = 0x26 := by decide +kernel
theorem test_window_readonly : ((wentTo (exec (.stRi16 5 6 1 false 0) (grouped 80))).proc 0).cause = 0x27 := by decide +kernel

/-! ### Single steps: a wrap, a sign, a source that is also the destination -/

def after (i : Instr) (r : List (Nat × Nat)) : State := wentTo (exec i (one r))
theorem test_add_wraps : (after (.addRr 5 6 7) [(6, 2 ^ 64 - 1), (7, 2)]).reg 0 5 = 1 := by decide +kernel
theorem test_sub_order : (after (.subRr 5 6 7) [(6, 5), (7, 9)]).reg 0 5 = wNat (2 ^ 64 - 4) := by decide +kernel
theorem test_sra_sign : (after (.sraRi16 5 6 4) [(6, 2 ^ 63)]).reg 0 5 = wNat (0xF8 * 2 ^ 56) := by decide +kernel
theorem test_shift_modulo : (after (.shlRr 5 6 7) [(6, 1), (7, 65)]).reg 0 5 = 2 := by decide +kernel
theorem test_div_zero : (after (.div 5 6 7) [(6, 7), (7, 0)]).reg 0 5 = -1 := by decide +kernel
theorem test_div_overflow : (after (.div 5 6 7) [(6, 2 ^ 63), (7, 2 ^ 64 - 1)]).reg 0 5 = wNat (2 ^ 63) := by decide +kernel
theorem test_rem_sign : (after (.rem 5 6 7) [(6, 2 ^ 64 - 7), (7, 3)]).reg 0 5 = -1 := by decide +kernel
theorem test_bfx_sign : (after (.bfx 5 6 true 4 7) [(6, 0xFFF)]).reg 0 5 = -1 := by decide +kernel
theorem test_g0_discards : (after (.addRr 0 6 7) [(6, 1), (7, 2)]).reg 0 0 = 0 := by decide +kernel
theorem test_load_extends : (wentTo (exec (.ldRi16 6 6 0 true false 0) { one [(6, 0x2000)] with mem := [(0x2000, 0x80)] })).reg 0 6 =
    wNat (2 ^ 64 - 128) := by decide +kernel
theorem test_store_held : viewByte (after (.stRi16 5 6 1 false 2) [(5, 0xABCD), (6, 0x2000)]) 0 0x2003 = 0xAB ∧
    (after (.stRi16 5 6 1 false 2) [(5, 0xABCD), (6, 0x2000)]).byteAt 0x2003 = 0 := by decide +kernel
theorem test_misaligned : ((wentTo (exec (.ldRi16 5 6 3 false false 0) (one [(6, 0x2004)] fun p => { p with tvec := 0x10002 }))).proc 0).cause = 0x21 := by
  decide +kernel
theorem test_jal_links : (after (.jal 1 0) []).reg 0 1 = 0x10042 := by decide +kernel
/-- R183: epc of TRAP is the next head's PC. -/
theorem test_trap_saves : ((wentTo (exec (.trap 0x1234) (one [] fun p => { p with tvec := 0x10002 }))).proc 0).epc = 0x10042 ∧
    ((wentTo (exec (.trap 0x1234) (one [] fun p => { p with tvec := 0x10002 }))).proc 0).tval = 0x1234 := by decide +kernel
/-- R66: a reserved opcode is ILLEGAL_OPCODE. -/
theorem test_reserved : ((wentTo (exec (.reservedOpcode 0xC5) (one [] fun p => { p with tvec := 0x10002 }))).proc 0).cause = 0x02 := by
  decide +kernel
/-- A step from State.reset: no context is live, and the Tide counter advances. -/
theorem test_reset_steps : (wentTo (step State.reset)).tide = 1 := by decide +kernel
/-- The word of LI g5, #7 runs as the first instruction after reset. -/
theorem test_fetch_word : (wentTo (step (State.reset.withFetchWord 32 0x00070A45))).reg 0 5 = 7 := by decide +kernel
end

namespace Sys2Proof.Machine

/-! ## The steps of a copy (R281 to R303) -/

/-! ### Updates of a ring -/

theorem modRing_congr {s : State} {gc n : Nat} {f g : Ring → Ring} (h : f (ringOf s gc n) = g (ringOf s gc n)) :
    modRing s gc n f = modRing s gc n g := by
  unfold modRing State.modCluster
  exact congrArg (fun x => s.setCluster gc { s.cluster gc with rings := (s.cluster gc).rings.put n x }) h

/-! ### BARGE_FORWARD (R281, R282) -/

section Forward
variable {s : State} {r : Request} {rest : List Request}

/-- The home Barge `a` runs its default microcode and `r` is the oldest request of its queue. -/
def ForwardsFrom (s : State) (r : Request) (rest : List Request) : Prop :=
  (s.inp.a < 640 ∧ runsDefault s s.inp.a = true) ∧ (s.engine s.inp.a).queue = r :: rest

theorem execBargeForward_moves {w : Nat} (h : ForwardsFrom s r rest) (hc : r.canc = false) (hw : workingBarge s s.inp.a r = .ok w)
    (hne : w ≠ s.inp.a) (hrun : (s.proc (hartQOf w)).stopped = false) (hroom : (s.engine w).fwd.length < 64) :
    execBargeForward s = .next ((s.modEngine s.inp.a fun e => { e with queue := rest }).modEngine w fun e =>
      { e with fwd := e.fwd ++ [{ r with fwd := true }] }) := by
  obtain ⟨⟨ha, hd⟩, hq⟩ := h
  simp [execBargeForward, Nat.not_le.2 ha, hd, hq, hc, hw, hne, hrun, Nat.not_le.2 hroom]

theorem execBargeForward_cancelled (h : ForwardsFrom s r rest) (hc : r.canc = true) :
    execBargeForward s = .next (finishCopy (s.modEngine s.inp.a fun e => { e with queue := rest }) s.inp.a r CANCELLED
      (if r.op = 0x92 then r.iter else 0)) := by
  obtain ⟨⟨ha, hd⟩, hq⟩ := h
  simp [execBargeForward, Nat.not_le.2 ha, hd, hq, hc]

theorem execBargeForward_faults {c : Nat} (h : ForwardsFrom s r rest) (hc : r.canc = false)
    (hw : workingBarge s s.inp.a r = .error c) (hf : isWait c = false) :
    execBargeForward s = .next (failCopy (s.modEngine s.inp.a fun e => { e with queue := rest }) s.inp.a r c) := by
  obtain ⟨⟨ha, hd⟩, hq⟩ := h
  simp [execBargeForward, Nat.not_le.2 ha, hd, hq, hc, hw, hf]

end Forward

/-! ### A request in hand -/

theorem takeInHand_inp {s v : State} {h k c j : Nat} {r : Request} (ht : takeInHand s h k c = some (j, r, v)) : v.inp = s.inp := by
  unfold takeInHand at ht
  cases hs : (s.engine h).slots.find k with
  | some r' =>
    simp only [hs, Option.some.injEq, Prod.mk.injEq] at ht
    rw [← ht.2.2]
  | none =>
    cases hf : freeSlotOf (s.engine h) <;> cases hq : (if c = 0 then (s.engine h).queue else (s.engine h).fwd) <;>
      simp only [hs, hf, hq, reduceCtorEq] at ht
    obtain ⟨-, ht⟩ := Option.ite_none_left_eq_some.1 ht
    simp only [Option.some.injEq, Prod.mk.injEq] at ht
    rw [← ht.2.2]
    rfl

/-- Barge `a` has the request `r` of opcode `op` in hand for slot `k`, in the state `v`, and may go on with it. -/
def Serves (s : State) (op k : Nat) (r : Request) (v : State) : Prop :=
  (s.inp.a < 640 ∧ runsDefault s s.inp.a = true) ∧ takeInHand s s.inp.a s.inp.b s.inp.c = some (k, r, v) ∧ r.op = op ∧
  s.copiesFrozen (clusterOf r.q) = false

theorem execBargeCopy_serves {s v : State} {k : Nat} {r : Request} (h : Serves s 0x91 k r v) :
    execBargeCopy s = .next (runCopy v s.inp.a k r) := by
  obtain ⟨⟨ha, hd⟩, ht, hop, hz⟩ := h
  simp [execBargeCopy, Nat.not_le.2 ha, hd, ht, hop, hz]

theorem execLoopIteration_serves {s v : State} {k : Nat} {r : Request} (h : Serves s 0x92 k r v) :
    execLoopIteration s = .next (runIteration v s.inp.a k r) := by
  obtain ⟨⟨ha, hd⟩, ht, hop, hz⟩ := h
  simp [execLoopIteration, Nat.not_le.2 ha, hd, ht, hop, hz]

theorem Serves.inp {s v : State} {op k : Nat} {r : Request} (h : Serves s op k r v) : v.inp = s.inp := by
  obtain ⟨-, ht, -⟩ := h
  exact takeInHand_inp ht

/-! ### The stage of an iteration -/

/-- The stage of the iteration in hand is held (R300): `u` and `r1` are the state and the request with it bound, where the request
names a ring. -/
def Held (v : State) (r : Request) (u : State) (r1 : Request) : Prop :=
  match r.ring with
  | none => u = v ∧ r1 = r
  | some n =>
    let k := r.iter % (ringOf v (clusterOf r.q) n).nst
    r.bound.isSome = true ∧ u = v ∧ r1 = r ∨
    r.bound = none ∧ (ringOf v (clusterOf r.q) n).writable k = true ∧ u = (modRing v (clusterOf r.q) n fun x => x.bind k) ∧
      r1 = { r with bound := some k }

theorem holdStage_of_held {v u : State} {r r1 : Request} (h : Held v r u r1) : holdStage v r = (u, r1) := by
  unfold Held at h
  split at h
  next hr =>
    obtain ⟨rfl, rfl⟩ := h
    simp [holdStage, bindStage, hr]
  next n hr =>
    rcases h with ⟨hb, rfl, rfl⟩ | ⟨hb, -, rfl, rfl⟩
    · simp [holdStage, hb]
    · simp only [holdStage, hb, Option.isSome_none, Bool.false_eq_true, if_false, bindStage, hr, Prod.mk.injEq, and_true]
      exact modRing_congr rfl

/-- A request that holds its stage does not wait for it. -/
theorem stage_open_of_held {v u : State} {r r1 : Request} (h : Held v r u r1) :
    (r.bound.isNone && !stageFree v r r.iter) = false := by
  unfold Held at h
  split at h
  next hr => simp [stageFree, hr]
  next n hr =>
    rcases h with ⟨hb, -⟩ | ⟨-, hw, -⟩
    · simp [Option.isNone_iff_eq_none, Option.isSome_iff_ne_none.1 hb]
    · simp [stageFree, hr, hw]

/-- Holding a stage changes nothing of a request but what it is bound to. -/
theorem Held.request {v u : State} {r r1 : Request} (h : Held v r u r1) : ∃ b, r1 = { r with bound := b } := by
  unfold Held at h
  split at h
  · exact ⟨r.bound, h.2⟩
  · rcases h with ⟨-, -, h⟩ | ⟨-, -, -, h⟩
    · exact ⟨r.bound, h⟩
    · exact ⟨_, h⟩

theorem Held.source {v u : State} {r r1 : Request} (h : Held v r u r1) : r1.source = r.source := by
  obtain ⟨b, rfl⟩ := h.request
  rfl
theorem Held.next {v u : State} {r r1 : Request} (h : Held v r u r1) : r1.next = r.next := by
  obtain ⟨b, rfl⟩ := h.request
  rfl
theorem Held.iter {v u : State} {r r1 : Request} (h : Held v r u r1) : r1.iter = r.iter := by
  obtain ⟨b, rfl⟩ := h.request
  rfl
theorem Held.iters {v u : State} {r r1 : Request} (h : Held v r u r1) : r1.iters = r.iters := by
  obtain ⟨b, rfl⟩ := h.request
  rfl
theorem Held.writtenCount {v u : State} {r r1 : Request} (h : Held v r u r1) : writtenCount r1 = writtenCount r := by
  obtain ⟨b, rfl⟩ := h.request
  rfl

/-- The state with the stage of the iteration filled, and the request without it (R307). -/
def filledStage (t : State) (r : Request) : State :=
  match r.ring with
  | none => t
  | some n => modRing t (clusterOf r.q) n fun x => x.fill (r.iter % x.nst) r.iter
def freedStage (r : Request) : Request := if r.ring.isSome then { r with bound := none } else r

theorem fillStage_eq (t : State) (r : Request) : fillStage t r r.iter = (filledStage t r, freedStage r) := by
  unfold fillStage filledStage freedStage
  cases r.ring <;> rfl

/-! ### Elements moved -/

/-- A step that moves `n` elements, or all that are left where `n` is 0, moves the last of them. -/
def Whole (r : Request) (n : Nat) : Prop := n = 0 ∨ rCount r.source ≤ r.next + n

theorem Held.whole_iff {v u : State} {r r1 : Request} {n : Nat} (h : Held v r u r1) : Whole r1 n ↔ Whole r n := by
  rw [Whole, Whole, h.source, h.next]

theorem nextAfter_whole {r : Request} {n : Nat} (h : Whole r n) : nextAfter r n = rCount r.source := by
  unfold nextAfter
  unfold Whole at h
  split <;> omega

theorem nextAfter_part {r : Request} {n : Nat} (h : ¬ Whole r n) : nextAfter r n = r.next + n ∧ r.next + n < rCount r.source := by
  unfold nextAfter
  unfold Whole at h
  split <;> omega

/-- `moveSome` from what the elements' moves come to. -/
theorem moveSome_eq {u w t : State} {h k n : Nat} {r : Request} {out : Option (Nat × Nat)}
    (hw : copyRun u h r r.iter r.next (if n = 0 then rCount r.source - r.next else min n (rCount r.source - r.next)) = (w, out))
    (ht : t = ownStores u w (hartQOf h) k) : moveSome u h k r n = (t, out) := by
  simp [moveSome, hw, ht]

section Copy
variable {s t u v : State} {h k n c j : Nat} {r r1 : Request}

/-! ### The end of a copy -/

theorem settleCopy_done (hd : storesDone s (hartQOf h) k = true) (hl : c = 0 → storesLost s (hartQOf h) k = false) :
    settleCopy s h k r c n = endSlot (dropStores s (hartQOf h) k) h k r c n := by
  have hlost : (storesLost s (hartQOf h) k && c == DONE) = false := by
    by_cases hc : c = 0
    · rw [hl hc, Bool.false_and]
    · simp [DONE, hc]
  simp [settleCopy, hd, hlost]

theorem settleCopy_waits (hd : storesDone s (hartQOf h) k = false) :
    settleCopy s h k r c n = s.modEngine h fun e => { e with slots := e.slots.put k { r with fin := some (c, n) } } := by
  simp [settleCopy, hd]

/-! ### What follows some elements of a copy -/

theorem afterCopy_whole (hw : Whole r n) :
    afterCopy h k n r (t, none) = settleCopy (filledStage t r) h k (freedStage r) DONE (writtenCount r) := by
  simp [afterCopy, nextAfter_whole hw, fillStage_eq]

theorem afterCopy_part (hw : ¬ Whole r n) :
    afterCopy h k n r (t, none) = t.modEngine h fun e => { e with slots := e.slots.put k { r with next := r.next + n } } := by
  simp [afterCopy, nextAfter_part hw]

theorem afterCopy_fails (hc : isWait c = false) :
    afterCopy h k n r (t, some (c, j)) = settleCopy (forgetStalls (leaveCopy t h r (rCount r.source)) (hartQOf h) c) h k r c j := by
  simp [afterCopy, hc]

/-! ### One CPY (R300) -/

theorem runCopy_finished (hf : r.fin = some (c, n)) : runCopy s h k r = settleCopy s h k r c n := by
  simp [runCopy, hf]

theorem runCopy_cancelled (hf : r.fin = none) (hk : r.killed = false) (hc : r.canc = true) :
    runCopy s h k r = settleCopy (leaveCopy s h r (begun r)) h k r CANCELLED r.next := by
  simp [runCopy, hf, hk, hc]

theorem runCopy_moves (hg : r.fin = none ∧ r.killed = false ∧ r.canc = false) (hh : Held s r u r1) :
    runCopy s h k r = afterCopy h k s.inp.w.toNat r1 (moveSome u h k r1 s.inp.w.toNat) := by
  obtain ⟨hf, hk, hc⟩ := hg
  simp [runCopy, hf, hk, hc, stage_open_of_held hh, holdStage_of_held hh]

/-! ### One iteration of a looping copy (R301) -/

theorem afterIteration_whole (hw : Whole r n) :
    afterIteration h k n r (t, none) =
      if r.iter + 1 = r.iters then
        endSlot (filledStage t r) h k { freedStage r with iter := r.iter + 1, next := 0 } DONE (r.iter + 1)
      else (filledStage t r).modEngine h fun e =>
        { e with slots := e.slots.put k { freedStage r with iter := r.iter + 1, next := 0 } } := by
  have hi : (freedStage r).iters = r.iters := by unfold freedStage; split <;> rfl
  rw [← hi]
  simp only [afterIteration, nextAfter_whole hw, Nat.lt_irrefl, if_false, fillStage_eq]
  rfl

theorem afterIteration_part (hw : ¬ Whole r n) :
    afterIteration h k n r (t, none) = t.modEngine h fun e => { e with slots := e.slots.put k { r with next := r.next + n } } := by
  simp [afterIteration, nextAfter_part hw]

theorem afterIteration_fails (hc : isWait c = false) :
    afterIteration h k n r (t, some (c, j)) =
      endSlot (forgetStalls (leaveCopy t h r (rCount r.source)) (hartQOf h) c) h k r c r.iter := by
  simp [afterIteration, hc]

theorem runIteration_cancelled (hk : r.killed = false) (hc : r.canc = true) :
    runIteration s h k r = endSlot (leaveCopy s h r (begun r)) h k r CANCELLED r.iter := by
  simp [runIteration, hk, hc]

theorem runIteration_moves (hk : r.killed = false) (hc : r.canc = false) (hh : Held s r u r1) :
    runIteration s h k r = afterIteration h k s.inp.w.toNat r1 (moveSome u h k r1 s.inp.w.toNat) := by
  simp [runIteration, hk, hc, stage_open_of_held hh, holdStage_of_held hh]

end Copy

/-! ### The steps, from a request in hand -/

section Step
variable {s t u v w : State} {k : Nat} {r r1 : Request} {out : Option (Nat × Nat)}

/-- The elements that the step moves of `r1` from the state `u`, as `copyRun` performs them, lead to `t` and come to `out`. -/
def Moves (s u : State) (k : Nat) (r : Request) (t : State) (out : Option (Nat × Nat)) : Prop :=
  let m := rCount r.source - r.next
  ∃ w, copyRun u s.inp.a r r.iter r.next (if s.inp.w.toNat = 0 then m else min s.inp.w.toNat m) = (w, out) ∧
    t = ownStores u w (hartQOf s.inp.a) k

theorem Moves.moveSome (h : Moves s u k r t out) : moveSome u s.inp.a k r s.inp.w.toNat = (t, out) := by
  obtain ⟨w, hw, ht⟩ := h
  exact moveSome_eq hw ht

theorem execBargeCopy_moves (h : Serves s 0x91 k r v) (hg : r.fin = none ∧ r.killed = false ∧ r.canc = false)
    (hh : Held v r u r1) (hm : Moves s u k r1 t out) : execBargeCopy s = .next (afterCopy s.inp.a k s.inp.w.toNat r1 (t, out)) := by
  rw [execBargeCopy_serves h, runCopy_moves hg hh, h.inp, hm.moveSome]

theorem execLoopIteration_moves (h : Serves s 0x92 k r v) (hk : r.killed = false) (hc : r.canc = false)
    (hh : Held v r u r1) (hm : Moves s u k r1 t out) :
    execLoopIteration s = .next (afterIteration s.inp.a k s.inp.w.toNat r1 (t, out)) := by
  rw [execLoopIteration_serves h, runIteration_moves hk hc hh, h.inp, hm.moveSome]

end Step

/-- Settles O45: one case for each way that BARGE_FORWARD, BARGE_COPY and LOOP_ITERATION go on. -/
theorem bargeStepsComplete : Obligations.BargeStepsComplete := by
  unfold Obligations.BargeStepsComplete
  intro runs q serves goes ended held moves whole filled freed kept
  refine ⟨?_, ?_, ?_, ?_, ?_, ?_, ?_, ?_, ?_, ?_, ?_, ?_, ?_⟩
  · rintro r rest w s ⟨hr, hq, hc, hw, hne, hrun, hroom⟩
    exact execBargeForward_moves ⟨hr, hq⟩ hc hw hne hrun hroom
  · rintro r rest s ⟨hr, hq, hc⟩
    exact execBargeForward_cancelled ⟨hr, hq⟩ hc
  · rintro r rest c s ⟨hr, hq, hc, hw, hf⟩
    exact execBargeForward_faults ⟨hr, hq⟩ hc hw hf
  · rintro k r v u r1 t s ⟨hs, hg, (hh : Held v r u r1), hm, hw, hd, hl⟩
    refine (execBargeCopy_moves hs hg hh hm).trans ?_
    rw [afterCopy_whole (hh.whole_iff.2 hw), hh.writtenCount]
    exact congrArg _ (settleCopy_done hd fun _ => hl)
  · rintro k r v u r1 t s ⟨hs, hg, (hh : Held v r u r1), hm, hw, hd⟩
    refine (execBargeCopy_moves hs hg hh hm).trans ?_
    rw [afterCopy_whole (hh.whole_iff.2 hw), hh.writtenCount]
    exact congrArg _ (settleCopy_waits hd)
  · rintro k r v c n s ⟨hs, hf, hd, hl⟩
    refine (execBargeCopy_serves hs).trans ?_
    rw [runCopy_finished hf, settleCopy_done hd hl]
    rfl
  · rintro k r v u r1 t s ⟨hs, hg, (hh : Held v r u r1), hm, hw⟩
    refine (execBargeCopy_moves hs hg hh hm).trans ?_
    rw [afterCopy_part (mt hh.whole_iff.1 hw), hh.next]
  · rintro k r v u r1 t c j s ⟨hs, hg, (hh : Held v r u r1), hm, hf, hc, hd⟩
    refine (execBargeCopy_moves hs hg hh hm).trans ?_
    rw [afterCopy_fails hf, hh.source]
    exact congrArg _ (settleCopy_done hd fun h0 => absurd h0 hc)
  · rintro k r v w s ⟨hs, hf, hk, hc, rfl, hd⟩
    refine (execBargeCopy_serves hs).trans ?_
    rw [runCopy_cancelled hf hk hc]
    exact congrArg _ (settleCopy_done hd fun h0 => absurd h0 (by decide))
  · rintro k r v u r1 t s ⟨hs, hk, hc, (hh : Held v r u r1), hm, hw⟩
    refine (execLoopIteration_moves hs hk hc hh hm).trans ?_
    rw [afterIteration_whole (hh.whole_iff.2 hw), hh.iter, hh.iters]
    rfl
  · rintro k r v u r1 t s ⟨hs, hk, hc, (hh : Held v r u r1), hm, hw⟩
    refine (execLoopIteration_moves hs hk hc hh hm).trans ?_
    rw [afterIteration_part (mt hh.whole_iff.1 hw), hh.next]
  · rintro k r v u r1 t c j s ⟨hs, hk, hc, (hh : Held v r u r1), hm, hf⟩
    refine (execLoopIteration_moves hs hk hc hh hm).trans ?_
    rw [afterIteration_fails hf, hh.source, hh.iter]
    rfl
  · rintro k r v s ⟨hs, hk, hc⟩
    refine (execLoopIteration_serves hs).trans ?_
    rw [runIteration_cancelled hk hc]
    rfl

end Sys2Proof.Machine

namespace Sys2Proof.Machine

/-! ## The steps of a Pontoon job and of tuning (R323 to R353) -/

/-! ### The Pontoon state of a cluster -/

theorem FMap.put_put {α : Type} (m : FMap α) (k : Nat) (x y : α) : FMap.put (FMap.put m k x) k y = FMap.put m k y := by
  induction m with
  | nil => simp [FMap.put]
  | cons e m ih =>
    obtain ⟨j, z⟩ := e
    by_cases hk : k = j
    · simp [FMap.put, hk]
    · by_cases hl : k < j
      · simp [FMap.put, hk, hl]
      · simp [FMap.put, hk, hl, ih]

@[simp] theorem State.modPontoon_same (s : State) (gc : Nat) (f : Pontoon → Pontoon) :
    (s.modPontoon gc f).pontoon gc = f (s.pontoon gc) := by
  simp [State.pontoon, State.modPontoon]

/-- Two changes of one engine are one. -/
theorem State.modPontoon_modPontoon (s : State) (gc : Nat) (f g : Pontoon → Pontoon) :
    (s.modPontoon gc f).modPontoon gc g = s.modPontoon gc (g ∘ f) := by
  simp only [State.modPontoon, State.modCluster, State.setCluster_same]
  simp only [State.setCluster, FMap.put_put]
  rfl

theorem State.modPontoon_congr {s : State} {gc : Nat} {f g : Pontoon → Pontoon} (h : f (s.pontoon gc) = g (s.pontoon gc)) :
    s.modPontoon gc f = s.modPontoon gc g :=
  congrArg (fun po => s.setCluster gc { s.cluster gc with pontoon := po }) h

theorem setJob_job (s : State) (gc : Nat) (j : PJob) : ((setJob s gc j).pontoon gc).job = some j := by simp [setJob]

theorem fld_low (x : Word) (w : Nat) : fld x 0 w = x.toNat % 2 ^ w := by simp [fld, bits]

/-! ### Reading a source (R125, R331) -/

/-- How many of `left` bytes a step reads: `k` lines, or all where `k` is 0. -/
def pieceOf (k left : Nat) : Nat := if k = 0 then left else min left (32 * k)

section Source
variable {s w : State} {gc len k n t : Nat} {r : Request} {va : Word} {before bs : List Byte}

theorem fetchSome_data (hn : n = pieceOf k (len - before.length))
    (hr : pontoonRead s gc r (va + BitVec.ofNat 64 before.length) n = .ok (w, bs)) (hall : n = len - before.length) :
    fetchSome s gc r va len k before = .data w (before ++ bs) := by
  unfold pieceOf at hn
  simp only [fetchSome, ← hn, hr]
  rw [if_neg (by omega)]

theorem fetchSome_some (hn : n = pieceOf k (len - before.length))
    (hr : pontoonRead s gc r (va + BitVec.ofNat 64 before.length) n = .ok (w, bs)) (hpart : n < len - before.length) :
    fetchSome s gc r va len k before = .some w (before ++ bs) := by
  unfold pieceOf at hn
  simp [fetchSome, ← hn, hr, hpart]

/-- The engine owns stage `k` of ring `x`, the one of iteration `t`, and it is that iteration's (R331). -/
def OwnsStage (s : State) (gc n t : Nat) (x : Ring) (k : Nat) : Prop :=
  x = ringOf s gc n ∧ k = t % x.nst ∧ (x.stage k).own ≤ x.np ∧ x.kind (x.stage k).own = 2 ∧ (x.stage k).tag = t % 2 ^ 16

theorem acquireStage_owned {x : Ring} (h : OwnsStage s gc n t x k) :
    acquireStage s gc n t len = .data s ((List.range len).map fun i => s.byteAt (spKey gc (x.base k + i))) := by
  obtain ⟨rfl, rfl, hown, hkind, htag⟩ := h
  simp [acquireStage, Nat.not_lt.2 hown, hkind, htag, upTo]

theorem engineRelease_owned {u : State} {x : Ring} (h : OwnsStage s gc n t x k) (hu : u.clusters = s.clusters) :
    engineRelease u gc n t = modRing u gc n fun y => if (y.stage k).own = 0 then y.fill k t else y.release k := by
  obtain ⟨rfl, rfl, -⟩ := h
  have hring : ringOf u gc n = ringOf s gc n := by simp only [ringOf, State.cluster, hu]
  rw [← hring]
  exact modRing_congr rfl

end Source

/-! ### JOB_START (R329) -/

/-- The job that a record begins: cancelled, or of an engine that cannot serve, it has failed already. -/
def newJob (s : State) (gc : Nat) (r : Request) : PJob :=
  { req := r, fail := if r.canc then some CANCELLED else if engineDown s gc then some ENGINE_UNAVAILABLE else none }

/-- The state once the sequencer of `gc` has taken `r` from its queue, which leaves `rest` (R20, R104). -/
def takenRecord (s : State) (gc : Nat) (r : Request) (rest : List Request) : State :=
  (s.modEngine (seqHart gc) fun e => { e with queue := rest }).modProc (hartQOf (seqHart gc)) fun p => { p with vf := r.vf }

section Start
variable {s : State} {r : Request} {rest : List Request}

/-- The sequencer of cluster `a` may take the job record `r`, the oldest of its queue. -/
def StartsJob (s : State) (r : Request) (rest : List Request) : Prop :=
  s.inp.a < Config.clusters ∧ (s.proc (hartQOf (seqHart s.inp.a))).stopped = false ∧ (s.pontoon s.inp.a).tow = none ∧
  (s.engine (seqHart s.inp.a)).queue = r :: rest ∧ r.op = 0x9F

theorem execJobStart_idle (h : StartsJob s r rest) (hj : (s.pontoon s.inp.a).job = none) :
    execJobStart s = .next ((takenRecord s s.inp.a r rest).modPontoon s.inp.a fun po =>
      { po with job := some (newJob s s.inp.a r) }) := by
  obtain ⟨ha, hrun, htow, hq, hop⟩ := h
  simp only [execJobStart, Nat.not_le.2 ha, hrun, htow, hq, hop, hj, Option.isSome_none, Bool.false_eq_true, or_self, if_false,
    ne_eq, not_true_eq_false, reduceCtorEq]
  rfl

theorem execJobStart_behind {j : PJob} (h : StartsJob s r rest) (hj : (s.pontoon s.inp.a).job = some j)
    (ht : (s.pontoon s.inp.a).tail = none) (hdr : j.draining = true) (hnext : j.next = j.req.depth) (hf : j.fail = none) :
    execJobStart s = .next ((takenRecord s s.inp.a r rest).modPontoon s.inp.a fun po =>
      { po with tail := some j, job := some (newJob s s.inp.a r) }) := by
  obtain ⟨ha, hrun, htow, hq, hop⟩ := h
  simp [execJobStart, Nat.not_le.2 ha, hrun, htow, hq, hop, hj, ht, hdr, hnext, hf, newJob, takenRecord]

end Start

/-! ### TILE_LOAD (R324, R331) -/

/-- Where the next tile of a job comes from, and what reading it comes to. -/
def tileSource (s : State) (gc : Nat) (j : PJob) : Fetched :=
  let q := j.ksteps + j.tiles.length
  if j.req.wk then acquireStage s gc (fld (j.req.dw 3) 0 4) (fld (j.req.dw 3) 16 16 + q) 1024
  else fetchSome s gc j.req (j.req.base + BitVec.ofNat 64 (1024 * q)) 1024 s.inp.w.toNat j.got

section Load
variable {s w : State} {j : PJob} {bs : List Byte}

/-- The job in hand of cluster `a` has room for a tile, and one left to load. -/
def Loads (s : State) (j : PJob) : Prop :=
  runningJob s s.inp.a = some j ∧ j.tiles.length < 2 ∧ j.ksteps + j.tiles.length < j.req.kst

theorem execTileLoad_data (h : Loads s j) (hs : tileSource s s.inp.a j = .data w bs) (hok : bs.contains 0x80 = false) :
    execTileLoad s = .next (setJob
      (if j.req.wk then engineRelease w s.inp.a (fld (j.req.dw 3) 0 4) (fld (j.req.dw 3) 16 16 + (j.ksteps + j.tiles.length)) else w)
      s.inp.a { j with tiles := j.tiles ++ [bs.map fun b => b.toInt], got := [] }) := by
  obtain ⟨hj, hroom, hleft⟩ := h
  unfold tileSource at hs
  simp only [execTileLoad, hj, Nat.not_le.2 hroom, Nat.not_le.2 hleft, or_self, if_false, hs, hok, Bool.false_eq_true]

theorem execTileLoad_badCode (h : Loads s j) (hwk : j.req.wk = false) (hs : tileSource s s.inp.a j = .data w bs)
    (hbad : bs.contains 0x80 = true) : execTileLoad s = .next (failJob w s.inp.a j WEIGHT_CODE) := by
  obtain ⟨hj, hroom, hleft⟩ := h
  simp only [tileSource, hwk, Bool.false_eq_true, if_false] at hs
  simp only [execTileLoad, hj, Nat.not_le.2 hroom, Nat.not_le.2 hleft, or_self, if_false, hs, hbad, hwk, Bool.false_eq_true, if_true]

theorem execTileLoad_part (h : Loads s j) (hs : tileSource s s.inp.a j = .some w bs) :
    execTileLoad s = .next (setJob w s.inp.a { j with got := bs }) := by
  obtain ⟨hj, hroom, hleft⟩ := h
  unfold tileSource at hs
  simp only [execTileLoad, hj, Nat.not_le.2 hroom, Nat.not_le.2 hleft, or_self, if_false, hs]

theorem tileSource_memory (hwk : j.req.wk = false) : tileSource s s.inp.a j =
    fetchSome s s.inp.a j.req (j.req.base + BitVec.ofNat 64 (1024 * (j.ksteps + j.tiles.length))) 1024 s.inp.w.toNat j.got := by
  simp [tileSource, hwk]

theorem tileSource_stage {x : Ring} {k : Nat} (hwk : j.req.wk = true)
    (h : OwnsStage s s.inp.a (fld (j.req.dw 3) 0 4) (fld (j.req.dw 3) 16 16 + (j.ksteps + j.tiles.length)) x k) :
    tileSource s s.inp.a j = .data s ((List.range 1024).map fun i => s.byteAt (spKey s.inp.a (x.base k + i))) := by
  rw [← acquireStage_owned h]
  simp [tileSource, hwk]

end Load

/-! ### TILE_STREAM (R323) -/

/-- Where the activations of the next k-step come from, and what reading them comes to. -/
def actSource (s : State) (gc : Nat) (j : PJob) : Fetched :=
  let len := 32 * j.req.depth
  if j.req.ik then acquireStage s gc (fld (j.req.dw 3) 8 4) (fld (j.req.dw 3) 32 16 + j.ksteps) len
  else fetchSome s gc j.req (j.req.dw 2 + BitVec.ofNat 64 (len * j.ksteps)) len s.inp.w.toNat j.acts

/-- The job once the tile `tile` has streamed against the activations `bs`, with free values from `k` on and in drift state `drift`. -/
def streamed (drift k : Nat) (j : PJob) (tile : List Int) (rest : List (List Int)) (bs : List Byte) : PJob :=
  { j with
    n := streamTile tile j.req.split j.req.gain j.req.shift j.req.depth (codeBound drift) k
      (fun b => ((bs.drop (32 * b)).take 32).map BitVec.toNat) 0 j.n
    cs := (upTo 32).foldl (fun m i => m.put i (m.get i 0 + rowSum tile i (List.replicate 32 1))) j.cs
    tiles := rest, acts := [], ksteps := j.ksteps + 1, worst := max j.worst (min drift 1) }

/-- The state with the free values of a k-step taken. -/
def drewTile (w : State) (r : Request) : State := { w with freeCtr := w.freeCtr + streamFree r.split r.depth }

theorem drewTile_eq (w : State) (r : Request) :
    drewTile w r = { w with freeCtr := w.freeCtr + (passes r.split).length * (r.depth * 32) } := by
  rw [drewTile, streamFree, Nat.mul_assoc]

section Stream
variable {s w : State} {j : PJob} {tile : List Int} {rest : List (List Int)} {bs : List Byte}

/-- The first loaded tile of the job in hand of cluster `a` may stream: no park is pending (R339, R343). -/
def Streams (s : State) (j : PJob) (tile : List Int) (rest : List (List Int)) : Prop :=
  runningJob s s.inp.a = some j ∧ j.tiles = tile :: rest ∧ (s.pontoon s.inp.a).preempt = false ∧ (s.pontoon s.inp.a).drift < 2

/-- The k-step in hand promotes only once the rows of the job before it have left (R335). -/
def PromotesFreely (s : State) (j : PJob) : Prop := (j.ksteps + 1) % j.req.interval ≠ 0 ∨ (s.pontoon s.inp.a).tail = none

theorem execTileStream_data (h : Streams s j tile rest) (hp : PromotesFreely s j) (hs : actSource s s.inp.a j = .data w bs) :
    execTileStream s = .next (promoteJob s
      (if j.req.ik then engineRelease (drewTile w j.req) s.inp.a (fld (j.req.dw 3) 8 4) (fld (j.req.dw 3) 32 16 + j.ksteps)
        else drewTile w j.req)
      s.inp.a (streamed (s.pontoon s.inp.a).drift w.freeCtr j tile rest bs)) := by
  obtain ⟨hj, htiles, hpre, hdrift⟩ := h
  unfold actSource at hs
  rcases hp with hp | hp <;>
    simp only [execTileStream, hj, htiles, hpre, Nat.not_le.2 hdrift, hp, hs, decide_false, Bool.false_and, Bool.and_false,
      Bool.false_eq_true, or_self, if_false] <;>
    rfl

theorem execTileStream_part (h : Streams s j tile rest) (hp : PromotesFreely s j) (hs : actSource s s.inp.a j = .some w bs) :
    execTileStream s = .next (setJob w s.inp.a { j with acts := bs }) := by
  obtain ⟨hj, htiles, hpre, hdrift⟩ := h
  unfold actSource at hs
  rcases hp with hp | hp <;>
    simp only [execTileStream, hj, htiles, hpre, Nat.not_le.2 hdrift, hp, hs, decide_false, Bool.false_and, Bool.and_false,
      Bool.false_eq_true, or_self, if_false]

theorem actSource_memory (hik : j.req.ik = false) : actSource s s.inp.a j =
    fetchSome s s.inp.a j.req (j.req.dw 2 + BitVec.ofNat 64 (32 * j.req.depth * j.ksteps)) (32 * j.req.depth) s.inp.w.toNat j.acts := by
  simp [actSource, hik]

theorem actSource_stage {x : Ring} {k : Nat} (hik : j.req.ik = true)
    (h : OwnsStage s s.inp.a (fld (j.req.dw 3) 8 4) (fld (j.req.dw 3) 32 16 + j.ksteps) x k) :
    actSource s s.inp.a j =
      .data s ((List.range (32 * j.req.depth)).map fun i => s.byteAt (spKey s.inp.a (x.base k + i))) := by
  rw [← acquireStage_owned h]
  simp [actSource, hik]

theorem promoteJob_inside {old : State} {gc : Nat} (h : j.ksteps % j.req.interval ≠ 0) : promoteJob old s gc j = setJob s gc j := by
  simp [promoteJob, h]

/-! ### Promotion (R323, R325) -/

/-- A promotion reads the scales and corrections of its 32 rows only. -/
theorem promoteAll_congr {n : FMap Int} {a : FMap Nat} {bnd g sh u : Nat} {ctl : RCtl} {sc sc' : Nat → Nat} {c c' : Nat → Int}
    (hsc : ∀ i < 32, sc i = sc' i) (hc : ∀ i < 32, c i = c' i) :
    promoteAll n a bnd g sh u ctl sc c = promoteAll n a bnd g sh u ctl sc' c' := by
  unfold promoteAll
  refine List.foldl_ext _ _ _ fun acc i hi => ?_
  have hi' : i < 32 := by simpa [upTo] using hi
  rw [hsc i hi', hc i hi']

theorem jobCorrection_eq (j : PJob) (i : Nat) : jobCorrection j i =
    if j.req.split = 1 then 128 * j.cs.get i 0 else if j.req.split = 2 then j.req.zp * j.cs.get i 0 else 0 := by
  unfold jobCorrection
  split
  next h => simp [h]
  next h => simp [h]
  next h1 h2 => rw [if_neg h1, if_neg h2]

/-- A job whose one scale stands in its record is promoted at once. -/
theorem promoteJob_scalar {old : State} {gc : Nat} (h : j.ksteps % j.req.interval = 0) (hscm : j.req.scm = false) :
    promoteJob old s gc j =
      let e := promoteAll j.n j.a j.req.depth j.req.gain j.req.shift (j.ksteps / j.req.interval - 1) j.req.ctl
        (fun _ => (j.req.dw 4).toNat % 2 ^ 32)
        fun i => if j.req.split = 1 then 128 * j.cs.get i 0 else if j.req.split = 2 then j.req.zp * j.cs.get i 0 else 0
      setJob s gc { j with a := e.1, n := [], cs := [], flags := j.flags ||| e.2, promos := j.promos + 1 } := by
  have hsc : ∀ i < 32, (List.replicate 32 (fld (j.req.dw 4) 0 32)).getD i 0 = (j.req.dw 4).toNat % 2 ^ 32 :=
    fun i hi => (List.getD_replicate _ hi).trans (fld_low _ _)
  simp only [promoteJob, h, ne_eq, not_true_eq_false, if_false, jobScales, hscm, Bool.not_false, if_true,
    promoteAll_congr hsc fun i _ => jobCorrection_eq j i]

end Stream

/-! ### ROW_DISPATCH of a job (R332) -/

theorem execRowDispatch_job {s : State} {j : PJob} {g : Nat} (hrun : (s.proc (hartQOf (seqHart s.inp.a))).stopped = false)
    (htow : (s.pontoon s.inp.a).tow = none) (hj : (s.pontoon s.inp.a).job = some j) (hz : s.frozen s.inp.a = false)
    (hdr : j.draining = true) (hnext : j.next < j.req.depth) (hf : j.fail = none) (hpre : (s.pontoon s.inp.a).preempt = false)
    (hout : rowsOutstanding (s.pontoon s.inp.a) < 8) (hg : rowTarget s s.inp.a j.req = some g) (hoen : j.req.oen = false) :
    execRowDispatch s = .next (setJob (startHandler s g s.inp.a j.next j.req j.a j.req.rid (j.req.dw 5) (j.req.dw 6) none false)
      s.inp.a { j with next := j.next + 1, out := j.out ++ [j.next] }) := by
  simp [execRowDispatch, dispatchRow, dispatchJobRow, bindRow, hrun, htow, hj, hz, hdr, Nat.not_le.2 hnext, hf, hpre,
    Nat.not_le.2 hout, hg, hoen]

/-! ### The end of a job (R337, R338) -/

section End
variable {s : State} {j : PJob}

theorem draining_of_eq (h : j.ksteps = j.req.kst) : j.draining = true := by simp [PJob.draining, h]

theorem jobDone_of {gc : Nat} (hk : j.ksteps = j.req.kst) (hrel : j.rel.length = j.req.depth)
    (hl : handlerLive s gc (ofJob j) = false) : jobDone s gc j = true := by
  simp [jobDone, draining_of_eq hk, hrel, hl]

theorem execJobComplete_inHand (ht : (s.pontoon s.inp.a).tail = none) (hj : (s.pontoon s.inp.a).job = some j) (hf : j.fail = none)
    (hd : jobDone s s.inp.a j = true) : execJobComplete s =
      .next (afterJob s.inp.a (endJob (s.modPontoon s.inp.a fun po => { po with job := none }) s.inp.a j DONE)) := by
  simp [execJobComplete, ht, hj, hf, hd]

theorem execJobComplete_tail (ht : (s.pontoon s.inp.a).tail = some j) (hd : jobDone s s.inp.a j = true) : execJobComplete s =
      .next (endJob (s.modPontoon s.inp.a fun po => { po with tail := none }) s.inp.a j (j.fail.getD DONE)) := by
  simp [execJobComplete, ht, hd]

theorem execJobFailure_ends {c : Nat} (ht : (s.pontoon s.inp.a).tail = none) (hj : (s.pontoon s.inp.a).job = some j)
    (hf : j.fail = some c) (hl : handlerLive s s.inp.a (ofJob j) = false) : execJobFailure s =
      .next (afterJob s.inp.a (endJob (s.modPontoon s.inp.a fun po => { po with job := none }) s.inp.a j c)) := by
  simp [execJobFailure, ht, hj, hf, hl]

/-! ### JOB_PARK (R339, R343) -/

theorem execJobPark_preempt (hz : s.frozen s.inp.a = false) (hj : runningJob s s.inp.a = some j)
    (hp : (s.pontoon s.inp.a).preempt = true) :
    execJobPark s = .next (setJob s s.inp.a { j with parked := 1, parkedOnce := true }) := by
  simp [execJobPark, hz, hj, hp]

theorem execJobPark_retune (hz : s.frozen s.inp.a = false) (hj : runningJob s s.inp.a = some j)
    (hp : (s.pontoon s.inp.a).preempt = false) (hd : 2 ≤ (s.pontoon s.inp.a).drift) :
    execJobPark s = .next (raiseDrift (s.modPontoon s.inp.a fun po => { po with
      job := some { j with parked := 2, parkedOnce := true }, drift := 3, round := 0 }) s.inp.a DRIFT_RETUNE) := by
  simp [execJobPark, hz, hj, hp, hd, setJob, State.modPontoon_modPontoon, Function.comp_def]

end End

/-! ### Readings, settling, thresholds, calibration (R342, R343, R348) -/

theorem heatOld_of {s : State} {po : Pontoon} {i : Nat} (h : ∀ x, po.lastHeat.find i = some x → x.toNat + 8192 ≤ s.tide.toNat) :
    heatOld s po i = true := by
  unfold heatOld
  split
  next => rfl
  next x hx => exact decide_eq_true (h x hx)

section Tuning
variable {s : State}

theorem execDriftEstimate_reads (ha : s.inp.a < Config.clusters) (hb : s.inp.b < 32) (hc : s.inp.c = 0)
    (hold : heatOld s (s.pontoon s.inp.a) s.inp.b = true) : execDriftEstimate s =
      .next (driftMove (s.modPontoon s.inp.a fun po => { po with
        det := (upTo 32).foldl (fun m r => m.put (32 * s.inp.b + r) (s.inp.ints.getD r 0)) po.det }) s.inp.a) := by
  simp only [execDriftEstimate, Nat.not_le.2 ha, Nat.not_le.2 hb, hc, hold, or_self, if_false, if_true, Bool.not_true,
    Bool.false_eq_true]
  exact congrArg (fun t => Host.Outcome.next (driftMove t s.inp.a)) (State.modPontoon_congr rfl)

theorem execBankSettled_settles (ha : s.inp.a < Config.clusters) (hb : s.inp.b < 32)
    (hs : (s.pontoon s.inp.a).settled.contains s.inp.b = false) (hold : heatOld s (s.pontoon s.inp.a) s.inp.b = true) :
    execBankSettled s = .next (s.modPontoon s.inp.a fun po => { po with settled := po.settled ++ [s.inp.b] }) := by
  simp only [execBankSettled, ha, hb, hs, hold, Bool.not_false, and_self, if_true]

theorem setPthrs_valid {gc : Nat} {v : Word} (hw : 0 < fld v 0 16) (hr : fld v 0 16 < fld v 16 16) (hmax : fld v 16 16 ≤ 4095) :
    setPthrs s gc v = s.modCluster gc fun c => { c with warn := fld v 0 16, retn := fld v 16 16 } := by
  unfold setPthrs
  rw [if_neg (by omega)]

theorem execPthrsWrite_valid (ha : s.inp.a < Config.clusters) (hw : 0 < s.inp.w.toNat % 2 ^ 16)
    (hr : s.inp.w.toNat % 2 ^ 16 < s.inp.w.toNat / 2 ^ 16 % 2 ^ 16) (hmax : s.inp.w.toNat / 2 ^ 16 % 2 ^ 16 ≤ 4095) :
    execPthrsWrite s = .next (s.modCluster s.inp.a fun c =>
      { c with warn := s.inp.w.toNat % 2 ^ 16, retn := s.inp.w.toNat / 2 ^ 16 % 2 ^ 16 }) := by
  rw [← fld_low] at hw hr ⊢
  rw [execPthrsWrite, if_pos ha, setPthrs_valid hw hr hmax]
  rfl

theorem endCal_ofs {gc q : Nat} (hp : (s.pontoon gc).pcal = some (false, q)) :
    ((endCal s gc).pontoon gc).pcal = none ∧ ((endCal s gc).pontoon gc).pcalDone = some (q, 0) := by
  simp [endCal, hp]

theorem endCal_bringUp {gc : Nat} (hp : (s.pontoon gc).pcal = none) : ((endCal s gc).cluster gc).pontoonUp = true := by
  simp [endCal, hp]

theorem execPcalComplete_ends (ha : s.inp.a < Config.clusters)
    (h : (s.pontoon s.inp.a).pcal.isSome = true ∨ (s.cluster s.inp.a).pontoonUp = false) :
    execPcalComplete s = .next (endCal s s.inp.a) := by
  unfold execPcalComplete
  rw [if_pos ⟨ha, h⟩]

/-! ### SETTLE_TIMEOUT (R347) -/

/-- What a head that may run answers when its agent, in no gang, raises a trap in it. -/
theorem exec_alone_traps {i : Instr} {body : Eff Next} {s t : State} {c : Nat} {v : Word} (h : ready s i = true)
    (ha : alone s = true) (hb : body (beginHead s i) = .error (.trap c v) t) (hcur : t.cur = s.cur) :
    frame i true body s = trapHead (beginHead s i) [(s.cur, c, v)] (beginHead s i).me.r.pc := by
  obtain ⟨h1, h2, h3, h4, _, h6, _⟩ := (ready_iff s i).1 h
  have m : members s s.cur = [s.cur] := by simpa [alone] using ha
  rw [m] at h4
  have k : ({ beginHead s i with cur := s.cur } : State) = beginHead s i := by rw [← beginHead_cur s i]
  have hrun : runMembers [s.cur] body (beginHead s i) = .error (.trap c v) t := by
    simp only [runMembers, runMembersFrom, k, hb]
  have hms : ([s.cur].filter fun m => (s.proc m).wait != .pushed) = [s.cur] := by
    have := ready_filter h false
    simpa using this
  unfold frame
  simp only [h1, h2, h3, h4, h6, m, hms, hrun, Bool.not_true, Bool.false_eq_true, if_false, if_true, settle, trapMembers, hcur]
  rfl

section SettleTimeout
variable {s : State} {a b : BitVec 6} {go : Bool} {tm : BitVec 16} {since : Word} {i : Nat}

/-- A PSETTLE past its timeout traps with the lowest bank that has not settled. -/
theorem execPsettle_times_out (h : ready s (.psettle a b go tm) = true) (ha : alone s = true) (htm : tm ≠ 0)
    (hw : (beginHead s (.psettle a b go tm)).me.wait = .engine since) (hlate : since.toNat + 1024 * tm.toNat ≤ s.tide.toNat)
    (hi : ((upTo 32).filter fun k => ((beginHead s (.psettle a b go tm)).myReg b).getLsbD k &&
      !((beginHead s (.psettle a b go tm)).pontoon (clusterOf s.cur)).settled.contains k).head? = some i) :
    execPsettle a b go tm s = .next (trapHead (beginHead s (.psettle a b go tm)) [(s.cur, SETTLE_TIMEOUT, BitVec.ofNat 64 i)]
      (beginHead s (.psettle a b go tm)).me.r.pc) := by
  have htide := (beginHead_inner s (.psettle a b go tm)).tide
  have hcur := beginHead_cur s (.psettle a b go tm)
  obtain ⟨is, his⟩ := List.head?_eq_some_iff.1 hi
  refine congrArg _ (exec_alone_traps h ha (t := beginHead s (.psettle a b go tm)) ?_ hcur)
  simp only [Eff.bind_apply, gr_apply, Eff.get_apply, htm, if_false, hcur, his, hw, htide, hlate, if_true]
  rfl

theorem execSettleTimeout_traps {v : State} (hv : currentInstr s s.inp.a = some (v, .psettle a b go tm))
    (hw : (s.proc s.inp.a).wait = .engine since) (hlate : since.toNat + 1024 * tm.toNat ≤ s.tide.toNat) :
    execSettleTimeout s = execPsettle a b go tm { v with cur := s.inp.a } := by
  simp only [execSettleTimeout, hv, hw, hlate, if_true]

end SettleTimeout

/-! ### The sequencer's own retune (R353) -/

/-- The banks at or past the retune threshold of a cluster. -/
def retuneBanks (s : State) (gc : Nat) : List Nat := banksAtOrAbove (s.pontoon gc) (s.cluster gc).retn

/-- The sequencer of cluster `a` is told of a retune, and the banks past the threshold have settled. -/
def Retunes (s : State) : Prop :=
  s.inp.a < Config.clusters ∧ runsDefault s (seqHart s.inp.a) = true ∧ (s.pontoon s.inp.a).pevRt = true ∧
  retuneBanks s s.inp.a ≠ [] ∧ ∀ i ∈ retuneBanks s s.inp.a, (s.pontoon s.inp.a).settled.contains i = true

/-- A round of the default microcode, or after the second one its end. -/
theorem execSequencerRetune_of (h : Retunes s) : execSequencerRetune s =
    if (s.pontoon s.inp.a).round < 2 then
      .next (s.modPontoon s.inp.a fun po =>
        { retuneRound po s.tide (banksAtOrAbove po (s.cluster s.inp.a).retn) (po.round == 0) with round := po.round + 1 })
    else if (s.pontoon s.inp.a).round = 2 then
      .next (pushEfault (s.modPontoon s.inp.a fun po => { po with round := 3 }) 1 s.inp.a DRIFT_RETUNE 0)
    else .next s := by
  obtain ⟨ha, hd, hp, hne, hall⟩ := h
  have hset : (retuneBanks s s.inp.a).all (fun i => (s.pontoon s.inp.a).settled.contains i) = true := List.all_eq_true.2 hall
  have hemp : (retuneBanks s s.inp.a).isEmpty = false := List.isEmpty_eq_false_iff.2 hne
  unfold retuneBanks State.pontoon at hset hemp
  unfold State.pontoon at hp ⊢
  simp only [execSequencerRetune, hp, hd, hset, hemp, Nat.not_le.2 ha, decide_false, Bool.not_true, Bool.not_false, Bool.or_self,
    Bool.false_eq_true, if_false, and_true]
  exact if_congr Iff.rfl (congrArg Host.Outcome.next (State.modPontoon_congr rfl)) rfl

end Tuning

/-- Settles O46: one case for each way that the steps of a job, of its rows and of tuning go on. -/
theorem jobStepsComplete : Obligations.JobStepsComplete := by
  unfold Obligations.JobStepsComplete
  intro ended piece reads hold loads tileAt stageOf freed streams actsAt stepped drawn
  refine ⟨?_, ?_, ?_, ?_, ?_, ?_, ?_, ?_, ?_, ?_, ?_, ?_, ?_, ?_, ?_, ?_, ?_, ?_, ?_, ?_, ?_, ?_, ?_, ?_⟩
  · rintro r rest s ⟨ha, hrun, htow, hj, hq, hop⟩
    exact execJobStart_idle ⟨ha, hrun, htow, hq, hop⟩ hj
  · rintro r rest j s ⟨ha, hrun, htow, hj, ht, hk, hnext, hf, hq, hop⟩
    exact execJobStart_behind ⟨ha, hrun, htow, hq, hop⟩ hj ht (draining_of_eq hk) hnext hf
  · rintro j n w bs s ⟨hl, hwk, ⟨hn, hr⟩, hall, hok⟩
    refine (execTileLoad_data hl ((tileSource_memory hwk).trans (fetchSome_data hn hr hall)) hok).trans ?_
    rw [hwk]
    rfl
  · rintro j n w bs s ⟨hl, hwk, ⟨hn, hr⟩, hpart⟩
    exact execTileLoad_part hl ((tileSource_memory hwk).trans (fetchSome_some hn hr hpart))
  · rintro j n w bs s ⟨hl, hwk, ⟨hn, hr⟩, hall, hbad⟩
    exact execTileLoad_badCode hl hwk ((tileSource_memory hwk).trans (fetchSome_data hn hr hall)) hbad
  · rintro j n t x k bs s ⟨hl, hwk, rfl, rfl, hst, hbs, hok⟩
    refine (execTileLoad_data hl (hbs ▸ tileSource_stage hwk hst) hok).trans ?_
    rw [if_pos hwk, engineRelease_owned hst rfl]
    rfl
  · rintro j tile rest n w bs s ⟨hs, hik, hp, ⟨hn, hr⟩, hall⟩
    refine (execTileStream_data hs (.inl hp) ((actSource_memory hik).trans (fetchSome_data hn hr hall))).trans ?_
    rw [promoteJob_inside hp, hik, drewTile_eq]
    rfl
  · rintro j tile rest n w bs s ⟨hs, hik, hp, ⟨hn, hr⟩, hpart⟩
    exact execTileStream_part hs hp ((actSource_memory hik).trans (fetchSome_some hn hr hpart))
  · rintro j tile rest n t x k s ⟨hs, hik, hp, rfl, rfl, hst⟩
    refine (execTileStream_data hs (.inl hp) (actSource_stage hik hst)).trans ?_
    rw [promoteJob_inside hp, if_pos hik, engineRelease_owned (u := drewTile s j.req) hst rfl, drewTile_eq, hst.1]
    rfl
  · rintro j tile rest n w bs s ⟨hs, hik, hp, ht, hscm, ⟨hn, hr⟩, hall⟩
    have hstep := execTileStream_data hs (.inr ht) ((actSource_memory hik).trans (fetchSome_data hn hr hall))
    rw [promoteJob_scalar (j := streamed (s.pontoon s.inp.a).drift w.freeCtr j tile rest (j.acts ++ bs)) hp hscm] at hstep
    exact ⟨_, hstep, _, setJob_job _ _ _, rfl, rfl, rfl, rfl, rfl, rfl⟩
  · rintro j g s ⟨htow, hj, hz, hk, hnext, hf, hpre, hout, hrun, hg, hoen⟩
    exact execRowDispatch_job hrun htow hj hz (draining_of_eq hk) hnext hf hpre hout hg hoen
  · rintro j s ⟨ht, hj, hf, hk, hrel, hl⟩
    exact execJobComplete_inHand ht hj hf (jobDone_of hk hrel hl)
  · rintro j s ⟨ht, hk, hrel, hl⟩
    exact execJobComplete_tail ht (jobDone_of hk hrel hl)
  · rintro j c s ⟨ht, hj, hf, hl⟩
    exact execJobFailure_ends ht hj hf hl
  · rintro j s ⟨hz, hj, hp⟩
    exact execJobPark_preempt hz hj hp
  · rintro j s ⟨hz, hj, hp, hd⟩
    exact execJobPark_retune hz hj hp hd
  · rintro s ⟨ha, hb, hc, hx⟩
    exact execDriftEstimate_reads ha hb hc (heatOld_of hx)
  · rintro s ⟨ha, hb, hs, hx⟩
    exact execBankSettled_settles ha hb hs (heatOld_of hx)
  · rintro s ⟨ha, hw, hr, hmax⟩
    exact execPthrsWrite_valid ha hw hr hmax
  · rintro q s ⟨ha, hp⟩
    exact ⟨_, execPcalComplete_ends ha (.inl (by rw [hp]; rfl)), endCal_ofs hp⟩
  · rintro s ⟨ha, hp, hup⟩
    exact ⟨_, execPcalComplete_ends ha (.inr hup), endCal_bringUp hp⟩
  · intro a b go tm since i v s q u hv hw hlate htide hready halone htm huw hi
    refine (execSettleTimeout_traps hv hw hlate).trans ?_
    exact execPsettle_times_out hready halone htm huw (by rw [← htide] at hlate; exact hlate) hi
  · rintro s ⟨ha, hd, hp, hr, hne, hall⟩
    exact (execSequencerRetune_of ⟨ha, hd, hp, hne, hall⟩).trans (if_pos hr)
  · rintro s ⟨ha, hd, hp, hr, hne, hall⟩
    exact (execSequencerRetune_of ⟨ha, hd, hp, hne, hall⟩).trans ((if_neg (Nat.not_lt.2 hr.ge)).trans (if_pos hr))

end Sys2Proof.Machine

namespace Sys2Proof.Machine

/-! ## The steps of a tow session (R354 to R380) -/

theorem setTow_tow (s : State) (gc : Nat) (w : Tow) : ((setTow s gc w).pontoon gc).tow = some w := by simp [setTow]
theorem setTow_byteAt (s : State) (gc : Nat) (w : Tow) (a : Nat) : (setTow s gc w).byteAt a = s.byteAt a := rfl

/-! ### TOW_SESSION_START (R354, R358) -/

/-- The state once the sequencer of `gc` has taken `r` from wherever it stands in its queue (R20, R104). -/
def pickedRecord (s : State) (gc : Nat) (r : Request) : State :=
  (s.modEngine (seqHart gc) fun e => { e with queue := e.queue.erase r }).modProc (hartQOf (seqHart gc)) fun p => { p with vf := r.vf }

section Start
variable {s : State} {r : Request} {rest : List Request} {w : Tow}

theorem execTowSessionStart_fresh (ha : s.inp.a < Config.clusters) (hrun : (s.proc (hartQOf (seqHart s.inp.a))).stopped = false)
    (htow : (s.pontoon s.inp.a).tow = none) (hj : (s.pontoon s.inp.a).job = none) (ht : (s.pontoon s.inp.a).tail = none)
    (hq : (s.engine (seqHart s.inp.a)).queue = r :: rest) (hr : isTow r = true) (hup : engineDown s s.inp.a = false)
    (hf : isResume r = false) :
    execTowSessionStart s = .next (startTow (pickedRecord s s.inp.a r) s.inp.a r) := by
  simp [execTowSessionStart, Nat.not_le.2 ha, hrun, htow, hj, ht, hq, hr, hup, hf, pickedRecord]

theorem execTowSessionStart_resume (ha : s.inp.a < Config.clusters) (hrun : (s.proc (hartQOf (seqHart s.inp.a))).stopped = false)
    (htow : (s.pontoon s.inp.a).tow = some w) (hq : (s.engine (seqHart s.inp.a)).queue.find? isResume = some r)
    (hup : engineDown s s.inp.a = false) :
    execTowSessionStart s = .next (takeResume (pickedRecord s s.inp.a r) s.inp.a r) := by
  simp [execTowSessionStart, Nat.not_le.2 ha, hrun, htow, hq, hup, List.find?_some hq, pickedRecord]

theorem pickedRecord_queue {gc : Nat} (hq : (s.engine (seqHart gc)).queue = r :: rest) :
    ((pickedRecord s gc r).engine (seqHart gc)).queue = rest := by
  simp [pickedRecord, hq]

theorem pickedRecord_vf {gc : Nat} : ((pickedRecord s gc r).proc (hartQOf (seqHart gc))).vf = r.vf := by
  simp [pickedRecord]

theorem pickedRecord_pontoon (gc : Nat) : (pickedRecord s gc r).pontoon gc = s.pontoon gc := rfl

/-- A resume that fits the stopped session continues it where it stands, under the request `r`. -/
theorem takeResume_continues {gc : Nat} (htow : (s.pontoon gc).tow = some w) (hst : w.st = 2) (hl : w.leaving = false)
    (hv : r.vrec = w.cap.vrec) (hrr : r.args.drop 1 = w.rr) :
    ∃ k, ((takeResume s gc r).pontoon gc).tow = some k ∧ k.req = r ∧ k.st = 0 ∧ k.cb = w.cb ∧ k.ph = w.ph ∧ k.sub = w.sub ∧
      k.stack = w.stack ∧ k.a = w.a ∧ k.n = w.n ∧ k.u = w.u := by
  simp only [takeResume, htow, hst, hl, hv, hrr, and_self, if_true, setTow_tow]
  exact ⟨_, rfl, rfl, rfl, rfl, rfl, rfl, rfl, rfl, rfl, rfl⟩

end Start

/-! ### Blocks (R362, R373) -/

/-- The block at cb of the session `w` passes its checks, with header `h` and payload `body`, and has the opcode `op`. -/
def Checked (s : State) (w : Tow) (op : Nat) (h : List Word) (body : List Byte) (s1 : State) : Prop :=
  (s.pontoon s.inp.a).tow = some w ∧ towMoves s s.inp.a w = true ∧ w.hdr = [] ∧ readBlock s s.inp.a w = (s1, h, .ok body) ∧
  (h.getD 0 0).toNat % 256 = op

/-- A block of opcode `op` is in progress in the session `w`, which may go on. -/
def InProgress (s : State) (w : Tow) (op : Nat) : Prop :=
  (s.pontoon s.inp.a).tow = some w ∧ towMoves s s.inp.a w = true ∧ w.hdr ≠ [] ∧ (w.hdr.getD 0 0).toNat % 256 = op

theorem Tow.advance_cb (w : Tow) (t : Word) : (w.advance t).cb = t := rfl

theorem hBop_eq (h : List Word) : hBop h = (h.getD 0 0).toNat % 256 := fld_low _ _

section Blocks
variable {s s1 s2 : State} {w : Tow} {op : Nat} {h : List Word} {body : List Byte}
variable {act : State → Nat → Tow → List Word → List Byte → Act}

theorem towStep_checked (hc : Checked s w op h body s1) :
    towStep op act s = finishAct s1 s.inp.a { w with seq := hSeq h } (act s1 s.inp.a { w with seq := hSeq h } h body) := by
  obtain ⟨htow, hm, hh, hr, hop⟩ := hc
  rw [← hBop_eq] at hop
  simp [towStep, htow, hm, hh, hr, hop]

theorem towStep_done {t : State} {k : Tow} (hc : Checked s w op h body s1)
    (ha : act s1 s.inp.a { w with seq := hSeq h } h body = .done t k) : towStep op act s = .next (setTow t s.inp.a k) := by
  rw [towStep_checked hc, ha, finishAct]

theorem blockStep_checked (hc : Checked s w op h body s1) : blockStep op act s = towStep op act s := by
  obtain ⟨htow, -, hh, -⟩ := hc
  simp [blockStep, htow, hh]

theorem blockStep_done {t : State} {k : Tow} (hp : InProgress s w op) (ha : act s s.inp.a w w.hdr w.pay = .done t k) :
    blockStep op act s = .next (setTow t s.inp.a k) := by
  obtain ⟨htow, hm, hh, hop⟩ := hp
  rw [← hBop_eq] at hop
  simp [blockStep, htow, hm, hh, hop, ha, finishAct]

/-! ### WTILE (R363) -/

/-- A WTILE whose tile can be had at once, of what has been decoded of it before. -/
theorem wtileAct_done {gc : Nat} {t : List Int} (hcore : coreWaits s gc = false ∨ hCodec h = 0)
    (ht : wtileFrom s gc h (w.decoded body).1 (w.decoded body).2 = .ok t) :
    wtileAct s gc w h body = .done s ({ w with shadow := some t, lwt := some w.cb }.advance (succOf w h)) := by
  have hturn : ¬ (hCodec h = 1 ∧ coreWaits s gc = true ∧ (w.decoded body).1 ≠ []) := by
    rintro ⟨h1, h2, -⟩
    rcases hcore with hcore | hcore
    · rw [hcore] at h2
      exact absurd h2 (by decide)
    · omega
  simp [wtileAct, hturn, ht]

theorem Tow.decoded_none (hd : w.dec = none) : w.decoded body = (body, []) := by
  simp [Tow.decoded, hd]

theorem Tow.decoded_eq : w.decoded w.pay = ((w.dec.map fun e => w.pay.drop e.1).getD w.pay, (w.dec.map fun e => e.2).getD []) := by
  unfold Tow.decoded
  cases w.dec <;> rfl

/-! ### RUN (R364) -/

theorem Tow.depth_pos : 0 < w.depth := Nat.succ_pos _

theorem runSource_memory {gc : Nat} {bs : List Byte} (hva : hA h 0 ≠ 0) (hc : s.inp.c = 0)
    (hr : pontoonRead s gc w.cap (hA h 0) (32 * w.depth) = .ok (s2, bs)) : runSource s gc w h [] = .data s2 bs := by
  have hlen : ([] : List Byte).length ≠ 32 * w.depth := by
    have := w.depth_pos
    simp only [List.length_nil]
    omega
  rw [runSource, if_neg hva, if_neg hlen, hc]
  exact fetchSome_data rfl (by simpa [pieceOf] using hr) rfl

theorem runSource_read {gc : Nat} {bs : List Byte} (hva : hA h 0 ≠ 0) (hlen : bs.length = 32 * w.depth) :
    runSource s gc w h bs = .data s bs := by
  rw [runSource, if_neg hva]
  exact if_pos hlen

/-- The session once slots `done` to `upto` − 1 of a RUN have streamed (R364, R376). -/
def ranSlots (w : Tow) (drift k : Nat) (bs : List Byte) (done upto : Nat) : Tow :=
  { w with
    bank := w.shadow.getD w.bank, shadow := none, worst := max w.worst (min drift 1)
    n := streamSlots (w.shadow.getD w.bank) w.split w.gain w.shift w.depth (codeBound drift) k
      (fun b => ((bs.drop (32 * b)).take 32).map BitVec.toNat) done upto w.n }

/-- Slots of a RUN done before the step. -/
def slotsDone (w : Tow) : Nat := if w.ph = 1 then w.sub else 0

theorem runAct_whole {gc : Nat} {bs : List Byte} (hs : runSource s gc w h w.pay = .data s2 bs) (hva : hA h 0 ≠ 0)
    (hw : s.inp.w = 0) : runAct s gc w h body =
      .done { s2 with freeCtr := s2.freeCtr + streamFree w.split w.depth }
        ({ ranSlots w (s.pontoon gc).drift s2.freeCtr bs (slotsDone w) (slotCount w.split w.depth) with
          runs := w.runs + 1 }.advance (succOf w h)) := by
  simp only [runAct, hs, hw, hva, if_true, if_false, Nat.lt_irrefl]
  rfl

theorem runAct_part {gc : Nat} {bs : List Byte} (hs : runSource s gc w h w.pay = .data s2 bs) (hw : s.inp.w ≠ 0)
    (hlt : slotsDone w + s.inp.w.toNat < slotCount w.split w.depth) : runAct s gc w h body =
      .done { s2 with freeCtr := s2.freeCtr + streamFree w.split w.depth }
        { ranSlots w (s.pontoon gc).drift s2.freeCtr bs (slotsDone w) (slotsDone w + s.inp.w.toNat) with
          hdr := h, pay := bs, ph := 1, sub := slotsDone w + s.inp.w.toNat, waits := false } := by
  have hmin : min (slotCount w.split w.depth) (slotsDone w + s.inp.w.toNat) = slotsDone w + s.inp.w.toNat := by omega
  unfold slotsDone at hlt hmin ⊢
  simp only [runAct, hs, hw, if_false, hmin, hlt, if_true]
  rfl

end Blocks

/-! ### Memory after a store performed at once -/

theorem foldl_mem {α : Type} {f : State → α → State} (h : ∀ s a, (f s a).mem = s.mem) (l : List α) (s : State) :
    (l.foldl f s).mem = s.mem := by
  induction l generalizing s with
  | nil => rfl
  | cons a l ih => exact (ih _).trans (h s a)

theorem discardChunk_mem (s : State) (q : Nat) : (discardChunk s q).mem = s.mem := by
  unfold discardChunk
  split
  · rfl
  · exact foldl_mem (fun _ _ => State.modProc_mem _ _ _) _ s

/-- A signature discards chunks; it writes no byte. -/
theorem sendSignature_mem (s : State) (ls : List Nat) : (sendSignature s ls).mem = s.mem := by
  unfold sendSignature
  simp only
  split
  · rfl
  · exact foldl_mem (fun _ _ => discardChunk_mem _ _) _ s

theorem performBytes_mem (s : State) (cells : FMap Byte) :
    (performBytes s cells).mem = cells.foldl (fun m e => Memory.write m e.1 e.2) s.mem :=
  sendSignature_mem _ _

/-- Writing cells one after another is writing their bytes as a list. -/
theorem foldl_cellsAt (bs : List Byte) : ∀ (m : List Host.Cell) (a : Nat),
    (cellsAt a bs).foldl (fun m e => Memory.write m e.1 e.2) m = Memory.writeList m a bs := by
  induction bs with
  | nil => exact fun _ _ => rfl
  | cons b bs ih =>
    intro m a
    have hcells : cellsAt a (b :: bs) = (a, b) :: cellsAt (a + 1) bs := by
      simp only [cellsAt, upTo, List.length_cons, List.range_succ_eq_map, List.zip_cons_cons, List.map_cons, Nat.add_zero,
        List.zip_map_left, List.map_map]
      refine congrArg _ (List.map_congr_left fun e _ => ?_)
      simp [Nat.add_assoc, Nat.add_comm 1]
    rw [hcells, List.foldl_cons, ih, Memory.writeList]

/-- The bytes of a store performed at once read back. -/
theorem performAt_byteAt (s : State) (a j : Nat) (bs : List Byte) (hj : j < bs.length) :
    (performAt s a bs).byteAt (a + j) = bs.getD j 0 := by
  rw [performAt, State.byteAt, performBytes_mem, foldl_cellsAt, Memory.read_writeList_in bs _ _ _ hj, List.getD_eq_getElem _ _ hj]

theorem spKey_add (gc o j : Nat) : spKey gc (o + j) = spKey gc o + j := (Nat.add_assoc _ _ _).symm

theorem leBytes_length (n x : Nat) : (leBytes n x).length = n := by
  induction n generalizing x with
  | zero => rfl
  | succ n ih => simp [leBytes, ih]

theorem Tow.rowBytes_length (w : Tow) (b : Nat) : (w.rowBytes b).length = 128 := by
  simp [Tow.rowBytes, upTo, leBytes_length]

/-! ### The other blocks (R365 to R372) -/

section Acts
variable {s s1 s2 : State} {w : Tow} {h : List Word} {body : List Byte} {dest : Word}

theorem execTowWtile_checked {t : List Int} (hc : Checked s w 1 h body s1) (hd : w.dec = none)
    (hcore : coreWaits s1 s.inp.a = false ∨ hCodec h = 0) (ht : wtile s1 s.inp.a h body = .ok t) :
    execTowWtile s = .next (setTow s1 s.inp.a ({ w with shadow := some t, lwt := some w.cb }.advance (succOf w h))) := by
  refine (blockStep_checked hc).trans (towStep_done hc ?_)
  exact wtileAct_done hcore (by rw [Tow.decoded_none (w := { w with seq := hSeq h }) hd]; exact ht)

theorem execTowWtile_inProgress {t : List Int} (hp : InProgress s w 1) (hcore : coreWaits s s.inp.a = false)
    (ht : wtileFrom s s.inp.a w.hdr (w.decoded w.pay).1 (w.decoded w.pay).2 = .ok t) :
    execTowWtile s = .next (setTow s s.inp.a ({ w with shadow := some t, lwt := some w.cb }.advance (succOf w w.hdr))) :=
  blockStep_done hp (wtileAct_done (.inl hcore) ht)

/-- A RUN whose vectors are read and whose slots stream at once. -/
theorem execTowRun_checked {bs : List Byte} (hc : Checked s w 2 h body s1) (hva : hA h 0 ≠ 0) (hph : w.ph = 0) (hpay : w.pay = [])
    (hw : s1.inp.w = 0) (hcnt : s1.inp.c = 0) (hr : pontoonRead s1 s.inp.a w.cap (hA h 0) (32 * w.depth) = .ok (s2, bs)) :
    execTowRun s = .next (setTow { s2 with freeCtr := s2.freeCtr + streamFree w.split w.depth } s.inp.a
      ({ ranSlots w (s1.pontoon s.inp.a).drift s2.freeCtr bs 0 (slotCount w.split w.depth) with
        runs := w.runs + 1 }.advance (succOf w h))) := by
  have hdone : slotsDone { w with seq := hSeq h } = 0 := if_neg (by rw [hph]; decide)
  have hsrc : runSource s1 s.inp.a { w with seq := hSeq h } h w.pay = .data s2 bs := by
    rw [hpay]
    exact runSource_memory hva hcnt hr
  refine (blockStep_checked hc).trans (towStep_done hc ((runAct_whole hsrc hva hw).trans ?_))
  rw [hdone]
  rfl

/-- A RUN in progress of which the step streams some slots more. -/
theorem execTowRun_part (hp : InProgress s w 2) (hva : hA w.hdr 0 ≠ 0) (hlen : w.pay.length = 32 * w.depth) (hw : s.inp.w ≠ 0)
    (hlt : slotsDone w + s.inp.w.toNat < slotCount w.split w.depth) :
    execTowRun s = .next (setTow { s with freeCtr := s.freeCtr + streamFree w.split w.depth } s.inp.a
      { ranSlots w (s.pontoon s.inp.a).drift s.freeCtr w.pay (slotsDone w) (slotsDone w + s.inp.w.toNat) with
        hdr := w.hdr, pay := w.pay, ph := 1, sub := slotsDone w + s.inp.w.toNat, waits := false }) :=
  blockStep_done hp (runAct_part (runSource_read hva hlen) hw hlt)

theorem execTowPromote_checked {sc : List Nat} (hc : Checked s w 3 h body s1) (hout : w.out = [])
    (hsc : towScales s1 s.inp.a w h = .ok (s2, sc)) :
    execTowPromote s =
      let e := promoteAll w.n w.a w.depth w.gain w.shift w.u w.cap.ctl (fun i => sc.getD i 0) fun _ => 0
      .next (setTow s2 s.inp.a ({ w with a := e.1, n := [], u := w.u + 1, flags := w.flags ||| e.2 }.advance (succOf w h))) := by
  have hsc' : towScales s1 s.inp.a { w with seq := hSeq h } h = .ok (s2, sc) := hsc
  refine towStep_done hc ((if_neg (not_not.2 hout)).trans ?_)
  simp only [hsc']
  rfl

theorem execTowRoute_checked (hc : Checked s w 5 h body s1) (hk : hRk h ≠ 4) :
    execTowRoute s = .next (setTow s1 s.inp.a
      ({ w with rk := hRk h, rs := hRs h, rv := fld (hA h 0) 0 16, fordAt := [] }.advance (succOf w h))) :=
  towStep_done hc (if_pos hk)

theorem execTowSync_tide (hc : Checked s w 6 h body s1) (hout : w.out = []) (hop : hA h 0 = 1)
    (htide : (hA h 1).toNat ≤ s1.tide.toNat) :
    execTowSync s = .next (setTow s1 s.inp.a (w.advance (succOf w h))) :=
  towStep_done hc ((if_neg (not_not.2 hout)).trans ((if_pos hop).trans (if_pos htide)))

theorem execTowBranch_checked (hc : Checked s w 7 h body s1) (hout : w.out = [])
    (hl : linkTarget w.cb (hPlen h) (hA h 1) = some dest) :
    execTowBranch s = .next (setTow s1 s.inp.a
      (w.advance (if s1.natAt (spKey s.inp.a (hA h 0).toNat) 8 ≠ 0 then dest else succOf w h))) := by
  refine towStep_done hc ((if_neg (not_not.2 hout)).trans ?_)
  simp only [hl, Option.getD_some]
  rfl

theorem execTowCall_checked (hc : Checked s w 8 h body s1) (hroom : w.stack.length < 8)
    (hl : linkTarget w.cb (hPlen h) (hA h 0) = some dest) :
    execTowCall s = .next (setTow s1 s.inp.a ({ w with stack := w.stack ++ [succOf w h] }.advance dest)) := by
  refine towStep_done hc ((if_neg (Nat.not_le.2 hroom)).trans ?_)
  simp only [hl, Option.getD_some]
  rfl

theorem execTowCall_full (hc : Checked s w 8 h body s1) (hfull : 8 ≤ w.stack.length) :
    execTowCall s = .next (setTow (forgetStalls s1 (hartQOf (seqHart s.inp.a)) TOW_STACK) s.inp.a
      { w with seq := hSeq h, fail := some TOW_STACK }) :=
  (towStep_checked hc).trans (congrArg _ (if_pos hfull))

theorem execTowRet_checked {st : List Word} (hc : Checked s w 9 h body s1) (hs : w.stack = st ++ [dest]) :
    execTowRet s = .next (setTow s1 s.inp.a ({ w with stack := st }.advance dest)) := by
  refine towStep_done hc ?_
  simp only [hs, List.getLast?_concat, List.dropLast_concat]
  rfl

theorem execTowExitBlock_checked (hc : Checked s w 10 h body s1) (hout : w.out = []) :
    execTowExitBlock s = .next (setTow s1 s.inp.a
      { w with seq := hSeq h, st := 3, done := some DONE, blocks := w.blocks + 1, waits := false }) :=
  towStep_done hc (if_neg (not_not.2 hout))

theorem execTowReservedBlock_fails (htow : (s.pontoon s.inp.a).tow = some w) (hm : towMoves s s.inp.a w = true) (hh : w.hdr = [])
    (hr : readBlock s s.inp.a w = (s1, h, .error TOW_BLOCK_OPCODE)) :
    execTowReservedBlock s = .next (setTow s1 s.inp.a { w with seq := hSeq h, fail := some TOW_BLOCK_OPCODE }) := by
  have hwait : isWait TOW_BLOCK_OPCODE = false := rfl
  simp [execTowReservedBlock, towStep, htow, hm, hh, hr, hwait]

/-! ### DRAIN to the scratchpad (R366, R367) -/

/-- What a DRAIN does as its block begins: its route is checked, and its first row is delivered if it can be. -/
def drainAct (s : State) (gc : Nat) (w : Tow) (h : List Word) : Act :=
  match beginDrain s gc w h with
  | .error c => .stop c
  | .ok (t, k) => .done (drainOne t gc k).1 (drainOne t gc k).2

theorem execTowDrain_begins (htow : (s.pontoon s.inp.a).tow = some w) (hh : w.hdr = []) :
    execTowDrain s = towStep 4 (fun s gc w h _ => drainAct s gc w h) s := by
  simp only [execTowDrain, htow, hh, ne_eq, not_true_eq_false, if_false]
  rfl

theorem beginDrain_start {gc : Nat} (hph : w.ph ≠ 2) (hk : hRk h = 5) :
    beginDrain s gc w h = .ok (s, { w with hdr := h, ph := 2, sub := 0 }) := by
  simp [beginDrain, drainRoute, hk, hph]

theorem rowGone_of_lt (hlt : w.sub + 1 < w.depth) : rowGone w = { w with sub := w.sub + 1, waits := false } := if_pos hlt

theorem drainOne_scratchpad {gc : Nat} (hk : hRk w.hdr = 5) : drainOne s gc w =
    (performAt s (spKey gc (128 * (fld (hA w.hdr 0) 0 16 + w.sub))) (w.rowBytes w.sub),
      rowGone (w.delivered (128 * (fld (hA w.hdr 0) 0 16 + w.sub)))) := by
  simp [drainOne, deliverRow, drainRoute, hk]

/-- The session in a DRAIN to scratchpad byte `o` whose first row has left. -/
def firstRowGone (w : Tow) (h : List Word) (o : Nat) : Tow :=
  { { w with seq := hSeq h, hdr := h, ph := 2, sub := 0 }.delivered o with sub := 1, waits := false }

/-- The first row of a DRAIN to the scratchpad leaves as the block begins, which goes on while a row is left. -/
theorem execTowDrain_scratchpad (hc : Checked s w 4 h body s1) (hph : w.ph = 0) (hk : hRk h = 5) (hd : 1 < w.depth) :
    execTowDrain s = .next (setTow
      (performAt s1 (spKey s.inp.a (128 * fld (hA h 0) 0 16)) (w.rowBytes 0)) s.inp.a
      (firstRowGone w h (128 * fld (hA h 0) 0 16))) := by
  have hph' : w.ph ≠ 2 := by omega
  have hbegins : execTowDrain s = towStep 4 (fun s gc w h _ => drainAct s gc w h) s := by
    obtain ⟨htow, -, hh, -⟩ := hc
    exact execTowDrain_begins htow hh
  refine hbegins.trans (towStep_done hc ?_)
  rw [drainAct, beginDrain_start (w := { w with seq := hSeq h }) hph' hk]
  simp only [drainOne_scratchpad (w := { w with seq := hSeq h, hdr := h, ph := 2, sub := 0 }) hk]
  exact congrArg _ (rowGone_of_lt hd)

end Acts

/-! ### Stops, parks, completion (R374, R377, R380) -/

section Stops
variable {s v : State} {w k : Tow} {c : Nat}

theorem execTowStop_fails (htow : (s.pontoon s.inp.a).tow = some w) (hf : w.fail = some c) (hd : w.done = none) (hst : w.st = 0)
    (hw : writeRestart s s.inp.a w c = .ok (v, k)) :
    execTowStop s = .next (setTow v s.inp.a { k.atBoundary with st := 2, status := c, done := some c, fail := none }) := by
  simp [execTowStop, htow, hf, hd, hst, stopTow, hw]

theorem execTowStop_leaves (htow : (s.pontoon s.inp.a).tow = some w) (hf : w.fail = none) (hd : w.done = none)
    (hl : w.leaving = true) (hst : w.st ≤ 1) :
    execTowStop s = .next (setTow s s.inp.a { w.atBoundary with st := 3, done := some CANCELLED }) := by
  simp [execTowStop, htow, hf, hd, hl, hst]

theorem execTowPark_preempt (htow : (s.pontoon s.inp.a).tow = some w) (hst : w.st = 0) (hf : w.fail = none) (hd : w.done = none)
    (hl : w.leaving = false) (hrun : (s.proc (hartQOf (seqHart s.inp.a))).stopped = false)
    (hp : (s.pontoon s.inp.a).preempt = true) (hw : writeRestart s s.inp.a w 0 = .ok (v, k)) :
    execTowPark s = .next (setTow v s.inp.a k.atBoundary) := by
  simp [execTowPark, htow, hst, hf, hd, hl, hrun, hp, parkTow, hw]

theorem execTowCompletion_completes (htow : (s.pontoon s.inp.a).tow = some w) (hd : w.done = some c)
    (hl : handlerLive s s.inp.a (·.tow) = false) (hs : storesDone s (hartQOf (seqHart s.inp.a)) 2 = true)
    (hn : storesLost s (hartQOf (seqHart s.inp.a)) 2 = false) :
    execTowCompletion s = .next (completeTow (dropStores s (hartQOf (seqHart s.inp.a)) 2) s.inp.a w c) := by
  simp [execTowCompletion, htow, hd, hl, hs, hn]

/-- The rows of a session that ends or stops with status `c`: undefined unless it is DONE. -/
def leftRows (s : State) (gc : Nat) (w : Tow) (c : Nat) : State × Tow := if c = DONE then (s, w) else leaveSession s gc w

theorem completeTow_ends {gc : Nat} (h : w.st ≠ 2 ∨ w.leaving = true) : completeTow s gc w c =
    dropTow (post (payOwed (leftRows s gc w c).1 gc w) (seqHart gc) w.req (towFrame w c)) gc := by
  have hstay : ¬ (w.st = 2 ∧ w.leaving = false) := by
    rintro ⟨h2, hl⟩
    rcases h with h | h
    · exact h h2
    · exact absurd (h.symm.trans hl) (by decide)
  exact if_neg hstay

theorem completeTow_stays {gc : Nat} (h : w.st = 2 ∧ w.leaving = false) : completeTow s gc w c =
    setTow (post (payOwed (leftRows s gc w c).1 gc w) (seqHart gc) w.req (towFrame w c)) gc
      { (leftRows s gc w c).2 with done := none, owed := [] } := if_pos h

end Stops

/-- Settles O47: one case for each block and for each way that a session starts, stops, parks and completes. -/
theorem towStepsComplete : Obligations.TowStepsComplete := by
  unfold Obligations.TowStepsComplete
  intro at' go put op q completes left frame
  refine ⟨?_, ?_, ?_, ?_, ?_, ?_, ?_, ?_, ?_, ?_, ?_, ?_, ?_, ?_, ?_, ?_, ?_, ?_, ?_, ?_, ?_⟩
  · rintro r rest s ⟨ha, hrun, htow, hj, ht, hq, hop, hup, hargs⟩
    have hr : isTow r = true := by simp [isTow, hop]
    have hf : isResume r = false := by rw [isResume, hargs, bne_self_eq_false, Bool.and_false]
    refine ⟨_, execTowSessionStart_fresh ha hrun htow hj ht hq hr hup hf, setTow_tow _ _ _, ?_, ?_⟩
    · exact pickedRecord_queue hq
    · exact pickedRecord_vf
  · rintro r w s ⟨ha, hrun, htow, hq, hup, hst, hl, hv, hrr⟩
    exact ⟨_, execTowSessionStart_resume ha hrun htow hq hup,
      takeResume_continues ((congrArg Pontoon.tow (pickedRecord_pontoon _)).trans htow) hst hl hv hrr⟩
  · rintro w h body s1 t s ⟨hc, hd, hcore, ht⟩
    exact execTowWtile_checked hc hd hcore ht
  · rintro w t s ⟨htow, hm, hh, hop, hcore, ht⟩
    exact execTowWtile_inProgress ⟨htow, hm, hh, hop⟩ hcore (by rw [Tow.decoded_eq]; exact ht)
  · rintro w h body s1 s2 bs s ⟨hc, hva, hph, hpay, hw, hcnt, hinp, hr⟩
    exact ⟨_, execTowRun_checked hc hva hph hpay (hinp ▸ hw) (hinp ▸ hcnt) hr, _, setTow_tow _ _ _, rfl, rfl, rfl, rfl, rfl⟩
  · rintro w s ⟨htow, hm, hh, hop, hva, hlen, hw, hlt⟩
    exact ⟨_, execTowRun_part ⟨htow, hm, hh, hop⟩ hva hlen hw hlt, _, setTow_tow _ _ _, rfl, rfl, rfl, rfl, rfl, rfl, rfl⟩
  · rintro w h body s1 s2 sc s ⟨hc, hout, hsc⟩
    exact ⟨_, execTowPromote_checked hc hout hsc, _, setTow_tow _ _ _, rfl, rfl, rfl, rfl, rfl⟩
  · rintro w h body s1 s ⟨hc, hph, hk, hd⟩
    refine ⟨_, execTowDrain_scratchpad hc hph hk hd, _, setTow_tow _ _ _, rfl, rfl, rfl, fun j hj => ?_⟩
    rw [show op h 0 = hA h 0 from rfl, ← fld_low, spKey_add, setTow_byteAt]
    exact performAt_byteAt _ _ _ _ (by rw [Tow.rowBytes_length]; exact hj)
  · rintro w h body s1 s ⟨hc, hk⟩
    exact ⟨_, execTowRoute_checked hc hk, _, setTow_tow _ _ _, rfl, rfl, fld_low _ _, rfl⟩
  · rintro w h body s1 s ⟨hc, hout, hop, ht⟩
    exact ⟨_, execTowSync_tide hc hout hop ht, _, setTow_tow _ _ _, rfl⟩
  · rintro w h body s1 dest s ⟨hc, hout, hl⟩
    refine ⟨_, execTowBranch_checked hc hout hl, _, setTow_tow _ _ _, ?_⟩
    rw [Tow.advance_cb, show op h 0 = hA h 0 from rfl]
  · rintro w h body s1 dest s ⟨hc, hroom, hl⟩
    exact ⟨_, execTowCall_checked hc hroom hl, _, setTow_tow _ _ _, rfl, rfl⟩
  · rintro w h body s1 s ⟨hc, hfull⟩
    exact ⟨_, execTowCall_full hc hfull, _, setTow_tow _ _ _, rfl⟩
  · rintro w h body s1 st dest s ⟨hc, hs⟩
    exact ⟨_, execTowRet_checked hc hs, _, setTow_tow _ _ _, rfl, rfl⟩
  · rintro w h body s1 s ⟨hc, hout⟩
    exact ⟨_, execTowExitBlock_checked hc hout, _, setTow_tow _ _ _, rfl, rfl, rfl⟩
  · rintro w h s1 s ⟨htow, hm, hh, hr⟩
    exact ⟨_, execTowReservedBlock_fails htow hm hh hr, _, setTow_tow _ _ _, rfl⟩
  · rintro w c v k s ⟨htow, hf, hd, hst, hw⟩
    exact execTowStop_fails htow hf hd hst hw
  · rintro w v k s ⟨htow, hst, hf, hd, hl, hrun, hp, hw⟩
    exact execTowPark_preempt htow hst hf hd hl hrun hp hw
  · rintro w s ⟨htow, hf, hd, hl, hst⟩
    exact execTowStop_leaves htow hf hd hl hst
  · rintro w c s ⟨⟨htow, hd, hl, hs, hn⟩, hend⟩
    exact (execTowCompletion_completes htow hd hl hs hn).trans (congrArg _ (completeTow_ends hend))
  · rintro w c s ⟨⟨htow, hd, hl, hs, hn⟩, hstay⟩
    exact (execTowCompletion_completes htow hd hl hs hn).trans (congrArg _ (completeTow_stays hstay))

end Sys2Proof.Machine

namespace Sys2Proof.Machine

/-! ## What reset leaves (R18, R73, R134, R338, R342, R421, R437, R439, R471, R474) -/

/-- The registers of a control context that the spec gives the value zero at reset (R73, R134). -/
def zeroRegisters : List Nat := [0x0000, 0x0001, 0x0002, 0x0005, 0x0006, 0x0007, 0x000C, 0x000D, 0x000E, 0x000F, 0x0013]

theorem isHart_ctl {g : Nat} (h : g < 102400) : isHart (ctl g) = false :=
  decide_eq_false (by unfold Config.hartQ ctl; omega)

/-- No agent has run: each is as a slot that is free. -/
theorem reset_proc (q : Nat) : State.reset.proc q = {} := rfl

theorem reset_tstat {g : Nat} (h : g < 102400) : tstatOf (ctl g) (State.reset.proc (ctl g)) = 0 := by
  rw [tstatOf, isHart_ctl h]
  rfl

theorem sysReg_reset_zero {g n : Nat} (h : g < 102400) (hn : n ∈ zeroRegisters) : sysReg State.reset (ctl g) n = some 0 := by
  have hq := isHart_ctl h
  simp only [zeroRegisters, List.mem_cons, List.not_mem_nil, or_false] at hn
  obtain rfl | rfl | rfl | rfl | rfl | rfl | rfl | rfl | rfl | rfl | rfl := hn
  case inr.inr.inr.inr.inr.inr.inr.inl => exact congrArg some (reset_tstat h)
  all_goals simp [sysReg, hq, reset_proc] <;> rfl

theorem sysReg_ofHart {s : State} {q : Nat} (h : isHart q = true) : sysReg s q 0x0201 = hartReg s (hartIx q) 1 := by
  simp only [sysReg, h, if_true]
  exact if_pos (by decide)

/-- The thresholds of a sequencer's cluster (R342, R353). -/
theorem sysReg_reset_pthr {gc : Nat} (h : gc < 12800) :
    sysReg State.reset (hartQOf (640 + gc)) 0x0201 = some (wNat (8 + 2 ^ 16 * 16)) := by
  have hq : isHart (hartQOf (640 + gc)) = true := decide_eq_true (Nat.le_add_right _ _)
  have hix : hartIx (hartQOf (640 + gc)) = 640 + gc := Nat.add_sub_cancel_left _ _
  have h1 : ¬ 640 + gc < 640 := by omega
  have h2 : 640 + gc < 13440 := by omega
  have hreg : hartReg State.reset (640 + gc) 1 = some (wNat (8 + 2 ^ 16 * 16)) := by
    unfold hartReg
    rw [if_neg h1, if_pos h2]
    rfl
  rw [sysReg_ofHart hq, hix, hreg]

/-- Settles O57: memory lists nothing, each register is the default of its field, and each line is its own (R320). -/
theorem resetLeaves : Obligations.ResetLeaves := by
  unfold Obligations.ResetLeaves
  refine ⟨rfl, rfl, rfl, rfl, rfl, rfl, rfl, rfl, rfl, rfl, ?_, ?_⟩
  · intro g hg n hn
    exact sysReg_reset_zero hg hn
  · intro gc hgc
    exact ⟨sysReg_reset_pthr hgc, fun x _ => rfl⟩

end Sys2Proof.Machine

namespace Sys2Proof.Machine

/-! ## A step runs the decoded head (R36, R38, R43, R136, R137, R18) -/

/-! ### The head of a resident line -/

@[simp] theorem keepLine_cur (s : State) (q la : Nat) (l : Line) : (keepLine s q la l).cur = s.cur := by
  unfold keepLine
  split <;> rfl

/-- To keep a line changes no register. -/
@[simp] theorem keepLine_r (s : State) (q la : Nat) (l : Line) (r : Nat) : ((keepLine s q la l).proc r).r = (s.proc r).r := by
  unfold keepLine
  split
  · rfl
  · rw [State.proc_modProc_eq]
    split
    next h => rw [h]
    · rfl

theorem keepLine_hart {q : Nat} (s : State) (la : Nat) (l : Line) (h : isHart q = true) : keepLine s q la l = s :=
  if_pos (by rw [h, Bool.true_or])

theorem fetchLine_resident {s : State} {q la n : Nat} {l : Line} (h : residentLine s q la = some l) (hc : l.check = some n) :
    fetchLine s q la = .ok (keepLine s q la l, l) := by
  simp only [fetchLine, h, hc, Option.isSome_some, if_true]

theorem fetchLine_malformed {s : State} {q la : Nat} {l : Line} (h : residentLine s q la = some l) (hc : l.check = none) :
    fetchLine s q la = .error INSTR_FORMAT := by
  simp only [fetchLine, h, hc, Option.isSome_none, Bool.false_eq_true, if_false]

/-- The PC of `q` names head 1 to N of the resident line `l` (R36). -/
def StandsIn (s : State) (q : Nat) (l : Line) : Prop :=
  let pc := (s.proc q).r.pc
  residentLine s q (lineBase pc) = some l ∧ ∃ n, l.check = some n ∧ 1 ≤ headIndex pc ∧ headIndex pc ≤ n ∧ pc.getLsbD 0 = false

/-- The state in which the head of `q` is fetched (R38). -/
def State.fetching (s : State) (q : Nat) : State := { s with cur := q, issued := false }

/-- The state in which a context runs a head of the resident line `l`: it holds the line, as its copy. -/
def State.inLine (s : State) (q : Nat) (l : Line) : State :=
  (keepLine (s.fetching q) q (lineBase (s.proc q).r.pc) l).modProc q fun p => { p with copy := some (lineBase (s.proc q).r.pc, l) }

@[simp] theorem State.inLine_cur (s : State) (q : Nat) (l : Line) : (s.inLine q l).cur = q := keepLine_cur _ _ _ _

@[simp] theorem State.inLine_me (s : State) (q : Nat) (l : Line) : (s.inLine q l).me.r = (s.proc q).r := by
  rw [State.me, State.inLine_cur]
  exact (congrArg Proc.r (State.proc_modProc _ _ _)).trans (keepLine_r _ _ _ _ _)

section Head
variable {s : State} {q : Nat} {l : Line}

theorem fetchLine_standsIn (h : StandsIn s q l) : fetchLine (s.fetching q) q (lineBase (s.proc q).r.pc) =
    .ok (keepLine (s.fetching q) q (lineBase (s.proc q).r.pc) l, l) := by
  obtain ⟨hl, n, hc, -⟩ := h
  exact fetchLine_resident hl hc

theorem stepHead_eq (hm : leader s q = q) : stepHead s q =
    match fetchLine (s.fetching q) q (lineBase (s.proc q).r.pc) with
    | .error c => if c = WAITS then .next (s.fetching q)
      else badHead (s.fetching q) c (BitVec.ofNat 64 (lineBase (s.proc q).r.pc))
    | .ok (s1, l) =>
      let s2 := if isHart q then s1 else s1.modProc s1.cur fun p => { p with copy := some (lineBase (s.proc q).r.pc, l) }
      if 1 ≤ headIndex s2.me.r.pc ∧ headIndex s2.me.r.pc ≤ l.check.getD 0 ∧ s2.me.r.pc.getLsbD 0 = false then runLine s2 l
      else badHead s2 INSTR_FORMAT (BitVec.ofNat 64 (lineBase (s.proc q).r.pc)) := by
  unfold stepHead
  rw [hm]
  rfl

theorem stepHead_context (hm : leader s q = q) (hq : isHart q = false) (h : StandsIn s q l) :
    stepHead s q = runLine (s.inLine q l) l := by
  rw [stepHead_eq hm, fetchLine_standsIn h]
  obtain ⟨-, n, hc, h1, hn, h0⟩ := h
  have hhead : 1 ≤ headIndex (s.inLine q l).me.r.pc ∧ headIndex (s.inLine q l).me.r.pc ≤ l.check.getD 0 ∧
      (s.inLine q l).me.r.pc.getLsbD 0 = false := by
    rw [State.inLine_me, hc]
    exact ⟨h1, hn, h0⟩
  simp only [hq, Bool.false_eq_true, if_false, keepLine_cur]
  exact if_pos hhead

theorem stepHead_hart (hq : isHart q = true) (h : StandsIn s q l) : stepHead s q = runLine (s.fetching q) l := by
  have hm : leader s q = q := by simp [leader, members, hq]
  rw [stepHead_eq hm, fetchLine_standsIn h, keepLine_hart _ _ _ hq]
  obtain ⟨-, n, hc, h1, hn, h0⟩ := h
  simp only [hq, if_true, hc]
  exact if_pos ⟨h1, hn, h0⟩

theorem stepHead_malformed (hm : leader s q = q) (hl : residentLine s q (lineBase (s.proc q).r.pc) = some l)
    (hc : l.check = none) :
    stepHead s q = badHead (s.fetching q) INSTR_FORMAT (BitVec.ofNat 64 (lineBase (s.proc q).r.pc)) := by
  have hf : fetchLine (s.fetching q) q (lineBase (s.proc q).r.pc) = .error INSTR_FORMAT := fetchLine_malformed hl hc
  rw [stepHead_eq hm, hf]
  exact if_neg (by decide)

/-- A head that decodes runs, unless a hart may not fetch its opcode. -/
theorem runLine_ok {i : Instr} (h : isHart s.cur = false ∨ legality s s.cur (bits (l.half (headIndex s.me.r.pc)) 8 8) = none)
    (hd : l.decode (headIndex s.me.r.pc) = .ok i) : runLine s l = exec i s := by
  have hlegal : ¬ (isHart s.cur = true ∧
      legality s s.cur (bits (l.half (headIndex s.me.r.pc)) 8 8) = some ILLEGAL_OPCODE) := by
    rintro ⟨hh, ho⟩
    rcases h with h | h
    · exact absurd (h.symm.trans hh) Bool.false_ne_true
    · exact absurd (h.symm.trans ho) (by simp)
  simp only [runLine, hlegal, if_false, hd]

theorem runLine_badFormat (h : isHart s.cur = false) (hd : l.decode (headIndex s.me.r.pc) = .error .instrFormat) :
    runLine s l = badHead s INSTR_FORMAT s.me.r.pc := by
  simp only [runLine, h, Bool.false_eq_true, false_and, if_false, hd]

end Head

/-! ### The cycle of a core and of a hart -/

/-- A head that leaves the cluster's last push to qc as it was has pushed nothing. -/
theorem pushesQc_of_same {s : State} {gc : Nat} {o : Out} (h : ∀ t, o = .next t → (t.cluster gc).qcLast = (s.cluster gc).qcLast) :
    pushesQc s gc o = false := by
  cases o with
  | next t =>
    rw [pushesQc, h t rfl]
    exact Bool.and_not_self _
  | fault _ => rfl
  | refused _ => rfl

/-- A head runs as it is where its core is its cluster's first, or where it pushes nothing to qc (R145). -/
theorem headInCycle_eq {s : State} {g q : Nat}
    (h : g % 8 = 0 ∨ ∀ t, stepHead s q = .next t → (t.cluster (g / 8)).qcLast = (s.cluster (g / 8)).qcLast) :
    headInCycle s g q = stepHead s q := by
  rcases h with h | h
  · simp [headInCycle, h, upTo]
  · simp [headInCycle, pushesQc_of_same h]

/-- A step's answer, with a change to the state that it leads to. -/
def changed (o : Out) (f : State → State) : Out :=
  match o with
  | .next t => .next (f t)
  | o => o

/-- The cycle of a core that chooses a context of no gang (R136, R137). -/
theorem coreStep_alone {s : State} {g q : Nat} (hp : lowestPend (s.proc (ctl g)) = none) (ho : slotOpen s g = true)
    (hc : choose s g = some q) (hm : members s q = [q]) (hg : coreOf q = g) :
    coreStep s g = changed (headInCycle s g q) fun t => account t (readyOf s g) (s.proc q).drain g q := by
  have hd : deliverAsync s (ctl g) = s := by simp only [deliverAsync, hp]
  have hcores : slotCores s q = [g] := by rw [slotCores, hm, List.map_singleton, hg]
  simp only [coreStep, hd, ho, hc, hcores, Bool.not_true, Bool.false_eq_true, if_false, List.all_cons, List.all_nil, if_true,
    beq_self_eq_true, Bool.and_self, List.foldl_cons, List.foldl_nil]
  cases headInCycle s g q <;> rfl

theorem step_cycle {s : State} (h : s.agenda = []) : step s = runCycle s := by simp only [step, h]

theorem hartQOf_hartIx {q : Nat} (h : isHart q = true) : hartQOf (hartIx q) = q :=
  Nat.add_sub_of_le (of_decide_eq_true h)

theorem hartStep_tries {s : State} {q : Nat} (hq : isHart q = true) (ht : mayTry s q = true) (hw : towed s (hartIx q) = false) :
    hartStep s (hartIx q) = stepHead s q := by
  rw [hartStep, hartQOf_hartIx hq, ht, hw]
  rfl

/-- Settles O58: the head at the PC of a context and of a hart, the two ways that it is not well formed, and a turn. -/
theorem stepRunsDecoded : Obligations.StepRunsDecoded := by
  unfold Obligations.StepRunsDecoded
  refine ⟨?_, ?_, ?_, ?_, ?_⟩
  · intro s q l n i g pc ha hcur hq hp ho hc hm hg hl hn h1 h2 h0 hd u hqc
    have hhead : stepHead s q = exec i u :=
      (stepHead_context (leader_alone hm) hq ⟨hl, n, hn, h1, h2, h0⟩).trans
        (runLine_ok (.inl (by rw [State.inLine_cur, hq])) (by rw [State.inLine_me, hd]))
    rw [step_cycle ha, runCycle, hcur, if_neg Bool.false_ne_true, coreStep_alone hp ho hc hm hg,
      headInCycle_eq (hqc.imp_right fun h t ht => h t (hhead ▸ ht)), hhead]
    cases exec i u <;> rfl
  · intro s l n i pc ha hh ht htow hl hn h1 h2 h0 hlegal hd
    have hhead : stepHead s s.cur = exec i { s with issued := false } :=
      (stepHead_hart hh ⟨hl, n, hn, h1, h2, h0⟩).trans (runLine_ok (.inr hlegal) hd)
    rw [step_cycle ha, runCycle, hh, if_pos rfl, hartStep_tries hh ht htow, hhead]
    cases exec i { s with issued := false } <;> rfl
  · intro s q l n pc hm hq hl hn h1 h2 h0 hd
    refine (stepHead_context (leader_alone hm) hq ⟨hl, n, hn, h1, h2, h0⟩).trans ?_
    rw [runLine_badFormat (by rw [State.inLine_cur, hq]) (by rw [State.inLine_me, hd]), badHead, State.inLine_me,
      State.inLine_cur]
    rfl
  · intro s q l pc hm hl hn
    exact stepHead_malformed (leader_alone hm) hl hn
  · intro s i inp rest ha hi
    simp only [step, ha, runTurn, hi, if_true]

end Sys2Proof.Machine

namespace Sys2Proof.Machine

/-! ## GANG of size code 0 with qc as its destination (R145, R173)

The clause of GANG with code 0 gives the answer as a head that a gang executes once gives it: by `dstAll`, whose push to qc is
accepted in a later cycle where the cluster has accepted one in this cycle. GANG itself answers as one agent does: by `dst`, whose
push then finds the port full, so that the head waits. -/

theorem endHead_issued (t : State) (i : Instr) (nx : Next) : (endHead t i nx).issued = true := by
  unfold endHead
  split <;> rfl

/-- A head that completes has issued. -/
theorem Completes.issued {i : Instr} {s t : State} {nx : Next} (h : Completes i s t nx) : didIssue (exec i s) = true := by
  rw [h]
  exact endHead_issued _ _ _

/-- The state that an effect leads to, where it succeeds. -/
def endOf (r : EStateM.Result Stop State Unit) : Option State :=
  match r with
  | .ok _ t => some t
  | .error _ _ => none

theorem eq_ok_of_endOf {r : EStateM.Result Stop State Unit} {t : State} (h : endOf r = some t) : r = .ok () t := by
  cases r with
  | ok _ u => rw [Option.some.inj h]
  | error _ _ => exact absurd h (by simp [endOf])

/-- The control context of core 0 moves, and its cluster has accepted a push to qc in the same cycle. -/
def afterPush : State := { procs := [(0, { st := .live })], clusters := [(0, { qcLast := some 1000 })], tide := 1000 }

theorem gang_afterPush_waits : didIssue (exec (.gang 52 0) afterPush) = false := by decide +kernel

/-- Refutes O14: GANG of size code 0 with qc as its destination may run, and its answer would be accepted in the next cycle, but it
waits where another push to qc has been accepted in its cycle. -/
theorem not_gangsComplete : ¬ Obligations.GangsComplete := by
  unfold Obligations.GangsComplete
  rintro ⟨hzero, -, -⟩
  have hready : ready afterPush (.gang 52 0) = true := by decide +kernel
  have halone : (beginHead afterPush (.gang 52 0)).myCore.gsize = 0 := by decide +kernel
  have hpush : (endOf (dstAll 1 52 0 (beginHead afterPush (.gang 52 0)))).any
      (fun t => decide (chunkLines t afterPush.cur ≤ 64)) = true := by decide +kernel
  obtain ⟨w, hw, hlines⟩ := Option.any_eq_true _ _ |>.1 hpush
  have hdone := hzero 52 w afterPush hready ⟨halone, eq_ok_of_endOf hw⟩ (of_decide_eq_true hlines)
  exact absurd (hdone.issued.symm.trans gang_afterPush_waits) (by decide)

end Sys2Proof.Machine

namespace Sys2Proof.Machine

/-! ## The steps of an engine hart (R22, R28, R467) -/

/-! ### A completion that an engine fault ends -/

/-- A request that holds nothing and whose completion goes to a Jetty: it names no handle, no ring and no place in memory, and
its launch is not killed. -/
def HoldsNothing (r : Request) : Prop := r.killed = false ∧ r.toMem = none ∧ r.handles = [] ∧ r.ring = none

section Post
variable {s : State} {r : Request}

theorem releaseHolds_nothing (h : HoldsNothing r) : releaseHolds s r = s := by
  obtain ⟨-, -, hh, hr⟩ := h
  simp only [releaseHolds, hh, hr, List.foldl_nil]

/-- A completion reaches the requester's Jetty. -/
theorem post_jetty (h : HoldsNothing r) (n : Nat) (m : BitVec 128) : post s n r m =
    s.modCore (coreOf r.q) fun c => { c with jetty := c.jetty ++ [m], reserved := c.reserved - 1 } := by
  obtain ⟨hk, hm, -⟩ := h
  simp only [post, hk, hm, Bool.false_eq_true, if_false]

theorem failRequest_unit (h : HoldsNothing r) (n : Nat) (h0 : engineNo r.op ≠ 0) (h4 : engineNo r.op ≠ 4) :
    failRequest s n r = post s n r (frameOf ENGINE_FAULT (engineNo r.op) r.rid.toNat 0 0) := by
  simp only [failRequest, releaseHolds_nothing h, h0, h4, if_false]

theorem failRequest_ferryman (h : HoldsNothing r) (n : Nat) (h4 : engineNo r.op = 4) :
    failRequest s n r = post s n r (frameOf ENGINE_FAULT 4 r.rid.toNat r.sel r.tag) := by
  simp only [failRequest, releaseHolds_nothing h, h4, OfNat.ofNat_ne_zero, if_false, if_true]

end Post

/-! ### ENGINE_KICK_ACCEPT (R22, R24) -/

section Accept
variable {s : State} {r : Request}

theorem execEngineKickAccept_accepts (hr : s.me.reqBuf = some r) (ha : s.inp.a < Config.harts) (hq : queueFull s s.inp.a = false) :
    execEngineKickAccept s = .next ((acceptKick s s.inp.a r).modProc s.cur fun p => { p with reqBuf := none }) := by
  simp only [execEngineKickAccept, hr, ha, hq, and_self, if_true]

theorem acceptKick_running {n : Nat} (h : (s.proc (hartQOf n)).stopped = false) :
    acceptKick s n r = s.modEngine n fun e => { e with queue := e.queue ++ [r] } := by
  simp only [acceptKick, h, Bool.false_eq_true, if_false]

theorem acceptKick_stopped {n : Nat} (h : (s.proc (hartQOf n)).stopped = true) : acceptKick s n r = failRequest s n r := by
  simp only [acceptKick, h, if_true]

end Accept

/-! ### ENGINE_HART_FAULT_STOP (R28, R250, R467) -/

section FaultStop
variable {s : State} {r : Request}

/-- The hart `n` that has stopped, as the step leaves it before its requests end. -/
def State.hartEnded (s : State) (n : Nat) : State :=
  s.modProc (hartQOf n) fun p => { p with st := .ended, wait := .idle, chunk := none }

theorem State.hartEnded_st (s : State) (n : Nat) : ((s.hartEnded n).proc (hartQOf n)).st = .ended :=
  congrArg Proc.st (State.proc_modProc _ _ _)

/-- The state in which the stopped hart is named and the Ferryman is told. -/
def State.reported (t s : State) : State :=
  raiseEvent (pushEfault t (hartClass s.inp.a).1 (hartClass s.inp.a).2 (s.inp.b % 256) s.inp.w)
    { kind := 5, vf := (s.proc (hartQOf s.inp.a)).vf }

theorem execEngineHartFaultStop_stops (ha : s.inp.a < Config.harts) (hst : (s.proc (hartQOf s.inp.a)).stopped = true)
    (he : (s.proc (hartQOf s.inp.a)).st ≠ .ended) :
    execEngineHartFaultStop s = .next ((failHart (s.hartEnded s.inp.a) s.inp.a).reported s) := by
  simp only [execEngineHartFaultStop, ha, hst, he, ne_eq, not_false_eq_true, and_self, if_true]
  rfl

theorem pushEfault_room {cls ix c : Nat} {pc : Word} (h : s.efaults.length < 16) :
    (pushEfault s cls ix c pc).efaults =
      s.efaults ++ [wNat (1 + 2 * cls + 2 ^ 4 * ix + 2 ^ 18 * c + 2 ^ 32 * (pc.toNat % 2 ^ 32))] := by
  simp only [pushEfault, h, if_true]
  rfl

/-- Nothing but the record and the interrupt is new. -/
theorem pushEfault_frame (cls ix c : Nat) (pc : Word) : pushEfault s cls ix c pc =
    { s with efaults := (pushEfault s cls ix c pc).efaults, efOvf := (pushEfault s cls ix c pc).efOvf, msix := s.msix ++ [(0, 1)] } := by
  unfold pushEfault
  split <;> rfl

@[simp] theorem State.reported_proc (t s : State) (q : Nat) : (t.reported s).proc q = t.proc q := by
  rw [State.reported, pushEfault_frame]
  rfl

@[simp] theorem State.reported_core (t s : State) (g : Nat) : (t.reported s).core g = t.core g := by
  rw [State.reported, pushEfault_frame]
  rfl

@[simp] theorem State.reported_engine (t s : State) (n : Nat) : (t.reported s).engine n = t.engine n := by
  rw [State.reported, pushEfault_frame]
  rfl

@[simp] theorem State.reported_msix (t s : State) : (t.reported s).msix = t.msix ++ [(0, 1)] := by
  rw [State.reported, pushEfault_frame]
  rfl

@[simp] theorem State.reported_devents (t s : State) :
    (t.reported s).devents = t.devents ++ [{ kind := 5, vf := (s.proc (hartQOf s.inp.a)).vf }] := by
  rw [State.reported, pushEfault_frame]
  rfl

/-- A Barge is of class 0, its index its hart's (R466). -/
theorem State.reported_efaults_barge {t : State} (ha : s.inp.a < 640) (h : t.efaults.length < 16) : (t.reported s).efaults =
    t.efaults ++ [wNat (1 + 2 ^ 4 * s.inp.a + 2 ^ 18 * (s.inp.b % 256) + 2 ^ 32 * (s.inp.w.toNat % 2 ^ 32))] := by
  have hc : hartClass s.inp.a = (0, s.inp.a) := by simp only [hartClass, ha, if_true]
  rw [State.reported, hc]
  exact pushEfault_room h

/-- The engine `n`, with nothing in its queues and its slots. -/
def State.emptied (s : State) (n : Nat) : State := s.modEngine n fun e => { e with queue := [], fwd := [], slots := [] }

theorem Engine.slots_of_all {e : Engine} (h : e.all = []) : e.slots.vals = [] := (List.append_eq_nil_iff.1 h).2

/-- A Barge that serves nothing ends nothing. -/
theorem failHart_bargeIdle {n : Nat} (hn : n < 640) (h : (s.engine n).all = []) : failHart s n = s.emptied n := by
  have hs : isSequencer n = false := by simp [isSequencer, Nat.not_le.2 hn]
  have hf : ¬ (13440 ≤ n ∧ n < 13456) := by omega
  have hv : (s.engine n).slots.vals = [] := Engine.slots_of_all h
  simp only [failHart, hs, hf, hn, h, hv, Bool.false_eq_true, if_false, if_true, List.foldl_nil]
  rfl

theorem failHart_ferryman (h : (s.engine ferryman).all = [r]) :
    failHart s ferryman = failRequest (s.emptied ferryman) ferryman r := by
  have hs : isSequencer ferryman = false := by decide
  have hf : ¬ (13440 ≤ ferryman ∧ ferryman < 13456) := by decide
  have hb : ¬ ferryman < 640 := by decide
  simp only [failHart, hs, hf, hb, h, Bool.false_eq_true, if_false, List.foldl_cons, List.foldl_nil]
  rfl

end FaultStop

/-- Settles O43: the engine accepts or answers at once, and a stopped hart ends what it holds and is reported. -/
theorem engineStepsComplete : Obligations.EngineStepsComplete := by
  unfold Obligations.EngineStepsComplete
  refine ⟨?_, ?_, ?_, ?_⟩
  · rintro r s ⟨hr, ha, hq, hrun⟩
    exact (execEngineKickAccept_accepts hr ha hq).trans (by rw [acceptKick_running hrun])
  · rintro r s ⟨hr, ha, hq, hst, h0, h4, hnone⟩
    refine ⟨_, execEngineKickAccept_accepts hr ha hq, ?_⟩
    rw [acceptKick_stopped hst, failRequest_unit hnone _ h0 h4, post_jetty hnone]
    simp [State.me, ENGINE_FAULT]
  · rintro s ⟨ha, hst, he, hroom, hall⟩
    refine ⟨_, execEngineHartFaultStop_stops (ha.trans (by decide)) hst he, ?_⟩
    have hend : failHart (s.hartEnded s.inp.a) s.inp.a = (s.hartEnded s.inp.a).emptied s.inp.a := failHart_bargeIdle ha hall
    simp only [hend, State.reported_efaults_barge ha (t := (s.hartEnded s.inp.a).emptied s.inp.a) hroom, State.reported_proc,
      State.reported_msix, State.reported_devents, List.mem_append, List.mem_singleton, or_true]
    exact ⟨State.hartEnded_st s s.inp.a, rfl, trivial, rfl⟩
  · rintro r s ⟨ha, hst, he, hall, h4, hnone⟩
    refine ⟨_, execEngineHartFaultStop_stops (by rw [ha]; decide) hst he, hall, ?_⟩
    rw [ha] at hall ⊢
    have hend : failHart (s.hartEnded ferryman) ferryman =
        ((s.hartEnded ferryman).emptied ferryman).modCore (coreOf r.q) fun c =>
          { c with jetty := c.jetty ++ [frameOf ENGINE_FAULT 4 r.rid.toNat r.sel r.tag], reserved := c.reserved - 1 } := by
      rw [failHart_ferryman (s := s.hartEnded ferryman) hall, failRequest_ferryman hnone _ h4, post_jetty hnone]
    simp only [hend, State.reported_engine, State.reported_core, State.modCore_same, State.modCore_engine]
    exact ⟨congrArg Engine.all (State.modEngine_same _ _ _), rfl⟩

end Sys2Proof.Machine

namespace Sys2Proof.Machine

/-! ## The steps that end waits (R29, R135, R140, R152, R178, R179, R191, R247) -/

/-! ### Writes of tpin and hbind (R135, R191, R222) -/

theorem coreOf_ctl (g : Nat) : coreOf (ctl g) = g := Nat.mul_div_cancel_left g (by decide)

theorem pinTo_fetched {u t : State} {v : Word} {ps : List (Nat × Line)} (h : fetchPins u u.cur (pinLines v) = .ok (t, ps)) :
    pinTo v u = .ok () (t.modCore (coreOf u.cur) fun c => { c with tpin := v, pins := ps }) := by
  simp only [pinTo, Eff.bind_apply, Eff.get_apply, h]
  rfl

theorem masked_low32 (v : Word) : masked v 0xFFFFFFFF = wNat (v.toNat % 2 ^ 32) := by
  have h : (masked v 0xFFFFFFFF).toNat = v.toNat % 2 ^ 32 := (BitVec.toNat_and _ _).trans (Nat.and_two_pow_sub_one_eq_mod _ 32)
  refine BitVec.eq_of_toNat_eq ?_
  rw [h, wNat, BitVec.toNat_ofNat]
  omega

theorem writeHbind_apply (v : Word) (u : State) : writeHbind v u =
    .ok () (u.modCore (coreOf u.cur) fun c => { c with hbind := wNat (v.toNat % 2 ^ 32), bins := [], hsat := false }) := by
  rw [← masked_low32]
  rfl

theorem execTpinWrite_fetched {s t : State} {ps : List (Nat × Line)}
    (h : fetchPins { s with cur := ctl s.inp.a } (ctl s.inp.a) (pinLines s.inp.w) = .ok (t, ps)) :
    execTpinWrite s = .next (t.modCore s.inp.a fun c => { c with tpin := s.inp.w, pins := ps }) := by
  rw [execTpinWrite, runPart, pinTo_fetched h, coreOf_ctl]

theorem execHbindWrite_clears (s : State) : execHbindWrite s = .next (({ s with cur := ctl s.inp.a } : State).modCore s.inp.a
    fun c => { c with hbind := wNat (s.inp.w.toNat % 2 ^ 32), bins := [], hsat := false }) := by
  rw [execHbindWrite, runPart, writeHbind_apply, coreOf_ctl]

/-! ### A timed phase begins (R140, R175) -/

theorem NoNewChunk.modProc (u : Nat) (s : State) (q : Nat) (f : Proc → Proc) (h : ∀ p, p.chunk = none → (f p).chunk = none) :
    NoNewChunk u s (s.modProc q f) := by
  intro hu
  rw [State.proc_modProc_eq]
  split
  next hq => exact h _ (hq ▸ hu)
  · exact hu

theorem commitChunk_noNew (u : Nat) (s : State) (q : Nat) : NoNewChunk u s (commitChunk s q) := by
  unfold commitChunk
  split
  · exact id
  next c _ =>
    simp only
    refine NoNewChunk.trans ?_ (.foldl (α := Nat × Regs) _ (fun t e => .modProc u t e.1 _ ?_) _ _)
    case refine_2 => exact fun _ h => h
    refine NoNewChunk.trans ?_ (.foldl (α := Nat × Nat) _ (fun t e => (addBin_sameChunks t _ _ _).noNew u) _ _)
    refine NoNewChunk.trans ?_ (performBytes_noNew u _ _)
    exact .modProc u s q _ fun _ _ => rfl

theorem endChunk_noNew (u : Nat) (s : State) (q : Nat) : NoNewChunk u s (endChunk s q) :=
  (commitChunk_noNew u s q).trans (NoNewChunk.modProc u _ q _ fun _ h => h)

theorem endChunk_none (s : State) (q : Nat) : ((endChunk s q).proc q).chunk = none :=
  (congrArg Proc.chunk (State.proc_modProc _ _ _)).trans (commitChunk_none s q)

/-- The control context's chunk closes first, and no chunk opens after it. -/
theorem closeChunks_none (s : State) (g : Nat) : ((closeChunks s g).proc (ctl g)).chunk = none := by
  have hslots : upTo 11 = 0 :: List.range' 1 10 := by decide
  rw [closeChunks, hslots, List.foldl_cons]
  exact NoNewChunk.foldl _ (fun t k => endChunk_noNew (ctl g) t (ctl g + k)) _ _ (endChunk_none s (ctl g))

theorem closeChunks_cur (s : State) (g : Nat) : (closeChunks s g).cur = s.cur := by
  refine (Inner.foldl _ (fun t k => ?_) _ _).cur
  exact (commitChunk_inner _ _).trans (Inner.modProc _ _ _)

theorem State.with_cur {t : State} {q : Nat} (h : t.cur = q) : ({ t with cur := q } : State) = t := by
  subst h
  rfl

/-- The state in which a timed phase begins for the control context of core `g`, the chunks of the core closed. -/
def State.phaseBegun (u : State) (g : Nat) : State := (closeChunks u g).modProc (ctl g) fun p => { p with timed := true }

theorem State.phaseBegun_cur (u : State) (g : Nat) : (u.phaseBegun g).cur = u.cur :=
  (State.modProc_cur _ _ _).trans (closeChunks_cur u g)

theorem State.phaseBegun_lines (u : State) (g : Nat) : chunkLines (u.phaseBegun g) (ctl g) = 0 := by
  have hopen : NoNewChunk (ctl g) (closeChunks u g) (u.phaseBegun g) := .modProc _ _ _ _ fun _ h => h
  exact chunkLines_none (hopen (closeChunks_none u g))

/-- A timed phase begins for a control context in no gang. -/
theorem enterTimed_alone {u : State} {g : Nat} (h : u.cur = ctl g) : enterTimed u = .ok { delay := 4 } (u.phaseBegun g) := by
  have hclosed : (closeChunks u g).cur = ctl g := (closeChunks_cur u g).trans h
  simp only [enterTimed, Eff.bind_apply, Eff.modify_apply, modMe_apply, h, coreOf_ctl, hclosed]
  rfl

/-- PHASE.T of a control context in no gang whose core is quiet. -/
theorem execPhaseT_quiet {s : State} {g : Nat} (hs : s.cur = ctl g) (hr : ready s .phaseT = true) (ha : alone s = true)
    (hq : coreQuiet (beginHead s .phaseT) g = true) :
    execPhaseT s = .next (endHead ((beginHead s .phaseT).phaseBegun g) .phaseT { delay := 4 }) := by
  have hcur : (beginHead s .phaseT).cur = ctl g := (beginHead_cur _ _).trans hs
  have hm : members (beginHead s .phaseT) (ctl g) = [ctl g] := by
    have := beginHead_alone (i := .phaseT) ha
    rwa [hcur] at this
  have hlines : chunkLines ((beginHead s .phaseT).phaseBegun g) s.cur ≤ 64 := by
    rw [hs, State.phaseBegun_lines]
    exact Nat.zero_le _
  unfold execPhaseT runHead
  rw [exec_alone hr ha (t := (beginHead s .phaseT).phaseBegun g) (nx := { delay := 4 }) ?_ hlines,
    State.with_cur ((State.phaseBegun_cur _ g).trans (beginHead_cur _ _))]
  simp only [Eff.bind_apply, Eff.get_apply, hcur, hm, List.all_cons, List.all_nil, coreOf_ctl, hq, Bool.and_self, if_true,
    enterTimed_alone hcur]

theorem execTimedPhaseEntry_waiting {s : State} (h : (s.proc (ctl s.inp.a)).wait = .phase) :
    execTimedPhaseEntry s = execPhaseT { s with cur := ctl s.inp.a } := by
  simp only [execTimedPhaseEntry, h, beq_self_eq_true, if_true]

/-! ### The head that a context waits in completes -/

/-- The agent `p` of `q` behind its wait (R37): at the next head, which issues no earlier than the next cycle. -/
def goneOn (s : State) (q : Nat) (p : Proc) : Proc :=
  { p with
    r := { p.r with pc := nextPc s q p.r.pc }
    icount := p.icount + 1, waited := 0, skipBp := false, wait := .idle
    resumeAt := if p.resumeAt.toNat < s.tide.toNat + 1 then s.tide + 1 else p.resumeAt }

theorem completeWait_alone {s : State} {q : Nat} (hm : members s q = [q]) (hs : (s.proc q).single = false) :
    completeWait s q = { s.modProc q (goneOn s q) with cur := q, issued := true } := by
  have he : endsChunk .waitmsg = true := by decide
  have hm' : members { s with cur := q } q = [q] := hm
  have hs' : (State.proc { s with cur := q } q).single = false := hs
  simp only [completeWait, endHead, hm', leader_alone hm', he, seqNext, Bool.not_true, Bool.and_false, Bool.false_eq_true, if_false,
    List.foldl_cons, List.foldl_nil, State.proc_modProc, hs', Option.getD_none]
  rfl

theorem completeWait_done {s : State} {q : Nat} (hm : members s q = [q]) (hs : (s.proc q).single = false) :
    ((completeWait s q).proc q).wait = .idle ∧ ((completeWait s q).proc q).r.pc = nextPc s q (s.proc q).r.pc ∧
    ∀ p, p ≠ q → (completeWait s q).proc p = s.proc p := by
  have hme : (completeWait s q).proc q = goneOn s q (s.proc q) := by
    rw [completeWait_alone hm hs]
    exact State.proc_modProc _ _ _
  refine ⟨by rw [hme]; rfl, by rw [hme]; rfl, fun p hp => ?_⟩
  rw [completeWait_alone hm hs]
  exact State.proc_modProc_ne _ _ _ _ hp

theorem execWaitmemWake_hit {s : State} {l : Nat} {d : Word} (h : (s.proc s.inp.a).wait = .mem l d true) :
    execWaitmemWake s = .next (completeWait s s.inp.a) := by simp only [execWaitmemWake, h]

theorem execWaitmemTimeout_due {s : State} {l : Nat} {d : Word} {hit : Bool} (h : (s.proc s.inp.a).wait = .mem l d hit)
    (hd : d.toNat ≤ s.tide.toNat) : execWaitmemTimeout s = .next (completeWait s s.inp.a) := by
  simp only [execWaitmemTimeout, h, hd, if_true]

theorem execEvwaitWake_written {s : State} {l : Nat} (h : (s.proc s.inp.a).wait = .ev l true) :
    execEvwaitWake s = .next (s.modProc s.inp.a fun p => { p with wait := .idle }) := by simp only [execEvwaitWake, h]

theorem execEngineHartWake_wakes {s : State} (ha : s.inp.a < Config.harts) (hw : (s.proc (hartQOf s.inp.a)).wait = .hartIdle)
    (hk : wakes s s.inp.a = true) : execEngineHartWake s = .next (completeWait s (hartQOf s.inp.a)) := by
  simp only [execEngineHartWake, ha, hw, hk, and_self, if_true]

/-- An engine hart is in no gang. -/
theorem members_hart (s : State) (h : Nat) : members s (hartQOf h) = [hartQOf h] := by
  have hq : isHart (hartQOf h) = true := decide_eq_true (Nat.le_add_right _ _)
  simp [members, hq]

/-! ### An asynchronous trap is taken (R150, R152) -/

/-- Of the lowest pending trap so far and another one, the lower. -/
def lowerPend (m : Option (Nat × Word)) (e : Nat × Word) : Option (Nat × Word) :=
  match m with
  | none => some e
  | some x => if e.1 < x.1 then some e else some x

/-- A trap whose code is below every other one's stays the lowest. -/
theorem foldl_lowerPend {c : Nat} {v : Word} (l : List (Nat × Word)) (m : Option (Nat × Word))
    (hm : ∀ x ∈ m, x = (c, v) ∨ c < x.1) (hl : ∀ e ∈ l, e = (c, v) ∨ c < e.1) (h : m = some (c, v) ∨ (c, v) ∈ l) :
    l.foldl lowerPend m = some (c, v) := by
  induction l generalizing m with
  | nil => exact h.resolve_right List.not_mem_nil
  | cons e l ih =>
    have he := hl e List.mem_cons_self
    refine ih _ ?_ (fun x hx => hl x (List.mem_cons_of_mem _ hx)) ?_
    · -- what is kept is `m`'s or `e`
      cases m <;> grind [lowerPend]
    · -- `(c, v)` is kept where it is, taken from `e`, or still to come
      cases m <;> grind [lowerPend]

theorem lowestPend_eq (p : Proc) : lowestPend p = p.pend.foldl lowerPend none :=
  congrArg (fun f => p.pend.foldl f none) (funext fun m => funext fun _ => by cases m <;> rfl)

theorem lowestPend_of_least {p : Proc} {c : Nat} {v : Word} (h : (c, v) ∈ p.pend) (hl : ∀ e ∈ p.pend, e = (c, v) ∨ c < e.1) :
    lowestPend p = some (c, v) :=
  (lowestPend_eq p).trans (foldl_lowerPend p.pend none nofun hl (.inr h))

section Async
variable {s : State} {q c : Nat} {v : Word} {l : Line}

theorem takesAsync_idle {p : Proc} (hl : p.st = .live) (hs : p.stopped = false) (ha : p.aen = true) (hi : p.intrap = false)
    (hw : p.wait = .idle) : takesAsync p = true := by
  simp [takesAsync, hl, hs, ha, hi, hw]

/-- The control context `q`, in no gang, may take its pending trap `(c, v)` at once: it waits for nothing, its chunk is closed,
and no result of it is on its way (R152). -/
def TakesPend (s : State) (q c : Nat) (v : Word) : Prop :=
  let p := s.proc q
  (isHart q = false ∧ slotOf q = 0 ∧ members s q = [q] ∧ s.halted (clusterOf q) = false) ∧ takesAsync p = true ∧
  lowestPend p = some (c, v) ∧ p.wait = .idle ∧ p.chunk = none ∧ p.flight = [] ∧ p.partCounts = []

/-- The handler of context `q` is a head of the resident line `l`, and the context is in no handler. -/
def HandlerIn (s : State) (q : Nat) (l : Line) : Prop :=
  let p := s.proc q
  p.intrap = false ∧ p.tvec ≠ 0 ∧ p.tvec.getLsbD 0 = false ∧ residentLine s q (lineBase p.tvec) = some l ∧
  ∃ n, l.check = some n ∧ 1 ≤ headIndex p.tvec ∧ headIndex p.tvec ≤ n

/-- What a delivery leaves of an agent before the trap is entered. -/
def deliverPend (e : Nat × Word) (p : Proc) : Proc := { p with pend := p.pend.erase e, wait := .idle }

theorem deliverAsync_takes (h : TakesPend s q c v) :
    deliverAsync s q = takeTrap (s.modProc q (deliverPend (c, v))) q c (s.proc q).r.pc v true := by
  obtain ⟨⟨hh, hslot, hm, hhalt⟩, ht, hp, hw, hc, -⟩ := h
  have hm1 : ∀ f, members (s.modProc q f) q = [q] := fun _ => hm
  have hend : endWaitForTrap (s.modProc q fun p => { p with pend := p.pend.erase (c, v) }) [q] =
      s.modProc q (deliverPend (c, v)) := by
    simp only [endWaitForTrap, List.any_cons, List.any_nil, State.proc_modProc, hw, endsByTrap, Bool.or_self, Bool.false_eq_true,
      if_false, List.foldl_cons, List.foldl_nil, modProc_modProc]
    rfl
  have hnone : ((s.modProc q (deliverPend (c, v))).proc q).chunk = none := by
    rw [State.proc_modProc]
    exact hc
  simp only [deliverAsync, hp, hslot, hh, hhalt, ht, hm1, hend, leader_alone (hm1 _), commitChunk_of_none _ _ hnone,
    bne_self_eq_false, Bool.not_true, Bool.or_self, Bool.false_eq_true, if_false]
  rw [State.proc_modProc]
  rfl

/-! ### The handler's entry -/

theorem flushFlight_empty (h : (s.proc q).flight = []) : flushFlight s q = s := by
  simp only [flushFlight, h, List.isEmpty_nil, if_true]

theorem addParts_empty (h : (s.proc q).partCounts = []) : addParts s q = s := by
  simp only [addParts, h, List.isEmpty_nil, if_true]

/-- The lines that a context may run without a fetch depend on those it holds, not on the rest of its state. -/
theorem residentLine_modProc {f : Proc → Proc} {la : Nat} (hh : isHart q = false) (hc : (f (s.proc q)).copy = (s.proc q).copy)
    (hl : (f (s.proc q)).lines = (s.proc q).lines) : residentLine (s.modProc q f) q la = residentLine s q la := by
  simp only [residentLine, hh, State.proc_modProc, hc, hl, State.modProc_core, Bool.false_eq_true, if_false]

/-- The lines of a context that has kept line `la`. -/
def keptLines (p : Proc) (la : Nat) (l : Line) : List (Nat × Line) :=
  if p.copy.map (·.1) = some la then p.lines else FMap.put p.lines la l

theorem keepLine_proc (la : Nat) (l : Line) (hh : isHart q = false) :
    (keepLine s q la l).proc q = { s.proc q with lines := keptLines (s.proc q) la l } := by
  unfold keepLine keptLines
  by_cases h : (s.proc q).copy.map (·.1) = some la
  · simp [hh, h]
  · simp [hh, h]

theorem HandlerIn.checkTarget {f : Proc → Proc} (h : HandlerIn s q l) (hh : isHart q = false)
    (hc : (f (s.proc q)).copy = (s.proc q).copy) (hl : (f (s.proc q)).lines = (s.proc q).lines) :
    checkTarget (s.modProc q f) q (s.proc q).tvec = .ok (keepLine (s.modProc q f) q (lineBase (s.proc q).tvec) l) := by
  obtain ⟨-, -, h0, hres, n, hn, h1, h2⟩ := h
  have hne : ¬ headIndex (s.proc q).tvec = 0 := Nat.one_le_iff_ne_zero.1 h1
  have hf := fetchLine_resident ((residentLine_modProc hh hc hl).trans hres) hn
  simp only [Sys2Proof.Machine.checkTarget, h0, hne, hf, hn, h1, h2, Option.getD_some, Bool.false_eq_true, or_self, if_false,
    and_self, if_true]

/-- A context as an asynchronous trap enters it, before its PC is the handler's (R150). -/
def asyncEntered (tide : Word) (c : Nat) (pcAt v : Word) (p : Proc) : Proc :=
  { p with
    cause := BitVec.ofNat 64 (c + 256), epc := pcAt, tval := v, ptim := p.timed, intrap := true, timed := false, wait := .idle,
    waited := 0, resumeAt := if p.resumeAt.toNat ≤ tide.toNat then tide + 1 else p.resumeAt }

/-- The agent that an asynchronous trap leaves: at its handler, whose line it keeps. -/
theorem takeTrap_async_proc {pcAt : Word} (h : HandlerIn s q l) (hh : isHart q = false) (hfl : (s.proc q).flight = [])
    (hpc : (s.proc q).partCounts = []) : (takeTrap s q c pcAt v true).proc q =
      { asyncEntered s.tide c pcAt v (s.proc q) with
        lines := keptLines (s.proc q) (lineBase (s.proc q).tvec) l, r := { (s.proc q).r with pc := (s.proc q).tvec } } := by
  have henter : (s.modProc q fun p => { p with
      cause := BitVec.ofNat 64 (c + 256), epc := pcAt, tval := v, ptim := p.timed && true, intrap := true, timed := false,
      wait := .idle, waited := 0, resumeAt := if p.resumeAt.toNat ≤ s.tide.toNat then s.tide + 1 else p.resumeAt }) =
      s.modProc q (asyncEntered s.tide c pcAt v) := modProc_congr (by rw [asyncEntered, Bool.and_true])
  have hcheck := h.checkTarget (f := asyncEntered s.tide c pcAt v) hh rfl rfl
  obtain ⟨hi, ht, -⟩ := h
  have htvec : ((s.proc q).tvec == 0) = false := beq_eq_false_iff_ne.2 ht
  simp only [takeTrap, flushFlight_empty hfl, addParts_empty hpc, hi, htvec, hh, Bool.or_self, Bool.false_eq_true, if_false, if_true,
    Bool.not_false, henter, hcheck, State.proc_modProc, keepLine_proc _ _ hh]
  rfl

/-- The agent that a delivery leaves (R150, R152). -/
theorem deliverAsync_proc (h : TakesPend s q c v) (hin : HandlerIn s q l) : (deliverAsync s q).proc q =
    { asyncEntered s.tide c (s.proc q).r.pc v (deliverPend (c, v) (s.proc q)) with
      lines := keptLines (s.proc q) (lineBase (s.proc q).tvec) l, r := { (s.proc q).r with pc := (s.proc q).tvec } } := by
  have hproc := State.proc_modProc s q (deliverPend (c, v))
  rw [deliverAsync_takes h]
  obtain ⟨⟨hh, -⟩, -, -, -, -, hfl, hpc⟩ := h
  have hin' : HandlerIn (s.modProc q (deliverPend (c, v))) q l := by
    obtain ⟨hi, ht, h0, hres, hn⟩ := hin
    unfold HandlerIn
    rw [hproc]
    exact ⟨hi, ht, h0, (residentLine_modProc hh rfl rfl).trans hres, hn⟩
  rw [takeTrap_async_proc hin' hh (by rw [hproc]; exact hfl) (by rw [hproc]; exact hpc), hproc]
  rfl

end Async

/-! ### A barrier releases (R178, R235) -/

theorem ctl_inj {g h : Nat} (e : ctl g = ctl h) : g = h := Nat.eq_of_mul_eq_mul_left (by decide) e

/-- A member of a barrier learns the cycle in which it goes on. -/
def freed (due : Word) (p : Proc) : Proc :=
  match p.wait with
  | .sync _ _ _ => { p with wait := .released due }
  | _ => p

theorem freed_freed (due : Word) (p : Proc) : freed due (freed due p) = freed due p := by
  unfold freed
  cases h : p.wait <;> simp [h]

/-- A change that is made to each control context of a list, and that a second time changes nothing. -/
theorem foldl_modProc_ctl {f : Proc → Proc} (hf : ∀ p, f (f p) = f p) (gs : List Nat) (s : State) (g : Nat) :
    (gs.foldl (fun t h => t.modProc (ctl h) f) s).proc (ctl g) = if g ∈ gs then f (s.proc (ctl g)) else s.proc (ctl g) := by
  induction gs generalizing s with
  | nil => rfl
  | cons h gs ih =>
    rw [List.foldl_cons, ih, State.proc_modProc_eq]
    by_cases hg : g = h
    · subst hg
      simp [hf]
    · have hne : ctl g ≠ ctl h := fun e => hg (ctl_inj e)
      simp [hg, hne]

section Barrier
variable {s : State} {l : Launch} {lv dom : Nat} {remote : List (Nat × Nat × Nat)}

/-- The time at which a member of this package arrived; a halted core has none. -/
def arrivedAt (s : State) (lv dom g : Nat) : Option Nat :=
  match arrivalOf s lv dom g with
  | some (some x) => some x.toNat
  | _ => none

/-- The times of the members of this package. -/
def arrivalTimes (s : State) (l : Launch) (lv dom : Nat) : List Nat := (domainCores s l lv dom).filterMap (arrivedAt s lv dom)

/-- When a barrier releases: a level's constant after the latest arrival. -/
def releaseCycle (s : State) (l : Launch) (lv dom : Nat) (remote : List (Nat × Nat × Nat)) : Word :=
  wNat ((arrivalTimes s l lv dom ++ remote.map (·.1)).foldl max 0 + syncConst lv)

/-- The latest of the members, however they are named beside their times. -/
theorem latest_member {f : Nat → Option (Nat × Nat × Nat)} (h : ∀ g, (f g).map (·.1) = arrivedAt s lv dom g) :
    BitVec.ofNat 64 (((domainCores s l lv dom).filterMap f ++ remote).foldl (fun m e => max m e.1) 0 + syncConst lv) =
      releaseCycle s l lv dom remote := by
  have htimes : ((domainCores s l lv dom).filterMap f).map (·.1) = arrivalTimes s l lv dom := by
    rw [List.map_filterMap]
    exact List.filterMap_congr fun g _ => h g
  rw [releaseCycle, ← htimes, ← List.map_append, List.foldl_map]
  rfl

/-- Each member of the domain that waits at the barrier is released. -/
theorem releaseBarrier_proc {g : Nat} (hg : g ∈ domainCores s l lv dom) :
    (releaseBarrier s l lv dom remote).proc (ctl g) = freed (releaseCycle s l lv dom remote) (s.proc (ctl g)) := by
  unfold releaseBarrier
  simp only
  rw [latest_member fun h => by unfold arrivedAt; rcases arrivalOf s lv dom h with _ | _ | x <;> rfl]
  refine (foldl_modProc_ctl (freed_freed (releaseCycle s l lv dom remote)) (domainCores s l lv dom) _ g).trans ?_
  rw [if_pos hg]
  refine congrArg (freed _) ?_
  split
  · split <;> rfl
  · rfl

theorem releaseBarrier_wait {g : Nat} {t : Word} (hg : g ∈ domainCores s l lv dom) (hw : (s.proc (ctl g)).wait = .sync lv dom t) :
    ((releaseBarrier s l lv dom remote).proc (ctl g)).wait = .released (releaseCycle s l lv dom remote) := by
  rw [releaseBarrier_proc hg, freed, hw]

/-- Every core of the domain on this package has arrived or halted. -/
def AllArrived (s : State) (l : Launch) (lv dom : Nat) : Prop :=
  ∀ g ∈ domainCores s l lv dom, (s.proc (ctl g)).st = .ended ∨ ∃ t, (s.proc (ctl g)).wait = .sync lv dom t

theorem barrierReady_of_arrived (h : AllArrived s l lv dom) : barrierReady s l lv dom = true := by
  refine List.all_eq_true.2 fun g hg => ?_
  rcases h g hg with he | ⟨t, hw⟩
  · simp [arrivalOf, he]
  · cases hst : (s.proc (ctl g)).st <;> simp [arrivalOf, hst, hw]

theorem execBarrierRelease_releases (hl : launchOf s s.inp.c = some l) (h1 : 1 ≤ s.inp.a) (h4 : s.inp.a ≤ 4)
    (ha : AllArrived s l s.inp.a s.inp.b)
    (hr : (if s.inp.a = 4 then remoteArrivals s.inp.ints else []) = remote)
    (ho : othersArrived s l s.inp.a remote s.inp.w.toNat = true) :
    execBarrierRelease s = .next (releaseBarrier s l s.inp.a s.inp.b remote) := by
  simp only [execBarrierRelease, hl, hr, h1, h4, barrierReady_of_arrived ha, ho, and_self, if_true]

end Barrier

theorem syncConst_local {lv : Nat} (h1 : 1 ≤ lv) (h3 : lv ≤ 3) :
    syncConst lv = if lv = 1 then 16 else if lv = 2 then 64 else 256 := by
  obtain rfl | rfl | rfl : lv = 1 ∨ lv = 2 ∨ lv = 3 := by omega
  all_goals rfl

/-- Below domain level a barrier meets no other package. -/
theorem othersArrived_local {s : State} {l : Launch} {lv : Nat} (h : lv ≤ 3) : othersArrived s l lv [] 0 = true := by
  have hne : lv ≠ 4 := by omega
  simp [othersArrived, otherPackages, hne]

theorem othersArrived_domain {s : State} {l : Launch} {remote : List (Nat × Nat × Nat)} {n : Nat}
    (h : ((remote.map fun e => e.2.1).filter (· ≠ s.fab.node)).eraseDups.length + n = (l.rec16.getD 2 0).toNat / 2 ^ 44 % 2 ^ 12) :
    othersArrived s l 4 remote n = true := by
  have hne : (fun x => x != s.fab.node) = fun x => decide (x ≠ s.fab.node) := funext fun x => Bool.eq_iff_iff.2 (by simp)
  rw [othersArrived, hne]
  exact decide_eq_true h

/-- Settles O41: one case for each step that ends a wait. -/
theorem waitsEnd : Obligations.WaitsEnd := by
  unfold Obligations.WaitsEnd
  refine ⟨?_, ?_, ?_, ?_, ?_, ?_, ?_, ?_, ?_, ?_⟩
  · rintro code val l n s ⟨hh, hslot, hm, hhalt, hlive, hst, hae, hi, hw, hc, hfl, hpc, hmem, hleast, ht, h0, hl, hn, h1, h2⟩
    have htake : TakesPend s s.inp.a code val := ⟨⟨hh, hslot, hm, hhalt⟩, takesAsync_idle hlive hst hae hi hw,
      lowestPend_of_least hmem hleast, hw, hc, hfl, hpc⟩
    refine ⟨_, rfl, (deliverAsync_proc htake ⟨hi, ht, h0, hl, n, hn, h1, h2⟩).trans ?_⟩
    rw [asyncEntered, deliverPend, ← hw, Nat.add_comm code]
    rfl
  · rintro w ps s ⟨hf, -⟩
    exact execTpinWrite_fetched hf
  · rintro s -
    exact execHbindWrite_clears s
  · intro s q u hw hr ha hq
    exact (execTimedPhaseEntry_waiting hw).trans (execPhaseT_quiet rfl hr ha hq)
  · rintro l d s ⟨hm, hw, hs⟩
    exact ⟨_, execWaitmemWake_hit hw, completeWait_done hm hs⟩
  · rintro l d hit s ⟨hm, hw, hs, hd⟩
    exact ⟨_, execWaitmemTimeout_due hw hd, completeWait_done hm hs⟩
  · rintro l s ⟨hl, h1, h3, hw0, ha⟩
    have h4 : s.inp.a ≠ 4 := by omega
    refine ⟨_, execBarrierRelease_releases hl h1 (h3.trans (by decide)) ha (if_neg h4) (hw0 ▸ othersArrived_local h3), ?_⟩
    intro g hg t0 hwait
    rw [releaseBarrier_wait hg hwait, releaseCycle, syncConst_local h1 h3, List.map_nil, List.append_nil]
    rfl
  · rintro l others s ⟨hl, h4, hr, ho, ha⟩
    rw [← h4] at ha
    refine ⟨_, execBarrierRelease_releases hl (by omega) h4.le ha ((if_pos h4).trans hr) (h4 ▸ othersArrived_domain ho), ?_⟩
    intro g hg t0 hwait
    rw [h4, releaseBarrier_wait hg hwait]
    rfl
  · rintro l s hw
    exact execEvwaitWake_written hw
  · rintro s ⟨ha, hw, hk, hs⟩
    exact ⟨_, execEngineHartWake_wakes ha hw hk, completeWait_done (members_hart s _) hs⟩

end Sys2Proof.Machine

namespace Sys2Proof

/-! ### Reading a field back from a tail (R41) -/

/-- The fields leave the bits `lo` to `hi - 1` zero: each starts at `hi` or above, the last may lie below `lo` instead. -/
def LeaveFree (lo hi : Nat) : List (Nat × Nat) → Prop
  | [] => True
  | [f] => hi ≤ f.2 ∨ f.1 * 2 ^ f.2 < 2 ^ lo
  | f :: fs => hi ≤ f.2 ∧ LeaveFree lo hi fs

theorem joinFields_of_leaveFree {lo hi : Nat} {fs : List (Nat × Nat)} (h : LeaveFree lo hi fs) :
    ∃ k, ∃ j < 2 ^ lo, joinFields fs = 2 ^ hi * k + j := by
  induction fs with
  | nil => exact ⟨0, 0, Nat.two_pow_pos lo, rfl⟩
  | cons f fs ih =>
    have above : hi ≤ f.2 → LeaveFree lo hi fs → ∃ k, ∃ j < 2 ^ lo, joinFields (f :: fs) = 2 ^ hi * k + j := by
      intro hl hfs
      obtain ⟨k, j, hj, hk⟩ := ih hfs
      obtain ⟨d, hd⟩ := Nat.exists_eq_add_of_le hl
      refine ⟨f.1 * 2 ^ d + k, j, hj, ?_⟩
      rw [joinFields, hk, hd, Nat.pow_add]
      ring
    match fs, h with
    | [], .inl hl => exact above hl trivial
    | [], .inr hlt => exact ⟨0, _, hlt, by simp [joinFields]⟩
    | _ :: _, ⟨hl, hfs⟩ => exact above hl hfs

section Field
variable {x l n lo w : Nat} {fs : List (Nat × Nat)}

/-- A field reads as its value. -/
theorem bits_joinFields_self (hx : x < 2 ^ w) (h : LeaveFree lo (lo + w) fs) : bits (joinFields ((x, lo) :: fs)) lo w = x := by
  obtain ⟨k, j, hj, hk⟩ := joinFields_of_leaveFree h
  have hsum : joinFields ((x, lo) :: fs) = 2 ^ lo * (x + 2 ^ w * k) + j := by rw [joinFields, hk, Nat.pow_add]; ring
  rw [bits, hsum, Nat.mul_add_div (Nat.two_pow_pos lo), Nat.div_eq_of_lt hj, Nat.add_zero, Nat.add_mul_mod_self_left,
    Nat.mod_eq_of_lt hx]

/-- A field of width `n` does not show in the bits above it. -/
theorem bits_joinFields_above (hx : x < 2 ^ n) (hl : l + n ≤ lo) (h : LeaveFree l (l + n) fs) :
    bits (joinFields ((x, l) :: fs)) lo w = bits (joinFields fs) lo w := by
  obtain ⟨k, j, hj, hk⟩ := joinFields_of_leaveFree h
  obtain ⟨d, rfl⟩ := Nat.exists_eq_add_of_le hl
  have hsum : joinFields ((x, l) :: fs) = 2 ^ (l + n) * k + (2 ^ l * x + j) := by rw [joinFields, hk]; ring
  have hlt : 2 ^ l * x + j < 2 ^ (l + n) := by
    calc 2 ^ l * x + j < 2 ^ l * (x + 1) := by rw [Nat.mul_succ]; omega
      _ ≤ 2 ^ l * 2 ^ n := Nat.mul_le_mul_left _ hx
      _ = 2 ^ (l + n) := (Nat.pow_add 2 l n).symm
  have hj' : j < 2 ^ (l + n) := by omega
  rw [bits, bits, Nat.pow_add 2 (l + n) d, ← Nat.div_div_eq_div_mul, ← Nat.div_div_eq_div_mul, hsum, hk,
    Nat.mul_add_div (Nat.two_pow_pos _), Nat.mul_add_div (Nat.two_pow_pos _), Nat.div_eq_of_lt hlt, Nat.div_eq_of_lt hj']

/-- Nor in the bits below it. -/
theorem bits_joinFields_below (hl : lo + w ≤ l) : bits (joinFields ((x, l) :: fs)) lo w = bits (joinFields fs) lo w := by
  obtain ⟨d, rfl⟩ := Nat.exists_eq_add_of_le hl
  have hsum : joinFields ((x, lo + w + d) :: fs) = 2 ^ lo * (2 ^ w * (2 ^ d * x)) + joinFields fs := by
    rw [joinFields, Nat.pow_add, Nat.pow_add]; ring
  rw [bits, bits, hsum, Nat.mul_add_div (Nat.two_pow_pos lo), Nat.mul_add_mod]

theorem bits_joinFields_nil : bits (joinFields []) lo w = 0 := by simp [bits, joinFields]

theorem bits_fixed_above {x : Nat} (h : x * 2 ^ l < 2 ^ lo) : bits (joinFields [(x, l)]) lo w = 0 := by
  rw [bits, joinFields, joinFields, Nat.add_zero, Nat.div_eq_of_lt h, Nat.zero_mod]

end Field

/-! ### Halfwords (R34) -/

/-- Bits of the `n` low bits of a number. -/
theorem bits_mod {x lo w n : Nat} (h : lo + w ≤ n) : bits (x % 2 ^ n) lo w = bits x lo w := by
  obtain ⟨d, rfl⟩ := Nat.exists_eq_add_of_le h
  rw [bits, bits, Nat.add_assoc, Nat.pow_add, Nat.mod_mul_right_div_self, Nat.pow_add, Nat.mod_mul_right_mod]

theorem joinHalves_halves (n x : Nat) : joinHalves (halves n x) = x % 2 ^ (16 * n) := by
  induction n generalizing x with
  | zero => simp [halves, joinHalves, Nat.mod_one]
  | succ n ih =>
    rw [halves, joinHalves, ih, BitVec.toNat_ofNat, Nat.mul_succ, Nat.add_comm (16 * n), Nat.pow_add, Nat.mod_mul]

theorem length_halves (n x : Nat) : (halves n x).length = n := by
  induction n generalizing x with
  | zero => rfl
  | succ n ih => simp [halves, ih]

/-- The tail of `n` halfwords with these fields. -/
def tailOf (n : Nat) (fs : List (Nat × Nat)) : Nat := joinHalves (halves n (joinFields fs))

theorem bits_tailOf {n lo w : Nat} {fs : List (Nat × Nat)} (h : lo + w ≤ 16 * n) :
    bits (tailOf n fs) lo w = bits (joinFields fs) lo w := by
  rw [tailOf, joinHalves_halves, bits_mod h]

/-- How a field is read from a tail: the rules above, and what a register field or a flag makes of the number read. -/
theorem reads :
    (∀ {n lo w : Nat} {fs : List (Nat × Nat)}, lo + w ≤ 16 * n → bits (tailOf n fs) lo w = bits (joinFields fs) lo w) ∧
    (∀ {n lo : Nat} {x : BitVec n} {fs}, LeaveFree lo (lo + n) fs → bits (joinFields ((x.toNat, lo) :: fs)) lo n = x.toNat) ∧
    (∀ {n l lo w : Nat} {x : BitVec n} {fs}, l + n ≤ lo → LeaveFree l (l + n) fs →
      bits (joinFields ((x.toNat, l) :: fs)) lo w = bits (joinFields fs) lo w) ∧
    (∀ {lo : Nat} {x : Bool} {fs}, LeaveFree lo (lo + 1) fs → bits (joinFields ((x.toNat, lo) :: fs)) lo 1 = x.toNat) ∧
    (∀ {l lo w : Nat} {x : Bool} {fs}, l + 1 ≤ lo → LeaveFree l (l + 1) fs →
      bits (joinFields ((x.toNat, l) :: fs)) lo w = bits (joinFields fs) lo w) ∧
    (∀ {k l lo w : Nat}, k * 2 ^ l < 2 ^ lo → bits (joinFields [(k, l)]) lo w = 0) ∧
    (∀ {k lo w : Nat}, k < 2 ^ w → bits (joinFields [(k, lo)]) lo w = k) ∧
    (∀ {x l lo w : Nat} {fs}, lo + w ≤ l → bits (joinFields ((x, l) :: fs)) lo w = bits (joinFields fs) lo w) ∧
    (∀ {lo w : Nat}, bits (joinFields []) lo w = 0) ∧
    (∀ {lo hi x l : Nat}, hi ≤ l → LeaveFree lo hi [(x, l)]) ∧
    (∀ {lo hi x l : Nat}, x * 2 ^ l < 2 ^ lo → LeaveFree lo hi [(x, l)]) ∧
    (∀ {lo hi x l : Nat} {f fs}, LeaveFree lo hi ((x, l) :: f :: fs) ↔ hi ≤ l ∧ LeaveFree lo hi (f :: fs)) ∧
    (∀ {lo hi : Nat}, LeaveFree lo hi []) ∧
    (∀ {n : Nat} {x : BitVec n}, BitVec.ofNat n x.toNat = x) ∧ (∀ {n : Nat}, BitVec.ofNat n 0 = 0) ∧
    (∀ {t lo : Nat}, flag t lo = decide (bits t lo 1 = 1)) ∧ ∀ {x : Bool}, decide (x.toNat = 1) = x :=
  ⟨bits_tailOf, fun h => bits_joinFields_self (BitVec.isLt _) h, fun hl h => bits_joinFields_above (BitVec.isLt _) hl h,
    fun h => bits_joinFields_self (Bool.toNat_lt _) h, fun hl h => bits_joinFields_above (Bool.toNat_lt _) hl h, bits_fixed_above,
    fun h => bits_joinFields_self h trivial, bits_joinFields_below, bits_joinFields_nil, .inl, .inr, Iff.rfl, trivial,
    by simp, rfl, rfl, by intro x; cases x <;> rfl⟩

theorem head_fields {op sz : Nat} (a : BitVec 6) (hop : op < 256) (hsz : sz < 4) :
    let h := (BitVec.ofNat 16 (op * 2 ^ 8 + sz * 2 ^ 6 + a.toNat)).toNat
    bits h 8 8 = op ∧ bits h 6 2 = sz ∧ bits h 0 6 = a.toNat := by
  have ha := a.isLt
  have hlt : op * 2 ^ 8 + sz * 2 ^ 6 + a.toNat < 2 ^ 16 := by omega
  simp only [BitVec.toNat_ofNat, Nat.mod_eq_of_lt hlt, bits]
  omega

/-- An instruction of opcode `op` comes back where `dec`, the decoder of its opcode, reads it from field A and its tail. -/
theorem decodes {i : Instr} {op : Nat} {a : BitVec 6} {fs : List (Nat × Nat)} (sz : Nat) (dec : Nat → Nat → Except DecErr Instr)
    (henc : encodeParts i = enc op a.toNat fs)
    (h : dec a.toNat (tailOf (sizeHw sz) fs) = .ok i := by
      simp +decide only [decOp01, decOp02, decOp03, decOp04, decOp05, decOp06, decOp07, decOp08, decOp09, decOp0A,
        decOp0B, decOp0C, decOp0D, decOp0E, decOp0F, decOp10, decOp11, decOp12, decOp13, decOp14, decOp15, decOp16,
        decOp17, decOp18, decOp19, decOp1A, decOp1B, decOp1C, decOp1D, decOp1E, decOp1F, decOp20, decOp21, decOp22,
        decOp23, decOp24, decOp25, decOp26, decOp27, decOp28, decOp29, decOp2A, decOp2B, decOp2C, decOp2D, decOp2E,
        decOp2F, decOp30, decOp31, decOp32, decOp33, decOp34, decOp35, decOp36, decOp37, decOp38, decOp39, decOp3A,
        decOp3B, decOp3C, decOp3D, decOp3E, decOp3F, decOp40, decOp41, decOp42, decOp43, decOp44, decOp45, decOp46,
        decOp47, decOp48, decOp49, decOp4A, decOp4B, decOp4C, decOp4D, decOp4E, decOp4F, decOp50, decOp51, decOp52,
        decOp53, decOp54, decOp55, decOp56, decOp57, decOp58, decOp59, decOp5A, decOp5B, decOp5C, decOp5D, decOp5E,
        decOp5F, decOp60, decOp61, decOp62, decOp63, decOp64, decOp65, decOp66, decOp67, decOp68, decOp69, decOp6A,
        decOp6B, decOp6C, decOp6D, decOp6E, decOp6F, decOp70, decOp71, decOp72, decOp73, decOp74, decOp75, decOp76,
        decOp77, decOp78, decOp79, decOp7A, decOp7B, decOp7C, decOp7D, decOp7E, decOp7F, decOp80, decOp81, decOp82,
        decOp83, decOp84, decOp85, decOp86, decOp87, decOp88, decOp89, decOp8A, decOp8B, decOp8C, decOp8D, decOp8E,
        decOp8F, decOp90, decOp91, decOp92, decOp93, decOp94, decOp95, decOp96, decOp97, decOp98, decOp99, decOp9A,
        decOp9B, decOp9C, decOp9D, decOp9E, decOp9F, decOpA0, decOpA1, decOpA2, decOpA3, decOpA4, decOpA5, decOpA6,
        decOpA7, decOpA8, decOpA9, decOpAA, decOpAB, decOpAC, decOpAD, decOpAE, decOpAF, decOpB0, decOpB1, decOpB2,
        decOpB3, decOpB4, decOpB5, decOpB6, decOpB7, decOpB8, decOpB9, decOpBA, decOpBB, decOpBC, decOpBD, decOpBE,
        decOpBF, decOpC0, reads, true_and, if_true, if_false])
    (hsz : formSz op = sz := by rfl) (hdec : ∀ a t, decodeHead op sz a t = dec a t := by exact fun _ _ => rfl)
    (hop : op < 256 := by decide) (h4 : sz < 4 := by decide) : decodeHalves (encode i) = .ok i := by
  obtain ⟨h1, h2, h3⟩ := head_fields a hop h4
  rw [enc] at henc
  simp only [encode, henc, decodeHalves, hsz, h1, h2, h3, length_halves, if_true, hdec]
  exact h

/-! ### A field that the operands leave unused (R42) -/

theorem packOk_unused {d : BitVec 6} {ts td : BitVec 4} {p : BitVec 3} {u : Bool} (h : packOk d ts td p u = true) :
    (decide (td.toNat ≠ 11) && decide (d.toNat ≠ 0)) = false := by
  simp only [packOk, Bool.and_eq_true, Bool.or_eq_true, beq_iff_eq] at h
  obtain ⟨⟨-, rfl | rfl⟩, -⟩ := h <;> simp

theorem unpkOk_unused {d : BitVec 6} {ts td : BitVec 4} {p : BitVec 3} {u : Bool} (h : unpkOk d ts td p u = true) :
    (decide (ts.toNat ≠ 11) && decide (d.toNat ≠ 0)) = false := by
  simp only [unpkOk, Bool.and_eq_true, Bool.or_eq_true, beq_iff_eq] at h
  obtain ⟨⟨-, rfl | rfl⟩, -⟩ := h <;> simp

theorem redRmOk_unused {t : BitVec 4} {rm : BitVec 3} (h : redRmOk t rm = true) :
    (isIntCode t.toNat && decide (rm.toNat ≠ 0)) = false := by
  unfold redRmOk at h
  cases hc : isIntCode t.toNat
  · rfl
  · simp only [hc, if_true, beq_iff_eq] at h
    simp [h]

theorem permOk_unused {d : BitVec 6} {two : Bool} (h : permOk d two = true) :
    (decide (two.toNat = 0) && decide (d.toNat ≠ 0)) = false := by
  cases two
  · have hd : d = 0 := by simpa [permOk] using h
    simp [hd]
  · rfl

theorem bcastOk_unused {b c : BitVec 6} {el : Bool} (h : bcastOk b c el = true) :
    (decide (el.toNat = 0) && decide (c.toNat ≠ 0)) = false := by
  cases el
  · have hc : c = 0 := by simpa [bcastOk] using h
    simp [hc]
  · rfl

theorem bbNOk_unused {b : BitVec 6} {r : Bool} {imm : BitVec 16} {lo hi : Nat} (h : bbNOk b r imm lo hi = true) :
    (decide (r.toNat = 0) && decide (b.toNat ≠ 0)) = false := by
  cases r
  · have hb : (b = 0 ∧ lo ≤ imm.toNat) ∧ imm.toNat ≤ hi := by simpa [bbNOk] using h
    simp [hb.1.1]
  · rfl

theorem lnkOk_unused {b p : BitVec 6} {sel : BitVec 16} (h : lnkOk b p sel = true) :
    ((decide (sel.toNat = 0) || decide (sel.toNat = 2)) && decide (b.toNat ≠ 0)) = false := by
  by_cases hs : sel = 1
  · subst hs; rfl
  · have hs' : ¬ sel = 1#16 := hs
    have hb : (p.toNat ≤ 47 ∧ sel.toNat ≤ 2) ∧ b = 0 := by simpa [lnkOk, hs'] using h
    simp [hb.2]

/-! ### Every head, by its opcode (R34, R41, R42) -/

theorem decode_encode (i : Instr) (hw : i.wf = true) (ho : i.opcode.isSome = true) : decodeHalves (encode i) = .ok i := by
  cases i with
  | nop => exact decodes (a := 0) 0 decOp01 rfl
  | halt => exact decodes (a := 0) 0 decOp02 rfl
  | brk => exact decodes (a := 0) 1 decOp03 rfl
  | trap => exact decodes (a := 0) 1 decOp04 rfl
  | eret => exact decodes (a := 0) 0 decOp05 rfl
  | fence => exact decodes (a := 0) 1 decOp06 rfl
  | chunkEnd => exact decodes (a := 0) 0 decOp07 rfl
  | srr => exact decodes 1 decOp08 rfl
  | srw => exact decodes 1 decOp09 rfl
  | liI16 => exact decodes 1 decOp0A rfl
  | liI32 => exact decodes 2 decOp0B rfl
  | liI48 | liHi => exact decodes 3 decOp0C rfl
  | leaBase | leaPc => exact decodes 2 decOp0D rfl
  | leaIndex | leaPcIndex => exact decodes 3 decOp0E rfl
  | addRr => exact decodes 1 decOp0F rfl
  | subRr => exact decodes 1 decOp10 rfl
  | andRr => exact decodes 1 decOp11 rfl
  | orRr => exact decodes 1 decOp12 rfl
  | xorRr => exact decodes 1 decOp13 rfl
  | shlRr => exact decodes 1 decOp14 rfl
  | shrRr => exact decodes 1 decOp15 rfl
  | sraRr => exact decodes 1 decOp16 rfl
  | minRr => exact decodes 1 decOp17 rfl
  | maxRr => exact decodes 1 decOp18 rfl
  | minuRr => exact decodes 1 decOp19 rfl
  | maxuRr => exact decodes 1 decOp1A rfl
  | addRi16 => exact decodes 2 decOp1B rfl
  | andRi16 => exact decodes 2 decOp1C rfl
  | orRi16 => exact decodes 2 decOp1D rfl
  | xorRi16 => exact decodes 2 decOp1E rfl
  | shlRi16 => exact decodes 2 decOp1F rfl
  | shrRi16 | sraRi16 => exact decodes 2 decOp20 rfl
  | addRri32 => exact decodes 3 decOp21 rfl
  | andRri32 => exact decodes 3 decOp22 rfl
  | orRri32 => exact decodes 3 decOp23 rfl
  | xorRri32 => exact decodes 3 decOp24 rfl
  | cmpRr => exact decodes 1 decOp25 rfl
  | cmpRi16 => exact decodes 2 decOp26 rfl
  | bfx => exact decodes 2 decOp27 rfl
  | bfi => exact decodes 2 decOp28 rfl
  | clz => exact decodes 1 decOp29 rfl
  | popc => exact decodes 1 decOp2A rfl
  | mul => exact decodes 1 decOp2B rfl
  | mulh => exact decodes 1 decOp2C rfl
  | mulhu => exact decodes 1 decOp2D rfl
  | div => exact decodes 1 decOp2E rfl
  | divu => exact decodes 1 decOp2F rfl
  | rem => exact decodes 1 decOp30 rfl
  | remu => exact decodes 1 decOp31 rfl
  | ldRi16 => exact decodes 2 decOp32 rfl
  | ldRri32 => exact decodes 3 decOp33 rfl
  | stRi16 => exact decodes 2 decOp34 rfl
  | stRri32 => exact decodes 3 decOp35 rfl
  | lda => exact decodes 2 decOp36 rfl
  | stl => exact decodes 2 decOp37 rfl
  | aadd => exact decodes 2 decOp38 rfl
  | amin => exact decodes 2 decOp39 rfl
  | amax => exact decodes 2 decOp3A rfl
  | aand => exact decodes 2 decOp3B rfl
  | aor => exact decodes 2 decOp3C rfl
  | axor => exact decodes 2 decOp3D rfl
  | aswap => exact decodes 2 decOp3E rfl
  | acas => exact decodes 2 decOp3F rfl
  | bRi16 => exact decodes 2 decOp40 rfl
  | bRri32 => exact decodes 3 decOp41 rfl
  | jal => exact decodes 2 decOp42 rfl
  | jalr => exact decodes 2 decOp43 rfl
  | hstart => exact decodes 3 decOp44 rfl
  | hjoin => exact decodes 1 decOp45 rfl
  | hend => exact decodes (a := 0) 0 decOp46 rfl
  | hyield => exact decodes (a := 0) 0 decOp47 rfl
  | gang => exact decodes 1 decOp48 rfl
  | split => exact decodes (a := 0) 0 decOp49 rfl
  | phaseT => exact decodes (a := 0) 0 decOp4A rfl
  | phaseE => exact decodes (a := 0) 0 decOp4B rfl
  | tideRd => exact decodes 0 decOp4C rfl
  | tideWait => exact decodes 2 decOp4D rfl
  | waitmem => exact decodes 2 decOp4E rfl
  | sendmsg => exact decodes 3 decOp4F rfl
  | waitmsg => exact decodes (a := 0) 0 decOp50 rfl
  | vadd => exact decodes 3 decOp51 rfl
  | vsub => exact decodes 3 decOp52 rfl
  | vmul => exact decodes 3 decOp53 rfl
  | vfma => exact decodes 3 decOp54 rfl
  | vmin => exact decodes 3 decOp55 rfl
  | vmax => exact decodes 3 decOp56 rfl
  | vrcpe => exact decodes 3 decOp57 rfl
  | vrsqe => exact decodes 3 decOp58 rfl
  | vrefn => exact decodes 3 decOp59 rfl
  | vexp2 => exact decodes 3 decOp5A rfl
  | vlog2 => exact decodes 3 decOp5B rfl
  | viadd => exact decodes 2 decOp5C rfl
  | visub => exact decodes 2 decOp5D rfl
  | vimul => exact decodes 2 decOp5E rfl
  | vimin => exact decodes 2 decOp5F rfl
  | vimax => exact decodes 2 decOp60 rfl
  | vishl => exact decodes 2 decOp61 rfl
  | vishr => exact decodes 2 decOp62 rfl
  | vand => exact decodes 2 decOp63 rfl
  | vor => exact decodes 2 decOp64 rfl
  | vxor => exact decodes 2 decOp65 rfl
  | vcmp => exact decodes 2 decOp66 rfl
  | vicmp => exact decodes 2 decOp67 rfl
  | kwhile => exact decodes 2 decOp68 rfl
  | kand | kor | kxor | kandn => exact decodes 1 decOp69 rfl
  | kmov | knot | kcnt => exact decodes 1 decOp6A rfl
  | vwidth => exact decodes 0 decOp6B rfl
  | vld => exact decodes 3 decOp6C rfl
  | vst => exact decodes 3 decOp6D rfl
  | vlds => exact decodes 3 decOp6E rfl
  | vsts => exact decodes 3 decOp6F rfl
  | vgath => exact decodes 3 decOp70 rfl
  | vscat => exact decodes 3 decOp71 rfl
  | vcvt => exact decodes 3 decOp72 rfl
  | vpack =>
    exact decodes 3 decOp73 rfl
      (by simp +decide only [decOp73, reads, true_and, if_true, if_false,
        packOk_unused (Bool.and_eq_true_iff.1 (Bool.and_eq_true_iff.1 hw).1).2])
  | vunpk =>
    exact decodes 3 decOp74 rfl
      (by simp +decide only [decOp74, reads, true_and, if_true, if_false,
        unpkOk_unused (Bool.and_eq_true_iff.1 (Bool.and_eq_true_iff.1 hw).1).2])
  | vdotf8 => exact decodes 3 decOp75 rfl
  | vdoti8 => exact decodes 3 decOp76 rfl
  | vred =>
    exact decodes 3 decOp77 rfl
      (by simp +decide only [decOp77, reads, true_and, if_true, if_false,
        redRmOk_unused (Bool.and_eq_true_iff.1 hw).2])
  | vscan =>
    exact decodes 3 decOp78 rfl
      (by simp +decide only [decOp78, reads, true_and, if_true, if_false,
        redRmOk_unused (Bool.and_eq_true_iff.1 hw).2])
  | vperm =>
    exact decodes 2 decOp79 rfl
      (by simp +decide only [decOp79, reads, true_and, if_true, if_false,
        permOk_unused (Bool.and_eq_true_iff.1 hw).2])
  | vbcast =>
    exact decodes 2 decOp7A rfl
      (by simp +decide only [decOp7A, reads, true_and, if_true, if_false,
        bcastOk_unused (Bool.and_eq_true_iff.1 hw).2])
  | vsel => exact decodes 2 decOp7B rfl
  | vpeer => exact decodes 2 decOp7C rfl
  | vhist => exact decodes (a := 0) 2 decOp7D rfl
  | vseedRd | vseedXchg => exact decodes 1 decOp7E rfl
  | vseedWr => exact decodes (a := 0) 1 decOp7E rfl
  | vext => exact decodes 2 decOp7F rfl
  | vins => exact decodes 2 decOp80 rfl
  | bbGet =>
    exact decodes 2 decOp81 rfl
      (by simp +decide only [decOp81, reads, true_and, if_true, if_false,
        bbNOk_unused (Bool.and_eq_true_iff.1 hw).2])
  | bbPeek =>
    exact decodes 2 decOp82 rfl
      (by simp +decide only [decOp82, reads, true_and, if_true, if_false,
        bbNOk_unused (Bool.and_eq_true_iff.1 hw).2])
  | bbSkip =>
    exact decodes (a := 0) 2 decOp83 rfl
      (by simp +decide only [decOp83, reads, true_and, if_true, if_false,
        bbNOk_unused hw])
  | bbFill => exact decodes 2 decOp84 rfl
  | bbDec => exact decodes 2 decOp85 rfl
  | bbSave | bbRest => exact decodes (a := 0) 2 decOp86 rfl
  | xreq => exact decodes 1 decOp87 rfl
  | xstat => exact decodes 0 decOp88 rfl
  | launch => exact decodes 2 decOp89 rfl
  | evwait => exact decodes 2 decOp8A rfl
  | evsig => exact decodes 2 decOp8B rfl
  | lqstat => exact decodes 2 decOp8C rfl
  | yieldOp => exact decodes (a := 0) 0 decOp8D rfl
  | sync => exact decodes 1 decOp8E rfl
  | dtake => exact decodes 2 decOp8F rfl
  | dplaceStart | dplacePreq | dplaceSave | dplaceRest | dplaceKill => exact decodes 3 decOp90 rfl
  | cpyPk | cpyLand | cpyRec => exact decodes 3 decOp91 rfl
  | cpyLoop => exact decodes 3 decOp92 rfl
  | cpycan => exact decodes 1 decOp93 rfl
  | landAcq => exact decodes 2 decOp94 rfl
  | landRel => exact decodes (a := 0) 2 decOp95 rfl
  | landInit => exact decodes 3 decOp96 rfl
  | halloc => exact decodes 1 decOp97 rfl
  | hfree => exact decodes 1 decOp98 rfl
  | hbump => exact decodes 1 decOp99 rfl
  | jpeek => exact decodes 1 decOp9A rfl
  | jdrop => exact decodes (a := 0) 0 decOp9B rfl
  | bget => exact decodes 1 decOp9C rfl
  | bstreamMove | bstreamOwner => exact decodes 3 decOp9D rfl
  | bstreamFwd => exact decodes (a := 0) 3 decOp9D rfl
  | blandWait => exact decodes 1 decOp9E rfl
  | blandFill | blandDone => exact decodes (a := 0) 1 decOp9E rfl
  | pjob => exact decodes 1 decOp9F rfl
  | ppoll => exact decodes 1 decOpA0 rfl
  | pwait => exact decodes 1 decOpA1 rfl
  | pcan => exact decodes 1 decOpA2 rfl
  | pheatSet | pheatAdd => exact decodes 2 decOpA3 rfl
  | pmonRing | pmonBank | pmonTemp => exact decodes 2 decOpA4 rfl
  | psettle => exact decodes 2 decOpA5 rfl
  | pcalFull | pcalOfs => exact decodes 2 decOpA6 rfl
  | pmapRd | pmapSwap | pmapIdent => exact decodes 2 decOpA7 rfl
  | pstat => exact decodes 2 decOpA8 rfl
  | prowgoDrop | prowgoMem | prowgoLand => exact decodes (a := 0) 2 decOpA9 rfl
  | paccRdN | paccRdP => exact decodes 2 decOpAA rfl
  | towEnter => exact decodes 1 decOpAB rfl
  | towExit => exact decodes 1 decOpAC rfl
  | towStat => exact decodes 1 decOpAD rfl
  | towWait => exact decodes 1 decOpAE rfl
  | fenrol => exact decodes 2 decOpAF rfl
  | fleave => exact decodes 2 decOpB0 rfl
  | frb => exact decodes 3 decOpB1 rfl
  | fmax => exact decodes 3 decOpB2 rfl
  | fmin => exact decodes 3 decOpB3 rfl
  | fpop => exact decodes 2 decOpB4 rfl
  | falign => exact decodes 2 decOpB5 rfl
  | fstat => exact decodes 2 decOpB6 rfl
  | femitTake | femitLoad | femitFrame | femitDone => exact decodes 3 decOpB7 rfl
  | fcountRd | fcountEl | fcountEx => exact decodes 2 decOpB8 rfl
  | rtv => exact decodes 0 decOpB9 rfl
  | lnkst =>
    exact decodes 2 decOpBA rfl
      (by simp +decide only [decOpBA, reads, true_and, if_true, if_false,
        lnkOk_unused (Bool.and_eq_true_iff.1 hw).2])
  | ttselSw | ttselSeg => exact decodes 2 decOpBB rfl
  | pilotst => exact decodes 2 decOpBC rfl
  | trcRdEnt | trcRdCnt | trcRdClr => exact decodes 2 decOpBD rfl
  | imbRd => exact decodes 2 decOpBE rfl
  | dbgsigHalt | dbgsigTrig | dbgsigMark => exact decodes (a := 0) 2 decOpBF rfl
  | dumpst => exact decodes 2 decOpC0 rfl
  | _ => cases ho

/-- Settles O55: each head's fields, laid out by its encoding, are read back by the decoder of its opcode. -/
theorem roundTrip : Obligations.RoundTrip := by
  unfold Obligations.RoundTrip
  exact decode_encode

/-- Settles O54: the decoder runs on each word. -/
theorem wordsDecode : Obligations.WordsDecode := by
  unfold Obligations.WordsDecode
  exact ⟨rfl, rfl, rfl, rfl, rfl, rfl, rfl, rfl⟩

end Sys2Proof

namespace Sys2Proof.Machine

/-! ### A transfer whose fetch has to wait (R38, R39, R108) -/

/-- Whether context 0 is stopped after a step: a trap is fatal to a context that has no handler (R150). -/
def endsStopped (o : Out) : Bool :=
  match o with
  | .next t => (t.proc 0).stopped
  | _ => false

/-- A control context whose translation needs a table of a slice that changes its near memory (R108). -/
def tableResizing : State := { procs := [(0, { st := .live, r := { pc := 0x10002 } })], slices := [(0, { parTo := some 0 })], tide := 1000 }

/-- A jump whose target is on no resident line. -/
def jumpAway : Instr := .jal 0 0x8000

/-- The fetch of the target has to wait for the slice. -/
theorem checkTarget_tableResizing : checkTarget (beginHead tableResizing jumpAway) 0 0x20002 = .error WAITS := rfl

/-- The jump waits with it. -/
theorem exec_jumpAway_goesOn : endsStopped (exec jumpAway tableResizing) = false := by decide +kernel

theorem trapHead_tableResizing_stops :
    endsStopped (.next (trapHead (beginHead tableResizing jumpAway) [(0, WAITS, 0x20002)] 0x10002)) = true := by decide +kernel

/-- Refutes O5: the check of a target may also find that the fetch has to wait, and then the transfer waits instead of trapping. -/
theorem not_badTargetsTrap : ¬ Obligations.BadTargetsTrap := by
  unfold Obligations.BadTargetsTrap
  rintro ⟨-, -, traps, -⟩
  have htrap := traps 0 0x8000 WAITS tableResizing (by decide +kernel) (by decide +kernel) checkTarget_tableResizing
  have hstop : false = true := exec_jumpAway_goesOn.symm.trans ((congrArg endsStopped htrap).trans trapHead_tableResizing_stops)
  exact Bool.false_ne_true hstop

/-! ### A head that is held back (R61, R136, R139) -/

/-- A control context whose general register 5 is still to come (R139). -/
def readPending : State := { procs := [(0, { st := .live, r := { pc := 0x10002 }, due := [(5, 2000)] })], tide := 1000 }

/-- An instruction of the barge engines, which reads that register. -/
def bargeOp : Instr := .blandWait 11 5

/-- The context holds the head back before it judges whether it may run it. -/
theorem exec_bargeOp_goesOn : endsStopped (exec bargeOp readPending) = false := by decide +kernel

theorem trapHead_readPending_stops : endsStopped (.next (trapHead readPending [(0, 0x03, 0x10002)] 0x10002)) = true := by
  decide +kernel

/-- Refutes O52: a head whose source register has a result in flight does not issue, whether the agent may run it or not. -/
theorem not_illegalHeadsTrap : ¬ Obligations.IllegalHeadsTrap := by
  unfold Obligations.IllegalHeadsTrap
  rintro ⟨traps, -, -⟩
  have htrap := traps bargeOp 0x9E readPending rfl (fun _ => Instr.noConfusion) (by decide +kernel) (by decide +kernel)
  have hstop : false = true := exec_bargeOp_goesOn.symm.trans ((congrArg endsStopped htrap).trans trapHead_readPending_stops)
  exact Bool.false_ne_true hstop

end Sys2Proof.Machine

namespace Sys2Proof.Machine

/-! ### What the fetch of a target leaves (R38, R39, R113) -/

/-- No agent, core or move differs: a translation fills caches of clusters and slices alone. -/
def CachesFilled (s t : State) : Prop := t.procs = s.procs ∧ t.cores = s.cores ∧ t.cur = s.cur

theorem leafFor_cachesFilled {s t : State} {q vf va : Nat} {e : TlbEntry} (h : leafFor s q vf va = .ok (t, e)) :
    CachesFilled s t := by
  have filled : ∀ (b : Bool) (u : State) (f : Cluster → Cluster), CachesFilled s u →
      CachesFilled s (if b = true then u.modCluster (clusterOf q) f else u) := by
    intro b u f hu
    cases b <;> exact hu
  unfold leafFor at h
  simp only at h
  split at h
  · obtain ⟨rfl, -⟩ := Prod.mk.inj (Except.ok.inj h)
    exact ⟨rfl, rfl, rfl⟩
  split at h
  · obtain ⟨rfl, -⟩ := Prod.mk.inj (Except.ok.inj h)
    exact filled _ _ _ ⟨rfl, rfl, rfl⟩
  split at h
  · cases h
  · obtain ⟨rfl, -⟩ := Prod.mk.inj (Except.ok.inj h)
    exact filled _ _ _ ⟨rfl, rfl, rfl⟩

theorem translate_cachesFilled {s t : State} {q vf va : Nat} {perm : Perm} {l : Loc} (h : translate s q vf va perm = .ok (t, l)) :
    CachesFilled s t := by
  unfold translate at h
  split at h
  · cases h
  next u e hu =>
    have htu : t = u := by
      simp only at h
      repeat' split at h
      all_goals simp_all
    exact htu ▸ leafFor_cachesFilled hu

theorem readCode_cachesFilled {s t : State} {q la : Nat} {l : Line} (h : readCode s q la = .ok (t, l)) : CachesFilled s t := by
  unfold readCode at h
  split at h
  · split at h
    · cases h
    next ht =>
      split at h
      · cases h
      · obtain ⟨rfl, -⟩ := Prod.mk.inj (Except.ok.inj h)
        exact translate_cachesFilled ht
    next ht =>
      obtain ⟨rfl, -⟩ := Prod.mk.inj (Except.ok.inj h)
      exact translate_cachesFilled ht
    · cases h
  · cases h

/-- Whether a timed phase was left by the trap in hand is as it was, of every agent (ptim of R150), and the same agent moves. -/
def PhaseKept (s t : State) : Prop := (∀ q, (t.proc q).ptim = (s.proc q).ptim) ∧ t.cur = s.cur

theorem PhaseKept.refl (s : State) : PhaseKept s s := ⟨fun _ => rfl, rfl⟩

theorem PhaseKept.trans {s t u : State} (h : PhaseKept s t) (k : PhaseKept t u) : PhaseKept s u :=
  ⟨fun q => (k.1 q).trans (h.1 q), k.2.trans h.2⟩

theorem PhaseKept.modProc (s : State) (q : Nat) (f : Proc → Proc) (h : ∀ p, (f p).ptim = p.ptim) : PhaseKept s (s.modProc q f) := by
  refine ⟨fun r => ?_, rfl⟩
  rw [State.proc_modProc_eq]
  split
  next hr => exact hr ▸ h _
  · rfl

theorem PhaseKept.foldl {α : Type} (f : State → α → State) (h : ∀ s a, PhaseKept s (f s a)) (l : List α) (s : State) :
    PhaseKept s (l.foldl f s) := by
  induction l generalizing s with
  | nil => exact .refl s
  | cons a l ih => exact (h s a).trans (ih _)

theorem CachesFilled.phaseKept {s t : State} (h : CachesFilled s t) : PhaseKept s t :=
  ⟨fun q => by rw [State.proc, h.1, ← State.proc], h.2.2⟩

theorem keepLine_phaseKept (s : State) (q la : Nat) (l : Line) : PhaseKept s (keepLine s q la l) := by
  unfold keepLine
  split
  · exact .refl s
  · exact .modProc s q _ fun _ => by rfl

theorem cacheLine_phaseKept (s : State) (g la : Nat) (l : Line) : PhaseKept s (cacheLine s g la l) := .refl s

theorem fetchLine_phaseKept {s t : State} {q la : Nat} {l : Line} (h : fetchLine s q la = .ok (t, l)) : PhaseKept s t := by
  unfold fetchLine at h
  split at h
  · split at h
    · obtain ⟨rfl, -⟩ := Prod.mk.inj (Except.ok.inj h)
      exact keepLine_phaseKept s q la _
    · cases h
  split at h
  · cases h
  split at h
  · cases h
  split at h
  · cases h
  next hr =>
    simp only at h
    split at h
    · obtain ⟨rfl, -⟩ := Prod.mk.inj (Except.ok.inj h)
      refine (readCode_cachesFilled hr).phaseKept.trans (PhaseKept.trans ?_ (cacheLine_phaseKept _ _ la _))
      exact PhaseKept.modProc _ q _ fun _ => by rfl
    · cases h

theorem checkTarget_phaseKept {s t : State} {q : Nat} {a : Word} (h : checkTarget s q a = .ok t) : PhaseKept s t := by
  unfold checkTarget at h
  split at h
  · cases h
  split at h
  · split at h
    · exact Except.ok.inj h ▸ .refl s
    · cases h
  next hf =>
    split at h
    · exact Except.ok.inj h ▸ fetchLine_phaseKept hf
    · cases h

/-! ### The chunks of a core close (R175) -/

/-- A relation of an agent, before and after, that holds whatever a performed store does to it: the discard of its chunk, and word
of a watched line (R123, R179, R247). -/
structure Standing (R : Proc → Proc → Prop) : Prop where
  refl : ∀ p, R p p
  trans : ∀ {p q r}, R p q → R q r → R p r
  restored : ∀ p r due, R p { p with r := r, due := due }
  discarded : ∀ p chunk discards single, R p { p with chunk := chunk, discards := discards, single := single, wait := .idle }
  told : ∀ p l d b, p.wait = .mem l d b → R p { p with wait := .mem l d true }
  toldEv : ∀ p l b, p.wait = .ev l b → R p { p with wait := .ev l true }

namespace Standing
variable {R : Proc → Proc → Prop} (hR : Standing R)
include hR

theorem modProc {f : Proc → Proc} (h : ∀ p, R p (f p)) (s : State) (q r : Nat) : R (s.proc r) ((s.modProc q f).proc r) := by
  rw [State.proc_modProc_eq]
  split
  next hr => exact hr ▸ h _
  · exact hR.refl _

theorem foldl {α : Type} {f : State → α → State} (h : ∀ s a r, R (s.proc r) ((f s a).proc r)) (l : List α) (s : State) (r : Nat) :
    R (s.proc r) ((l.foldl f s).proc r) := by
  induction l generalizing s with
  | nil => exact hR.refl _
  | cons a l ih => exact hR.trans (h s a r) (ih _)

theorem discardChunk (s : State) (q r : Nat) : R (s.proc r) ((discardChunk s q).proc r) := by
  unfold Sys2Proof.Machine.discardChunk
  split
  · exact hR.refl _
  · refine hR.trans (hR.foldl (α := Nat × Regs) (fun t e => hR.modProc (fun p => ?_) t e.1) _ s r)
      (hR.modProc (fun p => hR.discarded p _ _ _) _ q r)
    exact hR.restored p e.2 []

theorem notifyLines (s : State) (ls : List Nat) (r : Nat) : R (s.proc r) ((notifyLines s ls).proc r) := by
  unfold Sys2Proof.Machine.notifyLines State.proc FMap.get
  simp only
  rw [find_map_val]
  · cases FMap.find s.procs r with
    | none => exact hR.refl _
    | some p =>
      simp only [Option.map_some, Option.getD_some]
      split
      next hw =>
        split
        · exact hR.told p _ _ _ hw
        · exact hR.refl p
      next hw =>
        split
        · exact hR.toldEv p _ _ hw
        · exact hR.refl p
      · exact hR.refl p
  · intro e
    split <;> (try split) <;> rfl

theorem performBytes (s : State) (cells : FMap Byte) (r : Nat) : R (s.proc r) ((performBytes s cells).proc r) := by
  have sent : ∀ (t : State) ls, t.procs = s.procs → R (s.proc r) ((sendSignature t ls).proc r) := by
    intro t ls ht
    rw [State.proc, ← ht, ← State.proc]
    unfold sendSignature
    simp only
    split
    · exact hR.refl _
    · exact hR.foldl (α := Nat × Proc) (fun t e => hR.discardChunk t e.1) _ t r
  exact hR.trans (sent _ _ (by rfl)) (hR.notifyLines _ _ r)

theorem commitChunk (hc : ∀ p, R p { p with chunk := none, discards := 0 }) (hi : ∀ p n, R p { p with icount := n }) (s : State)
    (q r : Nat) : R (s.proc r) ((commitChunk s q).proc r) := by
  unfold Sys2Proof.Machine.commitChunk
  split
  · exact hR.refl _
  next c _ =>
    refine hR.trans (hR.trans (hR.modProc hc s q r) (hR.performBytes _ c.held r)) ?_
    refine hR.trans (hR.foldl (α := Nat × Nat) (fun t e r => ?_) c.hist _ r)
      (hR.foldl (α := Nat × Regs) (fun t e => hR.modProc (fun p => hi p _) t e.1) _ _ r)
    exact hR.refl _

end Standing

theorem standing_ptim : Standing fun (p p' : Proc) => p'.ptim = p.ptim :=
  ⟨fun _ => rfl, fun h k => k.trans h, fun _ _ _ => rfl, fun _ _ _ _ => rfl, fun _ _ _ _ _ => rfl, fun _ _ _ _ => rfl⟩

theorem endChunk_phaseKept (s : State) (q : Nat) : PhaseKept s (endChunk s q) := by
  refine PhaseKept.trans ?_ (.modProc _ q _ fun _ => by rfl)
  exact ⟨standing_ptim.commitChunk (fun _ => rfl) (fun _ _ => rfl) s q, (commitChunk_inner s q).cur⟩

theorem closeChunks_phaseKept (s : State) (g : Nat) : PhaseKept s (closeChunks s g) :=
  .foldl _ (fun t k => endChunk_phaseKept t (ctl g + k)) _ s

/-! ### HALT and ERET complete (R62, R154, R184) -/

section Leave
variable {u v : State}

theorem drainRemote_none (h : u.me.remoteOut = []) : drainRemote u = .ok () u := by
  unfold drainRemote
  rw [Eff.bind_ok (Eff.get_apply u)]
  simp [h, Eff.pure_apply]

theorem haltControl_ends (hg : u.myCore.gsize = 0) (hh : startedHelper u u.cur = false) (hr : u.me.remoteOut = []) :
    haltControl u = .ok { gone := true }
      (let v := (helperQs (coreOf u.cur)).foldl (fun t q => if (t.proc q).st == .ended then t.setProc q {} else t) u
       v.modProc v.cur fun p => { p with st := .ended, icount := p.icount + 1, waited := 0 }) := by
  have hg' : (u.core (coreOf u.cur)).gsize = 0 := hg
  unfold haltControl
  rw [Eff.bind_ok (Eff.get_apply u)]
  simp only [hg', hh, ne_eq, not_true_eq_false, if_false, Bool.false_eq_true]
  rw [Eff.bind_ok (drainRemote_none hr)]
  rfl

theorem haltHart_goesOn (hw : wakes u (hartIx u.cur) = true) : haltHart u = .ok {} u := by
  unfold haltHart
  rw [Eff.bind_ok (Eff.get_apply u), if_pos hw]
  rfl

theorem jumpTo_checked {t : Word} (ht : checkTarget u u.cur t = .ok v) : jumpTo t u = .ok { target := some t, delay := 3 } v := by
  unfold jumpTo
  rw [Eff.bind_ok (Eff.get_apply u), ht]
  rfl

theorem decides_alone (h : leader u u.cur = u.cur) : decides u = .ok true u := by
  unfold decides
  rw [Eff.bind_ok (Eff.get_apply u), h, beq_self_eq_true]
  rfl

end Leave

/-- The agent that ERET returns, behind the check of its target: out of its handler, in a timed phase where the trap left one. -/
theorem modProc_returned {u v : State} (h : PhaseKept u v) :
    v.modProc v.cur (fun p => { p with intrap := false, timed := p.ptim }) =
      v.modProc v.cur fun p => { p with intrap := false, timed := u.me.ptim } := by
  have hp : (v.proc v.cur).ptim = u.me.ptim := by rw [h.2]; exact h.1 u.cur
  simp only [State.modProc, hp]

theorem eret_completes {s v : State} (hr : ready s .eret = true) (ha : alone s = true) {u : State} (hu : beginHead s .eret = u)
    (hi : u.me.intrap = true) (hq : u.me.ptim = true → coreQuiet u (coreOf u.cur) = true) (ht : checkTarget u u.cur u.me.epc = .ok v)
    {t : State} (hv : (if u.me.ptim then closeChunks v (coreOf v.cur) else v).modProc v.cur
      (fun p => { p with intrap := false, timed := u.me.ptim }) = t) (hc : chunkLines t s.cur ≤ 64) :
    Completes .eret s t { target := some u.me.epc, delay := 3, skipBp := true } := by
  have hm : members u u.cur = [u.cur] := hu ▸ beginHead_alone ha
  have hquiet : (u.me.ptim && !(members u u.cur).all fun m => coreQuiet u (coreOf m)) = false := by
    rw [hm]
    cases hp : u.me.ptim
    · rfl
    · simp [hq hp]
  have kept := checkTarget_phaseKept ht
  refine completes_alone hr ha rfl ?_ hc
  rw [hu, Eff.bind_ok (Eff.get_apply u)]
  simp only [hi, hquiet, Bool.not_true, Bool.false_eq_true, if_false]
  rw [Eff.bind_ok (decides_alone (hu ▸ beginHead_leader ha)), if_pos rfl, Eff.bind_ok (jumpTo_checked ht)]
  cases hp : u.me.ptim
  · rw [hp] at hv
    rw [if_neg Bool.false_ne_true] at hv ⊢
    rw [Eff.bind_ok (modMe_apply _ v), modProc_returned kept, hp, hv]
    rfl
  · rw [hp] at hv
    rw [if_pos rfl] at hv ⊢
    rw [Eff.bind_ok (Eff.modify_apply _ v), Eff.bind_ok (modMe_apply _ _), modProc_returned (kept.trans (closeChunks_phaseKept v _)),
      hp, closeChunks_cur, hv]
    rfl

/-- Settles O10: HALT and ERET each run through their meaning; ERET's fetch and the closing of the chunks keep ptim. -/
theorem haltAndReturnComplete : Obligations.HaltAndReturnComplete := by
  unfold Obligations.HaltAndReturnComplete
  refine ⟨?_, ?_, fun v => ?_⟩
  · rintro s hr ha ⟨hh, hg, hs, ho⟩ hc
    refine completes_alone hr ha rfl ?_ hc
    rw [Eff.bind_ok (Eff.get_apply _), hh, if_neg Bool.false_ne_true]
    exact haltControl_ends hg hs ho
  · rintro s hr ha ⟨hh, hw⟩ hc
    refine completes_alone hr ha rfl ?_ hc
    rw [Eff.bind_ok (Eff.get_apply _), if_pos hh]
    exact haltHart_goesOn hw
  · rintro s hr ha ⟨hi, hq, ht⟩ hc
    exact eret_completes hr ha rfl hi hq ht rfl hc

end Sys2Proof.Machine

namespace Sys2Proof.Machine

/-! ### Arrivals at an owner (R115, R118, R149) -/

theorem traceArrival_byteAt (s : State) (g q node what : Nat) (push : Bool) (size a : Nat) :
    (traceArrival s g q node what push size).byteAt a = s.byteAt a := by
  unfold traceArrival logArrival
  split
  · rfl
  · split
    · rfl
    · rfl

/-- A trace entry says nothing of a queue. -/
theorem traceArrival_qxQueue (s : State) (g q node what : Nat) (push : Bool) (size h n : Nat) :
    qxQueue (traceArrival s g q node what push size) h n = qxQueue s h n := by
  have entry : ∀ e, qxQueue (traceEntry s g e) h n = qxQueue s h n := by
    intro e
    rw [qxQueue, traceEntry, State.core_modCore]
    split
    next hg => rw [hg, qxQueue]
    · rfl
  unfold traceArrival logArrival
  split
  · rfl
  · split
    · exact entry _
    · rfl

theorem setQx_qxQueue (s : State) (g n : Nat) (q : Queue) : qxQueue (setQx s g n q) g n = q := by
  rw [qxQueue, setQx, State.core_modCore, if_pos rfl]
  exact FMap.get_put_same _ _ _ _

theorem performAt_bytes (s : State) (a : Nat) (bs : List Byte) (j : Nat) (h : j < bs.length) :
    (performAt s a bs).byteAt (a + j) = bs[j] :=
  (performAt_byteAt s a j bs h).trans (List.getD_eq_getElem _ _ h)

section Arrive
variable {s : State} {x y z : Int}

theorem execLocalArrival_tcm (hi : s.inp.ints = []) (ha : s.inp.a < 102400) (hb : s.inp.b + s.inp.bytes.length ≤ 2 ^ 15) :
    execLocalArrival s = .next (traceArrival (performAt s (tcmKey s.inp.a s.inp.b) s.inp.bytes) s.inp.a s.inp.c 0 s.inp.b false
      s.inp.bytes.length) := by
  unfold execLocalArrival
  simp only [hi]
  exact if_pos ⟨ha, hb⟩

theorem execLocalArrival_scratch (hi : s.inp.ints = [x]) (ha : s.inp.a < 12800) (hb : s.inp.b + s.inp.bytes.length ≤ 2 ^ 18) :
    execLocalArrival s = .next (performAt s (spKey s.inp.a s.inp.b) s.inp.bytes) := by
  unfold execLocalArrival
  simp only [hi]
  exact if_pos ⟨ha, hb⟩

theorem execLocalArrival_push (hi : s.inp.ints = [x, y]) (ha : s.inp.a < 102400) (hb : s.inp.b < 8)
    (hq : (qxQueue s s.inp.a s.inp.b).items.length < 8) :
    execLocalArrival s = .next (arriveQx s s.inp.a s.inp.b s.inp.c 0 s.inp.w) := by
  unfold execLocalArrival
  simp only [hi]
  exact if_pos ⟨ha, hb, hq⟩

theorem execLocalArrival_block (hi : s.inp.ints = [x, y, z]) : execLocalArrival s = .next (landCombined s s.inp.a s.inp.b) := by
  unfold execLocalArrival
  simp only [hi]

end Arrive

theorem arriveQx_items (s : State) (g n q node : Nat) (x : Word) :
    (qxQueue (arriveQx s g n q node x) g n).items = (qxQueue s g n).items ++ [(x, s.tide)] := by
  rw [arriveQx, traceArrival_qxQueue, setQx_qxQueue]
  rfl

/-- What the host sees behind a block: at each address the block's byte, if it has one, and what it saw before elsewhere. -/
theorem landBlock_hostSees (b : Combine) (s : State) (a : Nat) :
    hostSees (landBlock s b) a = (b.data.filter fun e => e.1 == a).foldl (fun _ e => e.2) (hostSees s a) := by
  unfold landBlock
  induction b.data generalizing s with
  | nil => rfl
  | cons e data ih =>
    rw [List.foldl_cons, ih]
    obtain ⟨k, x⟩ := e
    have hseen : hostSees { s with hostStale := if s.byteAt k = x then FMap.del s.hostStale k else FMap.put s.hostStale k x } a =
        if k = a then x else hostSees s a := by
      by_cases hk : k = a
      · subst hk
        rw [if_pos rfl, hostSees]
        split
        next hx => rw [FMap.get_del, if_pos rfl]; exact hx
        · exact FMap.get_put_same _ _ _ _
      · rw [if_neg hk, hostSees]
        split
        · rw [FMap.get_del, if_neg (Ne.symm hk)]; rfl
        · exact FMap.get_put_ne _ _ _ _ _ (Ne.symm hk)
    rw [hseen]
    by_cases hk : k = a
    · simp [hk]
    · simp [hk]

/-- A block that lands changes what the host sees and nothing else. -/
theorem landBlock_stale (b : Combine) (s : State) : landBlock s b = { s with hostStale := (landBlock s b).hostStale } := by
  unfold landBlock
  induction b.data generalizing s with
  | nil => rfl
  | cons e data ih => rw [List.foldl_cons, ih]

theorem State.slice_modSlice (s : State) (g : Nat) (f : Slice → Slice) : (s.modSlice g f).slice g = f (s.slice g) :=
  FMap.get_put_same _ _ _ _

/-- The arrival of a block: the block is gone, no performed byte changes, and the host sees the block's bytes. -/
theorem landCombined_lands {s : State} {g i : Nat} {b : Combine} (h : (s.slice g).wc[i]? = some b) :
    ((landCombined s g i).slice g).wc = (s.slice g).wc.eraseIdx i ∧ (∀ a, (landCombined s g i).byteAt a = s.byteAt a) ∧
      ∀ a, hostSees (landCombined s g i) a = (b.data.filter fun e => e.1 == a).foldl (fun _ e => e.2) (hostSees s a) := by
  have hland : landCombined s g i = landBlock (s.modSlice g fun c => { c with wc := c.wc.eraseIdx i }) b := by
    rw [landCombined, h]
  rw [hland]
  refine ⟨?_, fun a => ?_, fun a => landBlock_hostSees b _ a⟩
  · rw [landBlock_stale]
    exact congrArg Slice.wc (State.slice_modSlice s g fun c => { c with wc := c.wc.eraseIdx i })
  · rw [landBlock_stale]
    rfl

/-! ### The commit of a chunk (R121, R123) -/

theorem FMap.find_none {α : Type} {m : FMap α} {k : Nat} (h : ∀ e ∈ m, e.1 ≠ k) : FMap.find m k = none := by
  induction m with
  | nil => rfl
  | cons e m ih =>
    rw [FMap.find, if_neg (h e List.mem_cons_self).symm, ih fun x hx => h x (List.mem_cons_of_mem _ hx)]

/-- Cells of rising keys, written one after another: each key reads as its cell. -/
theorem read_foldl_write (cells : FMap Byte) (h : cells.Pairwise fun x y => x.1 < y.1) (m : List Host.Cell) (k : Nat) :
    Memory.read (cells.foldl (fun m e => Memory.write m e.1 e.2) m) k = (FMap.find cells k).getD (Memory.read m k) := by
  induction cells generalizing m with
  | nil => rfl
  | cons e cells ih =>
    obtain ⟨j, x⟩ := e
    obtain ⟨hj, hcells⟩ := List.pairwise_cons.1 h
    rw [List.foldl_cons, ih hcells, Memory.read_write, FMap.find]
    by_cases hk : k = j
    · subst hk
      have hnone : FMap.find cells k = none := FMap.find_none fun e he => (hj e he).ne'
      simp [hnone]
    · simp [hk]

section Commit
variable {s : State} {q : Nat} {c : Chunk}

/-- What a commit performs is what its agent saw (R120, R123). -/
theorem commitChunk_byteAt (hq : leader s q = q) (hc : (s.proc q).chunk = some c) (hh : c.held.Pairwise fun x y => x.1 < y.1) (a : Nat) :
    (commitChunk s q).byteAt a = viewByte s q a := by
  have hmem : (commitChunk s q).mem = c.held.foldl (fun m e => Memory.write m e.1 e.2) s.mem := by
    simp only [commitChunk, hc]
    refine (foldl_mem (α := Nat × Regs) (fun _ _ => by rfl) _ _).trans ?_
    refine (foldl_mem (α := Nat × Nat) (fun _ _ => by rfl) _ _).trans ?_
    exact performBytes_mem _ _
  rw [State.byteAt, hmem, read_foldl_write _ hh, viewByte, hq, hc]
  rfl

theorem standing_icount : Standing fun (p p' : Proc) => p'.icount = p.icount :=
  ⟨fun _ => rfl, fun h k => k.trans h, fun _ _ _ => rfl, fun _ _ _ _ => rfl, fun _ _ _ _ _ => rfl, fun _ _ _ _ => rfl⟩

/-- A commit counts its heads (R124). -/
theorem commitChunk_icount (hc : (s.proc q).chunk = some c) (hk : c.ckpt.map (·.1) = [q]) :
    ((commitChunk s q).proc q).icount = (s.proc q).icount + wNat c.heads := by
  obtain ⟨⟨k, r⟩, hl⟩ : ∃ e, c.ckpt = [e] := List.length_eq_one_iff.1 (by simpa using congrArg List.length hk)
  have hkq : k = q := by simpa [hl] using hk
  have hbins : ∀ (l : List (Nat × Nat)) (t : State),
      ((l.foldl (fun s e => addBin s (e.1 / 64) (e.1 % 64) e.2) t).proc q).icount = (t.proc q).icount :=
    fun l t => standing_icount.foldl (fun _ _ _ => by rfl) l t q
  have hcells := standing_icount.performBytes (s.modProc q fun p => { p with chunk := none, discards := 0 }) c.held q
  simp only [commitChunk, hc, hl, List.foldl_cons, List.foldl_nil, hkq, State.proc_modProc]
  rw [hbins, hcells, State.proc_modProc]
  rfl

end Commit

theorem execChunkCommit_one {s : State} (hi : s.inp.ints = []) : execChunkCommit s = .next (commitChunk s (leader s s.inp.a)) := by
  simp [execChunkCommit, commitAll, hi, insertByAge]

/-! ### A line is fetched (R38) -/

theorem execLineFetch_fetched {s w : State} {l : Line} {n : Nat}
    (hq : isHart s.inp.a = false) (ht : (s.proc s.inp.a).timed = false)
    (hn : residentLine s s.inp.a (lineBase (s.proc s.inp.a).r.pc) = none)
    (hf : FMap.find (s.proc s.inp.a).lines (lineBase (s.proc s.inp.a).r.pc) = none)
    (hr : readCode s s.inp.a (lineBase (s.proc s.inp.a).r.pc) = .ok (w, l)) (hl : l.check = some n) :
    execLineFetch s = .next (cacheLine (w.modProc s.inp.a fun p =>
      { p with lines := FMap.put p.lines (lineBase (s.proc s.inp.a).r.pc) l }) (coreOf s.inp.a) (lineBase (s.proc s.inp.a).r.pc) l) := by
  have hfetch : fetchLine s s.inp.a (lineBase (s.proc s.inp.a).r.pc) = .ok (cacheLine (w.modProc s.inp.a fun p =>
      { p with lines := FMap.put p.lines (lineBase (s.proc s.inp.a).r.pc) l }) (coreOf s.inp.a) (lineBase (s.proc s.inp.a).r.pc) l, l) := by
    simp only [fetchLine, hn, hq, ht, hr, hf, Bool.false_eq_true, if_false, Option.getD_none, hl, Option.isSome_some, if_true]
  rw [execLineFetch, hfetch]

end Sys2Proof.Machine

namespace Sys2Proof.Machine

/-! ### What a vector store leaves of the gangs (R138, R209) -/

theorem SameGang.of_cores {s t : State} (h : t.cores = s.cores) : SameGang s t := fun g => by
  rw [State.core, h, ← State.core]
  exact ⟨rfl, rfl⟩

theorem CachesFilled.sameGang {s t : State} (h : CachesFilled s t) : SameGang s t := .of_cores h.2.1

theorem SameGang.modCore {s : State} {g : Nat} {f : Core → Core}
    (h : (f (s.core g)).gsize = (s.core g).gsize ∧ (f (s.core g)).gmemb = (s.core g).gmemb) : SameGang s (s.modCore g f) := by
  intro k
  rw [State.core_modCore]
  split
  next hk => exact hk ▸ h
  · exact ⟨rfl, rfl⟩

theorem endChunk_sameGang (s : State) (q : Nat) : SameGang s (endChunk s q) := (commitChunk_sameGang s q).trans (.modProc _ q _)

theorem performAt_sameGang (s : State) (a : Nat) (bs : List Byte) : SameGang s (performAt s a bs) := performBytes_sameGang s _

theorem holdStore_sameGang (s : State) (q a : Nat) (bs : List Byte) : SameGang s (holdStore s q a bs) := by
  unfold holdStore
  simp only
  split
  · exact performAt_sameGang s a bs
  · exact .modProc _ _ _

theorem traceArrival_sameGang (s : State) (g q node what : Nat) (push : Bool) (size : Nat) :
    SameGang s (traceArrival s g q node what push size) := by
  unfold traceArrival logArrival
  split
  · exact .refl s
  · split
    · exact .modCore ⟨rfl, rfl⟩
    · exact .refl s

theorem hostStore_sameGang (s : State) (pa : Nat) (wc : Bool) (bs : List Byte) : SameGang s (hostStore s pa wc bs) := by
  unfold hostStore
  simp only
  split
  · exact performBytes_sameGang s _
  · exact performBytes_sameGang s _

theorem cores_ite {s a b : State} {c : Prop} [Decidable c] (ha : a.cores = s.cores) (hb : b.cores = s.cores) :
    (if c then a else b).cores = s.cores := by
  split <;> assumption

/-- A write of a device register changes no core: what it asks of one is a turn of its own. -/
theorem regWrite_cores (s : State) (off : Nat) (v w : Word) : (regWrite s off v w).cores = s.cores := by
  unfold regWrite
  refine cores_ite rfl (cores_ite ?_ (cores_ite ?_ (cores_ite ?_ (cores_ite ?_ (cores_ite ?_ (cores_ite ?_ (cores_ite ?_
    (cores_ite ?_ (cores_ite rfl rfl)))))))))
  all_goals
    split
    all_goals
      repeat' refine cores_ite ?_ ?_
      all_goals rfl

theorem devWrite_sameGang (s : State) (off : Nat) (bs : List Byte) : SameGang s (devWrite s off bs) := .of_cores (regWrite_cores s _ _ _)

theorem serveMem_store_sameGang (s : State) (src pa : Nat) (bs : List Byte) : SameGang s (serveMem s src pa (.store bs)).2 := by
  unfold serveMem
  split
  · exact .refl s
  · exact performAt_sameGang s pa bs

theorem delayFlight_sameGang (s : State) (gs : List Nat) (now d0 d1 : Nat) : SameGang s (delayFlight s gs now d0 d1) :=
  SameGang.foldl _ (fun t g => SameGang.modProc t (ctl g) _) _ _

/-- The effect leaves the gangs of the state it runs in as they were, where it succeeds. -/
def KeepsGang {α : Type} (s : State) (e : Eff α) : Prop := ∀ x t, e s = .ok x t → SameGang s t

section KeepsGang
variable {α β : Type} {s : State}

theorem KeepsGang.of_eq {e : Eff α} {x : α} {t : State} (h : e s = .ok x t) (hg : SameGang s t) : KeepsGang s e := by
  intro y u hu
  obtain ⟨-, rfl⟩ := EStateM.Result.ok.inj (h.symm.trans hu)
  exact hg

theorem KeepsGang.of_pure (x : α) : KeepsGang s (pure x) := .of_eq (Eff.pure_apply x s) (.refl s)

theorem KeepsGang.of_throw (e : Stop) : KeepsGang s (throw e : Eff α) := fun _ _ h => nomatch h

theorem KeepsGang.of_modify {f : State → State} (h : SameGang s (f s)) : KeepsGang s (modify f) := .of_eq (Eff.modify_apply f s) h

theorem KeepsGang.of_set {t : State} (h : SameGang s t) : KeepsGang s (set t : Eff Unit) := .of_eq (Eff.set_apply s t) h

theorem KeepsGang.bind {e : Eff α} {k : α → Eff β} (he : KeepsGang s e) (hk : ∀ x t, KeepsGang t (k x)) : KeepsGang s (e >>= k) := by
  intro y u hu
  rw [Eff.bind_apply] at hu
  split at hu
  next x t hx => exact (he x t hx).trans (hk x t y u hu)
  · cases hu

theorem KeepsGang.get_bind {k : State → Eff β} (hk : KeepsGang s (k s)) : KeepsGang s (get >>= k) := by
  intro y u hu
  rw [Eff.bind_ok (Eff.get_apply s)] at hu
  exact hk y u hu

theorem KeepsGang.modify_bind {f : State → State} {k : Unit → Eff β} (h : SameGang s (f s)) (hk : KeepsGang (f s) (k ())) :
    KeepsGang s (modify f >>= k) := by
  intro y u hu
  rw [Eff.bind_ok (Eff.modify_apply f s)] at hu
  exact h.trans (hk y u hu)

theorem KeepsGang.ite {c : Prop} [Decidable c] {e k : Eff α} (he : KeepsGang s e) (hk : KeepsGang s k) :
    KeepsGang s (if c then e else k) := by
  split <;> assumption

theorem leaveChunk_keepsGang (s : State) : KeepsGang s leaveChunk := .of_modify (endChunk_sameGang s _)

theorem byMember_keepsGang {e : Eff α} (m : Nat) (he : ∀ t, KeepsGang t e) (s : State) : KeepsGang s (byMember m e) :=
  .get_bind (.modify_bind (.refl s) (.bind (he _) fun _ t => .bind (.of_modify (.refl t)) fun _ _ => .of_pure _))

end KeepsGang

theorem checkAccess_sameGang {s t : State} {q vf : Nat} {win : FMap Word} {va : Word} {n al : Nat} {perm : Perm} {timed : Bool} {l : Loc}
    (h : checkAccess s q vf win va n al perm timed = .ok (t, l)) : SameGang s t := by
  unfold checkAccess at h
  split at h
  · cases h
  split at h
  · cases h
  split at h
  · split at h
    · cases h
    split at h
    · cases h
    next ht =>
      split at h
      · cases h
      · obtain ⟨rfl, -⟩ := Prod.mk.inj (Except.ok.inj h)
        exact (translate_cachesFilled ht).sameGang
  · split at h
    · cases h
    split at h
    · cases h
    · exact (Prod.mk.inj (Except.ok.inj h)).1 ▸ .refl s
  · split at h
    · cases h
    split at h
    · cases h
    split at h
    · cases h
    · exact (Prod.mk.inj (Except.ok.inj h)).1 ▸ .refl s

theorem check_keepsGang (va : Word) (n al : Nat) (perm : Perm) (s : State) : KeepsGang s (check va n al perm) := by
  have access : KeepsGang s (match checkAccess s s.cur s.me.vf (winOf s s.cur) va n al perm s.me.timed with
      | .error c => throw (accessStop c va)
      | .ok (s', l) => do set s'; pure l) := by
    split
    · exact .of_throw _
    next h => exact .bind (.of_set (checkAccess_sameGang h)) fun _ _ => .of_pure _
  unfold check
  refine .get_bind ?_
  simp only
  split
  · split
    · exact fun _ _ h => nomatch h
    · exact access
  · exact access

theorem checkElem_keepsGang (va : Word) (n : Nat) (perm : Perm) (s : State) : KeepsGang s (checkElem va n perm) := by
  unfold checkElem
  refine .get_bind ?_
  dsimp only
  refine .ite (check_keepsGang va n n perm s) (.ite (.of_throw _) ?_)
  split
  · exact .ite (.of_throw _) (.of_throw _)
  · exact .of_throw _

theorem reachable_keepsGang (va : Word) (l : Loc) (s : State) : KeepsGang s (reachable va l) := by
  unfold reachable
  split
  · exact .get_bind (.ite (.ite (.of_throw _) (.of_throw _)) (.of_pure _))
  · exact .of_pure _

theorem takePart_keepsGang (w : Nat) (ea : Nat → Word) (is : List Nat) :
    ∀ (lines seen : List Nat) (s : State), KeepsGang s (takePart w ea lines seen is) := by
  induction is with
  | nil => exact fun _ _ _ => .of_pure _
  | cons i is ih =>
    intro lines seen s
    unfold takePart
    refine .get_bind ?_
    simp only
    split
    · exact .of_pure _
    refine .bind (byMember_keepsGang _ (checkElem_keepsGang _ _ _) s) fun l t => .bind (reachable_keepsGang _ l t) fun _ u => ?_
    split
    · exact .of_pure _
    · exact .bind (ih _ _ u) fun _ _ => .of_pure _

theorem remoteAccess_keepsGang {own : State → Option Nat × State} (hown : ∀ s, SameGang s (own s).2) (who node pa : Nat) (va : Word)
    (kind : PacketKind) (s : State) : KeepsGang s (remoteAccess who node pa va kind own) := by
  unfold remoteAccess
  refine .get_bind ?_
  simp only
  refine .modify_bind (SameGang.modProc s who _) ?_
  split
  · exact .of_pure _
  refine .ite (.ite (.of_throw _) (.of_throw _)) ?_
  split
  · exact .ite (.of_throw _) (.of_throw _)
  · split
    next ho =>
      have hs := hown s
      rw [ho] at hs
      exact .bind (.of_set hs) fun _ _ => .of_pure _
    · exact .of_throw _
    · exact .bind (.of_modify (.refl _)) fun _ _ => .of_pure _
    · exact .of_throw _
  · refine .bind (.of_modify (.refl _)) fun _ t => ?_
    split
    · exact .bind (.of_modify (.refl _)) fun _ _ => .of_pure _
    · exact .of_throw _

theorem writeLoc_keepsGang (va : Word) (l : Loc) (n v lane who : Nat) (s : State) : KeepsGang s (writeLoc va l n v lane who) := by
  unfold writeLoc
  refine .get_bind ?_
  cases l with
  | tcm g o =>
    simp only
    split
    · exact .of_modify (holdStore_sameGang s _ _ _)
    · exact .bind (leaveChunk_keepsGang s) fun _ t => .of_modify ((performAt_sameGang t _ _).trans (traceArrival_sameGang _ _ _ _ _ _ _))
  | scratch gc w o => exact .bind (leaveChunk_keepsGang s) fun _ t => .of_modify (performAt_sameGang t _ _)
  | own pa => exact .of_modify ((holdStore_sameGang s _ _ _).trans (.modProc _ _ _))
  | host pa wc => exact .bind (leaveChunk_keepsGang s) fun _ t => .of_modify (hostStore_sameGang t _ _ _)
  | dev off =>
    simp only
    split
    · exact .bind (.of_throw _) fun _ t => .bind (leaveChunk_keepsGang t) fun _ t => .of_modify (devWrite_sameGang t _ _)
    · exact .bind (leaveChunk_keepsGang s) fun _ t => .of_modify (devWrite_sameGang t _ _)
  | remote node pa o =>
    exact .bind (leaveChunk_keepsGang s) fun _ t =>
      .bind (remoteAccess_keepsGang (fun t => serveMem_store_sameGang t _ _ _) _ _ _ _ _ t) fun _ _ => .of_pure _

theorem writeElems_keepsGang (who w v : Nat) (ea : Nat → Word) (part : List (Nat × Loc)) :
    ∀ s : State, KeepsGang s (writeElems who w v ea part) := by
  induction part with
  | nil => exact fun _ => .of_pure _
  | cons e part ih =>
    intro s
    exact .get_bind (.bind (byMember_keepsGang _ (writeLoc_keepsGang _ _ _ _ _ _) s) fun _ t => ih t)

theorem bankAccess_keepsGang (ls : List (Loc × Nat × Nat)) (s : State) : KeepsGang s (bankAccess ls) := by
  unfold bankAccess
  refine .get_bind ?_
  simp only
  split
  · exact .of_pure _
  · refine .bind (.of_set ?_) fun _ _ => .of_pure _
    refine SameGang.trans ?_ (SameGang.foldl (α := BankUse) _ (fun t u => delayFlight_sameGang t _ _ _ _) _ _)
    exact SameGang.foldl (α := Nat) _ (fun t gc => .of_cores (by rfl)) _ _

/-! ### The last part of a split store (R224, R225) -/

theorem w64_add (x : Word) (imm : BitVec 32) : w64 ((x.toNat : Int) + imm.toInt) = x + imm.signExtend 64 := by
  rw [w64, BitVec.ofInt_add, BitVec.ofInt_natCast, BitVec.ofNat_toNat, BitVec.setWidth_eq]
  rfl

/-- The address of a vector memory instruction's base, as the statements write it. -/
theorem vbase_apply (b : BitVec 6) (imm : BitVec 32) (u : State) : vbase b imm u = .ok (u.ea b imm) u := by
  rw [State.ea, w64_add]
  rfl

/-- The end of a vector store behind its writes: its counts, the banks, and the stochastic counter. -/
theorem storeEnd_apply {u w : State} {cs : List (Nat × Nat)} {ls : List (Loc × Nat × Nat)} {wait : Nat} {d : Bool} {nx : Next}
    (h : bankAccess ls ((cs.foldl (fun t e => addBin t e.1 e.2 1) u).modProc u.cur fun p => { p with partCounts := [] }) =
      .ok wait w) :
    (do
      addCounts cs
      modMe fun p => { p with partCounts := [] }
      let _ ← bankAccess ls
      advanceCtr d
      pure nx : Eff Next) u = .ok nx (w.drew d) := by
  have hcur : (cs.foldl (fun t e => addBin t e.1 e.2 1) u).cur = u.cur :=
    (Inner.foldl (α := Nat × Nat) _ (fun t e => addBin_inner t _ _ _) cs u).cur
  rw [addCounts, Eff.bind_ok (Eff.modify_apply _ u), Eff.bind_ok (modMe_apply _ _), hcur, Eff.bind_ok h]
  cases d <;> rfl

theorem vstore_stores {u w : State} {a : BitVec 6} {kp : BitVec 3} {ty : BitVec 4} {ea : Nat → Word}
    (h : storesVector u a kp ty ea w) : ∃ w1, vstore a kp ty true ea u = .ok {} w1 ∧ w = w1.vresZero := by
  obtain ⟨part, u1, u2, wait, w1, htake, hwrite, hbank, rfl⟩ := h
  refine ⟨_, ?_, rfl⟩
  unfold vstore
  rw [Eff.bind_ok (Eff.get_apply u)]
  simp only [fld_low]
  rw [Eff.bind_ok htake]
  by_cases hv : u.me.r.vres.toNat % 2 ^ 16 = 0
  · rw [if_pos hv] at hwrite
    simp only [hv, ne_eq, not_true_eq_false, if_false]
    rw [Eff.bind_ok hwrite]
    exact storeEnd_apply hbank
  · rw [if_neg hv] at hwrite
    simp only [hv, ne_eq, not_false_eq_true, if_true]
    rw [Eff.bind_ok (show leaveChunk u1 = .ok () _ from rfl), Eff.bind_ok hwrite]
    exact storeEnd_apply hbank

/-! ### A head that ends between no parts (R224) -/

/-- An agent that does not wait between two parts does not come to do so by a store. -/
theorem standing_notParts : Standing fun (p p' : Proc) => p.wait ≠ .parts → p'.wait ≠ .parts where
  refl _ := id
  trans h k := k ∘ h
  restored _ _ _ := id
  discarded _ _ _ _ _ := nofun
  told _ _ _ _ _ _ := nofun
  toldEv _ _ _ _ _ := nofun

/-- After a change of each of some agents, each of them has what the change gives, whatever it was before. -/
theorem foldl_modProc_of_mem {P : Proc → Prop} {f : State → Proc → Proc} (h : ∀ t p, P (f t p)) (ms : List Nat) (s : State) {q : Nat}
    (hq : q ∈ ms) : P ((ms.foldl (fun s m => s.modProc m (f s)) s).proc q) := by
  have keeps : ∀ (ms : List Nat) (t : State), P (t.proc q) → P ((ms.foldl (fun s m => s.modProc m (f s)) t).proc q) := by
    intro ms
    induction ms with
    | nil => exact fun _ ht => ht
    | cons m ms ih =>
      intro t ht
      refine ih _ ?_
      rw [State.proc_modProc_eq]
      split
      · exact h _ _
      · exact ht
  induction ms generalizing s with
  | nil => cases hq
  | cons m ms ih =>
    rcases List.mem_cons.1 hq with rfl | hq
    · exact keeps ms _ (by rw [State.proc_modProc]; exact h _ _)
    · exact ih _ hq

/-- A head that ends leaves none of its agents between two parts. -/
theorem endHead_notParts {s : State} {i : Instr} {q : Nat} (hq : q ∈ members s s.cur) : ((endHead s i {}).proc q).wait ≠ .parts := by
  have ended : ∀ t : State, (t.proc q).wait ≠ .parts → ((if (t.proc (leader s s.cur)).single then commitChunk t (leader s s.cur)
      else t).proc q).wait ≠ .parts := by
    intro t ht
    split
    · exact standing_notParts.commitChunk (fun _ => id) (fun _ _ => id) t _ q ht
    · exact ht
  have counted : ∀ (c : Bool) (t : State), (t.proc q).wait ≠ .parts → ((if c = true then t.modProc (leader s s.cur) fun p =>
      { p with chunk := p.chunk.map fun c => { c with heads := c.heads + 1 } } else t).proc q).wait ≠ .parts := by
    intro c t ht
    split
    · exact standing_notParts.modProc (fun _ => by exact id) t _ q ht
    · exact ht
  refine ended _ (counted _ _ (foldl_modProc_of_mem (P := fun p => p.wait ≠ .parts) (fun t p => ?_) _ s hq))
  exact Wait.noConfusion

theorem vresZero_eq (u : State) :
    u.vresZero = (members u u.cur).foldl (fun t m => t.modProc m (Proc.afterVec u.tide.toNat)) u := rfl

/-- A vector store that has at most one part left completes. -/
theorem execVst_stores {a b : BitVec 6} {kp : BitVec 3} {ty : BitVec 4} {nt : Bool} {imm : BitVec 32} {s w : State}
    (h : ready s (.vst a b kp ty nt imm) = true)
    (hs : storesVector (beginHead s (.vst a b kp ty nt imm)) a kp ty
      (fun k => (beginHead s (.vst a b kp ty nt imm)).ea b imm + wNat (k * (typeWidth ty.toNat / 8))) w)
    (hc : chunkLines w s.cur ≤ 64) :
    execVst a b kp ty nt imm s = .next (endHead { w with cur := s.cur } (.vst a b kp ty nt imm) {}) := by
  obtain ⟨w1, hv, rfl⟩ := vstore_stores hs
  unfold execVst runVec runOnce
  rw [exec_once h ?_ hc]
  rw [Eff.bind_ok ((Eff.bind_ok (vbase_apply b imm _)).trans hv), Eff.bind_ok (Eff.modify_apply _ _), ← vresZero_eq]
  rfl

theorem vresZero_sameGang (u : State) : SameGang u u.vresZero :=
  SameGang.foldl (α := Nat) _ (fun t m => SameGang.modProc t m _) _ _

theorem drew_sameGang (u : State) (d : Bool) : SameGang u (u.drew d) := by
  cases d
  · exact .refl u
  · exact .of_cores rfl

theorem storesVector_sameGang {u w : State} {a : BitVec 6} {kp : BitVec 3} {ty : BitVec 4} {ea : Nat → Word}
    (h : storesVector u a kp ty ea w) : SameGang u w := by
  obtain ⟨part, u1, u2, wait, w1, htake, hwrite, hbank, rfl⟩ := h
  have h1 := takePart_keepsGang _ _ _ _ _ u _ _ htake
  have h2 := writeElems_keepsGang _ _ _ _ _ _ _ _ hwrite
  have h3 := bankAccess_keepsGang _ _ _ _ hbank
  have hend : SameGang u1 (if u.me.r.vres.toNat % 2 ^ 16 = 0 then u1 else endChunk u1 (leader u1 u1.cur)) := by
    split
    · exact .refl u1
    · exact endChunk_sameGang u1 _
  have hcount := SameGang.foldl (α := Nat × Nat) (fun t e => addBin t e.1 e.2 1) (fun t e => addBin_sameGang t _ _ _)
    (u.me.partCounts ++ partBins u (typeWidth ty.toNat) (readVec u a.toNat) part) u2
  have hbanks := h2.trans (hcount.trans (SameGang.trans (.of_cores rfl) h3))
  exact h1.trans (hend.trans (hbanks.trans ((drew_sameGang w1 _).trans (vresZero_sameGang _))))

theorem execVectorStorePart_ends {a b : BitVec 6} {kp : BitVec 3} {ty : BitVec 4} {nt : Bool} {imm : BitVec 32} {s s1 w : State}
    {q : Nat} (hq : leader s s.inp.a = q) (hw : (s.proc q).wait = .parts)
    (hi : currentInstr s q = some (s1, .vst a b kp ty nt imm)) (h : ready { s1 with cur := q } (.vst a b kp ty nt imm) = true)
    {u : State} (hu : beginHead { s1 with cur := q } (.vst a b kp ty nt imm) = u)
    (hs : storesVector u a kp ty (fun k => u.ea b imm + wNat (k * (typeWidth ty.toNat / 8))) w) (hc : chunkLines w q ≤ 64) :
    execVectorStorePart s = .next (endHead { w with cur := q } (.vst a b kp ty nt imm) {}) := by
  subst hu
  have hgang := (beginHead_sameGang { s1 with cur := q } (.vst a b kp ty nt imm)).trans (storesVector_sameGang hs)
  have hlead : leader { s1 with cur := q } q = q := ((ready_iff _ _).1 h).1
  have hmem : q ∈ members { w with cur := q } q := by
    have hm : members { w with cur := q } q = members { s1 with cur := q } q := members_congr hgang q
    have hin := leader_mem { s1 with cur := q } q
    rwa [hlead, ← hm] at hin
  have hparts := endHead_notParts (i := .vst a b kp ty nt imm) hmem
  unfold execVectorStorePart
  simp only [hq, hw, hi, beq_self_eq_true, if_true, execVst_stores h hs hc]
  rw [if_neg fun hb => hparts hb.2]

/-- Settles O40: each step runs through its own lemma; a store, a commit and a block by what a byte reads as behind them. -/
theorem chunkStepsComplete : Obligations.ChunkStepsComplete := by
  unfold Obligations.ChunkStepsComplete
  refine ⟨?_, fun x => ?_, fun x y => ?_, fun x y z b => ?_, fun c => ?_, ?_, fun w l n => ?_⟩
  · rintro s ⟨hi, ha, hb⟩
    exact ⟨_, execLocalArrival_tcm hi ha hb, fun j h => (traceArrival_byteAt _ _ _ _ _ _ _ _).trans (performAt_bytes s _ _ j h)⟩
  · rintro s ⟨hi, ha, hb⟩
    exact ⟨_, execLocalArrival_scratch hi ha hb, fun j h => performAt_bytes s _ _ j h⟩
  · rintro s ⟨hi, ha, hb, hq⟩
    exact ⟨_, execLocalArrival_push hi ha hb hq, arriveQx_items s _ _ _ _ _⟩
  · rintro s ⟨hi, hb⟩
    exact ⟨_, execLocalArrival_block hi, landCombined_lands hb⟩
  · rintro s ⟨hi, hm, hc, hh, hk⟩
    have hq : leader s s.inp.a = s.inp.a := by rw [leader, hm]; rfl
    refine ⟨_, execChunkCommit_one hi, ?_⟩
    rw [hq]
    exact ⟨commitChunk_none s _, commitChunk_icount hc hk, commitChunk_byteAt hq hc hh⟩
  · intro a b kp ty nt imm w s s1 q i u hw hi hr hs hc
    exact execVectorStorePart_ends rfl hw hi hr rfl hs hc
  · rintro s ⟨hq, ht, hn, hf, hr, hl⟩
    exact execLineFetch_fetched hq ht hn hf hr hl

end Sys2Proof.Machine

namespace Sys2Proof.Machine

/-! ## Dot products, reductions and scans (R86, R87, R216, R217) -/

/-! ### Writes of a gang's vector register -/

theorem ofNat_bits (w lo x : Nat) : BitVec.ofNat w (bits x lo w) = BitVec.ofNat w (x / 2 ^ lo) := by
  apply BitVec.eq_of_toNat_eq
  simp [bits]

/-- Effects done one after another, none of which stops. -/
theorem Eff.forM_apply {α : Type} {k : α → Eff Unit} {f : State → α → State} (h : ∀ a t, k a t = .ok () (f t a)) (l : List α)
    (s : State) : l.forM k s = .ok () (l.foldl f s) := by
  induction l generalizing s with
  | nil => rfl
  | cons a l ih => exact (Eff.bind_ok (h a s)).trans (ih _)

theorem writeVec_apply (lat n mask x : Nat) (u : State) : writeVec lat n mask x u = .ok () (u.landV lat n mask x) := by
  unfold writeVec State.landV
  simp only [ofNat_bits]
  rw [Eff.bind_ok (Eff.get_apply u)]
  exact Eff.bind_ok (Eff.forM_apply (fun _ _ => rfl) _ u)

theorem putAt_apply (lat : Nat) (a : BitVec 6) (w : Nat) (z : Bool) (rs : List (Nat × Bool × Nat)) (u : State) :
    putAt lat a w z rs u = .ok () (u.landAt lat a w z rs) := writeVec_apply _ _ _ _ u

theorem putOne_apply (lat : Nat) (a : BitVec 6) (w j x : Nat) (u : State) :
    putOne lat a w j x u = .ok () (u.landAt lat a w false [(j, true, x)]) := putAt_apply _ _ _ _ _ u

/-! ### Flags and the stochastic counter -/

theorem raiseFlags_apply (lat fl : Nat) (u : State) : raiseFlags lat fl u = .ok () (u.landFlags lat fl) := by
  unfold raiseFlags State.landFlags
  split <;> rfl

theorem State.landFlags_zero (u : State) (lat : Nat) : u.landFlags lat 0 = u := if_pos rfl

theorem advanceCtr_apply (d : Bool) (u : State) : advanceCtr d u = .ok () (u.drew d) := by
  cases d <;> rfl

/-- The end of a vector instruction that rounds: its flags, and the stochastic counter. -/
theorem roundEnd_apply (lat fl : Nat) (d : Bool) (u : State) :
    (do raiseFlags lat fl; advanceCtr d; pure seqNext : Eff Next) u = .ok {} ((u.landFlags lat fl).drew d) := by
  rw [Eff.bind_ok (raiseFlags_apply _ _ _), Eff.bind_ok (advanceCtr_apply _ _)]
  rfl

theorem vctl_apply (rm : BitVec 3) (u : State) : vctl rm.toNat u = .ok (u.controls rm) u := rfl

/-! ### Elements under a predicate -/

theorem elems_eq (u : State) (w : Nat) : elems u w = 512 * (members u u.cur).length / w := rfl

theorem elems_word (u : State) : elems u 32 = 16 * (members u u.cur).length := by
  rw [elems_eq]
  omega

theorem elems_byte (u : State) : elems u 8 = 64 * (members u u.cur).length := by
  rw [elems_eq]
  omega

/-- Each byte has its own predicate bit (R189). -/
theorem active_byte (k i : Nat) : active k 8 i = k.testBit i := by
  rw [active, Nat.mul_div_cancel i (by decide)]

theorem activity_length (u : State) (kp : BitVec 3) (w : Nat) : (activity u kp w).length = elems u w := by
  simp [activity, elems_eq]

theorem map_activeResults {α β : Type} (g : α → β) (acts : List Bool) (d : α) (f : Nat → α) :
    (activeResults acts d f).map g = activeResults acts (g d) fun i => g (f i) := by
  simp [activeResults, apply_ite g]

/-- Active elements land under their predicate, and with z zeros for the others, with the flags of all (R189, R190). -/
theorem putVec_apply (lat : Nat) (a : BitVec 6) (kp : BitVec 3) (z : Bool) (w : Nat) (f : Nat → Nat × Nat) (u : State) :
    putVec lat a kp z w (elems u w) f u = .ok ((activity u kp w).any id)
      ((u.landV lat a.toNat (joinElems w ((activity u kp w).map fun x => if x || z then 2 ^ w - 1 else 0))
        (joinElems w ((activeResults (activity u kp w) (0, 0) f).map (·.1)))).landFlags lat
          ((activeResults (activity u kp w) (0, 0) f).foldl (fun m e => m ||| e.2) 0)) := by
  have hacts : (upTo (elems u w)).map (active (readPred u kp.toNat) w) = activity u kp w := rfl
  have hrs : ((upTo (elems u w)).zip (activity u kp w)).map (fun e => if e.2 then f e.1 else (0, 0)) =
      activeResults (activity u kp w) (0, 0) f := by
    rw [activeResults, activity_length]
    rfl
  unfold putVec
  rw [Eff.bind_ok (Eff.get_apply u)]
  simp only [hacts, hrs]
  rw [Eff.bind_ok (writeVec_apply _ _ _ _ u), Eff.bind_ok (raiseFlags_apply _ _ _)]
  rfl

theorem activeResults_noFlags (acts : List Bool) (f : Nat → Nat) :
    (activeResults acts (0, 0) fun i => (f i, 0)).foldl (fun m e => m ||| e.2) 0 = 0 := by
  simp [activeResults, List.foldl_map, apply_ite Prod.snd]

/-- The same of elements that raise no flag. -/
theorem putVec_noFlags (lat : Nat) (a : BitVec 6) (kp : BitVec 3) (z : Bool) (w : Nat) (f : Nat → Nat) (u : State) :
    putVec lat a kp z w (elems u w) (fun i => (f i, 0)) u = .ok ((activity u kp w).any id)
      (u.landV lat a.toNat (joinElems w ((activity u kp w).map fun x => if x || z then 2 ^ w - 1 else 0))
        (joinElems w (activeResults (activity u kp w) 0 f))) := by
  rw [putVec_apply, activeResults_noFlags, State.landFlags_zero, map_activeResults]

/-! ### Completion -/

/-- A vector instruction whose meaning completes under `H` completes, with vres zero behind its effect (R194, R224). -/
theorem doesOnce_runVec {i : Instr} {body : Eff Next} {H : State → Prop} {E : State → State}
    (he : ∀ s, Sys2Proof.Machine.exec i s = runVec i body s) (hb : ∀ u, H u → body u = .ok {} (E u)) :
    DoesOnce i H fun u => (E u).vresZero := by
  intro s hr hH hc
  refine completes_once hr (he s) ?_ hc
  rw [Eff.bind_ok (hb _ hH), Eff.bind_ok (Eff.modify_apply _ _), ← vresZero_eq]
  rfl

/-- Settles O20: each instruction reads its vectors once, and its result, flags and draw land behind them. -/
theorem reductionsComplete : Obligations.ReductionsComplete := by
  unfold Obligations.ReductionsComplete
  refine ⟨?_, ?_, ?_, ?_⟩
  · intro a b c kp rm ta tb j
    refine doesOnce_runVec (fun _ => rfl) fun u hj => ?_
    rw [Eff.bind_ok (vctl_apply rm u), Eff.bind_ok (Eff.get_apply u), if_neg (by rw [elems_word]; omega)]
    simp only [elems_byte, active_byte]
    exact (Eff.bind_ok (putOne_apply _ _ _ _ _ u)).trans (roundEnd_apply _ _ _ _)
  · intro a b c kp ta tb j
    refine doesOnce_runVec (fun _ => rfl) fun u hj => ?_
    rw [Eff.bind_ok (Eff.get_apply u), if_neg (by rw [elems_word]; omega)]
    exact Eff.bind_ok (putOne_apply _ _ _ _ _ u)
  · intro a b kp rm t o j
    refine doesOnce_runVec (fun _ => rfl) fun u hj => ?_
    rw [Eff.bind_ok (vctl_apply rm u), Eff.bind_ok (Eff.get_apply u), if_neg (show ¬ elems u (typeWidth t.toNat) ≤ j.toNat from Nat.not_le.2 hj)]
    exact (Eff.bind_ok (putOne_apply _ _ _ _ _ u)).trans (roundEnd_apply _ _ _ _)
  · intro a b kp z rm t o
    refine doesOnce_runVec (fun _ => rfl) fun u _ => ?_
    rw [Eff.bind_ok (vctl_apply rm u), Eff.bind_ok (Eff.get_apply u)]
    exact (Eff.bind_ok (putVec_noFlags _ _ _ _ _ _ u)).trans (roundEnd_apply _ _ _ _)

end Sys2Proof.Machine

namespace Sys2Proof.Machine

/-! ## Every step keeps the memory canonical (O56)

One lemma for every function of the model that a step can reach and that answers a state, an effect or an outcome: given a state whose
memory is canonical, what it answers holds one too. A function that changes no memory needs `State.Canonical.mk` alone; the memory
itself changes by `Memory.write` (`performBytes`, `setCoreWord`, the images of the ferry) and by leaving out cells, both of which keep
the form (`Memory.wf_cells`, `Memory.wf_writeList`, `Memory.wf_filter`). A proof names the function's branches in the order in which the
model writes them; a function whose every branch is such a term needs no `split`. -/

/-! ### States, answers and effects -/

/-- The memory of a state is in its one canonical form (R102). -/
def State.Canonical (s : State) : Prop := Memory.wf s.mem = true

/-- Nothing but memory counts. -/
theorem State.Canonical.mk {s : State}
    {x0 x1 x2 x3 x4 x5 x6 x7 x8 x9 x10 x11 x12 x13 x14 x15 x16 x17 x18 x19 x20 x21 x22 x23 x24 x25 x26 x27 x28 x29 x30 x31
    x32 x33 x34 x35 x36 x37 x38 x39 x40 x41 x42 x43 x44 x45 x46 x47}
    (h : s.Canonical) : State.Canonical
      ⟨x0, x1, x2, x3, x4, x5, s.mem, x6, x7, x8, x9, x10, x11, x12, x13, x14, x15, x16, x17, x18, x19, x20, x21, x22,
      x23, x24, x25, x26, x27, x28, x29, x30, x31, x32, x33, x34, x35, x36, x37, x38, x39, x40, x41, x42, x43, x44, x45,
      x46, x47⟩ := h

theorem State.Canonical.of_mem {s : State} (h : Memory.wf s.mem = true) : s.Canonical := h

theorem State.Canonical.ite {c : Prop} [Decidable c] {s t : State} (hs : s.Canonical) (ht : t.Canonical) :
    (if c then s else t).Canonical := by
  split
  · exact hs
  · exact ht

theorem State.Canonical.foldl {α : Type} {f : State → α → State} {l : List α} {s : State}
    (h : ∀ t a, t.Canonical → (f t a).Canonical) (hs : s.Canonical) : (l.foldl f s).Canonical := by
  induction l generalizing s with
  | nil => exact hs
  | cons a l ih => exact ih (h s a hs)

theorem State.Canonical.of_fst {α : Type} {p : State × α} {t : State} {a : α} (h : p.1.Canonical) (e : p = (t, a)) :
    t.Canonical := by
  rwa [e] at h

theorem State.Canonical.of_snd {α : Type} {p : α × State} {t : State} {a : α} (h : p.2.Canonical) (e : p = (a, t)) :
    t.Canonical := by
  rwa [e] at h

theorem State.Canonical.foldr {α : Type} {f : α → State → State} {l : List α} {s : State}
    (h : ∀ a t, t.Canonical → (f a t).Canonical) (hs : s.Canonical) : (l.foldr f s).Canonical := by
  induction l with
  | nil => exact hs
  | cons a l ih => exact h a _ ih

/-- What a computation that may fail answers, if it answers, has the property `P`. -/
def OkAll {ε α : Type} (P : α → Prop) (r : Except ε α) : Prop := ∀ a, r = .ok a → P a

theorem OkAll.error {ε α : Type} {P : α → Prop} {e : ε} : OkAll P (.error e) := fun _ h => nomatch h
theorem OkAll.ok {ε α : Type} {P : α → Prop} {a : α} (h : P a) :
    OkAll P (.ok a : Except ε α) := fun _ e => Except.ok.inj e ▸ h
theorem OkAll.ite {ε α : Type} {P : α → Prop} {c : Prop} [Decidable c] {r t : Except ε α} (hr : OkAll P r) (ht : OkAll P t) :
    OkAll P (if c then r else t) := by
  split
  · exact hr
  · exact ht

theorem OkAll.foldl {ε α β : Type} {P : α → Prop} {f : Except ε α → β → Except ε α} {l : List β} {r : Except ε α}
    (h : ∀ x b, OkAll P x → OkAll P (f x b)) (hr : OkAll P r) : OkAll P (l.foldl f r) := by
  induction l generalizing r with
  | nil => exact hr
  | cons b l ih => exact ih (h r b hr)

/-- What an optional answer holds has the property `P`. -/
def SomeAll {α : Type} (P : α → Prop) (r : Option α) : Prop := ∀ a, r = some a → P a

theorem SomeAll.none {α : Type} {P : α → Prop} : SomeAll P none := fun _ h => nomatch h
theorem SomeAll.some {α : Type} {P : α → Prop} {a : α} (h : P a) : SomeAll P (some a) := fun _ e => Option.some.inj e ▸ h
theorem SomeAll.ite {α : Type} {P : α → Prop} {c : Prop} [Decidable c] {r t : Option α} (hr : SomeAll P r)
    (ht : SomeAll P t) :
    SomeAll P (if c then r else t) := by
  split
  · exact hr
  · exact ht

/-- A step that leads to a state leads to one whose memory is canonical. -/
def Out.Canonical (o : Out) : Prop := ∀ t, o = .next t → t.Canonical

theorem Out.Canonical.next {t : State} (h : t.Canonical) : Out.Canonical (.next t) := fun _ e => Host.Outcome.next.inj e ▸ h
theorem Out.Canonical.fault {f : Fault} : Out.Canonical (.fault f) := fun _ h => nomatch h
theorem Out.Canonical.refused {f : Refusal} : Out.Canonical (.refused f) := fun _ h => nomatch h
theorem Out.Canonical.ite {c : Prop} [Decidable c] {r t : Out} (hr : Out.Canonical r) (ht : Out.Canonical t) :
    Out.Canonical (if c then r else t) := by
  split
  · exact hr
  · exact ht

/-- The state that an effect ends in, whether it completes or stops. -/
def stateOf {α : Type} : EStateM.Result Stop State α → State
  | .ok _ t => t
  | .error _ t => t

/-- An effect that keeps the memory canonical, whether it completes or stops. -/
def Eff.Keeps {α : Type} (m : Eff α) : Prop := ∀ s, s.Canonical → (stateOf (m s)).Canonical

namespace Eff.Keeps
variable {α β : Type}

theorem pure {a : α} : Eff.Keeps (pure a) := fun _ h => h
theorem throw {e : Stop} : Eff.Keeps (throw e : Eff α) := fun _ h => h
theorem get : Eff.Keeps (get : Eff State) := fun _ h => h
theorem set {t : State} (h : t.Canonical) : Eff.Keeps (set t : Eff PUnit) := fun _ _ => h
theorem modify {f : State → State} (h : ∀ s, s.Canonical → (f s).Canonical) : Eff.Keeps (modify f : Eff PUnit) := h
theorem modifyGet {f : State → α × State} (h : ∀ s, s.Canonical → (f s).2.Canonical) : Eff.Keeps (modifyGet f : Eff α) := h

theorem bind {m : Eff α} {k : α → Eff β} (hm : m.Keeps) (hk : ∀ a, (k a).Keeps) : Eff.Keeps (m >>= k) := by
  intro s h
  have h1 := hm s h
  show (stateOf (EStateM.bind m k s)).Canonical
  unfold EStateM.bind
  cases e : m s with
  | ok a t => rw [e] at h1; exact hk a t h1
  | error x t => rw [e] at h1; exact h1

/-- The state that an effect reads is canonical. -/
theorem get_bind {k : State → Eff β} (hk : ∀ s, s.Canonical → (k s).Keeps) :
    Eff.Keeps (MonadState.get >>= k) := fun s h => hk s h s h

theorem throw_bind {e : Stop} {k : α → Eff β} : Eff.Keeps (MonadExcept.throw e >>= k) := fun _ h => h

theorem ite {c : Prop} [Decidable c] {m n : Eff α} (hm : m.Keeps) (hn : n.Keeps) : Eff.Keeps (if c then m else n) := by
  split
  · exact hm
  · exact hn

/-- A check before the rest of an effect. -/
theorem guard {c : Prop} [Decidable c] {e : Stop} {k : β → Eff α} {n : Eff α} (hn : n.Keeps) :
    Eff.Keeps (if c then MonadExcept.throw e >>= k else n) := .ite .throw_bind hn

/-- A conditional piece before the rest of an effect. -/
theorem when {c : Prop} [Decidable c] {m : Eff Unit} {k : Unit → Eff α} (hm : m.Keeps) (hk : ∀ u, (k u).Keeps) :
    Eff.Keeps (if c then m >>= k else k ()) := .ite (hm.bind hk) (hk ())

theorem forM {f : α → Eff PUnit} (h : ∀ a, (f a).Keeps) : ∀ l : List α, Eff.Keeps (l.forM f)
  | [] => pure
  | a :: l => bind (h a) fun _ => forM h l

theorem mapM {f : α → Eff β} (h : ∀ a, (f a).Keeps) (l : List α) : Eff.Keeps (l.mapM f) := by
  induction l with
  | nil => exact pure
  | cons a l ih =>
    rw [List.mapM_cons]
    exact bind (h a) fun _ => bind ih fun _ => pure

/-- The state behind an effect that completes. -/
theorem ok {m : Eff α} {s t : State} {a : α} (hm : m.Keeps) (h : s.Canonical) (e : m s = .ok a t) : t.Canonical := by
  have := hm s h
  rwa [e] at this

/-- The state in which an effect stops. -/
theorem error {m : Eff α} {s t : State} {x : Stop} (hm : m.Keeps) (h : s.Canonical) (e : m s = .error x t) : t.Canonical := by
  have := hm s h
  rwa [e] at this

end Eff.Keeps

/-! ### The functions of Machine/Ops -/

theorem modMe_keeps {f} : Eff.Keeps (modMe f) := .modify fun _ h => h

theorem takeFree_keeps : Eff.Keeps takeFree := .modifyGet fun _ h => h

theorem discardChunk_canonical {s : State} {q} (h : s.Canonical) : (discardChunk s q).Canonical := by
  unfold discardChunk
  split
  · exact h
  · exact .foldl (fun _ _ ht => ht) h

theorem sendSignature_canonical {s : State} {lines} (h : s.Canonical) : (sendSignature s lines).Canonical :=
  .ite h (.foldl (fun _ _ ht => discardChunk_canonical ht) h)

theorem performBytes_canonical {s : State} {cells} (h : s.Canonical) : (performBytes s cells).Canonical :=
  sendSignature_canonical (Memory.wf_cells cells h)

theorem performAt_canonical {s : State} {a bs} (h : s.Canonical) : (performAt s a bs).Canonical := performBytes_canonical h

theorem addParts_canonical {s : State} {q} (h : s.Canonical) : (addParts s q).Canonical :=
  .ite h (.foldl (fun _ _ ht => ht) h)

theorem commitChunk_canonical {s : State} {q} (h : s.Canonical) : (commitChunk s q).Canonical := by
  unfold commitChunk
  split
  · exact h
  · exact .foldl (fun _ _ ht => ht) (.foldl (fun _ _ ht => ht) (performBytes_canonical h))

theorem openChunk_canonical {s : State} {q} (h : s.Canonical) : (openChunk s q).Canonical := .ite h h

theorem noteRead_canonical {s : State} {q a n} (h : s.Canonical) : (noteRead s q a n).Canonical := by
  unfold noteRead
  split <;> exact h

theorem holdStore_canonical {s : State} {q a bs} (h : s.Canonical) : (holdStore s q a bs).Canonical := by
  unfold holdStore
  dsimp only
  split
  · exact performAt_canonical h
  · exact h

theorem endChunk_canonical {s : State} {u} (h : s.Canonical) : (endChunk s u).Canonical := commitChunk_canonical h

theorem leaveChunk_keeps : Eff.Keeps leaveChunk := .modify fun _ h => endChunk_canonical h

theorem applyWrite_canonical {s : State} {q w} (h : s.Canonical) : (applyWrite s q w).Canonical := by
  unfold applyWrite
  split
  · exact h
  · exact h
  · exact h
  · exact h
  · exact h
  · exact h
  · exact h
  · exact h
  · exact h
  · exact .foldl (fun _ _ ht => ht) h
  · exact h

theorem landFlight_canonical {s : State} {q t} (h : s.Canonical) : (landFlight s q t).Canonical :=
  .ite h (.foldl (fun _ _ ht => applyWrite_canonical ht) h)

theorem flushFlight_canonical {s : State} {q} (h : s.Canonical) : (flushFlight s q).Canonical :=
  .ite h (.foldl (fun _ _ ht => applyWrite_canonical ht) h)

theorem noteDue_canonical {s : State} {q lat w} (h : s.Canonical) : (noteDue s q lat w).Canonical := by
  unfold noteDue
  split
  · exact h
  · exact .ite h h

theorem result_keeps {lat w} : Eff.Keeps (result lat w) :=
  .modify fun _ h => .ite h (applyWrite_canonical (noteDue_canonical h))

theorem leafFor_canonical {s : State} {q vf va} (h : s.Canonical) : OkAll (·.1.Canonical) (leafFor s q vf va) := by
  unfold leafFor
  dsimp only
  split
  · exact .ok h
  · split
    · exact .ok (.ite h h)
    · split
      · exact .error
      · exact .ok (.ite h h)

theorem translate_canonical {s : State} {q vf va perm} (h : s.Canonical) :
    OkAll (·.1.Canonical) (translate s q vf va perm) := by
  unfold translate
  split
  · exact .error
  · rename_i hr
    have ht := leafFor_canonical h _ hr
    exact .ite .error (.ite (.ok ht) (.ite (.ite .error (.ok ht)) (.ite (.ite (.ok ht) .error) (.ite (.ok ht) .error))))

theorem readCode_canonical {s : State} {q la} (h : s.Canonical) : OkAll (·.1.Canonical) (readCode s q la) := by
  unfold readCode
  refine .ite ?_ .error
  split
  · exact .error
  · rename_i hr
    exact .ite .error (.ok (translate_canonical h _ hr))
  · rename_i hr
    exact .ok (translate_canonical h _ hr)
  · exact .error

theorem keepLine_canonical {s : State} {q la l} (h : s.Canonical) : (keepLine s q la l).Canonical := .ite h h

theorem fetchLine_canonical {s : State} {q la} (h : s.Canonical) : OkAll (·.1.Canonical) (fetchLine s q la) := by
  unfold fetchLine
  split
  · exact .ite (.ok (keepLine_canonical h)) .error
  · refine .ite .error ?_
    refine .ite .error ?_
    split
    · exact .error
    · rename_i hr
      have ht := readCode_canonical h _ hr
      exact .ite (.ok ht) .error

theorem checkTarget_canonical {s : State} {q t} (h : s.Canonical) : OkAll State.Canonical (checkTarget s q t) := by
  unfold checkTarget
  refine .ite .error ?_
  split
  · exact .ite (.ok h) .error
  · rename_i hr
    exact .ite (.ok (fetchLine_canonical h _ hr)) .error

theorem queueDump_canonical {s : State} {d} (h : s.Canonical) : (queueDump s d).Canonical := by
  unfold queueDump
  split
  · exact .ite h h
  · exact h

theorem fatalStop_canonical {s : State} {q code pc val} (h : s.Canonical) : (fatalStop s q code pc val).Canonical :=
  .ite h (queueDump_canonical h)

theorem takeTrap_canonical {s : State} {q code pcAt val async} (h : s.Canonical) :
    (takeTrap s q code pcAt val async).Canonical := by
  have h0 := addParts_canonical (q := q) (flushFlight_canonical (q := q) h)
  unfold takeTrap
  refine .ite (fatalStop_canonical h0) ?_
  dsimp only
  split
  · exact .ite h0 (fatalStop_canonical (s := State.modProc _ _ _) h0)
  · rename_i hr
    exact (checkTarget_canonical (s := State.modProc _ _ _) h0 _ hr :)

theorem takeTrapGang_canonical {s : State} {ms faults pcAt async} (h : s.Canonical) :
    (takeTrapGang s ms faults pcAt async).Canonical := by
  have h0 (ms : List Nat) (l : Nat) : (addParts (ms.foldl flushFlight s) l).Canonical :=
    addParts_canonical (.foldl (fun _ _ ht => flushFlight_canonical ht) h)
  unfold takeTrapGang
  split
  · exact h
  · exact h
  · refine .ite (fatalStop_canonical (h0 _ _)) ?_
    dsimp only
    split
    · exact fatalStop_canonical (h0 _ _)
    · rename_i hr
      refine .foldl (fun _ _ ht => ht) ?_
      split at hr
      · split at hr
        · cases hr; exact .foldl (fun _ _ ht => ht) (h0 _ _)
        · cases hr
      · rename_i hc
        cases hr
        exact (checkTarget_canonical (.foldl (f := fun t m => t.modProc m _) (fun _ _ ht => ht) (h0 _ _)) _ hc :)

theorem beginHead_canonical {s : State} {i} (h : s.Canonical) : (beginHead s i).Canonical := by
  unfold beginHead
  refine .ite (endChunk_canonical (.foldl (fun _ _ ht => landFlight_canonical ht) h)) (openChunk_canonical ?_)
  exact .ite (commitChunk_canonical (.foldl (fun _ _ ht => landFlight_canonical ht) h)) (.foldl (fun _ _ ht =>
    landFlight_canonical ht) h)

theorem endHead_canonical {s : State} {i nx} (h : s.Canonical) : (endHead s i nx).Canonical := by
  unfold endHead
  refine .ite h (.mk ?_)
  refine .ite (commitChunk_canonical (.ite (.foldl (fun _ _ ht => ht) h) (.foldl (fun _ _ ht => ht) h))) ?_
  exact .ite (.foldl (fun _ _ ht => ht) h) (.foldl (fun _ _ ht => ht) h)

theorem trapHead_canonical {s : State} {faults epc} (h : s.Canonical) : (trapHead s faults epc).Canonical := by
  unfold trapHead
  refine .mk ?_
  split
  · exact takeTrap_canonical (endChunk_canonical h)
  · exact takeTrapGang_canonical (endChunk_canonical h)

theorem keepSlots_canonical {s t : State} {g} (ht : t.Canonical) : (keepSlots s t g).Canonical :=
  .foldl (fun _ _ ht => ht) ht

theorem undoLocal_canonical {s t : State} {m} (ht : t.Canonical) : (undoLocal s t m).Canonical :=
  .ite ht (keepSlots_canonical ht)

theorem keepWait_canonical {keep : State} {body m} (hbody : body.Keeps) (h : keep.Canonical) :
    (keepWait body keep m).Canonical := by
  have hb (e t) (he : body { keep with cur := m } = .error e t) : t.Canonical := hbody.error (s := { keep with cur := m }) h he
  unfold keepWait
  split
  · rename_i he; exact (hb _ _ he :)
  · rename_i he; exact (hb _ _ he :)
  · rename_i he; exact (hb _ _ he :)
  · rename_i he; exact .mk (undoLocal_canonical (hb _ _ he))
  · rename_i he; exact undoLocal_canonical (hb _ _ he)
  · exact h

theorem runMembersFrom_canonical {body nx pend} (hbody : body.Keeps) :
    ∀ {keep acc : State} {ms}, keep.Canonical → acc.Canonical →
    (stateOf (runMembersFrom body nx pend keep ms acc)).Canonical := by
  intro keep acc ms
  induction ms generalizing keep acc nx pend with
  | nil => 
    intro hk ha
    cases pend with
    | none => exact ha
    | some w => exact hk
  | cons m ms ih =>
    intro hk ha
    rw [runMembersFrom]
    split
    · rename_i he
      exact ih hk (hbody.ok (s := { acc with cur := m }) ha he)
    · exact ih (keepWait_canonical hbody hk) ha
    · exact ih hk ha
    · rename_i he
      exact (hbody.error (s := { acc with cur := m }) ha he :)

theorem runMembers_keeps {ms body} (hbody : body.Keeps) : Eff.Keeps (runMembers ms body) :=
  fun _ h => runMembersFrom_canonical hbody h h

theorem haltHead_canonical {s : State} {why} (h : s.Canonical) : (haltHead s why).Canonical := commitChunk_canonical h

theorem trapMembers_canonical {s clean : State} {ms body m c v} (hclean : clean.Canonical) :
    (trapMembers ms body s clean m c v).Canonical := by
  unfold trapMembers
  split <;> exact trapHead_canonical hclean

theorem unpin_canonical {s : State} {ms} (h : s.Canonical) : (unpin s ms).Canonical := .foldl (fun _ _ ht => ht) h

theorem clearLost_canonical {s : State} {ms} (h : s.Canonical) : (clearLost s ms).Canonical := .foldl (fun _ _ ht => ht) h

theorem settle_canonical {s : State} {i ms body r} (h : s.Canonical) (hr : (stateOf r).Canonical) :
    (settle i ms body s r).Canonical := by
  unfold settle
  split
  · exact endHead_canonical (.mk hr)
  · exact h
  · exact .mk (.foldl (fun _ _ ht => ht) hr)
  · exact trapHead_canonical h
  · exact haltHead_canonical h
  · exact trapMembers_canonical (unpin_canonical h)
  · exact trapMembers_canonical (clearLost_canonical h)
  · exact trapMembers_canonical h

theorem frame_canonical {s0 : State} {i each body} (hb : body.Keeps) (h : s0.Canonical) :
    (frame i each body s0).Canonical := by
  have hrun (ms : List Nat) {b : State} (h : b.Canonical) : (stateOf (runMembers ms body b)).Canonical := runMembers_keeps hb b h
  have hbegin : (beginHead { s0 with cur := leader s0 s0.cur } i).Canonical := beginHead_canonical h
  unfold frame
  refine .ite h ?_
  dsimp only
  split
  · exact trapHead_canonical h
  · refine .ite (trapHead_canonical h) ?_
    split
    · exact haltHead_canonical h
    · exact trapHead_canonical h
    · exact h
    · split
      · refine .ite ?_ (settle_canonical hbegin (hrun _ hbegin))
        have ho := openChunk_canonical (q := (leader s0 s0.cur)) (commitChunk_canonical (q := (leader s0 s0.cur)) hbegin)
        exact settle_canonical ho (hrun _ ho)
      · exact settle_canonical hbegin (hrun _ hbegin)

theorem runHead_canonical {s : State} {i body} (hbody : body.Keeps) (h : s.Canonical) : Out.Canonical (runHead i body s) :=
  .next (frame_canonical hbody h)

theorem runOnce_canonical {s : State} {i body} (hbody : body.Keeps) (h : s.Canonical) : Out.Canonical (runOnce i body s) :=
  .next (frame_canonical hbody h)

theorem gr_keeps {f} : Eff.Keeps (gr f) := .get_bind fun _ _ => .pure

/-! ### The functions of Machine/Flags -/

theorem raiseFlags_keeps {lat fl} : Eff.Keeps (raiseFlags lat fl) := .ite .pure result_keeps

theorem advanceCtr_keeps {drew} : Eff.Keeps (advanceCtr drew) := .ite modMe_keeps .pure

/-! ### The functions of Machine/CoreSection -/

theorem setCoreWord_canonical {s : State} {g i w} (h : s.Canonical) : (setCoreWord s g i w).Canonical := by
  unfold setCoreWord
  exact .ite (Memory.wf_writeList _ _ h) (.ite h h)

theorem debugView_canonical {s : State} {gc} (h : s.Canonical) : (debugView s gc).Canonical :=
  .foldr (fun _ _ ht => setCoreWord_canonical ht) h

/-! ### The functions of Machine/DevRegs -/

theorem setNear_canonical {s : State} {gs near} (h : s.Canonical) : (setNear s gs near).Canonical := Memory.wf_filter h _

theorem writeNear_canonical {s : State} {gs near} (h : s.Canonical) : (writeNear s gs near).Canonical := .ite h (.ite h h)

theorem setPthrs_canonical {s : State} {gc v} (h : s.Canonical) : (setPthrs s gc v).Canonical := .ite h h

theorem regWrite_canonical {s : State} {off v w} (h : s.Canonical) : (regWrite s off v w).Canonical := by
  unfold regWrite
  refine .ite h (.ite ?_ (.ite ?_ (.ite ?_ (.ite ?_ (.ite ?_ (.ite ?_ (.ite ?_ (.ite ?_ (.ite h h)))))))))
  · split
    · exact .ite h h
    · exact .ite h h
    · exact .ite h (.ite h h)
    · exact h
    · exact h
    · exact .ite h h
    · exact h
  · generalize (off - 0x1000000) / 0x10000 = n, (off - 0x1000000) % 0x10000 / 8 = k
    match k with
    | 0 => exact .ite h (.ite h h)
    | 1 | 2 | 3 | 12 => exact .ite h h
    | 4 => exact .ite (.ite h (.ite h h)) (.ite h (.ite h h))
    | 9 => exact .ite (.ite h h) (.ite h h)
    | 5 | 6 | 7 | 8 | 10 | 11 | _ + 13 => exact h
  · generalize (off - 0x2000000) / 0x1000 = gs, (off - 0x2000000) % 0x1000 / 8 = k
    match k with
    | 0 => exact writeNear_canonical (.mk h)
    | 1 | 2 | _ + 3 => exact h
  · generalize (off - 0x3000000) / 0x1000 = a, (off - 0x3000000) % 0x1000 / 8 = k
    match k with
    | 0 | 1 | _ + 2 => exact h
  · generalize (off - 0x3100000) / 0x1000 = p, (off - 0x3100000) % 0x1000 / 8 = k
    match k with
    | 0 | 1 => exact .ite h h
    | 2 | 3 | _ + 4 => exact h
  · generalize (off - 0x3200000) / 0x20000 = n, (off - 0x3200000) % 0x20000 / 8 = k
    match k with
    | 0 | 1 => exact h
    | _ + 2 => exact .ite h h
  · generalize (off - 0x3400000) / 8 = k
    match k with
    | 0 | 1 | 3 => exact h
    | 2 => exact .ite h h
    | _ + 4 => exact .ite h (.ite h (.ite h h))
  · generalize (off - 0x10000000) / 0x1000 = gc, (off - 0x10000000) % 0x1000 / 8 = k
    match k with
    | 0 => exact .ite (.ite h h) (.ite h h)
    | 1 => exact .ite h h
    | 3 => exact setPthrs_canonical h
    | 2 | 4 | 5 | 6 | 7 | 8 | 9 | 10 | _ + 11 => exact h

theorem devWrite_canonical {s : State} {off data} (h : s.Canonical) : (devWrite s off data).Canonical := regWrite_canonical h

/-! ### The functions of Machine/Remote -/

theorem logArrival_canonical {s : State} {g q node what push size} (h : s.Canonical) :
    (logArrival s g q node what push size).Canonical :=
  .ite h h

theorem traceArrival_canonical {s : State} {g q node what push size} (h : s.Canonical) :
    (traceArrival s g q node what push size).Canonical :=
  .ite h (logArrival_canonical h)

theorem flushRun_canonical {s : State} {gs} (h : s.Canonical) : (flushRun s gs).Canonical := by
  unfold flushRun
  dsimp only
  split
  · exact h
  · exact .ite h (.mk (performAt_canonical h))

theorem logAtomic_canonical {s : State} {gs q node} (h : s.Canonical) : (logAtomic s gs q node).Canonical := by
  unfold logAtomic
  refine .ite h (.ite ?_ ?_)
  · refine flushRun_canonical (.mk ?_)
    split
    · exact .ite h (flushRun_canonical h)
    · exact h
  · refine .mk ?_
    split
    · exact .ite h (flushRun_canonical h)
    · exact h

theorem atomicAt_canonical {s : State} {q node pa op n u y new} (h : s.Canonical) :
    (atomicAt s q node pa op n u y new).2.Canonical :=
  logAtomic_canonical (performAt_canonical h)

theorem serveMem_canonical {s : State} {src pa k} (h : s.Canonical) : (serveMem s src pa k).2.Canonical := by
  unfold serveMem
  dsimp only
  split
  · exact h
  · split
    · exact h
    · exact performAt_canonical h
    · exact logAtomic_canonical (performAt_canonical h)
    · exact h

theorem remoteAccess_keeps {who node pa va kind own} (hown : ∀ x0, State.Canonical x0 → (own x0).2.Canonical) :
    Eff.Keeps (remoteAccess who node pa va kind own) := by
  unfold remoteAccess
  refine .get_bind fun u hu => .bind (.modify fun _ h => h) fun _ => ?_
  dsimp only
  split
  · exact .pure
  · refine .ite (.ite .throw .throw) ?_
    split
    · exact .ite .throw .throw
    · split
      · rename_i hr
        have ht := (hown u hu).of_snd hr
        exact .bind (.set ht) fun _ => .pure
      · exact .throw
      · exact .bind (.modify fun _ h => h) fun _ => .pure
      · exact .throw
    · refine .bind (.modify fun _ h => h) fun _ => ?_
      split
      · exact .bind (.modify fun _ h => h) fun _ => .pure
      · exact .throw

theorem ownStores_canonical {s t : State} {q key} (ht : t.Canonical) : (ownStores s t q key).Canonical := .ite ht ht

theorem dropStores_canonical {s : State} {q key} (h : s.Canonical) : (dropStores s q key).Canonical := .ite h h

theorem drainRemote_keeps : Eff.Keeps drainRemote := by
  unfold drainRemote
  refine .get_bind fun _ _ => .guard ?_
  split
  · exact .pure
  · exact .throw

/-! ### The functions of Machine/Access -/

theorem checkAccess_canonical {s : State} {q vf win va n al perm timed} (h : s.Canonical) :
    OkAll (·.1.Canonical) (checkAccess s q vf win va n al perm timed) := by
  unfold checkAccess
  split
  · exact .error
  · refine .ite .error ?_
    split
    · refine .ite .error ?_
      split
      · exact .error
      · rename_i hr
        exact .ite .error (.ok (translate_canonical h _ hr))
    · exact .ite .error (.ite .error (.ok h))
    · refine .ite .error ?_
      split
      · exact .error
      · exact .ite .error (.ok h)

theorem check_keeps {va n al perm} : Eff.Keeps (check va n al perm) := by
  unfold check
  refine .get_bind fun _ hu => .ite ?_ ?_
  · split
    · exact .throw_bind
    · split
      · exact .throw
      · rename_i hr
        exact .bind (.set (checkAccess_canonical hu _ hr)) fun _ => .pure
  · split
    · exact .throw
    · rename_i hr
      exact .bind (.set (checkAccess_canonical hu _ hr)) fun _ => .pure

theorem readLoc_keeps {va l n who} : Eff.Keeps (readLoc va l n who) := by
  unfold readLoc
  split
  · exact .get_bind fun _ _ => .pure
  · exact .get_bind fun _ _ => .pure
  · exact .bind (.modify fun _ h => noteRead_canonical h) fun _ => .get_bind fun _ _ => .pure
  · exact .bind leaveChunk_keeps fun _ => .get_bind fun _ _ => .pure
  · exact .bind leaveChunk_keeps fun _ => .get_bind fun _ _ => .pure
  · exact .bind leaveChunk_keeps fun _ => remoteAccess_keeps (fun _ h1s => serveMem_canonical h1s)

theorem addCounts_keeps {cs} : Eff.Keeps (addCounts cs) := .modify fun _ h => .foldl (fun _ _ ht => ht) h

theorem hostStore_canonical {s : State} {pa wc bs} (h : s.Canonical) : (hostStore s pa wc bs).Canonical :=
  .ite (performBytes_canonical h) (performBytes_canonical h)

theorem landBlock_canonical {s : State} {x} (h : s.Canonical) : (landBlock s x).Canonical := .foldl (fun _ _ ht => ht) h

theorem landCombined_canonical {s : State} {gs i} (h : s.Canonical) : (landCombined s gs i).Canonical := by
  unfold landCombined
  split
  · exact h
  · exact landBlock_canonical h

theorem sendCombined_canonical {s : State} (h : s.Canonical) : (sendCombined s).Canonical :=
  .foldl (fun _ _ ht => .foldl (fun _ _ ht => landBlock_canonical ht) ht) h

theorem writeLoc_keeps {va l n v lane who} : Eff.Keeps (writeLoc va l n v lane who) := by
  unfold writeLoc
  refine .get_bind fun _ _ => ?_
  split
  · refine .ite (.modify fun _ h => holdStore_canonical h) ?_
    exact .bind leaveChunk_keeps fun _ => .modify fun _ h => traceArrival_canonical (performAt_canonical h)
  · exact .bind leaveChunk_keeps fun _ => .modify fun _ h => performAt_canonical h
  · exact .modify fun _ h => holdStore_canonical h
  · exact .bind leaveChunk_keeps fun _ => .modify fun _ h => hostStore_canonical h
  · exact .guard (.bind leaveChunk_keeps fun _ => .modify fun _ h => devWrite_canonical h)
  · exact .bind leaveChunk_keeps fun _ => .bind (remoteAccess_keeps (fun _ h2s => serveMem_canonical h2s)) fun _ => .pure

theorem delayFlight_canonical {s : State} {gs now d0 d1} (h : s.Canonical) : (delayFlight s gs now d0 d1).Canonical :=
  .foldl (fun _ _ ht => ht) h

theorem bankAccess_keeps {ls} : Eff.Keeps (bankAccess ls) := by
  unfold bankAccess
  refine .get_bind fun _ hu => ?_
  exact .ite .pure (.bind (.set (.foldl (fun _ _ ht => delayFlight_canonical ht) (.foldl (fun _ _ ht => ht) hu))) fun _ =>
    .pure)

theorem load_keeps {va n} : Eff.Keeps (load va n) := .bind check_keeps fun _ => .get_bind fun _ _ => readLoc_keeps

theorem store_keeps {va n v} : Eff.Keeps (store va n v) := by
  unfold store
  refine .bind check_keeps fun _ => .get_bind fun _ _ => ?_
  exact .bind writeLoc_keeps fun _ => .bind addCounts_keeps fun _ => .bind bankAccess_keeps fun _ => advanceCtr_keeps

theorem noteStall_canonical {s : State} {q c} (h : s.Canonical) : (noteStall s q c).Canonical := .ite h h

theorem forgetStalls_canonical {s : State} {q c} (h : s.Canonical) : (forgetStalls s q c).Canonical := .ite h h

theorem engRead_canonical {s : State} {q vf win va n al} (h : s.Canonical) :
    OkAll (·.1.Canonical) (engRead s q vf win va n al) := by
  unfold engRead
  split
  · exact .error
  · rename_i s' l hr
    have ht : s'.Canonical := checkAccess_canonical h _ hr
    split
    · exact .ok ht
    · exact .ok ht
    · exact .ok ht
    · exact .ok ht
    · exact .ok ht
    · split
      · exact .error
      · split
        · rename_i hm
          exact .ok (.mk ((serveMem_canonical ht).of_snd hm))
        · exact .error
      · exact .ite .error (.ok (.mk (.mk (.mk ht))))

theorem engWriteAs_canonical {s : State} {q who vf win c va n al v lane} (h : s.Canonical) :
    OkAll State.Canonical (engWriteAs s q who vf win c va n al v lane) := by
  unfold engWriteAs
  split
  · exact .error
  · split
    · rename_i hr
      exact .ok (logArrival_canonical (performAt_canonical (checkAccess_canonical h _ hr)))
    · rename_i hr
      exact .ok (performAt_canonical (checkAccess_canonical h _ hr))
    · rename_i hr
      exact .ok (performAt_canonical (checkAccess_canonical h _ hr))
    · rename_i hr
      exact .ok (hostStore_canonical (checkAccess_canonical h _ hr))
    · rename_i hr
      exact .ite .error (.ok (devWrite_canonical (checkAccess_canonical h _ hr)))
    · rename_i hr
      have ht1 := checkAccess_canonical h _ hr
      split
      · exact .error
      · exact .ok (serveMem_canonical ht1)
      · exact .ok ht1

theorem engWrite_canonical {s : State} {q vf win c va n al v lane} (h : s.Canonical) :
    OkAll State.Canonical (engWrite s q vf win c va n al v lane) :=
  engWriteAs_canonical h

theorem leaveAt_canonical {s : State} {win l n x} (h : s.Canonical) : (leaveAt s win l n x).Canonical := by
  unfold leaveAt
  split
  · exact performAt_canonical h
  · exact performAt_canonical h
  · exact performAt_canonical h
  · exact hostStore_canonical h
  · exact h
  · exact .ite (performAt_canonical h) h

theorem leaveBytes_canonical {s : State} {q vf win va n} (h : s.Canonical) : (leaveBytes s q vf win va n).Canonical := by
  unfold leaveBytes
  split
  · exact h
  · rename_i hr
    exact leaveAt_canonical (checkAccess_canonical h _ hr)

theorem engReadBytes_canonical {s : State} {q vf win va n} (h : s.Canonical) :
    OkAll (·.1.Canonical) (engReadBytes s q vf win va n) := by
  induction n generalizing s va with
  | zero => exact .ok h
  | succ n ih =>
    unfold engReadBytes
    split
    · exact .error
    · rename_i hr
      split
      · exact .error
      · rename_i hr'
        exact .ok (ih (engRead_canonical h _ hr) _ hr' :)

theorem engWriteBytes_canonical {s : State} {q vf win va bs} (h : s.Canonical) :
    OkAll State.Canonical (engWriteBytes s q vf win va bs) := by
  induction bs generalizing s va with
  | nil => exact .ok h
  | cons b bs ih =>
    unfold engWriteBytes
    split
    · exact .error
    · rename_i hr
      exact ih (engWrite_canonical h _ hr)

theorem engReadUnits_canonical {s : State} {q vf win va w n} (h : s.Canonical) :
    OkAll (·.1.Canonical) (engReadUnits s q vf win va w n) := by
  induction n generalizing s va with
  | zero => exact .ok h
  | succ n ih =>
    unfold engReadUnits
    split
    · exact .error
    · rename_i hr
      split
      · exact .error
      · rename_i hr'
        exact .ok (ih (engRead_canonical h _ hr) _ hr' :)

theorem engReadElems_canonical {s : State} {q vf win va w n} (h : s.Canonical) :
    OkAll (·.1.Canonical) (engReadElems s q vf win va w n) :=
  engReadUnits_canonical h

theorem engWriteUnits_canonical {s : State} {q who vf win c va w lane vs} (h : s.Canonical) :
    OkAll State.Canonical (engWriteUnits s q who vf win c va w lane vs) := by
  induction vs generalizing s va lane with
  | nil => exact .ok h
  | cons v vs ih =>
    unfold engWriteUnits
    split
    · exact .error
    · rename_i hr
      exact ih (engWriteAs_canonical h _ hr)

theorem engWriteElems_canonical {s : State} {q who vf win va w xs} (h : s.Canonical) :
    OkAll State.Canonical (engWriteElems s q who vf win va w xs) :=
  .ite (engWriteUnits_canonical h) (engWriteUnits_canonical h)

/-! ### The functions of Machine/Offer -/

theorem offer_keeps {ea} : Eff.Keeps (offer ea) := by
  unfold offer
  refine .bind check_keeps fun _ => .bind (.modify fun _ h => h) fun _ => .get_bind fun _ _ => .ite .pure ?_
  split
  · exact .when (.modify fun _ h => h) fun _ => .pure
  · exact .bind readLoc_keeps fun _ => .guard (.bind leaveChunk_keeps fun _ => .bind (.modify fun _ h => h) fun _ => .pure)

/-! ### The functions of Machine/Operands -/

theorem emptyPort_keeps {port} : Eff.Keeps (emptyPort port) := .get_bind fun _ _ => .ite .throw .throw

theorem fullPort_keeps {port} : Eff.Keeps (fullPort port) := .get_bind fun _ _ => .ite .throw .throw

theorem popMesh_keeps {d} : Eff.Keeps (popMesh d) := by
  unfold popMesh
  refine .get_bind fun _ _ => ?_
  dsimp only
  split
  · exact .throw
  · refine .ite .throw ?_
    split
    · exact emptyPort_keeps
    · exact .bind (.modify fun _ h => h) fun _ => .pure

theorem pushMesh_keeps {d x} : Eff.Keeps (pushMesh d x) := by
  unfold pushMesh
  refine .get_bind fun _ _ => ?_
  dsimp only
  split
  · exact .throw
  · exact .ite .throw (.ite (.modify fun _ h => h) fullPort_keeps)

theorem popQc_keeps : Eff.Keeps popQc := by
  unfold popQc
  refine .get_bind fun _ _ => ?_
  dsimp only
  split
  · exact emptyPort_keeps
  · exact .bind (.modify fun _ h => h) fun _ => .pure

theorem pushQc_keeps {once x} : Eff.Keeps (pushQc once x) := by
  unfold pushQc
  refine .get_bind fun _ _ => .ite ?_ fullPort_keeps
  exact .bind (.modify fun _ h => .foldl (fun _ _ ht => ht) h) fun _ => .when modMe_keeps fun _ => .ite .throw .pure

theorem popJet_keeps : Eff.Keeps popJet := by
  unfold popJet
  refine .get_bind fun _ _ => ?_
  dsimp only
  split
  · exact emptyPort_keeps
  · exact .bind (.modify fun _ h => h) fun _ => .bind modMe_keeps fun _ => .pure

theorem popProw_keeps : Eff.Keeps popProw := by
  unfold popProw
  refine .get_bind fun _ _ => ?_
  split
  · exact .ite .throw (.bind modMe_keeps fun _ => .pure)
  · exact .throw

theorem popXq_keeps : Eff.Keeps popXq := by
  unfold popXq
  refine .get_bind fun _ _ => ?_
  dsimp only
  split
  · exact emptyPort_keeps
  · exact .bind (.modify fun _ h => h) fun _ => .pure

theorem pushXq_keeps {x} : Eff.Keeps (pushXq x) := by
  unfold pushXq
  refine .get_bind fun _ _ => .bind offer_keeps fun _ => .get_bind fun _ _ => ?_
  split
  · exact .pure
  · exact .ite .throw .throw
  · exact .ite .throw .throw

theorem popQx_keeps {n} : Eff.Keeps (popQx n) := by
  unfold popQx
  refine .get_bind fun _ _ => ?_
  dsimp only
  split
  · exact emptyPort_keeps
  · exact .bind (.modify fun _ h => h) fun _ => .pure

theorem arriveQx_canonical {s : State} {g n q node x} (h : s.Canonical) : (arriveQx s g n q node x).Canonical :=
  traceArrival_canonical h

theorem serveQx_canonical {s : State} {node g n xid x} (h : s.Canonical) :
    SomeAll (·.2.Canonical) (serveQx s node g n xid x) :=
  .ite (.some h) (.ite .none (.some (arriveQx_canonical h)))

theorem pushQx_keeps {once n x} : Eff.Keeps (pushQx once n x) := by
  unfold pushQx
  refine .get_bind fun u _ => .ite .throw (.ite .throw (.ite (.bind (remoteAccess_keeps fun s h => ?_) fun _ =>
    .ite .pure .throw) ?_))
  · split
    · exact h
    · split
      · exact h
      · rename_i hr
        exact serveQx_canonical h _ hr
  · split
    · exact .throw
    · exact .ite .throw (.ite .throw (.modify fun _ h => arriveQx_canonical h))

theorem popPort_keeps {f} : Eff.Keeps (popPort f) := by
  unfold popPort
  split
  · exact popMesh_keeps
  · exact popMesh_keeps
  · exact popMesh_keeps
  · exact popMesh_keeps
  · exact popQc_keeps
  · exact popJet_keeps
  · exact popProw_keeps
  · exact popXq_keeps
  · exact popQx_keeps

theorem pushPort_keeps {once f x} : Eff.Keeps (pushPort once f x) := by
  unfold pushPort
  split
  · exact pushMesh_keeps
  · exact pushMesh_keeps
  · exact pushMesh_keeps
  · exact pushMesh_keeps
  · exact pushQc_keeps
  · exact .get_bind fun _ _ => .throw
  · exact .get_bind fun _ _ => .throw
  · exact pushXq_keeps
  · exact pushQx_keeps

theorem src_keeps {f} : Eff.Keeps (src f) := .ite gr_keeps popPort_keeps

theorem dst_keeps {lat f x} : Eff.Keeps (dst lat f x) := .ite .pure (.ite result_keeps pushPort_keeps)

theorem dstAll_keeps {lat f x} : Eff.Keeps (dstAll lat f x) := by
  unfold dstAll
  refine .get_bind fun _ _ => .bind (.forM (fun _ => ?_) _) fun _ => .modify fun _ h => h
  exact .bind (.modify fun _ h => h) fun _ => .ite dst_keeps pushPort_keeps

theorem writeVec_keeps {lat n mask x} : Eff.Keeps (writeVec lat n mask x) := by
  unfold writeVec
  refine .get_bind fun _ _ => .bind (.forM (fun _ => ?_) _) fun _ => .modify fun _ h => h
  exact .bind (.modify fun _ h => h) fun _ => result_keeps

theorem writePred_keeps {lat n mask x} : Eff.Keeps (writePred lat n mask x) := by
  unfold writePred
  refine .get_bind fun _ _ => .bind (.forM (fun _ => ?_) _) fun _ => .modify fun _ h => h
  exact .bind (.modify fun _ h => h) fun _ => result_keeps

/-! ### The functions of Machine/Landing -/

theorem execLandInit_canonical {s : State} {a b c r} (h : s.Canonical) : Out.Canonical (execLandInit a b c r s) := by
  unfold execLandInit
  refine runOnce_canonical ?_ h
  exact .bind src_keeps fun _ => .bind src_keeps fun _ => .get_bind fun _ _ => .guard (.guard (.bind (.modify fun _ h =>
    h) fun _ => .bind dstAll_keeps fun _ => .pure))

theorem execLandAcq_canonical {s : State} {a b r chk nw} (h : s.Canonical) : Out.Canonical (execLandAcq a b r chk nw s) := by
  unfold execLandAcq
  refine runOnce_canonical ?_ h
  exact .bind src_keeps fun _ => .get_bind fun _ _ => .guard (.ite (.guard (.bind dstAll_keeps fun _ =>
    .pure)) (.ite (.bind dstAll_keeps fun _ => .pure) (.ite .throw .throw)))

theorem execLandRel_canonical {s : State} {b r} (h : s.Canonical) : Out.Canonical (execLandRel b r s) :=
  runOnce_canonical (.bind src_keeps fun _ => .get_bind fun _ _ => .guard (.bind (.modify fun _ h => h) fun _ => .pure)) h

theorem releaseRow_canonical {s : State} {q tag} (h : s.Canonical) : (releaseRow s q tag).Canonical := by
  unfold releaseRow
  split
  · exact h
  · dsimp only
    split <;> exact h

/-! ### The functions of Machine/Scalar -/

theorem writeNext_keeps {lat a x} : Eff.Keeps (writeNext lat a x) := .bind dst_keeps fun _ => .pure

theorem alu2_keeps {lat f a b c} : Eff.Keeps (alu2 lat f a b c) :=
  .bind src_keeps fun _ => .bind src_keeps fun _ => writeNext_keeps

theorem alu1_keeps {f a b} : Eff.Keeps (alu1 f a b) := .bind src_keeps fun _ => writeNext_keeps

theorem pcOf_keeps : Eff.Keeps pcOf := .get_bind fun _ _ => .pure

/-! ### The functions of Machine/LoadStore -/

theorem loadTo_keeps {a ea sz sx} : Eff.Keeps (loadTo a ea sz sx) :=
  .bind check_keeps fun _ => .get_bind fun _ _ => .bind readLoc_keeps fun _ => .bind bankAccess_keeps fun _ => writeNext_keeps

theorem storeFrom_keeps {a ea sz} : Eff.Keeps (storeFrom a ea sz) :=
  .bind src_keeps fun _ => .bind store_keeps fun _ => .pure

theorem orderAt_keeps {sc release} : Eff.Keeps (orderAt sc release) :=
  .get_bind fun _ _ => .guard (.when drainRemote_keeps fun _ => .ite (.modify fun _ h => sendCombined_canonical h) .pure)

theorem fetchPins_canonical {s : State} {q ls} (h : s.Canonical) : OkAll (·.1.Canonical) (fetchPins s q ls) := by
  induction ls generalizing s with
  | nil => exact .ok h
  | cons la ls ih =>
    unfold fetchPins
    split
    · exact .error
    · rename_i hr
      refine .ite ?_ .error
      split
      · exact .error
      · rename_i hr'
        exact .ok (ih (readCode_canonical h _ hr) _ hr' :)

theorem pinTo_keeps {v} : Eff.Keeps (pinTo v) := by
  unfold pinTo
  refine .get_bind fun _ hu => ?_
  dsimp only
  split
  · exact .throw
  · rename_i hr
    exact .set (fetchPins_canonical hu _ hr :)

theorem execFence_canonical {s : State} {sc i} (h : s.Canonical) : Out.Canonical (execFence sc i s) := by
  unfold execFence
  refine runHead_canonical ?_ h
  exact .bind orderAt_keeps fun _ => .ite (.bind modMe_keeps fun _ => .get_bind fun _ _ => .ite (.bind (.modify fun _ h =>
    h) fun _ => .when pinTo_keeps fun _ => .pure) .pure) .pure

theorem atomicOp_keeps {op n va y nv u} : Eff.Keeps (atomicOp op n va y nv u) := by
  unfold atomicOp
  refine .get_bind fun _ _ => ?_
  dsimp only
  split
  · exact .throw_bind
  · refine .bind check_keeps fun _ => ?_
    split
    · refine .get_bind fun _ _ => ?_
      exact .guard (.get_bind fun _ hu3 => .bind (.set (logAtomic_canonical (performAt_canonical hu3))) fun _ => .pure)
    · exact .get_bind fun _ _ => .guard (.get_bind fun _ _ => remoteAccess_keeps (fun _ h3s => serveMem_canonical h3s))
    · exact .throw
  · exact .guard .throw_bind

theorem atomic_keeps {op a b c new dw u sc} (hnew : new.Keeps) : Eff.Keeps (atomic op a b c new dw u sc) := by
  unfold atomic
  refine .bind orderAt_keeps fun _ => ?_
  exact .bind gr_keeps fun _ => .bind src_keeps fun _ => .bind hnew fun _ => .bind atomicOp_keeps fun _ => writeNext_keeps

/-! ### The functions of Machine/Control -/

theorem jumpTo_keeps {t} : Eff.Keeps (jumpTo t) := by
  unfold jumpTo
  refine .get_bind fun _ hu => ?_
  split
  · exact .throw
  · rename_i hr
    exact .bind (.set (checkTarget_canonical hu _ hr)) fun _ => .pure

theorem linkPc_keeps : Eff.Keeps linkPc := .get_bind fun _ _ => .pure

theorem decides_keeps : Eff.Keeps decides := .get_bind fun _ _ => .pure

theorem branch_keeps {a b cc d} : Eff.Keeps (branch a b cc d) := by
  unfold branch
  refine .bind src_keeps fun _ => ?_
  exact .bind src_keeps fun _ => .bind pcOf_keeps fun _ => .bind decides_keeps fun _ => .ite jumpTo_keeps .pure

theorem jumpLink_keeps {a t} : Eff.Keeps (jumpLink a t) := by
  unfold jumpLink
  refine .bind decides_keeps fun _ => ?_
  refine .ite (.bind jumpTo_keeps fun _ => .bind linkPc_keeps fun _ => .bind dst_keeps fun _ => .pure) ?_
  exact .bind .pure fun _ => .bind linkPc_keeps fun _ => .bind dst_keeps fun _ => .pure

theorem execHend_canonical {s : State} (h : s.Canonical) : Out.Canonical (execHend s) := by
  refine runHead_canonical (.get_bind fun u hu => .bind (.set ?_) fun _ => .pure) h
  have h1 (r : RowRef) : (if r.released then u else releaseRow u u.cur none).Canonical := .ite hu (releaseRow_canonical hu)
  refine .ite (.mk ?_) (.mk ?_)
  all_goals
    refine .ite ?_ hu
    split
    · exact h1 _
    · exact hu

theorem execHjoin_canonical {s : State} {a b} (h : s.Canonical) : Out.Canonical (execHjoin a b s) := by
  unfold execHjoin
  refine runHead_canonical (.bind src_keeps fun _ => .get_bind fun _ _ => .guard ?_) h
  split
  · exact .ite .throw .throw
  · exact .bind (.modify fun _ h => h) fun _ => writeNext_keeps
  · exact .throw

theorem formGang_canonical {s : State} {g size} (h : s.Canonical) : (formGang s g size).Canonical :=
  .foldl (fun _ _ ht => ht) h

theorem writeIndexes_keeps {g n a} : Eff.Keeps (writeIndexes g n a) := by
  unfold writeIndexes
  refine .get_bind fun _ _ => .bind (.forM (fun _ => ?_) _) fun _ => .modify fun _ h => h
  exact .bind (.modify fun _ h => h) fun _ => dst_keeps

theorem completeGang_keeps {g n a} : Eff.Keeps (completeGang g n a) := by
  intro s h
  unfold completeGang
  split
  · rename_i hr
    split
    · exact writeIndexes_keeps.error h hr
    · exact (takeTrap_canonical h :)
  · rename_i hr
    exact writeIndexes_keeps.error h hr
  · rename_i hr
    exact formGang_canonical (writeIndexes_keeps.ok h hr)

theorem execGang_canonical {s : State} {a size} (h : s.Canonical) : Out.Canonical (execGang a size s) := by
  unfold execGang
  refine runOnce_canonical ?_ h
  exact .get_bind fun _ _ => .ite .throw (.ite writeNext_keeps (.ite .throw (.ite (.ite .throw .throw)
    (.ite (.bind completeGang_keeps fun _ => .pure) (.ite .throw .throw)))))

theorem execSplit_canonical {s : State} (h : s.Canonical) : Out.Canonical (execSplit s) := by
  unfold execSplit
  refine runOnce_canonical ?_ h
  exact .get_bind fun _ _ => .guard (.bind linkPc_keeps fun _ => .bind (.modify fun _ h => .foldl (fun _ _ ht =>
    ht) (.foldl (fun _ _ ht => ht) h)) fun _ => .pure)

theorem closeChunks_canonical {s : State} {g} (h : s.Canonical) : (closeChunks s g).Canonical :=
  .foldl (fun _ _ ht => endChunk_canonical ht) h

theorem enterTimed_keeps : Eff.Keeps enterTimed :=
  .bind (.modify fun _ h => closeChunks_canonical h) fun _ => .bind modMe_keeps fun _ => .pure

theorem execPhaseT_canonical {s : State} (h : s.Canonical) : Out.Canonical (execPhaseT s) :=
  runHead_canonical (.get_bind fun _ _ => .ite enterTimed_keeps (.ite .throw .throw)) h

theorem execTideWait_canonical {s : State} {a b strict imm} (h : s.Canonical) :
    Out.Canonical (execTideWait a b strict imm s) := by
  unfold execTideWait
  refine runHead_canonical (.get_bind fun _ _ => .guard (.ite ?_ writeNext_keeps)) h
  split <;> exact .throw_bind

theorem releaseBarrier_canonical {s : State} {l lv dom remote} (h : s.Canonical) :
    (releaseBarrier s l lv dom remote).Canonical := by
  unfold releaseBarrier
  refine .mk (.foldl (fun _ _ ht => ?_) ?_)
  · exact ht
  · split
    · exact .ite h h
    · exact h

theorem syncCore_keeps {a} : Eff.Keeps (syncCore a) :=
  .get_bind fun _ _ => .guard (.ite (.guard .throw_bind) writeNext_keeps)

theorem syncWide_keeps {a lv} : Eff.Keeps (syncWide a lv) := by
  unfold syncWide
  refine .get_bind fun _ hu => ?_
  dsimp only
  split
  · exact .ite .throw writeNext_keeps
  · split
    · exact .throw
    · exact .ite (.bind (.set (releaseBarrier_canonical hu)) fun _ => .get_bind fun _ _ => .throw) .throw
  · exact .guard (.when drainRemote_keeps fun _ => .throw)

theorem execBarrierRelease_canonical {s : State} (h : s.Canonical) : Out.Canonical (execBarrierRelease s) := by
  unfold execBarrierRelease
  split
  · exact .next h
  · exact .ite (.next (releaseBarrier_canonical h)) (.next h)

theorem watchTarget_keeps {ea n} : Eff.Keeps (watchTarget ea n) := by
  unfold watchTarget
  refine .get_bind fun _ _ => ?_
  split
  · exact .throw
  · refine .bind check_keeps fun _ => ?_
    split
    · exact .get_bind fun _ _ => .ite .throw .pure
    · exact .throw
  · exact .ite .throw .throw

theorem execWaitmem_canonical {s : State} {a b sz imm} (h : s.Canonical) : Out.Canonical (execWaitmem a b sz imm s) := by
  unfold execWaitmem
  refine runHead_canonical (.get_bind fun _ _ => ?_) h
  split
  · exact .ite .pure .throw
  · exact .bind src_keeps fun _ => .bind gr_keeps fun _ => .bind watchTarget_keeps fun _ => .get_bind fun _ _ =>
      .ite .pure .throw

theorem completeWait_canonical {s : State} {q} (h : s.Canonical) : (completeWait s q).Canonical := endHead_canonical h

theorem execWaitmemWake_canonical {s : State} (h : s.Canonical) : Out.Canonical (execWaitmemWake s) := by
  unfold execWaitmemWake
  split
  · exact .next (completeWait_canonical h)
  · exact .next h

theorem execWaitmemTimeout_canonical {s : State} (h : s.Canonical) : Out.Canonical (execWaitmemTimeout s) := by
  unfold execWaitmemTimeout
  split
  · exact .ite (.next (completeWait_canonical h)) (.next h)
  · exact .next h

theorem execSendmsg_canonical {s : State} {a b c tag} (h : s.Canonical) : Out.Canonical (execSendmsg a b c tag s) := by
  unfold execSendmsg
  refine runHead_canonical (.bind src_keeps fun _ => .bind src_keeps fun _ => .bind src_keeps fun _ => ?_) h
  refine .get_bind fun _ _ => ?_
  dsimp only
  split
  · exact .throw
  · exact .ite .throw (.ite (.ite .throw .throw) (.bind (.modify fun _ h => h) fun _ => .pure))

theorem endWaitForTrap_canonical {s : State} {ms} (h : s.Canonical) : (endWaitForTrap s ms).Canonical :=
  .ite (completeWait_canonical h) (.foldl (fun _ _ ht => ht) h)

theorem deliverAsync_canonical {s : State} {q} (h : s.Canonical) : (deliverAsync s q).Canonical := by
  unfold deliverAsync
  simp only
  split
  · exact h
  · refine .ite h ?_
    split
    · exact takeTrap_canonical (commitChunk_canonical (endWaitForTrap_canonical (.mk h)))
    · exact takeTrapGang_canonical (commitChunk_canonical (endWaitForTrap_canonical (.mk h)))

/-! ### The functions of Machine/Ports -/

theorem runPart_canonical {s : State} {e} (he : e.Keeps) (h : s.Canonical) : Out.Canonical (runPart e s) := by
  unfold runPart
  split
  · rename_i hr
    exact .next (he.ok h hr)
  · exact .next (trapHead_canonical h)
  · exact .next (trapHead_canonical (unpin_canonical h))
  · exact .next (trapHead_canonical (clearLost_canonical h))
  · exact .next (trapHead_canonical h)
  · rename_i hr
    exact .next (undoLocal_canonical (he.error h hr))
  · exact .next (haltHead_canonical h)
  · exact .next h

theorem popInto_keeps {e} (he : e.Keeps) : Eff.Keeps (popInto e) :=
  .bind he fun _ => .get_bind fun _ _ => .ite .pure result_keeps

theorem partOf_canonical {s : State} {e} (he : e.Keeps) (h : s.Canonical) : Out.Canonical (partOf e s) :=
  .ite (.next h) (runPart_canonical he h)

theorem execLocalArrival_canonical {s : State} (h : s.Canonical) : Out.Canonical (execLocalArrival s) := by
  unfold execLocalArrival
  dsimp only
  split
  · exact .ite (.next (traceArrival_canonical (performAt_canonical h))) (.next h)
  · exact .ite (.next (performAt_canonical h)) (.next h)
  · exact .next (landCombined_canonical h)
  · exact .ite (.next (arriveQx_canonical h)) (.next h)

theorem commitAll_canonical {s : State} {qs} (h : s.Canonical) : (commitAll s qs).Canonical :=
  .foldl (fun _ _ ht => commitChunk_canonical ht) h

/-! ### The functions of Machine/VectorArith -/

theorem runVec_canonical {s : State} {i body} (hbody : body.Keeps) (h : s.Canonical) : Out.Canonical (runVec i body s) :=
  runOnce_canonical (.bind hbody fun _ => .bind (.modify fun _ h => .foldl (fun _ _ ht => ht) h) fun _ => .pure) h

theorem vctl_keeps {rm} : Eff.Keeps (vctl rm) := .get_bind fun _ _ => .pure

theorem putVec_keeps {lat a kp z w n f} : Eff.Keeps (putVec lat a kp z w n f) :=
  .get_bind fun _ _ => .bind writeVec_keeps fun _ => .bind raiseFlags_keeps fun _ => .pure

theorem fpVec_keeps {lat a b c d kp z rm t op} : Eff.Keeps (fpVec lat a b c d kp z rm t op) :=
  .bind vctl_keeps fun _ => .get_bind fun _ _ => .bind putVec_keeps fun _ => .bind advanceCtr_keeps fun _ => .pure

theorem minmaxVec_keeps {isMax a b c kp z t} : Eff.Keeps (minmaxVec isMax a b c kp z t) :=
  .bind vctl_keeps fun _ => .get_bind fun _ _ => .bind putVec_keeps fun _ => .pure

theorem wideFma_keeps {a b c d kp z rm t var h} : Eff.Keeps (wideFma a b c d kp z rm t var h) :=
  .bind vctl_keeps fun _ => .get_bind fun _ _ => .bind putVec_keeps fun _ => .bind advanceCtr_keeps fun _ => .pure

theorem intVec_keeps {lat a b c kp z w f} : Eff.Keeps (intVec lat a b c kp z w f) :=
  .get_bind fun _ _ => .bind putVec_keeps fun _ => .pure

theorem putPred_keeps {lat a kp z w f} : Eff.Keeps (putPred lat a kp z w f) :=
  .get_bind fun _ _ => .bind writePred_keeps fun _ => .bind raiseFlags_keeps fun _ => .pure

theorem setPred_keeps {a f} : Eff.Keeps (setPred a f) := .get_bind fun _ _ => .bind writePred_keeps fun _ => .pure

/-! ### The functions of Machine/VectorMem -/

theorem byMember_keeps {α m e} (he : e.Keeps) : Eff.Keeps ((byMember m e) : Eff α) :=
  .get_bind fun _ _ => .bind (.modify fun _ h => h) fun _ => .bind he fun _ => .bind (.modify fun _ h => h) fun _ => .pure

theorem checkElem_keeps {va n perm} : Eff.Keeps (checkElem va n perm) := by
  unfold checkElem
  refine .get_bind fun _ _ => .ite check_keeps (.ite .throw ?_)
  split
  · exact .ite .throw .throw
  · exact .throw

theorem checkElems_keeps {w perm ea is} : Eff.Keeps (checkElems w perm ea is) := by
  induction is with
  | nil => exact .pure
  | cons i is ih => exact .get_bind fun _ _ => .bind (byMember_keeps checkElem_keeps) fun _ => .bind ih fun _ => .pure

theorem readElems_keeps {w ea ls} : Eff.Keeps (readElems w ea ls) := by
  induction ls with
  | nil => exact .pure
  | cons l ls ih => exact .get_bind fun _ _ => .bind (byMember_keeps readLoc_keeps) fun _ => .bind ih fun _ => .pure

theorem vload_keeps {a kp z t unit ea} : Eff.Keeps (vload a kp z t unit ea) := by
  unfold vload
  refine .get_bind fun _ _ => .bind checkElems_keeps fun _ => ?_
  exact .bind readElems_keeps fun _ => .bind bankAccess_keeps fun _ => .get_bind fun _ _ => .bind putVec_keeps fun _ => .pure

theorem reachable_keeps {va l} : Eff.Keeps (reachable va l) := by
  unfold reachable
  split
  · exact .get_bind fun _ _ => .ite (.ite .throw .throw) .pure
  · exact .pure

theorem takePart_keeps {w ea lines seen is} : Eff.Keeps (takePart w ea lines seen is) := by
  induction is generalizing lines seen with
  | nil => exact .pure
  | cons i is ih =>
    refine .get_bind fun _ _ => .ite .pure (.bind (byMember_keeps checkElem_keeps) fun _ => .bind reachable_keeps fun _ => ?_)
    exact .ite .pure (.bind ih fun _ => .pure)

theorem writeElems_keeps {who w v ea ls} : Eff.Keeps (writeElems who w v ea ls) := by
  induction ls with
  | nil => exact .pure
  | cons l ls ih => exact .get_bind fun _ _ => .bind (byMember_keeps writeLoc_keeps) fun _ => ih

theorem setVres_keeps {n} : Eff.Keeps (setVres n) := modMe_keeps

theorem vstore_keeps {a kp t unit ea} : Eff.Keeps (vstore a kp t unit ea) := by
  unfold vstore
  refine .get_bind fun _ _ => .bind takePart_keeps fun (part, rest) => ?_
  cases rest with
  | nil =>
    refine .when leaveChunk_keeps fun _ => ?_
    exact .bind writeElems_keeps fun _ => .bind addCounts_keeps fun _ => .bind modMe_keeps fun _ =>
      .bind bankAccess_keeps fun _ => .bind advanceCtr_keeps fun _ => .pure
  | cons i is =>
    exact .bind leaveChunk_keeps fun _ => .bind writeElems_keeps fun _ => .bind leaveChunk_keeps fun _ =>
      .bind setVres_keeps fun _ => .bind modMe_keeps fun _ => .throw

theorem vbase_keeps {b imm} : Eff.Keeps (vbase b imm) := .bind gr_keeps fun _ => .pure

theorem execVst_canonical {s : State} {a b kp t nt imm} (h : s.Canonical) : Out.Canonical (execVst a b kp t nt imm s) :=
  runVec_canonical (.bind vbase_keeps fun _ => vstore_keeps) h

theorem execVsts_canonical {s : State} {a b c kp t nt imm} (h : s.Canonical) : Out.Canonical (execVsts a b c kp t nt imm s) :=
  runVec_canonical (.bind vbase_keeps fun _ => .bind gr_keeps fun _ => vstore_keeps) h

theorem execVscat_canonical {s : State} {a b c kp t nt sh imm} (h : s.Canonical) :
    Out.Canonical (execVscat a b c kp t nt sh imm s) :=
  runVec_canonical (.get_bind fun _ _ => .bind vbase_keeps fun _ => vstore_keeps) h

theorem currentInstr_canonical {s : State} {q} (h : s.Canonical) : SomeAll (·.1.Canonical) (currentInstr s q) := by
  unfold currentInstr
  dsimp only
  split
  · exact .none
  · rename_i hr
    have ht := fetchLine_canonical h _ hr
    split
    · exact .some ht
    · exact .none

theorem execVectorStorePart_canonical {s : State} (h : s.Canonical) : Out.Canonical (execVectorStorePart s) := by
  unfold execVectorStorePart
  refine .ite ?_ (.next h)
  split
  · exact .next h
  · rename_i t i hr
    have ht : t.Canonical := currentInstr_canonical h _ hr
    clear hr
    have ho : Out.Canonical (match i with
        | .vst a b kp ty nt imm => execVst a b kp ty nt imm { t with cur := leader s s.inp.a }
        | .vsts a b c kp ty nt imm => execVsts a b c kp ty nt imm { t with cur := leader s s.inp.a }
        | .vscat a b c kp ty nt sh imm => execVscat a b c kp ty nt sh imm { t with cur := leader s s.inp.a }
        | _ => .next s) := by
      split
      · exact execVst_canonical ht
      · exact execVsts_canonical ht
      · exact execVscat_canonical ht
      · exact .next h
    dsimp only
    split
    · rename_i u hu
      have hu := ho u hu
      exact .ite (.next hu) (.next hu)
    · exact ho

/-! ### The functions of Machine/VectorMove -/

theorem putAt_keeps {lat a w z rs} : Eff.Keeps (putAt lat a w z rs) := writeVec_keeps

theorem convVec_keeps {a b kp z ws wd p f} : Eff.Keeps (convVec a b kp z ws wd p f) :=
  .get_bind fun _ _ => .bind putAt_keeps fun _ => .bind raiseFlags_keeps fun _ => .pure

theorem execVcvt_canonical {s : State} {a b kp z rm ts td p u} (h : s.Canonical) :
    Out.Canonical (execVcvt a b kp z rm ts td p u s) :=
  runVec_canonical (.bind vctl_keeps fun _ => .bind convVec_keeps fun _ => .bind advanceCtr_keeps fun _ => .pure) h

theorem packMx_keeps {a b d kp z rm p} : Eff.Keeps (packMx a b d kp z rm p) := by
  unfold packMx
  refine .bind vctl_keeps fun _ => .get_bind fun _ _ => ?_
  exact .bind putAt_keeps fun _ => .bind putAt_keeps fun _ => .bind raiseFlags_keeps fun _ =>
    .bind advanceCtr_keeps fun _ => .pure

theorem unpackMx_keeps {a b d kp z rm p} : Eff.Keeps (unpackMx a b d kp z rm p) :=
  .bind vctl_keeps fun _ => .get_bind fun _ _ => .bind convVec_keeps fun _ => .bind advanceCtr_keeps fun _ => .pure

theorem putOne_keeps {lat a w j x} : Eff.Keeps (putOne lat a w j x) := putAt_keeps

theorem illegalOperand_keeps {α} : Eff.Keeps ((illegalOperand ) : Eff α) := .get_bind fun _ _ => .throw

theorem execVdotf8_canonical {s : State} {a b c kp rm ta tb j} (h : s.Canonical) :
    Out.Canonical (execVdotf8 a b c kp rm ta tb j s) := by
  unfold execVdotf8
  refine runVec_canonical ?_ h
  exact .bind vctl_keeps fun _ => .get_bind fun _ _ => .when illegalOperand_keeps fun _ => .bind putOne_keeps fun _ =>
    .bind raiseFlags_keeps fun _ => .bind advanceCtr_keeps fun _ => .pure

theorem execVdoti8_canonical {s : State} {a b c kp ta tb j} (h : s.Canonical) :
    Out.Canonical (execVdoti8 a b c kp ta tb j s) :=
  runVec_canonical (.get_bind fun _ _ => .when illegalOperand_keeps fun _ => .bind putOne_keeps fun _ => .pure) h

theorem execVred_canonical {s : State} {a b kp rm t o j} (h : s.Canonical) : Out.Canonical (execVred a b kp rm t o j s) := by
  unfold execVred
  refine runVec_canonical ?_ h
  exact .bind vctl_keeps fun _ => .get_bind fun _ _ => .when illegalOperand_keeps fun _ => .bind putOne_keeps fun _ =>
    .bind raiseFlags_keeps fun _ => .bind advanceCtr_keeps fun _ => .pure

theorem execVscan_canonical {s : State} {a b kp z rm t o} (h : s.Canonical) :
    Out.Canonical (execVscan a b kp z rm t o s) := by
  unfold execVscan
  refine runVec_canonical ?_ h
  exact .bind vctl_keeps fun _ => .get_bind fun _ _ => .bind putVec_keeps fun _ => .bind raiseFlags_keeps fun _ =>
    .bind advanceCtr_keeps fun _ => .pure

theorem execVbcast_canonical {s : State} {a b c kp z t elm} (h : s.Canonical) :
    Out.Canonical (execVbcast a b c kp z t elm s) := by
  unfold execVbcast
  refine runVec_canonical ?_ h
  exact .ite (.get_bind fun _ _ => .bind gr_keeps fun _ => .bind putVec_keeps fun _ => .pure) (.bind src_keeps fun _ =>
    .get_bind fun _ _ => .bind putVec_keeps fun _ => .pure)

theorem execVext_canonical {s : State} {a b t sx idx} (h : s.Canonical) : Out.Canonical (execVext a b t sx idx s) :=
  runVec_canonical (.get_bind fun _ _ => .when illegalOperand_keeps fun _ => .bind dstAll_keeps fun _ => .pure) h

theorem execVins_canonical {s : State} {a b t idx} (h : s.Canonical) : Out.Canonical (execVins a b t idx s) := by
  unfold execVins
  refine runVec_canonical ?_ h
  exact .bind src_keeps fun _ => .get_bind fun _ _ => .when illegalOperand_keeps fun _ => .bind putOne_keeps fun _ => .pure

theorem countBins_keeps {g bins} : Eff.Keeps (countBins g bins) := by
  unfold countBins
  refine .get_bind fun _ _ => .ite result_keeps ?_
  split
  · exact modMe_keeps
  · exact .modify fun _ h => .foldl (fun _ _ ht => ht) h

theorem execVhist_canonical {s : State} {b kp t} (h : s.Canonical) : Out.Canonical (execVhist b kp t s) := by
  refine runVec_canonical (.get_bind fun u _ => .bind (.forM (fun _ => ?_) _) fun _ => .pure) h
  exact .ite countBins_keeps .pure

theorem setCtr_keeps {x} : Eff.Keeps (setCtr x) := modMe_keeps

theorem execVseedXchg_canonical {s : State} {a b} (h : s.Canonical) : Out.Canonical (execVseedXchg a b s) := by
  unfold execVseedXchg
  refine runVec_canonical ?_ h
  exact .bind src_keeps fun _ => .get_bind fun _ _ => .bind setCtr_keeps fun _ => .bind dstAll_keeps fun _ => .pure

/-! ### The functions of Machine/BitStream -/

theorem myBuf_keeps : Eff.Keeps myBuf := .get_bind fun _ _ => .pure

theorem setBuf_keeps {b} : Eff.Keeps (setBuf b) := modMe_keeps

theorem bufferReady_keeps : Eff.Keeps bufferReady := .get_bind fun _ _ => .ite .throw .pure

theorem bitCount_keeps {b r imm m} : Eff.Keeps (bitCount b r imm m) := .ite (.bind src_keeps fun _ => .pure) .pure

theorem getBits_keeps {a b r sx imm use} : Eff.Keeps (getBits a b r sx imm use) := by
  unfold getBits
  refine .bind bufferReady_keeps fun _ => .bind bitCount_keeps fun _ => ?_
  exact .when illegalOperand_keeps fun _ => .bind myBuf_keeps fun _ => .bind setBuf_keeps fun _ => writeNext_keeps

theorem execBbSkip_canonical {s : State} {b r imm} (h : s.Canonical) : Out.Canonical (execBbSkip b r imm s) := by
  unfold execBbSkip
  refine runHead_canonical ?_ h
  exact .bind bufferReady_keeps fun _ => .bind bitCount_keeps fun _ => .when illegalOperand_keeps fun _ =>
    .bind myBuf_keeps fun _ => .bind setBuf_keeps fun _ => .pure

theorem bufRead_keeps {reg o n} : Eff.Keeps (bufRead reg o n) := by
  unfold bufRead
  split
  · exact .throw
  · refine .bind (.mapM (fun _ => ?_) _) fun _ => .get_bind fun _ _ => .bind bankAccess_keeps fun _ => .pure
    exact .bind check_keeps fun _ => .get_bind fun _ _ => .bind readLoc_keeps fun _ => .pure

theorem execBbFill_canonical {s : State} {a} (h : s.Canonical) : Out.Canonical (execBbFill a s) := by
  unfold execBbFill
  refine runHead_canonical ?_ h
  exact .bind bufferReady_keeps fun _ => .bind myBuf_keeps fun _ => .bind bufRead_keeps fun _ =>
    .bind setBuf_keeps fun _ => .bind result_keeps fun _ => writeNext_keeps

theorem execBbDec_canonical {s : State} {a imm} (h : s.Canonical) : Out.Canonical (execBbDec a imm s) := by
  unfold execBbDec
  refine runHead_canonical ?_ h
  exact .bind bufferReady_keeps fun _ => .bind myBuf_keeps fun _ => .bind bufRead_keeps fun _ =>
    .ite (.bind result_keeps fun _ => writeNext_keeps) (.bind result_keeps fun _ => writeNext_keeps)

theorem saveAddr_keeps {b imm perm} : Eff.Keeps (saveAddr b imm perm) := by
  unfold saveAddr
  refine .bind gr_keeps fun _ => .get_bind fun _ _ => .ite ?_ ?_
  · split <;> exact .throw_bind
  · refine .bind ?_ fun _ => ?_
    · exact .bind (.bind check_keeps fun _ => .pure) fun _ => .bind (.bind check_keeps fun _ => .pure) fun _ =>
        .bind (.bind check_keeps fun _ => .pure) fun _ => .bind (.bind check_keeps fun _ => .pure) fun _ => .pure
    · exact .pure

theorem execBbSave_canonical {s : State} {b imm} (h : s.Canonical) : Out.Canonical (execBbSave b imm s) := by
  unfold execBbSave
  refine runHead_canonical ?_ h
  exact .bind bufferReady_keeps fun _ => .bind saveAddr_keeps fun _ => .bind myBuf_keeps fun _ =>
    .bind store_keeps fun _ => .bind store_keeps fun _ => .bind store_keeps fun _ => .bind store_keeps fun _ => .pure

theorem execBbRest_canonical {s : State} {b imm} (h : s.Canonical) : Out.Canonical (execBbRest b imm s) := by
  unfold execBbRest
  refine runHead_canonical ?_ h
  exact .bind bufferReady_keeps fun _ => .bind saveAddr_keeps fun _ => .bind load_keeps fun _ => .bind load_keeps fun _ =>
    .bind load_keeps fun _ => .bind load_keeps fun _ => .when illegalOperand_keeps fun _ => .bind check_keeps fun _ =>
    .get_bind fun _ _ => .bind bankAccess_keeps fun _ => .bind result_keeps fun _ => .pure

/-! ### The functions of Machine/Transform -/

theorem xRead_canonical {s : State} {q vf va n} (h : s.Canonical) : OkAll (·.1.Canonical) (xRead s q vf va n) :=
  .ite .error (engRead_canonical h)

theorem xWrite_canonical {s : State} {q vf va n v} (h : s.Canonical) : OkAll State.Canonical (xWrite s q vf va n v) :=
  .ite .error (engWrite_canonical h)

theorem xReadRun_canonical {s : State} {q vf va n} (h : s.Canonical) : (xReadRun s q vf va n).1.Canonical := by
  induction n generalizing s va with
  | zero => exact h
  | succ n ih =>
    unfold xReadRun
    split
    · exact h
    · rename_i hr
      exact ih (xRead_canonical h _ hr)

theorem xWriteRun_canonical {s : State} {q vf va bs} (h : s.Canonical) : OkAll State.Canonical (xWriteRun s q vf va bs) := by
  induction bs generalizing s va with
  | nil => exact .ok h
  | cons b bs ih =>
    unfold xWriteRun
    split
    · exact .error
    · rename_i hr
      exact ih (xWrite_canonical h _ hr)

theorem failXslot_canonical {s : State} {gc k c x} (h : s.Canonical) : (failXslot s gc k c x).Canonical :=
  forgetStalls_canonical h

theorem served_canonical {s : State} {gc} (h : s.Canonical) : (served s gc).Canonical := .ite h h

theorem asUnit_canonical {s t : State} {gc k q} (ht : t.Canonical) : (asUnit s t gc k q).Canonical := .ite ht ht

theorem releaseChunk_canonical {s : State} {gc k x n} (h : s.Canonical) : (releaseChunk s gc k x n).Canonical := by
  unfold releaseChunk
  split
  · exact .ite (noteStall_canonical h) (failXslot_canonical h)
  · rename_i hr
    exact asUnit_canonical (xWriteRun_canonical h _ hr)

theorem decodeStep_canonical {s : State} {gc k x n hold} (h : s.Canonical) : (decodeStep s gc k x n hold).Canonical := by
  unfold decodeStep
  refine .ite (releaseChunk_canonical h) (.ite (xReadRun_canonical h) ?_)
  dsimp only
  split
  · exact .ite (noteStall_canonical h) (failXslot_canonical (xReadRun_canonical h))
  · refine .ite (xReadRun_canonical h) ?_
    split
    · exact .ite (noteStall_canonical h) (failXslot_canonical (xReadRun_canonical h))
    · exact releaseChunk_canonical (xReadRun_canonical h)

theorem execTransformDecodeChunk_canonical {s : State} (h : s.Canonical) : Out.Canonical (execTransformDecodeChunk s) := by
  unfold execTransformDecodeChunk
  split
  · exact .next h
  · exact .ite (.next (served_canonical (decodeStep_canonical h))) (.next h)

theorem execDecoderWatchdogCutoff_canonical {s : State} (h : s.Canonical) : Out.Canonical (execDecoderWatchdogCutoff s) := by
  unfold execDecoderWatchdogCutoff
  split
  · exact .next h
  · exact .ite (.next (served_canonical (decodeStep_canonical h))) (.next h)

theorem xElements_canonical {s : State} {gc k x f g last is} (h : s.Canonical) :
    (xElements s gc k x f g last is).Canonical := by
  induction is generalizing s x with
  | nil => exact .mk h
  | cons i is ih =>
    unfold xElements
    dsimp only
    split
    · exact .ite (noteStall_canonical (.mk h)) (failXslot_canonical h)
    · rename_i hr
      have h1 := xRead_canonical h _ hr
      split
      · exact .ite (noteStall_canonical (.mk h)) (failXslot_canonical h1)
      · rename_i hw
        exact ih (asUnit_canonical (xWrite_canonical h1 _ hw))

theorem xNext_canonical {s : State} {gc k x f g n m} (h : s.Canonical) : (xNext s gc k x f g n m).Canonical :=
  xElements_canonical h

theorem transposeStep_canonical {s : State} {gc k x m} (h : s.Canonical) : (transposeStep s gc k x m).Canonical :=
  xNext_canonical h

theorem servedWhole_canonical {s : State} {gc k} (h : s.Canonical) : (servedWhole s gc k).Canonical := by
  unfold servedWhole
  split
  · exact .ite (served_canonical h) h
  · exact h

theorem execTransformTranspose_canonical {s : State} (h : s.Canonical) : Out.Canonical (execTransformTranspose s) := by
  unfold execTransformTranspose
  split
  · exact .next h
  · exact .ite (.next (servedWhole_canonical (transposeStep_canonical h))) (.next h)

theorem convertStep_canonical {s : State} {gc k x m} (h : s.Canonical) : (convertStep s gc k x m).Canonical :=
  xNext_canonical h

theorem execTransformConvert_canonical {s : State} (h : s.Canonical) : Out.Canonical (execTransformConvert s) := by
  unfold execTransformConvert
  split
  · exact .next h
  · exact .ite (.next (servedWhole_canonical (convertStep_canonical h))) (.next h)

theorem putWords_canonical {s : State} {q vf va ws} (h : s.Canonical) : (putWords s q vf va ws).Canonical := by
  unfold putWords
  split
  · rename_i hr
    exact (xWriteRun_canonical h _ hr :)
  · exact h

theorem execTransformResponse_canonical {s : State} (h : s.Canonical) : Out.Canonical (execTransformResponse s) := by
  unfold execTransformResponse
  dsimp only
  split
  · exact .next h
  · split
    · exact .next h
    · exact .ite (.next h) (.next (dropStores_canonical (.ite (putWords_canonical h) h)))

theorem execXreq_canonical {s : State} {a b} (h : s.Canonical) : Out.Canonical (execXreq a b s) := by
  unfold execXreq
  refine runHead_canonical (.bind gr_keeps fun _ => .bind offer_keeps fun _ => ?_) h
  split <;> exact writeNext_keeps

theorem State.modEngine_canonical {s : State} {h f} (hs : s.Canonical) : (State.modEngine s h f).Canonical := hs

/-! ### The functions of Machine/Engine -/

theorem addInflight_canonical {s : State} {vf k d} (h : s.Canonical) : (addInflight s vf k d).Canonical :=
  performAt_canonical h

theorem releaseHolds_canonical {s : State} {r} (h : s.Canonical) : (releaseHolds s r).Canonical := by
  unfold releaseHolds
  dsimp only
  split <;> exact .foldl (fun _ _ ht => addInflight_canonical ht) h

theorem post_canonical {s : State} {h r m} (hs : s.Canonical) : (post s h r m).Canonical := by
  unfold post
  refine .ite hs ?_
  split
  · split
    · rename_i hr
      exact engWriteBytes_canonical hs _ hr
    · exact hs
  · exact hs

theorem failRequest_canonical {s : State} {h r} (hs : s.Canonical) : (failRequest s h r).Canonical := by
  unfold failRequest
  refine .ite (post_canonical (releaseHolds_canonical hs)) ?_
  exact .ite (post_canonical (releaseHolds_canonical hs)) (post_canonical (releaseHolds_canonical hs))

theorem acceptKick_canonical {s : State} {h r} (hs : s.Canonical) : (acceptKick s h r).Canonical :=
  .ite (failRequest_canonical hs) (State.modEngine_canonical hs)

theorem checkQueue_keeps {h} : Eff.Keeps (checkQueue h) := .get_bind fun _ _ => .ite (.ite .throw .throw) .pure

theorem kickCancel_keeps {h mark} (hmark : ∀ x0, State.Canonical x0 → (mark x0).Canonical) : Eff.Keeps (kickCancel h mark) :=
  .bind checkQueue_keeps fun _ => .modify fun _ h => hmark _ h

theorem kick_keeps {h r} : Eff.Keeps (kick h r) := by
  unfold kick
  refine .get_bind fun _ _ => .ite (.guard .throw_bind) ?_
  refine .bind checkQueue_keeps fun _ => .bind (.modify fun _ h => h) fun _ => ?_
  exact .bind modMe_keeps fun _ => .bind (.modify fun _ h => acceptKick_canonical h) fun _ => modMe_keeps

theorem execEngineKickAccept_canonical {s : State} (h : s.Canonical) : Out.Canonical (execEngineKickAccept s) := by
  unfold execEngineKickAccept
  split
  · exact .next h
  · exact .ite (.next (acceptKick_canonical h)) (.next h)

theorem stallOn_keeps {c} : Eff.Keeps (stallOn c) :=
  .bind (.modify fun _ h => noteStall_canonical h) fun _ => .get_bind fun _ _ => .throw

theorem execJpeek_canonical {s : State} {a b} (h : s.Canonical) : Out.Canonical (execJpeek a b s) := by
  unfold execJpeek
  refine runHead_canonical (.bind src_keeps fun _ => .get_bind fun _ _ => ?_) h
  refine .when illegalOperand_keeps fun _ => ?_
  split
  · exact .ite .throw .throw
  · exact .bind result_keeps fun _ => writeNext_keeps

theorem execJdrop_canonical {s : State} (h : s.Canonical) : Out.Canonical (execJdrop s) := by
  unfold execJdrop
  refine runHead_canonical (.get_bind fun _ _ => ?_) h
  split
  · exact .ite .throw .throw
  · exact .bind (.modify fun _ h => h) fun _ => .pure

/-! ### The functions of Machine/Barge -/

theorem putHandle_canonical {s : State} {vf k d x} (h : s.Canonical) : (putHandle s vf k d x).Canonical :=
  performAt_canonical h

theorem setSlotFree_canonical {s : State} {vf k free} (h : s.Canonical) : (setSlotFree s vf k free).Canonical :=
  performAt_canonical h

theorem execHalloc_canonical {s : State} {a b c nt} (h : s.Canonical) : Out.Canonical (execHalloc a b c nt s) := by
  refine runHead_canonical (.bind gr_keeps fun _ => .bind gr_keeps fun _ => .get_bind fun _ _ =>
    .when illegalOperand_keeps fun _ => ?_) h
  split
  · exact writeNext_keeps
  · exact .bind (.modify fun _ h =>
      performAt_canonical (putHandle_canonical (putHandle_canonical (setSlotFree_canonical h)))) fun _ =>
      writeNext_keeps

theorem execHfree_canonical {s : State} {a b} (h : s.Canonical) : Out.Canonical (execHfree a b s) := by
  unfold execHfree
  refine runHead_canonical ?_ h
  exact .bind gr_keeps fun _ => .get_bind fun _ _ => .when illegalOperand_keeps fun _ =>
    .ite (.guard (.bind (.modify fun _ h => putHandle_canonical h) fun _ => .get_bind fun _ _ =>
    .ite (.guard .throw_bind) (.bind (.modify fun _ h => setSlotFree_canonical (putHandle_canonical h)) fun _ =>
    writeNext_keeps))) (.get_bind fun _ _ => .ite (.guard .throw_bind) (.bind (.modify fun _ h =>
    setSlotFree_canonical (putHandle_canonical h)) fun _ => writeNext_keeps))

theorem execHbump_canonical {s : State} {a b c} (h : s.Canonical) : Out.Canonical (execHbump a b c s) := by
  unfold execHbump
  refine runHead_canonical ?_ h
  exact .bind gr_keeps fun _ => .bind gr_keeps fun _ => .get_bind fun _ _ => .guard (.when illegalOperand_keeps fun _ =>
    .bind (.modify fun _ h => putHandle_canonical (putHandle_canonical h)) fun _ => writeNext_keeps)

theorem readElem_canonical {s : State} {h r nib at4} (hs : s.Canonical) : OkAll (·.1.Canonical) (readElem s h r nib at4) := by
  unfold readElem
  dsimp only
  split
  · exact .error
  · refine .ite .error ?_
    split
    · exact .error
    · rename_i hr
      have ht1 := engRead_canonical hs _ hr
      exact .ok ht1

theorem oldByte_canonical {s : State} {h r va l} (hs : s.Canonical) : OkAll (·.1.Canonical) (oldByte s h r va l) := by
  unfold oldByte
  split
  · exact engRead_canonical hs
  · exact .ok hs

theorem writeElem_canonical {s : State} {h r nib at4 v} (hs : s.Canonical) :
    OkAll State.Canonical (writeElem s h r nib at4 v) := by
  unfold writeElem
  dsimp only
  split
  · exact .error
  · refine .ite .error (.ite (engWriteAs_canonical hs) ?_)
    split
    · exact .error
    · rename_i hr
      exact engWriteAs_canonical (oldByte_canonical hs _ hr)

theorem writePacked_canonical {s : State} {h r nib at4 v} (hs : s.Canonical) :
    OkAll State.Canonical (writePacked s h r nib at4 v) := by
  unfold writePacked
  refine .ite ?_ (writeElem_canonical hs)
  split
  · exact .error
  · rename_i hr
    exact writeElem_canonical (writeElem_canonical hs _ hr)

theorem leaveElem_canonical {s : State} {h r nib at4} (hs : s.Canonical) : (leaveElem s h r nib at4).Canonical := by
  unfold leaveElem
  dsimp only
  split
  · exact hs
  · rename_i hr
    exact leaveAt_canonical (checkAccess_canonical hs _ hr)

theorem leavePacked_canonical {s : State} {h r nib at4} (hs : s.Canonical) : (leavePacked s h r nib at4).Canonical :=
  .ite (leaveElem_canonical (leaveElem_canonical hs)) (leaveElem_canonical hs)

theorem copyElem_canonical {s : State} {h r k j} (hs : s.Canonical) : OkAll State.Canonical (copyElem s h r k j) := by
  rw [show copyElem = _ by delta copyElem; rfl]
  simp only
  split
  · exact .error
  · rename_i s1 v hr
    have ht : s1.Canonical := OkAll.ite (P := (·.1.Canonical)) (.ok hs) (readElem_canonical hs) _ hr
    refine .ite ?_ (.ite (writePacked_canonical ht) (.ite (writeElem_canonical ht) (.ok ht)))
    split
    · exact .ok ht
    · exact .ok (performAt_canonical ht)

/-- A run of elements moved by any way `f` of moving one: `copyRun` with `copyElem` abstracted, so that an induction need not look
into the moving of an element. -/
def copyRunBy (f : State → Nat → Request → Nat → Nat → Except Nat State) (s : State) (h : Nat) (r : Request) (k j : Nat) :
    Nat → State × Option (Nat × Nat)
  | 0 => (s, none)
  | n + 1 =>
    match f s h r k j with
    | .error c => (s, some (c, j))
    | .ok t => copyRunBy f t h r k (j + 1) n

theorem copyRun_eq_copyRunBy : copyRun = copyRunBy copyElem := by
  rw [show copyRun = _ by delta copyRun; rfl, show copyRun._f = _ by delta copyRun._f; rfl]
  generalize copyElem = f
  delta copyRunBy copyRunBy._f
  rfl

theorem copyRunBy_canonical {f} (hf : ∀ {s h r k j}, s.Canonical → OkAll State.Canonical
    (f s h r k j)) {s : State} {h r k j n}
    (hs : s.Canonical) : (copyRunBy f s h r k j n).1.Canonical := by
  induction n generalizing s j with
  | zero => exact hs
  | succ n ih =>
    rw [copyRunBy]
    split
    · exact hs
    · rename_i hr
      exact ih (hf hs _ hr)

theorem copyRun_canonical {s : State} {h r k j n} (hs : s.Canonical) : (copyRun s h r k j n).1.Canonical :=
  by
  rw [copyRun_eq_copyRunBy]
  exact copyRunBy_canonical (f := copyElem) copyElem_canonical hs

theorem leaveDest_canonical {s : State} {h r j} (hs : s.Canonical) : (leaveDest s h r j).Canonical := by
  unfold leaveDest
  refine .ite ?_ (.ite (leavePacked_canonical hs) (.ite (leaveElem_canonical hs) hs))
  split
  · exact performAt_canonical hs
  · exact hs

theorem leaveCopy_canonical {s : State} {h r n} (hs : s.Canonical) : (leaveCopy s h r n).Canonical :=
  .foldl (fun _ _ ht => leaveDest_canonical ht) hs

theorem finishCopy_canonical {s : State} {h r status count} (hs : s.Canonical) : (finishCopy s h r status count).Canonical :=
  post_canonical (releaseHolds_canonical hs)

theorem group_keeps {b n} : Eff.Keeps (group b n) := by
  unfold group
  exact .when illegalOperand_keeps fun _ => .get_bind fun _ _ => .pure

theorem checkBase_keeps {r} : Eff.Keeps (checkBase r) := .get_bind fun _ _ => .guard .pure

theorem takeHandle_keeps {h lo hi} : Eff.Keeps (takeHandle h lo hi) := by
  unfold takeHandle
  refine .ite .pure ?_
  exact .get_bind fun _ _ => .guard (.guard (.guard (.bind (.modify fun _ h => addInflight_canonical h) fun _ => .pure)))

theorem recHandle_keeps {r} : Eff.Keeps (recHandle r) := by
  rw [show recHandle = _ by delta recHandle; rfl]
  split
  exact takeHandle_keeps

theorem checkRec_keeps {b r} : Eff.Keeps (checkRec b r) := by
  unfold checkRec
  split
  · exact .throw
  · exact .pure

theorem checkCopyRing_keeps {r rec'} : Eff.Keeps (checkCopyRing r rec') := .get_bind fun _ _ => .ite .throw .pure

theorem holdRing_canonical {s : State} {r} (h : s.Canonical) : (holdRing s r).Canonical := by
  unfold holdRing
  split <;> exact h

theorem leaveIfStopped_canonical {s : State} {h r} (hs : s.Canonical) : (leaveIfStopped s h r).Canonical :=
  .ite (leaveCopy_canonical hs) hs

theorem kickCopy_keeps {a r} : Eff.Keeps (kickCopy a r) := by
  unfold kickCopy
  refine .get_bind fun _ _ => ?_
  refine .bind (.modify fun _ h => leaveIfStopped_canonical (holdRing_canonical h)) fun _ => ?_
  exact .bind kick_keeps fun _ => .bind modMe_keeps fun _ => .bind dstAll_keeps fun _ => .pure

theorem execCpyPk_canonical {s : State} {a b c nt tag} (h : s.Canonical) : Out.Canonical (execCpyPk a b c nt tag s) := by
  unfold execCpyPk
  refine runOnce_canonical ?_ h
  exact .bind group_keeps fun _ => .bind gr_keeps fun _ => .bind checkRec_keeps fun _ => .bind checkBase_keeps fun _ =>
    .get_bind fun _ _ => .get_bind fun _ _ => .guard (.bind recHandle_keeps fun _ => kickCopy_keeps)

theorem execCpyLand_canonical {s : State} {a b c nt tag} (h : s.Canonical) : Out.Canonical (execCpyLand a b c nt tag s) := by
  unfold execCpyLand
  refine runOnce_canonical ?_ h
  exact .bind group_keeps fun _ => .bind gr_keeps fun _ => .bind checkRec_keeps fun _ => .bind checkBase_keeps fun _ =>
    .bind checkCopyRing_keeps fun _ => .bind recHandle_keeps fun _ => kickCopy_keeps

theorem execCpyRec_canonical {s : State} {a b c nt tag} (h : s.Canonical) : Out.Canonical (execCpyRec a b c nt tag s) := by
  unfold execCpyRec
  refine runOnce_canonical ?_ h
  exact .bind group_keeps fun _ => .bind group_keeps fun _ => .bind checkRec_keeps fun _ => .bind checkRec_keeps fun _ =>
    .when illegalOperand_keeps fun _ => .bind checkBase_keeps fun _ => .bind checkBase_keeps fun _ =>
    .bind recHandle_keeps fun _ => .bind recHandle_keeps fun _ => kickCopy_keeps

theorem execCpyLoop_canonical {s : State} {a b c nt tag} (h : s.Canonical) : Out.Canonical (execCpyLoop a b c nt tag s) := by
  unfold execCpyLoop
  refine runOnce_canonical ?_ h
  exact .bind group_keeps fun _ => .bind group_keeps fun _ => .bind checkRec_keeps fun _ =>
    .when illegalOperand_keeps fun _ => .bind checkBase_keeps fun _ => .bind checkCopyRing_keeps fun _ =>
    .bind recHandle_keeps fun _ => kickCopy_keeps

theorem execCpycan_canonical {s : State} {a b} (h : s.Canonical) : Out.Canonical (execCpycan a b s) := by
  unfold execCpycan
  refine runOnce_canonical (.bind gr_keeps fun _ => .get_bind fun _ _ => .when illegalOperand_keeps fun _ => ?_) h
  split
  · exact .ite .throw (.bind dstAll_keeps fun _ => .pure)
  · exact .ite (.bind dstAll_keeps fun _ => .pure) (.bind (kickCancel_keeps (fun _ h2s => h2s)) fun _ => .throw)

theorem failCopy_canonical {s : State} {h r c} (hs : s.Canonical) : (failCopy s h r c).Canonical :=
  finishCopy_canonical (leaveCopy_canonical hs)

theorem execBargeForward_canonical {s : State} (h : s.Canonical) : Out.Canonical (execBargeForward s) := by
  unfold execBargeForward
  refine .ite (.next h) ?_
  split
  · exact .next h
  · refine .ite (.next (finishCopy_canonical (State.modEngine_canonical h))) ?_
    split
    · exact .next (.ite h (failCopy_canonical (State.modEngine_canonical h)))
    · refine .ite (.next h) ?_
      refine .ite (.next (failRequest_canonical (leaveCopy_canonical (State.modEngine_canonical h)))) ?_
      exact .ite (.next h) (.next (State.modEngine_canonical (State.modEngine_canonical h)))

theorem takeInHand_canonical {s : State} {h k c} (hs : s.Canonical) : SomeAll (·.2.2.Canonical) (takeInHand s h k c) := by
  unfold takeInHand
  dsimp only
  split
  · exact .some hs
  · split
    · exact .ite .none (.some (State.modEngine_canonical hs))
    · exact .none

theorem endSlot_canonical {s : State} {h k r status count} (hs : s.Canonical) : (endSlot s h k r status count).Canonical :=
  finishCopy_canonical (State.modEngine_canonical hs)

theorem bindStage_canonical {s : State} {r i} (h : s.Canonical) : (bindStage s r i).1.Canonical := by
  unfold bindStage
  dsimp only
  split <;> exact h

theorem fillStage_canonical {s : State} {r i} (h : s.Canonical) : (fillStage s r i).1.Canonical := by
  unfold fillStage
  split <;> exact h

theorem settleCopy_canonical {s : State} {h k r c count} (hs : s.Canonical) : (settleCopy s h k r c count).Canonical := by
  unfold settleCopy
  refine .ite (State.modEngine_canonical hs) ?_
  exact .ite (failCopy_canonical (State.modEngine_canonical (dropStores_canonical hs)))
    (endSlot_canonical (dropStores_canonical hs))

theorem moveSome_canonical {s : State} {h k r n} (hs : s.Canonical) : (moveSome s h k r n).1.Canonical :=
  ownStores_canonical (copyRun_canonical hs)

theorem afterCopy_canonical {h k n r1} {x : State × Option (Nat × Nat)} (hx : x.1.Canonical) :
    (afterCopy h k n r1 x).Canonical := by
  unfold afterCopy
  dsimp only
  split
  · exact .ite (.mk (noteStall_canonical hx)) (settleCopy_canonical (forgetStalls_canonical (leaveCopy_canonical hx)))
  · exact .ite (.mk hx) (settleCopy_canonical (fillStage_canonical hx))

theorem holdStage_canonical {s : State} {r} (h : s.Canonical) : (holdStage s r).1.Canonical := by
  unfold holdStage
  split
  · exact h
  · exact bindStage_canonical h

theorem runCopy_canonical {s : State} {h k r} (hs : s.Canonical) : (runCopy s h k r).Canonical := by
  unfold runCopy
  split
  · exact settleCopy_canonical hs
  · refine .ite (settleCopy_canonical (.ite (leaveCopy_canonical hs) hs)) ?_
    exact .ite (settleCopy_canonical (leaveCopy_canonical hs))
      (.ite hs (afterCopy_canonical (moveSome_canonical (holdStage_canonical hs))))

theorem execBargeCopy_canonical {s : State} (h : s.Canonical) : Out.Canonical (execBargeCopy s) := by
  unfold execBargeCopy
  refine .ite (.next h) ?_
  split
  · exact .next h
  · rename_i hr
    exact .ite (.next (runCopy_canonical (takeInHand_canonical h _ hr))) (.next h)

theorem afterIteration_canonical {h k n r1} {x : State × Option (Nat × Nat)} (hx : x.1.Canonical) :
    (afterIteration h k n r1 x).Canonical := by
  unfold afterIteration
  dsimp only
  split
  · exact .ite (.mk (noteStall_canonical hx)) (endSlot_canonical (forgetStalls_canonical (leaveCopy_canonical hx)))
  · exact .ite (.mk hx) (.ite (endSlot_canonical (fillStage_canonical hx)) (.mk (fillStage_canonical hx)))

theorem runIteration_canonical {s : State} {h k r} (hs : s.Canonical) : (runIteration s h k r).Canonical := by
  unfold runIteration
  refine .ite (endSlot_canonical (leaveCopy_canonical hs)) (.ite (endSlot_canonical (leaveCopy_canonical hs)) (.ite hs ?_))
  exact afterIteration_canonical (moveSome_canonical (holdStage_canonical hs))

theorem execLoopIteration_canonical {s : State} (h : s.Canonical) : Out.Canonical (execLoopIteration s) := by
  unfold execLoopIteration
  refine .ite (.next h) ?_
  split
  · exact .next h
  · rename_i hr
    exact .ite (.next (runIteration_canonical (takeInHand_canonical h _ hr))) (.next h)

theorem modMyEngine_keeps {f} : Eff.Keeps (modMyEngine f) := .modify fun _ h => State.modEngine_canonical h

theorem putGroup_keeps {a xs} : Eff.Keeps (putGroup a xs) := .forM (fun _ => result_keeps) _

theorem execBget_canonical {s : State} {a nw} (h : s.Canonical) : Out.Canonical (execBget a nw s) := by
  unfold execBget
  refine runHead_canonical (.bind group_keeps fun _ => .get_bind fun _ _ => ?_) h
  dsimp only
  split
  · exact .bind modMyEngine_keeps fun _ => .bind modMe_keeps fun _ => .bind putGroup_keeps fun _ => .pure
  · exact .ite (.bind putGroup_keeps fun _ => .pure) .throw

theorem hartFault_keeps : Eff.Keeps hartFault := .bind (.modify fun _ h => h) fun _ => .pure

theorem execBstreamMove_canonical {s : State} {a b c d} (h : s.Canonical) : Out.Canonical (execBstreamMove a b c d s) := by
  unfold execBstreamMove
  refine runHead_canonical (.bind gr_keeps fun _ => .bind gr_keeps fun _ => .bind gr_keeps fun _ => .get_bind fun u hu =>
    ?_) h
  split
  · exact illegalOperand_keeps
  · refine .ite writeNext_keeps (.ite writeNext_keeps (.ite .throw ?_))
    dsimp only
    split
    · refine .ite stallOn_keeps (.bind (.set ?_) fun _ => writeNext_keeps)
      exact forgetStalls_canonical (ownStores_canonical (copyRun_canonical hu))
    · exact .bind (.set (ownStores_canonical (copyRun_canonical hu))) fun _ => writeNext_keeps

theorem execBstreamOwner_canonical {s : State} {a} (h : s.Canonical) : Out.Canonical (execBstreamOwner a s) := by
  unfold execBstreamOwner
  refine runHead_canonical (.get_bind fun _ _ => ?_) h
  split
  · exact illegalOperand_keeps
  · split
    · exact writeNext_keeps
    · exact .ite .throw writeNext_keeps

theorem execBstreamFwd_canonical {s : State} {b} (h : s.Canonical) : Out.Canonical (execBstreamFwd b s) := by
  unfold execBstreamFwd
  refine runHead_canonical (.bind gr_keeps fun _ => .get_bind fun _ _ => ?_) h
  split
  · exact illegalOperand_keeps
  · refine .ite illegalOperand_keeps (.ite ?_ ?_)
    · exact .bind modMyEngine_keeps fun _ => .bind (.modify fun _ h =>
        failRequest_canonical (leaveCopy_canonical h)) fun _ => .pure
    · exact .ite .throw (.bind modMyEngine_keeps fun _ => .bind (.modify fun _ h => State.modEngine_canonical h) fun _ =>
        .pure)

theorem setMySlot_keeps {r} : Eff.Keeps (setMySlot r) := modMyEngine_keeps

theorem execBlandWait_canonical {s : State} {a b} (h : s.Canonical) : Out.Canonical (execBlandWait a b s) := by
  unfold execBlandWait
  refine runHead_canonical (.bind gr_keeps fun _ => .get_bind fun u hu => ?_) h
  split
  · exact hartFault_keeps
  · refine .ite writeNext_keeps (.ite writeNext_keeps ?_)
    split
    · exact hartFault_keeps
    · refine .ite (.bind (.modify fun _ h => h) fun _ => .bind modMyEngine_keeps fun _ =>
        writeNext_keeps) (.ite ?_ writeNext_keeps)
      exact .bind (.set (bindStage_canonical hu)) fun _ => .bind setMySlot_keeps fun _ => writeNext_keeps

theorem execBlandFill_canonical {s : State} {b} (h : s.Canonical) : Out.Canonical (execBlandFill b s) := by
  unfold execBlandFill
  refine runHead_canonical (.bind gr_keeps fun _ => .get_bind fun u hu => ?_) h
  split
  · exact hartFault_keeps
  · split
    · exact hartFault_keeps
    · exact .ite hartFault_keeps (.bind (.set (fillStage_canonical hu)) fun _ => .bind setMySlot_keeps fun _ => .pure)

theorem execBlandDone_canonical {s : State} {b c} (h : s.Canonical) : Out.Canonical (execBlandDone b c s) := by
  unfold execBlandDone
  refine runHead_canonical (.bind gr_keeps fun _ => .bind gr_keeps fun _ => .get_bind fun _ hu => ?_) h
  split
  · exact hartFault_keeps
  · exact .guard (.bind (.set (endSlot_canonical (leaveCopy_canonical (dropStores_canonical hu)))) fun _ => .pure)

/-! ### The functions of Machine/Pontoon -/

theorem checkEngineVa_keeps {va al} : Eff.Keeps (checkEngineVa va al) := .get_bind fun _ _ => .guard (.ite .throw .pure)

theorem checkRing_keeps {r ok} : Eff.Keeps (checkRing r ok) := .get_bind fun _ _ => .ite .throw .pure

theorem execPjob_canonical {s : State} {a b} (h : s.Canonical) : Out.Canonical (execPjob a b s) := by
  unfold execPjob
  refine runOnce_canonical ?_ h
  exact .get_bind fun _ _ => .guard (.when checkEngineVa_keeps fun _ => .when checkEngineVa_keeps fun _ =>
    .guard (.ite (.bind .pure fun _ => .when checkRing_keeps fun _ => .when checkRing_keeps fun _ =>
    .when checkRing_keeps fun _ => .bind kick_keeps fun _ => .bind modMe_keeps fun _ => .bind advanceCtr_keeps fun _ =>
    .bind dstAll_keeps fun _ => .pure) (.guard (.bind takeHandle_keeps fun _ => .when checkRing_keeps fun _ =>
    .when checkRing_keeps fun _ => .when checkRing_keeps fun _ => .bind kick_keeps fun _ => .bind modMe_keeps fun _ =>
    .bind advanceCtr_keeps fun _ => .bind dstAll_keeps fun _ => .pure))))

theorem execPpoll_canonical {s : State} {a b} (h : s.Canonical) : Out.Canonical (execPpoll a b s) :=
  runHead_canonical (.bind gr_keeps fun _ => .get_bind fun _ _ => .when illegalOperand_keeps fun _ => writeNext_keeps) h

theorem waitGone_keeps {a out first again} (hfirst : first.Keeps) : Eff.Keeps (waitGone a out first again) := by
  unfold waitGone
  refine .get_bind fun _ _ => ?_
  split
  · exact .ite .throw (.bind modMe_keeps fun _ => writeNext_keeps)
  · refine .ite (.bind modMe_keeps fun _ => writeNext_keeps) (.ite .throw (.bind hfirst fun _ => ?_))
    exact .bind modMe_keeps fun _ => .get_bind fun _ _ => .ite (.bind modMe_keeps fun _ => writeNext_keeps) .throw

theorem execPwait_canonical {s : State} {a b} (h : s.Canonical) : Out.Canonical (execPwait a b s) :=
  runHead_canonical (.bind gr_keeps fun _ => .when illegalOperand_keeps fun _ => .get_bind fun _ _ => waitGone_keeps .pure) h

theorem leaveBlock_canonical {s : State} {gc o n} (h : s.Canonical) : (leaveBlock s gc o n).Canonical :=
  performAt_canonical h

theorem leaveRows_canonical {s : State} {gc j} (h : s.Canonical) : (leaveRows s gc j).Canonical :=
  .ite h (.foldl (fun _ _ ht => .ite (leaveBlock_canonical ht) ht) h)

theorem endJob_canonical {s : State} {gc j status} (h : s.Canonical) : (endJob s gc j status).Canonical :=
  post_canonical (releaseHolds_canonical (.ite h (leaveRows_canonical h)))

theorem flushCancelled_canonical {s : State} {gc n} (h : s.Canonical) : (flushCancelled gc n s).Canonical := by
  induction n generalizing s with
  | zero => exact h
  | succ n ih =>
    unfold flushCancelled
    refine .ite h ?_
    split
    · exact h
    · exact .ite (ih (endJob_canonical (State.modEngine_canonical h))) h

theorem afterJob_canonical {s : State} {gc} (h : s.Canonical) : (afterJob gc s).Canonical := flushCancelled_canonical h

theorem cancelJob_canonical {s : State} {g rid} (h : s.Canonical) : (cancelJob g rid s).Canonical :=
  afterJob_canonical (.mk (.mk h))

theorem execPcan_canonical {s : State} {a b} (h : s.Canonical) : Out.Canonical (execPcan a b s) := by
  unfold execPcan
  refine runHead_canonical ?_ h
  exact .bind gr_keeps fun _ => .when illegalOperand_keeps fun _ => .get_bind fun _ _ =>
    waitGone_keeps (kickCancel_keeps (fun _ h5s => cancelJob_canonical h5s))

theorem execJobStart_canonical {s : State} (h : s.Canonical) : Out.Canonical (execJobStart s) := by
  unfold execJobStart
  refine .ite (.next h) ?_
  split
  · exact .next h
  · exact .ite (.next h) (.next (.mk (.mk (.mk h))))

theorem pontoonRead_canonical {s : State} {gc r va n} (h : s.Canonical) : OkAll (·.1.Canonical) (pontoonRead s gc r va n) :=
  engReadElems_canonical h

theorem readFault_canonical {s : State} {gc j c} (h : s.Canonical) : (readFault s gc j c).Canonical :=
  .ite (noteStall_canonical h) (forgetStalls_canonical h)

/-- The state behind the reading of a source has a canonical memory. -/
def Fetched.Canonical : Fetched → Prop
  | .data s _ | .some s _ => s.Canonical
  | .wait | .fault _ | .tag => True

theorem Fetched.Canonical.ite {c : Prop} [Decidable c] {x y : Fetched} (hx : x.Canonical) (hy : y.Canonical) :
    (if c then x else y).Canonical := by
  split
  · exact hx
  · exact hy

theorem Fetched.Canonical.of_eq {x y : Fetched} (e : x = y) (hx : x.Canonical) : y.Canonical := e ▸ hx

theorem fetchSome_canonical {s : State} {gc r va len k before} (h : s.Canonical) :
    (fetchSome s gc r va len k before).Canonical := by
  unfold fetchSome
  dsimp only
  split
  · trivial
  · rename_i hr
    have ht := pontoonRead_canonical h _ hr
    exact .ite ht ht

theorem acquireStage_canonical {s : State} {gc n t len} (h : s.Canonical) : (acquireStage s gc n t len).Canonical :=
  .ite trivial (.ite trivial h)

theorem execTileLoad_canonical {s : State} (h : s.Canonical) : Out.Canonical (execTileLoad s) := by
  unfold execTileLoad
  dsimp only
  split
  · exact .next h
  · refine .ite (.next h) ?_
    split
    · exact .next h
    · exact .next h
    · exact .next (readFault_canonical h)
    · rename_i hr
      have hc := Fetched.Canonical.of_eq hr (.ite (acquireStage_canonical h) (fetchSome_canonical h))
      exact .next (.mk hc)
    · rename_i s' _ hr
      have hc := Fetched.Canonical.of_eq hr (.ite (acquireStage_canonical h) (fetchSome_canonical h))
      exact .ite (.next (.mk (.ite (.mk hc) hc))) (.next (.mk (.ite (.mk hc) hc)))

theorem jobScales_canonical {s : State} {gc r u} (h : s.Canonical) : OkAll (·.1.Canonical) (jobScales s gc r u) := by
  unfold jobScales
  refine .ite (.ok h) ?_
  split
  · exact .error
  · rename_i hr
    exact .ok (engReadElems_canonical h _ hr)

theorem promoteJob_canonical {old s : State} {gc j} (hold : old.Canonical) (hs : s.Canonical) :
    (promoteJob old s gc j).Canonical := by
  unfold promoteJob
  refine .ite hs ?_
  dsimp only
  split
  · exact .ite (noteStall_canonical hold) (readFault_canonical hs)
  · rename_i hr
    exact (jobScales_canonical hs _ hr :)

theorem execTileStream_canonical {s : State} (h : s.Canonical) : Out.Canonical (execTileStream s) := by
  unfold execTileStream
  dsimp only
  split
  · exact .next h
  · split
    · exact .next h
    · refine .ite (.next h) ?_
      split
      · exact .next h
      · exact .next h
      · exact .next (readFault_canonical h)
      · rename_i hr
        have hc := Fetched.Canonical.of_eq hr (.ite (acquireStage_canonical h) (fetchSome_canonical h))
        exact .next (.mk hc)
      · rename_i hr
        have hc := Fetched.Canonical.of_eq hr (.ite (acquireStage_canonical h) (fetchSome_canonical h))
        exact .next (promoteJob_canonical h (.ite (.mk (.mk hc)) (.mk hc)))

theorem startHandler_canonical {s : State} {g gc b r a id hent harg land tow} (h : s.Canonical) :
    (startHandler s g gc b r a id hent harg land tow).Canonical := by
  unfold startHandler
  split
  · exact h
  · rename_i q _
    have h1 (p : Proc) (f : Pontoon → Pontoon) : ((s.setProc q p).modPontoon gc f).Canonical := .mk (.mk h)
    dsimp only
    split
    · rename_i hr
      exact (checkTarget_canonical (h1 _ _) _ hr :)
    · exact takeTrap_canonical (h1 _ _)

theorem bindRow_canonical {s : State} {gc oen n b} (h : s.Canonical) : SomeAll (·.1.Canonical) (bindRow s gc oen n b) :=
  .ite (.some h) (.ite (.some h) .none)

theorem dispatchJobRow_canonical {s : State} {gc j} (h : s.Canonical) : (dispatchJobRow s gc j).Canonical := by
  unfold dispatchJobRow
  refine .ite h ?_
  split
  · exact h
  · split
    · exact h
    · rename_i hr
      exact startHandler_canonical (bindRow_canonical h _ hr)

theorem prowgo_keeps {tag needLand} (htag : tag.Keeps) : Eff.Keeps (prowgo tag needLand) := by
  unfold prowgo
  refine .get_bind fun _ _ => ?_
  split
  · exact .throw
  · refine .guard ?_
    exact .when illegalOperand_keeps fun _ => .bind htag fun _ => .bind (.modify fun _ h =>
      releaseRow_canonical h) fun _ => .pure

theorem execJobComplete_canonical {s : State} (h : s.Canonical) : Out.Canonical (execJobComplete s) := by
  unfold execJobComplete
  dsimp only
  split
  · exact .ite (.next (endJob_canonical h)) (.next h)
  · exact .ite (.next (afterJob_canonical (endJob_canonical h))) (.next h)
  · exact .next h

theorem execJobFailure_canonical {s : State} (h : s.Canonical) : Out.Canonical (execJobFailure s) := by
  unfold execJobFailure
  dsimp only
  split
  · split
    · exact .next h
    · exact .ite (.next h) (.next (afterJob_canonical (endJob_canonical h)))
  · exact .next h

theorem raiseDrift_canonical {s : State} {gc code} (h : s.Canonical) : (raiseDrift s gc code).Canonical := by
  unfold raiseDrift
  split <;> exact h

theorem driftMove_canonical {s : State} {gc} (h : s.Canonical) : (driftMove s gc).Canonical :=
  .ite h (.ite h (.ite (.ite (raiseDrift_canonical h) h) h))

theorem execJobPark_canonical {s : State} (h : s.Canonical) : Out.Canonical (execJobPark s) := by
  unfold execJobPark
  dsimp only
  split
  · exact .next h
  · exact .ite (.next h) (.ite (.next h) (.ite (.next (raiseDrift_canonical h)) (.next h)))

theorem ringAddr_keeps {b} : Eff.Keeps (ringAddr b) := .bind gr_keeps fun _ => .when illegalOperand_keeps fun _ => .pure

theorem heatTo_keeps {a gc x v} : Eff.Keeps (heatTo a gc x v) := .bind (.modify fun _ h => h) fun _ => writeNext_keeps

theorem execPheatSet_canonical {s : State} {a b} (h : s.Canonical) : Out.Canonical (execPheatSet a b s) := by
  unfold execPheatSet
  refine runHead_canonical ?_ h
  exact .bind ringAddr_keeps fun _ => .bind gr_keeps fun _ => .get_bind fun _ _ =>
    .ite writeNext_keeps (.ite illegalOperand_keeps heatTo_keeps)

theorem execPheatAdd_canonical {s : State} {a b} (h : s.Canonical) : Out.Canonical (execPheatAdd a b s) := by
  unfold execPheatAdd
  refine runHead_canonical ?_ h
  exact .bind ringAddr_keeps fun _ => .bind gr_keeps fun _ => .get_bind fun _ _ => .ite writeNext_keeps heatTo_keeps

theorem settleEnd_canonical {s : State} {gc go} (h : s.Canonical) : (settleEnd s gc go).1.Canonical := by
  unfold settleEnd
  dsimp only
  split
  · exact .ite h h
  · split
    · exact .ite h h
    · split <;> exact .ite h h

theorem execPsettle_canonical {s : State} {a b go t} (h : s.Canonical) : Out.Canonical (execPsettle a b go t s) := by
  unfold execPsettle
  refine runHead_canonical (.bind gr_keeps fun _ => .get_bind fun u hu => .when illegalOperand_keeps fun _ => ?_) h
  dsimp only
  split
  · exact .bind (.set (settleEnd_canonical hu)) fun _ => writeNext_keeps
  · split
    · exact .ite .throw .throw
    · exact .throw

theorem execSettleTimeout_canonical {s : State} (h : s.Canonical) : Out.Canonical (execSettleTimeout s) := by
  unfold execSettleTimeout
  dsimp only
  split
  · rename_i hr _
    exact .ite (execPsettle_canonical (currentInstr_canonical h _ hr)) (.next h)
  · exact .next h

theorem endCal_canonical {s : State} {gc} (h : s.Canonical) : (endCal s gc).Canonical := by
  unfold endCal
  split
  · exact h
  · exact .ite h h

theorem pcal_keeps {a full} : Eff.Keeps (pcal a full) := by
  unfold pcal
  refine .get_bind fun _ _ => ?_
  dsimp only
  split
  · refine .when (.modify fun _ h => endCal_canonical h) fun _ => .get_bind fun _ _ => ?_
    split
    · exact .ite (.bind (.modify fun _ h => h) fun _ => writeNext_keeps) .throw
    · exact .throw
  · exact .ite writeNext_keeps (.bind (.modify fun _ h => h) fun _ => .throw)

theorem execPmapSwap_canonical {s : State} {a b} (h : s.Canonical) : Out.Canonical (execPmapSwap a b s) := by
  unfold execPmapSwap
  refine runHead_canonical ?_ h
  exact .bind ringAddr_keeps fun _ => .get_bind fun _ _ => .when illegalOperand_keeps fun _ =>
    .ite writeNext_keeps (.bind (.modify fun _ h => h) fun _ => writeNext_keeps)

theorem execPmapIdent_canonical {s : State} {a b} (h : s.Canonical) : Out.Canonical (execPmapIdent a b s) := by
  unfold execPmapIdent
  refine runHead_canonical (.bind ringAddr_keeps fun _ => .get_bind fun u hu => .when illegalOperand_keeps fun _ => ?_) h
  refine .ite writeNext_keeps ?_
  split
  exact .bind (.modify fun _ h => h) fun _ => writeNext_keeps

theorem paccRd_keeps {a b f} : Eff.Keeps (paccRd a b f) := by
  unfold paccRd
  refine .bind gr_keeps fun _ => .get_bind fun _ _ => .when illegalOperand_keeps fun _ => ?_
  split
  · exact .ite writeNext_keeps writeNext_keeps
  · exact writeNext_keeps

theorem pushEfault_canonical {s : State} {cls idx cause epc} (h : s.Canonical) : (pushEfault s cls idx cause epc).Canonical :=
  .ite h h

theorem execSequencerRetune_canonical {s : State} (h : s.Canonical) : Out.Canonical (execSequencerRetune s) :=
  .ite (.next h) (.ite (.next h) (.ite (.next (settleEnd_canonical h)) (.ite (.next (pushEfault_canonical h)) (.next h))))

/-! ### The functions of Machine/Ford -/

theorem takeFord_canonical {s : State} {a r} (h : s.Canonical) : (takeFord s a r).1.Canonical := by
  unfold takeFord
  dsimp only
  split
  · exact h
  · rename_i hr
    exact (engReadElems_canonical h _ hr :)

theorem loadFord_canonical {s : State} {a j} (h : s.Canonical) : (loadFord s a j).1.Canonical := by
  unfold loadFord
  dsimp only
  split
  · exact h
  · split
    · exact h
    · split
      · exact h
      · rename_i hr
        have ht := engReadElems_canonical h _ hr
        split
        · exact ht
        · split
          · exact ht
          · rename_i hr
            exact (engReadElems_canonical ht _ hr :)

theorem popFord_canonical {s : State} {a} (h : s.Canonical) : SomeAll (·.2.Canonical) (popFord s a) := by
  unfold popFord
  split
  · exact .some (State.modEngine_canonical h)
  · exact .none

theorem takeAndLoad_canonical {s : State} {a r} (h : s.Canonical) : (takeAndLoad s a r).1.Canonical := by
  unfold takeAndLoad
  dsimp only
  split
  · exact takeFord_canonical h
  · exact loadFord_canonical (takeFord_canonical h)

theorem execFordRequestTake_canonical {s : State} (h : s.Canonical) : Out.Canonical (execFordRequestTake s) := by
  unfold execFordRequestTake
  refine .ite (.next h) ?_
  split
  · exact .next h
  · rename_i hr
    have ht := popFord_canonical h _ hr
    dsimp only
    split
    · exact .next (noteStall_canonical h)
    · exact .next (takeAndLoad_canonical ht)

theorem padFrames_canonical {s : State} {j k} (h : s.Canonical) : (padFrames s j k).1.Canonical := by
  unfold padFrames
  dsimp only
  split
  · split
    · exact h
    · split <;> exact h
  · split
    · exact h
    · split <;> exact h

theorem execFordFrame_canonical {s : State} (h : s.Canonical) : Out.Canonical (execFordFrame s) := by
  unfold execFordFrame
  dsimp only
  split
  · exact .next h
  · exact .ite (.next h) (.ite (.next (.mk h)) (.next (.mk (padFrames_canonical h))))

theorem writeFord_canonical {s : State} {a j} (h : s.Canonical) : OkAll (·.1.Canonical) (writeFord s a j) := by
  unfold writeFord
  dsimp only
  split
  · exact .error
  · rename_i hr
    have ht := engWriteElems_canonical h _ hr
    refine .ite (.ok ht) ?_
    split
    · exact .error
    · rename_i hr
      exact .ok (engWriteElems_canonical ht _ hr)

theorem leaveElems_canonical {s : State} {q r va w n keep} (h : s.Canonical) : (leaveElems s q r va w n keep).Canonical :=
  .foldl (fun _ _ ht => .ite (.foldl (fun _ _ ht => leaveBytes_canonical ht) ht) (leaveBytes_canonical ht)) h

theorem leaveFord_canonical {s : State} {a j} (h : s.Canonical) : (leaveFord s a j).Canonical :=
  .ite h (.ite (leaveElems_canonical (leaveElems_canonical h)) (leaveElems_canonical h))

theorem endFord_canonical {s : State} {a j status} (h : s.Canonical) : (endFord s a j status).Canonical := post_canonical h

theorem settleFord_canonical {s : State} {a j} (h : s.Canonical) : (settleFord s a j).1.Canonical := by
  unfold settleFord
  dsimp only
  split
  · exact h
  · split
    · exact endFord_canonical (leaveFord_canonical (dropStores_canonical h))
    · exact endFord_canonical (dropStores_canonical h)

theorem finishFord_canonical {s : State} {a j status} (h : s.Canonical) : (finishFord s a j status).1.Canonical := by
  unfold finishFord
  dsimp only
  split
  · exact endFord_canonical h
  · split
    · split
      · exact endFord_canonical (leaveFord_canonical h)
      · split
        · exact settleFord_canonical h
        · split
          · split
            · exact noteStall_canonical h
            · exact endFord_canonical (leaveFord_canonical (forgetStalls_canonical h))
          · rename_i hr
            exact settleFord_canonical (ownStores_canonical (writeFord_canonical h _ hr))
    · exact endFord_canonical (leaveFord_canonical h)

theorem execFordComplete_canonical {s : State} (h : s.Canonical) : Out.Canonical (execFordComplete s) := by
  unfold execFordComplete
  dsimp only
  split
  · exact .next h
  · refine .ite (.next h) ?_
    split
    · exact .next (finishFord_canonical h)
    · exact .ite (.next (finishFord_canonical h)) (.next h)

theorem postReform_canonical {s : State} {ids tick} (h : s.Canonical) : (postReform s ids tick).Canonical :=
  .foldl (fun _ _ ht => .ite ht ht) h

theorem reformAll_canonical {s : State} (h : s.Canonical) : (reformAll s).Canonical :=
  .foldl (fun _ _ ht => postReform_canonical ht) h

theorem reformQueued_canonical {s : State} {a r} (h : s.Canonical) : (reformQueued s a r).Canonical := post_canonical h

theorem applyReform_canonical {s : State} {a} (h : s.Canonical) : (applyReform s a).Canonical := by
  unfold applyReform
  refine .mk (.mk (State.modEngine_canonical (.foldl (fun _ _ ht => ?_) ?_)))
  · exact reformQueued_canonical ht
  · split
    · exact h
    · exact .ite h h

theorem execFordReformApply_canonical {s : State} (h : s.Canonical) : Out.Canonical (execFordReformApply s) := by
  unfold execFordReformApply
  dsimp only
  split
  · exact .next h
  · exact .ite (.next h) (.next (applyReform_canonical h))

theorem execFordFallbackCollective_canonical {s : State} (h : s.Canonical) :
    Out.Canonical (execFordFallbackCollective s) := by
  unfold execFordFallbackCollective
  dsimp only
  split
  · exact .next h
  · exact .ite (.next h) (.next h)

theorem execFordFallbackTimeout_canonical {s : State} (h : s.Canonical) : Out.Canonical (execFordFallbackTimeout s) := by
  unfold execFordFallbackTimeout
  dsimp only
  split
  · exact .next h
  · exact .ite (.next h) (.ite (.next h) (.next h))

theorem grantedAtt_keeps {a} : Eff.Keeps (grantedAtt a) := .get_bind fun _ _ => .ite (.ite .throw .pure) (.ite .throw .pure)

theorem execFenrol_canonical {s : State} {a b att nent} (h : s.Canonical) : Out.Canonical (execFenrol a b att nent s) := by
  unfold execFenrol
  refine runHead_canonical ?_ h
  exact .bind gr_keeps fun _ => .when illegalOperand_keeps fun _ => .bind grantedAtt_keeps fun _ =>
    .guard (.guard (.get_bind fun _ _ =>
    .ite writeNext_keeps (.ite writeNext_keeps (.ite writeNext_keeps (.ite writeNext_keeps (.bind (.modify fun _ h =>
    h) fun _ => writeNext_keeps))))))

theorem execFleave_canonical {s : State} {a att} (h : s.Canonical) : Out.Canonical (execFleave a att s) := by
  unfold execFleave
  refine runHead_canonical (.bind grantedAtt_keeps fun _ => .get_bind fun _ _ => .ite writeNext_keeps ?_) h
  refine .ite ?_ (.bind (.modify fun _ h => h) fun _ => writeNext_keeps)
  split <;> exact .throw

theorem kickFord_keeps {op a b c rm ent att} : Eff.Keeps (kickFord op a b c rm ent att) := by
  unfold kickFord
  refine .bind group_keeps fun _ => .bind gr_keeps fun _ => .bind grantedAtt_keeps fun _ => ?_
  refine .get_bind fun _ _ => .guard (.guard ?_)
  exact .bind kick_keeps fun _ => .bind modMe_keeps fun _ => .bind advanceCtr_keeps fun _ => .bind dstAll_keeps fun _ => .pure

theorem execFalign_canonical {s : State} {a att t} (h : s.Canonical) : Out.Canonical (execFalign a att t s) := by
  unfold execFalign
  refine runHead_canonical (.when illegalOperand_keeps fun _ => .bind grantedAtt_keeps fun _ => ?_) h
  refine .get_bind fun _ _ => ?_
  split
  · split
    · exact .bind (.modify fun _ h => h) fun _ => writeNext_keeps
    · exact .ite (.bind (.modify fun _ h => h) fun _ => writeNext_keeps) .throw
  · split
    · exact writeNext_keeps
    · exact .bind (.modify fun _ h => h) fun _ => .throw

theorem execFstat_canonical {s : State} {a att sel} (h : s.Canonical) : Out.Canonical (execFstat a att sel s) := by
  unfold execFstat
  refine runHead_canonical ?_ h
  exact .when illegalOperand_keeps fun _ => .bind grantedAtt_keeps fun _ => .get_bind fun _ _ => writeNext_keeps

theorem withHand_keeps {f} (hf : ∀ j, Eff.Keeps (f j)) : Eff.Keeps (withHand f) := by
  unfold withHand
  refine .get_bind fun _ _ => ?_
  split
  · exact hartFault_keeps
  · exact hf _

theorem execFemitTake_canonical {s : State} {a} (h : s.Canonical) : Out.Canonical (execFemitTake a s) := by
  unfold execFemitTake
  refine runHead_canonical (.get_bind fun u hu => ?_) h
  dsimp only
  split
  · exact .throw
  · rename_i hr
    have h1 := popFord_canonical hu _ hr
    split
    · exact stallOn_keeps
    · exact .bind (.set (.mk (takeFord_canonical h1))) fun _ => .bind modMe_keeps fun _ => writeNext_keeps

theorem execFemitLoad_canonical {s : State} {a b} (h : s.Canonical) : Out.Canonical (execFemitLoad a b s) := by
  unfold execFemitLoad
  refine runHead_canonical (withHand_keeps fun j => .bind gr_keeps fun _ => .get_bind fun u hu => ?_) h
  refine .ite ?_ (.ite (.bind (.set (.mk hu)) fun _ => writeNext_keeps) illegalOperand_keeps)
  dsimp only
  split
  · exact stallOn_keeps
  · exact .bind (.set (.mk (loadFord_canonical hu))) fun _ => writeNext_keeps

theorem execFemitFrame_canonical {s : State} {a b} (h : s.Canonical) : Out.Canonical (execFemitFrame a b s) := by
  unfold execFemitFrame
  refine runHead_canonical (withHand_keeps fun j => .bind gr_keeps fun _ => .get_bind fun _ _ => ?_) h
  dsimp only
  split
  · exact .ite .throw writeNext_keeps
  · refine .ite illegalOperand_keeps (.ite writeNext_keeps (.ite writeNext_keeps (.ite ?_ ?_)))
    · exact .bind (.modify fun _ h => h) fun _ => writeNext_keeps
    · exact .bind (.modify fun _ h => h) fun _ => .throw

theorem execFemitDone_canonical {s : State} {a b} (h : s.Canonical) : Out.Canonical (execFemitDone a b s) := by
  unfold execFemitDone
  refine runHead_canonical (withHand_keeps fun j => .bind gr_keeps fun _ => .get_bind fun u hu => ?_) h
  have h1 (status) := finishFord_canonical (a := myAtt u) (j := j) (status := status) hu
  split
  · rename_i hr
    exact .bind (.set ((h1 _).of_fst hr)) fun _ => writeNext_keeps
  · rename_i hr
    exact .bind (.set ((h1 _).of_fst hr)) fun _ => .throw

theorem execFcountRd_canonical {s : State} {a b c} (h : s.Canonical) : Out.Canonical (execFcountRd a b c s) :=
  runHead_canonical (withHand_keeps fun _ => .bind gr_keeps fun _ => .bind gr_keeps fun _ => writeNext_keeps) h

theorem execFcountEl_canonical {s : State} {a b} (h : s.Canonical) : Out.Canonical (execFcountEl a b s) :=
  runHead_canonical (withHand_keeps fun _ => .bind gr_keeps fun _ => writeNext_keeps) h

theorem execFcountEx_canonical {s : State} {a b} (h : s.Canonical) : Out.Canonical (execFcountEx a b s) :=
  runHead_canonical (withHand_keeps fun _ => .bind gr_keeps fun _ => writeNext_keeps) h

/-! ### The functions of Machine/Tow -/

theorem towLine_canonical {s : State} {gc vf va} (h : s.Canonical) : OkAll (·.1.Canonical) (towLine s gc vf va) := by
  unfold towLine
  refine .ite .error ?_
  split
  · exact .error
  · rename_i hr
    have ht := translate_canonical h _ hr
    refine .ite .error ?_
    split
    · exact .ok ht
    · exact .ok ht
    · split
      · exact .error
      · split
        · rename_i hm
          exact .ok (.mk ((serveMem_canonical ht).of_snd hm))
        · exact .error
      · exact .ite .error (.ok (.mk ht))
    · exact .error

theorem towLines_canonical {s : State} {gc vf va n} (h : s.Canonical) : OkAll (·.1.Canonical) (towLines s gc vf va n) := by
  induction n generalizing s va with
  | zero => exact .ok h
  | succ n ih =>
    unfold towLines
    split
    · exact .error
    · rename_i hr
      split
      · exact .error
      · rename_i hr'
        exact .ok (ih (towLine_canonical h _ hr) _ hr' :)

theorem execTowEnter_canonical {s : State} {a b c} (h : s.Canonical) : Out.Canonical (execTowEnter a b c s) := by
  unfold execTowEnter
  refine runOnce_canonical (.bind gr_keeps fun _ => .get_bind fun _ _ => .guard (.guard (.guard (.ite ?_ ?_)))) h
  · refine .bind .pure fun _ => .get_bind fun _ hu1 => ?_
    dsimp only
    split
    · exact .throw_bind
    · rename_i hr
      have ht := translate_canonical hu1 _ hr
      refine .bind (.set ht) fun _ => .when checkRing_keeps fun _ => ?_
      exact .bind kick_keeps fun _ => .bind modMe_keeps fun _ => .bind advanceCtr_keeps fun _ =>
        .bind dstAll_keeps fun _ => .pure
  · refine .bind check_keeps fun _ => .bind readLoc_keeps fun _ => .bind .pure fun _ => .get_bind fun _ hu1 => ?_
    dsimp only
    split
    · exact .throw_bind
    · rename_i hr
      have ht := translate_canonical hu1 _ hr
      refine .bind (.set ht) fun _ => .when checkRing_keeps fun _ => ?_
      exact .bind kick_keeps fun _ => .bind modMe_keeps fun _ => .bind advanceCtr_keeps fun _ =>
        .bind dstAll_keeps fun _ => .pure

theorem writeRestart_canonical {s : State} {gc w status} (h : s.Canonical) :
    OkAll (·.1.Canonical) (writeRestart s gc w status) := by
  unfold writeRestart
  dsimp only
  split
  · exact .error
  · rename_i hr
    exact .ok (ownStores_canonical (engWriteElems_canonical h _ hr))

theorem refuseTow_canonical {s : State} {gc r status} (h : s.Canonical) : (refuseTow s gc r status).Canonical :=
  post_canonical h

theorem regainRows_canonical {s : State} {gc w} (h : s.Canonical) : (regainRows s gc w).Canonical :=
  .foldl (fun _ _ ht => .ite (performAt_canonical ht) ht) h

theorem takeResume_canonical {s : State} {gc r} (h : s.Canonical) : (takeResume s gc r).Canonical := by
  unfold takeResume
  split
  · exact .ite (regainRows_canonical h) (refuseTow_canonical h)
  · exact refuseTow_canonical h

theorem execTowSessionStart_canonical {s : State} (h : s.Canonical) : Out.Canonical (execTowSessionStart s) := by
  unfold execTowSessionStart
  refine .ite (.next h) ?_
  dsimp only
  split
  · exact .next h
  · rename_i r _
    have h1 : ((s.modEngine (seqHart s.inp.a) fun e =>
      { e with queue := e.queue.erase r }).modProc (hartQOf (seqHart s.inp.a))
        fun p => { p with vf := r.vf }).Canonical := .mk (.mk h)
    exact .ite (.next (refuseTow_canonical h1)) (.ite (.next (takeResume_canonical h1)) (.next (.mk h1)))

theorem readBlock_canonical {s : State} {gc w} (h : s.Canonical) : (readBlock s gc w).1.Canonical := by
  unfold readBlock
  split
  · exact h
  · rename_i hr
    have h1 := towLines_canonical h _ hr
    dsimp only
    split
    · exact h1
    · rename_i hr'
      have h2 := towLines_canonical h1 _ hr'
      split
      · exact h2
      · split
        · exact h2
        · split
          · exact h2
          · exact h2

/-- The state behind a block step has a canonical memory. -/
def Act.Canonical : Act → Prop
  | .done t _ => t.Canonical
  | .wait | .stop _ | .hart => True

theorem Act.Canonical.ite {c : Prop} [Decidable c] {x y : Act} (hx : x.Canonical) (hy : y.Canonical) :
    (if c then x else y).Canonical := by
  split
  · exact hx
  · exact hy

theorem finishAct_canonical {s : State} {gc w} {x : Act} (h : s.Canonical) (hx : x.Canonical) :
    Out.Canonical (finishAct s gc w x) := by
  unfold finishAct
  split
  · exact .next (.mk hx)
  · exact .next h
  · exact .ite (.next (noteStall_canonical h)) (.next (forgetStalls_canonical h))
  · exact .next h

theorem towStep_canonical {s : State} {op act} (hact : ∀ t gc w h b, State.Canonical t → (act t gc w h b).Canonical)
    (h : s.Canonical) :
    Out.Canonical (towStep op act s) := by
  unfold towStep
  dsimp only
  split
  · exact .next h
  · refine .ite (.next h) ?_
    have h1 := readBlock_canonical (gc := s.inp.a) (w := ‹Tow›) h
    split
    · exact .ite (finishAct_canonical h trivial) (.ite (.next (.mk h1)) (.next h))
    · exact .ite (.next h) (finishAct_canonical h1 (hact _ _ _ _ _ h1))

theorem execTowReservedBlock_canonical {s : State} (h : s.Canonical) : Out.Canonical (execTowReservedBlock s) :=
  towStep_canonical (fun _ _ _ _ _ _ => trivial) h

theorem blockStep_canonical {s : State} {op act} (hact : ∀ t gc w h b, State.Canonical t → (act t gc w h b).Canonical)
    (h : s.Canonical) :
    Out.Canonical (blockStep op act s) := by
  unfold blockStep
  split
  · exact .next h
  · exact .ite (.ite (finishAct_canonical h (hact _ _ _ _ _ h)) (.next h)) (towStep_canonical hact h)

theorem wtileAct_canonical {s : State} {gc w h b} (hs : s.Canonical) : (wtileAct s gc w h b).Canonical := by
  unfold wtileAct
  refine .ite (.ite hs ?_) ?_
  · split
    · trivial
    · exact hs
  · split
    · trivial
    · exact hs

theorem execTowWtile_canonical {s : State} (h : s.Canonical) : Out.Canonical (execTowWtile s) :=
  blockStep_canonical (fun _ _ _ _ _ => wtileAct_canonical) h

theorem runSource_canonical {s : State} {gc w h b} (hs : s.Canonical) : (runSource s gc w h b).Canonical :=
  .ite (acquireStage_canonical hs) (.ite hs (fetchSome_canonical hs))

theorem runAct_canonical {s : State} {gc w h b} (hs : s.Canonical) : (runAct s gc w h b).Canonical := by
  unfold runAct
  split
  · trivial
  · trivial
  · trivial
  · rename_i hr
    exact (Fetched.Canonical.of_eq hr (runSource_canonical hs) :)
  · rename_i hr
    have h1 : State.Canonical _ := Fetched.Canonical.of_eq hr (runSource_canonical hs)
    exact .ite (.mk h1) (State.Canonical.ite (.mk (.mk h1)) (.mk h1))

theorem execTowRun_canonical {s : State} (h : s.Canonical) : Out.Canonical (execTowRun s) :=
  blockStep_canonical (fun _ _ _ _ _ => runAct_canonical) h

theorem towScales_canonical {s : State} {gc w h} (hs : s.Canonical) : OkAll (·.1.Canonical) (towScales s gc w h) := by
  unfold towScales
  refine .ite (.ok hs) (.foldl (fun acc i ha => ?_) (.ok hs))
  split
  · exact .error
  · rename_i s1 xs
    have h1 : s1.Canonical := ha _ rfl
    split
    · exact .error
    · rename_i hr
      exact .ok (engRead_canonical h1 _ hr :)

theorem execTowPromote_canonical {s : State} (h : s.Canonical) : Out.Canonical (execTowPromote s) := by
  unfold execTowPromote
  refine towStep_canonical (fun t gc w h b ht => .ite trivial ?_) h
  split
  · trivial
  · rename_i hr
    exact (towScales_canonical ht _ hr :)

theorem execTowSync_canonical {s : State} (h : s.Canonical) : Out.Canonical (execTowSync s) := by
  unfold execTowSync
  refine towStep_canonical (fun t gc w h b ht => .ite trivial (.ite (.ite ht trivial) ?_)) h
  have hc (n i) : (acquireStage t gc n i 0).Canonical := acquireStage_canonical ht
  split
  · rename_i hr; exact (Fetched.Canonical.of_eq hr (hc _ _) :)
  · rename_i hr; exact (Fetched.Canonical.of_eq hr (hc _ _) :)
  · trivial
  · trivial
  · trivial

theorem fordRoute_canonical {s : State} {gc w att v} (h : s.Canonical) : OkAll (·.1.Canonical) (fordRoute s gc w att v) := by
  unfold fordRoute
  refine .ite .error (.ite .error ?_)
  split
  · exact .error
  · rename_i hr
    exact .ite (.ok (pontoonRead_canonical h _ hr)) .error

theorem deliverRow_canonical {s : State} {gc w} (h : s.Canonical) : SomeAll (·.1.Canonical) (deliverRow s gc w) := by
  unfold deliverRow
  split
  exact .ite (.ite .none (.some (.mk (performAt_canonical h)))) (.some (performAt_canonical h))

theorem beginDrain_canonical {s : State} {gc w h} (hs : s.Canonical) : OkAll (·.1.Canonical) (beginDrain s gc w h) := by
  unfold beginDrain
  refine .ite (.ok hs) (.ite (.ok hs) ?_)
  split
  · exact .error
  · rename_i hr
    exact .ok (fordRoute_canonical hs _ hr)

theorem drainOne_canonical {s : State} {gc w} (h : s.Canonical) : (drainOne s gc w).1.Canonical := by
  unfold drainOne
  dsimp only
  split
  · cases hr : deliverRow s gc w with
    | none => exact h
    | some x => exact deliverRow_canonical h _ hr
  · exact h

theorem execTowDrain_canonical {s : State} (h : s.Canonical) : Out.Canonical (execTowDrain s) := by
  unfold execTowDrain
  dsimp only
  split
  · exact .next h
  · refine .ite (.ite (.next (.mk (drainOne_canonical h))) (.next h)) ?_
    refine towStep_canonical (fun t gc w h b ht => ?_) h
    split
    · trivial
    · rename_i hr
      exact drainOne_canonical (beginDrain_canonical ht _ hr)

theorem dispatchTowRow_canonical {s : State} {gc w} (h : s.Canonical) : (dispatchTowRow s gc w).Canonical := by
  unfold dispatchTowRow
  refine .ite h (.ite h ?_)
  dsimp only
  split
  · exact h
  · split
    · exact h
    · rename_i hr
      exact startHandler_canonical (bindRow_canonical h _ hr)

theorem dispatchRow_canonical {s : State} {gc} (h : s.Canonical) : (dispatchRow s gc).Canonical := by
  unfold dispatchRow
  refine .ite h ?_
  split
  · exact dispatchTowRow_canonical h
  · exact dispatchJobRow_canonical h
  · exact h

theorem execFordTowHandover_canonical {s : State} (h : s.Canonical) : Out.Canonical (execFordTowHandover s) := by
  unfold execFordTowHandover
  dsimp only
  split
  · exact .next h
  · exact .ite (.next h) (.ite (.next h) (.next (acceptKick_canonical h)))

theorem execTowRoute_canonical {s : State} (h : s.Canonical) : Out.Canonical (execTowRoute s) := by
  unfold execTowRoute
  refine towStep_canonical (fun t gc w h b ht => .ite ht ?_) h
  split
  · trivial
  · rename_i hr
    exact (fordRoute_canonical ht _ hr :)

theorem execTowBranch_canonical {s : State} (h : s.Canonical) : Out.Canonical (execTowBranch s) :=
  towStep_canonical (fun _ _ _ _ _ ht => .ite trivial ht) h

theorem execTowCall_canonical {s : State} (h : s.Canonical) : Out.Canonical (execTowCall s) :=
  towStep_canonical (fun _ _ _ _ _ ht => .ite trivial ht) h

theorem execTowRet_canonical {s : State} (h : s.Canonical) : Out.Canonical (execTowRet s) := by
  unfold execTowRet
  refine towStep_canonical (fun t gc w h b ht => ?_) h
  split
  · trivial
  · exact ht

theorem execTowExitBlock_canonical {s : State} (h : s.Canonical) : Out.Canonical (execTowExitBlock s) :=
  towStep_canonical (fun _ _ _ _ _ ht => .ite trivial ht) h

theorem stopTow_canonical {s : State} {gc w c} (h : s.Canonical) : (stopTow s gc w c).Canonical := by
  unfold stopTow
  split
  · exact .ite (noteStall_canonical h) h
  · rename_i hr
    exact (writeRestart_canonical h _ hr :)

theorem execTowStop_canonical {s : State} (h : s.Canonical) : Out.Canonical (execTowStop s) := by
  unfold execTowStop
  dsimp only
  split
  · exact .next h
  · split
    · exact .ite (.next (stopTow_canonical h)) (.next h)
    · exact .ite (.next h) (.next h)
    · exact .next h

theorem parkTow_canonical {s : State} {gc w} (h : s.Canonical) : (parkTow s gc w).1.Canonical := by
  unfold parkTow
  dsimp only
  split
  · split
    · exact noteStall_canonical h
    · exact h
  · rename_i hr
    exact (writeRestart_canonical h _ hr :)

theorem execTowPark_canonical {s : State} (h : s.Canonical) : Out.Canonical (execTowPark s) := by
  unfold execTowPark
  dsimp only
  split
  · exact .next h
  · refine .ite (.next h) (.ite (.next (parkTow_canonical h)) (.ite ?_ (.next h)))
    split
    · rename_i hr
      exact .next ((parkTow_canonical h).of_fst hr)
    · rename_i hr
      exact .next (raiseDrift_canonical (.mk ((parkTow_canonical h).of_fst hr)))

theorem leaveSession_canonical {s : State} {gc w} (h : s.Canonical) : (leaveSession s gc w).1.Canonical := by
  refine List.foldlRecOn (motive := fun x : State × Tow => x.1.Canonical) _ _ h fun x hx _ _ => ?_
  exact performAt_canonical (.mk hx)

theorem payOwed_canonical {s : State} {gc w} (h : s.Canonical) : (payOwed s gc w).Canonical :=
  .foldl (fun _ _ ht => post_canonical ht) h

theorem completeTow_canonical {s : State} {gc w c} (h : s.Canonical) : (completeTow s gc w c).Canonical := by
  unfold completeTow
  refine .ite ?_ ?_
  · refine .mk (post_canonical (payOwed_canonical ?_))
    split
    · exact h
    · exact leaveSession_canonical h
  · refine .mk (post_canonical (payOwed_canonical ?_))
    split
    · exact h
    · exact leaveSession_canonical h

theorem execTowCompletion_canonical {s : State} (h : s.Canonical) : Out.Canonical (execTowCompletion s) := by
  unfold execTowCompletion
  dsimp only
  split
  · exact .next h
  · refine .ite (.next h) ?_
    split
    · exact .next (.ite h (payOwed_canonical h))
    · exact .ite (.next (completeTow_canonical (dropStores_canonical h)))
        (.next (completeTow_canonical (dropStores_canonical h)))

theorem exitTow_canonical {s : State} {g rid} (h : s.Canonical) : (exitTow g rid s).Canonical := by
  unfold exitTow
  dsimp only
  split
  · exact refuseTow_canonical (State.modEngine_canonical h)
  · split
    · exact h
    · exact .ite h h

theorem execTowExit_canonical {s : State} {a b} (h : s.Canonical) : Out.Canonical (execTowExit a b s) := by
  unfold execTowExit
  refine runHead_canonical ?_ h
  exact .bind gr_keeps fun _ => .when illegalOperand_keeps fun _ => .get_bind fun _ _ =>
    waitGone_keeps (kickCancel_keeps (fun _ h5s => exitTow_canonical h5s))

theorem execTowWait_canonical {s : State} {a b} (h : s.Canonical) : Out.Canonical (execTowWait a b s) :=
  runHead_canonical (.bind gr_keeps fun _ => .when illegalOperand_keeps fun _ => .get_bind fun _ _ => waitGone_keeps .pure) h

theorem execTowStat_canonical {s : State} {a b} (h : s.Canonical) : Out.Canonical (execTowStat a b s) :=
  runHead_canonical (.bind gr_keeps fun _ => .when illegalOperand_keeps fun _ => .get_bind fun _ _ => writeNext_keeps) h

/-! ### The functions of Machine/Links -/

theorem answerTo_canonical {s : State} {q va since v} (h : s.Canonical) : (answerTo s q va since v).Canonical := by
  unfold answerTo
  split
  · exact .ite h h
  · exact h

theorem deliverReply_canonical {s : State} {p} (h : s.Canonical) : (deliverReply s p).Canonical := by
  unfold deliverReply
  split
  · exact answerTo_canonical h
  · exact answerTo_canonical h
  · exact h
  · exact h
  · exact h

theorem route_canonical {s : State} {p} (h : s.Canonical) : (route s p).Canonical := by
  unfold route
  refine .ite h ?_
  split
  · exact h
  · exact deliverReply_canonical h
  · exact .ite h h

theorem reply_canonical {s : State} {p k} (h : s.Canonical) : (reply s p k).Canonical := route_canonical h

theorem dropPacket_canonical {s : State} {p} (h : s.Canonical) : (dropPacket s p).Canonical := by
  unfold dropPacket
  split
  · exact h
  · exact h
  · exact h
  · exact h
  · refine reply_canonical ?_
    split <;> exact h

theorem deliver_canonical {s : State} {p} (h : s.Canonical) : SomeAll State.Canonical (deliver s p) := by
  unfold deliver
  split
  · exact .some (deliverReply_canonical h)
  · exact .some (deliverReply_canonical h)
  · exact .some (deliverReply_canonical h)
  · exact .some (deliverReply_canonical h)
  · split
    · rename_i hm
      exact .some (reply_canonical ((serveMem_canonical h).of_snd hm))
    · exact .some (dropPacket_canonical h)
  · split
    · exact .some (reply_canonical h)
    · split
      · exact .none
      · rename_i hr
        exact .some (reply_canonical (serveQx_canonical h _ hr))
      · exact .some (reply_canonical h)
  · split
    · rename_i hm
      exact .some (reply_canonical ((serveMem_canonical h).of_snd hm))
    · exact .some (dropPacket_canonical h)

theorem forward_canonical {s : State} {p} (h : s.Canonical) : SomeAll State.Canonical (forward s p) := by
  unfold forward
  refine .ite (.some h) (.ite (.some (dropPacket_canonical h)) ?_)
  split
  · exact .some (dropPacket_canonical h)
  · exact deliver_canonical h
  · exact .some (route_canonical h)

theorem flushHeld_canonical {s : State} (h : s.Canonical) : (flushHeld s).Canonical := by
  unfold flushHeld
  refine .foldl (fun _ _ ht => ?_) h
  split
  · rename_i hr
    exact (forward_canonical ht _ hr :)
  · exact ht

theorem execPacketForward_canonical {s : State} (h : s.Canonical) : Out.Canonical (execPacketForward s) := by
  unfold execPacketForward
  refine .ite (.ite (.next h) (.ite (.next h) ?_)) (.next h)
  split
  · rename_i hr
    exact .next (forward_canonical h _ hr)
  · exact .next h

theorem execRemoteAccessTimeout_canonical {s : State} (h : s.Canonical) : Out.Canonical (execRemoteAccessTimeout s) := by
  unfold execRemoteAccessTimeout
  dsimp only
  split
  · exact .ite (.next (trapHead_canonical h)) (.next h)
  · exact .next h

theorem execTtselSw_canonical {s : State} {a b sw v} (h : s.Canonical) : Out.Canonical (execTtselSw a b sw v s) := by
  unfold execTtselSw
  refine runHead_canonical ?_ h
  exact .bind gr_keeps fun _ => .get_bind fun _ _ =>
    .guard (.ite writeNext_keeps (.ite writeNext_keeps (.ite writeNext_keeps (.ite writeNext_keeps (.bind (.modify fun _ h => h) fun _ => writeNext_keeps)))))

theorem execTtselSeg_canonical {s : State} {a att ttv} (h : s.Canonical) : Out.Canonical (execTtselSeg a att ttv s) := by
  unfold execTtselSeg
  refine runHead_canonical ?_ h
  exact .get_bind fun _ _ => .guard (.ite writeNext_keeps (.bind (.modify fun _ h => h) fun _ => writeNext_keeps))

theorem modPorts_canonical {s : State} {m f} (h : s.Canonical) : (modPorts s m f).Canonical := .foldl (fun _ _ ht => ht) h

theorem execSwitchHoldDrain_canonical {s : State} (h : s.Canonical) : Out.Canonical (execSwitchHoldDrain s) :=
  .ite (.next (.foldl (fun _ _ ht => .ite (postReform_canonical ht) ht) (modPorts_canonical h))) (.next h)

theorem fencePort_canonical {s : State} {p k} (h : s.Canonical) : (fencePort s p k).Canonical := .ite h h

theorem execPortRetrain_canonical {s : State} (h : s.Canonical) : Out.Canonical (execPortRetrain s) :=
  .ite (.next (.ite h h)) (.ite (.next (fencePort_canonical h)) (.ite (.next h) (.ite (.next h) (.next h))))

theorem countWord_canonical {s : State} {p lane k} (h : s.Canonical) : (countWord s p lane k).Canonical := .ite (.ite h h) h

theorem execCodewordReceive_canonical {s : State} (h : s.Canonical) : Out.Canonical (execCodewordReceive s) := by
  have h1 (p lane n) : (countWord s p lane n).Canonical := countWord_canonical h
  unfold execCodewordReceive
  refine .ite (.next h) (.ite (.next (.mk (h1 _ _ _))) (.next ?_))
  exact .ite (.mk (.mk (h1 _ _ _))) (.mk (h1 _ _ _))

theorem execLnkst_canonical {s : State} {a b p sel} (h : s.Canonical) : Out.Canonical (execLnkst a b p sel s) := by
  unfold execLnkst
  refine runHead_canonical (.get_bind fun _ _ => .when illegalOperand_keeps fun _ => ?_) h
  split
  · exact writeNext_keeps
  · exact .bind gr_keeps fun _ => .when illegalOperand_keeps fun _ => writeNext_keeps
  · exact writeNext_keeps

theorem startHart_canonical {s : State} {h} (hs : s.Canonical) : (startHart s h).Canonical := by
  unfold startHart
  refine .ite hs ?_
  dsimp only
  split <;> exact hs

theorem startEctl_canonical {s : State} {h} (hs : s.Canonical) : (startEctl s h).Canonical :=
  .ite (.ite (startHart_canonical hs) (startHart_canonical hs)) (.ite (startHart_canonical hs) (startHart_canonical hs))

/-! ### The functions of Machine/SysRegs -/

theorem execSrr_canonical {s : State} {a imm} (h : s.Canonical) : Out.Canonical (execSrr a imm s) := by
  unfold execSrr
  refine runHead_canonical (.get_bind fun _ _ => .when leaveChunk_keeps fun _ => .get_bind fun _ _ => ?_) h
  split
  · exact illegalOperand_keeps
  · exact writeNext_keeps

theorem controlOnly_keeps : Eff.Keeps controlOnly := .get_bind fun _ _ => .ite illegalOperand_keeps .pure

theorem modMyCore_keeps {f} : Eff.Keeps (modMyCore f) := .modify fun _ h => h

theorem modMyCluster_keeps {f} : Eff.Keeps (modMyCluster f) := .modify fun _ h => h

theorem writeHbind_keeps {v} : Eff.Keeps (writeHbind v) := modMyCore_keeps

theorem writeWindow_keeps {w k v} : Eff.Keeps (writeWindow w k v) :=
  .ite (.when illegalOperand_keeps fun _ => .when illegalOperand_keeps fun _ => modMyCore_keeps) .pure

theorem writeHartReg_keeps {h k v} : Eff.Keeps (writeHartReg h k v) := by
  unfold writeHartReg
  refine .ite (.bind modMyEngine_keeps fun _ => .get_bind fun _ _ => ?_) (.ite (.modify fun _ h => h) .pure)
  split
  · exact modMe_keeps
  · exact .pure

theorem writeToll_keeps {k v} : Eff.Keeps (writeToll k v) := by
  unfold writeToll
  refine .bind controlOnly_keeps fun _ => ?_
  split
  · exact modMyCluster_keeps
  · exact .pure
  · exact modMyCluster_keeps
  · exact modMyCluster_keeps

theorem sysWrite_keeps {n v} : Eff.Keeps (sysWrite n v) := by
  unfold sysWrite
  refine .get_bind fun _ _ => ?_
  dsimp only
  split
  · exact .when illegalOperand_keeps fun _ => modMe_keeps
  · exact modMe_keeps
  · exact modMe_keeps
  · exact modMe_keeps
  · exact modMe_keeps
  · exact .when illegalOperand_keeps fun _ => modMe_keeps
  · exact modMe_keeps
  · exact .ite modMe_keeps .pure
  · exact modMe_keeps
  · exact .bind controlOnly_keeps fun _ => pinTo_keeps
  · exact modMe_keeps
  · exact writeHbind_keeps
  · exact modMyCore_keeps
  · exact modMe_keeps
  · exact modMe_keeps
  · exact .when illegalOperand_keeps fun _ => modMe_keeps
  · exact .bind controlOnly_keeps fun _ => .when illegalOperand_keeps fun _ => modMyCluster_keeps
  · refine .ite (.bind controlOnly_keeps fun _ => modMyCore_keeps) ?_
    exact .ite modMyCore_keeps (.ite writeWindow_keeps (.ite writeHartReg_keeps (.ite writeToll_keeps .pure)))

theorem execSrw_canonical {s : State} {a imm} (h : s.Canonical) : Out.Canonical (execSrw a imm s) := by
  unfold execSrw
  refine runHead_canonical ?_ h
  exact .bind gr_keeps fun _ => .get_bind fun _ _ => .when illegalOperand_keeps fun _ => .bind sysWrite_keeps fun _ => .pure

/-! ### The functions of Machine/SaveImage -/

theorem putImage_canonical {s : State} {q vf va ws} (h : s.Canonical) : OkAll State.Canonical (putImage s q vf va ws) :=
  engWriteElems_canonical h

theorem getImage_canonical {s : State} {q vf va n} (h : s.Canonical) : OkAll (·.1.Canonical) (getImage s q vf va n) := by
  unfold getImage
  split
  · exact .error
  · rename_i hr
    exact .ok (engReadElems_canonical h _ hr)

theorem saveCluster_canonical {s : State} {gc vcl vf va} (h : s.Canonical) :
    OkAll State.Canonical (saveCluster s gc vcl vf va) :=
  putImage_canonical h

theorem clearCore_canonical {s : State} {g} (h : s.Canonical) : (clearCore s g).Canonical := .foldl (fun _ _ ht => ht) h

theorem clearCluster_canonical {s : State} {gc} (h : s.Canonical) : (clearCluster s gc).Canonical :=
  .mk (.foldl (fun _ _ ht => clearCore_canonical ht) h)

theorem replayOne_canonical {s : State} {g e} (h : s.Canonical) : (replayOne g s e).Canonical := by
  unfold replayOne
  dsimp only
  split
  · exact applyWrite_canonical h
  · exact h
  · exact applyWrite_canonical h

theorem replayCore_canonical {s : State} {g es} (h : s.Canonical) : (replayCore s g es).Canonical :=
  .foldl (fun _ _ ht => replayOne_canonical ht) h

theorem restoreCore_canonical {s : State} {gc c vf ln vcl kept ws} (h : s.Canonical) :
    OkAll State.Canonical (restoreCore s gc c vf ln vcl kept ws) := by
  unfold restoreCore
  refine .ite .error ?_
  dsimp only
  split
  · exact .error
  · rename_i hr
    refine .ok (.mk (fetchPins_canonical (replayCore_canonical ?_) _ hr :))
    refine .foldl (fun _ _ ht => .ite (.mk ht) ht) (.foldl (fun _ _ ht => setCoreWord_canonical ht) ?_)
    exact .foldl (fun _ _ ht => .mk ht) (.mk h)

theorem restoreCores_canonical {s : State} {gc vf ln vcl kept ws cs} (h : s.Canonical) :
    OkAll State.Canonical (restoreCores s gc vf ln vcl kept ws cs) := by
  induction cs generalizing s with
  | nil => exact .ok h
  | cons c cs ih =>
    unfold restoreCores
    split
    · exact .error
    · rename_i hr
      exact ih (restoreCore_canonical h _ hr)

theorem restoreResponses_canonical {s : State} {gc ws} (h : s.Canonical) : (restoreResponses s gc ws).Canonical := by
  unfold restoreResponses
  refine .foldl (fun _ _ ht => .foldl (fun _ _ ht1 => ?_) ht) h
  split <;> exact ht1

theorem restoreReads_canonical {s : State} {gc pos mine} (h : s.Canonical) : (restoreReads s gc pos mine).Canonical :=
  .foldl (fun _ _ ht => .foldl (fun _ _ ht => ht) ht) h

theorem reloadTile_canonical {s : State} {gc w} (h : s.Canonical) : OkAll State.Canonical (reloadTile s gc w) := by
  unfold reloadTile
  dsimp only
  split
  · exact .ok (.mk h)
  · rename_i va _
    have h1 := readBlock_canonical (gc := gc) (w := { w with cb := va }) h
    have hf (c) : (if w.st = 2 then setTow s gc { w with status := c } else stopTow s gc w c).Canonical :=
      .ite (.mk h) (stopTow_canonical h)
    split
    · exact .ite .error (.ok (hf _))
    · split
      · exact .ok (hf _)
      · exact .ok (.mk h1)

theorem restorePontoon_canonical {s : State} {gc vf ln kept flags ws} (h : s.Canonical) :
    OkAll State.Canonical (restorePontoon s gc vf ln kept flags ws) := by
  unfold restorePontoon
  refine .ite (reloadTile_canonical (restoreReads_canonical (.mk h))) (.ok (.mk (.ite ?_ (.mk h))))
  exact .mk (restoreReads_canonical (.mk h))

theorem kickLoops_canonical {s : State} {gc rs} (h : s.Canonical) : SomeAll State.Canonical (kickLoops s gc rs) :=
  .ite (.some h) (.ite .none (.some (State.modEngine_canonical h)))

theorem restoreRings_canonical {s : State} {gc vf ln kept flags ws} (h : s.Canonical) :
    SomeAll State.Canonical (restoreRings s gc vf ln kept flags ws) :=
  kickLoops_canonical h

theorem restoreTrace_canonical {s : State} {gc} (h : s.Canonical) : (restoreTrace s gc).Canonical :=
  .foldl (fun _ _ ht => .ite ht ht) h

theorem restoreCluster_canonical {s : State} {gc vf ln va} (h : s.Canonical) :
    OkAll State.Canonical (restoreCluster s gc vf ln va) := by
  unfold restoreCluster
  split
  · exact .error
  · rename_i s1 ws hr
    have h1 := getImage_canonical h _ hr
    dsimp only
    split
    · exact .error
    · rename_i hr
      have h4 := restoreRings_canonical (.foldl (fun _ _ ht => .of_mem (Memory.wf_writeList _ _ ht))
        (.mk (clearCluster_canonical h1))) _ hr
      split
      · exact .error
      · rename_i hr
        have h6 := restoreCores_canonical h4 _ hr
        split
        · exact .error
        · rename_i hr
          exact .ok (restoreTrace_canonical (restorePontoon_canonical (restoreResponses_canonical h6) _ hr))

/-! ### The functions of Machine/Ferryman -/

theorem readDws_canonical {s : State} {who vf va n} (h : s.Canonical) : OkAll (·.1.Canonical) (readDws s who vf va n) := by
  unfold readDws
  split
  · exact .error
  · rename_i hr
    exact .ok (engReadBytes_canonical h _ hr)

theorem ferryStop_canonical {s o : State} {c} (hs : s.Canonical) (ho : o.Canonical) : (ferryStop s c o).Canonical :=
  .ite (noteStall_canonical hs) ho

theorem checkQueues_canonical {s : State} {vf} (h : s.Canonical) : (checkQueues s vf).Canonical := by
  unfold checkQueues
  refine .foldl (fun _ _ ht => .ite ?_ ht) h
  split
  · exact .ite ht ht
  · exact ht

theorem eventChanged_canonical {s : State} {vf va} (h : s.Canonical) : (eventChanged s vf va).Canonical :=
  .foldl (fun _ _ ht => ht) h

theorem signalWord_canonical {s : State} {vf va} (h : s.Canonical) : OkAll State.Canonical (signalWord s vf va) := by
  unfold signalWord
  split
  · exact .error
  · refine .ite .error ?_
    split
    · exact .error
    · refine .ite .error ?_
      split
      · rename_i hr
        exact .ok (eventChanged_canonical (atomicAt_canonical (translate_canonical h _ hr)))
      · rename_i hr
        have ht1 := translate_canonical h _ hr
        dsimp only
        split
        · exact .error
        · exact .ok (eventChanged_canonical (serveMem_canonical ht1))
        · exact .ok ht1
      · exact .error
  · exact .error

theorem storeCompletion_canonical {s : State} {l status cause} (h : s.Canonical) :
    OkAll State.Canonical (storeCompletion s l status cause) := by
  unfold storeCompletion
  refine .ite (.ok h) ?_
  split
  · exact .error
  · rename_i hr
    have ht := putImage_canonical h _ hr
    exact .ok ht

theorem reportEnd_canonical {s : State} {l status cause} (h : s.Canonical) :
    OkAll State.Canonical (reportEnd s l status cause) := by
  have hfirst (st) : OkAll State.Canonical (match storeCompletion s l st cause with
      | .error c => if isWait c then .error c else .ok s
      | .ok t => .ok t : Except Nat State) := by
    split
    · exact .ite .error (.ok h)
    · rename_i hr
      exact .ok (storeCompletion_canonical h _ hr)
  unfold reportEnd
  dsimp only
  split
  · exact .error
  · rename_i hr
    have ht := hfirst status _ hr
    refine .ite (.ok ht) ?_
    split
    · rename_i hr
      exact .ok (signalWord_canonical ht _ hr)
    · exact .ite .error (hfirst _)

theorem reportTo_canonical {s s1 : State} {l status cause after} (hs : s.Canonical) (hs1 : s1.Canonical)
    (hafter : ∀ x0, State.Canonical x0 → (after x0).Canonical) :
    (reportTo s s1 l status cause after).Canonical := by
  unfold reportTo
  split
  · exact noteStall_canonical hs
  · rename_i hr
    exact hafter _ (reportEnd_canonical hs1 _ hr)

theorem freeClusters_canonical {s : State} {l} (h : s.Canonical) : (freeClusters s l).Canonical :=
  .foldl (fun _ _ ht => clearCluster_canonical ht) h

theorem freshCluster_canonical {s : State} {gc} (h : s.Canonical) : (freshCluster s gc).Canonical :=
  .mk (Memory.wf_filter (clearCluster_canonical h) _ :)

theorem startCluster_canonical {s : State} {l gc lc} (h : s.Canonical) : (startCluster s l gc lc).Canonical :=
  .foldl (fun _ _ ht => ht) (freshCluster_canonical h)

theorem placeLaunch_canonical {s : State} {l cs} (h : s.Canonical) : (placeLaunch s l cs).Canonical := by
  unfold placeLaunch
  dsimp only
  split
  · rename_i hr
    refine checkTarget_canonical ?_ _ hr
    exact .foldl (fun _ _ ht => startCluster_canonical ht) (.mk (.mk h))
  · exact .mk (.foldl (fun _ _ ht => startCluster_canonical ht) (.mk (.mk h)))

theorem chosen_canonical {s : State} {vf} (h : s.Canonical) : SomeAll (·.2.Canonical) (chosen s vf) := by
  unfold chosen
  dsimp only
  split
  · refine .ite ?_ (.some h)
    split
    · exact .none
    · unfold Option.map
      split
      · exact .some h
      · exact .none
  · exact .some h
  · split
    · exact .none
    · unfold Option.map
      split
      · exact .some h
      · exact .none
  · exact .none

theorem holdLaunch_canonical {s : State} {l} (h : s.Canonical) : (holdLaunch s l).Canonical := .ite h h

theorem failEvent_canonical {s : State} {vf} (h : s.Canonical) : SomeAll State.Canonical (failEvent s vf) := by
  intro t ht
  obtain ⟨l, -, hl⟩ := List.exists_of_findSome?_eq_some ht
  revert t
  refine fun t _ => (?_ : SomeAll State.Canonical _) t
  split
  · exact .ite (.ite .none (.some (noteStall_canonical h))) (.some (reportTo_canonical h (.mk h) fun _ ht => ht))
  · exact .none

theorem execLaunchPlacement_canonical {s : State} (h : s.Canonical) : Out.Canonical (execLaunchPlacement s) := by
  have h0 : (checkQueues s s.inp.a).Canonical := checkQueues_canonical h
  unfold execLaunchPlacement
  refine .ite (.next h) ?_
  split
  · rename_i hr
    exact .next (failEvent_canonical h0 _ hr)
  · split
    · exact .next h0
    · rename_i hr
      have h1 := chosen_canonical h0 _ hr
      refine .ite (.next h0) ?_
      split
      · exact .next (placeLaunch_canonical h1)
      · exact .next (holdLaunch_canonical h1)

theorem answerLaunch_canonical {s : State} {vf q t status} (h : s.Canonical) : (answerLaunch s vf q t status).Canonical :=
  .foldl (fun _ _ ht => post_canonical ht) (State.modEngine_canonical h)

theorem execLaunchRecordTake_canonical {s : State} (h : s.Canonical) : Out.Canonical (execLaunchRecordTake s) := by
  unfold execLaunchRecordTake
  refine .ite (.next h) ?_
  split
  · exact .next (ferryStop_canonical h h)
  · rename_i hr
    have ht := readDws_canonical h _ hr
    refine .ite (.next h) ?_
    split
    · exact .next (ferryStop_canonical h h)
    · rename_i hr
      have ht1 := readDws_canonical ht _ hr
      refine .ite (.next h) ?_
      split
      · exact .next (ferryStop_canonical h h)
      · rename_i hr
        have ht2 := putImage_canonical ht1 _ hr
        exact .ite (.next (answerLaunch_canonical ht2)) (.next (reportTo_canonical h (answerLaunch_canonical ht2)
          (fun _ h2s => h2s)))

theorem endLaunch_canonical {s : State} {l} (h : s.Canonical) : (endLaunch s l).Canonical := freeClusters_canonical h

theorem execLaunchRetirement_canonical {s : State} (h : s.Canonical) : Out.Canonical (execLaunchRetirement s) := by
  unfold execLaunchRetirement
  split
  · exact .next h
  · exact .ite (.next (reportTo_canonical h (endLaunch_canonical h) (fun _ h2s => h2s))) (.next h)

theorem markCluster_canonical {s : State} {gc} (h : s.Canonical) : (markCluster s gc).Canonical :=
  .foldl (fun _ _ ht => ht) h

theorem markLaunch_canonical {s : State} {l} (h : s.Canonical) : (markLaunch s l).Canonical :=
  .foldl (fun _ _ ht => markCluster_canonical ht) h

theorem execPreemptionMark_canonical {s : State} (h : s.Canonical) : Out.Canonical (execPreemptionMark s) := by
  unfold execPreemptionMark
  split
  · exact .next h
  · exact .ite (.next (markLaunch_canonical (checkQueues_canonical h))) (.next (checkQueues_canonical h))

theorem execTimeSliceExpiry_canonical {s : State} (h : s.Canonical) : Out.Canonical (execTimeSliceExpiry s) := by
  unfold execTimeSliceExpiry
  split
  · exact .next h
  · exact .ite (.next (markLaunch_canonical (checkQueues_canonical h))) (.next (checkQueues_canonical h))

theorem stopContext_canonical {s : State} {q} (h : s.Canonical) : (stopContext s q).Canonical :=
  .foldl (fun _ _ ht => ht) (.foldl (fun _ _ ht => applyWrite_canonical ht) (landFlight_canonical (discardChunk_canonical h)))

theorem stopCluster_canonical {s : State} {gc} (h : s.Canonical) : (stopCluster s gc).Canonical :=
  .foldl (fun _ _ ht => .mk (.foldl (fun _ _ ht => .ite (stopContext_canonical ht) ht) ht)) h

theorem endFailed_canonical {s : State} {gc j without} (h : s.Canonical) : (endFailed s gc j without).Canonical := by
  unfold endFailed
  split
  · exact h
  · split
    · exact h
    · exact .ite h (endJob_canonical h)

theorem restPontoon_canonical {s : State} {gc cancel} (h : s.Canonical) : (restPontoon s gc cancel).Canonical := by
  unfold restPontoon
  dsimp only
  split
  · refine afterJob_canonical ?_
    exact .ite (endFailed_canonical (.ite (State.modEngine_canonical h) h))
      (endFailed_canonical (endFailed_canonical (.ite (State.modEngine_canonical h) h)))
  · refine .ite ?_ ?_
    · refine afterJob_canonical ?_
      exact .ite (endFailed_canonical (.ite (State.modEngine_canonical h) h))
        (endFailed_canonical (endFailed_canonical (.ite (State.modEngine_canonical h) h)))
    · split
      · refine stopTow_canonical ?_
        exact afterJob_canonical (.ite (endFailed_canonical (.ite (State.modEngine_canonical h) h))
          (endFailed_canonical (endFailed_canonical (.ite (State.modEngine_canonical h) h))))
      · unfold Prod.fst
        refine parkTow_canonical ?_
        exact afterJob_canonical (.ite (endFailed_canonical (.ite (State.modEngine_canonical h) h))
          (endFailed_canonical (endFailed_canonical (.ite (State.modEngine_canonical h) h))))

theorem restCluster_canonical {s : State} {gc cancel} (h : s.Canonical) : (restCluster s gc cancel).Canonical :=
  State.modEngine_canonical (restPontoon_canonical h)

theorem saveSections_canonical {s : State} {l image i gs} (h : s.Canonical) :
    OkAll State.Canonical (saveSections s l image i gs) := by
  induction gs generalizing s i with
  | nil => exact .ok h
  | cons g gs ih =>
    unfold saveSections
    split
    · exact .error
    · rename_i hr
      exact ih (saveCluster_canonical h _ hr)

theorem emptyQueue_canonical {s : State} {gc} (h : s.Canonical) : (emptyQueue s gc).Canonical := State.modEngine_canonical h

theorem resumeCluster_canonical {s : State} {gc} (h : s.Canonical) : SomeAll State.Canonical (resumeCluster s gc) := by
  unfold resumeCluster
  intro t ht
  obtain ⟨u, hu, rfl⟩ := Option.map_eq_some_iff.mp ht
  refine .mk (.mk (kickLoops_canonical ?_ _ hu))
  exact .foldl (fun _ _ ht => .mk (.foldl (fun _ _ ht => .mk ht) (replayCore_canonical ht))) h

theorem resumeClusters_canonical {s : State} {gs : List Nat} (h : s.Canonical) :
    SomeAll State.Canonical (gs.foldlM resumeCluster s) := by
  induction gs generalizing s with
  | nil => exact .some h
  | cons g gs ih =>
    intro t ht
    rw [List.foldlM_cons] at ht
    obtain ⟨u, hu, ht⟩ := Option.bind_eq_some_iff.mp ht
    exact ih (resumeCluster_canonical h _ hu) _ ht

theorem abandonSave_canonical {s : State} {l} (h : s.Canonical) : (abandonSave s l).Canonical := by
  unfold abandonSave
  split
  · exact h
  · rename_i hr
    exact .mk (.mk (resumeClusters_canonical h _ hr))

theorem saveLaunch_canonical {s : State} {l} (h : s.Canonical) : (saveLaunch s l).Canonical := by
  unfold saveLaunch
  split
  · exact ferryStop_canonical h (abandonSave_canonical (.mk h))
  · dsimp only
    split
    · exact ferryStop_canonical h (abandonSave_canonical h)
    · rename_i hr
      have h1 := putImage_canonical h _ hr
      split
      · exact ferryStop_canonical h (abandonSave_canonical h)
      · rename_i hr
        have h2 := saveSections_canonical h1 _ hr
        exact .mk (freeClusters_canonical (.foldl (fun _ _ ht => emptyQueue_canonical ht) h2))

theorem execPreemptionGraceExpiry_canonical {s : State} (h : s.Canonical) : Out.Canonical (execPreemptionGraceExpiry s) := by
  unfold execPreemptionGraceExpiry
  split
  · exact .next h
  · dsimp only
    split
    · exact .ite (.next (.foldl (fun _ _ ht => restCluster_canonical ht) (.foldl (fun _ _ ht =>
        stopCluster_canonical ht) h))) (.next h)
    · refine .ite (.next (saveLaunch_canonical (.ite (.foldl (fun _ _ ht => restCluster_canonical ht) h) h))) ?_
      exact .next (.ite (.foldl (fun _ _ ht => restCluster_canonical ht) h) h)
    · exact .next h

theorem restoreSections_canonical {s : State} {l i gs} (h : s.Canonical) :
    OkAll State.Canonical (restoreSections s l i gs) := by
  induction gs generalizing s i with
  | nil => exact .ok h
  | cons g gs ih =>
    unfold restoreSections
    split
    · exact .error
    · rename_i hr
      exact ih (restoreCluster_canonical h _ hr)

theorem answerParked_canonical {s : State} {l} (h : s.Canonical) : (answerParked s l).Canonical := by
  unfold answerParked
  refine .foldl (fun _ _ ht => ?_) (State.modEngine_canonical h)
  split
  · exact post_canonical ht
  · exact ht

theorem execLaunchRestore_canonical {s : State} (h : s.Canonical) : Out.Canonical (execLaunchRestore s) := by
  have h0 : (checkQueues s s.inp.a).Canonical := checkQueues_canonical h
  unfold execLaunchRestore
  refine .ite (.next h) ?_
  split
  · exact .next h0
  · rename_i hr
    have h1 := chosen_canonical h0 _ hr
    refine .ite (.next h0) (.ite (.next (holdLaunch_canonical h1)) ?_)
    dsimp only
    split
    · exact .next (ferryStop_canonical h0 (.mk (.mk h1)))
    · rename_i hr
      exact .next (answerParked_canonical (restoreSections_canonical (.mk h1) _ hr))

theorem killContexts_canonical {s : State} {gc} (h : s.Canonical) : (killContexts s gc).Canonical :=
  .foldl (fun _ _ ht => .ite (discardChunk_canonical ht) ht) h

theorem killCopies_canonical {s : State} {gc} (h : s.Canonical) : (killCopies s gc).Canonical :=
  .foldl (fun _ _ ht => releaseHolds_canonical ht) h

theorem killPontoon_canonical {s : State} {gc} (h : s.Canonical) : (killPontoon s gc).Canonical :=
  .mk (.mk (.foldl (fun _ _ ht => .mk ht) (.foldl (fun _ _ ht => releaseHolds_canonical ht) h)))

theorem killCluster_canonical {s : State} {gc} (h : s.Canonical) : (killCluster s gc).Canonical :=
  .mk (.mk (.mk (killPontoon_canonical (killCopies_canonical (killContexts_canonical h)))))

theorem killLaunch_canonical {s : State} {l cause} (h : s.Canonical) : (killLaunch s l cause).Canonical := by
  unfold killLaunch
  split
  · split
    · rename_i hr
      exact (reportEnd_canonical (.mk h) _ hr :)
    · exact noteStall_canonical (.mk h)
  · exact h
  · exact .mk (.mk h)
  · exact .mk (.mk (.foldl (fun _ _ ht => killCluster_canonical ht) h))

theorem execLaunchKill_canonical {s : State} (h : s.Canonical) : Out.Canonical (execLaunchKill s) := by
  unfold execLaunchKill
  split
  · exact .next h
  · exact .next (killLaunch_canonical h)

theorem settleKill_canonical {s : State} {l} (h : s.Canonical) : (settleKill s l).Canonical := .foldl (fun _ _ ht => ht) h

theorem execKillComplete_canonical {s : State} (h : s.Canonical) : Out.Canonical (execKillComplete s) := by
  unfold execKillComplete
  split
  · exact .next h
  · exact .ite (.next (reportTo_canonical h (endLaunch_canonical h) (fun _ h2s => settleKill_canonical h2s))) (.next h)

theorem execKlnidKill_canonical {s : State} (h : s.Canonical) : Out.Canonical (execKlnidKill s) := by
  unfold execKlnidKill
  dsimp only
  split
  · exact .next h
  · exact .next (killLaunch_canonical h)

theorem tailPlace_keeps {va} : Eff.Keeps (tailPlace va) := by
  unfold tailPlace
  refine .bind check_keeps fun _ => ?_
  split
  · exact .get_bind fun _ _ => .ite .throw .pure
  · exact .throw

theorem loadDws_keeps {va n} : Eff.Keeps (loadDws va n) := by
  induction n generalizing va with
  | zero => exact .pure
  | succ n ih => exact .bind load_keeps fun _ => .bind ih fun _ => .pure

theorem execLaunch_canonical {s : State} {a b imm} (h : s.Canonical) : Out.Canonical (execLaunch a b imm s) := by
  unfold execLaunch
  refine runOnce_canonical (.bind gr_keeps fun _ => .get_bind fun _ _ => .when illegalOperand_keeps fun _ => ?_) h
  refine .bind loadDws_keeps fun _ => .when illegalOperand_keeps fun _ => ?_
  refine .bind loadDws_keeps fun _ => .get_bind fun _ _ => .guard ?_
  refine .bind tailPlace_keeps fun _ => .guard (.get_bind fun _ hu => ?_)
  split
  · exact .throw
  · rename_i hr
    refine .bind (.set (atomicAt_canonical (putImage_canonical hu _ hr))) fun _ => ?_
    exact .bind kick_keeps fun _ => .bind (.modify fun _ h => h) fun _ => .bind dstAll_keeps fun _ => .pure

theorem execEvsig_canonical {s : State} {a b sc imm} (h : s.Canonical) : Out.Canonical (execEvsig a b sc imm s) := by
  unfold execEvsig
  refine runHead_canonical ?_ h
  exact .bind orderAt_keeps fun _ => .bind gr_keeps fun _ => .bind atomicOp_keeps fun _ => .bind (.modify fun _ h =>
    eventChanged_canonical h) fun _ => writeNext_keeps

theorem execEvwait_canonical {s : State} {a b sc imm} (h : s.Canonical) : Out.Canonical (execEvwait a b sc imm s) := by
  unfold execEvwait
  refine runHead_canonical (.bind orderAt_keeps fun _ => .bind src_keeps fun _ => .bind gr_keeps fun _ => ?_) h
  refine .get_bind fun _ _ => ?_
  split
  · exact .throw
  · exact .bind watchTarget_keeps fun _ => .get_bind fun _ _ => .ite .pure .throw

theorem execEvwaitWake_canonical {s : State} (h : s.Canonical) : Out.Canonical (execEvwaitWake s) := by
  unfold execEvwaitWake
  split <;> exact .next h

theorem execDtake_canonical {s : State} {a imm} (h : s.Canonical) : Out.Canonical (execDtake a imm s) := by
  unfold execDtake
  refine runHead_canonical (.get_bind fun _ _ => ?_) h
  split
  · exact .bind (.modify fun _ h => h) fun _ => .bind modMe_keeps fun _ => writeNext_keeps
  · split
    · exact .ite writeNext_keeps .throw
    · exact .throw

theorem placeCluster_keeps {c} : Eff.Keeps (placeCluster c) :=
  .bind gr_keeps fun _ => .get_bind fun _ _ => .when illegalOperand_keeps fun _ => .pure

theorem waitEngine_keeps : Eff.Keeps waitEngine := .get_bind fun _ _ => .ite .throw .throw

theorem joinLaunch_canonical {s : State} {l gc lc} (h : s.Canonical) : (joinLaunch s l gc lc).Canonical := by
  unfold joinLaunch
  split <;> exact h

theorem writeStatus_keeps {a c} : Eff.Keeps (writeStatus a c) :=
  .ite (.get_bind fun _ _ => .guard (.bind (.modify fun _ h => noteStall_canonical h) fun _ => .throw)) writeNext_keeps

theorem execDplaceStart_canonical {s : State} {a b c imm} (h : s.Canonical) :
    Out.Canonical (execDplaceStart a b c imm s) := by
  unfold execDplaceStart
  refine runHead_canonical (.bind placeCluster_keeps fun _ => .bind gr_keeps fun _ => .get_bind fun _ hu => ?_) h
  split
  · exact writeStatus_keeps
  · rename_i hr
    have ht := readDws_canonical hu _ hr
    dsimp only
    split
    · exact .bind (.set (startCluster_canonical (joinLaunch_canonical ht))) fun _ => writeNext_keeps
    · rename_i hr
      have ht1 := checkTarget_canonical (startCluster_canonical (joinLaunch_canonical ht)) _ hr
      exact .bind (.set ht1) fun _ => writeNext_keeps

theorem execDplacePreq_canonical {s : State} {a b c imm} (h : s.Canonical) : Out.Canonical (execDplacePreq a b c imm s) := by
  unfold execDplacePreq
  refine runHead_canonical ?_ h
  exact .bind placeCluster_keeps fun _ => .bind (.modify fun _ h => markCluster_canonical h) fun _ => writeNext_keeps

theorem execDplaceSave_canonical {s : State} {a b c imm} (h : s.Canonical) : Out.Canonical (execDplaceSave a b c imm s) := by
  unfold execDplaceSave
  refine runHead_canonical (.bind placeCluster_keeps fun _ => .bind gr_keeps fun _ => .get_bind fun _ hu => ?_) h
  refine .ite waitEngine_keeps (.ite ?_ ?_)
  · exact .guard (.bind (.set (restCluster_canonical (.ite hu (stopCluster_canonical hu)))) fun _ => .throw)
  · split
    · exact writeStatus_keeps
    · rename_i hr
      have ht := saveCluster_canonical (restCluster_canonical (.ite hu (stopCluster_canonical hu))) _ hr
      exact .bind (.set (clearCluster_canonical (emptyQueue_canonical ht))) fun _ => writeNext_keeps

theorem execDplaceRest_canonical {s : State} {a b c imm} (h : s.Canonical) : Out.Canonical (execDplaceRest a b c imm s) := by
  unfold execDplaceRest
  refine runHead_canonical (.bind placeCluster_keeps fun _ => .bind gr_keeps fun _ => .get_bind fun _ hu => ?_) h
  split
  · exact writeStatus_keeps
  · split
    · exact writeStatus_keeps
    · rename_i hr
      exact .bind (.set (restoreCluster_canonical hu _ hr)) fun _ => writeNext_keeps

theorem execDplaceKill_canonical {s : State} {a b c imm} (h : s.Canonical) : Out.Canonical (execDplaceKill a b c imm s) := by
  unfold execDplaceKill
  refine runHead_canonical ?_ h
  exact .bind placeCluster_keeps fun _ => .get_bind fun _ hu => .ite (.bind (.set (killCluster_canonical hu)) fun _ =>
    .throw) (.ite (.bind (.set (clearCluster_canonical hu)) fun _ => writeNext_keeps) .throw)

/-! ### The functions of Machine/Tollhouse -/

theorem stopCores_canonical {s : State} {gc why q} (h : s.Canonical) : (stopCores s gc why q).Canonical :=
  .mk (.foldl (fun _ _ ht => discardChunk_canonical ht) h)

theorem sendTrigger_canonical {s : State} {gc q} (h : s.Canonical) : (sendTrigger s gc q).Canonical :=
  .ite (.foldr (fun _ _ ht => .mk ht) h) h

theorem haltCluster_canonical {s : State} {gc why q} (h : s.Canonical) : (haltCluster s gc why q).Canonical := by
  unfold haltCluster
  refine .ite h (sendTrigger_canonical ?_)
  split
  · exact .ite (stopCores_canonical h) (sendTrigger_canonical (stopCores_canonical (stopCores_canonical h)))
  · exact stopCores_canonical h

theorem raiseDebugHalt_canonical {s : State} {gc source} (h : s.Canonical) : (raiseDebugHalt s gc source).Canonical :=
  .foldl (fun _ _ ht => .ite ht ht) h

theorem execTdgo_canonical {s : State} (h : s.Canonical) : Out.Canonical (execTdgo s) :=
  .ite (.next h) (.next (.mk (.foldl (fun _ _ ht => .ite (.mk ht) ht) (.mk (debugView_canonical h)))))

theorem execDbgsigHalt_canonical {s : State} (h : s.Canonical) : Out.Canonical (execDbgsigHalt s) :=
  runHead_canonical (.get_bind fun _ _ => .guard (.bind (.modify fun _ h => raiseDebugHalt_canonical h) fun _ => .pure)) h

theorem dumpSections_canonical {s : State} {d base bad flags ks} (h : s.Canonical) :
    (dumpSections s d base bad flags ks).1.Canonical := by
  induction ks generalizing s flags with
  | nil => exact h
  | cons k ks ih =>
    unfold dumpSections
    dsimp only
    split
    · exact h
    · split
      · exact h
      · rename_i hr
        exact ih (putImage_canonical h _ hr)

theorem okOr_canonical {r : Except Nat State} {t : State} : OkAll State.Canonical r → t.Canonical →
    (match r with
      | .ok u => u
      | .error _ => t : State).Canonical := by
  intro hr ht
  cases r with
  | ok u => exact hr u rfl
  | error _ => exact ht

/-- `putImage` and the sections written before are abstracted first: the kernel would otherwise run them on the literal offsets. -/
theorem writeDump_canonical {s : State} {d base bad} (h : s.Canonical) : (writeDump s d base bad).Canonical := by
  have h1 : (dumpSections s d base bad 0 [1, 2, 3]).1.Canonical := dumpSections_canonical h
  have hput {t : State} {q vf va ws} (ht : t.Canonical) : OkAll State.Canonical (putImage t q vf va ws) := putImage_canonical ht
  rw [show writeDump = _ by delta writeDump; rfl]
  generalize dumpSections s d base bad 0 [1, 2, 3] = x at h1 ⊢
  generalize @putImage = put at hput ⊢
  obtain ⟨s1, flags, cut⟩ := x
  exact okOr_canonical (hput (okOr_canonical (hput h1) h1)) (okOr_canonical (hput h1) h1)

theorem dumpDone_canonical {s : State} {d} (h : s.Canonical) : (dumpDone s d).Canonical := by
  unfold dumpDone
  refine .mk ?_
  split <;> exact h

theorem execCoreDumpWrite_canonical {s : State} (h : s.Canonical) : Out.Canonical (execCoreDumpWrite s) := by
  unfold execCoreDumpWrite
  split
  · refine .next (dumpDone_canonical (.mk (.mk (.mk (writeDump_canonical ?_)))))
    exact .mk h
  · exact .ite (.next (dumpDone_canonical (.mk (.mk h)))) (.next (.mk h))
  · exact .next h

/-! ### The functions of Machine/System -/

theorem execHstart_canonical {s : State} {a b c nw det imm} (h : s.Canonical) :
    Out.Canonical (execHstart a b c nw det imm s) := by
  unfold execHstart
  refine runHead_canonical (.bind pcOf_keeps fun _ => .bind decides_keeps fun _ => .ite ?_ ?_) h
  · refine .bind jumpTo_keeps fun _ => .get_bind fun _ _ => ?_
    split
    · exact .ite writeNext_keeps .throw
    · exact .bind src_keeps fun _ => .bind src_keeps fun _ => .bind (.modify fun _ h => h) fun _ => writeNext_keeps
  · refine .get_bind fun _ _ => ?_
    split
    · exact .ite writeNext_keeps .throw
    · exact .bind src_keeps fun _ => .bind src_keeps fun _ => .bind (.modify fun _ h => h) fun _ => writeNext_keeps

theorem haltControl_keeps : Eff.Keeps haltControl := by
  unfold haltControl
  refine .get_bind fun _ _ => .guard (.guard (.bind drainRemote_keeps fun _ => ?_))
  exact .bind (.modify fun _ h => .foldl (fun _ _ ht => .ite ht ht) h) fun _ => .bind modMe_keeps fun _ => .pure

theorem haltHart_keeps : Eff.Keeps haltHart := .get_bind fun _ _ => .ite .pure (.ite .throw .throw)

theorem execEret_canonical {s : State} (h : s.Canonical) : Out.Canonical (execEret s) := by
  unfold execEret
  refine runHead_canonical ?_ h
  exact .get_bind fun _ _ => .guard (.guard (.bind decides_keeps fun _ => .ite (.bind jumpTo_keeps fun _ =>
    .when (.modify fun _ h => closeChunks_canonical h) fun _ => .bind modMe_keeps fun _ => .pure) (.bind .pure fun _ =>
    .when (.modify fun _ h => closeChunks_canonical h) fun _ => .bind modMe_keeps fun _ => .pure)))

theorem execLineFetch_canonical {s : State} (h : s.Canonical) : Out.Canonical (execLineFetch s) := by
  unfold execLineFetch
  split
  · rename_i hr
    exact .next (fetchLine_canonical h _ hr)
  · exact .next h

theorem endSequencer_canonical {s : State} {gc status} (h : s.Canonical) : (endSequencer s gc status).Canonical := by
  unfold endSequencer
  refine .foldl (fun _ _ ht => ?_) ?_
  · exact .ite (refuseTow_canonical ht) (endJob_canonical ht)
  · refine State.modEngine_canonical ?_
    split
    · refine .ite (.foldl (fun _ _ ht => endJob_canonical ht) h) ?_
      exact post_canonical (payOwed_canonical (leaveSession_canonical (.foldl (fun _ _ ht => endJob_canonical ht) h)))
    · exact .foldl (fun _ _ ht => endJob_canonical ht) h

theorem failHart_canonical {s : State} {h} (hs : s.Canonical) : (failHart s h).Canonical := by
  unfold failHart
  refine .ite (endSequencer_canonical hs) (.foldl (fun _ _ ht => ?_) ?_)
  · exact failRequest_canonical ht
  · refine State.modEngine_canonical ?_
    split
    · exact endFord_canonical (leaveFord_canonical hs)
    · exact .ite (.foldl (fun _ _ ht => leaveCopy_canonical ht) hs) hs

/-! ### The functions of Machine/Host -/

theorem execHostBar2Access_canonical {s : State} (h : s.Canonical) : Out.Canonical (execHostBar2Access s) := by
  unfold execHostBar2Access
  refine .ite (.next h) ?_
  split
  · exact .next h
  · rename_i hr
    have ht := translate_canonical h _ hr
    refine .ite ?_ ?_
    · split
      · rename_i hr
        exact .next (translate_canonical h _ hr)
      · rename_i hr
        exact .next (translate_canonical h _ hr)
      · rename_i hr
        exact .next (translate_canonical h _ hr)
      · exact .next ht
    · split
      · rename_i hr
        exact .next (performAt_canonical (translate_canonical h _ hr))
      · rename_i hr
        exact .next (hostStore_canonical (translate_canonical h _ hr))
      · rename_i hr
        have ht1 := translate_canonical h _ hr
        exact .ite (.next (devWrite_canonical ht1)) (.next ht1)
      · exact .next ht

theorem execSlicePartition_canonical {s : State} (h : s.Canonical) : Out.Canonical (execSlicePartition s) := by
  unfold execSlicePartition
  refine .ite (.next h) (.ite (.next (writeNear_canonical h)) ?_)
  split
  · exact .next h
  · exact .next (setNear_canonical h)

theorem execEctlGo_canonical {s : State} (h : s.Canonical) : Out.Canonical (execEctlGo s) := by
  unfold execEctlGo
  dsimp only
  split
  · exact .next (.mk h)
  · refine .ite (.next (.mk h)) ?_
    split
    · exact .next (.mk h)
    · refine .ite (.next (.mk h)) ?_
      have h1 (k bs) : Memory.wf (Memory.writeList s.mem k bs) = true := Memory.wf_writeList _ _ h
      exact .ite (.next (.mk (h1 _ _))) (.next (startEctl_canonical (.mk (h1 _ _))))

theorem execEctlRst_canonical {s : State} (h : s.Canonical) : Out.Canonical (execEctlRst s) := by
  unfold execEctlRst
  split
  · exact .next h
  · exact .ite (.next (startEctl_canonical h)) (.next h)

theorem execDeviceReset_canonical {s : State} (h : s.Canonical) : Out.Canonical (execDeviceReset s) := by
  refine .next (Memory.wf_filter ?_ _)
  exact List.foldlRecOn (motive := fun m => Memory.wf m = true) _ _ h fun m hm _ _ => Memory.wf_write hm _ _

theorem endPontoon_canonical {s : State} {gc} (h : s.Canonical) : (endPontoon s gc).Canonical :=
  afterJob_canonical (.foldl (fun _ _ ht => refuseTow_canonical ht) (State.modEngine_canonical h))

theorem trip_canonical {s : State} (h : s.Canonical) : (trip s).Canonical := .foldl (fun _ _ ht => killLaunch_canonical ht) h

/-! ### The functions of Machine/Dispatch -/

theorem exec_canonical {i} {s : State} (h : s.Canonical) : Out.Canonical (exec i s) := by
  cases i with
  | nop | chunkEnd => exact runHead_canonical .pure h
  | halt => exact runHead_canonical (.get_bind fun _ _ => .ite haltHart_keeps haltControl_keeps) h
  | brk => exact runHead_canonical (.get_bind fun _ _ => .guard .throw) h
  | trap => exact runHead_canonical (.bind linkPc_keeps fun _ => .throw) h
  | eret => exact execEret_canonical h
  | fence => exact execFence_canonical h
  | srr => exact execSrr_canonical h
  | srw => exact execSrw_canonical h
  | liI16 | liI32 | liI48 | liHi => exact runHead_canonical writeNext_keeps h
  | leaBase => exact runHead_canonical (.bind gr_keeps fun _ => writeNext_keeps) h
  | leaPc => exact runHead_canonical (.bind pcOf_keeps fun _ => writeNext_keeps) h
  | leaIndex => exact runHead_canonical (.bind gr_keeps fun _ => .bind gr_keeps fun _ => writeNext_keeps) h
  | leaPcIndex => exact runHead_canonical (.bind pcOf_keeps fun _ => .bind gr_keeps fun _ => writeNext_keeps) h
  | addRr | subRr | andRr | orRr | xorRr | shlRr | shrRr | sraRr | minRr | maxRr | minuRr | maxuRr | cmpRr | mul |
    mulh | mulhu | div | divu | rem | remu => exact runHead_canonical alu2_keeps h
  | addRi16 | andRi16 | orRi16 | xorRi16 | shlRi16 | shrRi16 | sraRi16 | addRri32 | andRri32 | orRri32 | xorRri32 |
    cmpRi16 | bfx | clz | popc => exact runHead_canonical alu1_keeps h
  | bfi => exact runHead_canonical (.bind src_keeps fun _ => .bind gr_keeps fun _ => writeNext_keeps) h
  | ldRi16 => exact runHead_canonical (.bind gr_keeps fun _ => loadTo_keeps) h
  | ldRri32 => exact runHead_canonical (.bind gr_keeps fun _ => .bind gr_keeps fun _ => loadTo_keeps) h
  | stRi16 => exact runHead_canonical (.bind gr_keeps fun _ => storeFrom_keeps) h
  | stRri32 => exact runHead_canonical (.bind gr_keeps fun _ => .bind gr_keeps fun _ => storeFrom_keeps) h
  | lda => exact runHead_canonical (.bind orderAt_keeps fun _ => .bind gr_keeps fun _ => loadTo_keeps) h
  | stl => exact runHead_canonical (.bind orderAt_keeps fun _ => .bind gr_keeps fun _ => storeFrom_keeps) h
  | aadd | amin | amax | aand | aor | axor | aswap => exact runHead_canonical (atomic_keeps .pure) h
  | acas => exact runHead_canonical (atomic_keeps src_keeps) h
  | bRi16 | bRri32 => exact runHead_canonical branch_keeps h
  | jal => exact runHead_canonical (.bind pcOf_keeps fun _ => jumpLink_keeps) h
  | jalr => exact runHead_canonical (.bind gr_keeps fun _ => jumpLink_keeps) h
  | hstart => exact execHstart_canonical h
  | hjoin => exact execHjoin_canonical h
  | hend => exact execHend_canonical h
  | hyield => exact runHead_canonical (.get_bind fun _ _ => .pure) h
  | gang => exact execGang_canonical h
  | split => exact execSplit_canonical h
  | phaseT => exact execPhaseT_canonical h
  | phaseE => exact runHead_canonical (.get_bind fun _ _ => .guard (.bind modMe_keeps fun _ => .pure)) h
  | tideRd | xstat | rtv | pilotst | trcRdEnt | trcRdCnt | imbRd | dumpst =>
    exact runHead_canonical (.get_bind fun _ _ => writeNext_keeps) h
  | tideWait => exact execTideWait_canonical h
  | waitmem => exact execWaitmem_canonical h
  | sendmsg => exact execSendmsg_canonical h
  | waitmsg => exact runHead_canonical (.get_bind fun _ _ => .ite .pure (.ite .throw .throw)) h
  | vadd | vsub | vmul | vrcpe | vrsqe | vexp2 | vlog2 | vrefn => exact runVec_canonical fpVec_keeps h
  | vmin | vmax => exact runVec_canonical minmaxVec_keeps h
  | vfma => exact runVec_canonical (.ite wideFma_keeps fpVec_keeps) h
  | viadd | visub | vimul | vimin | vimax | vishl | vishr | vand | vor | vxor => exact runVec_canonical intVec_keeps h
  | vcmp => exact runVec_canonical (.bind vctl_keeps fun _ => .get_bind fun _ _ => putPred_keeps) h
  | vicmp => exact runVec_canonical (.get_bind fun _ _ => putPred_keeps) h
  | kwhile => exact runVec_canonical (.bind src_keeps fun _ => .bind src_keeps fun _ => putPred_keeps) h
  | kand | kor | kxor | kandn | kmov | knot => exact runVec_canonical setPred_keeps h
  | kcnt | vwidth | vseedRd => exact runVec_canonical (.get_bind fun _ _ => .bind dstAll_keeps fun _ => .pure) h
  | vld => exact runVec_canonical (.bind vbase_keeps fun _ => vload_keeps) h
  | vst => exact execVst_canonical h
  | vlds => exact runVec_canonical (.bind vbase_keeps fun _ => .bind gr_keeps fun _ => vload_keeps) h
  | vsts => exact execVsts_canonical h
  | vgath => exact runVec_canonical (.get_bind fun _ _ => .bind vbase_keeps fun _ => vload_keeps) h
  | vscat => exact execVscat_canonical h
  | vcvt => exact execVcvt_canonical h
  | vpack => exact runVec_canonical (.ite packMx_keeps (.bind convVec_keeps fun _ => .pure)) h
  | vunpk => exact runVec_canonical (.ite unpackMx_keeps (.bind convVec_keeps fun _ => .pure)) h
  | vdotf8 => exact execVdotf8_canonical h
  | vdoti8 => exact execVdoti8_canonical h
  | vred => exact execVred_canonical h
  | vscan => exact execVscan_canonical h
  | vperm | vsel => exact runVec_canonical (.get_bind fun _ _ => .bind putVec_keeps fun _ => .pure) h
  | vbcast => exact execVbcast_canonical h
  | vpeer => exact runVec_canonical (.get_bind fun _ _ => .bind putAt_keeps fun _ => .pure) h
  | vhist => exact execVhist_canonical h
  | vseedWr => exact runVec_canonical (.bind src_keeps fun _ => .bind setCtr_keeps fun _ => .pure) h
  | vseedXchg => exact execVseedXchg_canonical h
  | vext => exact execVext_canonical h
  | vins => exact execVins_canonical h
  | bbGet | bbPeek => exact runHead_canonical getBits_keeps h
  | bbSkip => exact execBbSkip_canonical h
  | bbFill => exact execBbFill_canonical h
  | bbDec => exact execBbDec_canonical h
  | bbSave => exact execBbSave_canonical h
  | bbRest => exact execBbRest_canonical h
  | xreq => exact execXreq_canonical h
  | launch => exact execLaunch_canonical h
  | evwait => exact execEvwait_canonical h
  | evsig => exact execEvsig_canonical h
  | lqstat => exact runHead_canonical (.when illegalOperand_keeps fun _ => .get_bind fun _ _ => writeNext_keeps) h
  | yieldOp => exact runOnce_canonical (.get_bind fun _ _ => .pure) h
  | sync => exact runHead_canonical (.ite syncCore_keeps syncWide_keeps) h
  | dtake => exact execDtake_canonical h
  | dplaceStart => exact execDplaceStart_canonical h
  | dplacePreq => exact execDplacePreq_canonical h
  | dplaceSave => exact execDplaceSave_canonical h
  | dplaceRest => exact execDplaceRest_canonical h
  | dplaceKill => exact execDplaceKill_canonical h
  | cpyPk => exact execCpyPk_canonical h
  | cpyLand => exact execCpyLand_canonical h
  | cpyRec => exact execCpyRec_canonical h
  | cpyLoop => exact execCpyLoop_canonical h
  | cpycan => exact execCpycan_canonical h
  | landAcq => exact execLandAcq_canonical h
  | landRel => exact execLandRel_canonical h
  | landInit => exact execLandInit_canonical h
  | halloc => exact execHalloc_canonical h
  | hfree => exact execHfree_canonical h
  | hbump => exact execHbump_canonical h
  | jpeek => exact execJpeek_canonical h
  | jdrop => exact execJdrop_canonical h
  | bget => exact execBget_canonical h
  | bstreamMove => exact execBstreamMove_canonical h
  | bstreamOwner => exact execBstreamOwner_canonical h
  | bstreamFwd => exact execBstreamFwd_canonical h
  | blandWait => exact execBlandWait_canonical h
  | blandFill => exact execBlandFill_canonical h
  | blandDone => exact execBlandDone_canonical h
  | pjob => exact execPjob_canonical h
  | ppoll => exact execPpoll_canonical h
  | pwait => exact execPwait_canonical h
  | pcan => exact execPcan_canonical h
  | pheatSet => exact execPheatSet_canonical h
  | pheatAdd => exact execPheatAdd_canonical h
  | pmonRing | pmonBank | pmapRd =>
    exact runHead_canonical (.bind ringAddr_keeps fun _ => .get_bind fun _ _ => writeNext_keeps) h
  | pmonTemp => exact runHead_canonical (.bind ringAddr_keeps fun _ => .bind takeFree_keeps fun _ => writeNext_keeps) h
  | psettle => exact execPsettle_canonical h
  | pcalFull | pcalOfs => exact runHead_canonical pcal_keeps h
  | pmapSwap => exact execPmapSwap_canonical h
  | pmapIdent => exact execPmapIdent_canonical h
  | pstat => exact runHead_canonical (.get_bind fun _ _ => .when illegalOperand_keeps fun _ => writeNext_keeps) h
  | prowgoDrop | prowgoMem => exact runHead_canonical (prowgo_keeps .pure) h
  | prowgoLand => exact runHead_canonical (prowgo_keeps (.bind src_keeps fun _ => .pure)) h
  | paccRdN | paccRdP => exact runHead_canonical paccRd_keeps h
  | towEnter => exact execTowEnter_canonical h
  | towExit => exact execTowExit_canonical h
  | towStat => exact execTowStat_canonical h
  | towWait => exact execTowWait_canonical h
  | fenrol => exact execFenrol_canonical h
  | fleave => exact execFleave_canonical h
  | frb | fmax | fmin => exact runOnce_canonical kickFord_keeps h
  | fpop => exact runHead_canonical (.bind grantedAtt_keeps fun _ => .get_bind fun _ _ => writeNext_keeps) h
  | falign => exact execFalign_canonical h
  | fstat => exact execFstat_canonical h
  | femitTake => exact execFemitTake_canonical h
  | femitLoad => exact execFemitLoad_canonical h
  | femitFrame => exact execFemitFrame_canonical h
  | femitDone => exact execFemitDone_canonical h
  | fcountRd => exact execFcountRd_canonical h
  | fcountEl => exact execFcountEl_canonical h
  | fcountEx => exact execFcountEx_canonical h
  | lnkst => exact execLnkst_canonical h
  | ttselSw => exact execTtselSw_canonical h
  | ttselSeg => exact execTtselSeg_canonical h
  | trcRdClr => exact runHead_canonical (.bind modMyCore_keeps fun _ => writeNext_keeps) h
  | dbgsigHalt => exact execDbgsigHalt_canonical h
  | dbgsigTrig => exact runHead_canonical (.bind (.modify fun _ h => sendTrigger_canonical h) fun _ => .pure) h
  | dbgsigMark => exact runHead_canonical (.bind (.modify fun _ h => .ite h h) fun _ => .pure) h
  | reservedOpcode => exact .next (trapHead_canonical h)
  | lineFetch => exact execLineFetch_canonical h
  | asyncTrapDelivery => exact .next (deliverAsync_canonical h)
  | tpinWrite => exact runPart_canonical pinTo_keeps h
  | hbindWrite => exact runPart_canonical writeHbind_keeps h
  | timedPhaseEntry => exact .ite (execPhaseT_canonical h) (.next h)
  | waitmemWake => exact execWaitmemWake_canonical h
  | waitmemTimeout => exact execWaitmemTimeout_canonical h
  | barrierRelease => exact execBarrierRelease_canonical h
  | meshPush => exact partOf_canonical pushMesh_keeps h
  | meshPop => exact partOf_canonical (popInto_keeps popMesh_keeps) h
  | qcPush => exact partOf_canonical pushQc_keeps h
  | qcPop => exact partOf_canonical (popInto_keeps popQc_keeps) h
  | jetRead => exact partOf_canonical (popInto_keeps popJet_keeps) h
  | prowRead => exact partOf_canonical (popInto_keeps popProw_keeps) h
  | xqPush => exact partOf_canonical pushXq_keeps h
  | xqPop => exact partOf_canonical (popInto_keeps popXq_keeps) h
  | qxPush => exact partOf_canonical pushQx_keeps h
  | qxPop => exact partOf_canonical (popInto_keeps popQx_keeps) h
  | localArrival => exact execLocalArrival_canonical h
  | chunkCommit => exact .next (commitAll_canonical h)
  | vectorStorePart => exact execVectorStorePart_canonical h
  | transformClaimLapse | remoteStoreAck | tideTick | tideSample | translationInvalidate | efpop | getVersion |
    getCapabilities | negotiateAlgorithms | getDigests | getCertificate | challenge | getMeasurements |
    powerCapCheck => exact .next h
  | transformDecodeChunk => exact execTransformDecodeChunk_canonical h
  | decoderWatchdogCutoff => exact execDecoderWatchdogCutoff_canonical h
  | transformTranspose => exact execTransformTranspose_canonical h
  | transformConvert => exact execTransformConvert_canonical h
  | transformResponse => exact execTransformResponse_canonical h
  | evwaitWake => exact execEvwaitWake_canonical h
  | engineKickAccept => exact execEngineKickAccept_canonical h
  | engineHartFaultStop => exact .ite (.next (pushEfault_canonical (failHart_canonical h))) (.next h)
  | engineHartWake => exact .ite (.next (completeWait_canonical h)) (.next h)
  | doorbell => exact .next (.foldl (fun _ _ ht => ht) h)
  | klnidKill => exact execKlnidKill_canonical h
  | launchRecordTake => exact execLaunchRecordTake_canonical h
  | launchPlacement => exact (execLaunchPlacement_canonical h :)
  | launchRetirement => exact execLaunchRetirement_canonical h
  | timeSliceExpiry => exact execTimeSliceExpiry_canonical h
  | preemptionMark => exact execPreemptionMark_canonical h
  | preemptionGraceExpiry => exact execPreemptionGraceExpiry_canonical h
  | launchRestore => exact (execLaunchRestore_canonical h :)
  | launchKill => exact execLaunchKill_canonical h
  | killComplete => exact execKillComplete_canonical h
  | bargeForward => exact execBargeForward_canonical h
  | bargeCopy => exact execBargeCopy_canonical h
  | loopIteration => exact execLoopIteration_canonical h
  | jobStart => exact execJobStart_canonical h
  | tileLoad => exact execTileLoad_canonical h
  | tileStream => exact execTileStream_canonical h
  | rowDispatch => exact .next (dispatchRow_canonical h)
  | jobComplete => exact execJobComplete_canonical h
  | jobFailure => exact execJobFailure_canonical h
  | jobPark => exact execJobPark_canonical h
  | driftEstimate => exact .ite (.next h) (.ite (.next (.ite h h)) (.next (driftMove_canonical (.ite h h))))
  | bankSettled | fordCensus | fordReformNotice | remoteStoreLost | portRetrainTimeout | pkick | pilotWatchdogReset |
    pilotShadowUpdate | fcenEnable => exact .ite (.next h) (.next h)
  | pthrsWrite => exact .next (.ite (setPthrs_canonical h) h)
  | sequencerRetune => exact execSequencerRetune_canonical h
  | towSessionStart => exact execTowSessionStart_canonical h
  | towWtile => exact execTowWtile_canonical h
  | towRun => exact execTowRun_canonical h
  | towPromote => exact execTowPromote_canonical h
  | towDrain => exact execTowDrain_canonical h
  | towRoute => exact execTowRoute_canonical h
  | towSync => exact execTowSync_canonical h
  | towBranch => exact execTowBranch_canonical h
  | towCall => exact execTowCall_canonical h
  | towRet => exact execTowRet_canonical h
  | towExitBlock => exact execTowExitBlock_canonical h
  | towReservedBlock => exact execTowReservedBlock_canonical h
  | towStop => exact execTowStop_canonical h
  | towPark => exact execTowPark_canonical h
  | towCompletion => exact execTowCompletion_canonical h
  | fordRequestTake => exact execFordRequestTake_canonical h
  | fordFrame => exact execFordFrame_canonical h
  | fordComplete => exact execFordComplete_canonical h
  | fordTowHandover => exact execFordTowHandover_canonical h
  | fordReformApply => exact execFordReformApply_canonical h
  | fordFallbackCollective => exact execFordFallbackCollective_canonical h
  | fordFallbackTimeout => exact execFordFallbackTimeout_canonical h
  | fsegctlWrite => exact .ite (.next h) (.ite (.next (.ite h h)) (.next (postReform_canonical (.ite h h))))
  | packetForward => exact execPacketForward_canonical h
  | remoteAccessTimeout => exact execRemoteAccessTimeout_canonical h
  | routeCommit => exact .next (flushHeld_canonical h)
  | switchHoldDrain => exact execSwitchHoldDrain_canonical h
  | switchDark => exact .ite (.next (.foldl (fun _ _ ht => modPorts_canonical ht) h)) (.next h)
  | switchRelock => exact .ite (.next (modPorts_canonical h)) (.next h)
  | switchCommit => exact .ite (.next (flushHeld_canonical (.ite (modPorts_canonical h) (modPorts_canonical h)))) (.next h)
  | codewordReceive => exact execCodewordReceive_canonical h
  | portRetrain => exact execPortRetrain_canonical h
  | lhstClear => exact .next (.ite h h)
  | pilotRestart => exact .ite (.next (startHart_canonical h)) (.ite (.next (startEctl_canonical h)) (.next h))
  | clusterHalt => exact .ite (.next (haltCluster_canonical h)) (.next h)
  | crossTriggerReceive =>
    exact .ite (.ite (.next (haltCluster_canonical h)) (.next (raiseDebugHalt_canonical h))) (.next h)
  | tdgo => exact execTdgo_canonical h
  | debugWindowAccess => exact .ite (.ite (.next h) (.next h)) (.next h)
  | coreDumpWrite => exact execCoreDumpWrite_canonical h
  | hostBar2Access => exact execHostBar2Access_canonical h
  | registerWrite => exact .ite (.ite (.next h) (.next (devWrite_canonical h))) (.next h)
  | fcenDisable => exact .ite (.next (.foldl (fun _ _ ht => killLaunch_canonical ht) h)) (.next h)
  | slicePartition => exact execSlicePartition_canonical h
  | alogcWrite => exact .ite (.next h) (.next (flushRun_canonical h))
  | ectlGo => exact execEctlGo_canonical h
  | ectlRst => exact execEctlRst_canonical h
  | deviceReset => exact execDeviceReset_canonical h
  | gofull => exact .ite (.next h) (.ite (.next h) (.next (reformAll_canonical h)))
  | cfenceCluster => exact .ite (.next h) (.next (.foldl (fun _ _ ht => killLaunch_canonical ht) h))
  | cfencePontoon => exact .ite (.next h) (.next (endPontoon_canonical h))
  | thermalStateChange => exact .ite (.next h) (.next (.ite (trip_canonical h) h))
  | pcalComplete => exact .ite (.next (endCal_canonical h)) (.next h)
  | falignTrained => exact .ite (.next h) (.ite (.next h) (.next h))
  | portUp => exact .ite (.next (flushHeld_canonical h)) (.next h)
  | settleTimeout => exact execSettleTimeout_canonical h

/-! ### The functions of Machine/Step -/

theorem badHead_canonical {s : State} {code val} (h : s.Canonical) : Out.Canonical (badHead s code val) :=
  .next (trapHead_canonical h)

theorem badOperand_canonical {s : State} {op} (h : s.Canonical) : Out.Canonical (badOperand s op) := by
  unfold badOperand
  split <;> exact badHead_canonical h

theorem waitOthers_canonical {s : State} {ready q} (h : s.Canonical) : (waitOthers s ready q).Canonical :=
  .foldl (fun _ _ ht => ht) h

theorem account_canonical {s : State} {ready drain g q} (h : s.Canonical) : (account s ready drain g q).Canonical := by
  unfold account
  refine .mk (.foldl (fun _ _ ht => .ite ht ?_) (waitOthers_canonical h))
  split <;> exact ht

theorem runLine_canonical {s : State} {l} (h : s.Canonical) : Out.Canonical (runLine s l) := by
  unfold runLine
  refine .ite (badHead_canonical h) ?_
  split
  · exact exec_canonical h
  · exact badHead_canonical h
  · exact badOperand_canonical h

theorem stepHead_canonical {s : State} {q} (h : s.Canonical) : Out.Canonical (stepHead s q) := by
  unfold stepHead
  dsimp only
  split
  · exact .ite (.next (.mk h)) (badHead_canonical (.mk h))
  · rename_i s1 l hr
    have h1 : s1.Canonical := fetchLine_canonical (s := { s with cur := leader s q, issued := false }) h _ hr
    have h2 (f) : (if isHart q then s1 else s1.modProc s1.cur f).Canonical := .ite h1 (.mk h1)
    exact .ite (runLine_canonical (h2 _)) (badHead_canonical (h2 _))

theorem headInCycle_canonical {s : State} {g q} (h : s.Canonical) : Out.Canonical (headInCycle s g q) := by
  unfold headInCycle
  refine .ite ?_ (stepHead_canonical h)
  have h1 (f) : Out.Canonical (stepHead (s.modCluster (g / 8) f) q) := stepHead_canonical (.mk h)
  split
  · rename_i hr
    exact .next (.mk (h1 _ _ hr))
  · exact h1 _

theorem coreStep_canonical {s0 : State} {g} (h : s0.Canonical) : Out.Canonical (coreStep s0 g) := by
  have h0 : (deliverAsync s0 (ctl g)).Canonical := deliverAsync_canonical h
  unfold coreStep
  refine .ite (.next h0) ?_
  dsimp only
  split
  · exact .next h0
  · refine .ite ?_ (.next (.mk (waitOthers_canonical h0)))
    split
    · rename_i hr
      exact .next (.foldl (fun _ _ ht => account_canonical ht) (headInCycle_canonical h0 _ hr))
    · exact headInCycle_canonical h0

theorem hartStep_canonical {s : State} {n} (h : s.Canonical) : Out.Canonical (hartStep s n) :=
  .ite (stepHead_canonical h) (.next h)

theorem runTurn_canonical {s : State} {t} (h : s.Canonical) : Out.Canonical (runTurn s t) := by
  unfold runTurn
  split
  · exact .ite (coreStep_canonical h) .fault
  · exact .ite (hartStep_canonical h) .fault
  · exact .ite (exec_canonical (.mk h)) .fault

theorem runCycle_canonical {s : State} (h : s.Canonical) : Out.Canonical (runCycle s) := by
  have h1 : Out.Canonical (if isHart s.cur then hartStep s (hartIx s.cur) else coreStep s (coreOf s.cur)) :=
    .ite (hartStep_canonical h) (coreStep_canonical h)
  unfold runCycle
  split
  · rename_i hr
    exact .next (.mk (h1 _ hr))
  · exact h1

theorem step_canonical {s : State} (h : s.Canonical) : Out.Canonical (step s) := by
  unfold step
  split
  · exact runTurn_canonical (.mk h)
  · exact runCycle_canonical h

/-- Settles O56: every function of the model that changes the memory does so by `Memory.write` or by leaving out cells. -/
theorem memoryStaysCanonical : Obligations.MemoryStaysCanonical :=
  fun _ t hs ht => step_canonical hs t ht

end Sys2Proof.Machine

namespace Sys2Proof.Machine

/-! ## Entering a synchronous trap (O53) -/

theorem flushFlight_inner (s : State) (q : Nat) : Inner s (flushFlight s q) := by
  have hfold (es : List Flying) : ∀ t, Inner t (es.foldl (fun t e => applyWrite t q e.w) t) := by
    induction es with
    | nil => exact Inner.refl
    | cons e es ih => exact fun t => (applyWrite_inner t q e.w).trans (ih _)
  unfold flushFlight
  dsimp only
  split
  · exact .refl s
  · exact (hfold _ s).trans (.modProc _ q _)

theorem addParts_inner (s : State) (q : Nat) : Inner s (addParts s q) := by
  have hfold (es : List (Nat × Nat)) : ∀ t, Inner t (es.foldl (fun t e => addBin t e.1 e.2 1) t) := by
    induction es with
    | nil => exact Inner.refl
    | cons e es ih => exact fun t => (addBin_inner t e.1 e.2 1).trans (ih _)
  unfold addParts
  split
  · exact .refl s
  · exact (hfold _ s).trans (.modProc _ q _)

theorem trapHead_alone {s : State} {code : Nat} {val pc : Word} (h : alone s = true) :
    trapHead s [(s.cur, code, val)] pc = { takeTrap (endChunk s s.cur) s.cur code pc val false with issued := true } := by
  have hm : members s s.cur = [s.cur] := (alone_iff s).1 h
  simp only [trapHead, hm, leader_alone hm]

/-! ### A fatal stop -/

theorem queueDump_procs (s : State) (d : DumpStop) : (queueDump s d).procs = s.procs := by
  unfold queueDump
  split
  · split
    · rfl
    · rfl
  · rfl

theorem fatalStop_stopped (s : State) (q code : Nat) (pc val : Word) : ((fatalStop s q code pc val).proc q).stopped = true := by
  have hproc : ∀ t : State, t.procs = (s.modProc q fun p => { p with stopped := true }).procs → (t.proc q).stopped = true := by
    intro t ht
    have : t.proc q = (s.modProc q fun p => { p with stopped := true }).proc q := by rw [State.proc, ht, State.proc]
    rw [this, State.proc_modProc]
  unfold fatalStop
  dsimp only
  split
  · exact hproc _ rfl
  · exact hproc _ (queueDump_procs _ _)

/-! ### The handler's line -/

theorem residentLine_modProc_of_fetch {s : State} {q la : Nat} {f : Proc → Proc} (hc : (f (s.proc q)).copy = (s.proc q).copy)
    (hl : (f (s.proc q)).lines = (s.proc q).lines) (hn : (f (s.proc q)).codeLen = (s.proc q).codeLen) :
    residentLine (s.modProc q f) q la = residentLine s q la := by
  simp only [residentLine, State.proc_modProc, hc, hl, hn, State.modProc_core]
  rfl

theorem checkTarget_resident {s : State} {q n : Nat} {t : Word} {l : Line} (h0 : t.getLsbD 0 = false)
    (hl : residentLine s q (lineBase t) = some l) (hn : l.check = some n) (h1 : 1 ≤ headIndex t) (h2 : headIndex t ≤ n) :
    checkTarget s q t = .ok (keepLine s q (lineBase t) l) := by
  have hne : ¬ headIndex t = 0 := Nat.one_le_iff_ne_zero.1 h1
  simp only [checkTarget, h0, hne, fetchLine_resident hl hn, hn, h1, h2, Option.getD_some, Bool.false_eq_true, or_self, if_false,
    and_self, if_true]

/-- The lines an agent holds once it has fetched line `la`, which is `l`: an engine hart holds none, and of its current line a
context holds the copy. -/
def linesKept (q la : Nat) (l : Line) (p : Proc) : List (Nat × Line) :=
  if isHart q = true ∨ p.copy.map (·.1) = some la then p.lines else FMap.put p.lines la l

theorem modProc_keepLine (s : State) (q la : Nat) (l : Line) (f : Proc → Proc) :
    (keepLine s q la l).modProc q f = s.modProc q fun p => f { p with lines := linesKept q la l p } := by
  unfold keepLine
  by_cases h : isHart q = true ∨ (s.proc q).copy.map (·.1) = some la
  · have hb : (isHart q || ((s.proc q).copy.map (·.1)) == some la) = true := by simpa using h
    rw [if_pos hb]
    exact modProc_congr (by simp only [linesKept, if_pos h])
  · have hb : ¬ (isHart q || ((s.proc q).copy.map (·.1)) == some la) = true := by simpa using h
    rw [if_neg hb, modProc_modProc]
    exact modProc_congr (by simp only [linesKept, if_neg h, Function.comp])

/-! ### The entry -/

/-- An agent as a synchronous trap enters it, before its PC is the handler's (R150). -/
def syncEntered (tide : Word) (q code : Nat) (pcAt val : Word) (p : Proc) : Proc :=
  { p with
    cause := wNat code, epc := pcAt, tval := val, ptim := p.timed && !isHart q, intrap := true, timed := false, wait := .idle
    waited := 0, resumeAt := if p.resumeAt.toNat ≤ tide.toNat then tide + 1 else p.resumeAt }

/-- The same agent at its handler, whose line is `l`. -/
def atHandler (tide : Word) (q code : Nat) (pcAt val : Word) (l : Line) (p : Proc) : Proc :=
  { syncEntered tide q code pcAt val p with lines := linesKept q (lineBase p.tvec) l p, r := { p.r with pc := p.tvec } }

/-- A trap whose handler lies in a resident line changes the agent alone. -/
theorem takeTrap_sync {s u : State} {q code n : Nat} {pcAt val : Word} {l : Line} (hu : addParts (flushFlight s q) q = u)
    (hi : (u.proc q).intrap = false) (ht : (u.proc q).tvec ≠ 0) (h0 : (u.proc q).tvec.getLsbD 0 = false)
    (hl : residentLine u q (lineBase (u.proc q).tvec) = some l) (hn : l.check = some n) (h1 : 1 ≤ headIndex (u.proc q).tvec)
    (h2 : headIndex (u.proc q).tvec ≤ n) :
    takeTrap s q code pcAt val false = u.modProc q (atHandler u.tide q code pcAt val l) := by
  have htide : s.tide = u.tide := by
    rw [← hu]
    exact ((flushFlight_inner s q).trans (addParts_inner _ q)).tide.symm
  have htvec : ((u.proc q).tvec == 0) = false := beq_eq_false_iff_ne.2 ht
  have hcheck : checkTarget (u.modProc q (syncEntered u.tide q code pcAt val)) q (u.proc q).tvec =
      .ok (keepLine (u.modProc q (syncEntered u.tide q code pcAt val)) q (lineBase (u.proc q).tvec) l) :=
    checkTarget_resident h0 ((residentLine_modProc_of_fetch rfl rfl rfl).trans hl) hn h1 h2
  have henter : (u.modProc q fun p => { p with
      cause := BitVec.ofNat 64 (code + 0), epc := pcAt, tval := val, ptim := p.timed && !isHart q,
      intrap := true, timed := false, wait := .idle, waited := 0,
      resumeAt := if p.resumeAt.toNat ≤ u.tide.toNat then u.tide + 1 else p.resumeAt }) =
      u.modProc q (syncEntered u.tide q code pcAt val) := rfl
  unfold takeTrap
  simp only [hu, hi, htvec, htide, henter, hcheck, Bool.or_self, Bool.false_eq_true, if_false]
  rw [modProc_keepLine, modProc_modProc]
  exact modProc_congr rfl

theorem takeTrap_fatal {s u : State} {q code : Nat} {pcAt val : Word} (hu : addParts (flushFlight s q) q = u)
    (h : (u.proc q).intrap = true ∨ (u.proc q).tvec = 0) : takeTrap s q code pcAt val false = fatalStop u q code pcAt val := by
  have hb : ((u.proc q).intrap || (u.proc q).tvec == 0) = true := by simpa using h
  simp only [takeTrap, hu, hb, if_true]

/-- Settles O53: the trap of a head in no gang is `takeTrap` behind the end of the chunk, and `takeTrap` changes the agent alone. -/
theorem trapEntry : Obligations.TrapEntry := by
  intro s code val pc ha
  dsimp only
  rw [trapHead_alone ha]
  generalize hu : addParts (flushFlight (endChunk s s.cur) s.cur) s.cur = u
  constructor
  · intro h
    rw [takeTrap_fatal hu h]
    exact ⟨rfl, fatalStop_stopped u s.cur code pc val⟩
  · intro l n hi ht h0 hl hn h1 h2
    rw [takeTrap_sync hu hi ht h0 hl hn h1 h2]
    refine ⟨State.proc_modProc u s.cur _, fun q hq => ?_, rfl⟩
    exact State.proc_modProc_ne u s.cur q (atHandler u.tide s.cur code pc val l) hq

end Sys2Proof.Machine

namespace Sys2Proof.Machine

/-! ## Atomics (O9) -/

/-! ### Ordering at a scope (R115, R129, R140) -/

theorem landBlock_procs (s : State) (x : Combine) : (landBlock s x).procs = s.procs := by
  unfold landBlock
  exact List.foldlRecOn (motive := fun t : State => t.procs = s.procs) _ _ rfl fun _ h _ _ => h

theorem sendCombined_procs (s : State) : (sendCombined s).procs = s.procs := by
  unfold sendCombined
  refine List.foldlRecOn (motive := fun t : State => t.procs = s.procs) _ _ rfl fun t h e _ => ?_
  exact List.foldlRecOn (motive := fun t : State => t.procs = s.procs) _ _ h fun t h x _ => (landBlock_procs t x).trans h

theorem sendCombined_cur (s : State) : (sendCombined s).cur = s.cur := by
  unfold sendCombined
  refine List.foldlRecOn (motive := fun t : State => t.cur = s.cur) _ _ rfl fun t h e _ => ?_
  refine List.foldlRecOn (motive := fun t : State => t.cur = s.cur) _ _ h fun t h x _ => ?_
  unfold landBlock
  exact List.foldlRecOn (motive := fun t : State => t.cur = s.cur) _ _ h fun _ h _ _ => h

theorem released_me (u : State) (sc : BitVec 3) : (u.released sc).me = u.me := by
  unfold State.released
  split
  · rw [State.me, State.proc, sendCombined_procs, sendCombined_cur]
    rfl
  · rfl

theorem released_myReg (u : State) (sc : BitVec 3) (b : BitVec 6) : (u.released sc).myReg b = u.myReg b := by
  show (u.released sc).me.r.readG b.toNat = u.me.r.readG b.toNat
  rw [released_me]

theorem orderAt_releases {u : State} {sc : BitVec 3} (h : ordered u sc true = true) : orderAt sc true u = .ok () (u.released sc) := by
  obtain ⟨ht, hr⟩ : (u.me.timed = false ∨ sc = 0) ∧ (sc.toNat < 4 ∨ u.me.remoteOut = []) := by simpa [ordered] using h
  have htimed : ¬ (u.me.timed && sc != 0) = true := by
    rcases ht with ht | ht
    · simp [ht]
    · simp [ht]
  have hdrain : ∀ k : Unit → Eff Unit,
      (if true && decide (4 ≤ sc.toNat) then drainRemote >>= k else k ()) u = k () u := by
    intro k
    split
    · rename_i h4
      have hlow : ¬ sc.toNat < 4 := Nat.not_lt.2 (by simpa using h4)
      exact Eff.bind_ok (drainRemote_none (hr.resolve_left hlow))
    · rfl
  unfold orderAt
  rw [Eff.bind_ok (Eff.get_apply u), if_neg htimed]
  refine (hdrain _).trans ?_
  unfold State.released
  by_cases h5 : sc = 5
  · simp only [h5, if_true]
    rfl
  · have : (sc == 5) = false := beq_eq_false_iff_ne.2 h5
    simp only [this, h5, if_false]
    rfl

/-! ### The new values (R167) -/

theorem signedOf_eq_sextNat {n x : Nat} (hn : 0 < n) (hx : x < 2 ^ (8 * n)) : signedOf n x = sextNat x (8 * n) := by
  have h2 : 2 ^ (8 * n) = 2 * 2 ^ (8 * n - 1) := by rw [← Nat.pow_succ']; congr 1; omega
  simp only [signedOf, sextNat, Nat.mod_eq_of_lt hx]
  split
  · rw [if_pos (by omega)]
  · rw [if_neg (by omega)]

theorem leNat_lt (bs : List Byte) : leNat bs < 2 ^ (8 * bs.length) := by
  induction bs with
  | nil => exact Nat.one_pos
  | cons b bs ih =>
    have hb : b.toNat < 256 := b.isLt
    have hp : 2 ^ (8 * (bs.length + 1)) = 256 * 2 ^ (8 * bs.length) := by rw [Nat.mul_add, Nat.pow_add, Nat.mul_comm]
    rw [leNat, List.length_cons, hp]
    omega

theorem natAt_lt (s : State) (a n : Nat) : s.natAt a n < 2 ^ (8 * n) := by
  have h := leNat_lt ((upTo n).map fun j => s.byteAt (a + j))
  rwa [List.length_map, show (upTo n).length = n from List.length_range] at h

theorem sextNat_lt_iff {dw : Bool} {x y : Nat} (hx : x < 2 ^ (8 * if dw then 8 else 4)) (hy : y < 2 ^ (8 * if dw then 8 else 4)) :
    signedOf (if dw then 8 else 4) x < signedOf (if dw then 8 else 4) y ↔
      sextNat x (8 * if dw then 8 else 4) < sextNat y (8 * if dw then 8 else 4) := by
  have hn : 0 < if dw then 8 else 4 := by cases dw <;> decide
  rw [signedOf_eq_sextNat hn hx, signedOf_eq_sextNat hn hy]

/-- The smaller of two numbers as `atomicNew` chooses it. -/
theorem atomicNew_min {dw u : Bool} {o y z : Nat} (ho : o < 2 ^ (8 * if dw then 8 else 4)) (hy : y < 2 ^ (8 * if dw then 8 else 4)) :
    (if u then min o y else if signedOf (if dw then 8 else 4) y < signedOf (if dw then 8 else 4) o then y else o) =
      atomicNew 1 (if dw then 8 else 4) u o y z := by
  cases u
  · simp only [atomicNew, sextNat_lt_iff hy ho, Bool.false_eq_true, if_false, decide_eq_true_eq]
  · simp only [atomicNew, if_true, decide_eq_true_eq]
    split <;> omega

/-- The larger of two numbers as `atomicNew` chooses it. -/
theorem atomicNew_max {dw u : Bool} {o y z : Nat} (ho : o < 2 ^ (8 * if dw then 8 else 4)) (hy : y < 2 ^ (8 * if dw then 8 else 4)) :
    (if u then max o y else if signedOf (if dw then 8 else 4) o < signedOf (if dw then 8 else 4) y then y else o) =
      atomicNew 2 (if dw then 8 else 4) u o y z := by
  cases u
  · simp only [atomicNew, sextNat_lt_iff ho hy, Bool.false_eq_true, if_false, decide_eq_true_eq]
  · simp only [atomicNew, if_true, decide_eq_true_eq]
    split <;> omega

/-- An atomic's meaning is `atomic` of a number `op` and a signedness, and its new value is `atomicNew`'s: ACAS alone reads its
fourth operand. -/
structure MeansAtomic (i : Instr) (f : Atomic) (op : Nat) (un : Bool) (new : Eff Word) : Prop where
  exec_eq : Sys2Proof.Machine.exec i = runHead i (atomic op f.a f.b f.c new f.dw un f.sc)
  new_ok : ∀ {z v0 v}, src f.d v0 = .ok z v → ∃ nv, new v0 = .ok nv v ∧
    ∀ {o y}, o < 2 ^ (8 * f.size) → y < 2 ^ (8 * f.size) →
      f.new o y (z.toNat % 2 ^ (8 * f.size)) = atomicNew op f.size un o y (nv.toNat % 2 ^ (8 * f.size))

/-- An atomic without a fourth operand. -/
theorem MeansAtomic.of_three {i : Instr} {f : Atomic} {op : Nat} {un : Bool}
    (he : Sys2Proof.Machine.exec i = runHead i (atomic op f.a f.b f.c (pure 0) f.dw un f.sc)) (hd : f.d = 0)
    (hn : ∀ {o y z nv}, o < 2 ^ (8 * f.size) → y < 2 ^ (8 * f.size) → f.new o y z = atomicNew op f.size un o y nv) :
    MeansAtomic i f op un (pure 0) where
  exec_eq := he
  new_ok := by
    intro z v0 v hz
    rw [hd, src_plain 0 v0 (by decide)] at hz
    cases hz
    exact ⟨0, rfl, hn⟩

theorem atomicOf_means {i : Instr} {f : Atomic} (hf : atomicOf i = some f) : ∃ op un new, MeansAtomic i f op un new := by
  unfold atomicOf at hf
  split at hf
  case h_9 => cases hf
  all_goals cases hf
  · refine ⟨0, false, pure 0, .of_three rfl rfl fun _ _ => ?_⟩
    rename_i dw _ _ _ _ _ _ _
    cases dw <;> rfl
  · exact ⟨1, _, pure 0, .of_three rfl rfl atomicNew_min⟩
  · exact ⟨2, _, pure 0, .of_three rfl rfl atomicNew_max⟩
  · exact ⟨3, false, pure 0, .of_three rfl rfl fun _ _ => rfl⟩
  · exact ⟨4, false, pure 0, .of_three rfl rfl fun _ _ => rfl⟩
  · exact ⟨5, false, pure 0, .of_three rfl rfl fun _ _ => rfl⟩
  · exact ⟨6, false, pure 0, .of_three rfl rfl fun _ _ => rfl⟩
  · exact ⟨7, false, _, rfl, fun {z _ _} hz => ⟨z, hz, fun _ _ => rfl⟩⟩

/-! ### The access -/

theorem atomicOp_own {op n pa : Nat} {va y nv : Word} {un : Bool} {v w : State}
    (hd : decodeVa v v.cur v.me.vf va.toNat = some .global) (hk : check va n n .atomic v = .ok (.own pa) w)
    (hw : isWcPage w va.toNat = false) :
    atomicOp op n va y nv un v = .ok (w.natAt pa n)
      (atomicAt w (leader w w.cur) 0 pa op n un (y.toNat % 2 ^ (8 * n)) (nv.toNat % 2 ^ (8 * n))).2 := by
  unfold atomicOp
  rw [Eff.bind_ok (Eff.get_apply v)]
  simp only [hd]
  rw [Eff.bind_ok hk]
  dsimp only
  rw [Eff.bind_ok (Eff.get_apply w)]
  simp only [hw, Bool.false_eq_true, if_false]
  rfl

theorem atomic_apply {op pa : Nat} {a b c : BitVec 6} {new : Eff Word} {dw un : Bool} {sc : BitVec 3} {u v0 v w t : State} {y nv : Word}
    (ho : ordered u sc true = true) (hc : src c (u.released sc) = .ok y v0) (hn : new v0 = .ok nv v)
    (hd : decodeVa v v.cur v.me.vf (u.myReg b).toNat = some .global)
    (hk : check (u.myReg b) (if dw then 8 else 4) (if dw then 8 else 4) .atomic v = .ok (.own pa) w)
    (hw : isWcPage w (u.myReg b).toNat = false)
    (ht : dst 1 a (wNat (w.natAt pa (if dw then 8 else 4))) (atomicAt w (leader w w.cur) 0 pa op (if dw then 8 else 4) un
      (y.toNat % 2 ^ (8 * (if dw then 8 else 4))) (nv.toNat % 2 ^ (8 * (if dw then 8 else 4)))).2 = .ok () t) :
    atomic op a b c new dw un sc u = .ok seqNext t := by
  unfold atomic
  rw [Eff.bind_ok (orderAt_releases ho), Eff.bind_ok (gr_apply b _), Eff.bind_ok hc, Eff.bind_ok hn, released_myReg,
    Eff.bind_ok (atomicOp_own hd hk hw)]
  exact Eff.bind_ok ht

/-- Settles O9: an atomic on this package's memory reads its operands, checks the address, and hands the old value to its
destination behind the store of the new one. -/
theorem atomicsComplete : Obligations.AtomicsComplete := by
  intro i f pa y z v w hf t s hr ha ⟨⟨ho, ⟨v0, hc, hz⟩, hd, hk, hw⟩, ht⟩ hl
  obtain ⟨op, un, new, hm⟩ := atomicOf_means hf
  obtain ⟨nv, hnv, hnew⟩ := hm.new_ok hz
  have hafter : f.after y z w pa = (atomicAt w (leader w w.cur) 0 pa op f.size un (y.toNat % 2 ^ (8 * f.size))
      (nv.toNat % 2 ^ (8 * f.size))).2 := by
    have hy : y.toNat % 2 ^ (8 * f.size) < 2 ^ (8 * f.size) := Nat.mod_lt _ (Nat.two_pow_pos _)
    simp only [Atomic.after, atomicAt, hnew (natAt_lt w pa f.size) hy]
  rw [hafter] at ht
  exact completes_alone hr ha (congrFun hm.exec_eq s) (atomic_apply ho hc hnv hd hk hw ht) hl

end Sys2Proof.Machine

namespace Sys2Proof.Machine

/-! ## Vector stores of one part (O23: R125, R209, R210, R224) -/

/-- What a vector store of one part leads to, whichever form its addresses have: the pace behind it is the form's (R198, R224). -/
theorem vstore_ends {u w : State} {a : BitVec 6} {kp : BitVec 3} {ty : BitVec 4} {ea : Nat → Word} (unit : Bool)
    (h : storesVector u a kp ty ea w) :
    ∃ w1, vstore a kp ty unit ea u = .ok { delay := if unit then 1 else elems u (typeWidth ty.toNat) } w1 ∧ w = w1.vresZero := by
  obtain ⟨part, u1, u2, wait, w1, htake, hwrite, hbank, rfl⟩ := h
  refine ⟨_, ?_, rfl⟩
  unfold vstore
  rw [Eff.bind_ok (Eff.get_apply u)]
  simp only [fld_low]
  rw [Eff.bind_ok htake]
  by_cases hv : u.me.r.vres.toNat % 2 ^ 16 = 0
  · rw [if_pos hv] at hwrite
    simp only [hv, ne_eq, not_true_eq_false, if_false]
    rw [Eff.bind_ok hwrite]
    exact storeEnd_apply hbank
  · rw [if_neg hv] at hwrite
    simp only [hv, ne_eq, not_false_eq_true, if_true]
    rw [Eff.bind_ok (show leaveChunk u1 = .ok () _ from rfl), Eff.bind_ok hwrite]
    exact storeEnd_apply hbank

/-- An instruction whose meaning is a vector store of the elements at `ea` completes where the store has one part (R210, R224). -/
theorem doesOnce_vstore {i : Instr} {body : Eff Next} {a : BitVec 6} {kp : BitVec 3} {ty : BitVec 4} (unit : Bool)
    {ea : State → Nat → Word} {w : State} (he : ∀ s, Sys2Proof.Machine.exec i s = runVec i body s)
    (hb : ∀ u, body u = vstore a kp ty unit (ea u) u) :
    DoesOnce i (fun u => storesVector u a kp ty (ea u) w) (fun _ => w)
      (fun u => { delay := if unit then 1 else elems u (typeWidth ty.toNat) }) := by
  intro s hr hH hc
  obtain ⟨w1, hv, rfl⟩ := vstore_ends unit hH
  refine completes_once hr (he s) ?_ hc
  rw [Eff.bind_ok ((hb _).trans hv), Eff.bind_ok (Eff.modify_apply _ _), ← vresZero_eq]
  rfl

/-- Settles O23: each form's addresses are the statement's, and the store of one part is the shared one. -/
theorem vectorStoresComplete : Obligations.VectorStoresComplete := by
  unfold Obligations.VectorStoresComplete
  refine ⟨?_, ?_, ?_⟩
  · intro a b kp t nt imm w
    exact doesOnce_vstore true (fun _ => rfl) fun u => Eff.bind_ok (vbase_apply b imm u)
  · intro a b c kp t nt imm w
    exact doesOnce_vstore false (fun _ => rfl) fun u =>
      (Eff.bind_ok (vbase_apply b imm u)).trans (Eff.bind_ok (gr_apply c u))
  · intro a b c kp t nt sh imm w
    exact doesOnce_vstore false (fun _ => rfl) fun u =>
      (Eff.bind_ok (Eff.get_apply u)).trans (Eff.bind_ok (vbase_apply b imm u))

end Sys2Proof.Machine

namespace Sys2Proof.Machine

/-! ## What loads and stores leave unchanged (O59: R106, R117, R121, R164) -/

/-! ### Bytes of a store (R2, R120) -/

theorem leBytes_getElem (n : Nat) : ∀ (x j : Nat) (h : j < (leBytes n x).length), (leBytes n x)[j] = BitVec.ofNat 8 (x / 2 ^ (8 * j)) := by
  induction n with
  | zero => exact fun _ _ h => absurd h (Nat.not_lt_zero _)
  | succ n ih =>
    intro x j h
    cases j with
    | zero => simp [leBytes]
    | succ j =>
      refine (ih (x / 256) j (by simpa [leBytes] using h)).trans ?_
      rw [Nat.div_div_eq_div_mul, show 256 * 2 ^ (8 * j) = 2 ^ (8 * (j + 1)) by rw [Nat.mul_add, Nat.pow_add, Nat.mul_comm]]

/-- A store of `n` bytes takes the low bytes of its value. -/
theorem leBytes_mod (n : Nat) : ∀ x, leBytes n (x % 2 ^ (8 * n)) = leBytes n x := by
  induction n with
  | zero => exact fun _ => rfl
  | succ n ih =>
    intro x
    have hp : 2 ^ (8 * (n + 1)) = 256 * 2 ^ (8 * n) := by rw [Nat.mul_add, Nat.pow_add, Nat.mul_comm]
    have hlow : BitVec.ofNat 8 (x % 2 ^ (8 * (n + 1))) = BitVec.ofNat 8 x := by
      apply BitVec.eq_of_toNat_eq
      rw [BitVec.toNat_ofNat, BitVec.toNat_ofNat, hp]
      exact Nat.mod_mul_right_mod x (2 ^ 8) _
    rw [leBytes, leBytes, hlow, hp, Nat.mod_mul_right_div_self, ih]

theorem FMap.find_put {α : Type} (m : FMap α) (k j : Nat) (x : α) :
    FMap.find (FMap.put m k x) j = if j = k then some x else FMap.find m j := by
  induction m with
  | nil => rfl
  | cons e m ih =>
    obtain ⟨i, y⟩ := e
    rw [FMap.put]
    split
    next hk =>
      subst hk
      simp only [FMap.find]
      split <;> rfl
    next hk =>
      split
      · rfl
      · simp only [FMap.find, ih]
        split
        next hj => rw [if_neg (hj ▸ Ne.symm hk)]
        · rfl

theorem cellsAt_cons (a : Nat) (b : Byte) (bs : List Byte) : cellsAt a (b :: bs) = (a, b) :: cellsAt (a + 1) bs := by
  simp only [cellsAt, upTo, List.length_cons, List.range_succ_eq_map, List.zip_cons_cons, List.map_cons, Nat.add_zero,
    List.zip_map_left, List.map_map]
  refine congrArg _ (List.map_congr_left fun e _ => ?_)
  simp [Nat.add_assoc, Nat.add_comm 1]

/-- A map with the bytes of a store put in. -/
def putCells (m : FMap Byte) (a : Nat) (bs : List Byte) : FMap Byte := (cellsAt a bs).foldl (fun h e => FMap.put h e.1 e.2) m

theorem putCells_cons (m : FMap Byte) (a : Nat) (b : Byte) (bs : List Byte) :
    putCells m a (b :: bs) = putCells (FMap.put m a b) (a + 1) bs := by
  rw [putCells, cellsAt_cons]
  rfl

theorem find_putCells_out (bs : List Byte) : ∀ (m : FMap Byte) (a k : Nat), (∀ j, j < bs.length → k ≠ a + j) →
    FMap.find (putCells m a bs) k = FMap.find m k := by
  induction bs with
  | nil => exact fun _ _ _ _ => rfl
  | cons b bs ih =>
    intro m a k h
    have hrest : ∀ j, j < bs.length → k ≠ a + 1 + j := fun j hj => by
      have := h (j + 1) (Nat.succ_lt_succ hj)
      omega
    rw [putCells_cons, ih _ _ _ hrest, FMap.find_put, if_neg (show k ≠ a from h 0 (Nat.succ_pos _))]

theorem find_putCells_in (bs : List Byte) : ∀ (m : FMap Byte) (a j : Nat) (h : j < bs.length),
    FMap.find (putCells m a bs) (a + j) = some bs[j] := by
  induction bs with
  | nil => exact fun _ _ _ h => absurd h (Nat.not_lt_zero _)
  | cons b bs ih =>
    intro m a j h
    rw [putCells_cons]
    cases j with
    | zero => rw [find_putCells_out _ _ _ _ fun j _ => by omega, FMap.find_put, if_pos (Nat.add_zero a)]; rfl
    | succ j =>
      rw [show a + (j + 1) = a + 1 + j by omega, ih _ _ _ (Nat.lt_of_succ_lt_succ h)]
      rfl

/-- Bytes performed at once leave every byte beside them. -/
theorem performAt_byteAt_out (s : State) (a k : Nat) (bs : List Byte) (h : ∀ j, j < bs.length → k ≠ a + j) :
    (performAt s a bs).byteAt k = s.byteAt k := by
  have hout : k < a ∨ a + bs.length ≤ k := by
    by_contra hc
    exact h (k - a) (by omega) (by omega)
  rw [performAt, State.byteAt, performBytes_mem, foldl_cellsAt]
  exact Memory.read_writeList_out bs _ _ _ hout

/-! ### What an agent keeps -/

/-- The stores that an agent's open chunk holds back. -/
def Proc.heldBytes (p : Proc) : FMap Byte := (p.chunk.map (·.held)).getD []

/-- An agent in no gang sees its own held stores over the performed bytes (R120). -/
theorem viewByte_leader {s : State} {q : Nat} (h : leader s q = q) (a : Nat) :
    viewByte s q a = (FMap.find (s.proc q).heldBytes a).getD (s.byteAt a) := by
  unfold viewByte Proc.heldBytes
  rw [h]
  cases (s.proc q).chunk <;> rfl

/-- An agent keeps its vector and system registers, its chunking, and the general registers that `K` names. -/
structure ProcKept (K : Nat → Prop) (p p' : Proc) : Prop where
  vector : VectorKept p.r p'.r
  system : SystemKept p p'
  single : p'.single = p.single
  regs : ∀ n, K n → p'.r.readG n = p.r.readG n

theorem ProcKept.trans {K : Nat → Prop} {p q r : Proc} (h : ProcKept K p q) (k : ProcKept K q r) : ProcKept K p r where
  vector := by
    obtain ⟨h1, h2, h3, h4, h5, h6, h7⟩ := h.vector
    obtain ⟨k1, k2, k3, k4, k5, k6, k7⟩ := k.vector
    exact ⟨k1.trans h1, k2.trans h2, k3.trans h3, k4.trans h4, k5.trans h5, k6.trans h6, k7.trans h7⟩
  system := by
    obtain ⟨h1, h2, h3, h4, h5, h6, h7, h8, h9, h10, h11, h12⟩ := h.system
    obtain ⟨k1, k2, k3, k4, k5, k6, k7, k8, k9, k10, k11, k12⟩ := k.system
    exact ⟨k1.trans h1, k2.trans h2, k3.trans h3, k4.trans h4, k5.trans h5, k6.trans h6, k7.trans h7, k8.trans h8, k9.trans h9,
      k10.trans h10, k11.trans h11, k12.trans h12⟩
  single := k.single.trans h.single
  regs n hn := (k.regs n hn).trans (h.regs n hn)

/-- Fields beside the kept ones change. -/
theorem ProcKept.of_rfl {K : Nat → Prop} {p p' : Proc} (hv : VectorKept p.r p'.r) (hs : SystemKept p p') (h1 : p'.single = p.single)
    (hg : p'.r.g = p.r.g) : ProcKept K p p' :=
  ⟨hv, hs, h1, fun n _ => by rw [Regs.readG, Regs.readG, hg]⟩

theorem VectorKept.refl (r : Regs) : VectorKept r r := ⟨rfl, rfl, rfl, rfl, rfl, rfl, rfl⟩
theorem SystemKept.refl (p : Proc) : SystemKept p p := ⟨rfl, rfl, rfl, rfl, rfl, rfl, rfl, rfl, rfl, rfl, rfl, rfl⟩
theorem ProcKept.refl {K : Nat → Prop} (p : Proc) : ProcKept K p p := .of_rfl (.refl _) (.refl _) rfl rfl

theorem Regs.readG_writeG_ne {r : Regs} {m n : Nat} {x : Word} (h : n ≠ m) : (r.writeG m x).readG n = r.readG n := by
  unfold Regs.writeG
  split
  · rfl
  · simp [Regs.readG, Ne.symm h]

/-- The agent that moves keeps what `ProcKept` says; every other agent, every core and every byte is as it was. -/
structure AccessKept (K : Nat → Prop) (s t : State) : Prop where
  cur : t.cur = s.cur
  cores : t.cores = s.cores
  mem : t.mem = s.mem
  others : ∀ p, p ≠ s.cur → t.proc p = s.proc p
  own : ProcKept K (s.proc s.cur) (t.proc s.cur)

namespace AccessKept
variable {K : Nat → Prop} {s t u : State}

theorem refl (s : State) : AccessKept K s s := ⟨rfl, rfl, rfl, fun _ _ => rfl, .refl _⟩

theorem trans (h : AccessKept K s t) (k : AccessKept K t u) : AccessKept K s u where
  cur := k.cur.trans h.cur
  cores := k.cores.trans h.cores
  mem := k.mem.trans h.mem
  others p hp := (k.others p (h.cur ▸ hp)).trans (h.others p hp)
  own := h.own.trans (h.cur ▸ k.own)

theorem modProc {f : Proc → Proc} (h : ProcKept K (s.proc s.cur) (f (s.proc s.cur))) : AccessKept K s (s.modProc s.cur f) where
  cur := rfl
  cores := rfl
  mem := rfl
  others _ hp := State.proc_modProc_ne _ _ _ _ hp
  own := by rw [State.proc_modProc]; exact h

theorem of_procs (h : CachesFilled s t) (hm : t.mem = s.mem) : AccessKept K s t where
  cur := h.2.2
  cores := h.2.1
  mem := hm
  others p _ := by rw [State.proc, h.1]; rfl
  own := by rw [show t.proc s.cur = s.proc s.cur by rw [State.proc, h.1]; rfl]; exact .refl _

theorem sameGang (h : AccessKept K s t) : SameGang s t := .of_cores h.cores

theorem members (h : AccessKept K s t) (hm : members s s.cur = [s.cur]) : Machine.members t t.cur = [t.cur] := by
  rw [members_congr h.sameGang, h.cur, hm]

theorem byteAt (h : AccessKept K s t) (a : Nat) : t.byteAt a = s.byteAt a := by
  rw [State.byteAt, h.mem]
  rfl

/-- What an agent in no gang sees behind an access: the stores it holds back now, over the bytes as they were. -/
theorem view (h : AccessKept K s t) (hm : Machine.members s s.cur = [s.cur]) (a : Nat) :
    viewByte t s.cur a = (FMap.find (t.proc s.cur).heldBytes a).getD (s.byteAt a) := by
  have hl : leader t s.cur = s.cur := by
    have := leader_alone (h.members hm)
    rwa [h.cur] at this
  rw [viewByte_leader hl, h.byteAt]

end AccessKept

/-! ### The steps of an access -/

theorem leafFor_mem {s t : State} {q vf va : Nat} {e : TlbEntry} (h : leafFor s q vf va = .ok (t, e)) : t.mem = s.mem := by
  have filled : ∀ (b : Bool) (u : State) (f : Cluster → Cluster), u.mem = s.mem →
      (if b = true then u.modCluster (clusterOf q) f else u).mem = s.mem := by
    intro b u f hu
    cases b <;> exact hu
  unfold leafFor at h
  simp only at h
  split at h
  · exact (Prod.mk.inj (Except.ok.inj h)).1 ▸ rfl
  split at h
  · exact (Prod.mk.inj (Except.ok.inj h)).1 ▸ filled _ _ _ rfl
  split at h
  · cases h
  · exact (Prod.mk.inj (Except.ok.inj h)).1 ▸ filled _ _ _ rfl

theorem translate_mem {s t : State} {q vf va : Nat} {perm : Perm} {l : Loc} (h : translate s q vf va perm = .ok (t, l)) :
    t.mem = s.mem := by
  unfold translate at h
  split at h
  · cases h
  next u e hu =>
    have htu : t = u := by
      simp only at h
      repeat' split at h
      all_goals simp_all
    exact htu ▸ leafFor_mem hu

/-- A check of an access that passes fills caches of translations alone (R112, R113). -/
theorem checkAccess_kept {K : Nat → Prop} {s t : State} {q vf : Nat} {win : FMap Word} {va : Word} {n al : Nat} {perm : Perm}
    {timed : Bool} {l : Loc} (h : checkAccess s q vf win va n al perm timed = .ok (t, l)) :
    AccessKept K s t ∧ t.procs = s.procs := by
  have same : ∀ {l' : Loc}, (Except.ok (s, l') : Except Nat (State × Loc)) = .ok (t, l) → AccessKept K s t ∧ t.procs = s.procs := by
    intro l' he
    exact (Prod.mk.inj (Except.ok.inj he)).1 ▸ ⟨.refl s, rfl⟩
  unfold checkAccess at h
  split at h
  · cases h
  split at h
  · cases h
  split at h
  · split at h
    · cases h
    split at h
    · cases h
    next ht =>
      split at h
      · cases h
      · obtain ⟨rfl, -⟩ := Prod.mk.inj (Except.ok.inj h)
        exact ⟨.of_procs (translate_cachesFilled ht) (translate_mem ht), (translate_cachesFilled ht).1⟩
  · split at h
    · cases h
    split at h
    · cases h
    · exact same h
  · split at h
    · cases h
    split at h
    · cases h
    split at h
    · cases h
    · exact same h

theorem check_kept {K : Nat → Prop} {va : Word} {n al : Nat} {perm : Perm} {s t : State} {l : Loc}
    (h : check va n al perm s = .ok l t) : AccessKept K s t ∧ t.procs = s.procs := by
  have access : ∀ {o : Except Nat (State × Loc)}, (∀ e, o = .ok e → AccessKept K s e.1 ∧ e.1.procs = s.procs) →
      (match o with
        | .error c => throw (accessStop c va)
        | .ok (s', l) => do set s'; pure l : Eff Loc) s = .ok l t → AccessKept K s t ∧ t.procs = s.procs := by
    intro o ho he
    cases o with
    | error c => cases he
    | ok e => cases he; exact ho e rfl
  have reached : ∀ e, checkAccess s s.cur s.me.vf (winOf s s.cur) va n al perm s.me.timed = .ok e →
      AccessKept K s e.1 ∧ e.1.procs = s.procs := fun _ he => checkAccess_kept he
  unfold check at h
  rw [Eff.bind_ok (Eff.get_apply s)] at h
  generalize checkAccess s s.cur s.me.vf (winOf s s.cur) va n al perm s.me.timed = o at h reached
  by_cases hw : perm.writes = true
  · cases hb : bpStore s s.cur va.toNat n with
    | none =>
      simp only [hw, hb, if_true] at h
      exact access reached h
    | some e =>
      simp only [hw, hb, if_true] at h
      cases h
  · rw [if_neg hw] at h
    exact access reached h

theorem bankAccess_free {s : State} (h : s.me.timed = false) (ls : List (Loc × Nat × Nat)) : bankAccess ls s = .ok 0 s := by
  unfold bankAccess
  rw [Eff.bind_ok (Eff.get_apply s)]
  simp only [h, Bool.not_false, if_true]
  rfl

/-! ### The head around the access -/

theorem opened_kept {K : Nat → Prop} {s : State} {i : Instr} (h : calm s i = true) : AccessKept K s (beginHead s i) := by
  rw [beginHead_calm h]
  exact .modProc (.of_rfl (.refl _) (.refl _) rfl rfl)

theorem opened_proc {s : State} {i : Instr} (h : calm s i = true) : (beginHead s i).proc s.cur = opened s s.me := by
  rw [beginHead_calm h, State.proc_modProc]
  rfl

theorem opened_heldBytes (s : State) (p : Proc) : (opened s p).heldBytes = p.heldBytes := by
  unfold opened Proc.heldBytes
  cases p.chunk <;> rfl

theorem opened_lines {s : State} {i : Instr} (h : calm s i = true) (hr : ready s i = true) :
    chunkLines (beginHead s i) s.cur ≤ 64 := by
  obtain ⟨_, _, _, _, hl, _, _⟩ := (ready_iff s i).1 hr
  unfold chunkLines at hl ⊢
  rw [opened_proc h, opened, State.me]
  cases hc : (s.proc s.cur).chunk with
  | none => exact Nat.zero_le _
  | some c => simpa [hc] using hl

/-- The end of a head of an agent in no gang that does not chunk singly: the PC, the counts and the wait are new. -/
theorem endHead_kept {K : Nat → Prop} {t : State} {i : Instr} {nx : Next} (hm : members t t.cur = [t.cur])
    (hs : (t.proc t.cur).single = false) (hg : nx.gone = false) :
    AccessKept K t (endHead t i nx) ∧ ((endHead t i nx).proc t.cur).heldBytes = (t.proc t.cur).heldBytes := by
  have ended : ∀ {v : State} {f : Proc → Proc}, v = t.modProc t.cur f → ProcKept K (t.proc t.cur) (f (t.proc t.cur)) →
      (f (t.proc t.cur)).heldBytes = (t.proc t.cur).heldBytes →
      AccessKept K t { (if (v.proc t.cur).single then commitChunk v t.cur else v) with issued := true } ∧
        (({ (if (v.proc t.cur).single then commitChunk v t.cur else v) with issued := true } : State).proc t.cur).heldBytes =
          (t.proc t.cur).heldBytes := by
    rintro _ f rfl hk hh
    rw [State.proc_modProc, if_neg (show ¬ (f (t.proc t.cur)).single = true by rw [hk.single, hs]; decide)]
    obtain ⟨h1, h2, h3, h4, h5⟩ := AccessKept.modProc hk
    exact ⟨⟨h1, h2, h3, h4, h5⟩, (congrArg Proc.heldBytes (State.proc_modProc t t.cur f)).trans hh⟩
  unfold endHead
  simp only [hg, Bool.false_eq_true, if_false, hm, leader_alone hm, List.foldl_cons, List.foldl_nil]
  split
  · refine ended (modProc_modProc _ _ _ _) (.of_rfl (.refl _) (.refl _) rfl rfl) ?_
    simp only [Function.comp, Proc.heldBytes]
    cases (t.proc t.cur).chunk <;> rfl
  · exact ended rfl (.of_rfl (.refl _) (.refl _) rfl rfl) rfl

/-- A head that reaches `w` by an access completes with what the access kept, and the stores it held back. -/
theorem completes_kept {K : Nat → Prop} {i : Instr} {body : Eff Next} {s w : State} (hr : ready s i = true) (hc : calm s i = true)
    (he : Sys2Proof.Machine.exec i s = runHead i body s) (hb : body (beginHead s i) = .ok seqNext w)
    (hk : AccessKept K (beginHead s i) w) (hl : chunkLines w s.cur ≤ 64) :
    ∃ t, Sys2Proof.Machine.exec i s = .next t ∧ AccessKept K s t ∧ (t.proc s.cur).heldBytes = (w.proc s.cur).heldBytes := by
  obtain ⟨hm, _, _, hs, _, _⟩ := (calm_iff s i).1 hc
  have hsw : AccessKept K s w := (opened_kept hc).trans hk
  obtain ⟨hend, hheld⟩ := endHead_kept (K := K) (i := i) (nx := seqNext) (hsw.members hm)
    (by rw [hsw.cur, hsw.own.single]; exact hs) rfl
  have hcomp := completes_alone hr ((alone_iff s).2 hm) he hb hl
  rw [Completes, show ({ w with cur := s.cur } : State) = w by rw [← hsw.cur]] at hcomp
  refine ⟨_, hcomp, hsw.trans hend, ?_⟩
  rwa [hsw.cur] at hheld

/-! ### Addresses (R156) -/

theorem State.ea_eq {k : Nat} (u : State) (b : BitVec 6) (imm : BitVec k) : u.ea b imm = u.myReg b + imm.signExtend 64 := by
  rw [State.ea, w64, BitVec.ofInt_add, BitVec.ofInt_natCast, BitVec.ofNat_toNat, BitVec.setWidth_eq]
  rfl

theorem State.eaIx_eq (u : State) (b c : BitVec 6) (sh : BitVec 2) (imm : BitVec 32) :
    u.eaIx b c sh imm = u.myReg b + u.myReg c <<< sh.toNat + imm.signExtend 64 := by
  have hshift : BitVec.ofNat 64 ((u.myReg c).toNat * 2 ^ sh.toNat) = u.myReg c <<< sh.toNat := by
    apply BitVec.eq_of_toNat_eq
    rw [BitVec.toNat_ofNat, BitVec.toNat_shiftLeft, Nat.shiftLeft_eq]
  have hcast : ((u.myReg b).toNat + (u.myReg c).toNat * 2 ^ sh.toNat + imm.toInt : Int) =
      ((u.myReg b).toNat : Int) + ((u.myReg c).toNat * 2 ^ sh.toNat : Nat) + imm.toInt := by push_cast; ring
  rw [State.eaIx, w64, hcast, BitVec.ofInt_add, BitVec.ofInt_add, BitVec.ofInt_natCast, BitVec.ofInt_natCast, hshift,
    BitVec.ofNat_toNat, BitVec.setWidth_eq]
  rfl

/-! ### Loads (R117, R164) -/

theorem heldBytes_congr {s t : State} (h : SameChunks s t) (q : Nat) : (t.proc q).heldBytes = (s.proc q).heldBytes := by
  rw [Proc.heldBytes, h q]
  rfl

theorem noteRead_kept {K : Nat → Prop} {s : State} (hl : leader s s.cur = s.cur) (a n : Nat) :
    AccessKept K s (noteRead s s.cur a n) ∧ ((noteRead s s.cur a n).proc s.cur).heldBytes = (s.proc s.cur).heldBytes ∧
      chunkLines (noteRead s s.cur a n) s.cur = chunkLines s s.cur := by
  unfold noteRead
  rw [hl]
  cases hc : (s.proc s.cur).chunk with
  | none => exact ⟨.refl s, rfl, rfl⟩
  | some c =>
    refine ⟨.modProc (.of_rfl (.refl _) (.refl _) rfl rfl), ?_, ?_⟩
    · rw [State.proc_modProc, Proc.heldBytes, Proc.heldBytes, hc]
      rfl
    · rw [chunkLines, chunkLines, State.proc_modProc, hc]

/-- A place whose reads note at most a line: this package's memory, a TCM or a scratchpad. -/
def Loc.near (l : Loc) : Prop := (∃ g o, l = .tcm g o) ∨ (∃ gc k o, l = .scratch gc k o) ∨ ∃ pa, l = .own pa

theorem readLoc_kept {K : Nat → Prop} {s w : State} {va : Word} {l : Loc} {n q x : Nat} (hl : leader s s.cur = s.cur) (hn : l.near)
    (h : readLoc va l n q s = .ok x w) :
    AccessKept K s w ∧ (w.proc s.cur).heldBytes = (s.proc s.cur).heldBytes ∧ chunkLines w s.cur = chunkLines s s.cur := by
  rcases hn with ⟨g, o, rfl⟩ | ⟨gc, k, o, rfl⟩ | ⟨pa, rfl⟩
  · cases h
    exact ⟨.refl s, rfl, rfl⟩
  · cases h
    exact ⟨.refl s, rfl, rfl⟩
  · cases h
    exact noteRead_kept hl pa n

/-- A result in free mode changes its register alone (R142). -/
theorem landG_kept {s : State} (ht : s.me.timed = false) (lat : Nat) (a : BitVec 6) (x : Word) :
    AccessKept (· ≠ a.toNat) s (s.landG lat a x) := by
  have due : ∀ k, AccessKept (· ≠ a.toNat) s (noteDue s s.cur lat (.g k x)) := by
    intro k
    unfold noteDue RegWrite.key
    simp only
    split
    · exact .refl s
    · exact .modProc (.of_rfl (.refl _) (.refl _) rfl rfl)
  unfold State.landG State.land
  split
  · exact .refl s
  · rw [if_neg (by rw [ht]; decide)]
    have hdue := due a.toNat
    generalize noteDue s s.cur lat (.g a.toNat x) = u at hdue ⊢
    refine hdue.trans ?_
    rw [← hdue.cur]
    refine .modProc (f := fun p => p.withR fun r => r.writeG a.toNat x) ⟨?_, .refl _, rfl, fun n hn => Regs.readG_writeG_ne hn⟩
    unfold Proc.withR Regs.writeG
    split
    · exact .refl _
    · exact ⟨rfl, rfl, rfl, rfl, rfl, rfl, rfl⟩

theorem loadTo_apply {a : BitVec 6} {ea : Word} {sz : BitVec 2} {sx : Bool} {u v w : State} {l : Loc} {x : Nat} (ha : isReg a)
    (hc : check ea (2 ^ sz.toNat) (2 ^ sz.toNat) .load u = .ok l v) (hr : readLoc ea l (2 ^ sz.toNat) v.cur v = .ok x w)
    (ht : w.me.timed = false) :
    loadTo a ea sz sx u = .ok seqNext (w.landG (loadLatency l + 0) a (extend x (2 ^ sz.toNat) sx)) := by
  unfold loadTo
  refine (Eff.bind_ok hc).trans ?_
  rw [Eff.bind_ok (Eff.get_apply v)]
  refine (Eff.bind_ok hr).trans ?_
  rw [Eff.bind_ok (bankAccess_free ht _), writeNext_plain _ _ _ _ ha]
  rfl

/-- What a load of a near place leaves. -/
theorem load_frames {i : Instr} {a : BitVec 6} {sz : BitVec 2} {sx : Bool} {ea : Word} {body : Eff Next} {s v w : State} {l : Loc}
    {x : Nat} (he : Sys2Proof.Machine.exec i s = runHead i body s)
    (hbody : body (beginHead s i) = loadTo a ea sz sx (beginHead s i)) (hr : ready s i = true) (hc : calm s i = true) (ha : isReg a)
    (hk : check ea (2 ^ sz.toNat) (2 ^ sz.toNat) .load (beginHead s i) = .ok l v) (hl : l.near)
    (hx : readLoc ea l (2 ^ sz.toNat) s.cur v = .ok x w) :
    ∃ t, Sys2Proof.Machine.exec i s = .next t ∧ AccessKept (· ≠ a.toNat) s t ∧ (t.proc s.cur).heldBytes = s.me.heldBytes := by
  obtain ⟨hm, ht, -, -, -, -⟩ := (calm_iff s i).1 hc
  obtain ⟨hcheck, hprocs⟩ := check_kept (K := (· ≠ a.toNat)) hk
  have hopen := opened_kept (K := (· ≠ a.toNat)) hc
  have hsv := hopen.trans hcheck
  have hlead : leader v v.cur = v.cur := leader_alone (hsv.members hm)
  rw [← hsv.cur] at hx
  obtain ⟨hread, hheld, hlines⟩ := readLoc_kept (K := (· ≠ a.toNat)) hlead hl hx
  have hsw := hsv.trans hread
  have htw : w.me.timed = false := by
    obtain ⟨-, -, -, -, -, -, -, -, -, -, htimed, -⟩ := hsw.own.system
    rw [State.me, hsw.cur, htimed]
    exact ht
  have hproc : v.proc s.cur = opened s s.me := by
    rw [State.proc, hprocs]
    exact opened_proc hc
  have hland := landG_kept htw (loadLatency l + 0) a (extend x (2 ^ sz.toNat) sx)
  have hchunks := landG_sameChunks w (loadLatency l + 0) a (extend x (2 ^ sz.toNat) sx)
  rw [hsv.cur] at hheld hlines
  have hlv : chunkLines v s.cur = chunkLines (beginHead s i) s.cur := by
    unfold chunkLines
    rw [State.proc, hprocs]
    rfl
  obtain ⟨t, hexec, hkept, hbytes⟩ := completes_kept hr hc he (hbody.trans (loadTo_apply ha hk hx htw))
    ((hcheck.trans hread).trans hland) (by rw [chunkLines_congr hchunks, hlines, hlv]; exact opened_lines hc hr)
  refine ⟨t, hexec, hkept, hbytes.trans ?_⟩
  rw [heldBytes_congr hchunks, hheld, hproc, opened_heldBytes]

/-! ### Stores that the chunk holds back (R117, R120, R164) -/

theorem holdStore_kept {K : Nat → Prop} {s : State} {c : Chunk} (hl : leader s s.cur = s.cur) (hc : (s.proc s.cur).chunk = some c)
    (a : Nat) (bs : List Byte) : AccessKept K s (holdStore s s.cur a bs) ∧
      ((holdStore s s.cur a bs).proc s.cur).heldBytes = putCells (s.proc s.cur).heldBytes a bs := by
  unfold holdStore
  simp only [hl, hc]
  refine ⟨.modProc (.of_rfl (.refl _) (.refl _) rfl rfl), ?_⟩
  rw [State.proc_modProc, Proc.heldBytes, Proc.heldBytes, hc]
  rfl

theorem noteVa_kept {K : Nat → Prop} {s : State} (hl : leader s s.cur = s.cur) (pa va : Nat) :
    AccessKept K s (noteVa s s.cur pa va) ∧ ((noteVa s s.cur pa va).proc s.cur).heldBytes = (s.proc s.cur).heldBytes := by
  unfold noteVa
  rw [hl]
  refine ⟨.modProc (.of_rfl (.refl _) (.refl _) rfl rfl), ?_⟩
  rw [State.proc_modProc, Proc.heldBytes, Proc.heldBytes]
  cases (s.proc s.cur).chunk <;> rfl

/-- The place is held back by the chunk of agent `q`, from the key on: this package's memory, or the agent's own TCM (R117). -/
def Loc.heldAt (l : Loc) (q key : Nat) : Prop := l = .own key ∨ ∃ o, l = .tcm (coreOf q) o ∧ isHart q = false ∧ key = tcmKey (coreOf q) o

/-- A held store writes its bytes into the chunk of its agent, and draws and counts nothing. -/
theorem writeLoc_held {K : Nat → Prop} {s : State} {c : Chunk} {l : Loc} {key : Nat} (hl : leader s s.cur = s.cur)
    (hc : (s.proc s.cur).chunk = some c) (hk : l.heldAt s.cur key) (va : Word) (n v lane who : Nat) :
    ∃ t, writeLoc va l n v lane who s = .ok () t ∧ AccessKept K s t ∧
      (t.proc s.cur).heldBytes = putCells (s.proc s.cur).heldBytes key (leBytes n v) := by
  obtain ⟨hkept, hbytes⟩ := holdStore_kept (K := K) hl hc key (leBytes n v)
  rcases hk with rfl | ⟨o, rfl, hh, rfl⟩
  · have hl2 : leader (holdStore s s.cur key (leBytes n v)) (holdStore s s.cur key (leBytes n v)).cur =
        (holdStore s s.cur key (leBytes n v)).cur := by
      rw [leader, members_congr hkept.sameGang, hkept.cur]
      exact hl
    obtain ⟨hnoted, hsame⟩ := noteVa_kept (K := K) hl2 key va.toNat
    rw [hkept.cur] at hnoted hsame
    exact ⟨_, rfl, hkept.trans hnoted, hsame.trans hbytes⟩
  · refine ⟨_, ?_, hkept, hbytes⟩
    unfold writeLoc
    rw [Eff.bind_ok (Eff.get_apply s)]
    simp only [hh, and_self, if_true]
    rfl

theorem heldAt_plain {l : Loc} {q key : Nat} (h : l.heldAt q key) (s : State) (r who n v : Nat) :
    drewAt s who l = false ∧ windowBins s r l n v = [] := by
  rcases h with rfl | ⟨o, rfl, -, -⟩ <;> exact ⟨rfl, rfl⟩

theorem store_held {K : Nat → Prop} {s v : State} {c : Chunk} {l : Loc} {key n x : Nat} {ea : Word}
    (hk : check ea n n .store s = .ok l v) (hl : leader v v.cur = v.cur) (hc : (v.proc v.cur).chunk = some c)
    (ht : v.me.timed = false) (hp : l.heldAt v.cur key) :
    ∃ t, store ea n x s = .ok () t ∧ AccessKept K v t ∧
      (t.proc v.cur).heldBytes = putCells (v.proc v.cur).heldBytes key (leBytes n x) := by
  obtain ⟨t, hwrite, hkept, hbytes⟩ := writeLoc_held (K := K) hl hc hp ea n x 0 v.cur
  have htimed : t.me.timed = false := by
    obtain ⟨-, -, -, -, -, -, -, -, -, -, h, -⟩ := hkept.own.system
    rw [State.me, hkept.cur, h]
    exact ht
  obtain ⟨hdrew, hbins⟩ := heldAt_plain hp v v.cur v.cur n x
  refine ⟨t, ?_, hkept, hbytes⟩
  unfold store
  rw [Eff.bind_ok hk, Eff.bind_ok (Eff.get_apply v)]
  simp only [hdrew, hbins, List.map_nil]
  rw [Eff.bind_ok hwrite, Eff.bind_ok (show addCounts [] t = .ok () t from rfl), Eff.bind_ok (bankAccess_free htimed _)]
  rfl

theorem storeAt_eq {u w : State} {ea : Word} {n x : Nat} (h : storeAt u ea n x = some w) :
    store ea n (x % 2 ^ (8 * n)) u = .ok () w := by
  unfold storeAt at h
  split at h
  · cases h
  next hs => rw [hs, Option.some.inj h]

theorem storeFrom_apply {a : BitVec 6} {ea : Word} {sz : BitVec 2} {u w : State} (ha : isReg a)
    (h : store ea (2 ^ sz.toNat) ((u.myReg a).toNat % 2 ^ (8 * 2 ^ sz.toNat)) u = .ok () w) :
    storeFrom a ea sz u = .ok seqNext w := by
  unfold storeFrom
  rw [Eff.bind_ok (src_plain a u ha)]
  refine (Eff.bind_ok h).trans ?_
  rfl

/-- The agent's registers are those of before where its head begins. -/
theorem opened_myReg {s : State} {i : Instr} (h : calm s i = true) (a : BitVec 6) : (beginHead s i).myReg a = s.myReg a := by
  have hk := opened_kept (K := fun _ => True) h
  show (beginHead s i).reg (beginHead s i).cur a.toNat = _
  rw [hk.cur]
  exact hk.own.regs a.toNat trivial

/-- What a held store leaves. -/
theorem held_frames {i : Instr} {a : BitVec 6} {sz : BitVec 2} {ea : Word} {body : Eff Next} {s v u : State} {l : Loc} {key : Nat}
    (he : Sys2Proof.Machine.exec i s = runHead i body s) (hbody : body (beginHead s i) = storeFrom a ea sz (beginHead s i))
    (hr : ready s i = true) (hc : calm s i = true) (ha : isReg a)
    (hk : check ea (2 ^ sz.toNat) (2 ^ sz.toNat) .store (beginHead s i) = .ok l v) (hp : l.heldAt s.cur key)
    (hs : storeAt (beginHead s i) ea (2 ^ sz.toNat) (s.myReg a).toNat = some u) (hl : chunkLines u s.cur ≤ 64) :
    ∃ t, Sys2Proof.Machine.exec i s = .next t ∧ AccessKept (fun _ => True) s t ∧
      (t.proc s.cur).heldBytes = putCells s.me.heldBytes key (leBytes (2 ^ sz.toNat) (s.myReg a).toNat) := by
  obtain ⟨hm, ht, -, -, -, -⟩ := (calm_iff s i).1 hc
  obtain ⟨hcheck, hprocs⟩ := check_kept (K := fun _ => True) hk
  have hsv := (opened_kept (K := fun _ => True) hc).trans hcheck
  have hproc : v.proc v.cur = opened s s.me := by
    rw [hsv.cur, State.proc, hprocs]
    exact opened_proc hc
  have hstore := storeAt_eq hs
  rw [← hsv.cur] at hp
  obtain ⟨w, hw, hkept, hbytes⟩ := store_held (K := fun _ => True) (x := (s.myReg a).toNat % 2 ^ (8 * 2 ^ sz.toNat)) hk
    (leader_alone (hsv.members hm)) (congrArg Proc.chunk hproc) (by rw [State.me, hproc]; exact ht) hp
  obtain rfl : u = w := by
    rw [hstore] at hw
    cases hw
    rfl
  rw [hproc, opened_heldBytes, leBytes_mod, hsv.cur] at hbytes
  obtain ⟨t, hexec, hst, hheld⟩ := completes_kept hr hc he
    (hbody.trans (storeFrom_apply ha (by rw [opened_myReg hc]; exact hstore))) (hcheck.trans hkept) hl
  exact ⟨t, hexec, hst, hheld.trans hbytes⟩

/-! ### Stores through a window (R88, R90, R117) -/

/-- A window takes the low bytes of the value too. -/
theorem windowBytes_mod (win : FMap Word) (c : RCtl) (w o n x lane : Nat) :
    windowBytes win c w o n (x % 2 ^ (8 * n)) lane = windowBytes win c w o n x lane := by
  unfold windowBytes
  split
  · rw [leBytes_mod]
  · refine congrArg _ (congrArg _ (List.map_congr_left fun i hi => ?_))
    have hlt : i < n / viewSize w := List.mem_range.1 hi
    have hle : viewSize w * (i + 1) ≤ n := (Nat.mul_le_mul_left _ hlt).trans (Nat.mul_div_le n _)
    rw [bits_mod (show 8 * viewSize w * i + 8 * viewSize w ≤ 8 * n by
      calc 8 * viewSize w * i + 8 * viewSize w = 8 * (viewSize w * (i + 1)) := by ring
        _ ≤ 8 * n := Nat.mul_le_mul_left _ hle)]

/-- No register, no phase, no window control and no gang changes: what a store leaves that no other chunk has read (R123). -/
structure QuietlyStored (s t : State) : Prop where
  inner : Inner s t
  regs : ∀ q, (t.proc q).r = (s.proc q).r
  timed : ∀ q, (t.proc q).timed = (s.proc q).timed
  single : ∀ q, (s.proc q).single = false → (t.proc q).single = false
  win : ∀ g, (t.core g).win = (s.core g).win
  gang : SameGang s t

namespace QuietlyStored
variable {s t u : State}

theorem refl (s : State) : QuietlyStored s s := ⟨.refl s, fun _ => rfl, fun _ => rfl, fun _ => id, fun _ => rfl, .refl s⟩

theorem trans (h : QuietlyStored s t) (k : QuietlyStored t u) : QuietlyStored s u where
  inner := h.inner.trans k.inner
  regs q := (k.regs q).trans (h.regs q)
  timed q := (k.timed q).trans (h.timed q)
  single q := k.single q ∘ h.single q
  win g := (k.win g).trans (h.win g)
  gang := h.gang.trans k.gang

theorem foldl {α : Type} {f : State → α → State} (h : ∀ s a, QuietlyStored s (f s a)) (l : List α) (s : State) :
    QuietlyStored s (l.foldl f s) := by
  induction l generalizing s with
  | nil => exact .refl s
  | cons a l ih => exact (h s a).trans (ih _)

theorem of_procs (hi : Inner s t) (hc : t.cores = s.cores)
    (h : ∀ q, (t.proc q).r = (s.proc q).r ∧ (t.proc q).timed = (s.proc q).timed ∧
      ((s.proc q).single = false → (t.proc q).single = false)) : QuietlyStored s t where
  inner := hi
  regs q := (h q).1
  timed q := (h q).2.1
  single q := (h q).2.2
  win g := by rw [State.core, hc]; rfl
  gang := .of_cores hc

theorem modProc {f : Proc → Proc} (s : State) (q : Nat)
    (h : ∀ p, (f p).r = p.r ∧ (f p).timed = p.timed ∧ (p.single = false → (f p).single = false)) :
    QuietlyStored s (s.modProc q f) := by
  refine .of_procs (Inner.modProc _ _ _) rfl fun r => ?_
  rw [State.proc_modProc_eq]
  split
  next hr => exact hr ▸ h _
  · exact ⟨rfl, rfl, id⟩

theorem addBin (s : State) (g b n : Nat) : QuietlyStored s (Machine.addBin s g b n) where
  inner := addBin_inner s g b n
  regs _ := rfl
  timed _ := rfl
  single _ := id
  win h := by
    unfold Machine.addBin
    rw [State.core_modCore]
    split
    next hg =>
      subst hg
      simp only
      split <;> rfl
    · rfl
  gang := addBin_sameGang s g b n

theorem notifyLines (s : State) (ls : List Nat) : QuietlyStored s (Machine.notifyLines s ls) := by
  refine .of_procs (notifyLines_inner s ls) rfl fun q => ?_
  unfold Machine.notifyLines State.proc FMap.get
  simp only
  rw [find_map_val]
  · cases FMap.find s.procs q with
    | none => exact ⟨rfl, rfl, id⟩
    | some p =>
      simp only [Option.map_some, Option.getD_some]
      split
      · split <;> exact ⟨rfl, rfl, id⟩
      · split <;> exact ⟨rfl, rfl, id⟩
      · exact ⟨rfl, rfl, id⟩
  · intro e
    split <;> (try split) <;> rfl

end QuietlyStored

theorem mem_addLine {l x : Nat} {ls : List Nat} (h : l ∈ addLine x ls) : l = x ∨ l ∈ ls := by
  unfold addLine at h
  split at h
  · exact .inr h
  · rcases List.mem_append.1 h with h | h
    · exact .inr h
    · exact .inl (List.mem_singleton.1 h)

theorem mem_linesOf (cells : FMap Byte) : ∀ (ls : List Nat) (l : Nat), l ∈ cells.foldl (fun ls e => addLine (e.1 / 32) ls) ls →
    l ∈ ls ∨ ∃ e ∈ cells, l = e.1 / 32 := by
  induction cells with
  | nil => exact fun _ _ h => .inl h
  | cons e cells ih =>
    intro ls l h
    rcases ih _ _ h with h | ⟨x, hx, rfl⟩
    · rcases mem_addLine h with rfl | h
      · exact .inr ⟨e, List.mem_cons_self, rfl⟩
      · exact .inl h
    · exact .inr ⟨x, List.mem_cons_of_mem _ hx, rfl⟩

/-- Bytes of no global line reach no other chunk (R123). -/
theorem performBytes_quiet {cells : FMap Byte} (s : State) (h : ∀ e ∈ cells, 2 ^ 52 ≤ e.1) : QuietlyStored s (performBytes s cells) := by
  have silent : ∀ (t : State) (ls : List Nat), (∀ l ∈ ls, 2 ^ 47 ≤ l) → sendSignature t ls = t := by
    intro t ls hls
    have hglob : ls.filter (fun l => decide (l < 2 ^ 47)) = [] := by
      rw [List.filter_eq_nil_iff]
      intro l hl
      simpa using hls l hl
    unfold sendSignature
    rw [hglob]
    rfl
  unfold performBytes
  simp only
  rw [silent]
  · have written : QuietlyStored s { s with
        mem := cells.foldl (fun m e => Memory.write m e.1 e.2) s.mem, poison := stillPoisoned s.poison cells } :=
      .of_procs rfl rfl fun _ => ⟨rfl, rfl, id⟩
    exact written.trans (.notifyLines _ _)
  · intro l hl
    rcases mem_linesOf _ _ _ hl with hl | ⟨e, he, rfl⟩
    · cases hl
    · have := h e he
      omega

theorem performAt_quiet (s : State) {a : Nat} (h : 2 ^ 52 ≤ a) (bs : List Byte) : QuietlyStored s (performAt s a bs) := by
  refine performBytes_quiet s fun e he => ?_
  obtain ⟨x, -, rfl⟩ := List.mem_map.1 he
  exact h.trans (Nat.le_add_right _ _)

/-- A chunk that holds back no store ends without writing a byte (R122, R123). -/
theorem endChunk_quiet {s : State} {q : Nat} (h : (s.proc q).heldBytes = []) :
    QuietlyStored s (endChunk s q) ∧ (endChunk s q).mem = s.mem := by
  have committed : QuietlyStored s (commitChunk s q) ∧ (commitChunk s q).mem = s.mem := by
    unfold commitChunk
    cases hc : (s.proc q).chunk with
    | none => exact ⟨.refl s, rfl⟩
    | some c =>
      have hheld : c.held = [] := by simpa [Proc.heldBytes, hc] using h
      simp only [hheld]
      have closed := QuietlyStored.modProc (f := fun p => { p with chunk := none, discards := 0 }) s q fun _ => ⟨rfl, rfl, id⟩
      have performed := closed.trans (performBytes_quiet (cells := []) _ fun _ he => absurd he List.not_mem_nil)
      have counted := performed.trans (.foldl (α := Nat × Nat) (fun t e => .addBin t (e.1 / 64) (e.1 % 64) e.2) c.hist _)
      have headed : ∀ (t : State) (e : Nat × Regs), QuietlyStored t (t.modProc e.1 fun p =>
          { p with icount := p.icount + BitVec.ofNat 64 c.heads }) := fun _ _ => .modProc _ _ fun _ => ⟨rfl, rfl, id⟩
      refine ⟨counted.trans (.foldl headed c.ckpt _), ?_⟩
      refine (foldl_mem (α := Nat × Regs) (fun _ _ => by rfl) _ _).trans ?_
      refine (foldl_mem (α := Nat × Nat) (fun _ _ => by rfl) _ _).trans ?_
      exact performBytes_mem _ _
  exact ⟨committed.1.trans (.modProc _ _ fun _ => ⟨rfl, rfl, fun _ => rfl⟩), committed.2⟩

theorem winOf_quiet {s t : State} (h : QuietlyStored s t) (q : Nat) : winOf t q = winOf s q := by
  have hand : ∀ k, handWin t k = handWin s k := fun k => by rw [h.inner]; rfl
  unfold winOf
  rw [hand, h.win]

theorem windowCtl_quiet {s t : State} (h : QuietlyStored s t) (who w : Nat) : windowCtl t who w = windowCtl s who w := by
  have hcur := h.inner.cur
  have hl : leader t s.cur = leader s s.cur := by rw [leader, leader, members_congr h.gang]
  simp only [windowCtl, h.regs, hcur, winOf_quiet h, hl]

/-- What a window takes for the `n` low bytes of `x` at view offset `o`, and where (R90). -/
def windowTakes (v : State) (k o n x : Nat) : Nat × List Byte := windowBytes (winOf v v.cur) (windowCtl v v.cur k) k o n x 0

/-- A store through a window performs the bytes that its layout gives, behind a chunk that held back none. -/
theorem store_window {s v : State} {gc k o n x : Nat} {ea : Word} (hk : check ea n n .store s = .ok (.scratch gc k o) v)
    (hl : leader v v.cur = v.cur) (hh : (v.proc v.cur).heldBytes = []) (ht : v.me.timed = false) :
    ∃ v1 w d, v1.mem = v.mem ∧ QuietlyStored v w ∧
      w.mem = (performAt v1 (spKey gc (windowTakes v k o n x).1) (windowTakes v k o n x).2).mem ∧
      (w.proc v.cur).single = false ∧ store ea n x s = .ok () (w.drew d) := by
  obtain ⟨hquiet, hmem⟩ := endChunk_quiet hh
  have hsingle : ((endChunk v v.cur).proc v.cur).single = false := congrArg Proc.single (State.proc_modProc _ _ _)
  have hleave : leaveChunk v = .ok () (endChunk v v.cur) := by
    rw [leaveChunk, Eff.modify_apply, hl]
  have htakes : windowBytes (winOf (endChunk v v.cur) (endChunk v v.cur).cur) (windowCtl (endChunk v v.cur) v.cur k) k o n x 0 =
      windowTakes v k o n x := by
    rw [windowTakes, windowCtl_quiet hquiet, winOf_quiet hquiet, hquiet.inner.cur]
  have hkey : 2 ^ 52 ≤ spKey gc (windowTakes v k o n x).1 := by
    unfold spKey
    omega
  have hperf := performAt_quiet (endChunk v v.cur) hkey (windowTakes v k o n x).2
  generalize hp : performAt (endChunk v v.cur) (spKey gc (windowTakes v k o n x).1) (windowTakes v k o n x).2 = p at hperf
  have hwrite : writeLoc ea (.scratch gc k o) n x 0 v.cur v = .ok () p := by
    unfold writeLoc
    rw [Eff.bind_ok (Eff.get_apply v)]
    simp only
    rw [Eff.bind_ok hleave, Eff.modify_apply, ← hp]
    simp only [htakes]
  have hbins := QuietlyStored.foldl (α := Nat × Nat) (f := fun t e => addBin t e.1 e.2 1) (fun t e => .addBin t _ _ _)
    ((windowBins v v.cur (.scratch gc k o) n x).map fun b => (coreOf v.cur, b)) p
  have hbinsMem : (((windowBins v v.cur (.scratch gc k o) n x).map fun b => (coreOf v.cur, b)).foldl
      (fun t e => addBin t e.1 e.2 1) p).mem = p.mem := foldl_mem (α := Nat × Nat) (fun _ _ => by rfl) _ _
  have hcount : addCounts ((windowBins v v.cur (.scratch gc k o) n x).map fun b => (coreOf v.cur, b)) p =
      .ok () (((windowBins v v.cur (.scratch gc k o) n x).map fun b => (coreOf v.cur, b)).foldl
        (fun t e => addBin t e.1 e.2 1) p) := rfl
  have hquietW := (hquiet.trans hperf).trans hbins
  generalize ((windowBins v v.cur (.scratch gc k o) n x).map fun b => (coreOf v.cur, b)).foldl
    (fun t e => addBin t e.1 e.2 1) p = w at hbins hbinsMem hcount hquietW
  refine ⟨_, w, drewAt v v.cur (.scratch gc k o), hmem, hquietW, hbinsMem.trans (congrArg State.mem hp.symm),
    (hperf.trans hbins).single _ hsingle, ?_⟩
  have htimed : w.me.timed = false := by
    rw [State.me, hquietW.inner.cur, hquietW.timed]
    exact ht
  unfold store
  rw [Eff.bind_ok hk, Eff.bind_ok (Eff.get_apply v)]
  rw [Eff.bind_ok hwrite, Eff.bind_ok hcount, Eff.bind_ok (bankAccess_free htimed _), advanceCtr_apply]

theorem windowTakes_mod (v : State) (k o n x : Nat) : windowTakes v k o n (x % 2 ^ (8 * n)) = windowTakes v k o n x :=
  windowBytes_mod _ _ _ _ _ _ _

/-- A draw advances the stochastic counter and nothing else (R80). -/
theorem drew_leaves (w : State) (d : Bool) : (w.drew d).cur = w.cur ∧ (w.drew d).mem = w.mem ∧ (w.drew d).cores = w.cores ∧
    ((w.drew d).proc w.cur).single = (w.proc w.cur).single ∧ ∀ n, (w.drew d).reg w.cur n = w.reg w.cur n := by
  cases d with
  | false => exact ⟨rfl, rfl, rfl, rfl, fun _ => rfl⟩
  | true =>
    have hproc : (w.drew true).proc w.cur = { w.me with r := { w.me.r with srctr := w.me.r.srctr + 1 } } := by
      rw [State.drew, if_pos rfl, State.setR, State.proc_modProc]
      rfl
    exact ⟨rfl, rfl, rfl, by rw [hproc]; rfl, fun n => by rw [State.reg, hproc]; rfl⟩

/-- What a store through a window leaves. -/
theorem window_frames {i : Instr} {a : BitVec 6} {sz : BitVec 2} {ea : Word} {body : Eff Next} {s v u : State} {gc k o : Nat}
    (he : Sys2Proof.Machine.exec i s = runHead i body s) (hbody : body (beginHead s i) = storeFrom a ea sz (beginHead s i))
    (hr : ready s i = true) (hc : calm s i = true) (ha : isReg a) (hn : s.me.heldBytes = [])
    (hk : check ea (2 ^ sz.toNat) (2 ^ sz.toNat) .store (beginHead s i) = .ok (.scratch gc k o) v)
    (hs : storeAt (beginHead s i) ea (2 ^ sz.toNat) (s.myReg a).toNat = some u) (hl : chunkLines u s.cur ≤ 64) :
    ∃ t v1, Sys2Proof.Machine.exec i s = .next t ∧ v1.mem = s.mem ∧
      t.mem = (performAt v1 (spKey gc (windowTakes v k o (2 ^ sz.toNat) (s.myReg a).toNat).1)
        (windowTakes v k o (2 ^ sz.toNat) (s.myReg a).toNat).2).mem ∧ ∀ n, t.reg s.cur n = s.reg s.cur n := by
  obtain ⟨hm, ht, -, -, -, -⟩ := (calm_iff s i).1 hc
  obtain ⟨hcheck, hprocs⟩ := check_kept (K := fun _ => True) hk
  have hsv := (opened_kept (K := fun _ => True) hc).trans hcheck
  have hmv := hsv.members hm
  have hproc : v.proc v.cur = opened s s.me := by
    rw [hsv.cur, State.proc, hprocs]
    exact opened_proc hc
  obtain ⟨v1, w, d, hmem, hquiet, hwmem, hsingle, hstore⟩ := store_window (x := (s.myReg a).toNat % 2 ^ (8 * 2 ^ sz.toNat)) hk
    (leader_alone hmv) (by rw [hproc, opened_heldBytes, hn]) (by rw [State.me, hproc]; exact ht)
  have hstored := storeAt_eq hs
  obtain rfl : u = w.drew d := by
    rw [hstored] at hstore
    cases hstore
    rfl
  obtain ⟨hdcur, hdmem, hdcores, hdsingle, hdregs⟩ := drew_leaves w d
  have hwcur : w.cur = s.cur := hquiet.inner.cur.trans hsv.cur
  have hgang : SameGang v (w.drew d) := hquiet.gang.trans (.of_cores hdcores)
  have hmd : members (w.drew d) (w.drew d).cur = [(w.drew d).cur] := by
    rw [members_congr hgang, hdcur, hquiet.inner.cur]
    exact hmv
  obtain ⟨hend, -⟩ := endHead_kept (K := fun _ => True) (i := i) (nx := seqNext) hmd
    (by rw [hdcur, hdsingle, hquiet.inner.cur]; exact hsingle) rfl
  have hcomp := completes_alone hr ((alone_iff s).2 hm) he
    (hbody.trans (storeFrom_apply ha (by rw [opened_myReg hc]; exact hstored))) hl
  rw [Completes, show ({ w.drew d with cur := s.cur } : State) = w.drew d by rw [← hwcur, ← hdcur]] at hcomp
  rw [windowTakes_mod] at hwmem
  refine ⟨_, v1, hcomp, hmem.trans hsv.mem, hend.mem.trans (hdmem.trans hwmem), fun n => ?_⟩
  have hregs := hend.own.regs n trivial
  rw [hdcur, hwcur] at hregs
  have hdrew := hdregs n
  rw [hwcur] at hdrew
  refine hregs.trans (hdrew.trans ?_)
  rw [State.reg, hquiet.regs]
  exact hsv.own.regs n trivial

/-! ### The six forms -/

/-- Behind an access that held back the bytes `bs` from `key` on, its agent sees them there and everything else as before. -/
theorem AccessKept.view_stored {K : Nat → Prop} {s t : State} {key : Nat} {bs : List Byte} (h : AccessKept K s t)
    (hm : Machine.members s s.cur = [s.cur]) (hh : (t.proc s.cur).heldBytes = putCells s.me.heldBytes key bs) :
    (∀ j (hj : j < bs.length), viewByte t s.cur (key + j) = bs[j]) ∧
      ∀ k, (∀ j, j < bs.length → k ≠ key + j) → viewByte t s.cur k = viewByte s s.cur k := by
  refine ⟨fun j hj => ?_, fun k hk => ?_⟩
  · rw [h.view hm, hh, find_putCells_in bs _ _ _ hj]
    rfl
  · rw [h.view hm, hh, find_putCells_out bs _ _ _ hk, viewByte_leader (leader_alone hm)]
    rfl

/-- The meaning of `i` runs from a state `u` as `f u` does. -/
def RunsAs (i : Instr) (f : State → Eff Next) : Prop :=
  ∃ body, (∀ s, Sys2Proof.Machine.exec i s = runHead i body s) ∧ ∀ u, body u = f u u

section Forms
variable (a b c : BitVec 6) (sz : BitVec 2) (sx nt : Bool) (sh : BitVec 2)

theorem ldRi16_runsAs (imm : BitVec 16) : RunsAs (.ldRi16 a b sz sx nt imm) fun u => loadTo a (u.ea b imm) sz sx := by
  refine ⟨do loadTo a ((← gr b) + imm.signExtend 64) sz sx, fun _ => rfl, fun u => ?_⟩
  simp only [State.ea_eq]
  exact Eff.bind_ok (gr_apply b u)

theorem ldRri32_runsAs (imm : BitVec 32) :
    RunsAs (.ldRri32 a b c sz sx nt sh imm) fun u => loadTo a (u.eaIx b c sh imm) sz sx := by
  refine ⟨do loadTo a ((← gr b) + ((← gr c) <<< sh.toNat) + imm.signExtend 64) sz sx, fun _ => rfl, fun u => ?_⟩
  simp only [State.eaIx_eq]
  exact (Eff.bind_ok (gr_apply b u)).trans (Eff.bind_ok (gr_apply c u))

theorem stRi16_runsAs (imm : BitVec 16) : RunsAs (.stRi16 a b sz nt imm) fun u => storeFrom a (u.ea b imm) sz := by
  refine ⟨do storeFrom a ((← gr b) + imm.signExtend 64) sz, fun _ => rfl, fun u => ?_⟩
  simp only [State.ea_eq]
  exact Eff.bind_ok (gr_apply b u)

theorem stRri32_runsAs (imm : BitVec 32) : RunsAs (.stRri32 a b c sz nt sh imm) fun u => storeFrom a (u.eaIx b c sh imm) sz := by
  refine ⟨do storeFrom a ((← gr b) + ((← gr c) <<< sh.toNat) + imm.signExtend 64) sz, fun _ => rfl, fun u => ?_⟩
  simp only [State.eaIx_eq]
  exact (Eff.bind_ok (gr_apply b u)).trans (Eff.bind_ok (gr_apply c u))

end Forms

/-- The agent's vector and system registers and the other agents are as they were. -/
def AgentsKept (s t : State) : Prop :=
  VectorKept s.me.r (t.proc s.cur).r ∧ SystemKept s.me (t.proc s.cur) ∧ ∀ p, p ≠ s.cur → t.proc p = s.proc p

theorem AccessKept.agents {K : Nat → Prop} {s t : State} (h : AccessKept K s t) : AgentsKept s t :=
  ⟨h.own.vector, h.own.system, h.others⟩

section Leaves
variable {i : Instr} {a : BitVec 6} {sz : BitVec 2} {sx : Bool} {ea : State → Word} {s v u : State} {l : Loc}

theorem load_leaves {w : State} {x : Nat} (hi : RunsAs i fun u => loadTo a (ea u) sz sx) (hr : ready s i = true)
    (hc : calm s i = true) (ha : isReg a) (hk : check (ea (beginHead s i)) (2 ^ sz.toNat) (2 ^ sz.toNat) .load (beginHead s i) = .ok l v)
    (hl : l.near) (hx : readLoc (ea (beginHead s i)) l (2 ^ sz.toNat) s.cur v = .ok x w) :
    ∃ t, Sys2Proof.Machine.exec i s = .next t ∧ (∀ r, r ≠ a.toNat → t.reg s.cur r = s.reg s.cur r) ∧ MemoryKept s t s.cur ∧
      AgentsKept s t := by
  obtain ⟨body, he, hb⟩ := hi
  obtain ⟨hm, -⟩ := (calm_iff s i).1 hc
  obtain ⟨t, hexec, hkept, hheld⟩ := load_frames (he s) (hb _) hr hc ha hk hl hx
  refine ⟨t, hexec, hkept.own.regs, ⟨fun b => ?_, hkept.byteAt⟩, hkept.agents⟩
  rw [hkept.view hm, hheld, viewByte_leader (leader_alone hm)]
  rfl

theorem heldStore_leaves {key : Nat} (hi : RunsAs i fun u => storeFrom a (ea u) sz) (hr : ready s i = true) (hc : calm s i = true)
    (ha : isReg a) (hk : check (ea (beginHead s i)) (2 ^ sz.toNat) (2 ^ sz.toNat) .store (beginHead s i) = .ok l v)
    (hp : l.heldAt s.cur key) (hs : storeAt (beginHead s i) (ea (beginHead s i)) (2 ^ sz.toNat) (s.myReg a).toNat = some u)
    (hl : chunkLines u s.cur ≤ 64) :
    ∃ t, Sys2Proof.Machine.exec i s = .next t ∧
      (∀ j, j < 2 ^ sz.toNat → viewByte t s.cur (key + j) = BitVec.ofNat 8 ((s.myReg a).toNat / 2 ^ (8 * j))) ∧
      (∀ k, (∀ j, j < 2 ^ sz.toNat → k ≠ key + j) → viewByte t s.cur k = viewByte s s.cur k) ∧
      (∀ k, t.byteAt k = s.byteAt k) ∧ (∀ r, t.reg s.cur r = s.reg s.cur r) ∧ AgentsKept s t := by
  obtain ⟨body, he, hb⟩ := hi
  obtain ⟨hm, -⟩ := (calm_iff s i).1 hc
  obtain ⟨t, hexec, hkept, hheld⟩ := held_frames (he s) (hb _) hr hc ha hk hp hs hl
  obtain ⟨hin, hout⟩ := hkept.view_stored hm hheld
  rw [leBytes_length] at hout
  refine ⟨t, hexec, fun j hj => ?_, hout, hkept.byteAt, fun r => hkept.own.regs r trivial, hkept.agents⟩
  rw [hin j (by rwa [leBytes_length]), leBytes_getElem]

theorem windowStore_leaves {gc k o : Nat} (hi : RunsAs i fun u => storeFrom a (ea u) sz) (hr : ready s i = true) (hc : calm s i = true)
    (ha : isReg a) (hn : ∀ c, s.me.chunk = some c → c.held = [])
    (hk : check (ea (beginHead s i)) (2 ^ sz.toNat) (2 ^ sz.toNat) .store (beginHead s i) = .ok (.scratch gc k o) v)
    (hs : storeAt (beginHead s i) (ea (beginHead s i)) (2 ^ sz.toNat) (s.myReg a).toNat = some u) (hl : chunkLines u s.cur ≤ 64) :
    ∃ t, Sys2Proof.Machine.exec i s = .next t ∧
      (let b := windowTakes v k o (2 ^ sz.toNat) (s.myReg a).toNat
       (∀ j, (h : j < b.2.length) → t.byteAt (spKey gc b.1 + j) = b.2[j]) ∧
       ∀ x, (∀ j, j < b.2.length → x ≠ spKey gc b.1 + j) → t.byteAt x = s.byteAt x) ∧
      (∀ r, t.reg s.cur r = s.reg s.cur r) := by
  obtain ⟨body, he, hb⟩ := hi
  have hheld : s.me.heldBytes = [] := by
    unfold Proc.heldBytes
    cases h : s.me.chunk with
    | none => rfl
    | some c => exact hn c h
  obtain ⟨t, v1, hexec, hv1, hmem, hregs⟩ := window_frames (he s) (hb _) hr hc ha hheld hk hs hl
  have hbyte : ∀ x, t.byteAt x = (performAt v1 _ _).byteAt x := fun x => congrArg (Memory.read · x) hmem
  refine ⟨t, hexec, ⟨fun j hj => ?_, fun x hx => ?_⟩, hregs⟩
  · rw [hbyte, performAt_bytes _ _ _ _ hj]
  · rw [hbyte, performAt_byteAt_out _ _ _ _ hx, State.byteAt, hv1]
    rfl

end Leaves

/-- Settles O59: each form reaches its shared access at the statement's address, and the access's own lemma says what is kept. -/
theorem accessFrames : Obligations.AccessFrames := by
  unfold Obligations.AccessFrames
  refine ⟨?_, ?_, ?_, ?_, ?_, ?_⟩
  · intro a b sz sx nt imm s l v x w hr hc ha hk hl hx
    exact load_leaves (ldRi16_runsAs a b sz sx nt imm) hr hc ha hk hl hx
  · intro a b c sz sx nt sh imm s l v x w hr hc ha hk hl hx
    exact load_leaves (ldRri32_runsAs a b c sz sx nt sh imm) hr hc ha hk hl hx
  · intro a b sz nt imm s l v hr hc ha hk key hp u hs hl
    exact heldStore_leaves (stRi16_runsAs a b sz nt imm) hr hc ha hk hp hs hl
  · intro a b c sz nt sh imm s l v hr hc ha hk key hp u hs hl
    exact heldStore_leaves (stRri32_runsAs a b c sz nt sh imm) hr hc ha hk hp hs hl
  · rintro a b sz nt imm s _ v hr hc ha hn hk gc k o rfl u hs hl
    exact windowStore_leaves (stRi16_runsAs a b sz nt imm) hr hc ha hn hk hs hl
  · rintro a b c sz nt sh imm s _ v hr hc ha hn hk gc k o rfl u hs hl
    exact windowStore_leaves (stRri32_runsAs a b c sz nt sh imm) hr hc ha hn hk hs hl

end Sys2Proof.Machine

namespace Sys2Proof.Machine

/-! ## The host's steps (O51: R108, R113, R115, R388, R454, R463 to R475) -/

/-! ### Host accesses (R463, R476) -/

section Bar2
variable {s w : State}

/-- A BAR2 access whose address the function's tables serve (R463). -/
structure Bar2Served (s w : State) (perm : Perm) (l : Loc) : Prop where
  function : s.inp.a < 64
  exposed : pf0Only s = false
  window : s.inp.b < 2 ^ 34
  some_byte : 0 < s.inp.bytes.length
  one_line : ((s.vfOf s.inp.a).winb + wNat s.inp.b).toNat % 32 + s.inp.bytes.length ≤ 32
  served : translate s ferryQ s.inp.a ((s.vfOf s.inp.a).winb + wNat s.inp.b).toNat perm = .ok (w, l)

theorem Bar2Served.not_refused {perm : Perm} {l : Loc} (h : Bar2Served s w perm l) :
    ¬ (64 ≤ s.inp.a ∨ pf0Only s = true ∨ 2 ^ 34 ≤ s.inp.b ∨ s.inp.bytes.length = 0 ∨
      32 < ((s.vfOf s.inp.a).winb + BitVec.ofNat 64 s.inp.b).toNat % 32 + s.inp.bytes.length) := by
  obtain ⟨h1, h2, h3, h4, h5, -⟩ := h
  unfold wNat at h5
  simp only [h2, Bool.false_eq_true, false_or, not_or]
  omega

theorem execHostBar2Access_writeOwn {pa : Nat} (h : Bar2Served s w .store (.own pa)) (hc : s.inp.c = 1) :
    execHostBar2Access s = .next (performAt w pa s.inp.bytes) := by
  have hs := h.served
  unfold wNat at hs
  simp only [execHostBar2Access, if_neg h.not_refused, hc, Nat.one_ne_zero, if_false, hs]

theorem execHostBar2Access_writeHost {pa : Nat} {wc : Bool} (h : Bar2Served s w .store (.host pa wc)) (hc : s.inp.c = 1) :
    execHostBar2Access s = .next (hostStore w pa wc s.inp.bytes) := by
  have hs := h.served
  unfold wNat at hs
  simp only [execHostBar2Access, if_neg h.not_refused, hc, Nat.one_ne_zero, if_false, hs]

theorem execHostBar2Access_readOwn {pa : Nat} (h : Bar2Served s w .load (.own pa)) (hc : s.inp.c = 0) :
    execHostBar2Access s =
      .next { w with hostRead := (List.range s.inp.bytes.length).map fun i => w.byteAt (pa + i) } := by
  have hs := h.served
  unfold wNat at hs
  simp only [execHostBar2Access, if_neg h.not_refused, hc, if_true, hs]
  rfl

end Bar2

section Bar0
variable {s : State}

/-- An access of PF0's BAR0 that the host port takes (R476). -/
structure Bar0Taken (s : State) : Prop where
  span : s.inp.a + s.inp.bytes.length ≤ 2 ^ 34
  size : s.inp.bytes.length ∈ [1, 2, 4, 8]
  aligned : s.inp.a % s.inp.bytes.length = 0
  register : isKickBlock s.inp.a = false

theorem execRegisterWrite_pf0 (hb : s.inp.b = 0) (h : Bar0Taken s) : execRegisterWrite s =
    if s.inp.c = 1 then .next { s with hostRead := leBytes s.inp.bytes.length (devRead s s.inp.a s.inp.bytes.length) }
    else .next (devWrite s s.inp.a s.inp.bytes) := by
  obtain ⟨h1, h2, h3, h4⟩ := h
  unfold execRegisterWrite
  simp only [hb, if_true]
  rw [if_pos ⟨by omega, .inl trivial, h1, List.elem_iff.2 h2, h3, h4⟩]

theorem devRead_eq (s : State) (off n : Nat) :
    devRead s off n = (regRead s (off / 8 * 8)).toNat / 2 ^ (8 * (off % 8)) % 2 ^ (8 * n) := rfl

/-- A write of a whole doubleword takes nothing from what stood there. -/
theorem devWrite_doubleword {off : Nat} {bs : List Byte} (ho : off % 8 = 0) (hn : bs.length = 8) :
    devWrite s off bs = regWrite s off (wNat (leNat bs)) (wNat (leNat bs)) := by
  have hmerge : ∀ x y : Word, (x &&& ~~~BitVec.ofNat 64 (2 ^ 64 - 1)) ||| y = y := by
    intro x y
    have : ~~~BitVec.ofNat 64 (2 ^ 64 - 1) = 0#64 := by decide
    rw [this, BitVec.and_zero, BitVec.zero_or]
  have hoff : off / 8 * 8 = off := Nat.div_mul_cancel (Nat.dvd_of_mod_eq_zero ho)
  unfold devWrite
  simp only [ho, hn, Nat.mul_zero, pow_zero, Nat.mul_one, hoff, hmerge]
  rfl

theorem execRegisterWrite_vf (h1 : 1 ≤ s.inp.b) (h2 : s.inp.b ≤ 64) (hp : pf0Only s = false) (hc : s.inp.c ≠ 1)
    (hn : s.inp.bytes.length = 8) (ha : s.inp.a % 8 = 0) (hs : s.inp.a < 2 ^ 16) : execRegisterWrite s =
      .next (regWrite s (0x1000000 + 0x10000 * (s.inp.b - 1) + s.inp.a) (wNat (leNat s.inp.bytes)) (wNat (leNat s.inp.bytes))) := by
  have hoff : (0x1000000 + 0x10000 * (s.inp.b - 1) + s.inp.a) % 8 = 0 := by omega
  have hkick : isKickBlock (0x1000000 + 0x10000 * (s.inp.b - 1) + s.inp.a) = false := by
    unfold isKickBlock
    simp only [Bool.or_eq_false_iff, Bool.and_eq_false_iff, decide_eq_false_iff_not]
    exact ⟨.inl (by omega), .inl (by omega)⟩
  have hb : ¬ s.inp.b = 0 := by omega
  unfold execRegisterWrite
  simp only [hb, if_false, hn]
  rw [if_pos ⟨h2, .inr hp, show s.inp.a + 8 ≤ 2 ^ 16 by omega, rfl, hoff, hkick⟩, if_neg hc, devWrite_doubleword hoff hn]

end Bar0

/-! ### Function control (R108, R113, R454, R465) -/

section Functions
variable {s : State}

theorem execFcenEnable_enables (ha : s.inp.a < 64) (he : (s.vfOf s.inp.a).en = false) : execFcenEnable s =
    .next (s.modVf s.inp.a fun f => { f with
      en := true
      grant := ((List.range (min f.gcnt 12800)).map fun i => s.natAt (f.glist.toNat + 2 * i) 2).filter fun c =>
        decide (c < 12800) && !(s.cluster c).fenced }) := by
  unfold execFcenEnable
  simp only [he, Bool.false_eq_true, or_false, if_neg (Nat.not_le.2 ha)]
  rfl

theorem execFcenDisable_none (he : (s.vfOf s.inp.a).en = true) (hl : ∀ l ∈ s.launches, l.vf ≠ s.inp.a) : execFcenDisable s =
    .next ((s.modVf s.inp.a fun f => { f with en := false }).modVf s.inp.a fun f => { f with busy := false }) := by
  have hfilter : s.launches.filter (fun l => l.vf == s.inp.a) = [] := by
    rw [List.filter_eq_nil_iff]
    exact fun l h => by simpa using hl l h
  have hany : s.launches.any (fun l => l.vf == s.inp.a) = false := by
    rw [List.any_eq_false]
    exact fun l h => by simpa using hl l h
  simp only [execFcenDisable, he, if_true, State.modVf_launches, hfilter, List.foldl_nil, hany]

theorem FMap.get_map {α : Type} (m : FMap α) (f : α → α) (k : Nat) (d : α) :
    FMap.get (m.map fun (e : Nat × α) => (e.1, f e.2)) k d = ((FMap.find m k).map f).getD d := by
  rw [FMap.get, find_map_val m (fun e => (e.1, f e.2)) (fun _ => rfl)]

/-- No chunk is open and nothing is on its way: no translation is in use (R113). -/
theorem usesTranslation_none {s : State} {vf : Nat}
    (h : ∀ e ∈ s.procs, e.2.chunk = none ∧ e.2.remoteOut = [] ∧ ∀ since ans va, e.2.wait ≠ .remote since true ans va) :
    usesTranslation s vf = false := by
  unfold usesTranslation
  rw [List.any_eq_false]
  intro e he
  obtain ⟨hc, hr, hw⟩ := h e he
  cases hwait : e.2.wait with
  | remote since sent ans va =>
    cases sent with
    | false => simp [hc, hr]
    | true => exact absurd hwait (hw since ans va)
  | _ => simp [hc, hr]

/-- A cluster and a slice without the cached translations of a function (R113). -/
def Cluster.dropVf (c : Cluster) (vf : Nat) : Cluster := { c with tlb := c.tlb.filter fun e => e.vf != vf }
def Slice.dropVf (c : Slice) (vf : Nat) : Slice := { c with tlb := c.tlb.filter fun e => e.vf != vf }

theorem execTranslationInvalidate_drops (h : ∀ e ∈ s.procs, e.2.chunk = none ∧ e.2.remoteOut = [] ∧
      ∀ since ans va, e.2.wait ≠ .remote since true ans va) :
    ∃ t, execTranslationInvalidate s = .next t ∧ (t.vfOf s.inp.a).ib = false ∧ (∀ c, ∀ e ∈ (t.cluster c).tlb, e.vf ≠ s.inp.a) ∧
      ∀ c, ∀ e ∈ (t.slice c).tlb, e.vf ≠ s.inp.a := by
  have dropped : ∀ {α : Type} {tlb : α → List TlbEntry} {o : Option α} {d : α} {f : α → α} {e : TlbEntry}, tlb d = [] →
      (∀ x, tlb (f x) = (tlb x).filter fun y => y.vf != s.inp.a) → e ∈ tlb ((o.map f).getD d) → e.vf ≠ s.inp.a := by
    intro α tlb o d f e hd hf he
    cases o with
    | none => simp [hd] at he
    | some x =>
      rw [Option.map_some, Option.getD_some, hf] at he
      simpa using (List.mem_filter.1 he).2
  refine ⟨_, rfl, ?_, fun c e he => ?_, fun c e he => ?_⟩
  · rw [State.modVf_same]
    exact usesTranslation_none h
  · rw [State.modVf_cluster] at he
    have hget := congrArg Cluster.tlb (FMap.get_map s.clusters (·.dropVf s.inp.a) c {})
    exact dropped (tlb := Cluster.tlb) (f := (·.dropVf s.inp.a)) rfl (fun _ => rfl) (hget.subst (motive := fun l => e ∈ l) he)
  · rw [State.modVf_slice] at he
    have hget := congrArg Slice.tlb (FMap.get_map s.slices (·.dropVf s.inp.a) c {})
    exact dropped (tlb := Slice.tlb) (f := (·.dropVf s.inp.a)) rfl (fun _ => rfl) (hget.subst (motive := fun l => e ∈ l) he)

end Functions

section Slices
variable {s : State}

theorem execSlicePartition_begins (ha : s.inp.a < 640) (hc : s.inp.c = 0) (hb : s.inp.b ≤ 24) (hn : s.inp.b ≠ (s.slice s.inp.a).near)
    (hp : (s.slice s.inp.a).parTo = none) :
    execSlicePartition s = .next (s.modSlice s.inp.a fun c => { c with parTo := some s.inp.b }) := by
  unfold execSlicePartition
  rw [if_neg (show ¬ Config.slices ≤ s.inp.a from Nat.not_le.2 ha), if_pos hc]
  simp only [writeNear, hp, Option.isSome_none, Bool.false_eq_true, or_false, if_neg (Nat.not_lt.2 hb), if_neg hn]

theorem execSlicePartition_refused (ha : s.inp.a < 640) (hc : s.inp.c = 0)
    (h : 24 < s.inp.b ∨ (s.slice s.inp.a).parTo.isSome = true) :
    execSlicePartition s = .next (s.modSlice s.inp.a fun c => { c with parErr := true }) := by
  unfold execSlicePartition
  rw [if_neg (show ¬ Config.slices ≤ s.inp.a from Nat.not_le.2 ha), if_pos hc]
  simp only [writeNear, if_pos h]

theorem execSlicePartition_ends {n : Nat} (ha : s.inp.a < 640) (hc : s.inp.c ≠ 0) (hp : (s.slice s.inp.a).parTo = some n) :
    execSlicePartition s = .next (setNear s s.inp.a n) := by
  unfold execSlicePartition
  rw [if_neg (show ¬ Config.slices ≤ s.inp.a from Nat.not_le.2 ha), if_neg hc, hp]

/-- A slice whose near memory has a new size: its bytes beyond the smaller size read as zero (R108). -/
theorem setNear_sets (s : State) (gs n : Nat) : ((setNear s gs n).slice gs).near = n ∧ ((setNear s gs n).slice gs).parTo = none ∧
    ∀ o, min n (s.slice gs).near * 2 ^ 20 ≤ o → o < 2 ^ 25 → (setNear s gs n).byteAt (2 ^ 40 + 2 ^ 25 * gs + o) = 0 := by
  have hslice : (setNear s gs n).slice gs = { s.slice gs with near := n, parTo := none } :=
    State.slice_modSlice s gs fun c => { c with near := n, parTo := none }
  refine ⟨congrArg Slice.near hslice, congrArg Slice.parTo hslice, fun o h1 h2 => ?_⟩
  have hgone : (!(decide (0x10000000000 + 0x2000000 * gs + min n (s.slice gs).near * 2 ^ 20 ≤ 2 ^ 40 + 2 ^ 25 * gs + o) &&
      decide (2 ^ 40 + 2 ^ 25 * gs + o < 0x10000000000 + 0x2000000 * gs + 0x2000000))) = false := by
    rw [decide_eq_true (by omega), decide_eq_true (by omega)]
    rfl
  refine (Memory.read_filter s.mem (fun k => !(decide (0x10000000000 + 0x2000000 * gs + min n (s.slice gs).near * 2 ^ 20 ≤ k) &&
    decide (k < 0x10000000000 + 0x2000000 * gs + 0x2000000))) _).trans ?_
  rw [hgone]
  rfl

theorem execAlogcWrite_idle (ha : s.inp.a < 640) (hr : (s.slice s.inp.a).logRun = none) : execAlogcWrite s =
    .next (s.modSlice s.inp.a fun c => { c with
      logEn := s.inp.w.getLsbD 0, logWrap := s.inp.w.getLsbD 1, logLen := s.inp.w.toNat / 2 ^ 3 % 2 ^ 21
      logHead := if s.inp.w.getLsbD 1 = c.logWrap ∧ s.inp.w.toNat / 2 ^ 3 % 2 ^ 21 = c.logLen then c.logHead else logPlace c }) := by
  have hflush : flushRun s s.inp.a = s := by
    unfold flushRun
    simp only [hr]
  unfold execAlogcWrite
  rw [if_neg (show ¬ Config.slices ≤ s.inp.a from Nat.not_le.2 ha), hflush]
  rfl

end Slices

/-! ### Engine microcode (R27, R29, R466 to R468) -/

/-- Hart `h` has started with the image that it had: at its dispatch vector, whether that passes or stops it, and no byte changes. -/
structure HartStarted (s t : State) (h : Nat) : Prop where
  mem : t.mem = s.mem
  live : (t.proc (hartQOf h)).st = .live
  pc : (t.proc (hartQOf h)).r.pc = wNat (s.proc (hartQOf h)).dispVec
  loaded : (t.proc (hartQOf h)).loaded = true
  codeLen : (t.proc (hartQOf h)).codeLen = (s.proc (hartQOf h)).codeLen
  dispVec : (t.proc (hartQOf h)).dispVec = (s.proc (hartQOf h)).dispVec
  version : (t.proc (hartQOf h)).version = (s.proc (hartQOf h)).version

theorem HartStarted.congr {s t u : State} {h : Nat} (hs : HartStarted s t h) (hp : u.procs = t.procs) (hm : u.mem = t.mem) :
    HartStarted s u h := by
  have hproc : u.proc (hartQOf h) = t.proc (hartQOf h) := by
    rw [State.proc, hp]
    rfl
  obtain ⟨h1, h2, h3, h4, h5, h6, h7⟩ := hs
  rw [← hm] at h1
  rw [← hproc] at h2 h3 h4 h5 h6 h7
  exact ⟨h1, h2, h3, h4, h5, h6, h7⟩

theorem startHart_loaded {s : State} {h : Nat} (hl : (s.proc (hartQOf h)).loaded = true) : HartStarted s (startHart s h) h := by
  unfold startHart
  simp only [hl, Bool.true_eq_false, if_false]
  split
  · constructor <;> simp only [State.proc_setProc, State.setProc_mem]
    rfl
  · constructor <;> simp only [State.pushTurn_proc, State.pushTurn_mem, State.modProc_mem, State.proc_modProc, State.proc_setProc,
      State.setProc_mem]
    rfl

theorem startEctl_loaded {s : State} {h : Nat} (hl : (s.proc (hartQOf h)).loaded = true) : HartStarted s (startEctl s h) h := by
  have hstart := startHart_loaded hl
  unfold startEctl
  simp only
  have hpilot : HartStarted s (if 13457 ≤ h then
      (startHart s h).modPilot (h - 13457) fun x => { x with st := 0, kicked := s.tide } else startHart s h) h := by
    split
    · exact hstart.congr rfl rfl
    · exact hstart
  generalize (if 13457 ≤ h then
      (startHart s h).modPilot (h - 13457) fun x => { x with st := 0, kicked := s.tide } else startHart s h) = u at hpilot ⊢
  split
  · exact hpilot.congr rfl rfl
  · exact hpilot

/-- A hart whose store was never replaced goes on with the default microcode. -/
theorem startEctl_default {s : State} {h : Nat} (hl : (s.proc (hartQOf h)).loaded = false) : runsDefault (startEctl s h) h = true := by
  have hstart : (startHart s h).proc (hartQOf h) =
      { codeLen := (s.proc (hartQOf h)).codeLen, dispVec := (s.proc (hartQOf h)).dispVec, version := (s.proc (hartQOf h)).version
        loaded := (s.proc (hartQOf h)).loaded, vf := (s.proc (hartQOf h)).vf, remoteOut := (s.proc (hartQOf h)).remoteOut } := by
    unfold startHart
    rw [if_pos hl, State.proc_setProc]
  have hpilot : (if 13457 ≤ h then
      (startHart s h).modPilot (h - 13457) fun x => { x with st := 0, kicked := s.tide } else startHart s h).proc (hartQOf h) =
        (startHart s h).proc (hartQOf h) := by split <;> rfl
  unfold startEctl runsDefault
  simp only [hpilot, hstart, Bool.false_eq_true, if_false, hl]
  rfl

section Ectl
variable {s : State} {h : Nat}

/-- The hart that `w` names, by its class and its index (R466). -/
def namedBy (s : State) : Option Nat := namedHart (s.inp.w.toNat % 8) (s.inp.w.toNat / 2 ^ 3 % 2 ^ 14)

theorem namedHart_pilot {cls ix : Nat} (hn : namedHart cls ix = some h) : cls = 4 ↔ 13457 ≤ h := by
  have hsome : ∀ {c : Prop} [Decidable c] {x : Nat}, (if c then some x else none) = some h → c ∧ x = h := by
    intro c _ x hx
    split at hx
    · exact ⟨‹c›, Option.some.inj hx⟩
    · cases hx
  unfold namedHart at hn
  split at hn
  case h_6 => cases hn
  case h_5 =>
    obtain ⟨-, rfl⟩ := hsome hn
    exact ⟨fun _ => Nat.le_add_right _ _, fun _ => rfl⟩
  case h_4 =>
    obtain ⟨-, rfl⟩ := hsome hn
    exact ⟨fun h4 => absurd h4 (by decide), fun h4 => absurd h4 (by decide)⟩
  all_goals
    obtain ⟨hix, rfl⟩ := hsome hn
    have hc : Config.clusters = 12800 := rfl
    omega

/-- The state with the image at emaddr in the store of hart `h` (R29, R466). -/
def imageLoaded (s : State) (h ver len vec : Nat) : State :=
  ({ s with mem := Memory.writeList s.mem (ucKey h 0) ((microcodeAt s s.emaddr.toNat len false).drop 64) } : State).modProc (hartQOf h)
    fun p => { p with codeLen := len, dispVec := vec, version := ver, loaded := true }

theorem microcodeAt_payload (s : State) (pa len : Nat) :
    (microcodeAt s pa len false).drop 64 = (List.range len).map fun j => s.byteAt (pa + 64 + j) := by
  apply List.ext_getElem
  · simp [microcodeAt, upTo]
  · intro j h1 h2
    simp [microcodeAt, upTo, Nat.add_assoc]

theorem imageLoaded_byteAt (s : State) (h ver len vec : Nat) {j : Nat} (hj : j < len) :
    (imageLoaded s h ver len vec).byteAt (ucKey h j) = s.byteAt (s.emaddr.toNat + 64 + j) := by
  have hlen : j < ((microcodeAt s s.emaddr.toNat len false).drop 64).length := by
    rw [microcodeAt_payload]
    simpa using hj
  have hkey : ucKey h j = ucKey h 0 + j := rfl
  rw [hkey]
  refine (Memory.read_writeList_in _ s.mem (ucKey h 0) j hlen).trans ?_
  simp [microcodeAt_payload]

theorem imageLoaded_proc (s : State) (h ver len vec : Nat) : (imageLoaded s h ver len vec).proc (hartQOf h) =
    { s.proc (hartQOf h) with codeLen := len, dispVec := vec, version := ver, loaded := true } := State.proc_modProc _ _ _

variable {ver len vec : Nat}

theorem execEctlGo_names (hn : namedBy s = some h) (hb : hartBusy s h = false)
    (hi : imageHeaderAt s s.emaddr.toNat (s.inp.w.toNat % 8) = some (ver, len, vec)) : execEctlGo s =
      if s.inp.w.toNat % 8 = 4 ∧ Config.imageVerifies (microcodeAt s s.emaddr.toNat len true) = false then .next (refuseEctl s)
      else if s.inp.w.toNat % 8 = 4 then .next (((imageLoaded s h ver len vec).modPilot (h - 13457) fun x => { x with st := 3 }).pushTurn
        .pilotRestart { a := h - 13457 })
      else .next (startEctl (imageLoaded s h ver len vec) h) := by
  have hcls : fld s.inp.w 0 3 = s.inp.w.toNat % 8 := fld_low _ _
  have hix : namedHart (s.inp.w.toNat % 8) (fld s.inp.w 3 14) = some h := hn
  simp only [execEctlGo, hcls, hix, hb, Bool.false_eq_true, if_false, hi]
  rfl

theorem execEctlGo_starts (hn : namedBy s = some h) (hp : h < 13457) (hb : hartBusy s h = false)
    (hi : imageHeaderAt s s.emaddr.toNat (s.inp.w.toNat % 8) = some (ver, len, vec)) :
    execEctlGo s = .next (startEctl (imageLoaded s h ver len vec) h) := by
  have hcls : ¬ s.inp.w.toNat % 8 = 4 := fun h4 => absurd ((namedHart_pilot hn).1 h4) (Nat.not_le.2 hp)
  rw [execEctlGo_names hn hb hi, if_neg fun hc => hcls hc.1, if_neg hcls]

theorem execEctlGo_pilot (hn : namedBy s = some h) (hc : s.inp.w.toNat % 8 = 4) (hb : hartBusy s h = false)
    (hi : imageHeaderAt s s.emaddr.toNat 4 = some (ver, len, vec)) : execEctlGo s =
      if Config.imageVerifies ((List.range (64 + len + 2764)).map fun i => s.byteAt (s.emaddr.toNat + i)) = false then
        .next (refuseEctl s)
      else .next (((imageLoaded s h ver len vec).modPilot (h - 13457) fun x => { x with st := 3 }).pushTurn
        .pilotRestart { a := h - 13457 }) := by
  rw [execEctlGo_names hn hb (by rw [hc]; exact hi)]
  simp only [hc, true_and, if_true]
  rfl

theorem execEctlRst_stopped (hn : namedBy s = some h) (hs : (s.proc (hartQOf h)).stopped = true) :
    execEctlRst s = .next (startEctl s h) := by
  have hix : namedHart (fld s.inp.w 0 3) (fld s.inp.w 3 14) = some h := by rw [fld_low]; exact hn
  simp only [execEctlRst, hix, hs, if_true]

theorem execEctlRst_none (hn : namedBy s = none) : execEctlRst s = .next { s with ectlErr := true } := by
  have hix : namedHart (fld s.inp.w 0 3) (fld s.inp.w 3 14) = none := by rw [fld_low]; exact hn
  simp only [execEctlRst, hix]
  rfl

end Ectl

/-! ### Boot (R468, R469) -/

theorem bootStatus_zero : bootStatus 0 = 255 := by decide

theorem imageFailed_none : (((upTo 8).map (· + 1)).flatMap fun k => if imageFailed 255 k then imageHarts k else []) = [] := by
  have hok : ∀ k ∈ (upTo 8).map (· + 1), imageFailed 255 k = false := by decide
  rw [List.flatMap_eq_nil_iff]
  intro k hk
  rw [hok k hk]
  rfl

/-- Bytes written elsewhere leave a byte as it was. -/
theorem read_foldl_write_ne {cells : FMap Byte} {a : Nat} (h : ∀ e ∈ cells, e.1 ≠ a) (m : List Host.Cell) :
    Memory.read (cells.foldl (fun m e => Memory.write m e.1 e.2) m) a = Memory.read m a := by
  induction cells generalizing m with
  | nil => rfl
  | cons e cells ih =>
    rw [List.foldl_cons, ih fun x hx => h x (List.mem_cons_of_mem _ hx), Memory.read_write,
      if_neg (h e List.mem_cons_self).symm]

theorem execDeviceReset_boots {s : State} (hw : s.inp.w = 0) (hs : ∀ e ∈ s.hostStale, 2 ^ 51 ≤ e.1) :
    ∃ t, execDeviceReset s = .next t ∧ t.tide = 0 ∧ t.boot = true ∧ t.bstat = 255 ∧ t.launches = [] ∧ t.msix = [(0, 0)] ∧
      (∀ q, t.proc q = {}) ∧ ∀ a, a < 2 ^ 40 → t.byteAt a = s.byteAt a := by
  unfold execDeviceReset
  simp only [hw, bootStatus_zero, imageFailed_none]
  refine ⟨_, rfl, rfl, (by decide : decide (fld (255 : Word) 0 8 = 255) = true), rfl, rfl, rfl, fun q => rfl, fun a ha => ?_⟩
  refine (Memory.read_filter _ (fun k => isLpddr k || isHostPa k) a).trans ?_
  rw [if_pos (by rw [isLpddr, decide_eq_true ha]; rfl)]
  exact read_foldl_write_ne (fun e he => by have := hs e he; omega) _

/-! ### Service states (R471 to R475) -/

section Service
variable {s : State}

theorem execCfenceCluster_free (ha : s.inp.a < 12800) (hl : s.launches = []) :
    ∃ t, execCfenceCluster s = .next t ∧ (t.cluster s.inp.a).fenced = true ∧ t.rrq = true ∧ t.msix = s.msix ++ [(0, 3)] := by
  unfold execCfenceCluster
  rw [if_neg (show ¬ Config.clusters ≤ s.inp.a from Nat.not_le.2 ha)]
  simp only [hl, List.filter_nil, List.foldl_nil, holderOf, List.find?_nil]
  refine ⟨_, rfl, ?_, rfl, rfl⟩
  rw [State.modCluster_same]
  exact Bool.or_true _

/-- A Pontoon whose jobs and session end ENGINE_UNAVAILABLE (R329, R473). -/
def Pontoon.unavailable (po : Pontoon) : Pontoon :=
  let fail := fun (j : PJob) => { j with fail := some (j.fail.getD ENGINE_UNAVAILABLE) }
  { po with
    job := po.job.map fail, tail := po.tail.map fail
    tow := po.tow.bind fun w =>
      if w.st = 2 ∧ w.done.isNone ∧ w.owed = [] then none
      else some { w.atBoundary with st := 3, fail := none, done := some (w.done.getD ENGINE_UNAVAILABLE) } }

/-- A Pontoon with no request queued becomes unavailable: what it has in hand fails. -/
theorem endPontoon_idle {t : State} {gc : Nat} (hq : (t.engine (640 + gc)).queue = []) :
    endPontoon t gc = (t.modPontoon gc Pontoon.unavailable).modEngine (seqHart gc) fun e =>
      { e with queue := e.queue.filter fun r => !isTow r } := by
  have hseq : seqQueue t gc = [] := hq
  unfold endPontoon
  simp only [hseq, List.filter_nil, List.foldl_nil]
  have hidle : ∀ u : State, (u.engine (seqHart gc)).queue = [] → afterJob gc u = u := by
    intro u hu
    rw [afterJob, hu]
    rfl
  refine hidle _ ?_
  rw [State.modEngine_same]
  exact congrArg (List.filter fun r => !isTow r) hq

theorem execCfencePontoon_idle (ha : s.inp.a < 12800) (hq : (s.engine (640 + s.inp.a)).queue = []) :
    ∃ t, execCfencePontoon s = .next t ∧ (t.cluster s.inp.a).pfenced = true ∧ t.rrq = true ∧ t.msix = s.msix ++ [(0, 3)] ∧
      ∀ j, (s.pontoon s.inp.a).job = some j → j.fail = none → (t.pontoon s.inp.a).job = some { j with fail := some 0x70 } := by
  have hend := endPontoon_idle (t := (noteFence s).modCluster s.inp.a fun c => { c with pfenced := true }) hq
  unfold execCfencePontoon
  rw [if_neg (show ¬ Config.clusters ≤ s.inp.a from Nat.not_le.2 ha)]
  refine ⟨_, rfl, ?_⟩
  simp only [hend]
  have hcluster : ((((noteFence s).modCluster s.inp.a fun c => { c with pfenced := true }).modPontoon s.inp.a
      Pontoon.unavailable).cluster s.inp.a) =
      { s.cluster s.inp.a with pfenced := true, pontoon := (s.pontoon s.inp.a).unavailable } := by
    rw [State.modPontoon, State.modCluster_same, State.modCluster_same]
    rfl
  refine ⟨congrArg Cluster.pfenced hcluster, rfl, rfl, fun j hj hfail => ?_⟩
  refine (congrArg (fun c => c.pontoon.job) hcluster).trans ?_
  simp only [Pontoon.unavailable, hj, Option.map_some, hfail]
  rfl

theorem execThermalStateChange_warms (h0 : s.thermal = 0) (h1 : 100 ≤ s.inp.a) (h2 : s.inp.a < 110) :
    ∃ t, execThermalStateChange s = .next t ∧ t.thermal = 1 ∧ t.tmax = s.inp.a ∧ t.msix = s.msix ++ [(0, 4)] ∧
      t.launches = s.launches := by
  have ht : thermalOf s.inp.a = 1 := by rw [thermalOf, if_neg (Nat.not_le.2 h2), if_pos h1]
  unfold execThermalStateChange
  simp only [ht, h0]
  exact ⟨_, rfl, rfl, Nat.min_eq_right (by omega), rfl, rfl⟩

theorem get_map_upTo {α : Type} {n p : Nat} (hp : p < n) (f : Nat → α) (d : α) :
    FMap.get ((upTo n).map fun p => (p, f p)) p d = f p := by
  have hfind : ∀ l : List Nat, p ∈ l → FMap.find (l.map fun p => (p, f p)) p = some (f p) := by
    intro l
    induction l with
    | nil => exact fun h => absurd h List.not_mem_nil
    | cons x l ih =>
      intro hmem
      rw [List.map_cons, FMap.find]
      split
      next hx => rw [hx]
      next hx => exact ih ((List.mem_cons.1 hmem).resolve_left hx)
  rw [FMap.get, hfind (upTo n) (List.mem_range.2 hp)]
  rfl

theorem execThermalStateChange_trips (h0 : s.thermal ≠ 2) (h1 : 110 ≤ s.inp.a) (hl : s.launches = []) :
    ∃ t, execThermalStateChange s = .next t ∧ t.thermal = 2 ∧ t.msix = s.msix ++ [(0, 4)] ∧
      ∀ p, p < 48 → (s.port p).st ≠ 6 → (t.port p).st = 0 := by
  have ht : thermalOf s.inp.a = 2 := if_pos h1
  unfold execThermalStateChange
  simp only [ht, if_neg h0, Nat.max_zero, if_neg (Ne.symm h0), if_true]
  refine ⟨_, rfl, ?_⟩
  simp only [trip, raiseMsix, hl, List.foldl_nil]
  refine ⟨trivial, trivial, fun p hp hst => ?_⟩
  refine (congrArg LinkPort.st (get_map_upTo hp _ _)).trans ?_
  exact if_neg hst

end Service

/-! ### The steps complete -/

/-- A hart that has started with its image just loaded shows the image's header, and its store holds the image's code (R29). -/
theorem startEctl_image (s : State) (h ver len vec : Nat) :
    let t := startEctl (imageLoaded s h ver len vec) h
    let p := t.proc (hartQOf h)
    p.loaded = true ∧ p.codeLen = len ∧ p.dispVec = vec ∧ p.version = ver ∧ p.r.pc = wNat vec ∧
      ∀ j, j < len → t.byteAt (ucKey h j) = s.byteAt (s.emaddr.toNat + 64 + j) := by
  have hproc := imageLoaded_proc s h ver len vec
  obtain ⟨hmem, -, hpc, hloaded, hlen, hvec, hver⟩ := startEctl_loaded (s := imageLoaded s h ver len vec) (h := h) (by rw [hproc])
  rw [hproc] at hpc hlen hvec hver
  refine ⟨hloaded, hlen, hvec, hver, hpc, fun j hj => ?_⟩
  rw [State.byteAt, hmem]
  exact imageLoaded_byteAt s h ver len vec hj

/-- Settles O51: each step's own lemma says what it leads to. -/
theorem hostStepsComplete : Obligations.HostStepsComplete := by
  unfold Obligations.HostStepsComplete
  refine ⟨?_, ?_, ?_, ?_, ?_, ?_, ?_, ?_, ?_, ?_, ?_, ?_, ?_, ?_, ?_, ?_, ?_, ?_, ?_, ?_, ?_, ?_, ?_, ?_, ?_, ?_, ?_, ?_, ?_⟩
  · rintro w pa s ⟨h1, h2, h3, h4, h5, hc, hs⟩
    exact ⟨_, execHostBar2Access_writeOwn ⟨h1, h2, h3, h4, h5, hs⟩ hc, fun j h => performAt_bytes w pa _ j h⟩
  · rintro w pa wc s ⟨h1, h2, h3, h4, h5, hc, hs⟩
    exact execHostBar2Access_writeHost ⟨h1, h2, h3, h4, h5, hs⟩ hc
  · rintro w pa s ⟨h1, h2, h3, h4, h5, hc, hs⟩
    exact execHostBar2Access_readOwn ⟨h1, h2, h3, h4, h5, hs⟩ hc
  · rintro s ⟨hb, hc, h1, h2, h3, h4⟩
    exact (execRegisterWrite_pf0 hb ⟨h1, h2, h3, h4⟩).trans (if_neg hc)
  · rintro s ⟨h1, h2, hp, hc, hn, ha, hs⟩
    exact execRegisterWrite_vf h1 h2 hp hc hn ha hs
  · rintro s ⟨ha, he⟩
    exact execFcenEnable_enables ha he
  · rintro s ⟨he, hl⟩
    refine ⟨_, execFcenDisable_none he hl, ?_, ?_, rfl⟩ <;> simp only [State.modVf_same]
  · exact fun s h => execTranslationInvalidate_drops h
  · rintro s ⟨ha, hc, hb, hn, hp⟩
    exact execSlicePartition_begins ha hc hb hn hp
  · rintro n s ⟨ha, hc, hp⟩
    exact ⟨_, execSlicePartition_ends ha hc hp, setNear_sets s _ n⟩
  · rintro s ⟨ha, hc, h⟩
    refine ⟨_, execSlicePartition_refused ha hc h, ?_, ?_, rfl⟩ <;> rw [State.slice_modSlice]
  · rintro s ⟨ha, hr⟩
    exact execAlogcWrite_idle ha hr
  · rintro h ver len vec s ⟨hn, hp, hb, hi⟩
    exact ⟨_, execEctlGo_starts hn hp hb hi, startEctl_image s h ver len vec⟩
  · rintro h ver len vec s ⟨hn, hc, hb, hi, hv⟩
    have hproc := imageLoaded_proc s h ver len vec
    refine ⟨_, (execEctlGo_pilot hn hc hb hi).trans (if_neg (by rw [hv]; decide)), ?_⟩
    simp only [State.pushTurn_proc, State.modPilot_proc, hproc, State.pushTurn_pilot, State.modPilot_same]
    exact ⟨trivial, trivial, trivial, trivial, trivial, rfl, fun j hj => imageLoaded_byteAt s h ver len vec hj⟩
  · rintro h ver len vec s ⟨hn, hc, hb, hi, hv⟩
    exact (execEctlGo_pilot hn hc hb hi).trans (if_pos hv)
  · rintro h s ⟨hn, hs, hl⟩
    have hstart := startEctl_loaded hl
    exact ⟨_, execEctlRst_stopped hn hs, hstart.live, hstart.pc⟩
  · rintro h s ⟨hn, hs, hl⟩
    exact ⟨_, execEctlRst_stopped hn hs, startEctl_default hl⟩
  · exact fun s hn => execEctlRst_none hn
  · exact fun s _ => rfl
  · rintro s ⟨hw, hs⟩
    exact execDeviceReset_boots hw hs
  · intro i hi s _
    simp only [List.mem_cons, List.not_mem_nil, or_false] at hi
    rcases hi with rfl | rfl | rfl | rfl | rfl | rfl | rfl <;> rfl
  · rintro s ⟨hf, hl⟩
    have hany : s.launches.any (·.holds) = false := by
      rw [List.any_eq_false]
      exact fun l h => by simp [hl l h]
    show execGofull s = _
    simp only [execGofull, hf, Bool.false_eq_true, if_false, hany]
  · rintro s ⟨hf, hl⟩
    have hany : s.launches.any (·.holds) = true := List.any_eq_true.2 hl
    show execGofull s = _
    simp only [execGofull, hf, Bool.false_eq_true, if_false, hany, if_true]
  · rintro s ⟨ha, hl⟩
    exact execCfenceCluster_free ha hl
  · rintro s ⟨ha, hq⟩
    exact execCfencePontoon_idle ha hq
  · exact fun s _ => rfl
  · rintro s ⟨h0, h1, h2⟩
    exact execThermalStateChange_warms h0 h1 h2
  · rintro s ⟨h0, h1, hl⟩
    exact execThermalStateChange_trips h0 h1 hl
  · rintro s ⟨hb, hc, h1, h2, h3, h4⟩
    refine (execRegisterWrite_pf0 hb ⟨h1, h2, h3, h4⟩).trans ((if_pos hc).trans ?_)
    rw [devRead_eq]

end Sys2Proof.Machine

namespace Sys2Proof.Machine

/-! ## Scalar results (O1, O2, O3: R48, R50, R142, R156 to R163) -/

/-- A source that names a register is read without an effect, and reads that register. -/
theorem src_reg_ok {f : BitVec 6} {u v : State} {x : Word} (h : src f u = .ok x v) (hf : f.toNat < 48) :
    x = u.myReg f ∧ v = u := by
  rw [src_plain f u hf] at h
  cases h
  exact ⟨rfl, rfl⟩

/-- What a scalar instruction means: its sources are read in the order B, C, and its destination takes the result. -/
structure MeansAlu (i : Instr) (f : Alu) (body : Eff Next) : Prop where
  exec_eq : Sys2Proof.Machine.exec i = runHead i body
  body_eq : i.wf = true → ∀ {u v w : State} {x y : Word}, src f.b u = .ok x v → src f.c v = .ok y w →
    body u = writeNext f.lat f.a (f.val w.me.r.pc (w.myReg f.a) x y) w

section Means
variable {i : Instr} {lat : Nat} {a b c : BitVec 6} {val : Word → Word → Word → Word → Word}

theorem MeansAlu.of_two {g : Word → Word → Word} (he : Sys2Proof.Machine.exec i = runHead i (alu2 lat g a b c))
    (hv : ∀ pc old x y, g x y = val pc old x y) : MeansAlu i ⟨lat, a, b, c, val⟩ (alu2 lat g a b c) where
  exec_eq := he
  body_eq _ _ _ _ _ _ hx hy := by
    unfold alu2
    rw [Eff.bind_ok hx, Eff.bind_ok hy, hv]

theorem MeansAlu.of_one {g : Word → Word} (he : Sys2Proof.Machine.exec i = runHead i (alu1 g a b))
    (hv : i.wf = true → ∀ pc old x y, g x = val pc old x y) : MeansAlu i ⟨1, a, b, 0, val⟩ (alu1 g a b) where
  exec_eq := he
  body_eq hw _ _ _ _ _ hx hy := by
    obtain ⟨rfl, rfl⟩ := src_reg_ok hy (show (0 : BitVec 6).toNat < 48 by decide)
    unfold alu1
    rw [Eff.bind_ok hx, hv hw]

/-- A scalar instruction whose sources are registers alone. -/
theorem MeansAlu.of_regs {body : Eff Next} (he : Sys2Proof.Machine.exec i = runHead i body)
    (hr : i.wf = true → b.toNat < 48 ∧ c.toNat < 48)
    (hv : ∀ u, body u = writeNext 1 a (val u.me.r.pc (u.myReg a) (u.myReg b) (u.myReg c)) u) :
    MeansAlu i ⟨1, a, b, c, val⟩ body where
  exec_eq := he
  body_eq hw _ _ _ _ _ hx hy := by
    obtain ⟨rfl, rfl⟩ := src_reg_ok hx (hr hw).1
    obtain ⟨rfl, rfl⟩ := src_reg_ok hy (hr hw).2
    exact hv _

end Means

/-! ### The immediates (R41, R159) -/

theorem zeroExtend_toNat {n : Nat} (hn : n ≤ 64) (imm : BitVec n) : (imm.zeroExtend 64).toNat = imm.toNat :=
  BitVec.toNat_setWidth_of_le hn

theorem plainOk_iff (f : BitVec 6) : plainOk f = true ↔ f.toNat < 48 := decide_eq_true_iff

/-- An immediate shift amount is below 64. -/
theorem shiftImm_mod {imm : BitVec 16} {p : Bool} (h : (p && decide (imm.toNat < 64)) = true) :
    (imm.zeroExtend 64).toNat % 64 = imm.toNat := by
  obtain ⟨-, hlt⟩ := (Bool.and_eq_true _ _).mp h
  rw [zeroExtend_toNat (by decide), Nat.mod_eq_of_lt (of_decide_eq_true hlt)]

/-- An address of LEA: a base, a scaled index and a displacement (R158). -/
theorem wNat_index (x y d : Word) (n : Nat) : wNat (x.toNat + y.toNat * 2 ^ n + d.toNat) = x + y <<< n + d := by
  rw [shl_eq, wNat, wNat, BitVec.ofNat_add, BitVec.ofNat_add, BitVec.ofNat_toNat, BitVec.ofNat_toNat, BitVec.setWidth_eq,
    BitVec.setWidth_eq]

/-- Each instruction that `aluOf` lists means its entry. -/
theorem aluOf_means {i : Instr} {f : Alu} (hf : aluOf i = some f) : ∃ body, MeansAlu i f body := by
  have unread : ∀ {p : Prop}, p → (0 : BitVec 6).toNat < 48 ∧ (0 : BitVec 6).toNat < 48 := fun _ => by decide
  have last : ∀ {p : Bool} {f : BitVec 6}, (p && plainOk f) = true → f.toNat < 48 :=
    fun h => (plainOk_iff _).1 ((Bool.and_eq_true _ _).mp h).2
  unfold aluOf at hf
  split at hf
  all_goals cases hf
  case h_1 | h_2 | h_3 => exact ⟨_, .of_regs rfl unread fun _ => rfl⟩
  case h_4 => exact ⟨_, .of_regs rfl unread fun _ => by rw [← shl_eq]⟩
  case h_5 => exact ⟨_, .of_regs rfl (fun hw => ⟨last hw, by decide⟩) fun _ => by rw [← add_eq]; rfl⟩
  case h_6 => exact ⟨_, .of_regs rfl unread fun _ => by rw [← add_eq]; rfl⟩
  case h_7 =>
    exact ⟨_, .of_regs rfl (fun hw => ⟨last ((Bool.and_eq_true _ _).mp hw).1, last hw⟩) fun _ => by rw [wNat_index]; rfl⟩
  case h_8 => exact ⟨_, .of_regs rfl (fun hw => ⟨by decide, last hw⟩) fun _ => by rw [wNat_index]; rfl⟩
  case h_9 => exact ⟨_, .of_two rfl fun _ _ => add_eq⟩
  case h_10 => exact ⟨_, .of_two rfl fun _ _ => sub_eq⟩
  case h_11 => exact ⟨_, .of_two rfl fun _ _ => and_eq⟩
  case h_12 => exact ⟨_, .of_two rfl fun _ _ => or_eq⟩
  case h_13 => exact ⟨_, .of_two rfl fun _ _ => xor_eq⟩
  case h_14 => exact ⟨_, .of_two rfl fun _ _ => shlW_eq⟩
  case h_15 => exact ⟨_, .of_two rfl fun _ _ => shrW_eq⟩
  case h_16 => exact ⟨_, .of_two rfl fun _ _ => sraW_eq⟩
  case h_17 => exact ⟨_, .of_two rfl fun _ _ => minS_eq⟩
  case h_18 => exact ⟨_, .of_two rfl fun _ _ => maxS_eq⟩
  case h_19 => exact ⟨_, .of_two rfl fun _ _ => minU_eq⟩
  case h_20 => exact ⟨_, .of_two rfl fun _ _ => maxU_eq⟩
  case h_21 | h_28 => exact ⟨_, .of_one rfl fun _ _ _ _ _ => add_eq _ _⟩
  case h_22 | h_29 => exact ⟨_, .of_one rfl fun _ _ _ _ _ => and_eq _ _⟩
  case h_23 | h_30 => exact ⟨_, .of_one rfl fun _ _ _ _ _ => by rw [or_eq, zeroExtend_toNat (by decide)]⟩
  case h_24 | h_31 => exact ⟨_, .of_one rfl fun _ _ _ _ _ => by rw [xor_eq, zeroExtend_toNat (by decide)]⟩
  case h_25 => exact ⟨_, .of_one rfl fun hw _ _ _ _ => by rw [shlW_eq, shiftImm_mod hw]⟩
  case h_26 => exact ⟨_, .of_one rfl fun hw _ _ _ _ => by rw [shrW_eq, shiftImm_mod hw]⟩
  case h_27 => exact ⟨_, .of_one rfl fun hw _ _ _ _ => by rw [sraW_eq, shiftImm_mod hw]⟩
  case h_32 => exact ⟨_, .of_two rfl fun _ _ _ _ => by rw [condW_eq]⟩
  case h_33 => exact ⟨_, .of_one rfl fun _ _ _ _ _ => by rw [condW_eq]⟩
  case h_34 => exact ⟨_, .of_one rfl fun _ _ _ _ _ => bfx_eq _ _ _ _⟩
  case h_35 => exact ⟨_, rfl, fun _ _ _ _ _ _ hx hy => by
    obtain ⟨rfl, rfl⟩ := src_reg_ok hy (show (0 : BitVec 6).toNat < 48 by decide)
    exact (Eff.bind_ok hx).trans (Eff.bind_ok (gr_apply _ _))⟩
  case h_36 => exact ⟨_, .of_one rfl fun _ _ _ _ _ => clzW_eq _⟩
  case h_37 => exact ⟨_, .of_one rfl fun _ _ _ _ _ => popcW_eq _⟩
  case h_38 => exact ⟨_, .of_two rfl fun _ _ => mul_eq⟩
  case h_39 => exact ⟨_, .of_two rfl fun _ _ => mulhS_eq⟩
  case h_40 => exact ⟨_, .of_two rfl fun _ _ => mulhU_eq⟩
  case h_41 => exact ⟨_, .of_two rfl fun _ _ => divS_eq⟩
  case h_42 => exact ⟨_, .of_two rfl fun _ _ => divU_eq⟩
  case h_43 => exact ⟨_, .of_two rfl fun _ _ => remS_eq⟩
  case h_44 => exact ⟨_, .of_two rfl fun _ _ => remU_eq⟩

/-! ### The statements -/

theorem wf_of_ready {s : State} {i : Instr} (h : ready s i = true) : i.wf = true := by
  obtain ⟨-, -, hops, -⟩ := (ready_iff s i).1 h
  unfold operandsOk at hops
  simp only [Bool.and_eq_true] at hops
  exact hops.1.1

theorem Alu.plain_iff (f : Alu) : f.plain = true ↔ f.a.toNat < 48 ∧ f.b.toNat < 48 ∧ f.c.toNat < 48 := by
  simp [Alu.plain, and_assoc]

/-- The result of a scalar instruction of registers, as it lands on the agent that moves. -/
def Alu.lands (f : Alu) (t : State) : State := t.landG f.lat f.a (f.val t.me.r.pc (t.myReg f.a) (t.myReg f.b) (t.myReg f.c))

theorem MeansAlu.plain_apply {i : Instr} {f : Alu} {body : Eff Next} (h : MeansAlu i f body) (hw : i.wf = true)
    (hp : f.plain = true) (t : State) : body t = .ok seqNext (f.lands t) := by
  obtain ⟨ha, hb, hc⟩ := f.plain_iff.1 hp
  rw [h.body_eq hw (src_plain _ _ hb) (src_plain _ _ hc), writeNext_plain _ _ _ _ ha]
  rfl

/-- Settles O1: each member's run of the meaning lands the result on it. -/
theorem scalarResults : Obligations.ScalarResults := by
  intro i f s hf hr hp
  obtain ⟨body, hm⟩ := aluOf_means hf
  exact completes_each hr f.lands (congrFun hm.exec_eq s) (hm.plain_apply (wf_of_ready hr) hp) fun t => landG_sameChunks t _ _ _

/-- Settles O2: the sources are read in turn, and what they leave takes the result. -/
theorem scalarPortOperands : Obligations.ScalarPortOperands := by
  intro i f s s1 s2 t x y hf hr ha hx hy hd hl
  obtain ⟨body, hm⟩ := aluOf_means hf
  exact completes_alone hr ha (congrFun hm.exec_eq s) ((hm.body_eq (wf_of_ready hr) hx hy).trans (Eff.bind_ok hd)) hl

/-! ### The frame of a scalar result in free mode (R48, R139, R142) -/

/-- The registers whose results are awaited, with one of latency `lat` for register `k`. -/
def dueWith (tide : Word) (lat k : Nat) (due : FMap Nat) : FMap Nat :=
  if lat ≤ 1 then due else FMap.put (due.filter fun e => decide (tide.toNat < e.2)) k (max (tide.toNat + lat) (due.get k 0))

/-- An agent in free mode with a result in general register `k`; g0 discards it. -/
def resulted (tide : Word) (lat k : Nat) (x : Word) (p : Proc) : Proc :=
  if k = 0 then p else { p with r := p.r.writeG k x, due := dueWith tide lat k p.due }

/-- A result in free mode changes its agent alone. -/
theorem landG_modProc {s : State} {g : Proc → Proc} (ht : (g s.me).timed = false) (lat : Nat) (a : BitVec 6) (x : Word) :
    (s.modProc s.cur g).landG lat a x = s.modProc s.cur (resulted s.tide lat a.toNat x ∘ g) := by
  have hme : (s.modProc s.cur g).me.timed = false := (congrArg Proc.timed (State.proc_modProc s s.cur g)).trans ht
  unfold State.landG State.land
  rw [if_neg (show ¬ (s.modProc s.cur g).me.timed = true by rw [hme]; decide)]
  by_cases ha : a.toNat = 0
  · rw [if_pos ha]
    exact modProc_congr (if_pos ha).symm
  · rw [if_neg ha]
    have hr : ∀ p, resulted s.tide lat a.toNat x p =
        { p with r := p.r.writeG a.toNat x, due := dueWith s.tide lat a.toNat p.due } := fun p => if_neg ha
    unfold noteDue RegWrite.key applyWrite
    simp only [State.modProc_cur, State.modProc_tide]
    by_cases hl : lat ≤ 1
    · rw [if_pos hl, modProc_modProc]
      exact modProc_congr (by simp only [Function.comp, hr, dueWith, if_pos hl]; rfl)
    · rw [if_neg hl, modProc_modProc, modProc_modProc]
      exact modProc_congr (by simp only [Function.comp, hr, dueWith, if_neg hl]; rfl)

theorem Regs.readG_writeG_same (r : Regs) {k : Nat} (h0 : k ≠ 0) (hk : k < 48) (x : Word) : (r.writeG k x).readG k = x := by
  simp [Regs.writeG, Regs.readG, h0, hk]

/-- `p'` is the agent `p` with the result `x` in register `k`: nothing else changes but the registers it awaits. -/
structure ResultIn (k : Nat) (x : Word) (p p' : Proc) : Prop where
  rest : p' = { p with r := p'.r, due := p'.due }
  pc : p'.r.pc = p.r.pc
  vector : VectorKept p.r p'.r
  reg : p'.r.readG k = if k = 0 then 0 else x
  regs : ∀ n, n ≠ k → p'.r.readG n = p.r.readG n

theorem resulted_resultIn (tide : Word) (lat : Nat) {k : Nat} (hk : k < 48) (x : Word) (p : Proc) :
    ResultIn k x p (resulted tide lat k x p) := by
  unfold resulted
  by_cases h0 : k = 0
  · rw [if_pos h0, h0]
    exact ⟨rfl, rfl, .refl _, rfl, fun _ _ => rfl⟩
  · rw [if_neg h0]
    refine ⟨rfl, ?_, ?_, ?_, fun _ => Regs.readG_writeG_ne⟩
    · rw [Regs.writeG, if_neg h0]
    · rw [Regs.writeG, if_neg h0]
      exact ⟨rfl, rfl, rfl, rfl, rfl, rfl, rfl⟩
    · rw [if_neg h0]
      exact Regs.readG_writeG_same _ h0 hk x

/-- A head of a calm agent that has changed its agent to `g` alone, but not its chunk or its code, completes. -/
theorem exec_of_ownAgent {s : State} {i : Instr} {g : Proc → Proc} (hc : calm s i = true)
    (h : Completes i s (s.modProc s.cur g) seqNext) (hchunk : (g s.me).chunk.isSome = true) (hsingle : (g s.me).single = s.me.single)
    (hpc : (g s.me).r.pc = s.me.r.pc) (hcopy : (g s.me).copy = s.me.copy) (hlines : (g s.me).lines = s.me.lines)
    (hlen : (g s.me).codeLen = s.me.codeLen) :
    Sys2Proof.Machine.exec i s =
      .next { s.modProc s.cur (closed s (nextPc s s.cur s.me.r.pc) seqNext ∘ g) with issued := true } := by
  obtain ⟨hm, -, -, hs, he, -⟩ := (calm_iff s i).1 hc
  have hme : (s.modProc s.cur g).me = g s.me := State.proc_modProc _ _ _
  have hnext : nextPc (s.modProc s.cur g) s.cur s.me.r.pc = nextPc s s.cur s.me.r.pc := by
    unfold nextPc headCount
    rw [residentLine_modProc_of_fetch hcopy hlines hlen]
  have hend := endHead_calm (t := s.modProc s.cur g) (i := i) (nx := seqNext) hm (by rw [hme, hchunk]) he (by rw [hme, hsingle, hs]) rfl
  rw [hme, hpc, show (seqNext.target.getD (nextPc (s.modProc s.cur g) (s.modProc s.cur g).cur s.me.r.pc)) =
    nextPc s s.cur s.me.r.pc from hnext] at hend
  refine h.trans (congrArg _ (hend.trans ?_))
  show ({ (s.modProc s.cur g).modProc s.cur _ with issued := true } : State) = _
  rw [modProc_modProc]
  rfl

/-- What a calm agent sees and what is performed stays where its agent alone changes and holds back the same stores. -/
theorem memoryKept_modProc {s : State} {g : Proc → Proc} (hm : members s s.cur = [s.cur])
    (hg : (g s.me).heldBytes = s.me.heldBytes) : MemoryKept s { s.modProc s.cur g with issued := true } s.cur := by
  refine ⟨fun a => ?_, fun _ => rfl⟩
  have hl : leader { s.modProc s.cur g with issued := true } s.cur = s.cur := leader_alone hm
  rw [viewByte_leader (leader_alone hm), viewByte_leader hl]
  show (FMap.find ((s.modProc s.cur g).proc s.cur).heldBytes a).getD _ = _
  rw [State.proc_modProc, ← State.me, hg]
  rfl

theorem closed_heldBytes (s : State) (pc : Word) (nx : Next) (p : Proc) : (closed s pc nx p).heldBytes = p.heldBytes := by
  unfold closed Proc.heldBytes
  cases p.chunk <;> rfl

/-- A head of a calm agent whose only effect is a result of a register completes, and nothing else of the machine changes but
the PC and the counts of its agent. -/
theorem exec_of_resultIn {s : State} {i : Instr} {g : Proc → Proc} {k : Nat} {x : Word} (hc : calm s i = true)
    (h : Completes i s (s.modProc s.cur g) seqNext) (hg : ResultIn k x (opened s s.me) (g s.me)) :
    ∃ t, Sys2Proof.Machine.exec i s = .next t ∧ t.reg s.cur k = (if k = 0 then 0 else x) ∧
      (∀ n, n ≠ k → t.reg s.cur n = s.reg s.cur n) ∧ (t.proc s.cur).r.pc = nextPc s s.cur s.me.r.pc ∧
      VectorKept s.me.r (t.proc s.cur).r ∧ SystemKept s.me (t.proc s.cur) ∧ MemoryKept s t s.cur ∧ OthersKept s t s.cur := by
  obtain ⟨hm, -, -, -, -, -⟩ := (calm_iff s i).1 hc
  have hexec := exec_of_ownAgent hc h (by rw [hg.rest]; rfl) (by rw [hg.rest]; rfl) hg.pc (by rw [hg.rest]; rfl)
    (by rw [hg.rest]; rfl) (by rw [hg.rest]; rfl)
  have hheld : (closed s (nextPc s s.cur s.me.r.pc) seqNext (g s.me)).heldBytes = s.me.heldBytes := by
    rw [closed_heldBytes, hg.rest]
    exact opened_heldBytes s s.me
  have hp : ∀ e : Proc → Proc, ({ s.modProc s.cur e with issued := true } : State).proc s.cur = e s.me :=
    fun e => State.proc_modProc _ _ _
  refine ⟨_, hexec, ?_, fun n hn => ?_, ?_, ?_, ?_, memoryKept_modProc hm hheld, fun p hne => ?_, rfl⟩
  · exact (congrArg (fun p : Proc => p.r.readG k) (hp _)).trans hg.reg
  · exact (congrArg (fun p : Proc => p.r.readG n) (hp _)).trans (hg.regs n hn)
  · rw [hp]
    rfl
  · rw [hp]
    exact hg.vector
  · rw [hp, Function.comp_apply, hg.rest]
    exact .refl _
  · exact State.proc_modProc_ne _ _ _ _ hne

/-- Settles O3: the head changes its agent alone, by its result, its PC and its counts. -/
theorem scalarFrame : Obligations.ScalarFrame := by
  intro i f s hf hr hp hc
  obtain ⟨body, hmeans⟩ := aluOf_means hf
  obtain ⟨hm, ht, -, -, -, -⟩ := (calm_iff s i).1 hc
  have hcomp := completes_alone hr ((alone_iff s).2 hm) (congrFun hmeans.exec_eq s) (hmeans.plain_apply (wf_of_ready hr) hp _)
    (by rw [Alu.lands, chunkLines_congr (landG_sameChunks _ _ _ _)]; exact opened_lines hc hr)
  have hme : (beginHead s i).me = opened s s.me := by rw [State.me, beginHead_cur s i, opened_proc hc]
  rw [Alu.lands, opened_myReg hc, opened_myReg hc, opened_myReg hc, hme, beginHead_calm hc, landG_modProc ht] at hcomp
  exact exec_of_resultIn hc hcomp (resulted_resultIn _ _ (f.plain_iff.1 hp).1 _ _)

end Sys2Proof.Machine

namespace Sys2Proof.Machine

/-! ## Branches, loads and stores (O4, O7, O8: R142, R164, R165, R168, R169) -/

/-! ### What a pop leaves (R50, R144) -/

/-- The agent that moves is the same, in the gang it was in, and waits for what it waited for. -/
structure PopKept (s t : State) : Prop where
  cur : t.cur = s.cur
  gang : SameGang s t
  wait : ∀ q, (t.proc q).wait = (s.proc q).wait

namespace PopKept
variable {s t u : State}

theorem refl (s : State) : PopKept s s := ⟨rfl, .refl s, fun _ => rfl⟩

theorem trans (h : PopKept s t) (k : PopKept t u) : PopKept s u :=
  ⟨k.cur.trans h.cur, h.gang.trans k.gang, fun q => (k.wait q).trans (h.wait q)⟩

theorem modCore {g : Nat} {f : Core → Core} (h : ∀ c, (f c).gsize = c.gsize ∧ (f c).gmemb = c.gmemb) : PopKept s (s.modCore g f) :=
  ⟨rfl, .modCore (h _), fun _ => rfl⟩

theorem modProc {q : Nat} {f : Proc → Proc} (h : ∀ p, (f p).wait = p.wait) : PopKept s (s.modProc q f) where
  cur := rfl
  gang := .modProc s q f
  wait r := by
    rw [State.proc_modProc_eq]
    split
    next hr => exact hr ▸ h _
    · rfl

theorem members (h : PopKept s t) (hm : Machine.members s s.cur = [s.cur]) : Machine.members t t.cur = [t.cur] := by
  rw [members_congr h.gang, h.cur, hm]

end PopKept

/-- Every completed run of a pop from `s` keeps what `PopKept` says. -/
def PopsFrom (s : State) (e : Eff Word) : Prop := ∀ x t, e s = .ok x t → PopKept s t

section Pops
variable {s : State}

theorem PopsFrom.of_ok {e : Eff Word} {x : Word} {t : State} (h : e s = .ok x t) (hk : PopKept s t) : PopsFrom s e := by
  intro y u h'
  cases h.symm.trans h'
  exact hk

theorem PopsFrom.of_throw {x : Stop} : PopsFrom s (throw x) := fun _ _ h => nomatch h

theorem PopsFrom.get_bind {k : State → Eff Word} (h : PopsFrom s (k s)) : PopsFrom s (get >>= k) := by
  intro x t hk
  rw [Eff.bind_ok (Eff.get_apply s)] at hk
  exact h x t hk

theorem emptyPort_popsFrom (p : Nat) : PopsFrom s (emptyPort p) := by
  refine .get_bind ?_
  split <;> exact .of_throw

theorem popMesh_popsFrom (d : Nat) : PopsFrom s (popMesh d) := by
  refine .get_bind ?_
  dsimp only
  split
  · exact .of_throw
  · split
    · exact .of_throw
    · split
      · exact emptyPort_popsFrom _
      · exact .of_ok rfl (.modCore fun _ => ⟨rfl, rfl⟩)

theorem popQc_popsFrom : PopsFrom s popQc := by
  refine .get_bind ?_
  dsimp only
  split
  · exact emptyPort_popsFrom _
  · exact .of_ok rfl (.modCore fun _ => ⟨rfl, rfl⟩)

theorem popJet_popsFrom : PopsFrom s popJet := by
  refine .get_bind ?_
  dsimp only
  split
  · exact emptyPort_popsFrom _
  next m ms _ =>
    have h := PopKept.modCore (s := s) (g := coreOf s.cur) (f := fun c => { c with jetty := ms }) fun _ => ⟨rfl, rfl⟩
    exact .of_ok rfl (h.trans (.modProc fun _ => rfl))

theorem popProw_popsFrom : PopsFrom s popProw := by
  refine .get_bind ?_
  split
  · split
    · exact .of_throw
    · exact .of_ok rfl (.modProc fun _ => rfl)
  · exact .of_throw

theorem popXq_popsFrom : PopsFrom s popXq := by
  refine .get_bind ?_
  dsimp only
  split
  · exact emptyPort_popsFrom _
  next x k rest _ =>
    have h := PopKept.modCore (s := s) (g := coreOf s.cur) (f := fun c => { c with xq := rest }) fun _ => ⟨rfl, rfl⟩
    exact .of_ok rfl (h.trans ⟨rfl, .of_cores rfl, fun _ => rfl⟩)

theorem popQx_popsFrom (n : Nat) : PopsFrom s (popQx n) := by
  refine .get_bind ?_
  dsimp only
  split
  · exact emptyPort_popsFrom _
  · exact .of_ok rfl (.modCore fun _ => ⟨rfl, rfl⟩)

theorem popPort_popsFrom (f : Nat) : PopsFrom s (popPort f) := by
  unfold popPort
  split
  · exact popMesh_popsFrom 0
  · exact popMesh_popsFrom 1
  · exact popMesh_popsFrom 2
  · exact popMesh_popsFrom 3
  · exact popQc_popsFrom
  · exact popJet_popsFrom
  · exact popProw_popsFrom
  · exact popXq_popsFrom
  · exact popQx_popsFrom _

theorem src_kept {f : BitVec 6} {x : Word} {t : State} (h : src f s = .ok x t) : PopKept s t := by
  by_cases hf : f.toNat < 48
  · obtain ⟨-, rfl⟩ := src_reg_ok h hf
    exact .refl t
  · unfold src at h
    rw [if_neg hf] at h
    exact popPort_popsFrom _ x t h

theorem pops_kept {a b : BitVec 6} {x y : Word} {w : State} (h : pops s a b x y w) : PopKept s w := by
  obtain ⟨v, hx, hy⟩ := h
  exact (src_kept hx).trans (src_kept hy)

end Pops

/-! ### How a head of an agent in no gang is shown to complete -/

section Does
variable {i : Instr} {body : Eff Next} {H : State → Prop}

/-- A head completes where its meaning does, for every agent in no gang. -/
theorem does_of_apply {E : State → State} {nx : State → Next} (he : Sys2Proof.Machine.exec i = runHead i body)
    (hb : ∀ u, i.wf = true → members u u.cur = [u.cur] → H u → body u = .ok (nx u) (E u)) : Does i H E nx := by
  intro s hr ha hH hl
  exact completes_alone hr ha (congrFun he s) (hb _ (wf_of_ready hr) (beginHead_alone ha) hH) hl

/-- A head whose meaning ends with a result completes where its destination takes the result. -/
theorem doesTo_of_apply {a : BitVec 6} {lat : Nat} {E : State → State} {x : State → Word} {nx : State → Next}
    (he : Sys2Proof.Machine.exec i = runHead i body)
    (hb : ∀ u, i.wf = true → members u u.cur = [u.cur] → H u → body u = (do dst lat a (x u); pure (nx u)) (E u)) :
    DoesTo i a lat H E x nx := by
  intro w
  refine does_of_apply he fun u hw hm ⟨hH, hd⟩ => ?_
  rw [hb u hw hm hH, Eff.bind_ok hd]
  rfl

end Does

/-! ### Branches and jumps (R168, R169) -/

theorem branch_apply {a b cc} {d : Int} {u w : State} {x y : Word} (hm : members u u.cur = [u.cur]) (hp : pops u a b x y w) :
    branch a b cc d u =
      (if condition cc.toNat x y then jumpTo (w64 (w.me.r.pc.toNat + 2 * d)) else pure seqNext) w := by
  have hl : leader w w.cur = w.cur := leader_alone ((pops_kept hp).members hm)
  obtain ⟨v, hx, hy⟩ := hp
  unfold branch
  rw [Eff.bind_ok hx, Eff.bind_ok hy, Eff.bind_ok (pcOf_apply w), Eff.bind_ok (decides_alone hl), condW_eq]
  rfl

theorem branch_taken {a b cc} {d : Int} {u v w : State} {x y : Word} (hm : members u u.cur = [u.cur]) (hp : pops u a b x y w)
    (hc : condition cc.toNat x y = true) (ht : checkTarget w w.cur (w64 (w.me.r.pc.toNat + 2 * d)) = .ok v) :
    branch a b cc d u = .ok { target := some (w64 (w.me.r.pc.toNat + 2 * d)), delay := 3 } v := by
  rw [branch_apply hm hp, if_pos hc, jumpTo_checked ht]

theorem branch_notTaken {a b cc} {d : Int} {u w : State} {x y : Word} (hm : members u u.cur = [u.cur]) (hp : pops u a b x y w)
    (hc : condition cc.toNat x y = false) : branch a b cc d u = .ok {} w := by
  rw [branch_apply hm hp, if_neg (by rw [hc]; decide)]
  rfl

theorem linkPc_apply (u : State) : linkPc u = .ok (nextPc u (leader u u.cur) u.me.r.pc) u := rfl

theorem jumpLink_apply {a : BitVec 6} {t : Word} {u v : State} (hm : members u u.cur = [u.cur]) (ht : checkTarget u u.cur t = .ok v) :
    jumpLink a t u = (do dst 1 a (nextPc v (leader v v.cur) v.me.r.pc); pure { target := some t, delay := 3 } : Eff Next) v := by
  unfold jumpLink
  rw [Eff.bind_ok (decides_alone (leader_alone hm)), if_pos rfl, Eff.bind_ok (jumpTo_checked ht)]
  exact Eff.bind_ok (linkPc_apply v)

/-- Settles O4: the operands are popped, and the checked target or the next head follows. -/
theorem branchesComplete : Obligations.BranchesComplete := by
  unfold Obligations.BranchesComplete
  refine ⟨fun _ _ _ _ _ _ _ _ => ?_, fun _ _ _ _ _ _ _ => ?_, fun _ _ _ _ _ _ _ _ => ?_, fun _ _ _ _ _ _ _ => ?_,
    fun _ _ _ => ?_, fun _ _ _ _ => ?_⟩
  · exact does_of_apply rfl fun u _ hm ⟨hp, hc, ht⟩ => branch_taken hm hp hc ht
  · exact does_of_apply rfl fun u _ hm ⟨hp, hc⟩ => branch_notTaken hm hp hc
  · exact does_of_apply rfl fun u _ hm ⟨hp, hc, ht⟩ => branch_taken hm hp hc ht
  · exact does_of_apply rfl fun u _ hm ⟨hp, hc⟩ => branch_notTaken hm hp hc
  · exact doesTo_of_apply rfl fun u _ hm ht => (Eff.bind_ok (pcOf_apply u)).trans (jumpLink_apply hm ht)
  · exact doesTo_of_apply rfl fun u _ hm ht => (Eff.bind_ok (gr_apply _ u)).trans
      (by rw [← State.ea_eq]; exact jumpLink_apply hm ht)

end Sys2Proof.Machine

namespace Sys2Proof.Machine

/-! ### Loads (R164, R165) -/

theorem extend_eq_loaded {n : Nat} (hn : 0 < n) (v : Nat) (sx : Bool) : extend v n sx = loaded v n sx := by
  cases sx
  · rfl
  · have h : sextNat v (8 * n) = signedOf n (v % 2 ^ (8 * n)) := by
      rw [signedOf_eq_sextNat hn (Nat.mod_lt _ (Nat.two_pow_pos _))]
      simp only [sextNat, Nat.mod_mod]
    exact congrArg (BitVec.ofInt 64) h

theorem loadTo_of_loadAt {a : BitVec 6} {ea : Word} {sz : BitVec 2} {sx : Bool} {u w : State} {v lat : Nat}
    (h : loadAt u ea (2 ^ sz.toNat) = some (v, lat, w)) :
    loadTo a ea sz sx u = writeNext lat a (loaded v (2 ^ sz.toNat) sx) w := by
  unfold loadAt at h
  split at h
  · cases h
  next l u1 hc =>
    split at h
    · cases h
    next x u2 hr =>
      split at h
      · cases h
      next k u3 hb =>
        cases h
        unfold loadTo sizeBytes
        rw [Eff.bind_ok hc, Eff.bind_ok (Eff.get_apply u1), Eff.bind_ok hr, Eff.bind_ok hb,
          extend_eq_loaded (Nat.two_pow_pos _)]

/-- An ordering instruction that releases nothing is ordered by its check alone (R140, R165). -/
theorem orderAt_acquires {u : State} {sc : BitVec 3} (h : ordered u sc false = true) : orderAt sc false u = .ok () u := by
  have ht : ¬ (u.me.timed && sc != 0) = true := by
    rcases (show u.me.timed = false ∨ sc = 0 by simpa [ordered] using h) with ht | ht <;> simp [ht]
  unfold orderAt
  rw [Eff.bind_ok (Eff.get_apply u), if_neg ht]
  rfl

/-- Settles O7: a readable access loads, and the destination takes the extended value. -/
theorem loadsComplete : Obligations.LoadsComplete := by
  unfold Obligations.LoadsComplete
  refine ⟨fun _ _ _ _ _ _ _ _ _ => ?_, fun _ _ _ _ _ _ _ _ _ _ _ => ?_, fun _ _ _ _ _ _ _ _ _ => ?_⟩
  · exact doesTo_of_apply rfl fun u _ _ h => (Eff.bind_ok (gr_apply _ u)).trans (by rw [← State.ea_eq]; exact loadTo_of_loadAt h)
  · exact doesTo_of_apply rfl fun u _ _ h => (Eff.bind_ok (gr_apply _ u)).trans ((Eff.bind_ok (gr_apply _ u)).trans
      (by rw [← State.eaIx_eq]; exact loadTo_of_loadAt h))
  · exact doesTo_of_apply rfl fun u _ _ ⟨ho, h⟩ => (Eff.bind_ok (orderAt_acquires ho)).trans ((Eff.bind_ok (gr_apply _ u)).trans
      (by rw [← State.ea_eq]; exact loadTo_of_loadAt h))

/-! ### Stores (R164, R165) -/

theorem storeFrom_of_storeAt {a : BitVec 6} {ea : Word} {sz : BitVec 2} {u v w : State} {x : Word} (hx : src a u = .ok x v)
    (h : storeAt v ea (2 ^ sz.toNat) x.toNat = some w) : storeFrom a ea sz u = .ok {} w := by
  unfold storeFrom sizeBytes
  rw [Eff.bind_ok hx]
  exact Eff.bind_ok (storeAt_eq h)

/-- Settles O8: the data is read, and a writable access stores it. -/
theorem storesComplete : Obligations.StoresComplete := by
  unfold Obligations.StoresComplete
  refine ⟨fun _ _ _ _ _ _ _ _ => ?_, fun _ _ _ _ _ _ _ _ _ _ => ?_, fun _ _ _ _ _ _ _ _ => ?_⟩
  · exact does_of_apply rfl fun u _ _ ⟨hx, h⟩ => (Eff.bind_ok (gr_apply _ u)).trans
      (by rw [← State.ea_eq]; exact storeFrom_of_storeAt hx h)
  · exact does_of_apply rfl fun u _ _ ⟨hx, h⟩ => (Eff.bind_ok (gr_apply _ u)).trans ((Eff.bind_ok (gr_apply _ u)).trans
      (by rw [← State.eaIx_eq]; exact storeFrom_of_storeAt hx h))
  · exact does_of_apply rfl fun u _ _ ⟨ho, hx, h⟩ => (Eff.bind_ok (orderAt_releases ho)).trans ((Eff.bind_ok (gr_apply _ _)).trans
      (by rw [released_myReg, ← State.ea_eq]; exact storeFrom_of_storeAt hx h))

end Sys2Proof.Machine

namespace Sys2Proof.Machine

/-! ## Control heads: phases, fences, traps, helpers and waits (O6, O11, O13, O15) -/

/-! ### Fences (R166) -/

theorem landBlock_cores (s : State) (x : Combine) : (landBlock s x).cores = s.cores := by
  unfold landBlock
  exact List.foldlRecOn (motive := fun t : State => t.cores = s.cores) _ _ rfl fun _ h _ _ => h

theorem sendCombined_cores (s : State) : (sendCombined s).cores = s.cores := by
  unfold sendCombined
  refine List.foldlRecOn (motive := fun t : State => t.cores = s.cores) _ _ rfl fun t h e _ => ?_
  exact List.foldlRecOn (motive := fun t : State => t.cores = s.cores) _ _ h fun t h x _ => (landBlock_cores t x).trans h

theorem released_cur (u : State) (sc : BitVec 3) : (u.released sc).cur = u.cur := by
  unfold State.released
  split
  · exact sendCombined_cur u
  · rfl

theorem released_cores (u : State) (sc : BitVec 3) : (u.released sc).cores = u.cores := by
  unfold State.released
  split
  · exact sendCombined_cores u
  · rfl

theorem ordered_of {u : State} {sc : BitVec 3} (ht : u.me.timed = true → sc = 0) (hr : 4 ≤ sc.toNat → u.me.remoteOut = []) :
    ordered u sc true = true := by
  unfold ordered
  by_cases h4 : 4 ≤ sc.toNat
  · cases hu : u.me.timed <;> simp [hr h4, ht, hu]
  · cases hu : u.me.timed <;> simp [ht, hu, Nat.lt_of_not_le h4]

/-- A context that fetches anew: it keeps no line, and its core caches none (R38, R166). -/
def State.refetching (v : State) (q : Nat) : State :=
  let w := v.modProc q fun p => { p with lines := [] }
  if isHart q then w else w.modCore (coreOf q) fun c => { c with l1i := [] }

theorem fence_refetches (sc : BitVec 3) : Does (.fence sc true)
    (fun u => ordered u sc true = true ∧ (isHart u.cur = false → u.myCore.pins = [])) fun u => (u.released sc).refetching u.cur := by
  refine does_of_apply rfl fun u _ _ ⟨ho, hp⟩ => ?_
  rw [Eff.bind_ok (orderAt_releases ho), ← released_cur u sc]
  have hpins : isHart (u.released sc).cur = false → (u.released sc).myCore.pins = [] := by
    rw [released_cur, State.myCore, State.core, released_cores, released_cur]
    exact hp
  generalize u.released sc = w at hpins ⊢
  rw [if_pos rfl, Eff.bind_ok (modMe_apply _ w), Eff.bind_ok (Eff.get_apply _)]
  unfold State.refetching
  rw [State.modProc_cur]
  by_cases hh : isHart w.cur = true
  · rw [if_neg (by rw [hh]; decide), if_pos hh]
    rfl
  · have hf := eq_false_of_ne_true hh
    have hnone : ¬ (!((w.modProc w.cur fun p => { p with lines := [] }).core (coreOf w.cur)).pins.isEmpty) = true := by
      rw [State.modProc_core, show (w.core (coreOf w.cur)).pins = [] from hpins hf]
      decide
    rw [if_pos (by rw [hf]; rfl), if_neg hh, Eff.bind_ok (Eff.modify_apply _ _), if_neg hnone]
    rfl

/-! ### TIDE.WAIT (R177) -/

/-- How many cycles late TIDE.WAIT of the target `t` has been issued. -/
def lateBy (u : State) (t : Word) : Word := if t.toNat ≤ (issueCycle u + 1).toNat then issueCycle u + 1 - t else 0

theorem DoesTo.congr {i : Instr} {a : BitVec 6} {lat : Nat} {H H' : State → Prop} {E : State → State} {x x' : State → Word}
    (h : DoesTo i a lat H E x) (hH : ∀ u, H' u → H u ∧ x u = x' u) : DoesTo i a lat H' E x' := by
  intro w s hr ha ⟨h', hd⟩ hl
  obtain ⟨hu, hx⟩ := hH _ h'
  exact h w s hr ha ⟨hu, hx ▸ hd⟩ hl

/-- TIDE.WAIT completes once its target has come, and tells how late it was; a strict one is not late. -/
theorem tideWait_reached (a b : BitVec 6) (strict : Bool) (imm : BitVec 16) : DoesTo (.tideWait a b strict imm) a 1
    (fun u => (u.ea b imm).toNat ≤ (u.tide + 1).toNat ∧ (strict = true → lateBy u (u.ea b imm) = 0)) id
    fun u => lateBy u (u.ea b imm) := by
  refine doesTo_of_apply rfl fun u _ hm ⟨hn, hs⟩ => ?_
  have hea : u.reg u.cur b.toNat + imm.signExtend 64 = u.ea b imm := (State.ea_eq u b imm).symm
  have hlate : ¬ (strict && lateBy u (u.ea b imm) != 0) = true := by
    cases strict
    · exact Bool.false_ne_true
    · simp [hs rfl]
  rw [Eff.bind_ok (Eff.get_apply u)]
  simp only [hm, List.any_cons, List.any_nil, Bool.or_false, hea]
  exact (congrFun (if_neg hlate) u).trans (congrFun (if_neg fun h => Nat.not_lt.2 hn (of_decide_eq_true h)) u)

theorem issueCycle_now {u : State} (h : ∀ c, u.me.wait ≠ .tide c) : issueCycle u = u.tide := by
  unfold issueCycle
  split
  next c hc => exact absurd hc (h c)
  · rfl

theorem issueCycle_waiting {u : State} {c : Word} (h : u.me.wait = .tide c) : issueCycle u = c := by
  unfold issueCycle
  rw [h]

/-! ### Phases (R175) -/

theorem enterTimed_apply (u : State) : enterTimed u =
    .ok { delay := 4 } ((closeChunks u (coreOf u.cur)).modProc u.cur fun p => { p with timed := true }) := by
  unfold enterTimed
  rw [Eff.bind_ok (Eff.modify_apply _ u), Eff.bind_ok (modMe_apply _ _), closeChunks_cur]
  rfl

/-- Settles O6: each head runs through its meaning, for its agent alone. -/
theorem controlCompletes : Obligations.ControlCompletes := by
  unfold Obligations.ControlCompletes
  refine ⟨?_, ?_, fun sc => ?_, fun sc => ?_, fun a => ?_, fun a b strict imm => ?_, fun a b strict imm c => ?_, ?_, ?_⟩
  · exact does_of_apply rfl fun u _ _ _ => rfl
  · exact does_of_apply rfl fun u _ _ _ => rfl
  · exact does_of_apply rfl fun u _ _ ⟨ht, hr⟩ => Eff.bind_ok (orderAt_releases (ordered_of ht hr))
  · exact fun s hr ha ⟨ht, ho, hp⟩ => fence_refetches sc s hr ha ⟨ordered_of ht ho, hp⟩
  · exact doesTo_of_apply rfl fun u _ _ _ => rfl
  · refine (tideWait_reached a b strict imm).congr fun u ⟨hw, hn, hs⟩ => ?_
    have hlate : lateBy u (u.ea b imm) = u.tide + 1 - u.ea b imm := by rw [lateBy, issueCycle_now hw, if_pos hn]
    exact ⟨⟨hn, fun h => by rw [hlate, hs h]; exact BitVec.sub_self _⟩, hlate⟩
  · refine (tideWait_reached a b strict imm).congr fun u ⟨hw, hc, hn⟩ => ?_
    have hlate : lateBy u (u.ea b imm) = 0 := by rw [lateBy, issueCycle_waiting hw, if_neg (Nat.not_le.2 hc)]
    exact ⟨⟨hn, fun _ => hlate⟩, hlate⟩
  · refine does_of_apply rfl fun u _ hm hq => ?_
    have hall : ((members u u.cur).all fun m => coreQuiet u (coreOf m)) = true := by simp [hm, hq]
    rw [Eff.bind_ok (Eff.get_apply u), if_pos hall, enterTimed_apply]
  · refine does_of_apply rfl fun u _ hm hf => ?_
    have hany : ¬ ((members u u.cur).any fun m => !(u.proc m).flight.isEmpty) = true := by
      simp [hm, show (u.proc u.cur).flight = [] from hf]
    rw [Eff.bind_ok (Eff.get_apply u), if_neg hany]
    rfl

end Sys2Proof.Machine

namespace Sys2Proof.Machine

/-! ## Traps and halts of a head (O11: R150, R183, R443 to R445) -/

/-- A stop that ends the run of a head's members at once: a trap or a halt, no wait. -/
def Stop.ends : Stop → Bool
  | .stall => false
  | .wait _ => false
  | _ => true

/-- What a head that may run answers when its meaning stops with a trap or a halt, for an agent in no gang. -/
theorem exec_stops {i : Instr} {body : Eff Next} {s t : State} {e : Stop} (hr : ready s i = true) (ha : alone s = true)
    (he : Sys2Proof.Machine.exec i = runHead i body) (hb : body (beginHead s i) = .error e t) (hs : e.ends = true) :
    Sys2Proof.Machine.exec i s = .next (settle i [s.cur] body (beginHead s i) (.error e t)) := by
  obtain ⟨h1, h2, h3, h4, _, h6, _⟩ := (ready_iff s i).1 hr
  have hm : members s s.cur = [s.cur] := (alone_iff s).1 ha
  have hf := ready_filter hr true
  rw [if_pos rfl, hm] at hf
  have hrun : runMembers [s.cur] body (beginHead s i) = .error e t := by
    have k : ({ beginHead s i with cur := s.cur } : State) = beginHead s i := State.with_cur (beginHead_cur s i)
    simp only [runMembers, runMembersFrom, k, hb]
    cases e
    case stall | wait => cases hs
    all_goals rfl
  rw [hm] at h4
  rw [he]
  unfold runHead frame
  simp only [h1, h2, h3, h6, hm, hf, h4, hrun, Bool.not_true, Bool.false_eq_true, if_false, if_true]

/-- A head whose meaning raises a trap takes it at its own PC (R150). -/
theorem exec_traps {i : Instr} {body : Eff Next} {s t : State} {c : Nat} {v : Word} (hr : ready s i = true) (ha : alone s = true)
    (he : Sys2Proof.Machine.exec i = runHead i body) (hb : body (beginHead s i) = .error (.trap c v) t) (ht : t.cur = s.cur) :
    Sys2Proof.Machine.exec i s = .next (trapHead (beginHead s i) [(s.cur, c, v)] (beginHead s i).me.r.pc) := by
  rw [exec_stops hr ha he hb rfl, settle, trapMembers, ht]
  rfl

theorem trap_apply (code : BitVec 16) (u : State) :
    ((do throw (.trapAt TRAP_INSN (code.setWidth 64) (← linkPc))) : Eff Next) u =
      .error (.trapAt TRAP_INSN (code.setWidth 64) (nextPc u (leader u u.cur) u.me.r.pc)) u := rfl

theorem debugOn_eq (u : State) : debugOn u = (!isHart u.cur && u.myCluster.tdctl.getLsbD 0) := rfl

/-- The meaning of BREAK (R183, R444). -/
def breakBody (code : BitVec 16) : Eff Next := do
  if debugOn (← get) then throw (.halt 1)
  throw (.trap BREAKPOINT (code.setWidth 64))

theorem breakBody_off {code : BitVec 16} {u : State} (h : debugOn u = false) :
    breakBody code u = .error (.trap BREAKPOINT (code.setWidth 64)) u := by
  unfold breakBody
  rw [Eff.bind_ok (Eff.get_apply u), if_neg (by simp [h])]
  rfl

theorem breakBody_on {code : BitVec 16} {u : State} (h : debugOn u = true) : breakBody code u = .error (.halt 1) u := by
  unfold breakBody
  rw [Eff.bind_ok (Eff.get_apply u), if_pos h]
  rfl

theorem exec_brk (code : BitVec 16) : Sys2Proof.Machine.exec (.brk code) = runHead (.brk code) (breakBody code) := rfl

theorem settle_trapAt (i : Instr) (ms : List Nat) (body : Eff Next) (u t : State) (c : Nat) (v e : Word) :
    settle i ms body u (.error (.trapAt c v e) t) = trapHead u [(u.cur, c, v)] e := rfl

theorem settle_halt (i : Instr) (ms : List Nat) (body : Eff Next) (u t : State) (n : Nat) :
    settle i ms body u (.error (.halt n) t) = haltHead u n := rfl

theorem exec_trap {code : BitVec 16} {s : State} (hr : ready s (.trap code) = true) (ha : alone s = true) :
    Sys2Proof.Machine.exec (.trap code) s =
      .next (trapHead (beginHead s (.trap code)) [(s.cur, TRAP_INSN, code.setWidth 64)]
        (nextPc (beginHead s (.trap code)) (beginHead s (.trap code)).cur (beginHead s (.trap code)).me.r.pc)) := by
  rw [exec_stops hr ha rfl (trap_apply code (beginHead s (.trap code))) rfl, settle_trapAt, beginHead_leader ha,
    beginHead_cur]

theorem exec_brk_halts {code : BitVec 16} {s : State} (hr : ready s (.brk code) = true) (ha : alone s = true)
    (hon : debugOn (beginHead s (.brk code)) = true) :
    Sys2Proof.Machine.exec (.brk code) s =
      .next { (commitChunk (beginHead s (.brk code)) (beginHead s (.brk code)).cur).pushTurn .clusterHalt
        { a := clusterOf (beginHead s (.brk code)).cur, b := 1, c := (beginHead s (.brk code)).cur } with issued := true } := by
  rw [exec_stops hr ha (exec_brk code) (breakBody_on hon) rfl, settle_halt, haltHead, beginHead_leader ha]

/-- Settles O11: TRAP names the next head, BREAK traps at its own PC, or halts its cluster with debug enabled. -/
theorem trapsTaken : Obligations.TrapsTaken := by
  unfold Obligations.TrapsTaken
  refine ⟨fun _ _ hr ha => exec_trap hr ha, fun code s hr ha hd => ?_, fun _ s hr ha => ?_⟩
  · refine exec_traps hr ha (exec_brk code) (breakBody_off ?_) (beginHead_cur s _)
    rw [debugOn_eq]
    rcases hd with hd | hd
    · rw [hd]; rfl
    · rw [hd, Bool.and_false]
  · intro u hh hd
    exact exec_brk_halts hr ha (by rw [debugOn_eq, hh, hd]; rfl)

end Sys2Proof.Machine

namespace Sys2Proof.Machine

/-! ### Helpers (R132, R133, R170 to R172) -/

theorem branchTarget_checked {u v : State} {d : Int} (h : checkTarget u u.cur (w64 (u.me.r.pc.toNat + 2 * d)) = .ok v) :
    jumpTo (branchTarget u.me.r.pc d) u = .ok { target := some (branchTarget u.me.r.pc d), delay := 3 } v := jumpTo_checked h

/-- Settles O13: each helper instruction runs through its meaning, for its agent alone. -/
theorem helpersComplete : Obligations.HelpersComplete := by
  unfold Obligations.HelpersComplete
  refine ⟨fun a b c nw det imm v h x y w => ?_, fun a b c det imm v => ?_, fun a b k v => ?_, ?_, fun r => ?_, ?_⟩
  · refine doesTo_of_apply rfl fun u _ hm ⟨ht, hh, z, hx, hy⟩ => ?_
    rw [Eff.bind_ok (pcOf_apply u), Eff.bind_ok (decides_alone (leader_alone hm)), if_pos rfl,
      Eff.bind_ok (branchTarget_checked ht)]
    beta_reduce
    rw [Eff.bind_ok (Eff.get_apply v), hh]
    exact (Eff.bind_ok hx).trans (Eff.bind_ok hy)
  · refine doesTo_of_apply rfl fun u _ hm ⟨ht, hh⟩ => ?_
    rw [Eff.bind_ok (pcOf_apply u), Eff.bind_ok (decides_alone (leader_alone hm)), if_pos rfl,
      Eff.bind_ok (branchTarget_checked ht)]
    beta_reduce
    rw [Eff.bind_ok (Eff.get_apply v), hh]
    rfl
  · refine doesTo_of_apply rfl fun u _ _ ⟨hk, h1, h2, hs, hd, he⟩ => ?_
    have hok : ¬ (!(decide (1 ≤ k.toNat) && decide (k.toNat ≤ 10)) || (v.proc (v.cur + k.toNat)).starter != v.cur ||
        (v.proc (v.cur + k.toNat)).drain) = true := by simp [h1, h2, hs, hd]
    rw [Eff.bind_ok hk, Eff.bind_ok (Eff.get_apply v), if_neg hok, he]
    rfl
  · refine does_of_apply rfl fun u _ _ hd => ?_
    rw [Eff.bind_ok (Eff.get_apply u), hd, Bool.or_false]
    rfl
  · refine does_of_apply rfl fun u _ _ ⟨hd, hr⟩ => ?_
    rw [Eff.bind_ok (Eff.get_apply u), hd, hr, Bool.or_true]
    rfl
  · exact does_of_apply rfl fun u _ _ _ => rfl

end Sys2Proof.Machine

namespace Sys2Proof.Machine

/-! ### Waits (R178 to R181) -/

/-- WAITMEM takes its comparand and goes on where the word differs already (R179). -/
theorem waitmem_differs {a b : BitVec 6} {sz : BitVec 2} {imm : BitVec 16} {u v w : State} {x : Word} {pa : Nat}
    (hx : src a u = .ok x v) (ht : watchTarget (v.ea b imm) (2 ^ sz.toNat) v = .ok pa w)
    (hn : w.natAt pa (2 ^ sz.toNat) ≠ x.toNat % 2 ^ (8 * 2 ^ sz.toNat)) :
    (do let x ← src a
        let n := sizeBytes sz
        let ea := (← gr b) + imm.signExtend 64
        let pa ← watchTarget ea n
        let s ← get
        if s.natAt pa n ≠ x.toNat % 2 ^ (8 * n) then pure seqNext
        else throw (.wait (.mem (pa / 32) (s.tide + 65536) false)) : Eff Next) u = .ok {} w := by
  rw [Eff.bind_ok hx]
  refine (Eff.bind_ok (gr_apply b v)).trans ?_
  rw [← State.ea_eq]
  refine (Eff.bind_ok ht).trans ((Eff.bind_ok (Eff.get_apply w)).trans ?_)
  exact congrFun (if_pos hn) w

/-- The fields of a destination of SENDMSG: a virtual cluster, a core of it, and zeros above (R180). -/
theorem fld_destination {d : Word} (h : d.toNat < 2 ^ 17) : fld d 17 47 = 0 ∧ fld d 3 14 = d.toNat / 8 ∧ fld d 0 3 = d.toNat % 8 := by
  unfold fld bits
  omega

/-- Settles O15: each wait ends under its condition on the state. -/
theorem waitsComplete : Obligations.WaitsComplete := by
  unfold Obligations.WaitsComplete
  refine ⟨fun a b sz imm x v pa w => ?_, fun a b sz imm l due hit => ?_, ?_, fun a b c tag d v x y w h => ?_, fun a => ?_,
    fun a lv due hlv => ?_⟩
  · refine does_of_apply rfl fun u _ _ ⟨hx, hw, ht, hn⟩ => ?_
    have hk := src_kept hx
    have hu : ∀ l d h, u.me.wait ≠ .mem l d h := fun l d h e => hw l d h (by rw [State.me, hk.cur, hk.wait]; exact e)
    rw [Eff.bind_ok (Eff.get_apply u)]
    generalize u.me.wait = k at hu
    cases k with
    | mem l d h => exact absurd rfl (hu l d h)
    | _ => exact waitmem_differs hx ht hn
  · refine does_of_apply rfl fun u _ _ ⟨hw, hd⟩ => ?_
    rw [Eff.bind_ok (Eff.get_apply u), hw]
    exact congrFun (if_pos (by simpa using hd)) u
  · refine does_of_apply rfl fun u _ _ hj => ?_
    have hne : (!(u.core (coreOf u.cur)).jetty.isEmpty) = true := by simpa [State.myCore] using hj
    rw [Eff.bind_ok (Eff.get_apply u), if_pos hne]
    rfl
  · refine does_of_apply rfl fun u _ _ ⟨hd, ⟨z, hx, hy⟩, hh, hlt, hv, hs, hf⟩ => ?_
    obtain ⟨h0, h1, h2⟩ := fld_destination hlt
    have hfull : ¬ jettyFull w h = true := by simp [jettyFull, hf]
    rw [Eff.bind_ok hd, Eff.bind_ok hx, Eff.bind_ok hy, Eff.bind_ok (Eff.get_apply w), if_pos h0, h1, h2, hv]
    refine (congrFun (if_neg (by simp [hh, hs])) w).trans ((congrFun (if_neg hfull) w).trans ?_)
    rfl
  · refine doesTo_of_apply rfl fun u _ _ ⟨hf, hd, hh⟩ => ?_
    have hq : ¬ (!u.me.flight.isEmpty || u.me.due.any fun e => decide (u.tide.toNat < e.2)) = true := by
      simpa [hf] using hd
    have hh' : ¬ awaitedHelper u u.cur = true := by rw [hh]; decide
    rw [if_pos rfl]
    unfold syncCore
    rw [Eff.bind_ok (Eff.get_apply u), if_neg hq, if_neg hh']
    rfl
  · refine doesTo_of_apply rfl fun u _ _ ⟨hw, hd⟩ => ?_
    rw [if_neg hlv]
    unfold syncWide
    rw [Eff.bind_ok (Eff.get_apply u), hw]
    exact congrFun (if_neg (Nat.not_lt.2 hd)) u

end Sys2Proof.Machine

namespace Sys2Proof.Machine

/-! ## System registers (O12: R134, R135, R182, R222) -/

/-! ### Which numbers are defined (R53) -/

section Defined
variable {s : State} {q n : Nat}

theorem sysReg_own (h : 0x0200 ≤ n) (h' : n < 0x0300) :
    sysReg s q n = if isHart q then hartReg s (hartIx q) (n - 0x0200) else none := by
  unfold sysReg
  split
  case h_8 => exact if_pos ⟨h, h'⟩
  all_goals omega

theorem sysReg_hart (hh : isHart q = true) (h : 0x0300 ≤ n) : sysReg s q n = none := by
  unfold sysReg
  split
  case h_8 => rw [if_neg (by omega), if_pos hh]
  all_goals omega

theorem sysReg_toll (hh : isHart q = false) (h : 0x0300 ≤ n) (h' : n < 0x0400) :
    sysReg s q n = tollReg (s.cluster (clusterOf q)) (n - 0x0300) := by
  unfold sysReg
  split
  case h_8 =>
    rw [if_neg (by omega), if_neg (by rw [hh]; decide)]
    split
    case h_22 => rw [if_neg (by omega), if_neg (by omega), if_neg (by omega), if_pos ⟨h, h'⟩]
    all_goals omega
  all_goals omega

theorem sysReg_window (h : 0x0140 ≤ n) (h' : n < 0x0180) (hs : (sysReg s q n).isSome = true) : n % 8 < 5 := by
  by_contra h5
  unfold sysReg at hs
  split at hs
  case h_8 =>
    rw [if_neg (by omega)] at hs
    split at hs
    · cases hs
    · split at hs
      case h_22 =>
        rw [if_neg (by omega), if_neg (by omega), if_pos ⟨h, h'⟩, if_neg h5] at hs
        cases hs
      all_goals omega
  all_goals omega

theorem sysReg_own_only (hs : (sysReg s q n).isSome = true) (hh : isHart q = true) : n < 0x0300 := by
  by_contra h3
  rw [sysReg_hart hh (by omega)] at hs
  cases hs

end Defined

/-! ### What a write does -/

/-- A run of `e` from `u` completes and leaves `v`. -/
def EndsAt (u v : State) (e : Eff Unit) : Prop := e u = .ok () v

section Writes
variable {u v : State} {n : Nat} {x : Word}

theorem EndsAt.get_bind {k : State → Eff Unit} (h : EndsAt u v (k u)) : EndsAt u v (get >>= k) := h

theorem EndsAt.unless {c : Prop} [Decidable c] {e k : Eff Unit} (hc : ¬ c) (h : EndsAt u v k) :
    EndsAt u v (if c then e else k) := by
  rwa [if_neg hc]

theorem EndsAt.after {e : Eff Unit} {t : State} {k : Unit → Eff Unit} (he : e u = .ok () t) (h : EndsAt t v (k ())) :
    EndsAt u v (e >>= k) :=
  (Eff.bind_ok he).trans h

theorem controlOnly_free (h : freeControl u = true) : controlOnly u = .ok () u := by
  have hn : ¬ (isHart u.cur || slotOf u.cur != 0 || u.me.timed) = true := by
    simp only [freeControl, Bool.and_eq_true, Bool.not_eq_true', beq_iff_eq] at h
    simp [h]
  unfold controlOnly
  rw [Eff.bind_ok (Eff.get_apply u), if_neg hn]
  rfl

theorem srwEffect_toll (h : 0x0300 ≤ n) : srwEffect u n x =
    if n = 0x0300 then u.modCluster (clusterOf u.cur) fun c => { c with tdctl := x &&& 0xFFF }
    else if n = 0x0306 then u.modCluster (clusterOf u.cur) fun c => { c with tbpc := x &&& 0x7777 }
    else if 0x0302 ≤ n ∧ n < 0x0306 then
      u.modCluster (clusterOf u.cur) fun c => { c with tbp := c.tbp.setIfInBounds (n - 0x0302) x }
    else u := by
  unfold srwEffect
  simp (disch := omega) only [if_neg]

theorem srwEffect_window (h : 0x0148 ≤ n) (h' : n < 0x0180) (h5 : n % 8 < 5) : srwEffect u n x =
    u.modCore (coreOf u.cur) fun c => { c with win := c.win.put (n - 0x0140) (masked x (windowMask (n % 8))) } := by
  unfold srwEffect
  simp (disch := omega) only [if_neg, if_pos]
  generalize n % 8 = k at h5
  interval_cases k <;> rfl

theorem srwEffect_qxmap (h : 0x0018 ≤ n ∧ n < 0x0020) : srwEffect u n x =
    u.modCore (coreOf u.cur) fun c => { c with qxmap := c.qxmap.setIfInBounds (n - 0x0018) (masked x 0x3FFFFFFFF) } := by
  unfold srwEffect
  simp (disch := omega) only [if_neg, if_pos]
  rfl

theorem srwEffect_hbin (h : 0x0110 ≤ n ∧ n < 0x0130) : srwEffect u n x =
    u.modCore (coreOf u.cur) fun c => c.setHbin (n - 0x0110) x := by
  have hhi : fld x 32 32 = x.toNat / 2 ^ 32 := by
    unfold fld bits
    omega
  unfold srwEffect Core.setHbin
  simp (disch := omega) only [if_neg, if_pos, fld_low, hhi]

theorem srwEffect_w0 (h : 0x0140 ≤ n) (h' : n < 0x0148) : srwEffect u n x = u := by
  unfold srwEffect
  simp (disch := omega) only [if_neg]

theorem srwLegal_free (hl : srwLegal u n x = true) (h : 0x0018 ≤ n ∧ n < 0x0020 ∨ 0x0300 ≤ n ∧ n < 0x0400) :
    freeControl u = true := by
  unfold srwLegal at hl
  simpa (disch := omega) only [if_neg, if_pos] using hl

theorem srwLegal_window (hl : srwLegal u n x = true) (h : 0x0148 ≤ n) (h' : n < 0x0180) :
    (n % 8 = 0 → ¬ (x.toNat % 8 = 6 ∨ x.toNat / 8 % 4 = 3)) ∧ (n = 0x016A ∨ n = 0x0172 → x.getLsbD 0 = false) := by
  unfold srwLegal at hl
  simp (disch := omega) only [if_neg, if_pos] at hl
  split at hl
  next h0 =>
    simp only [Bool.and_eq_true, decide_eq_true_eq] at hl
    exact ⟨fun _ => by omega, fun _ => by omega⟩
  next h0 =>
    refine ⟨fun h => absurd h h0, fun h2 => ?_⟩
    rwa [if_pos h2, Bool.not_eq_true'] at hl

theorem writeToll_endsAt (hc : freeControl u = true) (h : 0x0300 ≤ n) (h' : n < 0x0307) :
    EndsAt u (srwEffect u n x) (writeToll (n - 0x0300) x) := by
  refine .after (controlOnly_free hc) ?_
  rw [srwEffect_toll h]
  interval_cases n <;> rfl

theorem writeWindow_endsAt (hl : srwLegal u n x = true) (h : 0x0140 ≤ n) (h' : n < 0x0180) (h5 : n % 8 < 5) :
    EndsAt u (srwEffect u n x) (writeWindow ((n - 0x0140) / 8) (n % 8) x) := by
  unfold writeWindow
  split
  next hw =>
    obtain ⟨h0, h2⟩ := srwLegal_window hl (by omega) h'
    refine .unless (fun ⟨hk, hf⟩ => h0 hk (by simpa [fld, bits] using hf)) (.unless (fun ⟨hk, hf, hx⟩ => ?_) ?_)
    · rw [h2 (by omega)] at hx
      cases hx
    · rw [srwEffect_window (by omega) h' h5, show 8 * ((n - 0x0140) / 8) + n % 8 = n - 0x0140 by omega]
      rfl
  next hw =>
    rw [srwEffect_w0 h (by omega)]
    rfl

/-- A write that is legal does what its register says (R182). -/
theorem sysWrite_endsAt (hs : (sysReg u u.cur n).isSome = true) (hl : srwLegal u n x = true)
    (hh : isHart u.cur = true → n < 0x0200) : EndsAt u (srwEffect u n x) (sysWrite n x) := by
  have hctx : 0x0200 ≤ n → isHart u.cur = false := fun h => by
    by_contra hc
    exact absurd (hh (eq_true_of_ne_false hc)) (by omega)
  unfold sysWrite
  refine .get_bind ?_
  dsimp only
  split
  case h_1 => exact .unless (by simpa [srwLegal, fld, bits] using hl) rfl
  case h_6 => exact .unless (by simpa [srwLegal, fld, bits] using hl) rfl
  case h_8 =>
    change EndsAt u (if freeControl u = true then _ else u) _
    unfold freeControl
    split <;> rfl
  case h_10 => cases hl
  case h_16 => exact .unless (by simpa [srwLegal] using hl) rfl
  case h_17 =>
    obtain ⟨hc, hx⟩ : freeControl u = true ∧ 8512 ≤ x.toNat % 2 ^ 24 := by simpa [srwLegal] using hl
    refine .after (controlOnly_free hc) (.unless (by simpa [fld, bits] using hx) ?_)
    simp only [fld_low]
    rfl
  case h_18 =>
    split
    next h =>
      refine .after (controlOnly_free (srwLegal_free hl (.inl h))) ?_
      rw [srwEffect_qxmap h]
      rfl
    split
    next h =>
      rw [srwEffect_hbin h]
      rfl
    split
    next h => exact writeWindow_endsAt hl h.1 h.2 (sysReg_window h.1 h.2 hs)
    split
    next h =>
      rw [sysReg_own h.1 h.2, hctx h.1] at hs
      cases hs
    split
    next h =>
      refine writeToll_endsAt (srwLegal_free hl (.inr h)) h.1 ?_
      rw [sysReg_toll (hctx (by omega)) h.1 h.2] at hs
      by_contra h7
      unfold tollReg at hs
      split at hs
      case h_8 => cases hs
      all_goals omega
    · rw [srwEffect]
      simp (disch := omega) only [if_neg]
      rfl
  all_goals rfl

/-- A hart's own register takes its write (R283, R439). -/
theorem sysWrite_hart (h : 0x0200 ≤ n) (h' : n < 0x0300) :
    EndsAt u (hartWrite u n x) (sysWrite n x) := by
  unfold sysWrite
  refine .get_bind ?_
  dsimp only
  split
  case h_18 =>
    rw [if_neg (by omega), if_neg (by omega), if_neg (by omega), if_pos ⟨h, h'⟩]
    unfold writeHartReg hartWrite
    have hk : n - 0x0200 = 0 ↔ n = 0x0200 := by omega
    simp only [hk]
    split
    · refine .after (Eff.modify_apply _ u) (.get_bind ?_)
      rw [show fld x 0 4 = x.toNat % 16 from fld_low x 4]
      generalize u.modEngine (hartIx u.cur) _ = w
      cases mySlot w <;> rfl
    · split <;> rfl
  all_goals omega

end Writes

theorem srw_apply {a : BitVec 6} {n : BitVec 16} {u v : State} (hs : (sysReg u u.cur n.toNat).isSome = true)
    (hw : EndsAt u v (sysWrite n.toNat (u.myReg a))) :
    (do let x ← gr a
        let s ← get
        if (sysReg s s.cur n.toNat).isNone then illegalOperand
        sysWrite n.toNat x
        pure seqNext : Eff Next) u = .ok {} v := by
  rw [Eff.bind_ok (gr_apply a u), Eff.bind_ok (Eff.get_apply u), if_neg (by rw [Option.isNone_eq_false_iff.2 hs]; decide)]
  exact Eff.bind_ok hw

theorem toNat_eq_hstat (n : BitVec 16) : n.toNat = 0x0103 ↔ n = 0x0103 := BitVec.toNat_inj (y := 0x0103#16)

theorem leaveChunk_apply {u : State} (hm : members u u.cur = [u.cur]) : leaveChunk u = .ok () (endChunk u u.cur) := by
  unfold leaveChunk
  rw [Eff.modify_apply, leader_alone hm]

/-- Settles O12: a read comes after the counts of the open chunk, a write does what its register says. -/
theorem systemRegistersComplete : Obligations.SystemRegistersComplete := by
  unfold Obligations.SystemRegistersComplete
  refine ⟨fun a n v x => ?_, fun a n => ?_, fun a n => ?_, fun a w ps => ?_⟩
  · refine doesTo_of_apply rfl fun u _ hm ⟨hv, hx⟩ => ?_
    rw [Eff.bind_ok (Eff.get_apply u)]
    by_cases hc : holdsCounts u = true ∧ (n = 0x0103 ∨ 0x0110 ≤ n.toNat ∧ n.toNat < 0x0130)
    · rw [if_pos hc] at hv
      rw [if_pos (by simpa [toNat_eq_hstat] using hc), Eff.bind_ok (leaveChunk_apply hm), ← hv]
      beta_reduce
      rw [Eff.bind_ok (Eff.get_apply v), hx]
      rfl
    · rw [if_neg hc] at hv
      subst hv
      rw [if_neg (by simpa [toNat_eq_hstat] using hc)]
      beta_reduce
      rw [Eff.bind_ok (Eff.get_apply v), hx]
      rfl
  · exact does_of_apply rfl fun u _ _ ⟨hs, hl, hh⟩ => srw_apply hs (sysWrite_endsAt hs hl hh)
  · exact does_of_apply rfl fun u _ _ ⟨hs, hh, h⟩ => srw_apply hs (sysWrite_hart h (sysReg_own_only hs hh))
  · refine does_of_apply rfl fun u _ _ ⟨hc, hp⟩ => srw_apply ?_ (.get_bind (.after (controlOnly_free hc) (pinTo_fetched hp)))
    have hctx : isHart u.cur = false := by
      simp only [freeControl, Bool.and_eq_true, Bool.not_eq_true'] at hc
      exact hc.1.1
    change (if isHart u.cur = true then none else some (u.core (coreOf u.cur)).tpin).isSome = true
    rw [hctx]
    rfl

end Sys2Proof.Machine

namespace Sys2Proof.Machine

/-! ## The steps of a port access (O39: R144 to R149, R270) -/

/-! ### A port step by itself -/

section Steps
variable {s t : State}

theorem partOf_ok {e : Eff Unit} (hh : isHart s.cur = false) (h : e s = .ok () t) : partOf e s = .next t := by
  unfold partOf runPart
  rw [if_neg (by rw [hh]; decide), h]

theorem popInto_ok {e : Eff Word} {x : Word} (h : e s = .ok x t) : popInto e s = .ok () (t.taken x) := by
  unfold popInto State.taken
  rw [Eff.bind_ok h, Eff.bind_ok (Eff.get_apply t)]
  split <;> rfl

/-- A pop of an agent that has ports: its register takes the item. -/
theorem partOf_popInto {e : Eff Word} {x : Word} (hh : isHart s.cur = false) (h : e s = .ok x t) :
    partOf (popInto e) s = .next (t.taken x) := partOf_ok hh (popInto_ok h)

/-! ### What the register of a pop takes -/

theorem State.land_cores (k : Nat) (x : Word) : (t.land 1 (.g k x)).cores = t.cores := by
  unfold State.land
  split <;> rfl

theorem State.land_clusters (k : Nat) (x : Word) : (t.land 1 (.g k x)).clusters = t.clusters := by
  unfold State.land
  split <;> rfl

theorem taken_core (x : Word) (g : Nat) : (t.taken x).core g = t.core g := by
  unfold State.taken
  split
  · rfl
  · exact congrArg (fun m => FMap.get m g {}) (State.land_cores ..)

theorem taken_cluster (x : Word) (g : Nat) : (t.taken x).cluster g = t.cluster g := by
  unfold State.taken
  split
  · rfl
  · exact congrArg (fun m => FMap.get m g {}) (State.land_clusters ..)

theorem taken_reg {x : Word} (hf : t.me.timed = false) (h0 : 0 < t.inp.b) (hk : t.inp.b < 48) :
    (t.taken x).reg t.cur t.inp.b = x := by
  unfold State.taken
  rw [if_neg (Nat.ne_of_gt h0), State.land, if_neg (by rw [hf]; decide)]
  change ((t.modProc t.cur fun p => p.withR fun r => r.writeG t.inp.b x).proc t.cur).r.readG t.inp.b = x
  rw [State.proc_modProc]
  exact Regs.readG_writeG_same _ (Nat.ne_of_gt h0) hk x

/-! ### Queues -/

theorem Queue.front_ready {k : Queue} {x due now : Word} {rest : List (Word × Word)} (h : k.items = (x, due) :: rest)
    (hd : due.toNat ≤ now.toNat) : k.front now = some x := by
  unfold Queue.front
  rw [h]
  exact if_pos hd

theorem Queue.pop_eq_less {k : Queue} {x due now : Word} {rest : List (Word × Word)} (h : k.items = (x, due) :: rest) :
    k.pop now = k.less rest now := by
  unfold Queue.pop Queue.less
  rw [h]
  rfl

/-- The cell of a core that holds queue `d` of its mesh and broadcast ports, without its oldest item. -/
theorem setMesh_pop {g d : Nat} {x due : Word} {rest : List (Word × Word)} (hq : (meshQueue s g d).items = (x, due) :: rest) :
    setMesh s g d ((meshQueue s g d).pop s.tide) =
      s.modCore g fun c => { c with mesh := c.mesh.put d ((c.mesh.get d {}).less rest s.tide) } := by
  rw [Queue.pop_eq_less hq]
  rfl

theorem popMesh_ok {d h : Nat} {x due : Word} {rest : List (Word × Word)} (hn : neighbour (coreOf s.cur) d = some h)
    (hl : sameLaunch s (coreOf s.cur) h = true) (hq : (meshQueue s (coreOf s.cur) d).items = (x, due) :: rest)
    (hd : due.toNat ≤ s.tide.toNat) : popMesh d s = .ok x (s.modCore (coreOf s.cur) fun c =>
      { c with mesh := c.mesh.put d ((c.mesh.get d {}).less rest s.tide) }) := by
  have hl' : ¬ (!sameLaunch s (coreOf s.cur) h) = true := by rw [hl]; decide
  rw [← setMesh_pop hq]
  unfold popMesh
  rw [Eff.bind_ok (Eff.get_apply s)]
  simp only [hn, if_neg hl', Queue.front_ready hq hd]
  rfl

theorem popQc_ok {x due : Word} {rest : List (Word × Word)} (hq : (meshQueue s (coreOf s.cur) 4).items = (x, due) :: rest)
    (hd : due.toNat ≤ s.tide.toNat) : popQc s = .ok x (s.modCore (coreOf s.cur) fun c =>
      { c with mesh := c.mesh.put 4 ((c.mesh.get 4 {}).less rest s.tide) }) := by
  rw [← setMesh_pop hq]
  unfold popQc
  rw [Eff.bind_ok (Eff.get_apply s)]
  simp only [Queue.front_ready hq hd]
  rfl

theorem popQx_ok {n : Nat} {x due : Word} {rest : List (Word × Word)} (hq : (qxQueue s (coreOf s.cur) n).items = (x, due) :: rest)
    (hd : due.toNat ≤ s.tide.toNat) : popQx n s = .ok x (s.modCore (coreOf s.cur) fun c =>
      { c with qx := c.qx.put n ((c.qx.get n {}).less rest s.tide) }) := by
  have h : popQx n s = .ok x (setQx s (coreOf s.cur) n ((qxQueue s (coreOf s.cur) n).pop s.tide)) := by
    unfold popQx
    rw [Eff.bind_ok (Eff.get_apply s)]
    simp only [Queue.front_ready hq hd]
    rfl
  rw [h, Queue.pop_eq_less hq]
  rfl

theorem pushMesh_ok {d h : Nat} {x : Word} (hn : neighbour (coreOf s.cur) d = some h)
    (hl : sameLaunch s (coreOf s.cur) h = true) (ho : (meshQueue s h ((d + 2) % 4)).outstanding s.tide.toNat 3 < 8) :
    pushMesh d x s = .ok () (setMesh s h ((d + 2) % 4) ((meshQueue s h ((d + 2) % 4)).push x (s.tide + 3))) := by
  have hl' : ¬ (!sameLaunch s (coreOf s.cur) h) = true := by rw [hl]; decide
  unfold pushMesh
  rw [Eff.bind_ok (Eff.get_apply s)]
  simp only [hn, if_neg hl', if_pos ho]
  rfl

theorem popJet_ok {m : BitVec 128} {rest : List (BitVec 128)} (hj : s.myCore.jetty = m :: rest) : popJet s =
    .ok (m.extractLsb' 0 64) ((s.modCore (coreOf s.cur) fun c => { c with jetty := rest }).modProc s.cur fun p =>
      { p with jhi := m.extractLsb' 64 64 }) := by
  unfold popJet
  rw [Eff.bind_ok (Eff.get_apply s)]
  simp only [show (s.core (coreOf s.cur)).jetty = m :: rest from hj]
  rfl

theorem popProw_ok {r : _} (hd : s.me.drain = true) (hr : s.me.row = some r) (h : r.reads < 16) : popProw s =
    .ok (r.values.getD (2 * r.reads + 1) 0 ++ r.values.getD (2 * r.reads) 0)
      (s.modProc s.cur fun p => { p with row := some { r with reads := r.reads + 1 } }) := by
  unfold popProw
  rw [Eff.bind_ok (Eff.get_apply s)]
  simp only [hd, hr, if_neg (Nat.not_le.2 h)]
  rfl

theorem popXq_ok {x : Word} {k : Nat} {rest : List (Word × Nat)} (hq : s.myCore.xq = (x, k) :: rest) : popXq s =
    .ok x (freeSlot (s.modCore (coreOf s.cur) fun c => { c with xq := rest }) (coreOf s.cur / 8) k) := by
  unfold popXq
  rw [Eff.bind_ok (Eff.get_apply s)]
  simp only [show (s.core (coreOf s.cur)).xq = (x, k) :: rest from hq]
  rfl

theorem pushXq_ok {x : Word} {k tag : Nat} {w : State} (ho : offer x s = .ok (.accepted k tag) w) : pushXq x s = .ok () w := by
  unfold pushXq
  rw [Eff.bind_ok (Eff.get_apply s), Eff.bind_ok ho, Eff.bind_ok (Eff.get_apply w)]
  rfl

end Steps

/-! ### What the steps leave -/

theorem passSlot_xslots (c : Cluster) (k : Nat) (t : Word) : (passSlot c k t).xslots = c.xslots := by
  unfold passSlot
  split <;> rfl

theorem FMap.find_del {α : Type} (m : FMap α) (k : Nat) : FMap.find (FMap.del m k) k = none :=
  FMap.find_none fun e he => by simpa using (List.mem_filter.1 he).2

theorem freeSlot_xslots (s : State) (gc k : Nat) : ((freeSlot s gc k).cluster gc).xslots.find k = none := by
  unfold freeSlot
  rw [State.modCluster_same]
  exact (congrArg (FMap.find · k) (passSlot_xslots _ _ _)).trans (FMap.find_del _ _)

theorem freeSlot_core (s : State) (gc k g : Nat) : (freeSlot s gc k).core g = s.core g := rfl

theorem mem_coresOf (gc h : Nat) : h ∈ coresOf gc ↔ h / 8 = gc := by
  unfold coresOf upTo
  simp only [List.mem_map, List.mem_range]
  constructor
  · rintro ⟨c, hc, rfl⟩
    omega
  · exact fun e => ⟨h % 8, by omega, by omega⟩

theorem coresOf_nodup (gc : Nat) : (coresOf gc).Nodup :=
  List.nodup_range.map fun _ _ h => Nat.add_left_cancel h

theorem foldl_modCore_core (f : Core → Core) (h : Nat) : ∀ (l : List Nat) (s : State), l.Nodup →
    (l.foldl (fun t g => t.modCore g f) s).core h = if h ∈ l then f (s.core h) else s.core h
  | [], s, _ => by simp
  | g :: l, s, hn => by
    obtain ⟨hg, hl⟩ := List.nodup_cons.1 hn
    rw [List.foldl_cons, foldl_modCore_core f h l _ hl, State.core_modCore]
    by_cases e : h = g
    · subst e
      simp [hg]
    · simp [e]

/-- A cluster's broadcast of `x`, accepted in this cycle (R145). -/
def qcSent (s : State) (x : Word) : State :=
  ((coresOf (clusterOf s.cur)).foldl
    (fun t h => t.modCore h fun c => { c with mesh := c.mesh.put 4 ((c.mesh.get 4 {}).push x (s.tide + 4)) }) s).modCluster
      (clusterOf s.cur) fun c => { c with qcLast := some s.tide }

theorem qcNext_now {s : State} {gc : Nat} (h : ∀ x, (s.cluster gc).qcLast = some x → x.toNat < s.tide.toNat) :
    qcNext s gc = s.tide := by
  unfold qcNext
  split
  next x hx => exact if_neg (Nat.not_le.2 (h x hx))
  · rfl

theorem qcSent_core (s : State) (x : Word) (h : Nat) : (qcSent s x).core h =
    if h / 8 = clusterOf s.cur then { s.core h with mesh := (s.core h).mesh.put 4 ((meshQueue s h 4).push x (s.tide + 4)) }
    else s.core h := by
  unfold qcSent
  rw [State.modCluster_core, foldl_modCore_core _ _ _ _ (coresOf_nodup _)]
  simp only [mem_coresOf]
  rfl

theorem qcSent_cur (s : State) (x : Word) : (qcSent s x).cur = s.cur := by
  unfold qcSent
  exact List.foldlRecOn (motive := fun t : State => t.cur = s.cur) _ _ rfl fun _ h _ _ => h

theorem pushQc_ok {s : State} {x : Word} (hl : ∀ x, s.myCluster.qcLast = some x → x.toNat < s.tide.toNat)
    (hw : s.me.timed = true ∨ ∀ m ∈ members s s.cur, m ≠ s.cur → clusterOf m = clusterOf s.cur → (s.proc m).wait = .pushed)
    (ho : ∀ h, h / 8 = clusterOf s.cur → (meshQueue s h 4).outstanding s.tide.toNat 4 < 8) :
    pushQc false x s = .ok () (qcSent s x) := by
  have hspace : ((coresOf (clusterOf s.cur)).all fun h => decide ((meshQueue s h 4).outstanding s.tide.toNat 4 < 8)) = true :=
    List.all_eq_true.2 fun h hm => decide_eq_true (ho h ((mem_coresOf _ h).1 hm))
  have hdone : ¬ (!false && !s.me.timed && (members s s.cur).any fun m =>
      m != s.cur && clusterOf m == clusterOf s.cur && (s.proc m).wait != .pushed) = true := by
    rcases hw with hw | hw
    · simp [hw]
    · simp only [Bool.not_false, Bool.true_and, Bool.and_eq_true, List.any_eq_true, bne_iff_ne, beq_iff_eq, not_and]
      rintro - ⟨m, hm, ⟨hne, hc⟩, hp⟩
      exact hp (hw m hm hne hc)
  unfold pushQc
  rw [Eff.bind_ok (Eff.get_apply s)]
  simp only [hspace, qcNext_now hl, beq_self_eq_true, Bool.true_or, Bool.and_true]
  rw [if_pos trivial, Eff.bind_ok (Eff.modify_apply _ s), if_neg (by simp), if_neg hdone]
  rfl

theorem arriveQx_qxQueue (s : State) (g n q node : Nat) (x : Word) :
    qxQueue (arriveQx s g n q node x) g n = (qxQueue s g n).push x s.tide := by
  unfold arriveQx
  rw [traceArrival_qxQueue, setQx_qxQueue]

theorem pushQx_ok {s : State} {n h : Nat} {x : Word} (ht : s.me.timed = false)
    (hm : (s.myCore.qxmap[n]?.getD 0).getLsbD 0 = true) (hm' : (s.myCore.qxmap[n]?.getD 0).getLsbD 21 = false)
    (hv : vcore s s.me.vf (fld (s.myCore.qxmap[n]?.getD 0) 7 14) (fld (s.myCore.qxmap[n]?.getD 0) 4 3) = some h)
    (hl : sameLaunch s (coreOf s.cur) h = true) (hq : (qxQueue s h (fld (s.myCore.qxmap[n]?.getD 0) 1 3)).items.length < 8) :
    pushQx false n x s = .ok () (arriveQx s h (fld (s.myCore.qxmap[n]?.getD 0) 1 3)
      (if h = coreOf s.cur then s.cur else leader s s.cur) 0 x) := by
  have hl' : ¬ (!sameLaunch s (coreOf s.cur) h) = true := by rw [hl]; decide
  have hm0 : ¬ (!(s.myCore.qxmap[n]?.getD 0).getLsbD 0) = true := by rw [hm]; decide
  have hm1 : ¬ (s.myCore.qxmap[n]?.getD 0).getLsbD 21 = true := by rw [hm']; decide
  unfold State.myCore at *
  unfold pushQx
  rw [Eff.bind_ok (Eff.get_apply s), if_neg (by rw [ht]; decide)]
  simp only [if_neg hm0, if_neg hm1, hv, if_neg hl', if_neg (Nat.not_le.2 hq)]
  rfl

/-- Settles O39: each step is its port access, done by itself. -/
theorem portStepsComplete : Obligations.PortStepsComplete := by
  unfold Obligations.PortStepsComplete
  refine ⟨fun h => ?_, fun h x due rest => ?_, ?_, fun x due rest => ?_, fun m rest => ?_, fun r => ?_, fun k tag w => ?_,
    fun x k rest => ?_, fun h => ?_, fun x due rest => ?_⟩
  · exact fun s ⟨hh, hn, hl, ho⟩ => partOf_ok hh (pushMesh_ok hn hl ho)
  · exact fun s ⟨hh, hn, hl, hq, hd⟩ => partOf_popInto hh (popMesh_ok hn hl hq hd)
  · refine fun s ⟨hh, hl, hw, ho⟩ => ⟨_, partOf_ok hh (pushQc_ok hl hw ho), ?_, fun h he => ?_, fun h he => ?_⟩
    · unfold State.myCluster
      rw [qcSent_cur]
      exact congrArg Cluster.qcLast (State.modCluster_same ..)
    · rw [meshQueue, qcSent_core, if_pos he]
      exact FMap.get_put_same _ _ _ _
    · rw [qcSent_core, if_neg he]
  · exact fun s ⟨hh, hq, hd⟩ => partOf_popInto hh (popQc_ok hq hd)
  · exact fun s ⟨hh, hj⟩ => partOf_popInto hh (popJet_ok hj)
  · exact fun s ⟨hh, hd, hr, h⟩ => partOf_popInto hh (popProw_ok hd hr h)
  · exact fun s ⟨hh, ho⟩ => partOf_ok hh (pushXq_ok ho)
  · refine fun s ⟨hh, hq⟩ => ⟨_, partOf_popInto hh (popXq_ok hq), ?_, ?_, fun ht h0 hk => taken_reg ht h0 hk⟩
    · rw [taken_core, freeSlot_core, State.modCore_same]
    · rw [taken_cluster]
      exact freeSlot_xslots _ _ _
  · refine fun s ⟨hh, ht, hm, hm', hv, hl, hq⟩ => ⟨_, partOf_ok hh (pushQx_ok ht hm hm' hv hl hq), ?_⟩
    exact arriveQx_qxQueue ..
  · exact fun s ⟨hh, hq, hd⟩ => partOf_popInto hh (popQx_ok hq hd)

end Sys2Proof.Machine

namespace Sys2Proof.Machine

/-! ## Packets, remote accesses and routes (O49: R420, R422 to R425, R432) -/

/-! ### A packet that arrives -/

/-- The packet that the step's data give (R422). -/
def packetIn (s : State) : Packet :=
  let xs := s.inp.ints.map Int.toNat
  { dest := s.inp.b, src := s.inp.c, requester := xs.getD 1 0, addr := s.inp.w.toNat, hops := xs.getD 2 0
    va := BitVec.ofNat 64 (xs.getD 3 0), agent := xs.getD 4 0, since := BitVec.ofNat 64 (xs.getD 5 0)
    vf := xs.getD 6 0, kind := kindOf (xs.getD 0 0) (xs.drop 7) s.inp.bytes }

section Packets
variable {s t : State}

theorem portTakes_iff (s : State) (p : Nat) : portTakes s p = true ↔ p < 48 ∧ ((s.port p).st = 2 ∨ (s.port p).st = 3) := by
  unfold portTakes
  rw [Bool.and_eq_true, Bool.or_eq_true, decide_eq_true_iff, beq_iff_eq, beq_iff_eq]
  rfl

theorem execPacketForward_forwards {c : Nat} {xs : List Int} (ht : portTakes s s.inp.a = true) (hi : s.inp.ints = Int.ofNat c :: xs)
    (hc : c < 8) (hf : forward s (packetIn s) = some t) : execPacketForward s = .next t := by
  have h0 : (s.inp.ints.map Int.toNat).getD 0 0 = c := by rw [hi]; rfl
  unfold execPacketForward
  rw [if_pos ht]
  change (if (s.inp.ints.map Int.toNat).getD 0 0 = 8 then _ else if (s.inp.ints.map Int.toNat).getD 0 0 = 9 then _ else
    match forward s (packetIn s) with
    | some t => .next t
    | none => .next s : Out) = _
  rw [h0, if_neg (by omega), if_neg (by omega), hf]

theorem forward_own {p : Packet} (hh : heldFor s p.dest = false) (hp : p.hops < 16) (hr : routeOf (activeBank s) p.dest = some 63) :
    forward s p = deliver s p := by
  unfold forward
  rw [if_neg (by rw [hh]; decide), if_neg (Nat.not_le.2 hp), hr]
  rfl

theorem route_sends {p : Packet} {port : Nat} (hh : heldFor s p.dest = false) (hr : routeOf (activeBank s) p.dest = some port)
    (hne : port ≠ 63) (hs : (s.port port).st = 2) : route s p = sendPacket s port { p with hops := p.hops + 1 } := by
  unfold route
  rw [if_neg (by rw [hh]; decide), hr]
  split
  next h => cases h
  next h => exact absurd (Option.some.inj h) hne
  next h =>
    cases h
    exact if_pos (beq_iff_eq.2 hs)

theorem load_answered {q n va g since vf p : Nat} (hne : p ≠ 63)
    (hi : s.inp.ints = [0, Int.ofNat q, 0, Int.ofNat va, Int.ofNat g, Int.ofNat since, Int.ofNat vf, Int.ofNat n])
    (ht : portTakes s s.inp.a = true) (hh : heldFor s s.inp.b = false) (hr : routeOf (activeBank s) s.inp.b = some 63)
    (ho : isOwnMem s s.inp.w.toNat = true) (hh' : heldFor s s.inp.c = false) (hr' : routeOf (activeBank s) s.inp.c = some p)
    (hp : (s.port p).st = 2) : execPacketForward s = .next (sendPacket s p
      { dest := s.inp.c, src := s.fab.node, requester := q, addr := s.inp.w.toNat, va := wNat va, hops := 1, agent := g
        since := wNat since, vf := vf, kind := .answer (s.natAt s.inp.w.toNat n) }) := by
  have hin : packetIn s = { dest := s.inp.b, src := s.inp.c, requester := q, addr := s.inp.w.toNat, va := wNat va, hops := 0
                            agent := g, since := wNat since, vf := vf, kind := .load n } := by
    unfold packetIn
    rw [hi]
    rfl
  refine execPacketForward_forwards (c := 0) ht hi (by decide) ?_
  rw [hin, forward_own hh (show 0 < 16 by decide) hr]
  unfold deliver serveMem
  simp only [ho, Bool.not_true, Bool.false_eq_true, if_false]
  exact congrArg some (route_sends hh' hr' hne hp)

theorem store_acknowledged {q va g : Nat} {xs : List Int}
    (hi : s.inp.ints = Int.ofNat 5 :: Int.ofNat q :: 0 :: Int.ofNat va :: Int.ofNat g :: xs)
    (ht : portTakes s s.inp.a = true) (hh : heldFor s s.inp.b = false) (hr : routeOf (activeBank s) s.inp.b = some 63) :
    execPacketForward s = .next (ackStore s g (wNat va)) := by
  refine execPacketForward_forwards ht hi (by omega) ?_
  have hhops : (packetIn s).hops = 0 := by rw [packetIn, hi]; rfl
  have hkind : (packetIn s).kind = .ack := by rw [packetIn, hi]; rfl
  have hva : (packetIn s).va = wNat va := by rw [packetIn, hi]; rfl
  have hg : (packetIn s).agent = g := by rw [packetIn, hi]; rfl
  rw [forward_own hh (by rw [hhops]; decide) hr, deliver, hkind]
  simp only [deliverReply, hkind, hva, hg]

end Packets

theorem markLost_head {e : RemoteStore} {va : Word} (es : List RemoteStore) (ha : e.va = va) (hl : e.lost = false) :
    markLost va (e :: es) = { e with lost := true } :: es := by
  unfold markLost
  exact if_pos (by simp [ha, hl])

/-- With nothing held, nothing is looked up again (R433). -/
theorem flushHeld_none {s : State} (h : s.fab.held = []) : flushHeld s = s := by
  unfold flushHeld
  rw [h, List.foldl_nil, ← h]

end Sys2Proof.Machine

namespace Sys2Proof.Machine

/-! ## Switch timetables (O49: R429 to R432) -/

/-! ### The ports of a mask -/

theorem mem_portsOf (m p : Nat) : p ∈ portsOf m ↔ p < 48 ∧ m.testBit p = true := by
  unfold portsOf upTo
  rw [List.mem_filter, List.mem_range]
  rfl

theorem portsOf_nodup (m : Nat) : (portsOf m).Nodup := List.nodup_range.filter _

theorem portsOf_length (m : Nat) : (portsOf m).length ≤ 48 :=
  (List.length_filter_le _ _).trans (List.length_range).le

theorem portsOf_two_pow {p : Nat} (h : p < 48) : portsOf (2 ^ p) = [p] := by
  refine (List.perm_singleton.1 ((List.perm_ext_iff_of_nodup (portsOf_nodup _) (List.nodup_singleton p)).2 fun q => ?_))
  rw [mem_portsOf, Nat.testBit_two_pow, decide_eq_true_iff, List.mem_singleton]
  exact ⟨fun ⟨_, e⟩ => e.symm, fun e => ⟨e ▸ h, e.symm⟩⟩

/-- A port changed by `f`, unless it is fenced (R420). -/
def unfenced (f : LinkPort → LinkPort) (x : LinkPort) : LinkPort := if x.st = 6 then x else f x

theorem State.port_modPort (s : State) (p q : Nat) (f : LinkPort → LinkPort) :
    (s.modPort p f).port q = if q = p then f (s.port q) else s.port q := by
  split
  next h =>
    subst h
    exact State.modPort_same ..
  next h => exact State.modPort_other _ _ _ h

theorem foldl_modPort_port (f : LinkPort → LinkPort) (p : Nat) : ∀ (l : List Nat) (s : State), l.Nodup →
    (l.foldl (fun t q => t.modPort q f) s).port p = if p ∈ l then f (s.port p) else s.port p
  | [], s, _ => by simp
  | q :: l, s, hn => by
    obtain ⟨hq, hl⟩ := List.nodup_cons.1 hn
    rw [List.foldl_cons, foldl_modPort_port f p l _ hl, State.port_modPort]
    by_cases e : p = q
    · subst e
      simp [hq]
    · simp [e]

theorem modPorts_port (s : State) (m p : Nat) (f : LinkPort → LinkPort) :
    (modPorts s m f).port p = if p ∈ portsOf m then unfenced f (s.port p) else s.port p :=
  foldl_modPort_port (unfenced f) p _ s (portsOf_nodup m)

theorem modPorts_two_pow (s : State) {p : Nat} (h : p < 48) (f : LinkPort → LinkPort) :
    modPorts s (2 ^ p) f = s.modPort p (unfenced f) := by
  unfold modPorts
  rw [portsOf_two_pow h]
  rfl

theorem modPorts_fab (s : State) (m : Nat) (f : LinkPort → LinkPort) : (modPorts s m f).fab = s.fab := by
  unfold modPorts
  exact List.foldlRecOn (motive := fun t : State => t.fab = s.fab) _ _ rfl fun _ h _ _ => h

theorem modPorts_fseg (s : State) (m : Nat) (f : LinkPort → LinkPort) : (modPorts s m f).fseg = s.fseg := by
  unfold modPorts
  exact List.foldlRecOn (motive := fun t : State => t.fseg = s.fseg) _ _ rfl fun _ h _ _ => h

/-- A fold one of whose steps brings about what every later step keeps. `Q` holds throughout. -/
theorem foldl_reaches {α β : Type} {f : β → α → β} {P Q : β → Prop} {a : α} (hset : ∀ t, Q t → P (f t a))
    (hkeep : ∀ t x, P t → P (f t x)) (hQ : ∀ t x, Q t → Q (f t x)) :
    ∀ {l : List α} {t : β}, a ∈ l → Q t → P (l.foldl f t)
  | x :: l, t, ha, ht => by
    rw [List.foldl_cons]
    rcases List.mem_cons.1 ha with rfl | ha
    · exact List.foldlRecOn (motive := P) _ _ (hset t ht) fun t h x _ => hkeep t x h
    · exact foldl_reaches hset hkeep hQ ha (hQ t x ht)

/-! ### Telling the segments (R435) -/

/-- Attachment `a` is told, if its segment is one of `ids`. -/
def tellOne (ids : List Nat) (tick : Nat) (s : State) (a : Nat) : State :=
  if ids.contains (s.seg a).sgid then s.modFord a fun p => { p with reform := some tick } else s

section Tell
variable {ids : List Nat} {tick a b : Nat} {s : State}

theorem tellOne_kept (h : (s.ford b).reform.isSome = true) : ((tellOne ids tick s a).ford b).reform.isSome = true := by
  unfold tellOne
  split
  · by_cases e : b = a
    · subst e
      rw [State.modFord_same]
      rfl
    · rwa [State.modFord_other _ _ _ e]
  · exact h

theorem tellOne_fseg : (tellOne ids tick s a).fseg = s.fseg := by
  unfold tellOne
  split <;> rfl

theorem tellOne_told (h : (s.seg a).sgid ∈ ids) : ((tellOne ids tick s a).ford a).reform.isSome = true := by
  unfold tellOne
  rw [if_pos (List.contains_iff_mem.2 h), State.modFord_same]
  rfl

theorem postReform_kept (h : (s.ford b).reform.isSome = true) : ((postReform s ids tick).ford b).reform.isSome = true :=
  List.foldlRecOn (motive := fun t : State => (t.ford b).reform.isSome = true) _ _ h fun _ h _ _ => tellOne_kept h

theorem postReform_fseg : (postReform s ids tick).fseg = s.fseg :=
  List.foldlRecOn (motive := fun t : State => t.fseg = s.fseg) _ _ rfl fun _ h _ _ => tellOne_fseg.trans h

theorem postReform_told (hb : b < 16) (h : (s.seg b).sgid ∈ ids) : ((postReform s ids tick).ford b).reform.isSome = true :=
  foldl_reaches (f := tellOne ids tick) (P := fun t => (t.ford b).reform.isSome = true) (Q := fun t => t.fseg = s.fseg)
    (fun t ht => tellOne_told (by unfold State.seg at *; rwa [ht])) (fun _ _ => tellOne_kept) (fun _ _ => tellOne_fseg.trans)
    (List.mem_range.2 hb) rfl

/-- The segments of the attachments in `m` are told of the re-forming that a switch step brings (R435). -/
def tellMask (m : Nat) (s : State) : State :=
  (upTo 16).foldl (fun s a => if m.testBit a then postReform s [(s.seg a).sgid] (reformTick s a) else s) s

theorem tellMask_zero (s : State) : tellMask 0 s = s := by
  unfold tellMask
  exact List.foldlRecOn (motive := fun t : State => t = s) _ _ rfl fun t h a _ => by rw [if_neg (by simp)]; exact h

theorem tellMask_told {m : Nat} (ha : a < 16) (hb : b < 16) (hm : m.testBit a = true) (h : (s.seg b).sgid = (s.seg a).sgid) :
    ((tellMask m s).ford b).reform.isSome = true := by
  refine foldl_reaches (a := a) (P := fun t : State => (t.ford b).reform.isSome = true) (Q := fun t : State => t.fseg = s.fseg)
    (fun t ht => ?_) (fun t x ht => ?_) (fun t x ht => ?_) (List.mem_range.2 ha) rfl
  · rw [if_pos hm]
    refine postReform_told hb (List.mem_singleton.2 ?_)
    unfold State.seg at *
    rwa [ht]
  · split
    · exact postReform_kept ht
    · exact ht
  · split
    · exact postReform_fseg.trans ht
    · exact ht

end Tell

/-! ### The hold and the drain (R432) -/

section Steps
variable {s : State}

/-- The ports of a mask begin to drain. -/
def drainPorts (s : State) (m : Nat) : State := modPorts s m fun p =>
  { p with st := if p.st = 2 then 3 else p.st, drained := true, drainAcked := false }

theorem execSwitchHoldDrain_fires (h1 : (s.switch s.inp.a).st = 1) (h2 : (s.switch s.inp.a).phase = 0)
    (h3 : (stepInHand s s.inp.a).2 ≤ s.tide.toNat + (stepInHand s s.inp.a).1.dl) :
    execSwitchHoldDrain s = .next ((tellMask (stepInHand s s.inp.a).1.amask (drainPorts s (stepInHand s s.inp.a).1.pmask)).modSwitch
      s.inp.a fun c => { c with st := 2, phase := 1 }) := if_pos ⟨h1, h2, h3⟩

/-! ### Dark (R432) -/

/-- The port of `e` goes dark, with what it loses, and its Pilot sends `o` (R432). -/
def darken (o : Nat × Nat) (s : State) (e : Nat × Int) : State :=
  (modPorts s (2 ^ e.1) fun p => { p with
    st := 4, lost := if quiesced p then p.lost else satAdd (2 ^ 32 - 1) p.lost e.2.toNat }).modPilot e.1 fun x => { x with ocfg := some o }

theorem execSwitchDark_fires (h1 : (s.switch s.inp.a).phase = 1) (h2 : (stepInHand s s.inp.a).2 ≤ s.tide.toNat) :
    execSwitchDark s = .next ((((portsOf (stepInHand s s.inp.a).1.pmask).zip (s.inp.ints ++ List.replicate portCount 0)).foldl
      (darken (s.inp.a, (stepInHand s s.inp.a).1.ocfg)) s).modSwitch s.inp.a fun c => { c with phase := 2 }) := if_pos ⟨h1, h2⟩

/-- What darkening leaves of port `p` and its Pilot. -/
structure Darkened (o : Nat × Nat) (x y : LinkPort) (z : Pilot) : Prop where
  st : y.st = if x.st = 6 then 6 else 4
  lost : quiesced x = true → y.lost = x.lost
  ocfg : z.ocfg = some o

theorem darken_self (o : Nat × Nat) (s : State) {e : Nat × Int} (h : e.1 < 48) :
    Darkened o (s.port e.1) ((darken o s e).port e.1) ((darken o s e).pilot e.1) := by
  unfold darken
  rw [modPorts_two_pow s h, State.modPilot_same, State.modPilot_port, State.modPort_same]
  unfold unfenced
  split
  next h6 => exact ⟨by rw [if_pos h6, h6], fun _ => rfl, rfl⟩
  next h6 => exact ⟨by rw [if_neg h6], fun hq => if_pos hq, rfl⟩

theorem darken_other (o : Nat × Nat) (s : State) {e : Nat × Int} (h : e.1 < 48) {p : Nat} (hp : p ≠ e.1) :
    (darken o s e).port p = s.port p ∧ (darken o s e).pilot p = s.pilot p := by
  unfold darken
  rw [modPorts_two_pow s h]
  exact ⟨(State.modPilot_port ..).trans (State.modPort_other _ _ _ hp),
    (State.modPilot_other _ _ _ hp).trans (State.modPort_pilot ..)⟩

theorem foldl_darken_other (o : Nat × Nat) {p : Nat} : ∀ (l : List (Nat × Int)) (s : State), (∀ e ∈ l, e.1 < 48) →
    p ∉ l.map Prod.fst → (l.foldl (darken o) s).port p = s.port p ∧ (l.foldl (darken o) s).pilot p = s.pilot p
  | [], _, _, _ => ⟨rfl, rfl⟩
  | e :: l, s, hl, hp => by
    rw [List.map_cons, List.mem_cons, not_or] at hp
    obtain ⟨h1, h2⟩ := foldl_darken_other o l (darken o s e) (fun x hx => hl x (.tail _ hx)) hp.2
    obtain ⟨k1, k2⟩ := darken_other o s (hl e (.head _)) hp.1
    exact ⟨h1.trans k1, h2.trans k2⟩

theorem foldl_darken_each (o : Nat × Nat) {p : Nat} : ∀ (l : List (Nat × Int)) (s : State), (∀ e ∈ l, e.1 < 48) →
    (l.map Prod.fst).Nodup → p ∈ l.map Prod.fst →
      Darkened o (s.port p) ((l.foldl (darken o) s).port p) ((l.foldl (darken o) s).pilot p)
  | [], _, _, _, hp => absurd hp List.not_mem_nil
  | e :: l, s, hl, hn, hp => by
    obtain ⟨he, hn⟩ := List.nodup_cons.1 hn
    have hl' : ∀ x ∈ l, x.1 < 48 := fun x hx => hl x (.tail _ hx)
    rw [List.foldl_cons]
    by_cases hpe : p = e.1
    · subst hpe
      obtain ⟨h1, h2⟩ := foldl_darken_other o l (darken o s e) hl' he
      rw [h1, h2]
      exact darken_self o s (hl e (.head _))
    · have h := foldl_darken_each o l (darken o s e) hl' hn ((List.mem_cons.1 hp).resolve_left hpe)
      rwa [(darken_other o s (hl e (.head _)) hpe).1] at h

theorem darkPorts_each (o : Nat × Nat) (s : State) (xs : List Int) {m p : Nat} (hp : p ∈ portsOf m) :
    let t := ((portsOf m).zip (xs ++ List.replicate portCount 0)).foldl (darken o) s
    Darkened o (s.port p) (t.port p) (t.pilot p) := by
  have hfst : ((portsOf m).zip (xs ++ List.replicate portCount 0)).map Prod.fst = portsOf m := by
    refine List.map_fst_zip ((portsOf_length m).trans ?_)
    rw [List.length_append, List.length_replicate]
    exact Nat.le_add_left ..
  refine foldl_darken_each o _ s (fun e he => ((mem_portsOf m e.1).1 (List.of_mem_zip he).1).1) ?_ ?_
  · rw [hfst]
    exact portsOf_nodup m
  · rwa [hfst]

/-! ### The relock and the commit (R432) -/

theorem execSwitchRelock_fires (h1 : (s.switch s.inp.a).phase = 2)
    (h2 : (stepInHand s s.inp.a).2 + (stepInHand s s.inp.a).1.dk ≤ s.tide.toNat) : execSwitchRelock s =
      .next ((modPorts s (stepInHand s s.inp.a).1.pmask fun p => { p with st := 5, since := s.tide }).modSwitch s.inp.a fun c =>
        { c with phase := 3 }) := if_pos ⟨h1, h2⟩

/-- The ports of a mask after the step: those that are not up are down. -/
def settlePorts (s : State) (m : Nat) : State := modPorts s m fun p => { p with
  st := if p.st = 2 then 2 else 0, drained := false, peerDrained := false, drainAcked := false }

/-- Switch `a` goes on with its next step, or ends. -/
def Switch.advance (last bad ok : Bool) (c : Switch) : Switch :=
  { c with phase := 0, st := if last then 0 else 1, step := if last then 0 else c.step + 1, verr := c.verr || !ok, rfail := c.rfail || bad }

theorem execSwitchCommit_fires (h1 : (s.switch s.inp.a).phase = 3)
    (h2 : (stepInHand s s.inp.a).2 + (stepInHand s s.inp.a).1.dk + (stepInHand s s.inp.a).1.rq ≤ s.tide.toNat)
    (h3 : s.fab.held = []) :
    let r := (stepInHand s s.inp.a).1
    let c := s.switch s.inp.a
    let t := settlePorts s r.pmask
    execSwitchCommit s = .next ((if s.fab.sver == r.rver then routeSwap t else t).modSwitch s.inp.a
      (Switch.advance (decide (c.step + 1 = stepCount c c.slot)) ((portsOf r.pmask).any fun p => (s.port p).st != 2)
        (s.fab.sver == r.rver))) := by
  intro r c t
  have hheld : t.fab.held = [] := (congrArg Fabric.held (modPorts_fab ..)).trans h3
  refine (if_pos ⟨h1, .inr h2⟩).trans (congrArg Host.Outcome.next (flushHeld_none ?_))
  rw [State.modSwitch_fab]
  split <;> exact hheld

theorem settlePorts_port {m p : Nat} (hp : p ∈ portsOf m) (h6 : (s.port p).st ≠ 6) :
    ((settlePorts s m).port p).drained = false ∧ ((settlePorts s m).port p).peerDrained = false ∧
      ((settlePorts s m).port p).st = if (s.port p).st = 2 then 2 else 0 := by
  unfold settlePorts
  rw [modPorts_port, if_pos hp, unfenced, if_neg h6]
  exact ⟨rfl, rfl, rfl⟩

end Steps

end Sys2Proof.Machine

namespace Sys2Proof.Machine

/-! ## The Tide, lanes, ports and Pilots (O49: R134, R420, R427, R428, R434, R436, R437, R439, R466) -/

section Steps
variable {s : State}

/-! ### Markers and remote accesses (R424, R425, R432) -/

theorem execPacketForward_drained {xs : List Int} (ht : portTakes s s.inp.a = true) (hi : s.inp.ints = 8 :: xs) :
    execPacketForward s = .next (s.modPort s.inp.a fun p => { p with peerDrained := true }) := by
  have h0 : (s.inp.ints.map Int.toNat).getD 0 0 = 8 := by rw [hi]; rfl
  exact (if_pos ht).trans (if_pos h0)

theorem execPacketForward_drainAcked {xs : List Int} (ht : portTakes s s.inp.a = true) (hi : s.inp.ints = 9 :: xs) :
    execPacketForward s = .next (s.modPort s.inp.a fun p => { p with drainAcked := true }) := by
  have h0 : (s.inp.ints.map Int.toNat).getD 0 0 = 9 := by rw [hi]; rfl
  exact (if_pos ht).trans ((if_neg (by rw [h0]; decide)).trans (if_pos h0))

theorem execRemoteAccessTimeout_late {since va : Word} {sent : Bool} {ans : List Nat}
    (hw : (s.proc s.inp.a).wait = .remote since sent ans va) (ht : s.fab.tmo ≤ s.tide.toNat - since.toNat) :
    execRemoteAccessTimeout s =
      .next (trapHead { s with cur := s.inp.a } [(s.inp.a, NODE_UNREACHABLE, va)] (s.proc s.inp.a).r.pc) := by
  unfold execRemoteAccessTimeout
  dsimp only
  rw [hw]
  exact if_pos ht

theorem execRemoteStoreLost_lost {e : RemoteStore} {rest : List RemoteStore} (hr : (s.proc s.inp.a).remoteOut = e :: rest)
    (ha : e.va = s.inp.w) (hl : e.lost = false) (hb : s.inp.b = 1 ∨ s.fab.tmo ≤ s.tide.toNat - e.sent.toNat) :
    execRemoteStoreLost s = .next (loseStore s s.inp.a s.inp.w) :=
  if_pos (hb.imp_right fun h => by simp [hr, ha, hl, h])

/-! ### The Tide (R134, R427, R428) -/

theorem addLine_mem (l : Nat) (ls : List Nat) : l ∈ addLine l ls := by
  unfold addLine
  split
  next h => exact List.contains_iff_mem.1 h
  next h => exact List.mem_append_right _ (.head _)

theorem addLine_kept {l k : Nat} {ls : List Nat} (h : k ∈ ls) : k ∈ addLine l ls := by
  unfold addLine
  split
  · exact h
  · exact List.mem_append_left _ h

theorem poisoned_mem {xs : List Int} {x : Int} (hx : x ∈ xs) (ls : List Nat) :
    x.toNat ∈ xs.foldl (fun ls l => addLine l.toNat ls) ls :=
  foldl_reaches (P := fun ls => x.toNat ∈ ls) (Q := fun _ => True) (fun ls _ => addLine_mem _ ls) (fun _ _ h => addLine_kept h)
    (fun _ _ _ => trivial) hx trivial

/-- What tsync reads after a sample that lies `d` ticks off (R428). -/
theorem tsyncOf_sampled (s : State) (d : Int) (c : Nat) (xs : List Int) :
    tsyncOf { s with fab := { s.fab with
      offset := d, near := s.fab.trefEn && decide (d.natAbs ≤ 1), refFull := c == 1, syncPorts := xs.map Int.toNat } } =
    (s.fab.trefEn && (s.fab.node == s.fab.rnode || (decide (-1 ≤ d) && decide (d ≤ 1) && (decide (c = 1) == s.full) &&
      xs.any fun p => decide ((s.port p.toNat).st = 2)))) := by
  have hd : decide (d.natAbs ≤ 1) = (decide (-1 ≤ d) && decide (d ≤ 1)) := by
    rw [← Bool.decide_and]
    exact decide_eq_decide.2 (by omega)
  change (s.fab.trefEn && (s.fab.node == s.fab.rnode || ((s.fab.trefEn && decide (d.natAbs ≤ 1)) && (c == 1) == s.full &&
    (xs.map Int.toNat).any fun p => (s.port p).st == 2))) = _
  rw [List.any_map, hd]
  cases s.fab.trefEn <;> rfl

/-! ### Lanes (R436, R437) -/

/-- A port after one more codeword: its bin counts it, and a hit may be noted. -/
theorem countWord_port (s : State) (p lane k : Nat) : ∃ h l, (countWord s p lane k).port p =
    { s.port p with
      bins := (s.port p).bins.put (17 * lane + k) (satAdd (2 ^ 32 - 1) ((s.port p).bins.get (17 * lane + k) 0) 1)
      hit := h, hitLane := l } := by
  unfold countWord
  dsimp only
  generalize hs : s.modPort p _ = t
  have ht : t.port p = _ := hs ▸ State.modPort_same ..
  split
  · have hu : (t.modPort p fun x => { x with hit := true, hitLane := lane }).port p = { t.port p with hit := true, hitLane := lane } :=
      State.modPort_same ..
    rw [ht] at hu
    refine ⟨true, lane, ?_⟩
    split <;> exact hu
  · exact ⟨_, _, ht⟩

theorem mem_vals_put {α : Type} (m : FMap α) (k : Nat) (x : α) : x ∈ (FMap.put m k x).vals := by
  induction m with
  | nil => exact .head _
  | cons e m ih =>
    unfold FMap.put
    split
    · exact .head _
    · split
      · exact .head _
      · exact .tail _ ih

/-- The port of an uncorrectable codeword that carries a part of packet `k` (R436). -/
def replaying (s : State) (p lane k : Nat) : State :=
  (countWord s p lane 16).modPort p fun x => { x with
    uncorr := satAdd 65535 x.uncorr 1, replays := x.replays.put k (x.replays.get k 0 + 1) }

theorem execCodewordReceive_counts (ht : portTakes s s.inp.a = true) (hb : s.inp.b < 64) (hc : s.inp.c ≤ 15) :
    execCodewordReceive s = .next ((countWord s s.inp.a s.inp.b s.inp.c).modPort s.inp.a fun x =>
      { x with replays := (s.inp.ints.map Int.toNat).foldl FMap.del x.replays }) := by
  unfold execCodewordReceive
  dsimp only
  rw [if_neg (by simp [ht, hb]), if_pos hc]

theorem execCodewordReceive_replays {k : Nat} (ht : portTakes s s.inp.a = true) (hb : s.inp.b < 64) (hc : 15 < s.inp.c)
    (hi : s.inp.ints = [Int.ofNat k]) : execCodewordReceive s = .next (
      if ninthReplay ((replaying s s.inp.a s.inp.b k).port s.inp.a) then retrain (replaying s s.inp.a s.inp.b k) s.inp.a
      else replaying s s.inp.a s.inp.b k) := by
  unfold execCodewordReceive
  dsimp only
  rw [if_neg (by simp [ht, hb]), if_neg (Nat.not_le.2 hc), hi]
  rfl

/-- What an uncorrectable codeword that carries a part of packet `k` leaves of the port: a replay of `k` is counted. -/
structure Replayed (x y : LinkPort) (k : Nat) : Prop where
  st : y.st = x.st
  retrains : y.retrains = x.retrains
  uncorr : y.uncorr = satAdd 65535 x.uncorr 1
  replays : y.replays = x.replays.put k (x.replays.get k 0 + 1)

theorem replaying_port (s : State) (p lane k : Nat) : Replayed (s.port p) ((replaying s p lane k).port p) k := by
  obtain ⟨h, l, hw⟩ := countWord_port s p lane 16
  unfold replaying
  rw [State.modPort_same, hw]
  exact ⟨rfl, rfl, rfl, rfl⟩

/-! ### Ports (R420, R434, R436) -/

theorem retrain_port (s : State) (p : Nat) : (retrain s p).port p = { s.port p with
    st := 1, since := s.tide, retrains := satAdd 65535 (s.port p).retrains 1, replays := [] } := by
  unfold retrain countRetrain
  rw [State.modPilot_port, State.modPort_same]

theorem ninthReplay_iff (x : LinkPort) : ninthReplay x = true ↔ ∃ n ∈ x.replays.vals, 9 ≤ n := by
  simp [ninthReplay]

theorem execPortRetrain_attachment (ha : 48 ≤ s.inp.a) (ha' : s.inp.a < 64) (hp : (s.pilot s.inp.a).st = 1) :
    execPortRetrain s = .next (countRetrain s s.inp.a) :=
  (if_pos ha).trans (congrArg Host.Outcome.next (if_pos ⟨ha', hp⟩))

theorem execPortRetrain_fence (ha : s.inp.a < 48) (hb : s.inp.b = 1 ∨ s.inp.b = 2) :
    execPortRetrain s = .next (fencePort s s.inp.a s.inp.b) := (if_neg (Nat.not_le.2 ha)).trans (if_pos hb)

theorem fencePort_set (s : State) (p : Nat) : ((fencePort s p 1).port p).st = 6 :=
  congrArg LinkPort.st (State.modPort_same s p fun x => { x with st := 6 })

theorem fencePort_clear {p : Nat} (h : (s.port p).st = 6) : fencePort s p 2 = s.modPort p fun x => { x with st := 0 } := by
  unfold fencePort State.modPort
  rw [if_neg (by decide)]
  beta_reduce
  rw [if_pos h]

theorem execPortRetrain_down (ha : s.inp.a < 48) (hb : s.inp.b = 0) (h0 : (s.port s.inp.a).st = 0) (ht : s.thermal ≠ 2) :
    execPortRetrain s = .next (s.modPort s.inp.a fun x => { x with st := 1, since := s.tide }) :=
  (if_neg (Nat.not_le.2 ha)).trans ((if_neg (by omega)).trans (if_pos ⟨h0, ht⟩))

theorem execPortRetrain_up (ht : portTakes s s.inp.a = true) (hb : s.inp.b = 0)
    (hn : ninthReplay (s.port s.inp.a) = true ∨ (s.pilot s.inp.a).st = 1) : execPortRetrain s = .next (retrain s s.inp.a) := by
  obtain ⟨ha, hp⟩ := (portTakes_iff ..).1 ht
  exact (if_neg (Nat.not_le.2 ha)).trans ((if_neg (by omega)).trans ((if_neg (by omega)).trans (if_pos ⟨ht, hn⟩)))

theorem execPortUp_up (ha : s.inp.a < 48) (hp : (s.port s.inp.a).st = 1 ∨ (s.port s.inp.a).st = 5) (ht : s.thermal ≠ 2)
    (hh : s.fab.held = []) : execPortUp s = .next (s.modPort s.inp.a fun x => { x with
      st := 2, replays := [], peerNode := s.inp.b % 4096, peerPort := s.inp.c % 64 }) :=
  (if_pos ⟨ha, hp, ht⟩).trans (congrArg Host.Outcome.next (flushHeld_none hh))

/-! ### Pilots (R439, R466) -/

theorem startHart_pilots (s : State) (h : Nat) : (startHart s h).pilots = s.pilots := by
  unfold startHart
  dsimp only
  split
  · rfl
  · split <;> rfl

theorem startEctl_pilot (s : State) (a : Nat) :
    (startEctl s (pilotHart a)).pilot a = { s.pilot a with st := 0, kicked := s.tide } := by
  have hle : 13457 ≤ pilotHart a := Nat.le_add_right ..
  have hx : pilotHart a - 13457 = a := Nat.add_sub_cancel_left ..
  have hk : ((startHart s (pilotHart a)).modPilot a fun x => { x with st := 0, kicked := s.tide }).pilot a =
      { s.pilot a with st := 0, kicked := s.tide } := by
    rw [State.modPilot_same, State.pilot, startHart_pilots]
    rfl
  unfold startEctl
  dsimp only
  rw [if_pos hle, hx]
  split
  · exact hk
  · exact hk

end Steps

/-- Settles O49: each step runs, and what it leaves is read from the lemmas above. -/
theorem linkStepsComplete : Obligations.LinkStepsComplete := by
  unfold Obligations.LinkStepsComplete
  intro takes packet step fire each
  refine ⟨fun q n va g since vf p hne => ?_, fun q va g xs => ?_, fun xs => ?_, fun xs => ?_, fun since sent ans va => ?_, ?_,
    fun e rest => ?_, ?_, ?_, ?_, ?_, ?_, ?_, ?_, ?_, ?_, ?_, ?_,
    fun k => ?_, fun k => ?_, ?_, ?_, ?_, ?_, ?_, ?_, ?_, ?_, ?_, ?_, ?_, ?_, ?_⟩
  · rintro s ⟨⟨hi, ht, hh, hr⟩, ho, hh', hr', hp⟩
    exact ⟨_, load_answered hne hi ((portTakes_iff ..).2 ht) hh hr ho hh' hr' hp, rfl⟩
  · rintro s ⟨hi, ht, hh, hr⟩
    exact store_acknowledged hi ((portTakes_iff ..).2 ht) hh hr
  · rintro s ⟨ht, hi⟩
    exact execPacketForward_drained ((portTakes_iff ..).2 ht) hi
  · rintro s ⟨ht, hi⟩
    exact execPacketForward_drainAcked ((portTakes_iff ..).2 ht) hi
  · exact fun s ⟨hw, ht⟩ => execRemoteAccessTimeout_late hw ht
  · exact fun s _ => rfl
  · rintro s ⟨hr, ha, hl, hb⟩
    refine ⟨_, execRemoteStoreLost_lost hr ha hl hb, ?_⟩
    exact (congrArg Proc.remoteOut (State.proc_modProc ..)).trans ((congrArg _ hr).trans (markLost_head _ ha hl))
  · exact fun s h => ⟨routeSwap s, congrArg Host.Outcome.next (flushHeld_none h), rfl, rfl, rfl⟩
  · rintro s ⟨h1, h2, h3, h4⟩
    refine (execSwitchHoldDrain_fires h1 h2 h3).trans ?_
    rw [show (stepInHand s s.inp.a).1.amask = 0 from h4, tellMask_zero]
    rfl
  · rintro s ⟨h1, h2, h3⟩
    refine ⟨_, execSwitchHoldDrain_fires h1 h2 h3, congrArg Switch.phase (State.modSwitch_same ..), fun a b ha hb hm hs => ?_⟩
    refine tellMask_told ha hb hm ?_
    unfold State.seg drainPorts at *
    rwa [modPorts_fseg]
  · rintro s ⟨h1, h2⟩
    refine ⟨_, execSwitchDark_fires h1 h2, congrArg Switch.phase (State.modSwitch_same ..), fun p hp => ?_⟩
    have h := darkPorts_each (s.inp.a, (step s).ocfg) s s.inp.ints hp
    exact ⟨h.ocfg, h.st, fun hd hp hk => h.lost (by simp [quiesced, hd, hp, hk])⟩
  · exact fun s ⟨h1, h2⟩ => execSwitchRelock_fires h1 h2
  · rintro s ⟨h1, h2, h3, hv⟩
    have hok : (s.fab.sver == (stepInHand s s.inp.a).1.rver) = true := beq_iff_eq.2 hv
    refine ⟨_, execSwitchCommit_fires h1 h2 h3, ?_⟩
    beta_reduce
    rw [if_pos hok, State.modSwitch_same, State.modSwitch_fab]
    refine ⟨?_, ?_, rfl, ?_, fun p hp h6 => settlePorts_port hp h6⟩
    · exact congrArg Fabric.sver (modPorts_fab ..)
    · exact congrArg (fun f => !f.bank) (modPorts_fab ..)
    · simp only [Switch.advance, decide_eq_true_eq]
  · rintro s ⟨h1, h2, h3, hv⟩
    have hok : (s.fab.sver == (stepInHand s s.inp.a).1.rver) = false := beq_eq_false_iff_ne.2 hv
    refine ⟨_, execSwitchCommit_fires h1 h2 h3, ?_⟩
    beta_reduce
    rw [hok, if_neg Bool.false_ne_true, State.modSwitch_same, State.modSwitch_fab]
    refine ⟨congrArg Fabric.ver (modPorts_fab ..), congrArg Fabric.bank (modPorts_fab ..), rfl, Bool.or_true _⟩
  · rintro s hi
    change execTideTick s = _
    rw [execTideTick, hi]
    rfl
  · exact fun s _ => ⟨_, rfl, rfl, rfl, fun x hx => poisoned_mem hx _⟩
  · exact fun s _ => ⟨_, rfl, tsyncOf_sampled s _ _ _, rfl⟩
  · rintro s ⟨ht, hb, hc⟩
    refine ⟨_, execCodewordReceive_counts ((portTakes_iff ..).2 ht) hb hc, ?_⟩
    obtain ⟨h, l, hw⟩ := countWord_port s s.inp.a s.inp.b s.inp.c
    rw [State.modPort_same, hw]
    exact ⟨FMap.get_put_same .., rfl⟩
  · rintro s ⟨ht, hb, hc, hi, hk⟩
    have h := replaying_port s s.inp.a s.inp.b k
    have hn : ninthReplay ((replaying s s.inp.a s.inp.b k).port s.inp.a) = true :=
      (ninthReplay_iff _).2 ⟨9, by rw [h.replays, hk]; exact mem_vals_put .., le_rfl⟩
    refine ⟨_, execCodewordReceive_replays ((portTakes_iff ..).2 ht) hb hc hi, ?_⟩
    beta_reduce
    rw [if_pos hn, retrain_port, h.retrains]
    exact ⟨rfl, rfl⟩
  · rintro s ⟨ht, hb, hc, hi, hk⟩
    have h := replaying_port s s.inp.a s.inp.b k
    have hr := h.replays
    rw [hk] at hr
    have hn : ¬ ninthReplay ((replaying s s.inp.a s.inp.b k).port s.inp.a) = true := by
      rw [ninthReplay, hr]
      exact Bool.false_ne_true
    refine ⟨_, execCodewordReceive_replays ((portTakes_iff ..).2 ht) hb hc hi, ?_⟩
    rw [if_neg hn]
    exact ⟨h.st, hr, h.uncorr⟩
  · rintro s ⟨ht, hb, hn⟩
    refine ⟨_, execPortRetrain_up ((portTakes_iff ..).2 ht) hb ?_, ?_⟩
    · rwa [ninthReplay_iff]
    · beta_reduce
      rw [retrain_port]
      exact ⟨rfl, rfl, rfl⟩
  · exact fun s ⟨ha, hb, h0, ht⟩ => execPortRetrain_down ha hb h0 ht
  · rintro s ⟨ha, ha', hp⟩
    exact ⟨_, execPortRetrain_attachment ha ha' hp, congrArg Pilot.retrains (State.modPilot_same ..)⟩
  · rintro s ⟨ha, hb⟩
    refine ⟨_, execPortRetrain_fence ha (.inl hb), ?_⟩
    rw [hb]
    exact ⟨fencePort_set .., rfl⟩
  · rintro s ⟨ha, hb, h6⟩
    refine (execPortRetrain_fence ha (.inr hb)).trans ?_
    rw [hb, fencePort_clear h6]
  · exact fun s h => if_pos h
  · rintro s ⟨ha, hp, ht, hh⟩
    refine ⟨_, execPortUp_up ha hp ht hh, ?_⟩
    beta_reduce
    rw [State.modPort_same]
    exact ⟨rfl, rfl, rfl⟩
  · exact fun s h => congrArg Host.Outcome.next (if_pos h)
  · exact fun s h => if_pos h
  · rintro s ⟨ha, h0, hk⟩
    refine ⟨_, if_pos ⟨ha, h0, hk⟩, ?_⟩
    beta_reduce
    rw [State.modProc_pilot, State.modPilot_same]
    exact ⟨rfl, rfl, rfl, congrArg Proc.r (State.proc_modProc ..), rfl⟩
  · rintro s ⟨ha, h1⟩
    refine ⟨_, if_pos h1, ?_⟩
    beta_reduce
    unfold State.pilot
    rw [startHart_pilots]
    have h := State.modPilot_same s s.inp.a fun x => { x with st := 0, kicked := s.tide, tune := x.shadow }
    unfold State.pilot at h
    rw [h]
    exact ⟨rfl, rfl, rfl⟩
  · rintro s ⟨ha, h3⟩
    refine ⟨startEctl s (pilotHart s.inp.a), (if_neg (by rw [h3]; decide)).trans (if_pos h3), ?_⟩
    beta_reduce
    rw [startEctl_pilot]
    exact ⟨rfl, rfl, rfl⟩
  · rintro s ⟨ha, h0⟩
    refine ⟨_, if_pos ⟨ha, h0⟩, ?_⟩
    beta_reduce
    rw [State.modPilot_same]

end Sys2Proof.Machine
